-- ==== Sys2Proof/Word.lean ====
section
/-!
DEFINITION. The words of the SQ4816: fixed-width bit vectors, bytes, and sparse maps.
-/
namespace Sys2Proof

/-- A byte (00 R11). -/
abbrev Byte := BitVec 8
/-- A 16-bit word. -/
abbrev U16 := BitVec 16
/-- A 32-bit word. -/
abbrev U32 := BitVec 32
/-- A 64-bit word. -/
abbrev U64 := BitVec 64
/-- A string of bytes. -/
abbrev Bytes := List Byte

/-- A sparse map by natural number. Every map of the machine keeps one canonical form: keys strictly rising and no
entry equal to the value an unlisted key reads as. -/
abbrev SMap (α : Type) := List (Nat × α)

end Sys2Proof
end

