-- ==== Sys2Proof/Config.lean ====
section
/-!
DEFINITION. What an implementation fixes and what the spec leaves open: opaque constants without a body, so that no
proof can see a value of them.
-/
namespace Sys2Proof.Config

/-- What is free: results of standards that the spec names and does not restate and that the model does not compute (Classic McEliece, HQC,
the candidates of FN-DSA), the seeds of HSS, and values of the device that the spec gives no rule for. -/
inductive Prim
  | mcElieceKeygenPk | mcElieceKeygenSk | mcElieceEncapsCt | mcElieceEncapsSs | mcElieceDecaps
  | hqcKeygenEk | hqcEncapsCt | hqcEncapsSs | hqcDecaps
  | fnDsaKeygenSk | fnDsaSign | hssSeed | hssRandom
  | expandS | ballBlocks | rsaKeygenN | evenInverse | vendorRoutine
  | flintBlock | drbgSpent | unstatedCycles | slotOverflow | sysRegion | fabricDelay | microPc | planId
  | bootRom | measJoin | measVersion | bistExpect
  deriving DecidableEq, Repr

/-- The questions whose answer is free. -/
inductive Check
  | fnDsaSkConsistent | trimUp | tinyBefore | roundInexact | fmaInvalid
  deriving DecidableEq, Repr

/-- Free value: octets, one value for the same arguments (log 4). -/
opaque prim : Prim → List (List (BitVec 8)) → List (BitVec 8)

/-- Free value: a truth value, one for the same arguments (log 4). -/
opaque test : Check → List (List (BitVec 8)) → Bool

/-- Free value: a number, one for the same arguments (log 4). -/
opaque count : Prim → List (List (BitVec 8)) → Nat

/-- Free value: the DRBG's n-th output byte since the last power-on (11; log 4). -/
opaque random : Nat → BitVec 8

/-- Free value: the n-th of the values the spec leaves open for an instruction that goes on (log 4). -/
opaque open64 : Nat → BitVec 64

end Sys2Proof.Config
end

