-- ==== Sys2Proof/Syntax.lean ====
section
/-!
DEFINITION. The commands of the block: one constructor per row of spec/opcode_table.json, with the operands each takes.
-/
namespace Sys2Proof

/-! ## Operands -/

/-- What a read of host memory returned: its data, or a failed read (19 R543). -/
inductive DmaRes
  | data (b : Bytes) | ur | ca | poison
  deriving DecidableEq, Repr

/-- The sides of a job that read host memory (19 R543). -/
inductive DmaSide
  | input | aux | inList | outList
  deriving DecidableEq, Repr

/-- The read that timed out: of an entry, or of a job (19 R543). -/
inductive DmaTarget
  | entry (q : Nat) | job (j : Nat) (side : DmaSide)
  deriving DecidableEq, Repr

/-- The JTAG instructions that hold the device (20 R568). -/
inductive HoldInsn
  | extest | clamp | highz
  deriving DecidableEq, Repr

/-- A memory failure that a self-test records (16 R474). -/
structure MemFail where
  code     : BitVec 16 := 0
  addr     : BitVec 24 := 0
  bit      : BitVec 7 := 0
  count    : BitVec 8 := 1
  repaired : Bool := false
  deriving DecidableEq, Repr

/-- What the logic self-test of a partition writes into its record: the pattern count (none: the required one), whether the
signature matches, the done mark, and whether something was written after it (16 R464, R465). -/
structure LogicRec where
  count    : Option (BitVec 24) := none
  sigOk    : Bool := true
  done     : Bool := true
  orderErr : Bool := false
  deriving DecidableEq, Repr

/-- What the world shows to a start sequence: the outcomes of its physical tests (01 R25, 11 R348, 14 R427, 15 R439,
16 R458-R466, 18 R504). -/
structure StartEnv where
  /-- Hottest and coldest Tj at entry to SELFTEST, in 0.125 °C. -/
  tjHi : Int := 400
  tjLo : Int := 400
  /-- The memory self-test: whether every memory passes, the failure recorded, and the spares. -/
  memOk : Bool := true
  memFail : Option MemFail := none
  repaired : BitVec 16 := 0
  spareMin : BitVec 8 := 6
  codeMin : BitVec 16 := 0
  /-- The logic records of the partitions that do not show a plain pass. -/
  logic : List (Nat × LogicRec) := []
  /-- Whether the NVM answers, and its mode straps. -/
  nvmOk : Bool := true
  nvmMode : BitVec 2 := 0
  /-- Whether a control-store bank fails its CRC after three writes. -/
  storeBad : Bool := false
  /-- Whether the routes of the FABRIC block pass the walks of 18 R504. -/
  routesOk : Bool := true
  /-- The Flint sources that pass their start-up tests in SEED. -/
  flintOk : List Bool := [true, true, true, true]
  /-- Whether the conditioner and DRBG known-answer tests pass. -/
  katOk : Bool := true
  /-- Persistent records whose tag fails at load, by slot key. -/
  badTags : List Nat := []
  /-- Checkpointed records whose CRC fails at load, by TYPE and SUBJECT. -/
  badRecs : List Nat := []
  /-- Durations of BOOT, SELFTEST, LOAD and SEED in 10 µs units. -/
  times : List (BitVec 16) := []
  /-- Steps of a life-cycle transition whose OTP read-back fails after three writes. -/
  otpFail : List Nat := []
  /-- Epochs whose read-back fails when they are programmed. -/
  epochBad : List Nat := []
  /-- A memory that fails its verify in S2 after three clears. -/
  scrubFail : Option (BitVec 16) := none
  deriving DecidableEq, Repr

/-- Fields of configuration space that the spec gives an effect and no row of its own (19 R531-R533, R542). -/
inductive CfgField
  | cto (v : BitVec 4) | mps (bytes : Nat) | mrrs (bytes : Nat) | relaxed (on : Bool)
  deriving DecidableEq, Repr

/-- Items of configuration space that a read returns: those of the header and of SR-IOV with their values (19 R532), and the fields
that this table's rows write (19 R531-R535, R545, 13 R401). -/
inductive CfgItem
  | vendorId | deviceId | revisionId | classCode | subsystemVendorId | subsystemId | serialNumber
  | totalVfs | initialVfs | numVfs | vfEnable | firstVfOffset | vfStride | vfDeviceId | supportedPageSizes
  | busMaster | memorySpace | powerState | msixEnable | functionMask | timeout | payload | readRequest | relaxedOrdering
  deriving DecidableEq, Repr

/-- An access that reaches a function: a write or a read of a BAR, or a write or a read in its configuration space. -/
inductive RegAccess
  | bar (n off : Nat) (data : Bytes)
  | read (n off size : Nat)
  | cfg (w : CfgField)
  | cfgRead (i : CfgItem)
  deriving DecidableEq, Repr

/-- A write to the MSI-X controls (19 R545). -/
inductive MsixWrite
  | vector (v : Nat) (masked : Bool) | function (enable masked : Bool)
  deriving DecidableEq, Repr

/-- A command word of a modular program (06 R205). -/
structure MpWord where
  op  : Byte := 0
  d   : Byte := 0
  a   : Byte := 0
  b   : Byte := 0
  chk : Byte := 0
  le  : Bool := false
  imm : U32 := 0
  deriving DecidableEq, Repr

/-- Where and when a polynomial core issues an instruction: the core and the core cycle of the issue. -/
structure PyAt where
  core : Nat := 0
  t    : Nat := 0
  deriving DecidableEq, Repr

/-- Format A (07 R240). -/
structure FmtA where
  d : BitVec 5 := 0
  a : BitVec 5 := 0
  b : BitVec 5 := 0
  m : Bool := false
  k : BitVec 3 := 0
  x : BitVec 3 := 0
  deriving DecidableEq, Repr

/-- Format Q (07 R240). -/
structure FmtQ where
  d : BitVec 5 := 0
  a : BitVec 5 := 0
  b : BitVec 5 := 0
  c : BitVec 5 := 0
  x : BitVec 2 := 0
  deriving DecidableEq, Repr

/-- Format I (07 R240). -/
structure FmtI where
  d   : BitVec 5 := 0
  a   : BitVec 5 := 0
  imm : BitVec 12 := 0
  deriving DecidableEq, Repr

/-- Format U (07 R240). -/
structure FmtU where
  d   : BitVec 5 := 0
  imm : BitVec 17 := 0
  deriving DecidableEq, Repr

/-- Format S (07 R240). -/
structure FmtS where
  b   : BitVec 5 := 0
  a   : BitVec 5 := 0
  imm : BitVec 12 := 0
  deriving DecidableEq, Repr

/-- Format J (07 R240). -/
structure FmtJ where
  d   : BitVec 5 := 0
  off : BitVec 17 := 0
  deriving DecidableEq, Repr

/-- Format M (07 R240). -/
structure FmtM where
  v   : BitVec 5 := 0
  a   : BitVec 5 := 0
  m   : Bool := false
  k   : BitVec 3 := 0
  off : BitVec 8 := 0
  deriving DecidableEq, Repr

/-- Formats T and P (07 R240). -/
structure FmtT where
  d   : BitVec 5 := 0
  a   : BitVec 5 := 0
  b   : BitVec 5 := 0
  imm : BitVec 7 := 0
  deriving DecidableEq, Repr

/-- Format H (07 R240). -/
structure FmtH where
  v   : BitVec 5 := 0
  u   : BitVec 2 := 0
  s   : BitVec 2 := 0
  p   : Bool := false
  len : BitVec 12 := 0
  deriving DecidableEq, Repr

/-- Format K (07 R240). -/
structure FmtK where
  d   : BitVec 5 := 0
  a   : BitVec 5 := 0
  b   : BitVec 5 := 0
  ord : BitVec 2 := 1
  x   : Bool := false
  rsv : BitVec 4 := 0
  deriving DecidableEq, Repr

/-- The fields of a micro-op (08 R268). -/
structure UFmt where
  a   : BitVec 5 := 0
  b   : BitVec 5 := 0
  c   : BitVec 5 := 0
  imm : BitVec 12 := 0
  deriving DecidableEq, Repr

/-- The outcome of an in-service test (16 R467): the step that fails, 0 for none, what the memories showed, and the logic record. -/
structure IsResult where
  step     : Nat := 0
  mem      : Option MemFail := none
  spareMin : BitVec 8 := 6
  codeMin  : BitVec 16 := 0
  logic    : LogicRec := {}
  deriving DecidableEq, Repr

/-- Where an uncorrectable memory error is found (16 R472). -/
inductive EccSite
  | fatal | supvRam | jobMem (j : Nat) (code : BitVec 16) | granule (j : Option Nat) (code : BitVec 16) (owner slot : Nat)
  | tileLine (core : Nat) (line : Nat)
  deriving DecidableEq, Repr

/-- The frame types (18 R507). -/
inductive FType
  | submit | complete | rdReq | rdData | wrData | abandon | abandonDone | creditGrant | ackNak | heartbeat | time | handshake
  | config | record | amber | fate | rekey
  deriving DecidableEq, Repr

/-- A Brynique frame on a link: the port it passes, its header, whether its CRC and its GCM tag hold at the receiver, its payload
in the clear (18 R506, R511; log 38). -/
structure Frame where
  port  : Nat := 0
  dst   : Nat := 0
  src   : Nat := 0
  dl    : Bool := false
  ar    : Bool := false
  lseq  : BitVec 12 := 0
  eseq  : U64 := 0
  crcOk : Bool := true
  tagOk : Bool := true
  body  : Bytes := []
  deriving DecidableEq, Repr

/-- What happens to a Brynique link: it goes down, it trains, it comes up, a retrain fails (18 R503, R505, R508). -/
inductive LinkEv
  | down | train | up | failed
  deriving DecidableEq, Repr

/-- What a debugger reads of a halted sequencer: an x, v or m register, a core control register, the machine PC, or a 64-byte line of the
tile, of Slate or of the node buffer (08 R289). -/
inductive ArchSel
  | x (n : BitVec 5) | v (n : BitVec 5) | m (n : BitVec 3) | ccr (n : Nat) | pc | line (n : Nat)
  deriving DecidableEq, Repr

/-- What the debugger asks of a sequencer or of the supervisor (08 R289, 14 R433). -/
inductive DebugOp
  | seq | supv | step | go | arch (sel : ArchSel)
  deriving DecidableEq, Repr

/-- The commands. Jobs are named by the number of their fetch, functions 0 (PF) to 255, queues by the function's own
numbering, engines by their cell of the deal table (09 R304), sequencers 0-15 PY, 16-23 ME, 24-27 TS (08 R266). -/
inductive Instr
  /-- POR_N is asserted or a supply falls below the power-on threshold; the device resets fully and clears the Bedrock domain and Amber. (R29) -/
  | porNAssert
  /-- POR_N is released; the straps are latched, the detectors are armed, Bedrock runs and the device enters BEDROCK. (R563) -/
  | porNRelease (fabId : BitVec 6) (smbAddr : BitVec 3) (env : StartEnv)
  /-- VDD_BR falls below 0.70 V and Bedrock itself is reset, with the effect of a POR. (R569) -/
  | bedrockBrownout
  /-- PERST_N is asserted; the device goes to BEDROCK and abandons its jobs. (R29) -/
  | perstNAssert
  /-- PERST_N is released; the PLL locks and the start sequence begins. (R439) -/
  | perstNRelease (env : StartEnv)
  /-- Tj has stayed within range for 1 s after a SAFE entry with cause 0x08, and the supervisor performs a soft reset. (R458) -/
  | selftestTempWait (env : StartEnv)
  /-- A PCIe hot reset or link down occurs; the device abandons its jobs, clears its queues and reruns SEED. (R29) -/
  | hotReset (env : StartEnv)
  /-- Initiate FLR is written in the PF; the PF and all VFs are reset while READY is kept. (R30) -/
  | pfFlr
  /-- Initiate FLR is written in a VF; that VF's reset begins. (R409) -/
  | vfFlr (f : Nat)
  /-- The VF's outstanding reads have completed or timed out; the VF returns to ACTIVE and RESET_DONE is set. (R409) -/
  | vfResetDone (f : Nat)
  /-- A GLB_RST_CTL write with SOFT = 1 and KEY 0xA5C3 checkpoints the recorder and restarts from BOOT. (R34) -/
  | softReset (key : U16) (env : StartEnv)
  /-- EXTEST, CLAMP or HIGHZ is loaded and holds the device as with PERST_N asserted. (R568) -/
  | jtagHoldInstr (k : HoldInsn)
  /-- The TAP reaches Test-Logic-Reset or TRST_N asserts; the hold ends and the full start sequence runs. (R568) -/
  | jtagTestLogicReset (env : StartEnv)
  /-- The JTAG BYPASS instruction. (R568) -/
  | bypass
  /-- The JTAG IDCODE instruction returns 0xB481_678B. (R568) -/
  | idcode
  /-- The JTAG SAMPLE/PRELOAD instruction. (R568) -/
  | samplePreload
  /-- The JTAG DEBUG instruction selects the debug TAP, which reaches the LC registers, the token window and the granted scopes. (R568) -/
  | jtagDebug
  /-- A VCORE, VSRAM, VAUX, CLK, TLOW or THIGH detector fires; the device writes GLITCH, freezes and takes a RESET or ZEROISE response. (R335) -/
  | detectorEvent (first : Nat) (second : Nat) (refclkLost : Bool) (env : StartEnv)
  /-- VDDA_SER or VDDH_SER leaves its range; the links go down with the effects of a hot reset. (R562) -/
  | serdesRailLoss (env : StartEnv)
  /-- The 1 ms sensor read updates Tj and may set TJ_HI, TJ_LO or RAIL_WARN. (R571) -/
  | sensorRead (tj : (List (BitVec 16))) (rails : (List U16))
  /-- A 32-bit write at doorbell offset 0 gives an SQ's new tail, which is checked for range and accepted or stops the queue. (R53) -/
  | sqDoorbell (f : Nat) (q : Nat) (tail : U32)
  /-- A write at doorbell offset 4 gives a CQ's new head, which is accepted or ignored with HEAD_ERR. (R54) -/
  | cqHeadDoorbell (f : Nat) (q : Nat) (head : U32)
  /-- A 64-bit doorbell write gives both the SQ tail and the CQ head, the tail first. (R52) -/
  | doorbell64 (f : Nat) (q : Nat) (tail : U32) (head : U32)
  /-- A write of 4 to 64 bytes into an SQ's push window is assembled, or discarded when the queue is not enabled. (R55) -/
  | pushWindowWrite (f : Nat) (q : Nat) (off : Nat) (data : Bytes)
  /-- The Dealer takes the next entry of an SQ once a slot, credit and journal entry can be reserved and no fence holds it. (R14) -/
  | entryFetch (o : Nat)
  /-- The read of an entry from host memory returns, and the entry's form is checked. (R77) -/
  | entryReadDone (q : Nat) (r : DmaRes)
  /-- The Dealer places a waiting job on an engine whose current cell its owner occupies. (R308) -/
  | jobPlace (j : Nat)
  /-- The unwrap of a KEY0 blob on a symmetric unit ends, and the main job is placed or refused. (R379) -/
  | blobUnwrapDone (j : Nat)
  /-- One half of a hybrid job completes, and the join buffer holds its result or the core half resumes. (R117) -/
  | hybridHalfDone (j : Nat) (ec : Bool)
  /-- A completion for a DMA read of input, AUX or an SGL arrives and is delivered, or marks a failed read. (R540) -/
  | dmaReadCompletion (j : Nat) (side : DmaSide) (r : DmaRes)
  /-- A DMA read times out; the job ends with DMA_ERROR or the SQ stops with FETCH_ERROR. (R543) -/
  | dmaReadTimeout (t : DmaTarget)
  /-- The output SGL check completes, and the waiting output, commit or completion proceeds, or the job ends with SGL_INVALID. (R43) -/
  | outputListChecked (j : Nat)
  /-- The DMA fill of an input page ends, the page becomes present and a waiting load issues again. (R230) -/
  | inputPageFilled (c : Nat) (page : Nat)
  /-- The aux area has been filled and JWAIT 16 ends. (R232) -/
  | auxFillDone (c : Nat)
  /-- The output buffer drains enough for a waiting JOUT or HALT to proceed. (R233) -/
  | outputBufferRoom (c : Nat)
  /-- The MRAM write of a persistent key ends, and the waiting JKDONE proceeds. (R236) -/
  | mramCommitDone (j : Nat)
  /-- COAL_TIME µs pass since the first unsignalled completion, and the CQ's message is sent. (R62) -/
  | coalTimerExpiry (c : Nat)
  /-- The yield watchdog reaches 2,048 core cycles, or 2,730 hash cycles, and the job ends with YIELD_TIMEOUT. (R284) -/
  | yieldTimeout (cell : Nat)
  /-- A new trick begins with the occupants fixed at the decision point, and deadlines of placed jobs are checked. (R303) -/
  | trickBoundary
  /-- At the decision point the Dealer fixes the occupants of the coming trick and opens the turnover window. (R303) -/
  | decisionPoint
  /-- At a round boundary a pending table takes effect, APPLY shares take effect and the duty level may rise. (R318) -/
  | roundBoundary
  /-- Tj stays at or below OFF for 100 ms, and the duty level falls by 1. (R319) -/
  | dutyCoolTimer
  /-- Q_SQ_CFG is written with EN = 1 while EN = 0; the enable is checked and refused or the SQ starts fetching. (R73) -/
  | sqEnable (f : Nat) (q : Nat) (v : U64)
  /-- Q_SQ_CFG is written with EN = 0; fetching stops, and with ABORT the SQ's jobs are discarded. (R74) -/
  | sqDisable (f : Nat) (q : Nat) (v : U64)
  /-- Q_CQ_CFG is written with EN = 1; the enable is checked against its size and vector. (R76) -/
  | cqEnable (f : Nat) (q : Nat) (v : U64)
  /-- Q_CQ_CFG is written with EN = 0; the disable is refused while SQs are bound or slots are reserved. (R75) -/
  | cqDisable (f : Nat) (q : Nat) (v : U64)
  /-- Q_SQ_HEAD is written while the SQ is disabled, which sets both HEAD and TAIL. (R68) -/
  | sqHeadWrite (f : Nat) (q : Nat) (v : U32)
  /-- Q_CQ_PTR is written while the CQ is disabled, which sets both TAIL and HEAD. (R71) -/
  | cqPtrWrite (f : Nat) (q : Nat) (v : U32)
  /-- A write to a register that has no row of its own, including split 64-bit accesses and RW1C clears. (R8) -/
  | registerWrite (f : Nat) (a : RegAccess)
  /-- The control operation NOP completes OK; with FENCE it shows that all earlier jobs are done. (R81) -/
  | nop (j : Nat)
  /-- The control operation ECHO copies IN to OUT. (R81) -/
  | echo (j : Nat)
  /-- The control operation QUERY_CAPS writes the capability structure for the job's owner. (R550) -/
  | queryCaps (j : Nat)
  /-- The control operation TIME writes TB and the boot count. (R81) -/
  | time (j : Nat)
  /-- The control operation FATE_QUERY performs a fate query and writes the records. (R81) -/
  | fateQuery (j : Nat)
  /-- The control operation FATE_RELEASE releases the owner's fate records of a boot. (R81) -/
  | fateRelease (j : Nat)
  /-- The control operation NOTIFY completes OK and signals at once. (R81) -/
  | notify (j : Nat)
  /-- JRN_FQ_CMD OP BY_JOB returns the fate of one job. (R88) -/
  | byJob (f : Nat)
  /-- JRN_FQ_CMD OP BY_KEY returns the next record of a key. (R88) -/
  | byKey (f : Nat)
  /-- JRN_FQ_CMD OP RELEASE releases the record named by the BY_JOB arguments. (R88) -/
  | release (f : Nat)
  /-- JRN_FQ_CMD OP 0x4 releases every record of the boot in ARG1. (R88) -/
  | releaseBoot (f : Nat)
  /-- Class 0x1 KEYGEN generates an ML-KEM or hybrid key pair. (R101) -/
  | kemKeygen (j : Nat)
  /-- Class 0x1 ENCAPS encapsulates to a public key. (R101) -/
  | kemEncaps (j : Nat)
  /-- Class 0x1 DECAPS decapsulates with implicit rejection. (R103) -/
  | kemDecaps (j : Nat)
  /-- Class 0x1 ENCAPS_KEEP encapsulates and keeps the secret in the key cache. (R105) -/
  | kemEncapsKeep (j : Nat)
  /-- Class 0x1 DECAPS_KEEP decapsulates and keeps the secret in the key cache. (R105) -/
  | kemDecapsKeep (j : Nat)
  /-- EK_CHECK applies the FIPS 203 encapsulation-key checks to IN. (R102) -/
  | ekCheck (j : Nat)
  /-- Class 0x1 PUB_EXPORT writes the public key of KEY0. (R91) -/
  | kemPubExport (j : Nat)
  /-- Class 0x2 KEYGEN generates an ML-DSA or FN-DSA key pair. (R92) -/
  | dsaKeygen (j : Nat)
  /-- Class 0x2 SIGN performs pure signing with a context string. (R106) -/
  | dsaSign (j : Nat)
  /-- SIGN_PH performs HashML-DSA signing of a host digest. (R106) -/
  | signPh (j : Nat)
  /-- SIGN_MU signs an external µ. (R106) -/
  | signMu (j : Nat)
  /-- Class 0x2 VERIFY performs pure verification. (R110) -/
  | dsaVerify (j : Nat)
  /-- VERIFY_PH performs HashML-DSA verification. (R110) -/
  | verifyPh (j : Nat)
  /-- VERIFY_MU verifies against an external µ. (R110) -/
  | verifyMu (j : Nat)
  /-- Class 0x2 PUB_EXPORT writes the public key of KEY0. (R92) -/
  | dsaPubExport (j : Nat)
  /-- Class 0x3 KEYGEN generates an SLH-DSA key or a stateful key with its path cache. (R135) -/
  | hbsKeygen (j : Nat)
  /-- Class 0x3 SIGN signs with SLH-DSA, or takes an index and signs statefully. (R143) -/
  | hbsSign (j : Nat)
  /-- Class 0x3 SIGN_PH signs a digest with SLH-DSA. (R136) -/
  | hbsSignPh (j : Nat)
  /-- Class 0x3 VERIFY verifies a hash-based signature. (R138) -/
  | hbsVerify (j : Nat)
  /-- Class 0x3 VERIFY_PH verifies a SLH-DSA signature over a digest. (R138) -/
  | hbsVerifyPh (j : Nat)
  /-- Class 0x3 PUB_EXPORT writes the public key. (R135) -/
  | hbsPubExport (j : Nat)
  /-- ADVANCE builds the next tree at a level and writes its region image. (R145) -/
  | advance (j : Nat)
  /-- REBUILD writes the path-cache image of the trees that hold the next index. (R145) -/
  | rebuild (j : Nat)
  /-- Class 0x4 KEYGEN generates a Classic McEliece or HQC key pair, in cluster mode for the larger sets. (R172) -/
  | codeKeygen (j : Nat)
  /-- Class 0x4 ENCAPS encapsulates, streaming a large key through the window. (R167) -/
  | codeEncaps (j : Nat)
  /-- Class 0x4 DECAPS decapsulates with implicit rejection. (R165) -/
  | codeDecaps (j : Nat)
  /-- Class 0x4 ENCAPS_KEEP encapsulates and keeps the secret. (R163) -/
  | codeEncapsKeep (j : Nat)
  /-- Class 0x4 DECAPS_KEEP decapsulates and keeps the secret. (R163) -/
  | codeDecapsKeep (j : Nat)
  /-- Class 0x4 PK_LOAD checks a public key and stores it as a public-key object. (R169) -/
  | codePkLoad (j : Nat)
  /-- Class 0x4 PUB_EXPORT writes the public key. (R163) -/
  | codePubExport (j : Nat)
  /-- Class 0x5 KEYGEN generates an EC, RSA or FFDH key. (R196) -/
  | pkKeygen (j : Nat)
  /-- Class 0x5 SIGN performs ECDSA, EdDSA or RSASSA-PSS signing. (R192) -/
  | pkSign (j : Nat)
  /-- SIGN_V15 performs RSASSA-PKCS1-v1_5 signing. (R199) -/
  | signV15 (j : Nat)
  /-- Class 0x5 VERIFY verifies an ECDSA, EdDSA or RSASSA-PSS signature. (R192) -/
  | pkVerify (j : Nat)
  /-- VERIFY_V15 verifies an RSASSA-PKCS1-v1_5 signature. (R199) -/
  | verifyV15 (j : Nat)
  /-- Class 0x5 PUB_EXPORT writes the public key. (R184) -/
  | pkPubExport (j : Nat)
  /-- DH computes an ECC CDH, X25519, X448 or FFC DH shared secret. (R193) -/
  | dh (j : Nat)
  /-- DH_KEEP computes a shared secret and keeps it in the key cache. (R186) -/
  | dhKeep (j : Nat)
  /-- Class 0x5 PK_LOAD validates a public key and stores it. (R193) -/
  | pkLoad (j : Nat)
  /-- CURVE_LOAD checks curve parameters and creates a parameter object. (R197) -/
  | curveLoad (j : Nat)
  /-- ENCRYPT performs RSAES-OAEP encryption. (R199) -/
  | encrypt (j : Nat)
  /-- DECRYPT performs RSAES-OAEP decryption. (R199) -/
  | decrypt (j : Nat)
  /-- PRIV_RAW applies the bare RSA private primitive. (R199) -/
  | privRaw (j : Nat)
  /-- PUB_RAW applies the bare RSA public primitive. (R199) -/
  | pubRaw (j : Nat)
  /-- Class 0x6 RUN validates and executes a modular program. (R204) -/
  | modRun (j : Nat)
  /-- Modular command LOAD loads a checked operand from IN. (R206) -/
  | mpLoad (e : Nat) (w : MpWord)
  /-- Modular command LOADX loads an unchecked operand. (R206) -/
  | mpLoadx (e : Nat) (w : MpWord)
  /-- Modular command LOADK loads a key component as a secret slot. (R206) -/
  | mpLoadk (e : Nat) (w : MpWord)
  /-- Modular command SETI sets a slot to IMM. (R206) -/
  | mpSeti (e : Nat) (w : MpWord)
  /-- Modular command COPY copies a slot. (R206) -/
  | mpCopy (e : Nat) (w : MpWord)
  /-- Modular command ADD adds mod N. (R206) -/
  | mpAdd (e : Nat) (w : MpWord)
  /-- Modular command SUB subtracts mod N. (R206) -/
  | mpSub (e : Nat) (w : MpWord)
  /-- Modular command MMUL performs a Montgomery multiplication. (R206) -/
  | mmul (e : Nat) (w : MpWord)
  /-- Modular command TOM converts to M-form. (R206) -/
  | tom (e : Nat) (w : MpWord)
  /-- Modular command FROMM converts from M-form. (R206) -/
  | fromm (e : Nat) (w : MpWord)
  /-- Modular command INV computes a modular inverse. (R206) -/
  | inv (e : Nat) (w : MpWord)
  /-- Modular command EXP computes a modular exponentiation. (R206) -/
  | exp (e : Nat) (w : MpWord)
  /-- Modular command STORE writes a slot to OUT. (R206) -/
  | store (e : Nat) (w : MpWord)
  /-- Class 0x7 DIGEST hashes a message. (R127) -/
  | hashDigest (j : Nat)
  /-- Class 0x7 MAC computes an HMAC or KMAC tag. (R129) -/
  | hashMac (j : Nat)
  /-- MAC_VERIFY compares a tag in constant time. (R129) -/
  | macVerify (j : Nat)
  /-- Class 0x7 INIT starts a stream and seals its context. (R127) -/
  | hashInit (j : Nat)
  /-- Class 0x7 UPDATE checks, extends and reseals a context. (R133) -/
  | hashUpdate (j : Nat)
  /-- Class 0x7 FINAL opens a context and writes the digest or tag. (R133) -/
  | hashFinal (j : Nat)
  /-- FINAL_VERIFY opens a context and verifies the expected tag. (R133) -/
  | finalVerify (j : Nat)
  /-- GCM_ENC performs AES-GCM encryption. (R387) -/
  | gcmEnc (j : Nat)
  /-- GCM_DEC checks the tag and then decrypts. (R388) -/
  | gcmDec (j : Nat)
  /-- CTR performs AES counter mode. (R387) -/
  | ctr (j : Nat)
  /-- XTS_ENC performs AES-XTS encryption. (R387) -/
  | xtsEnc (j : Nat)
  /-- XTS_DEC performs AES-XTS decryption. (R387) -/
  | xtsDec (j : Nat)
  /-- KW_WRAP performs AES-KW wrapping. (R387) -/
  | kwWrap (j : Nat)
  /-- KW_UNWRAP performs AES-KW unwrapping. (R388) -/
  | kwUnwrap (j : Nat)
  /-- KWP_WRAP performs AES-KWP wrapping. (R387) -/
  | kwpWrap (j : Nat)
  /-- KWP_UNWRAP performs AES-KWP unwrapping. (R388) -/
  | kwpUnwrap (j : Nat)
  /-- AEAD_ENC performs ChaCha20-Poly1305 encryption. (R387) -/
  | aeadEnc (j : Nat)
  /-- AEAD_DEC performs ChaCha20-Poly1305 decryption. (R388) -/
  | aeadDec (j : Nat)
  /-- GENERATE writes DRBG output, reseeding first when PR = 1. (R357) -/
  | generate (j : Nat)
  /-- COND_KAT applies the conditioner to 1,024 given samples. (R358) -/
  | condKat (j : Nat)
  /-- DRBG_KAT runs a CTR_DRBG test sequence on a separate instance. (R359) -/
  | drbgKat (j : Nat)
  /-- RAW reads raw samples of one source. (R360) -/
  | rngRaw (j : Nat)
  /-- SECRET_GEN creates a secret-key object from the DRBG. (R383) -/
  | secretGen (j : Nat)
  /-- DERIVE derives a secret object from a secret key. (R384) -/
  | derive (j : Nat)
  /-- BLOB_EXPORT writes a key as a blob. (R377) -/
  | blobExport (j : Nat)
  /-- BLOB_IMPORT checks a blob and creates an object. (R378) -/
  | blobImport (j : Nat)
  /-- KW_EXPORT writes a key wrapped with AES-KWP under a KEK. (R380) -/
  | kwExport (j : Nat)
  /-- KW_IMPORT unwraps, checks and creates a key. (R380) -/
  | kwImport (j : Nat)
  /-- KEM_IMPORT decapsulates, unwraps and creates a key. (R381) -/
  | kemImport (j : Nat)
  /-- RESTRICT narrows a key's policy. (R384) -/
  | restrict (j : Nat)
  /-- DESTROY destroys an object and advances its slot's generation. (R383) -/
  | destroy (j : Nat)
  /-- INFO writes an object's description. (R385) -/
  | info (j : Nat)
  /-- READ_PLAIN writes a secret whose policy permits it. (R383) -/
  | readPlain (j : Nat)
  /-- ZEROISE_OWNER starts a soft zeroise of an owner. (R396) -/
  | zeroiseOwner (j : Nat)
  /-- REPORT writes a signed device report. (R391) -/
  | report (j : Nat)
  /-- IDENTITY writes the device identity and public keys. (R390) -/
  | identity (j : Nat)
  /-- KEY_ATTEST writes a signed key statement. (R393) -/
  | keyAttest (j : Nat)
  /-- Class 0xC QUERY writes a stateful key's state record. (R154) -/
  | ssQuery (j : Nat)
  /-- PARK closes open index blocks without loss. (R150) -/
  | park (j : Nat)
  /-- LIMIT lowers a stateful key's limit for good. (R151) -/
  | limit (j : Nat)
  /-- DELETE destroys a stateful key once its signing jobs are done. (R153) -/
  | delete (j : Nat)
  /-- Class 0xD RUN runs an installed custom program. (R262) -/
  | customRun (j : Nat)
  /-- Scalar ADD. (R244) -/
  | add (p : PyAt) (f : FmtA)
  /-- Scalar SUB. (R244) -/
  | sub (p : PyAt) (f : FmtA)
  /-- Scalar AND. (R244) -/
  | and (p : PyAt) (f : FmtA)
  /-- Scalar OR. (R244) -/
  | or (p : PyAt) (f : FmtA)
  /-- Scalar XOR. (R244) -/
  | xor (p : PyAt) (f : FmtA)
  /-- Scalar SLL. (R244) -/
  | sll (p : PyAt) (f : FmtA)
  /-- Scalar SRL. (R244) -/
  | srl (p : PyAt) (f : FmtA)
  /-- Scalar SRA. (R244) -/
  | sra (p : PyAt) (f : FmtA)
  /-- Scalar ADDI. (R244) -/
  | addi (p : PyAt) (f : FmtI)
  /-- Scalar ANDI. (R244) -/
  | andi (p : PyAt) (f : FmtI)
  /-- Scalar ORI. (R244) -/
  | ori (p : PyAt) (f : FmtI)
  /-- Scalar XORI. (R244) -/
  | xori (p : PyAt) (f : FmtI)
  /-- Scalar SLLI. (R244) -/
  | slli (p : PyAt) (f : FmtI)
  /-- Scalar SRLI. (R244) -/
  | srli (p : PyAt) (f : FmtI)
  /-- Scalar SRAI. (R244) -/
  | srai (p : PyAt) (f : FmtI)
  /-- Scalar SLTI. (R244) -/
  | slti (p : PyAt) (f : FmtI)
  /-- LUI loads a shifted immediate. (R244) -/
  | lui (p : PyAt) (f : FmtU)
  /-- MUL gives the low 64 bits of the product. (R244) -/
  | mul (p : PyAt) (f : FmtA)
  /-- MULH gives the high signed product. (R244) -/
  | mulh (p : PyAt) (f : FmtA)
  /-- MULHU gives the high unsigned product. (R244) -/
  | mulhu (p : PyAt) (f : FmtA)
  /-- DIV performs signed division. (R245) -/
  | div (p : PyAt) (f : FmtA)
  /-- DIVU performs unsigned division. (R245) -/
  | divu (p : PyAt) (f : FmtA)
  /-- REM gives the signed remainder. (R245) -/
  | rem (p : PyAt) (f : FmtA)
  /-- REMU gives the unsigned remainder. (R245) -/
  | remu (p : PyAt) (f : FmtA)
  /-- Signed set-less-than. (R244) -/
  | slt (p : PyAt) (f : FmtA)
  /-- Unsigned set-less-than. (R244) -/
  | sltu (p : PyAt) (f : FmtA)
  /-- Set-equal. (R244) -/
  | seq (p : PyAt) (f : FmtA)
  /-- Branch-free select. (R244) -/
  | csel (p : PyAt) (f : FmtA)
  /-- Signed minimum. (R244) -/
  | min (p : PyAt) (f : FmtA)
  /-- Signed maximum. (R244) -/
  | max (p : PyAt) (f : FmtA)
  /-- Unsigned minimum. (R244) -/
  | minu (p : PyAt) (f : FmtA)
  /-- Unsigned maximum. (R244) -/
  | maxu (p : PyAt) (f : FmtA)
  /-- Scalar 8-bit load. (R244) -/
  | ld8 (p : PyAt) (f : FmtI)
  /-- Scalar 16-bit load. (R244) -/
  | ld16 (p : PyAt) (f : FmtI)
  /-- Scalar 32-bit load. (R244) -/
  | ld32 (p : PyAt) (f : FmtI)
  /-- Scalar 64-bit load. (R244) -/
  | ld64 (p : PyAt) (f : FmtI)
  /-- Scalar 8-bit store. (R244) -/
  | st8 (p : PyAt) (f : FmtS)
  /-- Scalar 16-bit store. (R244) -/
  | st16 (p : PyAt) (f : FmtS)
  /-- Scalar 32-bit store. (R244) -/
  | st32 (p : PyAt) (f : FmtS)
  /-- Scalar 64-bit store. (R244) -/
  | st64 (p : PyAt) (f : FmtS)
  /-- Branch if equal. (R245) -/
  | beq (p : PyAt) (f : FmtS)
  /-- Branch if not equal. (R245) -/
  | bne (p : PyAt) (f : FmtS)
  /-- Branch if less than. (R245) -/
  | blt (p : PyAt) (f : FmtS)
  /-- Branch if greater or equal. (R245) -/
  | bge (p : PyAt) (f : FmtS)
  /-- Branch if less than, unsigned. (R245) -/
  | bltu (p : PyAt) (f : FmtS)
  /-- Branch if greater or equal, unsigned. (R245) -/
  | bgeu (p : PyAt) (f : FmtS)
  /-- Jump and link. (R244) -/
  | jal (p : PyAt) (f : FmtJ)
  /-- Jump and link by register. (R244) -/
  | jalr (p : PyAt) (f : FmtI)
  /-- VCFG sets VTYPE and VL. (R219) -/
  | vcfg (p : PyAt) (f : FmtI)
  /-- CCRR reads a core control register. (R216) -/
  | ccrr (p : PyAt) (f : FmtI)
  /-- CCRW writes a core control register. (R218) -/
  | ccrw (p : PyAt) (f : FmtI)
  /-- YIELD is a yield point. (R247) -/
  | yield (p : PyAt) (f : FmtI)
  /-- HALT ends the job once the output has drained. (R247) -/
  | halt (p : PyAt) (f : FmtI)
  /-- BAR is a cluster barrier. (R259) -/
  | bar (p : PyAt) (f : FmtI)
  /-- IDLE issues nothing for IMM12 cycles. (R246) -/
  | idle (p : PyAt) (f : FmtI)
  /-- Vector add. (R248) -/
  | vadd (p : PyAt) (f : FmtA)
  /-- Vector subtract. (R248) -/
  | vsub (p : PyAt) (f : FmtA)
  /-- Vector AND. (R248) -/
  | vand (p : PyAt) (f : FmtA)
  /-- Vector OR. (R248) -/
  | vor (p : PyAt) (f : FmtA)
  /-- Vector XOR. (R248) -/
  | vxor (p : PyAt) (f : FmtA)
  /-- Vector shift left. (R248) -/
  | vsll (p : PyAt) (f : FmtA)
  /-- Vector logical shift right. (R248) -/
  | vsrl (p : PyAt) (f : FmtA)
  /-- Vector arithmetic shift right. (R248) -/
  | vsra (p : PyAt) (f : FmtA)
  /-- Vector multiply, low half. (R248) -/
  | vimul (p : PyAt) (f : FmtA)
  /-- Vector multiply, high signed half. (R248) -/
  | vimulh (p : PyAt) (f : FmtA)
  /-- Vector multiply, high unsigned half. (R248) -/
  | vimulhu (p : PyAt) (f : FmtA)
  /-- Vector signed minimum. (R248) -/
  | vimin (p : PyAt) (f : FmtA)
  /-- Vector signed maximum. (R248) -/
  | vimax (p : PyAt) (f : FmtA)
  /-- Vector unsigned minimum. (R248) -/
  | viminu (p : PyAt) (f : FmtA)
  /-- Vector unsigned maximum. (R248) -/
  | vimaxu (p : PyAt) (f : FmtA)
  /-- Vector select by mask. (R248) -/
  | vsel (p : PyAt) (f : FmtA)
  /-- Vector compare equal into a mask. (R248) -/
  | vseq (p : PyAt) (f : FmtA)
  /-- Vector compare not equal into a mask. (R248) -/
  | vsne (p : PyAt) (f : FmtA)
  /-- Vector compare less than into a mask. (R248) -/
  | vslt (p : PyAt) (f : FmtA)
  /-- Vector compare less than, unsigned, into a mask. (R248) -/
  | vsltu (p : PyAt) (f : FmtA)
  /-- Mask AND. (R248) -/
  | vkand (p : PyAt) (f : FmtA)
  /-- Mask OR. (R248) -/
  | vkor (p : PyAt) (f : FmtA)
  /-- Mask XOR. (R248) -/
  | vkxor (p : PyAt) (f : FmtA)
  /-- Mask NOT. (R248) -/
  | vknot (p : PyAt) (f : FmtA)
  /-- Broadcast a scalar into a vector. (R248) -/
  | vbcast (p : PyAt) (f : FmtA)
  /-- Population count per element. (R248) -/
  | vpopc (p : PyAt) (f : FmtA)
  /-- Extract an element into a scalar. (R248) -/
  | vext (p : PyAt) (f : FmtA)
  /-- Insert a scalar into an element. (R248) -/
  | vins (p : PyAt) (f : FmtA)
  /-- Sum reduction. (R248) -/
  | vredsum (p : PyAt) (f : FmtA)
  /-- XOR reduction. (R248) -/
  | vredxor (p : PyAt) (f : FmtA)
  /-- OR reduction. (R248) -/
  | vredor (p : PyAt) (f : FmtA)
  /-- Aligned vector load. (R249) -/
  | vld (p : PyAt) (f : FmtM)
  /-- Element-aligned vector load. (R249) -/
  | vldu (p : PyAt) (f : FmtM)
  /-- Aligned vector store. (R249) -/
  | vst (p : PyAt) (f : FmtM)
  /-- Element-aligned vector store. (R249) -/
  | vstu (p : PyAt) (f : FmtM)
  /-- Mask load. (R249) -/
  | vkld (p : PyAt) (f : FmtM)
  /-- Mask store. (R249) -/
  | vkst (p : PyAt) (f : FmtM)
  /-- Modular add. (R250) -/
  | vmadd (p : PyAt) (f : FmtA)
  /-- Modular subtract. (R250) -/
  | vmsub (p : PyAt) (f : FmtA)
  /-- Modular negate. (R250) -/
  | vmneg (p : PyAt) (f : FmtA)
  /-- Montgomery multiply. (R250) -/
  | vmmul (p : PyAt) (f : FmtA)
  /-- Modular reduce. (R250) -/
  | vmred (p : PyAt) (f : FmtA)
  /-- Convert to Montgomery form. (R250) -/
  | vmtom (p : PyAt) (f : FmtA)
  /-- Convert from Montgomery form. (R250) -/
  | vmfromm (p : PyAt) (f : FmtA)
  /-- Montgomery multiply-accumulate. (R250) -/
  | vmmac (p : PyAt) (f : FmtA)
  /-- Cooley-Tukey butterfly. (R250) -/
  | vmbf (p : PyAt) (f : FmtQ)
  /-- Gentleman-Sande butterfly. (R250) -/
  | vmbfi (p : PyAt) (f : FmtQ)
  /-- Cooley-Tukey butterfly with twiddles from the table. (R250) -/
  | vmbft (p : PyAt) (f : FmtT)
  /-- Gentleman-Sande butterfly with twiddles from the table. (R250) -/
  | vmbfti (p : PyAt) (f : FmtT)
  /-- Interleave blocks. (R251) -/
  | vzip (p : PyAt) (f : FmtT)
  /-- Split blocks. (R251) -/
  | vunzip (p : PyAt) (f : FmtT)
  /-- Slide up. (R251) -/
  | vslup (p : PyAt) (f : FmtT)
  /-- Slide down. (R251) -/
  | vsldn (p : PyAt) (f : FmtT)
  /-- Permute by an index vector. (R251) -/
  | vperm (p : PyAt) (f : FmtT)
  /-- Reverse elements. (R251) -/
  | vrev (p : PyAt) (f : FmtT)
  /-- Compress the active elements. (R251) -/
  | vcompr (p : PyAt) (f : FmtA)
  /-- Bit-reverse permutation. (R251) -/
  | vbrev (p : PyAt) (f : FmtT)
  /-- Carry-less multiply, low half. (R252) -/
  | vclmul (p : PyAt) (f : FmtA)
  /-- Carry-less multiply, high half. (R252) -/
  | vclmulh (p : PyAt) (f : FmtA)
  /-- Binary-field multiply. (R252) -/
  | vgmul (p : PyAt) (f : FmtA)
  /-- Binary-field square. (R252) -/
  | vgsqr (p : PyAt) (f : FmtA)
  /-- Binary-field inverse. (R252) -/
  | vginv (p : PyAt) (f : FmtA)
  /-- Binary-field multiply-accumulate. (R252) -/
  | vgmac (p : PyAt) (f : FmtA)
  /-- 64 × 64 bit-matrix transpose. (R252) -/
  | vgxp (p : PyAt) (f : FmtA)
  /-- Binary64 add. (R253) -/
  | fadd (p : PyAt) (f : FmtA)
  /-- Binary64 subtract. (R253) -/
  | fsub (p : PyAt) (f : FmtA)
  /-- Binary64 multiply. (R253) -/
  | fmul (p : PyAt) (f : FmtA)
  /-- Binary64 divide. (R253) -/
  | fdiv (p : PyAt) (f : FmtA)
  /-- Binary64 square root. (R253) -/
  | fsqrt (p : PyAt) (f : FmtA)
  /-- Binary64 minimum. (R253) -/
  | fmin (p : PyAt) (f : FmtA)
  /-- Binary64 maximum. (R253) -/
  | fmax (p : PyAt) (f : FmtA)
  /-- Binary64 negate. (R253) -/
  | fneg (p : PyAt) (f : FmtA)
  /-- Fused multiply-add. (R253) -/
  | fma (p : PyAt) (f : FmtQ)
  /-- Fused multiply-subtract. (R253) -/
  | fms (p : PyAt) (f : FmtQ)
  /-- Negated fused multiply-add. (R253) -/
  | fnma (p : PyAt) (f : FmtQ)
  /-- int64 to binary64. (R253) -/
  | fcvtf (p : PyAt) (f : FmtA)
  /-- binary64 to int64. (R253) -/
  | fcvti (p : PyAt) (f : FmtA)
  /-- Round to an integral value. (R253) -/
  | frnd (p : PyAt) (f : FmtA)
  /-- Move f bits to an x register. (R253) -/
  | fmvx (p : PyAt) (f : FmtA)
  /-- Move x bits to an f register. (R253) -/
  | fmvf (p : PyAt) (f : FmtA)
  /-- Pack bit fields. (R254) -/
  | vpack (p : PyAt) (f : FmtT)
  /-- Unpack bit fields. (R254) -/
  | vunpk (p : PyAt) (f : FmtT)
  /-- Centred binomial sampling. (R254) -/
  | vcbd (p : PyAt) (f : FmtT)
  /-- Rejection sampling parse. (R254) -/
  | vrej (p : PyAt) (f : FmtA)
  /-- Compress_d. (R254) -/
  | vcompd (p : PyAt) (f : FmtT)
  /-- Decompress_d. (R254) -/
  | vdecd (p : PyAt) (f : FmtT)
  /-- Power2Round. (R254) -/
  | vp2r (p : PyAt) (f : FmtA)
  /-- Decompose. (R254) -/
  | vdcmp (p : PyAt) (f : FmtT)
  /-- MakeHint. (R254) -/
  | vhmake (p : PyAt) (f : FmtT)
  /-- UseHint. (R254) -/
  | vhuse (p : PyAt) (f : FmtT)
  /-- Norm check into a mask. (R254) -/
  | vchkn (p : PyAt) (f : FmtA)
  /-- Initialise a hash unit. (R255) -/
  | hinit (p : PyAt) (f : FmtH)
  /-- Absorb into a Keccak unit and optionally permute. (R255) -/
  | habs (p : PyAt) (f : FmtH)
  /-- Squeeze from a Keccak unit. (R255) -/
  | hsqz (p : PyAt) (f : FmtH)
  /-- Compress one SHA-2 block. (R255) -/
  | hsha (p : PyAt) (f : FmtH)
  /-- Read the SHA-2 state. (R255) -/
  | hdig (p : PyAt) (f : FmtH)
  /-- Refresh shares. (R256) -/
  | sref (p : PyAt) (f : FmtK)
  /-- Masked AND. (R256) -/
  | sand (p : PyAt) (f : FmtK)
  /-- Convert arithmetic shares to Boolean shares. (R256) -/
  | sa2b (p : PyAt) (f : FmtK)
  /-- Convert Boolean shares to arithmetic shares. (R256) -/
  | sb2a (p : PyAt) (f : FmtK)
  /-- Masked compare. (R256) -/
  | scmp (p : PyAt) (f : FmtK)
  /-- Unmask shares. (R256) -/
  | sunm (p : PyAt) (f : FmtK)
  /-- Fresh random bits from the mask expander. (R256) -/
  | srnd (p : PyAt) (f : FmtK)
  /-- Wait for an input page or the aux area. (R257) -/
  | jwait (p : PyAt) (f : FmtT)
  /-- Release an input page for refill. (R257) -/
  | jrel (p : PyAt) (f : FmtT)
  /-- Append bytes to the output. (R233) -/
  | jout (p : PyAt) (f : FmtT)
  /-- Read a key-port line. (R234) -/
  | jkey (p : PyAt) (f : FmtT)
  /-- Write a line of the new key object. (R234) -/
  | jkput (p : PyAt) (f : FmtT)
  /-- Commit the new key object. (R257) -/
  | jkdone (p : PyAt) (f : FmtT)
  /-- Read the job random buffer. (R257) -/
  | jrnd (p : PyAt) (f : FmtT)
  /-- Set RESULT, STATUS or ATTEMPTS. (R257) -/
  | jset (p : PyAt) (f : FmtT)
  /-- Micro-op WAIT issues nothing for IMM + 1 cycles. (R271) -/
  | uWait (u : Nat) (f : UFmt)
  /-- Micro-op UOP performs a register ALU operation. (R271) -/
  | uUop (u : Nat) (f : UFmt)
  /-- Micro-op UOPI performs an ALU operation with an immediate. (R271) -/
  | uUopi (u : Nat) (f : UFmt)
  /-- Micro-op UINS inserts an immediate field. (R271) -/
  | uUins (u : Nat) (f : UFmt)
  /-- Micro-op FLD reads a field of the dispatched item. (R274) -/
  | uFld (u : Nat) (f : UFmt)
  /-- Micro-op CCR reads or writes an engine register. (R275) -/
  | uCcr (u : Nat) (f : UFmt)
  /-- Micro-op FLT ends the job with a fault. (R271) -/
  | uFlt (u : Nat) (f : UFmt)
  /-- Micro-op BR branches on a condition. (R271) -/
  | uBr (u : Nat) (f : UFmt)
  /-- Micro-op JMP jumps. (R271) -/
  | uJmp (u : Nat) (f : UFmt)
  /-- Micro-op CALL calls a subroutine. (R272) -/
  | uCall (u : Nat) (f : UFmt)
  /-- Micro-op RET returns from a subroutine. (R272) -/
  | uRet (u : Nat) (f : UFmt)
  /-- Micro-op LPSET sets a loop counter. (R271) -/
  | uLpset (u : Nat) (f : UFmt)
  /-- Micro-op LPEND ends a loop iteration. (R271) -/
  | uLpend (u : Nat) (f : UFmt)
  /-- Micro-op YLD is a yield point. (R283) -/
  | uYld (u : Nat) (f : UFmt)
  /-- Micro-op END ends the routine and dispatches the next item. (R276) -/
  | uEnd (u : Nat) (f : UFmt)
  /-- Micro-op XMOV moves to or from an x register. (R273) -/
  | uXmov (u : Nat) (f : UFmt)
  /-- Micro-op UISS starts a datapath operation. (R273) -/
  | uUiss (u : Nat) (f : UFmt)
  /-- Micro-op VLN moves a tile line. (R273) -/
  | uVln (u : Nat) (f : UFmt)
  /-- Micro-op VEL sets the element window. (R273) -/
  | uVel (u : Nat) (f : UFmt)
  /-- Micro-op TLS performs a scalar tile access. (R273) -/
  | uTls (u : Nat) (f : UFmt)
  /-- Micro-op MKV reads or writes a mask word. (R273) -/
  | uMkv (u : Nat) (f : UFmt)
  /-- Micro-op SLN moves a Slate line to or from an operand buffer. (R273) -/
  | uSln (u : Nat) (f : UFmt)
  /-- Micro-op MAC runs one pass of the multiply array. (R273) -/
  | uMac (u : Nat) (f : UFmt)
  /-- Micro-op PAD runs the padding unit. (R273) -/
  | uPad (u : Nat) (f : UFmt)
  /-- Micro-op KPL moves a key-port line on a modular engine. (R273) -/
  | uKplMe (u : Nat) (f : UFmt)
  /-- Micro-op HIO moves bytes between IN or OUT and Slate. (R273) -/
  | uHio (u : Nat) (f : UFmt)
  /-- Micro-op HUI drives a hash unit from a tree sequencer. (R273) -/
  | uHui (u : Nat) (f : UFmt)
  /-- Micro-op NBM moves a node-buffer line. (R273) -/
  | uNbm (u : Nat) (f : UFmt)
  /-- Micro-op SST takes the next index of the stateful key; it is a wait. (R273) -/
  | uSst (u : Nat) (f : UFmt)
  /-- Micro-op KPL moves a key-port line on a tree sequencer. (R273) -/
  | uKplTs (u : Nat) (f : UFmt)
  /-- A control-store fetch finds an uncorrectable error; the job ends ECC and the bank is reloaded and tested. (R267) -/
  | controlStoreEcc (u : Nat) (correctable : Bool)
  /-- Staging into the inactive bank ends; STAGED is set, or FAILS is counted on a CRC mismatch. (R291) -/
  | ucodeStage (u : Nat) (crcOk : Bool)
  /-- An instance held out of service has no resident job or context left, and its swap or test proceeds. (R292) -/
  | instanceDrained (c : Nat)
  /-- DLR_CTL COMMIT starts the check of the staged table. (R317) -/
  | dlrCommit
  /-- The table check ends, and the table is accepted as pending or refused with a code. (R317) -/
  | tableCheckDone
  /-- DLR_CTL DISCARD drops a pending table, and a dependent APPLY ends with PLAN. (R322) -/
  | dlrDiscard
  /-- The supervisor's planner builds and commits a table after a share change or a retirement. (R316) -/
  | dealPlan
  /-- After 4,096 samples of a latch the trim loop steps its trim, or fails the source with TRIM. (R340) -/
  | flintTrimStep (n : Nat) (latch : Nat) (ones : Nat)
  /-- A run of 61 identical samples fails the repetition count test. (R341) -/
  | rctFailure (n : Nat)
  /-- A window's count reaches the adaptive proportion cutoff. (R341) -/
  | aptFailure (n : Nat)
  /-- A conditioner completes 1,024 samples and its block enters the pool if both tests passed. (R343) -/
  | conditionerBlock (n : Nat) (samples : Bytes)
  /-- 2^20 requests or 100 ms since the last reseed start a reseed hold. (R344) -/
  | reseedDue
  /-- A reseed, switch-over or KAT hold ends and deferred placements proceed. (R346) -/
  | rngHoldEnd (katOk : Bool)
  /-- The DRBG refills the per-engine, key-store and mask-seed reserves. (R345) -/
  | reserveRefill
  /-- The KAT interval expires and the inline KAT hold runs. (R363) -/
  | inlineKat
  /-- RNG_CTL KAT runs the inline KAT now. (R363) -/
  | rngKat
  /-- RNG_CTL RECAL takes a source out of rotation for recalibration, or is refused. (R354) -/
  | rngRecal (n : Nat)
  /-- A recalibration ends with the start-up tests, and the source becomes HEALTHY or RETIRED. (R355) -/
  | recalDone (n : Nat) (pass : Bool) (trims : (List Nat))
  /-- One second after retirement the supervisor recalibrates the source. (R352) -/
  | sourceRetry (n : Nat)
  /-- KS_ZCTL SOFT starts a soft zeroise of one or all owners. (R396) -/
  | softZeroise (v : U32)
  /-- A soft zeroise completes and DONE is set. (R396) -/
  | zeroiseSoft
  /-- KS_ZCTL HARD starts a hard zeroise when PF_HARD permits. (R395) -/
  | hardZeroise (v : U32)
  /-- ZEROISE_N is asserted for 1 µs and a hard zeroise starts. (R394) -/
  | zeroiseNAssert
  /-- A TAMPER input is asserted for 1 µs; it starts a hard zeroise or is only recorded. (R394) -/
  | tamper (n : Nat)
  /-- The hard zeroise completes; the device is ZEROISED and ALERT_N is asserted. (R395) -/
  | zeroise (env : StartEnv)
  /-- NumVFs and VF Enable are set in SR-IOV and the VFs appear, DISABLED. (R401) -/
  | vfEnableSet (n : Nat)
  /-- VF Enable is cleared, which performs REMOVE without PURGE on every VF. (R413) -/
  | vfEnableClear
  /-- A VFM_SEL write loads the staging window with the selected owner's values. (R415) -/
  | vfmSelWrite (o : Nat)
  /-- VFM_CMD ENABLE checks shares, allocates queues, plans and activates a VF. (R402) -/
  | enable
  /-- VFM_CMD APPLY changes live shares, which take effect at a round boundary. (R405) -/
  | apply
  /-- VFM_CMD REMOVE resets a VF and returns its shares, purging with PURGE. (R413) -/
  | remove (purge : Bool)
  /-- LC_CMD CHALLENGE draws a new challenge. (R430) -/
  | challenge
  /-- A challenge ends 600 s after it was drawn. (R430) -/
  | challengeExpiry
  /-- LC_CMD SUBMIT checks a token and commits a transition or grants debug. (R431) -/
  | submit (env : StartEnv)
  /-- LC_CMD REVOKE ends the debug grant. (R434) -/
  | revoke (env : StartEnv)
  /-- LC_CMD IKH_PROGRAM programs an integrator key hash row. (R432) -/
  | ikhProgram (otpOk : Bool)
  /-- DURATION elapses and the debug grant ends. (R434) -/
  | debugGrantExpiry (env : StartEnv)
  /-- BOOT_CMD WRITE_SLOT programs a release into the inactive slot. (R450) -/
  | writeSlot (r : DmaRes)
  /-- BOOT_CMD VERIFY authenticates the inactive slot. (R450) -/
  | verify
  /-- BOOT_CMD ACTIVATE switches slots and rolls out components. (R451) -/
  | activate (env : StartEnv)
  /-- BOOT_CMD COMMIT marks the slot GOOD and raises the minimums. (R446) -/
  | commit
  /-- BOOT_CMD ROLLBACK returns to the other slot and rolls out the old release. (R450) -/
  | rollback
  /-- A rollout step ends and the next component or instance begins. (R451) -/
  | rolloutStepDone
  /-- The new supervisor firmware reports that it is running. (R453) -/
  | supvHandoverReport
  /-- No report within 50 ms; the old firmware restarts and ACTIVATE ends with HANDOVER. (R453) -/
  | supvHandoverFail
  /-- The NVM fails in service; NVM_ERR is set and service continues. (R449) -/
  | nvmFail
  /-- The schedule interval expires and the next instance is selected for in-service test. (R467) -/
  | isSchedule
  /-- BIST_IS_CMD GO selects an instance for test, or reports why not. (R474) -/
  | isCmd (v : U32)
  /-- A drain exceeds the DRAIN limit; the test is abandoned and IS_SKIP is set. (R467) -/
  | isDrainTimeout (c : Nat)
  /-- An in-service test ends; the instance returns to service or is retired. (R467) -/
  | isTestDone (c : Nat) (r : IsResult)
  /-- An uncorrectable memory error is found; it is fatal, ends the job, or withdraws a granule. (R472) -/
  | uncorrectableEcc (site : EccSite)
  /-- The checkpoint interval expires and a checkpoint runs. (R481) -/
  | ckptTimer
  /-- REC_CTL CKPT runs a checkpoint now. (R481) -/
  | ckpt
  /-- A checkpoint finishes its bank header. (R481) -/
  | ckptDone
  /-- REC_CTL CLEAR_HIST zeroes the HIST records. (R479) -/
  | clearHist
  /-- A record's mirror period expires and it is written to host memory. (R483) -/
  | mirrorTimer (n : Nat) (ok : Bool)
  /-- An uncorrectable MRAM error marks a checkpoint or freeze bank bad. (R485) -/
  | recBankBad (b : Nat)
  /-- A GLB_WALL_NS write commits the wall time and writes TIME_STEP. (R476) -/
  | wallCommit (v : U32)
  /-- A GLB_WALL_S read returns the seconds and captures the ns. (R553) -/
  | wallSRead
  /-- AMB_CTL FREEZE triggers an Amber freeze. (R489) -/
  | ambFreeze
  /-- The freeze copy writes its bank header; FROZEN is set and ALERT_N is asserted. (R490) -/
  | freezeCopyDone
  /-- AMB_CTL DIGEST composes the fault digest into page 24. (R492) -/
  | ambDigest (src : Bool)
  /-- The digest is composed and DIGEST_DONE is set. (R492) -/
  | digestDone
  /-- A code's token bucket refills. (R488) -/
  | amberRefill (code : U16)
  /-- Every 100 ms the supervisor pushes values into Bedrock. (R492) -/
  | supvPush
  /-- The supervisor restarts the watchdog. (R495) -/
  | wdogRestart
  /-- The watchdog expires; Bedrock writes WDOG, freezes and resets. (R495) -/
  | wdog (env : StartEnv)
  /-- SMBus GET_STATUS. (R497) -/
  | smbGetStatus
  /-- SMBus GET_IDENTITY. (R497) -/
  | smbGetIdentity
  /-- SMBus GET_LC. (R497) -/
  | smbGetLc
  /-- SMBus GET_ENV. (R497) -/
  | smbGetEnv
  /-- SMBus AMB_READ returns ring entries. (R497) -/
  | smbAmbRead (back : Nat) (n : Nat)
  /-- SMBus FRZ_READ returns freeze-bank slots. (R497) -/
  | smbFrzRead (bank : Nat) (slot : Nat) (n : Nat)
  /-- SMBus DIGEST returns half of the digest, composing it for part 0. (R497) -/
  | smbDigest (src : Nat) (part : Nat)
  /-- SMBus FREEZE triggers a freeze. (R497) -/
  | smbFreeze
  /-- SMBus RESET performs a Bedrock reset. (R497) -/
  | smbReset (key : U16) (env : StartEnv)
  /-- SMBus ZEROISE performs a hard zeroise when permitted. (R497) -/
  | smbZeroise (key : U16)
  /-- SMBus ALERT_ACK releases ALERT_N. (R497) -/
  | smbAlertAck
  /-- A SUBMIT frame brings a homed job to a member. (R514) -/
  | frameSubmit (fr : Frame)
  /-- A COMPLETE frame lets the lead write the completion after its output writes. (R515) -/
  | frameComplete (fr : Frame)
  /-- An RD_REQ frame makes the lead issue a DMA read. (R515) -/
  | frameRdReq (fr : Frame)
  /-- An RD_DATA frame delivers read data to a member. (R515) -/
  | frameRdData (fr : Frame)
  /-- A WR_DATA frame makes the lead issue an output write. (R515) -/
  | frameWrData (fr : Frame)
  /-- An ABANDON frame makes a member abandon an owner's homed jobs. (R524) -/
  | frameAbandon (fr : Frame)
  /-- An ABANDON_DONE frame reports a member's abandon complete. (R524) -/
  | frameAbandonDone (fr : Frame)
  /-- A CREDIT_GRANT frame grants credits and journal entries to the lead. (R514) -/
  | frameCreditGrant (fr : Frame)
  /-- An ACK/NAK frame acknowledges frames or returns credits. (R508) -/
  | frameAckNak (fr : Frame)
  /-- A HEARTBEAT frame arrives. (R521) -/
  | frameHeartbeat (fr : Frame)
  /-- A TIME frame corrects a member's fabric time. (R516) -/
  | frameTime (fr : Frame)
  /-- A HANDSHAKE frame advances a member's join handshake. (R510) -/
  | frameHandshake (fr : Frame)
  /-- A CONFIG frame carries a member's kitty and deal table. (R520) -/
  | frameConfig (fr : Frame)
  /-- A RECORD frame carries a member's record to the lead's mirror. (R484) -/
  | frameRecord (fr : Frame)
  /-- An AMBER frame relays a member's entry into the lead's ring. (R530) -/
  | frameAmber (fr : Frame)
  /-- A FATE frame carries a fate query or its answer. (R523) -/
  | frameFate (fr : Frame)
  /-- A REKEY frame switches to the new session keys. (R511) -/
  | frameRekey (fr : Frame)
  /-- Every 20 µs a node sends a HEARTBEAT frame. (R521) -/
  | heartbeatTick
  /-- Every 10 µs the lead sends a TIME frame. (R516) -/
  | timeTick
  /-- 1 µs without an acknowledgement replays frames and may retrain the link. (R508) -/
  | replayTimeout (port : Nat)
  /-- A Brynique link goes down or comes up, and routes switch within 2 µs. (R503) -/
  | portLinkChange (port : Nat) (ev : LinkEv)
  /-- A sequence gap lasts 50 µs, or a frame fails its tag, and the session ends. (R509) -/
  | gapTimeout (node : Nat)
  /-- No frame from a member for 200 µs makes it LOST. (R521) -/
  | memberSilence (node : Nat)
  /-- A member hears nothing from the lead for 200 µs and abandons its homed jobs. (R522) -/
  | leadLost
  /-- A reachable node completes its join and becomes MEMBER. (R520) -/
  | fabJoin (node : Nat) (hops : Nat)
  /-- ESEQ reaching 2^32 or 24 h starts a background handshake. (R511) -/
  | sessionRenew (node : Nat)
  /-- FAB_CMD ADMIT admits a node to join. (R529) -/
  | fabAdmit (node : Nat)
  /-- FAB_CMD REMOVE removes a node from the fabric. (R526) -/
  | fabRemove (node : Nat)
  /-- FAB_CMD REKEY renews a session. (R511) -/
  | fabRekey (node : Nat)
  /-- A write of Bus Master Enable holds or releases a function's requests. (R535) -/
  | busMasterEnable (f : Nat) (bme : Bool) (mse : Bool)
  /-- A function enters or leaves D3hot. (R534) -/
  | powerStateChange (f : Nat) (d3hot : Bool)
  /-- An MSI-X vector or function is unmasked and pending messages are sent. (R545) -/
  | msixUnmask (f : Nat) (w : MsixWrite)
  /-- A GLB_EVMASK write unmasks sources and requests messages for those set. (R549) -/
  | evmaskWrite (v : U32)
  /-- 1 µs after a PF event message, a carried request is sent. (R549) -/
  | eventHoldoffExpiry (v : Nat)
  /-- The PCIe link retrains, possibly at a lower speed or width. (R544) -/
  | linkRetrain (speed : Nat) (width : Nat)
  /-- A poisoned write to a BAR is discarded and logged. (R536) -/
  | poisonedBarWrite (f : Nat) (off : Nat)
  /-- REFCLK returns and becomes stable after being absent, so the PLL can lock and the device can leave BEDROCK. (R563) -/
  | refclkStable (env : StartEnv)
  /-- VDD_BR rises back above its threshold and Bedrock comes out of the POR-like reset that its brownout caused. (R569) -/
  | vddBrReturn (env : StartEnv)
  /-- Under an authorised HALT or SUPV scope, the debugger halts a sequencer at an instruction boundary or yield point, or halts the supervisor. (R289) -/
  | debugHalt (u : Nat) (op : DebugOp)
  /-- A halted sequencer is stepped or released by the debugger and resumes from its saved micro-state. (R433) -/
  | debugStep (u : Nat) (op : DebugOp)
  /-- One engine step of a KW_IMPORT or KEM_IMPORT (unwrap, decapsulation or type check) completes, and the next step is placed or the job completes. (R382) -/
  | importStepDone (j : Nat)
  /-- SMB_SCL is held low beyond the 25 ms to 35 ms SMBus clock-low timeout, and the endpoint resets its SMBus interface. (R566) -/
  | clockLowTimeout
  /-- The endpoint loses arbitration while sending an MCTP response as bus master, and it retries once the bus is free, up to 4 times. (R566) -/
  | lossOfArbitration
  /-- A FAB_CMD ADMIT waits too long for the node to join, ends with RESULT TIMEOUT and clears BUSY. (R529) -/
  | admitTimeout
  deriving DecidableEq, Repr

end Sys2Proof
end

