-- ==== Sys2Proof/Machine/State.lean ====
section
/-!
DEFINITION. The state of the SQ4816, as plain data: every register, memory, queue, counter and mode the spec gives it.
Reset values are the defaults of the fields; where the spec states none, the log entry named in INVENTORY.md gives it.
-/
namespace Sys2Proof.Machine

/-! ## Global block (01, 19) -/

/-- Device states of `GLB_STATE.ST` (01 R24). -/
inductive DevState
  | bedrock | boot | selftest | load | seed | ready | safe | held | zeroised | scrapped
  deriving DecidableEq, Repr

/-- A hard zeroise in progress: its trigger and detail (12 R395, 17 R575). -/
structure HardZ where
  trigger : Byte := 0
  detail  : Byte := 0
  deriving DecidableEq, Repr

/-- The kinds of reset of 01 R29. A Bedrock reset carries its cause bit of GLB_RST_CAUSE (01 R35), a VF FLR its VF. -/
inductive ResetKind
  | por | perst | bedrock (causeBit : Nat) | hot | pfFlr | vfFlr (vf : Nat) | soft | hold
  deriving DecidableEq, Repr

/-- The global registers and pins (01 R28-R35, 19 R553, 20 R557-R569). -/
structure Glob where
  st        : DevState := .bedrock
  step      : Byte := 0
  safeCause : Byte := 0
  rstCause  : BitVec 9 := 1
  tb        : U64 := 0
  tbRun     : Bool := false
  bootCnt   : U32 := 0
  wallSet   : Bool := false
  wallBase  : U64 := 0
  wallTb    : U64 := 0
  wallSHeld : U64 := 0
  wallNsCap : BitVec 30 := 0
  evMask    : BitVec 17 := 0x1FFFF
  evMap     : Vector U64 3 := Vector.replicate 3 0
  evHold    : List Nat := []
  evCarry   : List Nat := []
  porAsserted   : Bool := true
  perstAsserted : Bool := true
  refclk    : Bool := true
  vddBr     : Bool := true
  jtagHold  : Bool := false
  strapFab  : BitVec 6 := 0
  strapSmb  : BitVec 3 := 0
  loHeld    : SMap (Option U32) := []
  hiCap     : SMap (Option U32) := []
  heldResets : List ResetKind := []
  hardZ     : Option HardZ := none
  zmark     : Bool := false
  armed     : Bool := false
  issuing   : Bool := false
  drbgCtr   : Nat := 0
  freeCtr   : Nat := 0
  devId     : BitVec 128 := 0
  lcCode    : Byte := 0
  node      : Nat := 0
  deriving DecidableEq, Repr

/-! ## Host interface (19) -/

/-- The state of one PCIe function (19 R531-R535, R545). -/
structure Fn where
  bme       : Bool := false
  mse       : Bool := false
  msixEn    : Bool := false
  fnMask    : Bool := false
  d3hot     : Bool := false
  cto       : BitVec 4 := 0
  mps       : Nat := 128
  mrrs      : Nat := 512
  relaxEn   : Bool := true
  deriving DecidableEq, Repr

/-- One MSI-X vector: table entry and pending bit (19 R545). -/
structure Vec where
  addr : U64 := 0
  data : U32 := 0
  mask : Bool := true
  pend : Bool := false
  deriving DecidableEq, Repr

/-- What a read of host memory is for. -/
inductive ReadFor
  | entry (sq : Nat) (index : U32)
  | input (job : Nat) | aux (job : Nat) | inList (job : Nat) | outList (job : Nat)
  | image | member (node : Nat)
  deriving DecidableEq, Repr

/-- What the device issues to the outside: PCIe requests, messages and completions of reads, Unsupported Request and Request Retry Status,
SMBus responses, Brynique frames, bits shifted out of the test access port. -/
inductive Out
  | write   (fn : Nat) (addr : U64) (data : Bytes) (relaxed : Bool)
  | msix    (fn vec : Nat) (addr : U64) (data : U32)
  | readReq (fn : Nat) (addr : U64) (len : Nat) (what : ReadFor)
  | aerTimeout (fn : Nat) | aerPoison (fn : Nat) | aerInternal
  | smbus   (bytes : Bytes)
  | frame   (port : Nat) (type : FType) (f : Frame)
  | jtag    (bits : Bytes)
  | cpl     (fn : Nat) (data : Bytes)
  | ur      (fn : Nat)
  | retry   (fn : Nat)
  deriving DecidableEq, Repr

/-- The host interface: link, counters, errors, functions, MSI-X tables (19 R554), and what has been issued. -/
structure Hif where
  linkUp    : Bool := false
  speed     : BitVec 3 := 0
  width     : BitVec 4 := 0
  numVfs    : BitVec 9 := 0
  vfEn      : Bool := false
  rdBytes   : U64 := 0
  wrBytes   : U64 := 0
  errUrCa   : U16 := 0
  errTimeout : U16 := 0
  errPoison : U16 := 0
  errAccess : U16 := 0
  lastOwner : Byte := 0
  lastKind  : BitVec 4 := 0
  lastEngine : U16 := 0
  lastAddr  : U32 := 0
  event     : BitVec 5 := 0
  aerTimeout : Bool := false
  aerPoison : Bool := false
  aerInternal : Bool := false
  reads     : List (ReadFor × Nat) := []
  rdWait    : List Out := []
  fns       : SMap Fn := []
  msix      : SMap Vec := []
  waiting   : List Out := []
  out       : List Out := []
  deriving DecidableEq, Repr

/-! ## Queues, jobs and the fate journal (02) -/

/-- A submission entry's fields (02 R36). -/
structure Sqe where
  opcode   : U16 := 0
  flags    : Byte := 0
  gen      : Byte := 0
  tag      : U32 := 0
  inAddr   : U64 := 0
  inLen    : U32 := 0
  outCap   : U32 := 0
  outAddr  : U64 := 0
  key0     : U32 := 0xFFFFFFFF
  key1     : U32 := 0xFFFFFFFF
  auxAddr  : U64 := 0
  auxLen   : U32 := 0
  param    : U32 := 0
  deadline : U64 := 0
  deriving DecidableEq, Repr

/-- One submission queue (02 R51-R69). -/
structure Sq where
  base     : BitVec 52 := 0
  en       : Bool := false
  push     : Bool := false
  log2     : BitVec 5 := 6
  mask     : BitVec 2 := 0
  mode     : BitVec 2 := 0
  cqid     : BitVec 11 := 0
  head     : U32 := 0
  tail     : U32 := 0
  stopped  : Bool := false
  draining : Bool := false
  fenceWait : Bool := false
  slotWait : Bool := false
  creditWait : Bool := false
  jrnWait  : Bool := false
  err      : Byte := 0
  errIndex : U32 := 0
  outstanding : U16 := 0
  window   : Bytes := []
  captured : List (U32 × Bytes) := []
  reading  : Option U32 := none
  held     : Option Bytes := none
  deriving DecidableEq, Repr

/-- One completion queue (02 R54-R72). -/
structure Cq where
  base     : BitVec 52 := 0
  en       : Bool := false
  immErr   : Bool := false
  log2     : BitVec 5 := 6
  vector   : BitVec 12 := 0
  coalCnt  : U16 := 0
  coalTime : BitVec 10 := 0
  tail     : U32 := 0
  head     : U32 := 0
  headErr  : Bool := false
  disRefused : Bool := false
  enErr    : BitVec 4 := 0
  reserved : BitVec 17 := 0
  unsig    : Nat := 0
  timer    : Bool := false
  lastSq   : Nat := 0
  deriving DecidableEq, Repr

/-- The service condition of an engine (01 R15, 16 R467-R470). -/
inductive EngSvc
  | inService | draining | inTest | retired
  deriving DecidableEq, Repr

/-- The registers that every dealt engine has, by cell number of the deal table (09 R304): 0-15 PY, 16-23 ME, 24-27 SY,
28-31 TS (07 R265, 06 R212, 19 R554); `scrubTb` is when the last scrub ends (02 R61). -/
structure EngReg where
  svc      : EngSvc := .inService
  jobs     : U64 := 0
  busy     : U64 := 0
  wait     : U64 := 0
  refuse   : U32 := 0
  rchk     : U16 := 0
  rchkEvent : Bool := false
  fltCnt   : U16 := 0
  lastStatus : U16 := 0
  lastDetail : U16 := 0
  lastPc   : U16 := 0
  lastVres : U16 := 0
  lastValid : Bool := false
  scrubTb  : U64 := 0
  deriving DecidableEq, Repr

/-- Where a job stands between its fetch and its completion (09 R308-R313, 12 R379). A job that is ending has failed and waits for its
output list's check (02 R43). -/
inductive Phase
  | waiting | unwrapping | placed | saved | stranded | ending
  deriving DecidableEq, Repr

/-- A segment of a scatter-gather list (02 R42). -/
structure Seg where
  addr : U64
  len  : U32
  rsv  : U32
  deriving DecidableEq, Repr

/-- A key object (12 R367-R370): its secret part is held as two Boolean shares. -/
structure KObj where
  type     : U16 := 0
  policy   : U16 := 0
  origin   : Byte := 0
  exported : Bool := false
  persist  : Bool := false
  stateful : Bool := false
  broken   : Bool := false
  isParam  : Bool := false
  shareA   : Bytes := []
  shareB   : Bytes := []
  pub      : Bytes := []
  param    : U32 := 0xFFFFFFFF
  boot     : U32 := 0
  gran     : Nat := 0
  blocks   : Nat := 0
  deriving DecidableEq, Repr

/-- One stateful key of the state store (04 R141, R148-R151): `types` gives the LMS and LM-OTS types of each level, `oid`
the XMSS or XMSS^MT OID; `jrn` is its BLOCK entry, none while it waits for one; `wcount` counts the writes of its words. -/
structure SsKey where
  set     : Nat := 0
  levels  : Nat := 1
  blockLog2 : Nat := 10
  oid     : Nat := 0
  types   : List (Nat × Nat) := []
  next    : Nat := 0
  limit   : Nat := 0
  blockEnd : Nat := 0
  isOpen  : Bool := false
  retired : U32 := 0
  root    : Bytes := []
  jrn     : Option Nat := none
  word    : Nat := 0
  wcount  : Vector Nat 8 := Vector.replicate 8 0
  deriving DecidableEq, Repr

/-- A running modular program (06 R204-R209): the next command, cycles so far, the highest end offset of the STOREs issued. Its slots
stand on the Slate (06 R180). -/
structure MpRun where
  idx    : Nat := 0
  cycles : Nat := 0
  outEnd : Nat := 0
  deriving DecidableEq, Repr

/-- A fetched job without an issued completion. A job is named by the number of its fetch (log 10). -/
structure Job where
  id       : Nat := 0
  owner    : Nat := 0
  sq       : Nat := 0
  cq       : Nat := 0
  index    : U32 := 0
  e        : Sqe := {}
  mode     : BitVec 2 := 0
  order    : Nat := 0
  phase    : Phase := .waiting
  eng      : Option Nat := none
  eng2     : Option Nat := none
  cluster  : Bool := false
  part     : Nat := 0
  node     : Nat := 0
  fetchTb  : U64 := 0
  inData   : Bytes := []
  auxData  : Bytes := []
  inSegs   : Option (List Seg) := none
  outSegs  : Option (List Seg) := none
  outOk    : Bool := false
  outBad   : Option U16 := none
  outLen   : Nat := 0
  effect   : Byte := 0
  attempts : Nat := 0
  cycles   : Nat := 0
  result   : U32 := 0
  abort    : Option U16 := none
  coreDone : Option Bytes := none
  ecDone   : Option Bytes := none
  jrn      : Option Nat := none
  taken    : Option Nat := none
  ssRes    : Nat := 0
  blob     : Option KObj := none
  keep     : Option KObj := none
  step     : Nat := 0
  part2    : Bytes := []
  remote   : Bool := false
  ver      : Byte := 0
  committed : Bool := false
  ssNew    : Option SsKey := none
  mp       : Option MpRun := none
  coreSaved : Bool := false
  placeNo  : Nat := 0
  cycles2  : Nat := 0
  saveCyc  : Nat := 0
  nextKind : Nat := 0
  granRes  : Nat := 0
  pkeyRes  : Nat := 0
  blkRes   : Nat := 0
  granted  : Bool := false
  cpl      : Option Bytes := none
  placeTb  : U64 := 0
  waitNs   : Nat := 0
  pauseTb  : U64 := 0
  fail     : Option (Nat × U16 × U16) := none
  mramTb   : U64 := 0
  deriving DecidableEq, Repr

/-- A completion kept until the owner's CQ head passes it (02 R86). -/
structure Done where
  owner  : Nat := 0
  sq     : Nat := 0
  sqId   : Nat := 0
  sqIndex : U32 := 0
  cq     : Nat := 0
  cqIndex : U32 := 0
  tag    : U32 := 0
  status : U16 := 0
  effect : Byte := 0
  obj    : U32 := 0xFFFFFFFF
  tb     : U64 := 0
  jrn    : Option Nat := none
  node   : Nat := 0
  granted : Bool := false
  deriving DecidableEq, Repr

/-- The jobs in flight, oldest fetch first, and the completions kept. -/
structure Jobs where
  live    : List Job := []
  nextId  : Nat := 0
  nextPlace : Nat := 0
  done    : List Done := []
  deriving DecidableEq, Repr

/-- States of a fate-journal entry (02 R82-R84). -/
inductive JState
  | free | reserved | intent | committed | completed | abandonedNone | abandonedDone | blockIdle | blockOpen | retired
  deriving DecidableEq, Repr

/-- A fate-journal entry in MRAM (02 R82, R83). -/
structure JEntry where
  state  : JState := .free
  owner  : Nat := 0
  sqId   : U16 := 0
  index  : U32 := 0
  tag    : U32 := 0
  opcode : U16 := 0
  key0   : U32 := 0xFFFFFFFF
  boot   : U32 := 0
  tb     : U64 := 0
  status : U16 := 0
  effect : Byte := 0
  object : U32 := 0xFFFFFFFF
  first  : U32 := 0
  last   : U32 := 0
  kept   : Bool := false
  deriving DecidableEq, Repr

/-- The fate-query registers of one function (02 R87-R89). -/
structure Fq where
  op   : BitVec 4 := 0
  arg0 : U64 := 0
  arg1 : U64 := 0
  res0 : U64 := 0
  res1 : U64 := 0
  res2 : U64 := 0
  res3 : U64 := 0
  cursor : Nat := 0
  busy : Bool := false
  deriving DecidableEq, Repr

/-- The fate journal (02, 04 R152, R155). -/
structure Jrn where
  entries : SMap JEntry := []
  next    : Nat := 0
  fq      : SMap Fq := []
  writes  : SMap Nat := []
  deriving DecidableEq, Repr

/-! ## Key store and state store (12, 04) -/

/-- A slot of an owner's slot table (12 R365, R366). -/
structure Slot where
  gen     : Byte := 0
  genSet  : Bool := false
  inMram  : Bool := false
  obj     : Option KObj := none
  freedAt : Nat := 0
  deriving DecidableEq, Repr

/-- A soft zeroise in progress (12 R396). -/
structure SoftZ where
  all      : Bool := false
  owner    : Nat := 0
  persist  : Bool := false
  byJob    : Option Nat := none
  aborted  : U16 := 0
  deriving DecidableEq, Repr

/-- The key store and its registers (12 R398). -/
structure Ks where
  slots   : SMap Slot := []
  freeSeq : Nat := 1
  salts   : SMap Bytes := []
  zsalt   : Option Bytes := none
  epoch   : BitVec 2 := 0
  nodus   : Bool := false
  dus     : Bytes := []
  zdone   : Bool := false
  pfull   : Bool := false
  zowner  : Byte := 0
  zsoft   : Option SoftZ := none
  zpol    : BitVec 6 := 0
  zlock   : Bool := false
  resolve : U64 := 0
  withdrawn : Nat := 0
  sealCtr : SMap U64 := []
  flr     : SMap U32 := []
  idMldsa : Bytes := []
  idP384  : Bytes := []
  purge   : Option Nat := none
  wiped   : Bool := false
  deriving DecidableEq, Repr

/-- The state store (04 R148-R155). -/
structure Ss where
  keys   : SMap (Option SsKey) := []
  takes  : U32 := 0
  low    : BitVec 6 := 0
  event  : BitVec 3 := 0
  evSlot : U16 := 0
  idxMax : U32 := 0
  deriving DecidableEq, Repr

/-! ## Virtual functions (13) -/

/-- Owner states (13 R416). -/
inductive OwnState
  | disabled | active | resetting | removing
  deriving DecidableEq, Repr

/-- The shares and permissions of an owner, with the register widths of 13 R416. -/
structure Shares where
  sq     : BitVec 13 := 0
  cq     : BitVec 12 := 0
  credit : BitVec 13 := 0
  vec    : BitVec 12 := 0
  gran   : BitVec 15 := 0
  pkey   : BitVec 9 := 0
  sskey  : BitVec 13 := 0
  jrn    : BitVec 13 := 0
  py     : BitVec 11 := 0
  me     : BitVec 10 := 0
  sy     : BitVec 9 := 0
  tree   : BitVec 9 := 0
  cls    : U16 := 0
  trump  : Bool := false
  cap    : Bool := false
  deriving DecidableEq, Repr

/-- One owner: function 0 is the PF, 1 to 255 the VFs (13). -/
structure Own where
  state   : OwnState := .disabled
  sh      : Shares := {}
  sqBase  : Nat := 0
  cqBase  : Nat := 0
  vecReg  : BitVec 6 := 0
  vEn     : Bool := false
  vShare  : Bool := false
  vStrand : Bool := false
  rrSq    : Nat := 0
  removing : Bool := false
  rstTb   : U64 := 0
  deriving DecidableEq, Repr

/-- The VF manager (13 R415, R416). -/
structure Vfm where
  sel    : Byte := 0
  stg    : Shares := {}
  op     : BitVec 3 := 0
  purge  : Bool := false
  result : Byte := 0
  busy   : Bool := false
  event  : BitVec 3 := 0
  evOwner : Byte := 0
  apply  : Option (Nat × Shares) := none
  enabling : Option Nat := none
  credLater : List (Nat × BitVec 13) := []
  removeQ : List (Nat × Bool) := []
  deriving DecidableEq, Repr

/-! ## Dealer (09) -/

/-- The Dealer (09 R303-R322). -/
structure Dlr where
  act     : SMap Byte := []
  stg     : SMap Byte := []
  trick   : BitVec 6 := 0
  round   : U32 := 0
  bank    : Bool := false
  pending : Bool := false
  late    : Bool := false
  src     : Bool := false
  chkCode : Byte := 0
  chkBusy : Bool := false
  chkStage : BitVec 3 := 0
  chkTrick : BitVec 6 := 0
  chkCell : BitVec 5 := 0
  planFor : Option Nat := none
  dutyOn  : Byte := 0x69
  dutyOff : Byte := 0x64
  dutyMax : BitVec 3 := 4
  level   : BitVec 3 := 0
  dutyEvent : Bool := false
  dutyRounds : U32 := 0
  fallPend : Bool := false
  turn    : U64 := 0
  reoffer : U64 := 0
  worst   : U16 := 0
  preempt : U16 := 0
  occ     : Vector (Option Nat) 32 := Vector.replicate 32 none
  occNext : Vector (Option Nat) 32 := Vector.replicate 32 none
  window  : Bool := false
  guest   : Vector Nat 32 := Vector.replicate 32 0
  deriving DecidableEq, Repr

/-! ## Polynomial cores (07, 08) -/

/-- What a waiting PY instruction waits for (07 R236). -/
inductive PyWait
  | page (n : Nat) | aux | room | drain | mram | outCheck
  deriving DecidableEq, Repr

/-- A program image's header, with its areas in bytes (07 R260). -/
structure ImgHdr where
  version : Byte := 0
  custom  : Bool := false
  prog    : Nat := 0
  cluster : Bool := false
  fixed   : Bool := false
  entries : Vector U16 4 := Vector.replicate 4 0
  codeLen : Nat := 0
  parts   : Nat := 1
  inPages : Nat := 1
  pageLog : Nat := 11
  inBase  : Nat := 0
  auxBase : Nat := 0
  rndLen  : Nat := 0
  auxMax  : Nat := 0
  outMax  : Nat := 0
  deriving DecidableEq, Repr

/-- One hash-unit bank: Keccak state in up to four shares of 1,600 bits, SHA-2 state, function and rate (07 R255). -/
structure HashBank where
  keccak : Vector (BitVec 1600) 4 := Vector.replicate 4 0
  sha    : BitVec 512 := 0
  fn     : Nat := 0
  pos    : Nat := 0
  deriving DecidableEq, Repr

/-- The programmer's registers of a core (07 R213-R217), which a context save keeps whole (08 R285). -/
structure PyRegs where
  x       : Vector U64 32 := Vector.replicate 32 0
  v       : Vector (BitVec 2048) 32 := Vector.replicate 32 0
  m       : Vector (BitVec 256) 8 := Vector.replicate 8 0
  pc      : BitVec 16 := 0
  vl      : BitVec 12 := 0
  vtype   : BitVec 6 := 0
  vresume : BitVec 12 := 0
  qmod    : BitVec 31 := 0
  gfpoly  : BitVec 17 := 0
  frm     : BitVec 3 := 0
  fflags  : BitVec 5 := 0
  twbase  : BitVec 11 := 0
  u       : Vector U64 32 := Vector.replicate 32 0
  lc      : Vector U16 4 := Vector.replicate 4 0
  stack   : List (BitVec 14) := []
  upc     : BitVec 14 := 0
  inUop   : Bool := false
  word    : U32 := 0
  ipc     : BitVec 16 := 0
  velLo   : BitVec 12 := 0
  velHi   : BitVec 12 := 0
  velOn   : Bool := false
  banks   : Vector HashBank 4 := Vector.replicate 4 {}
  deriving DecidableEq, Repr

/-! ## Recorder, Amber and Bedrock (17) -/

/-- The DATA of a record, per TYPE (17 R479). -/
inductive RecData
  | hist (count sum : U64) (min max : U32) (bins : SMap U32)
  | extreme (min max last : Int) (tbMin tbMax wallMin wallMax : U64) (bootMin bootMax : U32) (samples : U64)
  | life (powerOnS : U64) (boots : U32) (resets : Vector U32 9) (zeroises freezes : U32) (dutyRounds : U64)
  deriving DecidableEq, Repr

/-- A recorder record (17 R478). -/
structure Record where
  slot    : Nat := 0
  subject : U16 := 0
  seq     : U32 := 0
  restored : Bool := false
  crcLost : Bool := false
  tb      : U64 := 0
  wall    : U64 := 0
  boot    : U32 := 0
  data    : RecData := .life 0 0 (Vector.replicate 9 0) 0 0 0
  deriving DecidableEq, Repr

/-- A checkpoint bank in MRAM (17 R481, R482). -/
structure CkptBank where
  complete : Bool := false
  seq      : U32 := 0
  badmap   : BitVec 4 := 0
  boot     : U32 := 0
  tb       : U64 := 0
  records  : SMap (Option Record) := []
  deriving DecidableEq, Repr

/-- The recorder (17 R478-R485, R500). -/
structure Rec where
  records : SMap (Option Record) := []
  live    : Bool := false
  powerBase : U64 := 0
  volatil : Bool := false
  full    : Bool := false
  ckptBusy : Option Nat := none
  mirrorErr : Bool := false
  ckptSeq : U32 := 0
  ckptS   : Byte := 0x3C
  mirrorMs : BitVec 10 := 0x64
  mirrorEn : Bool := false
  mirrorAddr : BitVec 52 := 0
  page    : BitVec 4 := 0
  event   : BitVec 4 := 0
  banks   : Vector CkptBank 2 := Vector.replicate 2 {}
  deriving DecidableEq, Repr

/-- An Amber entry (17 R486). -/
structure AEntry where
  tb     : U64 := 0
  boot   : U32 := 0
  code   : U16 := 0
  source : U16 := 0
  supp   : U16 := 0
  sev    : Byte := 0
  flags  : Byte := 0
  wall   : U64 := 0
  args   : Bytes := []
  deriving DecidableEq, Repr

/-- The token bucket of one Amber code (17 R488). -/
structure Bucket where
  used  : Nat := 0
  supp  : U16 := 0
  deriving DecidableEq, Repr

/-- A freeze bank in MRAM: header and entries, oldest first (17 R489, R490). -/
structure FrzBank where
  valid    : Bool := false
  boot     : U32 := 0
  triggers : U32 := 0
  tb       : U64 := 0
  seq      : U32 := 0
  lost     : U32 := 0
  entries  : List AEntry := []
  deriving DecidableEq, Repr

/-- A freeze copy in progress: its bank, its triggers, the ring as latched at F, entries waiting, entries lost (17 R489-R491). -/
structure Freeze where
  bank     : Option Nat := none
  triggers : U32 := 0
  tb       : U64 := 0
  upTo     : Nat := 0
  fifo     : List AEntry := []
  lost     : U32 := 0
  deriving DecidableEq, Repr

/-- Amber (17 R486-R492, R500). -/
structure Amb where
  ring    : SMap AEntry := []
  written : U32 := 0
  buckets : SMap Bucket := []
  tokens  : SMap Nat := []
  refill  : SMap Nat := []
  suppressed : U32 := 0
  lost    : U16 := 0
  freezes : U16 := 0
  digSrc  : Bool := false
  page    : BitVec 5 := 0
  event   : BitVec 3 := 0
  volatil : Bool := false
  latest  : Bool := false
  copy    : Option Freeze := none
  banks   : Vector FrzBank 2 := Vector.replicate 2 {}
  frzSeq  : U32 := 0
  digest  : Bytes := []
  digestBusy : Bool := false
  digestSeq : U32 := 0
  deriving DecidableEq, Repr

/-- What the supervisor last pushed into Bedrock (17 R492). -/
structure Push where
  tjMin   : Int := 0
  tjMax   : Int := 0
  tjLife  : Int := 0
  railMin : List U16 := []
  counters : List U32 := []
  deriving DecidableEq, Repr

/-- The Bedrock registers, the SMBus endpoint and the MRAM bad marks (17 R485, R495-R497, R500). -/
structure Bdr where
  fault   : BitVec 9 := 0
  limit   : Byte := 0x14
  expiries : Byte := 0
  wdogAt  : U64 := 0
  oscFreq : U16 := 0
  alert   : Bool := false
  alertHold : Bool := false
  badBanks : BitVec 4 := 0
  push    : Push := {}
  resp    : Bytes := []
  retries : Nat := 0
  resets  : U32 := 0
  lcStat  : BitVec 36 := 0
  pend    : List Nat := []
  deriving DecidableEq, Repr

/-! ## Random numbers (11) -/

/-- States of the RNG (11 R363). -/
inductive RngState
  | unseeded | startup | ok | hold | error
  deriving DecidableEq, Repr

/-- States of a Flint source (11 R363). -/
inductive SrcState
  | off | startup | healthy | retired | dead | recal | raw
  deriving DecidableEq, Repr

/-- Causes of a source failure (11 R363). -/
inductive SrcCause
  | none | rct | apt | trim | startup
  deriving DecidableEq, Repr

/-- Kinds of DRBG hold (11 R346, 17 R575). -/
inductive HoldKind
  | reseed | prReseed | kat | switch | switchInKat
  deriving DecidableEq, Repr

/-- A hold in progress: its kind, the source that supplies it, its start, whether it ends a recovery from ERROR. -/
structure Hold where
  kind    : HoldKind
  src     : Option Nat := none
  since   : U64 := 0
  recover : Bool := false
  byJob   : Bool := false
  deriving DecidableEq, Repr

/-- One Flint source (11 R339-R343, R350-R355, R363). -/
structure Src where
  state  : SrcState := .off
  cause  : SrcCause := .none
  pool   : List (BitVec 256) := []
  fails  : Byte := 0
  ones   : List Nat := []
  r      : BitVec 256 := 0
  trims  : Vector (BitVec 7) 16 := Vector.replicate 16 64
  times  : List U64 := []
  former : SrcState := .off
  pfRecal : Bool := false
  retryAt : Option U64 := none
  blockBad : Bool := false
  run    : Nat := 0
  lastBit : Bool := false
  deriving DecidableEq, Repr

/-- The working state of an instance of CTR_DRBG with AES-256: Key and V (11 R344). -/
structure DrbgSt where
  key : Bytes := List.replicate 32 0
  v   : Bytes := List.replicate 16 0
  deriving DecidableEq, Repr

/-- The RNG (11 R363). -/
structure Rng where
  drbg    : DrbgSt := {}
  state   : RngState := .unseeded
  kat     : Bool := false
  seedSrc : BitVec 2 := 0
  srcs    : Vector Src 4 := Vector.replicate 4 {}
  katInt  : Byte := 0x3C
  katTb   : U64 := 0
  holds   : BitVec 24 := 0
  holdUs  : BitVec 24 := 0
  unavail : U16 := 0
  event   : BitVec 6 := 0
  reseeds : U32 := 0
  switches : U32 := 0
  hold    : Option Hold := none
  requests : Nat := 0
  seedTb  : U64 := 0
  reserves : Bool := false
  katDead : Bool := false
  mramTrims : Vector (Option (Vector (BitVec 7) 16)) 4 := Vector.replicate 4 none
  deriving DecidableEq, Repr

/-! ## Monitors and test access (20, 10) -/

/-- The temperature and voltage monitors and the detectors' counts (20 R571, R572, 10 R337). -/
structure Tmon where
  tj     : Vector U16 8 := Vector.replicate 8 0
  rails  : Vector U16 9 := Vector.replicate 9 0
  det    : Vector Byte 6 := Vector.replicate 6 0
  detBoot : Vector Byte 6 := Vector.replicate 6 0
  event  : BitVec 4 := 0
  hi     : Byte := 0x6E
  lo     : Byte := 0xDD
  band   : Byte := 0x06
  hiArm  : Bool := false
  loArm  : Bool := false
  resp   : BitVec 5 := 0
  lock   : Bool := false
  minTj  : Int := 0
  maxTj  : Int := 0
  coolTb : Option U64 := none
  deriving DecidableEq, Repr

/-- JTAG instructions (20 R568). -/
inductive JtagInsn
  | idcode | bypass | samplePreload | extest | clamp | highz | debug
  deriving DecidableEq, Repr

/-- The test access port (20 R568, 14 R433): `acc` while a register access through the debug TAP is under way. -/
structure Jtag where
  insn   : JtagInsn := .idcode
  dr     : U32 := 0
  acc    : Bool := false
  deriving DecidableEq, Repr
/-! ## Built-in self-test (16) -/

/-- A logic result record of one partition (16 R474). -/
structure LRes where
  result : BitVec 2 := 0
  sigOk  : Bool := false
  done   : Bool := false
  orderErr : Bool := false
  count  : BitVec 24 := 0
  deriving DecidableEq, Repr

/-- The self-test registers and the in-service test (16 R467-R474): `queue` holds the cells taken out for test, in order of
selection; `kindTurn` and `tested` are the schedule's rotation. -/
structure Bist where
  mem     : BitVec 2 := 0
  logic   : BitVec 2 := 0
  cond    : Bool := false
  lpart   : Byte := 0xFF
  tj      : Byte := 0
  mfCode  : U16 := 0
  mfAddr  : BitVec 24 := 0
  mfBit   : BitVec 7 := 0
  mfRepaired : Bool := false
  mfCount : Byte := 0
  mfValid : Bool := false
  repaired : U16 := 0
  spareMin : Byte := 6
  codeMin : U16 := 0
  isEn    : Bool := true
  isInt   : Byte := 0x0A
  isDrain : U16 := 0x03E8
  inst    : BitVec 6 := 0
  force   : Bool := false
  result  : Byte := 0
  event   : BitVec 3 := 0
  evInst  : Byte := 0
  lres    : SMap LRes := []
  queue   : List Nat := []
  forced  : List Nat := []
  kindTurn : Nat := 0
  tested  : List Nat := []
  supvErr : Bool := false
  deriving DecidableEq, Repr

/-! ## OTP, life cycle and debug authorisation (14) -/

/-- A transition slot of OTP: INTENT has one bit for each of INTEGRATOR, FIELDED, RETURNED and SCRAPPED; MARK one for each of
S1 to S6 (14 R419). -/
structure LcSlot where
  intent : BitVec 4 := 0
  target : U32 := 0
  mark   : BitVec 6 := 0
  deriving DecidableEq, Repr

/-- A key-hash row of OTP (14 R419). -/
structure KeyRow where
  hash  : Bytes := []
  valid : Bool := false
  kill  : Bool := false
  deriving DecidableEq, Repr

/-- A device-unique-secret epoch of OTP (12 R374). -/
structure Epoch where
  secret : Bytes := []
  valid  : Bool := false
  kill   : Bool := false
  deriving DecidableEq, Repr

/-- The one-time-programmable array (12 R374, 14 R419, 15 R446). -/
structure Otp where
  base  : U32 := 0x3C3C3C3C
  slots : Vector LcSlot 4 := Vector.replicate 4 {}
  vkh   : Vector KeyRow 2 := Vector.replicate 2 {}
  ikh   : Vector KeyRow 2 := Vector.replicate 2 {}
  dus   : Vector Epoch 4 := Vector.replicate 4 {}
  svn   : Nat := 0
  devId : BitVec 128 := 0
  deriving DecidableEq, Repr

/-- A debug grant: scopes, signer and the TB at which it ends (14 R433). -/
structure Grant where
  scope  : BitVec 6 := 0
  signer : BitVec 2 := 0
  until' : U64 := 0
  deriving DecidableEq, Repr

/-- The life-cycle registers (14 R438), the debugger's halts (14 R433, R434), the keys barred during a grant, and the grant that
waits for its soft zeroise, with whether that has begun (14 R435). -/
structure Lc where
  op     : BitVec 4 := 0
  result : Byte := 0
  chal   : Option (Bytes × U64) := none
  grant  : Option Grant := none
  event  : BitVec 3 := 0
  token  : SMap Byte := []
  fail   : BitVec 4 := 0
  halted : List Nat := []
  supvHalt : Bool := false
  barred : List Nat := []
  want   : Option (Grant × Bool) := none
  deriving DecidableEq, Repr

/-! ## Boot, image and live update (15) -/

/-- The NVM directory in force: SEQ, ACTIVE, STATE_A, STATE_B, TRIALS and the copy it was read from (15 R443). -/
structure Dir where
  seq    : U32 := 0
  active : Nat := 0
  stA    : Nat := 0
  stB    : Nat := 0
  trials : Nat := 0
  copy   : Nat := 1
  deriving DecidableEq, Repr

/-- A measurement entry: version and SHA-384 digest (12 R392). -/
structure Meas where
  version : U16 := 0
  digest  : Bytes := []
  deriving DecidableEq, Repr

/-- A program image installed on a core, keyed by core × 64 + PROG: its header and words (07 R260, R262, R263). -/
structure Image where
  bytes   : Bytes := []
  version : U16 := 0
  deriving DecidableEq, Repr

/-- The boot and update registers (15 R457), the boot NVM's bytes (0xFF where nothing is listed), what is loaded, and the
rollout in progress as the list of (order, instance) still to run (15 R451). -/
structure Boot where
  nvm    : SMap Byte := []
  nvmMode : BitVec 2 := 0
  dir    : Dir := {}
  slot   : Nat := 0
  mixed  : Bool := false
  nvmErr : Bool := false
  nvmGone : Bool := false
  fallback : Bool := false
  block  : U16 := 0
  imgRel : U32 := 0
  stgRel : U32 := 0
  op     : BitVec 4 := 0
  busy   : Bool := false
  result : Byte := 0
  haddr  : U64 := 0
  hlen   : U32 := 0
  mask   : BitVec 7 := 0x7F
  step   : BitVec 4 := 0
  inst   : Byte := 0
  done   : U16 := 0
  event  : BitVec 3 := 0
  times  : Vector U16 4 := Vector.replicate 4 0
  cfgMin : U32 := 0
  verified : Bool := false
  recovery : Bool := false
  rollout : List (Nat × Nat) := []
  handover : Bool := false
  stepDone : Bool := false
  blocks : SMap Bytes := []
  meas   : List Meas := []
  custom : SMap Image := []
  deriving DecidableEq, Repr

/-! ## Running programs: job I/O, cores, sequencers (07, 08) -/

/-- What a job on a core holds beside its registers (07 R230-R236, R247, 10 R329): its image, the pages present and how
often each was refilled, the output not yet drained and the bytes already written, what JSET set, the lines JKPUT wrote
(share × 2^20 + byte), its random buffer, its mask-expander seed and words taken, the waiting cores with the cycle since which
they wait and the TB at which it began, the cores at a barrier (core, tag, cycle), the image's first program-memory byte, the draw of the key port. -/
structure JobIo where
  hdr     : ImgHdr := {}
  started : Bool := false
  pages   : List Nat := []
  refills : SMap Nat := []
  auxIn   : Bool := false
  buf     : Bytes := []
  outDone : Nat := 0
  jset    : Option (U16 × U16) := none
  res     : U32 := 0
  att     : Byte := 0
  eff     : Byte := 0
  newKey  : SMap Byte := []
  rnd     : Bytes := []
  mxSeed  : Bytes := []
  mxCtr   : Nat := 0
  wait    : SMap (Option (PyWait × Nat)) := []
  waitTb  : SMap U64 := []
  bars    : List (Nat × Nat × Nat) := []
  base    : Nat := 0
  keyCtr  : Nat := 0
  deriving DecidableEq, Repr

/-- The schedule of one hash unit of a core: hash cycle at which its operation ends, whether a command waits, core cycle at
which its state window is ready, core cycle at which a HINIT has taken effect (07 R243, R255; 09 R298). -/
structure HashTime where
  busy  : Nat := 0
  queue : Nat := 0
  win   : Nat := 0
  init  : Nat := 0
  deriving DecidableEq, Repr

/-- One polynomial core: live registers, context slots, tile memory (zero where nothing is listed), and the hazard
checker's records: next issue cycle, landing cycles by register, free cycles by unit, ports of the last cycle, the last
store (07 R213-R228, 08 R285, 09 R301), the tile lines that hold an uncorrectable error (07 R237); `resumed` while the cycles of a debug halt are still to be left out (09 R302). -/
structure Core where
  live   : PyRegs := {}
  ctx    : Vector (Option PyRegs) 4 := Vector.replicate 4 none
  tile   : SMap Byte := []
  nextT  : Nat := 0
  land   : SMap Nat := []
  free   : SMap Nat := []
  qAt    : Nat := 0
  gAt    : Nat := 0
  ports  : List (Nat × Bool × Nat) := []
  stores : List (Nat × Nat) := []
  yieldT : Nat := 0
  partOwner : Vector (Option Nat) 4 := Vector.replicate 4 none
  hash   : Vector HashTime 4 := Vector.replicate 4 {}
  eccLines : List Nat := []
  resumed : Bool := false
  deriving DecidableEq, Repr

/-- The micro-state of a sequencer (08 R269). A polynomial core keeps its own in its registers. -/
structure Micro where
  u     : Vector U64 32 := Vector.replicate 32 0
  lc    : Vector U16 4 := Vector.replicate 4 0
  stack : List (BitVec 14) := []
  upc   : BitVec 14 := 0
  run   : Bool := false
  deriving DecidableEq, Repr

/-- The hazard checker's records of a modular engine or tree sequencer: next issue cycle, landing cycles by micro-register, free
cycles by unit, cycle of the last yield point (09 R301, 08 R284). -/
structure Sched where
  nextT  : Nat := 0
  land   : SMap Nat := []
  free   : SMap Nat := []
  yieldT : Nat := 0
  deriving DecidableEq, Repr

/-- The cipher state of a symmetric unit: round-key shares, counter, tweak, GHASH and Poly1305 accumulators, seed and counter of its
mask generator (09 R307, 10 R334). -/
structure SyEng where
  keys   : Bytes := []
  ctr    : BitVec 128 := 0
  tweak  : BitVec 128 := 0
  ghash  : BitVec 128 := 0
  poly   : BitVec 130 := 0
  seed   : Bytes := []
  maskCtr : Nat := 0
  deriving DecidableEq, Repr

/-- A saved context: the job it belongs to, whether it is still to be restored, and what was moved: of a modular engine the
micro-state, Slate, operand buffers, padding unit and length registers; of a tree sequencer the micro-state, node buffer, tree banks
and unit-ownership register; of a symmetric unit its cipher state (06 R182, 08 R285, 09 R307). -/
structure Parked where
  job   : Option Nat := none
  full  : Bool := false
  micro : Micro := {}
  slate : SMap Byte := []
  bufs  : Vector (BitVec 512) 4 := Vector.replicate 4 0
  pad   : HashBank := {}
  lens  : Vector U64 3 := Vector.replicate 3 0
  units : Vector HashBank 16 := Vector.replicate 16 {}
  owned : U64 := 0
  sy    : SyEng := {}
  deriving DecidableEq, Repr

/-- One modular engine: micro-state, Slate, operand buffers, accumulator, padding unit, length registers, checker records, the context
memory and the job whose context it holds (06 R180-R182, 08 R273, R275). -/
structure MeEng where
  micro : Micro := {}
  slate : SMap Byte := []
  bufs  : Vector (BitVec 512) 4 := Vector.replicate 4 0
  pad   : HashBank := {}
  lens  : Vector U64 3 := Vector.replicate 3 0
  sched : Sched := {}
  ctx   : Parked := {}
  held  : Option Nat := none
  deriving DecidableEq, Repr

/-- One tree sequencer: micro-state, node buffer, the cluster's hash units in their tree banks, the unit-ownership register, checker
records, its one context and the job that it holds (08 R273, R275, R285, R286; 09 R313). -/
structure TsEng where
  micro : Micro := {}
  node  : SMap Byte := []
  units : Vector HashBank 16 := Vector.replicate 16 {}
  owned : U64 := 0
  sched : Sched := {}
  ctx   : Parked := {}
  held  : Option Nat := none
  deriving DecidableEq, Repr

/-- The stores of a sequencer and their registers (08 R290-R295): what banks A and B hold, as the bytes of a component (control
store, dispatch table and directory, 15 R444; none: every entry E = 0), and on a core the vendor images of its program memory
(07 R261); its custom images are in `Boot.custom`. `haltReq` while the debugger's halt waits for a yield point, `reload` while a bank
waits to be written again (08 R267, R287). -/
structure UStore where
  bank   : Bool := false
  staged : Bool := false
  swap   : Bool := false
  drain  : Bool := false
  fails  : Byte := 0
  actVer : U16 := 0
  stgVer : U16 := 0
  actCrc : U32 := 0
  stgCrc : U32 := 0
  corr   : U16 := 0
  uncorr : BitVec 15 := 0
  event  : Bool := false
  halted : Bool := false
  atYld  : Bool := false
  stepOk : Bool := false
  haltReq : Bool := false
  reload : Bool := false
  bankA  : Bytes := []
  bankB  : Bytes := []
  progs  : Bytes := []
  deriving DecidableEq, Repr

/-! ## Brynique fabric (18) -/

/-- Roles of a node (18 R501, R529). -/
inductive Role | alone | lead | member
  deriving DecidableEq, Repr

/-- States of a node (18 R520). -/
inductive NodeState | absent | joining | member | lost | removed
  deriving DecidableEq, Repr

/-- One port: its state and counters, the link sequences, the replay buffer, the frames that wait for credits, the credits for the
far end's buffers by virtual channel and dateline class (index 2 × VC + DL, in 64-byte units), replays of the oldest frame,
times of failed retrains (18 R505-R508, R529). -/
structure Port where
  state    : BitVec 2 := 0
  retrains : Byte := 0
  replays  : U16 := 0
  crcErr   : U32 := 0
  tries    : Nat := 0
  fails    : List U64 := []
  barred   : Bool := false
  txSeq    : BitVec 12 := 0
  rxSeq    : BitVec 12 := 0
  replay   : List (FType × Frame) := []
  wait     : List (FType × Frame) := []
  credits  : Vector Nat 8 := #v[16, 16, 128, 128, 256, 256, 32, 32]
  deriving DecidableEq, Repr

/-- One node as this device sees it: state, sequences of both directions, frames held early, the handshake (stage, transcript,
the member's ephemeral key, the keys agreed and not yet in force, whether it renews), the session keys in force, grants of
credits and journal entries by owner, shares and owners on it, WR_DATA frames by job (18 R509-R514, R519, R529). -/
structure Node where
  state   : NodeState := .absent
  hops    : BitVec 4 := 0
  lostJobs : U16 := 0
  losses  : U16 := 0
  tx      : U64 := 0
  rx      : U64 := 0
  early   : List (FType × Frame) := []
  stage   : Nat := 0
  hsBytes : Bytes := []
  ephem   : Bytes := []
  nextKey : Bytes := []
  renew   : Bool := false
  secret  : Bytes := []
  credits : SMap Nat := []
  jrns    : SMap Nat := []
  shares  : SMap Shares := []
  owners  : List Nat := []
  wrData  : SMap Nat := []
  deriving DecidableEq, Repr

/-- The fabric (18 R502, R513, R516, R526, R529). -/
structure Fab where
  role    : Role := .alone
  enc     : Bool := false
  syLead  : Nat := 0
  syMember : Nat := 0
  nodes   : U64 := 0
  routes  : SMap Byte := []
  allow   : SMap Bytes := []
  op      : BitVec 3 := 0
  cmdNode : BitVec 6 := 0
  busy    : Bool := false
  result  : Byte := 0
  nodesel : BitVec 6 := 0
  event   : BitVec 4 := 0
  evNode  : BitVec 6 := 0
  terr    : U16 := 0
  offset  : Int := 0
  ports   : Vector Port 4 := Vector.replicate 4 {}
  node    : SMap Node := []
  home    : SMap Nat := []
  abandon : List Nat := []
  cfgQ    : List Bytes := []
  deriving DecidableEq, Repr


/-! ## The whole device -/

/-- Everything but the queue of commands. -/
structure Dev where
  glob : Glob := {}
  hif  : Hif := {}
  sqs  : SMap Sq := []
  cqs  : SMap Cq := []
  jobs : Jobs := {}
  jrn  : Jrn := {}
  ks   : Ks := {}
  ss   : Ss := {}
  own  : SMap Own := []
  vfm  : Vfm := {}
  dlr  : Dlr := {}
  engs : Vector EngReg 32 := Vector.replicate 32 {}
  rng  : Rng := {}
  recd : Rec := {}
  amb  : Amb := {}
  bdr  : Bdr := {}
  tmon : Tmon := {}
  jtag : Jtag := {}
  bist : Bist := {}
  otp  : Otp := {}
  lc   : Lc := {}
  boot : Boot := {}
  io   : SMap JobIo := []
  cores : Vector Core 16 := Vector.replicate 16 {}
  mes  : Vector MeEng 8 := Vector.replicate 8 {}
  tss  : Vector TsEng 4 := Vector.replicate 4 {}
  sys  : Vector SyEng 4 := Vector.replicate 4 {}
  parked : SMap Parked := []
  stores : Vector UStore 28 := Vector.replicate 28 {}
  fab  : Fab := {}
  deriving DecidableEq, Repr

/-- Why the machine stops: nothing in the spec of this block stops it, so no reason exists. -/
inductive Fault
  /-- Raised by no meaning: the spec gives every command of the table an effect. Safe. -/
  | none
  deriving DecidableEq, Repr

/-- Why a command has no meaning. -/
inductive Refusal
  /-- Raised by an arm of `exec` whose command is not modelled yet. Safe. -/
  | notModelled (mnemonic : String)
  deriving DecidableEq, Repr

/-- The state of the machine. -/
structure State where
  dev     : Dev := {}
  pending : List Instr := []
  deriving DecidableEq, Repr

/-- The machine right after a power-on: POR_N asserted, every register at its reset value (01 R29, R30). -/
def State.reset : State := {}

end Sys2Proof.Machine
end

