-- ==== Sys2Proof/Machine/Store.lean ====
section
/-!
DEFINITION. Sparse maps in canonical form, byte strings, byte order and CRC-32C.
-/
namespace Sys2Proof.Machine

/-! ## Sparse maps -/

/-- The value at a key; `d` is what an unlisted key reads as. -/
def mapGet {α : Type} (d : α) : SMap α → Nat → α
  | [], _ => d
  | (k, v) :: m, a => if a = k then v else mapGet d m a

/-- Write a key and keep the canonical form: writing the default removes the entry. -/
def mapSet {α : Type} [DecidableEq α] (d : α) : SMap α → Nat → α → SMap α
  | [], a, v => if v = d then [] else [(a, v)]
  | (k, w) :: m, a, v =>
    if a < k then (if v = d then (k, w) :: m else (a, v) :: (k, w) :: m)
    else if a = k then (if v = d then m else (a, v) :: m)
    else (k, w) :: mapSet d m a v

/-- Change a key by a function of what it reads as. -/
def mapMod {α : Type} [DecidableEq α] (d : α) (m : SMap α) (a : Nat) (f : α → α) : SMap α :=
  mapSet d m a (f (mapGet d m a))

/-- Keep the entries whose key satisfies `p`. -/
def mapKeep {α : Type} (p : Nat → Bool) (m : SMap α) : SMap α := m.filter fun e => p e.1

/-- Change every listed entry, dropping those that become the default. -/
def mapAll {α : Type} [DecidableEq α] (d : α) (f : Nat → α → α) (m : SMap α) : SMap α :=
  (m.map fun e => (e.1, f e.1 e.2)).filter fun e => e.2 ≠ d

/-- The canonical form of a map with default `d`, above a key bound: keys strictly rising, no entry equal to the default. -/
def mapWfFrom {α : Type} [DecidableEq α] (d : α) : Nat → SMap α → Bool
  | _, [] => true
  | lo, (k, v) :: m => decide (lo ≤ k) && !decide (v = d) && mapWfFrom d (k + 1) m

/-- The canonical form of a map. -/
def mapWf {α : Type} [DecidableEq α] (d : α) (m : SMap α) : Bool := mapWfFrom d 0 m

/-! ## Byte memories: sparse maps of bytes that read 0 where nothing is listed (07 R225; log 12) -/

/-- The well-formed byte memories. -/
def memWf (m : SMap Byte) : Bool := mapWf (0 : Byte) m

/-- Read one byte. -/
def memByte (m : SMap Byte) (a : Nat) : Byte := mapGet 0 m a

/-- Write one byte. -/
def memPut (m : SMap Byte) (a : Nat) (b : Byte) : SMap Byte := mapSet 0 m a b

/-- Read `n` bytes from an address upwards. -/
def memRead (m : SMap Byte) (a : Nat) : Nat → Bytes
  | 0 => []
  | n + 1 => memByte m a :: memRead m (a + 1) n

/-- Write bytes from an address upwards. -/
def memWrite (m : SMap Byte) (a : Nat) : Bytes → SMap Byte
  | [] => m
  | b :: bs => memWrite (memPut m a b) (a + 1) bs

/-- Keep only the bytes outside `[lo, lo + len)`: the region reads 0 afterwards. -/
def memClear (m : SMap Byte) (lo len : Nat) : SMap Byte := mapKeep (fun a => a < lo || lo + len ≤ a) m

/-- The entries that list bytes from an address upwards. -/
def listBytes : Nat → Bytes → SMap Byte
  | _, [] => []
  | a, b :: bs => if b = 0 then listBytes (a + 1) bs else (a, b) :: listBytes (a + 1) bs

/-- Write a whole region at once. -/
def memFill (m : SMap Byte) (a : Nat) (bs : Bytes) : SMap Byte :=
  mapKeep (· < a) m ++ listBytes a bs ++ mapKeep (a + bs.length ≤ ·) m

/-! ## Byte strings -/

/-- The little-endian value of a byte string (00 R11). -/
def leNat : Bytes → Nat
  | [] => 0
  | b :: bs => b.toNat + 256 * leNat bs

/-- The big-endian value of a byte string (00 R11). -/
def beNat (bs : Bytes) : Nat := bs.foldl (fun a b => a * 256 + b.toNat) 0

/-- `n` bytes of a natural number, least significant first. -/
def leBytes : Nat → Nat → Bytes
  | 0, _ => []
  | n + 1, v => BitVec.ofNat 8 v :: leBytes n (v / 256)

/-- `n` bytes of a natural number, most significant first. -/
def beBytes (n v : Nat) : Bytes := (leBytes n v).reverse

/-- The little-endian bytes of a word. -/
def le16 (v : U16) : Bytes := leBytes 2 v.toNat
/-- The little-endian bytes of a word. -/
def le32 (v : U32) : Bytes := leBytes 4 v.toNat
/-- The little-endian bytes of a word. -/
def le64 (v : U64) : Bytes := leBytes 8 v.toNat

/-- `n` zero bytes. -/
def zeros (n : Nat) : Bytes := List.replicate n 0

/-- The bytes at `[off, off + n)`, with zeros past the end. -/
def slice (bs : Bytes) (off n : Nat) : Bytes :=
  let t := (bs.drop off).take n
  t ++ zeros (n - t.length)

/-- Cut or zero-pad to `n` bytes. -/
def fit (n : Nat) (bs : Bytes) : Bytes := slice bs 0 n

/-- A byte of a string, 0 past its end. -/
def byteAt (bs : Bytes) (i : Nat) : Byte := bs.getD i 0

/-- Little-endian fields of a byte string. -/
def u16At (bs : Bytes) (i : Nat) : U16 := BitVec.ofNat 16 (leNat (slice bs i 2))
/-- Little-endian fields of a byte string. -/
def u32At (bs : Bytes) (i : Nat) : U32 := BitVec.ofNat 32 (leNat (slice bs i 4))
/-- Little-endian fields of a byte string. -/
def u64At (bs : Bytes) (i : Nat) : U64 := BitVec.ofNat 64 (leNat (slice bs i 8))

/-- Replace bytes from an offset on. -/
def splice (bs : Bytes) (off : Nat) (new : Bytes) : Bytes :=
  slice bs 0 off ++ new ++ bs.drop (off + new.length)

/-- Bytewise exclusive or, as long as the shorter string. -/
def xorBytes (a b : Bytes) : Bytes := List.zipWith (· ^^^ ·) a b

/-- Whether every byte is 0. -/
def allZero (bs : Bytes) : Bool := bs.all (· == 0)

/-- The ASCII bytes of a string. -/
def ascii (s : String) : Bytes := s.toList.map fun c => BitVec.ofNat 8 c.toNat

/-- Split into pieces of `n` bytes; `fuel` bounds the number of pieces. -/
def chunks (n : Nat) : Nat → Bytes → List Bytes
  | 0, _ => []
  | _ + 1, [] => []
  | f + 1, bs => bs.take n :: chunks n f (bs.drop n)

/-- Ceiling division. -/
def cdiv (a b : Nat) : Nat := (a + b - 1) / b

/-! ## CRC-32C (polynomial 0x1EDC6F41, reflected) -/

/-- Eight bit steps of the reflected CRC register. -/
def crcBits : Nat → U32 → U32
  | 0, c => c
  | n + 1, c => crcBits n (if c.getLsbD 0 then (c >>> 1) ^^^ 0x82F63B78 else c >>> 1)

/-- CRC-32C of a byte string. -/
def crc32c (bs : Bytes) : U32 :=
  ~~~ (bs.foldl (fun c b => crcBits 8 (c ^^^ b.setWidth 32)) 0xFFFFFFFF)

/-! ## Saturating counters (19 R548) -/

/-- One more, held at the largest value. -/
def satInc {w : Nat} (c : BitVec w) : BitVec w := if c = BitVec.allOnes w then c else c + 1

/-- A natural number held at the largest value of a width. -/
def satNat (w n : Nat) : BitVec w := if n < 2 ^ w then BitVec.ofNat w n else BitVec.allOnes w

end Sys2Proof.Machine
end

