-- ==== Sys2Proof/Machine/Codes.lean ====
section
/-!
DEFINITION. The numbered codes of the spec: statuses, stop reasons, Amber codes, states.
-/
namespace Sys2Proof.Machine

/-! ## STATUS (02 R79 and the tables of the service chapters) -/

def stOk : U16 := 0x0000
def stLength : U16 := 0x0101
def stEncoding : U16 := 0x0102
def stRange : U16 := 0x0103
def stPointInvalid : U16 := 0x0104
def stParamInvalid : U16 := 0x0105
def stKeyPolicy : U16 := 0x0106
def stHandleStale : U16 := 0x0107
def stOpcodeUnknown : U16 := 0x0108
def stSglInvalid : U16 := 0x0109
def stNotPermitted : U16 := 0x010A
def stMaskUnsupported : U16 := 0x010B
def stContextInvalid : U16 := 0x010C
def stCurveInvalid : U16 := 0x010D
def stProgramInvalid : U16 := 0x010E
def stSigInvalid : U16 := 0x0201
def stTagInvalid : U16 := 0x0202
def stDecryptFailed : U16 := 0x0203
def stKeyCacheFull : U16 := 0x0301
def stStateExhausted : U16 := 0x0302
def stRngUnavailable : U16 := 0x0303
def stTreeNotReady : U16 := 0x0304
def stPersistFull : U16 := 0x0305
def stReset : U16 := 0x0401
def stDeadline : U16 := 0x0402
def stZeroise : U16 := 0x0403
def stMemberLost : U16 := 0x0404
def stDiscarded : U16 := 0x0405
def stEcc : U16 := 0x0501
def stContractFault : U16 := 0x0502
def stVfault : U16 := 0x0503
def stDmaError : U16 := 0x0504
def stYieldTimeout : U16 := 0x0505
def stResultCheck : U16 := 0x0506
def stAlign : U16 := 0x0507
def stIllegalInstr : U16 := 0x0508
def stIoBound : U16 := 0x0509
def stIterationBound : U16 := 0x0601

/-- No handle (00 R12). -/
def noHandle : U32 := 0xFFFFFFFF
/-- KEY0 is a blob at the head of AUX (00 R12). -/
def blobHandle : U32 := 0xFFFFFFFE

/-! ## EFFECT bits (02 R80) -/

def effOutput : Byte := 0x01
def effKeyCreated : Byte := 0x02
def effStateConsumed : Byte := 0x04
def effPersistent : Byte := 0x08
def effPartial : Byte := 0x10

/-! ## Queue stop and enable reasons (02 R78, 13 R408, 17 R484) -/

def erDoorbellRange : Byte := 0x01
def erGenMismatch : Byte := 0x02
def erFlagsReserved : Byte := 0x03
def erClassReserved : Byte := 0x04
def erSglAlign : Byte := 0x05
def erLengthLimit : Byte := 0x06
def erAddrWrap : Byte := 0x07
def erFetchError : Byte := 0x08
def erCqInvalid : Byte := 0x09
def erSizeInvalid : Byte := 0x0A
def erModeInvalid : Byte := 0x0B
def erMirrorRequired : Byte := 0x0C
def erHomeInvalid : Byte := 0x0D

/-- `GLB_STATE.ST` (01 R24). -/
def devStateCode : DevState → BitVec 4
  | .bedrock => 0x0 | .boot => 0x1 | .selftest => 0x2 | .load => 0x3 | .seed => 0x4 | .ready => 0x5
  | .safe => 0x8 | .held => 0x9 | .zeroised => 0xA | .scrapped => 0xF

/-- The bit of `GLB_RST_CAUSE` that a reset sets (01 R35); a hold through JTAG has none. -/
def resetCauseBit : ResetKind → Nat
  | .por => 0 | .perst => 1 | .hot => 2 | .pfFlr => 3 | .soft => 4 | .bedrock b => b | .hold | .vfFlr _ => 9

/-- `VFM_OWN.STATE` (13 R416). -/
def ownStateCode : OwnState → BitVec 3
  | .disabled => 0 | .active => 1 | .resetting => 2 | .removing => 3

/-! ## Amber codes and severities (17 R487) -/

/-- The severities of 17 R486. -/
inductive Sev | info | notice | warn | error | fatal
  deriving DecidableEq, Repr

/-- The number of a severity. -/
def sevCode : Sev → Byte | .info => 0 | .notice => 1 | .warn => 2 | .error => 3 | .fatal => 4

/-- The Amber codes of 17 R487. -/
inductive ACode
  | timeStep | state | wdog | queueStop | glitch | tamper | duty | rngFail | rngError | rngRecover | rngDead | rngHold
  | zeroise | zeroiseResumed | zeroiseSoft | pkeyBad | lcStart | lcDone | lcStepFail | lcDenied | lcInvalid
  | debugGrant | debugEnd | ucodeStage | nvmFail | supvHandoverFail | resultCheck | bistRetire | bistIs
  | recBankBad | ambBankBad | recVolatile
  | fabJoin | memberLost | portDown | leadLost
  deriving DecidableEq, Repr

/-- The number and severity of an Amber code (17 R487, 18 R530). -/
def acode : ACode → U16 × Sev
  | .timeStep => (0x0001, .info)
  | .state => (0x0002, .notice)
  | .wdog => (0x0003, .fatal)
  | .queueStop => (0x0101, .warn)
  | .glitch => (0x0201, .fatal)
  | .tamper => (0x0202, .error)
  | .duty => (0x0203, .notice)
  | .rngFail => (0x0301, .warn)
  | .rngError => (0x0302, .error)
  | .rngRecover => (0x0303, .notice)
  | .rngDead => (0x0304, .error)
  | .rngHold => (0x0305, .info)
  | .zeroise => (0x0401, .fatal)
  | .zeroiseResumed => (0x0402, .error)
  | .zeroiseSoft => (0x0403, .notice)
  | .pkeyBad => (0x0404, .error)
  | .lcStart => (0x0501, .notice)
  | .lcDone => (0x0502, .notice)
  | .lcStepFail => (0x0503, .error)
  | .lcDenied => (0x0504, .warn)
  | .lcInvalid => (0x0505, .fatal)
  | .debugGrant => (0x0506, .notice)
  | .debugEnd => (0x0507, .notice)
  | .ucodeStage => (0x0601, .warn)
  | .nvmFail => (0x0602, .error)
  | .supvHandoverFail => (0x0603, .error)
  | .resultCheck => (0x0701, .error)
  | .bistRetire => (0x0702, .error)
  | .bistIs => (0x0703, .info)
  | .recBankBad => (0x0801, .error)
  | .ambBankBad => (0x0802, .error)
  | .recVolatile => (0x0803, .error)
  | .fabJoin => (0x0901, .notice)
  | .memberLost => (0x0902, .error)
  | .portDown => (0x0903, .warn)
  | .leadLost => (0x0904, .error)

/-- Whether a code takes no token and is never dropped (17 R488). -/
def acodeExempt (c : ACode) : Bool :=
  let n := (acode c).1
  (acode c).2 == .fatal || n == 0x0001 || n >>> 8 == 0x04 || n >>> 8 == 0x05

/-- The kinds of SOURCE of an Amber entry (17 R486). -/
inductive ASrc | bedrock (id : Nat) | py (i : Nat) | ts (i : Nat) | me (i : Nat) | sy (i : Nat) | rng | ks | dealer | supv | hif | fab
  deriving DecidableEq, Repr

/-- SOURCE of an Amber entry (17 R486) written at fabric node `node`. -/
def asrcCode (node : Nat) : ASrc → U16
  | .bedrock i => BitVec.ofNat 16 (node % 64 * 64 + i % 64)
  | .py i => BitVec.ofNat 16 (0x1000 + node % 64 * 64 + i % 64)
  | .ts i => BitVec.ofNat 16 (0x2000 + node % 64 * 64 + i % 64)
  | .me i => BitVec.ofNat 16 (0x3000 + node % 64 * 64 + i % 64)
  | .sy i => BitVec.ofNat 16 (0x4000 + node % 64 * 64 + i % 64)
  | .rng => BitVec.ofNat 16 (0x5000 + node % 64 * 64)
  | .ks => BitVec.ofNat 16 (0x6000 + node % 64 * 64)
  | .dealer => BitVec.ofNat 16 (0x7000 + node % 64 * 64)
  | .supv => BitVec.ofNat 16 (0x8000 + node % 64 * 64)
  | .hif => BitVec.ofNat 16 (0x9000 + node % 64 * 64)
  | .fab => BitVec.ofNat 16 (0xA000 + node % 64 * 64)

/-- The names of the codes that `amberRefill` may refill: every token-bearing code, by its number (17 R488). -/
def acodeTakesToken (n : U16) : Bool :=
  n = 0x0002 || n = 0x0101 || n = 0x0202 || n = 0x0203 || (0x0301 ≤ n && n ≤ 0x0305) || (0x0601 ≤ n && n ≤ 0x0603)
    || (0x0701 ≤ n && n ≤ 0x0703) || (0x0801 ≤ n && n ≤ 0x0803) || (0x0901 ≤ n && n ≤ 0x0904)

/-! ## Engines (02 R44, 09 R304) -/

/-- The cell numbers of the non-dealt engines of a completion's ENGINE field. -/
def cellRng : Nat := 32
/-- The cell number that stands for the key store. -/
def cellKs : Nat := 33

/-- The kinds of engine. -/
inductive EngKind | py | ts | me | sy | rng | ks | none
  deriving DecidableEq, Repr

/-- The kind of the engine of a cell (09 R304). -/
def cellKind (c : Nat) : EngKind :=
  if c < 16 then .py else if c < 24 then .me else if c < 28 then .sy else if c < 32 then .ts
  else if c = 32 then .rng else .ks

/-- The cells of a kind, lowest first. -/
def kindCells : EngKind → List Nat
  | .py => List.range 16
  | .me => (List.range 8).map (· + 16)
  | .sy => (List.range 4).map (· + 24)
  | .ts => (List.range 4).map (· + 28)
  | .rng => [32] | .ks => [33] | .none => []

/-- ENGINE of a completion for an engine of fabric node `node` (02 R44). -/
def engineCode (node c : Nat) : U16 :=
  let t := match cellKind c with | .py => 1 | .ts => 2 | .me => 3 | .sy => 4 | .rng => 5 | .ks => 6 | .none => 0
  let i := if c < 16 then c else if c < 24 then c - 16 else if c < 28 then c - 24 else if c < 32 then c - 28 else 0
  BitVec.ofNat 16 (t * 4096 + node % 64 * 64 + i)

end Sys2Proof.Machine
end

