-- ==== Sys2Proof/Machine/Link.lean ====
section
/-!
DEFINITION. Frames of the Brynique fabric on their way out: virtual channels, credits, the replay buffer, routes (18 R503,
R506-R508). The payload layouts are the model's: the spec gives the types, not the payloads (log 38).
-/
namespace Sys2Proof.Machine

/-- TYPE (18 R507). -/
def ftype : FType → Nat
  | .submit => 0x01 | .complete => 0x02 | .rdReq => 0x03 | .rdData => 0x04 | .wrData => 0x05 | .abandon => 0x06
  | .abandonDone => 0x07 | .creditGrant => 0x08 | .ackNak => 0x10 | .heartbeat => 0x11 | .time => 0x12 | .handshake => 0x20
  | .config => 0x21 | .record => 0x22 | .amber => 0x23 | .fate => 0x24 | .rekey => 0x25
/-- The virtual channel of a type (18 R507). -/
def ftypeVc : FType → Nat
  | .ackNak | .heartbeat | .time => 0
  | .submit | .complete | .rdReq | .abandon | .abandonDone | .creditGrant => 1
  | .rdData | .wrData => 2
  | .handshake | .config | .record | .amber | .fate | .rekey => 3
/-- Whether a type is link control of VC 0. Those frames take no LSEQ, no ESEQ and no credit (log 38). -/
def ftypeLink (t : FType) : Bool := ftypeVc t == 0
/-- Whether a frame's payload is encrypted in a fabric with ENC = 1 (18 R511). -/
def sealedType (t : FType) : Bool := !ftypeLink t && t != .handshake

def getPort (d : Dev) (p : Nat) : Port := d.fab.ports.toList.getD p {}
def modPort (d : Dev) (p : Nat) (f : Port → Port) : Dev :=
  if h : p < 4 then { d with fab.ports := d.fab.ports.set p (f d.fab.ports[p]) } else d
def getNode (d : Dev) (n : Nat) : Node := mapGet {} d.fab.node n
def setNode (d : Dev) (n : Nat) (v : Node) : Dev := { d with fab.node := mapSet {} d.fab.node n v }
def modNode (d : Dev) (n : Nat) (f : Node → Node) : Dev := setNode d n (f (getNode d n))

/-- The bytes of a frame on the wire: header, payload, tag and trailer (18 R506). -/
def frameLen (enc : Bool) (t : FType) (f : Frame) : Nat := 20 + f.body.length + if enc && sealedType t then 16 else 0
/-- The credits that a frame takes, in 64-byte units (18 R507). -/
def frameUnits (enc : Bool) (t : FType) (f : Frame) : Nat := cdiv (frameLen enc t f) 64
/-- The index of a frame's virtual channel and dateline class among the credits. -/
def frameClass (t : FType) (f : Frame) : Nat := 2 * ftypeVc t + if f.dl then 1 else 0

/-! ## Leaving a port (18 R507, R508) -/

/-- Put a frame on the wire. -/
def portEmit (d : Dev) (p : Nat) (t : FType) (f : Frame) : Dev := { d with hif.out := d.hif.out ++ [.frame p t f] }

/-- Send what waits at a port, in order, as far as credits and the 64 KiB replay buffer allow; a frame that must wait holds back
those of its class. `fuel` is the number of frames that wait. -/
def pumpPort (p : Nat) : Nat → List (FType × Frame) → List Nat → Dev → Dev
  | 0, _, _, d => d
  | _, [], _, d => d
  | n + 1, (t, f) :: rest, blocked, d =>
    let q := getPort d p
    let c := frameClass t f
    let u := frameUnits d.fab.enc t f
    let room := decide ((q.replay.map fun x => frameLen d.fab.enc x.1 x.2).sum + frameLen d.fab.enc t f ≤ 65536)
    if q.state == 2 && !blocked.contains c && decide (u ≤ q.credits.toList.getD c 0) && room then
      let g := { f with lseq := q.txSeq, port := p }
      pumpPort p n rest blocked (portEmit (modPort d p fun x =>
        { x with txSeq := x.txSeq + 1, replay := x.replay ++ [(t, g)], credits := x.credits.setIfInBounds c (q.credits.toList.getD c 0 - u) }) p t g)
    else
      pumpPort p n rest (c :: blocked) (modPort d p fun x => { x with wait := x.wait ++ [(t, f)] })
/-- Try every frame that waits at a port again. -/
def pump (d : Dev) (p : Nat) : Dev :=
  let ws := (getPort d p).wait
  pumpPort p ws.length ws [] (modPort d p fun x => { x with wait := [] })

/-- Give a frame to a port. -/
def portSend (d : Dev) (p : Nat) (t : FType) (f : Frame) : Dev :=
  if ftypeLink t then portEmit d p t { f with port := p } else pump (modPort d p fun x => { x with wait := x.wait ++ [(t, f)] }) p

/-! ## Routes (18 R503) -/

/-- Whether a port's link is up. -/
def portUp (d : Dev) (p : Nat) : Bool := (getPort d p).state == 2
/-- The route byte of this node towards a destination. -/
def routeByte (d : Dev) (n : Nat) : Byte := mapGet 0 d.fab.routes (64 * d.glob.node + n)
/-- The port, dateline bit and AR with which a frame leaves this node: by the primary port while it is up, by the alternate while
it is down; with AR = 1 by the alternate where it is up. -/
def routeOf (d : Dev) (n : Nat) (ar : Bool) : Option (Nat × Bool × Bool) :=
  let r := routeByte d n
  let pp := r.toNat % 4
  let ap := r.toNat / 16 % 4
  let prim := if r.getLsbD 3 && portUp d pp then some (pp, r.getLsbD 2, ar) else none
  let alt := if r.getLsbD 7 && portUp d ap then some (ap, r.getLsbD 6, true) else none
  if ar then (match alt with | some x => some x | none => prim) else (match prim with | some x => some x | none => alt)

/-- Send a frame on towards its destination; with no port up there it is lost (log 38). -/
def routeFrame (d : Dev) (t : FType) (f : Frame) : Dev :=
  match routeOf d f.dst f.ar with
  | none => d
  | some (p, dl, ar) => portSend d p t { f with dl := f.dl || dl, ar := ar }

/-- Send a frame to a node: every type but link control takes the next ESEQ of its direction (18 R506). -/
def sendFrame (d : Dev) (n : Nat) (t : FType) (body : Bytes) : Dev :=
  let f : Frame := { src := d.glob.node, dst := n, eseq := if ftypeLink t then 0 else (getNode d n).tx, body := body }
  routeFrame (if ftypeLink t then d else modNode d n fun x => { x with tx := x.tx + 1 }) t f

/-- Whether this device is a member of a fabric. -/
def isMember (d : Dev) : Bool := d.fab.role == .member

/-- The home node of a device SQ (18 R513). -/
def sqHome (d : Dev) (q : Nat) : Nat := mapGet 0 d.fab.home q

/-! ## Payloads -/

/-- The number of a side of a job that reads. -/
def sideCode : DmaSide → Nat | .input => 0 | .aux => 1 | .inList => 2 | .outList => 3
/-- The side of a number. -/
def sideOf (n : Nat) : DmaSide := if n = 0 then .input else if n = 1 then .aux else if n = 2 then .inList else .outList
/-- RD_REQ: job, side, owner, address, length. -/
def rdReqBody (j : Nat) (side : DmaSide) (owner : Nat) (addr : U64) (len : Nat) : Bytes :=
  leBytes 8 j ++ leBytes 1 (sideCode side) ++ leBytes 1 owner ++ le64 addr ++ leBytes 4 len
/-- RD_DATA: job, side, outcome (0 data, 1 UR, 2 CA, 3 timeout, 4 poisoned), data. -/
def rdDataBody (j : Nat) (side : DmaSide) (code : Nat) (data : Bytes) : Bytes :=
  leBytes 8 j ++ leBytes 1 (sideCode side) ++ leBytes 1 code ++ data
/-- WR_DATA: job, owner, address, data. -/
def wrDataBody (j owner : Nat) (addr : U64) (data : Bytes) : Bytes := leBytes 8 j ++ leBytes 1 owner ++ le64 addr ++ data

/-- Send a member's output to the lead in frames of up to 480 bytes, and count them for the job's COMPLETE frame (18 R515). -/
def sendWrites (d : Dev) (j owner : Nat) (addr : U64) (bs : Bytes) : Dev :=
  ((chunks 480 bs.length bs).zipIdx).foldl (fun acc x =>
    sendFrame (modNode acc 0 fun n => { n with wrData := mapMod 0 n.wrData j (· + 1) }) 0 .wrData
      (wrDataBody j owner (addr + BitVec.ofNat 64 (480 * x.2)) x.1)) d
/-- Send read data to a member in frames of up to 480 bytes. -/
def sendReadData (d : Dev) (n j : Nat) (side : DmaSide) (bs : Bytes) : Dev :=
  (chunks 480 bs.length bs).foldl (fun acc x => sendFrame acc n .rdData (rdDataBody j side 0 x)) d

end Sys2Proof.Machine
end

