-- ==== Sys2Proof/Machine/Ops.lean ====
section
/-!
DEFINITION. The named operations that every family shares: lookups, requests to the host, events and messages, Amber
entries, recorder values, random draws and the change of the device state.
-/
namespace Sys2Proof.Machine

/-- An outcome of this machine. -/
abbrev Out3 := Host.Outcome State Fault Refusal

/-- The meaning of a command that acts on the device: the next state, with the queue untouched. -/
def onDev (s : State) (f : Dev → Dev) : Out3 := .next { s with dev := f s.dev }

/-! ## Lookups -/

def getSq (d : Dev) (q : Nat) : Sq := mapGet {} d.sqs q
def setSq (d : Dev) (q : Nat) (v : Sq) : Dev := { d with sqs := mapSet {} d.sqs q v }
def modSq (d : Dev) (q : Nat) (f : Sq → Sq) : Dev := setSq d q (f (getSq d q))
def getCq (d : Dev) (q : Nat) : Cq := mapGet {} d.cqs q
def setCq (d : Dev) (q : Nat) (v : Cq) : Dev := { d with cqs := mapSet {} d.cqs q v }
def modCq (d : Dev) (q : Nat) (f : Cq → Cq) : Dev := setCq d q (f (getCq d q))
def getOwn (d : Dev) (o : Nat) : Own := mapGet {} d.own o
def setOwn (d : Dev) (o : Nat) (v : Own) : Dev := { d with own := mapSet {} d.own o v }
def modOwn (d : Dev) (o : Nat) (f : Own → Own) : Dev := setOwn d o (f (getOwn d o))
def getFn (d : Dev) (f : Nat) : Fn := mapGet {} d.hif.fns f
def setFn (d : Dev) (f : Nat) (v : Fn) : Dev := { d with hif.fns := mapSet {} d.hif.fns f v }
/-- The key of an MSI-X vector: 64 per function (19 R545). -/
def vecKey (fn v : Nat) : Nat := fn * 2112 + v
def getVec (d : Dev) (fn v : Nat) : Vec := mapGet {} d.hif.msix (vecKey fn v)
def setVec (d : Dev) (fn v : Nat) (x : Vec) : Dev := { d with hif.msix := mapSet {} d.hif.msix (vecKey fn v) x }

/-- The engine registers of a cell. -/
def getEng (d : Dev) (c : Nat) : EngReg := if h : c < 32 then d.engs[c] else {}
/-- Change the engine registers of a cell. -/
def modEng (d : Dev) (c : Nat) (f : EngReg → EngReg) : Dev :=
  if h : c < 32 then { d with engs := d.engs.set c (f d.engs[c]) } else d

/-! ## Engines' records -/

def getCore (d : Dev) (c : Nat) : Core := if h : c < 16 then d.cores[c] else {}
def modCore (d : Dev) (c : Nat) (f : Core → Core) : Dev :=
  if h : c < 16 then { d with cores := d.cores.set c (f d.cores[c]) } else d
def getMe (d : Dev) (i : Nat) : MeEng := if h : i < 8 then d.mes[i] else {}
def modMe (d : Dev) (i : Nat) (f : MeEng → MeEng) : Dev :=
  if h : i < 8 then { d with mes := d.mes.set i (f d.mes[i]) } else d
def getTs (d : Dev) (i : Nat) : TsEng := if h : i < 4 then d.tss[i] else {}
def modTs (d : Dev) (i : Nat) (f : TsEng → TsEng) : Dev :=
  if h : i < 4 then { d with tss := d.tss.set i (f d.tss[i]) } else d
def getSy (d : Dev) (i : Nat) : SyEng := if h : i < 4 then d.sys[i] else {}
def modSy (d : Dev) (i : Nat) (f : SyEng → SyEng) : Dev :=
  if h : i < 4 then { d with sys := d.sys.set i (f d.sys[i]) } else d

/-- The job of a fetch number. -/
def findJob (d : Dev) (j : Nat) : Option Job := d.jobs.live.find? fun b => b.id == j
/-- Change a job in flight. -/
def modJob (d : Dev) (j : Nat) (f : Job → Job) : Dev :=
  { d with jobs.live := d.jobs.live.map fun b => if b.id = j then f b else b }
/-- Take a job out of flight. -/
def dropJob (d : Dev) (j : Nat) : Dev :=
  { d with jobs.live := d.jobs.live.filter fun b => b.id ≠ j, io := mapSet {} d.io j {} }
/-- The jobs of an owner that hold a credit of this device (13 R406, R416; 18 R514). -/
def ownJobs (d : Dev) (o : Nat) : List Job := d.jobs.live.filter fun b => b.owner == o && !b.remote
/-- The job that an engine runs now. -/
def engJob (d : Dev) (c : Nat) : Option Job :=
  d.jobs.live.find? fun b => b.phase == .placed && (b.eng == some c || b.eng2 == some c)

/-- Whether the device is in service: in READY, with no hard zeroise under way (01 R26, 12 R395). -/
def isReady (d : Dev) : Bool := d.glob.st == .ready && d.glob.hardZ.isNone
/-- Whether PF BAR0 is served whole: in READY, SAFE and HELD (01 R27). -/
def mapServed (d : Dev) : Bool := isReady d || d.glob.st == .safe || d.glob.st == .held

/-- Whether a function's BAR takes a write now: Memory Space Enable, D0, and a VF not in reset (19 R534, R535, 13 R409); the debug
TAP has the PF's rights (14 R433). -/
def barOk (d : Dev) (f : Nat) : Bool :=
  let p := getFn d f
  (f == 0 && d.jtag.acc) || (p.mse && !p.d3hot && (f == 0 || (getOwn d f).state == .active))

/-- Whether the PF's registers take a write: they are served whole, and its BAR takes one (01 R27). -/
def ctlServed (d : Dev) : Bool := barOk d 0 && mapServed d

/-- Whether a function holds a device SQ (13 R401). -/
def holdsSq (d : Dev) (o q : Nat) : Bool :=
  let w := getOwn d o
  w.sqBase ≤ q && q < w.sqBase + w.sh.sq.toNat
/-- Whether a function holds a device CQ (13 R401). -/
def holdsCq (d : Dev) (o q : Nat) : Bool :=
  let w := getOwn d o
  w.cqBase ≤ q && q < w.cqBase + w.sh.cq.toNat
/-- The owners that exist: the PF and the VFs. -/
def allOwners : List Nat := List.range 256
/-- The owners with an entry of their own. -/
def liveOwners (d : Dev) : List Nat := d.own.map (·.1)
/-- The owner that holds a device SQ. -/
def sqOwner (d : Dev) (q : Nat) : Option Nat := (liveOwners d).find? fun o => holdsSq d o q
/-- The owner that holds a device CQ. -/
def cqOwner (d : Dev) (q : Nat) : Option Nat := (liveOwners d).find? fun o => holdsCq d o q
/-- The device CQ that an SQ is bound to (02 R67: CQID is in the owner's numbering). -/
def boundCq (d : Dev) (o : Nat) (q : Sq) : Nat := (getOwn d o).cqBase + q.cqid.toNat

/-! ## Time -/

/-- The WALL stamp: 0 while unset (17 R476). -/
def wallNow (d : Dev) : U64 :=
  if d.glob.wallSet then d.glob.wallBase + (d.glob.tb - d.glob.wallTb) else 0

/-! ## Requests to the host (19 R535, R540-R542) -/

/-- The function that issues a request. -/
def outFn : Out → Option Nat
  | .write f _ _ _ => some f | .msix f _ _ _ => some f | .readReq f _ _ _ => some f | _ => none

/-- What a request reads, and how much of it. -/
def outReads : Out → List (ReadFor × Nat)
  | .readReq _ _ n w => [(w, n)] | _ => []

/-- Issue one request or hold it while its function's Bus Master Enable is 0 (19 R535); a read waits while 256 are outstanding (19 R540).
Nothing is issued from the start of a hard zeroise or a detector event (10 R336, 12 R395). -/
def emit (d : Dev) (o : Out) : Dev :=
  match outFn o with
  | none => { d with hif.out := d.hif.out ++ [o] }
  | some f =>
    if !d.glob.issuing then d
    else if !(getFn d f).bme then { d with hif.waiting := d.hif.waiting ++ [o] }
    else if !(outReads o).isEmpty && decide (256 ≤ d.hif.reads.length) then { d with hif.rdWait := d.hif.rdWait ++ [o] }
    else
      let n := match o with | .write _ _ b _ => b.length | _ => 0
      { d with hif.out := d.hif.out ++ [o], hif.wrBytes := d.hif.wrBytes + BitVec.ofNat 64 n, hif.reads := d.hif.reads ++ outReads o }

/-- The length of the next piece of a transfer: at most `max`, never across a 4 KiB boundary (19 R540, R541). -/
def pieceLen (addr max n : Nat) : Nat := min n (min max (4096 - addr % 4096))

/-- The write TLPs of a transfer in ascending order; `fuel` bounds their number (19 R541). -/
def writePieces (fn max : Nat) (rel : Bool) : Nat → Nat → Bytes → List Out
  | 0, _, _ => []
  | _ + 1, _, [] => []
  | f + 1, a, b :: bs =>
    let n := pieceLen a max (bs.length + 1)
    .write fn (BitVec.ofNat 64 a) ((b :: bs).take n) rel :: writePieces fn max rel f (a + n) ((b :: bs).drop n)

/-- Issue a write of host memory (19 R541, R542). -/
def hostWrite (d : Dev) (fn : Nat) (addr : U64) (bs : Bytes) (relaxed : Bool) : Dev :=
  let p := getFn d fn
  (writePieces fn p.mps (relaxed && p.relaxEn) bs.length addr.toNat bs).foldl emit d

/-- The read requests of a transfer in ascending order (19 R540). -/
def readPieces (fn max : Nat) (what : ReadFor) : Nat → Nat → Nat → List Out
  | 0, _, _ => []
  | _ + 1, _, 0 => []
  | f + 1, a, n + 1 =>
    let k := pieceLen a max (n + 1)
    .readReq fn (BitVec.ofNat 64 a) k what :: readPieces fn max what f (a + k) (n + 1 - k)

/-- Issue the reads of a transfer (19 R540). A member asks the lead for its jobs' reads (18 R515). -/
def hostRead (d : Dev) (fn : Nat) (addr : U64) (len : Nat) (what : ReadFor) : Dev :=
  if isMember d then
    match what with
    | .input j => sendFrame d 0 .rdReq (rdReqBody j .input fn addr len)
    | .aux j => sendFrame d 0 .rdReq (rdReqBody j .aux fn addr len)
    | .inList j => sendFrame d 0 .rdReq (rdReqBody j .inList fn addr len)
    | .outList j => sendFrame d 0 .rdReq (rdReqBody j .outList fn addr len)
    | _ => d
  else
  (readPieces fn (getFn d fn).mrrs what len addr.toNat len).foldl emit d

/-! ## Messages and events (19 R545-R549, 13 R417) -/

/-- Send the message of a vector, or hold it in the PBA while it is masked, its function's MSI-X is off or the function is
in D3hot (19 R534, R545). -/
def msixSend (d : Dev) (fn v : Nat) : Dev :=
  let x := getVec d fn v
  let p := getFn d fn
  if x.mask || p.fnMask || !p.msixEn || p.d3hot then setVec d fn v { x with pend := true }
  else emit d (.msix fn v x.addr x.data)

/-- The vector of a PF event source (19 R553, `GLB_EVMAP0`-`GLB_EVMAP2`). -/
def evVector (d : Dev) (src : Nat) : Nat :=
  let w := if src / 8 = 0 then d.glob.evMap[0] else if src / 8 = 1 then d.glob.evMap[1] else d.glob.evMap[2]
  (w >>> (8 * (src % 8))).toNat % 64

/-- Request a message of a PF event vector: at once, or carried when one went less than 1 µs ago (19 R549). -/
def evRequest (d : Dev) (src : Nat) : Dev :=
  if d.glob.evMask.getLsbD src then d
  else
    let v := evVector d src
    if d.glob.evHold.contains v then
      { d with glob.evCarry := if d.glob.evCarry.contains v then d.glob.evCarry else d.glob.evCarry ++ [v] }
    else
      let d1 := msixSend d 0 v
      { d1 with glob.evHold := d1.glob.evHold ++ [v] }

/-- After cause bits of a source have gone from `old` to `new`: a bit that rose requests a message (19 R549 rules 1, 3). -/
def raise {w : Nat} (d : Dev) (src : Nat) (old new : BitVec w) : Dev :=
  if new &&& ~~~old = 0 then d else evRequest d src

/-- Set `HIF_EVENT` bits (19 R554). -/
def hifCause (d : Dev) (bits : BitVec 5) : Dev :=
  raise { d with hif.event := d.hif.event ||| bits } 0 d.hif.event (d.hif.event ||| bits)
/-- Set `KS_ZSTAT.DONE` (12 R398). -/
def ksDone (d : Dev) : Dev := raise { d with ks.zdone := true } 4 (BitVec.ofBool d.ks.zdone) 1
/-- Set `KS_ZSTAT.PFULL` (12 R398). -/
def ksPfull (d : Dev) : Dev := raise { d with ks.pfull := true } 4 (BitVec.ofBool d.ks.pfull) 1
/-- Set `VFM_EVENT` bits for an owner (13 R416). -/
def vfmCause (d : Dev) (bits : BitVec 3) (o : Nat) : Dev :=
  raise { d with vfm.event := d.vfm.event ||| bits, vfm.evOwner := BitVec.ofNat 8 o } 5 d.vfm.event (d.vfm.event ||| bits)
/-- Set `DLR_DUTY_STAT.EVENT` (09 R322). -/
def dutyCause (d : Dev) : Dev := raise { d with dlr.dutyEvent := true } 6 (BitVec.ofBool d.dlr.dutyEvent) 1
/-- Set `RNG_EVENT` bits (11 R363). -/
def rngCause (d : Dev) (bits : BitVec 6) : Dev :=
  raise { d with rng.event := d.rng.event ||| bits } 7 d.rng.event (d.rng.event ||| bits)
/-- Set `SS_EVENT` bits for a key slot (04 R155). -/
def ssCause (d : Dev) (bits : BitVec 3) (slot : U16) : Dev :=
  raise { d with ss.event := d.ss.event ||| bits, ss.evSlot := slot } 8 d.ss.event (d.ss.event ||| bits)
/-- Set `REC_EVENT` bits (17 R500). -/
def recCause (d : Dev) (bits : BitVec 4) : Dev :=
  raise { d with recd.event := d.recd.event ||| bits } 9 d.recd.event (d.recd.event ||| bits)
/-- Set `AMB_EVENT` bits (17 R500). -/
def ambCause (d : Dev) (bits : BitVec 3) : Dev :=
  raise { d with amb.event := d.amb.event ||| bits } 10 d.amb.event (d.amb.event ||| bits)
/-- Set `BDR_FAULT` bits: a newly set bit asserts ALERT_N (17 R496, R500). Bits [7:4] are of type RO and raise no event
(19 R547). -/
def bdrCause (d : Dev) (bits : BitVec 9) : Dev :=
  let old := d.bdr.fault
  let new := old ||| bits
  let d1 := { d with bdr.fault := new, bdr.alert := d.bdr.alert || (new &&& ~~~old != 0) }
  raise d1 11 (old &&& 0x10F) (new &&& 0x10F)
/-- Set `TMON_EVENT` bits (20 R572). -/
def tmonCause (d : Dev) (bits : BitVec 4) : Dev :=
  raise { d with tmon.event := d.tmon.event ||| bits } 16 d.tmon.event (d.tmon.event ||| bits)

/-- A VF event: the VF's SHARE or STRAND bit rises and, with `VFM_VCTL.EN`, its vector is signalled (13 R417, 19 R546). -/
def vfEvent (d : Dev) (o : Nat) (share strand : Bool) : Dev :=
  if o = 0 then d
  else
    let w := getOwn d o
    let rise := (share && !w.vShare) || (strand && !w.vStrand)
    let d1 := setOwn d o { w with vShare := w.vShare || share, vStrand := w.vStrand || strand }
    if rise && w.vEn then msixSend d1 o w.vecReg.toNat else d1

/-! ## Amber (17 R486-R491) -/

/-- Tokens that a code's bucket holds (17 R488, R498). -/
def bucketSize (d : Dev) (n : U16) : Nat := mapGet 8 d.amb.tokens n.toNat

/-- Put an entry into the ring. While a freeze copy runs, only the slot after F is free to write; an entry whose slot is
still to be copied waits in the 16-entry FIFO or is lost (17 R491; log 16). -/
def ringPut (d : Dev) (e : AEntry) : Dev :=
  let slot := d.amb.written.toNat % 4096
  let put (a : Amb) : Amb := { a with ring := mapSet {} a.ring slot e, written := a.written + 1 }
  match d.amb.copy with
  | none => { d with amb := put d.amb }
  | some c =>
    if d.amb.written.toNat = c.upTo then { d with amb := put d.amb }
    else if c.fifo.length < 16 then { d with amb.copy := some { c with fifo := c.fifo ++ [e] } }
    else bdrCause { d with amb.copy := some { c with lost := c.lost + 1 }, amb.lost := satInc d.amb.lost } 0x100

/-- An Amber entry as this node stamps it (17 R475, R486). -/
def amberEntry (d : Dev) (n : U16) (sev : Byte) (src : U16) (supp : U16) (args : Bytes) : AEntry :=
  { tb := d.glob.tb, boot := d.glob.bootCnt, code := n, source := src, supp := supp, sev := sev,
    flags := (if d.glob.tbRun then 0 else 1) ||| (if d.glob.wallSet then 2 else 0),
    wall := wallNow d, args := fit 36 args }

/-- The payload of an AMBER frame. -/
def amberBody (e : AEntry) : Bytes :=
  le64 e.tb ++ le32 e.boot ++ le16 e.code ++ le16 e.source ++ le16 e.supp ++ [e.sev, e.flags] ++ le64 e.wall ++ fit 36 e.args
/-- A member relays each entry of severity WARN or above to the lead (18 R530). -/
def relay (d : Dev) (e : AEntry) : Dev :=
  if isMember d && decide (sevCode .warn ≤ e.sev) then sendFrame d 0 .amber (amberBody e) else d

/-- Write an Amber entry, or drop it for want of a token (17 R488). -/
def amber (d : Dev) (c : ACode) (src : ASrc) (args : Bytes) : Dev :=
  let n := (acode c).1
  let b := mapGet {} d.amb.buckets n.toNat
  if !acodeExempt c && bucketSize d n ≤ b.used then
    { d with amb.buckets := mapSet {} d.amb.buckets n.toNat { b with supp := satInc b.supp }
             amb.suppressed := satInc d.amb.suppressed }
  else
    let used := if acodeExempt c then b.used else b.used + 1
    let d1 := { d with amb.buckets := mapSet {} d.amb.buckets n.toNat { used := used, supp := 0 } }
    relay (ringPut d1 (amberEntry d n (sevCode (acode c).2) (asrcCode d.glob.node src) b.supp args))
      (amberEntry d n (sevCode (acode c).2) (asrcCode d.glob.node src) b.supp args)

/-- The ring's entries, oldest first. -/
def ringList (d : Dev) : List AEntry :=
  let w := d.amb.written.toNat
  let n := min w 4096
  (List.range n).map fun i => mapGet {} d.amb.ring ((w - n + i) % 4096)

/-- The bank that a freeze writes: the one of the good banks that holds the older freeze; none when both are bad
(17 R485, R489). -/
def freezeBank (d : Dev) : Option Nat :=
  let bad0 := d.bdr.badBanks.getLsbD 2
  let bad1 := d.bdr.badBanks.getLsbD 3
  if bad0 && bad1 then none else if bad0 then some 1 else if bad1 then some 0
  else if !d.amb.banks[0].valid then some 0 else if !d.amb.banks[1].valid then some 1
  else if d.amb.latest then some 0 else some 1

/-! ## Recorder values (17 R478-R480) -/

/-- The floor of the base-2 logarithm of `max v 1`, at most 47 (17 R479). -/
def histBin (v : Nat) : Nat := min 47 (Nat.log2 (max v 1))

/-- Keys of the recorder's records: TYPE and SUBJECT. -/
def recHistKey (subject : Nat) : Nat := 0x10000 + subject
def recExtremeKey (subject : Nat) : Nat := 0x20000 + subject
def recLifeKey : Nat := 0x30000

/-- The number of data records in use. -/
def recCount (d : Dev) : Nat := d.recd.records.length

/-- Update a record, allocating it for a new subject while one of the 2,047 is free (17 R479). SEQ is even between
updates and one seqlock cycle higher after each (17 R480). -/
def recUpdate (d : Dev) (key : Nat) (fresh : RecData) (f : RecData → RecData) : Dev :=
  if !d.recd.live then d else
  let stamp (r : Record) : Record :=
    { r with seq := r.seq + 2, tb := d.glob.tb, wall := wallNow d, boot := d.glob.bootCnt, data := f r.data }
  match mapGet none d.recd.records key with
  | some r => { d with recd.records := mapSet none d.recd.records key (some (stamp r)) }
  | none =>
    if recCount d < 2047 then
      { d with recd.records := mapSet none d.recd.records key
                 (some (stamp { slot := recCount d + 1, subject := BitVec.ofNat 16 (key % 65536), data := fresh })) }
    else if d.recd.full then d else recCause { d with recd.full := true } 0x4

/-- Add one value to a histogram (17 R479). -/
def recHist (d : Dev) (subject v : Nat) : Dev :=
  recUpdate d (recHistKey subject) (.hist 0 0 0 0 []) fun
    | .hist c s mn mx bins =>
      .hist (c + 1) (s + BitVec.ofNat 64 v) (if c = 0 || satNat 32 v < mn then satNat 32 v else mn)
        (if mx < satNat 32 v then satNat 32 v else mx) (mapMod 0 bins (histBin v) (· + 1))
    | x => x

/-- Add one value to an extreme (17 R479). -/
def recExtreme (d : Dev) (subject : Nat) (v : Int) : Dev :=
  recUpdate d (recExtremeKey subject) (.extreme v v v d.glob.tb d.glob.tb (wallNow d) (wallNow d)
      d.glob.bootCnt d.glob.bootCnt 0) fun
    | .extreme mn mx _ tmn tmx wmn wmx bmn bmx n =>
      let lo := v < mn
      let hi := mx < v
      .extreme (if lo then v else mn) (if hi then v else mx) v (if lo then d.glob.tb else tmn)
        (if hi then d.glob.tb else tmx) (if lo then wallNow d else wmn) (if hi then wallNow d else wmx)
        (if lo then d.glob.bootCnt else bmn) (if hi then d.glob.bootCnt else bmx) (n + 1)
    | x => x

/-- Change the LIFE record (17 R479). -/
def recLife (d : Dev) (f : U64 → U32 → Vector U32 9 → U32 → U32 → U64 → RecData) : Dev :=
  recUpdate d recLifeKey (.life 0 0 (Vector.replicate 9 0) 0 0 0) fun
    | .life p b r z fr du => f p b r z fr du
    | x => x

/-- The counts of the LIFE record that wait for the recorder to be loaded: 0 to 8 a reset by its cause bit, 9 a hard zeroise,
10 a freeze, 11 a boot. -/
def lifeFlush (d : Dev) : Dev :=
  if !d.recd.live then d
  else
    let n (k : Nat) : U32 := BitVec.ofNat 32 (d.bdr.pend.filter (· == k)).length
    if d.bdr.pend.isEmpty then d
    else
      recLife { d with bdr.pend := [] } fun p b r z f du =>
        .life p (b + n 11) ((Vector.range 9).map fun i => r.toList.getD i 0 + n i) (z + n 9) (f + n 10) du
/-- Note one event of the device's life (17 R479). -/
def lifeNote (d : Dev) (k : Nat) : Dev := lifeFlush { d with bdr.pend := d.bdr.pend ++ [k] }

/-! ## Freezes (17 R489-R491) -/

/-- Trigger a freeze: latch F and start the copy, or OR the trigger into a running copy. With both banks bad the ring stays in
Bedrock SRAM (17 R485). A freeze counts when it begins. -/
def freeze (d : Dev) (bit : Nat) : Dev :=
  match d.amb.copy with
  | some c => { d with amb.copy := some { c with triggers := c.triggers ||| BitVec.ofNat 32 (2 ^ bit) } }
  | none =>
    let d := lifeNote { d with amb.freezes := satInc d.amb.freezes } 10
    match freezeBank d with
    | none => d
    | some b =>
      let f := (ringList d).getLast?
      { d with amb.copy := some { bank := some b, triggers := BitVec.ofNat 32 (2 ^ bit),
                                  tb := (f.map (·.tb)).getD 0, upTo := d.amb.written.toNat } }

/-! ## Engines out of service (16 R467, R468) -/

/-- The partition ID of a cell: PY, ME, TS, SY (16 R464). -/
def partId (c : Nat) : Nat := if c < 24 then c else if c < 28 then c + 4 else c - 4
/-- The cell of a partition ID. -/
def partCell (p : Nat) : Nat := if p < 24 then p else if p < 28 then p + 4 else p - 4

/-- The cell of a sequencer: PY 0-15, ME 16-23, TS 24-27 (08 R266). -/
def seqCell (u : Nat) : Nat := if u < 24 then u else u + 4
/-- The sequencer of a cell; a symmetric unit has none. -/
def cellSeq (c : Nat) : Option Nat := if c < 24 then some c else if c < 28 then none else if c < 32 then some (c - 4) else none
/-- The store of a sequencer. -/
def getStore (d : Dev) (u : Nat) : UStore := d.stores.toList.getD u {}
/-- Change the store of a sequencer. -/
def modStore (d : Dev) (u : Nat) (f : UStore → UStore) : Dev :=
  if h : u < 28 then { d with stores := d.stores.set u (f d.stores[u]) } else d
/-- Whether a cell is held out of service for a bank swap (08 R292 step 1). -/
def swapHeld (d : Dev) (c : Nat) : Bool := match cellSeq c with | some u => (getStore d u).drain | none => false

/-- Whether the debugger halts the sequencer of a cell (08 R289). -/
def cellHalted (d : Dev) (c : Nat) : Bool := match cellSeq c with | some u => (getStore d u).halted | none => false
/-- Whether the sequencer of a cell may run now: it is not halted, or the debugger steps it. -/
def cellRuns (d : Dev) (c : Nat) : Bool := match cellSeq c with | some u => !(getStore d u).halted || (getStore d u).stepOk | none => true
/-- A step has been taken. -/
def stepTaken (d : Dev) (c : Nat) : Dev :=
  match cellSeq c with | some u => if (getStore d u).stepOk then modStore d u fun x => { x with stepOk := false } else d | none => d

/-- Take an instance out of service at once and select it for test (16 R468). -/
def takeOut (d : Dev) (c : Nat) : Dev :=
  if c < 32 && (getEng d c).svc == .inService then
    { modEng d c (fun r => { r with svc := .draining }) with bist.queue := d.bist.queue ++ [c] }
  else d

/-! ## Random draws (11) -/

/-- The `n` DRBG bytes from counter `c` on: free values (log 4). -/
def drawFrom (c n : Nat) : Bytes := (List.range n).map fun i => Config.random (c + i)

/-- Draw `n` bytes of DRBG output, from a reserve that the DRBG keeps filled (11 R345). -/
def draw (d : Dev) (n : Nat) : Bytes × Dev :=
  (drawFrom d.glob.drbgCtr n, { d with glob.drbgCtr := d.glob.drbgCtr + n })

/-! ## Overwriting with DRBG output (02 R61, 06 R181, 08 R288) -/

/-- A value of `w` bits of DRBG output from counter `c` on. -/
def noiseBv (w c : Nat) : BitVec w := BitVec.ofNat w (leNat (drawFrom c (cdiv w 8)))
/-- A hash-unit bank of DRBG output. -/
def noiseBank (c : Nat) : HashBank :=
  { keccak := Vector.ofFn fun i => noiseBv 1600 (c + 200 * i.val), sha := noiseBv 512 (c + 800) }
/-- Micro-registers of DRBG output. -/
def noiseMicro (c : Nat) : Micro :=
  { u := Vector.ofFn fun i => noiseBv 64 (c + 8 * i.val), lc := Vector.ofFn fun i => noiseBv 16 (c + 256 + 2 * i.val) }
/-- Registers and banks of a core, of DRBG output. -/
def noiseRegs (c : Nat) : PyRegs :=
  let m := noiseMicro (c + 8704)
  { x := Vector.ofFn fun i => noiseBv 64 (c + 8 * i.val), v := Vector.ofFn fun i => noiseBv 2048 (c + 256 + 256 * i.val)
    m := Vector.ofFn fun i => noiseBv 256 (c + 8448 + 32 * i.val), u := m.u, lc := m.lc
    banks := Vector.ofFn fun i => noiseBank (c + 8976 + 864 * i.val) }
/-- Draw for an overwrite of `n` bytes: the counter of its first byte. -/
def noise (d : Dev) (n : Nat) : Nat × Dev := (d.glob.drbgCtr, { d with glob.drbgCtr := d.glob.drbgCtr + n })

/-- Bytes of Slate and of the node buffer (06 R180, 08 R273). -/
def slateBytes : Nat := 65536
/-- Overwrite a saved context. -/
def wipeParked (c : Nat) : Parked :=
  { micro := noiseMicro c, slate := memFill [] 0 (drawFrom (c + 272) slateBytes), bufs := Vector.ofFn fun i => noiseBv 512 (c + 66000 + 64 * i.val)
    pad := noiseBank (c + 66300), units := Vector.ofFn fun i => noiseBank (c + 67200 + 864 * i.val)
    sy := { keys := drawFrom (c + 81100) 64, ctr := noiseBv 128 (c + 81200), tweak := noiseBv 128 (c + 81216), ghash := noiseBv 128 (c + 81232)
            poly := noiseBv 130 (c + 81248), seed := drawFrom (c + 81300) 32 } }
/-- Overwrite the saved contexts of a job that ends, in the park slots and in the engines' context memories (06 R182). -/
def wipeContexts (d : Dev) (j : Nat) : Dev :=
  let slots := (d.parked.filter fun e => e.2.job == some j).map (·.1)
  let d1 := slots.foldl (fun acc k => let r := noise acc 81408; { r.2 with parked := mapSet {} r.2.parked k (wipeParked r.1) }) d
  let d2 := (List.range 8).foldl (fun acc i =>
    if (getMe acc i).ctx.job = some j then
      let r := noise acc 81408
      modMe r.2 i fun x => { x with ctx := wipeParked r.1, held := none }
    else acc) d1
  (List.range 4).foldl (fun acc i =>
    if (getTs acc i).ctx.job = some j then
      let r := noise acc 81408
      modTs r.2 i fun x => { x with ctx := wipeParked r.1, held := none }
    else acc) d2

/-- However a job of a modular engine ends, the Slate lines that it touched are overwritten, and the key port's copy and the padding
unit are cleared (06 R181). -/
def wipeSlate (d : Dev) (c : Nat) : Dev :=
  if c < 16 || 24 ≤ c then d
  else
    let r := noise d slateBytes
    modMe r.2 (c - 16) fun x => { x with slate := memFill [] 0 (drawFrom r.1 slateBytes), pad := {} }

/-! ## The device state (01 R24-R28) -/

/-- Change `GLB_STATE.ST` and write the Amber entry STATE (17 R487). -/
def setState (d : Dev) (st : DevState) : Dev :=
  if d.glob.st = st then d
  else
    let old := devStateCode d.glob.st
    let d1 := { d with glob.st := st, glob.step := 0 }
    amber d1 .state .supv (leBytes 1 old.toNat ++ leBytes 1 (devStateCode st).toNat ++ [d.glob.safeCause] ++ [0]
      ++ leBytes 4 d.glob.rstCause.toNat)

end Sys2Proof.Machine
end

