-- ==== Sys2Proof/Machine/Microcode.lean ====
section
/-!
DEFINITION. What a sequencer's active bank holds: control-store words, dispatch entries and the directory (08 R266, R268, R278-R282).
A sequencer into which no release has been loaded holds no words; its entries are then those that the tables of 07 contract (log 163).
-/
namespace Sys2Proof.Machine

/-- Words of a bank of a sequencer's control store (08 R266). -/
def storeSize (u : Nat) : Nat := if u < 16 then 16384 else 8192
/-- Entries of a bank of its dispatch table (08 R266). -/
def dispSize (u : Nat) : Nat := if u < 16 then 1024 else if u < 24 then 512 else 256

/-- A dispatch entry (08 R278). -/
structure Disp where
  start  : Nat
  cycles : Nat
  lat    : Nat
  y      : Bool
  v      : Bool
  e      : Bool
  deriving DecidableEq, Repr

/-- The fields of an entry's 64 bits. -/
def dispOf (w : Nat) : Disp :=
  { start := w % 2 ^ 14, cycles := w / 2 ^ 14 % 2 ^ 12, lat := w / 2 ^ 26 % 2 ^ 8, y := w / 2 ^ 34 % 2 == 1, v := w / 2 ^ 35 % 2 == 1
    e := w / 2 ^ 36 % 2 == 1 }

/-- Entry `i` of a component: control store, dispatch table and directory follow one another (log 163). -/
def dispIn (bs : Bytes) (u i : Nat) : Disp :=
  if i < dispSize u then dispOf (leNat (slice bs (4 * storeSize u + 8 * i) 8)) else dispOf 0

/-- Whether an entry serves a job of a vendor image, or of a custom one (08 R280, R281). -/
def Disp.serves (x : Disp) (custom : Bool) : Bool := x.e && x.cycles != 0 && !(x.v && custom)

/-- What an active bank holds. -/
def activeBank (d : Dev) (u : Nat) : Bytes := let s := getStore d u; if s.bank then s.bankB else s.bankA
/-- A dispatch entry of a sequencer's active bank; none without a release. -/
def dispAt (d : Dev) (u i : Nat) : Option Disp :=
  let bs := activeBank d u
  if bs.isEmpty then none else some (dispIn bs u i)
/-- A word of the active control store; none without a release. -/
def storeWord (d : Dev) (u a : Nat) : Option U32 :=
  let bs := activeBank d u
  if bs.isEmpty then none else some (u32At bs (4 * a))

/-! ## The directory (08 R282) -/

/-- A directory entry: OPCODE, dispatch index, VERSION. -/
structure DirEntry where
  opcode : U16
  index  : Nat
  ver    : Byte
  deriving DecidableEq, Repr

/-- The directory behind a component's dispatch table: up to 256 entries of 8 bytes (log 163). -/
def directory (bs : Bytes) (u : Nat) : List DirEntry :=
  (chunks 8 256 (bs.drop (4 * storeSize u + 8 * dispSize u))).map fun x =>
    { opcode := u16At x 0, index := (u16At x 2).toNat, ver := byteAt x 4 }
/-- The directory entry of an OPCODE on a sequencer with a release. -/
def dirEntry (d : Dev) (u : Nat) (op : U16) : Option DirEntry := (directory (activeBank d u) u).find? fun x => x.opcode == op

/-- Whether the instance on a modular or tree cell holds the routine of an OPCODE (08 R282). -/
def holdsRoutine (d : Dev) (c : Nat) (op : U16) : Bool :=
  match cellSeq c with
  | some u => u < 16 || (activeBank d u).isEmpty || (dirEntry d u op).isSome
  | none => true

/-- The address at which an instance starts the routine of an OPCODE; none without a release. -/
def routineStart (d : Dev) (u : Nat) (op : U16) : Option Nat :=
  if (activeBank d u).isEmpty then none
  else (dirEntry d u op).map fun x => (dispIn (activeBank d u) u x.index).start

/-! ## Microwords (08 R268, R271-R273) -/

/-- The word of a micro-op of a class. -/
def microWord (cls : Nat) (f : UFmt) : U32 :=
  BitVec.ofNat 32 (f.imm.toNat + 2 ^ 12 * f.c.toNat + 2 ^ 17 * f.b.toNat + 2 ^ 22 * f.a.toNat + 2 ^ 27 * cls)
/-- Whether a class is reserved on a sequencer's type. -/
def classReserved (u cls : Nat) : Bool :=
  cls == 7 || (decide (16 ≤ cls) && decide ((if u < 16 then 22 else if u < 24 then 21 else 20) ≤ cls))

end Sys2Proof.Machine
end

