-- ==== Sys2Proof/Machine/Keys.lean ====
section
/-!
DEFINITION. The key store: handles, slots, objects, granules and persistent blocks, resolution (12 R364-R373, 10 R325).
-/
namespace Sys2Proof.Machine

/-! ## Handles (12 R364) -/

def hOwner (h : U32) : Nat := h.toNat / 2 ^ 24
def hGen (h : U32) : Byte := (h >>> 16).setWidth 8
def hSlot (h : U32) : Nat := h.toNat % 65536
/-- Build a handle. -/
def mkHandle (o : Nat) (g : Byte) (slot : Nat) : U32 := BitVec.ofNat 32 (o % 256 * 2 ^ 24 + g.toNat * 65536 + slot % 65536)

/-- The key of a slot in the map of all slot tables. -/
def slotKey (o slot : Nat) : Nat := o * 65536 + slot
def getSlot (d : Dev) (o slot : Nat) : Slot := mapGet {} d.ks.slots (slotKey o slot)
def setSlot (d : Dev) (o slot : Nat) (v : Slot) : Dev := { d with ks.slots := mapSet {} d.ks.slots (slotKey o slot) v }
/-- A slot's generation: every slot that keeps none starts at boot count mod 256 (12 R366). -/
def slotGen (d : Dev) (s : Slot) : Byte := if s.genSet then s.gen else d.glob.bootCnt.setWidth 8
/-- The listed slots of an owner, by slot number. -/
def ownSlots (d : Dev) (o : Nat) : List (Nat × Slot) :=
  (d.ks.slots.filter fun e => e.1 / 65536 == o).map fun e => (e.1 % 65536, e.2)

/-- The object that an owner's handle names: owner and generation must match (12 R364). -/
def resolveHandle (d : Dev) (o : Nat) (h : U32) : Option KObj :=
  if hOwner h ≠ o then none
  else
    let s := getSlot d o (hSlot h)
    if slotGen d s = hGen h then s.obj else none

/-! ## Sizes -/

/-- Granules of an object with a secret part (03 R94, 12 R367). -/
def granPriv (sec pub : Nat) : Nat := cdiv (2 * sec + pub + 64) 512
/-- Granules of a public object (03 R94). -/
def granPub (pub : Nat) : Nat := cdiv (pub + 64) 512
/-- MRAM blocks of a persistent key (12 R370). -/
def persistBlocks (sec pub : Nat) : Nat := cdiv (sec + pub + 96) 512

/-- Granules that an owner's objects, running creations and transient blobs hold. -/
def granUsed (d : Dev) (o : Nat) : Nat :=
  ((ownSlots d o).map fun s => match s.2.obj with | some k => k.gran | none => 0).sum
    + ((ownJobs d o).map (·.granRes)).sum
/-- Persistent keys that an owner holds or is creating. -/
def pkeyUsed (d : Dev) (o : Nat) : Nat :=
  ((ownSlots d o).filter fun s => match s.2.obj with | some k => k.persist | none => false).length
    + ((ownJobs d o).map (·.pkeyRes)).sum
/-- Stateful keys that an owner holds. -/
def sskeyUsed (d : Dev) (o : Nat) : Nat :=
  (d.ss.keys.filter fun e => e.1 / 65536 == o).length + ((ownJobs d o).map (·.ssRes)).sum
/-- Persistent keys that the device holds (12 R398 PKEYS). -/
def pkeysHeld (d : Dev) : Nat := (d.ks.slots.filter fun e => match e.2.obj with | some k => k.persist | none => false).length
/-- Persistent keys of the whole device, held or being created (12 R370). -/
def pkeyTotal (d : Dev) : Nat := pkeysHeld d + (d.jobs.live.map (·.pkeyRes)).sum
/-- Persistent-area blocks in use (12 R398 PBLOCKS). -/
def blocksUsed (d : Dev) : Nat :=
  (d.ks.slots.map fun e => match e.2.obj with | some k => k.blocks | none => 0).sum + (d.jobs.live.map (·.blkRes)).sum
/-- Granules of the whole device in use (12 R398 GRAN). -/
def granTotal (d : Dev) : Nat :=
  (d.ks.slots.map fun e => match e.2.obj with | some k => k.gran | none => 0).sum + (d.jobs.live.map (·.granRes)).sum

/-! ## Objects -/

/-- The secret part of an object: the exclusive or of its shares (10 R325). -/
def secretOf (k : KObj) : Bytes := xorBytes k.shareA k.shareB

/-- Split a secret into two fresh Boolean shares (10 R325). -/
def splitSecret (d : Dev) (sec : Bytes) : Bytes × Bytes × Dev :=
  let r := draw d sec.length
  (r.1, xorBytes sec r.1, r.2)

/-- The lowest number not among the keys of a rising list, from `k` on. -/
def firstGap (k : Nat) : List Nat → Nat
  | [] => k
  | a :: as => if a < k then firstGap k as else if a = k then firstGap (k + 1) as else k

/-- The slot that a new object takes: the one free the longest (12 R365); a never-used slot has been free since the start
of the boot, the lowest number first (log 18). -/
def freeSlot (d : Dev) (o : Nat) : Option Nat :=
  let sh := (getOwn d o).sh
  let size := sh.gran.toNat + sh.pkey.toNat + sh.sskey.toNat
  let ls := ownSlots d o
  let g := firstGap 0 (ls.map (·.1))
  if g < size then some g
  else
    let free := ls.filter fun s => s.2.obj.isNone && decide (s.1 < size)
    (free.foldl (fun (best : Option (Nat × Nat)) s =>
      match best with
      | none => some (s.1, s.2.freedAt)
      | some (b, t) => if s.2.freedAt < t then some (s.1, s.2.freedAt) else some (b, t)) none).map (·.1)

/-- Place a new object in a slot and answer its handle (12 R364-R366). -/
def createObj (d : Dev) (o : Nat) (k : KObj) : U32 × Dev :=
  match freeSlot d o with
  | none => (noHandle, d)
  | some n =>
    let s := getSlot d o n
    let g := slotGen d s
    (mkHandle o g n,
     setSlot d o n { s with gen := g, genSet := true, inMram := s.inMram || k.persist || k.stateful,
                            obj := some { k with boot := d.glob.bootCnt } })

/-- Create a private, secret or public object from its parts: fresh shares, granules and, when persistent, blocks. -/
def createKey (d : Dev) (o : Nat) (type policy : U16) (origin : Byte) (persist : Bool) (sec pub : Bytes) (param : U32) :
    U32 × Dev :=
  let (a, b, d1) := splitSecret d sec
  createObj d1 o
    { type := type, policy := policy, origin := origin, persist := persist, shareA := a, shareB := b, pub := pub,
      param := param, gran := if sec.isEmpty then granPub pub.length else granPriv sec.length pub.length,
      blocks := if persist then persistBlocks sec.length pub.length else 0 }

/-- Destroy an object: the slot's generation advances (12 R365, R366). -/
def destroySlot (d : Dev) (o n : Nat) : Dev :=
  let s := getSlot d o n
  match s.obj with
  | none => d
  | some _ =>
    let d1 := setSlot d o n { s with gen := slotGen d s + 1, genSet := true, obj := none, freedAt := d.ks.freeSeq }
    { d1 with ks.freeSeq := d1.ks.freeSeq + 1 }

/-- Destroy every volatile object of the owners in `p`; slots that keep no generation in MRAM are forgotten at the next
boot only (12 R366). -/
def destroyVolatile (d : Dev) (p : Nat → Bool) : Dev :=
  d.ks.slots.foldl (fun acc e =>
    match e.2.obj with
    | some k => if p (e.1 / 65536) && !k.persist && !k.stateful then destroySlot acc (e.1 / 65536) (e.1 % 65536) else acc
    | none => acc) d

/-- At a boot, every slot that keeps no generation in MRAM starts again at boot count mod 256 (12 R366). -/
def forgetGens (d : Dev) : Dev :=
  { d with ks.slots := mapAll {} (fun _ s => if s.inMram || s.obj.isSome then { s with freedAt := 0 } else {}) d.ks.slots,
           ks.freeSeq := 1 }

/-- Resolve a handle for a job: the shares are re-randomised and the resolution is counted (10 R325, 12 R398). -/
def resolveKey (d : Dev) (o : Nat) (h : U32) : Option (KObj × Dev) :=
  match resolveHandle d o h with
  | none => none
  | some k =>
    let r := draw d k.shareA.length
    let k1 := { k with shareA := xorBytes k.shareA r.1, shareB := xorBytes k.shareB r.1 }
    let s := getSlot r.2 o (hSlot h)
    let d1 := setSlot r.2 o (hSlot h) { s with obj := some k1 }
    some (k1, { d1 with ks.resolve := d1.ks.resolve + 1 })

/-- Change the object of a handle in place. -/
def modObj (d : Dev) (o : Nat) (h : U32) (f : KObj → KObj) : Dev :=
  let s := getSlot d o (hSlot h)
  setSlot d o (hSlot h) { s with obj := s.obj.map f }

end Sys2Proof.Machine
end

