-- ==== Sys2Proof/Machine/Journal.lean ====
section
/-!
DEFINITION. The fate journal and its queries (02 R82-R89).
-/
namespace Sys2Proof.Machine

/-! ## Entries -/

def getJ (d : Dev) (k : Nat) : JEntry := mapGet {} d.jrn.entries k
/-- Write a journal entry in MRAM; its word counts one more write (04 R155). -/
def setJ (d : Dev) (k : Nat) (e : JEntry) : Dev :=
  { d with jrn.entries := mapSet {} d.jrn.entries k e, jrn.writes := mapMod 0 d.jrn.writes k (· + 1) }
/-- Change a journal entry and stamp it with TB (02 R89: TB of the record's last state change). -/
def modJ (d : Dev) (k : Nat) (f : JEntry → JEntry) : Dev := setJ d k { f (getJ d k) with tb := d.glob.tb }
/-- Free a journal entry. -/
def freeJ (d : Dev) (k : Nat) : Dev := setJ d k {}

/-- The entries that an owner holds (02 R89 `JRN_USE.USED`). -/
def jrnHeld (d : Dev) (o : Nat) : List Nat :=
  (d.jrn.entries.filter fun e => e.2.owner == o && e.2.state != .free).map (·.1)

/-- A free entry in rotation (04 R152): the first free one from `next` on. -/
def jrnPick (d : Dev) : Option Nat :=
  ((List.range 4096).map fun i => (d.jrn.next + i) % 4096).find? fun k => (getJ d k).state == .free

/-- Reserve an entry from an owner's share (02 R58, R82). -/
def jrnReserve (d : Dev) (o : Nat) (e : JEntry) : Option (Nat × Dev) :=
  if (getOwn d o).sh.jrn.toNat ≤ (jrnHeld d o).length then none
  else
    match jrnPick d with
    | none => none
    | some k =>
      some (k, { setJ d k { e with owner := o, boot := d.glob.bootCnt, tb := d.glob.tb } with
                 jrn.next := (k + 1) % 4096 })

/-- The states that stay until released (02 R84). -/
def jResolved (e : JEntry) : Bool :=
  e.state == .abandonedNone || e.state == .abandonedDone || e.state == .retired || (e.state == .completed && e.kept)

/-- Resolve one open entry after a reset or FLR (02 R84). `none` frees it: nothing had begun (log 17). -/
def jResolve (zeroised : Bool) (e : JEntry) : JEntry :=
  let st : U16 := if zeroised then 0x0403 else 0x0401
  match e.state with
  | .reserved => {}
  | .intent => { e with state := .abandonedNone, status := st, kept := true }
  | .committed => { e with state := .abandonedDone, status := st, kept := true }
  | .blockOpen => { e with state := .retired, kept := true }
  | .completed => { e with kept := true }
  | _ => e

/-- Resolve the open entries of the owners that satisfy `p` (02 R84, 13 R411): a change of state is a write, stamped with TB. -/
def jrnResolve (d : Dev) (p : Nat → Bool) (zeroised : Bool) : Dev :=
  d.jrn.entries.foldl (fun acc x =>
    let e := jResolve zeroised x.2
    if !p x.2.owner then acc
    else if e.state = .free then freeJ acc x.1
    else if e.state != x.2.state then modJ acc x.1 fun _ => e
    else { acc with jrn.entries := mapSet {} acc.jrn.entries x.1 e }) d

/-- Give an entry to each stateful key of an owner that waits for one, while its share has one free (04 R148). -/
def giveEntries (d : Dev) (o : Nat) : Dev :=
  d.ss.keys.foldl (fun acc e =>
    match e.2 with
    | some k =>
      if e.1 / 65536 == o && k.jrn.isNone then
        match jrnReserve acc o { state := .blockIdle,
                                 key0 := mkHandle o (slotGen acc (getSlot acc o (e.1 % 65536))) (e.1 % 65536) } with
        | some (n, acc1) => { acc1 with ss.keys := mapSet none acc1.ss.keys e.1 (some { k with jrn := some n }) }
        | none => acc
      else acc
    | none => acc) d

/-! ## Fate queries (02 R85-R88) -/

/-- The FATE values of 02 R85. -/
inductive Fate | noRecord | pending | running | completed | abandonedNone | abandonedDone | retired | consumed
  deriving DecidableEq, Repr

/-- The number of a fate. -/
def fateCode : Fate → BitVec 4
  | .noRecord => 0 | .pending => 1 | .running => 2 | .completed => 3 | .abandonedNone => 4 | .abandonedDone => 5
  | .retired => 6 | .consumed => 7

/-- What a query answers (02 R89, `JRN_FQ_RES0`-`JRN_FQ_RES3`). -/
structure FateRec where
  fate   : Fate := .noRecord
  effect : Byte := 0
  status : U16 := 0
  tag    : U32 := 0
  object : U32 := 0
  boot   : U32 := 0
  first  : U32 := 0
  last   : U32 := 0
  tb     : U64 := 0
  deriving DecidableEq, Repr

/-- The fate that a journal entry shows. -/
def jFate (e : JEntry) : Fate :=
  match e.state with
  | .abandonedNone => .abandonedNone
  | .abandonedDone => .abandonedDone
  | .retired => .retired
  | .completed => .completed
  | _ => .noRecord

/-- The record of a journal entry. -/
def jRec (e : JEntry) : FateRec :=
  { fate := jFate e, effect := e.effect, status := e.status, tag := e.tag, object := e.object, boot := e.boot,
    first := e.first, last := e.last, tb := e.tb }

/-- The arguments of a query: SQ_ID, SQ_INDEX, boot (0 is the current one), owner, key slot (02 R89). -/
structure FqArgs where
  sqId  : U16
  index : U32
  boot  : U32
  owner : Nat
  key   : U32
  deriving DecidableEq, Repr

/-- The arguments as function `f` gives them: a VF's OWNER is its own number (02 R87). -/
def fqArgs (d : Dev) (f : Nat) (a0 a1 : U64) : FqArgs :=
  let o := if f = 0 then (a1 >>> 32).toNat % 256 else f
  let b := a1.setWidth 32
  { sqId := a0.setWidth 16, index := (a0 >>> 32).setWidth 32, boot := if b = 0 then d.glob.bootCnt else b, owner := o,
    key := BitVec.ofNat 32 (o * 2 ^ 24 + (a1 >>> 40).toNat % 2 ^ 24) }

/-- The resolved entry that a BY_JOB query names. -/
def jByJob (d : Dev) (a : FqArgs) : Option Nat :=
  (d.jrn.entries.find? fun e => jResolved e.2 && e.2.state != .retired && e.2.owner == a.owner && e.2.boot == a.boot
    && e.2.sqId == a.sqId && e.2.index == a.index).map (·.1)

/-- What the lead answers for a job that it completed with MEMBER_LOST, from its own records (18 R523). -/
def fateLost (d : Dev) (b : Done) (boot : U32) : FateRec :=
  match (getNode d b.node).state with
  | .member => {}
  | .removed => if b.granted then { fate := .abandonedDone, status := b.status, tag := b.tag, object := noHandle, boot := boot, tb := b.tb } else {}
  | _ => { fate := .running, status := b.status, tag := b.tag, object := noHandle, boot := boot, tb := b.tb }

/-- The answer to BY_JOB from this device's own records (02 R85, R86): HEAD tells whether the entry has been fetched, and of jobs with the
same index the last one fetched answers. -/
def fateByJob (d : Dev) (a : FqArgs) : FateRec :=
  let q := (getOwn d a.owner).sqBase + a.sqId.toNat
  match jByJob d a with
  | some k => jRec (getJ d k)
  | none =>
    let gap := ((getSq d q).head - a.index).toNat
    if a.boot ≠ d.glob.bootCnt || gap = 0 || 2 ^ 31 < gap then {}
    else
      match d.jobs.live.reverse.find? fun b => b.owner == a.owner && b.sq == q && b.index == a.index with
      | some b =>
        { fate := if b.phase = .waiting || b.phase = .unwrapping then .pending else .running, tag := b.e.tag,
          object := noHandle, boot := a.boot, tb := b.fetchTb }
      | none =>
        match d.jobs.done.reverse.find? fun b => b.owner == a.owner && b.sq == q && b.sqIndex == a.index with
        | some b => if b.node ≠ 0 && b.status == 0x0404 then fateLost d b a.boot else
                    { fate := .completed, effect := b.effect, status := b.status, tag := b.tag, object := b.obj,
                      boot := a.boot, tb := b.tb }
        | none => { fate := .consumed, object := noHandle, boot := a.boot }

/-- The entries of a key that a BY_KEY query lists, in entry order. -/
def jByKey (d : Dev) (a : FqArgs) : List Nat :=
  (d.jrn.entries.filter fun e => jResolved e.2 && e.2.owner == a.owner && e.2.boot == a.boot
    && (e.2.key0 == a.key || e.2.object == a.key)).map (·.1)

/-- Release one record. -/
def fateRelease (d : Dev) (a : FqArgs) : FateRec × Dev :=
  match jByJob d a with
  | some k => (jRec (getJ d k), giveEntries (freeJ d k) a.owner)
  | none =>
    match d.jobs.done.find? fun b => b.owner == a.owner && b.sqId == a.sqId.toNat && b.sqIndex == a.index && b.status == 0x0404 && b.node != 0 with
    | some b => (fateByJob d a, { d with jobs.done := d.jobs.done.filter (· != b) })
    | none => ({}, d)

/-- Release every resolved record of an owner and a boot (02 R81, R88). -/
def fateReleaseBoot (d : Dev) (o : Nat) (boot : U32) : Dev :=
  let gone := (d.jrn.entries.filter fun e => jResolved e.2 && e.2.owner == o && e.2.boot == boot).map (·.1)
  giveEntries { gone.foldl freeJ d with
    jobs.done := d.jobs.done.filter fun b => !(b.owner == o && boot == d.glob.bootCnt && b.node != 0 && b.status == 0x0404) } o

/-- The four result registers of a record (02 R89). -/
def fateRegs (r : FateRec) : U64 × U64 × U64 × U64 :=
  ((fateCode r.fate).setWidth 64 ||| (r.effect.setWidth 64 <<< 8) ||| (r.status.setWidth 64 <<< 16)
     ||| (r.tag.setWidth 64 <<< 32),
   r.object.setWidth 64 ||| (r.boot.setWidth 64 <<< 32),
   r.first.setWidth 64 ||| (r.last.setWidth 64 <<< 32),
   r.tb)

/-- The 32-byte layout of a record in a FATE_QUERY output (02 R81). -/
def fateBytes (r : FateRec) : Bytes :=
  let (a, b, c, e) := fateRegs r
  le64 a ++ le64 b ++ le64 c ++ le64 e

/-- The fate-query registers of a function. -/
def getFq (d : Dev) (f : Nat) : Fq := mapGet {} d.jrn.fq f
def setFq (d : Dev) (f : Nat) (v : Fq) : Dev := { d with jrn.fq := mapSet {} d.jrn.fq f v }

/-- Whether queries are served: in READY, and in SAFE through the PF (02 R87). -/
def fqServed (d : Dev) (f : Nat) : Bool := isReady d || (d.glob.st == .safe && f == 0)

/-- Put a record into the result registers. -/
def fqAnswer (d : Dev) (f : Nat) (r : FateRec) (cursor : Nat) : Dev :=
  let (a, b, c, e) := fateRegs r
  setFq d f { getFq d f with res0 := a, res1 := b, res2 := c, res3 := e, cursor := cursor }

/-- The member that a query goes to: the home node of the SQ it names, while that is a member (18 R523). -/
def fateNode (d : Dev) (a : FqArgs) : Option Nat :=
  let n := sqHome d ((getOwn d a.owner).sqBase + a.sqId.toNat)
  if d.fab.role = .lead && n != 0 && (getNode d n).state == .member then some n else none
/-- Send a query to a member: operation, owner, who asks, the arguments; boot 0 is the current one (log 38). -/
def fateAsk (d : Dev) (n op asker : Nat) (a : FqArgs) : Dev :=
  sendFrame d n .fate (leBytes 1 op ++ leBytes 1 a.owner ++ leBytes 8 asker ++ le16 a.sqId ++ le32 a.index
    ++ le32 (if a.boot = d.glob.bootCnt then 0 else a.boot) ++ le32 a.key)
/-- Start a query of a function on a member: BUSY until the member answers. -/
def fqAsk (d : Dev) (f n op : Nat) (a : FqArgs) : Dev := fateAsk (setFq d f { getFq d f with busy := true }) n op f a

/-- A write of JRN_FQ_CMD with GO: OP holds what was written wherever the register is served, and the query runs where queries are
(02 R87, R88). -/
def fqRun (op : Nat) (run : Dev → Nat → Dev) (d : Dev) (f : Nat) : Dev :=
  if !barOk d f || !mapServed d || (getFq d f).busy then d
  else
    let d1 := setFq d f { getFq d f with op := BitVec.ofNat 4 op }
    if fqServed d f then run d1 f else d1

/-- JRN_FQ_CMD OP BY_JOB with GO (02 R88). -/
def fqByJobGo : Dev → Nat → Dev := fqRun 1 fun d f =>
  let a := fqArgs d f (getFq d f).arg0 (getFq d f).arg1
  match fateNode d a with
  | some n => fqAsk d f n 1 a
  | none => fqAnswer d f (fateByJob d a) 0

/-- JRN_FQ_CMD OP BY_KEY with GO: the next record of the key, or NO_RECORD at the end of the list (02 R88). -/
def fqByKeyGo : Dev → Nat → Dev := fqRun 2 fun d f =>
  let q := getFq d f
  let a := fqArgs d f q.arg0 q.arg1
  match fateNode d a with
  | some n => fqAsk d f n 2 a
  | none =>
  match (jByKey d (fqArgs d f q.arg0 q.arg1))[q.cursor]? with
  | some k => fqAnswer d f (jRec (getJ d k)) (q.cursor + 1)
  | none => fqAnswer d f {} 0

/-- JRN_FQ_CMD OP RELEASE with GO (02 R88). -/
def fqReleaseGo : Dev → Nat → Dev := fqRun 3 fun d f =>
  let a := fqArgs d f (getFq d f).arg0 (getFq d f).arg1
  match fateNode d a with
  | some n => fqAsk d f n 3 a
  | none =>
  let r := fateRelease d a
  fqAnswer r.2 f r.1 0

/-- Release the records of an owner and a boot here and on every member. -/
def releaseEverywhere (d : Dev) (a : FqArgs) : Dev :=
  let ns := if d.fab.role = .lead then (d.fab.node.filter fun e => e.1 != 0 && e.2.state == .member).map (·.1) else []
  ns.foldl (fun acc n => fateAsk acc n 4 0 a) (fateReleaseBoot d a.owner a.boot)

/-- JRN_FQ_CMD OP 0x4 with GO (02 R88). -/
def fqReleaseBootGo : Dev → Nat → Dev := fqRun 4 fun d f =>
  let a := fqArgs d f (getFq d f).arg0 (getFq d f).arg1
  fqAnswer (releaseEverywhere d a) f {} 0

/-! ## The commands -/

def execByJob (f : Nat) (s : State) : Out3 := onDev s fun d => fqByJobGo d f
def execByKey (f : Nat) (s : State) : Out3 := onDev s fun d => fqByKeyGo d f
def execRelease (f : Nat) (s : State) : Out3 := onDev s fun d => fqReleaseGo d f
def execReleaseBoot (f : Nat) (s : State) : Out3 := onDev s fun d => fqReleaseBootGo d f

end Sys2Proof.Machine
end

