-- ==== Sys2Proof/Machine/Table.lean ====
section
/-!
DEFINITION. The deal table image and its cells (09 R304, R305).
-/
namespace Sys2Proof.Machine

/-- A u16 of a table image. -/
def tblU16 (t : SMap Byte) (a : Nat) : Nat := (memByte t a).toNat + 256 * (memByte t (a + 1)).toNat
/-- Cell `k` of trick `t`. -/
def tblCell (tb : SMap Byte) (t k : Nat) : Nat := tblU16 tb (0x100 + 64 * t + 2 * k)
/-- Partition cell of core `i`, partition `j`. -/
def tblPart (tb : SMap Byte) (i j : Nat) : Nat := tblU16 tb (0x040 + 8 * i + 2 * j)
/-- CAP cell of a cluster. -/
def tblCap (tb : SMap Byte) (c : Nat) : Nat := tblU16 tb (8 + 2 * c)
def cellV (c : Nat) : Bool := c / 256 % 2 == 1
def cellR (c : Nat) : Bool := c / 512 % 2 == 1
def cellTree (c : Nat) : Bool := c / 1024 % 2 == 1
def cellOwner (c : Nat) : Nat := c % 256
/-- The owner of a cell that is assigned. -/
def cellOwned (c : Nat) : Option Nat := if cellV c then some (cellOwner c) else none
/-- Whether a cell is a reserved cell of an owner. -/
def cellReserved (c o : Nat) : Bool := cellV c && cellR c && cellOwner c == o

/-- The table in force in the trick after the current one: a pending table takes effect at the round boundary when its commit
was accepted in time (09 R318). -/
def nextTable (d : Dev) : SMap Byte :=
  if d.dlr.trick = 63 && d.dlr.pending && !d.dlr.late then d.dlr.stg else d.dlr.act

/-- Whether the active table gives an owner a tree-mode trick (04 R123). -/
def ownsTree (d : Dev) (o : Nat) : Bool :=
  (List.range 64).any fun t => (List.range 4).any fun n =>
    let c := tblCell d.dlr.act t (28 + n)
    cellTree c && cellOwned c == some o

end Sys2Proof.Machine
end

