-- ==== Sys2Proof/Machine/OpSpec.lean ====
section
/-!
DEFINITION. What the Dealer and the key store must know of an operation to check its entry before any engine is used
(03 R100): one record per opcode, filled in by the chapter of its class.
-/
namespace Sys2Proof.Machine

/-- Use of a key field: the check gives the DETAIL of KEY_POLICY on failure; `secret` says that the secret part is
resolved into the key port (11 R347). -/
inductive KeyUse
  | none
  | need (secret : Bool) (bad : KObj → Option U16)
  | opt  (secret : Bool) (bad : KObj → Option U16)

/-- An operation as the entry checks see it. -/
structure OpSpec where
  kind      : EngKind
  kind2     : EngKind := .none
  maxOrder  : Option Nat := none
  maskParam : Bool := false
  /-- The orders that an image's entries offer (07 R261). -/
  orderOk   : Nat → Bool := fun _ => true
  permitted : Bool := true
  jrn       : Bool := false
  paramOk   : Bool := true
  paramDetail : U16 := 0
  key0      : KeyUse := .none
  key1      : KeyUse := .none
  /-- DETAIL of LENGTH from KEY0's object (if any) and the operation's own AUX length. -/
  len       : Option KObj → Nat → Option U16 := fun _ _ => Option.none
  gran      : Nat := 0
  persist   : Bool := false
  blocks    : Nat := 0
  rnd       : Bool := false
  needDus   : Bool := false
  blobOk    : Bool := true
  cluster   : Bool := false
  stateful  : Bool := false
  /-- A check of the resolved keys that comes before their type and policy (12 R384). -/
  keysBad   : Option KObj → Option KObj → Option (U16 × U16) := fun _ _ => Option.none
  /-- A BROKEN object may be named (12 R373). -/
  brokenOk  : Bool := false

/-! ## OPCODE fields (02 R36, 03 R90) -/

def opClass (op : U16) : Nat := op.toNat / 4096
def opSet (op : U16) : Nat := op.toNat / 64 % 64
def opOp (op : U16) : Nat := op.toNat % 64
/-- TYPE of an object of an opcode's set: the opcode with bits [5:0] equal to 0 (12 R367). -/
def opType (op : U16) : U16 := op &&& 0xFFC0

/-- A bit of PARAM. -/
def pbit (e : Sqe) (i : Nat) : Bool := e.param.getLsbD i
/-- Bits of PARAM from `lo`, `n` wide. -/
def pbits (e : Sqe) (lo n : Nat) : Nat := e.param.toNat / 2 ^ lo % 2 ^ n
/-- POLICY of a creation: PARAM[31:16]. -/
def pPolicy (e : Sqe) : U16 := (e.param >>> 16).setWidth 16
/-- A policy without its reserved bits [15:13] (12 R369). -/
def policyOk (p : U16) : Bool := p &&& 0xE000 == 0

/-- Policy bits (12 R369). -/
def polExport : Nat := 0
def polSign : Nat := 1
def polVerify : Nat := 2
def polKem : Nat := 3
def polDerive : Nat := 4
def polCipher : Nat := 5
def polWrap : Nat := 6
def polMac : Nat := 7
def polRaw : Nat := 8
def polProgram : Nat := 9
def polProgOut : Nat := 10
def polCustom : Nat := 11
def polPlain : Nat := 12

/-- Whether an object has a secret part: a private or secret object, not a public or parameter one. -/
def isPrivate (k : KObj) : Bool := !k.shareA.isEmpty || k.stateful

/-- Check of a key: type and, when it has one, a policy bit for private objects (12 R369). -/
def keyBad (type : U16) (needPriv : Bool) (polPriv : Option Nat) (k : KObj) : Option U16 :=
  if k.type ≠ type then some 0
  else if needPriv && !isPrivate k then some 0
  else
    match polPriv with
    | some b => if isPrivate k && !k.policy.getLsbD b then some 0 else none
    | none => none

/-- Exact lengths: IN, least OUT_CAP, AUX, in the order of 03 R100 step 7. -/
def lenExact (e : Sqe) (inLen outMin aux auxLen : Nat) : Option U16 :=
  if e.inLen.toNat ≠ inLen then some 1
  else if e.outCap.toNat < outMin then some 2
  else if auxLen ≠ aux then some 3 else none

/-! ## Class 0x0 (02 R81) -/

/-- Control operations: no engine, mask, key or SGL. -/
def controlSpec (e : Sqe) : Option OpSpec :=
  let plain := e.key0 == noHandle && e.key1 == noHandle && !e.flags.getLsbD 0 && !e.flags.getLsbD 1
    && e.flags >>> 6 == 0
  let base : OpSpec := { kind := .none, maskParam := true, paramOk := plain, blobOk := false }
  if opSet e.opcode ≠ 0 then none
  else
    match opOp e.opcode with
    | 1 => some base
    | 2 => some { base with len := fun _ _ =>
        if 4096 < e.inLen.toNat then some 1 else if e.outCap.toNat < e.inLen.toNat then some 2 else Option.none }
    | 3 => some { base with len := fun _ _ => if e.outCap.toNat < 512 then some 2 else Option.none }
    | 4 => some { base with len := fun _ _ => if e.outCap.toNat < 12 then some 2 else Option.none }
    | 5 => some { base with len := fun _ a => if a ≠ 16 then some 3 else Option.none }
    | 6 => some base
    | 7 => some base
    | _ => none

/-! ## Classes 0x1 and 0x2 (03) -/

/-- The sets of the lattice classes: lengths of public key, FIPS private key, ciphertext or signature, and the secret and
public parts of the object (03 R93, R94). -/
structure LatSet where
  pk : Nat
  sk : Nat
  ct : Nat
  sec : Nat
  pub : Nat
  deriving DecidableEq, Repr

/-- The class 0x1 and 0x2 sets by class and set code (03 R90, R93). -/
def latSet (cls set : Nat) : Option LatSet :=
  match cls, set with
  | 1, 0x01 => some ⟨800, 1632, 768, 800, 832⟩
  | 1, 0x02 => some ⟨1184, 2400, 1088, 1184, 1216⟩
  | 1, 0x03 => some ⟨1568, 3168, 1568, 1568, 1600⟩
  | 1, 0x10 => some ⟨1216, 2432, 1120, 1216, 1248⟩
  | 1, 0x11 => some ⟨1249, 2432, 1153, 1216, 1281⟩
  | 2, 0x01 => some ⟨1312, 2560, 2420, 2560, 1312⟩
  | 2, 0x02 => some ⟨1952, 4032, 3309, 4032, 1952⟩
  | 2, 0x03 => some ⟨2592, 4896, 4627, 4896, 2592⟩
  | 2, 0x08 => some ⟨897, 1281, 666, 1281, 897⟩
  | 2, 0x09 => some ⟨1793, 2305, 1280, 2305, 1793⟩
  | _, _ => none

/-- Whether a class 0x1 set is a hybrid (03 R90). -/
def isHybrid (set : Nat) : Bool := set == 0x10 || set == 0x11
/-- Whether a class 0x2 set is FN-DSA (03 R90). -/
def isFnDsa (set : Nat) : Bool := set == 0x08 || set == 0x09

/-- Digest lengths of the PH identifiers (03 R99). -/
def phLen : Nat → Option Nat
  | 1 => some 28 | 2 => some 32 | 3 => some 48 | 4 => some 64 | 5 => some 28 | 6 => some 32
  | 7 => some 28 | 8 => some 32 | 9 => some 48 | 10 => some 64 | 11 => some 32 | 12 => some 64
  | _ => none

/-- Length of the shared secret that a job writes (03 R93, R97). -/
def ssLen (e : Sqe) : Nat := if isHybrid (opSet e.opcode) && !pbit e 0 then 64 else 32

/-- Class 0x1 (03 R91, R95-R97, R113). -/
def kemSpec (e : Sqe) : Option OpSpec :=
  match latSet 1 (opSet e.opcode) with
  | none => none
  | some z =>
    let hyb := isHybrid (opSet e.opcode)
    let noKey1 := e.key1 == noHandle
    let ty := opType e.opcode
    let k2 : EngKind := if hyb then .me else .none
    let seedIn := pbit e 1
    let persist := pbit e 0
    let keepPol := pPolicy e
    let encOk := noKey1 && (!pbit e 0 || hyb) && pbits e 1 15 == 0
    let encLen (ct : Nat) : Option KObj → Nat → Option U16 := fun k a =>
      lenExact e (if k.isSome then 0 else z.pk) ct 0 a
    match opOp e.opcode with
    | 1 => some {
        kind := .py, kind2 := k2, maxOrder := some 3, jrn := persist, persist := persist
        paramOk := noKey1 && e.key0 == noHandle && pbits e 2 14 == 0 && policyOk (pPolicy e) && !(seedIn && hyb)
        len := fun _ a => lenExact e 0 z.pk (if seedIn then 64 else 0) a
        gran := granPriv z.sec z.pub, blocks := persistBlocks z.sec z.pub, rnd := true, needDus := persist, blobOk := false }
    | 2 => some {
        kind := .py, kind2 := k2, paramOk := encOk && keepPol == 0, key0 := .opt false (keyBad ty false none)
        len := encLen (z.ct + ssLen e), rnd := true }
    | 3 => some {
        kind := .py, kind2 := k2, maxOrder := some 3, paramOk := encOk && keepPol == 0
        key0 := .need true (keyBad ty true (some polKem))
        len := fun _ a => lenExact e z.ct (ssLen e) 0 a, rnd := true }
    | 4 => some {
        kind := .py, kind2 := k2, paramOk := encOk && policyOk keepPol, key0 := .opt false (keyBad ty false none)
        len := encLen z.ct, gran := granPriv (ssLen e) 0, rnd := true }
    | 5 => some {
        kind := .py, kind2 := k2, maxOrder := some 3, paramOk := encOk && policyOk keepPol
        key0 := .need true (keyBad ty true (some polKem))
        len := fun _ a => lenExact e z.ct 0 0 a, gran := granPriv (ssLen e) 0, rnd := true }
    | 6 => if hyb then none else some {
        kind := .py, paramOk := noKey1 && e.param == 0 && e.key0 == noHandle, blobOk := false
        len := fun _ a => lenExact e z.pk 0 0 a }
    | 7 => some {
        kind := .py, paramOk := noKey1 && e.param == 0, key0 := .need false (keyBad ty false none)
        len := fun _ a => lenExact e 0 z.pk 0 a }
    | _ => none

/-- Class 0x2 (03 R92, R95, R96, R98, R113). -/
def dsaSpec (e : Sqe) : Option OpSpec :=
  match latSet 2 (opSet e.opcode) with
  | none => none
  | some z =>
    let fn := isFnDsa (opSet e.opcode)
    let noKey1 := e.key1 == noHandle
    let ty := opType e.opcode
    let ph := pbits e 8 8
    let ctx := pbits e 16 8
    let rsv := pbits e 1 7 == 0 && pbits e 24 8 == 0
    let signMax : Option Nat := if fn then none else some 3
    let signKey : KeyUse := .need true (keyBad ty true (some polSign))
    let verKey : KeyUse := .opt false (keyBad ty false (some polVerify))
    let verAux (k : Option KObj) (c : Nat) : Nat := (if k.isSome then 0 else z.pk) + z.ct + c
    match opOp e.opcode with
    | 1 => some {
        kind := .py, maxOrder := signMax, jrn := pbit e 0, persist := pbit e 0
        paramOk := noKey1 && e.key0 == noHandle && pbits e 2 14 == 0 && policyOk (pPolicy e) && !(pbit e 1 && fn)
        len := fun _ a => lenExact e 0 z.pk (if pbit e 1 then 32 else 0) a
        gran := granPriv z.sec z.pub, blocks := persistBlocks z.sec z.pub, rnd := true, needDus := pbit e 0,
        blobOk := false }
    | 2 => some {
        kind := .py, maxOrder := signMax, paramOk := noKey1 && rsv && ph == 0 && !(fn && pbit e 0), key0 := signKey
        len := fun _ a => if e.outCap.toNat < z.ct then some 2 else if a ≠ ctx then some 3 else none, rnd := true }
    | 3 => if fn then none else some {
        kind := .py, maxOrder := signMax, paramOk := noKey1 && rsv && (phLen ph).isSome, key0 := signKey
        len := fun _ a => lenExact e ((phLen ph).getD 0) z.ct ctx a, rnd := true }
    | 4 => if fn then none else some {
        kind := .py, maxOrder := signMax, paramOk := noKey1 && rsv && ph == 0 && ctx == 0, key0 := signKey
        len := fun _ a => lenExact e 64 z.ct 0 a, rnd := true }
    | 5 => some {
        kind := .py, paramOk := noKey1 && rsv && ph == 0 && !pbit e 0, key0 := verKey
        len := fun k a => if a ≠ verAux k ctx then some 3 else none }
    | 6 => if fn then none else some {
        kind := .py, paramOk := noKey1 && rsv && (phLen ph).isSome && !pbit e 0, key0 := verKey
        len := fun k a => lenExact e ((phLen ph).getD 0) 0 (verAux k ctx) a }
    | 7 => if fn then none else some {
        kind := .py, paramOk := noKey1 && rsv && ph == 0 && ctx == 0 && !pbit e 0, key0 := verKey
        len := fun k a => lenExact e 64 0 (verAux k 0) a }
    | 8 => some {
        kind := .py, paramOk := noKey1 && e.param == 0, key0 := .need false (keyBad ty false none)
        len := fun _ a => lenExact e 0 z.pk 0 a }
    | _ => none

end Sys2Proof.Machine
end

