-- ==== Sys2Proof/Machine/SpecCode.lean ====
section
/-!
DEFINITION. The entry checks of the code-based class 0x4 (05 R156-R166, R170).
-/
namespace Sys2Proof.Machine

/-- Lengths of a class 0x4 set: public key, private key, ciphertext, shared secret, and σ of HQC (05 R158, R159). -/
structure CodeSet where
  pk : Nat
  sk : Nat
  ct : Nat
  ss : Nat
  sigma : Nat := 0
  deriving DecidableEq, Repr

/-- The class 0x4 sets (05 R156, R158). -/
def codeSet (set : Nat) : Option CodeSet :=
  match set with
  | 0x01 | 0x02 => some { pk := 261120, sk := 6492, ct := 96, ss := 32 }
  | 0x03 | 0x04 => some { pk := 524160, sk := 13608, ct := 156, ss := 32 }
  | 0x05 | 0x06 => some { pk := 1044992, sk := 13932, ct := 208, ss := 32 }
  | 0x07 | 0x08 => some { pk := 1047319, sk := 13948, ct := 194, ss := 32 }
  | 0x09 | 0x0A => some { pk := 1357824, sk := 14120, ct := 208, ss := 32 }
  | 0x10 => some { pk := 2249, sk := 2305, ct := 4433, ss := 64, sigma := 16 }
  | 0x11 => some { pk := 4522, sk := 4586, ct := 8978, ss := 64, sigma := 24 }
  | 0x12 => some { pk := 7245, sk := 7317, ct := 14421, ss := 64, sigma := 32 }
  | _ => none

/-- Whether a set is HQC. -/
def isHqc (set : Nat) : Bool := decide (0x10 ≤ set)
/-- Whether KEYGEN of a set runs in cluster mode (05 R156). -/
def codeCluster (set : Nat) : Bool := decide (3 ≤ set) && decide (set ≤ 0x0A)
/-- The secret and public parts of a private object (05 R160). -/
def codeParts (set : Nat) (z : CodeSet) : Nat × Nat := if isHqc set then (40 + z.sigma, z.pk) else (z.sk, 0)
/-- Whether some cluster is cluster-capable for an owner (05 R170, 09 R306). -/
def ownsCap (d : Dev) (o : Nat) : Bool := (List.range 4).any fun c => cellOwned (tblCap d.dlr.act c) == some o

/-- A key that must hold a public key: not a Classic McEliece private object (05 R163). -/
def codePubBad (set : Nat) (ty : U16) (k : KObj) : Option U16 :=
  if k.type ≠ ty || (isPrivate k && !isHqc set) then some 0 else none

/-- Class 0x4 (05 R157, R161, R162, R166). -/
def codeSpec (d : Dev) (o : Nat) (e : Sqe) : Option OpSpec :=
  let set := opSet e.opcode
  match codeSet set with
  | none => none
  | some z =>
    let ty := opType e.opcode
    let noKey1 := e.key1 == noHandle
    let low := pbits e 0 16 == 0
    let pol := pPolicy e
    let parts := codeParts set z
    let enc (out gran : Nat) (ok : Bool) : OpSpec :=
      { kind := .py, paramOk := noKey1 && low && ok, key0 := .opt false (codePubBad set ty)
        len := fun k a => lenExact e (if k.isSome then 0 else z.pk) out 0 a, gran := gran, rnd := true }
    let dec (out gran : Nat) (ok : Bool) : OpSpec :=
      { kind := .py, maxOrder := some 1, paramOk := noKey1 && low && ok, key0 := .need true (keyBad ty true (some polKem))
        len := fun _ a => lenExact e z.ct out 0 a, gran := gran, rnd := true }
    match opOp e.opcode with
    | 1 => some {
        kind := .py, jrn := pbit e 0, persist := pbit e 0, needDus := pbit e 0, cluster := codeCluster set
        permitted := !codeCluster set || ownsCap d o
        paramOk := noKey1 && e.key0 == noHandle && pbits e 2 14 == 0 && policyOk pol && !(pbit e 1 && isHqc set)
        len := fun _ a => lenExact e 0 z.pk (if pbit e 1 then 32 else 0) a
        gran := granPriv parts.1 parts.2, blocks := persistBlocks parts.1 parts.2, rnd := true, blobOk := false }
    | 2 => some (enc (z.ct + z.ss) 0 (pol == 0))
    | 3 => some (dec z.ss 0 (pol == 0))
    | 4 => some (enc z.ct (granPriv z.ss 0) (policyOk pol))
    | 5 => some (dec 0 (granPriv z.ss 0) (policyOk pol))
    | 6 => some {
        kind := .py, paramOk := noKey1 && e.key0 == noHandle && low && policyOk pol, blobOk := false
        len := fun _ a => lenExact e z.pk 0 0 a, gran := granPub z.pk }
    | 7 => some {
        kind := .py, paramOk := noKey1 && e.param == 0, key0 := .need false (codePubBad set ty)
        len := fun _ a => lenExact e 0 z.pk 0 a }
    | _ => none

end Sys2Proof.Machine
end

