-- ==== Sys2Proof/Machine/Hashes.lean ====
section
/-!
DEFINITION. The hash functions of the device: SHA-2 (FIPS 180-4), Keccak and its functions (FIPS 202, SP 800-185), HMAC
(FIPS 198-1), HMAC counter-mode derivation (SP 800-108). The spec names these standards (00, Standards); the values are
theirs.
-/
namespace Sys2Proof.Machine

/-! ## SHA-256 and SHA-512 compression -/

/-- Round constants of SHA-512 (FIPS 180-4). -/
def k512A : List U64 :=
  [0x428A2F98D728AE22, 0x7137449123EF65CD, 0xB5C0FBCFEC4D3B2F, 0xE9B5DBA58189DBBC,
   0x3956C25BF348B538, 0x59F111F1B605D019, 0x923F82A4AF194F9B, 0xAB1C5ED5DA6D8118,
   0xD807AA98A3030242, 0x12835B0145706FBE, 0x243185BE4EE4B28C, 0x550C7DC3D5FFB4E2,
   0x72BE5D74F27B896F, 0x80DEB1FE3B1696B1, 0x9BDC06A725C71235, 0xC19BF174CF692694,
   0xE49B69C19EF14AD2, 0xEFBE4786384F25E3, 0x0FC19DC68B8CD5B5, 0x240CA1CC77AC9C65,
   0x2DE92C6F592B0275, 0x4A7484AA6EA6E483, 0x5CB0A9DCBD41FBD4, 0x76F988DA831153B5,
   0x983E5152EE66DFAB, 0xA831C66D2DB43210, 0xB00327C898FB213F, 0xBF597FC7BEEF0EE4,
   0xC6E00BF33DA88FC2, 0xD5A79147930AA725, 0x06CA6351E003826F, 0x142929670A0E6E70,
   0x27B70A8546D22FFC, 0x2E1B21385C26C926, 0x4D2C6DFC5AC42AED, 0x53380D139D95B3DF,
   0x650A73548BAF63DE, 0x766A0ABB3C77B2A8, 0x81C2C92E47EDAEE6, 0x92722C851482353B]

/-- Round constants of SHA-512 (FIPS 180-4). -/
def k512B : List U64 :=
  [0xA2BFE8A14CF10364, 0xA81A664BBC423001, 0xC24B8B70D0F89791, 0xC76C51A30654BE30,
   0xD192E819D6EF5218, 0xD69906245565A910, 0xF40E35855771202A, 0x106AA07032BBD1B8,
   0x19A4C116B8D2D0C8, 0x1E376C085141AB53, 0x2748774CDF8EEB99, 0x34B0BCB5E19B48A8,
   0x391C0CB3C5C95A63, 0x4ED8AA4AE3418ACB, 0x5B9CCA4F7763E373, 0x682E6FF3D6B2B8A3,
   0x748F82EE5DEFB2FC, 0x78A5636F43172F60, 0x84C87814A1F0AB72, 0x8CC702081A6439EC,
   0x90BEFFFA23631E28, 0xA4506CEBDE82BDE9, 0xBEF9A3F7B2C67915, 0xC67178F2E372532B,
   0xCA273ECEEA26619C, 0xD186B8C721C0C207, 0xEADA7DD6CDE0EB1E, 0xF57D4F7FEE6ED178,
   0x06F067AA72176FBA, 0x0A637DC5A2C898A6, 0x113F9804BEF90DAE, 0x1B710B35131C471B,
   0x28DB77F523047D84, 0x32CAAB7B40C72493, 0x3C9EBE0A15C9BEBC, 0x431D67C49C100D4C,
   0x4CC5D4BECB3E42B6, 0x597F299CFC657E2A, 0x5FCB6FAB3AD6FAEC, 0x6C44198C4A475817]

/-- Round constants of SHA-512 (FIPS 180-4). -/
def k512 : List U64 := k512A ++ k512B

/-- Initial state of SHA-512. -/
def h512 : List U64 :=
  [0x6A09E667F3BCC908, 0xBB67AE8584CAA73B, 0x3C6EF372FE94F82B, 0xA54FF53A5F1D36F1,
   0x510E527FADE682D1, 0x9B05688C2B3E6C1F, 0x1F83D9ABFB41BD6B, 0x5BE0CD19137E2179]

/-- Initial state of SHA-384. -/
def h384 : List U64 :=
  [0xCBBB9D5DC1059ED8, 0x629A292A367CD507, 0x9159015A3070DD17, 0x152FECD8F70E5939,
   0x67332667FFC00B31, 0x8EB44A8768581511, 0xDB0C2E0D64F98FA7, 0x47B5481DBEFA4FA4]


/-- Round constants of SHA-256: the first 32 bits of the first 64 of SHA-512, both taken from the same cube roots. -/
def k256 : List U32 := (k512.take 64).map fun k : U64 => (k >>> 32).setWidth 32

/-- Initial state of SHA-256: the first 32 bits of that of SHA-512, both taken from the same square roots. -/
def h256 : List U32 := h512.map fun h : U64 => (h >>> 32).setWidth 32

/-- Initial state of SHA-224: the second 32 bits of that of SHA-384 (FIPS 180-4, 5.3.2). -/
def h224 : List U32 := h384.map fun h => h.setWidth 32

/-- Message schedule: from the last 16 words, newest first, `n` more words. -/
def shaSched {w : Nat} (s0 s1 : BitVec w → BitVec w) : Nat → List (BitVec w) → List (BitVec w)
  | 0, ws => ws
  | n + 1, ws =>
    shaSched s0 s1 n ((s1 (ws.getD 1 0) + ws.getD 6 0 + s0 (ws.getD 14 0) + ws.getD 15 0) :: ws)

/-- The rounds over constants and scheduled words, on the state a to h. -/
def shaRounds {w : Nat} (b0 b1 : BitVec w → BitVec w) : List (BitVec w) → List (BitVec w) → List (BitVec w) → List (BitVec w)
  | k :: ks, x :: xs, st =>
    let a := st.getD 0 0; let b := st.getD 1 0; let c := st.getD 2 0; let d := st.getD 3 0
    let e := st.getD 4 0; let f := st.getD 5 0; let g := st.getD 6 0; let h := st.getD 7 0
    let t1 := h + b1 e + ((e &&& f) ^^^ (~~~e &&& g)) + k + x
    let t2 := b0 a + ((a &&& b) ^^^ (a &&& c) ^^^ (b &&& c))
    shaRounds b0 b1 ks xs [t1 + t2, a, b, c, d + t1, e, f, g]
  | _, _, st => st

/-- One SHA-256 block. -/
def sha256Block (st : List U32) (blk : Bytes) : List U32 :=
  let ws := (List.range 16).map fun i => (BitVec.ofNat 32 (beNat (slice blk (4 * i) 4)) : U32)
  let sched := (shaSched (fun x => x.rotateRight 7 ^^^ x.rotateRight 18 ^^^ (x >>> 3))
    (fun x => x.rotateRight 17 ^^^ x.rotateRight 19 ^^^ (x >>> 10)) 48 ws.reverse).reverse
  List.zipWith (· + ·) st (shaRounds (fun x => x.rotateRight 2 ^^^ x.rotateRight 13 ^^^ x.rotateRight 22)
    (fun x => x.rotateRight 6 ^^^ x.rotateRight 11 ^^^ x.rotateRight 25) k256 sched st)

/-- One SHA-512 block. -/
def sha512Block (st : List U64) (blk : Bytes) : List U64 :=
  let ws := (List.range 16).map fun i => (BitVec.ofNat 64 (beNat (slice blk (8 * i) 8)) : U64)
  let sched := (shaSched (fun x => x.rotateRight 1 ^^^ x.rotateRight 8 ^^^ (x >>> 7))
    (fun x => x.rotateRight 19 ^^^ x.rotateRight 61 ^^^ (x >>> 6)) 64 ws.reverse).reverse
  List.zipWith (· + ·) st (shaRounds (fun x => x.rotateRight 28 ^^^ x.rotateRight 34 ^^^ x.rotateRight 39)
    (fun x => x.rotateRight 14 ^^^ x.rotateRight 18 ^^^ x.rotateRight 41) k512 sched st)

/-- Merkle-Damgård padding to blocks of `blk` bytes with an `ln`-byte length. -/
def mdPad (blk ln : Nat) (m : Bytes) : Bytes :=
  let n := m.length
  let z := (blk - (n + 1 + ln) % blk) % blk
  m ++ [0x80] ++ zeros z ++ beBytes ln (8 * n)

def sha256State (iv : List U32) (m : Bytes) : List U32 :=
  let p := mdPad 64 8 m
  (chunks 64 p.length p).foldl sha256Block iv
def sha512State (iv : List U64) (m : Bytes) : List U64 :=
  let p := mdPad 128 16 m
  (chunks 128 p.length p).foldl sha512Block iv

/-- Big-endian bytes of a list of words. -/
def wordBytes {w : Nat} (n : Nat) (ws : List (BitVec w)) : Bytes := (ws.map fun x => beBytes n x.toNat).flatten

def sha256 (m : Bytes) : Bytes := wordBytes 4 (sha256State h256 m)
def sha224 (m : Bytes) : Bytes := (wordBytes 4 (sha256State h224 m)).take 28
def sha512 (m : Bytes) : Bytes := wordBytes 8 (sha512State h512 m)
def sha384 (m : Bytes) : Bytes := (wordBytes 8 (sha512State h384 m)).take 48
/-- Initial state of SHA-512/t (FIPS 180-4, 5.3.6). -/
def sha512tIv (name : String) : List U64 :=
  let st := sha512State (h512.map fun x => x ^^^ 0xA5A5A5A5A5A5A5A5) (ascii name)
  st
def sha512t256 (m : Bytes) : Bytes := (wordBytes 8 (sha512State (sha512tIv "SHA-512/256") m)).take 32
def sha512t224 (m : Bytes) : Bytes := (wordBytes 8 (sha512State (sha512tIv "SHA-512/224") m)).take 28

/-! ## Keccak-f[1600] -/

/-- The bits rc(t) of FIPS 202, algorithm 5, from a register value on: the register steps by x modulo x^8 + x^6 + x^5 + x^4 + 1. -/
def rcBits : Nat → Nat → List Bool
  | 0, _ => []
  | n + 1, r => decide (r % 2 = 1) :: rcBits n (if r < 128 then 2 * r else (2 * r) ^^^ 0x171)

/-- A round's constant: its j-th bit of rc stands at bit 2^j - 1 of lane 0. -/
def rcWord (bits : List Bool) : U64 :=
  BitVec.ofNat 64 ((List.range 7).foldl (fun v j => if bits.getD j false then v + 2 ^ (2 ^ j - 1) else v) 0)

/-- The constants of the 24 rounds: seven bits of rc for each. -/
def keccakRc : List U64 := (List.range 24).map fun i => rcWord ((rcBits 168 1).drop (7 * i))

/-- Step theta: each lane takes the parity of the column before its own and of the column after it, turned by one bit. -/
def keccakTheta (s : List U64) : List U64 :=
  let par := fun x => (List.range 5).foldl (fun v y => v ^^^ s.getD (x % 5 + 5 * y) 0) 0
  s.mapIdx fun i v => v ^^^ par (i + 4) ^^^ (par (i + 1)).rotateLeft 1

/-- Steps rho and pi in one walk: from lane (1, 0) each lane moves to (y, 2x + 3y), the t-th of the walk turned by
(t + 1)(t + 2) / 2. Lane (0, 0) stays. -/
def keccakRhoPi (s : List U64) : List U64 :=
  ((List.range 24).foldl (fun (at_ : Nat × List U64) t =>
    let dst := at_.1 / 5 + 5 * ((2 * (at_.1 % 5) + 3 * (at_.1 / 5)) % 5)
    (dst, at_.2.set dst ((s.getD at_.1 0).rotateLeft ((t + 1) * (t + 2) / 2)))) (1, s)).2

/-- Step chi: within a row of five lanes. -/
def keccakChi (s : List U64) : List U64 :=
  let row := fun i k => s.getD (i / 5 * 5 + (i % 5 + k) % 5) 0
  s.mapIdx fun i v => v ^^^ (~~~ row i 1 &&& row i 2)

/-- One round of Keccak-f[1600]. -/
def keccakRound (s : List U64) (rc : U64) : List U64 :=
  (keccakChi (keccakRhoPi (keccakTheta s))).modifyHead (· ^^^ rc)

/-- Keccak-f[1600]. -/
def keccakF (s : List U64) : List U64 := keccakRc.foldl keccakRound s

/-- The 25 lanes of a 200-byte string. -/
def lanesOf (bs : Bytes) : List U64 := (List.range 25).map fun i => u64At bs (8 * i)
/-- The 200 bytes of a state. -/
def bytesOfLanes (s : List U64) : Bytes := (s.map le64).flatten

/-- The state as one word of 1,600 bits, bit 0 of lane 0 first. -/
def stateWord (s : List U64) : BitVec 1600 := BitVec.ofNat 1600 (leNat (bytesOfLanes s))
/-- The lanes of a 1,600-bit word. -/
def wordLanes (w : BitVec 1600) : List U64 := (List.range 25).map fun i => (w >>> (64 * i)).setWidth 64
/-- Keccak-f[1600] on a word. -/
def keccakWord (w : BitVec 1600) : BitVec 1600 := stateWord (keccakF (wordLanes w))

/-- Absorb whole blocks of `rate` bytes. -/
def spongeAbsorb (rate : Nat) (blocks : List Bytes) (s : List U64) : List U64 :=
  blocks.foldl (fun st b => keccakF (List.zipWith (· ^^^ ·) st (lanesOf (fit 200 (b.take rate))))) s

/-- Squeeze `n` bytes; `fuel` bounds the blocks. -/
def spongeSqueeze (rate : Nat) : Nat → Nat → List U64 → Bytes
  | 0, _, _ => []
  | f + 1, n, s =>
    if n ≤ rate then (bytesOfLanes s).take n
    else (bytesOfLanes s).take rate ++ spongeSqueeze rate f (n - rate) (keccakF s)

/-- The padded message of a sponge with a domain-separation suffix byte. -/
def spongePad (rate : Nat) (suffix : Byte) (m : Bytes) : Bytes :=
  let q := rate - m.length % rate
  if q = 1 then m ++ [suffix ||| 0x80] else m ++ [suffix] ++ zeros (q - 2) ++ [0x80]

/-- The sponge: rate in bytes, suffix, message, output length. -/
def sponge (rate : Nat) (suffix : Byte) (m : Bytes) (n : Nat) : Bytes :=
  let p := spongePad rate suffix m
  spongeSqueeze rate (n + 1) n (spongeAbsorb rate (chunks rate p.length p) (List.replicate 25 0))

def sha3 (bytes : Nat) (m : Bytes) : Bytes := sponge (200 - 2 * bytes) 0x06 m bytes
def shake128 (m : Bytes) (n : Nat) : Bytes := sponge 168 0x1F m n
def shake256 (m : Bytes) (n : Nat) : Bytes := sponge 136 0x1F m n

/-! ## SP 800-185 -/

/-- The fewest bytes that hold a number, at least one. -/
def minBytes (n : Nat) : Nat := max 1 (cdiv (if n = 0 then 0 else Nat.log2 n + 1) 8)
def leftEncode (n : Nat) : Bytes := BitVec.ofNat 8 (minBytes n) :: beBytes (minBytes n) n
def rightEncode (n : Nat) : Bytes := beBytes (minBytes n) n ++ [BitVec.ofNat 8 (minBytes n)]
def encodeString (s : Bytes) : Bytes := leftEncode (8 * s.length) ++ s
def bytepad (x : Bytes) (w : Nat) : Bytes :=
  let z := leftEncode w ++ x
  z ++ zeros ((w - z.length % w) % w)

/-- cSHAKE with rate `rate`: function name, customisation string. -/
def cshake (rate : Nat) (x : Bytes) (n : Nat) (name cust : Bytes) : Bytes :=
  if name.isEmpty && cust.isEmpty then sponge rate 0x1F x n
  else sponge rate 0x04 (bytepad (encodeString name ++ encodeString cust) rate ++ x) n

/-- KMAC with output of `n` bytes. -/
def kmac (rate : Nat) (key x : Bytes) (n : Nat) (cust : Bytes) : Bytes :=
  cshake rate (bytepad (encodeString key) rate ++ x ++ rightEncode (8 * n)) n (ascii "KMAC") cust
def kmac128 (key x : Bytes) (n : Nat) (cust : Bytes) : Bytes := kmac 168 key x n cust
def kmac256 (key x : Bytes) (n : Nat) (cust : Bytes) : Bytes := kmac 136 key x n cust

/-! ## HMAC and the HMAC counter mode -/

/-- HMAC over a hash with blocks of `blk` bytes. -/
def hmac (h : Bytes → Bytes) (blk : Nat) (key m : Bytes) : Bytes :=
  let k := fit blk (if blk < key.length then h key else key)
  h (xorBytes k (List.replicate blk 0x5C) ++ h (xorBytes k (List.replicate blk 0x36) ++ m))

/-- SP 800-108 counter mode with an 8-bit counter before, `label ‖ 0x00 ‖ context`, and L as 32 bits after (12 R384). -/
def kdfCounter (h : Bytes → Bytes) (blk hlen : Nat) (key label ctx : Bytes) (n : Nat) : Bytes :=
  fit n (((List.range (cdiv n hlen)).map fun i =>
    hmac h blk key (BitVec.ofNat 8 (i + 1) :: label ++ [0] ++ ctx ++ beBytes 4 (8 * n))).flatten)

end Sys2Proof.Machine
end

