-- ==== Sys2Proof/Machine/Stream.lean ====
section
/-!
DEFINITION. Hashing in pieces: the running state of each class 0x7 set (04 R126-R131).
-/
namespace Sys2Proof.Machine

/-- The kinds of class 0x7 set (04 R126). -/
inductive HKind | sha2s | sha2l | sha3 | shake | cshake | kmac
  deriving DecidableEq, Repr

/-- The kind of a set. -/
def hKind (set : Nat) : HKind :=
  if set ≤ 2 then .sha2s else if set ≤ 6 then .sha2l else if set ≤ 0x0A then .sha3 else if set ≤ 0x0C then .shake
  else if set ≤ 0x0E then .cshake else .kmac

/-- Block or rate in bytes (04 R126). -/
def hBlock (set : Nat) : Nat :=
  match set with
  | 1 | 2 => 64 | 3 | 4 | 5 | 6 => 128 | 7 => 144 | 8 => 136 | 9 => 104 | 10 => 72
  | 11 | 13 | 15 => 168 | _ => 136
/-- Hash cycles per block (04 R126). -/
def hCycles (set : Nat) : Nat := if set ≤ 2 then 65 else if set ≤ 6 then 81 else 24
/-- Digest length of a fixed-length set, or the default output of the others (04 R128). -/
def hDigest (set : Nat) : Nat :=
  match set with
  | 1 | 5 | 7 => 28 | 2 | 6 | 8 => 32 | 3 | 9 => 48 | 4 | 10 => 64 | 11 | 13 | 15 => 32 | _ => 64

/-- A running hash: 25 lanes, or eight words of SHA-2 in the first lanes, and the bytes not yet hashed. -/
structure HRun where
  st   : List U64 := List.replicate 25 0
  part : Bytes := []
  deriving DecidableEq, Repr

/-- Hash one block. -/
def hBlockRun (set : Nat) (st : List U64) (blk : Bytes) : List U64 :=
  match hKind set with
  | .sha2s => (sha256Block (st.map fun x => x.setWidth 32) blk).map fun x => x.setWidth 64
  | .sha2l => sha512Block st blk
  | _ => spongeAbsorb (hBlock set) [blk] st

/-- The whole blocks of a buffer are hashed, the rest is kept; `fuel` bounds the blocks. -/
def hRunBlocks (set : Nat) : Nat → List U64 → Bytes → HRun
  | 0, st, bs => { st := st, part := bs }
  | f + 1, st, bs =>
    if bs.length < hBlock set then { st := st, part := bs }
    else hRunBlocks set f (hBlockRun set st (bs.take (hBlock set))) (bs.drop (hBlock set))

/-- Absorb bytes. -/
def hAbsorb (set : Nat) (r : HRun) (bs : Bytes) : HRun :=
  hRunBlocks set (bs.length + 1) r.st (r.part ++ bs)

/-- The initial state of a set. -/
def hIv (set : Nat) : List U64 :=
  match set with
  | 1 => h224.map fun x => x.setWidth 64
  | 2 => h256.map fun x => x.setWidth 64
  | 3 => h384 | 4 => h512
  | 5 => sha512tIv "SHA-512/224" | 6 => sha512tIv "SHA-512/256"
  | _ => List.replicate 25 0

/-- Whether a set's hash is used by HMAC with a key (04 R127). -/
def isHmac (set : Nat) : Bool := set ≤ 0x0A

/-- The whole digest of a fixed-length set after `total` bytes. -/
def hFinish (set : Nat) (r : HRun) (suffix : Byte) (total n : Nat) : Bytes :=
  match hKind set with
  | .sha2s =>
    let z := (64 - (total + 9) % 64) % 64
    wordBytes 4 ((hAbsorb set r ([0x80] ++ zeros z ++ beBytes 8 (8 * total))).st.map fun x => (x.setWidth 32 : U32)) |>.take n
  | .sha2l =>
    let z := (128 - (total + 17) % 128) % 128
    wordBytes 8 (hAbsorb set r ([0x80] ++ zeros z ++ beBytes 16 (8 * total))).st |>.take n
  | _ =>
    let rate := hBlock set
    let q := rate - r.part.length % rate
    let pad := if q = 1 then [suffix ||| 0x80] else [suffix] ++ zeros (q - 2) ++ [0x80]
    spongeSqueeze rate (n + 1) n (hAbsorb set r pad).st

/-- A key as HMAC uses it: padded to a block, hashed first when longer (04 R129). -/
def hmacKey (set : Nat) (key : Bytes) : Bytes :=
  fit (hBlock set)
    (if hBlock set < key.length then hFinish set (hAbsorb set { st := hIv set } key) 0x06 key.length (hDigest set) else key)

/-- The start of a stream: the initial state, the customisation and the key (04 R127, R128). -/
def hStart (set : Nat) (key : Option Bytes) (name cust : Bytes) : HRun :=
  let r : HRun := { st := hIv set }
  let rate := hBlock set
  match hKind set, key with
  | .kmac, k =>
    hAbsorb set r (bytepad (encodeString (ascii "KMAC") ++ encodeString cust) rate ++ bytepad (encodeString (k.getD [])) rate)
  | .cshake, _ => if name.isEmpty && cust.isEmpty then r else hAbsorb set r (bytepad (encodeString name ++ encodeString cust) rate)
  | _, some k => hAbsorb set r (xorBytes (hmacKey set k) (List.replicate rate 0x36))
  | _, none => r

/-- The suffix byte of a Keccak set. -/
def hSuffix (set : Nat) (plain : Bool) : Byte :=
  match hKind set with
  | .sha3 => 0x06 | .shake => 0x1F | .cshake => if plain then 0x1F else 0x04 | _ => 0x04

/-- The end of a stream of `total` message bytes: the digest or tag of `n` bytes (04 R127-R129). -/
def hEnd (set : Nat) (r : HRun) (key : Option Bytes) (plain xof : Bool) (total n : Nat) : Bytes :=
  match hKind set, key with
  | .kmac, _ => hFinish set (hAbsorb set r (rightEncode (if xof then 0 else 8 * n))) 0x04 total n
  | .cshake, _ => hFinish set r (hSuffix set plain) total n
  | .shake, _ => hFinish set r 0x1F total n
  | _, none => hFinish set r 0x06 total n
  | _, some k =>
    let inner := hFinish set r 0x06 (total + hBlock set) (hDigest set)
    let outer := hAbsorb set { st := hIv set } (xorBytes (hmacKey set k) (List.replicate (hBlock set) 0x5C) ++ inner)
    (hFinish set outer 0x06 (hBlock set + inner.length) (hDigest set)).take n

/-- Hash or authenticate a whole message. -/
def hWhole (set : Nat) (key : Option Bytes) (name cust : Bytes) (xof : Bool) (msg : Bytes) (n : Nat) : Bytes :=
  hEnd set (hAbsorb set (hStart set key name cust) msg) key (name.isEmpty && cust.isEmpty) xof msg.length n

end Sys2Proof.Machine
end

