-- ==== Sys2Proof/Machine/SpecHash.lean ====
section
/-!
DEFINITION. The entry checks of the hash, hash-based-signature and state-store classes 0x7, 0x3 and 0xC, and the sizes of
stateful keys (04 R126-R128, R134-R137, R140-R142, R147, R153).
-/
namespace Sys2Proof.Machine

/-! ## Class 0x7 -/

/-- Whether a set and an operation go together (04 R127). -/
def hashOpOk (set op : Nat) : Bool :=
  let plain := decide (set ≤ 0x0E)
  let mac := isHmac set || hKind set == .kmac
  decide (1 ≤ set) && decide (set ≤ 0x10) &&
    (match op with
     | 1 => plain | 2 => mac | 3 => mac | 4 => true | 5 => true | 6 => true | 7 => mac | _ => false)

def hashOutField (e : Sqe) : Nat := pbits e 0 16
def hashSlen (e : Sqe) : Nat := pbits e 16 7
def hashXof (e : Sqe) : Bool := pbit e 23
def hashNlen (e : Sqe) : Nat := pbits e 24 7

/-- Output or tag length of a class 0x7 job (04 R128). -/
def hashOutLen (e : Sqe) : Nat := if hashOutField e = 0 then hDigest (opSet e.opcode) else hashOutField e

/-- Whether OUTLEN is one that the set takes with or without a MAC key (04 R128). -/
def hashOutOk (set n : Nat) (keyed : Bool) : Bool :=
  if isHmac set then n == 0 || (keyed && decide (4 ≤ n) && decide (n ≤ hDigest set)) else true

/-- PARAM of a class 0x7 job (04 R128). -/
def hashParamOk (e : Sqe) : Bool :=
  let set := opSet e.opcode
  let op := opOp e.opcode
  let k := hKind set
  let keyed := e.key0 != noHandle
  let sOk := hashSlen e == 0 || k == .cshake || k == .kmac
  let nOk := hashNlen e == 0 || k == .cshake
  let xOk := !hashXof e || k == .kmac
  !pbit e 31 &&
    (match op with
     | 5 => e.param == 0
     | 4 => hashOutField e == 0 && sOk && nOk && xOk
     | 6 | 7 => hashOutOk set (hashOutField e) keyed && hashSlen e == 0 && hashNlen e == 0 && !hashXof e
     | _ => hashOutOk set (hashOutField e) keyed && sOk && nOk && xOk)

/-- A MAC key: a secret-key object whose policy permits MAC (04 R129). -/
def macKeyBad (k : KObj) : Option U16 :=
  if opClass k.type ≠ 8 || !k.policy.getLsbD polMac then some 0 else none

/-- Key use of a class 0x7 operation: KMAC streams need a key, SHAKE and cSHAKE streams take none (04 R127). -/
def hashKeyUse (set op : Nat) : KeyUse :=
  if op = 1 then .none
  else if op = 2 || op = 3 || hKind set == .kmac then .need true macKeyBad
  else if isHmac set then .opt true macKeyBad else .none

/-- Class 0x7 (04 R123-R129). -/
def hashSpec (e : Sqe) : Option OpSpec :=
  let set := opSet e.opcode
  let op := opOp e.opcode
  if !hashOpOk set op then none
  else
    let out := hashOutLen e
    let ns := hashNlen e + hashSlen e
    let outAux (o a : Nat) : Option KObj → Nat → Option U16 := fun _ x =>
      if e.outCap.toNat < o then some 2 else if x ≠ a then some 3 else none
    some { kind := .py, paramOk := e.key1 == noHandle && hashParamOk e, key0 := hashKeyUse set op, needDus := decide (4 ≤ op),
           blobOk := op ≠ 1
           len := match op with
             | 1 => outAux out ns
             | 2 => outAux out (hashSlen e)
             | 3 => outAux 0 (hashSlen e + out)
             | 4 => outAux 512 ns
             | 5 => outAux 512 512
             | 6 => outAux out 512
             | _ => outAux 0 (512 + out) }

/-! ## SLH-DSA sets (04 R134, R137) -/

/-- n of an SLH-DSA set. -/
def slhN (set : Nat) : Nat := if set ≤ 4 then 16 else if set ≤ 8 then 24 else 32
/-- Whether a set is SLH-DSA. -/
def isSlh (set : Nat) : Bool := decide (1 ≤ set) && decide (set ≤ 0x0C)
/-- Signature length of an SLH-DSA set. -/
def slhSig (set : Nat) : Nat :=
  if set ≤ 2 then 7856 else if set ≤ 4 then 17088 else if set ≤ 6 then 16224 else if set ≤ 8 then 35664
  else if set ≤ 0x0A then 29792 else 49856

/-! ## Stateful parameters (04 R140, R141, R146) -/

/-- Whether a set is stateful. -/
def isStateful (set : Nat) : Bool := set == 0x10 || set == 0x11 || set == 0x18 || set == 0x19
/-- Whether a stateful set is LMS or HSS. -/
def isLms (set : Nat) : Bool := set == 0x10 || set == 0x11

/-- One tree level: hash family, node size, height, chain count and the largest digit of a chain. -/
structure Lev where
  shake : Bool := false
  n     : Nat := 32
  h     : Nat := 0
  p     : Nat := 0
  top   : Nat := 15
  deriving DecidableEq, Repr

/-- An LMS type: SHAKE, n, h (04 R140; the numbers of the registry, log 26). -/
def lmsType (t : Nat) : Option (Bool × Nat × Nat) :=
  if 0x05 ≤ t && t ≤ 0x08 then some (false, 32, 5 * (t - 4))
  else if 0x0A ≤ t && t ≤ 0x0D then some (false, 24, 5 * (t - 9))
  else if 0x0F ≤ t && t ≤ 0x12 then some (true, 32, 5 * (t - 14))
  else if 0x14 ≤ t && t ≤ 0x17 then some (true, 24, 5 * (t - 19))
  else none

/-- An LM-OTS type: SHAKE, n, w (04 R140, R146; log 26). -/
def otsType (t : Nat) : Option (Bool × Nat × Nat) :=
  if t = 0 || 16 < t then none
  else
    let g := (t - 1) / 4
    some (decide (2 ≤ g), if g % 2 = 0 then 32 else 24, 2 ^ ((t - 1) % 4))

/-- Chain count p of an LM-OTS type (04 R146). -/
def otsP (n w : Nat) : Nat :=
  if n = 24 then (if w = 1 then 200 else if w = 2 then 101 else if w = 4 then 51 else 26)
  else if w = 1 then 265 else if w = 2 then 133 else if w = 4 then 67 else 34

/-- A level of LMS or HSS: both types supported and of one hash and size. -/
def lmsLev (t o : Nat) : Option Lev :=
  match lmsType t, otsType o with
  | some (s, n, h), some (s2, n2, w) =>
    if s == s2 && n == n2 then some { shake := s, n := n, h := h, p := otsP n w, top := 2 ^ w - 1 } else none
  | _, _ => none

/-- A level of XMSS or of a layer of XMSS^MT (04 R146). -/
def xmssLev (shake : Bool) (n h : Nat) : Lev := { shake := shake, n := n, h := h, p := if n = 32 then 67 else 51, top := 15 }

/-- XMSS OIDs of SP 800-208 with h ≤ 20 (04 R140; the registry's numbers, log 26). -/
def xmssOid (oid : Nat) : Option Lev :=
  let at3 (b : Nat) (s : Bool) (n : Nat) : Option Lev :=
    if oid = b then some (xmssLev s n 10) else if oid = b + 1 then some (xmssLev s n 16)
    else if oid = b + 2 then some (xmssLev s n 20) else none
  (at3 0x01 false 32).or ((at3 0x0D false 24).or ((at3 0x10 true 32).or (at3 0x13 true 24)))

/-- XMSS^MT OIDs of SP 800-208 with H ≤ 40 and at most 4 layers: the layers' levels (04 R140; log 26). -/
def xmssMtOid (oid : Nat) : Option (List Lev) :=
  let at8 (b : Nat) (s : Bool) (n : Nat) : Option (List Lev) :=
    if oid = b then some (List.replicate 2 (xmssLev s n 10))
    else if oid = b + 1 then some (List.replicate 4 (xmssLev s n 5))
    else if oid = b + 2 then some (List.replicate 2 (xmssLev s n 20))
    else if oid = b + 3 then some (List.replicate 4 (xmssLev s n 10)) else none
  (at8 0x01 false 32).or ((at8 0x21 false 24).or ((at8 0x29 true 32).or (at8 0x31 true 24)))

/-- The levels of types of LMS or HSS. -/
def lmsLevels : List (Nat × Nat) → Option (List Lev)
  | [] => some []
  | (t, o) :: ts =>
    match lmsLev t o, lmsLevels ts with
    | some l, some ls => some (l :: ls)
    | _, _ => none

/-- The levels of a stateful key, the top one first. -/
def ssLevels (k : SsKey) : List Lev :=
  if isLms k.set then (lmsLevels k.types).getD []
  else if k.set = 0x18 then (xmssOid k.oid).toList
  else (xmssMtOid k.oid).getD []

/-- Length of a path-cache region (04 R142). -/
def regionLen (l : Lev) : Nat := 16384 + 2 ^ (l.h + 1) * l.n
/-- Length of a path cache: region 0, then two regions for each lower level (04 R142). -/
def pathCacheLen : List Lev → Nat
  | [] => 0
  | l :: ls => regionLen l + (ls.map fun x => 2 * regionLen x).sum
/-- Height of all levels together. -/
def totalH (ls : List Lev) : Nat := (ls.map (·.h)).sum
/-- The bottom level. -/
def bottomLev (ls : List Lev) : Lev := ls.getLast?.getD {}

/-- An LMS signature (04 R147). -/
def lmsSigLen (l : Lev) : Nat := 12 + l.n * (l.p + 1 + l.h)
/-- An LMS public key (04 R147). -/
def lmsPkLen (l : Lev) : Nat := 24 + l.n
/-- Length of the header signature over a lower level's public key (04 R142). -/
def headSigLen (set : Nat) (up low : Lev) : Nat :=
  if isLms set then lmsSigLen up + lmsPkLen low else (up.p + up.h) * up.n
/-- The signatures of the upper levels together. -/
def upperSigs (set : Nat) : List Lev → Nat
  | a :: b :: ls => headSigLen set a b + upperSigs set (b :: ls)
  | _ => 0
/-- Signature length of a stateful key (04 R147). -/
def ssSigLen (set : Nat) (ls : List Lev) : Nat :=
  let b := bottomLev ls
  if set = 0x10 then lmsSigLen b
  else if set = 0x11 then 4 + upperSigs set ls + lmsSigLen b
  else if set = 0x18 then 4 + b.n + (b.p + b.h) * b.n
  else cdiv (totalH ls) 8 + b.n + (ls.map fun l => (l.p + l.h) * l.n).sum
/-- Public-key length of a stateful key (04 R147). -/
def ssPkLen (set : Nat) (ls : List Lev) : Nat :=
  let n := (ls.head?.getD {}).n
  if set = 0x10 then 24 + n else if set = 0x11 then 28 + n else 4 + 2 * n

/-- Indices left in the bottom tree that holds NEXT (04 R154). DESIGN CHOICE: where NEXT is the first index of a bottom tree, or 2^H, this
is a full tree (log 177). -/
def bottomLeft (k : SsKey) : Nat :=
  let n := 2 ^ (bottomLev (ssLevels k)).h
  n - k.next % n

/-- The SS events of a move of NEXT: or of LIMIT: a count that falls below 2^LOG2 (04 R155). -/
def ssLowEvents (d : Dev) (old new : SsKey) (slot : Nat) : Dev :=
  let t := 2 ^ d.ss.low.toNat
  let below (a b : Nat) : Bool := d.ss.low != 0 && decide (t ≤ a) && decide (b < t)
  let d1 := if below (old.limit - old.next) (new.limit - new.next) then ssCause d 1 (BitVec.ofNat 16 slot) else d
  if below (bottomLeft old) (bottomLeft new) then ssCause d1 2 (BitVec.ofNat 16 slot) else d1

/-- The record of a stateful key's handle. -/
def ssOf (d : Dev) (o : Nat) (h : U32) : Option SsKey := mapGet none d.ss.keys (slotKey o (hSlot h))

/-- Whether an entry is a SIGN of a stateful key that has no journal entry (04 R148). -/
def keyWaits (d : Dev) (o : Nat) (e : Sqe) : Bool :=
  opClass e.opcode == 3 && opOp e.opcode == 2 && isStateful (opSet e.opcode)
    && (match ssOf d o e.key0 with | some k => k.jrn.isNone | none => false)

/-! ## Class 0x3 (04 R134-R137, R143) -/

/-- The SLH-DSA operations. -/
def slhSpec (e : Sqe) (tree : Bool) : Option OpSpec :=
  let set := opSet e.opcode
  let n := slhN set
  let noKey1 := e.key1 == noHandle
  let ty := opType e.opcode
  let ph := pbits e 8 8
  let ctx := pbits e 16 8
  let rsv := pbits e 1 7 == 0 && pbits e 24 8 == 0
  let signKey : KeyUse := .need true (keyBad ty true (some polSign))
  let verKey : KeyUse := .opt false (keyBad ty false (some polVerify))
  let verAux (k : Option KObj) : Nat := (if k.isSome then 0 else 2 * n) + slhSig set + ctx
  let base : OpSpec := { kind := .ts, permitted := tree }
  match opOp e.opcode with
  | 1 => some { base with
      jrn := pbit e 0, persist := pbit e 0, needDus := pbit e 0
      paramOk := noKey1 && e.key0 == noHandle && pbits e 2 14 == 0 && policyOk (pPolicy e)
      len := fun _ a => lenExact e 0 (2 * n) (if pbit e 1 then 3 * n else 0) a
      gran := granPriv (4 * n) (2 * n), blocks := persistBlocks (4 * n) (2 * n), rnd := true, blobOk := false }
  | 2 => some { base with
      paramOk := noKey1 && rsv && ph == 0, key0 := signKey, rnd := !pbit e 0
      len := fun _ a => if e.outCap.toNat < slhSig set then some 2 else if a ≠ ctx then some 3 else none }
  | 3 => some { base with
      paramOk := noKey1 && rsv && (phLen ph).isSome, key0 := signKey, rnd := !pbit e 0
      len := fun _ a => lenExact e ((phLen ph).getD 0) (slhSig set) ctx a }
  | 5 => some { base with
      paramOk := noKey1 && rsv && ph == 0 && !pbit e 0, key0 := verKey
      len := fun k a => if a ≠ verAux k then some 3 else none }
  | 6 => some { base with
      paramOk := noKey1 && rsv && (phLen ph).isSome && !pbit e 0, key0 := verKey
      len := fun k a => lenExact e ((phLen ph).getD 0) 0 (verAux k) a }
  | 8 => some { base with
      paramOk := noKey1 && e.param == 0, key0 := .need false (keyBad ty false none)
      len := fun _ a => lenExact e 0 (2 * n) 0 a }
  | _ => none

/-- The stateful operations. The lengths come from the key's record. -/
def ssSpec (d : Dev) (o : Nat) (e : Sqe) (tree : Bool) : Option OpSpec :=
  let set := opSet e.opcode
  let noKey1 := e.key1 == noHandle
  let ty := opType e.opcode
  let k := (ssOf d o e.key0).getD {}
  let ls := ssLevels k
  let base : OpSpec := { kind := .ts, permitted := tree, needDus := true, blobOk := false }
  let own (pol : Option Nat) : KeyUse := .need true (keyBad ty true pol)
  match opOp e.opcode with
  | 1 => some { base with
      jrn := true
      paramOk := noKey1 && e.key0 == noHandle && pbits e 0 16 == 1 && policyOk (pPolicy e)
      len := fun _ a => lenExact e 0 0 40 a, rnd := true, stateful := true }
  | 2 => some { base with
      paramOk := noKey1 && e.param == 0, key0 := own (some polSign), rnd := isLms set
      len := fun _ a =>
        if e.inLen.toNat < pathCacheLen ls then some 1 else if e.outCap.toNat < ssSigLen set ls then some 2
        else if a ≠ 0 then some 3 else none }
  | 5 => some { base with
      paramOk := noKey1 && e.param == 0, key0 := .opt false (keyBad ty false (some polVerify))
      len := fun x a => if x.isSome && a ≠ ssSigLen set ls then some 3 else none }
  | 8 => some { base with
      paramOk := noKey1 && e.param == 0, key0 := .need false (keyBad ty false none)
      len := fun _ a => lenExact e 0 (ssPkLen set ls) 0 a }
  | 9 => if set ≠ 0x11 && set ≠ 0x19 then none else some { base with
      paramOk := noKey1 && decide (1 ≤ e.param.toNat)
                 && (e.key0 == noHandle || ls.isEmpty || decide (e.param.toNat < ls.length)) && decide (e.param.toNat ≤ 3)
      key0 := own (some polSign)
      len := fun _ a => lenExact e 0 (regionLen (ls.getD e.param.toNat {})) 0 a }
  | 0x0A => some { base with
      paramOk := noKey1 && e.param == 0, key0 := own (some polSign)
      len := fun _ a => lenExact e 0 (pathCacheLen ls) 0 a }
  | _ => none

/-- Class 0x3 (04 R123, R135). -/
def hbsSpec (d : Dev) (o : Nat) (e : Sqe) : Option OpSpec :=
  let set := opSet e.opcode
  let tree := ownsTree d o
  if isSlh set then slhSpec e tree else if isStateful set then ssSpec d o e tree else none

/-! ## Class 0xC (04 R153) -/

/-- A stateful key of any set, with no policy bit. -/
def statefulBad (k : KObj) : Option U16 := if k.stateful then none else some 0

/-- Class 0xC: no engine. -/
def storeSpec (e : Sqe) : Option OpSpec :=
  let base : OpSpec := { kind := .none, needDus := true, blobOk := false, paramOk := e.key1 == noHandle && e.param == 0 }
  if opSet e.opcode ≠ 0 then none
  else
    match opOp e.opcode with
    | 1 => some { base with key0 := .need false statefulBad, len := fun _ a => lenExact e 0 64 0 a }
    | 2 => some { base with jrn := true, key0 := .opt false statefulBad, len := fun _ a => lenExact e 0 0 0 a }
    | 3 => some { base with jrn := true, key0 := .need false statefulBad, len := fun _ a => lenExact e 0 0 8 a }
    | 4 => some { base with jrn := true, key0 := .need false statefulBad, len := fun _ a => lenExact e 0 0 0 a }
    | _ => none

end Sys2Proof.Machine
end

