-- ==== Sys2Proof/Machine/Ec.lean ====
section
/-!
DEFINITION. Arithmetic of the classical public-key schemes: modular inverse and power, short Weierstrass, Montgomery and
Edwards curves, safe-prime groups, RSA encodings (06 R183-R203, by the standards it names; constants: log 22).
-/
namespace Sys2Proof.Machine

/-! ## Modular arithmetic -/

/-- b^e mod m by squaring; `fuel` bounds the bits of e. -/
def powGo (m : Nat) : Nat → Nat → Nat → Nat → Nat
  | 0, _, _, acc => acc
  | f + 1, b, e, acc => if e = 0 then acc else powGo m f (b * b % m) (e / 2) (if e % 2 = 1 then acc * b % m else acc)
/-- b^e mod m. -/
def powMod (b e m : Nat) : Nat := powGo m (Nat.log2 e + 2) (b % m) e (1 % m)

/-- The steps of Euclid's algorithm on (r0, r1) with coefficients of the first argument; `fuel` bounds them. -/
def invGo (m : Nat) : Nat → Nat → Nat → Int → Int → Option Nat
  | 0, _, _, _, _ => none
  | f + 1, r0, r1, t0, t1 =>
    if r1 = 0 then (if r0 = 1 then some (t0 % m).toNat else none)
    else invGo m f r1 (r0 % r1) t1 (t0 - (r0 / r1 : Nat) * t1)
/-- The inverse of a mod m, when it exists. -/
def invMod (a m : Nat) : Option Nat := invGo m (2 * Nat.log2 m + 4) m (a % m) 0 1
/-- The inverse, or 0. -/
def inv0 (a m : Nat) : Nat := (invMod a m).getD 0
/-- a − b mod m. -/
def subMod (a b m : Nat) : Nat := (a % m + m - b % m) % m

/-! ## Short Weierstrass curves (06 R192, R193, R197) -/

/-- A curve y² = x³ + ax + b over p, its base point, order and cofactor. -/
structure Curve where
  pbits : Nat := 0
  p  : Nat := 0
  a  : Nat := 0
  b  : Nat := 0
  gx : Nat := 0
  gy : Nat := 0
  n  : Nat := 0
  h  : Nat := 1
  deriving DecidableEq, Repr

/-- P-256 (FIPS 186-5; log 22). -/
def p256 : Curve :=
  { pbits := 256
    p := 0xFFFFFFFF00000001000000000000000000000000FFFFFFFFFFFFFFFFFFFFFFFF
    a := 0xFFFFFFFF00000001000000000000000000000000FFFFFFFFFFFFFFFFFFFFFFFC
    b := 0x5AC635D8AA3A93E7B3EBBD55769886BC651D06B0CC53B0F63BCE3C3E27D2604B
    gx := 0x6B17D1F2E12C4247F8BCE6E563A440F277037D812DEB33A0F4A13945D898C296
    gy := 0x4FE342E2FE1A7F9B8EE7EB4A7C0F9E162BCE33576B315ECECBB6406837BF51F5
    n := 0xFFFFFFFF00000000FFFFFFFFFFFFFFFFBCE6FAADA7179E84F3B9CAC2FC632551 }

/-- P-384 (FIPS 186-5; log 22). -/
def p384 : Curve :=
  { pbits := 384
    p := 0xFFFFFFFFFFFFFFFFFFFFFFFFFFFFFFFFFFFFFFFFFFFFFFFFFFFFFFFFFFFFFFFEFFFFFFFF0000000000000000FFFFFFFF
    a := 0xFFFFFFFFFFFFFFFFFFFFFFFFFFFFFFFFFFFFFFFFFFFFFFFFFFFFFFFFFFFFFFFEFFFFFFFF0000000000000000FFFFFFFC
    b := 0xB3312FA7E23EE7E4988E056BE3F82D19181D9C6EFE8141120314088F5013875AC656398D8A2ED19D2A85C8EDD3EC2AEF
    gx := 0xAA87CA22BE8B05378EB1C71EF320AD746E1D3B628BA79B9859F741E082542A385502F25DBF55296C3A545E3872760AB7
    gy := 0x3617DE4A96262C6F5D9E98BF9292DC29F8F41DBD289A147CE9DA3113B5F0B8C00A60B1CE1D7E819D7A431D7C90EA0E5F
    n := 0xFFFFFFFFFFFFFFFFFFFFFFFFFFFFFFFFFFFFFFFFFFFFFFFFC7634D81F4372DDF581A0DB248B0A77AECEC196ACCC52973 }

/-- P-521 (FIPS 186-5; log 22). -/
def p521 : Curve :=
  { pbits := 521
    p := 0x1FFFFFFFFFFFFFFFFFFFFFFFFFFFFFFFFFFFFFFFFFFFFFFFFFFFFFFFFFFFFFFFFFFFFFFFFFFFFFFFFFFFFFFFFFFFFFFFFFFFFFFFFFFFFFFFFFFFFFFFFFFFFFFFFFF
    a := 0x1FFFFFFFFFFFFFFFFFFFFFFFFFFFFFFFFFFFFFFFFFFFFFFFFFFFFFFFFFFFFFFFFFFFFFFFFFFFFFFFFFFFFFFFFFFFFFFFFFFFFFFFFFFFFFFFFFFFFFFFFFFFFFFFFFC
    b := 0x51953EB9618E1C9A1F929A21A0B68540EEA2DA725B99B315F3B8B489918EF109E156193951EC7E937B1652C0BD3BB1BF073573DF883D2C34F1EF451FD46B503F00
    gx := 0xC6858E06B70404E9CD9E3ECB662395B4429C648139053FB521F828AF606B4D3DBAA14B5E77EFE75928FE1DC127A2FFA8DE3348B3C1856A429BF97E7E31C2E5BD66
    gy := 0x11839296A789A3BC0045C8A5FB42C7D1BD998F54449579B446817AFBD17273E662C97EE72995EF42640C550B9013FAD0761353C7086A272C24088BE94769FD16650
    n := 0x1FFFFFFFFFFFFFFFFFFFFFFFFFFFFFFFFFFFFFFFFFFFFFFFFFFFFFFFFFFFFFFFFFA51868783BF2F966B7FCC0148F709A5D03BB5C9B8899C47AEBB6FB71E91386409 }

/-- A point, or the point at infinity. -/
abbrev Pt := Option (Nat × Nat)

/-- Whether coordinates satisfy the curve equation. -/
def onCurve (c : Curve) (x y : Nat) : Bool := y * y % c.p == (x * x * x + c.a * x + c.b) % c.p

/-- The sum of two points. -/
def ecAdd (c : Curve) : Pt → Pt → Pt
  | none, q => q
  | p, none => p
  | some (x1, y1), some (x2, y2) =>
    if x1 = x2 && (y1 + y2) % c.p = 0 then none
    else
      let l := if x1 = x2 then (3 * x1 * x1 + c.a) * inv0 (2 * y1) c.p % c.p
        else subMod y2 y1 c.p * inv0 (subMod x2 x1 c.p) c.p % c.p
      let x3 := subMod (l * l) (x1 + x2) c.p
      some (x3, subMod (l * subMod x1 x3 c.p) y1 c.p)

/-- k times a point, by doubling; `fuel` bounds the bits of k. -/
def ecMulGo (c : Curve) : Nat → Nat → Pt → Pt → Pt
  | 0, _, _, acc => acc
  | f + 1, k, q, acc => if k = 0 then acc else ecMulGo c f (k / 2) (ecAdd c q q) (if k % 2 = 1 then ecAdd c acc q else acc)
/-- k times a point. -/
def ecMul (c : Curve) (k : Nat) (q : Pt) : Pt := ecMulGo c (Nat.log2 k + 2) k q none
/-- The base point. -/
def ecG (c : Curve) : Pt := some (c.gx, c.gy)

/-- Bytes of a coordinate and of a scalar (06 R185). -/
def pLen (c : Curve) : Nat := cdiv c.pbits 8
def nLen (c : Curve) : Nat := cdiv (Nat.log2 c.n + 1) 8
/-- The uncompressed form of a point; the point at infinity has none. -/
def ecBytes (c : Curve) : Pt → Bytes
  | none => []
  | some (x, y) => 0x04 :: (beBytes (pLen c) x ++ beBytes (pLen c) y)

/-- A square root mod p, by Tonelli and Shanks: m, c, t, r; `fuel` bounds the rounds. -/
def tsGo (p : Nat) : Nat → Nat → Nat → Nat → Nat → Option Nat
  | 0, _, _, _, _ => none
  | f + 1, m, c, t, r =>
    if t = 1 then some r
    else
      match (List.range m).find? fun i => 0 < i && powMod t (2 ^ i) p == 1 with
      | none => none
      | some i =>
        let b := powMod c (2 ^ (m - i - 1)) p
        tsGo p f i (b * b % p) (t * b * b % p) (r * b % p)
/-- The odd part of n and the power of two in it. -/
def oddPart : Nat → Nat → Nat → Nat × Nat
  | 0, q, s => (q, s)
  | f + 1, q, s => if q % 2 = 0 then oddPart f (q / 2) (s + 1) else (q, s)
/-- A square root of a mod an odd prime p. -/
def sqrtMod (a p : Nat) : Option Nat :=
  if a % p = 0 then some 0
  else if p % 4 = 3 then
    let r := powMod a ((p + 1) / 4) p
    if r * r % p = a % p then some r else none
  else if powMod a ((p - 1) / 2) p ≠ 1 then none
  else
    let (q, s) := oddPart (Nat.log2 p + 1) (p - 1) 0
    match (List.range 512).find? fun z => 1 < z && powMod z ((p - 1) / 2) p == p - 1 with
    | none => none
    | some z => tsGo p (s + 1) s (powMod z q p) (powMod a q p) (powMod a ((q + 1) / 2) p)

/-- What is wrong with a public point (06 R190, R193). -/
inductive PtErr | format | coord | offCurve | infinity | subgroup
  deriving DecidableEq, Repr

/-- Read and validate a public point, in the order of 06 R193. -/
def ecDecode (c : Curve) (bs : Bytes) : Except PtErr (Nat × Nat) :=
  let n := pLen c
  let x := beNat (slice bs 1 n)
  let sub (x y : Nat) : Except PtErr (Nat × Nat) :=
    if c.h > 1 && ecMul c c.n (some (x, y)) != none then .error .subgroup else .ok (x, y)
  if bs.length = 1 + 2 * n then
    let y := beNat (slice bs (1 + n) n)
    if byteAt bs 0 ≠ 0x04 then .error .format
    else if c.p ≤ x || c.p ≤ y then .error .coord
    else if !onCurve c x y then .error .offCurve else sub x y
  else if byteAt bs 0 ≠ 0x02 && byteAt bs 0 ≠ 0x03 then .error .format
  else if c.p ≤ x then .error .coord
  else
    match sqrtMod ((x * x * x + c.a * x + c.b) % c.p) c.p with
    | none => .error .offCurve
    | some r => sub x (if r % 2 = (byteAt bs 0).toNat % 2 then r else (c.p - r) % c.p)

/-- The integer of the leftmost log2 n bits of a digest (06 R192). -/
def ecHashInt (c : Curve) (digest : Bytes) : Nat :=
  let bits := Nat.log2 c.n + 1
  beNat digest / 2 ^ (8 * digest.length - bits)

/-- The blinding values of an ECDSA signature: of k and of the share of d (06 R202). -/
structure EcBlind where
  b  : Nat
  d1 : Nat
  deriving DecidableEq, Repr

/-- An ECDSA signature with nonce k and its point k × G; k is inverted as b × (k × b)⁻¹, and d is held as two shares. None when r or s
is 0 (06 R192, R202). -/
def ecdsaSig (c : Curve) (priv e k : Nat) (point : Pt) (m : EcBlind) : Option (Nat × Nat) :=
  match point with
  | none => none
  | some (x, _) =>
    let r := x % c.n
    let kinv := m.b * inv0 (k * m.b) c.n % c.n
    let rd := (r * m.d1 + r * subMod priv m.d1 c.n) % c.n
    let s := kinv * (e + rd) % c.n
    if r = 0 || s = 0 then none else some (r, s)

/-- A candidate nonce of the deterministic procedure, with the key and value that go on from it; `fuel` bounds the candidates out of
range, which are no draws of their own (06 R192; log 165). -/
def detNonce (h : Bytes → Bytes) (blk hl : Nat) (c : Curve) : Nat → Bytes → Bytes → Nat × Bytes × Bytes
  | 0, k, v => (1, k, v)
  | f + 1, k, v =>
    let qlen := Nat.log2 c.n + 1
    let vs := (List.range (cdiv qlen (8 * hl))).foldl (fun (acc : Bytes × Bytes) _ =>
      let w := hmac h blk k acc.1
      (w, acc.2 ++ w)) (v, [])
    let x := beNat vs.2 / 2 ^ (8 * vs.2.length - qlen)
    if 0 < x && x < c.n then (x, k, vs.1)
    else
      let k1 := hmac h blk k (vs.1 ++ [0])
      detNonce h blk hl c f k1 (hmac h blk k1 vs.1)
/-- The start of the procedure: its key and value from the private scalar and the digest's integer. -/
def detStart (h : Bytes → Bytes) (blk hl : Nat) (c : Curve) (priv e : Nat) : Bytes × Bytes :=
  let seed := beBytes (nLen c) priv ++ beBytes (nLen c) (e % c.n)
  let v0 := List.replicate hl (1 : Byte)
  let k1 := hmac h blk (zeros hl) (v0 ++ [0] ++ seed)
  let v1 := hmac h blk k1 v0
  let k2 := hmac h blk k1 (v1 ++ [1] ++ seed)
  (k2, hmac h blk k2 v1)

/-- ECDSA verification (06 R192). -/
def ecdsaOk (c : Curve) (q : Nat × Nat) (e r s : Nat) : Bool :=
  if r = 0 || c.n ≤ r || s = 0 || c.n ≤ s then false
  else
    let w := inv0 s c.n
    match ecAdd c (ecMul c (e * w % c.n) (ecG c)) (ecMul c (r * w % c.n) (some q)) with
    | none => false
    | some (x, _) => x % c.n == r

/-! ## X25519 and X448 (06 R194) -/

/-- The Montgomery ladder of RFC 7748: bits of the scalar from the top. -/
def ladderGo (p a24 u : Nat) (k : Nat) : Nat → Nat → Nat → Nat → Nat → Nat × Nat
  | 0, x2, z2, _, _ => (x2, z2)
  | t + 1, x2, z2, x3, z3 =>
    let bit := k / 2 ^ t % 2
    let (x2, z2, x3, z3) := if bit = 1 then (x3, z3, x2, z2) else (x2, z2, x3, z3)
    let a := (x2 + z2) % p
    let aa := a * a % p
    let b := subMod x2 z2 p
    let bb := b * b % p
    let e := subMod aa bb p
    let da := subMod x3 z3 p * a % p
    let cb := (x3 + z3) * b % p
    let x3' := (da + cb) * (da + cb) % p
    let y := subMod da cb p
    let z3' := u * (y * y % p) % p
    let x2' := aa * bb % p
    let z2' := e * ((aa + a24 * e) % p) % p
    let (x2', z2', x3', z3') := if bit = 1 then (x3', z3', x2', z2') else (x2', z2', x3', z3')
    ladderGo p a24 u k t x2' z2' x3' z3'

def p25519 : Nat := 2 ^ 255 - 19
def p448 : Nat := 2 ^ 448 - 2 ^ 224 - 1

/-- The clamped scalar of RFC 7748. -/
def clampX (big : Bool) (k : Bytes) : Nat :=
  let n := leNat k
  if big then n % 2 ^ 447 / 4 * 4 + 2 ^ 447 else n % 2 ^ 254 / 8 * 8 + 2 ^ 254
/-- X25519 or X448 of a scalar and a u string. -/
def xDh (big : Bool) (k u : Bytes) : Bytes :=
  if big then
    let (x, z) := ladderGo p448 39081 (leNat u % p448) (clampX true k) 448 1 0 (leNat u % p448) 1
    leBytes 56 (x * inv0 z p448 % p448)
  else
    let v := leNat u % 2 ^ 255 % p25519
    let (x, z) := ladderGo p25519 121665 v (clampX false k) 255 1 0 v 1
    leBytes 32 (x * inv0 z p25519 % p25519)
/-- The base u string. -/
def xBase (big : Bool) : Bytes := if big then leBytes 56 5 else leBytes 32 9

/-! ## Ed25519 and Ed448 (06 R195) -/

/-- A twisted Edwards curve ax² + y² = 1 + dx²y². -/
structure EdCurve where
  p : Nat
  a : Nat
  d : Nat
  bx : Nat
  yb : Nat
  l : Nat
  len : Nat
  cof : Nat
  deriving DecidableEq, Repr

/-- Ed25519 (RFC 8032; log 22). -/
def ed25519 : EdCurve :=
  { p := p25519
    a := p25519 - 1
    d := 0x52036CEE2B6FFE738CC740797779E89800700A4D4141D8AB75EB4DCA135978A3
    bx := 0x216936D3CD6E53FEC0A4E231FDD6DC5C692CC7609525A7B2C9562D608F25D51A
    yb := 0x6666666666666666666666666666666666666666666666666666666666666658
    l := 0x1000000000000000000000000000000014DEF9DEA2F79CD65812631A5CF5D3ED
    len := 32, cof := 8 }

/-- Ed448 (RFC 8032; log 22). -/
def ed448 : EdCurve :=
  { p := p448
    a := 1
    d := 0xFFFFFFFFFFFFFFFFFFFFFFFFFFFFFFFFFFFFFFFFFFFFFFFFFFFFFFFEFFFFFFFFFFFFFFFFFFFFFFFFFFFFFFFFFFFFFFFFFFFFFFFFFFFF6756
    bx := 0x4F1970C66BED0DED221D15A622BF36DA9E146570470F1767EA6DE324A3D3A46412AE1AF72AB66511433B80E18B00938E2626A82BC70CC05E
    yb := 0x693F46716EB6BC248876203756C9C7624BEA73736CA3984087789C1E05A0C2D73AD3FF1CE67C39C4FDBD132C4ED7C8AD9808795BF230FA14
    l := 0x3FFFFFFFFFFFFFFFFFFFFFFFFFFFFFFFFFFFFFFFFFFFFFFFFFFFFFFF7CCA23E9C44EDB49AED63690216CC2728DC58F552378C292AB5844F3
    len := 57, cof := 4 }

/-- Edwards addition. -/
def edAdd (c : EdCurve) (q r : Nat × Nat) : Nat × Nat :=
  let (x1, y1) := q
  let (x2, y2) := r
  let t := c.d * (x1 * x2 % c.p * (y1 * y2 % c.p) % c.p) % c.p
  ((x1 * y2 + y1 * x2) % c.p * inv0 (1 + t) c.p % c.p,
   subMod (y1 * y2) (c.a * (x1 * x2 % c.p)) c.p * inv0 (subMod 1 t c.p) c.p % c.p)
/-- k times a point; `fuel` bounds the bits of k. -/
def edMulGo (c : EdCurve) : Nat → Nat → Nat × Nat → Nat × Nat → Nat × Nat
  | 0, _, _, acc => acc
  | f + 1, k, q, acc => if k = 0 then acc else edMulGo c f (k / 2) (edAdd c q q) (if k % 2 = 1 then edAdd c acc q else acc)
/-- k times a point. -/
def edMul (c : EdCurve) (k : Nat) (q : Nat × Nat) : Nat × Nat := edMulGo c (Nat.log2 k + 2) k q (0, 1)
/-- The base point. -/
def edB (c : EdCurve) : Nat × Nat := (c.bx, c.yb)
/-- The encoding of a point: y with the sign of x in the top bit. -/
def edBytes (c : EdCurve) (q : Nat × Nat) : Bytes := leBytes c.len (q.2 + q.1 % 2 * 2 ^ (8 * c.len - 1))
/-- Decode a point (RFC 8032). -/
def edDecode (c : EdCurve) (bs : Bytes) : Option (Nat × Nat) :=
  let v := leNat bs
  let top := 2 ^ (8 * c.len - 1)
  let y := v % top
  let sign := v / top % 2
  if c.p ≤ y || bs.length ≠ c.len then none
  else
    let y2 := y * y % c.p
    let x2 := subMod 1 y2 c.p * inv0 (subMod c.a (c.d * y2) c.p) c.p % c.p
    match sqrtMod x2 c.p with
    | none => none
    | some x => if x = 0 && sign = 1 then none else some (if x % 2 = sign then x else (c.p - x) % c.p, y)

/-- dom2 or dom4 of RFC 8032: none for pure Ed25519. -/
def edDom (big ph : Bool) (ctx : Bytes) : Bytes :=
  if big then ascii "SigEd448" ++ [if ph then 1 else 0, BitVec.ofNat 8 ctx.length] ++ ctx
  else if !ph && ctx.isEmpty then []
  else ascii "SigEd25519 no Ed25519 collisions" ++ [if ph then 1 else 0, BitVec.ofNat 8 ctx.length] ++ ctx
/-- The hash of a variant. -/
def edHash (big : Bool) (m : Bytes) : Bytes := if big then shake256 m 114 else sha512 m
/-- The secret scalar of a seed. -/
def edScalar (big : Bool) (seed : Bytes) : Nat :=
  let h := leNat ((edHash big seed).take (if big then 57 else 32))
  if big then h % 2 ^ 447 / 4 * 4 + 2 ^ 447 else h % 2 ^ 254 / 8 * 8 + 2 ^ 254
/-- The curve of a variant. -/
def edCurve (big : Bool) : EdCurve := if big then ed448 else ed25519
/-- The public key of a seed, its scalar blinded by `z` × L (06 R202). -/
def edPub (big : Bool) (seed : Bytes) (z : Nat) : Bytes :=
  let c := edCurve big
  edBytes c (edMul c (edScalar big seed + z * c.l) (edB c))
/-- An EdDSA signature; `m` is the message, or its prehash when `ph`; the nonce's scalar is blinded by `z` × L. -/
def edSign (big ph : Bool) (seed ctx m : Bytes) (z : Nat) : Bytes :=
  let c := edCurve big
  let dom := edDom big ph ctx
  let pre := (edHash big seed).drop (if big then 57 else 32)
  let r := leNat (edHash big (dom ++ pre ++ m)) % c.l
  let rs := edBytes c (edMul c (r + z * c.l) (edB c))
  let k := leNat (edHash big (dom ++ rs ++ edPub big seed z ++ m)) % c.l
  rs ++ leBytes c.len ((r + k * edScalar big seed) % c.l)
/-- EdDSA verification with the cofactored equation (06 R195). -/
def edVerify (big ph : Bool) (pk ctx m sig : Bytes) : Bool :=
  let c := edCurve big
  let s := leNat (sig.drop c.len)
  match edDecode c pk, edDecode c (sig.take c.len) with
  | some a, some r =>
    if c.l ≤ s then false
    else
      let k := leNat (edHash big (edDom big ph ctx ++ sig.take c.len ++ pk ++ m)) % c.l
      edMul c (c.cof * s) (edB c) == edAdd c (edMul c c.cof r) (edMul c (c.cof * k) a)
  | _, _ => false

/-! ## The groups of RFC 7919 (06 R201) -/

/-- ⌊2^s e⌋ from its series, `n` terms, with 64 guard bits. -/
def eFloor (s n : Nat) : Nat :=
  ((List.range n).foldl (fun (acc : Nat × Nat) i => (acc.1 + acc.2, acc.2 / (i + 1))) (0, 2 ^ (s + 64))).1 / 2 ^ 64
/-- Modulus length in bits and the constant X of a group, by its set 0x28-0x2C. -/
def ffBits (set : Nat) : Nat × Nat :=
  match set with
  | 0x28 => (2048, 560316) | 0x29 => (3072, 2625351) | 0x2A => (4096, 5736041) | 0x2B => (6144, 15705020)
  | _ => (8192, 10965728)
/-- p of a group. -/
def ffPrime (set : Nat) : Nat :=
  let (b, x) := ffBits set
  2 ^ b - 2 ^ (b - 64) + (eFloor (b - 130) 1200 + x) * 2 ^ 64 - 1
/-- Modulus length in bytes. -/
def ffLen (set : Nat) : Nat := (ffBits set).1 / 8
/-- Bits and bytes of a secret x (06 R185, R196). -/
def ffXbits (set : Nat) : Nat := match set with | 0x28 => 225 | 0x29 => 275 | 0x2A => 325 | 0x2B => 375 | _ => 400
def ffXlen (set : Nat) : Nat := cdiv (ffXbits set) 8

/-! ## RSA encodings of RFC 8017 (06 R199) -/

/-- The hash of an R99 identifier. -/
def phHash (id : Nat) (m : Bytes) : Bytes :=
  match id with
  | 1 => sha224 m | 2 => sha256 m | 3 => sha384 m | 4 => sha512 m | 5 => sha512t224 m | 6 => sha512t256 m
  | 7 => sha3 28 m | 8 => sha3 32 m | 9 => sha3 48 m | 10 => sha3 64 m | 11 => shake128 m 32 | _ => shake256 m 64

/-- Block length in bytes of the hash of an R99 identifier; of an XOF, its rate. -/
def phBlock (id : Nat) : Nat :=
  match id with
  | 1 | 2 => 64 | 3 | 4 | 5 | 6 => 128 | 7 => 144 | 8 => 136 | 9 => 104 | 10 => 72 | 11 => 168 | _ => 136

/-- MGF1 over a hash of `hl` bytes. -/
def mgf1 (id hl : Nat) (seed : Bytes) (n : Nat) : Bytes :=
  fit n (((List.range (cdiv n hl)).map fun i => phHash id (seed ++ beBytes 4 i)).flatten)

/-- EMSA-PKCS1-v1_5 of a digest; none when k is too short. -/
def v15Encode (oid digest : Bytes) (k : Nat) : Option Bytes :=
  let hl := digest.length
  let t : Bytes := [0x30, BitVec.ofNat 8 (hl + 17), 0x30, 0x0D] ++ oid ++ [0x05, 0x00, 0x04, BitVec.ofNat 8 hl] ++ digest
  if k < t.length + 11 then none
  else some ([0x00, 0x01] ++ List.replicate (k - t.length - 3) 0xFF ++ [0x00] ++ t)

/-- Clear the bits of an encoded message's first byte above `emBits`. -/
def pssTop (emBits : Nat) (bs : Bytes) : Bytes :=
  match bs with
  | [] => []
  | x :: rest => BitVec.ofNat 8 (x.toNat % 2 ^ (emBits - 8 * rest.length)) :: rest

/-- EMSA-PSS encoding to `emBits` bits; none when they are too few. -/
def pssEncode (id : Nat) (digest salt : Bytes) (emBits : Nat) : Option Bytes :=
  let hl := digest.length
  let k := cdiv emBits 8
  if k < hl + salt.length + 2 then none
  else
    let h := phHash id (zeros 8 ++ digest ++ salt)
    let db := zeros (k - salt.length - hl - 2) ++ [0x01] ++ salt
    let n := k - hl - 1
    some ((pssTop (emBits - 8 * (hl + 1)) (xorBytes db (mgf1 id hl h n))) ++ h ++ [0xBC])

/-- EMSA-PSS verification of an encoded message of `emBits` bits. -/
def pssOk (id : Nat) (digest em : Bytes) (sl emBits : Nat) : Bool :=
  let hl := digest.length
  let k := em.length
  if k < hl + sl + 2 || byteAt em (k - 1) ≠ 0xBC || decide (2 ^ emBits ≤ beNat em) then false
  else
    let n := k - hl - 1
    let h := slice em n hl
    let db := pssTop (emBits - 8 * (hl + 1)) (xorBytes (em.take n) (mgf1 id hl h n))
    let z := k - sl - hl - 2
    allZero (db.take z) && byteAt db z == 0x01 && phHash id (zeros 8 ++ digest ++ db.drop (z + 1)) == h

/-- EME-OAEP encoding; none when the message is too long. -/
def oaepEncode (id hl : Nat) (label msg seed : Bytes) (k : Nat) : Option Bytes :=
  if k < msg.length + 2 * hl + 2 then none
  else
    let db := phHash id label ++ zeros (k - msg.length - 2 * hl - 2) ++ [0x01] ++ msg
    let mdb := xorBytes db (mgf1 id hl seed (k - hl - 1))
    some (0x00 :: xorBytes seed (mgf1 id hl mdb hl) ++ mdb)

/-- EME-OAEP decoding: the message, or none for every failure. -/
def oaepDecode (id hl : Nat) (label em : Bytes) : Option Bytes :=
  let k := em.length
  if k < 2 * hl + 2 then none
  else
    let mseed := slice em 1 hl
    let mdb := em.drop (1 + hl)
    let seed := xorBytes mseed (mgf1 id hl mdb hl)
    let db := xorBytes mdb (mgf1 id hl seed (k - hl - 1))
    let rest := (db.drop hl).dropWhile (· == 0)
    if byteAt em 0 == 0 && db.take hl == phHash id label && byteAt rest 0 == 0x01 && !rest.isEmpty then some (rest.drop 1)
    else none

end Sys2Proof.Machine
end

