-- ==== Sys2Proof/Machine/SpecPk.lean ====
section
/-!
DEFINITION. The entry checks of the classical classes 0x5 and 0x6 (06 R183-R187, R198, R204, R208).
-/
namespace Sys2Proof.Machine

/-! ## Sets (06 R183) -/

def isWeier (set : Nat) : Bool := set == 1 || set == 2 || set == 3 || set == 8
def isXcurve (set : Nat) : Bool := set == 0x10 || set == 0x11
def isEdwards (set : Nat) : Bool := set == 0x12 || set == 0x13
def isRsa (set : Nat) : Bool := set == 0x20
def isFfdh (set : Nat) : Bool := decide (0x28 ≤ set) && decide (set ≤ 0x2C)

/-- The operations that a set offers (06 R184). -/
def pkOpOk (set op : Nat) : Bool :=
  let any := isWeier set || isXcurve set || isEdwards set || isRsa set || isFfdh set
  match op with
  | 0x01 | 0x08 | 0x0B => any
  | 0x02 | 0x05 => isWeier set || isEdwards set || isRsa set
  | 0x03 | 0x06 | 0x0D | 0x0E | 0x0F | 0x10 => isRsa set
  | 0x09 | 0x0A => isWeier set || isXcurve set || isFfdh set
  | 0x0C => set == 8
  | _ => false

/-- The curve of a parameter block: header, p, a, b, Gx, Gy, n (06 R197). -/
def blockCurve (bs : Bytes) : Curve :=
  let n := (bs.length - 8) / 6
  let f (i : Nat) : Nat := beNat (slice bs (8 + n * i) n)
  { pbits := (u16At bs 0).toNat, p := f 0, a := f 1, b := f 2, gx := f 3, gy := f 4, n := f 5, h := (byteAt bs 2).toNat }

/-- The curve of a set; a loaded one from its parameter object. -/
def curveOf (d : Dev) (o set : Nat) (param : U32) : Curve :=
  if set = 1 then p256 else if set = 2 then p384 else if set = 3 then p521
  else match resolveHandle d o param with | some k => blockCurve k.pub | none => {}

/-- The parameter handle of an entry: KEY0's own, or KEY1 where no key object supplies the curve (06 R186). A blob carries no parameter
handle: DESIGN CHOICE, its object names none, and a loaded-curve job on it computes on an empty curve (log 170). -/
def paramOf (d : Dev) (o : Nat) (e : Sqe) : U32 :=
  match (if e.key0 = noHandle then none else resolveHandle d o e.key0) with
  | some k => k.param
  | none => e.key1

/-- RSA modulus bytes of a MODK code (06 R187). -/
def modkLen (c : Nat) : Nat := match c with | 1 => 128 | 2 => 256 | 3 => 384 | 4 => 512 | 5 => 768 | 6 => 1024 | _ => 0
/-- Whether a length is a modulus length in bytes. -/
def isModLen (k : Nat) : Bool := k == 128 || k == 256 || k == 384 || k == 512 || k == 768 || k == 1024
/-- Modulus bytes of an RSA object: its public part is e ‖ n. -/
def rsaLenOf (k : KObj) : Nat := k.pub.length - 4
/-- Modulus bytes of an RSA job. -/
def rsaLen (e : Sqe) (k : Option KObj) : Nat := match k with | some x => rsaLenOf x | none => modkLen (pbits e 24 3)

/-- The accepted lengths of a public key as input, the output form first (06 R185). -/
def pkLens (c : Curve) (set k : Nat) : List Nat :=
  if isWeier set then [1 + 2 * pLen c, 1 + pLen c]
  else if set = 0x10 || set = 0x12 then [32] else if set = 0x11 then [56] else if set = 0x13 then [57]
  else if isRsa set then [4 + k] else [ffLen set]
/-- Output length of a public key. -/
def pkLen (c : Curve) (set k : Nat) : Nat := (pkLens c set k).headD 0
/-- Signature length (06 R185). -/
def sigLen (c : Curve) (set k : Nat) : Nat :=
  if isWeier set then 2 * nLen c else if set = 0x12 then 64 else if set = 0x13 then 114 else k
/-- Shared-secret length (06 R185). -/
def dhLen (c : Curve) (set : Nat) : Nat := if isWeier set then pLen c else if set = 0x10 then 32 else if set = 0x11 then 56 else ffLen set
/-- Secret-part length of a key that is not RSA (06 R185; EdDSA: log 30). -/
def pkSecLen (c : Curve) (set : Nat) : Nat :=
  if isWeier set then nLen c else if set = 0x10 then 32 else if set = 0x11 then 56 else if set = 0x12 then 64
  else if set = 0x13 then 114 else ffXlen set

/-- hLen of a HASH identifier. -/
def hashLenOf (id : Nat) : Nat := (phLen id).getD 0
/-- HASH as a set takes it: ECDSA 0x01-0x0C, RSA 0x01-0x0A, none for EdDSA (06 R187). -/
def pkHashOk (set id : Nat) : Bool :=
  if isWeier set then decide (1 ≤ id) && decide (id ≤ 0x0C) else if isRsa set then decide (1 ≤ id) && decide (id ≤ 0x0A) else id == 0

def pkHash (e : Sqe) : Nat := pbits e 8 8
def pkLen8 (e : Sqe) : Nat := pbits e 16 8
def pkPh (e : Sqe) : Bool := pbit e 1

/-- PARAM of the operations of 06 R187 that follow its table. `inKey`: the public key is in IN or AUX. -/
def pkParamOk (e : Sqe) (set op : Nat) (inKey : Bool) : Bool :=
  let id := pkHash e
  let modk := if isRsa set && inKey then isModLen (modkLen (pbits e 24 3)) else pbits e 24 3 == 0
  let rsv := pbits e 2 6 == 0 && pbits e 27 5 == 0
  let det := !pbit e 0 || (op == 2 && isWeier set)
  let sign := op == 2 || op == 3 || op == 5 || op == 6
  let ph := !pbit e 1 || sign
  let hash := if sign then pkHashOk set id else if op == 0x0D || op == 0x0E then pkHashOk 0x20 id else id == 0
  let len8 :=
    if sign && isEdwards set then true
    else if isRsa set && (op == 2 || op == 5) then decide (pkLen8 e ≤ hashLenOf id) else pkLen8 e == 0
  rsv && det && ph && hash && len8 && modk

/-- A key of a set, with the policy bit that private objects need, and that all need when `always`; never a parameter
object (06 R186, 12 R369). -/
def pkKeyBad (ty : U16) (priv : Bool) (pol : Option Nat) (always : Bool) (k : KObj) : Option U16 :=
  if k.type ≠ ty || k.isParam then some 0
  else if priv && !isPrivate k then some 0
  else
    match pol with
    | some b => if (isPrivate k || always) && !k.policy.getLsbD b then some 0 else none
    | none => none
/-- A parameter object (06 R198). -/
def paramBad (k : KObj) : Option U16 := if k.isParam then none else some 0
/-- A peer's public object (06 R186). The spec does not say what a peer key of another loaded curve does: DESIGN CHOICE, its octets are
decoded on KEY0's curve and judged there (log 171). -/
def peerBad (ty : U16) (k : KObj) : Option U16 := if k.type ≠ ty || k.isParam || isPrivate k then some 0 else none

/-- Length of the digest that IN holds when PH = 1. -/
def phDigest (e : Sqe) (set : Nat) : Nat := if isEdwards set then 64 else hashLenOf (pkHash e)
/-- IN of a signing or verifying job: any message, or the exact digest (06 R186). -/
def pkInBad (e : Sqe) (set : Nat) : Bool := pkPh e && e.inLen.toNat ≠ phDigest e set

/-- Class 0x5 (06 R184-R187). -/
def pkSpec (d : Dev) (o : Nat) (e : Sqe) : Option OpSpec :=
  let set := opSet e.opcode
  let op := opOp e.opcode
  if !pkOpOk set op then none
  else
    let ty := opType e.opcode
    let c := curveOf d o set (paramOf d o e)
    let inKey := e.key0 == noHandle
    let loaded := set == 8
    let low := pbits e 0 16 == 0
    let ctx := if isEdwards set then pkLen8 e else 0
    let signKey : KeyUse := .need true (pkKeyBad ty true (some polSign) false)
    let verKey : KeyUse := .opt false (pkKeyBad ty false (some polVerify) false)
    let paramKey : KeyUse := if loaded then .need false paramBad else .none
    let verLen : Option KObj → Nat → Option U16 := fun k a =>
      let n := rsaLen e k
      let rest := sigLen c set n + ctx
      if pkInBad e set then some 1
      else if (if k.isSome then a = rest else (pkLens c set n).any fun p => a == p + rest) then none else some 3
    let dhKey : KeyUse := .need true (pkKeyBad ty true (some polDerive) false)
    let dhLens (out : Nat) : Option KObj → Nat → Option U16 := fun _ a =>
      if (if e.key1 = noHandle then !(pkLens c set 0).contains e.inLen.toNat else e.inLen.toNat ≠ 0) then some 1
      else if e.outCap.toNat < out then some 2 else if a ≠ 0 then some 3 else none
    let rawKey (pol : Option Nat) : KeyUse := .need true (pkKeyBad ty true pol false)
    match op with
    | 0x01 => some {
        kind := .me, jrn := pbit e 0, persist := pbit e 0, needDus := pbit e 0, blobOk := false
        paramOk := e.key0 == noHandle && pbits e 1 15 == 0 && policyOk (pPolicy e), key1 := paramKey
        len := fun _ a => if isRsa set then lenExact e 0 0 8 a else lenExact e 0 (pkLen c set 0) 0 a
        gran := if isRsa set then 0 else granPriv (pkSecLen c set) (pkLen c set 0)
        blocks := if isRsa set then 0 else persistBlocks (pkSecLen c set) (pkLen c set 0), rnd := true }
    | 0x02 | 0x03 => some {
        kind := .me, paramOk := pkParamOk e set op false, key0 := signKey
        len := fun k a =>
          if pkInBad e set then some 1 else if e.outCap.toNat < sigLen c set (rsaLen e k) then some 2
          else if a ≠ ctx then some 3 else none, rnd := true }
    | 0x05 | 0x06 => some {
        kind := .me, paramOk := pkParamOk e set op inKey, key0 := verKey
        key1 := if loaded && inKey then .need false paramBad else .none, len := verLen }
    | 0x08 => some {
        kind := .me, paramOk := e.param == 0, key0 := .need false (pkKeyBad ty false none false)
        len := fun k a => lenExact e 0 (match k with | some x => x.pub.length | none => 0) 0 a }
    | 0x09 => some {
        kind := .me, paramOk := pkParamOk e set op false, key0 := dhKey, key1 := .opt false (peerBad ty)
        len := dhLens (dhLen c set), rnd := true }
    | 0x0A => some {
        kind := .me, paramOk := low && policyOk (pPolicy e), key0 := dhKey, key1 := .opt false (peerBad ty)
        len := dhLens 0, gran := granPriv (dhLen c set) 0, rnd := true }
    | 0x0B => some {
        kind := .me, paramOk := e.key0 == noHandle && low && policyOk (pPolicy e), key1 := paramKey, blobOk := false
        len := fun _ a =>
          if (if isRsa set then !(decide (4 ≤ e.inLen.toNat) && isModLen (e.inLen.toNat - 4))
              else !(pkLens c set 0).contains e.inLen.toNat) then some 1
          else if a ≠ 0 then some 3 else none
        gran := granPub (if isRsa set then e.inLen.toNat else pkLen c set 0) }
    | 0x0C => some {
        kind := .me, paramOk := e.key0 == noHandle && e.key1 == noHandle && e.param == 0, blobOk := false
        len := fun _ a =>
          if e.inLen ≠ 0 then some 1
          else if a ≤ 8 || (a - 8) % 6 ≠ 0 || 488 < a then some 3 else none
        gran := cdiv (e.auxLen.toNat - 8 + 64) 512 + 8, rnd := true }
    | 0x0D => some {
        kind := .me, paramOk := pkParamOk e set op inKey, key0 := .opt false (pkKeyBad ty false (some polCipher) true)
        len := fun k a =>
          let n := rsaLen e k
          let h := hashLenOf (pkHash e)
          if n < 2 * h + 2 || n - 2 * h - 2 < e.inLen.toNat then some 1
          else if e.outCap.toNat < n then some 2 else if k.isNone && a < 4 + n then some 3 else none, rnd := true }
    | 0x0E => some {
        kind := .me, paramOk := pkParamOk e set op false, key0 := rawKey (some polCipher)
        len := fun k _ =>
          let n := rsaLen e k
          if e.inLen.toNat ≠ n then some 1
          else if e.outCap.toNat < n - 2 * hashLenOf (pkHash e) - 2 then some 2 else none, rnd := true }
    | 0x0F => some {
        kind := .me, paramOk := pkParamOk e set op false, key0 := rawKey (some polRaw)
        len := fun k a => lenExact e (rsaLen e k) (rsaLen e k) 0 a, rnd := true }
    | _ => some {
        kind := .me, paramOk := pkParamOk e set op inKey, key0 := .opt false (pkKeyBad ty false none false)
        len := fun k a => lenExact e (rsaLen e k) (rsaLen e k) (if k.isSome then 0 else 4 + rsaLen e k) a }

/-- Class 0x6 (06 R204, R208): KEY0 must permit modular programs. -/
def modSpec (e : Sqe) : Option OpSpec :=
  if e.opcode.toNat ≠ 0x6001 then none
  else
    some { kind := .me, paramOk := e.key1 == noHandle && e.param == 0
           key0 := .opt true fun k => if k.policy.getLsbD polProgram then none else some 0
           len := fun _ a =>
             if 1048576 < e.inLen.toNat then some 1
             else if a < 16 || (a - 16) % 8 ≠ 0 then some 3 else none }

end Sys2Proof.Machine
end

