-- ==== Sys2Proof/Machine/SpecKey.lean ====
section
/-!
DEFINITION. The entry checks of classes 0x8, 0x9, 0xA, 0xB and 0xD (12 R383, R384, R387, R390; 11 R356-R361; 07 R262).
-/
namespace Sys2Proof.Machine

/-! ## Class 0x8 (12 R387) -/

/-- Key type of a class 0x8 set. -/
def symType (set : Nat) : U16 := BitVec.ofNat 16 (0x8000 + set * 64)
/-- TAGLEN of a GCM job; 0 means 16. -/
def tagLen (e : Sqe) : Nat := if pbits e 8 5 = 0 then 16 else pbits e 8 5

/-- Class 0x8. -/
def symSpec (e : Sqe) : Option OpSpec :=
  let set := opSet e.opcode
  let op := opOp e.opcode
  let aes := set == 1 || set == 2
  let cha := set == 3
  let n := e.inLen.toNat
  let bad := pkKeyBad (symType set) true (some polCipher) false
  let key : KeyUse := .need true bad
  let noKey1 := e.key1 == noHandle
  let tl := tagLen e
  let gcmParam (genIv : Bool) : Bool :=
    (genIv || !pbit e 0) && pbits e 1 7 == 0 && pbits e 13 19 == 0 && (pbits e 8 5 == 0 || (decide (12 ≤ tl) && decide (tl ≤ 16)))
  let base : OpSpec := { kind := .sy, key0 := key, paramOk := noKey1 && e.param == 0 }
  let iv := if op = 1 && pbit e 0 then 0 else 12
  let out (m a : Nat) : Option U16 := if e.outCap.toNat < m then some 2 else if a < iv then some 3 else none
  match op with
  | 0x01 => if !aes then none else some { base with
      paramOk := noKey1 && gcmParam true, rnd := pbit e 0, len := fun _ a => out (12 - iv + n + tl) a }
  | 0x02 => if !aes then none else some { base with
      paramOk := noKey1 && gcmParam false, len := fun _ a => if n < tl then some 1 else out (n - tl) a }
  | 0x03 => if !aes then none else some { base with len := fun _ a => lenExact e n n 16 a }
  | 0x04 | 0x05 => if !aes then none else some { base with
      paramOk := !noKey1 && e.key1 != e.key0 && e.param == 0, key1 := key
      len := fun _ a => if n < 16 || 16777216 < n then some 1 else lenExact e n n 16 a }
  | 0x06 => if !aes then none else some { base with
      len := fun _ a => if n < 16 || 65536 < n || n % 8 ≠ 0 then some 1 else lenExact e n (n + 8) 0 a }
  | 0x07 => if !aes then none else some { base with
      len := fun _ a => if n < 16 || 65536 < n || n % 8 ≠ 0 then some 1 else lenExact e n (n - 8) 0 a }
  | 0x08 => if !aes then none else some { base with
      len := fun _ a => if n < 1 || 65536 < n then some 1 else lenExact e n (cdiv n 8 * 8 + 8) 0 a }
  | 0x09 => if !aes then none else some { base with
      len := fun _ a => if n < 1 || 65536 < n then some 1 else lenExact e n (n - 8) 0 a }
  | 0x0A => if !cha then none else some { base with len := fun _ a => out (n + 16) a }
  | 0x0B => if !cha then none else some { base with len := fun _ a => if n < 16 then some 1 else out (n - 16) a }
  | _ => none

/-! ## Class 0x9 (11 R356-R361) -/

/-- Whether RAW may run (11 R356, 14 R421): in MAKER, or in RETURNED with the RNGRAW scope. -/
def rawOpen (d : Dev) : Bool :=
  d.glob.lcCode == 1 || (d.glob.lcCode == 4 && (match d.lc.grant with | some g => g.scope.getLsbD 5 | none => false))

/-- A Flint source by number. -/
def getSrc (d : Dev) (i : Nat) : Src := if h : i < 4 then d.rng.srcs[i] else {}
/-- The number of HEALTHY sources. -/
def healthySrcs (d : Dev) : List Nat := (List.range 4).filter fun i => (getSrc d i).state == .healthy

/-- Whether RAW of a source is refused with 0x0902: the only HEALTHY source, or one in RECAL (11 R361). -/
def rawBad (d : Dev) (i : Nat) : Bool := healthySrcs d == [i] || (getSrc d i).state == .recal

/-- Class 0x9. -/
def rngSpec (d : Dev) (o : Nat) (e : Sqe) : Option OpSpec :=
  if opSet e.opcode ≠ 0 then none
  else
    let noKeys := e.key0 == noHandle && e.key1 == noHandle
    let base : OpSpec := { kind := .rng, blobOk := false, paramDetail := if noKeys then 0x0901 else 0 }
    match opOp e.opcode with
    | 1 => some { base with
        paramOk := noKeys && pbits e 0 24 != 0 && pbits e 24 7 == 0, rnd := true
        len := fun _ a =>
          if e.inLen ≠ 0 then some 1 else if e.outCap.toNat < pbits e 0 24 then some 2 else if 32 < a then some 3 else none }
    | 2 => some { base with paramOk := noKeys && e.param == 0, len := fun _ a => lenExact e 128 32 0 a }
    | 3 => some { base with
        permitted := o == 0
        paramOk := noKeys && decide (16 ≤ pbits e 0 10) && decide (pbits e 0 10 ≤ 512) && pbits e 0 10 % 16 == 0
          && pbits e 10 6 == 0 && pbits e 18 14 == 0
        len := fun _ a => lenExact e 208 (pbits e 0 10) 0 a }
    | 4 => some { base with
        permitted := o == 0 && rawOpen d
        paramOk := noKeys && pbits e 3 29 == 0 && decide (1 ≤ e.outCap.toNat) && decide (e.outCap.toNat ≤ 16777215)
        keysBad := fun _ _ => if rawBad d (pbits e 0 2) then some (stParamInvalid, 0x0902) else none
        len := fun _ a => lenExact e 0 0 0 a }
    | _ => none

/-! ## Class 0xA (12 R383, R384) -/

/-- Length of a secret-key object of a set field, or 0 (12 R367). -/
def secretLen (set len8 : Nat) : Nat :=
  match set with | 1 => 16 | 2 => 32 | 3 => 32 | 4 => 8 * len8 | 5 => 8 * len8 | _ => 0
/-- Whether LEN8 suits a set. -/
def len8Ok (set len8 : Nat) : Bool := if set == 4 || set == 5 then len8 != 0 else len8 == 0
/-- A secret-key object (12 R367). -/
def isSecretKey (k : KObj) : Bool := opClass k.type == 8
/-- A key of any type with a secret or public part and a policy bit. -/
def anyKeyBad (pol : Nat) (k : KObj) : Option U16 := if k.isParam || !k.policy.getLsbD pol then some 0 else none
/-- A secret key with a policy bit. -/
def secKeyBad (pol : Nat) (k : KObj) : Option U16 := if isSecretKey k && k.policy.getLsbD pol then none else some 0
/-- An AES key-encryption key with WRAP. -/
def kekBad (k : KObj) : Option U16 :=
  if (k.type == 0x8040 || k.type == 0x8080) && k.policy.getLsbD polWrap then none else some 0
/-- An ML-KEM private key with WRAP (12 R381). -/
def kemKekBad (k : KObj) : Option U16 :=
  if (k.type == 0x1040 || k.type == 0x1080 || k.type == 0x10C0) && isPrivate k && k.policy.getLsbD polWrap then none else some 0
/-- Ciphertext length of an ML-KEM type. -/
def kemTypeCt (t : U16) : Nat := match latSet (opClass t) (opSet t) with | some z => z.ct | none => 0

/-- Length of the KW_EXPORT plaintext of an object: private-key encoding, then public-key encoding (12 R380). -/
def kwLen (k : KObj) : Nat :=
  let set := opSet k.type
  match opClass k.type with
  | 0x1 => match latSet 1 set with | some z => z.sk + z.pk | none => 0
  | 0x4 => k.shareA.length + (if isHqc' set then 2 * k.pub.length else k.pub.length)
  | 0x5 => if set = 0x12 then 64 else if set = 0x13 then 114 else k.shareA.length + k.pub.length
  | _ => k.shareA.length + k.pub.length
where
  /-- Whether a class 0x4 set is HQC. -/
  isHqc' (set : Nat) : Bool := decide (0x10 ≤ set)
/-- Length of KWP output. -/
def kwpLen (n : Nat) : Nat := cdiv n 8 * 8 + 8

/-- Class 0xA. -/
def keySpec (d : Dev) (o : Nat) (e : Sqe) : Option OpSpec :=
  if opSet e.opcode ≠ 0 then none
  else
    let no0 := e.key0 == noHandle
    let no1 := e.key1 == noHandle
    let pol := policyOk (pPolicy e)
    let set := pbits e 8 6
    let len8 := pbits e 1 7
    let slen := secretLen set len8
    let persist := pbit e 0
    let dom := pbits e 8 2
    let obj := if no0 then none else resolveHandle d o e.key0
    let kept := match obj with | some k => k.persist || k.stateful | none => false
    let base : OpSpec := { kind := .ks, blobOk := false }
    let create : OpSpec := { base with jrn := persist, persist := persist, needDus := persist, rnd := true }
    let empty (out : Option KObj → Nat) : Option KObj → Nat → Option U16 := fun k a => lenExact e 0 (out k) 0 a
    match opOp e.opcode with
    | 0x01 => some { create with
        paramOk := no0 && no1 && pol && decide (1 ≤ set) && decide (set ≤ 5) && len8Ok set len8 && pbits e 14 2 == 0
        len := empty fun _ => 0, gran := granPriv slen 0, blocks := persistBlocks slen 0 }
    | 0x02 => some { create with
        paramOk := no1 && pol && decide (1 ≤ set) && decide (set ≤ 5) && len8Ok set len8 && pbits e 14 2 != 3
        key0 := .need true (secKeyBad polDerive)
        len := fun _ a => if e.inLen ≠ 0 then some 1 else if a < 2 || 1024 < a then some 3 else none
        gran := granPriv slen 0, blocks := persistBlocks slen 0 }
    | 0x03 => some { base with
        kind := .sy
        paramOk := pbits e 0 8 == 0 && pbits e 10 22 == 0 && dom != 3 && (dom == 2 || no1)
        key0 := .need true (fun k => if k.stateful || (dom = 1 && o ≠ 0) then some 0 else anyKeyBad polExport k)
        key1 := if dom = 2 then .need true (secKeyBad polWrap) else .none
        len := empty fun k => match k with | some x => 80 + x.shareA.length + x.pub.length | none => 0
        rnd := true, needDus := dom != 2 }
    | 0x04 => some { create with
        kind := .sy, paramOk := no0 && pbits e 1 31 == 0, key1 := .opt true (secKeyBad polWrap), needDus := persist
        len := fun _ a => if e.inLen.toNat < 80 then some 1 else if a ≠ 0 then some 3 else none }
    | 0x05 => some { base with
        kind := .sy, paramOk := !no1 && e.param == 0
        keysBad := fun k _ => match k with | some x => if x.stateful then some (stParamInvalid, 0) else none | none => none
        key0 := .need true fun k => if !isPrivate k then some 0 else anyKeyBad polExport k
        key1 := .need true kekBad
        len := empty fun k => match k with | some x => kwpLen (kwLen x) | none => 0 }
    | 0x06 => some { create with
        kind := .sy, paramOk := no0 && pbits e 1 31 == 0, key1 := .need true kekBad
        len := fun _ a => if e.inLen.toNat < 16 then some 1 else if a ≠ 8 then some 3 else none }
    | 0x07 => some { create with
        kind := .py, maxOrder := some 3, permitted := (getOwn d o).sh.sy != 0
        paramOk := no0 && pbits e 1 31 == 0, key1 := .need true kemKekBad
        len := fun _ a =>
          if e.inLen.toNat < 16 + (match resolveHandle d o e.key1 with | some k => kemTypeCt k.type | none => 0) then some 1
          else if a ≠ 8 then some 3 else none }
    | 0x08 => some { base with
        jrn := kept, paramOk := no1 && pbits e 0 16 == 0 && pol
        key0 := .need false fun k => if k.isParam then some 0 else none
        keysBad := fun k _ => match k with
          | some x => if pPolicy e &&& ~~~ x.policy != 0 then some (stParamInvalid, 0) else none
          | none => none
        len := empty fun _ => 0 }
    | 0x09 => some { base with
        jrn := kept, paramOk := no1 && e.param == 0, key0 := .need false (fun _ => none), brokenOk := true, len := empty fun _ => 0 }
    | 0x0A => some { base with
        paramOk := no1 && e.param == 0, key0 := .need false (fun _ => none), brokenOk := true, len := empty fun _ => 32 }
    | 0x0B => some { base with
        paramOk := no1 && e.param == 0, key0 := .need true (secKeyBad polPlain)
        len := empty fun k => match k with | some x => x.shareA.length | none => 0 }
    | 0x0C => some { base with
        paramOk := no0 && no1 && pbits e 0 16 == 0 && pbits e 17 7 == 0 && (o == 0 || pbits e 24 8 == 0), len := empty fun _ => 0 }
    | _ => none

/-! ## Class 0xB (12 R390) -/

/-- Length of an attestation signature. -/
def attSigLen (e : Sqe) : Nat := if pbit e 0 then 96 else 4627

/-- Class 0xB. -/
def attSpec (e : Sqe) : Option OpSpec :=
  if opSet e.opcode ≠ 0 then none
  else
    let noKeys := e.key0 == noHandle && e.key1 == noHandle
    let pOk := pbits e 1 31 == 0
    let eng : EngKind := if pbit e 0 then .me else .py
    let lens (out : Nat) : Option KObj → Nat → Option U16 := fun _ a =>
      if e.inLen ≠ 0 then some 1 else if e.outCap.toNat < out then some 2 else if 64 < a then some 3 else none
    match opOp e.opcode with
    | 1 => some { kind := eng, needDus := true, rnd := true, blobOk := false, paramOk := noKeys && pOk
                  len := lens (1976 + attSigLen e) }
    | 2 => some { kind := .none, needDus := true, blobOk := false, paramOk := noKeys && pOk, len := lens 2709 }
    | 3 => some { kind := eng, needDus := true, rnd := true, paramOk := e.key1 == noHandle && pOk
                  key0 := .need false (fun k => if k.isParam then some 0 else none), len := lens (160 + attSigLen e) }
    | _ => none

/-! ## Class 0xD (07 R262) -/

/-- Read a program image's header (07 R260). -/
def parseImg (b : Bytes) : ImgHdr :=
  let ia := (byteAt b 0x15).toNat
  { version := byteAt b 4, custom := byteAt b 5 == 1, prog := (byteAt b 6).toNat, cluster := (byteAt b 7).getLsbD 0,
    fixed := (byteAt b 7).getLsbD 1
    entries := Vector.ofFn fun i => u16At b (8 + 2 * i.val)
    codeLen := (u32At b 0x10).toNat, parts := (byteAt b 0x14).toNat, inPages := ia % 16 + 1, pageLog := ia / 16 % 8 + 11
    inBase := (u16At b 0x16).toNat * 2048, auxBase := (u16At b 0x18).toNat * 256, rndLen := (byteAt b 0x1A).toNat
    auxMax := (u32At b 0x1C).toNat, outMax := (u32At b 0x20).toNat }

/-- The image that a core holds of a PROG. -/
def customAt (d : Dev) (c prog : Nat) : Option Image :=
  let i := mapGet {} d.boot.custom (c * 64 + prog)
  if i.bytes.isEmpty then none else some i
/-- Whether a core may run an owner's jobs: one of its partitions names the owner (09 R307). -/
def coreOfOwner (d : Dev) (o c : Nat) : Bool :=
  (List.range 4).any fun p => let cell := tblPart d.dlr.act c p; cellV cell && cellOwner cell == o

/-- The image of a PROG that an owner's jobs are checked against: that of the lowest core which holds one and which the owner may use
(07 R262). -/
def customImg (d : Dev) (o prog : Nat) : Option Image :=
  (List.range 16).findSome? fun c => if coreOfOwner d o c then customAt d c prog else none

/-- Whether an image takes a job of a masking order, an AUX_LEN and an OUT_CAP (07 R232, R261, R262). -/
def imgTakes (h : ImgHdr) (order aux out : Nat) : Bool :=
  h.entries.toList.getD order 0xFFFF != 0xFFFF && decide (aux ≤ h.auxMax) && decide (h.outMax ≤ out)

/-- Class 0xD. -/
def customSpec (d : Dev) (o : Nat) (e : Sqe) : Option OpSpec :=
  if opOp e.opcode ≠ 1 then none
  else
    match customImg d o (opSet e.opcode) with
    | none => none
    | some img =>
      let h := parseImg img.bytes
      let orders := (List.range 4).filter fun i => h.entries[i]! != 0xFFFF
      let key : KeyUse := .opt true fun k => if k.policy.getLsbD polCustom then none else some 0
      some { kind := .py, maxOrder := orders.getLast?, orderOk := orders.contains, key0 := key, key1 := key
             len := fun _ a => if e.outCap.toNat < h.outMax then some 2 else if h.auxMax < a then some 3 else none }

end Sys2Proof.Machine
end

