-- ==== Sys2Proof/Machine/Checks.lean ====
section
/-!
DEFINITION. The checks of a job before an engine is used, in the order of 03 R100, and the reservations they make.
-/
namespace Sys2Proof.Machine

/-- Whether some instance of a kind holds the routine of a class 0x3, 0x5 or 0x6 OPCODE (08 R282). -/
def routineHeld (d : Dev) (e : Sqe) (k : EngKind) : Bool :=
  let cls := opClass e.opcode
  (cls != 3 && cls != 5 && cls != 6) || (k != .me && k != .ts) || (kindCells k).any fun c => holdsRoutine d c e.opcode

/-- The operations of the classes. -/
def classSpec (d : Dev) (o : Nat) (e : Sqe) : Option OpSpec :=
  match opClass e.opcode with
  | 0x0 => controlSpec e
  | 0x1 => kemSpec e
  | 0x2 => dsaSpec e
  | 0x3 => hbsSpec d o e
  | 0x4 => codeSpec d o e
  | 0x5 => pkSpec d o e
  | 0x6 => modSpec e
  | 0x7 => hashSpec e
  | 0x8 => symSpec e
  | 0x9 => rngSpec d o e
  | 0xA => keySpec d o e
  | 0xB => attSpec e
  | 0xC => storeSpec e
  | 0xD => customSpec d o e
  | _ => none

/-- The operation of an entry; `none` gives OPCODE_UNKNOWN: no class has it, or no instance holds its routine. -/
def opSpec (d : Dev) (o : Nat) (e : Sqe) : Option OpSpec := (classSpec d o e).filter fun sp => routineHeld d e sp.kind

/-- Whether an opcode takes a fate-journal entry (02 R58). -/
def journalled (d : Dev) (o : Nat) (e : Sqe) : Bool := match opSpec d o e with | some s => s.jrn | none => false

/-- Whether an owner holds tricks of a kind (13 R400). -/
def holdsKind (d : Dev) (o : Nat) : EngKind → Bool
  | .py => (getOwn d o).sh.py != 0
  | .me => (getOwn d o).sh.me != 0
  | .sy => (getOwn d o).sh.sy != 0
  | .ts => (getOwn d o).sh.tree != 0
  | _ => true

/-- The masking order of a job, or none for MASK_UNSUPPORTED (02 R38). -/
def maskOrder (sp : OpSpec) (qMask : BitVec 2) (e : Sqe) : Option Nat :=
  let m := (e.flags >>> 6).toNat
  (match sp.maxOrder with
    | none => if m = 0 || sp.maskParam then some 0 else none
    | some n => let w := if m = 0 then qMask.toNat else m; if w ≤ n then some w else none).filter sp.orderOk

/-- Whether a key field is given where needed and absent where the operation takes none (03 R100 step 4). -/
def keyGiven (u : KeyUse) (h : U32) : Bool :=
  match u with
  | .none => h == noHandle
  | .need _ _ => h != noHandle
  | .opt _ _ => true

/-- The object that a key field names in an entry, if it names one. -/
def keyObj (d : Dev) (o : Nat) (u : KeyUse) (h : U32) : Option KObj :=
  match u with | .none => none | _ => if h = noHandle then none else resolveHandle d o h

/-- The failure of the type and policy check of a key; a BROKEN object is refused for every use (12 R373). -/
def keyFault (brokenOk : Bool) (u : KeyUse) (k : Option KObj) : Option U16 :=
  match u, k with
  | .none, _ => none
  | .need _ bad, some k => if k.broken && !brokenOk then some 0x0A07 else bad k
  | .opt _ bad, some k => if k.broken && !brokenOk then some 0x0A07 else bad k
  | _, none => none

/-- Whether the checks resolve a secret part through this field. -/
def keySecret (u : KeyUse) (k : Option KObj) : Bool :=
  match u, k with
  | .need s _, some k => s && isPrivate k
  | .opt s _, some k => s && isPrivate k
  | _, _ => false

/-- A refusal: STATUS and DETAIL. -/
abbrev Refuse := U16 × U16

/-- Steps 1 to 4 of 03 R100 and the NOT_PERMITTED of 12 R374 after them. -/
def refuseEarly (d : Dev) (o : Nat) (qMask : BitVec 2) (e : Sqe) : Except Refuse (OpSpec × Nat) :=
  match opSpec d o e with
  | none => .error (stOpcodeUnknown, 0)
  | some sp =>
    let cls := opClass e.opcode
    if !sp.permitted || (cls ≠ 0 && !(getOwn d o).sh.cls.getLsbD cls) || !holdsKind d o sp.kind || !holdsKind d o sp.kind2
        || (e.key0 == blobHandle && sp.blobOk && !holdsKind d o .sy)
    then .error (stNotPermitted, 0)
    else
      match maskOrder sp qMask e with
      | none => .error (stMaskUnsupported, 0)
      | some ord =>
        let blob := e.key0 == blobHandle
        let key1Blob := e.key1 == blobHandle
        if !sp.paramOk || (blob && (!sp.blobOk || (match sp.key0 with | .none => true | _ => false))) || key1Blob
            || !keyGiven sp.key0 e.key0 || !keyGiven sp.key1 e.key1
        then .error (stParamInvalid, sp.paramDetail)
        else if sp.needDus && d.ks.nodus then .error (stNotPermitted, 0)
        else .ok (sp, ord)

/-- Steps 5 to 9 of 03 R100, with KEY0's object given (a handle's, or a blob's transient one). `auxLen` is the length of
the operation's own AUX content. -/
def refuseLate (d : Dev) (o : Nat) (e : Sqe) (sp : OpSpec) (k0 : Option KObj) (auxLen : Nat) : Option Refuse :=
  let named0 := match sp.key0 with | .none => false | _ => e.key0 != noHandle
  let named1 := match sp.key1 with | .none => false | _ => e.key1 != noHandle
  let k1 := keyObj d o sp.key1 e.key1
  if named0 && k0.isNone then some (stHandleStale, 0)
  else if named1 && k1.isNone then some (stHandleStale, 1)
  else if let some f := sp.keysBad k0 k1 then some f
  else
    match keyFault sp.brokenOk sp.key0 k0, keyFault sp.brokenOk sp.key1 k1 with
    | some det, _ => some (stKeyPolicy, det)
    | none, some det => some (stKeyPolicy, det)
    | none, none =>
      match sp.len k0 auxLen with
      | some det => some (stLength, det)
      | none =>
        let sh := (getOwn d o).sh
        if 0 < sp.gran && sh.gran.toNat < granUsed d o + sp.gran then some (stKeyCacheFull, 0)
        else if sp.persist && 256 ≤ pkeyTotal d then some (stPersistFull, 1)
        else if sp.persist && 1920 < blocksUsed d + sp.blocks then some (stPersistFull, 2)
        else if sp.persist && sh.pkey.toNat ≤ pkeyUsed d o then some (stPersistFull, 3)
        else if sp.stateful && sh.sskey.toNat ≤ sskeyUsed d o then some (stPersistFull, 3)
        else if d.rng.state == .error && (sp.rnd || keySecret sp.key0 k0 || keySecret sp.key1 k1)
        then some (stRngUnavailable, 0)
        else none

/-- Whether a job needs randomness (11 R347). -/
def needsRandom (d : Dev) (o : Nat) (e : Sqe) : Bool :=
  match opSpec d o e with
  | none => false
  | some sp =>
    sp.rnd || e.key0 == blobHandle || keySecret sp.key0 (keyObj d o sp.key0 e.key0)
      || keySecret sp.key1 (keyObj d o sp.key1 e.key1)

end Sys2Proof.Machine
end

