-- ==== Sys2Proof/Machine/FabOps.lean ====
section
/-!
DEFINITION. Frames of the Brynique fabric as this device sends them, and the nodes it knows (18 R513, R520, R524).
-/
namespace Sys2Proof.Machine

/-- The members of a lead. -/
def memberNodes (d : Dev) : List Nat :=
  if d.fab.role = .lead then (d.fab.node.filter fun e => e.1 != 0 && e.2.state == .member).map (·.1) else []

/-- The key of an outstanding ABANDON_DONE: node and owner, 256 for every owner. -/
def abandonKey (n o : Nat) : Nat := n * 512 + o

/-- Send ABANDON for an owner, 256 for every owner, to each member, and remember the answers due (18 R524). -/
def abandonAt (d : Dev) (o : Nat) : Dev :=
  (memberNodes d).foldl (fun acc n =>
    sendFrame { acc with fab.abandon := acc.fab.abandon ++ [abandonKey n o] } n .abandon (leBytes 2 o)) d

/-- Whether a member's ABANDON_DONE for an owner is still due from a node in state MEMBER (18 R525). -/
def abandonDue (d : Dev) (o : Nat) : Bool := (memberNodes d).any fun n => d.fab.abandon.contains (abandonKey n o)

/-- The symmetric units kept for link encryption on this node (18 R512). -/
def syFabric (d : Dev) : Nat :=
  if !d.fab.enc then 0 else if d.fab.role = .lead then d.fab.syLead else if d.fab.role = .member then d.fab.syMember else 0

end Sys2Proof.Machine
end

