-- ==== Sys2Proof/Machine/Queues.lean ====
section
/-!
DEFINITION. Rings, doorbells, push windows, completions and coalescing, queue enables (02).
-/
namespace Sys2Proof.Machine

/-! ## Sizes and slots (02 R47) -/

def sqSize (q : Sq) : Nat := 2 ^ q.log2.toNat
def cqSize (c : Cq) : Nat := 2 ^ c.log2.toNat
/-- GEN of the entry with an index (02 R48). -/
def genOf (log2 : BitVec 5) (i : U32) : Byte := (i >>> log2.toNat).setWidth 8
/-- PHASE of the completion entry with an index (02 R49). -/
def phaseOf (log2 : BitVec 5) (i : U32) : Byte := if (i >>> log2.toNat).getLsbD 0 then 0 else 1

/-- The device SQ of a function's number, where it holds it (02 R51, 13 R401). -/
def sqDev (d : Dev) (f j : Nat) : Option Nat :=
  let w := getOwn d f
  if j < w.sh.sq.toNat then some (w.sqBase + j) else none
/-- The device CQ of a function's number, where it holds it. -/
def cqDev (d : Dev) (f j : Nat) : Option Nat :=
  let w := getOwn d f
  if j < w.sh.cq.toNat then some (w.cqBase + j) else none

/-! ## Messages of a CQ (02 R62) -/

/-- Send a CQ's message: the count resets and the timer stops. -/
def cqMessage (d : Dev) (c : Nat) : Dev :=
  let q := getCq d c
  let d1 := setCq d c { q with unsig := 0, timer := false }
  match cqOwner d c with
  | some o => msixSend d1 o q.vector.toNat
  | none => d1

/-- Stop an SQ: latch reason and index, write QUEUE_STOP and signal (02 R77). -/
def stopSq (d : Dev) (q : Nat) (reason : Byte) (idx : U32) : Dev :=
  let s := getSq d q
  match sqOwner d q with
  | none => d
  | some o =>
    let d1 := setSq d q { s with stopped := true, err := reason, errIndex := idx, captured := [], reading := none,
                                 held := none, fenceWait := false, slotWait := false, creditWait := false,
                                 jrnWait := false }
    let d2 := amber d1 .queueStop .dealer
      ([BitVec.ofNat 8 o, reason] ++ leBytes 2 (q - (getOwn d o).sqBase) ++ le32 idx)
    cqMessage d2 (boundCq d o s)

/-! ## Doorbells and push windows (02 R51-R55) -/

/-- A new tail for a device SQ (02 R52, R53, R55). -/
def sqTail (d : Dev) (q : Nat) (t : U32) : Dev :=
  let s := getSq d q
  if !s.en || s.stopped || t == s.tail then d
  else if sqSize s < (t - s.head).toNat || sqSize s < (t - s.tail).toNat then stopSq d q erDoorbellRange t
  else
    let cap := s.push && t == s.tail + 1 && byteAt (fit 64 s.window) 3 == genOf s.log2 s.tail
    setSq d q { s with tail := t, captured := if cap then s.captured ++ [(s.tail, fit 64 s.window)] else s.captured }

/-- The lead tells a member, in a FATE frame, that the completion of a journalled job has been passed (log 38). -/
def passBody (b : Done) : Bytes :=
  leBytes 1 5 ++ leBytes 1 b.owner ++ leBytes 2 b.sqId ++ le32 b.sqIndex

/-- The completions that a head move passes are no longer kept, and their COMPLETED journal entries are freed
(02 R84, R86). One with MEMBER_LOST is kept until FATE_RELEASE (18 R523). -/
def passDone (d : Dev) (c : Nat) (old new : U32) : Dev :=
  let passed (b : Done) : Bool := b.cq == c && decide ((b.cqIndex - old).toNat < (new - old).toNat)
  let d1 := d.jobs.done.foldl (fun acc b =>
    if passed b && b.granted && b.status != stMemberLost then sendFrame acc b.node .fate (passBody b)
    else match b.jrn with
      | some k => if passed b && (getJ acc k).state == .completed && !(getJ acc k).kept then freeJ acc k else acc
      | none => acc) d
  let d2 := { d1 with jobs.done := d1.jobs.done.filter fun b => !passed b || b.status == stMemberLost }
  match cqOwner d2 c with | some o => giveEntries d2 o | none => d2

/-- A new head for a device CQ (02 R52, R54). -/
def cqHead (d : Dev) (c : Nat) (h : U32) : Dev :=
  let q := getCq d c
  if !q.en then d
  else if (q.tail - q.head).toNat < (h - q.head).toNat then setCq d c { q with headErr := true }
  else passDone (setCq d c { q with head := h }) c q.head h

/-- A 32-bit doorbell write at offset 0 (02 R52). -/
def sqDoorbellGo (f j : Nat) (t : U32) (d : Dev) : Dev :=
  if !isReady d || !barOk d f then d
  else match sqDev d f j with | some q => sqTail d q t | none => d

/-- A 32-bit doorbell write at offset 4 (02 R52). -/
def cqDoorbellGo (f j : Nat) (h : U32) (d : Dev) : Dev :=
  if !isReady d || !barOk d f then d
  else match cqDev d f j with | some c => cqHead d c h | none => d

/-- Record an error in `HIF_LASTERR` (19 R554). -/
def hifLastErr (d : Dev) (owner kind : Nat) (engine : U16) (addr : U32) : Dev :=
  { d with hif.lastOwner := BitVec.ofNat 8 owner, hif.lastKind := BitVec.ofNat 4 kind, hif.lastEngine := engine,
           hif.lastAddr := addr }

/-- An access of a wrong size or alignment (19 R538, R554). -/
def badAccess (d : Dev) (f : Nat) (off : Nat) : Dev :=
  hifCause (hifLastErr { d with hif.errAccess := satInc d.hif.errAccess } f 6 0 (BitVec.ofNat 32 off)) 0x4

/-- A write into a push window: 4 to 64 bytes on 4-byte boundaries (02 R55, 19 R538). -/
def pushWriteGo (f j off : Nat) (bs : Bytes) (d : Dev) : Dev :=
  if !isReady d || !barOk d f then d
  else if bs.length < 4 || 64 < bs.length || bs.length % 4 ≠ 0 || off % 4 ≠ 0 || 64 < off + bs.length then
    badAccess d f ((if f = 0 then 0x10000 else 0x3000) + 64 * j + off)
  else
    match sqDev d f j with
    | none => d
    | some q =>
      let s := getSq d q
      if !s.en || s.stopped || s.draining then d
      else setSq d q { s with window := splice (fit 64 s.window) off bs }

/-! ## Completions (02 R44-R46, 01 R17) -/

/-- The 32 bytes of a completion entry (02 R44). -/
def cqeBytes (tag : U32) (st det : U16) (outLen index : U32) (sqId : U16) (eff attempts : Byte) (cycles : U32)
    (engine : U16) (version phase : Byte) (result : U32) : Bytes :=
  le32 tag ++ le16 st ++ le16 det ++ le32 outLen ++ le32 index ++ le16 sqId ++ [eff, attempts] ++ le32 cycles
    ++ le16 engine ++ [version, phase] ++ le32 result

/-- Where a segment list puts an output offset: address and bytes left in the segment (02 R42). -/
def segAt : List Seg → Nat → Option (Nat × Nat)
  | [], _ => none
  | s :: ss, off => if off < s.len.toNat then some (s.addr.toNat + off, s.len.toNat - off) else segAt ss (off - s.len.toNat)

/-- Write output of a job: to host memory with relaxed ordering, or from a member to the lead (01 R17, 18 R515). -/
def jobWrite (d : Dev) (j fn : Nat) (addr : U64) (bs : Bytes) : Dev :=
  if isMember d then sendWrites d j fn addr bs else hostWrite d fn addr bs true

/-- Write bytes through a segment list from an offset; `fuel` bounds the pieces. -/
def writeSegs (d : Dev) (j fn : Nat) (segs : List Seg) : Nat → Nat → Bytes → Dev
  | 0, _, _ => d
  | _ + 1, _, [] => d
  | f + 1, off, b :: bs =>
    match segAt segs off with
    | none => d
    | some (a, room) =>
      let n := min room (bs.length + 1)
      writeSegs (jobWrite d j fn (BitVec.ofNat 64 a) ((b :: bs).take n)) j fn segs f (off + n) ((b :: bs).drop n)

/-- Write a job's output at an offset: relaxed ordering set, ascending (01 R17, 02 R41). -/
def writeOut (d : Dev) (b : Job) (off : Nat) (bs : Bytes) : Dev :=
  match b.outSegs with
  | some segs => writeSegs d b.id b.owner segs bs.length off bs
  | none => jobWrite d b.id b.owner (b.e.outAddr + BitVec.ofNat 64 off) bs

/-- Write one completion entry into its CQ and apply the message rules (02 R44, R45, R62, 01 R17, R18). -/
def postCqe (d : Dev) (o c : Nat) (entry : Byte → Bytes) (st : U16) (notify : Bool) : Dev :=
  let q := getCq d c
  let addr := (q.base.setWidth 64 <<< 12) + BitVec.ofNat 64 (32 * (q.tail.toNat % cqSize q))
  let d1 := hostWrite d o addr (entry (phaseOf q.log2 q.tail)) false
  let n := q.unsig + 1
  let d2 := setCq d1 c { q with tail := q.tail + 1, reserved := q.reserved - 1, unsig := n
                                timer := q.timer || q.coalTime != 0 }
  let limit := if q.coalCnt.toNat ≤ 1 then 1 else min q.coalCnt.toNat (cqSize q)
  if limit ≤ n || (q.immErr && st != 0) || notify then cqMessage d2 c else d2

/-- The engine ends a job: JOBS, BUSY with what its saves and restores took, and a modular engine's Slate (07 R265; 06 R181, R212;
19 R554). -/
def engineEnd (d : Dev) (b : Job) (cell : Nat) : Dev :=
  wipeSlate (modEng d cell fun r => { r with jobs := r.jobs + 1, busy := r.busy + BitVec.ofNat 64 (b.cycles + b.saveCyc) }) cell

/-- What a completion says of how a job ran (02 R44). -/
structure RunInfo where
  engine   : U16 := 0
  attempts : Byte := 0
  cycles   : U32 := 0
  ver      : Byte := 0
  deriving DecidableEq, Repr

/-- Close a job on the device that fetched it: the slot and the credit are free again, the completion is kept until the CQ head
passes it, and its entry is written (02 R44-R46, R86). -/
def closeJob (d : Dev) (b : Job) (st det : U16) (r : RunInfo) : Dev :=
  let sqId : U16 := BitVec.ofNat 16 (b.sq - (getOwn d b.owner).sqBase)
  let entry (ph : Byte) : Bytes :=
    cqeBytes b.e.tag st det (BitVec.ofNat 32 b.outLen) b.index sqId b.effect r.attempts r.cycles r.engine r.ver ph b.result
  let d1 := modSq (dropJob d b.id) b.sq fun q =>
    { q with outstanding := q.outstanding - 1, draining := q.draining && q.outstanding != 1 }
  let rec1 : Done := { owner := b.owner, sq := b.sq, sqId := sqId.toNat, sqIndex := b.index, cq := b.cq, cqIndex := (getCq d b.cq).tail
                       tag := b.e.tag, status := st, effect := b.effect, obj := if b.effect.getLsbD 1 then b.result else noHandle
                       tb := d.glob.tb, jrn := b.jrn, node := if b.remote then b.node else 0, granted := b.granted }
  let d2 := { d1 with jobs.done := d1.jobs.done ++ [rec1] }
  postCqe d2 b.owner b.cq entry st (b.e.opcode == 0x0007)

/-- The payload of a COMPLETE frame; `n` is the number of the job's WR_DATA frames (18 R515). -/
def completeBody (b : Job) (st det : U16) (r : RunInfo) (n : Nat) : Bytes :=
  leBytes 8 b.id ++ le16 st ++ le16 det ++ leBytes 4 b.outLen ++ [b.effect, r.attempts] ++ le32 r.cycles ++ le16 r.engine
    ++ [r.ver] ++ le32 b.result ++ leBytes 4 n
/-- The payload of a CREDIT_GRANT frame: owner, job credits, journal entries. -/
def grantBody (o credits jrns : Nat) : Bytes := leBytes 1 o ++ leBytes 2 credits ++ leBytes 2 jrns

/-- A member grants the lead what an owner's shares on it still allow: its jobs, its journal entries and the grants not yet used
count (18 R514). -/
def topUp (d : Dev) (o : Nat) : Dev :=
  let x := getNode d 0
  let s := (getOwn d o).sh
  let c := s.credit.toNat - (ownJobs d o).length - mapGet 0 x.credits o
  let j := s.jrn.toNat - (jrnHeld d o).length - mapGet 0 x.jrns o
  if !isMember d || x.state != .member || (c == 0 && j == 0) then d
  else sendFrame (modNode d 0 fun y => { y with credits := mapMod 0 y.credits o (· + c), jrns := mapMod 0 y.jrns o (· + j) }) 0 .creditGrant
    (grantBody o c j)

/-- A member ends a homed job: it tells the lead, and its credit is granted again (18 R514, R515). -/
def memberClose (d : Dev) (b : Job) (st det : U16) (r : RunInfo) : Dev :=
  let n := mapGet 0 (getNode d 0).wrData b.id
  let d1 := modNode (dropJob d b.id) 0 fun x => { x with wrData := mapSet 0 x.wrData b.id 0 }
  topUp (sendFrame d1 0 .complete (completeBody b st det r n)) b.owner

/-- The engines of a job that ends: its own, the whole cluster of a cluster-mode job, and its second one. -/
def endEngines (d : Dev) (b : Job) : Dev :=
  let d1 := match b.eng with
    | some c => if b.cluster then (List.range 4).foldl (fun acc i => engineEnd acc b (c / 4 * 4 + i)) d else engineEnd d b c
    | none => d
  match b.eng2 with | some c => engineEnd d1 b c | none => d1

/-- The journal entry of a job that ends becomes COMPLETED (02 R82); it names the object of the effect, where one was committed
(02 R89). -/
def endJournal (d : Dev) (b : Job) (st : U16) : Dev :=
  match b.jrn with
  | some k => modJ d k fun j => { j with state := .completed, status := st, effect := b.effect }
  | none => d

/-- The counts of a job that ends: `RNG_UNAVAILABLE` (11 R363) and the latency histogram of its opcode (17 R479). -/
def endCounts (d : Dev) (b : Job) (st : U16) : Dev :=
  recHist { d with rng.unavail := if st = stRngUnavailable then satInc d.rng.unavail else d.rng.unavail }
    (b.e.opcode.toNat / 64) (d.glob.tb - b.fetchTb).toNat

/-- Cycles of an engine's clock in a time: hash cycles on a tree sequencer, supervisor cycles on the random class, else core cycles
(00 R7, 02 R44). -/
def nsCycles (c ns : Nat) : Nat :=
  if 28 ≤ c && c < 32 then ns * 16 / 10 else if c = cellRng then ns * 4 / 10 else ns * 12 / 10

/-- What a completion says of the run of a job (02 R44): its time waiting for input counts (09 R308, 10 R323). -/
def runInfo (b : Job) : RunInfo :=
  match b.eng with
  | some c => { engine := engineCode b.node c, attempts := satNat 8 b.attempts
                cycles := satNat 32 (b.cycles + b.cycles2 + b.saveCyc + nsCycles c b.waitNs), ver := b.ver }
  | none => {}

/-- End a job: the engine is free again, the journal entry becomes COMPLETED, and the completion is issued, or sent to the lead
(02 R44-R46, R82). A bad output list replaces the status, and nothing is left behind (02 R43). -/
def finish (d : Dev) (b : Job) (st0 det0 : U16) : Dev :=
  let bad := b.outBad.isSome
  let st := if bad then stSglInvalid else st0
  let det := if bad then b.outBad.getD 0 else det0
  let b := if bad then { b with outLen := 0, effect := 0, result := 0 } else b
  let d1 := endCounts (endJournal (endEngines (wipeContexts d b.id) b) b st) b st
  if isMember d then memberClose d1 b st det (runInfo b) else closeJob d1 b st det (runInfo b)

/-- Complete a job with a status and nothing else: a refusal, or an abort with what it has done so far (02 R61, R79). -/
def finishJob (d : Dev) (j : Nat) (st det : U16) : Dev :=
  match findJob d j with | some b => finish d b st det | none => d

/-- Complete a job that succeeds: its output is written first, then the completion entry (01 R17). -/
def finishOut (d : Dev) (b : Job) (out : Bytes) (result : U32) (eff : Byte) (attempts cycles : Nat) : Dev :=
  let b1 := { b with result := result, attempts := attempts, cycles := cycles, outLen := out.length
                     effect := eff ||| (if out.isEmpty then 0 else effOutput) }
  if b.outBad.isSome then finish d b1 stOk 0
  else finish (writeOut d b 0 out) b1 stOk 0

/-! ## Queue registers that act (02 R65-R76) -/

/-- `Q_SQ_CFG` fields that are writable while EN = 0 and no drain is in progress (02 R65, R67). -/
def sqFields (s : Sq) (v : U64) : Sq :=
  if s.en || s.draining then s
  else { s with push := v.getLsbD 1, log2 := (v >>> 4).setWidth 5, mask := (v >>> 9).setWidth 2,
                mode := (v >>> 12).setWidth 2, cqid := (v >>> 16).setWidth 11 }

/-- Whether the lead still lacks its mirror (17 R484). -/
def mirrorMissing (d : Dev) : Bool := d.fab.role == .lead && !d.recd.mirrorEn
/-- Whether a debug grant with SCAN or MEMTEST bars queue enables (14 R436). -/
def enableBarred (d : Dev) : Bool :=
  match d.lc.grant with | some g => g.scope.getLsbD 3 || g.scope.getLsbD 4 | none => false
/-- Whether an SQ's home node does not serve its owner (18 R513). -/
def homeInvalid (d : Dev) (o q : Nat) : Bool :=
  let n := sqHome d q
  n != 0 && (d.fab.role != .lead || (getNode d n).state != .member || !(o == 0 || (getNode d n).owners.contains o))

/-- The reason an SQ enable is refused for: CQ_INVALID, SIZE_INVALID, MODE_INVALID, MIRROR_REQUIRED, HOME_INVALID, in the order of
their codes (02 R73, 13 R408, 17 R484, 18 R513; log 20). -/
def sqEnableRefusal (d : Dev) (o q : Nat) (s : Sq) : Option Byte :=
  if (getOwn d o).sh.cq.toNat ≤ s.cqid.toNat || !(getCq d (boundCq d o s)).en then some erCqInvalid
  else if s.log2.toNat < 6 || 16 < s.log2.toNat then some erSizeInvalid
  else if s.mode == 3 || (s.mode == 2 && !(getOwn d o).sh.trump) then some erModeInvalid
  else if mirrorMissing d then some erMirrorRequired
  else if homeInvalid d o q then some erHomeInvalid
  else none

/-- Write `Q_SQ_CFG` with EN = 1 (02 R69, R73). -/
def sqEnable (d : Dev) (o q : Nat) (v : U64) : Dev :=
  let s0 := getSq d q
  if s0.en then d
  else if !isReady d || enableBarred d then setSq d q (sqFields s0 v)
  else
    let s := sqFields s0 v
    match sqEnableRefusal d o q s with
    | some r => setSq d q { s with err := r }
    | none => setSq d q { s with en := true, stopped := false, err := 0, errIndex := 0 }

/-- The size of a function's MSI-X table (02 R76). -/
def vecCount (d : Dev) (o : Nat) : Nat := if o = 0 then 64 else (getOwn d o).sh.vec.toNat

/-- `Q_CQ_CFG` fields (02 R70). -/
def cqFields (c : Cq) (v : U64) : Cq :=
  if c.en then c
  else { c with immErr := v.getLsbD 1, log2 := (v >>> 4).setWidth 5, vector := (v >>> 16).setWidth 12,
                coalCnt := (v >>> 32).setWidth 16, coalTime := (v >>> 48).setWidth 10 }

/-- Write `Q_CQ_CFG` with EN = 1. The rule does not order the reasons of EN_ERR: DESIGN CHOICE, a bad LOG2SIZE is reported before a bad
VECTOR (log 20; 02 R76). -/
def cqEnable (d : Dev) (o c : Nat) (v : U64) : Dev :=
  let q0 := getCq d c
  if q0.en then d
  else if !isReady d || enableBarred d then setCq d c (cqFields q0 v)
  else
    let q := cqFields q0 v
    if q.log2.toNat < 6 || 16 < q.log2.toNat then setCq d c { q with enErr := 1 }
    else if vecCount d o ≤ q.vector.toNat then setCq d c { q with enErr := 2 }
    else setCq d c { q with en := true, enErr := 0 }

/-- Whether an SQ bound to a CQ is enabled or draining (02 R75). -/
def cqBusy (d : Dev) (c : Nat) : Bool :=
  d.sqs.any fun e => (e.2.en || e.2.draining) && (match sqOwner d e.1 with | some o => boundCq d o e.2 == c | none => false)

/-- Write `Q_CQ_CFG` with EN = 0 (02 R75). -/
def cqDisable (d : Dev) (c : Nat) (v : U64) : Dev :=
  let q := getCq d c
  if !q.en then setCq d c (cqFields q v)
  else if cqBusy d c || q.reserved != 0 then setCq d c { q with disRefused := true }
  else setCq d c { q with en := false }

end Sys2Proof.Machine
end

