-- ==== Sys2Proof/Machine/Fetch.lean ====
section
/-!
DEFINITION. Fetching entries, their form checks, reservations and refusals (02 R48, R56-R60, R77-R79; 01 R14).
-/
namespace Sys2Proof.Machine

/-! ## The entry (02 R36) -/

/-- Read the fields of a 64-byte entry. -/
def parseSqe (b : Bytes) : Sqe :=
  { opcode := u16At b 0, flags := byteAt b 2, gen := byteAt b 3, tag := u32At b 4, inAddr := u64At b 8,
    inLen := u32At b 16, outCap := u32At b 20, outAddr := u64At b 24, key0 := u32At b 32, key1 := u32At b 36,
    auxAddr := u64At b 40, auxLen := u32At b 48, param := u32At b 52, deadline := u64At b 56 }

def inSgl (e : Sqe) : Bool := e.flags.getLsbD 0
def outSgl (e : Sqe) : Bool := e.flags.getLsbD 1
def isFence (e : Sqe) : Bool := e.flags.getLsbD 2
def hasDeadline (e : Sqe) : Bool := e.flags.getLsbD 3

/-- Whether a contiguous buffer of nonzero length wraps (02 R78). -/
def wraps (addr : U64) (len : U32) : Bool := len != 0 && decide (2 ^ 64 < addr.toNat + len.toNat)

/-- The first form check that an entry breaks, in the order of 02 R77. -/
def formFault (log2 : BitVec 5) (idx : U32) (e : Sqe) : Option Byte :=
  if e.gen ≠ genOf log2 idx then some erGenMismatch
  else if (e.flags >>> 4) &&& 3 ≠ 0 then some erFlagsReserved
  else if 0xE ≤ opClass e.opcode then some erClassReserved
  else if (inSgl e && e.inLen != 0 && e.inAddr &&& 0xF != 0) || (outSgl e && e.outCap != 0 && e.outAddr &&& 0xF != 0)
  then some erSglAlign
  else if 268435456 < e.inLen.toNat || 268435456 < e.outCap.toNat || 1048576 < e.auxLen.toNat then some erLengthLimit
  else if (!inSgl e && wraps e.inAddr e.inLen) || (!outSgl e && wraps e.outAddr e.outCap) || wraps e.auxAddr e.auxLen
  then some erAddrWrap
  else none

/-- The bytes of a KEY0 blob at the head of AUX (12 R379). -/
def blobLen (b : Job) : Nat :=
  if b.e.key0 = blobHandle then 80 + (u32At b.auxData 0x10).toNat + (u32At b.auxData 0x14).toNat else 0

/-- The operation's own AUX content: what follows a KEY0 blob (12 R379). -/
def ownAux (b : Job) : Bytes := b.auxData.drop (blobLen b)

/-- The time that a deadline is compared with: TB, or fabric time on a member (02 R60, 18 R516). -/
def fabricTime (d : Dev) : U64 := if isMember d then BitVec.ofInt 64 (d.glob.tb.toNat + d.fab.offset) else d.glob.tb

/-- Whether a job's deadline has passed (02 R60). -/
def late (d : Dev) (e : Sqe) : Bool := hasDeadline e && decide (e.deadline < fabricTime d)

/-! ## Reservation and fetch -/

/-- Free completion slots of a CQ (02 R56). -/
def cqFree (q : Cq) : Nat := cqSize q - (q.reserved.toNat + (q.tail - q.head).toNat)

/-- The SQs bound to a CQ that wait for a slot, in turn order after the last one served (02 R57). -/
def slotQueue (d : Dev) (c : Nat) : List Nat :=
  let ws := (d.sqs.filter fun e => e.2.slotWait && e.2.en &&
    (match sqOwner d e.1 with | some o => boundCq d o e.2 == c | none => false)).map (·.1)
  let l := (getCq d c).lastSq
  ws.filter (fun q => l < q) ++ ws.filter (fun q => q ≤ l)

/-- Whether an SQ may take a slot of its CQ now (02 R56, R57). -/
def slotTurn (d : Dev) (c q : Nat) : Bool :=
  let n := cqFree (getCq d c)
  let ws := slotQueue d c
  if ws.contains q then (ws.take n).contains q else decide (ws.length < n)

/-- Whether a fetch is stopped for an owner: during its soft zeroise or reset (12 R396, 13 R409). -/
def fetchStopped (d : Dev) (o : Nat) : Bool :=
  (match d.ks.zsoft with | some z => z.all || z.owner == o | none => false)
    || (getOwn d o).state != .active

/-- Whether an SQ has an entry to take. -/
def sqHasWork (s : Sq) : Bool := s.en && !s.stopped && s.head != s.tail && s.reading.isNone

/-- Whether fetching from an SQ is held because its home node is not a member (18 R521 step 2). -/
def homeHeld (d : Dev) (q : Nat) : Bool := sqHome d q != 0 && (getNode d (sqHome d q)).state != .member
/-- Whether an entry runs on its SQ's home node: class 0x0 jobs never leave the lead (18 R514). -/
def goesHome (d : Dev) (q : Nat) (e : Sqe) : Bool := sqHome d q != 0 && opClass e.opcode != 0

/-- The reads that a job's start issues: input list or input, output list, auxiliary input (02 R43). -/
def startReads (d : Dev) (b : Job) : Dev :=
  let e := b.e
  let d1 :=
    if e.inLen = 0 then d
    else if inSgl e then hostRead d b.owner e.inAddr 16 (.inList b.id)
    else hostRead d b.owner e.inAddr e.inLen.toNat (.input b.id)
  let d2 := if outSgl e && e.outCap != 0 then hostRead d1 b.owner e.outAddr 16 (.outList b.id) else d1
  if e.auxLen = 0 || !b.auxData.isEmpty then d2 else hostRead d2 b.owner e.auxAddr e.auxLen.toNat (.aux b.id)

/-- Apply the checks before placement to a new job; a refusal completes at once (02 R60, R79). -/
def admitJob (d : Dev) (b : Job) (mask : BitVec 2) : Dev :=
  let j := b.id
  let o := b.owner
  let e := b.e
  let add (d : Dev) (b : Job) : Dev := { d with jobs.live := d.jobs.live ++ [b] }
  if late d e then finishJob (add d b) j stDeadline 0
  else
    match refuseEarly d o mask e with
    | .error (st, det) => finishJob (add d b) j st det
    | .ok (sp, ord) =>
      let b := { b with order := ord, cluster := sp.cluster }
      if e.key0 = blobHandle then
        hostRead (add d { b with phase := .unwrapping }) o e.auxAddr e.auxLen.toNat (.aux j)
      else
        match refuseLate d o e sp (keyObj d o sp.key0 e.key0) e.auxLen.toNat with
        | some (st, det) => finishJob (if st = stPersistFull then ksPfull (add d b) else add d b) j st det
        | none =>
          let d1 := add d { b with granRes := sp.gran, pkeyRes := if sp.persist then 1 else 0,
                                   blkRes := if sp.persist then sp.blocks else 0,
                                   ssRes := if sp.stateful then 1 else 0 }
          if sp.kind = .none then startReads d1 b else d1

/-- Create the job of an entry. -/
def startJob (d : Dev) (o q c : Nat) (idx : U32) (e : Sqe) (jrn : Option Nat) : Dev :=
  let s := getSq d q
  admitJob { d with jobs.nextId := d.jobs.nextId + 1 }
    { id := d.jobs.nextId, owner := o, sq := q, cq := c, index := idx, e := e, mode := s.mode, node := d.glob.node
      fetchTb := d.glob.tb, jrn := jrn } s.mask

/-- The payload of a SUBMIT frame: job, owner, MASK and mode of the SQ, its number for the owner, index, entry. -/
def submitBody (j o : Nat) (s : Sq) (sqId : Nat) (idx : U32) (bytes : Bytes) : Bytes :=
  leBytes 8 j ++ leBytes 1 o ++ [s.mask.setWidth 8, s.mode.setWidth 8] ++ leBytes 2 sqId ++ le32 idx ++ fit 64 bytes
/-- Forward an entry to the home node of its SQ, with the grants reserved for it (18 R514). -/
def forwardJob (d : Dev) (o q c : Nat) (idx : U32) (e : Sqe) (bytes : Bytes) (granted : Bool) : Dev :=
  let s := getSq d q
  let n := sqHome d q
  let b : Job := { id := d.jobs.nextId, owner := o, sq := q, cq := c, index := idx, e := e, mode := s.mode, node := n, fetchTb := d.glob.tb
                   remote := true, granted := granted }
  let d1 := modNode { d with jobs.live := d.jobs.live ++ [b], jobs.nextId := d.jobs.nextId + 1 } n fun x =>
    { x with credits := mapMod 0 x.credits o (· - 1), jrns := if granted then mapMod 0 x.jrns o (· - 1) else x.jrns }
  sendFrame d1 n .submit (submitBody b.id o s (q - (getOwn d o).sqBase) idx bytes)

/-- Take an entry that is in hand: form checks, fence, slot, credit and journal entry, in that order (01 R14, 02 R56-R59,
R77). What cannot be reserved is waited for with the entry held. -/
def takeEntry (d : Dev) (q : Nat) (bytes : Bytes) : Dev :=
  let s := getSq d q
  match sqOwner d q with
  | none => d
  | some o =>
    let e := parseSqe bytes
    let c := boundCq d o s
    let rest := s.captured.filter fun x => x.1 != s.head
    let hold (f : Sq → Sq) : Dev :=
      setSq d q (f { s with reading := none, captured := rest, held := some bytes, fenceWait := false, slotWait := false,
                            creditWait := false, jrnWait := false })
    match formFault s.log2 s.head e with
    | some r => stopSq d q r s.head
    | none =>
      if isFence e && d.jobs.live.any (fun b => b.sq == q) then hold fun x => { x with fenceWait := true }
      else if !slotTurn d c q then hold fun x => { x with slotWait := true }
      else if goesHome d q e then
        let n := getNode d (sqHome d q)
        if homeHeld d q then hold fun x => x
        else if mapGet 0 n.credits o = 0 then hold fun x => { x with creditWait := true }
        else if journalled d o e && mapGet 0 n.jrns o == 0 then hold fun x => { x with jrnWait := true }
        else
          let idx := s.head
          let d1 := setSq d q { s with head := s.head + 1, outstanding := s.outstanding + 1, reading := none, captured := rest
                                       held := none, fenceWait := false, slotWait := false, creditWait := false, jrnWait := false }
          let d2 := modCq d1 c fun x => { x with reserved := x.reserved + 1, lastSq := q }
          forwardJob d2 o q c idx e bytes (journalled d o e)
      else if (getOwn d o).sh.credit.toNat ≤ (ownJobs d o).length then hold fun x => { x with creditWait := true }
      else
        let base : JEntry := { state := .reserved, sqId := BitVec.ofNat 16 (q - (getOwn d o).sqBase), index := s.head,
                               tag := e.tag, opcode := e.opcode, key0 := e.key0 }
        if keyWaits d o e then hold fun x => { x with jrnWait := true } else
        let res : Option (Option Nat × Dev) :=
          if journalled d o e then (jrnReserve d o base).map fun r => (some r.1, r.2) else some (none, d)
        match res with
        | none => hold fun x => { x with jrnWait := true }
        | some (k, d1) =>
          let idx := s.head
          let d2 := setSq d1 q { s with head := s.head + 1, outstanding := s.outstanding + 1, reading := none,
                                        captured := rest, held := none, fenceWait := false, slotWait := false,
                                        creditWait := false, jrnWait := false }
          let d3 := modCq d2 c fun x => { x with reserved := x.reserved + 1, lastSq := q }
          startJob d3 o q c idx e k

/-- The SQ that the Dealer serves next for an owner: round robin in SQ number (09 R308). -/
def nextSq (d : Dev) (o : Nat) : Option Nat :=
  let ws := (d.sqs.filter fun e => sqHasWork e.2 && holdsSq d o e.1 && !homeHeld d e.1).map (·.1)
  let l := (getOwn d o).rrSq
  (ws.filter (fun q => l < q) ++ ws.filter (fun q => q ≤ l)).head?

/-- The Dealer takes the next entry of an owner (01 R14): from its hands, from the push window's capture, or by a read of
the ring. Nothing is read while no slot or credit is free. -/
def entryFetchGo (o : Nat) (d : Dev) : Dev :=
  if !isReady d || fetchStopped d o then d
  else
    match nextSq d o with
    | none => d
    | some q =>
      let d1 := modOwn d o fun w => { w with rrSq := q }
      let s := getSq d1 q
      let c := boundCq d1 o s
      match s.held with
      | some bytes => takeEntry d1 q bytes
      | none =>
        if !slotTurn d1 c q then setSq d1 q { s with slotWait := true }
        else if sqHome d1 q == 0 && decide ((getOwn d1 o).sh.credit.toNat ≤ (ownJobs d1 o).length) then setSq d1 q { s with creditWait := true }
        else
          match s.captured.find? fun x => x.1 == s.head with
          | some x => takeEntry d1 q x.2
          | none =>
            hostRead (setSq d1 q { s with reading := some s.head }) o
              ((s.base.setWidth 64 <<< 12) + BitVec.ofNat 64 (64 * (s.head.toNat % sqSize s))) 64 (.entry q s.head)

/-- KIND of a failed read in `HIF_LASTERR` (19 R554). -/
def failKind : DmaRes → Nat | .ur => 1 | .ca => 2 | .poison => 4 | .data _ => 0

/-- Count and record a failed read, on the device that issued it: kind 1 UR, 2 CA, 3 timeout, 4 poisoned (19 R536, R543, R554). -/
def readFailed (d : Dev) (owner : Nat) (kind : Nat) (engine : U16) (addr : U64) : Dev :=
  if isMember d then d else
  let h := d.hif
  let d1 : Dev :=
    if kind ≤ 2 then { d with hif := { h with errUrCa := satInc h.errUrCa } }
    else if kind = 3 then { d with hif := { h with errTimeout := satInc h.errTimeout, aerTimeout := true,
                                                   out := h.out ++ [.aerTimeout owner] } }
    else { d with hif := { h with errPoison := satInc h.errPoison, aerPoison := true,
                                  out := h.out ++ [.aerPoison owner] } }
  hifCause (hifLastErr d1 owner kind engine (addr.setWidth 32)) 0x2

/-- Issue the reads that waited, as far as 256 outstanding allow (19 R540). -/
def issueReads (d : Dev) : Dev :=
  let k := 256 - d.hif.reads.length
  (d.hif.rdWait.take k).foldl emit { d with hif.rdWait := d.hif.rdWait.drop k }

/-- The reads that remain outstanding after `n` bytes of those that `p` names have come, in order. -/
def readsServed (p : ReadFor → Bool) : Nat → List (ReadFor × Nat) → List (ReadFor × Nat)
  | _, [] => []
  | 0, rs => rs
  | n + 1, (w, l) :: rs =>
    if !p w then (w, l) :: readsServed p (n + 1) rs
    else if n + 1 < l then (w, l - (n + 1)) :: rs
    else readsServed p (n + 1 - l) rs

/-- Data of outstanding reads comes in. A member's reads are the lead's (18 R515). -/
def readDone (d : Dev) (p : ReadFor → Bool) (n : Nat) : Dev :=
  if isMember d then d
  else issueReads { d with hif.reads := readsServed p n d.hif.reads, hif.rdBytes := d.hif.rdBytes + BitVec.ofNat 64 n }
/-- An outstanding read ends without data, or with data that nothing takes (13 R410). -/
def readOver (d : Dev) (p : ReadFor → Bool) : Dev :=
  if isMember d then d else issueReads { d with hif.reads := d.hif.reads.eraseP fun e => p e.1 }

/-- The reads of an SQ's entries. -/
def ofSq (q : Nat) : ReadFor → Bool | .entry x _ => x == q | _ => false
/-- The reads of one side of a job. -/
def ofJob (j : Nat) (side : DmaSide) : ReadFor → Bool
  | .input x => x == j && side == .input | .aux x => x == j && side == .aux
  | .inList x => x == j && side == .inList | .outList x => x == j && side == .outList
  | _ => false

/-- The read of an entry returns: 64 bytes, or a failure that stops the SQ with FETCH_ERROR (02 R77, 19 R543). A read whose
queue was disabled or stopped since is discarded. -/
def entryReadDoneGo (q : Nat) (r : DmaRes) (d : Dev) : Dev :=
  let s := getSq d q
  match s.reading with
  | none => readOver d (ofSq q)
  | some i =>
    match r with
    | .data bytes => takeEntry (readDone d (ofSq q) 64) q (fit 64 bytes)
    | r =>
      let o := (sqOwner d q).getD 0
      stopSq (readFailed (readOver d (ofSq q)) o (failKind r) 0
        ((s.base.setWidth 64 <<< 12) + BitVec.ofNat 64 (64 * (i.toNat % sqSize s)))) q erFetchError i

end Sys2Proof.Machine
end

