-- ==== Sys2Proof/Machine/MpProg.lean ====
section
/-!
DEFINITION. Modular programs as they stand in AUX: header, command words, slots (06 R180, R204-R207).
-/
namespace Sys2Proof.Machine

/-! ## The program in AUX (06 R204, R205) -/

/-- A command word. -/
def mpParse (v : Nat) : MpWord :=
  { op := BitVec.ofNat 8 v, d := BitVec.ofNat 8 (v / 2 ^ 8 % 64), a := BitVec.ofNat 8 (v / 2 ^ 14 % 64),
    b := BitVec.ofNat 8 (v / 2 ^ 20 % 64), chk := BitVec.ofNat 8 (v / 2 ^ 26 % 4), le := v / 2 ^ 28 % 2 == 1,
    imm := BitVec.ofNat 32 (v / 2 ^ 32) }

/-- A program: its header and its command words. -/
structure Prog where
  ncmd   : Nat
  bits   : Nat
  modOff : Nat
  rsvBad : Bool
  words  : List Nat

/-- Read a program. -/
def mpProg (aux : Bytes) : Prog :=
  { ncmd := (u16At aux 0).toNat, bits := (u16At aux 2).toNat, modOff := (u32At aux 4).toNat,
    rsvBad := !allZero (slice aux 8 8), words := (chunks 8 64 (aux.drop 16)).map leNat }

/-- ⌈MODBITS / 8⌉. -/
def mpBytes (p : Prog) : Nat := cdiv p.bits 8
/-- W = ⌈MODBITS / 512⌉. -/
def mpW (p : Prog) : Nat := cdiv p.bits 512
/-- L = ⌈MODBITS / 64⌉. -/
def mpL (p : Prog) : Nat := cdiv p.bits 64
/-- M = max(8, ⌈L² / 8⌉). -/
def mpM (p : Prog) : Nat := max 8 (cdiv (mpL p * mpL p) 8)
/-- Slots of the job (06 R180). -/
def mpSlots (p : Prog) : Nat := min 64 (896 / mpW p)
/-- The modulus. -/
def mpN (p : Prog) (inp : Bytes) : Nat := beNat (slice inp p.modOff (mpBytes p))

/-- Whether a command writes D, reads A, reads B. -/
def mpUse (op : Byte) : Bool × Bool × Bool :=
  match op.toNat with
  | 0x01 | 0x02 | 0x03 | 0x04 => (true, false, false)
  | 0x05 | 0x0C | 0x0D | 0x0E => (true, true, false)
  | 0x08 | 0x09 | 0x0A | 0x0F => (true, true, true)
  | 0x18 => (false, true, false)
  | _ => (false, false, false)
/-- The commands of 06 R206. -/
def mpKnown (op : Byte) : Bool := let u := mpUse op; u.1 || u.2.1
/-- Length in bytes and offset that a LOAD or LOADX reads. -/
def mpReads (p : Prog) (w : MpWord) : Option (Nat × Nat) :=
  if w.op = 1 then some (w.imm.toNat, mpBytes p)
  else if w.op = 2 then some (w.imm.toNat % 2 ^ 20, w.imm.toNat / 2 ^ 20) else none

/-- The slots that a program writes. -/
def mpWritten (p : Prog) : List Nat := (((p.words.map mpParse).filter fun w => (mpUse w.op).1).map fun w => w.d.toNat).eraseDups

end Sys2Proof.Machine
end

