-- ==== Sys2Proof/Machine/Context.lean ====
section
/-!
DEFINITION. Contexts: what a save and a restore move on each kind of engine and how long they take (06 R182, 07 R225, R229,
08 R285-R288, 09 R307, R309).
-/
namespace Sys2Proof.Machine

/-- The partitions of a mask, lowest first. -/
def maskParts (m : Nat) : List Nat := (List.range 4).filter fun p => m / 2 ^ p % 2 == 1
/-- The context slot of a job: its lowest partition (08 R285). -/
def ctxSlot (b : Job) : Nat := (maskParts b.part).headD 0

/-! ## Costs -/

/-- Modulus length of a class 0x5 job in bits (06 R180, R183). -/
def jobBits (d : Dev) (b : Job) : Nat :=
  let set := opSet b.e.opcode
  let k : KObj := if b.e.key0 = blobHandle then b.blob.getD {} else (resolveHandle d b.owner b.e.key0).getD {}
  if isRsa set then
    if opOp b.e.opcode = 1 then (u16At b.auxData 0).toNat
    else if opOp b.e.opcode = 0x0B then 8 * (b.e.inLen.toNat - 4)
    else 8 * rsaLen b.e (if k.pub.isEmpty then none else some k)
  else if isFfdh set then (ffBits set).1
  else if isWeier set then (curveOf d b.owner set (paramOf d b.owner b.e)).pbits
  else if set = 0x11 || set = 0x13 then 448 else 255
/-- W of a class 0x5 job: 512-bit words of an operand slot (06 R180). -/
def jobW (d : Dev) (b : Job) : Nat := cdiv (jobBits d b) 512

/-- MODBITS of a modular engine's job: of its program, or of its set (08 R274, R275). -/
def meBits (d : Dev) (b : Job) : Nat := if b.e.opcode = 0x6001 then (mpProg (ownAux b)).bits else jobBits d b

/-- Lines of a modular-engine footprint (06 R182). -/
def meLines (d : Dev) (b : Job) : Nat :=
  if b.e.opcode = 0x6001 then let p := mpProg (ownAux b); 128 + (mpWritten p).length * mpW p else 128 + 8 * jobW d b

/-- Cycles of a save or of a restore on an engine (06 R182, 08 R285, 09 R309). -/
def ctxCost (d : Dev) (b : Job) (c : Nat) : Nat :=
  if c < 16 then 48 else if c < 24 then 48 + cdiv (meLines d b) 8 else if c < 28 then 64 else 300

/-! ## Park slots and context memories (06 R182, 09 R307, R313) -/

/-- The two park slots of an owner on an engine. -/
def parkSlots (c o : Nat) : List Nat := [2 * (256 * c + o), 2 * (256 * c + o) + 1]
/-- The park slot that takes a job's context: the one it has had, else its owner's free one (log 160). -/
def parkSlot (d : Dev) (b : Job) (c : Nat) : Nat :=
  let ss := parkSlots c b.owner
  let is (x : Option Nat) (k : Nat) : Bool := (mapGet {} d.parked k).job == x
  ((ss.find? (is (some b.id))).orElse fun _ => ss.find? (is none)).getD (2 * (256 * c + b.owner))
def putPark (d : Dev) (k : Nat) (p : Parked) : Dev := { d with parked := mapSet {} d.parked k p }

/-- The context of a job on an engine that is not a core. -/
def liveCtx (d : Dev) (j c : Nat) : Parked :=
  if c < 24 then
    let m := getMe d (c - 16)
    { job := some j, full := true, micro := m.micro, slate := m.slate, bufs := m.bufs, pad := m.pad, lens := m.lens }
  else if c < 28 then { job := some j, full := true, sy := getSy d (c - 24) }
  else
    let t := getTs d (c - 28)
    { job := some j, full := true, micro := t.micro, slate := t.node, units := t.units, owned := t.owned }
/-- The job whose context an engine's context memory holds. -/
def heldJob (d : Dev) (c : Nat) : Option Nat :=
  if c < 16 then none else if c < 24 then (getMe d (c - 16)).held else if c < 28 then none else (getTs d (c - 28)).held
/-- Put a context into an engine's context memory. -/
def holdCtx (d : Dev) (c : Nat) (p : Parked) : Dev :=
  if c < 24 then modMe d (c - 16) fun x => { x with ctx := p, held := p.job } else modTs d (c - 28) fun x => { x with ctx := p, held := p.job }
/-- The context that an engine's context memory holds. -/
def heldCtx (d : Dev) (c : Nat) : Parked := if c < 24 then (getMe d (c - 16)).ctx else (getTs d (c - 28)).ctx
/-- A held context moves to its owner's park slot (06 R182, 09 R309). -/
def moveHeld (d : Dev) (c : Nat) : Dev :=
  match (heldJob d c).bind (findJob d) with
  | some b => holdCtx (putPark d (parkSlot d b c) (heldCtx d c)) c {}
  | none => d

/-! ## Moves -/

/-- Save a job's context from one engine: into its slot on a core; elsewhere into the engine's context memory when a trump job takes
the engine and none is held, else into a park slot (06 R182; 09 R309, R313). Tile partitions, input data and hash banks stay with
the job (08 R285, R286; log 161). -/
def saveOn (d : Dev) (pre : Bool) (b : Job) (c : Nat) : Dev :=
  if c < 16 then modCore d c fun r => { r with ctx := r.ctx.setIfInBounds (ctxSlot b) (some r.live), live := {} }
  else
    let p := liveCtx d b.id c
    let d1 := if pre && (heldJob d c).isNone && !(24 ≤ c && c < 28) then holdCtx d c p else putPark d (parkSlot d b c) p
    if c < 24 then modMe d1 (c - 16) fun x => { ctx := x.ctx, held := x.held }
    else if c < 28 then modSy d1 (c - 24) fun _ => {}
    else modTs d1 (c - 28) fun x => { ctx := x.ctx, held := x.held }

/-- Restore a job's context on one engine: its results have landed and its units are free. What the save left in the context memory or
in the park slot stays there until the job ends (06 R182). -/
def restoreOn (d : Dev) (b : Job) (c : Nat) : Dev :=
  if c < 16 then
    modCore d c fun r => { r with live := ((r.ctx.toList.getD (ctxSlot b) none).getD {}), yieldT := r.nextT, land := [], free := []
                                  qAt := 0, gAt := 0, ports := [], stores := [], hash := Vector.replicate 4 {}
                                  ctx := r.ctx.setIfInBounds (ctxSlot b) none }
  else
    let held := heldJob d c == some b.id
    let k := parkSlot d b c
    let p := if held then heldCtx d c else mapGet {} d.parked k
    let d1 := if held then d else putPark d k { p with full := false }
    if c < 24 then
      modMe d1 (c - 16) fun x =>
        { x with micro := p.micro, slate := p.slate, bufs := p.bufs, pad := p.pad, lens := p.lens, sched := {}
                 held := if held then none else x.held }
    else if c < 28 then modSy d1 (c - 24) fun _ => p.sy
    else modTs d1 (c - 28) fun x =>
      { x with micro := p.micro, node := p.slate, units := p.units, owned := p.owned, sched := {}, held := if held then none else x.held }

/-- The engines on which a job has a context to move: a core that already saved its half of a hybrid is left out. -/
def ctxCells (b : Job) : List Nat :=
  (match b.eng with | some c => if b.coreSaved then [] else [c] | none => []) ++
  (match b.eng2 with | some c => [c] | none => [])

/-- Save a placed job: it leaves its engines, and the save counts in its CYCLES (08 R287). A cluster-mode job only pauses: it
keeps its cores and tiles (05 R171, 09 R320). -/
def saveJob (d : Dev) (pre : Bool) (b : Job) : Dev :=
  if b.cluster then modJob d b.id fun x => { x with phase := .saved, pauseTb := d.glob.tb }
  else
    let cost := ((ctxCells b).map (ctxCost d b)).sum
    modJob ((ctxCells b).foldl (fun acc c => saveOn acc pre b c) d) b.id fun x => { x with phase := .saved, saveCyc := x.saveCyc + cost }

/-- The time for which a cluster-mode job has paused counts in its CYCLES: it held the cluster (05 R171). -/
def unpause (d : Dev) (b : Job) : Job :=
  if b.cluster && (b.phase == .saved || b.phase == .stranded) then { b with saveCyc := b.saveCyc + nsCycles 0 (d.glob.tb - b.pauseTb).toNat }
  else b

/-- Resume a saved job on its engines. -/
def restoreJob (d : Dev) (b : Job) : Dev :=
  if b.cluster then modJob d b.id fun _ => { unpause d b with phase := .placed }
  else
    let cost := ((ctxCells b).map (ctxCost d b)).sum
    modJob ((ctxCells b).foldl (fun acc c => restoreOn acc b c) d) b.id fun x => { x with phase := .placed, saveCyc := x.saveCyc + cost }

/-! ## Partitions -/

/-- Bytes of a tile partition (07 R225). -/
def partBytes : Nat := 131072

/-- Give a core's partitions to a job: one that another owner used last, and every one of a class 0xD job, is first written
with zeros (07 R229). -/
def giveParts (d : Dev) (b : Job) (c : Nat) : Dev :=
  (maskParts b.part).foldl (fun acc p =>
    modCore acc c fun r =>
      let same := r.partOwner.toList.getD p none == some b.owner && opClass b.e.opcode != 0xD
      if same then r
      else { r with tile := memClear r.tile (partBytes * p) partBytes
                    partOwner := r.partOwner.setIfInBounds p (some b.owner) }) d

/-- The cores of a placed job. -/
def jobCores (b : Job) : List Nat :=
  match b.eng with
  | some c => if 16 ≤ c then [] else if b.cluster then (List.range 4).map (c / 4 * 4 + ·) else [c]
  | none => []

/-- When a scrub of a number of core cycles ends. -/
def scrubEnd (d : Dev) (cyc : Nat) : U64 := d.glob.tb + BitVec.ofNat 64 (cdiv (10 * cyc) 12)

/-- Overwrite a core's share of a job that was stopped: its partitions, and its context slot or, where it ran, its registers,
micro-registers and hash banks; 512 core cycles a partition (02 R61, 08 R288). -/
def scrubCore (d : Dev) (b : Job) (c : Nat) : Dev :=
  let ps := maskParts b.part
  let d1 := ps.foldl (fun acc p =>
    let r := noise acc partBytes
    modCore r.2 c fun k => { k with tile := memFill k.tile (partBytes * p) (drawFrom r.1 partBytes) }) d
  let r := noise d1 12432
  let ran := (b.phase == .placed || b.phase == .ending) && !b.coreSaved
  modEng (modCore r.2 c fun k =>
    { k with ctx := ps.foldl (fun v p => v.setIfInBounds p none) k.ctx, live := if ran then noiseRegs r.1 else k.live }) c
    fun e => { e with scrubTb := scrubEnd d (if b.cluster then 840000 else 512 * ps.length) }

/-- Overwrite what a job that was stopped leaves on another engine: a modular engine's Slate at one core cycle a line (its contents go as
at every end, 06 R181), a tree sequencer's node buffer, micro-state and hash banks, a symmetric unit's state (02 R61). -/
def scrubCell (d : Dev) (b : Job) (c : Nat) : Dev :=
  let until' (d : Dev) (n : Nat) : Dev := modEng d c fun e => { e with scrubTb := scrubEnd d n }
  if c < 16 then d
  else if c < 24 then
    modEng (until' d (meLines d b)) c fun e => { e with busy := e.busy + BitVec.ofNat 64 (meLines d b) }
  else if c < 28 then
    let r := noise d 128
    until' (modSy r.2 (c - 24) fun _ =>
      { keys := drawFrom r.1 64, ctr := noiseBv 128 (r.1 + 64), tweak := noiseBv 128 (r.1 + 80), ghash := noiseBv 128 (r.1 + 96)
        poly := noiseBv 130 (r.1 + 112), seed := [] }) 1
  else if c < 32 then
    let r := noise d 79632
    until' (modTs r.2 (c - 28) fun x =>
      { x with micro := noiseMicro r.1, node := memFill [] 0 (drawFrom (r.1 + 272) slateBytes)
               units := Vector.ofFn fun i => noiseBank (r.1 + 65808 + 864 * i.val) }) 225
  else d

/-- What an aborted or faulted job leaves behind is overwritten with DRBG output before its engines serve again (02 R61, 05 R173,
08 R288; log 34). -/
def scrubJob (d : Dev) (b : Job) : Dev :=
  let d1 := (jobCores b).foldl (fun acc c => scrubCore acc b c) d
  if b.phase == .placed || b.phase == .ending then (ctxCells b).foldl (fun acc c => scrubCell acc b c) d1 else d1

end Sys2Proof.Machine
end

