-- ==== Sys2Proof/Machine/Place.lean ====
section
/-!
DEFINITION. Placement of jobs in dealt cells, job start, the data a job reads, and its end by a failed read
(09 R303-R313; 01 R15, R16, R19; 02 R42, R43; 19 R543).
-/
namespace Sys2Proof.Machine

/-! ## Occupancy -/

/-- The cells that a running job keeps: its engine, its second engine, and the whole cluster of a cluster-mode job. -/
def jobCells (b : Job) : List Nat :=
  let cs := match b.eng with
    | some c => if b.coreSaved then [] else if b.cluster then [c / 4 * 4, c / 4 * 4 + 1, c / 4 * 4 + 2, c / 4 * 4 + 3] else [c]
    | none => []
  cs ++ (match b.eng2 with | some c => [c] | none => [])

/-- The job that keeps a cell busy. -/
def cellJob (d : Dev) (c : Nat) : Option Job :=
  d.jobs.live.find? fun b =>
    (b.phase == .placed || b.phase == .ending || (b.cluster && (b.phase == .saved || b.phase == .stranded))) && (jobCells b).contains c

def isTrump (b : Job) : Bool := b.mode == 2
def isSharing (b : Job) : Bool := b.mode == 1

/-- The trick after the current one. -/
def nextTrick (d : Dev) : Nat := (d.dlr.trick.toNat + 1) % 64
/-- The occupant of a cell in this trick. -/
def occNow (d : Dev) (c : Nat) : Option Nat := if h : c < 32 then d.dlr.occ[c] else none
/-- The occupant of a cell in the coming trick. -/
def occSoon (d : Dev) (c : Nat) : Option Nat := if h : c < 32 then d.dlr.occNext[c] else none

/-- Whether a job may be on a cell in a trick with the given cell and occupant (09 R308-R313). -/
def mayRun (b : Job) (cell : Nat) (occ : Option Nat) : Bool :=
  (isTrump b && cellReserved cell b.owner)
    || (occ == some b.owner && (isSharing b || cellOwned cell == some b.owner))

/-- Whether a job may be placed on a cell now: this trick's rule, and inside the turnover window the next trick's too. -/
def cellOpen (d : Dev) (b : Job) (c : Nat) : Bool :=
  if 32 ≤ c then true
  else
    mayRun b (tblCell d.dlr.act d.dlr.trick.toNat c) (occNow d c)
      && (!d.dlr.window || mayRun b (tblCell (nextTable d) (nextTrick d) c) (occSoon d c))

/-- Partitions of a core that a job's owner may use and that no job uses (09 R307). -/
def freeParts (d : Dev) (b : Job) (c : Nat) : List Nat :=
  (List.range 4).filter fun p =>
    let cell := tblPart d.dlr.act c p
    cellV cell && cellOwner cell == b.owner && (!cellR cell || isTrump b)
      && !d.jobs.live.any fun x => (jobCores x).contains c && (x.part / 2 ^ p % 2 == 1)

/-- The partitions that a job of an image with `parts` partitions takes on a core: contiguous and aligned, the lowest free
ones, a trump job's kept ones first (07 R225, 09 R307; the example after 09 R315 takes partition 1 before 0). -/
def partMask (d : Dev) (b : Job) (parts c : Nat) : Option Nat :=
  let f := freeParts d b c
  if parts = 4 then (if f.length = 4 then some 15 else none)
  else if parts = 2 then
    (if f.contains 0 && f.contains 1 then some 3 else if f.contains 2 && f.contains 3 then some 12 else none)
  else
    let kept := if isTrump b then f.filter fun p => cellR (tblPart d.dlr.act c p) else []
    ((kept ++ f).head?).map fun p => 2 ^ p

/-- Whether the core half of a hybrid job waits to resume on its core (03 R117). -/
def halfWaits (b : Job) : Bool := b.phase == .placed && b.coreSaved && b.ecDone.isSome

/-- Whether a saved job that an engine serves before `b` may resume there now (09 R308), or the core half of a hybrid (03 R117). -/
def savedFirst (d : Dev) (b : Job) (c : Nat) : Bool :=
  d.jobs.live.any fun x =>
    (halfWaits x && x.eng == some c && cellOpen d x c)
      || (x.phase == .saved && x.id != b.id && (ctxCells x).contains c && (isTrump x || !isTrump b) && cellOpen d x c)

/-- Whether the last scrub of an engine has ended (02 R61). -/
def scrubDone (d : Dev) (c : Nat) : Bool := decide ((getEng d c).scrubTb ≤ d.glob.tb)
/-- Whether an engine takes new work (01 R15). -/
def engineServes (d : Dev) (c : Nat) : Bool :=
  if 32 ≤ c then true else (getEng d c).svc == .inService && !swapHeld d c && !cellHalted d c && scrubDone d c
/-- Whether an engine takes back the jobs whose contexts it holds: also while it drains (08 R292 step 2, 16 R467). -/
def engineResumes (d : Dev) (c : Nat) : Bool :=
  if 32 ≤ c then true
  else ((getEng d c).svc == .inService || (getEng d c).svc == .draining) && !cellHalted d c && scrubDone d c

/-- Whether an engine's park slots leave room for one more context of a job's owner: two for each owner (09 R307; log 160). -/
def parkRoom (d : Dev) (b : Job) (c : Nat) : Bool :=
  c < 16 || 32 ≤ c || decide ((d.jobs.live.filter fun x =>
    x.id != b.id && x.owner == b.owner && (x.phase == .saved || x.phase == .stranded) && (ctxCells x).contains c).length < 2)

/-- Whether an instance holds the routine of a job: a core the custom image of its manifest, in a form that takes the job; another
engine an entry of its directory (07 R262; 08 R282; 09 R308). -/
def imageOnCore (d : Dev) (b : Job) (c : Nat) : Bool :=
  if opClass b.e.opcode = 0xD then (customAt d c (opSet b.e.opcode)).any fun i => imgTakes (parseImg i.bytes) b.order b.e.auxLen.toNat b.e.outCap.toNat
  else if opClass b.e.opcode = 3 || opClass b.e.opcode = 5 || opClass b.e.opcode = 6 then holdsRoutine d c b.e.opcode
  else true

/-- The tile partitions that a job's image on a core declares: a vendor image 1 (07 R260; log 10). -/
def partsOn (d : Dev) (b : Job) (c : Nat) : Nat :=
  if opClass b.e.opcode = 0xD then match customAt d c (opSet b.e.opcode) with | some i => (parseImg i.bytes).parts | none => 1
  else 1

/-- Whether an engine is free for a job in every respect. -/
def engineFree (d : Dev) (b : Job) (c : Nat) : Bool :=
  engineServes d c && cellOpen d b c
    && (if 32 ≤ c then true
        else (cellJob d c).isNone && !savedFirst d b c && parkRoom d b c && ((heldJob d c).isNone || isTrump b)
          && (cellKind c != .py || (partMask d b (partsOn d b c) c).isSome))

/-- Whether a whole cluster is free for a cluster-mode job of its CAP owner: its four cores run one release (09 R306, R307; 05 R171;
08 R292). -/
def clusterFree (d : Dev) (b : Job) (n : Nat) : Bool :=
  cellOwned (tblCap d.dlr.act n) == some b.owner
    && (List.range 4).all (fun i => (getStore d (4 * n + i)).actVer == (getStore d (4 * n)).actVer)
    && (List.range 4).all fun i =>
      let c := 4 * n + i
      engineServes d c && (cellJob d c).isNone && cellOpen d b c
        && (List.range 4).all fun p => (freeParts d b c).contains p

/-- The engine that the Dealer takes: the lowest-numbered free one (09 R308). -/
def pickEngine (d : Dev) (b : Job) (k : EngKind) : Option Nat :=
  if b.cluster then ((List.range 4).find? fun n => clusterFree d b n).map (· * 4)
  else (kindCells k).find? fun c => imageOnCore d b c && engineFree d b c

/-- The partitions that a job takes on a core, as a bit mask. -/
def takeParts (d : Dev) (b : Job) (c : Nat) : Nat :=
  if cellKind c = .py then
    if b.cluster then 15 else (partMask d b (partsOn d b c) c).getD 0
  else 0

/-! ## The lists and data a job reads (02 R42, R43) -/

/-- The segments of a list's bytes. -/
def parseSegs : Nat → Bytes → List Seg
  | 0, _ => []
  | f + 1, bs => if bs.length < 16 then [] else
      { addr := u64At bs 0, len := u32At bs 8, rsv := u32At bs 12 } :: parseSegs f (bs.drop 16)

/-- The verdict on the segments read so far. -/
inductive SegScan | more | done (n : Nat) | bad (i : Nat)
  deriving DecidableEq, Repr

/-- Check segments in order until they cover `need` bytes (02 R43). -/
def segScan : List Seg → Nat → Nat → SegScan
  | [], i, need => if need = 0 then .done i else if 256 ≤ i then .bad 256 else .more
  | s :: ss, i, need =>
    if need = 0 then .done i
    else if 256 ≤ i then .bad 256
    else if s.len = 0 || s.rsv ≠ 0 then .bad i
    else segScan ss (i + 1) (need - s.len.toNat)

/-- The first of the segments used that wraps (19 R543). -/
def segWraps (segs : List Seg) : Option Seg := segs.find? fun s => decide (2 ^ 64 < s.addr.toNat + s.len.toNat)

/-- Issue the data reads of a segment list. -/
def readSegs (d : Dev) (b : Job) : List Seg → Nat → Dev
  | [], _ => d
  | s :: ss, need => readSegs (hostRead d b.owner s.addr (min need s.len.toNat) (.input b.id)) b ss (need - s.len.toNat)

/-- Record a fault of codes 0x0501 to 0x0509 in a core's `PY_LASTF` and `PY_FLTCNT` (07 R265). -/
def noteFault (d : Dev) (c : Nat) (st det : U16) : Dev :=
  if 16 ≤ c || st < 0x0501 || 0x0509 < st then d
  else
    let old := (getEng d c).lastValid
    let r := getCore d c
    raise (modEng d c fun e => { e with
      fltCnt := satInc e.fltCnt, lastStatus := st, lastDetail := det, lastPc := r.live.pc >>> 2
      lastVres := r.live.vresume.setWidth 16, lastValid := true }) 1 (BitVec.ofBool old) 1

/-- Whether the bytes that a job has written fall short of its operation's full output: with room for no more it would be refused
(02 R40). -/
def shortOutput (d : Dev) (b : Job) : Bool :=
  match opSpec d b.owner { b.e with outCap := BitVec.ofNat 32 b.outLen } with
  | none => false
  | some sp =>
    let k := if b.e.key0 = blobHandle then b.blob else keyObj d b.owner sp.key0 b.e.key0
    sp.len k (b.e.auxLen.toNat - blobLen b) == some 2

/-- Whether what a job has written falls short of its full output (02 R80): a STORE of its program was not reached (06 R204), a custom
image has not written its OUTMAX (log 159), another operation has not written all of its output. -/
def isPartial (d : Dev) (b : Job) : Bool :=
  if b.e.opcode = 0x6001 then
    ((mpProg (ownAux b)).words.drop (match b.mp with | some r => r.idx | none => 0)).any fun v => (mpParse v).op == 0x18
  else if opClass b.e.opcode = 0xD then decide (b.outLen < (mapGet {} d.io b.id).hdr.outMax)
  else shortOutput d b

/-- EFFECT of a job that a fault or an abort ends: OUTPUT and PARTIAL by what it has written (02 R61, R80). -/
def brokenEffect (d : Dev) (b : Job) : Byte :=
  b.effect ||| (if b.outLen = 0 then 0 else effOutput) ||| (if isPartial d b then effPartial else 0)

/-- Whether a placed job still waits for the check of its output list (02 R43). -/
def listDue (b : Job) : Bool := b.eng.isSome && outSgl b.e && b.e.outCap != 0 && !b.outOk && b.outBad.isNone

/-- A core's page wait ends: its time enters the histogram of page waits (17 R479; log 185). -/
def pageWaited (d : Dev) (io : JobIo) (c : Nat) : Dev :=
  match mapGet none io.wait c with
  | some (.page _, _) => recHist d 0x502 (d.glob.tb - mapGet 0 io.waitTb c).toNat
  | _ => d

/-- The waits that a job's end cuts short count in `PY_WAIT` up to now (07 R265). -/
def endWaits (d : Dev) (b : Job) : Dev :=
  let io := mapGet {} d.io b.id
  io.wait.foldl (fun acc w =>
    if w.2.isNone then acc
    else modEng acc w.1 fun e => { e with wait := e.wait + BitVec.ofNat 64 (nsCycles w.1 (d.glob.tb - mapGet 0 io.waitTb w.1).toNat) }) d

/-- End a job with a fault or an abort now: OUT_LEN and EFFECT report what it has done, and what it used is overwritten (02 R61). -/
def failNow (d : Dev) (b : Job) (st det : U16) : Dev :=
  let d := endWaits d b
  let b := unpause d b
  finish (scrubJob d b) { b with effect := brokenEffect d b } st det

/-- A fault that its cell `c` reports, or an abort, ends a job; its completion waits for its output list's check (02 R43). -/
def failOn (d : Dev) (b : Job) (c : Nat) (st det : U16) : Dev :=
  if b.phase = .ending then d
  else if listDue b then modJob (noteFault d c st det) b.id fun _ => { b with phase := .ending, fail := some (c, st, det) }
  else failNow (noteFault d c st det) b st det

/-- Complete a job with a fault or an abort, reported by its own engine. -/
def failJob (d : Dev) (b : Job) (st det : U16) : Dev :=
  failOn d b (match b.eng with | some c => if b.coreSaved then 16 else c | none => 16) st det

/-- Abort a job with a status: placed jobs at their next yield point, all others at once (02 R61, R74). A homed job's member does it
(log 38). -/
def abortJob (d : Dev) (b : Job) (st : U16) : Dev :=
  if b.remote then sendFrame d b.node .abandon (leBytes 2 b.owner ++ leBytes 8 b.id ++ le16 st)
  else if b.phase = .placed then modJob d b.id fun x => { x with abort := some (x.abort.getD st) }
  else if b.phase = .waiting || b.phase = .unwrapping then finish d { b with eng := none } st 0
  else if b.phase = .ending then d
  else failJob d b st 0

/-- Write `Q_SQ_CFG` with EN = 0, with or without ABORT (02 R74). -/
def sqDisable (d : Dev) (q : Nat) (v : U64) : Dev :=
  let s0 := getSq d q
  let d1 :=
    if s0.en then
      setSq d q { s0 with en := false, window := [], captured := [], reading := none, held := none,
                          fenceWait := false, slotWait := false, creditWait := false, jrnWait := false,
                          draining := s0.outstanding != 0 }
    else setSq d q (sqFields s0 v)
  if v.getLsbD 2 then (d1.jobs.live.filter fun b => b.sq == q).foldl (fun acc b => abortJob acc b stDiscarded) d1
  else d1

/-- The DMA failure of a segment that wraps: no request, `HIF_EVENT.DMA_ERR`, KIND 7 (19 R543). -/
def wrapFailed (d : Dev) (b : Job) (addr : U64) : Dev :=
  hifCause (hifLastErr d b.owner 7 (match b.eng with | some c => engineCode b.node c | none => 0) (addr.setWidth 32)) 0x2

/-- The engine part of a job's identity. -/
def jobEngine (b : Job) : U16 := match b.eng with | some c => engineCode b.node c | none => 0

/-- The DMA address that a side reads. -/
def sideAddr (b : Job) : DmaSide → U64
  | .input => b.e.inAddr | .inList => b.e.inAddr | .aux => b.e.auxAddr | .outList => b.e.outAddr

/-- DETAIL of DMA_ERROR by side (19 R543). -/
def sideDetail : DmaSide → U16 | .input => 1 | .aux => 3 | .inList => 4 | .outList => 4

/-- A job's read failed: the job ends with DMA_ERROR (19 R543). `kind` is KIND of `HIF_LASTERR`. -/
def jobReadFailed (d : Dev) (b : Job) (side : DmaSide) (kind : Nat) : Dev :=
  let d1 := readFailed (readOver d (ofJob b.id side)) b.owner kind (jobEngine b) (sideAddr b side)
  if side = .outList then failNow d1 b stDmaError 4 else failJob d1 b stDmaError (sideDetail side)

/-- The time that a placed job has waited for its input, when the last of it arrives: from its placement, in ns (09 R308, 10 R323;
log 66). A custom program's waits are those of its JWAITs. -/
def inputIn (d : Dev) (b : Job) : Job :=
  if b.phase = .placed && opClass b.e.opcode != 0xD && b.inData.length == b.e.inLen.toNat && b.auxData.length == b.e.auxLen.toNat then
    { b with waitNs := (d.glob.tb - b.placeTb).toNat }
  else b

/-- Data of a job arrives: it is delivered in order (02 R42, R43; 19 R540). -/
def jobData (d : Dev) (b : Job) (side : DmaSide) (bs : Bytes) : Dev :=
  let d := readDone d (ofJob b.id side) bs.length
  match side with
  | .input => modJob d b.id fun x => inputIn d { x with inData := (x.inData ++ bs).take x.e.inLen.toNat }
  | .aux => modJob d b.id fun x => inputIn d { x with auxData := (x.auxData ++ bs).take x.e.auxLen.toNat }
  | .inList =>
    let segs := (b.inSegs.getD []) ++ parseSegs 256 bs
    match segScan segs 0 b.e.inLen.toNat with
    | .bad i => failJob d b stSglInvalid (BitVec.ofNat 16 i)
    | .more =>
      hostRead (modJob d b.id fun x => { x with inSegs := some segs }) b.owner
        (b.e.inAddr + BitVec.ofNat 64 (16 * segs.length)) 16 (.inList b.id)
    | .done n =>
      let used := segs.take n
      match segWraps used with
      | some s => failJob (wrapFailed d b s.addr) b stDmaError 1
      | none => readSegs (modJob d b.id fun x => { x with inSegs := some used }) b used b.e.inLen.toNat
  | .outList =>
    let segs := (b.outSegs.getD []) ++ parseSegs 256 bs
    let d1 := modJob d b.id fun x => { x with outSegs := some segs }
    match segScan segs 0 b.e.outCap.toNat with
    | .more => hostRead d1 b.owner (b.e.outAddr + BitVec.ofNat 64 (16 * segs.length)) 16 (.outList b.id)
    | _ => d1

/-- The data of a homed job's read, or its failure, goes to the member (18 R515). -/
def remoteData (d : Dev) (b : Job) (side : DmaSide) (r : DmaRes) : Dev :=
  match r with
  | .data bs => sendReadData (readDone d (ofJob b.id side) bs.length) b.node b.id side bs
  | r => sendFrame (readFailed (readOver d (ofJob b.id side)) b.owner (failKind r) 0 (sideAddr b side)) b.node .rdData (rdDataBody b.id side (failKind r) [])

/-- A completion of a DMA read of a job arrives (19 R540, R543). One for a job that has gone is dropped (13 R410). -/
def dmaReadCompletionGo (j : Nat) (side : DmaSide) (r : DmaRes) (d : Dev) : Dev :=
  match findJob d j with
  | none => readOver d (ofJob j side)
  | some b =>
    if b.remote then remoteData d b side r
    else
      match r with
      | .data bs => jobData d b side bs
      | r => jobReadFailed d b side (failKind r)

/-- The verdict on a job's output list is in: a job that waited for it to end does so. -/
def listVerdict (d : Dev) (b : Job) : Dev :=
  match b.fail with
  | some (_, st, det) => failNow d b st det
  | none => modJob d b.id fun _ => b

/-- The output list has been checked (02 R43): the job's output may proceed, or the job will end with SGL_INVALID. -/
def outputListCheckedGo (j : Nat) (d : Dev) : Dev :=
  match findJob d j with
  | none => d
  | some b =>
    match b.outSegs with
    | none => d
    | some segs =>
      match segScan segs 0 b.e.outCap.toNat with
      | .more => d
      | .bad i => listVerdict d { b with outBad := some (BitVec.ofNat 16 i) }
      | .done n =>
        match segWraps (segs.take n) with
        | some s => failNow (wrapFailed d b s.addr) { b with outSegs := none } stDmaError 2
        | none => listVerdict d { b with outSegs := some (segs.take n), outOk := true }

/-- A DMA read times out (19 R533, R543): the SQ stops, or the job ends. -/
def dmaReadTimeoutGo (t : DmaTarget) (d : Dev) : Dev :=
  match t with
  | .entry q =>
    let s := getSq d q
    match s.reading with
    | none => readOver d (ofSq q)
    | some i =>
      stopSq (readFailed (readOver d (ofSq q)) ((sqOwner d q).getD 0) 3 0
        ((s.base.setWidth 64 <<< 12) + BitVec.ofNat 64 (64 * (i.toNat % sqSize s)))) q erFetchError i
  | .job j side =>
    match findJob d j with
    | none => readOver d (ofJob j side)
    | some b =>
      if b.remote then
        sendFrame (readFailed (readOver d (ofJob j side)) b.owner 3 0 (sideAddr b side)) b.node .rdData (rdDataBody b.id side 3 [])
      else jobReadFailed d b side 3

/-! ## Service order (09 R308) -/

/-- Whether `x` is served before `b` among the waiting work of one owner and kind: trump jobs first, then fetch order. -/
def servedBefore (x b : Job) : Bool :=
  if isTrump x && !isTrump b then true
  else if isTrump b && !isTrump x then false
  else decide (x.id < b.id)

/-- The kind of engine that a job needs. -/
def jobKind (d : Dev) (b : Job) : EngKind :=
  match b.nextKind with
  | 1 => .py
  | 3 => .me
  | 4 => .sy
  | _ => match opSpec d b.owner b.e with | some s => s.kind | none => .none
/-- The second kind that a hybrid job needs (03 R117). -/
def jobKind2 (d : Dev) (b : Job) : EngKind := match opSpec d b.owner b.e with | some s => s.kind2 | none => .none

/-- The cell for a job's second engine, if it needs one: none inside where none is free. -/
def secondCell (d : Dev) (b : Job) (k : EngKind) : Option (Option Nat) :=
  if k = .none then some none else ((kindCells k).find? fun x => imageOnCore d b x && engineFree d b x).map some

/-- Whether another waiting job is served before this one on the engine that it would take: trump jobs, then fetch order, over all
owners (09 R308). -/
def outranked (d : Dev) (b : Job) : Bool :=
  d.jobs.live.any fun x =>
    x.id != b.id && x.phase == .waiting && jobKind d x == jobKind d b && servedBefore x b
      && (pickEngine d x (jobKind d x)).isSome && pickEngine d x (jobKind d x) == pickEngine d b (jobKind d b)
      && (secondCell d x (jobKind2 d x)).isSome && !(d.rng.hold.isSome && needsRandom d x.owner x.e)

/-- Whether the key store refuses to resolve keys of an owner: during its soft zeroise (12 R396). -/
def resolveStopped (d : Dev) (o : Nat) : Bool :=
  match d.ks.zsoft with | some z => z.all || z.owner == o | none => false

/-- Resolve a key field whose secret part the operation uses. `none`: the handle no longer resolves. -/
def resolveField (d : Dev) (o : Nat) (u : KeyUse) (h : U32) : Option Dev :=
  match keyObj d o u h with
  | none => if (match u with | .none => true | _ => h == noHandle || h == blobHandle) then some d else none
  | some k => if keySecret u (some k) then (resolveKey d o h).map (·.2) else some d

/-- Whether a grant with HALT or SUPV bars a key that a field names: a persistent or stateful key older than the grant (14 R435). -/
def keyBarred (d : Dev) (o : Nat) (u : KeyUse) (h : U32) : Bool :=
  match u with
  | .none => false
  | _ => h != noHandle && h != blobHandle && d.lc.barred.contains (slotKey o (hSlot h) * 256 + (hGen h).toNat)

/-! ## Program images and job start on a core (07 R215, R235, R260, R261; 10 R326) -/

/-- A figure of the vendor image of an opcode: free, since the spec publishes no image (log 4). -/
def vendorFig (e : Sqe) (i : Nat) : Nat := Config.count .vendorRoutine [le16 e.opcode, [BitVec.ofNat 8 i]]

/-- Whether a job takes a Classic McEliece public key from IN through the streaming window (05 R167). -/
def streamsKey (e : Sqe) : Bool :=
  opClass e.opcode == 4 && !isHqc (opSet e.opcode) && (opOp e.opcode == 2 || opOp e.opcode == 4 || opOp e.opcode == 6) && e.inLen != 0

/-- The header of a vendor image, in its ranges (07 R260); a streaming window has four pages of 32 KiB (05 R167). -/
def vendorHdr (e : Sqe) (cluster : Bool) : ImgHdr :=
  { version := BitVec.ofNat 8 (vendorFig e 0), cluster := cluster, fixed := vendorFig e 1 % 2 == 1
    entries := Vector.ofFn fun i => BitVec.ofNat 16 (vendorFig e (2 + i.val)), codeLen := vendorFig e 6
    inPages := if streamsKey e then 4 else vendorFig e 7 % 16 + 1, pageLog := if streamsKey e then 15 else vendorFig e 8 % 5 + 11, inBase := vendorFig e 9 % 65536 * 2048
    auxBase := vendorFig e 10 % 65536 * 256, rndLen := vendorFig e 11 % 129, auxMax := vendorFig e 12, outMax := vendorFig e 13 }

/-- The header of the image that a job runs on a core. -/
def jobHdr (d : Dev) (b : Job) (c : Nat) : ImgHdr :=
  if opClass b.e.opcode = 0xD then match customAt d c (opSet b.e.opcode) with | some i => parseImg i.bytes | none => {}
  else vendorHdr b.e b.cluster

/-- First byte of an image in program memory: custom images stand in the order of PROG from 0xC000 (07 R261; log 45), and the
place of a vendor image is free. -/
def imageBase (d : Dev) (b : Job) (c : Nat) : Nat :=
  if opClass b.e.opcode = 0xD then
    0xC000 + 4 * (((List.range (opSet b.e.opcode)).filterMap (customAt d c)).map fun i => (parseImg i.bytes).codeLen).sum
  else 4 * (vendorFig b.e 14 % 0x3000)

/-- VERSION of the routine that an engine runs: of its image on a core; from its directory on a modular engine or tree sequencer; free
where the release is not published (02 R44, 07 R260, 08 R282). -/
def jobVer (d : Dev) (b : Job) (c : Nat) : Byte :=
  if opClass b.e.opcode = 0xD then (jobHdr d b c).version
  else match (cellSeq c).bind fun u => if u < 16 then none else dirEntry d u b.e.opcode with
    | some x => x.ver
    | none => BitVec.ofNat 8 (vendorFig b.e 0)

/-- Length of the secret part of the object that a key field names, 0 where it names none. -/
def portLen (d : Dev) (b : Job) (h : U32) : Nat :=
  (if h = blobHandle then b.blob.getD {} else (resolveHandle d b.owner h).getD {}).shareA.length

/-- The registers of a core at job start (07 R215). -/
def pyStart (d : Dev) (b : Job) (c : Nat) : PyRegs :=
  let e := b.e
  let x (n : Nat) : U64 :=
    match n with
    | 1 => e.param.setWidth 64
    | 2 => e.inLen.setWidth 64
    | 3 => e.outCap.setWidth 64
    | 4 => e.auxLen.setWidth 64
    | 5 => BitVec.ofNat 64 b.order
    | 6 => if b.cluster then BitVec.ofNat 64 (c % 4) else 0
    | 7 => e.opcode.setWidth 64
    | 8 => BitVec.ofNat 64 (portLen d b e.key0)
    | 9 => BitVec.ofNat 64 (portLen d b e.key1)
    | _ => 0
  { x := Vector.ofFn fun i => x i.val
    pc := BitVec.ofNat 16 (imageBase d b c + 4 * ((jobHdr d b c).entries.toList.getD b.order 0).toNat) }

/-- The bytes of randomness that a vendor routine on a core takes: seeds, messages, rnd and salts (03 R113, 05 R166). -/
def rndListed (e : Sqe) : Nat :=
  let op := opOp e.opcode
  let set := opSet e.opcode
  match opClass e.opcode with
  | 0x1 => if op = 1 then (if pbit e 1 then 0 else 64) else if op = 2 || op = 4 then 32 else 0
  | 0x2 =>
    if op = 1 then (if pbit e 1 then 0 else 32)
    else if 2 ≤ op && op ≤ 4 then (if isFnDsa set then 40 else if pbit e 0 then 0 else 32) else 0
  | 0x4 =>
    let sigma := ((codeSet set).map (·.sigma)).getD 0
    if op = 1 then (if pbit e 1 then 0 else if isHqc set then 80 + sigma else 32)
    else if op = 2 || op = 4 then (if isHqc set then sigma + 16 else 32) else 0
  | 0xB => 32
  | _ => 0
/-- Whether a vendor routine handles a secret without masking and shuffles its work (10 R332). -/
def shuffles (b : Job) : Bool :=
  let op := opOp b.e.opcode
  match opClass b.e.opcode with
  | 0x1 => b.order == 0 && (op == 1 || op == 3 || op == 5)
  | 0x2 => (b.order == 0 || isFnDsa (opSet b.e.opcode)) && decide (1 ≤ op) && decide (op ≤ 4)
  | 0x4 => op == 1
  | _ => false
/-- RNDLEN of the image that a job runs; a vendor image's shuffling seed has at least 64 bits, a free length beyond (07 R235; 10 R332). -/
def rndLen (d : Dev) (b : Job) (c : Nat) : Nat :=
  if opClass b.e.opcode = 0xD then (jobHdr d b c).rndLen
  else rndListed b.e + (if shuffles b then 8 + vendorFig b.e 16 % 25 else 0)

/-- The job I/O of a job that starts: its random buffer, filled from the DRBG, and from order 2 on the fresh strings of its key port
(07 R235, 10 R326). -/
def startIo (d : Dev) (b : Job) (c : Nat) (seed : Bytes) : Dev :=
  let h := jobHdr d b c
  let custom := opClass b.e.opcode == 0xD
  let r := draw d (rndLen d b c)
  let ctr := r.2.glob.drbgCtr
  let d2 := if b.order ≤ 1 then r.2 else (draw r.2 (2 * (portLen d b b.e.key0 + portLen d b b.e.key1))).2
  let io : JobIo :=
    { hdr := { h with rndLen := rndLen d b c }, base := imageBase d b c, started := !custom, auxIn := b.e.auxLen == 0, rnd := r.1, mxSeed := seed, keyCtr := ctr }
  { d2 with io := mapSet {} d2.io b.id io }

/-- A symmetric unit when a job starts: the shares of its key, the seed of its mask generator (10 R334). -/
def syStart (d : Dev) (b : Job) (seed : Bytes) : SyEng :=
  let k := if b.e.key0 = blobHandle then b.blob.getD {} else (resolveHandle d b.owner b.e.key0).getD {}
  { keys := k.shareA ++ k.shareB, seed := seed }

/-- The length registers of a modular engine when a job starts: MODBITS, L and W (08 R275). -/
def meLens (d : Dev) (b : Job) : Vector U64 3 :=
  let n := meBits d b
  #v[BitVec.ofNat 64 n, BitVec.ofNat 64 (cdiv n 64), BitVec.ofNat 64 (cdiv n 512)]

/-- The micro-PC at which a job starts on a modular engine or tree sequencer: the entry of its directory (08 R282), free without a
release. -/
def startPc (d : Dev) (b : Job) (c : Nat) : BitVec 14 :=
  BitVec.ofNat 14 (((cellSeq c).bind fun u => routineStart d u b.e.opcode).getD (vendorFig b.e 15))

/-- The mask seed of a job that is placed on cell `c`: 32 bytes of DRBG output from order 1 on, for the symmetric unit's generator, and
for the identity key's ML-DSA, which signs at order 2 (10 R329, R334; 12 R390). -/
def maskSeed (d : Dev) (b : Job) (c : Nat) : Bytes × Dev :=
  if decide (0 < b.order) || cellKind c == .sy || (opClass b.e.opcode == 0xB && !pbit b.e 0) then draw d 32 else ([], d)

/-- Prepare the engines of a job that has been placed: a core's partitions and registers (07 R215, R229), another engine's own state. -/
def startOn (d : Dev) (b : Job) (seed : Bytes) : Dev :=
  let d1 := (jobCores b).foldl (fun acc c => modCore (giveParts acc b c) c fun r =>
    { r with live := pyStart acc b c, nextT := 0, land := [], free := [], qAt := 0, gAt := 0, ports := [], stores := [], yieldT := 0
             hash := Vector.replicate 4 {}, resumed := false }) d
  let d2 := (ctxCells b).foldl (fun acc c =>
    if c < 16 then acc
    else if c < 24 then modMe acc (c - 16) fun x => { lens := meLens d b, slate := x.slate, micro.upc := startPc d b c, ctx := x.ctx, held := x.held }
    else if c < 28 then modSy acc (c - 24) fun _ => syStart d b seed
    else if c < 32 then modTs acc (c - 28) fun x => { micro.upc := startPc d b c, ctx := x.ctx, held := x.held }
    else acc) d1
  match (jobCores b).head? with | some c => startIo d2 b c seed | none => d2

/-! ## Stopping a placed job (07 R247; 09 R309, R313) -/

/-- Whether a sequencer's micro-state stands in the middle of a routine, away from its last yield point. -/
def inRoutine (m : Micro) (s : Sched) : Bool := m.run && decide (s.yieldT < s.nextT)

/-- Whether a placed job stands at a yield point now: its routine has issued nothing since the last one, or it waits (07 R236, R239;
08 R283). -/
def atYield (d : Dev) (b : Job) : Bool :=
  (if b.cluster then jobCores b else ctxCells b).all fun c =>
    if c < 16 then (mapGet none (mapGet {} d.io b.id).wait c).isSome || decide ((getCore d c).nextT ≤ (getCore d c).yieldT + 1)
    else if c < 24 then !inRoutine (getMe d (c - 16)).micro (getMe d (c - 16)).sched
    else if c < 28 || 32 ≤ c then true
    else !inRoutine (getTs d (c - 28)).micro (getTs d (c - 28)).sched

/-- Stop a placed job at its yield point: an abort first, then its deadline, else it is saved (07 R247, 09 R309). -/
def stopJob (d : Dev) (pre : Bool) (b : Job) : Dev :=
  match b.abort with
  | some st => failJob d b st 0
  | none => if late d b.e then failJob d b stDeadline 0 else saveJob d pre b

/-- The cell that a waiting trump job without a free engine takes: the lowest reserved cell of its owner whose job is neither a trump
job nor in cluster mode (09 R313). -/
def trumpTarget (d : Dev) (b : Job) (k : EngKind) : Option Nat :=
  if !isTrump b || b.cluster || (pickEngine d b k).isSome then none
  else
    (kindCells k).find? fun c =>
      decide (c < 32) && imageOnCore d b c && engineServes d c && cellReserved (tblCell d.dlr.act d.dlr.trick.toNat c) b.owner
        && cellOpen d b c && parkRoom d b c
        && (match cellJob d c with | some x => x.phase == .placed && !isTrump x && !x.cluster && parkRoom d x c | none => false)
        && (cellKind c != .py || (partMask d b (partsOn d b c) c).isSome)

/-- A trump job takes its cell: the job there is stopped at its next yield point, at once when it stands at one (09 R313, 06 R182). -/
def preempt (d : Dev) (b : Job) (k : EngKind) : Dev :=
  match trumpTarget d b k with
  | none => d
  | some c =>
    match cellJob d c with
    | none => d
    | some x => if atYield d x then stopJob { d with dlr.preempt := satInc d.dlr.preempt } true x else d

/-- Whether a waiting trump job wants the engine of a placed job (09 R313). -/
def trumpWaits (d : Dev) (b : Job) : Bool :=
  d.jobs.live.any fun x =>
    x.phase == .waiting && (match trumpTarget d x (jobKind d x) with | some c => (ctxCells b).contains c | none => false)

/-- Whether a placed job may go on in the coming trick (09 R309). -/
def stayNext (d : Dev) (b : Job) : Bool :=
  (if b.cluster then jobCells b else ctxCells b).all fun c =>
    decide (32 ≤ c) || mayRun b (tblCell (nextTable d) (nextTrick d) c) (occSoon d c)

/-- What the Dealer does with a job at a yield point: the turnover window stops a job that may not run in the next trick, a trump
job that waits for the engine takes it, and the core half of a hybrid resumes on its core (03 R117; 07 R247; 09 R309, R313). A debug halt
comes before it. -/
def dealYield (d : Dev) (b : Job) : Dev :=
  if (ctxCells b).any (cellHalted d) then d
  else if d.dlr.window && !stayNext d b then
    stopJob { d with dlr.turn := d.dlr.turn + BitVec.ofNat 64 ((ctxCells b).filter (· < 32)).length } false b
  else if trumpWaits d b then stopJob { d with dlr.preempt := satInc d.dlr.preempt } true b
  else if d.jobs.live.any fun x => halfWaits x && (match x.eng with | some c => (ctxCells b).contains c && cellOpen d x c | none => false) then
    stopJob d false b
  else d

/-- Place a waiting job (09 R308, 01 R16, R19): the deadline check, the randomness of 03 R113, the key resolution and the
mask-expander seed, then the engine and the job's reads. A SIGN of a key without a journal entry waits; on its own node it waits at fetch,
a homed one at its member (04 R148; log 178). -/
def placeNew (d : Dev) (b : Job) : Dev :=
  match opSpec d b.owner b.e with
  | none => d
  | some sp =>
    if late d b.e then finish d b stDeadline 0
    else if resolveStopped d b.owner then d
    else if needsRandom d b.owner b.e && d.rng.state == .error then finish d b stRngUnavailable 0
    else if needsRandom d b.owner b.e && d.rng.hold.isSome then d
    else if outranked d b || keyWaits d b.owner b.e then d
    else
      let d := preempt d b sp.kind
      match pickEngine d b sp.kind with
      | none => d
      | some c =>
        match secondCell d b sp.kind2 with
        | none => d
        | some c2 =>
          if keyBarred d b.owner sp.key0 b.e.key0 || keyBarred d b.owner sp.key1 b.e.key1 then finish d b stNotPermitted 0
          else
          match resolveField d b.owner sp.key0 b.e.key0 with
          | none => finish d b stHandleStale 0
          | some d1 =>
            match resolveField d1 b.owner sp.key1 b.e.key1 with
            | none => finish d1 b stHandleStale 1
            | some d2 =>
              let seed := maskSeed d2 b c
              let b1 := { b with phase := .placed, eng := some c, eng2 := c2, part := takeParts d b c
                                 placeNo := d.jobs.nextPlace, placeTb := d.glob.tb, ver := jobVer d b c }
              let d3 := startOn { modJob seed.2 b.id (fun _ => b1) with jobs.nextPlace := d.jobs.nextPlace + 1 } b1 seed.1
              let d4 := if isTrump b then
                  recHist { d3 with dlr.worst :=
                              let w : U16 := satNat 16 (((d.glob.tb - b.fetchTb).toNat * 12 + 9) / 10)
                              if d3.dlr.worst < w then w else d3.dlr.worst }
                    (0x400 + b.owner) (d.glob.tb - b.fetchTb).toNat
                else d3
              startReads d4 b1

/-- Whether saved job `x` resumes before saved job `b`: trump jobs first, then by first placement (09 R308). -/
def resumesBefore (x b : Job) : Bool :=
  if isTrump x != isTrump b then isTrump x else decide (x.placeNo < b.placeNo)

/-- Resume a saved or parked job on its own engines in a trick that its owner occupies (09 R309), after the trump jobs and the saved
jobs that each engine serves before it (09 R308). -/
def resumeJob (d : Dev) (b : Job) : Dev :=
  let saved := d.jobs.live.all fun x =>
    !(x.phase == .saved && x.id != b.id && (ctxCells x).any (ctxCells b).contains && resumesBefore x b && (ctxCells x).all (cellOpen d x))
  let trump := isTrump b || d.jobs.live.all fun x =>
    !(x.phase == .waiting && isTrump x
      && (match pickEngine d x (jobKind d x) with | some c => (ctxCells b).contains c | none => false))
  if saved && trump && (if b.cluster then jobCells b else ctxCells b).all (fun c =>
      cellOpen d b c && engineResumes d c && (match cellJob d c with | none => true | some x => x.id == b.id)) then restoreJob d b
  else d

/-- Place the next step of an import: its inputs are on the device (12 R382). -/
def placeStep (d : Dev) (b : Job) : Dev :=
  if late d b.e then finish d b stDeadline 0
  else if resolveStopped d b.owner then d
  else if needsRandom d b.owner b.e && d.rng.state == .error then finish d b stRngUnavailable 0
  else if needsRandom d b.owner b.e && d.rng.hold.isSome then d
  else if outranked d b then d
  else
    match pickEngine d b (jobKind d b) with
    | none => d
    | some c =>
      let b1 := { b with phase := .placed, eng := some c, part := takeParts d b c, placeNo := d.jobs.nextPlace, placeTb := d.glob.tb, ver := jobVer d b c }
      let seed := maskSeed d b c
      startOn { modJob seed.2 b.id (fun _ => b1) with jobs.nextPlace := d.jobs.nextPlace + 1 } b1 seed.1

/-- JOB_PLACE (09 R308). -/
def jobPlaceGo (j : Nat) (d : Dev) : Dev :=
  match findJob d j with
  | none => d
  | some b =>
    match b.phase with
    | .waiting => if b.nextKind = 0 then placeNew d b else placeStep d b
    | .saved => resumeJob d b
    | _ => d

end Sys2Proof.Machine
end

