-- ==== Sys2Proof/Machine/Service.lean ====
section
/-!
DEFINITION. What every service routine shares: when a job can run, its keys and own AUX content, the creation of its
object with the MRAM commit of a persistent one (01 R16-R19, 02 R79-R83, 03 R104, 12 R379).
-/
namespace Sys2Proof.Machine

/-- Whether a placed job has all of its input and its output list has been checked (02 R43, 07 R230-R233). -/
def jobReady (b : Job) : Bool :=
  b.phase == .placed && !b.coreSaved && b.inData.length == b.e.inLen.toNat && b.auxData.length == b.e.auxLen.toNat
    && (b.e.outCap == 0 || !outSgl b.e || b.outOk || b.outBad.isSome)

/-- KEY0's object: a transient one from a blob, or the one its handle names. -/
def jobKey0 (d : Dev) (b : Job) : KObj :=
  if b.e.key0 = blobHandle then b.blob.getD {} else (resolveHandle d b.owner b.e.key0).getD {}
/-- KEY1's object. -/
def jobKey1 (d : Dev) (b : Job) : KObj := (resolveHandle d b.owner b.e.key1).getD {}
/-- The first bytes of a job's random buffer (07 R235). -/
def jobRnd (d : Dev) (b : Job) (n : Nat) : Bytes := fit n (mapGet {} d.io b.id).rnd
/-- Whether KEY0 names a key. -/
def hasKey0 (b : Job) : Bool := b.e.key0 != noHandle

/-- Run the routine of a placed job whose opcode is one of `ops`. An abort or a deadline takes effect at a yield point
(02 R60, R61), and in ERROR of the RNG a job that needs randomness ends (11 R351). A persistent key that has been committed lets the job write its output and complete; one being written waits for
MRAM_COMMIT_DONE (03 R104). A job that is not there, not ready, of another operation or on a
sequencer that the debugger halts is left as it is. -/
def service (j : Nat) (ops : Sqe → Bool) (run : Dev → Job → Dev) (d : Dev) : Dev :=
  match findJob d j with
  | none => d
  | some b =>
    if !ops b.e || b.phase != .placed || !(ctxCells b).all (cellRuns d) then d
    else
      let d := (ctxCells b).foldl stepTaken d
      match b.abort with
      | some st => failJob d b st 0
      | none =>
        if late d b.e then failJob d b stDeadline 0
        else if needsRandom d b.owner b.e && d.rng.state == .error then failJob d b stRngUnavailable 0
        else if !jobReady b then d
        else if b.committed then finishOut d b b.part2 b.result b.effect b.attempts b.cycles
        else if b.keep.isSome then d
        else run d b

/-- An operation of a class by its OP field. -/
def isOp (cls op : Nat) (e : Sqe) : Bool := opClass e.opcode == cls && opOp e.opcode == op
/-- An operation by its whole opcode. -/
def isCode (code : Nat) (e : Sqe) : Bool := e.opcode.toNat == code

/-- A refusal of the decoding phase: nothing written, CYCLES the length of the phase (03 R100). -/
def refuse (d : Dev) (b : Job) (st det : U16) (cyc : Nat) : Dev :=
  finish d { b with cycles := cyc, outLen := 0, result := 0 } st det

/-- A job that ends OK, SIG_INVALID or TAG_INVALID with RESULT 1 or 0 and no output (03 R110, 04 R129). -/
def verdict (d : Dev) (b : Job) (ok : Bool) (st : U16) (attempts cyc : Nat) : Dev :=
  finish d { b with cycles := cyc, attempts := attempts, outLen := 0, result := if ok then 1 else 0 } (if ok then stOk else st) 0

/-! ## Salts (12 R375) -/

/-- Draw ZSALT when it is first needed. -/
def needZsalt (d : Dev) : Dev :=
  match d.ks.zsalt with
  | some _ => d
  | none => let r := draw d 32; { r.2 with ks.zsalt := some r.1 }
/-- Draw ZSALT and an owner's OSALT when they are first needed. -/
def needSalts (d : Dev) (o : Nat) : Dev :=
  let d1 := needZsalt d
  if (mapGet [] d1.ks.salts o).isEmpty then
    let r := draw d1 32
    { r.2 with ks.salts := mapSet [] r.2.ks.salts o r.1 }
  else d1

/-! ## Creation of an object by a job -/

/-- Granules of a job's transient object (12 R379). -/
def blobGran (b : Job) : Nat := match b.blob with | some t => t.gran | none => 0

/-- What a job creates. -/
structure NewKey where
  type   : U16
  policy : U16
  origin : Byte
  sec    : Bytes
  pub    : Bytes
  param  : U32 := noHandle
  deriving DecidableEq, Repr

/-- Create a job's object and complete with its handle; a persistent one first goes to MRAM: the journal entry becomes
INTENT and the job waits (02 R82, 03 R104). A bad output list ends the job before its commit (02 R43). -/
def makeKey (d : Dev) (b : Job) (k : NewKey) (out : Bytes) (attempts cyc : Nat) : Dev :=
  if b.outBad.isSome then finishOut d b [] 0 0 attempts cyc
  else if b.pkeyRes = 0 then
    let r := createKey d b.owner k.type k.policy k.origin false k.sec k.pub k.param
    finishOut r.2 b out r.1 effKeyCreated attempts cyc
  else
    let d0 := needSalts d b.owner
    let (x, y, d1) := splitSecret d0 k.sec
    let obj : KObj :=
      { type := k.type, policy := k.policy, origin := k.origin, persist := true, shareA := x, shareB := y, pub := k.pub,
        param := k.param, gran := if k.sec.isEmpty then granPub k.pub.length else granPriv k.sec.length k.pub.length,
        blocks := persistBlocks k.sec.length k.pub.length }
    let d2 := match b.jrn with
      | some n => modJ d1 n fun e => { e with state := .intent }
      | none => d1
    modJob d2 b.id fun x =>
      { x with keep := some obj, mramTb := d.glob.tb, part2 := out, attempts := attempts, cycles := cyc, granRes := obj.gran + blobGran x,
               blkRes := obj.blocks }

/-- The MRAM write of a job's persistent key ends: the key exists, and the journal entry is COMMITTED (02 R82, 07 R236). The write's time
enters its histogram (17 R479; log 185). -/
def mramCommitDoneGo (j : Nat) (d : Dev) : Dev :=
  match findJob d j with
  | none => d
  | some b =>
    match b.keep with
    | none => d
    | some k =>
      if b.committed then d
      else
        let (h, d1) := createObj d b.owner k
        let eff := effKeyCreated ||| effPersistent
        let d1 := match b.ssNew with
          | some x => giveEntries { d1 with ss.keys := mapSet none d1.ss.keys (slotKey b.owner (hSlot h)) (some x) } b.owner
          | none => d1
        let d2 := match b.jrn with
          | some n => modJ d1 n fun e => { e with state := .committed, effect := eff, object := h }
          | none => d1
        modJob (recHist d2 0x501 (d.glob.tb - b.mramTb).toNat) j fun x =>
          { x with committed := true, result := h, effect := eff, granRes := blobGran x, pkeyRes := 0, blkRes := 0, ssRes := 0 }
def execMramCommitDone (j : Nat) (s : State) : Out3 := onDev s (mramCommitDoneGo j)

/-! ## Jobs without an engine (02 R81, 04 R123) -/

/-- Run an operation that uses no engine, once its input has arrived and its output list has been checked: it needs no placement. A
late one ends with DEADLINE (02 R60), one with a bad output list with SGL_INVALID before any effect (02 R43). -/
def serviceNone (j : Nat) (ops : Sqe → Bool) (run : Dev → Job → Dev) (d : Dev) : Dev :=
  match findJob d j with
  | none => d
  | some b =>
    if !ops b.e || b.phase != .waiting || b.inData.length != b.e.inLen.toNat || b.auxData.length != b.e.auxLen.toNat
        || (outSgl b.e && b.e.outCap != 0 && !b.outOk && b.outBad.isNone) then d
    else if late d b.e then failJob d b stDeadline 0
    else if b.outBad.isSome then finishOut d b [] 0 0 0 0
    else run d b

/-- Mark the start of a persistent effect in the job's journal entry (02 R82). -/
def jIntent (d : Dev) (b : Job) : Dev :=
  match b.jrn with | some n => modJ d n fun e => { e with state := .intent } | none => d
/-- Mark the effect on KEY0's object complete in MRAM (02 R82, R89). -/
def jCommitted (d : Dev) (b : Job) (eff : Byte) : Dev :=
  match b.jrn with | some n => modJ d n fun e => { e with state := .committed, effect := eff, object := b.e.key0 } | none => d

/-- A figure that the spec leaves unstated for an operation: free (log 4). -/
def unstated (e : Sqe) : Nat := Config.count .unstatedCycles [le16 e.opcode]

end Sys2Proof.Machine
end

