-- ==== Sys2Proof/Machine/PyCore.lean ====
section
/-!
DEFINITION. How a polynomial core runs one instruction: its registers and elements, the tile it reaches, the schedule contract
with its hazard checker and yield watchdog, waits, faults and the advance of the program counter (07 R213-R243; 09 R296-R302).
An instruction arrives with the core cycle of its issue; the fields of its word come with it (log 46).
-/
namespace Sys2Proof.Machine

/-! ## Registers (07 R213-R221) -/

/-- x0 reads 0. -/
def xGet (r : PyRegs) (n : BitVec 5) : U64 := if n = 0 then 0 else r.x[n.toNat]'n.isLt
/-- A write to x0 is discarded. -/
def xSet (r : PyRegs) (n : BitVec 5) (v : U64) : PyRegs := if n = 0 then r else { r with x := r.x.set n.toNat v n.isLt }

/-- SEW in bits, registers of a group, VLMAX (07 R217, R219). -/
def sewOf (r : PyRegs) : Nat := 8 * 2 ^ (r.vtype.toNat % 4)
def grpOf (r : PyRegs) : Nat := 2 ^ (r.vtype.toNat / 4 % 4)
def vlmaxOf (r : PyRegs) : Nat := 2048 * grpOf r / sewOf r

/-- One vector register. -/
def vReg (r : PyRegs) (n : Nat) : BitVec 2048 := r.v.toList.getD n 0
/-- The bits of a group of `g` registers, the first lowest (07 R220). -/
def vGet (r : PyRegs) (n g : Nat) : Nat := (List.range g).foldl (fun acc i => acc + (vReg r (n + i)).toNat <<< (2048 * i)) 0
/-- Write a group of `g` registers. -/
def vPut (r : PyRegs) (n g v : Nat) : PyRegs :=
  { r with v := (List.range g).foldl (fun vs i => vs.setIfInBounds (n + i) (BitVec.ofNat 2048 (v >>> (2048 * i)))) r.v }

/-- Element `i` of a group's bits. -/
def elAt (sew v i : Nat) : Nat := (v >>> (sew * i)) % 2 ^ sew
/-- Elements packed into a group's bits. -/
def elPack (sew : Nat) (l : List Nat) : Nat := l.foldr (fun e acc => e % 2 ^ sew + acc <<< sew) 0
/-- The elements of the group at a register. -/
def elems (r : PyRegs) (n : BitVec 5) : List Nat :=
  let v := vGet r n.toNat (grpOf r)
  (List.range (vlmaxOf r)).map (elAt (sewOf r) v)
/-- The signed value of an element. -/
def sgn (sew v : Nat) : Int := if v < 2 ^ (sew - 1) then v else (v : Int) - 2 ^ sew
/-- The element of a signed value. -/
def unsgn (sew : Nat) (v : Int) : Nat := (v % (2 ^ sew : Int)).toNat

/-- One mask register and one of its bits. -/
def mReg (r : PyRegs) (n : Nat) : BitVec 256 := r.m.toList.getD (n % 8) 0
def mPut (r : PyRegs) (n : Nat) (v : BitVec 256) : PyRegs := { r with m := r.m.setIfInBounds (n % 8) v }

/-- What an instruction does with element `i`: leaves it, writes 0, or gives it its result (07 R221; with an element window
08 R273). -/
inductive Lane
  | keep | zero | go
  deriving DecidableEq, Repr

/-- Whether the element window leaves the policies in force: there is none, or it covers the end of the group (08 R273). -/
def winEnd (r : PyRegs) : Bool := !r.velOn || decide (vlmaxOf r ≤ r.velHi.toNat)

/-- The lane of element `i` under an optional mask register, of `n` elements in all. -/
def laneOf (r : PyRegs) (msk : Option Nat) (i : Nat) : Lane :=
  if r.velOn && !(decide (r.velLo.toNat ≤ i) && decide (i < r.velHi.toNat)) then
    if winEnd r && decide (r.vl.toNat ≤ i) && r.vtype.getLsbD 4 then .zero else .keep
  else if i < r.vresume.toNat then .keep
  else if i < r.vl.toNat then
    if (match msk with | some k => (mReg r k).getLsbD i | none => true) then .go
    else if winEnd r && r.vtype.getLsbD 5 then .zero else .keep
  else if winEnd r && r.vtype.getLsbD 4 then .zero else .keep

/-- The mask that a format A instruction names. -/
def maskOf (m : Bool) (k : BitVec 3) : Option Nat := if m then some k.toNat else none

/-- The elements that an instruction processes and that are active. -/
def activeEls (r : PyRegs) (msk : Option Nat) : List Nat := (List.range (vlmaxOf r)).filter fun i => laneOf r msk i == .go

/-- Write a destination group: `f` gives the result of each active element. -/
def vWrite (r : PyRegs) (msk : Option Nat) (n : BitVec 5) (f : Nat → Nat) : PyRegs :=
  let sew := sewOf r
  let old := vGet r n.toNat (grpOf r)
  vPut r n.toNat (grpOf r) (elPack sew ((List.range (vlmaxOf r)).map fun i =>
    match laneOf r msk i with | .keep => elAt sew old i | .zero => 0 | .go => f i))

/-- Write a destination mask register (07 R222). -/
def mWrite (r : PyRegs) (msk : Option Nat) (n : Nat) (f : Nat → Bool) : PyRegs :=
  mPut r n ((List.range 256).foldl (fun acc i =>
    match laneOf r msk i with
    | .keep => acc
    | .zero => acc &&& ~~~ (1#256 <<< i)
    | .go => if f i then acc ||| (1#256 <<< i) else acc &&& ~~~ (1#256 <<< i)) (mReg r n))

/-! ## An instruction in flight -/

/-- A core about to run an instruction: the device, the core, the cycle, its job, the job's I/O, its registers, the target of a
jump, whether this was a yield point, and whether the Dealer acts at it. -/
structure Px where
  d    : Dev
  c    : Nat
  t    : Nat
  b    : Job
  io   : JobIo
  r    : PyRegs
  jump : Option (BitVec 16) := none
  yielded : Bool := false
  deal : Bool := false

/-- What an instruction needs and takes (07 R243, 09 R301): registers read; registers written with their latency; units with
their occupancy; line accesses as (cycle after the issue, store, core of the tile, line); whether it reads a derived control
field; whether it is legal; cycles to the next issue; whether it is a vector instruction; whether it breaks the schedule of a hash unit. Registers count 0-31 x, 32-63 v,
64-71 m. -/
structure Use where
  reads  : List Nat := []
  writes : List (Nat × Nat) := []
  units  : List (Nat × Nat) := []
  lines  : List (Nat × Bool × Nat × Nat) := []
  q      : Bool := false
  g      : Bool := false
  legal  : Bool := true
  gap    : Nat := 1
  vec    : Bool := false
  clash  : Bool := false

/-- How an instruction ends: done, in a fault, in a wait, or as the end of its job. -/
inductive PyEnd
  | next (p : Px) | fault (p : Px) (st det : U16) | wait (p : Px) (w : PyWait) | halt (p : Px) (st det : U16)

/-- An instruction with its operands. -/
structure PyOp where
  use  : Px → Use
  body : Px → PyEnd

def uSA : Nat := 0
def uSM : Nat := 1
def uBR : Nat := 2
def uVA : Nat := 3
def uVX : Nat := 4
def uLP : Nat := 5
def uSP : Nat := 6
def uKP : Nat := 7
def uMX : Nat := 8
def uH (u : Nat) : Nat := 9 + u
def uJIO : Nat := 13

def rx (n : BitVec 5) : Nat := n.toNat
def rv (n : BitVec 5) : Nat := 32 + n.toNat
def rm (n : Nat) : Nat := 64 + n % 8
/-- The keys of a group. -/
def rvs (n : BitVec 5) (g : Nat) : List Nat := (List.range g).map fun i => rv n + i
/-- Whether a group operand is aligned (07 R220). -/
def aligned (n : BitVec 5) (g : Nat) : Bool := n.toNat % g == 0

/-! ## Free values -/

/-- The `i`-th free value that an instruction may use (log 4). -/
def freeAt (p : Px) (i : Nat) : Nat := (Config.open64 (p.d.glob.freeCtr + i)).toNat
/-- `n` free values have been used. -/
def freeUse (p : Px) (n : Nat) : Px := { p with d := { p.d with glob.freeCtr := p.d.glob.freeCtr + n } }
/-- A free value of 256 bytes. -/
def freeLine (p : Px) (i : Nat) : Nat := elPack 64 ((List.range 32).map fun k => freeAt p (32 * i + k))

/-! ## The tile (07 R225-R231, R258) -/

/-- The core and the byte of its tile that `n` bytes at an address reach, inside the job's partitions (07 R225, R258). -/
def tilePlace (p : Px) (a n : Nat) : Option (Nat × Nat) :=
  if p.b.cluster then (if a + n ≤ 2 ^ 21 then some (p.c / 4 * 4 + a / 2 ^ 19, a % 2 ^ 19) else none)
  else if a + n ≤ (maskParts p.b.part).length * partBytes then some (p.c, ctxSlot p.b * partBytes + a) else none

/-- The input page that holds an address. In cluster mode the input area lies in the tile of rank 0 (log 47). -/
def pageAt (p : Px) (a : Nat) : Option Nat :=
  let h := p.io.hdr
  if h.inBase ≤ a && a < h.inBase + h.inPages * 2 ^ h.pageLog then some ((a - h.inBase) / 2 ^ h.pageLog) else none

/-- Whether a line of a tile was stored to by another core less than 5 cycles ago (07 R258). -/
def lineStale (p : Px) (tc line : Nat) : Bool :=
  (getCore p.d tc).stores.any fun s => s.2 == line && decide (p.t < s.1 + 5) && decide (s.1 ≤ p.t)

/-- Read `n` bytes at an address as a number; of a line too fresh from another core the value is free (07 R258). -/
def tileRead (p : Px) (a n i : Nat) : Nat :=
  match tilePlace p a n with
  | none => 0
  | some (tc, off) =>
    if lineStale p tc (off / 256) then freeAt p i else leNat (memRead (getCore p.d tc).tile off n)

/-- Write `n` bytes at an address. -/
def tileWrite (p : Px) (a n v : Nat) : Px :=
  match tilePlace p a n with
  | none => p
  | some (tc, off) =>
    { p with d := modCore p.d tc fun k =>
        { k with tile := memWrite k.tile off (leBytes n v)
                 stores := if tc = p.c then k.stores else (p.t, off / 256) :: k.stores } }

/-- The accesses of `n` lines from an address on, one per cycle. -/
def lineUse (p : Px) (a n : Nat) (store : Bool) : List (Nat × Bool × Nat × Nat) :=
  (List.range n).filterMap fun i =>
    (tilePlace p ((a / 256 + i) * 256) 1).map fun x => (i, store, x.1, x.2 / 256)

/-- Whether an address lies in another core's tile: its load takes 3 cycles more (07 R258). -/
def farTile (p : Px) (a : Nat) : Nat :=
  match tilePlace p a 1 with | some x => if x.1 = p.c then 0 else 3 | none => 0

/-! ## The hazard checker (07 R218, R226-R228, R243, R258; 09 R301) -/

/-- Whether an access meets another one on a bank in one cycle, or loads a line one cycle after its store. -/
def lineClash (p : Px) (l : Nat × Bool × Nat × Nat) : Bool :=
  let cyc := p.t + l.1
  (getCore p.d l.2.2.1).ports.any fun q =>
    (q.1 == cyc && q.2.2 % 8 == l.2.2.2 % 8)
      || (q.2.2 == l.2.2.2 && ((q.2.1 && !l.2.1 && q.1 + 1 == cyc) || (l.2.1 && !q.2.1 && cyc + 1 == q.1)))

/-- Whether an issue breaks the schedule contract. -/
def hazard (p : Px) (u : Use) : Bool :=
  let k := getCore p.d p.c
  u.reads.any (fun n => n != 0 && decide (p.t < mapGet 0 k.land n))
    || u.writes.any (fun w => w.1 != 0 && decide (p.t + w.2 < mapGet 0 k.land w.1))
    || u.units.any (fun x => decide (p.t < mapGet 0 k.free x.1))
    || u.clash || u.lines.any (lineClash p) || (u.q && decide (p.t < k.qAt)) || (u.g && decide (p.t < k.gAt))

/-- Enter an issue into the checker's records. -/
def markUse (d : Dev) (cluster : Bool) (c t : Nat) (u : Use) : Dev :=
  let d1 := u.lines.foldl (fun acc l => modCore acc l.2.2.1 fun k =>
    { k with ports := (t + l.1, l.2.1, l.2.2.2) :: (if cluster then k.ports else k.ports.filter fun q => decide (t ≤ q.1 + 1)) }) d
  modCore d1 c fun k =>
    { k with land := u.writes.foldl (fun m w => if w.1 = 0 then m else mapSet 0 m w.1 (t + w.2)) k.land
             free := u.units.foldl (fun m x => mapSet 0 m x.1 (t + x.2)) k.free
             nextT := t + u.gap }

/-- The micro-PC that a contract fault of an instruction reports: free, since the spec publishes no control store (log 4). -/
def contractPc (w : U32) : U16 := BitVec.ofNat 16 (Config.count .microPc [le32 w] % 16384)

/-! ## Running -/

/-- A core that runs a job, with nothing in its way: the job is placed and started, the core is not halted and not at a barrier. -/
def pyHere (d : Dev) (c t : Nat) : Option Px :=
  if 16 ≤ c || !cellRuns d c then none
  else
    match cellJob d c with
    | none => none
    | some b =>
      let io := mapGet {} d.io b.id
      if b.phase != .placed || b.coreSaved || !io.started || io.bars.any (fun x => x.1 == c) then none
      else some { d := d, c := c, t := t, b := b, io := io, r := (getCore d c).live }

/-- Put registers, I/O and job back. -/
def Px.save (p : Px) : Dev :=
  let d := modCore p.d p.c fun k => { k with live := p.r }
  modJob { d with io := mapSet {} d.io p.b.id p.io } p.b.id fun _ => p.b

/-- CYCLES of a job count on its first core (05 R171). -/
def spend (p : Px) (gap : Nat) : Px :=
  if p.b.eng = some p.c then { p with b := { p.b with cycles := p.b.cycles + (p.t + gap - (getCore p.d p.c).nextT) } } else p

/-- End the job with a fault of this core: what the instruction has done stays done (07 R237, R238). A core in whose tile an uncorrectable
error was found is taken out of service, and its test covers the line (16 R468). -/
def pyFault (p : Px) (st det : U16) : Dev :=
  let q := spend p 1
  let q := { q with b := { q.b with outLen := q.io.outDone } }
  let d := failOn q.save q.b q.c st det
  if st = stEcc then takeOut (modCore d (det.toNat % 256) fun k => { k with eccLines := [] }) (det.toNat % 256) else d

/-- The wait of a core is over: its cycles count in `PY_WAIT`, not toward the yield distance (07 R236, R265); a page wait enters its
histogram (17 R479). -/
def endWait (p : Px) (since : Nat) : Px :=
  { p with io := { p.io with wait := mapSet none p.io.wait p.c none }
           d := modCore (modEng (pageWaited p.d p.io p.c) p.c fun e => { e with wait := e.wait + BitVec.ofNat 64 (p.t - since) }) p.c fun k =>
             { k with yieldT := p.t } }

/-- The job ends at HALT: what JSET and JKDONE have set, OUT_LEN what has been written, and EFFECT what the job did: output, a key,
partial output where an image of fixed length wrote less than OUTMAX (07 R247). -/
def pyHalt (p : Px) (st det : U16) : Dev :=
  let n := p.io.outDone
  let b := { p.b with outLen := n, result := p.io.res, attempts := p.io.att.toNat
                      effect := p.io.eff ||| (if n = 0 then 0 else effOutput)
                        ||| (if p.io.hdr.fixed && n < p.io.hdr.outMax then effPartial else 0) }
  finish ({ p with b := b }).save b st det

/-- An instruction that passed the checks: carry it out (07 R221, R224, R236). -/
def pyRetire (p : Px) (since : Option (PyWait × Nat)) (u : Use) : PyEnd → Dev
  | .fault q st det => pyFault q st det
  | .halt q st det =>
    let q := match since with | some w => endWait q w.2 | none => q
    pyHalt (spend q 1) st det
  | .next q =>
    let q := match since with | some w => endWait q w.2 | none => q
    let q := spend q u.gap
    let r := { q.r with pc := q.jump.getD (q.r.pc + 4), vresume := if u.vec then 0 else q.r.vresume }
    let q := if q.yielded then { q with d := modCore q.d q.c fun k => { k with yieldT := q.t } } else q
    let d1 := markUse ({ q with r := r }).save q.b.cluster q.c q.t u
    if q.deal then dealYield d1 q.b else d1
  | .wait q w =>
    match since with
    | some x => if x.1 = w then p.d else { q with io := { q.io with wait := mapSet none q.io.wait q.c (some (w, x.2)) } }.save
    | none =>
    if late p.d p.b.e then failOn p.d p.b p.c stDeadline 0
    else
      let q := spend q u.gap
      let q := { q with io := { q.io with wait := mapSet none q.io.wait q.c (some (w, q.t)), waitTb := mapSet 0 q.io.waitTb q.c q.d.glob.tb }
                        d := modCore q.d q.c fun k => { k with yieldT := q.t } }
      let d1 := markUse q.save q.b.cluster q.c q.t u
      if q.b.cluster then d1 else dealYield d1 q.b

/-- Whether the dispatch entry of the word in flight serves the job: E = 1, CYCLES nonzero, and V = 1 for vendor images only (07 R242;
08 R280, R281). -/
def entryServes (p : Px) : Bool :=
  match dispAt p.d p.c (p.r.word.toNat % 1024 % 128 * 8 + p.r.word.toNat % 1024 / 128) with
  | some x => x.serves (opClass p.b.e.opcode == 0xD)
  | none => true

/-- The result latency that the checker marks: LAT of the dispatch entry where that is longer than the contracted one (08 R279). -/
def withLat (p : Px) (u : Use) : Use :=
  match dispAt p.d p.c (p.r.word.toNat % 1024 % 128 * 8 + p.r.word.toNat % 1024 / 128) with
  | some x => { u with writes := u.writes.map fun w => (w.1, max w.2 x.lat) }
  | none => u

/-- Check an instruction and run it (07 R242, R243). -/
def pyIssue (p : Px) (since : Option (PyWait × Nat)) (op : PyOp) : Dev :=
  let u := withLat p (op.use p)
  if !u.legal || !entryServes p then pyFault p stIllegalInstr ((p.r.pc >>> 2).setWidth 16)
  else if hazard p u then pyFault p stContractFault (contractPc p.r.word)
  else pyRetire p since u (op.body p)

/-- An instruction issues on a core at a cycle: nothing happens before the core can issue, or where it waits for another
instruction. An abort takes effect at the instruction boundary (07 R239), then the yield watchdog, which leaves out the cycles of a debug
halt (08 R284, 09 R302). -/
def pyRun (a : PyAt) (word : U32) (op : PyOp) (d : Dev) : Dev :=
  match pyHere d a.core a.t with
  | none => d
  | some p0 =>
    let k := getCore d a.core
    let since := mapGet none p0.io.wait a.core
    if a.t < k.nextT || (since.isSome && p0.r.word != word) then d
    else
      let halt := if k.resumed then a.t - k.nextT else 0
      let d1 := modCore (stepTaken d a.core) a.core fun x => { x with yieldT := x.yieldT + halt, resumed := false }
      let p := { p0 with d := d1, r := { p0.r with word := word, ipc := p0.r.pc, velOn := false } }
      match p.b.abort with
      | some st => failJob p.d p.b st 0
      | none =>
        if since.isNone && k.yieldT + halt + 2048 ≤ a.t then failOn p.d p.b p.c stYieldTimeout 0
        else pyIssue p since op

/-! ## Instruction words (07 R240) -/

/-- A word's fields, low to high: value and width. -/
def packWord (l : List (Nat × Nat)) : U32 := BitVec.ofNat 32 (l.foldr (fun x acc => x.1 % 2 ^ x.2 + acc <<< x.2) 0)
def encA (mj mn : Nat) (f : FmtA) : U32 :=
  packWord [(mj, 7), (mn, 3), (f.d.toNat, 5), (f.a.toNat, 5), (f.b.toNat, 5), (f.m.toNat, 1), (f.k.toNat, 3), (f.x.toNat, 3)]
def encQ (mj mn : Nat) (f : FmtQ) : U32 :=
  packWord [(mj, 7), (mn, 3), (f.d.toNat, 5), (f.a.toNat, 5), (f.b.toNat, 5), (f.c.toNat, 5), (f.x.toNat, 2)]
def encI (mj mn : Nat) (f : FmtI) : U32 := packWord [(mj, 7), (mn, 3), (f.d.toNat, 5), (f.a.toNat, 5), (f.imm.toNat, 12)]
def encU (mj mn : Nat) (f : FmtU) : U32 := packWord [(mj, 7), (mn, 3), (f.d.toNat, 5), (f.imm.toNat, 17)]
def encS (mj mn : Nat) (f : FmtS) : U32 := packWord [(mj, 7), (mn, 3), (f.b.toNat, 5), (f.a.toNat, 5), (f.imm.toNat, 12)]
def encJ (mj mn : Nat) (f : FmtJ) : U32 := packWord [(mj, 7), (mn, 3), (f.d.toNat, 5), (f.off.toNat, 17)]
def encM (mj mn : Nat) (f : FmtM) : U32 :=
  packWord [(mj, 7), (mn, 3), (f.v.toNat, 5), (f.a.toNat, 5), (f.m.toNat, 1), (f.k.toNat, 3), (f.off.toNat, 8)]
def encT (mj mn : Nat) (f : FmtT) : U32 :=
  packWord [(mj, 7), (mn, 3), (f.d.toNat, 5), (f.a.toNat, 5), (f.b.toNat, 5), (f.imm.toNat, 7)]
def encH (mj mn : Nat) (f : FmtH) : U32 :=
  packWord [(mj, 7), (mn, 3), (f.v.toNat, 5), (f.u.toNat, 2), (f.s.toNat, 2), (f.p.toNat, 1), (f.len.toNat, 12)]
def encK (mj mn : Nat) (f : FmtK) : U32 :=
  packWord [(mj, 7), (mn, 3), (f.d.toNat, 5), (f.a.toNat, 5), (f.b.toNat, 5), (f.ord.toNat, 2), (f.x.toNat, 1), (f.rsv.toNat, 4)]

/-- A field of a word. -/
def wf {n : Nat} (w : U32) (lo : Nat) : BitVec n := (w >>> lo).setWidth n
def decA (w : U32) : FmtA := { d := wf w 10, a := wf w 15, b := wf w 20, m := w.getLsbD 25, k := wf w 26, x := wf w 29 }
def decQ (w : U32) : FmtQ := { d := wf w 10, a := wf w 15, b := wf w 20, c := wf w 25, x := wf w 30 }
def decI (w : U32) : FmtI := { d := wf w 10, a := wf w 15, imm := wf w 20 }
def decU (w : U32) : FmtU := { d := wf w 10, imm := wf w 15 }
def decS (w : U32) : FmtS := { b := wf w 10, a := wf w 15, imm := wf w 20 }
def decJ (w : U32) : FmtJ := { d := wf w 10, off := wf w 15 }
def decM (w : U32) : FmtM := { v := wf w 10, a := wf w 15, m := w.getLsbD 20, k := wf w 21, off := wf w 24 }
def decT (w : U32) : FmtT := { d := wf w 10, a := wf w 15, b := wf w 20, imm := wf w 25 }
def decH (w : U32) : FmtH := { v := wf w 10, u := wf w 15, s := wf w 17, p := w.getLsbD 19, len := wf w 20 }
def decK (w : U32) : FmtK := { d := wf w 10, a := wf w 15, b := wf w 20, ord := wf w 25, x := w.getLsbD 27, rsv := wf w 28 }

end Sys2Proof.Machine
end

