-- ==== Sys2Proof/Decode.lean ====
section
/-!
DEFINITION. The commands that words spell. spec/opcode_table.json gives no row any bits; the machine instructions of the cores and the
micro-ops have words of their own (07 R240, R241; 08 R268), and a word of either is decoded here to its command. (These decoders are not
compiled: the runtime has no tags for so many commands. The kernel evaluates them.)
-/
namespace Sys2Proof
open Sys2Proof.Machine

/-- The command that a word of `nbits` bits spells: none, for no row of the table has bits. -/
def decodeTableWord (_nbits _w : Nat) : Option Instr := none

/-- The commands of a MAJOR, by MINOR, with the fields of a word, at a core and a cycle (07 R240-R257). -/
noncomputable def pyCommands (p : PyAt) (w : BitVec 32) (major : Nat) : List Instr :=
  match major with
  | 0 => [.add p (decA w), .sub p (decA w), .and p (decA w), .or p (decA w),
      .xor p (decA w), .sll p (decA w), .srl p (decA w), .sra p (decA w)]
  | 1 => [.addi p (decI w), .andi p (decI w), .ori p (decI w), .xori p (decI w),
      .slli p (decI w), .srli p (decI w), .srai p (decI w), .slti p (decI w)]
  | 2 => [.lui p (decU w), .mul p (decA w), .mulh p (decA w), .mulhu p (decA w),
      .div p (decA w), .divu p (decA w), .rem p (decA w), .remu p (decA w)]
  | 3 => [.slt p (decA w), .sltu p (decA w), .seq p (decA w), .csel p (decA w),
      .min p (decA w), .max p (decA w), .minu p (decA w), .maxu p (decA w)]
  | 4 => [.ld8 p (decI w), .ld16 p (decI w), .ld32 p (decI w), .ld64 p (decI w),
      .st8 p (decS w), .st16 p (decS w), .st32 p (decS w), .st64 p (decS w)]
  | 5 => [.beq p (decS w), .bne p (decS w), .blt p (decS w), .bge p (decS w),
      .bltu p (decS w), .bgeu p (decS w), .jal p (decJ w), .jalr p (decI w)]
  | 16 => [.vcfg p (decI w), .ccrr p (decI w), .ccrw p (decI w), .yield p (decI w),
      .halt p (decI w), .bar p (decI w), .idle p (decI w)]
  | 24 => [.vadd p (decA w), .vsub p (decA w), .vand p (decA w), .vor p (decA w),
      .vxor p (decA w), .vsll p (decA w), .vsrl p (decA w), .vsra p (decA w)]
  | 25 => [.vimul p (decA w), .vimulh p (decA w), .vimulhu p (decA w), .vimin p (decA w),
      .vimax p (decA w), .viminu p (decA w), .vimaxu p (decA w), .vsel p (decA w)]
  | 26 => [.vseq p (decA w), .vsne p (decA w), .vslt p (decA w), .vsltu p (decA w),
      .vkand p (decA w), .vkor p (decA w), .vkxor p (decA w), .vknot p (decA w)]
  | 27 => [.vld p (decM w), .vldu p (decM w), .vst p (decM w), .vstu p (decM w),
      .vkld p (decM w), .vkst p (decM w), .vbcast p (decA w), .vpopc p (decA w)]
  | 28 => [.vext p (decA w), .vins p (decA w), .vredsum p (decA w), .vredxor p (decA w),
      .vredor p (decA w)]
  | 48 => [.vmadd p (decA w), .vmsub p (decA w), .vmneg p (decA w), .vmmul p (decA w),
      .vmred p (decA w), .vmtom p (decA w), .vmfromm p (decA w), .vmmac p (decA w)]
  | 49 => [.vmbf p (decQ w), .vmbfi p (decQ w), .vmbft p (decT w), .vmbfti p (decT w)]
  | 64 => [.vzip p (decT w), .vunzip p (decT w), .vslup p (decT w), .vsldn p (decT w),
      .vperm p (decT w), .vrev p (decT w), .vcompr p (decA w), .vbrev p (decT w)]
  | 72 => [.vclmul p (decA w), .vclmulh p (decA w), .vgmul p (decA w), .vgsqr p (decA w),
      .vginv p (decA w), .vgmac p (decA w), .vgxp p (decA w)]
  | 80 => [.fadd p (decA w), .fsub p (decA w), .fmul p (decA w), .fdiv p (decA w),
      .fsqrt p (decA w), .fmin p (decA w), .fmax p (decA w), .fneg p (decA w)]
  | 81 => [.fma p (decQ w), .fms p (decQ w), .fnma p (decQ w), .fcvtf p (decA w),
      .fcvti p (decA w), .frnd p (decA w), .fmvx p (decA w), .fmvf p (decA w)]
  | 88 => [.vpack p (decT w), .vunpk p (decT w), .vcbd p (decT w), .vrej p (decA w),
      .vcompd p (decT w), .vdecd p (decT w), .vp2r p (decA w), .vdcmp p (decT w)]
  | 89 => [.vhmake p (decT w), .vhuse p (decT w), .vchkn p (decA w)]
  | 96 => [.hinit p (decH w), .habs p (decH w), .hsqz p (decH w), .hsha p (decH w),
      .hdig p (decH w)]
  | 104 => [.sref p (decK w), .sand p (decK w), .sa2b p (decK w), .sb2a p (decK w),
      .scmp p (decK w), .sunm p (decK w), .srnd p (decK w)]
  | 112 => [.jwait p (decT w), .jrel p (decT w), .jout p (decT w), .jkey p (decT w),
      .jkput p (decT w), .jkdone p (decT w), .jrnd p (decT w), .jset p (decT w)]
  | _ => []

/-- The command that a machine-instruction word spells on a core; none where its MAJOR and MINOR are not allocated (07 R241). -/
noncomputable def pyCommand (p : PyAt) (w : BitVec 32) : Option Instr := (pyCommands p w (w.toNat % 128))[w.toNat / 128 % 8]?

/-- The fields of a microword: A, B, C, IMM (08 R268). -/
def decMicro (w : BitVec 32) : UFmt := { a := wf w 22, b := wf w 17, c := wf w 12, imm := w.setWidth 12 }

/-- The command of a micro-op class that every sequencer has (08 R271). -/
noncomputable def uCommon (u : Nat) (f : UFmt) (cls : Nat) : Option Instr :=
  match cls with
  | 0 => some (.uWait u f)
  | 1 => some (.uUop u f)
  | 2 => some (.uUopi u f)
  | 3 => some (.uUins u f)
  | 4 => some (.uFld u f)
  | 5 => some (.uCcr u f)
  | 6 => some (.uFlt u f)
  | 8 => some (.uBr u f)
  | 9 => some (.uJmp u f)
  | 10 => some (.uCall u f)
  | 11 => some (.uRet u f)
  | 12 => some (.uLpset u f)
  | 13 => some (.uLpend u f)
  | 14 => some (.uYld u f)
  | 15 => some (.uEnd u f)
  | _ => none

/-- The command of a class of one sequencer type: core, modular engine, tree sequencer (08 R273). -/
noncomputable def uOwn (u : Nat) (f : UFmt) (cls : Nat) : Option Instr :=
  if u < 16 then
    match cls with
    | 16 => some (.uXmov u f)
    | 17 => some (.uUiss u f)
    | 18 => some (.uVln u f)
    | 19 => some (.uVel u f)
    | 20 => some (.uTls u f)
    | 21 => some (.uMkv u f)
    | _ => none
  else if u < 24 then
    match cls with
    | 16 => some (.uSln u f)
    | 17 => some (.uMac u f)
    | 18 => some (.uPad u f)
    | 19 => some (.uKplMe u f)
    | 20 => some (.uHio u f)
    | _ => none
  else
    match cls with
    | 16 => some (.uHui u f)
    | 17 => some (.uNbm u f)
    | 18 => some (.uSst u f)
    | 19 => some (.uKplTs u f)
    | _ => none

/-- The command that a microword spells on a sequencer; none for a reserved UCLASS (08 R268, R272). -/
noncomputable def uCommand (u : Nat) (w : BitVec 32) : Option Instr :=
  let cls := w.toNat / 2 ^ 27
  if cls < 16 then uCommon u (decMicro w) cls else uOwn u (decMicro w) cls

end Sys2Proof
end

