-- ==== Sys2Proof/Machine/Aes.lean ====
section
/-!
DEFINITION. The symmetric primitives of class 0x8: AES with its modes, ChaCha20 and Poly1305 (12 R387; log 22).
-/
namespace Sys2Proof.Machine

/-! ## AES (FIPS 197) -/

/-- The S-box as one number of 256 bytes, byte 0 least significant. -/
def aesSboxNum : Nat :=
  0x16BB54B00F2D99416842E6BF0D89A18CDF2855CEE9871E9B948ED9691198F8E19E1DC186B95735610EF6034866B53E708A8BBD4B1F74DDE8C6B4A61C2E2578BA08AE7A65EAF4566CA94ED58D6D37C8E779E4959162ACD3C25C2406490A3A32E0DB0B5EDE14B8EE4688902A22DC4F816073195D643D7EA7C41744975FEC130CCDD2F3FF1021DAB6BCF5389D928F40A351A89F3C507F02F94585334D43FBAAEFD0CF584C4A39BECB6A5BB1FC20ED00D153842FE329B3D63B52A05A6E1B1A2C830975B227EBE28012079A059618C323C7041531D871F1E5A534CCF73F362693FDB7C072A49CAFA2D4ADF04759FA7DC982CA76ABD7FE2B670130C56F6BF27B777C63

/-- SubBytes of one byte. -/
def aesSub (b : Byte) : Byte := BitVec.ofNat 8 (aesSboxNum / 2 ^ (8 * b.toNat))
/-- The inverse S-box as one number. -/
def aesInvNum : Nat :=
  0x7D0C2155631469E126D677BA7E042B17619953833CBBEBC8B0F52AAE4D3BE0A0EF9CC9939F7AE52D0D4AB519A97F51605FEC8027591012B131C7078833A8DD1FF45ACD78FEC0DB9A2079D2C64B3E56FC1BBE18AA0E62B76F89C5291D711AF1476EDF751CE837F9E28535ADE72274AC9673E6B4F0CECFF297EADC674F4111913A6B8A130103BDAFC1020F3FCA8F1E2CD00645B3B80558E4F70AD3BC8C00ABD890849D8DA75746155EDAB9EDFD5048706C92B6655DCC5CA4D41698688664F6F87225D18B6D49A25B76B224D92866A12E084EC3FA420B954CEE3D23C2A632947B54CBE9DEC444438E3487FF2F9B8239E37CFBD7F3819EA340BF38A53630D56A0952
/-- InvSubBytes of one byte. -/
def aesInvSub (b : Byte) : Byte := BitVec.ofNat 8 (aesInvNum / 2 ^ (8 * b.toNat))

/-- Multiplication by x in GF(2^8). -/
def aesX (b : Byte) : Byte := (b <<< 1) ^^^ (if b.getLsbD 7 then 0x1B else 0)
/-- Multiplication by 9, 11, 13 or 14 is built from these powers of x. -/
def aesMul (k : Nat) (b : Byte) : Byte :=
  let b2 := aesX b
  let b4 := aesX b2
  let b8 := aesX b4
  (if k.testBit 0 then b else 0) ^^^ (if k.testBit 1 then b2 else 0) ^^^ (if k.testBit 2 then b4 else 0)
    ^^^ (if k.testBit 3 then b8 else 0)

/-- Expand a key of `nk` words to `n` words; the list grows at its end. -/
def aesExpandGo (nk : Nat) : Nat → Nat → Byte → List Bytes → List Bytes
  | 0, _, _, ws => ws
  | f + 1, i, rc, ws =>
    let prev := ws.getLastD []
    let back := ws.getD (i - nk) []
    let t :=
      if i % nk = 0 then xorBytes ((prev.drop 1 ++ prev.take 1).map aesSub) [rc, 0, 0, 0]
      else if 6 < nk && i % nk = 4 then prev.map aesSub else prev
    aesExpandGo nk f (i + 1) (if i % nk = 0 then aesX rc else rc) (ws ++ [xorBytes back t])

/-- The round keys of an AES key, 16 bytes each. -/
def aesKeys (key : Bytes) : List Bytes :=
  let nk := key.length / 4
  chunks 16 (nk + 7) ((aesExpandGo nk (4 * (nk + 7) - nk) nk 1 (chunks 4 nk key)).flatten)

/-- The byte order of ShiftRows on a column-major state. -/
def aesShift (s : Bytes) : Bytes := (List.range 16).map fun i => byteAt s ((i + 4 * (i % 4)) % 16)
/-- InvShiftRows. -/
def aesInvShift (s : Bytes) : Bytes := (List.range 16).map fun i => byteAt s ((i + 12 * (i % 4)) % 16)

/-- MixColumns with the coefficients of its first row. -/
def aesMix (c : List Nat) (s : Bytes) : Bytes :=
  (List.range 16).map fun i =>
    let col := i / 4 * 4
    let r := i % 4
    ((List.range 4).map fun k => aesMul (c.getD ((k + 4 - r) % 4) 0) (byteAt s (col + k))).foldl (· ^^^ ·) 0

/-- The rounds of the cipher. -/
def aesRounds : List Bytes → Bytes → Bytes
  | [], s => s
  | [k], s => xorBytes (aesShift (s.map aesSub)) k
  | k :: ks, s => aesRounds ks (xorBytes (aesMix [2, 3, 1, 1] (aesShift (s.map aesSub))) k)
/-- Encrypt a block under round keys. -/
def aesEnc (ks : List Bytes) (blk : Bytes) : Bytes := aesRounds (ks.drop 1) (xorBytes blk (ks.headD []))

/-- The rounds of the inverse cipher, the last round key first. -/
def aesInvRounds : List Bytes → Bytes → Bytes
  | [], s => s
  | [k], s => xorBytes ((aesInvShift s).map aesInvSub) k
  | k :: ks, s => aesInvRounds ks (aesMix [14, 11, 13, 9] (xorBytes ((aesInvShift s).map aesInvSub) k))
/-- Decrypt a block under round keys. -/
def aesDec (ks : List Bytes) (blk : Bytes) : Bytes :=
  aesInvRounds (ks.reverse.drop 1) (xorBytes blk (ks.reverse.headD []))

/-! ## Counter mode and GCM (SP 800-38A, SP 800-38D) -/

/-- Blocks of a string of length `n`. -/
def blocks16 (bs : Bytes) : List Bytes := chunks 16 (bs.length / 16 + 1) bs

/-- Counter mode: `next` gives the following counter block. -/
def ctrGo (ks : List Bytes) (next : Bytes → Bytes) : Bytes → List Bytes → Bytes
  | _, [] => []
  | c, b :: bs => xorBytes b (aesEnc ks c) ++ ctrGo ks next (next c) bs

/-- The increment of the whole block (12 R387). -/
def inc128 (c : Bytes) : Bytes := beBytes 16 (beNat c + 1)
/-- The increment of the last 32 bits. -/
def inc32 (c : Bytes) : Bytes := c.take 12 ++ beBytes 4 (beNat (c.drop 12) + 1)

/-- Counter mode over a string. -/
def aesCtr (key iv data : Bytes) : Bytes := ctrGo (aesKeys key) inc128 iv (blocks16 data)

/-- Multiplication in the field of GHASH: bit 127 of a number is the coefficient of x^0. -/
def ghMulGo : Nat → Nat → Nat → Nat → Nat → Nat
  | 0, _, _, _, z => z
  | f + 1, i, x, v, z =>
    let z1 := if x.testBit i then z ^^^ v else z
    let v1 := if v % 2 = 1 then (v / 2) ^^^ (0xE1 * 2 ^ 120) else v / 2
    ghMulGo f (i - 1) x v1 z1
def ghMul (x y : Nat) : Nat := ghMulGo 128 127 x y 0

/-- GHASH of blocks, the last one padded with zeros. -/
def ghash (h : Nat) (y : Nat) : List Bytes → Nat
  | [] => y
  | b :: bs => ghash h (ghMul (y ^^^ beNat (fit 16 b)) h) bs

/-- The GCM tag, whole. -/
def gcmTag (ks : List Bytes) (iv aad ct : Bytes) : Bytes :=
  let h := beNat (aesEnc ks (zeros 16))
  let y := ghash h (ghash h 0 (blocks16 aad)) (blocks16 ct)
  let s := ghMul (y ^^^ beNat (beBytes 8 (8 * aad.length) ++ beBytes 8 (8 * ct.length))) h
  xorBytes (beBytes 16 s) (aesEnc ks (iv ++ [0, 0, 0, 1]))

/-- GCM encryption of data (or decryption): counter mode from the second block on. -/
def gcmCrypt (ks : List Bytes) (iv data : Bytes) : Bytes := ctrGo ks inc32 (iv ++ [0, 0, 0, 2]) (blocks16 data)

/-! ## XTS (SP 800-38E) -/

/-- Multiplication of a tweak by alpha. -/
def xtsNext (t : Bytes) : Bytes :=
  let v := 2 * leNat t
  leBytes 16 (if v < 2 ^ 128 then v else (v - 2 ^ 128) ^^^ 0x87)
/-- One block under a tweak. -/
def xtsBlock (f : Bytes → Bytes) (t b : Bytes) : Bytes := xorBytes (f (xorBytes b t)) t

/-- XTS over blocks, with ciphertext stealing on a short last block; `swap` is the order of the last two tweaks, which
decryption reverses. -/
def xtsGo (f : Bytes → Bytes) (swap : Bool) : Bytes → List Bytes → Bytes
  | _, [] => []
  | t, [b] => xtsBlock f t b
  | t, b :: c :: bs =>
    if bs.isEmpty && c.length < 16 then
      let t2 := xtsNext t
      let cc := xtsBlock f (if swap then t2 else t) b
      xtsBlock f (if swap then t else t2) (c ++ cc.drop c.length) ++ cc.take c.length
    else xtsBlock f t b ++ xtsGo f swap (xtsNext t) (c :: bs)

/-- AES-XTS of a string with data key, tweak key and tweak. -/
def aesXts (dec : Bool) (key tkey tweak data : Bytes) : Bytes :=
  let ks := aesKeys key
  xtsGo (if dec then aesDec ks else aesEnc ks) dec (aesEnc (aesKeys tkey) tweak) (blocks16 data)

/-! ## Key wrap (SP 800-38F) -/

/-- One pass of the wrap over the semiblocks; `t` is the step number before the pass. -/
def kwPass (ks : List Bytes) : Nat → Bytes → List Bytes → Bytes × List Bytes
  | _, a, [] => (a, [])
  | t, a, r :: rs =>
    let b := aesEnc ks (a ++ r)
    let x := kwPass ks (t + 1) (xorBytes (b.take 8) (beBytes 8 (t + 1))) rs
    (x.1, b.drop 8 :: x.2)
/-- The six passes. -/
def kwPasses (ks : List Bytes) (n : Nat) : Nat → Nat → Bytes → List Bytes → Bytes × List Bytes
  | 0, _, a, rs => (a, rs)
  | f + 1, t, a, rs => let x := kwPass ks t a rs; kwPasses ks n f (t + n) x.1 x.2
/-- The wrapping function W over an initial value and semiblocks. -/
def kwW (ks : List Bytes) (icv data : Bytes) : Bytes :=
  let rs := chunks 8 (data.length / 8) data
  let x := kwPasses ks rs.length 6 0 icv rs
  x.1 ++ x.2.flatten

/-- One pass of the inverse over the semiblocks, last first; `t` is the step number of its first step. -/
def kwInvPass (ks : List Bytes) : Nat → Bytes → List Bytes → Bytes × List Bytes
  | _, a, [] => (a, [])
  | t, a, r :: rs =>
    let b := aesDec ks (xorBytes a (beBytes 8 t) ++ r)
    let x := kwInvPass ks (t - 1) (b.take 8) rs
    (x.1, b.drop 8 :: x.2)
/-- The six inverse passes. -/
def kwInvPasses (ks : List Bytes) (n : Nat) : Nat → Nat → Bytes → List Bytes → Bytes × List Bytes
  | 0, _, a, rs => (a, rs)
  | f + 1, t, a, rs => let x := kwInvPass ks t a rs; kwInvPasses ks n f (t - n) x.1 x.2
/-- The unwrapping function: the recovered initial value and the data. -/
def kwUnW (ks : List Bytes) (c : Bytes) : Bytes × Bytes :=
  let rs := (chunks 8 (c.length / 8) (c.drop 8)).reverse
  let x := kwInvPasses ks rs.length 6 (6 * rs.length) (c.take 8) rs
  (x.1, x.2.reverse.flatten)

/-- KW wrapping. -/
def kwWrap (key data : Bytes) : Bytes := kwW (aesKeys key) (List.replicate 8 0xA6) data
/-- KW unwrapping; none: the check fails. -/
def kwUnwrap (key c : Bytes) : Option Bytes :=
  if c.length < 24 || c.length % 8 ≠ 0 then none
  else let x := kwUnW (aesKeys key) c; if x.1 = List.replicate 8 0xA6 then some x.2 else none
/-- KWP wrapping. -/
def kwpWrap (key data : Bytes) : Bytes :=
  let icv := [0xA6, 0x59, 0x59, 0xA6] ++ beBytes 4 data.length
  let p := fit (cdiv data.length 8 * 8) data
  if p.length ≤ 8 then aesEnc (aesKeys key) (icv ++ p) else kwW (aesKeys key) icv p
/-- KWP unwrapping; none: a check fails. -/
def kwpUnwrap (key c : Bytes) : Option Bytes :=
  if c.length < 16 || c.length % 8 ≠ 0 then none
  else
    let x := if c.length = 16 then let b := aesDec (aesKeys key) c; (b.take 8, b.drop 8) else kwUnW (aesKeys key) c
    let n := beNat (x.1.drop 4)
    if x.1.take 4 = [0xA6, 0x59, 0x59, 0xA6] && n ≤ x.2.length && x.2.length < n + 8 && allZero (x.2.drop n)
    then some (x.2.take n) else none

/-! ## ChaCha20 and Poly1305 (RFC 8439) -/

/-- A quarter round on word positions. -/
def chaQr (s : List U32) (i j k l : Nat) : List U32 :=
  let a := s.getD i 0
  let b := s.getD j 0
  let c := s.getD k 0
  let d := s.getD l 0
  let a1 := a + b
  let d1 := (d ^^^ a1).rotateLeft 16
  let c1 := c + d1
  let b1 := (b ^^^ c1).rotateLeft 12
  let a2 := a1 + b1
  let d2 := (d1 ^^^ a2).rotateLeft 8
  let c2 := c1 + d2
  let b2 := (b1 ^^^ c2).rotateLeft 7
  (((s.set i a2).set j b2).set k c2).set l d2
/-- Double rounds. -/
def chaRounds : Nat → List U32 → List U32
  | 0, s => s
  | n + 1, s =>
    let s := chaQr (chaQr (chaQr (chaQr s 0 4 8 12) 1 5 9 13) 2 6 10 14) 3 7 11 15
    chaRounds n (chaQr (chaQr (chaQr (chaQr s 0 5 10 15) 1 6 11 12) 2 7 8 13) 3 4 9 14)
/-- The block of a counter. -/
def chaBlock (key : Bytes) (n : Nat) (nonce : Bytes) : Bytes :=
  let s : List U32 := (chunks 4 4 (ascii "expand 32-byte k") ++ chunks 4 8 key ++ [leBytes 4 n] ++ chunks 4 3 nonce).map fun b => u32At b 0
  ((List.zipWith (· + ·) s (chaRounds 10 s)).map le32).flatten
/-- The cipher over 64-byte pieces. -/
def chaGo (key nonce : Bytes) : Nat → List Bytes → Bytes
  | _, [] => []
  | n, b :: bs => xorBytes b (chaBlock key n nonce) ++ chaGo key nonce (n + 1) bs
/-- ChaCha20 from counter 1. -/
def chaCrypt (key nonce data : Bytes) : Bytes := chaGo key nonce 1 (chunks 64 (data.length / 64 + 1) data)

/-- Poly1305 of a message whose length is a multiple of 16. -/
def poly1305 (key msg : Bytes) : Bytes :=
  let r := leNat (key.take 16) &&& 0x0ffffffc0ffffffc0ffffffc0fffffff
  let p := 2 ^ 130 - 5
  let a := (blocks16 msg).foldl (fun a b => (a + leNat (b ++ [1])) * r % p) 0
  leBytes 16 (a + leNat (key.drop 16))
/-- Zero padding to 16 bytes. -/
def pad16 (bs : Bytes) : Bytes := zeros ((16 - bs.length % 16) % 16)
/-- The tag of the AEAD construction. -/
def aeadTag (key nonce aad ct : Bytes) : Bytes :=
  poly1305 ((chaBlock key 0 nonce).take 32)
    (aad ++ pad16 aad ++ ct ++ pad16 ct ++ leBytes 8 aad.length ++ leBytes 8 ct.length)

end Sys2Proof.Machine
end

