-- ==== Sys2Proof/Machine/HashJobs.lean ====
section
/-!
DEFINITION. The hash and MAC jobs of class 0x7 and their streaming contexts (04 R126-R133).
-/
namespace Sys2Proof.Machine

/-! ## Cycles (04 R130; log 24) -/

/-- Blocks of a plain hash of `len` bytes with `out` bytes of output. -/
def hashBlocks (set len out : Nat) : Nat :=
  let r := hBlock set
  match hKind set with
  | .sha2s => cdiv (len + 9) 64
  | .sha2l => cdiv (len + 17) 128
  | _ => cdiv (len + 1) r + cdiv out r - 1

/-- Length of right_encode of the output length in bits. -/
def rightLen (out : Nat) (xof : Bool) : Nat := (rightEncode (if xof then 0 else 8 * out)).length

/-- B of 04 R130: blocks of a job over `len` message bytes with `out` bytes of output, `ns` bytes of N and S in PARAM, a key of `key`
bytes if any. The function name of KMAC is "KMAC". -/
def jobBlocks (set len out ns : Nat) (key : Option Nat) (xof : Bool) : Nat :=
  let r := hBlock set
  match hKind set, key with
  | .shake, _ => hashBlocks set len out
  | .cshake, _ => hashBlocks set len out + (if ns = 0 then 0 else cdiv (ns + 6) r)
  | .kmac, k => hashBlocks set (len + rightLen out xof) out + cdiv (4 + ns + 6) r + cdiv (k.getD 0 + 4) r
  | _, none => hashBlocks set len out
  | k, some n =>
    hashBlocks set len out + 3 +
      (if n ≤ r then 0
       else match k with
         | .sha2s => cdiv (n + 9) 64
         | .sha2l => cdiv (n + 17) 128
         | _ => cdiv (n + 1) r + cdiv (hDigest set) r - 1)

/-- CYCLES of a class 0x7 job (04 R130). -/
def hashCycles (set len out ns : Nat) (key : Option Nat) (xof : Bool) (extra : Nat) : Nat :=
  160 + cdiv (3 * jobBlocks set len out ns key xof * hCycles set) 4 + extra

/-- The MAC key of a job, if it has one. -/
def macKey (d : Dev) (b : Job) : Option Bytes := if hasKey0 b then some (secretOf (jobKey0 d b)) else none

/-- CYCLES of a job; `xof` is the setting of its stream, if it ends one (04 R128). -/
def hashJobCycles (d : Dev) (b : Job) (extra : Nat) (xof : Bool := hashXof b.e) : Nat :=
  hashCycles (opSet b.e.opcode) b.inData.length (hashOutLen b.e) (hashNlen b.e + hashSlen b.e)
    ((macKey d b).map List.length) xof extra

/-! ## One-shot jobs (04 R127, R129) -/

/-- The digest or tag of a one-shot job. -/
def hashValue (d : Dev) (b : Job) : Bytes :=
  let aux := ownAux b
  let n := hashNlen b.e
  hWhole (opSet b.e.opcode) (macKey d b) (aux.take n) ((aux.drop n).take (hashSlen b.e)) (hashXof b.e) b.inData (hashOutLen b.e)

def hashDigestRun (d : Dev) (b : Job) : Dev := finishOut d b (hashValue d b) 0 0 0 (hashJobCycles d b 0)
def execHashDigest (j : Nat) (s : State) : Out3 := onDev s (service j (isOp 7 1) hashDigestRun)
def hashMacRun (d : Dev) (b : Job) : Dev := finishOut d b (hashValue d b) 0 0 0 (hashJobCycles d b 0)
def execHashMac (j : Nat) (s : State) : Out3 := onDev s (service j (isOp 7 2) hashMacRun)
/-- MAC_VERIFY: the expected tag follows S in AUX (04 R127, R129). -/
def macVerifyRun (d : Dev) (b : Job) : Dev :=
  verdict d b (hashValue d b == (ownAux b).drop (hashSlen b.e)) stTagInvalid 0 (hashJobCycles d b 0)
def execMacVerify (j : Nat) (s : State) : Out3 := onDev s (service j (isOp 7 3) macVerifyRun)

/-! ## Streaming contexts (04 R131-R133; layout of the sealed part: log 23) -/

/-- The running state of a stream with its settings. -/
structure HCtx where
  run   : HRun := {}
  name  : Bytes := []
  cust  : Bytes := []
  xof   : Bool := false
  total : Nat := 0
  deriving DecidableEq, Repr

/-- The 464 bytes that a context seals: the state with the partial block of a Keccak set in it, the partial block of a
SHA-2 set, the settings. -/
def ctxPack (set : Nat) (c : HCtx) : Bytes :=
  let st := bytesOfLanes c.run.st
  let body :=
    match hKind set with
    | .sha2s | .sha2l => st.take 64 ++ fit 128 c.run.part ++ zeros 8
    | _ => fit 200 (xorBytes st (fit 200 c.run.part))
  fit 464 (body ++ [BitVec.ofNat 8 c.name.length, BitVec.ofNat 8 c.cust.length, if c.xof then 1 else 0] ++ c.name ++ c.cust)

/-- The running state that a context holds. -/
def ctxUnpack (set total : Nat) (p : Bytes) : HCtx :=
  let pos := total % hBlock set
  let nl := (byteAt p 200).toNat
  let sl := (byteAt p 201).toNat
  let run : HRun :=
    match hKind set with
    | .sha2s | .sha2l => { st := lanesOf (fit 200 (slice p 0 64)), part := slice p 64 pos }
    | _ => { st := lanesOf (slice p 0 200), part := zeros pos }
  { run := run, name := slice p 203 nl, cust := slice p (203 + nl) sl, xof := byteAt p 202 == 1, total := total }

/-- A key derived from the current epoch (12 R375): KMAC256(DUS, context, L, label). -/
def deriveKey (d : Dev) (label : String) (ctx : Bytes) (bits : Nat) : Bytes := kmac256 d.ks.dus ctx (bits / 8) (ascii label)

/-- The context key Kc of an owner (12 R375): owner, boot count, FLR count, ZSALT. -/
def ctxKey (d : Dev) (o : Nat) : Bytes :=
  deriveKey d "SQ-CTX" ([BitVec.ofNat 8 o] ++ le32 d.glob.bootCnt ++ le32 (mapGet 0 d.ks.flr o) ++ d.ks.zsalt.getD []) 256

/-- Seal a context for an owner (04 R131, R132). -/
def ctxSeal (d0 : Dev) (o : Nat) (opcode : U16) (key : U32) (c : HCtx) : Bytes × Dev :=
  let d := needZsalt d0
  let n := mapGet 0 d.ks.sealCtr o + 1
  let head := le32 0x58435453 ++ le16 opcode ++ [BitVec.ofNat 8 o, 0] ++ le32 d.glob.bootCnt ++ le32 key ++ le64 n
    ++ leBytes 8 c.total
  let kc := ctxKey d o
  let body := xorBytes (ctxPack (opSet opcode) c) (kmac256 kc head 464 (ascii "SQ-CTX-E"))
  (head ++ body ++ kmac256 kc (head ++ body) 16 (ascii "SQ-CTX-T"),
   { d with ks.sealCtr := mapSet 0 d.ks.sealCtr o n })

/-- The DETAIL of CONTEXT_INVALID of a context, in the order of 04 R133. -/
def ctxFault (d : Dev) (b : Job) (x : Bytes) : Option U16 :=
  if u32At x 0 ≠ 0x58435453 || byteAt x 7 ≠ 0 then some 1
  else if u32At x 8 ≠ d.glob.bootCnt then some 2
  else if opSet (u16At x 4) ≠ opSet b.e.opcode then some 3
  else if u32At x 0xC ≠ b.e.key0 then some 4
  else if (byteAt x 6).toNat ≠ b.owner || kmac256 (ctxKey d b.owner) (slice x 0 0x1F0) 16 (ascii "SQ-CTX-T") ≠ slice x 0x1F0 16
  then some 5 else none

/-- Open a context that has passed its checks. -/
def ctxOpen (d : Dev) (b : Job) (x : Bytes) : HCtx :=
  ctxUnpack (opSet b.e.opcode) (u64At x 0x18).toNat
    (xorBytes (slice x 0x20 464) (kmac256 (ctxKey d b.owner) (slice x 0 0x20) 464 (ascii "SQ-CTX-E")))

/-- INIT (04 R127, R128): a KEY0 blob's context and data follow the blob. -/
def hashInitRun (d : Dev) (b : Job) : Dev :=
  let set := opSet b.e.opcode
  let aux := ownAux b
  let name := aux.take (hashNlen b.e)
  let cust := (aux.drop (hashNlen b.e)).take (hashSlen b.e)
  let run := hAbsorb set (hStart set (macKey d b) name cust) b.inData
  let r := ctxSeal d b.owner b.e.opcode b.e.key0
    { run := run, name := name, cust := cust, xof := hashXof b.e, total := b.inData.length }
  finishOut r.2 b r.1 0 0 0 (hashJobCycles d b 220)
def execHashInit (j : Nat) (s : State) : Out3 := onDev s (service j (isOp 7 4) hashInitRun)

/-- UPDATE (04 R133). -/
def hashUpdateRun (d : Dev) (b : Job) : Dev :=
  let set := opSet b.e.opcode
  let x := ownAux b
  match ctxFault d b x with
  | some det => refuse d b stContextInvalid det 220
  | none =>
    let c := ctxOpen d b x
    let r := ctxSeal d b.owner (u16At x 4) (u32At x 0xC)
      { c with run := hAbsorb set c.run b.inData, total := c.total + b.inData.length }
    finishOut r.2 b r.1 0 0 0 (hashJobCycles d b 440)
def execHashUpdate (j : Nat) (s : State) : Out3 := onDev s (service j (isOp 7 5) hashUpdateRun)

/-- The digest or tag that ends a stream. -/
def ctxEnd (d : Dev) (b : Job) (c : HCtx) : Bytes :=
  let set := opSet b.e.opcode
  hEnd set (hAbsorb set c.run b.inData) (macKey d b) (c.name.isEmpty && c.cust.isEmpty) c.xof (c.total + b.inData.length)
    (hashOutLen b.e)

/-- FINAL (04 R133). -/
def hashFinalRun (d : Dev) (b : Job) : Dev :=
  let x := (ownAux b).take 512
  match ctxFault d b x with
  | some det => refuse d b stContextInvalid det 220
  | none =>
    let c := ctxOpen d b x
    finishOut d b (ctxEnd d b c) 0 0 0 (hashJobCycles d b 220 c.xof)
def execHashFinal (j : Nat) (s : State) : Out3 := onDev s (service j (isOp 7 6) hashFinalRun)

/-- FINAL_VERIFY (04 R129, R133). -/
def finalVerifyRun (d : Dev) (b : Job) : Dev :=
  let x := (ownAux b).take 512
  match ctxFault d b x with
  | some det => refuse d b stContextInvalid det 220
  | none =>
    let c := ctxOpen d b x
    verdict d b (ctxEnd d b c == (ownAux b).drop 512) stTagInvalid 0 (hashJobCycles d b 220 c.xof)
def execFinalVerify (j : Nat) (s : State) : Out3 := onDev s (service j (isOp 7 7) finalVerifyRun)

end Sys2Proof.Machine
end

