-- ==== Sys2Proof/Machine/Blind.lean ====
section
/-!
DEFINITION. What classical computations draw from the DRBG: integers of a range, and the blinding of secret operands
(06 R192, R196, R202; 10 R333; log 166).
-/
namespace Sys2Proof.Machine

/-- An integer of n bits from the DRBG. -/
def drawBits (d : Dev) (n : Nat) : Nat × Dev := let r := draw d (cdiv n 8); (beNat r.1 % 2 ^ n, r.2)
/-- An integer in [1, n − 1] by the extra-random-bits method, with 64 extra bits. -/
def drawBelow (d : Dev) (n : Nat) : Nat × Dev := let r := drawBits d (Nat.log2 n + 1 + 64); (r.1 % (n - 1) + 1, r.2)
/-- A secret scalar of a Weierstrass key: (c mod (n − 2)) + 2 (06 R196). -/
def drawScalar (d : Dev) (n : Nat) : Nat × Dev := let r := drawBits d (Nat.log2 n + 1 + 64); (r.1 % (n - 2) + 2, r.2)
/-- A secret scalar's multiple of a point: the scalar is blinded by r × n, and the random Z leaves the result as it is. -/
def ecSecret (d : Dev) (c : Curve) (k : Nat) (q : Pt) : Pt × Dev :=
  let r := drawBits d 64
  (ecMul c (k + r.1 * c.n) q, (draw r.2 (pLen c)).2)
/-- X25519 or X448 with a random Z, which leaves the result as it is. -/
def xSecret (d : Dev) (big : Bool) (k u : Bytes) : Bytes × Dev := (xDh big k u, (draw d (if big then 56 else 32)).2)
/-- The multiplier of L and the random Z of an Edwards operation. -/
def edBlind (d : Dev) (big : Bool) : Nat × Dev := let r := drawBits d 64; (r.1, (draw r.2 (if big then 56 else 32)).2)
/-- The blinding values of an ECDSA signature. -/
def ecdsaBlind (d : Dev) (c : Curve) : EcBlind × Dev :=
  let x := drawBelow d c.n
  let y := drawBelow x.2 c.n
  ({ b := x.1, d1 := y.1 }, y.2)
/-- An FFDH secret's power: the exponent is blinded by r × q. -/
def ffSecret (d : Dev) (set x y : Nat) : Nat × Dev :=
  let r := drawBits d 64
  let p := ffPrime set
  (powMod y (x + r.1 * ((p - 1) / 2)) p, r.2)

end Sys2Proof.Machine
end

