-- ==== Sys2Proof/Machine/Poly.lean ====
section
/-!
DEFINITION. Polynomials modulo X^n + 1 over a prime, as the lattice standards use them: number-theoretic transforms, bit packing,
the samplers' byte streams (03 R93, R101, R106; FIPS 203, FIPS 204; log 22).
-/
namespace Sys2Proof.Machine

/-- A polynomial: its coefficients in [0, q), the constant term first. -/
abbrev Pol := List Nat

/-- Coefficientwise sum, difference and scaling. -/
def polAdd (q : Nat) (a b : Pol) : Pol := List.zipWith (fun x y => (x + y) % q) a b
def polSub (q : Nat) (a b : Pol) : Pol := List.zipWith (fun x y => (x + q - y) % q) a b
def polScale (q k : Nat) (a : Pol) : Pol := a.map fun x => x * k % q
/-- The sum of a list of polynomials of n coefficients. -/
def polSum (q n : Nat) (ps : List Pol) : Pol := ps.foldl (polAdd q) (List.replicate n 0)

/-- The distance of a residue from 0. -/
def centAbs (q x : Nat) : Nat := min (x % q) (q - x % q)
/-- The residue of a signed number. -/
def ofSigned (q : Nat) (x : Int) : Nat := (x % q).toNat

/-- The number whose low `bits` bits are those of `i`, reversed. -/
def revBits : Nat → Nat → Nat
  | 0, _ => 0
  | b + 1, i => i % 2 * 2 ^ b + revBits b (i / 2)

/-- The tree of butterflies: node `k` splits its polynomial by `z k`, then its children are nodes 2k and 2k + 1. -/
def nttTree (q : Nat) (z : Nat → Nat) : Nat → Nat → Pol → Pol
  | 0, _, a => a
  | depth + 1, k, a =>
    let lo := a.take (a.length / 2)
    let t := polScale q (z k) (a.drop (a.length / 2))
    nttTree q z depth (2 * k) (polAdd q lo t) ++ nttTree q z depth (2 * k + 1) (polSub q lo t)

/-- The inverse of the tree; `zi k` inverts `z k`, `half` inverts 2. -/
def nttBack (q half : Nat) (zi : Nat → Nat) : Nat → Nat → Pol → Pol
  | 0, _, a => a
  | depth + 1, k, a =>
    let u := nttBack q half zi depth (2 * k) (a.take (a.length / 2))
    let v := nttBack q half zi depth (2 * k + 1) (a.drop (a.length / 2))
    polScale q half (polAdd q u v) ++ polScale q (zi k * half % q) (polSub q u v)

/-! ## Bits -/

/-- A number's `n` low bits, the lowest first. -/
def lowBits : Nat → Nat → List Bool
  | 0, _ => []
  | n + 1, v => (v % 2 == 1) :: lowBits n (v / 2)
/-- The number of a list of bits, the lowest first. -/
def bitsNat : List Bool → Nat
  | [] => 0
  | b :: bs => (if b then 1 else 0) + 2 * bitsNat bs
/-- Pack numbers of `w` bits each, the first lowest. -/
def packNums (w : Nat) (vs : List Nat) : Bytes :=
  leBytes (w * vs.length / 8) (vs.foldr (fun v acc => v % 2 ^ w + 2 ^ w * acc) 0)
/-- The `n` numbers of `w` bits each in a string. -/
def unpackNums (w : Nat) : Nat → Nat → List Nat
  | 0, _ => []
  | n + 1, v => v % 2 ^ w :: unpackNums w n (v / 2 ^ w)

/-! ## Rejection from a stream of groups -/

/-- Take accepted values from a list of groups until `n` are held: the values, and the groups that were read. -/
def rejTake {α : Type} (f : α → List Nat) : Nat → List α → Nat → List Nat × Nat
  | _, [], used => ([], used)
  | n, g :: gs, used =>
    if n = 0 then ([], used)
    else
      let vs := (f g).take n
      let r := rejTake f (n - vs.length) gs (used + 1)
      (vs ++ r.1, r.2)

end Sys2Proof.Machine
end

