-- ==== Sys2Proof/Machine/FnDsa.lean ====
section
/-!
DEFINITION. FN-DSA as far as octets decide it: public and private key encodings, the padded signature format, the public key of a
private one, verification (03 R93, R109, R110; FIPS 206 is taken as the Falcon submission it adopts, log 172).
-/
namespace Sys2Proof.Machine

/-- The prime, and n of a set. -/
def fnQ : Nat := 12289
def fnN (set : Nat) : Nat := if set = 8 then 512 else 1024
def fnLog (set : Nat) : Nat := if set = 8 then 9 else 10
/-- The bound on the squared length of a signature. -/
def fnBound (set : Nat) : Nat := if set = 8 then 34034726 else 70265242

/-- The bits of a string, the highest of each byte first. -/
def bitsOf (bs : Bytes) : List Bool := (bs.map fun b => (lowBits 8 b.toNat).reverse).flatten
/-- The string of bits, the highest of each byte first, zero-padded to `n` bytes. -/
def ofBits : Nat → List Bool → Bytes
  | 0, _ => []
  | n + 1, bs =>
    let h := bs.take 8
    BitVec.ofNat 8 (bitsNat (h ++ List.replicate (8 - h.length) false).reverse) :: ofBits n (bs.drop 8)
/-- Numbers of `w` bits, the highest bit first. -/
def bitNums (w : Nat) : Nat → List Bool → List Nat
  | 0, _ => []
  | n + 1, bs => bitsNat (bs.take w).reverse :: bitNums w n (bs.drop w)

/-- The product modulo X^n + 1. -/
def negaMul (q : Nat) (a b : Pol) : Pol :=
  let n := a.length
  let shift (i : Nat) : Pol := (b.drop (n - i)).map (fun x => (q - x % q) % q) ++ b.take (n - i)
  polSum q n (a.mapIdx fun i x => polScale q x (shift i))

/-! ## Keys -/

/-- The coefficients of a public key. -/
def fnPkPol (set : Nat) (pk : Bytes) : Pol := bitNums 14 (fnN set) (bitsOf (pk.drop 1))
/-- Whether the header byte is the set's. -/
def fnPkHead (set : Nat) (pk : Bytes) : Bool := byteAt pk 0 == BitVec.ofNat 8 (fnLog set)
/-- Whether every coefficient is below q. -/
def fnPkRange (set : Nat) (pk : Bytes) : Bool := (fnPkPol set pk).all (· < fnQ)

/-- Bits of a coefficient of f and g in a private key. -/
def fnSmallBits (set : Nat) : Nat := if set = 8 then 6 else 5
/-- Signed coefficients of `w` bits as residues; none where the most negative value stands. -/
def fnSigned (w : Nat) (v : List Nat) : Option Pol :=
  if v.contains (2 ^ (w - 1)) then none else some (v.map fun x => if x < 2 ^ (w - 1) then x else fnQ - (2 ^ w - x))
/-- f and g of a private key; none where its encoding is malformed. -/
def fnSkPols (set : Nat) (sk : Bytes) : Option (Pol × Pol) :=
  let n := fnN set
  let w := fnSmallBits set
  let f := fnSigned w (bitNums w n (bitsOf (sk.drop 1)))
  let g := fnSigned w (bitNums w n ((bitsOf (sk.drop 1)).drop (w * n)))
  if byteAt sk 0 ≠ BitVec.ofNat 8 (0x50 + fnLog set) then none
  else match f, g with | some x, some y => some (x, y) | _, _ => none
/-- Whether a public key belongs to a private one: f × h = g. -/
def fnPaired (set : Nat) (sk pk : Bytes) : Bool :=
  match fnSkPols set sk with
  | some (f, g) => fnPkHead set pk && fnPkRange set pk && negaMul fnQ f (fnPkPol set pk) == g
  | none => false
/-- The powers of 7 that invert X^n + 1's factors: a root of order 2n, 7 being a root of order 2,048. -/
def fnRoot (set e : Nat) : Nat := 7 ^ ((e % 2048) * (2048 / (2 * fnN set)) % 2048) % fnQ
/-- The inverse of a residue that is not 0. -/
def fnRecip (x : Nat) : Nat := x ^ (fnQ - 2) % fnQ
/-- The values of a polynomial at the odd powers of the root. -/
def fnEval (set : Nat) (a : Pol) : List Nat :=
  (List.range (fnN set)).map fun i => (a.foldr (fun c acc => (c + acc * fnRoot set (2 * i + 1)) % fnQ) 0)
/-- The polynomial of values at the odd powers of the root. -/
def fnInterp (set : Nat) (v : List Nat) : Pol :=
  (List.range (fnN set)).map fun j =>
    (v.mapIdx fun i x => x * fnRoot set ((2 * fnN set - (2 * i + 1)) * j)).sum * fnRecip (fnN set) % fnQ
/-- The public key of a private one: h = g / f; none where f has no inverse. -/
def fnPkOf (set : Nat) (sk : Bytes) : Option Bytes :=
  match fnSkPols set sk with
  | none => none
  | some (f, g) =>
    let fv := fnEval set f
    if fv.contains 0 then none
    else
      let h := fnInterp set (List.zipWith (fun x y => y * fnRecip x % fnQ) fv (fnEval set g))
      some (BitVec.ofNat 8 (fnLog set) :: ofBits (14 * fnN set / 8) ((h.map fun x => (lowBits 14 x).reverse).flatten))

/-! ## Signatures -/

/-- The zeros before the next 1, and what follows it. -/
def fnUnary : List Bool → Nat → Option (Nat × List Bool)
  | [], _ => none
  | true :: bs, n => some (n, bs)
  | false :: bs, n => if 15 ≤ n then none else fnUnary bs (n + 1)
/-- Decode `n` compressed coefficients: sign, seven low bits, the rest in unary; −0 and nonzero padding are malformed. -/
def fnDecompress : Nat → List Bool → Option Pol
  | 0, bs => if bs.any id then none else some []
  | n + 1, bs =>
    match fnUnary (bs.drop 8) 0 with
    | none => none
    | some (hi, rest) =>
      let v := bitsNat ((bs.take 8).drop 1).reverse + 128 * hi
      let neg := bs.getD 0 false
      if bs.length < 9 || (neg && v = 0) then none
      else (fnDecompress n rest).map fun vs => (if neg then (fnQ - v % fnQ) % fnQ else v) :: vs

/-- HashToPoint of salt and framed message (03 R109). -/
def fnPoint (set : Nat) (m : Bytes) : Pol :=
  (rejTake (fun g : Bytes => if beNat g < 61445 then [beNat g % fnQ] else []) (fnN set) (chunks 2 4352 (shake256 m 8704)) 0).1

/-- Verification of a padded signature on a framed message (03 R93, R109, R110). -/
def fnVerify (set : Nat) (pk m sig : Bytes) : Bool :=
  if byteAt sig 0 ≠ BitVec.ofNat 8 (0x30 + fnLog set) then false
  else
    match fnDecompress (fnN set) (bitsOf (sig.drop 41)) with
    | none => false
    | some s2 =>
      let s1 := polSub fnQ (fnPoint set (slice sig 1 40 ++ m)) (negaMul fnQ s2 (fnPkPol set pk))
      decide (((s1 ++ s2).map fun x => centAbs fnQ x * centAbs fnQ x).sum ≤ fnBound set)

end Sys2Proof.Machine
end

