-- ==== Sys2Proof/Machine/MlDsa.lean ====
section
/-!
DEFINITION. ML-DSA (FIPS 204), which 03 R93, R106-R110 name: key generation, signing attempt by attempt, verification (log 22).
-/
namespace Sys2Proof.Machine

/-- Parameters of a set: rows k, columns l, η, τ, λ/4, γ1 as a power of two, γ2, β, ω. -/
structure DsaPar where
  k   : Nat
  l   : Nat
  eta : Nat
  tau : Nat
  ch  : Nat
  g1  : Nat
  g2  : Nat
  beta : Nat
  om  : Nat
  deriving DecidableEq, Repr

/-- The prime of ML-DSA. -/
def dsaQ : Nat := 8380417
/-- ML-DSA-44, -65 and -87, by set code. -/
def dsaPar (set : Nat) : DsaPar :=
  if set = 1 then ⟨4, 4, 2, 39, 32, 17, 95232, 78, 80⟩
  else if set = 2 then ⟨6, 5, 4, 49, 48, 19, 261888, 196, 55⟩ else ⟨8, 7, 2, 60, 64, 19, 261888, 120, 75⟩

/-- b^e modulo q by squaring; `fuel` bounds the bits of e. -/
def dsaPow : Nat → Nat → Nat → Nat
  | 0, _, _ => 1
  | f + 1, b, e => if e = 0 then 1 else (if e % 2 = 1 then b else 1) * dsaPow f (b * b % dsaQ) (e / 2) % dsaQ
/-- 1753 to the power e. -/
def dsaRoot (e : Nat) : Nat := dsaPow 10 1753 e
def dsaNtt (a : Pol) : Pol := nttTree dsaQ (fun k => dsaRoot (revBits 8 k)) 8 1 a
def dsaInv (a : Pol) : Pol := nttBack dsaQ 4190209 (fun k => dsaRoot (512 - revBits 8 k)) 8 1 a
def dsaMul (a b : Pol) : Pol := List.zipWith (fun x y => x * y % dsaQ) a b
/-- A matrix of transforms times a vector of transforms. -/
def dsaApply (a : List (List Pol)) (v : List Pol) : List Pol := a.map fun row => polSum dsaQ 256 (List.zipWith dsaMul row v)

/-! ## Sampling -/

/-- A coefficient from three bytes. -/
def dsaTriple (g : Bytes) : List Nat := [leNat g % 2 ^ 23].filter (· < dsaQ)
/-- An entry of the public matrix, and the three-byte groups that it took. -/
def dsaEntry (rho : Bytes) (s r : Nat) : Pol × Nat :=
  rejTake dsaTriple 256 (chunks 3 3584 (shake128 (rho ++ [BitVec.ofNat 8 s, BitVec.ofNat 8 r]) 10752)) 0
def dsaMatrix (p : DsaPar) (rho : Bytes) : List (List Pol) :=
  (List.range p.k).map fun r => (List.range p.l).map fun s => (dsaEntry rho s r).1
/-- The SHAKE128 blocks beyond five that the matrix of a seed takes (03 R114). -/
def dsaMore (p : DsaPar) (rho : Bytes) : Nat :=
  ((List.range p.k).map fun r => ((List.range p.l).map fun s => cdiv (3 * (dsaEntry rho s r).2) 168 - 5).sum).sum

/-- The small coefficients of a byte's halves. -/
def dsaNibbles (eta : Nat) (b : Byte) : List Nat :=
  [b.toNat % 16, b.toNat / 16].filterMap fun x =>
    if eta = 2 then (if x < 15 then some ((dsaQ + 2 - x % 5) % dsaQ) else none)
    else if x < 9 then some ((dsaQ + 4 - x) % dsaQ) else none
/-- A secret polynomial, and the bytes that it took. -/
def dsaSmall (eta : Nat) (seed : Bytes) (n : Nat) : Pol × Nat :=
  rejTake (dsaNibbles eta) 256 (shake256 (seed ++ leBytes 2 n) 4352) 0
/-- The polynomials of s1 and s2. -/
def dsaSecrets (p : DsaPar) (seed : Bytes) : List Pol := (List.range (p.l + p.k)).map fun i => (dsaSmall p.eta seed i).1
/-- The most SHAKE256 blocks that one of them takes. -/
def dsaSecretBlocks (p : DsaPar) (seed : Bytes) : Nat :=
  ((List.range (p.l + p.k)).map fun i => cdiv (dsaSmall p.eta seed i).2 136).foldl max 0

/-- The positions of a challenge's nonzero coefficients, from the bytes behind the signs; none when the bytes do not suffice. -/
def ballGo : Nat → Nat → Bytes → List Bool → Pol → Option Pol
  | 0, _, _, _, c => some c
  | _ + 1, _, [], _, _ => none
  | n + 1, f, j :: js, signs, c =>
    match f with
    | 0 => none
    | f + 1 =>
      let i := 255 - n
      if i < j.toNat then ballGo (n + 1) f js signs c
      else
        let c1 := c.set i (c.getD j.toNat 0)
        ballGo n f js (signs.drop 1) (c1.set j.toNat (if signs.getD 0 false then dsaQ - 1 else 1))
/-- SampleInBall of a challenge string from a number of SHAKE256 blocks. -/
def dsaBall (p : DsaPar) (ct : Bytes) (blocks : Nat) : Option Pol :=
  let s := shake256 ct (136 * blocks)
  ballGo p.tau s.length (s.drop 8) (lowBits 64 (leNat (s.take 8))) (List.replicate 256 0)

/-! ## Encodings -/

/-- BitPack of coefficients in [−a, b] with w bits, and back. -/
def dsaPack (w b : Nat) (v : Pol) : Bytes := packNums w (v.map fun x => (dsaQ + b - x) % dsaQ)
def dsaUnpack (w b : Nat) (bs : Bytes) : Pol := (unpackNums w 256 (leNat bs)).map fun x => (dsaQ + b - x) % dsaQ
/-- The i-th of the packed polynomials of w bits in a string. -/
def dsaPart (w b : Nat) (bs : Bytes) (i : Nat) : Pol := dsaUnpack w b (slice bs (32 * w * i) (32 * w))
/-- Bits of a packed secret coefficient. -/
def etaBits (p : DsaPar) : Nat := if p.eta = 2 then 3 else 4

/-- Power2Round: the high part and the low part. -/
def dsaRound (x : Nat) : Nat × Nat :=
  let hi := (x + 4095) / 8192
  (hi, (x + dsaQ - 8192 * hi % dsaQ) % dsaQ)
/-- Decompose: the high part, and the low part as a residue. -/
def dsaSplit (p : DsaPar) (x : Nat) : Nat × Nat :=
  let hi := (x % dsaQ + p.g2 - 1) / (2 * p.g2)
  let lo := (x + dsaQ - 2 * p.g2 * hi % dsaQ) % dsaQ
  if 2 * p.g2 * hi = dsaQ - 1 then (0, x % dsaQ) else (hi, lo)
def dsaHigh (p : DsaPar) (x : Nat) : Nat := (dsaSplit p x).1
/-- UseHint. -/
def dsaHint (p : DsaPar) (h : Bool) (x : Nat) : Nat :=
  let m := (dsaQ - 1) / (2 * p.g2)
  let s := dsaSplit p x
  if !h then s.1 else if 0 < s.2 && s.2 ≤ p.g2 then (s.1 + 1) % m else (s.1 + m - 1) % m
/-- w1Encode. -/
def dsaW1 (p : DsaPar) (w : List Pol) : Bytes := (w.map (packNums (if p.g2 = 95232 then 6 else 4))).flatten

/-- The hint's positions and counts as bytes. -/
def hintPack (p : DsaPar) (h : List (List Bool)) : Bytes :=
  let at_ (r : List Bool) : List Nat := (List.range 256).filter fun i => r.getD i false
  let ps := (h.map at_).flatten
  let ends := (List.range p.k).map fun i => ((h.take (i + 1)).map fun r => (at_ r).length).sum
  fit p.om (ps.map (BitVec.ofNat 8)) ++ ends.map (BitVec.ofNat 8)
/-- The hint of its bytes; none when they are malformed. -/
def hintUnpack (p : DsaPar) (bs : Bytes) : Option (List (List Bool)) :=
  let ends := (List.range p.k).map fun i => (byteAt bs (p.om + i)).toNat
  let from_ (i : Nat) : Nat := if i = 0 then 0 else ends.getD (i - 1) 0
  let row (i : Nat) : List Nat := ((bs.take (ends.getD i 0)).drop (from_ i)).map (·.toNat)
  let rising (r : List Nat) : Bool := (List.range (r.length - 1)).all fun j => decide (r.getD j 0 < r.getD (j + 1) 0)
  let ok := (List.range p.k).all fun i => decide (from_ i ≤ ends.getD i 0) && decide (ends.getD i 0 ≤ p.om) && rising (row i)
  if ok && allZero ((bs.take p.om).drop (ends.getD (p.k - 1) 0)) then
    some ((List.range p.k).map fun i => (List.range 256).map fun j => (row i).contains j)
  else none

/-! ## Keys -/

/-- KeyGen_internal: public key, private key, and the SHAKE256 blocks that ExpandS took. -/
def dsaKeygen (set : Nat) (xi : Bytes) : Bytes × Bytes × Nat :=
  let p := dsaPar set
  let g := shake256 (xi ++ [BitVec.ofNat 8 p.k, BitVec.ofNat 8 p.l]) 128
  let rho := g.take 32
  let ss := dsaSecrets p (slice g 32 64)
  let s1 := ss.take p.l
  let t := List.zipWith (polAdd dsaQ) ((dsaApply (dsaMatrix p rho) (s1.map dsaNtt)).map dsaInv) (ss.drop p.l)
  let pk := rho ++ (t.map fun v => packNums 10 (v.map fun x => (dsaRound x).1)).flatten
  let sk := rho ++ slice g 96 32 ++ shake256 pk 64 ++ (ss.map (dsaPack (etaBits p) p.eta)).flatten
    ++ (t.map fun v => dsaPack 13 4096 (v.map fun x => (dsaRound x).2)).flatten
  (pk, sk, dsaSecretBlocks p (slice g 32 64))

/-- The polynomials of a private key: s1, s2, t0. -/
def dsaSkPols (p : DsaPar) (sk : Bytes) : List Pol × List Pol × List Pol :=
  let w := etaBits p
  let body := sk.drop 128
  ((List.range p.l).map (dsaPart w p.eta body), (List.range p.k).map fun i => dsaPart w p.eta body (p.l + i),
   (List.range p.k).map (dsaPart 13 4096 (body.drop (32 * w * (p.l + p.k)))))
/-- The public key that a private key's ρ, s1 and s2 give. -/
def dsaPkOf (set : Nat) (sk : Bytes) : Bytes :=
  let p := dsaPar set
  let x := dsaSkPols p sk
  let t := List.zipWith (polAdd dsaQ) ((dsaApply (dsaMatrix p (sk.take 32)) (x.1.map dsaNtt)).map dsaInv) x.2.1
  sk.take 32 ++ (t.map fun v => packNums 10 (v.map fun y => (dsaRound y).1)).flatten

/-- µ of a framed message under a private key's tr (03 R99). -/
def dsaMu (tr m : Bytes) : Bytes := shake256 (tr ++ m) 64

/-! ## Signing -/

/-- The attempt with a mask counter: a signature, or none when a rejection test or the fixed length of SampleInBall fails
(03 R106, R107, R114). `blocks`: the SHAKE256 blocks of SampleInBall. -/
def dsaAttemptSig (set blocks : Nat) (sk mu rnd : Bytes) (kappa : Nat) : Option Bytes :=
  let p := dsaPar set
  let x := dsaSkPols p sk
  let g1 := 2 ^ p.g1
  let a := dsaMatrix p (sk.take 32)
  let seed := shake256 (slice sk 32 32 ++ rnd ++ mu) 64
  let y := (List.range p.l).map fun r => dsaUnpack (p.g1 + 1) g1 (shake256 (seed ++ leBytes 2 (kappa + r)) (32 * (p.g1 + 1)))
  let w := (dsaApply a (y.map dsaNtt)).map dsaInv
  let ct := shake256 (mu ++ dsaW1 p (w.map fun v => v.map (dsaHigh p))) p.ch
  match dsaBall p ct blocks with
  | none => none
  | some c =>
    let times (v : List Pol) : List Pol := v.map fun u => dsaInv (dsaMul (dsaNtt c) (dsaNtt u))
    let z := List.zipWith (polAdd dsaQ) y (times x.1)
    let r := List.zipWith (polSub dsaQ) w (times x.2.1)
    let t := times x.2.2
    let past (b : Nat) (v : List Pol) : Bool := v.any fun u => u.any fun n => decide (b ≤ centAbs dsaQ n)
    let h := List.zipWith (fun u v => List.zipWith (fun m n => dsaHigh p m != dsaHigh p ((m + n) % dsaQ)) u v) r t
    let ones := (h.map fun v => (v.filter id).length).sum
    if past (g1 - p.beta) z || past (p.g2 - p.beta) (r.map fun v => v.map fun n => (dsaSplit p n).2) || past p.g2 t || p.om < ones then none
    else some (ct ++ (z.map (dsaPack (p.g1 + 1) g1)).flatten ++ hintPack p h)

/-- Sign µ: the number of the attempt that is accepted and its signature; `fuel` bounds the attempts. -/
def dsaSignMu (set blocks : Nat) (sk mu rnd : Bytes) : Nat → Nat → Option (Nat × Bytes)
  | 0, _ => none
  | f + 1, i =>
    match dsaAttemptSig set blocks sk mu rnd ((dsaPar set).l * i) with
    | some sig => some (i + 1, sig)
    | none => dsaSignMu set blocks sk mu rnd f (i + 1)

/-- Verify µ (03 R110). -/
def dsaVerifyMu (set : Nat) (pk mu sig : Bytes) : Bool :=
  let p := dsaPar set
  let g1 := 2 ^ p.g1
  let ct := sig.take p.ch
  let z := (List.range p.l).map (dsaPart (p.g1 + 1) g1 (sig.drop p.ch))
  match hintUnpack p (sig.drop (p.ch + 32 * (p.g1 + 1) * p.l)), dsaBall p ct 32 with
  | some h, some c =>
    let t1 := (List.range p.k).map fun i => (unpackNums 10 256 (leNat (slice pk (32 + 320 * i) 320))).map (· * 8192)
    let az := dsaApply (dsaMatrix p (pk.take 32)) (z.map dsaNtt)
    let w := List.zipWith (fun u t => dsaInv (polSub dsaQ u (dsaMul (dsaNtt c) (dsaNtt t)))) az t1
    let w1 := List.zipWith (fun hr v => List.zipWith (dsaHint p) hr v) h w
    z.all (fun v => v.all fun n => decide (centAbs dsaQ n < g1 - p.beta)) && shake256 (mu ++ dsaW1 p w1) p.ch == ct
  | _, _ => false

end Sys2Proof.Machine
end

