-- ==== Sys2Proof/Machine/MlKem.lean ====
section
/-!
DEFINITION. ML-KEM (FIPS 203), which 03 R93, R101-R103 name: key generation, encapsulation, decapsulation with implicit rejection
(log 22).
-/
namespace Sys2Proof.Machine

/-- Parameters of a set: k, η1, d_u, d_v; η2 is 2. -/
structure KemPar where
  k  : Nat
  e1 : Nat
  du : Nat
  dv : Nat
  deriving DecidableEq, Repr

/-- ML-KEM-512, -768 and -1024, by set code. -/
def kemPar (set : Nat) : KemPar :=
  if set = 1 then ⟨2, 3, 10, 4⟩ else if set = 2 then ⟨3, 2, 10, 4⟩ else ⟨4, 2, 11, 5⟩

/-- The prime of ML-KEM. -/
def kemQ : Nat := 3329
/-- 17 to the power e modulo q. -/
def kemRoot (e : Nat) : Nat := 17 ^ e % kemQ
def kemNtt (a : Pol) : Pol := nttTree kemQ (fun k => kemRoot (revBits 7 k)) 7 1 a
def kemInv (a : Pol) : Pol := nttBack kemQ 1665 (fun k => kemRoot (256 - revBits 7 k)) 7 1 a
/-- Products of pairs modulo X² − 17^(2·BitRev(i) + 1). -/
def kemMulGo : Nat → Pol → Pol → Pol
  | i, a0 :: a1 :: as, b0 :: b1 :: bs =>
    (a0 * b0 + a1 * b1 % kemQ * kemRoot (2 * revBits 7 i + 1)) % kemQ :: (a0 * b1 + a1 * b0) % kemQ :: kemMulGo (i + 1) as bs
  | _, _, _ => []
/-- The product of two transforms. -/
def kemMul (a b : Pol) : Pol := kemMulGo 0 a b
/-- The inner product of two vectors of transforms. -/
def kemDot (a b : List Pol) : Pol := polSum kemQ 256 (List.zipWith kemMul a b)

/-- The candidates of three bytes. -/
def kemPair (g : Bytes) : List Nat :=
  let x := leNat g
  [x % 4096, x / 4096].filter (· < kemQ)
/-- An entry of the public matrix, and the three-byte groups that it took; the stream's 64 blocks are never used up in practice. -/
def kemEntry (rho : Bytes) (j i : Nat) : Pol × Nat :=
  rejTake kemPair 256 (chunks 3 3584 (shake128 (rho ++ [BitVec.ofNat 8 j, BitVec.ofNat 8 i]) 10752)) 0
/-- The matrix of a seed, row by row. -/
def kemMatrix (p : KemPar) (rho : Bytes) : List (List Pol) :=
  (List.range p.k).map fun i => (List.range p.k).map fun j => (kemEntry rho j i).1
/-- The SHAKE128 blocks beyond four that the matrix of a seed takes (03 R114). -/
def kemMore (p : KemPar) (rho : Bytes) : Nat :=
  ((List.range p.k).map fun i => ((List.range p.k).map fun j => cdiv (3 * (kemEntry rho j i).2) 168 - 4).sum).sum

/-- The centred binomial sampler of a pseudorandom string. -/
def kemNoise (eta : Nat) (seed : Bytes) (n : Nat) : Pol :=
  (unpackNums (2 * eta) 256 (leNat (shake256 (seed ++ [BitVec.ofNat 8 n]) (64 * eta)))).map fun x =>
    let ones (bs : List Bool) : Nat := (bs.filter id).length
    (ones (lowBits eta x) + kemQ - ones (lowBits eta (x / 2 ^ eta))) % kemQ
/-- A vector of noise from a first number on. -/
def kemNoises (eta : Nat) (seed : Bytes) (n k : Nat) : List Pol := (List.range k).map fun i => kemNoise eta seed (n + i)

/-- Compress to d bits, and back. -/
def kemCompress (d x : Nat) : Nat := (2 * x * 2 ^ d + kemQ) / (2 * kemQ) % 2 ^ d
def kemDecompress (d y : Nat) : Nat := (2 * y * kemQ + 2 ^ d) / 2 ^ (d + 1)

/-- ByteEncode12 of a vector, and back. -/
def kemEncode (v : List Pol) : Bytes := (v.map (packNums 12)).flatten
def kemDecode (k : Nat) (bs : Bytes) : List Pol :=
  (List.range k).map fun i => (unpackNums 12 256 (leNat (slice bs (384 * i) 384))).map (· % kemQ)

/-- K-PKE.KeyGen: the encoded t and ρ, the encoded s. -/
def pkeKeygen (set : Nat) (d : Bytes) : Bytes × Bytes :=
  let p := kemPar set
  let g := sha3 64 (d ++ [BitVec.ofNat 8 p.k])
  let rho := g.take 32
  let s := (kemNoises p.e1 (g.drop 32) 0 p.k).map kemNtt
  let e := (kemNoises p.e1 (g.drop 32) p.k p.k).map kemNtt
  let t := List.zipWith (fun row x => polAdd kemQ (kemDot row s) x) (kemMatrix p rho) e
  (kemEncode t ++ rho, kemEncode s)

/-- K-PKE.Encrypt. -/
def pkeEncrypt (set : Nat) (ek m r : Bytes) : Bytes :=
  let p := kemPar set
  let a := kemMatrix p (slice ek (384 * p.k) 32)
  let y := (kemNoises p.e1 r 0 p.k).map kemNtt
  let u := (List.range p.k).map fun j =>
    polAdd kemQ (kemInv (kemDot (a.map fun row => row.getD j []) y)) (kemNoise 2 r (p.k + j))
  let mu := (unpackNums 1 256 (leNat m)).map (kemDecompress 1)
  let v := polAdd kemQ (polAdd kemQ (kemInv (kemDot (kemDecode p.k ek) y)) (kemNoise 2 r (2 * p.k))) mu
  (u.map fun x => packNums p.du (x.map (kemCompress p.du))).flatten ++ packNums p.dv (v.map (kemCompress p.dv))

/-- K-PKE.Decrypt. -/
def pkeDecrypt (set : Nat) (s c : Bytes) : Bytes :=
  let p := kemPar set
  let part (off w : Nat) : Pol := (unpackNums w 256 (leNat (slice c off (32 * w)))).map (kemDecompress w)
  let u := (List.range p.k).map fun i => kemNtt (part (32 * p.du * i) p.du)
  let w := polSub kemQ (part (32 * p.du * p.k) p.dv) (kemInv (kemDot (kemDecode p.k s) u))
  packNums 1 (w.map (kemCompress 1))

/-- KeyGen_internal from d: the encapsulation key, and s in the NTT domain. -/
def kemKeygen (set : Nat) (d : Bytes) : Bytes × Bytes := pkeKeygen set d

/-- Encaps_internal: ciphertext and shared secret. -/
def kemEncaps (set : Nat) (ek m : Bytes) : Bytes × Bytes :=
  let g := sha3 64 (m ++ sha3 32 ek)
  (pkeEncrypt set ek m (g.drop 32), g.take 32)

/-- Decaps_internal with the parts of the decapsulation key: s, ek, H(ek), z. A ciphertext that does not come from its own message
gives J(z ‖ c) (03 R103). -/
def kemDecaps (set : Nat) (s ek h z c : Bytes) : Bytes :=
  let m := pkeDecrypt set s c
  let g := sha3 64 (m ++ h)
  if pkeEncrypt set ek m (g.drop 32) = c then g.take 32 else shake256 (z ++ c) 32

end Sys2Proof.Machine
end

