-- ==== Sys2Proof/Machine/Lattice.lean ====
section
/-!
DEFINITION. The lattice services of classes 0x1 and 0x2: ML-KEM and the hybrids, ML-DSA, FN-DSA (03).
-/
namespace Sys2Proof.Machine

/-! ## ML-KEM (03 R101-R105, R119) -/

/-- The ML-KEM set of a class 0x1 set; a hybrid's core half is ML-KEM-768 (03 R115). -/
def kemCore (set : Nat) : Nat := if isHybrid set then 2 else set
/-- A number as an argument of a standard's function. -/
def arg1 (n : Nat) : Bytes := [BitVec.ofNat 8 n]
/-- Length of the ML-KEM encapsulation key. -/
def kemEk (set : Nat) : Nat := ((latSet 1 (kemCore set)).map (·.pk)).getD 0
/-- Length of the ML-KEM ciphertext. -/
def kemCt (set : Nat) : Nat := ((latSet 1 (kemCore set)).map (·.ct)).getD 0

/-- The 12-bit coefficients of an encoded key are all below 3,329 (03 R102; FIPS 203 ByteDecode12, log 22). -/
def coeffsOk : Nat → Bytes → Bool
  | 0, _ => true
  | n + 1, bs =>
    let a := (byteAt bs 0).toNat + 256 * ((byteAt bs 1).toNat % 16)
    let b := (byteAt bs 1).toNat / 16 + 16 * (byteAt bs 2).toNat
    decide (a < 3329) && decide (b < 3329) && coeffsOk n (bs.drop 3)
/-- The modulus check of an encapsulation key: all but its last 32 bytes are coefficients. -/
def ekOk (ek : Bytes) : Bool := coeffsOk ((ek.length - 32) / 3) ek

/-- Length of the decoding phase of a given encapsulation key (03 R102). -/
def ekDecode (core : Nat) : Nat := if core = 1 then 600 else if core = 2 then 850 else 1100

/-- The cycle figures of a table row by masking order. -/
def pick4 (o a b c e : Nat) : Nat := if o = 0 then a else if o = 1 then b else if o = 2 then c else e
/-- ML-KEM KEYGEN (03 R119). -/
def kemKeygenCycles (core o : Nat) : Nat :=
  if core = 1 then pick4 o 3700 5200 9300 15800 else if core = 2 then pick4 o 5400 7600 13500 23000
  else pick4 o 7400 10400 18500 31600
/-- ML-KEM ENCAPS (03 R119). -/
def kemEncapsCycles (core : Nat) : Nat := if core = 1 then 3400 else if core = 2 then 5000 else 6900
/-- ML-KEM DECAPS (03 R119). -/
def kemDecapsCycles (core o : Nat) : Nat :=
  if core = 1 then pick4 o 4000 5500 9800 16700 else if core = 2 then pick4 o 5900 8100 14400 24600
  else pick4 o 8100 11100 19800 33800
/-- Further SHAKE blocks of the matrix expansion: 40 core cycles each, by ρ alone (03 R114). -/
def expandExtra (cls set : Nat) (rho : Bytes) : Nat := 40 * (if cls = 1 then kemMore (kemPar set) rho else dsaMore (dsaPar set) rho)
/-- ρ of an encapsulation key: its last 32 bytes. -/
def ekRho (ek : Bytes) : Bytes := ek.drop (ek.length - 32)

/-- The public key that an object holds, of its class 0x1 set: a private object's public part also holds H(ek) (03 R94). -/
def kemPubOf (set : Nat) (k : KObj) : Bytes :=
  if isPrivate k then k.pub.take (kemEk set) ++ k.pub.drop (kemEk set + 32) else k.pub

/-- A new ML-KEM key from d and z: encapsulation key, secret part, public part (03 R94, R101). -/
def kemNew (core : Nat) (dz : Bytes) : Bytes × Bytes × Bytes :=
  let k := kemKeygen core (slice dz 0 32)
  (k.1, k.2 ++ slice dz 32 32, k.1 ++ sha3 32 k.1)
/-- The FIPS 203 decapsulation key of an object (03 R94). -/
def kemDk (core : Nat) (k : KObj) : Bytes :=
  let s := secretOf k
  slice s 0 (kemEk core - 32) ++ slice k.pub 0 (kemEk core + 32) ++ slice s (kemEk core - 32) 32
/-- Encapsulation: ciphertext and shared secret (03 R101). -/
def kemEnc (core : Nat) (ek m : Bytes) : Bytes × Bytes := kemEncaps core ek m
/-- Decapsulation with implicit rejection by a FIPS 203 decapsulation key (03 R103). -/
def kemDec (core : Nat) (dk ct : Bytes) : Bytes :=
  let n := kemEk core
  kemDecaps core (slice dk 0 (n - 32)) (slice dk (n - 32) n) (slice dk (2 * n - 32) 32) (slice dk (2 * n) 32) ct

/-! ## Hybrids (03 R115-R118) -/

/-- Length of the EC public key or ephemeral of a hybrid set (03 R115). -/
def ecLen (set : Nat) : Nat := if set = 0x10 then 32 else 65
/-- A new EC key of a hybrid: the 32-byte scalar, the public string, whether it is a point of its curve (03 R115; 06 R196, R202, R203). -/
def hybKey (d : Dev) (set : Nat) : Bytes × Bytes × Bool × Dev :=
  if set = 0x10 then
    let r := draw d 32
    let q := xSecret r.2 false r.1 (xBase false)
    (r.1, q.1, true, q.2)
  else
    let r := drawScalar d p256.n
    let q := ecSecret r.2 p256 r.1 (ecG p256)
    (beBytes 32 r.1, fit 65 (ecBytes p256 q.1), (match q.1 with | some (x, y) => onCurve p256 x y | none => true), q.2)
/-- The EC shared secret with a received EC string, or the DETAIL of POINT_INVALID and whether it is known only at the end
(03 R115, R116; 06 R190, R202; log 31). -/
def hybDh (d : Dev) (set : Nat) (scalar point : Bytes) : Except (U16 × Bool) Bytes × Dev :=
  if set = 0x10 then
    let z := xSecret d false scalar point
    (if allZero z.1 then .error (0x0505, true) else .ok z.1, z.2)
  else
    match ecDecode p256 point with
    | .error .format => (.error (0x0509, false), d)
    | .error .coord => (.error (0x0502, false), d)
    | .error _ => (.error (0x0501, false), d)
    | .ok q =>
      let z := ecSecret d p256 (beNat scalar) (some q)
      (match z.1 with
       | some (x, _) => .ok (beBytes 32 x)
       | none => .error (0x0502, true), z.2)

/-- Combine the two secrets (03 R115). -/
def hybSecret (comb : Bool) (ssMl ssEc ctEc pkEc : Bytes) : Bytes :=
  if comb then sha3 32 (ascii "STOLONG-HYB1" ++ ssMl ++ ssEc ++ ctEc ++ pkEc) else ssMl ++ ssEc
/-- The join (03 R117). -/
def hybJoin (keygen comb : Bool) : Nat := if !keygen && comb then 104 else 64
/-- The modular-engine half (03 R122). -/
def hybEcCycles (set op : Nat) : Nat :=
  let enc := op == 2 || op == 4
  if set = 0x10 then (if enc then 44000 else 22000) else if op = 1 then 30000 else if enc then 66000 else 36000

/-- The EC part of a hybrid key object's public part. -/
def hybPkEc (set : Nat) (k : KObj) : Bytes := (kemPubOf set k).drop 1184
/-- The recipient's EC public key of an ENCAPS. -/
def hybEncPk (d : Dev) (b : Job) : Bytes :=
  let set := opSet b.e.opcode
  if hasKey0 b then hybPkEc set (jobKey0 d b) else b.inData.drop 1184

/-- The core cycles of a half that stops before its end, at its next yield point: the spec gives no figure, a free one (log 174). -/
def halfStopped (b : Job) : Nat := unstated b.e

/-- The EC half completes: a check fails, or its result waits in the join buffer and its engine is free. A check that fails in the validation
phase counts that phase (06 R191), a later one the whole figure; of the core half, what it has run counts, and where it still runs, what
`halfStopped` says (03 R116-R118). -/
def hybEcHalf (d : Dev) (b : Job) : Dev :=
  let set := opSet b.e.opcode
  let op := opOp b.e.opcode
  let cyc := hybEcCycles set op
  let store (d : Dev) (r : Bytes) : Dev :=
    let d1 := match b.eng2 with | some c => engineEnd d { b with cycles := cyc } c | none => d
    modJob d1 b.id fun x => { x with ecDone := some r, eng2 := none, cycles2 := cyc }
  let stop (d : Dev) (st det : U16) (n : Nat) : Dev :=
    finish d { b with cycles := if b.coreDone.isSome then b.cycles else halfStopped b, cycles2 := n, outLen := 0 } st det
  let bad (d : Dev) (f : U16 × Bool) : Dev := stop d stPointInvalid f.1 (if f.2 then cyc else 400)
  let key (d : Dev) (ss : Bytes) : Dev :=
    let k := hybKey d set
    if k.2.2.1 then store k.2.2.2 ((if op = 1 then k.1 else ss) ++ k.2.1) else stop k.2.2.2 stResultCheck 0 cyc
  if op = 1 then key d []
  else if op = 2 || op = 4 then
    let k := hybKey d set
    if !k.2.2.1 then stop k.2.2.2 stResultCheck 0 cyc
    else
      let r := hybDh k.2.2.2 set k.1 (hybEncPk d b)
      match r.1 with
      | .error f => bad r.2 f
      | .ok ss => store r.2 (ss ++ k.2.1)
  else
    let r := hybDh d set (slice (secretOf (jobKey0 d b)) 1184 32) (b.inData.drop 1088)
    match r.1 with
    | .error f => bad r.2 f
    | .ok ss => store r.2 ss

/-- The core half reaches the join: its result is kept; it yields with its context saved when the EC half has not
completed (03 R117). -/
def hybCoreHalf (d : Dev) (b : Job) : Dev :=
  let op := opOp b.e.opcode
  let store (d : Dev) (r : Bytes) (cyc : Nat) : Dev :=
    let waits := b.ecDone.isNone
    let d1 := match b.eng with | some c => if waits then saveOn d false b c else d | none => d
    modJob d1 b.id fun x =>
      { x with coreDone := some r, coreSaved := waits, cycles := cyc, saveCyc := x.saveCyc + (if waits then 48 else 0) }
  if op = 1 then
    let k := kemNew 2 (jobRnd d b 64)
    store d (k.2.1 ++ k.1) (kemKeygenCycles 2 b.order + expandExtra 1 2 (ekRho k.1))
  else if op = 2 || op = 4 then
    let ek := (if hasKey0 b then kemPubOf (opSet b.e.opcode) (jobKey0 d b) else b.inData).take 1184
    if !hasKey0 b && !ekOk ek then
      refuse d { b with cycles2 := if b.ecDone.isSome then b.cycles2 else halfStopped b } stRange 0x0201 (ekDecode 2)
    else
      let k := kemEnc 2 ek (jobRnd d b 32)
      store d (k.1 ++ k.2) (kemEncapsCycles 2 + expandExtra 1 2 (ekRho ek))
  else
    let k := jobKey0 d b
    store d (kemDec 2 (kemDk 2 k) (b.inData.take 1088)) (kemDecapsCycles 2 b.order + expandExtra 1 2 (ekRho (k.pub.take 1184)))

/-- HYBRID_HALF_DONE (03 R117). The EC half goes on while the core half is saved; an abort ends both (03 R118). -/
def hybridHalfDoneGo (j : Nat) (ec : Bool) (d : Dev) : Dev :=
  match findJob d j with
  | none => d
  | some b =>
    if opClass b.e.opcode != 1 || !isHybrid (opSet b.e.opcode) || b.phase != .placed then d
    else
      match b.abort with
      | some st => failJob d b st 0
      | none =>
        if !jobReady { b with coreSaved := false } then d
        else if ec then (if b.ecDone.isSome then d else hybEcHalf d b)
        else if b.coreDone.isSome then d else hybCoreHalf d b
def execHybridHalfDone (j : Nat) (ec : Bool) (s : State) : Out3 := onDev s (hybridHalfDoneGo j ec)

/-- Give a kept secret to the owner (03 R105). -/
def keepSecret (d : Dev) (b : Job) (ss out : Bytes) (cyc : Nat) : Dev :=
  makeKey d b { type := 0x8140, policy := pPolicy b.e, origin := 1, sec := ss, pub := [] } out 0 cyc

/-- The join of a hybrid job, once both halves are done; the core half must be back on its core (03 R117). -/
def hybFinish (d : Dev) (b : Job) (core ec : Bytes) : Dev :=
  let set := opSet b.e.opcode
  let op := opOp b.e.opcode
  let comb := pbit b.e 0
  let cyc := b.cycles + hybJoin (op == 1) comb
  if op = 1 then
    let sec := core.take 1184
    let ek := core.drop 1184
    let pkEc := ec.drop 32
    makeKey d b { type := opType b.e.opcode, policy := pPolicy b.e, origin := 0, sec := sec ++ ec.take 32,
                  pub := ek ++ sha3 32 ek ++ pkEc } (ek ++ pkEc) 0 cyc
  else
    let enc := op == 2 || op == 4
    let ssMl := if enc then core.drop 1088 else core
    let ctEc := if enc then ec.drop 32 else b.inData.drop 1088
    let pkEc := if enc then hybEncPk d b else hybPkEc set (jobKey0 d b)
    let ss := hybSecret comb ssMl (ec.take 32) ctEc pkEc
    let ct := if enc then core.take 1088 ++ ctEc else []
    if op = 4 || op = 5 then keepSecret d b ss ct cyc
    else finishOut d b (ct ++ ss) 0 0 0 cyc

/-- Join when both halves are done. -/
def hybRun (d : Dev) (b : Job) : Dev :=
  match b.coreDone, b.ecDone with
  | some core, some ec => hybFinish d b core ec
  | _, _ => d

/-- The service of a hybrid: a core half that yielded is restored on its core once the core is idle and open to it (03 R117). -/
def hybService (j : Nat) (d : Dev) : Dev :=
  match findJob d j with
  | none => d
  | some b =>
    match b.eng with
    | none => d
    | some c =>
      if halfWaits b && b.abort.isNone && (cellJob d c).isNone && cellOpen d b c && engineResumes d c then
        let b1 := { b with coreSaved := false, saveCyc := b.saveCyc + 48 }
        hybRun (modJob (restoreOn d b c) j fun _ => b1) b1
      else d

/-! ## Class 0x1 -/

/-- Run a class 0x1 operation on an ML-KEM set, or join a hybrid. -/
def kemService (j op : Nat) (run : Dev → Job → Nat → Dev) (d : Dev) : Dev :=
  let d1 := match findJob d j with
    | some b => if isOp 1 op b.e && isHybrid (opSet b.e.opcode) && b.coreSaved then hybService j d else d
    | none => d
  service j (isOp 1 op) (fun d b => if isHybrid (opSet b.e.opcode) then hybRun d b else run d b (opSet b.e.opcode)) d1

/-- KEYGEN (03 R101, R104). -/
def kemKeygenRun (d : Dev) (b : Job) (set : Nat) : Dev :=
  let k := kemNew set (if pbit b.e 1 then fit 64 (ownAux b) else jobRnd d b 64)
  makeKey d b { type := opType b.e.opcode, policy := pPolicy b.e, origin := 0, sec := k.2.1, pub := k.2.2 } k.1 0
    (kemKeygenCycles set b.order + expandExtra 1 set (ekRho k.1))
def execKemKeygen (j : Nat) (s : State) : Out3 := onDev s (kemService j 1 kemKeygenRun)

/-- The two forms of ENCAPS (03 R101, R102, R105). -/
def kemEncapsRun (keep : Bool) (d : Dev) (b : Job) (set : Nat) : Dev :=
  let ek := if hasKey0 b then kemPubOf set (jobKey0 d b) else b.inData
  if !hasKey0 b && !ekOk ek then refuse d b stRange 0x0201 (ekDecode set)
  else
    let k := kemEnc set ek (jobRnd d b 32)
    let cyc := kemEncapsCycles set + expandExtra 1 set (ekRho ek)
    if keep then keepSecret d b k.2 k.1 cyc else finishOut d b (k.1 ++ k.2) 0 0 0 cyc
def execKemEncaps (j : Nat) (s : State) : Out3 := onDev s (kemService j 2 (kemEncapsRun false))
def execKemEncapsKeep (j : Nat) (s : State) : Out3 := onDev s (kemService j 4 (kemEncapsRun true))

/-- The two forms of DECAPS (03 R103, R105). -/
def kemDecapsRun (keep : Bool) (d : Dev) (b : Job) (set : Nat) : Dev :=
  let k := jobKey0 d b
  let ss := kemDec set (kemDk set k) b.inData
  let cyc := kemDecapsCycles set b.order + expandExtra 1 set (ekRho (k.pub.take (kemEk set)))
  if keep then keepSecret d b ss [] cyc else finishOut d b ss 0 0 0 cyc
def execKemDecaps (j : Nat) (s : State) : Out3 := onDev s (kemService j 3 (kemDecapsRun false))
def execKemDecapsKeep (j : Nat) (s : State) : Out3 := onDev s (kemService j 5 (kemDecapsRun true))

/-- EK_CHECK (03 R102). -/
def ekCheckRun (d : Dev) (b : Job) : Dev :=
  let set := opSet b.e.opcode
  if ekOk b.inData then finishOut d b [] 1 0 0 (ekDecode set) else refuse d b stRange 0x0201 (ekDecode set)
def execEkCheck (j : Nat) (s : State) : Out3 := onDev s (service j (isOp 1 6) ekCheckRun)

/-- PUB_EXPORT of class 0x1 (03 R119). -/
def kemPubExportRun (d : Dev) (b : Job) : Dev := finishOut d b (kemPubOf (opSet b.e.opcode) (jobKey0 d b)) 0 0 0 200
def execKemPubExport (j : Nat) (s : State) : Out3 := onDev s (service j (isOp 1 7) kemPubExportRun)

/-! ## Class 0x2: ML-DSA and FN-DSA (03 R106-R110, R120, R121) -/

/-- The DER object identifier of a PH hash (03 R99; log 22). -/
def phOid (ph : Nat) : Bytes :=
  let last : Byte := match ph with
    | 1 => 4 | 2 => 1 | 3 => 2 | 4 => 3 | 5 => 5 | 6 => 6 | 7 => 7 | 8 => 8 | 9 => 9 | 10 => 0x0A | 11 => 0x0B | _ => 0x0C
  [0x06, 0x09, 0x60, 0x86, 0x48, 0x01, 0x65, 0x03, 0x04, 0x02, last]

/-- M′ of the pure form (03 R99). -/
def mPure (ctx msg : Bytes) : Bytes := [0, BitVec.ofNat 8 ctx.length] ++ ctx ++ msg
/-- M′ of the digest form (03 R99). -/
def mHash (ph : Nat) (ctx digest : Bytes) : Bytes := [1, BitVec.ofNat 8 ctx.length] ++ ctx ++ phOid ph ++ digest

/-- The further SHAKE256 blocks of an absorbed input: 18 core cycles each (03 R109). -/
def absorbExtra (len : Nat) : Nat := 18 * (len / 136)

/-- ML-DSA KEYGEN, sign setup, sign per attempt, verify (03 R120). -/
def dsaKeygenCycles (set o : Nat) : Nat :=
  if set = 1 then pick4 o 4800 8000 15000 24000 else if set = 2 then pick4 o 7600 12800 24000 38500
  else pick4 o 10400 17500 33000 52800
/-- Sign setup; FN-DSA too (03 R120, R121). -/
def dsaSetup (set o : Nat) : Nat :=
  if set = 1 then pick4 o 6000 11200 21000 33000 else if set = 2 then pick4 o 9000 17000 32000 50000
  else if set = 3 then pick4 o 12400 23400 44000 68800 else if set = 8 then 26000 else 54000
/-- Sign per attempt; FN-DSA too (03 R120, R121). -/
def dsaAttempt (set o : Nat) : Nat :=
  if set = 1 then pick4 o 5100 7900 14000 22400 else if set = 2 then pick4 o 7600 11800 21000 33500
  else if set = 3 then pick4 o 10100 15700 28000 44700 else if set = 8 then 46000 else 94000
/-- Verification (03 R120, R121). -/
def dsaVerifyCycles (set : Nat) : Nat :=
  if set = 1 then 9300 else if set = 2 then 14000 else if set = 3 then 19600 else if set = 8 then 5200 else 10600

/-- The public key of a class 0x2 object. -/
def dsaPubOf (k : KObj) : Bytes := k.pub

/-- The candidate key pairs of FN-DSA KEYGEN from the i-th on: octets of f, g and F are free values that a test of the standard accepts; the
public key follows from f and g. The number of the accepted one, its private and public key (03 R107; log 172). -/
def fnKeygen (set len : Nat) (seed : Bytes) : Nat → Nat → Option (Nat × Bytes × Bytes)
  | 0, _ => none
  | f + 1, i =>
    let args := [arg1 set, seed, arg1 i]
    let sk := BitVec.ofNat 8 (0x50 + fnLog set) :: fit (len - 1) (Config.prim .fnDsaKeygenSk args)
    match (if Config.test .fnDsaSkConsistent args then fnPkOf set sk else none) with
    | some pk => some (i + 1, sk, pk)
    | none => fnKeygen set len seed f (i + 1)

/-- What a shortfall of ExpandS adds: one further pass; the fixed length of a pass is not stated, a free number of blocks (03 R114). -/
def expandSExtra (set order blocks : Nat) : Nat :=
  if Config.count .expandS [arg1 set] < blocks then (if order = 0 then 1400 else 2800) else 0

/-- KEYGEN of class 0x2 (03 R101, R107). -/
def dsaKeygenRun (d : Dev) (b : Job) : Dev :=
  let set := opSet b.e.opcode
  match latSet 2 set with
  | none => d
  | some z =>
    let seed := if pbit b.e 1 then fit 32 (ownAux b) else jobRnd d b 32
    let new (sk pk : Bytes) : NewKey :=
      { type := opType b.e.opcode, policy := pPolicy b.e, origin := 0, sec := sk, pub := pk }
    if isFnDsa set then
      let per := if set = 8 then 3600000 else 11500000
      match fnKeygen set z.sk seed 64 0 with
      | none => finish d { b with attempts := 64, cycles := 64 * per, outLen := 0 } stIterationBound 0
      | some (n, sk, pk) => makeKey d b (new sk pk) pk n (n * per)
    else
      let k := dsaKeygen set seed
      makeKey d b (new k.2.1 k.1) k.1 0
        (dsaKeygenCycles set b.order + expandExtra 2 set (k.1.take 32) + expandSExtra set b.order k.2.2)
def execDsaKeygen (j : Nat) (s : State) : Out3 := onDev s (service j (isOp 2 1) dsaKeygenRun)

/-- The attempts of FN-DSA signing from the i-th on: what follows the salt is a free value of each, and one that verifies is accepted
(03 R106, R107; log 172). -/
def fnSign (set len : Nat) (sk pk msg salt : Bytes) : Nat → Nat → Option (Nat × Bytes)
  | 0, _ => none
  | f + 1, i =>
    let sig := BitVec.ofNat 8 (0x30 + fnLog set) :: (salt ++ fit (len - 41) (Config.prim .fnDsaSign [arg1 set, sk, msg, salt, arg1 i]))
    if fnVerify set pk msg sig then some (i + 1, sig) else fnSign set len sk pk msg salt f (i + 1)

/-- The SHAKE256 blocks that SampleInBall squeezes in signing: a fixed number that the spec does not state, free (03 R114). -/
def ballBlocks (set : Nat) : Nat := Config.count .ballBlocks [arg1 set]
/-- A pure ML-DSA signature of a framed message, with its attempt (03 R106). -/
def dsaSignMsg (set : Nat) (sk m rnd : Bytes) : Option (Nat × Bytes) :=
  dsaSignMu set (ballBlocks set) sk (dsaMu (slice sk 64 64) m) rnd 255 0
/-- The verdict on a pure ML-DSA signature of a framed message (03 R110). -/
def dsaVerifyMsg (set : Nat) (pk m sig : Bytes) : Bool := dsaVerifyMu set pk (dsaMu (shake256 pk 64) m) sig

/-- The signature of a job: a framed message, or µ when `form` is 1; the bound is 255 attempts (03 R106, R107). -/
def dsaJobSig (set len form : Nat) (k : KObj) (msg rnd : Bytes) : Option (Nat × Bytes) :=
  let sk := secretOf k
  if isFnDsa set then fnSign set len sk k.pub msg rnd 255 0
  else if form = 1 then dsaSignMu set (ballBlocks set) sk msg rnd 255 0 else dsaSignMsg set sk msg rnd

/-- Sign a framed message, or µ, and report the attempts (03 R106-R109). `absorbed` is the length of the hash input. -/
def dsaSignWith (d : Dev) (b : Job) (form : Nat) (msg : Bytes) (absorbed : Nat) : Dev :=
  let set := opSet b.e.opcode
  match latSet 2 set with
  | none => d
  | some z =>
    let k := jobKey0 d b
    let rnd := if isFnDsa set then jobRnd d b 40 else if pbit b.e 0 then zeros 32 else jobRnd d b 32
    let cyc (n : Nat) : Nat :=
      dsaSetup set b.order + n * dsaAttempt set b.order + absorbExtra absorbed
        + (if isFnDsa set then 0 else expandExtra 2 set (k.pub.take 32))
    match dsaJobSig set z.ct form k msg rnd with
    | none => finish d { b with attempts := 255, cycles := cyc 255, outLen := 0 } stIterationBound 0
    | some (n, sig) => finishOut d b sig 0 0 n (cyc n)

/-- Length of the message-hash input of a framed message: after tr (64), or after FN-DSA's salt (40) (03 R109; log 22). -/
def hashInput (set : Nat) (m : Bytes) : Nat := (if isFnDsa set then 40 else 64) + m.length

def dsaSignRun (d : Dev) (b : Job) : Dev :=
  let m := mPure (ownAux b) b.inData
  dsaSignWith d b 0 m (hashInput (opSet b.e.opcode) m)
def execDsaSign (j : Nat) (s : State) : Out3 := onDev s (service j (isOp 2 2) dsaSignRun)
def signPhRun (d : Dev) (b : Job) : Dev :=
  let m := mHash (pbits b.e 8 8) (ownAux b) b.inData
  dsaSignWith d b 0 m (hashInput (opSet b.e.opcode) m)
def execSignPh (j : Nat) (s : State) : Out3 := onDev s (service j (isOp 2 3) signPhRun)
def signMuRun (d : Dev) (b : Job) : Dev := dsaSignWith d b 1 b.inData 0
def execSignMu (j : Nat) (s : State) : Out3 := onDev s (service j (isOp 2 4) signMuRun)

/-- Verify a framed message, or µ (03 R110, R111). -/
def dsaVerifyWith (d : Dev) (b : Job) (form : Nat) (msg : Bytes) (absorbed : Nat) : Dev :=
  let set := opSet b.e.opcode
  match latSet 2 set with
  | none => d
  | some z =>
    let aux := ownAux b
    let pk := if hasKey0 b then dsaPubOf (jobKey0 d b) else aux.take z.pk
    let sig := slice (if hasKey0 b then aux else aux.drop z.pk) 0 z.ct
    let decode := if set = 8 then 700 else 1300
    if isFnDsa set && !hasKey0 b && !fnPkHead set pk then refuse d b stEncoding 0x0202 decode
    else if isFnDsa set && !hasKey0 b && !fnPkRange set pk then refuse d b stRange 0x0202 decode
    else
      let ok := if isFnDsa set then fnVerify set pk msg sig
        else if form = 1 then dsaVerifyMu set pk msg sig else dsaVerifyMsg set pk msg sig
      verdict d b ok stSigInvalid 0
        (dsaVerifyCycles set + absorbExtra absorbed + (if isFnDsa set then 0 else expandExtra 2 set (pk.take 32)))

/-- The context string at the end of AUX. -/
def verifyCtx (b : Job) : Bytes := let a := ownAux b; a.drop (a.length - pbits b.e 16 8)

def dsaVerifyRun (d : Dev) (b : Job) : Dev :=
  let m := mPure (verifyCtx b) b.inData
  dsaVerifyWith d b 0 m (hashInput (opSet b.e.opcode) m)
def execDsaVerify (j : Nat) (s : State) : Out3 := onDev s (service j (isOp 2 5) dsaVerifyRun)
def verifyPhRun (d : Dev) (b : Job) : Dev :=
  let m := mHash (pbits b.e 8 8) (verifyCtx b) b.inData
  dsaVerifyWith d b 0 m (hashInput (opSet b.e.opcode) m)
def execVerifyPh (j : Nat) (s : State) : Out3 := onDev s (service j (isOp 2 6) verifyPhRun)
def verifyMuRun (d : Dev) (b : Job) : Dev := dsaVerifyWith d b 1 b.inData 0
def execVerifyMu (j : Nat) (s : State) : Out3 := onDev s (service j (isOp 2 7) verifyMuRun)

/-- PUB_EXPORT of class 0x2. -/
def dsaPubExportRun (d : Dev) (b : Job) : Dev := finishOut d b (dsaPubOf (jobKey0 d b)) 0 0 0 200
def execDsaPubExport (j : Nat) (s : State) : Out3 := onDev s (service j (isOp 2 8) dsaPubExportRun)

end Sys2Proof.Machine
end

