-- ==== Sys2Proof/Machine/PkJobs.lean ====
section
/-!
DEFINITION. The classical public-key services of class 0x5 (06 R183-R203, R210, R211).
-/
namespace Sys2Proof.Machine

/-! ## Figures (06 R191, R210, R211; log 24) -/

/-- The size class of a Weierstrass curve. -/
def sizeClass (c : Curve) : Nat := if c.pbits ≤ 256 then 0 else if c.pbits ≤ 384 then 1 else if c.pbits ≤ 521 then 2 else 3
/-- The row of an RSA modulus length. -/
def rsaRow (k : Nat) : Nat := match k with | 128 => 0 | 256 => 1 | 384 => 2 | 512 => 3 | 768 => 4 | _ => 5
def listAt (l : List Nat) (i : Nat) : Nat := l.getD i 0

/-- KEYGEN. -/
def pkKeygenCycles (c : Curve) (set : Nat) : Nat :=
  if isWeier set then listAt [30000, 68000, 150000, 260000] (sizeClass c)
  else if set = 0x10 || set = 0x12 then 22000 else if set = 0x11 then 66000 else if set = 0x13 then 64000
  else listAt [49000, 127000, 258000, 651000, 1221000] (set - 0x28)
/-- The validation phase of a public key (06 R191). -/
def pkValidCycles (c : Curve) (set k : Nat) : Nat :=
  if isWeier set then listAt [400, 700, 1300, 1900] (sizeClass c) + (if 1 < c.h then pkKeygenCycles c set else 0)
  else if set = 0x12 then 900 else if set = 0x13 then 1600
  else if isRsa set then listAt [100, 120, 160, 200, 280, 360] (rsaRow k)
  else if isFfdh set then listAt [330000, 1111000, 2630000, 8865000, 21003000] (set - 0x28) else 0
/-- SIGN of the curves. -/
def ecSignCycles (c : Curve) (set : Nat) : Nat :=
  if isWeier set then listAt [32000, 72000, 158000, 272000] (sizeClass c) else if set = 0x12 then 24000 else 68000
/-- VERIFY of the curves. -/
def ecVerifyCycles (c : Curve) (set : Nat) : Nat :=
  if isWeier set then listAt [40000, 90000, 198000, 342000] (sizeClass c) else if set = 0x12 then 52000 else 150000
/-- DH with the peer's key checked. -/
def dhCycles (c : Curve) (set : Nat) : Nat :=
  if isWeier set then listAt [36000, 80000, 176000, 302000] (sizeClass c)
  else if set = 0x10 then 22000 else if set = 0x11 then 66000
  else listAt [379000, 1238000, 2888000, 9516000, 22224000] (set - 0x28)
/-- DH with the peer's key by handle: the point check falls away. -/
def dhHandleCycles (c : Curve) (set : Nat) : Nat :=
  if isWeier set then dhCycles c set - pkValidCycles c set 0
  else if isFfdh set then listAt [49000, 127000, 258000, 651000, 1221000] (set - 0x28) else dhCycles c set
/-- The RSA private primitive. -/
def rsaPriv (k : Nat) : Nat := listAt [0, 90000, 285000, 650000, 2150000, 5050000] (rsaRow k)
/-- The RSA public primitive; the table assumes e = 65,537, another e leaves the figure open. -/
def rsaPub (k e : Nat) : Nat :=
  if e = 65537 then listAt [900, 2300, 5000, 8800, 19700, 34900] (rsaRow k)
  else Config.count .unstatedCycles [leBytes 2 k, leBytes 4 e]
/-- The HASH blocks of a message on the padding unit (06 R179, R210). -/
def hashCost (id len : Nat) : Nat := hashBlocks id len (hDigest id) * hCycles id
/-- What a long EdDSA message adds (06 R210). -/
def edExtra (set len sign : Nat) : Nat :=
  if set = 0x12 then (len - 64) / 128 * 81 * sign else (len - 64) / 136 * 24 * sign

/-! ## Refusals and output checks -/

/-- A refusal of the validation phase counts in `ME_REFUSE` (06 R212). -/
def meRefused (d : Dev) (b : Job) : Dev :=
  match b.eng with | some c => modEng d c fun r => { r with refuse := satInc r.refuse } | none => d
/-- A refusal of the validation phase (06 R188). -/
def meRefuse (d : Dev) (b : Job) (st det : U16) (cyc : Nat) : Dev := refuse (meRefused d b) b st det cyc
/-- A refusal in the order of 03 R100 that rests on what AUX holds: it uses no engine (02 R79, 06 R188). -/
def refuseUnplaced (d : Dev) (b : Job) (st det : U16) : Dev := refuse d { b with eng := none } st det 0

/-- An output check fails: RESULT_CHECK, `ME_RCHK`, Amber, and the engine leaves service for test (06 R203, 16 R468). -/
def resultCheck (d : Dev) (b : Job) (cyc : Nat) : Dev :=
  match b.eng with
  | none => refuse d b stResultCheck 0 cyc
  | some c =>
    let r := getEng d c
    let d1 := modEng d c fun r => { r with rchk := satInc r.rchk, rchkEvent := true }
    let d2 := raise d1 3 (BitVec.ofBool r.rchkEvent) 1
    let d3 := amber d2 .resultCheck (.me (c - 16)) (le16 (engineCode d.glob.node c) ++ le16 b.e.opcode)
    refuse (takeOut d3 c) b stResultCheck 0 cyc

/-- STATUS and DETAIL of a bad point (06 R190). -/
def ptFault : PtErr → U16 × U16
  | .format => (stEncoding, 0x0509) | .coord => (stRange, 0x0502) | .offCurve => (stPointInvalid, 0x0501)
  | .infinity => (stPointInvalid, 0x0502) | .subgroup => (stPointInvalid, 0x0503)

/-! ## RSA keys (06 R185) -/

def rsaE (pk : Bytes) : Nat := beNat (pk.take 4)
def rsaN (pk : Bytes) : Nat := beNat (pk.drop 4)
/-- The form faults of an RSA public key, in the order of 06 R190. -/
def rsaKeyFault (pk : Bytes) : Option (U16 × U16) :=
  if rsaE pk % 2 = 0 || rsaE pk < 3 then some (stRange, 0x0507)
  else if rsaN pk % 2 = 0 || byteAt pk 4 = 0 then some (stEncoding, 0x0508) else none
/-- A component of an RSA secret part: 0 p, 1 q, 2 dP, 3 dQ, 4 qInv. -/
def rsaPart (sec : Bytes) (k i : Nat) : Nat := beNat (slice sec (i * (k / 2)) (k / 2))
/-- The blinding values of a private operation: of the two exponents and of the base (06 R202). -/
structure RsaBlind where
  r1 : Nat
  r2 : Nat
  r  : Nat
  deriving DecidableEq, Repr

/-- The private primitive, by its two halves, with blinded exponents and a blinded base (06 R202). -/
def rsaPrivOp (sec pk : Bytes) (k c : Nat) (z : RsaBlind) : Nat :=
  let n := rsaN pk
  let p := rsaPart sec k 0
  let q := rsaPart sec k 1
  let c1 := c * powMod z.r (rsaE pk) n % n
  let m1 := powMod c1 (rsaPart sec k 2 + z.r1 * (p - 1)) p
  let m2 := powMod c1 (rsaPart sec k 3 + z.r2 * (q - 1)) q
  (m2 + rsaPart sec k 4 * subMod m1 m2 p % p * q) * inv0 z.r n % n

/-- The blinding values of an RSA private operation. -/
def rsaBlind (d : Dev) (pk : Bytes) : RsaBlind × Dev :=
  let a := drawBits d 64
  let b := drawBits a.2 64
  let c := drawBelow b.2 (rsaN pk)
  ({ r1 := a.1, r2 := b.1, r := c.1 }, c.2)
/-- Whether a result is a point of its curve (06 R203). -/
def ecOutOk (c : Curve) : Pt → Bool
  | none => true
  | some (x, y) => onCurve c x y

/-! ## Primality (06 R197, R200; log 166) -/

/-- The squarings of a Miller–Rabin round. -/
def mrSquares (n : Nat) : Nat → Nat → Bool
  | 0, _ => false
  | s + 1, x => x == n - 1 || mrSquares n s (x * x % n)
/-- A round of Miller–Rabin on an odd n > 3 with a base. -/
def mrRound (n a : Nat) : Bool :=
  let m := oddPart (Nat.log2 n + 1) (n - 1) 0
  let x := powMod a m.1 n
  x == 1 || mrSquares n m.2 x
/-- Rounds of Miller–Rabin with DRBG bases in [2, n − 2]; all are run. -/
def mrTest (n : Nat) : Nat → Dev → Bool × Dev
  | 0, d => (true, d)
  | f + 1, d =>
    let r := drawBits d (Nat.log2 n + 1 + 64)
    let rest := mrTest n f r.2
    (mrRound n (r.1 % (n - 3) + 2) && rest.1, rest.2)
/-- Whether a number is prime, by the rounds. -/
def isPrime (n rounds : Nat) (d : Dev) : Bool × Dev :=
  let r := mrTest n rounds d
  (if n ≤ 3 then decide (2 ≤ n) else n % 2 == 1 && r.1, r.2)

/-- The rounds of FIPS 186-5 for a prime of this many bits (log 167). -/
def mrRounds (bits : Nat) : Nat := if bits ≤ 1024 then 5 else if bits ≤ 2048 then 4 else 3
/-- Whether no odd prime below 2^16 divides a candidate above 2^16: then no odd number below 2^16 does. -/
def sieveOk (x : Nat) : Bool := (List.range 32767).all fun i => x % (2 * i + 3) != 0

/-- Search a prime of `bits` bits: candidates come from the DRBG, the sieve's survivors are tested, at most `cap` of them; `fuel` bounds the
candidates. The prime, the survivors so far, the DRBG after it (06 R200; log 166). -/
def rsaSearch (bits e other cap : Nat) : Nat → Nat → Dev → Option Nat × Nat × Dev
  | 0, s, d => (none, s, d)
  | f + 1, s, d =>
    if cap ≤ s then (none, s, d)
    else
      let r := drawBits d bits
      let x := r.1 / 2 * 2 + 1
      let near := (if x < other then other - x else x - other) ≤ 2 ^ (bits - 100)
      if x * x < 2 ^ (2 * bits - 1) || Nat.gcd (x - 1) e ≠ 1 || near || !sieveOk x then rsaSearch bits e other cap f s r.2
      else
        let t := isPrime x (mrRounds bits) r.2
        if t.1 then (some x, s + 1, t.2) else rsaSearch bits e other cap f (s + 1) t.2

/-- The public key of a job: KEY0's, or at the head of AUX, with the rest of AUX. -/
def jobPk (d : Dev) (b : Job) (n : Nat) : Bytes × Bytes :=
  if hasKey0 b then ((jobKey0 d b).pub, ownAux b) else ((ownAux b).take n, (ownAux b).drop n)

/-- The curve of a job. -/
def jobCurve (d : Dev) (b : Job) : Curve := curveOf d b.owner (opSet b.e.opcode)
  (if hasKey0 b then (jobKey0 d b).param else b.e.key1)
/-- The parameter handle that a new key of a job records. -/
def newParam (b : Job) : U32 := if opSet b.e.opcode = 8 then b.e.key1 else noHandle

/-! ## KEYGEN (06 R186, R196, R200) -/

/-- The secret and public parts of a new key that is not RSA, whether its public part passes the output check, and the draws
(06 R196, R202, R203). -/
def pkNew (d : Dev) (c : Curve) (set : Nat) : Bytes × Bytes × Bool × Dev :=
  if isWeier set then
    let r := drawScalar d c.n
    let q := ecSecret r.2 c r.1 (ecG c)
    (beBytes (nLen c) r.1, ecBytes c q.1, ecOutOk c q.1, q.2)
  else if isXcurve set then
    let big := set == 0x11
    let r := draw d (if big then 56 else 32)
    let q := xSecret r.2 big r.1 (xBase big)
    (r.1, q.1, true, q.2)
  else if isEdwards set then
    let big := set == 0x13
    let r := draw d (if big then 57 else 32)
    let z := edBlind r.2 big
    let pk := edPub big r.1 z.1
    (r.1 ++ leBytes (if big then 57 else 32) (edScalar big r.1), pk, (edDecode (edCurve big) pk).isSome, z.2)
  else
    let r := drawBits d (ffXbits set - 1)
    let x := 2 ^ (ffXbits set - 1) + r.1
    let y := ffSecret r.2 set x 2
    (beBytes (ffXlen set) x, beBytes (ffLen set) y.1, true, y.2)

/-- RSA KEYGEN. The spec names no status for a block with another MODBITS or a nonzero reserved field: DESIGN CHOICE PARAM_INVALID
(log 168). Its lengths and shares are those of R100 (06 R186, R188, R190, R200). -/
def rsaKeygen (d : Dev) (b : Job) : Dev :=
  let bits := (u16At b.auxData 0).toNat
  let k := bits / 8
  let e0 := (u32At b.auxData 4).toNat
  let e := if e0 = 0 then 65537 else e0
  let sec := 5 * (k / 2)
  if !(bits == 2048 || bits == 3072 || bits == 4096 || bits == 6144 || bits == 8192) || u16At b.auxData 2 != 0 then
    meRefuse d b stParamInvalid 0 (unstated b.e)
  else if b.e.outCap.toNat < 4 + k then refuseUnplaced d b stLength 2
  else if (getOwn d b.owner).sh.gran.toNat < granUsed d b.owner + granPriv sec (4 + k) then refuseUnplaced d b stKeyCacheFull 0
  else if b.pkeyRes ≠ 0 && 1920 < blocksUsed d + persistBlocks sec (4 + k) then refuseUnplaced (ksPfull d) b stPersistFull 2
  else if e % 2 = 0 || e < 65537 then meRefuse d b stRange 0x0507 (pkValidCycles {} 0x20 k)
  else
    let x := rsaSearch (8 * (k / 2)) e 0 4080 16777216 0 d
    let y := match x.1 with
      | some p => rsaSearch (8 * (k / 2)) e p 4080 16777216 x.2.1 x.2.2
      | none => (none, x.2.1, x.2.2)
    let cyc := Config.count .rsaKeygenN [leBytes 2 k, leBytes 4 e, leBytes 4 (y.2.2.glob.drbgCtr - d.glob.drbgCtr), leBytes 2 y.2.1]
    match x.1, y.1 with
    | some p, some q =>
      let half (x : Nat) : Bytes := beBytes (k / 2) x
      let pk := beBytes 4 e ++ beBytes k (p * q)
      let secret := half p ++ half q ++ half (inv0 e (p - 1)) ++ half (inv0 e (q - 1)) ++ half (inv0 q p)
      makeKey y.2.2 b { type := opType b.e.opcode, policy := pPolicy b.e, origin := 0, sec := secret, pub := pk } pk (cdiv y.2.1 16) cyc
    | _, _ => finish y.2.2 { b with attempts := 255, cycles := cyc, outLen := 0 } stIterationBound 0

def pkKeygenRun (d : Dev) (b : Job) : Dev :=
  let set := opSet b.e.opcode
  if isRsa set then rsaKeygen d b
  else
    let c := jobCurve d b
    let k := pkNew d c set
    if !k.2.2.1 then resultCheck k.2.2.2 b (pkKeygenCycles c set)
    else
      makeKey k.2.2.2 b { type := opType b.e.opcode, policy := pPolicy b.e, origin := 0, sec := k.1, pub := k.2.1, param := newParam b }
        k.2.1 0 (pkKeygenCycles c set)
def execPkKeygen (j : Nat) (s : State) : Out3 := onDev s (service j (isOp 5 1) pkKeygenRun)

/-! ## Signatures (06 R192, R195, R199) -/

/-- The digest of a signing or verifying job. -/
def jobDigest (b : Job) : Bytes := if pkPh b.e then b.inData else phHash (pkHash b.e) b.inData
/-- What hashing the message costs. -/
def jobHashCost (b : Job) : Nat := if pkPh b.e then 0 else hashCost (pkHash b.e) b.inData.length

/-- The ECDSA loop: attempts left, the attempt's number, and the key and value of the deterministic procedure when DET = 1; without it
the nonce is drawn. A signature point off the curve ends it (06 R192, R202, R203). -/
def ecdsaLoop (c : Curve) (priv e id : Nat) : Nat → Nat → Option (Bytes × Bytes) → Dev → Option (Bool × Nat × Nat × Nat) × Dev
  | 0, _, _, d => (none, d)
  | f + 1, i, det, d =>
    let (k, det1, d1) := match det with
      | some (x, y) => (let n := detNonce (phHash id) (phBlock id) (hashLenOf id) c 4096 x y; (n.1, some n.2, d))
      | none => (let r := drawBelow d c.n; (r.1, none, r.2))
    let q := ecSecret d1 c k (ecG c)
    let m := ecdsaBlind q.2 c
    match ecdsaSig c priv e k q.1 m.1 with
    | some (x, y) => (some (ecOutOk c q.1, x, y, i), m.2)
    | none =>
      let next := det1.map fun s =>
        let k1 := hmac (phHash id) (phBlock id) s.1 (s.2 ++ [0])
        (k1, hmac (phHash id) (phBlock id) k1 s.2)
      ecdsaLoop c priv e id f (i + 1) next m.2

/-- ECDSA SIGN. DET = 1 costs what R210 adds; what it adds in the class of 522 to 640 bits is not stated: a free figure (log 4). -/
def ecdsaSign (d : Dev) (b : Job) : Dev :=
  let c := jobCurve d b
  let set := opSet b.e.opcode
  let priv := beNat (secretOf (jobKey0 d b))
  let id := pkHash b.e
  let e := ecHashInt c (jobDigest b)
  let det := if pbit b.e 0 then some (detStart (phHash id) (phBlock id) (hashLenOf id) c priv e) else none
  let r := ecdsaLoop c priv e id 255 1 det d
  let cyc := ecSignCycles c set + jobHashCost b
    + (if pbit b.e 0 then (if sizeClass c = 3 then unstated b.e else listAt [1300, 1900, 2600] (sizeClass c)) else 0)
  match r.1 with
  | none => finish r.2 { b with attempts := 255, cycles := cyc, outLen := 0 } stIterationBound 0
  | some (ok, x, y, i) =>
    if !ok then resultCheck r.2 b cyc else finishOut r.2 b (beBytes (nLen c) x ++ beBytes (nLen c) y) 0 0 i cyc

/-- RSA signing of an encoded message; none: the modulus is too short for the encoding (RFC 8017), which the spec gives no
status of its own. -/
def rsaSignEm (d : Dev) (b : Job) (em : Option Bytes) : Dev :=
  let k := jobKey0 d b
  let n := rsaLenOf k
  let cyc := rsaPriv n + 400 + jobHashCost b
  match em with
  | none => meRefuse d b stLength 1 (pkValidCycles {} 0x20 n)
  | some em =>
    let m := beNat em
    let z := rsaBlind d k.pub
    let s := rsaPrivOp (secretOf k) k.pub n m z.1
    if powMod s (rsaE k.pub) (rsaN k.pub) ≠ m then resultCheck z.2 b cyc else finishOut z.2 b (beBytes n s) 0 0 0 cyc

def pkSignRun (d : Dev) (b : Job) : Dev :=
  let set := opSet b.e.opcode
  if isWeier set then ecdsaSign d b
  else if isEdwards set then
    let big := set == 0x13
    let sec := secretOf (jobKey0 d b)
    let z := edBlind d big
    let sig := edSign big (pkPh b.e) (sec.take (if big then 57 else 32)) (ownAux b) b.inData z.1
    let cyc := ecSignCycles {} set + edExtra set (b.inData.length + (ownAux b).length) 2
    if (edDecode (edCurve big) (sig.take (if big then 57 else 32))).isNone then resultCheck z.2 b cyc else finishOut z.2 b sig 0 0 0 cyc
  else
    let r := draw d (pkLen8 b.e)
    rsaSignEm r.2 b (pssEncode (pkHash b.e) (jobDigest b) r.1 (Nat.log2 (rsaN (jobKey0 d b).pub)))
def execPkSign (j : Nat) (s : State) : Out3 := onDev s (service j (isOp 5 2) pkSignRun)
def signV15Run (d : Dev) (b : Job) : Dev :=
  rsaSignEm d b (v15Encode (phOid (pkHash b.e)) (jobDigest b) (rsaLenOf (jobKey0 d b)))
def execSignV15 (j : Nat) (s : State) : Out3 := onDev s (service j (isOp 5 3) signV15Run)

/-- RSA verification: the result of the public primitive is judged by `ok`, which takes the key too (06 R199). -/
def rsaVerify (d : Dev) (b : Job) (ok : Bytes → Nat → Bool) : Dev :=
  let n := if hasKey0 b then rsaLenOf (jobKey0 d b) else modkLen (pbits b.e 24 3)
  let (pk, sig) := jobPk d b (4 + n)
  match rsaKeyFault pk with
  | some f => meRefuse d b f.1 f.2 (pkValidCycles {} 0x20 n)
  | none =>
    let s := beNat (sig.take n)
    verdict d b (s < rsaN pk && ok pk (powMod s (rsaE pk) (rsaN pk))) stSigInvalid 0
      (rsaPub n (rsaE pk) + 400 + jobHashCost b)

def pkVerifyRun (d : Dev) (b : Job) : Dev :=
  let set := opSet b.e.opcode
  if isWeier set then
    let c := jobCurve d b
    let sl := sigLen c set 0
    let aux := ownAux b
    let pk := if hasKey0 b then (jobKey0 d b).pub else aux.take (aux.length - sl)
    let sig := aux.drop (aux.length - sl)
    match ecDecode c pk with
    | .error f => meRefuse d b (ptFault f).1 (ptFault f).2 (pkValidCycles c set 0)
    | .ok q =>
      verdict d b (ecdsaOk c q (ecHashInt c (jobDigest b)) (beNat (sig.take (nLen c))) (beNat (sig.drop (nLen c)))) stSigInvalid 0
        (ecVerifyCycles c set + jobHashCost b)
  else if isEdwards set then
    let big := set == 0x13
    let n := if big then 57 else 32
    let (pk, rest) := jobPk d b n
    if (edDecode (edCurve big) pk).isNone then meRefuse d b stPointInvalid 0x0504 (pkValidCycles {} set 0)
    else
      verdict d b (edVerify big (pkPh b.e) pk (rest.drop (2 * n)) b.inData (rest.take (2 * n))) stSigInvalid 0
        (ecVerifyCycles {} set + edExtra set (b.inData.length + pkLen8 b.e) 1)
  else rsaVerify d b fun pk m =>
    let emBits := Nat.log2 (rsaN pk)
    decide (m < 2 ^ (8 * cdiv emBits 8)) && pssOk (pkHash b.e) (jobDigest b) (beBytes (cdiv emBits 8) m) (pkLen8 b.e) emBits
def execPkVerify (j : Nat) (s : State) : Out3 := onDev s (service j (isOp 5 5) pkVerifyRun)
def verifyV15Run (d : Dev) (b : Job) : Dev :=
  rsaVerify d b fun pk m => v15Encode (phOid (pkHash b.e)) (jobDigest b) (pk.length - 4) == some (beBytes (pk.length - 4) m)
def execVerifyV15 (j : Nat) (s : State) : Out3 := onDev s (service j (isOp 5 6) verifyV15Run)

/-- PUB_EXPORT (06 R210). -/
def pkPubExportRun (d : Dev) (b : Job) : Dev := finishOut d b (jobKey0 d b).pub 0 0 0 200
def execPkPubExport (j : Nat) (s : State) : Out3 := onDev s (service j (isOp 5 8) pkPubExportRun)

/-! ## Key agreement (06 R193, R194, R201) -/

/-- The shared secret with a peer's key and whether its point lies on the curve, or its refusal: STATUS, DETAIL and whether it is known
only at the end; and the draws (06 R193, R194, R201-R203). -/
def dhSecret (d : Dev) (c : Curve) (set : Nat) (sec peer : Bytes) (checked : Bool) : Except (U16 × U16 × Bool) (Bytes × Bool) × Dev :=
  if isWeier set then
    match ecDecode c peer with
    | .error f => (.error ((ptFault f).1, (ptFault f).2, false), d)
    | .ok q =>
      let r := ecSecret d c (c.h * beNat sec) (some q)
      match r.1 with
      | none => (.error (stPointInvalid, 0x0502, true), r.2)
      | some (x, y) => (.ok (beBytes (pLen c) x, onCurve c x y), r.2)
  else if isXcurve set then
    let z := xSecret d (set == 0x11) sec peer
    (if allZero z.1 then .error (stPointInvalid, 0x0505, true) else .ok (z.1, true), z.2)
  else
    let p := ffPrime set
    let y := beNat peer
    if checked && (y < 2 || p - 2 < y) then (.error (stRange, 0x0505, false), d)
    else if checked && powMod y ((p - 1) / 2) p ≠ 1 then (.error (stRange, 0x0506, false), d)
    else let z := ffSecret d set (beNat sec) y; (.ok (beBytes (ffLen set) z.1, true), z.2)

/-- Whether an FFDH result is in (1, p − 1) (06 R203). -/
def ffOutOk (set : Nat) (z : Bytes) : Bool := !isFfdh set || (decide (1 < beNat z) && decide (beNat z < ffPrime set - 1))

/-- The two forms of DH (06 R186). -/
def dhRun (keep : Bool) (d : Dev) (b : Job) : Dev :=
  let set := opSet b.e.opcode
  let k := jobKey0 d b
  let c := jobCurve d b
  let byHandle := b.e.key1 != noHandle
  let cyc := if byHandle then dhHandleCycles c set else dhCycles c set
  let r := dhSecret d c set (secretOf k) (if byHandle then (jobKey1 d b).pub else b.inData) (!byHandle)
  match r.1 with
  | .error (st, det, late) => if late then refuse r.2 b st det cyc else meRefuse r.2 b st det (pkValidCycles c set 0)
  | .ok (z, ok) =>
    if !ok || !ffOutOk set z then resultCheck r.2 b cyc
    else if keep then keepSecret r.2 b z [] cyc else finishOut r.2 b z 0 0 0 cyc
def execDh (j : Nat) (s : State) : Out3 := onDev s (service j (isOp 5 9) (dhRun false))
def execDhKeep (j : Nat) (s : State) : Out3 := onDev s (service j (isOp 5 0x0A) (dhRun true))

/-! ## Loading keys and curves (06 R193, R197, R198) -/

/-- The public part of a loaded key, or its refusal. -/
def pkLoaded (c : Curve) (set : Nat) (pk : Bytes) : Except (U16 × U16) Bytes :=
  if isWeier set then
    match ecDecode c pk with
    | .error f => .error (ptFault f)
    | .ok q => .ok (ecBytes c (some q))
  else if isXcurve set then .ok pk
  else if isEdwards set then (if (edDecode (edCurve (set == 0x13)) pk).isNone then .error (stPointInvalid, 0x0504) else .ok pk)
  else if isRsa set then (match rsaKeyFault pk with | some f => .error f | none => .ok pk)
  else
    let p := ffPrime set
    let y := beNat pk
    if y < 2 || p - 2 < y then .error (stRange, 0x0505)
    else if powMod y ((p - 1) / 2) p ≠ 1 then .error (stRange, 0x0506) else .ok pk

/-- PK_LOAD: the DH figure less the point check; a set without DH has no stated figure (06 R210). -/
def pkLoadRun (d : Dev) (b : Job) : Dev :=
  let set := opSet b.e.opcode
  let c := jobCurve d b
  match pkLoaded c set b.inData with
  | .error f => meRefuse d b f.1 f.2 (pkValidCycles c set (b.inData.length - 4))
  | .ok pk =>
    makeKey d b { type := opType b.e.opcode, policy := pPolicy b.e, origin := 5, sec := [], pub := pk, param := newParam b } [] 0
      (if isEdwards set || isRsa set then unstated b.e else dhHandleCycles c set)
def execPkLoad (j : Nat) (s : State) : Out3 := onDev s (service j (isOp 5 0x0B) pkLoadRun)

/-- The bitmap of failed checks of a curve, `pOk` and `nOk` the outcomes of the primality rounds (06 R197). -/
def curveFaults (bs : Bytes) (c : Curve) (pOk nOk : Bool) : U16 :=
  let hn := c.h * c.n
  let dist := if hn < c.p + 1 then c.p + 1 - hn else hn - (c.p + 1)
  let bit (i : Nat) (bad : Bool) : U16 := if bad then BitVec.ofNat 16 (2 ^ i) else 0
  bit 0 (!allZero (slice bs 3 5) || c.pbits < 160 || 640 < c.pbits || Nat.log2 c.p + 1 ≠ c.pbits)
    ||| bit 1 (!pOk)
    ||| bit 2 (c.p ≤ c.a || c.p ≤ c.b || c.p ≤ c.gx || c.p ≤ c.gy)
    ||| bit 3 ((4 * c.a * c.a * c.a + 27 * c.b * c.b) % c.p = 0)
    ||| bit 4 (!onCurve c c.gx c.gy)
    ||| bit 5 (!nOk || c.n < 2 ^ 159 || 2 ^ c.pbits ≤ c.n)
    ||| bit 6 (c.h < 1 || 8 < c.h || 4 * c.p < dist * dist)
    ||| bit 7 (ecMul c c.n (ecG c) != none)
    ||| bit 8 (c.n = c.p)
    ||| bit 9 ((List.range 100).any fun j => powMod c.p (j + 1) c.n == 1 % c.n)

/-- CURVE_LOAD: a block that passes becomes a volatile parameter object. The spec gives no plen and no status order for a PBITS outside
160 to 640: DESIGN CHOICE, plen is then (AUX_LEN − 8) / 6 and the answer CURVE_INVALID; for any other PBITS an AUX_LEN of another plen
is LENGTH 3 (log 169; 06 R197, R198). -/
def curveLoadRun (d : Dev) (b : Job) : Dev :=
  let c := blockCurve b.auxData
  let n := (b.auxData.length - 8) / 6
  let cyc := listAt [260000, 610000, 1350000, 2300000] (sizeClass c)
  if 160 ≤ c.pbits && c.pbits ≤ 640 && n ≠ cdiv c.pbits 8 then refuseUnplaced d b stLength 3
  else
    let p := isPrime c.p 50 d
    let q := isPrime c.n 50 p.2
    let bad := curveFaults b.auxData c p.1 q.1
    if bad ≠ 0 then meRefuse q.2 b stCurveInvalid bad cyc
    else if b.outBad.isSome then finish q.2 { b with cycles := cyc } stOk 0
    else
      let r := createObj q.2 b.owner { type := opType b.e.opcode, origin := 5, isParam := true, pub := b.auxData,
                                       gran := cdiv (6 * n + 64) 512 + 8 }
      finishOut r.2 b [] r.1 effKeyCreated 0 cyc
def execCurveLoad (j : Nat) (s : State) : Out3 := onDev s (service j (isOp 5 0x0C) curveLoadRun)

/-! ## RSA encryption and the bare primitives (06 R199) -/

/-- ENCRYPT: the seed is drawn, the label is what follows the key in AUX. -/
def encryptRun (d : Dev) (b : Job) : Dev :=
  let n := if hasKey0 b then rsaLenOf (jobKey0 d b) else modkLen (pbits b.e 24 3)
  let (pk, label) := jobPk d b (4 + n)
  match rsaKeyFault pk with
  | some f => meRefuse d b f.1 f.2 (pkValidCycles {} 0x20 n)
  | none =>
    let hl := hashLenOf (pkHash b.e)
    let r := draw d hl
    match oaepEncode (pkHash b.e) hl label b.inData r.1 n with
    | none => meRefuse d b stLength 1 (pkValidCycles {} 0x20 n)
    | some em =>
      finishOut r.2 b (beBytes n (powMod (beNat em) (rsaE pk) (rsaN pk))) 0 0 0
        (rsaPub n (rsaE pk) + 400 + hashCost (pkHash b.e) label.length)
def execEncrypt (j : Nat) (s : State) : Out3 := onDev s (service j (isOp 5 0x0D) encryptRun)

/-- DECRYPT: every decoding failure is DECRYPT_FAILED with the same CYCLES. -/
def decryptRun (d : Dev) (b : Job) : Dev :=
  let k := jobKey0 d b
  let n := rsaLenOf k
  let c := beNat b.inData
  let cyc := rsaPriv n + 400 + hashCost (pkHash b.e) (ownAux b).length
  if rsaN k.pub ≤ c then meRefuse d b stRange 0x0503 (pkValidCycles {} 0x20 n)
  else
    let z := rsaBlind d k.pub
    let m := rsaPrivOp (secretOf k) k.pub n c z.1
    if powMod m (rsaE k.pub) (rsaN k.pub) ≠ c then resultCheck z.2 b cyc
    else
      match oaepDecode (pkHash b.e) (hashLenOf (pkHash b.e)) (ownAux b) (beBytes n m) with
      | none => finish z.2 { b with cycles := cyc, outLen := 0 } stDecryptFailed 0
      | some msg => finishOut z.2 b msg 0 0 0 cyc
def execDecrypt (j : Nat) (s : State) : Out3 := onDev s (service j (isOp 5 0x0E) decryptRun)

/-- PRIV_RAW. -/
def privRawRun (d : Dev) (b : Job) : Dev :=
  let k := jobKey0 d b
  let n := rsaLenOf k
  let x := beNat b.inData
  if rsaN k.pub ≤ x then meRefuse d b stRange 0x0503 (pkValidCycles {} 0x20 n)
  else if x = 0 || x = 1 || x = rsaN k.pub - 1 then meRefuse d b stRange 0x0504 (pkValidCycles {} 0x20 n)
  else
    let z := rsaBlind d k.pub
    let y := rsaPrivOp (secretOf k) k.pub n x z.1
    if powMod y (rsaE k.pub) (rsaN k.pub) ≠ x then resultCheck z.2 b (rsaPriv n) else finishOut z.2 b (beBytes n y) 0 0 0 (rsaPriv n)
def execPrivRaw (j : Nat) (s : State) : Out3 := onDev s (service j (isOp 5 0x0F) privRawRun)

/-- PUB_RAW. -/
def pubRawRun (d : Dev) (b : Job) : Dev :=
  let n := if hasKey0 b then rsaLenOf (jobKey0 d b) else modkLen (pbits b.e 24 3)
  let pk := (jobPk d b (4 + n)).1
  let x := beNat b.inData
  if rsaN pk ≤ x then meRefuse d b stRange 0x0503 (pkValidCycles {} 0x20 n)
  else
    match rsaKeyFault pk with
    | some f => meRefuse d b f.1 f.2 (pkValidCycles {} 0x20 n)
    | none => finishOut d b (beBytes n (powMod x (rsaE pk) (rsaN pk))) 0 0 0 (rsaPub n (rsaE pk))
def execPubRaw (j : Nat) (s : State) : Out3 := onDev s (service j (isOp 5 0x10) pubRawRun)

end Sys2Proof.Machine
end

