-- ==== Sys2Proof/Machine/Merkle.lean ====
section
/-!
DEFINITION. One-time signatures under a hash tree: what SLH-DSA, LMS and XMSS share (04 R134, R142, R143). A family of trees gives
four functions; signing, verification and the node rows are said once over them.
-/
namespace Sys2Proof.Machine

/-- What a family computes in one tree: the secret start of chain `i` of leaf `q`, step `j` of that chain, the leaf's value from the
chain ends, and a node from its children, which stand at height `z`; `k` numbers the node in its row. -/
structure TreeFns where
  start : Nat → Nat → Bytes
  step  : Nat → Nat → Nat → Bytes → Bytes
  leaf  : Nat → List Bytes → Bytes
  node  : Nat → Nat → Bytes → Bytes → Bytes

/-- The first `count` digits of `w` bits of a string, most significant first. -/
def topDigits (w count : Nat) (x : Bytes) : List Nat :=
  let v := beNat x
  (List.range count).map fun i => v / 2 ^ (8 * x.length - w * (i + 1)) % 2 ^ w

/-- Bits of a digit at a level. -/
def digitBits (l : Lev) : Nat := Nat.log2 (l.top + 1)

/-- The signed digits of an n-byte string: its own, then those of the checksum, which stands at the top of 16 bits. -/
def signedDigits (l : Lev) (x : Bytes) : List Nat :=
  let w := digitBits l
  let own := topDigits w (8 * l.n / w) x
  let v := l.p - own.length
  own ++ topDigits w v (beBytes 2 ((own.map fun d => l.top - d).sum * 2 ^ (16 - w * v)))

/-- Steps `a` to `a + n - 1` of a chain. -/
def chainRun (f : Nat → Bytes → Bytes) (a n : Nat) (x : Bytes) : Bytes := (List.range n).foldl (fun y j => f (a + j) y) x

/-- The chain values that sign the digits. -/
def signChains (f : TreeFns) (q : Nat) (ds : List Nat) : List Bytes := ds.mapIdx fun i d => chainRun (f.step q i) 0 d (f.start q i)
/-- The chain ends that signed values lead to. -/
def endChains (f : TreeFns) (top q : Nat) (ds : List Nat) (ys : List Bytes) : List Bytes :=
  (List.zip ds ys).mapIdx fun i x => chainRun (f.step q i) x.1 (top - x.1) x.2

/-- Leaf `q` of a tree, from its secret starts. -/
def leafOf (f : TreeFns) (l : Lev) (q : Nat) : Bytes := f.leaf q (signChains f q (List.replicate l.p l.top))

/-- Join neighbours of a row; a last one without a neighbour goes up as it is. -/
def joinRow (f : Nat → Bytes → Bytes → Bytes) : Nat → List Bytes → List Bytes
  | k, a :: b :: rest => f k a b :: joinRow f (k + 1) rest
  | _, row => row

/-- The rows from one at height `z` up, `n` joins further. -/
def rowsFrom (f : Nat → Nat → Bytes → Bytes → Bytes) : Nat → Nat → List Bytes → List (List Bytes)
  | 0, _, row => [row]
  | n + 1, z, row => row :: rowsFrom f n (z + 1) (joinRow (f z) 0 row)

/-- The rows of a tree, leaves first. -/
def treeRows (f : TreeFns) (l : Lev) : List (List Bytes) := rowsFrom f.node l.h 0 ((List.range (2 ^ l.h)).map (leafOf f l))
/-- The root of some rows. -/
def rowsRoot (rows : List (List Bytes)) : Bytes := (rows.getLast?.getD []).head?.getD []
/-- The siblings on the way up from place `q` of the lowest row, `n` of them. -/
def rowsPath (rows : List (List Bytes)) (n q : Nat) : List Bytes :=
  (List.range n).map fun z => (rows.getD z []).getD (q / 2 ^ z ^^^ 1) []

/-- Hash up from place `q` of the row at height `z` along its siblings. -/
def climb (f : Nat → Nat → Bytes → Bytes → Bytes) : Nat → Nat → Bytes → List Bytes → Bytes
  | _, _, x, [] => x
  | z, q, x, s :: ss => climb f (z + 1) (q / 2) (if q % 2 = 0 then f z (q / 2) x s else f z (q / 2) s x) ss

/-- The root that chains and a path lead to. -/
def rootFrom (f : TreeFns) (l : Lev) (q : Nat) (ds : List Nat) (ys path : List Bytes) : Bytes :=
  climb f.node 0 q (f.leaf q (endChains f l.top q ds ys)) path

/-- `count` strings of n bytes at an offset. -/
def partsAt (n count off : Nat) (x : Bytes) : List Bytes := (List.range count).map fun i => slice x (off + n * i) n

end Sys2Proof.Machine
end

