-- ==== Sys2Proof/Machine/LmsXmss.lean ====
section
/-!
DEFINITION. The trees of stateful keys: LMS and HSS (RFC 8554), XMSS and XMSS^MT (RFC 8391), both with the parameters of SP 800-208,
which 04 R134 and R140-R147 name (log 22). What the standards leave to the device, the seeds of the lower HSS trees and the
randomisers that sign them, is derived from the key's seed and position (04 R145) in a way the spec does not give: free values.
-/
namespace Sys2Proof.Machine

/-- A big-endian 32-bit field. -/
def be32 (n : Nat) : Bytes := beBytes 4 n

/-- The hash of a level, cut to its node size. -/
def levHash (l : Lev) (m : Bytes) : Bytes := if l.shake then shake256 m l.n else (sha256 m).take l.n

/-! ## LMS -/

/-- One LMS tree with identifier `id`. -/
def lmsTree (l : Lev) (id seed : Bytes) : TreeFns :=
  { start := fun q i => levHash l (id ++ be32 q ++ beBytes 2 i ++ [0xFF] ++ seed)
    step := fun q i j x => levHash l (id ++ be32 q ++ beBytes 2 i ++ [BitVec.ofNat 8 j] ++ x)
    leaf := fun q ys => levHash l (id ++ be32 (2 ^ l.h + q) ++ [0x82, 0x82]
      ++ levHash l (id ++ be32 q ++ [0x80, 0x80] ++ ys.flatten))
    node := fun z k a b => levHash l (id ++ be32 (2 ^ (l.h - (z + 1)) + k) ++ [0x83, 0x83] ++ a ++ b) }

/-- The message hash of leaf `q` under randomiser `c`. -/
def lmsMsg (l : Lev) (id : Bytes) (q : Nat) (c m : Bytes) : Bytes := levHash l (id ++ be32 q ++ [0x81, 0x81] ++ c ++ m)

/-- An LMS signature: its leaf, the one-time signature, the path. -/
def lmsSigOf (l : Lev) (ty : Nat × Nat) (f : TreeFns) (id : Bytes) (q : Nat) (c m : Bytes) (path : List Bytes) : Bytes :=
  be32 q ++ be32 ty.2 ++ c ++ (signChains f q (signedDigits l (lmsMsg l id q c m))).flatten ++ be32 ty.1 ++ path.flatten

/-- An LMS public key. -/
def lmsPkOf (ty : Nat × Nat) (id root : Bytes) : Bytes := be32 ty.1 ++ be32 ty.2 ++ id ++ root

/-- The digits that an LMS signature signs for a message. -/
def lmsDigits (l : Lev) (pk m sig : Bytes) : List Nat :=
  signedDigits l (lmsMsg l (slice pk 8 16) (beNat (slice sig 0 4)) (slice sig 8 l.n) m)

/-- Whether an LMS signature verifies under an LMS public key: its type codes are the key's, its leaf is one of the tree's, and it
leads to the key's root. -/
def lmsOk (l : Lev) (pk m sig : Bytes) : Bool :=
  let q := beNat (slice sig 0 4)
  let at_ := 8 + (l.p + 1) * l.n
  slice sig 4 4 == slice pk 4 4 && slice sig at_ 4 == slice pk 0 4 && decide (q < 2 ^ l.h) &&
    rootFrom (lmsTree l (slice pk 8 16) []) l q (lmsDigits l pk m sig) (partsAt l.n l.p (8 + l.n) sig) (partsAt l.n l.h (at_ + 4) sig)
      == slice pk 24 l.n

/-! ## XMSS -/

/-- A number of the first field of a hash's input: n bytes for n = 32, else 4 (SP 800-208). -/
def xmPad (l : Lev) (v : Nat) : Bytes := beBytes (if l.n = 32 then 32 else 4) v
/-- The address of a hash: layer, tree, kind and four words. -/
def xmPlace (layer tree kind a b c m : Nat) : Bytes := be32 layer ++ beBytes 8 tree ++ be32 kind ++ be32 a ++ be32 b ++ be32 c ++ be32 m
/-- The keyed hash that gives keys and masks. -/
def xmPrf (l : Lev) (key m : Bytes) : Bytes := levHash l (xmPad l 3 ++ key ++ m)
/-- The masked hash of two nodes at an address that lacks its last word. -/
def xmJoin (l : Lev) (ps : Bytes) (place : Nat → Bytes) (a b : Bytes) : Bytes :=
  let mask := fun i => xmPrf l ps (place i)
  levHash l (xmPad l 1 ++ mask 0 ++ xorBytes a (mask 1) ++ xorBytes b (mask 2))

/-- Join a row of chain ends to one value; `fuel` bounds the rows. -/
def xmLtree (l : Lev) (ps : Bytes) (place : Nat → Nat → Nat → Bytes) : Nat → Nat → List Bytes → Bytes
  | 0, _, row => row.head?.getD []
  | fuel + 1, z, row =>
    if row.length ≤ 1 then row.head?.getD []
    else xmLtree l ps place fuel (z + 1) (joinRow (fun k a b => xmJoin l ps (place z k) a b) 0 row)

/-- One XMSS tree: tree number `tree` of layer `layer`, the bottom layer being 0. -/
def xmTree (l : Lev) (sk ps : Bytes) (layer tree : Nat) : TreeFns :=
  let at_ := xmPlace layer tree
  { start := fun q i => levHash l (xmPad l 4 ++ sk ++ ps ++ at_ 0 q i 0 0)
    step := fun q i j x =>
      levHash l (xmPad l 0 ++ xmPrf l ps (at_ 0 q i j 0) ++ xorBytes x (xmPrf l ps (at_ 0 q i j 1)))
    leaf := fun q ys => xmLtree l ps (fun z k m => at_ 1 q z k m) 8 0 ys
    node := fun z k a b => xmJoin l ps (fun m => at_ 2 0 z k m) a b }

/-- The message hash of index `idx` under randomiser `r`. -/
def xmMsg (l : Lev) (r root : Bytes) (idx : Nat) (m : Bytes) : Bytes := levHash l (xmPad l 2 ++ r ++ root ++ beBytes l.n idx ++ m)

/-- One layer's signature of an n-byte string: chains, then the path. -/
def xmLayerSig (l : Lev) (f : TreeFns) (q : Nat) (x : Bytes) (path : List Bytes) : Bytes :=
  (signChains f q (signedDigits l x) ++ path).flatten
/-- The root that one layer's signature leads to. -/
def xmLayerRoot (l : Lev) (ps : Bytes) (layer tree q : Nat) (x sig : Bytes) : Bytes :=
  rootFrom (xmTree l [] ps layer tree) l q (signedDigits l x) (partsAt l.n l.p 0 sig) (partsAt l.n l.h (l.p * l.n) sig)

/-- The strings that the layers of a signature sign, the bottom layer first, and at the end the root they lead to. `ls` holds the
levels still to climb, the lowest first. -/
def xmClimb (ps : Bytes) : List Lev → Nat → Nat → Bytes → Bytes → List Bytes
  | [], _, _, x, _ => [x]
  | l :: up, layer, idx, x, sig =>
    x :: xmClimb ps up (layer + 1) (idx / 2 ^ l.h) (xmLayerRoot l ps layer (idx / 2 ^ l.h) (idx % 2 ^ l.h) x sig)
      (sig.drop ((l.p + l.h) * l.n))

/-- What an XMSS or XMSS^MT signature signs at each layer, the bottom one first, and the root it leads to; `w` is the length of its
index field. -/
def xmWalk (ls : List Lev) (w : Nat) (pk m sig : Bytes) : List Bytes :=
  let n := (ls.head?.getD {}).n
  let idx := beNat (slice sig 0 w)
  let x := xmMsg (ls.getLast?.getD {}) (slice sig w n) (slice pk 4 n) idx m
  xmClimb (slice pk (4 + n) n) ls.reverse 0 idx x (sig.drop (w + n))

/-- Whether an XMSS or XMSS^MT signature verifies: its index is one of the key's and it leads to the key's root. -/
def xmOk (ls : List Lev) (w : Nat) (pk m sig : Bytes) : Bool :=
  let n := (ls.head?.getD {}).n
  decide (beNat (slice sig 0 w) < 2 ^ totalH ls) && (xmWalk ls w pk m sig).getLast? == some (slice pk 4 n)

/-! ## The trees of a key -/

/-- SEED and I of tree `t` of level `lev` of an LMS or HSS key; those of a lower tree come from the key's seed and its position in a way
the spec does not give: a free value (04 R145; log 4). -/
def lmsSeeds (n : Nat) (seed : Bytes) (lev t : Nat) : Bytes × Bytes :=
  let x := if lev = 0 then fit (n + 16) seed else fit (n + 16) (Config.prim .hssSeed [seed, leBytes 1 lev, leBytes 4 t])
  (x.take n, x.drop n)
/-- The randomiser that signs the public key of tree `t` of level `lev`: derived likewise (04 R145; log 4). -/
def hssRandom (n : Nat) (seed : Bytes) (lev t : Nat) : Bytes := fit n (Config.prim .hssRandom [seed, leBytes 1 lev, leBytes 4 t])

/-- The functions of tree `t` of level `lev` of a key with these secret seeds. -/
def ssTree (k : SsKey) (seed : Bytes) (lev t : Nat) : TreeFns :=
  let ls := ssLevels k
  let l := ls.getD lev {}
  if isLms k.set then
    let s := lmsSeeds l.n seed lev t
    lmsTree l s.2 s.1
  else xmTree l (slice seed 0 l.n) (slice seed (2 * l.n) l.n) (ls.length - 1 - lev) t

/-- The type codes of a level. -/
def levTypes (k : SsKey) (lev : Nat) : Nat × Nat := k.types.getD lev (0, 0)

end Sys2Proof.Machine
end

