-- ==== Sys2Proof/Machine/SlhDsa.lean ====
section
/-!
DEFINITION. SLH-DSA (FIPS 205), which 04 R134-R138 name: key generation, signing and verification of an encoded message (log 22).
-/
namespace Sys2Proof.Machine

/-- Parameters of a set: n, the height of one tree, the number of layers, height and count of the few-time trees. -/
structure SlhPar where
  n : Nat
  h : Nat
  d : Nat
  a : Nat
  k : Nat
  deriving DecidableEq, Repr

/-- The parameters by set code: small and fast forms of three categories. -/
def slhPar (set : Nat) : SlhPar :=
  if set ≤ 2 then ⟨16, 9, 7, 12, 14⟩ else if set ≤ 4 then ⟨16, 3, 22, 6, 33⟩
  else if set ≤ 6 then ⟨24, 9, 7, 14, 17⟩ else if set ≤ 8 then ⟨24, 3, 22, 8, 33⟩
  else if set ≤ 10 then ⟨32, 8, 8, 14, 22⟩ else ⟨32, 4, 17, 9, 35⟩

/-- The even set codes are the SHAKE sets (04 R134). -/
def slhShake (set : Nat) : Bool := set % 2 == 0

/-- A tree of one layer as a level. -/
def slhLev (p : SlhPar) : Lev := { n := p.n, h := p.h, p := 2 * p.n + 3, top := 15 }

/-- Where a hash stands: layer, tree, kind and three words. SHAKE sets take all 32 bytes, SHA2 sets the short form of 22. -/
def slhPlace (set layer tree kind x y z : Nat) : Bytes :=
  let tail := beBytes 4 x ++ beBytes 4 y ++ beBytes 4 z
  if slhShake set then beBytes 4 layer ++ beBytes 12 tree ++ beBytes 4 kind ++ tail
  else beBytes 1 layer ++ beBytes 8 tree ++ beBytes 1 kind ++ tail

/-- The hash of one string or one secret at a place. -/
def slhSmall (set : Nat) (ps at_ m : Bytes) : Bytes :=
  let n := (slhPar set).n
  if slhShake set then shake256 (ps ++ at_ ++ m) n else (sha256 (fit 64 ps ++ at_ ++ m)).take n
/-- The hash of several strings at a place: SHA-512 in the SHA2 sets of categories 3 and 5. -/
def slhWide (set : Nat) (ps at_ m : Bytes) : Bytes :=
  let n := (slhPar set).n
  if slhShake set then shake256 (ps ++ at_ ++ m) n
  else if n = 16 then (sha256 (fit 64 ps ++ at_ ++ m)).take n else (sha512 (fit 128 ps ++ at_ ++ m)).take n

/-- The functions of one tree of the hypertree. -/
def slhTree (set : Nat) (ps sk : Bytes) (layer tree : Nat) : TreeFns :=
  let at_ := slhPlace set layer tree
  { start := fun q i => slhSmall set ps (at_ 5 q i 0) sk
    step := fun q i j => slhSmall set ps (at_ 0 q i j)
    leaf := fun q ys => slhWide set ps (at_ 1 q 0 0) ys.flatten
    node := fun z k a b => slhWide set ps (at_ 2 0 (z + 1) k) (a ++ b) }

/-- MGF1 over a hash (RFC 8017). -/
def slhMask (h : Bytes → Bytes) (hlen : Nat) (seed : Bytes) (n : Nat) : Bytes :=
  fit n (((List.range (cdiv n hlen)).map fun i => h (seed ++ beBytes 4 i)).flatten)

/-- Length of the message digest: few-time digits, tree, leaf. -/
def slhDigestLen (p : SlhPar) : Nat := cdiv (p.k * p.a) 8 + cdiv (p.h * (p.d - 1)) 8 + cdiv p.h 8

/-- The randomised digest of a message. -/
def slhDigest (set : Nat) (r ps root m : Bytes) : Bytes :=
  let p := slhPar set
  let len := slhDigestLen p
  if slhShake set then shake256 (r ++ ps ++ root ++ m) len
  else if p.n = 16 then slhMask sha256 32 (r ++ ps ++ sha256 (r ++ ps ++ root ++ m)) len
  else slhMask sha512 64 (r ++ ps ++ sha512 (r ++ ps ++ root ++ m)) len

/-- The randomiser of a signature. -/
def slhRandom (set : Nat) (prf opt m : Bytes) : Bytes :=
  let n := (slhPar set).n
  if slhShake set then shake256 (prf ++ opt ++ m) n
  else if n = 16 then (hmac sha256 64 prf (opt ++ m)).take n else (hmac sha512 128 prf (opt ++ m)).take n

/-- What a digest selects: the few-time leaves, the tree of layer 0 and its leaf. -/
def slhSelect (p : SlhPar) (dg : Bytes) : List Nat × Nat × Nat :=
  let a := cdiv (p.k * p.a) 8
  let b := cdiv (p.h * (p.d - 1)) 8
  (topDigits p.a p.k (slice dg 0 a), beNat (slice dg a b) % 2 ^ (p.h * (p.d - 1)), beNat (slice dg (a + b) (cdiv p.h 8)) % 2 ^ p.h)

/-! ## Few-time signatures -/

/-- Node of few-time tree `t`; its nodes are numbered through all the trees of a leaf. -/
def fewNode (set : Nat) (ps : Bytes) (tree leaf t : Nat) (z k : Nat) (x y : Bytes) : Bytes :=
  slhWide set ps (slhPlace set 0 tree 3 leaf (z + 1) (t * 2 ^ ((slhPar set).a - (z + 1)) + k)) (x ++ y)
/-- A few-time leaf from its secret. -/
def fewLeaf (set : Nat) (ps : Bytes) (tree leaf t k : Nat) (x : Bytes) : Bytes :=
  slhSmall set ps (slhPlace set 0 tree 3 leaf 0 (t * 2 ^ (slhPar set).a + k)) x
/-- A few-time secret. -/
def fewSecret (set : Nat) (ps sk : Bytes) (tree leaf t k : Nat) : Bytes :=
  slhSmall set ps (slhPlace set 0 tree 6 leaf 0 (t * 2 ^ (slhPar set).a + k)) sk
/-- The few-time signature: each tree's selected secret and its path. -/
def fewSign (set : Nat) (ps sk : Bytes) (tree leaf : Nat) (ks : List Nat) : Bytes :=
  let p := slhPar set
  (ks.mapIdx fun t k =>
    let rows := rowsFrom (fewNode set ps tree leaf t) p.a 0
      ((List.range (2 ^ p.a)).map fun j => fewLeaf set ps tree leaf t j (fewSecret set ps sk tree leaf t j))
    fewSecret set ps sk tree leaf t k ++ (rowsPath rows p.a k).flatten).flatten
/-- The few-time public key that a signature leads to. -/
def fewPk (set : Nat) (ps : Bytes) (tree leaf : Nat) (ks : List Nat) (sig : Bytes) : Bytes :=
  let p := slhPar set
  let roots := ks.mapIdx fun t k =>
    let off := t * (p.a + 1) * p.n
    climb (fewNode set ps tree leaf t) 0 k (fewLeaf set ps tree leaf t k (slice sig off p.n)) (partsAt p.n p.a (off + p.n) sig)
  slhWide set ps (slhPlace set 0 tree 4 leaf 0 0) roots.flatten

/-! ## The hypertree -/

/-- Sign a root at layer `layer` and the signatures above it; `fuel` counts the layers left. -/
def hyperSign (set : Nat) (ps sk : Bytes) : Nat → Nat → Nat → Nat → Bytes → Bytes
  | 0, _, _, _, _ => []
  | fuel + 1, layer, tree, leaf, x =>
    let l := slhLev (slhPar set)
    let f := slhTree set ps sk layer tree
    let rows := treeRows f l
    (signChains f leaf (signedDigits l x) ++ rowsPath rows l.h leaf).flatten
      ++ hyperSign set ps sk fuel (layer + 1) (tree / 2 ^ l.h) (tree % 2 ^ l.h) (rowsRoot rows)

/-- The top root that the signatures of `fuel` layers lead to. -/
def hyperRoot (set : Nat) (ps : Bytes) : Nat → Nat → Nat → Nat → Bytes → Bytes → Bytes
  | 0, _, _, _, x, _ => x
  | fuel + 1, layer, tree, leaf, x, sig =>
    let l := slhLev (slhPar set)
    let root := rootFrom (slhTree set ps [] layer tree) l leaf (signedDigits l x) (partsAt l.n l.p 0 sig)
      (partsAt l.n l.h (l.p * l.n) sig)
    hyperRoot set ps fuel (layer + 1) (tree / 2 ^ l.h) (tree % 2 ^ l.h) root (sig.drop ((l.p + l.h) * l.n))

/-! ## The scheme -/

/-- PK.root of SK.seed and PK.seed: the root of the only tree of the top layer. -/
def slhRoot (set : Nat) (sk ps : Bytes) : Bytes :=
  let p := slhPar set
  rowsRoot (treeRows (slhTree set ps sk (p.d - 1) 0) (slhLev p))

/-- The signature of M′ with the private key's octets and opt_rand. -/
def slhSigOf (set : Nat) (key m opt : Bytes) : Bytes :=
  let p := slhPar set
  let sk := slice key 0 p.n
  let ps := slice key (2 * p.n) p.n
  let r := slhRandom set (slice key p.n p.n) opt m
  let (ks, tree, leaf) := slhSelect p (slhDigest set r ps (slice key (3 * p.n) p.n) m)
  let few := fewSign set ps sk tree leaf ks
  r ++ few ++ hyperSign set ps sk p.d 0 tree leaf (fewPk set ps tree leaf ks few)

/-- Whether a signature of M′ verifies: the candidate root is that of the public key. -/
def slhSigOk (set : Nat) (pk m sig : Bytes) : Bool :=
  let p := slhPar set
  let ps := slice pk 0 p.n
  let root := slice pk p.n p.n
  let (ks, tree, leaf) := slhSelect p (slhDigest set (slice sig 0 p.n) ps root m)
  let few := slice sig p.n (p.k * (p.a + 1) * p.n)
  hyperRoot set ps p.d 0 tree leaf (fewPk set ps tree leaf ks few) (sig.drop ((1 + p.k * (p.a + 1)) * p.n)) == root

end Sys2Proof.Machine
end

