-- ==== Sys2Proof/Machine/Hbs.lean ====
section
/-!
DEFINITION. Hash-based signatures of class 0x3 and the state store of class 0xC (04 R134-R154).
-/
namespace Sys2Proof.Machine

/-! ## SLH-DSA (04 R136-R139) -/

/-- Hash cycles of KEYGEN, SIGN and VERIFY (04 R139). -/
def slhCycles (set : Nat) : Nat × Nat × Nat :=
  match set with
  | 1 => (5040000, 38300000, 52700) | 2 => (614000, 4700000, 6360)
  | 3 => (78700, 1950000, 153700) | 4 => (9600, 236000, 18900)
  | 5 => (7320000, 66800000, 74900) | 6 => (898000, 8060000, 9210)
  | 7 => (114000, 3150000, 219600) | 8 => (14000, 382000, 27000)
  | 9 => (4830000, 58800000, 111000) | 10 => (592000, 7040000, 13650)
  | 11 => (302000, 6300000, 225700) | _ => (37000, 762000, 27750)

/-- What a long M′ adds (04 R139; log 24). -/
def slhExtra (set len : Nat) : Nat :=
  let more := len - 1024
  if set % 2 = 0 then more / 136 * 48 else if set ≤ 4 then more / 64 * 130 else more / 128 * 162

/-- SLH-DSA KEYGEN: SK.seed, SK.prf, PK.seed and the root (04 R135-R137). -/
def slhKeygen (d : Dev) (b : Job) : Dev :=
  let set := opSet b.e.opcode
  let n := slhN set
  let r := if pbit b.e 1 then (fit (3 * n) (ownAux b), d) else draw d (3 * n)
  let root := slhRoot set (slice r.1 0 n) (slice r.1 (2 * n) n)
  let pk := slice r.1 (2 * n) n ++ root
  makeKey r.2 b { type := opType b.e.opcode, policy := pPolicy b.e, origin := 0, sec := r.1 ++ root, pub := pk } pk 0
    (slhCycles set).1

/-- SLH-DSA signing of M′ (04 R136, R138). -/
def slhSign (d : Dev) (b : Job) (m : Bytes) : Dev :=
  let set := opSet b.e.opcode
  let n := slhN set
  let k := jobKey0 d b
  let r := if pbit b.e 0 then (slice k.pub 0 n, d) else draw d n
  finishOut r.2 b (slhSigOf set (secretOf k) m r.1) 0 0 0
    ((slhCycles set).2.1 + slhExtra set m.length)

/-- SLH-DSA verification of M′ (04 R138). -/
def slhVerify (d : Dev) (b : Job) (m : Bytes) : Dev :=
  let set := opSet b.e.opcode
  let n := slhN set
  let aux := ownAux b
  let pk := if hasKey0 b then (jobKey0 d b).pub else aux.take (2 * n)
  let sig := slice (if hasKey0 b then aux else aux.drop (2 * n)) 0 (slhSig set)
  verdict d b (slhSigOk set pk m sig) stSigInvalid 0 ((slhCycles set).2.2 + slhExtra set m.length)

def hbsSignPhRun (d : Dev) (b : Job) : Dev := slhSign d b (mHash (pbits b.e 8 8) (ownAux b) b.inData)
def execHbsSignPh (j : Nat) (s : State) : Out3 := onDev s (service j (isOp 3 3) hbsSignPhRun)
def hbsVerifyPhRun (d : Dev) (b : Job) : Dev := slhVerify d b (mHash (pbits b.e 8 8) (verifyCtx b) b.inData)
def execHbsVerifyPh (j : Nat) (s : State) : Out3 := onDev s (service j (isOp 3 6) hbsVerifyPhRun)
/-- PUB_EXPORT of class 0x3. -/
def hbsPubExportRun (d : Dev) (b : Job) : Dev := finishOut d b (jobKey0 d b).pub 0 0 0 (unstated b.e)
def execHbsPubExport (j : Nat) (s : State) : Out3 := onDev s (service j (isOp 3 8) hbsPubExportRun)

/-! ## Stateful keys: parameters and trees -/

/-- The KEYGEN parameter block (04 R140, R141); none is refused with PARAM_INVALID. -/
def parseBlock (set : Nat) (a : Bytes) : Option SsKey :=
  let levels := (byteAt a 0).toNat
  let b := (byteAt a 1).toNat
  let oid := (u32At a 4).toNat
  let pairs := (List.range 4).map fun i => ((u32At a (8 + 8 * i)).toNat, (u32At a (12 + 8 * i)).toNat)
  let types := if isLms set then pairs.take levels else []
  let restZero := (pairs.drop types.length).all fun x => x.1 == 0 && x.2 == 0
  let k : SsKey := { set := set, levels := levels, blockLog2 := b, oid := oid, types := types }
  let ls := ssLevels k
  let shape :=
    if set = 0x10 then levels == 1 && oid == 0
    else if set = 0x11 then decide (1 ≤ levels) && decide (levels ≤ 4) && oid == 0
    else if set = 0x18 then levels == 1 else decide (1 ≤ levels)
  if shape && restZero && u16At a 2 == 0 && ls.length == levels && decide (totalH ls ≤ 40)
      && decide (5 ≤ b) && decide (b ≤ min 10 (bottomLev ls).h) && decide (pathCacheLen ls ≤ 234881024)
  then some { k with limit := 2 ^ totalH ls } else none

/-- Levels from `l` down together. -/
def heightFrom (ls : List Lev) (l : Nat) : Nat := totalH (ls.drop l)
/-- The tree that holds an index at a level. -/
def treeAt (ls : List Lev) (l idx : Nat) : Nat := idx / 2 ^ heightFrom ls l

/-- The rows of tree `t` of level `l`, leaves first. -/
def ssRows (k : SsKey) (seed : Bytes) (l t : Nat) : List (List Bytes) := treeRows (ssTree k seed l t) ((ssLevels k).getD l {})
/-- The root of tree `t` of level `l`. -/
def ssRoot (k : SsKey) (seed : Bytes) (l t : Nat) : Bytes := rowsRoot (ssRows k seed l t)

/-- The node area of a tree: 2^(h+1) nodes from the root on, none at place 0 (04 R142). -/
def treeNodes (k : SsKey) (seed : Bytes) (l t : Nat) : Bytes :=
  zeros ((ssLevels k).getD l {}).n ++ (ssRows k seed l t).reverse.flatten.flatten

/-- What the upper level signs of tree `t` of level `l`: its LMS public key, or its root (04 R142, R145). -/
def lowerPk (k : SsKey) (seed : Bytes) (l t : Nat) : Bytes :=
  let root := ssRoot k seed l t
  if isLms k.set then lmsPkOf (levTypes k l) (lmsSeeds ((ssLevels k).getD l {}).n seed l t).2 root else root

/-- The digits of the upper level's signature over tree `t` of level `l`. -/
def headDigits (k : SsKey) (seed : Bytes) (l t : Nat) : List Nat :=
  let up := (ssLevels k).getD (l - 1) {}
  let m := lowerPk k seed l t
  if isLms k.set then
    signedDigits up (lmsMsg up (lmsSeeds up.n seed (l - 1) (t / 2 ^ up.h)).2 (t % 2 ^ up.h) (hssRandom up.n seed l t) m)
  else signedDigits up m

/-- The upper level's signature over the public key of tree `t` of level `l` (04 R142, R145). -/
def headSig (k : SsKey) (seed : Bytes) (l t : Nat) : Bytes :=
  if l = 0 then []
  else
    let up := (ssLevels k).getD (l - 1) {}
    let tu := t / 2 ^ up.h
    let q := t % 2 ^ up.h
    let m := lowerPk k seed l t
    let f := ssTree k seed (l - 1) tu
    let path := rowsPath (ssRows k seed (l - 1) tu) up.h q
    if isLms k.set then
      lmsSigOf up (levTypes k (l - 1)) f (lmsSeeds up.n seed (l - 1) tu).2 q (hssRandom up.n seed l t) m path ++ m
    else xmLayerSig up f q m path

/-- A region image: header, then nodes (04 R142). -/
def regionImage (k : SsKey) (seed : Bytes) (l t : Nat) : Bytes :=
  let sig := headSig k seed l t
  fit 16384 (le32 (BitVec.ofNat 32 t) ++ le32 (BitVec.ofNat 32 sig.length) ++ sig) ++ treeNodes k seed l t

/-- The path-cache image with the trees that hold an index (04 R142, R145). -/
def cacheImage (k : SsKey) (seed : Bytes) (idx : Nat) : Bytes :=
  let ls := ssLevels k
  ((List.range ls.length).map fun l =>
    let t := treeAt ls l idx
    let img := regionImage k seed l t
    let none0 := zeros (regionLen (ls.getD l {}))
    if l = 0 then img else if t % 2 = 0 then img ++ none0 else none0 ++ img).flatten

/-- Offset of the region of tree `t` at level `l` of an image (04 R142). -/
def regionOff (ls : List Lev) (l t : Nat) : Nat :=
  if l = 0 then 0
  else regionLen (ls.getD 0 {}) + ((List.range (l - 1)).map fun i => 2 * regionLen (ls.getD (i + 1) {})).sum
         + t % 2 * regionLen (ls.getD l {})

/-- The public key of a stateful key (04 R147). -/
def ssPub (k : SsKey) (seed root : Bytes) : Bytes :=
  let n := ((ssLevels k).head?.getD {}).n
  let lms := match k.types with
    | (t, o) :: _ => be32 t ++ be32 o ++ slice seed n 16 ++ root
    | [] => []
  if k.set = 0x10 then lms else if k.set = 0x11 then be32 k.levels ++ lms else be32 k.oid ++ root ++ slice seed (2 * n) n

/-! ## Costs in units (04 R146; log 24) -/

/-- Chain start, chain step, path level and leaf, in units. -/
def unitCost (set : Nat) (l : Lev) : Nat × Nat × Nat × Nat :=
  if isLms set then
    if l.shake then (1, 1, 1, cdiv (l.p * l.n + 23) 136 + 1) else (1, 1, 2, cdiv (l.p * l.n + 31) 64 + 1)
  else if l.shake then (1, 3, 4, (l.p - 1) * 4)
  else if l.n = 32 then (2, 4, 6, (l.p - 1) * 6) else (2, 5, 8, (l.p - 1) * 8)

/-- Hash cycles of a number of units: 2 a Keccak-f, 16.25 a compression. DESIGN CHOICE: a fraction of a cycle rounds down (04 R146 gives
no rounding; log 175). -/
def unitCycles (l : Lev) (u : Nat) : Nat := if l.shake then 2 * u else u * 65 / 4

/-- Message-hash blocks of a message of `len` bytes: what a level hashes with it is I, q, the domain and C, or the domain, r, the root
and the index (log 26). -/
def msgBlocks (set : Nat) (l : Lev) (len : Nat) : Nat :=
  let head := if isLms set then 22 + l.n else (if l.n = 32 then 32 else 4) + 3 * l.n
  if l.shake then cdiv (head + len + 1) 136 else cdiv (head + len + 9) 64

/-- Units of one signature at a level, from its chain steps, the sum of the signed digits, and its message-hash blocks (04 R146). -/
def signUnits (set : Nat) (l : Lev) (steps blocks : Nat) : Nat :=
  let c := unitCost set l
  l.p * c.1 + steps * c.2.1 + l.h * c.2.2.1 + blocks
/-- Units that build a tree (04 R146). -/
def treeUnits (set : Nat) (l : Lev) : Nat :=
  let c := unitCost set l
  2 ^ l.h * (l.p * (c.1 + l.top * c.2.1) + c.2.2.2) + (2 ^ l.h - 1) * c.2.2.1
/-- Hash cycles that sign the public key of tree `t` of level `l`; an XMSS layer signs a root without a message hash. -/
def headCycles (k : SsKey) (seed : Bytes) (l t : Nat) : Nat :=
  if l = 0 then 0
  else
    let up := (ssLevels k).getD (l - 1) {}
    let blocks := if isLms k.set then msgBlocks k.set up (lowerPk k seed l t).length else 0
    unitCycles up (signUnits k.set up (headDigits k seed l t).sum blocks)
/-- Hash cycles that build the trees holding an index at every level, with their signatures. -/
def buildCycles (k : SsKey) (seed : Bytes) (idx : Nat) : Nat :=
  let ls := ssLevels k
  ((List.range ls.length).map fun l =>
    unitCycles (ls.getD l {}) (treeUnits k.set (ls.getD l {})) + headCycles k seed l (treeAt ls l idx)).sum

/-! ## The state store (04 R148-R151) -/

def getSs (d : Dev) (o slot : Nat) : SsKey := (mapGet none d.ss.keys (slotKey o slot)).getD {}
def setSs (d : Dev) (o slot : Nat) (k : SsKey) : Dev :=
  { d with ss.keys := mapSet none d.ss.keys (slotKey o slot) (some k) }

/-- Count a write of the key's next index word, in rotation (04 R149, R152). -/
def wordWrite (d : Dev) (k : SsKey) : SsKey × Dev :=
  let i := k.word % 8
  let n := (if h : i < 8 then k.wcount[i] else 0) + 1
  ({ k with word := (k.word + 1) % 8, wcount := if h : i < 8 then k.wcount.set i n else k.wcount },
   { d with ss.idxMax := if d.ss.idxMax.toNat < n then satNat 32 n else d.ss.idxMax })

/-- Reserve the next block of a key: the BLOCK entry, then the block's end in an index word (04 R149-R151). A reservation writes the
entry twice, closing the block it held and opening the next (04 R152). -/
def ssReserve (d : Dev) (k : SsKey) (h : U32) : SsKey × Dev :=
  let stop := min ((k.next / 2 ^ k.blockLog2 + 1) * 2 ^ k.blockLog2) k.limit
  let d1 := match k.jrn with
    | some n => modJ (modJ d n fun e => { e with state := .blockIdle }) n fun e =>
        { e with state := .blockOpen, key0 := h, boot := d.glob.bootCnt, first := BitVec.ofNat 32 k.next,
                 last := BitVec.ofNat 32 (stop - 1) }
    | none => d
  wordWrite d1 { k with isOpen := true, blockEnd := stop }

/-- Take the next index of a key; `none` when it has reached its limit (04 R149, R151). -/
def ssTake (d : Dev) (o : Nat) (h : U32) : Option (Nat × Dev) :=
  let slot := hSlot h
  let k := getSs d o slot
  if k.limit ≤ k.next then none
  else
    let (k1, d1) := if k.isOpen && decide (k.next < k.blockEnd) then (k, d) else ssReserve d k h
    let k2 := { k1 with next := k.next + 1 }
    let d2 := setSs d1 o slot k2
    some (k.next, ssLowEvents { d2 with ss.takes := satInc d2.ss.takes } k k2 slot)

/-! ## Stateful operations -/

/-- Bytes of secret seeds: SEED and I of LMS and HSS, SK_SEED, SK_PRF and SEED of XMSS (log 27). -/
def seedLen (k : SsKey) : Nat :=
  let n := ((ssLevels k).head?.getD {}).n
  if isLms k.set then n + 16 else 3 * n

/-- Stateful KEYGEN: trees 0, the path-cache image, the record and its key (04 R135, R136, R141, R142). -/
def ssKeygen (d : Dev) (b : Job) : Dev :=
  match parseBlock (opSet b.e.opcode) b.auxData with
  | none => refuse d b stParamInvalid 0 (unstated b.e)
  | some k =>
    let ls := ssLevels k
    if b.e.outCap.toNat < ssPkLen k.set ls + pathCacheLen ls then refuse d b stLength 2 (unstated b.e)
    else if b.outBad.isSome then finishOut d b [] 0 0 0 (unstated b.e)
    else
      let d0 := needSalts d b.owner
      let r := draw d0 (seedLen k)
      let img := cacheImage k r.1 0
      let root := ssRoot k r.1 0 0
      let pk := ssPub k r.1 root
      let (x, y, d1) := splitSecret r.2 r.1
      let obj : KObj := { type := opType b.e.opcode, policy := pPolicy b.e, stateful := true, shareA := x, shareB := y, pub := pk }
      modJob (jIntent d1 b) b.id fun j =>
        { j with keep := some obj, mramTb := d.glob.tb, ssNew := some { k with root := root }, part2 := pk ++ img, cycles := buildCycles k r.1 0 }

def hbsKeygenRun (d : Dev) (b : Job) : Dev := if isSlh (opSet b.e.opcode) then slhKeygen d b else ssKeygen d b
def execHbsKeygen (j : Nat) (s : State) : Out3 := onDev s (service j (isOp 3 1) hbsKeygenRun)

/-- The levels whose region headers a signature reads, the bottom one first. -/
def readLevels (n : Nat) : List Nat := if n ≤ 1 then [0] else ((List.range n).drop 1).reverse

/-- The lowest level whose region header names another tree than the one that holds the index, if any (04 R143). DESIGN CHOICE: the
rule checks the bottom tree's header; a key of three or four levels has the headers of its other lower levels checked as well, after
the bottom one, and a wrong one ends with TREE_NOT_READY of that level (log 176). -/
def wrongTree (ls : List Lev) (img : Bytes) (idx : Nat) : Option Nat :=
  (readLevels ls.length).find? fun l =>
    let t := treeAt ls l idx
    u32At img (regionOff ls l t) != BitVec.ofNat 32 t

/-- The signature bytes of a region's header, cut to their length (04 R142, R144). -/
def copyHead (set : Nat) (ls : List Lev) (img : Bytes) (idx l : Nat) : Bytes :=
  slice img (regionOff ls l (treeAt ls l idx) + 8) (headSigLen set (ls.getD (l - 1) {}) (ls.getD l {}))

/-- The bottom tree's region of an image (04 R142, R143). -/
def bottomRegion (ls : List Lev) (img : Bytes) (idx : Nat) : Bytes :=
  let l := ls.length - 1
  slice img (regionOff ls l (treeAt ls l idx)) (regionLen (bottomLev ls))
/-- Node `r` of a region (04 R142). -/
def regionNode (l : Lev) (region : Bytes) (r : Nat) : Bytes := slice region (16384 + r * l.n) l.n
/-- The siblings of a leaf in a region, from the leaf up. -/
def regionPath (l : Lev) (region : Bytes) (q : Nat) : List Bytes :=
  (List.range l.h).map fun z => regionNode l region (2 ^ (l.h - z) + (q / 2 ^ z ^^^ 1))
/-- Whether the leaf and the path of an index in its region lead to the root that the key's record holds, or, below the top level, to
node 1 of the region (04 R143). The leaf is the image's: a SIGN's cost has no leaf in it (04 R146; log 175). -/
def pathOk (k : SsKey) (seed region : Bytes) (idx : Nat) : Bool :=
  let ls := ssLevels k
  let l := ls.length - 1
  let bot := bottomLev ls
  let q := idx % 2 ^ bot.h
  climb (ssTree k seed l (treeAt ls l idx)).node 0 q (regionNode bot region (2 ^ bot.h + q)) (regionPath bot region q)
    == (if l = 0 then k.root else regionNode bot region 1)

/-- What the bottom tree signs for an index: the message hash, under randomiser `c`, or `r` of XMSS, which comes from SK_PRF and the
index. -/
def bottomHash (k : SsKey) (seed c msg : Bytes) (idx : Nat) : Bytes :=
  let ls := ssLevels k
  let bot := bottomLev ls
  let l := ls.length - 1
  if isLms k.set then lmsMsg bot (lmsSeeds bot.n seed l (treeAt ls l idx)).2 (idx % 2 ^ bot.h) c msg else xmMsg bot c k.root idx msg

/-- The randomiser of a SIGN: C as drawn, or r of XMSS. -/
def signRandom (k : SsKey) (seed drawn : Bytes) (idx : Nat) : Bytes :=
  let bot := bottomLev (ssLevels k)
  if isLms k.set then drawn else xmPrf bot (slice seed bot.n bot.n) (beBytes 32 idx)

/-- The whole signature: the upper levels from the headers, the one-time signature computed, the path from the image (04 R143, R147). -/
def ssSignature (k : SsKey) (seed img c msg : Bytes) (idx : Nat) : Bytes :=
  let ls := ssLevels k
  let bot := bottomLev ls
  let l := ls.length - 1
  let t := treeAt ls l idx
  let q := idx % 2 ^ bot.h
  let f := ssTree k seed l t
  let path := regionPath bot (bottomRegion ls img idx) q
  let heads := (List.range l).map fun i => copyHead k.set ls img idx (i + 1)
  if isLms k.set then
    (if k.set = 0x11 then be32 (k.levels - 1) ++ heads.flatten else [])
      ++ lmsSigOf bot (levTypes k l) f (lmsSeeds bot.n seed l t).2 q c msg path
  else
    beBytes (if k.set = 0x18 then 4 else cdiv (totalH ls) 8) idx ++ c ++ xmLayerSig bot f q (xmMsg bot c k.root idx msg) path
      ++ heads.reverse.flatten

/-- Stateful SIGN (04 R143, R144, R151). A bad output list ends it before it takes an index (02 R43). -/
def ssSign (d : Dev) (b : Job) : Dev :=
  let slot := hSlot b.e.key0
  let k := getSs d b.owner slot
  let c := if isLms k.set then draw d (bottomLev (ssLevels k)).n else ([], d)
  match b.taken.map fun i => (i, c.2) with
  | none =>
    if b.outBad.isSome then finishOut d b [] 0 0 0 (unstated b.e)
    else
      match ssTake c.2 b.owner b.e.key0 with
      | none => refuse (ssCause d 4 (BitVec.ofNat 16 slot)) b stStateExhausted 0 (unstated b.e)
      | some t => ssSignWith t.2 { b with taken := some t.1, effect := b.effect ||| effStateConsumed } k c.1 t.1
  | some t => ssSignWith t.2 { b with effect := b.effect ||| effStateConsumed } k c.1 t.1
where
  /-- What follows the take: the path checks and the signature (04 R143). -/
  ssSignWith (d : Dev) (b : Job) (k : SsKey) (drawn : Bytes) (idx : Nat) : Dev :=
    let ls := ssLevels k
    let bot := bottomLev ls
    let img := b.inData.take (pathCacheLen ls)
    let msg := b.inData.drop (pathCacheLen ls)
    let seed := secretOf (jobKey0 d b)
    match wrongTree ls img idx with
    | some l => refuse d b stTreeNotReady (BitVec.ofNat 16 l) (unstated b.e)
    | none =>
      if !pathOk k seed (bottomRegion ls img idx) idx then refuse d b stEncoding 0x0302 (unstated b.e)
      else
        let c := signRandom k seed drawn idx
        finishOut d b (ssSignature k seed img c msg idx) (BitVec.ofNat 32 idx) effStateConsumed 0
          (unitCycles bot (signUnits k.set bot (signedDigits bot (bottomHash k seed c msg idx)).sum (msgBlocks k.set bot msg.length))
            + 2960)

def hbsSignRun (d : Dev) (b : Job) : Dev :=
  if isSlh (opSet b.e.opcode) then slhSign d b (mPure (ownAux b) b.inData) else ssSign d b
def execHbsSign (j : Nat) (s : State) : Out3 := onDev s (service j (isOp 3 2) hbsSignRun)

/-- The parameters that a public key in AUX names; none for a type code or OID that the device does not support (04 R147). Of an HSS
key they are the level count, at most four, and the top level. -/
def pkParams (set : Nat) (pk : Bytes) : Option SsKey :=
  let be (i : Nat) : Nat := beNat (slice pk i 4)
  let k : SsKey :=
    if set = 0x10 then { set := set, types := [(be 0, be 4)] }
    else if set = 0x11 then { set := set, levels := be 0, types := [(be 4, be 8)] } else { set := set, oid := be 0 }
  if (ssLevels k).isEmpty || (set = 0x11 && (k.levels == 0 || 4 < k.levels)) then none else some k

/-- What an HSS signature given with its public key says of its lower levels: their types, that it is too short to say, or that it names
a type the device does not support. -/
inductive HssRead
  | types (ts : List (Nat × Nat)) | short | unknown
  deriving DecidableEq, Repr

/-- Read the types of `n` levels below one of types `ty` from the public keys in an HSS signature (04 R147). -/
def hssTypes : Nat → Nat × Nat → Bytes → HssRead
  | 0, ty, _ => .types [ty]
  | n + 1, ty, sig =>
    match lmsLev ty.1 ty.2 with
    | none => .unknown
    | some l =>
      let at_ := lmsSigLen l
      let low := (beNat (slice sig at_ 4), beNat (slice sig (at_ + 4) 4))
      if sig.length < at_ + 8 then .short
      else
        match lmsLev low.1 low.2 with
        | none => .unknown
        | some m =>
          match hssTypes n low (sig.drop (at_ + lmsPkLen m)) with
          | .types ts => .types (ty :: ts)
          | r => r

/-- One LMS signature of an HSS signature: its level and types, and the public key, message and signature. -/
structure LmsPart where
  lev : Lev
  ty  : Nat × Nat
  pk  : Bytes
  msg : Bytes
  sig : Bytes
  deriving DecidableEq, Repr

/-- The LMS signatures of a signature over `m`, the top one first; each upper one signs the public key that follows it. -/
def lmsParts : List (Lev × Nat × Nat) → Bytes → Bytes → Bytes → List LmsPart
  | [], _, _, _ => []
  | [x], pk, m, sig => [⟨x.1, x.2, pk, m, sig⟩]
  | x :: y :: rest, pk, m, sig =>
    let low := slice sig (lmsSigLen x.1) (lmsPkLen y.1)
    ⟨x.1, x.2, pk, low, sig⟩ :: lmsParts (y :: rest) low m (sig.drop (lmsSigLen x.1 + lmsPkLen y.1))

/-- The LMS signatures of an LMS or HSS signature. -/
def sigParts (k : SsKey) (pk m sig : Bytes) : List LmsPart :=
  let h := if k.set = 0x11 then 4 else 0
  lmsParts (List.zip (ssLevels k) k.types) (pk.drop h) m (sig.drop h)

/-- Length of the index field of an XMSS or XMSS^MT signature (04 R147). -/
def idxLen (k : SsKey) : Nat := if k.set = 0x18 then 4 else cdiv (totalH (ssLevels k)) 8

/-- Whether a stateful signature verifies; other type codes than the key's are an invalid signature (04 R138, R147). -/
def ssSigOk (k : SsKey) (pk m sig : Bytes) : Bool :=
  if isLms k.set then
    (k.set != 0x11 || beNat (slice sig 0 4) + 1 == beNat (slice pk 0 4)) &&
      (sigParts k pk m sig).all fun x => slice x.pk 0 8 == be32 x.ty.1 ++ be32 x.ty.2 && lmsOk x.lev x.pk x.msg x.sig
  else xmOk (ssLevels k) (idxLen k) pk m sig

/-- Each one-time signature that VERIFY follows: its level, its signed digits, its message-hash blocks (04 R146). -/
def verifyParts (k : SsKey) (pk m sig : Bytes) : List (Lev × List Nat × Nat) :=
  let ls := ssLevels k
  if isLms k.set then
    (sigParts k pk m sig).map fun x => (x.lev, lmsDigits x.lev x.pk x.msg x.sig, msgBlocks k.set x.lev x.msg.length)
  else
    (List.zip ls.reverse (xmWalk ls (idxLen k) pk m sig)).mapIdx fun i x =>
      (x.1, signedDigits x.1 x.2, if i = 0 then msgBlocks k.set x.1 m.length else 0)

/-- Cycles of VERIFY: at each level what SIGN takes and a leaf (04 R146). DESIGN CHOICE: the 2,960 hash cycles count once, not at each
level (log 175). -/
def ssVerifyCycles (k : SsKey) (pk m sig : Bytes) : Nat :=
  ((verifyParts k pk m sig).map fun x =>
    unitCycles x.1 (signUnits k.set x.1 x.2.1.sum x.2.2 + (unitCost k.set x.1).2.2.2)).sum + 2960

/-- Bytes of a public key that name its parameters. -/
def pkHead (set : Nat) : Nat := if set = 0x10 then 8 else if set = 0x11 then 12 else 4

/-- Stateful VERIFY (04 R135, R138, R147). An HSS signature given with its public key names its own lower levels: AUX has the length that
they give; a lower level of a type the device does not support makes the signature invalid (log 175). -/
def ssVerify (d : Dev) (b : Job) : Dev :=
  let set := opSet b.e.opcode
  let aux := ownAux b
  let run (k : SsKey) (pk sig : Bytes) : Dev :=
    verdict d b (ssSigOk k pk b.inData sig) stSigInvalid 0 (ssVerifyCycles k pk b.inData sig)
  let sized (k : SsKey) : Dev :=
    let ls := ssLevels k
    let n := ssPkLen set ls
    if aux.length ≠ n + ssSigLen set ls then refuse d b stLength 3 (unstated b.e) else run k (aux.take n) (aux.drop n)
  if hasKey0 b then run (getSs d b.owner (hSlot b.e.key0)) (jobKey0 d b).pub aux
  else if aux.length < pkHead set then refuse d b stLength 3 (unstated b.e)
  else
    match pkParams set aux with
    | none => refuse d b stEncoding 0x0301 (unstated b.e)
    | some k =>
      if set = 0x11 then
        match hssTypes (k.levels - 1) (k.types.headD (0, 0)) (aux.drop (ssPkLen set (ssLevels k) + 4)) with
        | .types ts => sized { k with types := ts }
        | .short => refuse d b stLength 3 (unstated b.e)
        | .unknown => verdict d b false stSigInvalid 0 (unstated b.e)
      else sized k

def hbsVerifyRun (d : Dev) (b : Job) : Dev :=
  if isSlh (opSet b.e.opcode) then slhVerify d b (mPure (verifyCtx b) b.inData) else ssVerify d b
def execHbsVerify (j : Nat) (s : State) : Out3 := onDev s (service j (isOp 3 5) hbsVerifyRun)

/-- ADVANCE (04 R145). DESIGN CHOICE: the range that the tree may lie beyond is the key's LIMIT, not 2^H, and STATE_EXHAUSTED is answered
before TREE_NOT_READY where both hold: the rule gives neither the bound nor an order (log 177). -/
def advanceRun (d : Dev) (b : Job) : Dev :=
  let k := getSs d b.owner (hSlot b.e.key0)
  let ls := ssLevels k
  let l := b.e.param.toNat
  let t := treeAt ls l k.next + 1
  let seed := secretOf (jobKey0 d b)
  if k.limit ≤ t * 2 ^ heightFrom ls l then refuse d b stStateExhausted 0 (unstated b.e)
  else if t % 2 ^ (ls.getD (l - 1) {}).h = 0 then refuse d b stTreeNotReady (BitVec.ofNat 16 (l - 1)) (unstated b.e)
  else
    finishOut d b (regionImage k seed l t) (BitVec.ofNat 32 t) 0 0
      (unitCycles (ls.getD l {}) (treeUnits k.set (ls.getD l {})) + headCycles k seed l t)
def execAdvance (j : Nat) (s : State) : Out3 :=
  onDev s (service j (fun e => isOp 3 9 e && isStateful (opSet e.opcode)) advanceRun)

/-- REBUILD (04 R145). -/
def rebuildRun (d : Dev) (b : Job) : Dev :=
  let k := getSs d b.owner (hSlot b.e.key0)
  let seed := secretOf (jobKey0 d b)
  finishOut d b (cacheImage k seed k.next) 0 0 0 (buildCycles k seed k.next)
def execRebuild (j : Nat) (s : State) : Out3 :=
  onDev s (service j (fun e => isOp 3 0x0A e && isStateful (opSet e.opcode)) rebuildRun)

/-! ## Class 0xC (04 R150, R151, R153, R154) -/

/-- The QUERY record (04 R154). DESIGN CHOICE: TREE of the levels that the key does not have reads 0 (log 177). -/
def ssRecord (k : SsKey) : Bytes :=
  let ls := ssLevels k
  let tree (l : Nat) : Bytes := le32 (if l < ls.length then BitVec.ofNat 32 (treeAt ls l k.next) else 0)
  leBytes 8 k.next ++ leBytes 8 k.limit ++ leBytes 8 (if k.isOpen then k.blockEnd else k.next) ++ le32 k.retired
    ++ [BitVec.ofNat 8 k.levels, BitVec.ofNat 8 k.blockLog2, 0, 0] ++ tree 0 ++ tree 1 ++ tree 2 ++ tree 3
    ++ le32 (BitVec.ofNat 32 (bottomLeft k)) ++ le32 (satNat 32 (k.wcount.toList.foldl max 0)) ++ zeros 8

def ssQueryRun (d : Dev) (b : Job) : Dev := finishOut d b (ssRecord (getSs d b.owner (hSlot b.e.key0))) 0 0 0 0
def execSsQuery (j : Nat) (s : State) : Out3 := onDev s (serviceNone j (isCode 0xC001) ssQueryRun)

/-- Close the open block of one key without loss: the exact next index is written, the BLOCK entry is completed
(04 R150). -/
def parkKey (d : Dev) (o slot : Nat) : Dev :=
  let k := getSs d o slot
  if !k.isOpen then d
  else
    let (k1, d1) := wordWrite d { k with isOpen := false, blockEnd := k.next }
    let d2 := match k.jrn with | some n => modJ d1 n fun e => { e with state := .blockIdle } | none => d1
    setSs d2 o slot k1

/-- PARK (04 R153). -/
def parkRun (d : Dev) (b : Job) : Dev :=
  let slots := if hasKey0 b then [hSlot b.e.key0]
    else (d.ss.keys.filter fun e => e.1 / 65536 == b.owner).map fun e => e.1 % 65536
  let d1 := slots.foldl (fun acc s => parkKey acc b.owner s) (jIntent d b)
  finishOut (jCommitted d1 b effPersistent) b [] 0 effPersistent 0 0
def execPark (j : Nat) (s : State) : Out3 := onDev s (serviceNone j (isCode 0xC002) parkRun)

/-- LIMIT: never raised; it cuts the open block short (04 R151, R153). -/
def limitRun (d : Dev) (b : Job) : Dev :=
  let slot := hSlot b.e.key0
  let k := getSs d b.owner slot
  let n := (u64At b.auxData 0).toNat
  if k.limit < n || n < k.next then finish d b stRange 0x0303
  else
    let k1 := { k with limit := n, blockEnd := min k.blockEnd n }
    let d1 := ssLowEvents (setSs (jIntent d b) b.owner slot k1) k k1 slot
    finishOut (jCommitted d1 b effPersistent) b [] 0 effPersistent 0 0
def execLimit (j : Nat) (s : State) : Out3 := onDev s (serviceNone j (isCode 0xC003) limitRun)

/-- Destroy a stateful key: its record and its BLOCK entry go with its slot (04 R148, R153). -/
def destroyStateful (d : Dev) (o slot : Nat) : Dev :=
  let k := getSs d o slot
  let d1 := match k.jrn with | some n => freeJ d n | none => d
  destroySlot { d1 with ss.keys := mapSet none d1.ss.keys (slotKey o slot) none } o slot

/-- Whether running jobs use a key (12 R383, 04 R153). -/
def keyBusy (d : Dev) (b : Job) (h : U32) : Bool :=
  d.jobs.live.any fun x => x.id != b.id && x.owner == b.owner && (x.e.key0 == h || x.e.key1 == h)
    && (x.phase == .placed || x.phase == .ending || x.phase == .saved || x.phase == .stranded || x.taken.isSome)

/-- DELETE: once every job that took an index of the key has completed (04 R153). -/
def deleteRun (d : Dev) (b : Job) : Dev :=
  if keyBusy d b b.e.key0 then d
  else
    let d1 := destroyStateful (jIntent d b) b.owner (hSlot b.e.key0)
    finishOut (jCommitted d1 b effPersistent) b [] 0 effPersistent 0 0
def execDelete (j : Nat) (s : State) : Out3 := onDev s (serviceNone j (isCode 0xC004) deleteRun)

end Sys2Proof.Machine
end

