-- ==== Sys2Proof/Machine/Zeroise.lean ====
section
/-!
DEFINITION. The soft zeroise (12 R394, R396).
-/
namespace Sys2Proof.Machine

/-- Whether an owner is in the scope of a soft zeroise. -/
def softScope (z : SoftZ) (o : Nat) : Bool := z.all || z.owner == o

/-- Whether a soft zeroise aborts a job: it is placed, or a blob of it has been opened into the key cache. -/
def softHits (z : SoftZ) (b : Job) : Bool :=
  softScope z b.owner && z.byJob != some b.id
    && (b.phase == .placed || b.phase == .ending || b.phase == .saved || b.phase == .stranded || b.blob.isSome)

/-- Steps 1 and 2: fetches and resolutions of the scope stop, and each placed job of it is aborted (12 R396). -/
def softStart (d : Dev) (z : SoftZ) : Dev :=
  let hit := d.jobs.live.filter (softHits z)
  let d1 := { d with ks.zsoft := some { z with aborted := satNat 16 hit.length } }
  hit.foldl (fun acc b => abortJob acc b stZeroise) d1

/-- The objects that a soft zeroise destroys. -/
def softObjs (d : Dev) (z : SoftZ) : List (Nat × KObj) :=
  d.ks.slots.filterMap fun e =>
    match e.2.obj with
    | some k => if softScope z (e.1 / 65536) && (z.persist || !(k.persist || k.stateful)) then some (e.1, k) else none
    | none => none

/-- A stateful key's record goes: an open block is retired, an idle BLOCK entry is freed (12 R396 step 4, 02 R84). -/
def zeroStateful (d : Dev) (o slot : Nat) : Dev :=
  let k := getSs d o slot
  let d1 := match k.jrn with
    | some n => if (getJ d n).state = JState.blockOpen then modJ d n fun e => { e with state := .retired, kept := true } else freeJ d n
    | none => d
  destroySlot { d1 with ss.keys := mapSet none d1.ss.keys (slotKey o slot) none } o slot

/-- Redraw the OSALT of every owner of the scope that has one (12 R396 step 4). -/
def softSalts (d : Dev) (z : SoftZ) : Dev :=
  d.ks.salts.foldl (fun acc e =>
    if softScope z e.1 then let r := draw acc 32; { r.2 with ks.salts := mapSet [] r.2.ks.salts e.1 r.1 } else acc) d

/-- Steps 3 to 5, once no placed job of the scope is left; the ZEROISE_OWNER job that asked for it completes OK. -/
def softFinish (d : Dev) : Dev :=
  match d.ks.zsoft with
  | none => d
  | some z =>
    if d.jobs.live.any (softHits z) then d
    else
      let objs := softObjs d z
      let d1 := objs.foldl (fun acc e =>
        if e.2.stateful then zeroStateful acc (e.1 / 65536) (e.1 % 65536) else destroySlot acc (e.1 / 65536) (e.1 % 65536)) d
      let d2 := if z.persist then softSalts d1 z else d1
      let who : Byte := if z.all then 0xFF else BitVec.ofNat 8 z.owner
      let d3 := ksDone { d2 with ks.zsoft := none, ks.zowner := who }
      let flags : Byte := (if z.persist then 1 else 0) ||| (if z.byJob.isSome then 2 else 0)
      let d4 := amber d3 .zeroiseSoft .ks ([who, flags] ++ le16 z.aborted ++ leBytes 4 objs.length)
      match z.byJob with
      | some j => match findJob d4 j with
        | some b => finish d4 { b with cycles := unstated b.e, effect := if z.persist then effPersistent else 0 } stOk 0
        | none => d4
      | none => d4

/-- `KS_ZCTL` with SOFT (12 R398): the write needs its key and no soft zeroise in progress. -/
def softZeroiseGo (v : U32) (d : Dev) : Dev :=
  if !isReady d || !barOk d 0 || d.ks.zsoft.isSome || v >>> 16 != 0x5A3C || !v.getLsbD 0 then d
  else softStart d { all := v.getLsbD 2, owner := (v >>> 8).toNat % 256, persist := v.getLsbD 3 }
def execSoftZeroise (v : U32) (s : State) : Out3 := onDev s (softZeroiseGo v)

end Sys2Proof.Machine
end

