-- ==== Sys2Proof/Machine/KeyJobs.lean ====
section
/-!
DEFINITION. The key-management jobs of class 0xA: creation, derivation, blobs, wrapped import and export (12 R377-R386).
-/
namespace Sys2Proof.Machine

/-! ## Creation and derivation (12 R383, R384) -/

/-- The 300 cycles of the plain operations (12 R386). -/
def keyCycles : Nat := 300

/-- TYPE of a secret key from PARAM. -/
def secretType (e : Sqe) : U16 := symType (pbits e 8 6)
/-- Length of a secret key from PARAM. -/
def secretSize (e : Sqe) : Nat := secretLen (pbits e 8 6) (pbits e 1 7)

def secretGenRun (d : Dev) (b : Job) : Dev :=
  let r := draw d (secretSize b.e)
  makeKey r.2 b { type := secretType b.e, policy := pPolicy b.e, origin := 0, sec := r.1, pub := [] } [] 0 keyCycles
def execSecretGen (j : Nat) (s : State) : Out3 := onDev s (service j (isCode 0xA001) secretGenRun)

/-- DERIVE of `n` bytes from a key: KMAC256, HMAC-SHA-256 or HMAC-SHA-384 by the KDF field (12 R384). -/
def kdf (alg : Nat) (key label ctx : Bytes) (n : Nat) : Bytes :=
  if alg = 0 then kmac256 key ctx n label
  else if alg = 1 then kdfCounter sha256 64 32 key label ctx n
  else kdfCounter sha384 128 48 key label ctx n
/-- CYCLES of DERIVE (12 R386; the blocks of every counter value: log 24). -/
def kdfCycles (alg aux key label ctx n : Nat) : Nat :=
  if alg = 0 then 600 + 48 * cdiv aux 136
  else
    let set := if alg = 1 then 2 else 3
    let hl := if alg = 1 then 32 else 48
    600 + 97 * (cdiv n hl * jobBlocks set (label + ctx + 6) hl 0 (some key) false)

def deriveRun (d : Dev) (b : Job) : Dev :=
  let ll := (u16At b.auxData 0).toNat
  let rest := b.auxData.drop 2
  if rest.length < ll then refuse d b stLength 3 (unstated b.e)
  else
    let alg := pbits b.e 14 2
    let key := secretOf (jobKey0 d b)
    let label := rest.take ll
    let ctx := rest.drop ll
    let n := secretSize b.e
    makeKey d b { type := secretType b.e, policy := pPolicy b.e, origin := 1, sec := kdf alg key label ctx n, pub := [] } [] 0
      (kdfCycles alg b.auxData.length key.length label.length ctx.length n)
def execDerive (j : Nat) (s : State) : Out3 := onDev s (service j (isCode 0xA002) deriveRun)

/-! ## Blobs (12 R377-R379) -/

/-- A blob's header fields. -/
def blobDomain (h : Bytes) : Nat := (byteAt h 5).toNat
def blobSec (h : Bytes) : Nat := (u32At h 0x10).toNat
def blobPub (h : Bytes) : Nat := (u32At h 0x14).toNat

/-- The first check of 12 R378 on a header, but for the length. -/
def blobHeadOk (h : Bytes) : Bool :=
  u32At h 0 == 0x4B425153 && byteAt h 4 == 1 && decide (blobDomain h ≤ 2)
    && allZero (slice h 0x0D 3) && allZero (slice h 0x24 4) && allZero (slice h 0x38 8)
    && (blobDomain h == 0 || byteAt h 7 == 0) && (blobDomain h == 2 || allZero (slice h 0x28 16))

/-- The blob key of a domain (12 R375, R377). -/
def blobKey (d : Dev) (domain o : Nat) (group : Bytes) : Bytes :=
  if domain = 0 then deriveKey d "SQ-BLOB" ([BitVec.ofNat 8 o] ++ d.ks.zsalt.getD [] ++ mapGet [] d.ks.salts o) 256
  else if domain = 1 then deriveKey d "SQ-BLOB" ([0xFF] ++ d.ks.zsalt.getD []) 256
  else kmac256 group [] 32 (ascii "SQ-BLOB-G")
/-- GROUP_ID of a group key. -/
def groupId (group : Bytes) : Bytes := kmac256 group [] 16 (ascii "SQ-GID")

/-- The salts that a blob key needs (12 R375). -/
def blobSalts (d : Dev) (domain o : Nat) : Dev :=
  if domain = 0 then needSalts d o else if domain = 1 then needZsalt d else d

/-- The checks of 12 R378 after granules: EPOCH, then OWNER or GROUP_ID. -/
def blobFault (d : Dev) (o : Nat) (h : Bytes) (group : Option Bytes) : Option Refuse :=
  let dom := blobDomain h
  if dom ≠ 2 && d.ks.nodus then some (stNotPermitted, 0)
  else if dom ≠ 2 && (byteAt h 6).toNat ≠ d.ks.epoch.toNat then some (stEncoding, 0x0A02)
  else if dom = 0 && (byteAt h 7).toNat ≠ o then some (stEncoding, 0x0A03)
  else if dom = 2 && group.map groupId ≠ some (slice h 0x28 16) then some (stEncoding, 0x0A03)
  else none

/-- Open a blob: its secret and public parts, if its tag verifies. -/
def blobOpen (key x : Bytes) : Option (Bytes × Bytes) :=
  let n := blobSec x
  let pub := slice x (64 + n) (blobPub x)
  let ct := slice x 64 n
  let ks := aesKeys key
  let iv := slice x 0x18 12
  if gcmTag ks iv (x.take 64 ++ pub) ct == slice x (64 + n + blobPub x) 16 then some (gcmCrypt ks iv ct, pub) else none

/-- Granules of a blob's object. -/
def blobObjGran (h : Bytes) : Nat := if blobSec h = 0 then granPub (blobPub h) else granPriv (blobSec h) (blobPub h)
/-- CYCLES of a blob operation (12 R386). -/
def blobCycles (sec pub : Nat) : Nat := 300 + cdiv (sec + pub + 64) 16

/-- Whether an owner lacks `n` more granules. -/
def granShort (d : Dev) (o n : Nat) : Bool := decide ((getOwn d o).sh.gran.toNat < granUsed d o + n)

/-- A refusal by the key store: no engine, CYCLES 0 (02 R79). -/
def ksRefuse (d : Dev) (b : Job) (st det : U16) : Dev := finish d { b with eng := none, outLen := 0, result := 0 } st det

/-- BLOB_EXPORT: the blob, and the object is marked EXPORTED (12 R377, R378, R382). -/
def blobExportRun (d0 : Dev) (b : Job) : Dev :=
  if b.outBad.isSome then finishOut d0 b [] 0 0 0 (blobCycles (jobKey0 d0 b).shareA.length (jobKey0 d0 b).pub.length) else
  let dom := pbits b.e 8 2
  let d := blobSalts d0 dom b.owner
  let k := jobKey0 d b
  let group := secretOf (jobKey1 d b)
  let r := draw d 12
  let sec := secretOf k
  let head := le32 0x4B425153 ++ [1, BitVec.ofNat 8 dom, if dom = 2 then 0 else d.ks.epoch.setWidth 8,
      if dom = 0 then BitVec.ofNat 8 b.owner else 0] ++ le16 k.type ++ le16 k.policy ++ [k.origin] ++ zeros 3
      ++ leBytes 4 sec.length ++ leBytes 4 k.pub.length ++ r.1 ++ zeros 4
      ++ (if dom = 2 then groupId group else zeros 16) ++ zeros 8
  let ks := aesKeys (blobKey d dom b.owner group)
  let ct := gcmCrypt ks r.1 sec
  let out := head ++ ct ++ k.pub ++ gcmTag ks r.1 (head ++ k.pub) ct
  finishOut (modObj r.2 b.owner b.e.key0 fun x => { x with exported := true }) b out 0 0 0 (blobCycles sec.length k.pub.length)
def execBlobExport (j : Nat) (s : State) : Out3 := onDev s (service j (isCode 0xA003) blobExportRun)

/-- The room that a creation of known parts still lacks: granules, or blocks of a persistent key. -/
def newShort (d : Dev) (b : Job) (sec pub : Nat) : Option Refuse :=
  if granShort d b.owner (if sec = 0 then granPub pub else granPriv sec pub) then some (stKeyCacheFull, 0)
  else if b.pkeyRes ≠ 0 && 1920 < blocksUsed d + persistBlocks sec pub then some (stPersistFull, 2)
  else none

/-- BLOB_IMPORT (12 R378): the checks in order, then the object with the blob's TYPE, POLICY and ORIGIN. A KEY1 without WRAP has been
refused at step 6 of 03 R100 (12 R369); one beside a blob of domain 0 or 1, which names none, is refused after the header (log 181). -/
def blobImportRun (d0 : Dev) (b : Job) : Dev :=
  let x := b.inData
  if !blobHeadOk x || x.length ≠ 80 + blobSec x + blobPub x then ksRefuse d0 b stEncoding 0x0A01
  else if blobDomain x ≠ 2 && b.e.key1 ≠ noHandle then ksRefuse d0 b stParamInvalid 0
  else
    match newShort d0 b (blobSec x) (blobPub x) with
    | some (st, det) => ksRefuse (if st = stPersistFull then ksPfull d0 else d0) b st det
    | none =>
      let group := if b.e.key1 = noHandle then none else some (secretOf (jobKey1 d0 b))
      match blobFault d0 b.owner x group with
      | some (st, det) => ksRefuse d0 b st det
      | none =>
        let d := blobSalts d0 (blobDomain x) b.owner
        let cyc := blobCycles (blobSec x) (blobPub x)
        match blobOpen (blobKey d (blobDomain x) b.owner (group.getD [])) x with
        | none => refuse d b stTagInvalid 0 cyc
        | some (sec, pub) =>
          makeKey d b { type := u16At x 8, policy := u16At x 0xA, origin := byteAt x 0xC, sec := sec, pub := pub } [] 0 cyc
def execBlobImport (j : Nat) (s : State) : Out3 := onDev s (service j (isCode 0xA004) blobImportRun)

/-- The unwrap of a KEY0 blob ends: the checks of 12 R379 and R378, step 6 of 03 R100 on, then the job waits for placement
with its transient object. Its CYCLES do not count the unwrap. -/
def blobUnwrapGo (j : Nat) (d0 : Dev) : Dev :=
  match findJob d0 j with
  | none => d0
  | some b =>
    if b.phase ≠ .unwrapping || b.auxData.length ≠ b.e.auxLen.toNat then d0
    else
      match opSpec d0 b.owner b.e with
      | none => d0
      | some sp =>
        let h := b.auxData
        let own := h.drop (80 + blobSec h + blobPub h)
        let gran := blobObjGran h
        if late d0 b.e then finish d0 b stDeadline 0
        else if h.length < 64 || !blobHeadOk h || h.length < 80 + blobSec h + blobPub h then finish d0 b stEncoding 0x0A01
        else if granShort d0 b.owner gran then finish d0 b stKeyCacheFull 0
        else if blobDomain h = 2 then finish d0 b stKeyPolicy 0
        else
          match blobFault d0 b.owner h none with
          | some (st, det) => finish d0 b st det
          | none =>
            if resolveStopped d0 b.owner || !(kindCells .sy).any (engineFree d0 b) then d0
            else if d0.rng.state == .error then finish d0 b stRngUnavailable 0
            else if d0.rng.hold.isSome then d0
            else
              let d := blobSalts d0 (blobDomain h) b.owner
              match blobOpen (blobKey d (blobDomain h) b.owner []) h with
              | none => finish d b stTagInvalid 0
              | some (sec, pub) =>
                let (x, y, d1) := splitSecret d sec
                let obj : KObj := { type := u16At h 8, policy := u16At h 0xA, origin := byteAt h 0xC, shareA := x, shareB := y,
                                    pub := pub, gran := gran }
                let d2 := modJob d1 j fun t => { t with granRes := gran }
                match refuseLate d2 b.owner b.e sp (some obj) own.length with
                | some (st, det) => finish (if st = stPersistFull then ksPfull d2 else d2) b st det
                | none =>
                  modJob d2 j fun t =>
                    { t with phase := .waiting, blob := some obj, granRes := gran + sp.gran, pkeyRes := if sp.persist then 1 else 0
                             blkRes := if sp.persist then sp.blocks else 0 }
def execBlobUnwrapDone (j : Nat) (s : State) : Out3 := onDev s (blobUnwrapGo j)

/-! ## Wrapped export (12 R380) -/

/-- The plaintext of an exported private or secret key. -/
def kwPlain (k : KObj) : Bytes :=
  let set := opSet k.type
  let sec := secretOf k
  match opClass k.type with
  | 0x1 =>
    if isHybrid set then kemDk 2 k ++ sec.drop 1184 ++ kemPubOf set k else kemDk set k ++ kemPubOf set k
  | 0x4 => if isHqc set then sec ++ k.pub ++ k.pub else sec
  | 0x5 => if set = 0x12 then sec.take 32 ++ k.pub else if set = 0x13 then sec.take 57 ++ k.pub else sec ++ k.pub
  | _ => sec ++ k.pub

/-- CYCLES of an unwrap or wrap of `n` semiblocks (12 R386). -/
def kwpCycles (n : Nat) : Nat := 300 + 132 * (n - 1)

/-- KW_EXPORT. -/
def kwExportRun (d : Dev) (b : Job) : Dev :=
  let w := kwpWrap (secretOf (jobKey1 d b)) (kwPlain (jobKey0 d b))
  if b.outBad.isSome then finishOut d b [] 0 0 0 (kwpCycles (w.length / 8))
  else finishOut (modObj d b.owner b.e.key0 fun x => { x with exported := true }) b w 0 0 0 (kwpCycles (w.length / 8))
def execKwExport (j : Nat) (s : State) : Out3 := onDev s (service j (isCode 0xA005) kwExportRun)

/-! ## Wrapped import (12 R380-R382) -/

/-- The plaintext lengths of a type; none for a type that cannot be imported (12 R380). -/
def importLens (t : U16) : List Nat :=
  let set := opSet t
  if opOp t ≠ 0 then []
  else
    match opClass t with
    | 0x1 => match latSet 1 set with | some z => [z.sk + z.pk] | none => []
    | 0x2 => match latSet 2 set with | some z => [z.sk + z.pk] | none => []
    | 0x3 => if isSlh set then [6 * slhN set] else []
    | 0x4 => match codeSet set with | some z => [if isHqc set then z.sk + z.pk else z.sk] | none => []
    | 0x5 =>
      if set = 1 || set = 2 || set = 3 then let c := curveOf {} 0 set 0; [nLen c + 1 + 2 * pLen c]
      else if isXcurve set then [if set = 0x10 then 64 else 112]
      else if isEdwards set then [if set = 0x12 then 64 else 114]
      else if isRsa set then [256, 384, 512, 768, 1024].map fun k => 5 * (k / 2) + 4 + k
      else if isFfdh set then [ffXlen set + ffLen set] else []
    | 0x8 =>
      if set = 1 then [16] else if set = 2 || set = 3 then [32]
      else if set = 4 || set = 5 then (List.range 127).map fun i => 8 * (i + 1) else []
    | _ => []

/-- The secret and public parts of the object that a plaintext gives (03 R94, 05 R160, 06 R185). -/
def importParts (t : U16) (x : Bytes) : Bytes × Bytes :=
  let set := opSet t
  match opClass t with
  | 0x1 =>
    let core := if isHybrid set then 2 else set
    let n := kemEk core
    let dk := x.take (2 * n + 32)
    let y := x.drop (2 * n + 32)
    let sc := if isHybrid set then y.take 32 else []
    let pk := if isHybrid set then y.drop 32 else y
    let ek := pk.take n
    (dk.take (n - 32) ++ dk.drop (2 * n) ++ sc, ek ++ sha3 32 ek ++ pk.drop n)
  | 0x2 => match latSet 2 set with | some z => (x.take z.sk, x.drop z.sk) | none => ([], [])
  | 0x3 => (x.take (4 * slhN set), x.drop (4 * slhN set))
  | 0x4 => match codeSet set with
    | some z => if isHqc set then (x.take (40 + z.sigma), x.drop z.sk) else (x, [])
    | none => ([], [])
  | 0x5 =>
    if set = 1 || set = 2 || set = 3 then let n := nLen (curveOf {} 0 set 0); (x.take n, x.drop n)
    else if isXcurve set then let n := x.length / 2; (x.take n, x.drop n)
    else if isEdwards set then
      let big := set == 0x13
      let n := x.length / 2
      (x.take n ++ leBytes n (edScalar big (x.take n)), x.drop n)
    else if isRsa set then let k := (x.length - 4) * 2 / 7; (x.take (5 * (k / 2)), x.drop (5 * (k / 2)))
    else (x.take (ffXlen set), x.drop (ffXlen set))
  | _ => (x, [])

/-- A Weierstrass private key against its point (12 R380). -/
def ecImportFault (c : Curve) (sec pt : Bytes) : Option Refuse :=
  let s := beNat sec
  if s ≤ 1 || c.n ≤ s then some (stRange, 0x0501)
  else if ecBytes c (ecMul c s (ecG c)) ≠ pt then some (stPointInvalid, 0x0501) else none

/-- The type check of an imported key (12 R380). The FIPS 203 hash check is taken over both copies of ek (log 32). -/
def importFault (t : U16) (x : Bytes) : Option Refuse :=
  let set := opSet t
  let p := importParts t x
  match opClass t with
  | 0x1 =>
    let core := if isHybrid set then 2 else set
    let n := kemEk core
    let ek := p.2.take n
    let h := slice x (2 * n - 32) 32
    if !ekOk ek then some (stRange, 0x0201)
    else if h ≠ sha3 32 ek || h ≠ sha3 32 (slice x (n - 32) n) then some (stEncoding, 0x0A04)
    else if set = 0x11 then ecImportFault p256 (p.1.drop 1184) (p.2.drop (n + 32)) else none
  | 0x2 =>
    if isFnDsa set then (if fnPaired set p.1 p.2 then none else some (stEncoding, 0x0A05))
    else if slice x 64 64 ≠ shake256 p.2 64 then some (stEncoding, 0x0A05) else none
  | 0x5 =>
    if isRsa set then
      let k := p.2.length - 4
      let f := rsaPart p.1 k
      let e := rsaE p.2
      if f 0 * f 1 ≠ rsaN p.2 || e * f 2 % (f 0 - 1) ≠ 1 || e * f 3 % (f 1 - 1) ≠ 1 || f 1 * f 4 % f 0 ≠ 1
      then some (stEncoding, 0x0A06) else none
    else if set = 1 || set = 2 || set = 3 then ecImportFault (curveOf {} 0 set 0) p.1 p.2 else none
  | _ => none

/-- The engine type of a type's check: 1 a core, 3 a modular engine, 0 none. -/
def importCheckKind (t : U16) : Nat :=
  let set := opSet t
  match opClass t with
  | 0x1 | 0x2 => 1
  | 0x5 => if isRsa set || set = 1 || set = 2 || set = 3 then 3 else 0
  | _ => 0

/-- TYPE and POLICY of the descriptor. -/
def impType (b : Job) : U16 := u16At b.auxData 0
def impPolicy (b : Job) : U16 := u16At b.auxData 2
/-- Whether a descriptor names an importable type. -/
def descOk (b : Job) : Bool :=
  allZero (slice b.auxData 4 4) && policyOk (impPolicy b) && !(importLens (impType b)).isEmpty

/-- One engine's part of an import ends: its cycles are kept and the next step waits for an engine of `kind`. -/
def importNext (d : Dev) (b : Job) (kind step cyc : Nat) (data : Bytes) : Dev :=
  let d1 := match b.eng with
    | some c => modEng d c fun r => { r with busy := r.busy + BitVec.ofNat 64 cyc }
    | none => d
  modJob d1 b.id fun x =>
    { x with phase := .waiting, eng := none, part := 0, nextKind := kind, step := step, cycles2 := x.cycles2 + cyc, part2 := data }

/-- Create the imported object; its room has been reserved. -/
def importMake (d : Dev) (b : Job) (plain : Bytes) (cyc : Nat) : Dev :=
  let p := importParts (impType b) plain
  makeKey d b { type := impType b, policy := impPolicy b, origin := if opOp b.e.opcode = 6 then 3 else 4, sec := p.1, pub := p.2 }
    [] 0 cyc

/-- Length of the wrapped plaintext in an import's IN. -/
def impWrapped (d : Dev) (b : Job) : Nat :=
  b.e.inLen.toNat - (if opOp b.e.opcode = 7 then kemTypeCt (jobKey1 d b).type else 0)
/-- Lengths of the secret and public parts of the object that an import makes, from its type and the wrapped length. -/
def impSizes (d : Dev) (b : Job) : Nat × Nat :=
  let ls := importLens (impType b)
  let n := (ls.find? fun n => kwpLen n == impWrapped d b).getD (ls.headD 0)
  let p := importParts (impType b) (zeros n)
  (p.1.length, p.2.length)
/-- Before an import uses an engine: its descriptor, its owner's share of the engines that check the type (13 R400), then granules and
blocks (12 R371, R380). The key store refuses and no engine is named (02 R79; log 182). -/
def importRoom (d : Dev) (b : Job) (go : Dev → Job → Dev) : Dev :=
  if !descOk b then ksRefuse d b stParamInvalid 0
  else if (importCheckKind (impType b) == 1 && !holdsKind d b.owner .py) || (importCheckKind (impType b) == 3 && !holdsKind d b.owner .me) then
    ksRefuse d b stNotPermitted 0
  else
    let n := impSizes d b
    match newShort d b n.1 n.2 with
    | some (st, det) => ksRefuse (if st = stPersistFull then ksPfull d else d) b st det
    | none =>
      let b1 := { b with granRes := if n.1 = 0 then granPub n.2 else granPriv n.1 n.2
                         blkRes := if b.pkeyRes = 0 then 0 else persistBlocks n.1 n.2 }
      go (modJob d b.id fun _ => b1) b1

/-- The unwrap of an import. -/
def importUnwrap (d : Dev) (b : Job) (kek w : Bytes) : Dev :=
  let cyc := kwpCycles (cdiv w.length 8)
  match kwpUnwrap kek w with
  | none => refuse d b stTagInvalid 0 cyc
  | some plain =>
    if !(importLens (impType b)).contains plain.length then refuse d b stLength 1 cyc
    else if importCheckKind (impType b) = 0 then importMake d b plain cyc
    else importNext d b (importCheckKind (impType b)) 2 cyc plain

/-- The decapsulation of KEM_IMPORT: K_W (12 R381). -/
def importDecaps (d : Dev) (b : Job) : Dev :=
  let k := jobKey1 d b
  let core := opSet k.type
  let ss := kemDec core (kemDk core k) (b.inData.take (kemCt core))
  importNext d b 4 1 (kemDecapsCycles core b.order) (kmac256 ss b.auxData 32 (ascii "SQ-KEMWRAP"))

/-- The step of an import that is placed now: 0 its first, 1 the unwrap after a decapsulation, 2 the type check. -/
def importRun (d : Dev) (b : Job) : Dev :=
  if b.step = 0 then
    importRoom d b fun d b => if opOp b.e.opcode = 6 then importUnwrap d b (secretOf (jobKey1 d b)) b.inData else importDecaps d b
  else if b.step = 1 then importUnwrap d b b.part2 (b.inData.drop (kemTypeCt (jobKey1 d b).type))
  else
    match importFault (impType b) b.part2 with
    | some (st, det) => refuse d b st det (unstated b.e)
    | none => importMake d b b.part2 (unstated b.e)

/-- The first step of KW_IMPORT. -/
def kwImportRun (d : Dev) (b : Job) : Dev := if b.step = 0 then importRun d b else d
def execKwImport (j : Nat) (s : State) : Out3 := onDev s (service j (isCode 0xA006) kwImportRun)
/-- The first step of KEM_IMPORT. -/
def kemImportRun (d : Dev) (b : Job) : Dev := if b.step = 0 then importRun d b else d
def execKemImport (j : Nat) (s : State) : Out3 := onDev s (service j (isCode 0xA007) kemImportRun)
/-- An engine step of an import completes. -/
def execImportStepDone (j : Nat) (s : State) : Out3 :=
  onDev s (service j (fun e => isCode 0xA006 e || isCode 0xA007 e) importRun)

/-! ## RESTRICT, DESTROY, INFO, READ_PLAIN, ZEROISE_OWNER (12 R383-R385) -/

/-- RESTRICT. -/
def restrictRun (d : Dev) (b : Job) : Dev :=
  let k := jobKey0 d b
  let eff := if k.persist || k.stateful then effPersistent else 0
  if b.outBad.isSome then finishOut d b [] 0 0 0 keyCycles
  else
  let d1 := modObj (jIntent d b) b.owner b.e.key0 fun x => { x with policy := pPolicy b.e }
  finishOut (jCommitted d1 b eff) b [] 0 eff 0 keyCycles
def execRestrict (j : Nat) (s : State) : Out3 := onDev s (service j (isCode 0xA008) restrictRun)

/-- Whether an owner's key names a parameter object (06 R198). -/
def paramUsed (d : Dev) (o : Nat) (h : U32) : Bool :=
  (ownSlots d o).any fun s => match s.2.obj with | some k => k.param == h | none => false

/-- DESTROY: after the jobs that use the key have completed; a parameter object only while no key names it (06 R198). DESIGN CHOICE: the
status of that refusal is KEY_POLICY; the rule names none (log 187). -/
def destroyRun (d : Dev) (b : Job) : Dev :=
  let k := jobKey0 d b
  if keyBusy d b b.e.key0 then d
  else if b.outBad.isSome then finishOut d b [] 0 0 0 keyCycles
  else if k.isParam && paramUsed d b.owner b.e.key0 then refuse d b stKeyPolicy 0 keyCycles
  else
    let eff := if k.persist || k.stateful then effPersistent else 0
    let d1 := jIntent d b
    let d2 := if k.stateful then destroyStateful d1 b.owner (hSlot b.e.key0) else destroySlot d1 b.owner (hSlot b.e.key0)
    finishOut (jCommitted d2 b eff) b [] 0 eff 0 keyCycles
def execDestroy (j : Nat) (s : State) : Out3 := onDev s (service j (isCode 0xA009) destroyRun)

/-- FLAGS of an object. -/
def keyFlags (k : KObj) : Byte :=
  (if k.persist then 1 else 0) ||| (if k.stateful then 2 else 0) ||| (if k.exported then 4 else 0) ||| (if k.broken then 8 else 0)
/-- INFO. -/
def infoRun (d : Dev) (b : Job) : Dev :=
  let k := jobKey0 d b
  finishOut d b (le16 k.type ++ le16 k.policy ++ [k.origin, keyFlags k] ++ leBytes 2 k.gran ++ leBytes 4 k.shareA.length
    ++ leBytes 4 k.pub.length ++ le32 k.param ++ le32 k.boot ++ zeros 8) 0 0 0 keyCycles
def execInfo (j : Nat) (s : State) : Out3 := onDev s (service j (isCode 0xA00A) infoRun)

/-- READ_PLAIN. -/
def readPlainRun (d : Dev) (b : Job) : Dev := finishOut d b (secretOf (jobKey0 d b)) 0 0 0 keyCycles
def execReadPlain (j : Nat) (s : State) : Out3 := onDev s (service j (isCode 0xA00B) readPlainRun)

/-- ZEROISE_OWNER starts the soft zeroise of an owner; the job completes when that ends (12 R396). -/
def zeroiseOwnerRun (d : Dev) (b : Job) : Dev :=
  if d.ks.zsoft.isSome then d
  else if b.outBad.isSome then finishOut d b [] 0 0 0 keyCycles
  else softStart d { owner := if b.owner = 0 then pbits b.e 24 8 else b.owner, persist := pbit b.e 16, byJob := some b.id }
def execZeroiseOwner (j : Nat) (s : State) : Out3 := onDev s (service j (isCode 0xA00C) zeroiseOwnerRun)

end Sys2Proof.Machine
end

