-- ==== Sys2Proof/Machine/Attest.lean ====
section
/-!
DEFINITION. Identity keys and the attestation jobs of class 0xB (12 R376, R390-R393).
-/
namespace Sys2Proof.Machine

/-! ## Identity keys (12 R376) -/

/-- The ML-DSA-87 public and private identity keys from their seed. -/
def idPk (d : Dev) : Bytes := (dsaKeygen 3 d.ks.idMldsa).1
def idSk (d : Dev) : Bytes := (dsaKeygen 3 d.ks.idMldsa).2.1
/-- The P-384 identity scalar from its 448-bit seed. -/
def idScalar (d : Dev) : Nat := beNat d.ks.idP384 % (p384.n - 2) + 2
/-- The P-384 identity point. -/
def idPoint (d : Dev) : Bytes := ecBytes p384 (ecMul p384 (idScalar d) (ecG p384))
/-- The device ID as a field. -/
def devIdBytes (d : Dev) : Bytes := leBytes 16 d.glob.devId.toNat

/-! ## Signing (12 R390, R391) -/

/-- Sign a statement: ML-DSA-87 in pure mode at order 2, or ECDSA P-384 with SHA-384, and complete. -/
def attSign (d : Dev) (b : Job) (context : String) (body : Bytes) : Dev :=
  if pbit b.e 0 then
    let dig := sha384 (ascii context ++ body)
    let r := ecdsaLoop p384 (idScalar d) (ecHashInt p384 dig) 3 255 1 none d
    let cyc := ecSignCycles p384 2 + hashCost 3 (context.length + body.length)
    match r.1 with
    | none => finish r.2 { b with attempts := 255, cycles := cyc, outLen := 0 } stIterationBound 0
    | some (ok, x, y, i) =>
      if !ok then resultCheck r.2 b cyc else finishOut r.2 b (body ++ beBytes 48 x ++ beBytes 48 y) 0 0 i cyc
  else
    let m := mPure (ascii context) body
    let cyc (n : Nat) : Nat :=
      dsaSetup 3 2 + n * dsaAttempt 3 2 + absorbExtra (hashInput 3 m) + expandExtra 2 3 ((idPk d).take 32)
    match dsaSignMsg 3 (idSk d) m (jobRnd d b 32) with
    | none => finish d { b with attempts := 255, cycles := cyc 255, outLen := 0 } stIterationBound 0
    | some (n, sig) => finishOut d b (body ++ sig) 0 0 n (cyc n)

/-! ## Reports (12 R391, R392) -/

/-- COMPONENT and INSTANCE of the 33 measurements, in order. -/
def measNames : List (Nat × Nat) :=
  [(1, 0), (2, 0)] ++ (List.range 16).map (fun i => (3, i)) ++ (List.range 8).map (fun i => (4, i))
    ++ (List.range 4).map (fun i => (5, i)) ++ [(6, 0), (7, 0), (8, 0)]
/-- One measurement entry. -/
def measBytes (n : Nat × Nat) (m : Meas) : Bytes :=
  leBytes 2 n.1 ++ leBytes 2 n.2 ++ le16 m.version ++ zeros 2 ++ fit 48 m.digest
/-- The measurement of the active deal table; its version is free (log 4). -/
def measDeal (d : Dev) : Meas :=
  let t := memRead d.dlr.act 0 4352
  { version := BitVec.ofNat 16 (Config.count .measVersion [leBytes 1 8, t]), digest := sha384 t }
/-- All the measurements. -/
def measAll (d : Dev) : Bytes :=
  (measNames.zipIdx.map fun e => measBytes e.1 (if e.2 = 32 then measDeal d else d.boot.meas.getD e.2 {})).flatten

/-- The body of a device report. -/
def reportBody (d : Dev) (b : Job) : Bytes :=
  le32 0x54525153 ++ leBytes 2 1 ++ leBytes 2 33 ++ devIdBytes d ++ le32 d.boot.imgRel
    ++ [d.glob.lcCode, d.ks.epoch.setWidth 8, (devStateCode d.glob.st).setWidth 8, if pbit b.e 0 then 1 else 0]
    ++ le32 d.glob.bootCnt ++ [BitVec.ofNat 8 b.owner, BitVec.ofNat 8 b.auxData.length] ++ zeros 2 ++ le64 d.glob.tb
    ++ leBytes 4 d.otp.svn ++ zeros 12 ++ fit 64 b.auxData ++ measAll d
def reportRun (d : Dev) (b : Job) : Dev := attSign d b "SQ-ATTEST-RPT" (reportBody d b)
def execReport (j : Nat) (s : State) : Out3 := onDev s (service j (isCode 0xB001) reportRun)

/-- IDENTITY uses no engine. -/
def identityRun (d : Dev) (b : Job) : Dev :=
  finishOut d b (devIdBytes d ++ [d.ks.epoch.setWidth 8, d.glob.lcCode] ++ zeros 2 ++ idPk d ++ idPoint d) 0 0 0 0
def execIdentity (j : Nat) (s : State) : Out3 := onDev s (serviceNone j (isCode 0xB002) identityRun)

/-! ## Key statements (12 R393) -/

/-- The public-key encoding of an object, empty where it has none. -/
def pubEncoding (k : KObj) : Bytes := if opClass k.type = 1 then kemPubOf (opSet k.type) k else k.pub
/-- The body of a key statement; its boot count is the current one (log 33). -/
def keyStatement (d : Dev) (b : Job) : Bytes :=
  let k := jobKey0 d b
  let aux := ownAux b
  le32 0x54415153 ++ leBytes 2 1 ++ le16 k.type ++ devIdBytes d ++ le32 b.e.key0 ++ le16 k.policy ++ [k.origin, keyFlags k]
    ++ le32 d.glob.bootCnt ++ [d.ks.epoch.setWidth 8, BitVec.ofNat 8 aux.length] ++ zeros 2 ++ le64 d.glob.tb
    ++ (if (pubEncoding k).isEmpty then zeros 48 else sha384 (pubEncoding k)) ++ fit 64 aux
def keyAttestRun (d : Dev) (b : Job) : Dev := attSign d b "SQ-ATTEST-KEY" (keyStatement d b)
def execKeyAttest (j : Nat) (s : State) : Out3 := onDev s (service j (isCode 0xB003) keyAttestRun)

end Sys2Proof.Machine
end

