-- ==== Sys2Proof/Machine/Abandon.lean ====
section
/-!
DEFINITION. What every reset and VF reset does to the jobs, journal, queues and volatile keys of the owners it acts on
(01 R30, R31; 02 R84; 04 R148, R150; 13 R409-R411).
-/
namespace Sys2Proof.Machine

/-- Drop the jobs of some owners with no completion. An MRAM record write already begun finishes, when `finishWrites`
(13 R409 step 3; log 39). -/
def abandonJobs (d : Dev) (p : Nat → Bool) (finishWrites : Bool) : Dev :=
  let js := d.jobs.live.filter fun b => p b.owner
  let d1 := js.foldl (fun acc b =>
    let acc1 := if finishWrites && b.keep.isSome && !b.committed then mramCommitDoneGo b.id acc else acc
    dropJob (scrubJob acc1 b) b.id) d
  { d1 with jobs.done := d1.jobs.done.filter fun x => !p x.owner }

/-- A key whose open block is retired (04 R150). -/
def retireKey (x : SsKey) : SsKey :=
  if x.isOpen then { x with isOpen := false, next := x.blockEnd, retired := satInc x.retired, jrn := none } else x

/-- The open blocks of some owners' stateful keys are retired: the next reservation starts after the block, and the key's
entry goes to the record of the retired block (04 R148, R150). -/
def retireBlocks (d : Dev) (p : Nat → Bool) : Dev :=
  d.ss.keys.foldl (fun acc e =>
      match e.2 with
      | some x => if p (e.1 / 65536) then ssLowEvents acc x (retireKey x) (e.1 % 65536) else acc
      | none => acc)
    { d with ss.keys := mapAll none (fun k v => v.map fun x => if p (k / 65536) then retireKey x else x) d.ss.keys }

/-- Resolve the journal of some owners and give their stateful keys new entries (02 R84, 04 R148). -/
def resolveOwners (d : Dev) (p : Nat → Bool) (zeroised : Bool) : Dev :=
  let d1 := jrnResolve (retireBlocks d p) p zeroised
  (liveOwners d1).foldl (fun acc o => if p o then giveEntries acc o else acc) d1

/-- The queues of a function return to their reset values (01 R30, 13 R411). -/
def clearQueues (d : Dev) (o : Nat) : Dev :=
  { d with sqs := d.sqs.filter fun e => !holdsSq d o e.1, cqs := d.cqs.filter fun e => !holdsCq d o e.1 }

/-- Clear the pending bits of a function's vectors (13 R409 step 1). -/
def clearPba (d : Dev) (f : Nat) : Dev :=
  { d with hif.msix := mapAll {} (fun k v => if k / 2112 = f then { v with pend := false } else v) d.hif.msix }

/-- Requests of a function that have not been issued are withdrawn (13 R410). -/
def dropWaiting (d : Dev) (f : Nat) : Dev :=
  { d with hif.waiting := d.hif.waiting.filter (fun o => outFn o != some f), hif.rdWait := d.hif.rdWait.filter fun o => outFn o != some f }

/-- Steps 1 to 4 of a VF reset: its state, jobs, journal, queues, volatile objects and messages (13 R409-R411). The sealing key
of its streaming contexts changes (04 R132). -/
def vfResetStart (d : Dev) (o : Nat) (st : OwnState) : Dev :=
  let only (x : Nat) : Bool := x == o
  let d1 := resolveOwners (abandonJobs d only true) only false
  let d2 := destroyVolatile (clearQueues d1 o) only
  let d3 := dropWaiting (clearPba d2 o) o
  let d4 := modOwn d3 o fun w => { w with state := st, rrSq := 0, rstTb := d.glob.tb }
  abandonAt { d4 with ks.flr := mapMod 0 d4.ks.flr o (· + 1) } o

end Sys2Proof.Machine
end

