-- ==== Sys2Proof/Machine/TableCheck.lean ====
section
/-!
DEFINITION. The checks that every staged table passes before it is accepted (09 R304-R306, R316, R317). Where several checks
fail the lowest code is reported, at its first failing cell (log 35).
-/
namespace Sys2Proof.Machine

/-- The shares that a table must match: those of the owner being enabled or changed are the new ones (13 R402, R405). -/
def planShares (d : Dev) (o : Nat) : Shares :=
  if d.vfm.enabling = some o then d.vfm.stg
  else match d.vfm.apply with
    | some (x, n) => if x = o then n else (getOwn d o).sh
    | none => (getOwn d o).sh

/-- Whether a table may name an owner: the PF, a VF in service, or the VF being enabled. -/
def planOwner (d : Dev) (o : Nat) : Bool :=
  o == 0 || (getOwn d o).state == .active || (getOwn d o).state == .resetting || d.vfm.enabling == some o

/-- An owner's share of the kind of a cell: core, modular-engine, symmetric-unit or tree-mode tricks per round. -/
def kindShare (s : Shares) : EngKind → Nat
  | .py => s.py.toNat | .me => s.me.toNat | .sy => s.sy.toNat | .ts => s.tree.toNat | _ => 0

/-- A failing check: its code, trick and cell; trick 0x3F for header and partition failures, where the cell is the cluster's of a
CAP entry or the core of a partition (09 R322). -/
abbrev TblFault := Nat × Nat × Nat

/-- The first cell of the trick table that fails, trick by trick. -/
def firstCell (code : Nat) (bad : Nat → Nat → Bool) : Option TblFault :=
  (List.range 64).findSome? fun t => ((List.range 32).find? fun k => bad t k).map fun k => (code, t, k)

/-- The whole cluster of a core cell belongs to a cluster-capable owner. -/
def inCapCluster (tb : SMap Byte) (k : Nat) : Bool := decide (k < 16) && cellV (tblCap tb (k / 4))

/-- FORMAT. A cell of a symmetric unit that the fabric keeps must be 0 (18 R512). -/
def chkFormat (d : Dev) (tb : SMap Byte) : Option TblFault :=
  let header := leNat (memRead tb 0 4) != 0x42544C44 || tblU16 tb 6 != 0 || !allZero (memRead tb 0x10 48)
    || !allZero (memRead tb 0xC0 64)
  if header then some (1, 0x3F, 0)
  else match (List.range 4).find? fun n => decide (512 ≤ tblCap tb n) with
  | some n => some (1, 0x3F, 28 + n)
  | none => match (List.range 16).find? fun i => (List.range 4).any fun j => decide (1024 ≤ tblPart tb i j) with
    | some i => some (1, 0x3F, i)
    | none => firstCell 1 fun t k =>
        decide ((if k < 28 then 1024 else 2048) ≤ tblCell tb t k)
          || (decide (28 - syFabric d ≤ k) && decide (k < 28) && tblCell tb t k != 0)

/-- OWNER. -/
def chkOwner (d : Dev) (tb : SMap Byte) : Option TblFault :=
  let bad (c : Nat) (k : EngKind) : Bool :=
    cellV c && (!planOwner d (cellOwner c) || (k != .ts && kindShare (planShares d (cellOwner c)) k == 0))
  match (List.range 4).find? fun n => bad (tblCap tb n) .py with
  | some n => some (2, 0x3F, 28 + n)
  | none =>
    match (List.range 16).find? fun i => (List.range 4).any fun j => bad (tblPart tb i j) .py with
    | some i => some (2, 0x3F, i)
    | none => firstCell 2 fun t k => bad (tblCell tb t k) (cellKind k)

/-- Cells of a kind that a table gives an owner. -/
def cellCount (tb : SMap Byte) (k : EngKind) (o : Nat) : Nat :=
  ((List.range 64).map fun t => ((kindCells k).filter fun c => cellOwned (tblCell tb t c) == some o).length).sum

/-- SHARE: the first cell of an owner whose count of that kind is wrong; an owner without any has none (log 35). -/
def chkShare (d : Dev) (tb : SMap Byte) : Option TblFault :=
  let owners := (List.range 256).filter fun o => planOwner d o
  let wrong := [EngKind.py, .me, .sy, .ts].flatMap fun k => (owners.filter fun o => cellCount tb k o != kindShare (planShares d o) k).map fun o => (k, o)
  if wrong.isEmpty then none
  else (firstCell 3 fun t c => wrong.any fun w => cellKind c == w.1 && cellOwned (tblCell tb t c) == some w.2).orElse fun _ => some (3, 0x3F, 0)

/-- The owners that hold cells on an engine in the tricks up to one, ascending. -/
def engOwnersTo (tb : SMap Byte) (k n : Nat) : List Nat :=
  let os := (List.range n).filterMap fun t => cellOwned (tblCell tb t k)
  (List.range 256).filter os.contains
/-- The owners that hold cells on an engine, ascending. -/
def engOwners (tb : SMap Byte) (k : Nat) : List Nat := engOwnersTo tb k 64

/-- OWNERS: the first cell at which an engine has a fifth owner. -/
def chkOwners (tb : SMap Byte) : Option TblFault :=
  if (List.range 32).any fun k => decide (4 < (engOwners tb k).length) then
    firstCell 4 fun t k => decide (4 < (engOwnersTo tb k (t + 1)).length)
  else none

/-- PART. -/
def chkPart (d : Dev) (tb : SMap Byte) : Option TblFault :=
  ((List.range 16).find? fun i =>
    let parts := (List.range 4).map fun j => tblPart tb i j
    (engOwners tb i).any fun o =>
      let own := parts.filter fun c => cellOwned c == some o
      let lane := (planShares d o).trump && (List.range 64).any fun t => cellReserved (tblCell tb t i) o
      own.isEmpty || (lane && !own.any cellR)).map fun i => (5, 0x3F, i)

/-- TREE. -/
def chkTree (d : Dev) (tb : SMap Byte) : Option TblFault :=
  firstCell 6 fun t k =>
    let c := tblCell tb t k
    if k < 16 then cellTree (tblCell tb t (28 + k / 4)) && cellV c
    else if 28 ≤ k then
      (if cellTree c then !cellV c || (planShares d (cellOwner c)).tree == 0 else c != 0)
    else false

/-- CAP. -/
def chkCap (d : Dev) (tb : SMap Byte) : Option TblFault :=
  (List.range 4).findSome? fun n =>
    let cap := tblCap tb n
    if !cellV cap then none
    else
      let o := cellOwner cap
      if !(planShares d o).cap then some (7, 0x3F, 28 + n)
      else match (List.range 4).find? fun i => (List.range 4).any fun j =>
          let c := tblPart tb (4 * n + i) j; cellOwned c != some o || cellR c with
        | some i => some (7, 0x3F, 4 * n + i)
        | none => firstCell 7 fun t k =>
            (decide (k / 4 = n) && decide (k < 16) && cellOwned (tblCell tb t k) != some o)
              || (k == 28 + n && cellTree (tblCell tb t k))

/-- LANE. -/
def chkLane (d : Dev) (tb : SMap Byte) : Option TblFault :=
  let wrong := firstCell 8 fun t k =>
    let c := tblCell tb t k
    cellV c && (if inCapCluster tb k then cellR c else cellR c != (planShares d (cellOwner c)).trump)
  match wrong with
  | some f => some f
  | none =>
    let trumps := (List.range 256).filter fun o => planOwner d o && (planShares d o).trump
    trumps.findSome? fun o => [EngKind.py, .me, .sy].findSome? fun k =>
      let used := kindShare (planShares d o) k - (if k = .py && (planShares d o).cap then 256 else 0)
      if used = 0 then none
      else ((List.range 64).find? fun t => !(kindCells k).any fun c => cellReserved (tblCell tb t c) o && !inCapCluster tb c).map
        fun t => (8, t, (kindCells k).headD 0)

/-- The check of a staged table: none when every check passes. -/
def checkTable (d : Dev) (tb : SMap Byte) : Option TblFault :=
  List.findSome? id [chkFormat d tb, chkOwner d tb, chkShare d tb, chkOwners tb, chkPart d tb, chkTree d tb, chkCap d tb, chkLane d tb]

end Sys2Proof.Machine
end

