-- ==== Sys2Proof/Machine/Planner.lean ====
section
/-!
DEFINITION. The deal planner (09 R316). Where the rule leaves a choice, ties go to the lower owner and the lower engine (log 36).
-/
namespace Sys2Proof.Machine

/-- A plan being built: the cell values by 64 × engine + trick, and the CAP owners. -/
structure Plan where
  cells : SMap Nat := []
  caps  : SMap (Option Nat) := []

/-- The key of a cell. -/
def planKey (k t : Nat) : Nat := 64 * k + t
/-- Write a cell. -/
def planPut (p : Plan) (k t v : Nat) : Plan := { p with cells := mapSet 0 p.cells (planKey k t) v }
/-- A cell's value. -/
def planAt (p : Plan) (k t : Nat) : Nat := mapGet 0 p.cells (planKey k t)
/-- Whether an engine may be planned on: it is not retired, nor a symmetric unit of the fabric (16 R469, 18 R512). -/
def planServes (d : Dev) (k : Nat) : Bool :=
  (getEng d k).svc != .retired && !(decide (28 - syFabric d ≤ k) && decide (k < 28))

/-- Whether a cluster is in tree mode in a trick of the plan. -/
def planTree (p : Plan) (n t : Nat) : Bool := cellTree (planAt p (28 + n) t)

/-- Whether a cell can still be given: for a cluster, its tree trick, which needs its four core cells. -/
def planFree (p : Plan) (k t : Nat) : Bool :=
  if 28 ≤ k then
    planAt p k t == 0 && (mapGet none p.caps (k - 28)).isNone && (List.range 4).all fun i => planAt p (4 * (k - 28) + i) t == 0
  else planAt p k t == 0 && (decide (16 ≤ k) || !planTree p (k / 4) t)

/-- The free tricks of an engine. -/
def freeTricks (p : Plan) (k : Nat) : List Nat := (List.range 64).filter fun t => planFree p k t

/-- The owners on an engine of the plan. -/
def planOwners (p : Plan) (k : Nat) : List Nat :=
  ((List.range 64).filterMap fun t => cellOwned (planAt p k t)).eraseDups
/-- Whether an engine takes cells of an owner: one with four owners is closed to new owners. -/
def planTakes (d : Dev) (p : Plan) (o k : Nat) : Bool :=
  planServes d k && ((planOwners p k).contains o || decide ((planOwners p k).length < 4))

/-- The value of an owner's cell on an engine. -/
def planValue (trump : Bool) (o k : Nat) : Nat :=
  o + 256 + (if trump then 512 else 0) + (if 28 ≤ k then 1024 else 0)

/-- Give tricks of an engine to an owner. -/
def giveTricks (p : Plan) (trump : Bool) (o k : Nat) (ts : List Nat) : Plan :=
  ts.foldl (fun p t => planPut p k t (planValue trump o k)) p

/-- The start of the first run of `n` free tricks, if any. -/
def runOf (free : List Nat) (n : Nat) : Option Nat :=
  free.find? fun t => (List.range n).all fun i => free.contains (t + i)

/-- The engine of a list with the fewest free tricks, among those that satisfy `ok`. -/
def fewest (p : Plan) (ok : Nat → Bool) (ks : List Nat) : Option Nat :=
  (ks.filter ok).foldl (fun best k =>
    match best with
    | none => some k
    | some b => if (freeTricks p k).length < (freeTricks p b).length then some k else some b) none

/-- Place `n` cells of an owner: as one run on the engine with the fewest free tricks that takes it whole, else fill the
fullest engine and carry the rest. -/
def placeRuns (d : Dev) (trump : Bool) (o : Nat) (ks : List Nat) : Nat → Nat → Plan → Option Plan
  | _, 0, p => some p
  | 0, _ + 1, _ => none
  | f + 1, n + 1, p =>
    match fewest p (fun k => planTakes d p o k && (runOf (freeTricks p k) (n + 1)).isSome) ks with
    | some k => (runOf (freeTricks p k) (n + 1)).map fun t => giveTricks p trump o k ((List.range (n + 1)).map (t + ·))
    | none =>
      match fewest p (fun k => planTakes d p o k && !(freeTricks p k).isEmpty) ks with
      | none => none
      | some k =>
        let ts := (freeTricks p k).take (n + 1)
        placeRuns d trump o ks f (n + 1 - ts.length) (giveTricks p trump o k ts)

/-- Place a lane: from the lowest engine that is wholly free, fill engine after engine. -/
def placeLane (d : Dev) (o : Nat) (ks : List Nat) (n : Nat) (p : Plan) : Option Plan :=
  if n = 0 then some p
  else
    match ks.find? fun k => planTakes d p o k && (freeTricks p k).length == 64 with
    | none => none
    | some k0 =>
      let r := (ks.filter (k0 ≤ ·)).foldl (fun (acc : Plan × Nat) k =>
        if acc.2 = 0 || !planTakes d acc.1 o k then acc
        else
          let ts := (freeTricks acc.1 k).take acc.2
          (giveTricks acc.1 true o k ts, acc.2 - ts.length)) (p, n)
      if r.2 = 0 then some r.1 else none

/-- Owners by descending share, ties in ascending order. -/
def byShare (f : Nat → Nat) (os : List Nat) : List Nat := (os.filter fun o => 0 < f o).mergeSort fun a b => f b ≤ f a

/-- The lowest cluster that is wholly free and in service. -/
def freeCluster (d : Dev) (p : Plan) : Option Nat :=
  (List.range 4).find? fun n => (List.range 4).all fun i => planServes d (4 * n + i) && (freeTricks p (4 * n + i)).length == 64

/-- The partition cells of a core: each of its owners has one, a trump owner's first one is kept for its trump jobs and a
second one is not where there is room, and what is left goes to the first owner; a cluster-capable owner has all four. -/
def planParts (p : Plan) (trump : Nat → Bool) (i : Nat) : List Nat :=
  match mapGet none p.caps (i / 4) with
  | some o => List.replicate 4 (o + 256)
  | none =>
    let os := (planOwners p i).mergeSort (· ≤ ·)
    let lane (o : Nat) : Bool := trump o && (List.range 64).any fun t => cellReserved (planAt p i t) o
    let seconds := (os.filter lane).take (4 - os.length)
    let spare := 4 - os.length - seconds.length
    (os.zipIdx.map fun (o, n) =>
      let open' := (if seconds.contains o || !lane o then 1 else 0) + (if n = 0 then spare else 0)
      List.replicate open' (o + 256) ++ (if lane o then [o + 768] else [])).flatten

/-- Write a plan as a table image. -/
def planImage (d : Dev) (p : Plan) (trump : Nat → Bool) : SMap Byte :=
  let id := BitVec.ofNat 16 (Config.count .planId [leBytes 2 (tblU16 d.dlr.act 4)])
  let head := memWrite [] 0 ([0x44, 0x4C, 0x54, 0x42] ++ le16 id)
  let caps := p.caps.foldl (fun m e => match e.2 with | some o => memWrite m (8 + 2 * e.1) (leBytes 2 (o + 256)) | none => m) head
  let parts := (List.range 16).foldl (fun m i =>
    (planParts p trump i).zipIdx.foldl (fun m x => memWrite m (0x40 + 8 * i + 2 * x.2) (leBytes 2 x.1)) m) caps
  p.cells.foldl (fun m e => memWrite m (0x100 + 64 * (e.1 % 64) + 2 * (e.1 / 64)) (leBytes 2 e.2)) parts

/-- The planner: a table image, or the stage that found no placement. -/
def planTable (d : Dev) : Except Nat (SMap Byte) :=
  let os := (List.range 256).filter fun o => planOwner d o
  let sh := planShares d
  let cap := os.filter fun o => (sh o).cap
  let trump (o : Nat) : Bool := (sh o).trump
  let want (k : EngKind) (o : Nat) : Nat := kindShare (sh o) k - (if k = .py && (sh o).cap then 256 else 0)
  let caps : Option Plan := cap.foldl (fun acc o =>
    match acc with
    | none => none
    | some p => (freeCluster d p).map fun n =>
        (List.range 4).foldl (fun p i => giveTricks p false o (4 * n + i) (List.range 64))
          { p with caps := mapSet none p.caps n (some o) }) (some {})
  match caps with
  | none => .error 1
  | some p1 =>
    let trees := (byShare (want .ts) os).foldl (fun acc o =>
      match acc with | none => none | some p => placeRuns d (trump o) o (kindCells .ts) 5 (want .ts o) p) (some p1)
    match trees with
    | none => .error 2
    | some p2 =>
      let lanes := [EngKind.py, .me, .sy].foldl (fun acc k => (os.filter trump).foldl (fun acc o =>
        match acc with | none => none | some p => placeLane d o (kindCells k) (want k o) p) acc) (some p2)
      match lanes with
      | none => .error 3
      | some p3 =>
        let rest := [EngKind.py, .me, .sy].foldl (fun acc k => (byShare (want k) (os.filter fun o => !trump o)).foldl (fun acc o =>
          match acc with | none => none | some p => placeRuns d false o (kindCells k) 17 (want k o) p) acc) (some p3)
        match rest with
        | none => .error 4
        | some p4 => .ok (planImage d p4 trump)

end Sys2Proof.Machine
end

