-- ==== Sys2Proof/Machine/Dealer.lean ====
section
/-!
DEFINITION. The Dealer's rounds: decision points, trick and round boundaries, turnover, table commits and duty limiting
(09 R303, R309-R322; 13 R402-R407).
-/
namespace Sys2Proof.Machine

/-! ## Occupants (09 R310, R312, R319) -/

/-- Whether an owner has a strict queue enabled. -/
def strictOwner (d : Dev) (o : Nat) : Bool := d.sqs.any fun e => e.2.en && e.2.mode == 0 && holdsSq d o e.1

/-- Whether a job runs on, is saved on or waits for an engine. -/
def jobWants (d : Dev) (b : Job) (c : Nat) : Bool :=
  match b.phase with
  | .placed | .ending | .saved | .stranded => (if b.cluster then jobCells b else ctxCells b).contains c
  | .waiting => jobKind d b == cellKind c || jobKind2 d b == cellKind c
  | .unwrapping => false

/-- Whether an owner has work for an engine; of its sharing queues alone when asked so. -/
def ownerWork (d : Dev) (o c : Nat) (sharing : Bool) : Bool :=
  d.jobs.live.any fun b => b.owner == o && jobWants d b c && (!sharing || isSharing b)

/-- The occupant of a cell in trick `t` of a table, and whether it took the cell by re-offer. -/
def occupant (d : Dev) (tb : SMap Byte) (t c : Nat) : Option Nat × Bool :=
  let cell := tblCell tb t c
  let idle := ((t + c) % 8 < d.dlr.level.toNat && !cellR cell)
    || (c < 16 && cellTree (tblCell tb t (28 + c / 4))) || (28 ≤ c && !cellTree cell)
  if idle then (none, false)
  else
    let unused := match cellOwned cell with
      | none => true
      | some o => !strictOwner d o && !ownerWork d o c false
    if !unused then (cellOwned cell, false)
    else
      let os := engOwners tb c
      let g := d.dlr.guest.toList.getD c 0
      match (os.filter (g < ·) ++ os.filter (· ≤ g)).find? fun o => ownerWork d o c true with
      | some o => (some o, true)
      | none => (cellOwned cell, false)

/-- Fix the occupants of a trick: the occupants taken by re-offer are counted and remembered as guests. -/
def decide32 (d : Dev) (tb : SMap Byte) (t : Nat) : Dev :=
  let occ := (Vector.range 32).map fun c => occupant d tb t c
  let taken := occ.toList.filter (·.2)
  { d with dlr.occNext := occ.map (·.1)
           dlr.guest := (Vector.range 32).map fun c =>
             match occ.toList.getD c (none, false) with | (some o, true) => o | _ => d.dlr.guest.toList.getD c 0
           dlr.reoffer := d.dlr.reoffer + BitVec.ofNat 64 taken.length }

/-- The decision point of the coming trick (09 R303): occupants are fixed and the turnover window opens. -/
def decisionPointGo (d : Dev) : Dev :=
  if !isReady d || d.dlr.window then d
  else
    let d1 := decide32 d (nextTable d) (nextTrick d)
    { d1 with dlr.window := true }
def execDecisionPoint (s : State) : Out3 := onDev s decisionPointGo

/-! ## Duty limiting (09 R319) -/

/-- A Tj word as a number of eighths of a degree. -/
def tjInt (w : U16) : Int := w.toInt
/-- The hottest sensor (20 R571). -/
def hotTj (d : Dev) : Int := d.tmon.tj.toList.foldl (fun m w => max m (tjInt w)) (tjInt (d.tmon.tj.toList.headD 0))

/-- Change the duty level, with its event and Amber entry. -/
def dutySet (d : Dev) (n : BitVec 3) : Dev :=
  if d.dlr.level = n then d
  else
    let old := d.dlr.level
    dutyCause (amber { d with dlr.level := n } .duty .dealer
      ([old.setWidth 8, n.setWidth 8] ++ leBytes 2 (BitVec.ofInt 16 (hotTj d)).toNat))

/-- The duty level at a round boundary. -/
def dutyRound (d : Dev) : Dev :=
  let hot := decide (8 * (d.dlr.dutyOn.toNat : Int) ≤ hotTj d)
  let d1 :=
    if hot then (if d.dlr.level < d.dlr.dutyMax then dutySet d (d.dlr.level + 1) else d)
    else if d.dlr.fallPend && d.dlr.level != 0 then dutySet d (d.dlr.level - 1) else d
  { d1 with dlr.fallPend := false }

/-- Tj has stayed at or below OFF for 100 ms: the level falls by 1 at the next round boundary, and the count starts again. -/
def dutyCoolTimerGo (d : Dev) : Dev :=
  match d.tmon.coolTb with
  | some t0 =>
    if isReady d && d.dlr.level != 0 && decide (100000000 ≤ (d.glob.tb - t0).toNat) then
      { d with dlr.fallPend := true, tmon.coolTb := some d.glob.tb }
    else d
  | none => d
def execDutyCoolTimer (s : State) : Out3 := onDev s dutyCoolTimerGo

/-! ## Tables taking effect (09 R318; 13 R405, R407) -/

/-- Whether the active table gives an owner cells on an engine. -/
def holdsCells (d : Dev) (o c : Nat) : Bool := (List.range 64).any fun t => cellOwned (tblCell d.dlr.act t c) == some o

/-- Saved jobs whose owner has lost its cells on their engine are stranded, and stranded ones that have cells again are saved
ones (13 R407). -/
def restrand (d : Dev) : Dev :=
  d.jobs.live.foldl (fun acc b =>
    let has := (ctxCells b).all fun c => decide (32 ≤ c) || holdsCells acc b.owner c
    if b.phase = .saved && !has then vfEvent (modJob acc b.id fun x => { x with phase := .stranded }) b.owner false true
    else if b.phase = .stranded && has then modJob acc b.id fun x => { x with phase := .saved }
    else acc) d

/-- The end of a VF manager's command: RESULT, BUSY clear and DONE with other event bits (13 R404, R416). A member answers the
lead (18 R519). -/
def vfmEnd (d : Dev) (result : Byte) (bits : BitVec 3) (o : Nat) : Dev :=
  let d1 := vfmCause { d with vfm.result := result, vfm.busy := false } (1 ||| bits) o
  if isMember d then sendFrame d1 0 .config [0x80 ||| d.vfm.op.setWidth 8, BitVec.ofNat 8 o, result] else d1

/-- A pending table takes effect: the banks change roles, and the shares that were waiting for it are in force. -/
def takeTable (d : Dev) : Dev :=
  let g := d.dlr
  let d1 := { d with dlr.act := g.stg, dlr.stg := g.act, dlr.bank := !g.bank, dlr.pending := false, dlr.planFor := none }
  let d2 := if g.src then
      { (d.vfm.credLater.foldl (fun acc e => modOwn acc e.1 fun w => { w with sh.credit := e.2 }) d1) with vfm.credLater := [] }
    else d1
  let d3 := match d2.vfm.apply with
    | some (o, n) =>
      if g.planFor.isSome then d2
      else
        let d' := modOwn { d2 with vfm.apply := none } o fun w => if o ≠ 0 && w.state = .disabled then w else { w with sh := n }
        vfmEnd (vfEvent d' o true false) 0 2 o
    | none => d2
  restrand d3

/-! ## Boundaries (09 R303, R309, R315) -/

/-- The round boundary's effects. -/
def roundGo (d : Dev) : Dev :=
  let d1 := if d.dlr.pending && !d.dlr.late then takeTable d else d
  let d2 := { d1 with dlr.late := false, dlr.round := d1.dlr.round + 1 }
  let d3 := if d.dlr.level = 0 then d2
    else recLife { d2 with dlr.dutyRounds := satInc d2.dlr.dutyRounds } fun p b r z f du => .life p b r z f (du + 1)
  dutyRound d3

/-- Whether a job is placed but not running: saved, or in a wait of its routine, for input, the output list or MRAM (07 R236). -/
def waitsNow (d : Dev) (b : Job) : Bool :=
  b.phase == .saved || b.phase == .stranded
    || (b.phase == .placed && (!(mapGet {} d.io b.id).wait.isEmpty || (opClass b.e.opcode != 0xD
          && (b.inData.length != b.e.inLen.toNat || b.auxData.length != b.e.auxLen.toNat || listDue b || (b.keep.isSome && !b.committed)))))

/-- The deadline checks at a trick boundary of the jobs that are placed and not running (02 R60, 07 R236, 09 R315). -/
def boundaryDeadlines (d : Dev) : Dev :=
  d.jobs.live.foldl (fun acc b => if waitsNow d b && late acc b.e then failJob acc b stDeadline 0 else acc) d

/-- Whether a placed job may go on in the trick that begins. -/
def mayStay (d : Dev) (b : Job) : Bool :=
  (if b.cluster then jobCells b else ctxCells b).all fun c =>
    decide (32 ≤ c) || mayRun b (tblCell d.dlr.act d.dlr.trick.toNat c) (occNow d c)

/-- A job that may not run in the trick that begins has been stopped in the window: one whose routine reached no yield point there has
run past the yield distance, unless its sequencer is halted (09 R302, R309; log 162). -/
def turnOut (d : Dev) (b : Job) : Dev :=
  if atYield d b || b.abort.isSome || (ctxCells b).any (cellHalted d) then stopJob d false b else failJob d b stYieldTimeout 0

/-- Turnover: the jobs that may not run in the trick that begins have stopped, and held contexts have moved to their park slots (09
R309). Each engine that stopped one counts. -/
def turnover (d : Dev) : Dev :=
  let stop := d.jobs.live.filter fun b => b.phase == .placed && !mayStay d b
  let engines := ((stop.map ctxCells).flatten.filter (· < 32)).length
  let d1 := stop.foldl turnOut { d with dlr.turn := d.dlr.turn + BitVec.ofNat 64 engines }
  (List.range 32).foldl moveHeld d1

/-- A trick boundary: a new trick begins with the occupants fixed at its decision point. -/
def trickGo (d : Dev) : Dev :=
  let d1 := if d.dlr.trick = 63 then roundGo d else d
  let d2 := { d1 with dlr.trick := d1.dlr.trick + 1, dlr.occ := d1.dlr.occNext, dlr.window := false }
  boundaryDeadlines (turnover d2)

/-- TRICK_BOUNDARY: it falls after its decision point. -/
def trickBoundaryGo (d : Dev) : Dev := if !isReady d || !d.dlr.window then d else trickGo d
def execTrickBoundary (s : State) : Out3 := onDev s trickBoundaryGo

/-- ROUND_BOUNDARY: the trick boundary after trick 63. -/
def roundBoundaryGo (d : Dev) : Dev := if !isReady d || !d.dlr.window || d.dlr.trick != 63 then d else trickGo d
def execRoundBoundary (s : State) : Out3 := onDev s roundBoundaryGo

/-! ## Commits (09 R316, R317, R322) -/

/-- Start the check of the staged table. A staged table that is pending or being checked is not committed again. -/
def commitTable (d : Dev) : Dev :=
  if d.dlr.pending || d.dlr.chkBusy then d else { d with dlr.chkBusy := true }

/-- The planner: it stages and commits, or reports the stage at which it failed and ends the command that asked for it. -/
def plan (d : Dev) : Dev :=
  if d.dlr.src || d.dlr.pending || d.dlr.chkBusy then d
  else
    match planTable d with
    | .ok t => commitTable { d with dlr.stg := t }
    | .error n =>
      let d1 := { d with dlr.chkCode := 9, dlr.chkStage := BitVec.ofNat 3 n, dlr.chkTrick := 0x3F, dlr.chkCell := 0 }
      match d1.vfm.enabling with
      | some o => vfmEnd { d1 with vfm.enabling := none } 5 0 o
      | none =>
        match d1.vfm.apply with
        | some (o, _) => vfmEnd { d1 with vfm.apply := none } 5 0 o
        | none => d1

/-- DEAL_PLAN: the planner acts after a share change or a retirement. -/
def dealPlanGo (d : Dev) : Dev := if isReady d then plan d else d
def execDealPlan (s : State) : Out3 := onDev s dealPlanGo

/-- `DLR_CTL.COMMIT`. -/
def dlrCommitGo (d : Dev) : Dev := if isReady d && barOk d 0 then commitTable d else d
def execDlrCommit (s : State) : Out3 := onDev s dlrCommitGo

/-- `DLR_CTL.DISCARD` drops a pending table: the VF whose ENABLE it served has no tricks, or the APPLY that it served ends with
PLAN (13 R402, R405). -/
def dlrDiscardGo (d : Dev) : Dev :=
  if !isReady d || !barOk d 0 || !d.dlr.pending then d
  else
    let d1 := { d with dlr.pending := false, dlr.late := false, dlr.planFor := none }
    match d.dlr.planFor with
    | some o => modOwn d1 o fun w => { w with sh := { w.sh with py := 0, me := 0, sy := 0, tree := 0 } }
    | none =>
      match d.vfm.apply with
      | some (o, _) => vfmEnd { d1 with vfm.apply := none } 5 0 o
      | none => d1
def execDlrDiscard (s : State) : Out3 := onDev s dlrDiscardGo

end Sys2Proof.Machine
end

