-- ==== Sys2Proof/Machine/Vfm.lean ====
section
/-!
DEFINITION. The VF manager: the kitty, ENABLE, APPLY and REMOVE, and VF resets (13 R399-R413, R415; 18 R519).
-/
namespace Sys2Proof.Machine

/-! ## The kitty (13 R399, R403) -/

/-- Whether an owner holds its shares: the PF, and every VF that is not DISABLED. -/
def inService (d : Dev) (o : Nat) : Bool := o == 0 || (getOwn d o).state != .disabled

/-- Granules of an owner's persistent keys. -/
def persistGran (d : Dev) (o : Nat) : Nat :=
  ((ownSlots d o).map fun s => match s.2.obj with | some k => if k.persist then k.gran else 0 | none => 0).sum
/-- Persistent keys of an owner. -/
def persistCount (d : Dev) (o : Nat) : Nat :=
  ((ownSlots d o).filter fun s => match s.2.obj with | some k => k.persist | none => false).length
/-- Stateful keys of an owner. -/
def statefulCount (d : Dev) (o : Nat) : Nat := (d.ss.keys.filter fun e => e.1 / 65536 == o).length

/-- What the owners other than `but` take of a resource: their shares, or what a DISABLED VF still holds. -/
def takenBy (d : Dev) (but : Option Nat) (share held : Nat → Nat) : Nat :=
  (allOwners.map fun o => if but = some o then 0 else if inService d o then share o else held o).sum

/-- The free amounts of the kitty: SQ, CQ, credits, vectors, granules, persistent keys, stateful keys, journal entries and the
tricks of each kind, leaving one owner out of the count. -/
def freeKitty (d : Dev) (but : Option Nat) : List Nat :=
  let sh (o : Nat) : Shares := (getOwn d o).sh
  let none' (_ : Nat) : Nat := 0
  let credit (o : Nat) : Nat := max (sh o).credit.toNat (((d.vfm.credLater.find? fun e => e.1 == o).map (·.2.toNat)).getD 0)
  [4096 - takenBy d but (fun o => (sh o).sq.toNat) none', 2048 - takenBy d but (fun o => (sh o).cq.toNat) none',
   4096 - takenBy d but credit none', 2048 - takenBy d but (fun o => if o = 0 then 0 else (sh o).vec.toNat) none',
   16384 - d.ks.withdrawn - takenBy d but (fun o => (sh o).gran.toNat) (persistGran d), 256 - takenBy d but (fun o => (sh o).pkey.toNat) (persistCount d),
   4096 - takenBy d but (fun o => (sh o).sskey.toNat) (statefulCount d),
   4096 - takenBy d but (fun o => (sh o).jrn.toNat) (fun o => (jrnHeld d o).length),
   1024 - takenBy d but (fun o => (sh o).py.toNat) none', 512 - takenBy d but (fun o => (sh o).me.toNat) none',
   (256 - 64 * syFabric d) - takenBy d but (fun o => (sh o).sy.toNat) none', 256 - takenBy d but (fun o => (sh o).tree.toNat) none']

/-- What staged shares ask for, in the same order. -/
def askKitty (o : Nat) (s : Shares) : List Nat :=
  [s.sq.toNat, s.cq.toNat, s.credit.toNat, if o = 0 then 0 else s.vec.toNat, s.gran.toNat, s.pkey.toNat, s.sskey.toNat, s.jrn.toNat,
   s.py.toNat, s.me.toNat, s.sy.toNat, s.tree.toNat]

/-- Whether the kitty has what an owner asks for. -/
def poolOk (d : Dev) (o : Nat) (s : Shares) : Bool :=
  (List.zip (askKitty o s) (freeKitty d (some o))).all fun x => decide (x.1 ≤ x.2)

/-- The ranges and minima of 13 R399; vector shares are 0 on a member (18 R519). -/
def rangeOk (o : Nat) (s : Shares) (mem : Bool := false) : Bool :=
  let q := if o = 0 then 4096 else 64
  let c := if o = 0 then 2048 else 64
  let lane (n : Nat) : Bool := n == 0 || decide (64 ≤ n)
  decide (s.sq.toNat ≤ q) && decide (s.cq.toNat ≤ c)
    && (if o = 0 || mem then s.vec == 0 else decide (1 ≤ s.vec.toNat) && decide (s.vec.toNat ≤ 64))
    && decide (1 ≤ s.credit.toNat) && decide (s.credit.toNat ≤ 4096) && decide (s.gran.toNat ≤ 16384)
    && decide (s.pkey.toNat ≤ 256) && decide (s.sskey.toNat ≤ 4096) && decide (s.jrn.toNat ≤ 4096)
    && decide (s.sskey.toNat ≤ s.jrn.toNat) && decide (s.py.toNat ≤ 1024) && decide (s.me.toNat ≤ 512)
    && decide (s.sy.toNat ≤ 256) && decide (s.tree.toNat ≤ 256)
    && (!s.trump || (lane s.py.toNat && lane s.me.toNat && lane s.sy.toNat))
    && (!s.cap || decide (256 ≤ s.py.toNat)) && (!(s.cap && s.trump) || decide (320 ≤ s.py.toNat))

/-- Whether the staged shares cover what a VF already holds (13 R403). -/
def holdsOk (d : Dev) (o : Nat) (s : Shares) : Bool :=
  decide (persistCount d o ≤ s.pkey.toNat) && decide (statefulCount d o ≤ s.sskey.toNat)
    && decide (statefulCount d o + ((jrnHeld d o).filter fun k => jResolved (getJ d k)).length ≤ s.jrn.toNat)
    && decide (persistGran d o ≤ s.gran.toNat)

/-- First fit of a range of `n` numbers below `top`, among ranges (base, length) in use (13 R401). -/
def firstFit (used : List (Nat × Nat)) (top n : Nat) : Option Nat :=
  let clear (b : Nat) : Bool := decide (b + n ≤ top) && used.all fun u => u.2 == 0 || decide (b + n ≤ u.1) || decide (u.1 + u.2 ≤ b)
  ((0 :: used.map fun u => u.1 + u.2).filter clear).foldl (fun best b =>
    match best with | none => some b | some x => some (min x b)) none

/-- Where a VF's queues would go: the first device SQ and CQ. -/
def allocQueues (d : Dev) (o : Nat) (s : Shares) : Option (Nat × Nat) :=
  let os := allOwners.filter fun x => x != o && inService d x
  let sqs := os.map fun x => ((getOwn d x).sqBase, (getOwn d x).sh.sq.toNat)
  let cqs := os.map fun x => ((getOwn d x).cqBase, (getOwn d x).sh.cq.toNat)
  match firstFit sqs 4096 s.sq.toNat, firstFit cqs 2048 s.cq.toNat with
  | some a, some b => some (a, b)
  | _, _ => none

/-! ## The staging window (13 R415) -/

/-- Whether an owner exists: the PF, or a VF within NumVFs while VF Enable is set. A member takes the lead's word. -/
def ownerThere (d : Dev) (o : Nat) : Bool := o == 0 || isMember d || (d.hif.vfEn && decide (o ≤ d.hif.numVfs.toNat))

/-- The member that the VF manager's commands act on: none for this device itself (18 R519). -/
def vfmNode (d : Dev) : Option Nat := if d.fab.role = .lead && d.fab.nodesel != 0 then some d.fab.nodesel.toNat else none

/-- The values in force for an owner, on the node selected. -/
def sharesOf (d : Dev) (o : Nat) : Shares :=
  match vfmNode d with
  | some n => mapGet {} (getNode d n).shares o
  | none => (getOwn d o).sh

/-- VFM_SEL_WRITE: the window loads the owner's values in force, wherever PF BAR0 is served. -/
def vfmSelGo (o : Nat) (d : Dev) : Dev :=
  if !ctlServed d || d.vfm.busy then d
  else { d with vfm.sel := BitVec.ofNat 8 o, vfm.stg := sharesOf d (o % 256) }
def execVfmSelWrite (o : Nat) (s : State) : Out3 := onDev s (vfmSelGo o)

/-! ## Results of a member (18 R519) -/

/-- The payload of a CONFIG frame that carries a command: operation, owner, PURGE, shares. -/
def cfgBody (op o : Nat) (purge : Bool) (s : Shares) : Bytes :=
  [BitVec.ofNat 8 op, BitVec.ofNat 8 o, if purge then 1 else 0, 0] ++ leBytes 2 s.credit.toNat ++ leBytes 2 s.gran.toNat
    ++ leBytes 2 s.pkey.toNat ++ leBytes 2 s.sskey.toNat ++ leBytes 2 s.jrn.toNat ++ leBytes 2 s.py.toNat ++ leBytes 2 s.me.toNat
    ++ leBytes 2 s.sy.toNat ++ leBytes 2 s.tree.toNat ++ le16 s.cls ++ [(if s.trump then 1 else 0) ||| (if s.cap then 2 else 0), 0]

/-- A command on a member's kitty: the lead sends it in a CONFIG frame and waits, with BUSY, for the member's answer. The
refusals that the lead can see come first: RANGE for queue and vector shares, STATE for a VF not ACTIVE on the lead. -/
def vfmRemote (d : Dev) (n o op : Nat) (purge : Bool) : Dev :=
  let s := d.vfm.stg
  if (getNode d n).state != .member || !ownerThere d o then vfmEnd d 3 0 o
  else if op ≠ 3 && (s.sq != 0 || s.cq != 0 || s.vec != 0) then vfmEnd d 2 0 o
  else if op = 1 && (o = 0 || (getOwn d o).state != .active) then vfmEnd d 3 0 o
  else
    sendFrame { d with vfm.busy := true } n .config (cfgBody op o purge s)

/-! ## ENABLE (13 R402, R403) -/

/-- A VF enters service with the staged shares: it is ACTIVE with clear queues, and its persistent keys are split into fresh
shares. -/
def vfActivate (d : Dev) (o : Nat) (s : Shares) : Dev :=
  let (a, b) := (allocQueues d o s).getD (0, 0)
  let d1 := modOwn { d with vfm.enabling := none } o fun w => { w with state := .active, sh := s, sqBase := a, cqBase := b }
  let d2 := (ownSlots d1 o).foldl (fun acc e =>
    match e.2.obj with
    | some k =>
      if k.persist && !k.broken then
        let (x, y, acc1) := splitSecret acc (secretOf k)
        setSlot acc1 o e.1 { getSlot acc1 o e.1 with obj := some { k with shareA := x, shareB := y } }
      else acc
    | none => acc) d1
  vfmEnd (giveEntries d2 o) 0 0 o

/-- The first check that fails, in the order of R402. -/
def enableFault (d : Dev) (o : Nat) (s : Shares) : Option Byte :=
  if o = 0 || !ownerThere d o || (getOwn d o).state != .disabled then some 3
  else if !rangeOk o s (isMember d) then some 2
  else if !holdsOk d o s then some 7
  else if !poolOk d o s then some 1
  else if (allocQueues d o s).isNone then some 4
  else none

/-- `VFM_CMD` ENABLE. -/
def vfmEnable (d : Dev) (o : Nat) : Dev :=
  match enableFault d o d.vfm.stg with
  | some r => vfmEnd d r 0 o
  | none =>
    if d.dlr.src then vfActivate { d with vfm.busy := true } o d.vfm.stg
    else plan { d with vfm.busy := true, vfm.enabling := some o }

/-! ## APPLY (13 R405) -/

/-- Whether shares differ in a field that changes only while DISABLED. -/
def fixedDiffer (a b : Shares) : Bool :=
  a.sq != b.sq || a.cq != b.cq || a.vec != b.vec || a.gran != b.gran || a.pkey != b.pkey || a.sskey != b.sskey || a.jrn != b.jrn
    || a.cls != b.cls || a.trump != b.trump || a.cap != b.cap

/-- The first check that fails: STATE, RANGE, POOL (DEDUCED from the order of R402). -/
def applyFault (d : Dev) (o : Nat) (s : Shares) : Option Byte :=
  if !ownerThere d o || (o ≠ 0 && (getOwn d o).state != .active) || fixedDiffer s (getOwn d o).sh then some 3
  else if !rangeOk o s (isMember d) then some 2
  else if !poolOk d o s then some 1
  else none

/-- `VFM_CMD` APPLY. -/
def vfmApply (d : Dev) (o : Nat) : Dev :=
  let s := d.vfm.stg
  match applyFault d o s with
  | some r => vfmEnd d r 0 o
  | none =>
    if d.dlr.src then
      let d1 := modOwn d o fun w => { w with sh := { w.sh with py := s.py, me := s.me, sy := s.sy, tree := s.tree } }
      vfmEnd { d1 with vfm.credLater := (d1.vfm.credLater.filter fun e => e.1 != o) ++ [(o, s.credit)] } 0 0 o
    else plan { d with vfm.busy := true, vfm.apply := some (o, s) }

/-! ## The end of a table check (09 R317; 13 R402, R405) -/

/-- TABLE_CHECK_DONE: the table is accepted and pending, or refused with its code; an ENABLE or APPLY that planned it goes on
or ends with PLAN. -/
def tableCheckGo (d : Dev) : Dev :=
  if !d.dlr.chkBusy then d
  else
    match checkTable d d.dlr.stg with
    | some (code, t, k) =>
      let d1 := { d with dlr.chkBusy := false, dlr.chkCode := BitVec.ofNat 8 code, dlr.chkStage := 0, dlr.chkTrick := BitVec.ofNat 6 t
                         dlr.chkCell := BitVec.ofNat 5 k }
      if d.dlr.src then d1
      else match d1.vfm.enabling with
        | some o => vfmEnd { d1 with vfm.enabling := none } 5 0 o
        | none => match d1.vfm.apply with
          | some (o, _) => vfmEnd { d1 with vfm.apply := none } 5 0 o
          | none => d1
    | none =>
      let late' := d.dlr.trick == 63 || (d.dlr.trick == 62 && d.dlr.window)
      let d1 := { d with dlr.chkBusy := false, dlr.chkCode := 0, dlr.chkStage := 0, dlr.chkTrick := 0, dlr.chkCell := 0
                         dlr.pending := true, dlr.late := late', dlr.planFor := d.vfm.enabling }
      match d.vfm.enabling with
      | some o => vfActivate d1 o d.vfm.stg
      | none => d1
def execTableCheckDone (s : State) : Out3 := onDev s tableCheckGo

/-! ## REMOVE (13 R413) -/

/-- Whether a VF holds what REMOVE without PURGE would lose: keys, or journal entries other than the reservations of jobs not
yet placed. -/
def vfHolds (d : Dev) (o : Nat) : Bool :=
  let loose (k : Nat) : Bool := (getJ d k).state == .reserved
    && d.jobs.live.any fun b => b.jrn == some k && (b.phase == .waiting || b.phase == .unwrapping)
  0 < persistCount d o || 0 < statefulCount d o || (jrnHeld d o).any fun k => !loose k

/-- The VF's shares go back to the kitty: it is DISABLED. A REMOVE on the lead also removes the VF on every member
(18 R519). -/
def vfGone (d : Dev) (o : Nat) (purge : Bool) : Dev :=
  let d1 := if purge then { d with jrn.entries := d.jrn.entries.filter fun e => !(e.2.owner == o && jResolved e.2) } else d
  let d2 := setOwn d1 o {}
  (memberNodes d2).foldl (fun acc n =>
    sendFrame (modNode acc n fun x => { x with shares := mapSet {} x.shares o {} }) n .config
      ([3, BitVec.ofNat 8 o, if purge then 1 else 0, 0])) d2

/-- Whether the command in progress is the REMOVE of an owner. -/
def removing (d : Dev) (o : Nat) : Bool := d.vfm.busy && d.vfm.op == 3 && d.vfm.sel.toNat == o

/-- The reset part of REMOVE starts, or a VF that is DISABLED goes at once. -/
def removeReset (d : Dev) (o : Nat) (purge : Bool) : Dev :=
  if (getOwn d o).state = .disabled then
    let d1 := vfGone d o purge
    if removing d o then vfmEnd d1 0 0 o else d1
  else modOwn (vfResetStart d o .removing) o fun w => { w with removing := true, vEn := false, vShare := false, vStrand := false, vecReg := 0 }

/-- REMOVE of an owner: with PURGE a soft zeroise of everything comes first, once no other is in progress. -/
def removeStart (d : Dev) (o : Nat) (purge : Bool) : Dev :=
  if purge then
    if d.ks.zsoft.isSome then { d with vfm.removeQ := d.vfm.removeQ ++ [(o, true)] }
    else softStart { d with ks.purge := some o } { all := false, owner := o, persist := true }
  else removeReset d o false

/-- `VFM_CMD` REMOVE. It waits while the VF is in reset (13 R412). -/
def vfmRemove (d : Dev) (o : Nat) (purge : Bool) : Dev :=
  if o = 0 || !ownerThere d o then vfmEnd d 3 0 o
  else if !purge && vfHolds d o then vfmEnd d 6 0 o
  else
    let d1 := { d with vfm.busy := true }
    if (getOwn d o).state = .resetting then { d1 with vfm.removeQ := d1.vfm.removeQ ++ [(o, purge)] } else removeStart d1 o purge

/-- A REMOVE that waited goes on: of the owner whose reset has ended, or any that waited for a soft zeroise. -/
def removeNext (d : Dev) : Dev :=
  match d.vfm.removeQ.find? fun e => (getOwn d e.1).state != .resetting && (!e.2 || d.ks.zsoft.isNone) with
  | none => d
  | some e => removeStart { d with vfm.removeQ := d.vfm.removeQ.filter (· != e) } e.1 e.2

/-- Whether an owner in the scope of the soft zeroise is in a reset whose step 4 has not ended (13 R412). -/
def softInReset (d : Dev) : Bool :=
  match d.ks.zsoft with
  | some z => (liveOwners d).any fun o => softScope z o && (getOwn d o).state == .resetting && abandonDue d o
  | none => false

/-- ZEROISE_SOFT: the soft zeroise's steps 3 to 5, not before step 4 of a reset of an owner in its scope; a REMOVE with PURGE that began
with it goes on to its reset. -/
def zeroiseSoftGo (d : Dev) : Dev :=
  let d1 := if softInReset d then d else softFinish d
  if d1.ks.zsoft.isSome then d1
  else
    match d1.ks.purge with
    | some o => removeReset { d1 with ks.purge := none } o true
    | none => removeNext d1

/-! ## VF resets (13 R409-R412) -/

/-- The configuration of a function after an FLR: PCI Express's reset values, with Max Payload Size kept, and its MSI-X table
masked (log 37). -/
def flrFn (d : Dev) (f : Nat) : Dev :=
  let d1 := setFn d f { mps := (getFn d f).mps }
  { d1 with hif.msix := d1.hif.msix.filter fun e => e.1 / 2112 != f }

/-- Whether an FLR or a hot reset acts on PCI state alone: in HELD (14 R426), and in SCRAPPED, which no reset leaves (log 44). -/
def pciOnly (d : Dev) : Bool := d.glob.st == .held || d.glob.st == .scrapped

/-- The effects of a VF FLR. A second one during the VF's reset merges (01 R32, 13 R412). -/
def vfFlrRun (f : Nat) (d : Dev) : Dev :=
  if d.glob.st = .bedrock || f = 0 || !ownerThere d f then d
  else if pciOnly d then flrFn d f
  else match (getOwn d f).state with
    | .active =>
      modOwn (flrFn (vfResetStart d f .resetting) f) f fun w => { w with vEn := false, vShare := false, vStrand := false, vecReg := 0 }
    | .disabled => flrFn d f
    | _ => d
/-- VF_FLR: the VF's reset begins, or is held while a hard zeroise runs (01 R32). -/
def vfFlrGo (f : Nat) (d : Dev) : Dev :=
  if d.glob.hardZ.isSome then { d with glob.heldResets := d.glob.heldResets ++ [.vfFlr f] } else vfFlrRun f d
def execVfFlr (f : Nat) (s : State) : Out3 := onDev s (vfFlrGo f)

/-- VF_RESET_DONE: no read of the VF is outstanding any more; the reset ends, and with it a REMOVE. It waits for the members'
ABANDON_DONE (18 R524). -/
def vfResetDoneGo (f : Nat) (d : Dev) : Dev :=
  let timed (d : Dev) : Dev := recHist d 0x503 (d.glob.tb - (getOwn d f).rstTb).toNat
  if f = 0 || abandonDue d f then d
  else match (getOwn d f).state with
    | .resetting => removeNext (vfmCause (modOwn (timed d) f fun w => { w with state := .active }) 4 f)
    | .removing =>
      let d1 := vfGone (timed d) f (removing d f && d.vfm.purge)
      removeNext (if removing d f then vfmEnd d1 0 4 f else vfmCause d1 4 f)
    | _ => d
def execVfResetDone (f : Nat) (s : State) : Out3 := onDev s (vfResetDoneGo f)

/-! ## Commands (13 R416) -/

/-- `VFM_CMD` with GO for the selected owner, on this device or on the member selected. OP and PURGE hold what was written; a
command starts in READY only (log 158). -/
def vfmGo (op : Nat) (purge : Bool) (d : Dev) : Dev :=
  if !ctlServed d || d.vfm.busy then d
  else if !isReady d then { d with vfm.op := BitVec.ofNat 3 op, vfm.purge := purge }
  else
    let d1 := { d with vfm.op := BitVec.ofNat 3 op, vfm.purge := purge }
    let o := d.vfm.sel.toNat
    match vfmNode d1 with
    | some n => vfmRemote d1 n o op purge
    | none => if op = 1 then vfmEnable d1 o else if op = 2 then vfmApply d1 o else vfmRemove d1 o purge
def execEnable (s : State) : Out3 := onDev s (vfmGo 1 false)
def execApply (s : State) : Out3 := onDev s (vfmGo 2 false)
def execRemove (purge : Bool) (s : State) : Out3 := onDev s (vfmGo 3 purge)

/-- VF_ENABLE_SET: NumVFs and VF Enable are set; the VFs appear, DISABLED (13 R401). NumVFs is writable only while VF Enable is
0. -/
def vfEnableSetGo (n : Nat) (d : Dev) : Dev :=
  if d.glob.st = .bedrock || d.hif.vfEn || 255 < n then d else { d with hif.numVfs := BitVec.ofNat 9 n, hif.vfEn := true }
def execVfEnableSet (n : Nat) (s : State) : Out3 := onDev s (vfEnableSetGo n)

/-- VF_ENABLE_CLEAR: REMOVE without PURGE on every VF; one that cannot be removed is DISABLED with its keys and records held
(13 R413). -/
def vfEnableClearGo (d : Dev) : Dev :=
  if !d.hif.vfEn then d
  else
    let d0 := { d with hif.vfEn := false }
    let d1 := match d0.vfm.enabling with | some o => vfmEnd { d0 with vfm.enabling := none } 3 0 o | none => d0
    if !isReady d then d1
    else (liveOwners d1).foldl (fun acc o =>
      if o = 0 || (getOwn acc o).state = .disabled then acc
      else if (getOwn acc o).state = .removing then acc
      else removeReset acc o false) d1
def execVfEnableClear (s : State) : Out3 := onDev s vfEnableClearGo

end Sys2Proof.Machine
end

