-- ==== Sys2Proof/Machine/Words.lean ====
section
/-!
DEFINITION. Register words: fields packed into a number and taken out of one, and the words that hold shares (13 R416).
-/
namespace Sys2Proof.Machine

/-- A field of a word: `n` bits from bit `lo` upwards. -/
def fld (w lo n : Nat) : Nat := w / 2 ^ lo % 2 ^ n
/-- One bit of a word. -/
def fbit (w i : Nat) : Bool := w / 2 ^ i % 2 == 1
/-- A word from its fields, each a lowest bit and a value. -/
def packW (fs : List (Nat × Nat)) : Nat := (fs.map fun f => f.2 * 2 ^ f.1).sum
/-- A bit as a number. -/
def b2n (b : Bool) : Nat := if b then 1 else 0

/-! ## Shares (13 R416) -/

/-- `VFM_RES`. -/
def resWord (s : Shares) : Nat := packW [(0, s.sq.toNat), (16, s.cq.toNat), (32, s.credit.toNat), (48, s.vec.toNat)]
/-- `VFM_MEM`. -/
def memWord (s : Shares) : Nat := packW [(0, s.gran.toNat), (16, s.pkey.toNat), (32, s.sskey.toNat), (48, s.jrn.toNat)]
/-- `VFM_TRK`. -/
def trkWord (s : Shares) : Nat := packW [(0, s.py.toNat), (16, s.me.toNat), (32, s.sy.toNat), (48, s.tree.toNat)]
/-- `VFM_PERM`. -/
def permWord (s : Shares) : Nat := packW [(0, s.cls.toNat), (16, b2n s.trump), (17, b2n s.cap)]

def setRes (s : Shares) (w : Nat) : Shares :=
  { s with sq := BitVec.ofNat 13 w, cq := BitVec.ofNat 12 (w / 2 ^ 16), credit := BitVec.ofNat 13 (w / 2 ^ 32)
           vec := BitVec.ofNat 12 (w / 2 ^ 48) }
def setMem (s : Shares) (w : Nat) : Shares :=
  { s with gran := BitVec.ofNat 15 w, pkey := BitVec.ofNat 9 (w / 2 ^ 16), sskey := BitVec.ofNat 13 (w / 2 ^ 32)
           jrn := BitVec.ofNat 13 (w / 2 ^ 48) }
def setTrk (s : Shares) (w : Nat) : Shares :=
  { s with py := BitVec.ofNat 11 w, me := BitVec.ofNat 10 (w / 2 ^ 16), sy := BitVec.ofNat 9 (w / 2 ^ 32)
           tree := BitVec.ofNat 9 (w / 2 ^ 48) }
def setPerm (s : Shares) (w : Nat) : Shares := { s with cls := BitVec.ofNat 16 w, trump := fbit w 16, cap := fbit w 17 }

/-- The shares that 28 bytes of the four words give; none when a reserved bit is set (15 R448, block PF_SHARES). -/
def sharesOfBytes (bs : Bytes) : Option Shares :=
  let r := leNat (slice bs 0 8)
  let m := leNat (slice bs 8 8)
  let t := leNat (slice bs 16 8)
  let p := leNat (slice bs 24 4)
  let s := setPerm (setTrk (setMem (setRes {} r) m) t) p
  if resWord s = r && memWord s = m && trkWord s = t && permWord s = p then some s else none

end Sys2Proof.Machine
end

