-- ==== Sys2Proof/Machine/Image.lean ====
section
/-!
DEFINITION. The boot NVM, its directory, the image manifest and its authentication, custom images and configuration blocks
(15 R441-R448; 07 R260, R263; 17 R498; 18 R502-R504).
-/
namespace Sys2Proof.Machine

/-! ## The NVM (15 R441-R443) -/

/-- Read bytes of the NVM: 0xFF where nothing is listed (log 13). -/
def nvmRead (n : SMap Byte) (a len : Nat) : Bytes := (List.range len).map fun i => mapGet 0xFF n (a + i)
/-- Program bytes of the NVM. -/
def nvmWrite (n : SMap Byte) (a : Nat) : Bytes → SMap Byte
  | [] => n
  | b :: bs => nvmWrite (mapSet 0xFF n a b) (a + 1) bs

/-- The size of a slot. -/
def slotBytes : Nat := 0xF00000
/-- The offset of a slot: A at 1 MiB, B after it. -/
def slotBase (s : Nat) : Nat := 0x100000 + slotBytes * s
/-- The other slot. -/
def otherSlot (s : Nat) : Nat := if s = 0 then 1 else 0

/-- Slot states of the directory. -/
def slEmpty : Nat := 0
def slWritten : Nat := 1
def slTrial : Nat := 2
def slGood : Nat := 3
def slBad : Nat := 4

/-- A directory copy, when MAGIC and CRC-32C are correct. -/
def dirParse (copy : Nat) (b : Bytes) : Option Dir :=
  if u32At b 0 = 0x52494453 && u32At b 12 = crc32c (slice b 0 12) then
    some { seq := u32At b 4, active := if byteAt b 8 = 0 then 0 else 1, stA := (byteAt b 9).toNat, stB := (byteAt b 10).toNat
           trials := (byteAt b 11).toNat, copy := copy }
  else none

/-- The valid copy with the higher SEQ; with none, every slot is EMPTY. -/
def dirRead (n : SMap Byte) : Dir :=
  match dirParse 0 (nvmRead n 0 16), dirParse 1 (nvmRead n 0x1000 16) with
  | some a, some b => if a.seq < b.seq then b else a
  | some a, none => a
  | none, some b => b
  | none, none => {}

/-- The 16 bytes of a directory. -/
def dirBytes (r : Dir) : Bytes :=
  let h := le32 0x52494453 ++ le32 r.seq ++ leBytes 1 r.active ++ leBytes 1 r.stA ++ leBytes 1 r.stB ++ leBytes 1 r.trials
  h ++ le32 (crc32c h)

/-- The page of the directory: its record, then zeros (15 R441). -/
def dirPage (r : Dir) : Bytes := dirBytes r ++ zeros (4096 - 16)

/-- Write a change of the directory: the other copy takes it with SEQ + 1. -/
def dirWrite (d : Dev) (f : Dir → Dir) : Dev :=
  let r := { f d.boot.dir with seq := d.boot.dir.seq + 1, copy := otherSlot d.boot.dir.copy }
  { d with boot.dir := r, boot.nvm := nvmWrite d.boot.nvm (0x1000 * r.copy) (dirPage r) }

/-- A slot's state in the directory. -/
def slotState (r : Dir) (s : Nat) : Nat := if s = 0 then r.stA else r.stB
/-- Set a slot's state. -/
def setSlotState (s v : Nat) (r : Dir) : Dir := if s = 0 then { r with stA := v } else { r with stB := v }

/-! ## The manifest (15 R444) -/

/-- A component entry. -/
structure Comp where
  type    : Nat := 0
  version : U16 := 0
  mask    : U32 := 0
  off     : Nat := 0
  len     : Nat := 0
  crc     : U32 := 0
  sha     : Bytes := []
  deriving DecidableEq, Repr

/-- A section of a slot: its header fields, its components, and the signed bytes, key and signature. -/
structure Sect where
  rel    : U32 := 0
  svn    : Nat := 0
  flags  : Byte := 0
  devId  : Bytes := []
  bind   : Bytes := []
  comps  : List Comp := []
  signed : Bytes := []
  signer : Nat := 0
  pk     : Bytes := []
  sig    : Bytes := []
  whole  : Bytes := []
  deriving DecidableEq, Repr

/-- A component entry's fields. -/
def parseComp (b : Bytes) : Comp :=
  { type := (u16At b 0).toNat, version := u16At b 2, mask := u32At b 4, off := (u32At b 8).toNat, len := (u32At b 12).toNat
    crc := u32At b 16, sha := slice b 32 48 }

/-- Whether a component entry is well formed: its reserved bytes, its type's section, its place in the slot. -/
def compOk (vendor : Bool) (b : Bytes) : Bool :=
  let c := parseComp b
  allZero (slice b 20 12) && decide (c.off + c.len ≤ slotBytes)
    && (if vendor then decide (1 ≤ c.type) && decide (c.type ≤ 5) else c.type == 0x10 || c.type == 0x11)
    && !(c.type == 1 && decide (384 * 1024 < c.len))

/-- The section at an offset of a slot: none when its format is wrong. -/
def readSect (n : SMap Byte) (s off : Nat) (vendor : Bool) : Option Sect :=
  let at' (o len : Nat) : Bytes := nvmRead n (slotBase s + off + o) len
  let h := at' 0 0x40
  let nc := (u16At h 6).toNat
  let flags := byteAt h 13
  let entries := (List.range nc).map fun i => at' (0x40 + 80 * i) 80
  let e := 0x40 + 80 * nc
  let fmt := u32At h 0 == (if vendor then 0x4E414D53 else 0x47464353) && u16At h 4 == 1
    && (if vendor then decide (1 ≤ nc) && decide (nc ≤ 64) else decide (nc ≤ 128)) && allZero (slice h 14 2)
    && (if vendor then decide (byteAt h 12 < 128) && flags &&& 0xFC == 0 && allZero (slice h 32 32)
        else byteAt h 12 == 0 && flags &&& 0xFD == 0)
  if fmt && entries.all (compOk vendor) then
    some { rel := u32At h 8, svn := (byteAt h 12).toNat, flags := flags, devId := slice h 16 16, bind := slice h 16 48
           comps := entries.map parseComp, signed := at' 0 e, signer := (byteAt (at' e 1) 0).toNat, pk := at' (e + 1) 2592
           sig := at' (e + 2593) 4627, whole := at' 0 (e + 7220) }
  else none

/-! ## Authentication (15 R445, R446) -/

/-- The RESULT codes of `BOOT_CMD` (15 R457). -/
def brOk : Byte := 0
def brState : Byte := 1
def brFormat : Byte := 2
def brSigner : Byte := 3
def brSignature : Byte := 4
def brRollback : Byte := 5
def brHash : Byte := 6
def brNvm : Byte := 7
def brCustom : Byte := 8
def brDma : Byte := 9
def brHandover : Byte := 10

/-- The key-hash row of a signer: VKH0, VKH1, IKH0, IKH1. -/
def signerRow (o : Otp) (s : Nat) : KeyRow :=
  if s = 0 then o.vkh[0] else if s = 1 then o.vkh[1] else if s = 2 then o.ikh[0] else if s = 3 then o.ikh[1] else {}
/-- Whether a row is valid and not killed. -/
def rowUsable (r : KeyRow) : Bool := r.valid && !r.kill
/-- Whether a key is that of a usable row. -/
def rowMatches (r : KeyRow) (pk : Bytes) : Bool := rowUsable r && r.hash == sha384 pk
/-- Whether one of the integrator's rows is usable. -/
def anyIkh (o : Otp) : Bool := rowUsable o.ikh[0] || rowUsable o.ikh[1]

/-- Whether the integrator section needs an integrator's signer. -/
def integSigns (d : Dev) : Bool := d.glob.lcCode == 3 || (d.glob.lcCode == 2 && anyIkh d.otp)

/-- The verdict on an ML-DSA-87 signature in pure mode (FIPS 204). -/
def mlDsa87 (pk : Bytes) (ctx : String) (body sig : Bytes) : Bool :=
  dsaVerifyMsg 3 pk (mPure (ascii ctx) body) sig

/-- Authenticate a slot: its two sections, or the first RESULT that applies. A device ID that is not the device's own is a
FORMAT failure, a binding hash that does not match a HASH failure (log 40). -/
def authSlot (d : Dev) (s : Nat) : Except Byte (Sect × Sect) :=
  match readSect d.boot.nvm s 0 true with
  | none => .error brFormat
  | some v =>
    match readSect d.boot.nvm s (cdiv v.whole.length 4096 * 4096) false with
    | none => .error brFormat
    | some i =>
      let test := v.flags.getLsbD 0
      let iSign := if integSigns d then decide (2 ≤ i.signer) && decide (i.signer ≤ 3) else decide (i.signer ≤ 1)
      if !(allZero v.devId || v.devId == devIdBytes d) then .error brFormat
      else if d.glob.lcCode = 5 || d.glob.lcCode = 0xFF || (test && d.glob.lcCode != 1) then .error brSigner
      else if !(decide (v.signer ≤ 1) && rowMatches (signerRow d.otp v.signer) v.pk) then .error brSigner
      else if !(iSign && rowMatches (signerRow d.otp i.signer) i.pk) then .error brSigner
      else if !(mlDsa87 v.pk "SQ-IMG-V" v.signed v.sig && mlDsa87 i.pk "SQ-IMG-I" i.signed i.sig) then .error brSignature
      else if i.bind != sha384 v.whole then .error brHash
      else if v.svn < d.otp.svn || i.rel < d.boot.cfgMin then .error brRollback
      else .ok (v, i)

/-- A component's bytes. -/
def compBytes (n : SMap Byte) (s : Nat) (c : Comp) : Bytes := nvmRead n (slotBase s + c.off) c.len
/-- Whether a component's digest matches its entry. -/
def compGood (n : SMap Byte) (s : Nat) (c : Comp) : Bool := sha384 (compBytes n s c) == c.sha
/-- Whether every component's digest of some types matches. -/
def compsGood (n : SMap Byte) (s : Nat) (cs : List Comp) (p : Nat → Bool) : Bool := (cs.filter fun c => p c.type).all (compGood n s)

/-- `BOOT_IMG_REL` of a slot's image (15 R457). -/
def relWord (s : Nat) (v : Sect) : U32 :=
  (v.rel &&& 0xFFFFFF) ||| BitVec.ofNat 32 (s * 2 ^ 24) ||| BitVec.ofNat 32 (v.svn * 2 ^ 25)

/-! ## Custom images (07 R260, R263) -/

/-- The number of MINOR values that a MAJOR has among the instructions that custom programs may use (07 R244-R257). -/
def pyMinors (major : Nat) : Nat :=
  if major ≤ 5 then 8 else if major = 0x10 then 7 else if 0x18 ≤ major && major ≤ 0x1B then 8 else if major = 0x1C then 5
  else if major = 0x30 then 8 else if major = 0x31 then 4 else if major = 0x40 then 8 else if major = 0x48 then 7
  else if major = 0x50 || major = 0x51 then 8 else if major = 0x58 then 8 else if major = 0x59 then 3
  else if major = 0x60 then 5 else if major = 0x68 then 7 else if major = 0x70 then 8 else 0

/-- A two's-complement field. -/
def sfld (w lo n : Nat) : Int := (BitVec.ofNat n (w / 2 ^ lo)).toInt

/-- Whether the X field of a format A or Q word outside the scalar group holds no reserved value (07 R240, R248-R254). -/
def xFieldOk (major minor w : Nat) : Bool :=
  let a := fld w 29 3
  let q := fld w 30 2
  if major = 0x31 then decide (2 ≤ minor) || q == 0
  else if major = 0x51 && minor ≤ 2 then decide (q ≤ 1)
  else if major = 0x50 || major = 0x51 then decide (a ≤ (if major = 0x51 && 6 ≤ minor then 0 else 1))
  else if major = 0x58 then (if minor = 3 then decide (a ≤ 1) else minor != 6 || decide (a ≤ 2))
  else if (0x18 ≤ major && major ≤ 0x1A) || major = 0x1C || major = 0x30 || major = 0x48 || (major = 0x1B && 6 ≤ minor)
      || (major = 0x40 && minor = 6) || (major = 0x59 && minor = 2) then decide (a ≤ 2)
  else true

/-- Whether an instruction word is one that a custom program may hold at word `i` of `len`: a known code other than BAR, JKPUT
and JKDONE, reserved bits zero, and a constant target inside the image. -/
def pyWordOk (len i w : Nat) : Bool :=
  let major := w % 128
  let minor := fld w 7 3
  let known := decide (minor < pyMinors major)
    && !(major == 0x10 && minor == 5) && !(major == 0x70 && (minor == 4 || minor == 5))
  let scalarA := (major == 0 || (major == 2 && minor != 0) || major == 3)
  let reserved := if major = 0x68 then fld w 28 4 == 0 else if scalarA then fld w 25 7 == 0 else xFieldOk major minor w
  let land' (off : Int) : Bool := decide (0 ≤ (i : Int) + off) && decide ((i : Int) + off < len)
  let target :=
    if major = 5 && minor ≤ 5 then land' (sfld w 20 12) else if major = 5 && minor = 6 then land' (sfld w 15 17) else true
  known && reserved && target

/-- The dispatch index of an instruction word (07 R240). -/
def dispIndex (w : Nat) : Nat := w % 128 * 8 + w / 128 % 8
/-- Whether the dispatch entry of an instruction word has E = 1, CYCLES nonzero and V = 0 (07 R263). -/
def entryOk (disp : Nat → Option Disp) (w : Nat) : Bool := (disp (dispIndex w)).all fun x => x.serves true

/-- Two byte ranges, base and length, that do not overlap. -/
def apart (a n b m : Nat) : Bool := n == 0 || m == 0 || decide (a + n ≤ b) || decide (b + m ≤ a)

/-- Whether a custom image may be installed beside images of `used` words in all (07 R263). Output leaves through the output
buffer, so OUTMAX takes no tile memory (log 41). -/
def imgOk (disp : Nat → Option Disp) (b : Bytes) (used : Nat) : Bool :=
  let h := parseImg b
  let ia := (byteAt b 0x15).toNat
  let area := h.parts * partBytes
  let inLen := h.inPages * 2 ^ h.pageLog
  decide (64 ≤ b.length) && u32At b 0 == 0x4D495950 && byteAt b 5 == 1 && decide (h.prog < 64)
    && byteAt b 7 &&& 0xFD == 0 && byteAt b 0x1B == 0 && allZero (slice b 0x24 28)
    && (h.parts == 1 || h.parts == 2 || h.parts == 4) && decide (ia < 128) && decide (h.pageLog ≤ 15) && decide (h.rndLen ≤ 128)
    && b.length == 64 + 4 * h.codeLen && decide (used + h.codeLen ≤ 4096)
    && (List.range h.codeLen).all (fun i => pyWordOk h.codeLen i (u32At b (64 + 4 * i)).toNat && entryOk disp (u32At b (64 + 4 * i)).toNat)
    && h.entries.toList.all (fun e => e == 0xFFFF || decide (e.toNat < h.codeLen))
    && decide (h.inBase + inLen ≤ area) && decide (h.auxBase + h.auxMax ≤ area) && apart h.inBase inLen h.auxBase h.auxMax

/-- The custom images of a list that a core takes, in order, with the area used so far; one that may not be installed is left
out (07 R263). The PROG of the first such one comes with them. -/
def coreImages (disp : Nat → Option Disp) (n : SMap Byte) (s c : Nat) : List Comp → Nat → List (Nat × Image) × Option Nat
  | [], _ => ([], none)
  | x :: xs, used =>
    if !x.mask.getLsbD c then coreImages disp n s c xs used
    else
      let b := compBytes n s x
      let h := parseImg b
      if imgOk disp b used then
        let r := coreImages disp n s c xs (used + h.codeLen)
        ((h.prog, { bytes := b, version := h.version.setWidth 16 }) :: r.1, r.2)
      else ((coreImages disp n s c xs used).1, some h.prog)

/-- The PROG of a custom image that may not be installed on a core of its mask (15 R450). -/
def customFault (d : Dev) (n : SMap Byte) (s : Nat) (cs : List Comp) : Option Nat :=
  (List.range 16).findSome? fun c => (coreImages (dispAt d c) n s c cs 0).2

/-- Put a core's custom images in place of those it holds; where one of them may not be installed, the core keeps what it holds (07
R263). -/
def installCore (d : Dev) (n : SMap Byte) (s : Nat) (cs : List Comp) (m : SMap Image) (c : Nat) : SMap Image :=
  let r := coreImages (dispAt d c) n s c cs 0
  if r.2.isSome then m else r.1.foldl (fun m e => mapSet {} m (c * 64 + e.1) e.2) (mapKeep (fun k => k / 64 != c) m)
/-- Install the custom images of a manifest on every core (07 R263). -/
def installCustom (d : Dev) (n : SMap Byte) (s : Nat) (cs : List Comp) : SMap Image := (List.range 16).foldl (installCore d n s cs) []
def customComps (i : Sect) : List Comp := i.comps.filter fun c => c.type == 0x11

/-! ## Configuration blocks (15 R448) -/

/-- A block's ID and body, none when its header is wrong or does not fit its length. -/
def cfgParse (b : Bytes) : Nat × Option Bytes :=
  let len := (u32At b 4).toNat
  ((u16At b 0).toNat,
   if decide (16 ≤ b.length) && u16At b 2 == 1 && allZero (slice b 8 8) && b.length == 16 + len then some (b.drop 16) else none)

/-- The overrides of a RECORDER block: CODE, TOKENS and REFILL_MS (17 R498). -/
def recOverrides (b : Bytes) : List (Nat × Nat × Nat) :=
  (List.range (byteAt b 4).toNat).map fun i =>
    let e := slice b (8 + 8 * i) 8
    ((u16At e 0).toNat, (byteAt e 2).toNat, (u16At e 4).toNat)

/-- Whether a RECORDER block fits. -/
def recBlockOk (b : Bytes) : Bool :=
  let n := (byteAt b 4).toNat
  let ms := (u16At b 2).toNat
  decide (n ≤ 64) && b.length == 8 + 8 * n && byteAt b 0 != 0 && byteAt b 1 == 0 && decide (10 ≤ ms) && decide (ms ≤ 1000)
    && allZero (slice b 5 3)
    && (List.range n).all fun i =>
      let e := slice b (8 + 8 * i) 8
      acodeTakesToken (u16At e 0) && byteAt e 2 != 0 && byteAt e 3 == 0 && u16At e 4 != 0 && u16At e 6 == 0

/-- Whether a FABRIC block fits and its node passes the checks of 18 R504; the walks of the routes, which need the cabling, are
the environment's. -/
def fabBlockOk (d : Dev) (routesOk : Bool) (b : Bytes) : Bool :=
  let mode := byteAt b 0
  let enc := byteAt b 1
  let nodes := leNat (slice b 8 8)
  let sl := byteAt b 2
  let sm := byteAt b 3
  let sy := if enc = 0 then sl == 0 && sm == 0 else sl != 0 && sm != 0
  b.length == 7184 && decide (mode ≤ 1) && decide (enc ≤ 1) && decide (sl ≤ 4) && decide (sm ≤ 4) && allZero (slice b 4 4)
    && fbit nodes 0 && (mode == 0 || (fbit nodes d.glob.node && sy && routesOk))

/-- Whether the body of a block fits its ID and its fields their ranges. A body whose layout the spec does not give is taken
as it is; RESPONSE is one byte for each register, RNG one byte (log 42). -/
def blockOk (d : Dev) (routesOk : Bool) (id : Nat) (b : Bytes) : Bool :=
  match id with
  | 0x01 => b.length == 28 && (match sharesOfBytes b with | some s => rangeOk 0 s | none => false)
  | 0x02 => b.length == 4352
  | 0x03 => b.length == 2 && decide (byteAt b 0 < 32) && decide (byteAt b 1 < 64)
  | 0x04 => b.length == 64 && b.all fun x => decide (x < 128)
  | 0x05 => true
  | 0x06 => true
  | 0x07 => b.length == 4 && decide (byteAt b 1 < byteAt b 0) && decide (byteAt b 2 < 8) && byteAt b 3 == 0
  | 0x08 => b.length == 1 && byteAt b 0 != 0
  | 0x09 => recBlockOk b
  | 0x0A => fabBlockOk d routesOk b
  | _ => false

/-- The blocks of an integrator section, in entry order. -/
def sectBlocks (n : SMap Byte) (s : Nat) (i : Sect) : List (Nat × Option Bytes) :=
  (i.comps.filter fun c => c.type == 0x10).map fun c => cfgParse (compBytes n s c)

/-- The blocks as loaded, or the ID of the first that sends the device to SAFE: the mandatory ones that are absent and the ones
that do not fit, in ID order. -/
def loadBlocks (d : Dev) (routesOk : Bool) (bs : List (Nat × Option Bytes)) : Except Nat (SMap Bytes) :=
  let has : List Nat := bs.map fun b => b.1
  let ids : List Nat := (([1, 5, 6] ++ has).eraseDups).mergeSort
  let body (k : Nat) : Option Bytes := (bs.find? fun (b : Nat × Option Bytes) => b.1 == k).bind fun b => b.2
  let bad (k : Nat) : Bool := match body k with | some b => !blockOk d routesOk k b | none => true
  match ids.find? bad with
  | some k => .error k
  | none => .ok (ids.foldl (fun m k => mapSet ([] : Bytes) m k ((body k).getD [])) [])

/-- A loaded block's body. -/
def cfgBlock (d : Dev) (id : Nat) : Option Bytes := let b := mapGet [] d.boot.blocks id; if b.isEmpty then none else some b

end Sys2Proof.Machine
end

