-- ==== Sys2Proof/Machine/LifeCycle.lean ====
section
/-!
DEFINITION. The life cycle in OTP, the steps of a transition in HELD, and debug grants (14 R418-R428, R433-R436; 12 R374).
-/
namespace Sys2Proof.Machine

/-! ## Events (14 R438, 15 R457, 16 R474, 18 R529) -/

/-- Set `LC_EVENT` bits. -/
def lcCause (d : Dev) (bits : BitVec 3) : Dev :=
  raise { d with lc.event := d.lc.event ||| bits } 13 d.lc.event (d.lc.event ||| bits)
/-- Set `BOOT_EVENT` bits. -/
def bootCause (d : Dev) (bits : BitVec 3) : Dev :=
  raise { d with boot.event := d.boot.event ||| bits } 14 d.boot.event (d.boot.event ||| bits)
/-- Set `BIST_EVENT` bits for a partition. -/
def bistCause (d : Dev) (bits : BitVec 3) (p : Nat) : Dev :=
  raise { d with bist.event := d.bist.event ||| bits, bist.evInst := BitVec.ofNat 8 p } 15 d.bist.event (d.bist.event ||| bits)
/-- Set `FAB_EVENT` bits for a node. -/
def fabCause (d : Dev) (bits : BitVec 4) (n : Nat) : Dev :=
  raise { d with fab.event := d.fab.event ||| bits, fab.evNode := BitVec.ofNat 6 n } 12 d.fab.event (d.fab.event ||| bits)

/-! ## Codewords (14 R418-R420) -/

/-- The codeword of a life-cycle code. -/
def lcWord (code : Nat) : U32 :=
  match code with
  | 1 => 0x3C3C3C3C | 2 => 0xA5A5A5A5 | 3 => 0x5A5AC3C3 | 4 => 0x96966969 | 5 => 0xFFFFFFFF | _ => 0
/-- The number of bits set. -/
def popcount {w : Nat} (v : BitVec w) : Nat := ((List.range w).filter fun i => v.getLsbD i).length
/-- A word within 3 bits of a codeword decodes as it; any other is INVALID. -/
def lcDecode (w : U32) : Byte :=
  match [1, 2, 3, 4, 5].find? fun c => popcount (w ^^^ lcWord c) ≤ 3 with
  | some c => BitVec.ofNat 8 c
  | none => 0xFF

/-- A transition slot by number. -/
def lcSlot (o : Otp) (s : Nat) : LcSlot := o.slots.toList.getD s {}
/-- Change a transition slot. -/
def modLcSlot (d : Dev) (s : Nat) (f : LcSlot → LcSlot) : Dev :=
  { d with otp.slots := (Vector.range 4).map fun i => if i = s then f (lcSlot d.otp i) else lcSlot d.otp i }
/-- Whether a slot's transition is done: MARK S6. -/
def slotDone (x : LcSlot) : Bool := x.mark.getLsbD 5
/-- The pending slot: an INTENT bit set and MARK S6 clear. -/
def lcPending (o : Otp) : Option Nat := (List.range 4).find? fun s => (lcSlot o s).intent != 0 && !slotDone (lcSlot o s)
/-- The highest-numbered slot with MARK S6 set. -/
def lcLast (o : Otp) : Option Nat := (List.range 4).reverse.find? fun s => slotDone (lcSlot o s)
/-- The state in force. -/
def lcState (o : Otp) : Byte := lcDecode (match lcLast o with | some s => (lcSlot o s).target | none => o.base)
/-- The target that INTENT names: the most destructive one. -/
def intentCode (i : BitVec 4) : Nat :=
  if i.getLsbD 3 then 5 else if i.getLsbD 2 then 4 else if i.getLsbD 0 then 2 else if i.getLsbD 1 then 3 else 0
/-- The INTENT bit of a target code. -/
def intentBit (code : Nat) : BitVec 4 :=
  if code = 2 then 1 else if code = 3 then 2 else if code = 4 then 4 else if code = 5 then 8 else 0

/-- `LC_STAT` (14 R438). -/
def lcStatWord (d : Dev) : Nat :=
  let s := (lcPending d.otp).getD ((lcLast d.otp).getD 0)
  let pend := match lcPending d.otp with | some p => intentCode (lcSlot d.otp p).intent | none => 0
  packW [(0, d.glob.lcCode.toNat), (8, pend), (16, (lcSlot d.otp s).mark.toNat), (24, s),
    (28, b2n (rowUsable d.otp.ikh[0])), (29, b2n (rowUsable d.otp.ikh[1])), (30, b2n (rowUsable d.otp.vkh[0])),
    (31, b2n (rowUsable d.otp.vkh[1])), (32, d.lc.fail.toNat)]

/-! ## Epochs (12 R374) -/

/-- An epoch by number. -/
def epochAt (o : Otp) (e : Nat) : Epoch := o.dus.toList.getD e {}
/-- Change an epoch. -/
def modEpoch (d : Dev) (e : Nat) (f : Epoch → Epoch) : Dev :=
  { d with otp.dus := (Vector.range 4).map fun i => if i = e then f (epochAt d.otp i) else epochAt d.otp i }
/-- The current epoch: valid and not killed. -/
def curEpoch (o : Otp) : Option Nat := (List.range 4).reverse.find? fun e => (epochAt o e).valid && !(epochAt o e).kill

/-- The key store's view of the epoch: number, secret, and NODUS when none is usable. -/
def readEpoch (d : Dev) : Dev :=
  match curEpoch d.otp with
  | some e => { d with ks.epoch := BitVec.ofNat 2 e, ks.nodus := false, ks.dus := (epochAt d.otp e).secret }
  | none => { d with ks.epoch := 0, ks.nodus := true, ks.dus := [] }

/-- Program the next epoch: an epoch partly programmed, or one whose read-back fails, is killed and the next one used. -/
def newEpoch (bad : List Nat) : List Nat → Dev → Dev
  | [], d => d
  | e :: es, d =>
    let x := epochAt d.otp e
    if x.valid || x.kill then newEpoch bad es d
    else if !x.secret.isEmpty then newEpoch bad es (modEpoch d e fun x => { x with kill := true })
    else
      let r := draw d 32
      if bad.contains e then newEpoch bad es (modEpoch r.2 e fun _ => { secret := r.1, kill := true })
      else modEpoch r.2 e fun _ => { secret := r.1, valid := true }

/-! ## Destruction (12 R395, 14 R424) -/

/-- Both copies of ZSALT and of every OSALT are overwritten (12 R395 step 4). -/
def wipeSalts (d : Dev) : Dev := { d with ks.salts := [], ks.zsalt := none, ks.wiped := true }

/-- Key cache, DRBG state, pools and mask expanders, tiles, contexts, Slate, hash banks and supervisor RAM are cleared (12 R395
steps 5 and 6). -/
def wipeMemories (d : Dev) : Dev :=
  { destroyVolatile d (fun _ => true) with
    rng := { mramTrims := d.rng.mramTrims }, io := [], parked := [], cores := Vector.replicate 16 {}
    mes := Vector.replicate 8 {}, tss := Vector.replicate 4 {}, sys := Vector.replicate 4 {}, ks.idMldsa := [], ks.idP384 := [] }

/-- Free every persistent and stateful record: what the supervisor does at the start after a hard zeroise, and S2 (12 R395,
14 R424). The journal is resolved with STATUS ZEROISE. -/
def freeRecords (d : Dev) : Dev :=
  let d1 := resolveOwners d (fun _ => true) true
  let d2 := d1.ks.slots.foldl (fun acc e =>
    match e.2.obj with
    | some k => if k.stateful then zeroStateful acc (e.1 / 65536) (e.1 % 65536) else destroySlot acc (e.1 / 65536) (e.1 % 65536)
    | none => acc) d1
  { d2 with ks.wiped := false, ss.keys := [] }

/-! ## Steps of a transition (14 R424-R427) -/

/-- Whether a step applies to a target. -/
def stepApplies (k code : Nat) : Bool :=
  match k with
  | 1 => true
  | 2 => code != 3
  | 3 => code == 4 || code == 5
  | 4 => code != 3
  | 5 => code == 2 || code == 4
  | _ => true

/-- What a step does. -/
def stepEffect (env : StartEnv) (s k code : Nat) (d : Dev) : Dev :=
  if !stepApplies k code then d
  else
    match k with
    | 1 => modLcSlot d s fun x => { x with target := x.target ||| lcWord code }
    | 2 => amber (freeRecords (wipeMemories (wipeSalts d))) .zeroise (.bedrock 0) [6, 0]
    | 3 => { d with otp.ikh := d.otp.ikh.map fun r => { r with kill := true } }
    | 4 => match curEpoch d.otp with | some e => modEpoch d e fun x => { x with kill := true } | none => d
    | 5 => newEpoch env.epochBad [0, 1, 2, 3] d
    | _ => d

/-- The cause for which a step fails: 1 OTP read-back, 2 RNG start-up; 0 when it completes. -/
def stepFault (env : StartEnv) (k code : Nat) : Nat :=
  if env.otpFail.contains k then 1
  else if k = 5 && stepApplies 5 code && !(env.katOk && decide (2 ≤ ((List.range 4).filter fun i => env.flintOk.getD i true).length)) then 2
  else 0

/-- Record a failed step. -/
def stepFailed (d : Dev) (k cause mem : Nat) : Dev :=
  amber { d with lc.fail := BitVec.ofNat 4 cause } .lcStepFail .supv
    ([BitVec.ofNat 8 k, BitVec.ofNat 8 cause] ++ leBytes 2 mem)

/-- Run the steps from step `k` on: each MARK bit is programmed after its step's effect; a step that fails ends the run, except
that a memory that does not verify in S2 is recorded and passed over. -/
def heldSteps (env : StartEnv) (s code : Nat) : List Nat → Dev → Dev
  | [], d => d
  | k :: ks, d =>
    if (lcSlot d.otp s).mark.getLsbD (k - 1) then heldSteps env s code ks d
    else
      match stepFault env k code with
      | 0 =>
        let d1 := stepEffect env s k code d
        let d2 := if k = 2 && stepApplies 2 code then
            match env.scrubFail with | some m => stepFailed d1 2 3 m.toNat | none => d1
          else d1
        let d3 := modLcSlot d2 s fun x => { x with mark := x.mark ||| BitVec.ofNat 6 (2 ^ (k - 1)) }
        let d4 := if k = 6 then lcCause (amber d3 .lcDone .supv [BitVec.ofNat 8 s, BitVec.ofNat 8 code]) 1 else d3
        heldSteps env s code ks d4
      | c => stepFailed d k c 0

/-! ## Debug grants (14 R433-R435) -/

/-- Whether a scope is open: in MAKER without a token, else by the grant (14 R421). -/
def scopeOpen (d : Dev) (bit : Nat) : Bool :=
  d.glob.lcCode == 1 || (match d.lc.grant with | some g => g.scope.getLsbD bit | none => false)

/-- Release the debugger's halts: a sequencer halted when the grant ends has its job abandoned and scrubbed (14 R434). -/
def dropHalts (d : Dev) : Dev :=
  let d1 := d.lc.halted.foldl (fun acc u =>
    let acc1 := match cellJob acc (seqCell u) with | some b => dropJob (scrubJob acc b) b.id | none => acc
    modStore acc1 u fun x => { x with halted := false, atYld := false, stepOk := false, haltReq := false }) d
  { d1 with lc.halted := [], lc.supvHalt := false }

/-- The end of a grant: Amber entry DEBUG_END and `LC_EVENT.DBG_END`. -/
def endGrant (d : Dev) : Dev :=
  match d.lc.grant with
  | none => d
  | some g =>
    lcCause (amber { dropHalts d with lc.grant := none, lc.barred := [] } .debugEnd .supv [g.scope.setWidth 8, g.signer.setWidth 8]) 4

/-- Whether a grant keeps the device out of queue service: SCAN or MEMTEST (14 R436). -/
def grantBars (g : Grant) : Bool := g.scope.getLsbD 3 || g.scope.getLsbD 4

end Sys2Proof.Machine
end

