-- ==== Sys2Proof/Machine/Recorder.lean ====
section
/-!
DEFINITION. The event recorder: record bytes, checkpoints, loading at a start, the host mirror and bad banks (17 R478-R485).
-/
namespace Sys2Proof.Machine

/-! ## Bytes (17 R478, R479, R482) -/

/-- Two's complement bytes of an integer. -/
def intBytes (n : Nat) (v : Int) : Bytes := leBytes n (BitVec.ofInt (8 * n) v).toNat

/-- DATA of a record: 216 bytes. -/
def recDataBytes : RecData → Bytes
  | .hist c s mn mx bins => le64 c ++ le64 s ++ le32 mn ++ le32 mx ++ ((List.range 48).map fun k => le32 (mapGet 0 bins k)).flatten
  | .extreme mn mx la tmn tmx wmn wmx bmn bmx n =>
    fit 216 (intBytes 4 mn ++ intBytes 4 mx ++ intBytes 4 la ++ zeros 4 ++ le64 tmn ++ le64 tmx ++ le64 wmn ++ le64 wmx
      ++ le32 bmn ++ le32 bmx ++ le64 n)
  | .life p b r z f du =>
    fit 216 (le64 p ++ le32 b ++ (r.toList.map le32).flatten ++ le32 z ++ le32 f ++ le64 du)

/-- The first 252 bytes of a data record with the given SEQ. -/
def recBody (key : Nat) (r : Record) (seq : U32) : Bytes :=
  let flags : U32 := (if r.restored then 1 else 0) ||| (if r.crcLost then 2 else 0)
  leBytes 2 (key / 65536) ++ le16 r.subject ++ le32 seq ++ le32 flags ++ zeros 4 ++ le64 r.tb ++ le64 r.wall ++ le32 r.boot
    ++ recDataBytes r.data

/-- BADMAP. -/
def badMap (d : Dev) : U32 := d.bdr.badBanks.setWidth 32

/-- The bank header of record 0. -/
def recHeader (complete : Bool) (seq count badmap boot : U32) (tb : U64) : Bytes :=
  let b := fit 252 (le16 0x00FF ++ zeros 2 ++ le32 0 ++ zeros 8 ++ le64 tb ++ zeros 8 ++ le32 boot
    ++ le32 (if complete then 1 else 0) ++ le32 seq ++ le32 count ++ le32 badmap)
  b ++ le32 (crc32c b)

/-- The record in a slot of the SRAM. -/
def recAt (d : Dev) (i : Nat) : Option (Nat × Record) :=
  d.recd.records.findSome? fun e => match e.2 with | some r => if r.slot = i then some (e.1, r) else none | none => none

/-- The 256 bytes of a slot in SRAM, where the CRC field reads 0. -/
def recBytes (d : Dev) (i : Nat) : Bytes :=
  if i = 0 then (recHeader false d.recd.ckptSeq (BitVec.ofNat 32 (recCount d)) (badMap d) d.glob.bootCnt d.glob.tb).take 252 ++ zeros 4
  else match recAt d i with
    | some (k, r) => recBody k r r.seq ++ zeros 4
    | none => zeros 256

/-! ## Checkpoints (17 R481, R485) -/

/-- The bank that the next checkpoint writes: a good one that does not hold the newest complete checkpoint. -/
def ckptBank (d : Dev) : Option Nat :=
  let bad0 := d.bdr.badBanks.getLsbD 0
  let bad1 := d.bdr.badBanks.getLsbD 1
  if bad0 && bad1 then none else if bad0 then some 1 else if bad1 then some 0
  else
    let b0 := d.recd.banks[0]
    let b1 := d.recd.banks[1]
    if b0.complete && (!b1.complete || decide (b1.seq < b0.seq)) then some 1 else some 0

/-- Change a checkpoint bank. -/
def modBank (d : Dev) (b : Nat) (f : CkptBank → CkptBank) : Dev :=
  if h : b < 2 then { d with recd.banks := d.recd.banks.set b (f d.recd.banks[b]) } else d

/-- Begin a checkpoint: its bank's header has COMPLETE = 0. One in progress goes on. -/
def ckptStart (d : Dev) : Dev :=
  if !d.recd.live || d.recd.ckptBusy.isSome then d
  else match ckptBank d with
    | none => d
    | some b => modBank { d with recd.ckptBusy := some b } b fun x => { x with complete := false }

/-- The end of a checkpoint: its records and its header are in MRAM. -/
def ckptEnd (d : Dev) : Dev :=
  match d.recd.ckptBusy with
  | none => d
  | some b =>
    let n := d.recd.ckptSeq + 1
    modBank { d with recd.ckptBusy := none, recd.ckptSeq := n } b fun _ =>
      { complete := true, seq := n, badmap := d.bdr.badBanks, boot := d.glob.bootCnt, tb := d.glob.tb, records := d.recd.records }

/-- Whether the recorder's timers and commands act: the recorder has been loaded and the supervisor runs. -/
def recServes (d : Dev) : Bool := d.recd.live && (isReady d || d.glob.st == .safe || d.glob.st == .held)

def ckptGo (d : Dev) : Dev := if recServes d then ckptStart d else d
/-- CKPT_TIMER: the interval of `REC_CTL.CKPT_S` has passed. -/
def execCkptTimer (s : State) : Out3 := onDev s ckptGo
/-- `REC_CTL.CKPT`. -/
def ckptCmdGo (d : Dev) : Dev := if barOk d 0 then ckptGo d else d
def execCkpt (s : State) : Out3 := onDev s ckptCmdGo
def execCkptDone (s : State) : Out3 := onDev s ckptEnd

/-- `REC_CTL.CLEAR_HIST` zeroes every HIST record (17 R479). -/
def clearHistGo (d : Dev) : Dev :=
  if !recServes d || !barOk d 0 then d
  else
    { d with recd.records := mapAll none (fun _ v =>
        match v with
        | some r => match r.data with
          | .hist _ _ _ _ _ => some { r with seq := r.seq + 2, tb := d.glob.tb, wall := wallNow d, boot := d.glob.bootCnt,
                                              data := .hist 0 0 0 0 [] }
          | _ => some r
        | none => none) d.recd.records }
def execClearHist (s : State) : Out3 := onDev s clearHistGo

/-! ## Loading at a start (17 R482) -/

/-- The bank to load: the complete one with the higher CKPT_SEQ; when one bank is bad, the other whatever its COMPLETE
(17 R485). -/
def loadBank (d : Dev) : Option Nat :=
  let b0 := d.recd.banks[0]
  let b1 := d.recd.banks[1]
  let bad0 := d.bdr.badBanks.getLsbD 0
  let bad1 := d.bdr.badBanks.getLsbD 1
  if bad0 && bad1 then none else if bad0 then some 1 else if bad1 then some 0
  else if b0.complete && (!b1.complete || decide (b1.seq < b0.seq)) then some 0
  else if b1.complete then some 1 else none

/-- A record loaded from a checkpoint, or restarted from zero when its CRC fails. -/
def loadRecord (bad : Bool) (r : Record) : Record :=
  if bad then
    { slot := r.slot, subject := r.subject, crcLost := true, seq := 0
      data := match r.data with
        | .hist _ _ _ _ _ => .hist 0 0 0 0 []
        | .extreme _ _ _ _ _ _ _ _ _ _ => .extreme 0 0 0 0 0 0 0 0 0 0
        | .life _ _ _ _ _ _ => .life 0 0 (Vector.replicate 9 0) 0 0 0 }
  else { r with restored := true }

/-- Whether a key names an extreme of this boot, which starts anew at each boot (17 R479). -/
def thisBoot (k : Nat) : Bool := k / 65536 == 2 && k / 32768 % 2 == 1

/-- Load the recorder at a start. -/
def recLoad (d : Dev) (badRecs : List Nat) : Dev :=
  let recs : SMap (Option Record) := match loadBank d with
    | none => []
    | some b => mapAll none (fun k v => if thisBoot k then none else v.map (loadRecord (badRecs.contains k)))
        ((d.recd.banks.toList.getD b {}).records)
  let seq := match loadBank d with | some b => (d.recd.banks.toList.getD b {}).seq | none => 0
  let base : U64 := match mapGet none recs recLifeKey with
    | some r => match r.data with | .life p _ _ _ _ _ => p | _ => 0
    | none => 0
  lifeFlush { d with recd.records := recs, recd.live := true, recd.powerBase := base, recd.ckptSeq := seq, recd.ckptBusy := none
                     recd.full := decide (2047 ≤ recs.length) }

/-- POWER_ON_S is what it was at the start of the boot and the seconds since. -/
def lifePower (d : Dev) : Dev :=
  recLife d fun _ b r z f du => .life (d.recd.powerBase + BitVec.ofNat 64 (d.glob.tb.toNat / 1000000000)) b r z f du

/-! ## The host mirror (17 R483, R484) -/

/-- Write a record of a node into the mirror: SEQ odd, the body with its CRC, SEQ even. -/
def mirrorWrite (d : Dev) (node i : Nat) (bs : Bytes) : Dev :=
  let a := (d.recd.mirrorAddr.setWidth 64 <<< 12) + BitVec.ofNat 64 (524288 * node + 256 * i)
  let seq := u32At bs 4
  let body := slice bs 0 252 ++ le32 (crc32c (slice bs 0 252))
  let d1 := hostWrite d 0 a (splice (slice body 0 8) 4 (le32 (seq ||| 1))) false
  let d2 := hostWrite d1 0 (a + 8) (body.drop 8) false
  hostWrite d2 0 a (slice body 0 8) false

/-- MIRROR_TIMER: the period of a record has passed. A member sends it to the lead. -/
def mirrorTimerGo (i : Nat) (ok : Bool) (d : Dev) : Dev :=
  if !recServes d || 2048 ≤ i then d
  else if d.fab.role = .member then sendFrame d 0 .record (leBytes 2 i ++ recBytes d i)
  else if !d.recd.mirrorEn then d
  else if ok then mirrorWrite d 0 i (recBytes d i)
  else recCause { d with recd.mirrorErr := true } 0x8
def execMirrorTimer (i : Nat) (ok : Bool) (s : State) : Out3 := onDev s (mirrorTimerGo i ok)

/-! ## Bad banks (17 R485) -/

/-- The recorder has no bank left. -/
def recVolatile (d : Dev) : Dev :=
  if d.bdr.badBanks.getLsbD 0 && d.bdr.badBanks.getLsbD 1 && !d.recd.volatil then
    recCause (amber { d with recd.volatil := true } .recVolatile .supv []) 0x1
  else d

/-- REC_BANK_BAD: an uncorrectable error in recorder bank 0 or 1, or freeze bank 0 or 1 (as 2 and 3). -/
def recBankBadGo (b : Nat) (d : Dev) : Dev :=
  if 4 ≤ b || d.bdr.badBanks.getLsbD b then d
  else
    let bit : BitVec 4 := BitVec.ofNat 4 (2 ^ b)
    let d1 := { d with bdr.badBanks := d.bdr.badBanks ||| bit }
    let d2 := bdrCause d1 (bit.setWidth 9 <<< 4)
    if b < 2 then
      let d3 := recCause (amber d2 .recBankBad (.bedrock 0) [BitVec.ofNat 8 b]) 0x2
      let d4 := modBank d3 (1 - b) fun x => { x with badmap := d3.bdr.badBanks }
      recVolatile { d4 with recd.ckptBusy := if d4.recd.ckptBusy = some b then none else d4.recd.ckptBusy }
    else
      let d3 := ambCause (amber d2 .ambBankBad (.bedrock 0) [BitVec.ofNat 8 (b - 2)]) 0x2
      let d4 := { d3 with amb.volatil := d3.bdr.badBanks.getLsbD 2 && d3.bdr.badBanks.getLsbD 3 }
      match d4.amb.copy with
      | some c => if c.bank = some (b - 2) then c.fifo.foldl ringPut { d4 with amb.copy := none } else d4
      | none => d4
def execRecBankBad (b : Nat) (s : State) : Out3 := onDev s (recBankBadGo b)

end Sys2Proof.Machine
end

