-- ==== Sys2Proof/Machine/Drbg.lean ====
section
/-!
DEFINITION. CTR_DRBG with AES-256 and the derivation function (11 R344, R359; SP 800-90A, log 22).
-/
namespace Sys2Proof.Machine

/-- The CBC-MAC of the derivation function over whole blocks. -/
def drbgBcc (ks : List Bytes) (bs : Bytes) : Bytes := (blocks16 bs).foldl (fun c b => aesEnc ks (xorBytes c b)) (zeros 16)
/-- Repeated encryption: `n` blocks. -/
def drbgChain (ks : List Bytes) : Nat → Bytes → Bytes
  | 0, _ => []
  | n + 1, x => let y := aesEnc ks x; y ++ drbgChain ks n y
/-- The derivation function: 48 bytes. -/
def drbgDf (inp : Bytes) : Bytes :=
  let s := beBytes 4 inp.length ++ beBytes 4 48 ++ inp ++ [0x80]
  let s := s ++ zeros ((16 - s.length % 16) % 16)
  let k0 := aesKeys ((List.range 32).map (BitVec.ofNat 8 ·))
  let t := ((List.range 3).map fun i => drbgBcc k0 (beBytes 4 i ++ zeros 12 ++ s)).flatten
  drbgChain (aesKeys (t.take 32)) 3 (t.drop 32)

/-- `n` blocks of keystream, V counting before each. -/
def drbgStream (ks : List Bytes) : Nat → Bytes → Bytes × Bytes
  | 0, v => ([], v)
  | n + 1, v =>
    let v1 := beBytes 16 (beNat v + 1)
    let r := drbgStream ks n v1
    (aesEnc ks v1 ++ r.1, r.2)
/-- The update function over 48 bytes of data. -/
def drbgUpdate (s : DrbgSt) (data : Bytes) : DrbgSt :=
  let t := xorBytes (drbgStream (aesKeys s.key) 3 s.v).1 (fit 48 data)
  { key := t.take 32, v := t.drop 32 }
def drbgInstantiate (ein nonce pers : Bytes) : DrbgSt := drbgUpdate {} (drbgDf (ein ++ nonce ++ pers))
def drbgReseed (s : DrbgSt) (ein add : Bytes) : DrbgSt := drbgUpdate s (drbgDf (ein ++ add))
/-- One generate call of `n` bytes. -/
def drbgGenerate (s : DrbgSt) (add : Bytes) (n : Nat) : Bytes × DrbgSt :=
  let a := if add.isEmpty then zeros 48 else drbgDf add
  let s1 := if add.isEmpty then s else drbgUpdate s a
  let r := drbgStream (aesKeys s1.key) (cdiv n 16) s1.v
  (r.1.take n, drbgUpdate { s1 with v := r.2 } a)

end Sys2Proof.Machine
end

