-- ==== Sys2Proof/Machine/Rng.lean ====
section
/-!
DEFINITION. The random number subsystem: Flint sources, conditioner, DRBG holds, random-class jobs (11).
-/
namespace Sys2Proof.Machine

/-! ## Sources (11 R339-R343) -/

def modSrc (d : Dev) (i : Nat) (f : Src → Src) : Dev :=
  if h : i < 4 then { d with rng.srcs := d.rng.srcs.set i (f d.rng.srcs[i]) } else d
/-- Codes of 11 R363. -/
def srcCauseCode : SrcCause → Nat | .none => 0 | .rct => 1 | .apt => 2 | .trim => 3 | .startup => 4
def srcStateCode : SrcState → Nat
  | .off => 0 | .startup => 1 | .healthy => 2 | .retired => 3 | .dead => 4 | .recal => 5 | .raw => 6
def rngStateCode : RngState → Nat | .unseeded => 0 | .startup => 1 | .ok => 2 | .hold => 3 | .error => 4

/-- One sample into the conditioner (11 R342). -/
def condStep (r : BitVec 256) (s : Bool) : BitVec 256 :=
  let x := (r <<< 1) ^^^ (if s then 1 else 0)
  if r.getLsbD 255 then x ^^^ 0x425 else x
/-- The bits of packed samples, bit 0 of each byte first. -/
def sampleBits (bs : Bytes) : List Bool := bs.flatMap fun b => (List.range 8).map fun i => b.getLsbD i
/-- The conditioner over samples. -/
def condRun (r : BitVec 256) (bits : List Bool) : BitVec 256 := bits.foldl condStep r

/-- Runs of identical samples: the last sample, its run so far, whether some run reached 61 (11 R341). -/
def rctRun : Bool × Nat × Bool → List Bool → Bool × Nat × Bool
  | st, [] => st
  | (l, n, bad), s :: ss => let m := if s = l then n + 1 else 1; rctRun (s, m, bad || 61 ≤ m) ss
/-- The adaptive proportion test of one window (11 R341). -/
def aptBad (bits : List Bool) : Bool := 812 ≤ (bits.filter fun s => s == bits.headD false).length

/-- The job that reads raw samples of a source. -/
def rawJob (d : Dev) (i : Nat) : Option Job :=
  d.jobs.live.find? fun b => isCode 0x9004 b.e && b.phase == .placed && b.step == 1 && pbits b.e 0 2 == i

/-- The sample of a window at which the adaptive proportion test fails: the 812th of the first sample's value (11 R341). -/
def aptAt (v : Bool) : Nat → List Bool → Nat
  | _, [] => 0
  | n, s :: ss => if n + (if s == v then 1 else 0) = 812 then 1 else 1 + aptAt v (n + (if s == v then 1 else 0)) ss
/-- The test that a window's samples fail first. -/
def windowCause (s : Src) (bits : List Bool) : SrcCause :=
  let early := if aptBad bits then bits.take (aptAt (bits.headD false) 0 bits) else bits
  if (rctRun (s.lastBit, s.run, false) early).2.2 then .rct else if aptBad bits then .apt else .none

/-- CONDITIONER_BLOCK: 1,024 samples enter the conditioner; the block enters the pool of a HEALTHY source whose samples
passed both tests (11 R342, R343). A RAW source's samples go to its job (11 R360). -/
def condBlock (i : Nat) (samples : Bytes) (d : Dev) : Dev :=
  let s := getSrc d i
  if s.state == .off || samples.length ≠ 128 || 4 ≤ i then d
  else
    let bits := sampleBits samples
    let r := condRun s.r bits
    let run := rctRun (s.lastBit, s.run, false) bits
    let bad := s.blockBad || run.2.2 || aptBad bits
    let keep := s.state == .healthy && !bad && decide (s.pool.length < 4)
    let d1 := modSrc d i fun x =>
      { x with r := r, lastBit := run.1, run := run.2.1, blockBad := false, pool := if keep then x.pool ++ [r] else x.pool,
               ones := (x.ones ++ [(bits.filter id).length]).drop (x.ones.length - 3) }
    match rawJob d1 i with
    | some b => modJob d1 b.id fun x => { x with part2 := x.part2 ++ samples, result := if bad then x.result + 1 else x.result }
    | none => d1

/-! ## Holds (11 R346) -/

/-- Blocks that a reseed takes (11 R344). -/
def reseedBlocks : Nat := 3
/-- The next HEALTHY source after one, in rotation (11 R344). -/
def nextHealthy (d : Dev) (i : Nat) : Option Nat :=
  ([1, 2, 3, 4].map fun k => (i + k) % 4).find? fun k => (getSrc d k).state == .healthy

/-- The number of a hold in RNG_HOLD (17 R575). -/
def holdCode : HoldKind → Nat | .reseed => 1 | .prReseed => 2 | .kat => 3 | .switch => 4 | .switchInKat => 5
/-- Whether a hold reseeds the DRBG. -/
def holdSeeds (h : Hold) : Bool := h.kind != .kat || h.recover

/-- Start a hold. -/
def holdStart (d : Dev) (h : Hold) : Dev :=
  { d with rng.hold := some { h with since := d.glob.tb }, rng.kat := d.rng.kat || h.kind == .kat
           rng.state := if d.rng.state == .ok then .hold else d.rng.state }

/-- Record a hold that ends: `RNG_WAIT`, RNG_HOLD, the histogram of holds (11 R346, 17 R479). -/
def holdRecord (d : Dev) (h : Hold) : Dev :=
  let ns := (d.glob.tb - h.since).toNat
  let d1 := { d with rng.holds := satInc d.rng.holds, rng.holdUs := satNat 24 (d.rng.holdUs.toNat + ns / 1000) }
  let d2 := amber d1 .rngHold .rng ([BitVec.ofNat 8 (holdCode h.kind), match h.src with | some i => BitVec.ofNat 8 i | none => 0xFF]
    ++ zeros 2 ++ le32 (satNat 32 ns))
  recHist d2 0x500 ns

/-- Enter ERROR: the hold ends unfinished, the reserves are overwritten (11 R351). -/
def rngError (d : Dev) : Dev :=
  let d1 := { d with rng.state := .error, rng.hold := none, rng.kat := false, rng.reserves := false }
  rngCause (amber d1 .rngError .rng []) 0x02

/-- A conditioner's block as octets, bits [7:0] first (11 R342). -/
def blockOctets (r : BitVec 256) : Bytes := leBytes 32 r.toNat
/-- The personalisation string: device ID, boot count, TB (11 R344). -/
def drbgPers (d : Dev) : Bytes := leBytes 16 d.glob.devId.toNat ++ le32 d.glob.bootCnt ++ le64 d.glob.tb

/-- Take a reseed or an instantiation from a source: its three blocks are the entropy input, with the third as the nonce of an
instantiation (11 R344). -/
def rngSeedFrom (d : Dev) (i : Nat) (first : Bool) : Dev :=
  let bs := ((getSrc d i).pool.take reseedBlocks).map blockOctets
  let st := if first then drbgInstantiate (bs.take 2).flatten (bs.drop 2).flatten (drbgPers d)
    else drbgReseed d.rng.drbg bs.flatten (le64 d.glob.tb)
  let d1 := modSrc d i fun s => { s with pool := s.pool.drop reseedBlocks }
  { d1 with rng.drbg := st, rng.seedSrc := BitVec.ofNat 2 i, rng.requests := 0, rng.seedTb := d.glob.tb, rng.reseeds := satInc d.rng.reseeds }

/-! ## Failures (11 R350-R353) -/

/-- 24 hours of TB. -/
def dayNs : Nat := 86400000000000
/-- One second of TB. -/
def secNs : Nat := 1000000000

/-- A failure that counts: RNG_FAIL, `FAILS`, and DEAD at the third within 24 hours (11 R350, R353). -/
def srcCount (d : Dev) (i : Nat) (c : SrcCause) (seed : Bool) : Dev :=
  let s := getSrc d i
  let times := (s.times ++ [d.glob.tb]).filter fun t => decide ((d.glob.tb - t).toNat ≤ dayNs)
  let fails := satInc s.fails
  let dead := 3 ≤ times.length
  let d1 := modSrc d i fun x =>
    { x with state := if dead then .dead else .retired, cause := c, pool := [], blockBad := true, fails := fails, times := times,
             pfRecal := false, retryAt := if dead then none else some (d.glob.tb + BitVec.ofNat 64 secNs) }
  let d2 := rngCause (amber d1 .rngFail .rng [BitVec.ofNat 8 i, BitVec.ofNat 8 (srcCauseCode c), if seed then 1 else 0, fails]) 0x01
  if dead then rngCause (amber d2 .rngDead .rng [BitVec.ofNat 8 i]) 0x08 else d2

/-- ERROR when no HEALTHY source remains. -/
def errorCheck (d : Dev) : Dev :=
  if (healthySrcs d).isEmpty && d.rng.state != .error && d.rng.state != .unseeded then rngError d else d

/-- A failure in service of a HEALTHY source (11 R350). -/
def srcFail (d : Dev) (i : Nat) (c : SrcCause) : Dev :=
  if (getSrc d i).state ≠ .healthy then d
  else
    let supplying := match d.rng.hold with | some h => h.src == some i && holdSeeds h | none => false
    let seed := d.rng.seedSrc.toNat == i || supplying
    let d1 := srcCount d i c seed
    if (healthySrcs d1).isEmpty then
      if d1.rng.state = .error then { d1 with rng.hold := none, rng.kat := false } else rngError d1
    else if !seed then d1
    else
      let next := nextHealthy d1 i
      let d2 := { d1 with rng.switches := satInc d1.rng.switches }
      match d2.rng.hold with
      | some h =>
        let k : HoldKind := if h.kind == .kat || h.kind == .switchInKat then .switchInKat else .switch
        { d2 with rng.hold := some { h with kind := k, src := next } }
      | none => holdStart d2 { kind := .switch, src := next }

/-- CONDITIONER_BLOCK with the tests of its samples: a HEALTHY source that fails one fails in service (11 R341, R350). -/
def condBlockGo (i : Nat) (samples : Bytes) (d : Dev) : Dev :=
  let c := if samples.length = 128 then windowCause (getSrc d i) (sampleBits samples) else .none
  if c = .none then condBlock i samples d else srcFail (condBlock i samples d) i c
def execConditionerBlock (i : Nat) (samples : Bytes) (s : State) : Out3 := onDev s (condBlockGo i samples)
def execRctFailure (i : Nat) (s : State) : Out3 := onDev s fun d => srcFail d i .rct
def execAptFailure (i : Nat) (s : State) : Out3 := onDev s fun d => srcFail d i .apt

/-- FLINT_TRIM_STEP (11 R340): a latch's count of ones in its last 4,096 samples. Which way a code moves the count is a free
value. A RAW job with FREEZE holds the loop (11 R360). -/
def trimStepGo (i latch ones : Nat) (d : Dev) : Dev :=
  let s := getSrc d i
  let frozen := match rawJob d i with | some b => pbit b.e 2 | none => false
  if h : latch < 16 then
    let far := decide (2048 + 40 < ones) || decide (ones + 40 < 2048)
    if s.state == .off || frozen || !far then d
    else
      let up := Config.test .trimUp [] == decide (ones < 2048)
      let t := s.trims[latch]
      if (up && t == 127) || (!up && t == 0) then srcFail d i .trim
      else modSrc d i fun x => { x with trims := x.trims.set latch (if up then t + 1 else t - 1) }
  else d
def execFlintTrimStep (i latch ones : Nat) (s : State) : Out3 := onDev s (trimStepGo i latch ones)

/-! ## Reseeds, tests and the end of a hold -/

/-- RESEED_DUE (11 R344): 2^20 requests, or 100 ms since the last reseed. -/
def reseedDueGo (d : Dev) : Dev :=
  if d.rng.state ≠ .ok || d.rng.hold.isSome then d
  else if d.rng.requests < 2 ^ 20 && (d.glob.tb - d.rng.seedTb).toNat < 100000000 then d
  else holdStart d { kind := .reseed, src := nextHealthy d d.rng.seedSrc.toNat }
def execReseedDue (s : State) : Out3 := onDev s reseedDueGo

/-- Start the inline KAT: the interval counts from here (11 R363). -/
def katStart (d : Dev) : Dev :=
  if d.rng.state ≠ .ok || d.rng.hold.isSome then d else holdStart { d with rng.katTb := d.glob.tb } { kind := .kat }
/-- INLINE_KAT: the interval has passed since the last run. -/
def inlineKatGo (d : Dev) : Dev :=
  if (d.glob.tb - d.rng.katTb).toNat < d.rng.katInt.toNat * secNs then d else katStart d
def execInlineKat (s : State) : Out3 := onDev s inlineKatGo
/-- `RNG_CTL.KAT`. -/
def execRngKat (s : State) : Out3 := onDev s fun d => if barOk d 0 then katStart d else d

/-- Sources that a RECAL write named while they supplied a hold leave rotation now (11 R354). -/
def recalWaiting (d : Dev) : Dev :=
  (List.range 4).foldl (fun acc i =>
    if (getSrc acc i).pfRecal && (getSrc acc i).state == .healthy then modSrc acc i fun s => { s with state := .recal, pool := [] }
    else acc) d

/-- The end of a hold (11 R346, R350-R352): a known-answer test that fails ends in ERROR until the next reset; a reseed takes
its blocks, once the source holds them, and a recovery ends ERROR. `katOk` is the outcome of a known-answer test; a DRBG_KAT has none. -/
def holdEnd (katOk : Bool) (d : Dev) : Dev :=
  match d.rng.hold with
  | none => d
  | some h =>
    let kat := h.kind == .kat || h.kind == .switchInKat
    if kat && !h.byJob && !katOk then
      let d1 := rngCause (holdRecord { d with rng.hold := none, rng.kat := false, rng.katDead := true } h) 0x20
      if d.rng.state = .error then d1 else rngError d1
    else if !holdSeeds h then
      holdRecord { d with rng.hold := none, rng.kat := false, rng.state := if d.rng.state == .hold then .ok else d.rng.state } h
    else
      match h.src with
      | none => d
      | some i =>
        if (getSrc d i).pool.length < reseedBlocks then d
        else
          let d1 := rngSeedFrom { d with rng.hold := none, rng.kat := false, rng.state := .ok, rng.reserves := true } i h.recover
          let d2 := recalWaiting (holdRecord d1 h)
          if h.recover then rngCause (amber d2 .rngRecover .rng []) 0x04 else d2
/-- RNG_HOLD_END: the job that asked for the hold learns how long it took (11 R357). -/
def holdEndGo (katOk : Bool) (d : Dev) : Dev :=
  let d1 := holdEnd katOk d
  match d.rng.hold with
  | none => d1
  | some h =>
    if d1.rng.hold.isSome then d1
    else
      (d1.jobs.live.filter fun b => (isCode 0x9001 b.e || isCode 0x9003 b.e) && b.phase == .placed && b.step == 1).foldl (fun acc b =>
        modJob acc b.id fun x => { x with step := 2, cycles := nsCycles cellRng (d.glob.tb - h.since).toNat }) d1
def execRngHoldEnd (katOk : Bool) (s : State) : Out3 := onDev s (holdEndGo katOk)

/-- RESERVE_REFILL: one request of 512 bytes; none is issued in a hold or in ERROR (11 R345, R346, R351). -/
def reserveRefillGo (d : Dev) : Dev :=
  if d.rng.state ≠ .ok then d else { d with rng.reserves := true, rng.requests := d.rng.requests + 1 }
def execReserveRefill (s : State) : Out3 := onDev s reserveRefillGo

/-! ## Recalibration (11 R352, R354, R355) -/

/-- Whether a recalibration or retry runs. -/
def recalRuns (d : Dev) : Bool := (List.range 4).any fun i => (getSrc d i).state == .recal || (getSrc d i).pfRecal

/-- `RNG_CTL.RECAL` (11 R354). -/
def rngRecalGo (i : Nat) (d : Dev) : Dev :=
  let s := getSrc d i
  if !barOk d 0 || 4 ≤ i then d
  else if recalRuns d || s.state == .dead || s.state == .raw || !((healthySrcs d).any (· != i)) then rngCause d 0x10
  else
    let supplying := match d.rng.hold with | some h => h.src == some i && holdSeeds h | none => false
    if supplying && s.state == .healthy then modSrc d i fun x => { x with pfRecal := true }
    else modSrc d i fun x => { x with state := .recal, pool := [], pfRecal := true }
def execRngRecal (i : Nat) (s : State) : Out3 := onDev s (rngRecalGo i)

/-- A source becomes HEALTHY: in ERROR without a failed KAT, the recovery of 11 R352 starts. -/
def srcHealthy (d : Dev) (i : Nat) : Dev :=
  let d1 := modSrc d i fun x => { x with state := .healthy, pfRecal := false, retryAt := none }
  if d1.rng.state = .error && !d1.rng.katDead && d1.rng.hold.isNone then
    holdStart { d1 with rng.katTb := d1.glob.tb } { kind := .kat, src := some i, recover := true }
  else d1

/-- RECAL_DONE: the sweep's trims go to MRAM, and the start-up tests decide (11 R355). A source back from RAW only runs the
tests (11 R360). -/
def recalDoneGo (i : Nat) (pass : Bool) (trims : List Nat) (d : Dev) : Dev :=
  let s := getSrc d i
  if h : i < 4 then
    if s.state ≠ .recal && s.state ≠ .startup then d
    else
      let swept := s.state == .recal
      let t : Vector (BitVec 7) 16 := Vector.ofFn fun k => BitVec.ofNat 7 (trims.getD k.val 64)
      let d1 := if swept then
          let e := modSrc d i fun x => { x with trims := t }
          { e with rng.mramTrims := e.rng.mramTrims.set i (some t) }
        else d
      if pass then srcHealthy d1 i
      else if s.pfRecal then errorCheck (srcCount d1 i .startup (d.rng.seedSrc.toNat == i))
      else errorCheck (modSrc d1 i fun x =>
        { x with state := .retired, cause := .startup, retryAt := some (d.glob.tb + BitVec.ofNat 64 secNs) })
  else d
def execRecalDone (i : Nat) (pass : Bool) (trims : List Nat) (s : State) : Out3 := onDev s (recalDoneGo i pass trims)

/-- SOURCE_RETRY: one second after its retirement, one source at a time, in source order (11 R352). -/
def sourceRetryGo (i : Nat) (d : Dev) : Dev :=
  let due (k : Nat) : Bool :=
    (getSrc d k).state == .retired && (match (getSrc d k).retryAt with | some t => decide (t ≤ d.glob.tb) | none => false)
  if recalRuns d || !due i || (List.range i).any due then d
  else modSrc d i fun x => { x with state := .recal, pool := [] }
def execSourceRetry (i : Nat) (s : State) : Out3 := onDev s (sourceRetryGo i)

/-! ## SEED (11 R348) -/

/-- A block that the start-up samples give: a free value (log 4). -/
def startBlock (boot : U32) (i k : Nat) : BitVec 256 :=
  BitVec.ofNat 256 (leNat (Config.prim .flintBlock [le32 boot, leBytes 1 i, leBytes 1 k]))

/-- The factory trims of block FLINT_TRIM, or the mid-range code (15 R448). -/
def factoryTrims (d : Dev) (i : Nat) : Vector (BitVec 7) 16 :=
  let b := mapGet [] d.boot.blocks 4
  Vector.ofFn fun l => if b.isEmpty then 64 else (byteAt b (16 * i + l.val)).setWidth 7

/-- SEED: trims from MRAM or from the factory, the start-up tests of the sources, the KATs, the instantiation and the reserves. `ok` says which
sources pass, after at most two retries. Answers whether the device may leave SEED. -/
def rngSeed (d : Dev) (ok : List Bool) (katOk : Bool) : Dev × Bool :=
  let start (i : Nat) : Src :=
    let pass := ok.getD i true
    { state := if pass then .healthy else .retired, cause := if pass then .none else .startup,
      pool := if pass then (List.range 4).map (startBlock d.glob.bootCnt i) else []
      trims := ((if h : i < 4 then d.rng.mramTrims[i] else none)).getD (factoryTrims d i)
      retryAt := none }
  let d1 := { d with rng := { mramTrims := d.rng.mramTrims, katInt := d.rng.katInt, event := d.rng.event, state := .startup, katTb := d.glob.tb,
                              srcs := Vector.ofFn fun i => start i.val } }
  let d2 := (List.range 4).foldl (fun acc i =>
    if ok.getD i true then acc
    else rngCause (amber acc .rngFail .rng [BitVec.ofNat 8 i, 4, 0, 0]) 0x01) d1
  let good := 2 ≤ (healthySrcs d2).length && katOk
  match (healthySrcs d2).head? with
  | some i => if katOk then
      (({ rngSeedFrom d2 i true with rng.state := .ok, rng.reserves := true } : Dev), good) else (d2, good)
  | none => (d2, good)

/-- Sources retired in SEED are retried from one second after READY (11 R348, R352). -/
def rngReady (d : Dev) : Dev :=
  (List.range 4).foldl (fun acc i =>
    if (getSrc acc i).state == .retired then modSrc acc i fun s => { s with retryAt := some (d.glob.tb + BitVec.ofNat 64 secNs) }
    else acc) d

/-! ## Random-class jobs (11 R356-R361) -/

/-- What a DRBG's state has become through the requests that filled reserves, job buffers and scrubs since it was last held here: how many
there were is open, a free value (log 166). -/
def drbgNow (d : Dev) : DrbgSt :=
  let x := fun (k : Nat) => Config.prim .drbgSpent [d.rng.drbg.key, d.rng.drbg.v, leBytes 8 d.glob.drbgCtr, leBytes 1 k]
  { key := fit 32 (x 0), v := fit 16 (x 1) }
/-- Requests of at most 65,536 bytes, additional input with the first (11 R344, R357). -/
def drbgRequests : Nat → DrbgSt → Bytes → Nat → Bytes × DrbgSt
  | 0, s, _, _ => ([], s)
  | k + 1, s, add, n =>
    let r := drbgGenerate s add (min 65536 n)
    let t := drbgRequests k r.2 [] (n - min 65536 n)
    (r.1 ++ t.1, t.2)

/-- GENERATE: with PR it first holds the DRBG for a reseed; later requests wait for a hold to end (11 R357). -/
def generateRun (d : Dev) (b : Job) : Dev :=
  let n := pbits b.e 0 24
  let pr := pbit b.e 31
  let reqs := cdiv n 65536
  if pr && b.step = 0 then
    if d.rng.hold.isSome then d
    else modJob (holdStart d { kind := .prReseed, src := nextHealthy d d.rng.seedSrc.toNat }) b.id fun x => { x with step := 1 }
  else if d.rng.hold.isSome && (pr || 1 < reqs) then d
  else
    let r := drbgRequests reqs (drbgNow d) b.auxData n
    finishOut { d with rng.drbg := r.2, rng.requests := d.rng.requests + reqs } b r.1 0 0 0
      (64 + cdiv n 8 + 40 * reqs + (if pr then b.cycles else 0))
def execGenerate (j : Nat) (s : State) : Out3 := onDev s (service j (isCode 0x9001) generateRun)

/-- COND_KAT: the conditioner over 1,024 given samples, from 0. -/
def condKatRun (d : Dev) (b : Job) : Dev :=
  finishOut d b (leBytes 32 (condRun 0 (sampleBits b.inData)).toNat) 0 0 0 1040
def execCondKat (j : Nat) (s : State) : Out3 := onDev s (service j (isCode 0x9002) condKatRun)

/-- The output of the DRBG_KAT sequence (11 R359). -/
def drbgKat (e : Sqe) (x : Bytes) : Bytes :=
  let n := pbits e 0 10
  let add (off : Nat) : Bytes := if pbit e 17 then slice x off 32 else []
  let s0 := drbgInstantiate (slice x 0 32) (slice x 32 16) (if pbit e 16 then slice x 48 32 else [])
  let s1 := drbgReseed s0 (slice x 80 32) (add 112)
  (drbgGenerate (drbgGenerate s1 (add 144) n).2 (add 176) n).1
/-- DRBG_KAT is an inline KAT hold: the job starts it and completes after it (11 R359). In ERROR it runs at once. -/
def drbgKatRun (d : Dev) (b : Job) : Dev :=
  if b.step = 0 && d.rng.state != .error then
    if d.rng.hold.isSome then d else modJob (holdStart d { kind := .kat, byJob := true }) b.id fun x => { x with step := 1 }
  else if d.rng.hold.isSome then d
  else finishOut d b (drbgKat b.e b.inData) 0 0 0 (min 8000 (unstated b.e))
def execDrbgKat (j : Nat) (s : State) : Out3 := onDev s (service j (isCode 0x9003) drbgKatRun)

/-- A source leaves RAW: one that was HEALTHY goes through the start-up tests, another returns to its former state. -/
def rawLeave (d : Dev) (i : Nat) : Dev :=
  modSrc d i fun s =>
    if s.state == .raw then
      { s with state := if s.former == .healthy then .startup else s.former, blockBad := true
               retryAt := s.retryAt.map fun _ => d.glob.tb + BitVec.ofNat 64 secNs }
    else s
/-- Sources leave RAW when their job has gone. -/
def rawLeaveAll (d : Dev) : Dev := (List.range 4).foldl (fun acc i => if (rawJob acc i).isNone then rawLeave acc i else acc) d
/-- RAW: the source leaves rotation, and the job ends once its samples, one a cycle, have arrived; what it takes besides is free
(11 R339, R360; log 4). -/
def rngRawRun (d : Dev) (b : Job) : Dev :=
  let i := pbits b.e 0 2
  let n := b.e.outCap.toNat
  if b.step = 0 then
    let supplying := match d.rng.hold with | some h => h.src == some i && holdSeeds h | none => false
    if supplying then d
    else modJob (modSrc d i fun s => { s with former := s.state, state := .raw, pool := [], blockBad := true }) b.id fun x =>
      { x with step := 1, result := 0, part2 := [] }
  else if b.part2.length < n then d
  else finishOut (rawLeave d i) b (b.part2.take n) b.result 0 0 (8 * n + unstated b.e)
/-- The service of RAW: a job that ends early leaves RAW as well. -/
def rawService (j : Nat) (d : Dev) : Dev :=
  match findJob d j with
  | some b =>
    if isCode 0x9004 b.e && b.phase == .placed && b.step == 1 && (b.abort.isSome || late d b.e) then
      service j (isCode 0x9004) rngRawRun (rawLeave d (pbits b.e 0 2))
    else service j (isCode 0x9004) rngRawRun d
  | none => d
def execRngRaw (j : Nat) (s : State) : Out3 := onDev s (rawService j)

end Sys2Proof.Machine
end

