-- ==== Sys2Proof/Machine/Session.lean ====
section
/-!
DEFINITION. The handshake between the lead and a member: its messages, its checks and the session keys (18 R510, R511). A message
travels in HANDSHAKE frames of up to 511 bytes behind its number (log 38).
-/
namespace Sys2Proof.Machine

/-- The lengths of the three messages: nonce and key; ek, nonce, key and signature; ciphertext and signature. -/
def hs1Len : Nat := 32 + 2592
def hs2Len : Nat := 1568 + 32 + 2592 + 4627
def hs3Len : Nat := 1568 + 4627

/-- Send a message and add it to the transcript. -/
def hsSend (d : Dev) (n k : Nat) (msg : Bytes) : Dev :=
  (chunks 511 msg.length msg).foldl (fun acc c => sendFrame acc n .handshake (BitVec.ofNat 8 k :: c))
    (modNode d n fun x => { x with hsBytes := x.hsBytes ++ msg })

/-- Message 1: the lead's nonce and identity key (R510 step 1). -/
def hsStart (d : Dev) (n : Nat) (renew : Bool) : Dev :=
  let r := draw d 32
  hsSend (modNode r.2 n fun x => { x with stage := 1, hsBytes := [], renew := renew, nextKey := [] }) n 1 (r.1 ++ idPk d)

/-- A node begins to join: a new session with ESEQ from 0 (18 R520). -/
def joinStart (d : Dev) (n : Nat) : Dev :=
  hsStart (modNode d n fun x => { x with state := .joining, tx := 0, rx := 0, early := [], secret := [] }) n false

/-- A signature of a handshake by this node, ML-DSA-87 in pure mode. -/
def hsSign (d : Dev) (ctx : String) (body : Bytes) : Bytes × Dev :=
  let r := draw d 32
  (match dsaSignMsg 3 (idSk d) (mPure (ascii ctx) body) r.1 with | some x => x.2 | none => zeros 4627, r.2)
/-- The verdict on a signature of a handshake. -/
def hsVerify (pk : Bytes) (ctx : String) (body sig : Bytes) : Bool :=
  dsaVerifyMsg 3 pk (mPure (ascii ctx) body) sig
/-- Whether an identity key is the one that ALLOW row `n` names. -/
def hsAllowed (d : Dev) (n : Nat) (pk : Bytes) : Bool := mapGet [] d.fab.allow n == sha384 pk

/-- What the member's signature covers: N_L ‖ N_M ‖ node ‖ ek. -/
def hs1Signed (nl nm : Bytes) (n : Nat) (ek : Bytes) : Bytes := nl ++ nm ++ leBytes 1 n ++ ek
/-- The keys of both directions: KMAC256(ss, T′, 512, "SQ-FAB-SESS"). -/
def hsKey (ss transcript : Bytes) : Bytes := kmac256 ss (sha384 transcript) 64 (ascii "SQ-FAB-SESS")

/-- The member has message 1 (R510 step 2). -/
def hsMember1 (d : Dev) : Dev :=
  let t := (getNode d 0).hsBytes
  let nl := slice t 0 32
  if !hsAllowed d 0 (slice t 32 2592) then modNode d 0 fun x => { x with stage := 0, hsBytes := [] }
  else
    let r := draw d 64
    let (ek, s, pub) := kemNew 3 r.1
    let dk := slice s 0 (kemEk 3 - 32) ++ pub ++ slice s (kemEk 3 - 32) 32
    let r2 := draw r.2 32
    let (sig, d1) := hsSign r2.2 "SQ-FAB-HS1" (hs1Signed nl r2.1 d.glob.node ek)
    hsSend (modNode d1 0 fun x => { x with stage := 2, ephem := dk }) 0 2 (ek ++ r2.1 ++ idPk d ++ sig)

/-- The lead has message 2: none when the member's identity fails, else the message 3 that it sends and the keys (R510 step 3). -/
def hsLead2 (d : Dev) (n : Nat) : Option Dev :=
  let t := (getNode d n).hsBytes
  let m := t.drop hs1Len
  let ek := slice m 0 1568
  let nm := slice m 1568 32
  let pk := slice m 1600 2592
  let sig := slice m 4192 4627
  if !hsAllowed d n pk || !hsVerify pk "SQ-FAB-HS1" (hs1Signed (slice t 0 32) nm n ek) sig then none
  else
    let r := draw d 32
    let (ct, ss) := kemEnc 3 ek r.1
    let (sig3, d1) := hsSign r.2 "SQ-FAB-HS2" (sha384 t ++ ct)
    let d2 := hsSend (modNode d1 n fun x => { x with stage := 3 }) n 3 (ct ++ sig3)
    some (modNode d2 n fun x => { x with nextKey := hsKey ss x.hsBytes })

/-- The member has message 3: the keys, where the lead's signature holds (R510 step 4). -/
def hsMember3 (d : Dev) : Dev :=
  let x := getNode d 0
  let t := x.hsBytes
  let m := t.drop (hs1Len + hs2Len)
  let ct := slice m 0 1568
  if !hsVerify (slice t 32 2592) "SQ-FAB-HS2" (sha384 (t.take (hs1Len + hs2Len)) ++ ct) (slice m 1568 4627) then
    modNode d 0 fun y => { y with stage := 0, hsBytes := [], ephem := [] }
  else
    let k := hsKey (kemDec 3 x.ephem ct) t
    if x.renew then modNode d 0 fun y => { y with stage := 3, nextKey := k, ephem := [], hsBytes := [] }
    else modNode d 0 fun y => { y with stage := 0, secret := k, state := .member, ephem := [], hsBytes := [] }

end Sys2Proof.Machine
end

