-- ==== Sys2Proof/Machine/Start.lean ====
section
/-!
DEFINITION. The start sequence: what a start keeps, BOOT, SELFTEST, LOAD, SEED and READY (15 R439-R448; 01 R24-R30; 08 R290;
11 R348; 12 R373-R376, R392; 13 R403; 16 R458-R466).
-/
namespace Sys2Proof.Machine

/-! ## What a start keeps (01 R30) -/

/-- Everything but what a start that reloads the device keeps: OTP, MRAM, NVM, the Bedrock domain, the pins, and what is on its
way to the outside. -/
def freshBoot (d : Dev) : Dev :=
  { glob := { rstCause := d.glob.rstCause, tb := d.glob.tb, bootCnt := d.glob.bootCnt, st := d.glob.st, step := d.glob.step
              safeCause := d.glob.safeCause, porAsserted := d.glob.porAsserted, perstAsserted := d.glob.perstAsserted
              refclk := d.glob.refclk, vddBr := d.glob.vddBr, jtagHold := d.glob.jtagHold, strapFab := d.glob.strapFab
              strapSmb := d.glob.strapSmb, heldResets := d.glob.heldResets, hardZ := d.glob.hardZ, zmark := d.glob.zmark
              armed := d.glob.armed, drbgCtr := d.glob.drbgCtr, freeCtr := d.glob.freeCtr, devId := d.glob.devId
              lcCode := d.glob.lcCode, node := d.glob.node }
    hif := { aerTimeout := d.hif.aerTimeout, aerPoison := d.hif.aerPoison, aerInternal := d.hif.aerInternal, out := d.hif.out }
    jobs := { nextId := d.jobs.nextId, nextPlace := d.jobs.nextPlace }
    jrn := { entries := d.jrn.entries, next := d.jrn.next, writes := d.jrn.writes }
    ks := { slots := d.ks.slots, freeSeq := d.ks.freeSeq, salts := d.ks.salts, zsalt := d.ks.zsalt, wiped := d.ks.wiped }
    ss := { keys := d.ss.keys, idxMax := d.ss.idxMax }
    engs := d.engs.map fun r => { svc := if r.svc = .retired then .retired else .inService }
    rng := { mramTrims := d.rng.mramTrims }
    recd := { banks := d.recd.banks }
    amb := d.amb
    bdr := d.bdr
    tmon := { d.tmon with resp := 0, lock := false }
    jtag := d.jtag
    bist := { d.bist with isEn := true, isInt := 0x0A, isDrain := 0x03E8, inst := 0, force := false, result := 0, event := 0
                          evInst := 0, queue := [], forced := [], kindTurn := 0, tested := [], supvErr := false }
    otp := d.otp
    boot := { nvm := d.boot.nvm, cfgMin := d.boot.cfgMin, imgRel := d.boot.imgRel }
    fab := {} }

/-- What a soft reset keeps beside that: the configuration space, SR-IOV and MSI-X tables with the link, and the locked
policies (01 R30, 10 R337, 12 R398). -/
def keepPci (old d : Dev) : Dev :=
  { d with hif := { d.hif with linkUp := old.hif.linkUp, speed := old.hif.speed, width := old.hif.width, numVfs := old.hif.numVfs
                               vfEn := old.hif.vfEn, fns := old.hif.fns, msix := old.hif.msix }
           tmon := old.tmon
           ks.zpol := old.ks.zpol, ks.zlock := old.ks.zlock }

/-! ## SAFE (01 R25, R28) -/

/-- Enter SAFE with a cause. -/
def enterSafe (cause : Byte) (d : Dev) : Dev := setState { d with glob.safeCause := cause } .safe

/-- Go on with a stage while the device is in its state. -/
def inStage (st : DevState) (f : Dev → Dev) (d : Dev) : Dev := if d.glob.st = st then f d else d

/-! ## BOOT (15 R439-R447) -/

/-- The choice of a slot, with the directory's changes: the slot and its sections, or the cause for SAFE. An EMPTY slot is no
failure other than anti-rollback (log 43). -/
def chooseSlot (d : Dev) : Dev × Except Byte (Nat × Sect × Sect) :=
  let s0 := d.boot.dir.active
  let (s1, d1) :=
    if slotState d.boot.dir s0 = slTrial then
      if 3 ≤ d.boot.dir.trials then
        (otherSlot s0, dirWrite d fun r => { setSlotState s0 slBad r with active := otherSlot s0 })
      else (s0, dirWrite d fun r => { r with trials := r.trials + 1 })
    else (s0, d)
  let live (s : Nat) : Bool := slotState d1.boot.dir s == slTrial || slotState d1.boot.dir s == slGood
  let s2 := if live s1 then s1 else otherSlot s1
  match authSlot d1 s2 with
  | .ok x => (d1, .ok (s2, x))
  | .error e1 =>
    match authSlot d1 (otherSlot s2) with
    | .ok x => (d1, .ok (otherSlot s2, x))
    | .error e2 =>
      let empty (s : Nat) : Bool := slotState d1.boot.dir s == slEmpty
      let roll (s : Nat) (e : Byte) : Bool := e == brRollback || empty s
      let only := roll s2 e1 && roll (otherSlot s2) e2 && !(empty s2 && empty (otherSlot s2))
      (d1, .error (if only then 4 else 3))

/-- BOOT from step 0x03 on: the directory, the slot, both sections, the supervisor firmware. -/
def bootImage (env : StartEnv) (d : Dev) : Dev :=
  let d := { d with boot.nvmMode := env.nvmMode }
  if env.nvmMode = 3 || !env.nvmOk then enterSafe 3 { d with boot.recovery := true, boot.nvmGone := env.nvmMode == 3 || !env.nvmOk }
  else
    let d1 := { d with boot.dir := dirRead d.boot.nvm }
    match chooseSlot d1 with
    | (d2, .error c) => enterSafe c { d2 with boot.recovery := true }
    | (d2, .ok (s, v, _)) =>
      let back := s != d1.boot.dir.active
      let d3 := { d2 with boot.slot := s, boot.imgRel := relWord s v, boot.fallback := back }
      let d4 := if back then bootCause d3 2 else d3
      let fw := v.comps.filter fun c => c.type == 1
      if fw.isEmpty || !fw.all (compGood d4.boot.nvm s) then enterSafe 3 d4
      else setState d4 .selftest

/-- BOOT steps 0x01 and 0x02: life cycle, ZMARK. -/
def bootLife (env : StartEnv) (d : Dev) : Dev :=
  let d1 := readEpoch { d with glob.devId := d.otp.devId, glob.lcCode := lcState d.otp }
  let d2 := { d1 with bdr.lcStat := BitVec.ofNat 36 (lcStatWord d1) }
  let d3 := if d2.glob.zmark then amber { wipeSalts d2 with glob.zmark := false } .zeroiseResumed (.bedrock 0) [] else d2
  match lcPending d3.otp with
  | some s => heldSteps env s (intentCode (lcSlot d3.otp s).intent) [1, 2, 3, 4, 5, 6] (setState d3 .held)
  | none =>
    if d3.glob.lcCode = 0xFF then setState (amber d3 .lcInvalid .supv []) .scrapped
    else if d3.glob.lcCode = 5 then setState d3 .scrapped
    else d3

/-! ## SELFTEST (16 R458-R466) -/

/-- The patterns that a partition requires: boot-ROM values, free (log 4). -/
def lExpect (p : Nat) : BitVec 24 := BitVec.ofNat 24 (Config.count .bistExpect [leBytes 1 p])

/-- The record of a partition's logic test (16 R465). -/
def logicRes (p : Nat) (r : LogicRec) : LRes :=
  let n := r.count.getD (lExpect p)
  let full := n == lExpect p
  { result := if full && r.done && !r.orderErr then (if r.sigOk then 1 else 2) else 3
    sigOk := r.sigOk, done := r.done, orderErr := r.orderErr, count := n }

/-- The logic records of a start. -/
def logicRun (env : StartEnv) : SMap LRes :=
  (List.range 37).map fun p => (p, logicRes p (((env.logic.find? fun e => e.1 == p).map (·.2)).getD {}))

/-- SELFTEST: the temperature condition, the memories, the logic partitions. Retired instances are tested again. -/
def selfTest (env : StartEnv) (d : Dev) : Dev :=
  let tj : Byte := BitVec.ofInt 8 (env.tjHi / 8)
  if env.tjLo < -320 || 880 < env.tjHi then
    enterSafe 8 { d with bist := { d.bist with mem := 0, logic := 0, cond := true, lpart := 0xFF, tj := tj, lres := [], mfValid := false } }
  else
    let lres := logicRun env
    let bad := lres.find? fun e => e.2.result != 1
    let f := env.memFail.getD {}
    let d1 := { d with
      engs := d.engs.map fun r => { r with svc := .inService }
      bist := { d.bist with
        cond := false, tj := tj, lres := lres
        mem := if !env.memOk then 3 else if env.repaired != 0 then 2 else 1
        logic := match bad with | none => 1 | some e => e.2.result
        lpart := match bad with | none => 0xFF | some e => BitVec.ofNat 8 e.1
        mfCode := f.code, mfAddr := f.addr, mfBit := f.bit, mfRepaired := f.repaired, mfCount := if env.memFail.isSome then f.count else 0
        mfValid := env.memFail.isSome, repaired := env.repaired, spareMin := env.spareMin, codeMin := env.codeMin } }
    if !env.memOk then enterSafe 1 d1 else if bad.isSome then enterSafe 2 d1 else setState d1 .load

/-! ## LOAD (15 R439, R448; 08 R290; 13 R403) -/

/-- The shares of the PF after a start: those of PF_SHARES, raised to what it already holds (13 R403). -/
def pfShares (d : Dev) : Shares :=
  let s := ((cfgBlock d 1).bind sharesOfBytes).getD {}
  let up {w : Nat} (v : BitVec w) (n : Nat) : BitVec w := if v.toNat < n then BitVec.ofNat w n else v
  { s with gran := up s.gran (persistGran d 0), pkey := up s.pkey (persistCount d 0), sskey := up s.sskey (statefulCount d 0)
           jrn := up s.jrn (jrnHeld d 0).length }

/-- Whether a node's routes use one of its ports (18 R503, R529). -/
def portUsed (b : Bytes) (n p : Nat) : Bool :=
  (List.range 64).any fun k =>
    let r := byteAt b (0x10 + 64 * n + k)
    (r.getLsbD 3 && r.toNat % 4 == p) || (r.getLsbD 7 && r.toNat / 16 % 4 == p)

/-- What the blocks set when they are loaded. -/
def applyBlocks (d : Dev) : Dev :=
  let d1 := setOwn d 0 { getOwn d 0 with state := .active, sh := pfShares d, sqBase := 0, cqBase := 0 }
  let d2 := match cfgBlock d 7 with
    | some b => { d1 with dlr.dutyOn := byteAt b 0, dlr.dutyOff := byteAt b 1, dlr.dutyMax := (byteAt b 2).setWidth 3 }
    | none => d1
  let d3 := match cfgBlock d 8 with | some b => { d2 with rng.katInt := byteAt b 0 } | none => d2
  let d4 := match cfgBlock d 9 with
    | some b => { d3 with recd.ckptS := byteAt b 0, recd.mirrorMs := (u16At b 2).setWidth 10
                          amb.tokens := (recOverrides b).foldl (fun m e => mapSet 8 m e.1 e.2.1) []
                          amb.refill := (recOverrides b).foldl (fun m e => mapSet 100 m e.1 e.2.2) [] }
    | none => { d3 with amb.tokens := [], amb.refill := [] }
  match cfgBlock d 0xA with
  | some b =>
    if byteAt b 0 = 0 then d4
    else { d4 with fab := { d4.fab with
        role := if d.glob.node = 0 then .lead else .member, enc := byteAt b 1 == 1, syLead := (byteAt b 2).toNat, syMember := (byteAt b 3).toNat
        nodes := u64At b 8
        ports := Vector.ofFn fun p => { state := if portUsed b d.glob.node p.val then 0 else 3 }
        routes := (List.range 4096).foldl (fun m k => mapSet 0 m k (byteAt b (0x10 + k))) []
        allow := (List.range 64).foldl (fun m k => let h := slice b (0x1010 + 48 * k) 48; mapSet [] m k (if allZero h then [] else h)) []
        node := if d.glob.node = 0 then mapSet {} [] 0 { state := .member } else [] } }
  | none => d4

/-- A table image as a memory. -/
def tableOf (b : Bytes) : SMap Byte := memWrite [] 0 b

/-- The configured deal table: block DEAL, or the planner's (01 R30, 15 R448). -/
def configTable (d : Dev) : Except Nat (SMap Byte) :=
  match cfgBlock d 2 with
  | some b => .ok (tableOf b)
  | none => planTable d

/-- Put the configured table in force: the Dealer starts from it with its first trick's occupants. -/
def setTable (d : Dev) : Dev :=
  let g : Dlr := { dutyOn := d.dlr.dutyOn, dutyOff := d.dlr.dutyOff, dutyMax := d.dlr.dutyMax, level := d.dlr.level }
  match configTable d with
  | .ok t =>
    let d1 := decide32 { d with dlr := { g with act := t } } t 0
    { d1 with dlr.occ := d1.dlr.occNext }
  | .error n => { d with dlr := { g with chkCode := 9, chkStage := BitVec.ofNat 3 n, chkTrick := 0x3F } }

/-- The component that a sequencer loads, of a type and by its instance bit. -/
def compFor (cs : List Comp) (type inst : Nat) : Option Comp := cs.find? fun c => c.type == type && c.mask.getLsbD inst
/-- The type and instance of a sequencer: cores 0x02, modular engines 0x04, tree sequencers 0x05. -/
def seqComp (u : Nat) : Nat × Nat := if u < 16 then (2, u) else if u < 24 then (4, u - 16) else (5, u - 24)

/-- The vendor images that a core's program memory takes from a slot (07 R261). -/
def vendorProgs (n : SMap Byte) (s : Nat) (cs : List Comp) (u : Nat) : Bytes :=
  if u < 16 then ((cs.filter fun c => c.type == 3 && c.mask.getLsbD u).map (compBytes n s)).flatten else []
/-- The bank that is not active takes a component (08 R291). -/
def fillOther (bs : Bytes) (x : UStore) : UStore := if x.bank then { x with bankA := bs } else { x with bankB := bs }

/-- Load every sequencer's bank A and make it active (08 R290). -/
def loadStores (d : Dev) (cs : List Comp) : Dev :=
  { d with stores := (Vector.range 28).map fun u =>
      let progs := vendorProgs d.boot.nvm d.boot.slot cs u
      match compFor cs (seqComp u).1 (seqComp u).2 with
      | some c => { actVer := c.version, actCrc := c.crc, bankA := compBytes d.boot.nvm d.boot.slot c, progs := progs }
      | none => { progs := progs } }

/-- The measurement of a component that is one digest as authenticated. -/
def measOf (c : Option Comp) : Meas := match c with | some c => { version := c.version, digest := c.sha } | none => { digest := zeros 48 }
/-- The measurement of a core: its control store and dispatch table with the vendor images; how the digests join is free
(log 4). -/
def measCore (cs : List Comp) (i : Nat) : Meas :=
  match compFor cs 2 i with
  | some c =>
    let imgs := cs.filter fun x => x.type == 3 && x.mask.getLsbD i
    { version := c.version, digest := fit 48 (Config.prim .measJoin (c.sha :: imgs.map (·.sha))) }
  | none => { digest := zeros 48 }
/-- A version that the spec does not give to a measurement: free (log 4). -/
def measVer (k : Nat) (parts : List Bytes) : U16 := BitVec.ofNat 16 (Config.count .measVersion (leBytes 1 k :: parts))
/-- The measurement of the installed custom images, in PROG order, each once. -/
def measCustom (m : SMap Image) : Meas :=
  let bs : List Bytes := ((List.range 64).map fun p => ((m.filter fun e => e.1 % 64 == p).map fun e => e.2.bytes).eraseDups).flatten
  { version := measVer 6 bs, digest := sha384 bs.flatten }
/-- The measurement of the configuration blocks in force. -/
def measConfig (m : SMap Bytes) : Meas :=
  let bs := m.map fun e => leBytes 2 e.1 ++ e.2
  { version := measVer 7 bs, digest := fit 48 (Config.prim .measJoin bs) }
/-- The measurement of the boot ROM, whose contents the spec does not give: free (log 4). -/
def measRom : Meas := { version := measVer 1 [], digest := fit 48 (Config.prim .bootRom []) }

/-- The measurements of a start, all but the deal table's (12 R392). -/
def measStart (d : Dev) (cs : List Comp) : List Meas :=
  [measRom, measOf (cs.find? fun c => c.type == 1)] ++ (List.range 16).map (measCore cs)
    ++ (List.range 8).map (fun i => measOf (compFor cs 4 i)) ++ (List.range 4).map (fun i => measOf (compFor cs 5 i))
    ++ [measCustom d.boot.custom, measConfig d.boot.blocks]

/-- The identity seeds (12 R375, R376). -/
def idSeeds (d : Dev) : Dev :=
  if d.ks.nodus then d
  else { d with ks.idMldsa := deriveKey d "SQ-ID-MLDSA" (devIdBytes d) 256, ks.idP384 := deriveKey d "SQ-ID-P384" (devIdBytes d) 448 }

/-- `TMON_RESP` and `KS_ZPOL`, written once and locked (10 R337, 12 R398). -/
def lockPolicy (d : Dev) : Dev :=
  let b := (cfgBlock d 3).getD [0, 0]
  let d1 := if d.tmon.lock then d else { d with tmon.resp := (byteAt b 0).setWidth 5, tmon.lock := true }
  if d1.ks.zlock then d1 else { d1 with ks.zpol := (byteAt b 1).setWidth 6, ks.zlock := true }

/-- LOAD. -/
def load (env : StartEnv) (d : Dev) : Dev :=
  let d := recVolatile (recLoad d env.badRecs)
  match authSlot d d.boot.slot with
  | .error _ => enterSafe 3 d
  | .ok (v, i) =>
    let cs := v.comps ++ i.comps
    let n := d.boot.nvm
    let s := d.boot.slot
    if !compsGood n s cs (· == 0x10) then enterSafe 3 d
    else
      match loadBlocks d env.routesOk (sectBlocks n s i) with
      | .error k => enterSafe 5 { d with boot.block := BitVec.ofNat 16 k }
      | .ok m =>
        let d1 := applyBlocks { d with boot.blocks := m }
        if !compsGood n s cs (fun t => decide (2 ≤ t) && decide (t ≤ 5)) then enterSafe 3 d1
        else if env.storeBad then enterSafe 9 d1
        else if !compsGood n s cs (· == 0x11) then enterSafe 3 d1
        else
          let d2 := loadStores d1 cs
          let d3 := { d2 with boot.custom := installCustom d2 n s (customComps i) }
          match cfgBlock d3 2, checkTable d3 (tableOf ((cfgBlock d3 2).getD [])) with
          | some _, some _ => enterSafe 5 { d3 with boot.block := 2 }
          | _, _ =>
            let d4 := idSeeds (lockPolicy (setTable d3))
            setState { d4 with boot.meas := measStart d4 cs } .seed

/-! ## SEED (11 R348; 12 R373; 02 R84) -/

/-- A persistent key whose tag fails is BROKEN and reported; the others of the PF are split into fresh shares (12 R373). -/
def openKeys (badTags : List Nat) (d : Dev) : Dev :=
  d.ks.slots.foldl (fun acc e =>
    match e.2.obj with
    | none => acc
    | some k =>
      if !(k.persist || k.stateful) || k.broken then acc
      else if badTags.contains e.1 then
        let o := e.1 / 65536
        let acc1 := setSlot acc o (e.1 % 65536) { e.2 with obj := some { k with broken := true } }
        amber acc1 .pkeyBad .ks ([BitVec.ofNat 8 o, 0] ++ leBytes 2 (e.1 % 65536))
      else if k.persist && e.1 / 65536 = 0 then
        let (x, y, acc1) := splitSecret acc (secretOf k)
        setSlot acc1 0 (e.1 % 65536) { e.2 with obj := some { k with shareA := x, shareB := y } }
      else acc) d

/-- After a hard zeroise the supervisor frees every persistent and stateful record and draws new salts; otherwise the keys are
opened. Fate entries are resolved. -/
def openRecords (env : StartEnv) (d : Dev) : Dev :=
  if d.ks.wiped then
    let os := (d.ks.slots.map fun e => e.1 / 65536).eraseDups
    let d1 := needZsalt (freeRecords d)
    os.foldl (fun acc o => needSalts acc o) d1
  else openKeys env.badTags (resolveOwners d (fun _ => true) false)

/-- The store opens for READY, where each owner's context key is derived: with a usable epoch, the device's salt is first needed then
(04 R132; 12 R375). -/
def openStore (env : StartEnv) (d : Dev) : Dev := let d1 := openRecords env d; if d1.ks.nodus then d1 else needZsalt d1

/-- A lead in READY begins the join of every node of the fabric that has an ALLOW row and a route (18 R520). -/
def joinAll (d : Dev) : Dev :=
  if d.fab.role != .lead then d
  else
    ((List.range 64).drop 1).foldl (fun acc n =>
      if d.fab.nodes.getLsbD n && !(mapGet [] d.fab.allow n).isEmpty && (routeOf d n false).isSome
          && ((getNode acc n).state == .absent || (getNode acc n).state == .lost) then
        joinStart acc n
      else acc) d

/-- Entry to READY. A member holds its PCIe link in Detect.Quiet (18 R501). -/
def enterReady (d : Dev) : Dev :=
  let d0 := rngReady (setState d .ready)
  let d1 := if isMember d0 then { d0 with hif := { d0.hif with linkUp := false, speed := 0, width := 0 } } else d0
  let d2 := if slotState d1.boot.dir d1.boot.slot = slTrial && d1.boot.dir.trials ≠ 0 then dirWrite d1 fun r => { r with trials := 0 } else d1
  joinAll d2

/-- SEED, and READY when it passes. -/
def seed (env : StartEnv) (d : Dev) : Dev :=
  match rngSeed d env.flintOk env.katOk with
  | (d1, false) => enterSafe 6 d1
  | (d1, true) => enterReady (openStore env d1)

/-! ## The whole sequence -/

/-- `BOOT_TIME` records the duration of a state that the start reaches (15 R440). -/
def stageTime (env : StartEnv) (i : Nat) (d : Dev) : Dev :=
  { d with boot.times := d.boot.times.setIfInBounds i (env.times.getD i 0) }

/-- BDR_FAULT's bank bits are set again from the bad marks, the recorded extremes of this boot and DET_PRIOR restart at every
start (17 R485, R500; 20 R572). -/
def bootMarks (d : Dev) : Dev :=
  let d1 := { d with bdr.fault := d.bdr.fault ||| (d.bdr.badBanks.setWidth 9 <<< 4) }
  let changed := d1.tmon.det.toList != d1.tmon.detBoot.toList
  let d2 := { d1 with tmon.detBoot := d1.tmon.det, tmon.minTj := 0x7FFF, tmon.maxTj := -0x8000, tmon.coolTb := none }
  if changed then tmonCause d2 8 else d2

/-- A start: the boot count advances, TB restarts and the Bedrock oscillator is measured (free, log 4); the steps run until the device reaches READY, SAFE, HELD or SCRAPPED. -/
def startSeq (env : StartEnv) (d : Dev) : Dev :=
  let d0 := { d with glob.bootCnt := d.glob.bootCnt + 1, glob.tb := 0, glob.tbRun := true, glob.safeCause := 0, glob.issuing := true
                     bdr.wdogAt := 0, bdr.alertHold := false, bdr.alert := d.bdr.alert && !d.bdr.alertHold
                     bdr.oscFreq := (Config.open64 d.glob.freeCtr).setWidth 16, glob.freeCtr := d.glob.freeCtr + 1 }
  let d1 := lifeNote (bootMarks (forgetGens (setState d0 .boot))) 11
  let d2 := inStage .boot (bootImage env) (bootLife env (stageTime env 0 d1))
  let d3 := inStage .selftest (fun x => selfTest env (stageTime env 1 x)) d2
  let d4 := inStage .load (fun x => load env (stageTime env 2 x)) d3
  inStage .seed (fun x => seed env (stageTime env 3 x)) d4

/-- A start begins as soon as no pin, clock or test access holds the device. -/
def tryStart (env : StartEnv) (d : Dev) : Dev :=
  let g := d.glob
  if g.porAsserted || !g.vddBr || g.perstAsserted || !g.refclk || g.jtagHold then d
  else startSeq env { d with hif.linkUp := true, hif.speed := 5, hif.width := 8 }

end Sys2Proof.Machine
end

