-- ==== Sys2Proof/Machine/Resets.lean ====
section
/-!
DEFINITION. Resets of every kind, the hard zeroise, the detectors and the pins and test access that cause them (01 R29-R35;
10 R335-R337; 12 R394, R395; 16 R458, R472; 20 R556-R571).
-/
namespace Sys2Proof.Machine

/-! ## What every reset does (01 R31, R35; 14 R430, R434) -/

/-- A reset sets its cause bit and is counted in the LIFE record. -/
def causeSet (d : Dev) (bit : Nat) : Dev :=
  if 9 ≤ bit then d else lifeNote { d with glob.rstCause := d.glob.rstCause ||| BitVec.ofNat 9 (2 ^ bit) } bit

/-- Jobs in flight are abandoned, volatile keys destroyed, the debug grant and the challenge end. -/
def dropAll (d : Dev) : Dev :=
  destroyVolatile (abandonJobs { endGrant d with lc.chal := none, lc.want := none } (fun _ => true) true) fun _ => true

/-- The device stands in BEDROCK: only the Bedrock domain runs, and the link is down (01 R24, R30). -/
def toBedrock (d : Dev) : Dev :=
  let d1 := freshBoot (dropAll { d with glob.issuing := false })
  setState { d1 with glob.tbRun := false, glob.safeCause := 0, bdr.alert := d.bdr.alert && !d.bdr.alertHold, bdr.alertHold := false } .bedrock

/-! ## Hot reset and PF FLR (01 R29, R30; 15 R455; 16 R471; 08 R293) -/

/-- The bank swap of a sequencer (08 R292 step 4). -/
def swapBank (x : UStore) : UStore :=
  { x with bank := !x.bank, staged := false, swap := false, drain := false, actVer := x.stgVer, actCrc := x.stgCrc, stgVer := 0, stgCrc := 0 }

/-- The configured deal table is in force again; the trick count goes on. -/
def reTable (d : Dev) : Dev :=
  let g := { d.dlr with stg := [], pending := false, late := false, planFor := none, chkBusy := false, window := false }
  let t : SMap Byte := match configTable d with | .ok t => t | .error _ => []
  let d1 := decide32 { d with dlr := { g with act := t } } t d.dlr.trick.toNat
  { d1 with dlr.occ := d1.dlr.occNext }

/-- What a hot reset and a PF FLR clear beside PCI state: queues, jobs, volatile keys, VFs and their shares, staged tables,
rollouts, in-service tests. Microcode, configuration, recorder and the fabric's ports are kept; a lead's members abandon its
jobs. -/
def warmClear (d : Dev) : Dev :=
  let d1 := rawLeaveAll (abandonAt (dropAll d) 256)
  let d2 := { d1 with
    sqs := [], cqs := [], io := [], parked := [], cores := Vector.replicate 16 {}, mes := Vector.replicate 8 {}, tss := Vector.replicate 4 {}, sys := Vector.replicate 4 {}
    own := d1.own.filterMap (fun e => if e.1 = 0 then some (0, { e.2 with rrSq := 0 }) else none)
    vfm := { event := d1.vfm.event, evOwner := d1.vfm.evOwner }
    ks.zsoft := none, ks.purge := none
    stores := d1.stores.map (fun x => if x.swap then swapBank x else { x with drain := false })
    engs := d1.engs.map (fun r => { r with svc := if r.svc = .retired then .retired else .inService })
    bist := { d1.bist with queue := [], forced := [] }
    boot := { d1.boot with rollout := [], busy := false, step := 0, inst := 0, handover := false, stepDone := false, verified := false, stgRel := 0 }
    bdr.limit := 0x14
    hif.waiting := [], hif.reads := [], hif.rdWait := [] }
  reTable d2

/-- The PCI state that a hot reset clears: every function's configuration, SR-IOV and the MSI-X tables. -/
def clearPci (d : Dev) : Dev := { d with hif.fns := [], hif.msix := [], hif.numVfs := 0, hif.vfEn := false, hif.waiting := [], hif.rdWait := [] }

/-- The effects of a hot reset: SEED, then READY, from every state in which it does not act on PCI state alone. -/
def hotReset (env : StartEnv) (d : Dev) : Dev :=
  let d1 := clearPci d
  if pciOnly d then d1
  else
    seed env (setState { warmClear d1 with glob.safeCause := 0, glob.issuing := true, bdr.alert := d.bdr.alert && !d.bdr.alertHold
                                           bdr.alertHold := false } .seed)

/-- The effects of a PF FLR: every function is reset, and the device keeps its state. -/
def pfFlr (d : Dev) : Dev :=
  let d1 := flrFn { d with hif.fns := d.hif.fns.filter (fun e => e.1 == 0), hif.msix := [], hif.numVfs := 0, hif.vfEn := false } 0
  if pciOnly d then d1
  else
    let d2 := warmClear d1
    resolveOwners { d2 with ks.flr := (List.range 256).foldl (fun m o => mapMod 0 m o (· + 1)) d2.ks.flr } (fun _ => true) false

/-! ## Soft reset (01 R29, R34; 17 R481) -/

/-- The effects of a soft reset: the recorder is checkpointed first, a lead's members abandon its jobs, and the start runs with
the link up. -/
def softReset (env : StartEnv) (d : Dev) : Dev :=
  let d1 := abandonAt (ckptEnd (ckptStart d)) 256
  startSeq env (keepPci d (freshBoot (dropAll d1)))

/-- The effects of a POR: the Bedrock domain is cleared as well (01 R30). MRAM, OTP, NVM and the pins stay. -/
def porReset (d : Dev) : Dev :=
  let b := toBedrock { d with glob.hardZ := none, glob.heldResets := [] }
  { b with
    glob := { b.glob with rstCause := 1, tb := 0, armed := false, strapFab := 0, strapSmb := 0, node := 0, devId := 0, lcCode := 0 }
    hif := { out := b.hif.out }
    amb := { banks := b.amb.banks, latest := b.amb.latest, frzSeq := b.amb.frzSeq, volatil := b.amb.volatil }
    bdr := { badBanks := b.bdr.badBanks, pend := b.bdr.pend ++ [0] }
    tmon := {}
    jtag := {}
    bist := {}
    boot := { b.boot with imgRel := 0 } }

/-- One reset that is not a POR. -/
def doReset (env : StartEnv) (d : Dev) (k : ResetKind) : Dev :=
  let d1 := causeSet d (resetCauseBit k)
  match k with
  | .por => d1
  | .perst | .hold => tryStart env (toBedrock d1)
  | .vfFlr f => vfFlrRun f d1
  | .bedrock _ => tryStart env { toBedrock d1 with bdr.resets := satInc d1.bdr.resets }
  | .hot => hotReset env d1
  | .pfFlr => pfFlr d1
  | .soft => softReset env d1

/-- The rank of a reset: the effects of one of a higher rank contain those of the lower ones (01 R30). -/
def resetRank : ResetKind → Nat
  | .por => 6 | .bedrock _ => 5 | .perst | .hold => 4 | .soft => 3 | .hot => 2 | .pfFlr => 1 | .vfFlr _ => 0

/-- Resets that act together: every cause is set, and the union of their effects is that of the one of the highest rank, or each VF's
own. Bedrock counts its resets (01 R32). -/
def doResets (env : StartEnv) (ks : List ResetKind) (d : Dev) : Dev :=
  let top := ks.foldl (fun m k => max m (resetRank k)) 0
  let rest := fun (acc : Dev) (k : ResetKind) => match k with
    | .bedrock b => { causeSet acc b with bdr.resets := satInc acc.bdr.resets }
    | k => causeSet acc (resetCauseBit k)
  if top = 0 then ks.foldl (doReset env) d
  else match ks.find? fun k => resetRank k == top with
    | none => d
    | some k => doReset env ((ks.erase k).foldl rest d) k

/-- A reset arrives: it is held while a hard zeroise runs (01 R32). -/
def takeReset (env : StartEnv) (k : ResetKind) (d : Dev) : Dev :=
  if d.glob.hardZ.isSome then { d with glob.heldResets := d.glob.heldResets ++ [k] } else doReset env d k

/-! ## Hard zeroise (12 R394, R395) -/

/-- Steps 1 to 4 of a hard zeroise: nothing more is issued, the engines stop, ZMARK is set and the salts are overwritten. A
second one is recorded only. SCRAPPED takes none (01 R25). -/
def hardStart (trigger detail : Byte) (d : Dev) : Dev :=
  if d.glob.st = .scrapped then d
  else if d.glob.hardZ.isSome then amber d .zeroise (.bedrock 0) [trigger, detail]
  else
    let d1 := lifeNote (freeze (bdrCause d 0x4) 3) 9
    let d2 := abandonJobs { endGrant d1 with glob.issuing := false, hif.waiting := [], hif.rdWait := [] } (fun _ => true) true
    wipeSalts { d2 with
      glob.hardZ := some { trigger := trigger, detail := detail }, glob.zmark := true
      sqs := [], cqs := [], ks.zsoft := none, ks.purge := none
      boot := { d2.boot with rollout := [], busy := false, step := 0, handover := false } }

/-- Steps 5 to 7: the memories are clear; the device is ZEROISED and ALERT_N stays asserted until a reset. The resets that
waited follow. -/
def hardFinish (env : StartEnv) (d : Dev) : Dev :=
  match d.glob.hardZ with
  | none => d
  | some z =>
    let d1 := amber (wipeMemories d) .zeroise (.bedrock 0) [z.trigger, z.detail]
    let d2 := setState { d1 with glob.hardZ := none, glob.zmark := false, glob.heldResets := [], glob.safeCause := 0
                                 bdr.alert := true, bdr.alertHold := true } .zeroised
    doResets env d.glob.heldResets d2

/-- ZEROISE: the hard zeroise completes. -/
def execZeroise (env : StartEnv) (s : State) : Out3 := onDev s (hardFinish env)

/-- ZEROISE_N_ASSERT. -/
def execZeroiseNAssert (s : State) : Out3 := onDev s (hardStart 1 0)

/-- TAMPER: an input is asserted; its policy decides (12 R394). -/
def tamperGo (n : Nat) (d : Dev) : Dev :=
  if 4 ≤ n then d
  else
    let act := d.ks.zpol.getLsbD n
    let d1 := amber d .tamper (.bedrock 0) [BitVec.ofNat 8 n, if act then 1 else 0]
    if act then hardStart 2 (BitVec.ofNat 8 n) d1 else d1
def execTamper (n : Nat) (s : State) : Out3 := onDev s (tamperGo n)

/-- HARD_ZEROISE: a `KS_ZCTL` write with HARD; it is ignored without the KEY, without `KS_ZPOL.PF_HARD`, and while a soft zeroise
runs (12 R398). -/
def hardZeroiseGo (v : U32) (d : Dev) : Dev :=
  if barOk d 0 && (isReady d || d.glob.st == .safe) && v >>> 16 == 0x5A3C && v.getLsbD 1 && d.ks.zpol.getLsbD 5 && d.ks.zsoft.isNone then
    hardStart 5 0 d
  else d
def execHardZeroise (v : U32) (s : State) : Out3 := onDev s (hardZeroiseGo v)

/-! ## Pins (01 R29; 20 R557, R561, R563, R569) -/

/-- POR_N_ASSERT: also a supply below the power-on threshold. A hard zeroise is cut short. -/
def execPorNAssert (s : State) : Out3 := onDev s fun d => porReset { d with glob.porAsserted := true }

/-- POR_N_RELEASE: the straps are latched and the detectors armed; Bedrock reads the device ID and the life-cycle code
(17 R494). The start begins here only when nothing else holds it. -/
def porReleaseGo (fab : BitVec 6) (smb : BitVec 3) (env : StartEnv) (d : Dev) : Dev :=
  if !d.glob.porAsserted then d
  else
    tryStart env { d with glob.porAsserted := false, glob.strapFab := fab, glob.strapSmb := smb, glob.node := fab.toNat
                          glob.armed := true, glob.devId := d.otp.devId, glob.lcCode := lcState d.otp
                          bdr.fault := d.bdr.fault ||| (d.bdr.badBanks.setWidth 9 <<< 4) }
def execPorNRelease (fabId : BitVec 6) (smbAddr : BitVec 3) (env : StartEnv) (s : State) : Out3 :=
  onDev s (porReleaseGo fabId smbAddr env)

/-- BEDROCK_BROWNOUT: Bedrock itself is reset, with the effect of a POR; the straps stay as POR_N's release latched them. -/
def execBedrockBrownout (s : State) : Out3 :=
  onDev s fun d =>
    let r := porReset { d with glob.vddBr := false }
    { r with glob.strapFab := d.glob.strapFab, glob.strapSmb := d.glob.strapSmb, glob.node := d.glob.node }
/-- VDD_BR_RETURN: Bedrock comes out of that reset. -/
def vddBrReturnGo (env : StartEnv) (d : Dev) : Dev :=
  if d.glob.vddBr then d
  else tryStart env { d with glob.vddBr := true, glob.armed := !d.glob.porAsserted, glob.devId := d.otp.devId, glob.lcCode := lcState d.otp
                             bdr.fault := d.bdr.fault ||| (d.bdr.badBanks.setWidth 9 <<< 4) }
def execVddBrReturn (env : StartEnv) (s : State) : Out3 := onDev s (vddBrReturnGo env)

/-- PERST_N_ASSERT. -/
def execPerstNAssert (s : State) : Out3 :=
  onDev s fun d => if d.glob.perstAsserted then d else takeReset {} .perst { d with glob.perstAsserted := true }
/-- PERST_N_RELEASE: the start sequence begins. -/
def perstReleaseGo (env : StartEnv) (d : Dev) : Dev :=
  if !d.glob.perstAsserted then d
  else
    let d1 := { d with glob.perstAsserted := false }
    if d.glob.hardZ.isSome then d1 else tryStart env d1
def execPerstNRelease (env : StartEnv) (s : State) : Out3 := onDev s (perstReleaseGo env)
/-- REFCLK_STABLE: the PLL can lock, and the device leaves BEDROCK. -/
def execRefclkStable (env : StartEnv) (s : State) : Out3 :=
  onDev s fun d =>
    if d.glob.refclk then d
    else
      let d1 := { d with glob.refclk := true }
      if d.glob.hardZ.isSome || d.glob.st ≠ .bedrock then d1 else tryStart env d1

/-! ## Resets by command (01 R29, R34; 16 R458) -/

/-- HOT_RESET: a hot reset, or a link down that no other reset caused. -/
def execHotReset (env : StartEnv) (s : State) : Out3 :=
  onDev s fun d => if d.glob.st = .bedrock then d else takeReset env .hot d
/-- PF_FLR. -/
def execPfFlr (s : State) : Out3 := onDev s fun d => if d.glob.st = .bedrock then d else takeReset {} .pfFlr d

/-- Whether `GLB_RST_CTL` is accepted: in READY, SAFE, HELD and ZEROISED (01 R25; 14 R426). -/
def softServed (d : Dev) : Bool :=
  barOk d 0 && (d.glob.st == .ready || d.glob.st == .safe || d.glob.st == .held || d.glob.st == .zeroised)
/-- SOFT_RESET: a `GLB_RST_CTL` write with SOFT = 1 and its KEY. -/
def softResetGo (key : U16) (env : StartEnv) (d : Dev) : Dev :=
  if key = 0xA5C3 && softServed d then takeReset env .soft d else d
def execSoftReset (key : U16) (env : StartEnv) (s : State) : Out3 := onDev s (softResetGo key env)
/-- SELFTEST_TEMP_WAIT: Tj has stayed within range for 1 s after SAFE with cause 0x08. -/
def execSelftestTempWait (env : StartEnv) (s : State) : Out3 :=
  onDev s fun d => if d.glob.st = .safe && d.glob.safeCause = 8 then takeReset env .soft d else d

/-! ## Test access (20 R568) -/

/-- Load a JTAG instruction with the data register that it selects. -/
def jtagLoad (i : JtagInsn) (dr : U32) (d : Dev) : Dev := { d with jtag := { insn := i, dr := dr } }
/-- JTAG_HOLD_INSTR: the rest of the device is held as with PERST_N asserted. -/
def holdInstrGo (k : HoldInsn) (d : Dev) : Dev :=
  let d1 := jtagLoad (match k with | .extest => .extest | .clamp => .clamp | .highz => .highz) 0 d
  if d.glob.jtagHold then d1
  else
    let d2 := { d1 with glob.jtagHold := true }
    if d.glob.st = .bedrock then d2 else takeReset {} .hold d2
def execJtagHoldInstr (k : HoldInsn) (s : State) : Out3 := onDev s (holdInstrGo k)
/-- JTAG_TEST_LOGIC_RESET: the hold ends and the full start sequence runs; IDCODE is selected (IEEE 1149.1). -/
def testLogicResetGo (env : StartEnv) (d : Dev) : Dev :=
  let d1 := jtagLoad .idcode 0xB481678B d
  if !d.glob.jtagHold then d1
  else
    let d2 := { d1 with glob.jtagHold := false }
    if d.glob.hardZ.isSome then d2 else tryStart env d2
def execJtagTestLogicReset (env : StartEnv) (s : State) : Out3 := onDev s (testLogicResetGo env)
def execBypass (s : State) : Out3 := onDev s (jtagLoad .bypass 0)
/-- IDCODE shifts out the device's code. -/
def execIdcode (s : State) : Out3 := onDev s fun d => emit (jtagLoad .idcode 0xB481678B d) (.jtag (le32 0xB481678B))
def execSamplePreload (s : State) : Out3 := onDev s (jtagLoad .samplePreload 0)
/-- DEBUG selects the debug TAP; in SCRAPPED the TAP offers boundary scan only (14 R436). -/
def execJtagDebug (s : State) : Out3 :=
  onDev s fun d => if d.glob.lcCode = 5 || d.glob.lcCode = 0xFF then jtagLoad .bypass 0 d else jtagLoad .debug 0 d

/-! ## Detectors (10 R335-R337) -/

/-- The response that `TMON_RESP` sets for a detector: whether it is ZEROISE. THIGH and every detector before LOCK have RESET. -/
def detZeroises (d : Dev) (id : Nat) : Bool := d.tmon.lock && decide (1 ≤ id) && decide (id ≤ 5) && d.tmon.resp.getLsbD (id - 1)
/-- The cause bit of a detector's Bedrock reset: a monitor of supply or clock, or a temperature (01 R35). -/
def detCause (id : Nat) : Nat := if id ≤ 4 then 6 else 7
/-- Count an event of a detector. -/
def countDet (id : Nat) (d : Dev) : Dev :=
  if 1 ≤ id then { d with tmon.det := d.tmon.det.setIfInBounds (id - 1) (satInc (d.tmon.det.toList.getD (id - 1) 0)) } else d

/-- DETECTOR_EVENT: one detector fires, or two together; `second` is 0 for one. `refclkLost` says that REFCLK is gone. -/
def detectorGo (first second : Nat) (refclkLost : Bool) (env : StartEnv) (d : Dev) : Dev :=
  if !d.glob.armed || first = 0 || 6 < first || 6 < second || first = second then d
  else
    let z := detZeroises d first || detZeroises d second
    let busy := d.glob.hardZ.isSome
    let resp : Byte := if busy then 2 else if z then 1 else 0
    let who := if z && !detZeroises d first then second else first
    let lost := refclkLost && (first == 4 || second == 4)
    let d1 := countDet second (countDet first { d with glob.issuing := false, glob.refclk := d.glob.refclk && !lost })
    let d2 := amber d1 .glitch (.bedrock first) [BitVec.ofNat 8 first, BitVec.ofNat 8 second, resp]
    let d3 := freeze (bdrCause d2 0x2) 1
    if busy then d3
    else
      let bits := detCause first :: (if second = 0 || detCause second = detCause first then [] else [detCause second])
      if z && d.glob.st ≠ .scrapped then
        let d4 := hardStart 3 (BitVec.ofNat 8 who) d3
        { d4 with glob.heldResets := d4.glob.heldResets ++ bits.map .bedrock }
      else
        match bits with
        | [a, b] => doReset env (causeSet d3 b) (.bedrock a)
        | _ => doReset env d3 (.bedrock (detCause first))
def execDetectorEvent (first second : Nat) (refclkLost : Bool) (env : StartEnv) (s : State) : Out3 :=
  onDev s (detectorGo first second refclkLost env)

/-! ## Sensors (20 R571, R572; 17 R479; 09 R319) -/

/-- Nominal rail voltages in mV, by rail index (20 R559). -/
def railNominal : List Nat := [750, 850, 900, 1200, 1800, 1800, 800, 900, 800]
/-- Whether a rail's reading is within nominal ± BAND, in units of 0.5 %. -/
def railIn (d : Dev) (i : Nat) (v : U16) : Bool :=
  let n := railNominal.getD i 0
  let band := n * d.tmon.band.toNat
  decide (200 * v.toNat ≤ 200 * n + band) && decide (200 * n ≤ 200 * v.toNat + band)
/-- The coldest sensor. -/
def coldTj (d : Dev) : Int := d.tmon.tj.toList.foldl (fun m w => min m (tjInt w)) (tjInt (d.tmon.tj.toList.headD 0))

/-- Record a sensor's or a rail's value in its lifetime and this-boot extremes. -/
def sensorExtremes (d : Dev) (subject : Nat) (v : Int) : Dev := recExtreme (recExtreme d subject v) (0x8000 + subject) v

/-- SENSOR_READ: the readings of the eight sensors and the nine rails. -/
def sensorReadGo (tj : List (BitVec 16)) (rails : List U16) (d : Dev) : Dev :=
  if d.glob.porAsserted || !d.glob.vddBr then d
  else
    let old := d.tmon
    let d1 := { d with tmon.tj := Vector.ofFn (fun i => tj.getD i.val (old.tj.toList.getD i.val 0))
                       tmon.rails := Vector.ofFn (fun i => rails.getD i.val (old.rails.toList.getD i.val 0)) }
    let hot := hotTj d1
    let cold := coldTj d1
    let hi := 8 * old.hi.toInt
    let lo := 8 * old.lo.toInt
    let off := 8 * (d.dlr.dutyOff.toNat : Int)
    let d2 := { d1 with
      tmon.hiArm := (old.hiArm && decide (hot < hi)) || decide (hot ≤ hi - 16)
      tmon.loArm := (old.loArm && decide (lo < cold)) || decide (lo + 16 ≤ cold)
      tmon.minTj := min old.minTj hot, tmon.maxTj := max old.maxTj hot
      tmon.coolTb := if hot ≤ off then some (old.coolTb.getD d.glob.tb) else none }
    let e1 : BitVec 4 := if old.hiArm && decide (hi ≤ hot) then 1 else 0
    let e2 : BitVec 4 := if old.loArm && decide (cold ≤ lo) then 2 else 0
    let warn := (List.range 9).any fun i =>
      !railIn d i (d2.tmon.rails.toList.getD i 0) && (old.rails.toList.getD i 0 == 0 || railIn d i (old.rails.toList.getD i 0))
    let d3 := tmonCause d2 (e1 ||| e2 ||| if warn then 4 else 0)
    let d4 := (List.range 8).foldl (fun acc i => sensorExtremes acc i (125 * tjInt (d3.tmon.tj.toList.getD i 0))) d3
    let d5 := (List.range 9).foldl (fun acc i => sensorExtremes acc (0x10 + i) (d3.tmon.rails.toList.getD i 0).toNat) d4
    lifePower d5
def execSensorRead (tj : List (BitVec 16)) (rails : List U16) (s : State) : Out3 := onDev s (sensorReadGo tj rails)

/-! ## Fatal faults in service (16 R472; 19 R536) -/

/-- A fatal fault: READY goes to SAFE with cause 0x07; the jobs are abandoned, every queue is disabled, Amber is frozen and the PF
logs an Uncorrectable Internal Error. -/
def fatalFault (d : Dev) : Dev :=
  if !isReady d then d
  else
    let d1 := abandonJobs d (fun _ => true) true
    let d2 := emit { d1 with
      sqs := mapAll {} (fun _ q => { q with en := false, draining := false, stopped := false, fenceWait := false, slotWait := false
                                            creditWait := false, jrnWait := false, reading := none, held := none }) d1.sqs
      cqs := mapAll {} (fun _ q => { q with en := false, timer := false, reserved := 0 }) d1.cqs
      hif.aerInternal := true } .aerInternal
    freeze (enterSafe 7 d2) 2

end Sys2Proof.Machine
end

