-- ==== Sys2Proof/Machine/Bist.lean ====
section
/-!
DEFINITION. In-service tests and uncorrectable memory errors (16 R467-R472; 08 R267; 07 R237).
-/
namespace Sys2Proof.Machine

/-! ## Instances (16 R467, R468) -/

/-- Whether no job is resident on an instance and none has its context there. -/
def cellIdle (d : Dev) (c : Nat) : Bool :=
  !d.jobs.live.any fun b => (b.phase == .placed || b.phase == .ending || b.phase == .saved || b.phase == .stranded) && (jobCells b ++ ctxCells b).contains c

/-- Whether an instance of a cell's kind is under test. -/
def kindTested (d : Dev) (c : Nat) : Bool := (kindCells (cellKind c)).any fun x => (getEng d x).svc == .inTest
/-- Whether an instance is the one of its kind whose turn to be tested has come. -/
def testTurn (d : Dev) (c : Nat) : Bool :=
  !kindTested d c && (d.bist.queue.find? fun x => cellKind x == cellKind c) == some c
/-- Whether an instance is the last of its kind in service. -/
def lastOfKind (d : Dev) (c : Nat) : Bool :=
  (kindCells (cellKind c)).all fun x => x == c || (getEng d x).svc != .inService
/-- Whether the active table has an R = 1 cell on an engine (09 R305). -/
def reservedCells (d : Dev) (c : Nat) : Bool := (List.range 64).any fun t => cellR (tblCell d.dlr.act t c)
/-- Whether a rollout is changing a kind (15 R451). -/
def kindRolling (d : Dev) (k : EngKind) : Bool :=
  d.boot.busy && (match k with
    | .ts => d.boot.step == 2
    | .me => d.boot.step == 3
    | .py => d.boot.step == 4 || d.boot.step == 5
    | _ => false)

/-- Whether the schedule may select an instance. -/
def mayTest (d : Dev) (c : Nat) : Bool :=
  (getEng d c).svc == .inService && !kindRolling d (cellKind c) && !lastOfKind d c && !reservedCells d c
    && !(match cellJob d c with | some b => b.cluster | none => false)

/-- The kinds that the schedule rotates over. -/
def testKind (n : Nat) : EngKind := if n % 4 = 0 then .py else if n % 4 = 1 then .me else if n % 4 = 2 then .ts else .sy

/-- IS_SCHEDULE: the interval has passed. The kind whose turn it is gives its lowest instance that this rotation has not yet
tested; a kind with an instance out for test gives none. -/
def isScheduleGo (d : Dev) : Dev :=
  if !isReady d || !d.bist.isEn then d
  else
    let k := testKind d.bist.kindTurn
    let d1 := { d with bist.kindTurn := (d.bist.kindTurn + 1) % 4 }
    if d.bist.queue.any fun x => cellKind x == k then d1
    else
      let able := (kindCells k).filter (mayTest d)
      match able.find? fun c => !d.bist.tested.contains c, able.head? with
      | some c, _ => takeOut { d1 with bist.tested := d1.bist.tested ++ [c] } c
      | none, some c => takeOut { d1 with bist.tested := (d1.bist.tested.filter fun x => cellKind x != k) ++ [c] } c
      | none, none => d1
def execIsSchedule (s : State) : Out3 := onDev s isScheduleGo

/-- IS_CMD: a write of `BIST_IS_CMD`. Tests run in READY only. -/
def isCmdGo (v : U32) (d : Dev) : Dev :=
  if !ctlServed d then d
  else
    let p := v.toNat % 64
    let force := v.getLsbD 9
    let d1 := { d with bist.inst := BitVec.ofNat 6 p, bist.force := force }
    if !v.getLsbD 8 || !isReady d then d1
    else
      let c := partCell p
      let r := getEng d c
      if 32 ≤ p then { d1 with bist.result := 1 }
      else if r.svc = .retired then { d1 with bist.result := 2 }
      else if reservedCells d c && !force then { d1 with bist.result := 3 }
      else if r.svc = .inService && lastOfKind d c then { d1 with bist.result := 4 }
      else
        let d2 := takeOut { d1 with bist.result := 0 } c
        if force && !d2.bist.forced.contains c then { d2 with bist.forced := d2.bist.forced ++ [c] } else d2
def execIsCmd (v : U32) (s : State) : Out3 := onDev s (isCmdGo v)

/-- An instance leaves the tests: back to service or retired. -/
def testEnd (d : Dev) (c : Nat) (svc : EngSvc) : Dev :=
  { modEng d c (fun r => { r with svc := svc }) with
    bist.queue := d.bist.queue.filter (· != c), bist.forced := d.bist.forced.filter (· != c) }

/-- IS_DRAIN_TIMEOUT: the drain of an instance whose turn it is has exceeded `BIST_IS_CTL.DRAIN`. -/
def isDrainTimeoutGo (c : Nat) (d : Dev) : Dev :=
  if !isReady d || (getEng d c).svc ≠ .draining || !testTurn d c then d
  else bistCause (testEnd d c .inService) 4 (partId c)
def execIsDrainTimeout (c : Nat) (s : State) : Out3 := onDev s (isDrainTimeoutGo c)

/-- A memory failure that a test records (16 R474). -/
def noteMem (d : Dev) (r : IsResult) : Dev :=
  match r.mem with
  | none => d
  | some f => { d with bist := { d.bist with
      mfCode := f.code, mfAddr := f.addr, mfBit := f.bit, mfRepaired := f.repaired, mfCount := f.count, mfValid := true
      repaired := if f.repaired then d.bist.repaired + 1 else d.bist.repaired, spareMin := r.spareMin, codeMin := r.codeMin } }

/-- The memories of a tested instance are left as zeros (16 R467 steps 4 and 7). -/
def wipeCell (d : Dev) (c : Nat) : Dev :=
  if c < 16 then modCore d c fun _ => {}
  else if c < 24 then modMe d (c - 16) fun _ => {}
  else if c < 28 then modSy d (c - 24) fun _ => {}
  else modTs d (c - 28) fun _ => {}

/-- IS_TEST_DONE: steps 3 to 8 of a test have run. Its Amber entries carry the partition, and the step that failed, 0 for none. After a
retirement the planner runs without the instance (16 R469). -/
def isTestDoneGo (c : Nat) (r : IsResult) (d : Dev) : Dev :=
  if !isReady d || (getEng d c).svc ≠ .inTest then d
  else
    let p := partId c
    let args : Bytes := [BitVec.ofNat 8 p, BitVec.ofNat 8 r.step]
    let d := wipeCell d c
    let d1 := noteMem { d with bist.lres := mapSet {} d.bist.lres p (logicRes p r.logic) } r
    let d2 := amber d1 .bistIs .supv args
    if r.step = 0 then
      let d3 := testEnd d2 c .inService
      match r.mem with
      | some f => if f.repaired then bistCause d3 2 p else d3
      | none => d3
    else
      let d3 := bistCause (amber (testEnd d2 c .retired) .bistRetire .supv args) 1 p
      if lastOfKind d3 c && (r.step == 5 || r.step == 6) then fatalFault d3 else plan d3
def execIsTestDone (c : Nat) (r : IsResult) (s : State) : Out3 := onDev s (isTestDoneGo c r)

/-! ## Uncorrectable errors (16 R468, R472; 08 R267; 07 R237) -/

/-- A job ends with ECC and a memory code. -/
def eccJob (d : Dev) (j : Nat) (code : U16) : Dev :=
  match findJob d j with | some b => failJob d b stEcc code | none => d

/-- UNCORRECTABLE_ECC. A running supervisor half is replaced once by the other. An error in a line of a tile is found by the load that
reads it (07 R237, R238; log 180). -/
def uncorrectableEccGo (site : EccSite) (d : Dev) : Dev :=
  if !isReady d then d
  else
    match site with
    | .fatal => fatalFault d
    | .supvRam => if d.bist.supvErr then fatalFault d else { d with bist.supvErr := true }
    | .jobMem j code =>
      match findJob d j with
      | some b => if b.phase = .placed then (ctxCells b).foldl takeOut (failJob d b stEcc code) else d
      | none => d
    | .granule j code o slot =>
      match (getSlot d o slot).obj with
      | none => d
      | some k =>
        let d1 := match j with | some n => eccJob d n code | none => d
        let d2 := if k.stateful then zeroStateful d1 o slot else destroySlot d1 o slot
        { d2 with ks.withdrawn := d2.ks.withdrawn + 1 }
    | .tileLine c line =>
      modCore d c fun r => { r with eccLines := line :: r.eccLines.filter (· != line) }
def execUncorrectableEcc (site : EccSite) (s : State) : Out3 := onDev s (uncorrectableEccGo site)

/-- The memory code of a sequencer's control store (16 R463). -/
def storeCode (u : Nat) : U16 :=
  if u < 16 then BitVec.ofNat 16 (0x300 + u) else if u < 24 then BitVec.ofNat 16 (0x700 + (u - 16)) else BitVec.ofNat 16 (0x900 + (u - 24))

/-- The PF event source of a sequencer's kind: PY, ME, TS (19 R546). -/
def storeSource (u : Nat) : Nat := if u < 16 then 1 else if u < 24 then 3 else 2

/-- CONTROL_STORE_ECC: an uncorrectable error ends the job that fetched the word, and the sequencer is reloaded and tested; a
correctable one is counted. -/
def controlStoreEccGo (u : Nat) (correctable : Bool) (d : Dev) : Dev :=
  if !isReady d || 28 ≤ u then d
  else if correctable then modStore d u fun x => { x with corr := satInc x.corr }
  else
    let old := (getStore d u).event
    let d1 := raise (modStore d u fun x => { x with uncorr := satInc x.uncorr, event := true, reload := true }) (storeSource u) (BitVec.ofBool old) 1
    let d2 := match cellJob d1 (seqCell u) with | some b => failJob d1 b stEcc (storeCode u) | none => d1
    takeOut d2 (seqCell u)
def execControlStoreEcc (u : Nat) (correctable : Bool) (s : State) : Out3 := onDev s (controlStoreEccGo u correctable)

end Sys2Proof.Machine
end

