-- ==== Sys2Proof/Machine/Bedrock.lean ====
section
/-!
DEFINITION. Bedrock: freeze banks and copies, the fault digest, wall time, the watchdog, token refills, the supervisor's pushes and
the SMBus endpoint (17 R475-R477, R486-R497; 19 R553; 20 R566).
-/
namespace Sys2Proof.Machine

/-- Whether Bedrock runs. -/
def bedrockAlive (d : Dev) : Bool := !d.glob.porAsserted && d.glob.vddBr

/-! ## Bytes of entries and banks (17 R486, R490) -/

/-- The 64 bytes of an Amber entry. -/
def entryBytes (e : AEntry) : Bytes :=
  le64 e.tb ++ le32 e.boot ++ le16 e.code ++ le16 e.source ++ le16 e.supp ++ [e.sev, e.flags] ++ le64 e.wall ++ fit 36 e.args

/-- The freeze bank of a number. -/
def frzBank (d : Dev) (b : Nat) : FrzBank := d.amb.banks.toList.getD b {}
/-- A slot of a freeze bank from 1 on: zeros where nothing was copied. -/
def frzEntry (k : FrzBank) (slot : Nat) : Bytes :=
  match k.entries[slot - 1]? with | some e => entryBytes e | none => zeros 64
/-- The header of a freeze bank in slot 0: zeros in a bank that was never written. -/
def frzHeader (k : FrzBank) : Bytes :=
  if !k.valid then zeros 64
  else
    let h := le32 0x5A524641 ++ leBytes 2 1 ++ leBytes 2 k.entries.length ++ le32 k.boot ++ le32 k.triggers ++ le64 k.tb ++ le32 k.seq
      ++ le32 k.lost ++ zeros 28
    h ++ le32 (crc32c (((List.range 4095).map fun i => frzEntry k (i + 1)).flatten ++ h))
/-- A slot of a freeze bank. -/
def frzSlot (k : FrzBank) (slot : Nat) : Bytes := if slot = 0 then frzHeader k else frzEntry k slot

/-! ## Freezes (17 R489-R491) -/

/-- AMB_FREEZE: a write of `AMB_CTL.FREEZE`. -/
def ambFreezeGo (d : Dev) : Dev := if ctlServed d then freeze d 5 else d
def execAmbFreeze (s : State) : Out3 := onDev s ambFreezeGo

/-- FREEZE_COPY_DONE: the bank's header is written last; the entries that waited enter the ring. -/
def freezeCopyDoneGo (d : Dev) : Dev :=
  match d.amb.copy with
  | none => d
  | some c =>
    if !bedrockAlive d then d
    else
      match c.bank with
      | none => c.fifo.foldl ringPut { d with amb.copy := none }
      | some b =>
        let n := min c.upTo 4095
        let es := (List.range n).map fun i => mapGet {} d.amb.ring ((c.upTo - n + i) % 4096)
        let k : FrzBank := { valid := true, boot := ((es.getLast?).map (·.boot)).getD d.glob.bootCnt, triggers := c.triggers, tb := c.tb
                             seq := d.amb.frzSeq + 1, lost := c.lost, entries := es }
        let d1 := { d with amb.banks := d.amb.banks.setIfInBounds b k, amb.frzSeq := d.amb.frzSeq + 1, amb.latest := b == 1
                           amb.copy := none, bdr.alert := true }
        ambCause (c.fifo.foldl ringPut d1) 1
def execFreezeCopyDone (s : State) : Out3 := onDev s freezeCopyDoneGo

/-! ## Token buckets (17 R488) -/

/-- AMBER_REFILL: one token returns to a code's bucket. -/
def amberRefillGo (code : U16) (d : Dev) : Dev :=
  if bedrockAlive d && acodeTakesToken code then
    { d with amb.buckets := mapMod {} d.amb.buckets code.toNat fun b => { b with used := b.used - 1 } }
  else d
def execAmberRefill (code : U16) (s : State) : Out3 := onDev s (amberRefillGo code)

/-! ## The supervisor's pushes (17 R492, R495) -/

/-- Whether the supervisor runs. -/
def supvRuns (d : Dev) : Bool := !d.lc.supvHalt && (isReady d || d.glob.st == .safe || d.glob.st == .held)

/-- An extreme's minimum and maximum. -/
def extremeOf (d : Dev) (subject : Nat) : Option (Int × Int) :=
  match mapGet none d.recd.records (recExtremeKey subject) with
  | some r => (match r.data with | .extreme mn mx _ _ _ _ _ _ _ n => if n = 0 then none else some (mn, mx) | _ => none)
  | none => none

/-- The lifetime maximum of the hottest sensor, in 0.125 °C. -/
def lifeTj (d : Dev) : Int :=
  match (List.range 8).filterMap fun i => (extremeOf d i).map (·.2) with
  | [] => 0
  | v :: vs => vs.foldl max v / 125

/-- The summary counters from outside Bedrock: POWER_ON_S / 3,600; RNG failures; retired instances; the sums of PY_FLTCNT and ME_RCHK;
holds; duty rounds; ECC errors corrected and uncorrectable. -/
def pushCounters (d : Dev) : List U32 :=
  let on : Nat := match mapGet none d.recd.records recLifeKey with
    | some r => (match r.data with | .life p _ _ _ _ _ => p.toNat | _ => 0)
    | none => 0
  let retired := ((List.range 32).map fun p => if (getEng d (partCell p)).svc = .retired then 2 ^ p else 0).sum
  [BitVec.ofNat 32 (on / 3600), BitVec.ofNat 32 (d.rng.srcs.toList.map fun s => s.fails.toNat).sum, BitVec.ofNat 32 retired,
   BitVec.ofNat 32 ((List.range 16).map fun c => (getEng d c).fltCnt.toNat).sum,
   BitVec.ofNat 32 ((List.range 8).map fun i => (getEng d (16 + i)).rchk.toNat).sum, d.rng.holds.setWidth 32, d.dlr.dutyRounds,
   BitVec.ofNat 32 (d.stores.toList.map fun u => u.corr.toNat).sum, BitVec.ofNat 32 (d.stores.toList.map fun u => u.uncorr.toNat).sum]

/-- SUPV_PUSH. -/
def supvPushGo (d : Dev) : Dev :=
  if !supvRuns d then d
  else { d with bdr.push :=
           { tjMin := d.tmon.minTj, tjMax := d.tmon.maxTj, tjLife := lifeTj d
             railMin := (List.range 9).map fun i => match extremeOf d (0x8010 + i) with | some e => BitVec.ofInt 16 e.1 | none => 0
             counters := pushCounters d } }
def execSupvPush (s : State) : Out3 := onDev s supvPushGo

/-- WDOG_RESTART. -/
def wdogRestartGo (d : Dev) : Dev := if supvRuns d then { d with bdr.wdogAt := d.glob.tb } else d
def execWdogRestart (s : State) : Out3 := onDev s wdogRestartGo

/-- WDOG: the limit has passed since the last restart, and the supervisor is not halted by the debugger. -/
def wdogGo (env : StartEnv) (d : Dev) : Dev :=
  if !bedrockAlive d || d.lc.supvHalt || d.glob.st = .bedrock || d.glob.hardZ.isSome || !d.glob.tbRun
      || (d.glob.tb - d.bdr.wdogAt).toNat < 1000000 * d.bdr.limit.toNat then d
  else
    let d1 := freeze (amber { d with bdr.expiries := satInc d.bdr.expiries } .wdog (.bedrock 0) []) 0
    takeReset env (.bedrock 5) (bdrCause d1 1)
def execWdog (env : StartEnv) (s : State) : Out3 := onDev s (wdogGo env)

/-! ## The fault digest (17 R492) -/

/-- Whether an entry precedes another in the order of (boot count, TB), the only order there is (17 R477). -/
def entryBefore (a b : AEntry) : Bool := decide (a.boot < b.boot) || (a.boot == b.boot && decide (a.tb < b.tb))
/-- Entries as read, with a new one in its place: after the ones it does not precede. The newest stands first. -/
def entryInsert (e : AEntry) : List AEntry → List AEntry
  | [] => [e]
  | x :: xs => if entryBefore e x then x :: entryInsert e xs else e :: x :: xs
/-- Entries in ascending (boot, TB); those of one time keep their order. -/
def entrySort (es : List AEntry) : List AEntry := (es.foldl (fun acc e => entryInsert e acc) []).reverse

/-- The entries that a digest carries: the newest 12, and the newest 16 of severity ERROR or FATAL not among them, in ascending
(boot, TB). Entries relayed from a member can stand in the ring out of this order. -/
def digestEntries (es0 : List AEntry) : List AEntry :=
  let es := entrySort es0
  let old := es.take (es.length - 12)
  let bad := old.filter fun e => 3 ≤ e.sev
  bad.drop (bad.length - 16) ++ es.drop (es.length - 12)

/-- The newest valid freeze bank. -/
def newestFreeze (d : Dev) : Option FrzBank :=
  let k := frzBank d (if d.amb.latest then 1 else 0)
  if k.valid then some k else none

/-- The 2,048 bytes of a digest. -/
def digestBytes (d : Dev) (fromFreeze : Bool) : Bytes :=
  let frz := if fromFreeze then newestFreeze d else none
  let es := digestEntries (match frz with | some k => k.entries | none => ringList d)
  let p := d.bdr.push
  let n (i : Nat) : U32 := p.counters.getD i 0
  let head := le32 0x47494446 ++ leBytes 2 1 ++ leBytes 2 2048 ++ leBytes 16 d.glob.devId.toNat ++ le32 d.glob.bootCnt ++ le32 d.boot.imgRel
    ++ le64 d.glob.tb ++ le64 (wallNow d)
    ++ [(devStateCode d.glob.st).setWidth 8, d.glob.safeCause, d.glob.lcCode, if frz.isSome then 1 else 0]
    ++ leBytes 4 d.glob.rstCause.toNat ++ leBytes 4 d.bdr.fault.toNat ++ le32 d.amb.digestSeq
    ++ intBytes 2 (hotTj d) ++ intBytes 2 p.tjMin ++ intBytes 2 p.tjMax ++ intBytes 2 p.tjLife
    ++ (d.tmon.rails.toList.map le16).flatten ++ ((List.range 9).map fun i => le16 (p.railMin.getD i 0)).flatten ++ zeros 20
  let ctr := le32 d.amb.written ++ le32 d.amb.suppressed ++ leBytes 4 d.amb.lost.toNat ++ leBytes 4 d.amb.freezes.toNat
    ++ leBytes 4 d.bdr.expiries.toNat ++ le32 d.bdr.resets ++ ((List.range 9).map fun i => le32 (n i)).flatten ++ zeros 4
  let body := fit 0x7FC (head ++ ctr ++ fit 1792 (es.map entryBytes).flatten)
  body ++ le32 (crc32c body)

/-- Compose a digest. -/
def digestNow (d : Dev) (fromFreeze : Bool) : Dev :=
  let d1 := { d with amb.digestSeq := d.amb.digestSeq + 1 }
  { d1 with amb.digest := digestBytes d1 fromFreeze }

/-- AMB_DIGEST: a write of `AMB_CTL.DIGEST`. -/
def ambDigestGo (src : Bool) (d : Dev) : Dev :=
  if ctlServed d then { d with amb.digSrc := src, amb.digestBusy := true } else d
def execAmbDigest (src : Bool) (s : State) : Out3 := onDev s (ambDigestGo src)
/-- DIGEST_DONE. -/
def digestDoneGo (d : Dev) : Dev :=
  if !bedrockAlive d || !d.amb.digestBusy then d else ambCause { digestNow d d.amb.digSrc with amb.digestBusy := false } 4
def execDigestDone (s : State) : Out3 := onDev s digestDoneGo

/-! ## Wall time (17 R476, 19 R553) -/

/-- WALL_COMMIT: a write of `GLB_WALL_NS`. -/
def wallCommitGo (v : U32) (d : Dev) : Dev :=
  let ns := v.toNat % 2 ^ 30
  if !ctlServed d || 1000000000 ≤ ns then d
  else
    let old := wallNow d
    let w : U64 := d.glob.wallSHeld * 1000000000 + BitVec.ofNat 64 ns
    amber { d with glob.wallSet := true, glob.wallBase := w, glob.wallTb := d.glob.tb } .timeStep .supv (le64 old ++ le64 w)
def execWallCommit (v : U32) (s : State) : Out3 := onDev s (wallCommitGo v)

/-- WALL_S_READ: the seconds are returned, and the nanoseconds captured. -/
def wallSReadGo (d : Dev) : Dev :=
  if !ctlServed d then d
  else
    let w := (wallNow d).toNat
    emit { d with glob.wallNsCap := BitVec.ofNat 30 (w % 1000000000) } (.cpl 0 (leBytes 8 (w / 1000000000)))
def execWallSRead (s : State) : Out3 := onDev s wallSReadGo

/-! ## SMBus (17 R496, R497; 20 R566) -/

/-- Completion codes. -/
def smOk : Byte := 0
def smArg : Byte := 2
def smDenied : Byte := 3
def smBusy : Byte := 4

/-- The endpoint sends a response as bus master: message type, vendor ID, command and completion code before the data. -/
def smReply (d : Dev) (cmd code : Byte) (data : Bytes) : Dev :=
  let r : Bytes := [0x7E, 0x1F, 0xD7, cmd ||| 0x80, code] ++ data
  emit { d with bdr.resp := r, bdr.retries := 0 } (.smbus r)
/-- Answer a request while Bedrock runs. -/
def smDo (f : Dev → Dev) (d : Dev) : Dev := if bedrockAlive d then f d else d

/-- `AMB_STAT`. -/
def ambStat (d : Dev) : Nat :=
  packW [(0, d.amb.written.toNat % 4096), (12, b2n d.amb.copy.isSome), (13, b2n d.amb.volatil), (14, d.bdr.badBanks.toNat / 4),
    (16, b2n d.amb.latest), (32, d.amb.written.toNat)]

/-- SMB_GET_STATUS. -/
def execSmbGetStatus (s : State) : Out3 :=
  onDev s (smDo fun d => smReply d 1 smOk ([(devStateCode d.glob.st).setWidth 8, d.glob.safeCause] ++ leBytes 4 d.glob.rstCause.toNat
    ++ leBytes 4 d.bdr.fault.toNat ++ le32 d.glob.bootCnt ++ le64 d.glob.tb ++ leBytes 8 (ambStat d)))
/-- SMB_GET_IDENTITY. -/
def execSmbGetIdentity (s : State) : Out3 :=
  onDev s (smDo fun d => smReply d 2 smOk (leBytes 16 d.glob.devId.toNat ++ le32 d.boot.imgRel ++ [d.ks.epoch.setWidth 8, d.glob.lcCode]))
/-- SMB_GET_LC. -/
def execSmbGetLc (s : State) : Out3 := onDev s (smDo fun d => smReply d 3 smOk (leBytes 5 d.bdr.lcStat.toNat))
/-- SMB_GET_ENV. -/
def execSmbGetEnv (s : State) : Out3 :=
  onDev s (smDo fun d => smReply d 4 smOk ((d.tmon.tj.toList.map le16).flatten ++ (d.tmon.rails.toList.map le16).flatten))
/-- SMB_AMB_READ: `n` entries that end `back` entries before the newest. -/
def smbAmbReadGo (back n : Nat) (d : Dev) : Dev :=
  if n = 0 || 16 < n || 65535 < back then smReply d 5 smArg []
  else
    let es := ringList d
    let upTo := es.take (es.length - back)
    smReply d 5 smOk ((upTo.drop (upTo.length - n)).map entryBytes).flatten
def execSmbAmbRead (back n : Nat) (s : State) : Out3 := onDev s (smDo (smbAmbReadGo back n))
/-- SMB_FRZ_READ. -/
def smbFrzReadGo (bank slot n : Nat) (d : Dev) : Dev :=
  if 1 < bank || n = 0 || 16 < n || 4096 < slot + n then smReply d 6 smArg []
  else smReply d 6 smOk ((List.range n).map fun i => frzSlot (frzBank d bank) (slot + i)).flatten
def execSmbFrzRead (bank slot n : Nat) (s : State) : Out3 := onDev s (smDo (smbFrzReadGo bank slot n))
/-- SMB_DIGEST. -/
def smbDigestGo (src part : Nat) (d : Dev) : Dev :=
  if 1 < src || 1 < part then smReply d 7 smArg []
  else if part = 0 && d.amb.digestBusy then smReply d 7 smBusy []
  else
    let d1 := if part = 0 then digestNow d (src == 1) else d
    smReply d1 7 smOk (slice d1.amb.digest (1024 * part) 1024)
def execSmbDigest (src part : Nat) (s : State) : Out3 := onDev s (smDo (smbDigestGo src part))
/-- SMB_FREEZE. -/
def execSmbFreeze (s : State) : Out3 := onDev s (smDo fun d => smReply (freeze d 4) 8 smOk [])
/-- SMB_RESET: a Bedrock reset after the response. -/
def smbResetGo (key : U16) (env : StartEnv) (d : Dev) : Dev :=
  if key ≠ 0xA5C3 then smReply d 9 smArg []
  else takeReset env (.bedrock 8) (freeze (bdrCause (smReply d 9 smOk []) 8) 6)
def execSmbReset (key : U16) (env : StartEnv) (s : State) : Out3 := onDev s (smDo (smbResetGo key env))
/-- SMB_ZEROISE. -/
def smbZeroiseGo (key : U16) (d : Dev) : Dev :=
  if key ≠ 0x5A3C then smReply d 0xA smArg []
  else if !d.ks.zpol.getLsbD 4 then smReply d 0xA smDenied []
  else hardStart 4 0 (smReply d 0xA smOk [])
def execSmbZeroise (key : U16) (s : State) : Out3 := onDev s (smDo (smbZeroiseGo key))
/-- SMB_ALERT_ACK: ALERT_N is released, except after a zeroise. -/
def execSmbAlertAck (s : State) : Out3 :=
  onDev s (smDo fun d => smReply { d with bdr.alert := d.bdr.alert && d.bdr.alertHold } 0xB smOk [])

/-- CLOCK_LOW_TIMEOUT: the endpoint resets its SMBus interface. -/
def execClockLowTimeout (s : State) : Out3 := onDev s (smDo fun d => { d with bdr.resp := [], bdr.retries := 0 })
/-- LOSS_OF_ARBITRATION: the response is sent again once the bus is free, up to 4 times. -/
def lossGo (d : Dev) : Dev :=
  if d.bdr.resp.isEmpty then d
  else if d.bdr.retries < 4 then emit { d with bdr.retries := d.bdr.retries + 1 } (.smbus d.bdr.resp)
  else { d with bdr.resp := [], bdr.retries := 0 }
def execLossOfArbitration (s : State) : Out3 := onDev s (smDo lossGo)

end Sys2Proof.Machine
end

