-- ==== Sys2Proof/Machine/Caps.lean ====
section
/-!
DEFINITION. QUERY_CAPS: the capability structure of an owner (19 R550; 02 R81).
-/
namespace Sys2Proof.Machine

/-- ROLE of `FAB_STAT`. -/
def roleCode : Role → Nat | .alone => 0 | .lead => 1 | .member => 2

/-- Whether an in-service instance of a kind holds cells of an owner; kinds that are not dealt serve everyone. -/
def servesOwner (d : Dev) (o : Nat) (k : EngKind) : Bool :=
  match k with
  | .none | .ks | .rng => true
  | k => (kindCells k).any fun c => (getEng d c).svc == .inService
      && (List.range 64).any fun t => cellOwned (tblCell d.dlr.act t c) == some o

/-- The operations of a set as the entry checks see them. -/
def setOps (d : Dev) (o cls set : Nat) : List OpSpec :=
  (List.range 64).filterMap fun p => opSpec d o { opcode := BitVec.ofNat 16 (4096 * cls + 64 * set + p) }
/-- Whether a set is offered to an owner. -/
def offered (d : Dev) (o cls set : Nat) : Bool :=
  (cls == 0 || (getOwn d o).sh.cls.getLsbD cls) && (setOps d o cls set).any fun s => s.permitted && servesOwner d o s.kind && servesOwner d o s.kind2
/-- The highest masking order that an operation of a set offers. -/
def setOrder (d : Dev) (o cls set : Nat) : Nat := ((setOps d o cls set).map fun s => s.maxOrder.getD 0).foldl max 0

/-- The instances of a range of cells that are in service. -/
def serviceCount (d : Dev) (cs : List Nat) : Nat := (cs.filter fun c => (getEng d c).svc == .inService).length

/-- The 512 bytes of the structure. -/
def capsBytes (d : Dev) (o : Nat) : Bytes :=
  let cells (a n : Nat) : List Nat := (List.range n).map (· + a)
  let p := getFn d o
  let sets := (List.range 14).map fun c => packW ((List.range 64).map fun s => (s, b2n (offered d o c s)))
  let orders := (List.range 14).map fun c => packW ((List.range 64).map fun s => (2 * s, setOrder d o c s % 4))
  let nodes := packW ((0, 1) :: (memberNodes d).map fun n => (n, 1))
  le32 0x53504143 ++ leBytes 2 1 ++ leBytes 2 512 ++ leBytes 16 d.glob.devId.toNat ++ le32 d.boot.imgRel
    ++ leBytes 1 o ++ leBytes 1 d.glob.node ++ leBytes 1 (roleCode d.fab.role) ++ [d.glob.lcCode]
    ++ leBytes 1 (serviceCount d (cells 0 16)) ++ leBytes 1 (serviceCount d (cells 16 8))
    ++ leBytes 1 (serviceCount d (cells 24 (4 - syFabric d))) ++ leBytes 1 (serviceCount d (cells 28 4))
    ++ leBytes 1 d.hif.speed.toNat ++ leBytes 1 d.hif.width.toNat ++ leBytes 2 p.mps ++ leBytes 2 p.mrrs ++ zeros 6
    ++ leBytes 8 nodes ++ leBytes 8 (resWord (getOwn d o).sh) ++ leBytes 8 (memWord (getOwn d o).sh)
    ++ leBytes 8 (trkWord (getOwn d o).sh) ++ leBytes 4 (permWord (getOwn d o).sh) ++ zeros 4
    ++ le32 268435456 ++ le32 1048576 ++ leBytes 2 256 ++ [6, 16] ++ zeros 4 ++ zeros 24
    ++ (sets.map (leBytes 8)).flatten ++ zeros 16 ++ (orders.map (leBytes 16)).flatten ++ zeros 32

/-- QUERY_CAPS. -/
def queryCapsRun (d : Dev) (b : Job) : Dev := finishOut d b (capsBytes d b.owner) 0 0 0 0
def execQueryCaps (j : Nat) (s : State) : Out3 := onDev s (serviceNone j (isCode 0x0003) queryCapsRun)

end Sys2Proof.Machine
end

