-- ==== Sys2Proof/Machine/CodeJobs.lean ====
section
/-!
DEFINITION. The code-based services of class 0x4: Classic McEliece and HQC (05).
-/
namespace Sys2Proof.Machine

/-- The row of the Classic McEliece tables: 348864, 460896, 6688128, 6960119, 8192128. -/
def mcRow (set : Nat) : Nat := (set - 1) / 2
/-- An entry of a list of figures. -/
def figure (l : List Nat) (i : Nat) : Nat := l.getD i 0

/-- ENCAPS by handle (05 R174, R176). -/
def codeEncCycles (set : Nat) : Nat :=
  if isHqc set then figure [38000, 94000, 171000] (set - 0x10) else figure [14000, 26000, 44000, 43000, 56000] (mcRow set)
/-- DECAPS at orders 0 and 1 (05 R174, R176). -/
def codeDecCycles (set o : Nat) : Nat :=
  if isHqc set then
    (if o = 0 then figure [62000, 155000, 284000] (set - 0x10) else figure [95000, 236000, 432000] (set - 0x10))
  else if o = 0 then figure [260000, 430000, 560000, 540000, 570000] (mcRow set)
  else figure [420000, 690000, 900000, 870000, 920000] (mcRow set)
/-- KEYGEN of HQC, or one attempt of Classic McEliece (05 R175, R176). -/
def codeKeygenCycles (set : Nat) : Nat :=
  if isHqc set then figure [21000, 52000, 95000] (set - 0x10)
  else figure [14000000, 15500000, 52000000, 56000000, 121000000, 128000000, 118000000, 125000000, 152000000, 160000000] (set - 1)
/-- The streaming of a public key at 12.8 GB/s (05 R164, R174). -/
def streamCycles (pk : Nat) : Nat := cdiv (3 * pk) 32
/-- The decoding phase of an HQC key (05 R164). -/
def hqcDecode (set : Nat) : Nat := figure [300, 550, 850] (set - 0x10)

/-- The 3 unused bits at the end of each 677-byte row are 0 (05 R164); `fuel` bounds the rows. -/
def rowsOk : Nat → Bytes → Bool
  | 0, _ => true
  | _ + 1, [] => true
  | f + 1, bs => byteAt bs 676 &&& 0xE0 == 0 && rowsOk f (bs.drop 677)
/-- The unused high bits of the last byte of s (05 R164). -/
def hqcMask (set : Nat) : Byte := if set = 0x11 then 0xF8 else 0xE0
/-- The DETAIL of ENCODING of a public key from IN (05 R164). -/
def codePkBad (set : Nat) (pk : Bytes) : Option U16 :=
  if isHqc set then (if byteAt pk (pk.length - 1) &&& hqcMask set == 0 then none else some 0x0402)
  else if (set = 7 || set = 8) && !rowsOk 1547 pk then some 0x0401 else none
/-- CYCLES of its refusal (05 R164). -/
def codePkBadCycles (set pk : Nat) : Nat := if isHqc set then hqcDecode set else 1200 + streamCycles pk

/-- A string of n bits with the unused high bits of its last byte 0 (05 R159). -/
def hqcClear (set : Nat) (s : Bytes) : Bytes := s.set (s.length - 1) (byteAt s (s.length - 1) &&& ~~~ hqcMask set)

/-- The public key of an object. -/
def codePubOf (k : KObj) : Bytes := k.pub

/-- KEYGEN (05 R162, R163, R172). A cluster job that ends without OK has its tiles overwritten first (05 R173). -/
def codeKeygenRun (d : Dev) (b : Job) : Dev :=
  let set := opSet b.e.opcode
  match codeSet set with
  | none => d
  | some z =>
    let new (sec pub : Bytes) : NewKey := { type := opType b.e.opcode, policy := pPolicy b.e, origin := 0, sec := sec, pub := pub }
    if isHqc set then
      let r := jobRnd d b (80 + z.sigma)
      let s := fit (z.pk - 40) (Config.prim .hqcKeygenEk [arg1 set, r])
      let pk := slice r (40 + z.sigma) 40 ++ hqcClear set s
      makeKey d b (new (r.take (40 + z.sigma)) pk) pk 0 (codeKeygenCycles set)
    else
      let r := if pbit b.e 1 then fit 32 (ownAux b) else jobRnd d b 32
      let n := Config.count .mcElieceKeygenSk [arg1 set, r] + 1
      if 255 < n then finish (scrubJob d b) { b with attempts := 255, cycles := 255 * codeKeygenCycles set, outLen := 0 } stIterationBound 0
      else
        makeKey (if b.outBad.isSome then scrubJob d b else d) b (new (fit z.sk (Config.prim .mcElieceKeygenSk [arg1 set, r])) [])
          (fit z.pk (Config.prim .mcElieceKeygenPk [arg1 set, r])) n (n * codeKeygenCycles set)
def execCodeKeygen (j : Nat) (s : State) : Out3 := onDev s (service j (isOp 4 1) codeKeygenRun)

/-- Encapsulation: ciphertext and shared secret; an HQC ciphertext is u, whose unused high bits are 0, v and the salt (05 R159). -/
def codeEnc (set : Nat) (z : CodeSet) (pk r : Bytes) : Bytes × Bytes :=
  if isHqc set then
    let n := z.pk - 40
    let uv := fit (z.ct - 16) (Config.prim .hqcEncapsCt [arg1 set, pk, r])
    (hqcClear set (uv.take n) ++ uv.drop n ++ slice r z.sigma 16,
     fit z.ss (Config.prim .hqcEncapsSs [arg1 set, pk, r]))
  else (fit z.ct (Config.prim .mcElieceEncapsCt [arg1 set, pk, r]), fit z.ss (Config.prim .mcElieceEncapsSs [arg1 set, pk, r]))

/-- The two forms of ENCAPS (05 R161, R164, R167). -/
def codeEncapsRun (keep : Bool) (d : Dev) (b : Job) : Dev :=
  let set := opSet b.e.opcode
  match codeSet set with
  | none => d
  | some z =>
    let pk := if hasKey0 b then codePubOf (jobKey0 d b) else b.inData
    match (if hasKey0 b then none else codePkBad set pk) with
    | some det => refuse d b stEncoding det (codePkBadCycles set z.pk)
    | none =>
      let k := codeEnc set z pk (jobRnd d b (if isHqc set then z.sigma + 16 else 32))
      let cyc := if hasKey0 b || isHqc set then codeEncCycles set else 2400 + streamCycles z.pk
      if keep then keepSecret d b k.2 k.1 cyc else finishOut d b (k.1 ++ k.2) 0 0 0 cyc
def execCodeEncaps (j : Nat) (s : State) : Out3 := onDev s (service j (isOp 4 2) (codeEncapsRun false))
def execCodeEncapsKeep (j : Nat) (s : State) : Out3 := onDev s (service j (isOp 4 4) (codeEncapsRun true))

/-- The two forms of DECAPS, with implicit rejection (05 R165). -/
def codeDecapsRun (keep : Bool) (d : Dev) (b : Job) : Dev :=
  let set := opSet b.e.opcode
  match codeSet set with
  | none => d
  | some z =>
    let k := jobKey0 d b
    let f := if isHqc set then Config.Prim.hqcDecaps else .mcElieceDecaps
    let ss := fit z.ss (Config.prim f [arg1 set, secretOf k ++ k.pub, b.inData])
    let cyc := codeDecCycles set b.order
    if keep then keepSecret d b ss [] cyc else finishOut d b ss 0 0 0 cyc
def execCodeDecaps (j : Nat) (s : State) : Out3 := onDev s (service j (isOp 4 3) (codeDecapsRun false))
def execCodeDecapsKeep (j : Nat) (s : State) : Out3 := onDev s (service j (isOp 4 5) (codeDecapsRun true))

/-- PK_LOAD (05 R164, R169). -/
def codePkLoadRun (d : Dev) (b : Job) : Dev :=
  let set := opSet b.e.opcode
  match codeSet set with
  | none => d
  | some z =>
    match codePkBad set b.inData with
    | some det => refuse d b stEncoding det (codePkBadCycles set z.pk)
    | none =>
      makeKey d b { type := opType b.e.opcode, policy := pPolicy b.e, origin := 5, sec := [], pub := b.inData } [] 0
        (if isHqc set then hqcDecode set + 400 else 1200 + streamCycles z.pk)
def execCodePkLoad (j : Nat) (s : State) : Out3 := onDev s (service j (isOp 4 6) codePkLoadRun)

/-- PUB_EXPORT (05 R174, R176). -/
def codePubExportRun (d : Dev) (b : Job) : Dev :=
  let set := opSet b.e.opcode
  let pk := codePubOf (jobKey0 d b)
  finishOut d b pk 0 0 0 (if isHqc set then 200 else 200 + streamCycles pk.length)
def execCodePubExport (j : Nat) (s : State) : Out3 := onDev s (service j (isOp 4 7) codePubExportRun)

end Sys2Proof.Machine
end

