-- ==== Sys2Proof/Machine/Control.lean ====
section
/-!
DEFINITION. Placement as a command, and the control operations of class 0x0 (02 R81, 09 R308).
-/
namespace Sys2Proof.Machine

def execJobPlace (j : Nat) (s : State) : Out3 := onDev s (jobPlaceGo j)

/-- NOP. -/
def nopRun (d : Dev) (b : Job) : Dev := finish d b stOk 0
def execNop (j : Nat) (s : State) : Out3 := onDev s (serviceNone j (isCode 0x0001) nopRun)

/-- ECHO. -/
def echoRun (d : Dev) (b : Job) : Dev := finishOut d b b.inData 0 0 0 0
def execEcho (j : Nat) (s : State) : Out3 := onDev s (serviceNone j (isCode 0x0002) echoRun)

/-- TIME. -/
def timeRun (d : Dev) (b : Job) : Dev :=
  finishOut d b (le64 d.glob.tb ++ le32 d.glob.bootCnt) (d.glob.tb.setWidth 32) 0 0 0
def execTime (j : Nat) (s : State) : Out3 := onDev s (serviceNone j (isCode 0x0004) timeRun)

/-- FATE_QUERY: the record of a job, or with PARAM 2 the records of a key, as many as OUT holds, with NO_RECORD at the end
of the list (log 19). A homed job's record comes from its home node (18 R523). -/
def fateQueryRun (d : Dev) (b : Job) : Dev :=
  let a := fqArgs d b.owner (u64At b.auxData 0) (u64At b.auxData 8)
  let recs := if b.e.param = 2 then (jByKey d a).map (fun k => jRec (getJ d k)) ++ [({} : FateRec)] else [fateByJob d a]
  match fateNode d a with
  | some n => if b.step = 1 then d else fateAsk (modJob d b.id fun x => { x with step := 1 }) n (if b.e.param = 2 then 2 else 1) (2 ^ 32 + b.id) a
  | none => finishOut d b (((recs.take (b.e.outCap.toNat / 32)).map fateBytes).flatten) 0 0 0 0
def execFateQuery (j : Nat) (s : State) : Out3 := onDev s (serviceNone j (isCode 0x0005) fateQueryRun)

/-- FATE_RELEASE: PARAM 0 means the current boot. -/
def fateReleaseRun (d : Dev) (b : Job) : Dev :=
  finish (releaseEverywhere d { sqId := 0, index := 0, boot := if b.e.param = 0 then d.glob.bootCnt else b.e.param, owner := b.owner, key := 0 }) b stOk 0
def execFateRelease (j : Nat) (s : State) : Out3 := onDev s (serviceNone j (isCode 0x0006) fateReleaseRun)

/-- NOTIFY: its completion signals at once (02 R62). -/
def notifyRun (d : Dev) (b : Job) : Dev := finish d b stOk 0
def execNotify (j : Nat) (s : State) : Out3 := onDev s (serviceNone j (isCode 0x0007) notifyRun)

end Sys2Proof.Machine
end

