-- ==== Sys2Proof/Machine/Fabric.lean ====
section
/-!
DEFINITION. The Brynique fabric: links, sessions, homed jobs, members that join, are lost and are removed (18; 20 R562). The payload
layouts are the model's (log 38).
-/
namespace Sys2Proof.Machine

/-! ## Links (18 R505-R508) -/

/-- A port goes down: what it had not delivered takes the other route. -/
def portDown (p : Nat) (d : Dev) : Dev :=
  let q := getPort d p
  if 4 ≤ p || q.state == 3 then d
  else
    let d1 := modPort d p fun x => { x with state := 0, tries := 0, txSeq := 0, rxSeq := 0, replay := [], wait := []
                                            credits := #v[16, 16, 128, 128, 256, 256, 32, 32] }
    (q.replay ++ q.wait).foldl (fun acc x => routeFrame acc x.1 { x.2 with lseq := 0 }) d1

/-- A port replays every frame that is not acknowledged; after 8 replays of one frame the link retrains. -/
def portReplay (p : Nat) (d : Dev) : Dev :=
  let q := getPort d p
  if q.state != 2 || q.replay.isEmpty then d
  else if 8 ≤ q.tries then modPort d p fun x => { x with state := 1, tries := 0, retrains := satInc x.retrains }
  else q.replay.foldl (fun acc x => portEmit acc p x.1 x.2) (modPort d p fun x => { x with tries := x.tries + 1, replays := satInc x.replays })

/-- A link comes up. -/
def portIsUp (p : Nat) (d : Dev) : Dev :=
  let q := getPort d p
  if 4 ≤ p || q.state == 3 || q.barred || d.fab.role == .alone then d
  else
    let d1 := modPort d p fun x => { x with state := 2, fails := [] }
    let d2 := pump (q.replay.foldl (fun acc x => portEmit acc p x.1 x.2) d1) p
    if isReady d2 then joinAll d2 else d2

/-- A retrain fails: the third within 10 ms takes the port down until an ADMIT (18 R508). -/
def portFailed (p : Nat) (d : Dev) : Dev :=
  let q := getPort d p
  if 4 ≤ p || q.state != 1 then d
  else
    let fs := (q.fails.filter fun t => decide (d.glob.tb.toNat ≤ t.toNat + 10000000)) ++ [d.glob.tb]
    if fs.length < 3 then modPort d p fun x => { x with fails := fs, retrains := satInc x.retrains }
    else
      let d1 := modPort (portDown p d) p fun x => { x with fails := [], barred := true }
      fabCause (amber d1 .portDown .fab [BitVec.ofNat 8 p]) 4 d.fab.evNode.toNat

/-- PORT_LINK_CHANGE (18 R503, R505). -/
def portLinkGo (p : Nat) (ev : LinkEv) (d : Dev) : Dev :=
  match ev with
  | .down => portDown p d
  | .train =>
    let q := getPort d p
    if 4 ≤ p || q.state == 3 || q.barred || d.fab.role == .alone then d
    else modPort d p fun x => { x with state := 1, retrains := if x.state == 2 then satInc x.retrains else x.retrains }
  | .up => portIsUp p d
  | .failed => portFailed p d
def execPortLinkChange (port : Nat) (ev : LinkEv) (s : State) : Out3 := onDev s (portLinkGo port ev)
def execReplayTimeout (port : Nat) (s : State) : Out3 := onDev s (portReplay port)

/-- ACK/NAK: acknowledge or not, LSEQ, class and units of the credit returned. -/
def ackBody (ok : Bool) (lseq : BitVec 12) (cls units : Nat) : Bytes :=
  [if ok then 1 else 0] ++ leBytes 2 lseq.toNat ++ leBytes 1 cls ++ leBytes 1 units
/-- Send an ACK/NAK frame over a port. -/
def sendAck (d : Dev) (p : Nat) (b : Bytes) : Dev := portEmit d p .ackNak { port := p, src := d.glob.node, body := b }

/-- An ACK/NAK frame arrives: what it acknowledges leaves the replay buffer and credits return; a NAK replays (18 R507, R508). -/
def ackGo (p : Nat) (b : Bytes) (d : Dev) : Dev :=
  let l : BitVec 12 := BitVec.ofNat 12 (leNat (slice b 1 2))
  if byteAt b 0 = 1 then
    let c := (byteAt b 3).toNat
    pump (modPort d p fun x =>
      { x with replay := x.replay.filter (fun f => (l - f.2.lseq).toNat ≥ 2048), tries := 0
               credits := x.credits.setIfInBounds c (x.credits.toList.getD c 0 + (byteAt b 4).toNat) }) p
  else
    portReplay p (modPort d p fun x => { x with replay := x.replay.filter fun f => (l - 1 - f.2.lseq).toNat ≥ 2048 })

/-! ## Members lost and the lead lost (18 R521, R522, R525) -/

/-- The end of a fabric command. -/
def fabEnd (d : Dev) (result : Byte) : Dev := { d with fab.busy := false, fab.result := result }
/-- The end of a command on a node, if that is the one in progress. -/
def fabEndFor (d : Dev) (op n : Nat) (result : Byte) : Dev :=
  if d.fab.busy && d.fab.op.toNat == op && d.fab.cmdNode.toNat == n then fabEnd d result else d

/-- The jobs homed on a node. -/
def homedJobs (d : Dev) (n : Nat) : List Job := d.jobs.live.filter fun b => b.remote && b.node == n

/-- Complete a homed job with MEMBER_LOST: OUT_LEN is what the lead issued, and OUTPUT and PARTIAL are as those bytes warrant (R521
step 3; log 186). -/
def lostJob (d : Dev) (b : Job) : Dev :=
  closeJob d { b with result := 0, effect := brokenEffect d { b with effect := 0 } } stMemberLost 0 {}

/-- The fate queries that waited for a node answer from the lead's own records. -/
def fqsFree (d : Dev) : Dev :=
  d.jrn.fq.foldl (fun acc e =>
    let a := fqArgs acc e.1 e.2.arg0 e.2.arg1
    if e.2.busy && (fateNode acc a).isNone then
      setFq (fqAnswer acc e.1 (if e.2.op = 1 then fateByJob acc a else {}) 0) e.1 { getFq (fqAnswer acc e.1 (if e.2.op = 1 then fateByJob acc a else {}) 0) e.1 with busy := false }
    else acc) d

/-- A session's state at its end: the counters, shares and owners stay. -/
def sessionClear (x : Node) : Node :=
  { x with tx := 0, rx := 0, early := [], stage := 0, hsBytes := [], ephem := [], nextKey := [], renew := false, secret := [], credits := []
           jrns := [], wrData := [], owners := [] }

/-- A member is LOST: cause 1 silence, 2 tag, 3 gap (R521). -/
def memberLost (n cause : Nat) (d : Dev) : Dev :=
  if d.fab.role != .lead || (getNode d n).state != .member then d
  else
    let js := homedJobs d n
    let d1 := modNode d n fun x => { sessionClear x with state := .lost, losses := satInc x.losses
                                                         lostJobs := satNat 16 (x.lostJobs.toNat + js.length) }
    let d2 := js.foldl lostJob d1
    let d3 := { d2 with fab.abandon := d2.fab.abandon.filter fun k => k / 512 != n }
    let d4 := amber d3 .memberLost .fab (leBytes 1 n ++ leBytes 1 cause ++ leBytes 2 js.length)
    let d5 := fabCause d4 2 n
    let d6 := if d5.vfm.busy && vfmNode d5 == some n then vfmEnd d5 3 0 d5.vfm.sel.toNat else d5
    fqsFree (fabEndFor d6 3 n 1)
def execMemberSilence (node : Nat) (s : State) : Out3 := onDev s (memberLost node 1)

/-- LEAD_LOST: a member abandons its homed jobs, destroys its volatile objects, retires its open blocks and resolves its journal;
its VFs leave service until the lead's CONFIG brings them back (R522). -/
def leadLostGo (d : Dev) : Dev :=
  if !isMember d || (getNode d 0).state != .member then d
  else
    let n := d.jobs.live.length
    let d1 := modNode d 0 fun x => { sessionClear x with state := .lost, shares := [] }
    let d2 := destroyVolatile (resolveOwners (abandonJobs d1 (fun _ => true) true) (fun _ => true) false) fun _ => true
    let d3 := { d2 with own := d2.own.filter fun e => e.1 == 0, vfm := { event := d2.vfm.event, evOwner := d2.vfm.evOwner }, fab.cfgQ := [] }
    amber (reTable d3) .leadLost .fab (leBytes 2 (min n 65535))
def execLeadLost (s : State) : Out3 := onDev s leadLostGo

/-- The session with a node ends (R509). -/
def sessionEnd (n cause : Nat) (d : Dev) : Dev := if isMember d then leadLostGo d else memberLost n cause d

/-- GAP_TIMEOUT: frames wait behind a gap that has lasted 50 µs (R509). -/
def gapGo (n : Nat) (d : Dev) : Dev := if (getNode d n).early.isEmpty then d else sessionEnd n 3 d
def execGapTimeout (node : Nat) (s : State) : Out3 := onDev s (gapGo node)

/-! ## Configuring a member (18 R519, R520) -/

/-- The shares of a CONFIG frame. -/
def cfgShares (b : Bytes) : Shares :=
  let g (i : Nat) : Nat := leNat (slice b (4 + 2 * i) 2)
  { credit := BitVec.ofNat 13 (g 0), gran := BitVec.ofNat 15 (g 1), pkey := BitVec.ofNat 9 (g 2), sskey := BitVec.ofNat 13 (g 3)
    jrn := BitVec.ofNat 13 (g 4), py := BitVec.ofNat 11 (g 5), me := BitVec.ofNat 10 (g 6), sy := BitVec.ofNat 9 (g 7)
    tree := BitVec.ofNat 9 (g 8), cls := BitVec.ofNat 16 (g 9), trump := (byteAt b 24).getLsbD 0, cap := (byteAt b 24).getLsbD 1 }

/-- A member carries out the commands that wait, until one has to wait for its table. -/
def cfgRun : Nat → Dev → Dev
  | 0, d => d
  | k + 1, d =>
    if d.vfm.busy then d
    else
      match d.fab.cfgQ with
      | [] => d
      | b :: rest =>
        let o := (byteAt b 1).toNat
        let op := (byteAt b 0).toNat
        let d1 := { d with fab.cfgQ := rest, vfm.sel := BitVec.ofNat 8 o, vfm.stg := cfgShares b, vfm.op := BitVec.ofNat 3 op
                           vfm.purge := byteAt b 2 == 1 }
        let d2 := if op = 1 then vfmEnable d1 o else if op = 2 then vfmApply d1 o else vfmRemove d1 o (byteAt b 2 == 1)
        cfgRun k (topUp d2 o)

/-- A CONFIG frame: a command for a member, or its answer for the lead. -/
def configIn (n : Nat) (b : Bytes) (d : Dev) : Dev :=
  let op := (byteAt b 0).toNat % 8
  let o := (byteAt b 1).toNat
  if isMember d then
    let d1 := { d with fab.cfgQ := d.fab.cfgQ ++ [b] }
    if isReady d1 then cfgRun d1.fab.cfgQ.length d1 else d1
  else
    let r := byteAt b 2
    let mine := d.vfm.busy && vfmNode d == some n && d.vfm.op.toNat == op && d.vfm.sel.toNat == o
    let d1 := if r ≠ 0 then d
      else modNode d n fun x =>
        { x with owners := if op = 1 then (if x.owners.contains o then x.owners else x.owners ++ [o])
                           else if op = 3 then x.owners.filter (· != o) else x.owners
                 shares := if !mine then x.shares else if op = 3 then mapSet {} x.shares o {} else mapSet {} x.shares o d.vfm.stg }
    if mine then vfmEnd d1 r 0 o else d1

/-- The lead sends a node the kitty that it holds for it: APPLY for the PF, ENABLE for the VFs that are ACTIVE (R520). -/
def sendKitty (d : Dev) (n : Nat) : Dev :=
  (getNode d n).shares.foldl (fun acc e =>
    let s := e.2
    if e.1 ≠ 0 && (getOwn acc e.1).state != .active then acc
    else sendFrame acc n .config (cfgBody (if e.1 = 0 then 2 else 1) e.1 false s)) d

/-! ## Sessions (18 R510, R511, R520) -/

/-- The member's identity fails: the node is ABSENT, or the session that was to be renewed ends. -/
def identityFails (n : Nat) (d : Dev) : Dev :=
  if (getNode d n).renew then
    memberLost n 2 (fabEndFor (fabCause d 8 n) 3 n 2)
  else fabEndFor (modNode d n fun x => { sessionClear x with state := .absent }) 1 n 2

/-- A HANDSHAKE frame: a piece of a message; the last piece of each message makes the next step (R510). -/
def handshakeIn (n : Nat) (b : Bytes) (d : Dev) : Dev :=
  let k := (byteAt b 0).toNat
  let c := b.drop 1
  let x := getNode d n
  if isMember d then
    if k = 1 then
      let d1 := modNode d 0 fun y => { y with hsBytes := if y.stage = 1 then y.hsBytes ++ c else c, stage := 1, renew := y.state == .member }
      if (getNode d1 0).hsBytes.length = hs1Len then hsMember1 d1 else d1
    else if k = 3 && x.stage == 2 then
      let d1 := modNode d 0 fun y => { y with hsBytes := y.hsBytes ++ c }
      if (getNode d1 0).hsBytes.length = hs1Len + hs2Len + hs3Len then hsMember3 d1 else d1
    else d
  else if k = 2 && x.stage == 1 then
    let d1 := modNode d n fun y => { y with hsBytes := y.hsBytes ++ c }
    if (getNode d1 n).hsBytes.length = hs1Len + hs2Len then
      match hsLead2 d1 n with
      | none => identityFails n d1
      | some d2 =>
        if x.renew then sendFrame d2 n .rekey []
        else sendKitty (modNode d2 n fun y => { y with secret := y.nextKey, nextKey := [], hsBytes := [] }) n
    else d1
  else d

/-- A REKEY frame: the new keys apply from the next frame; the member answers for its own direction (R511). -/
def rekeyIn (n : Nat) (d : Dev) : Dev :=
  let x := getNode d n
  if x.nextKey.isEmpty || x.stage ≠ 3 then d
  else
    let d1 := modNode d n fun y => { y with secret := y.nextKey, nextKey := [], stage := 0, renew := false, hsBytes := [] }
    if isMember d then sendFrame d1 0 .rekey [] else fabEndFor d1 3 n 0

/-- FAB_JOIN: the node of a finished handshake becomes MEMBER (R520). -/
def joinGo (n hops : Nat) (d : Dev) : Dev :=
  let x := getNode d n
  if d.fab.role != .lead || x.state != .joining || x.stage ≠ 3 then d
  else
    let d1 := modNode d n fun y => { y with state := .member, stage := 0, hops := BitVec.ofNat 4 hops }
    fabEndFor (fabCause (amber d1 .fabJoin .fab (leBytes 1 n ++ leBytes 1 hops)) 1 n) 1 n 0
def execFabJoin (node hops : Nat) (s : State) : Out3 := onDev s (joinGo node hops)

/-- SESSION_RENEW: a new handshake with a member, in the background (R511). -/
def renewGo (n : Nat) (d : Dev) : Dev :=
  if d.fab.role != .lead || (getNode d n).state != .member || (getNode d n).stage ≠ 0 then d else hsStart d n true
def execSessionRenew (node : Nat) (s : State) : Out3 := onDev s (renewGo node)

/-! ## `FAB_CMD` (18 R508, R520, R526, R529) -/

/-- A command with GO starts: OP and NODE are taken, and BUSY is set. -/
def fabStart (d : Dev) (op n : Nat) : Dev :=
  { d with fab.op := BitVec.ofNat 3 op, fab.cmdNode := BitVec.ofNat 6 n, fab.busy := true }
/-- A write of FAB_CMD with GO: OP and NODE hold what was written wherever the register is served, and the command runs in READY (01 R27). -/
def fabRun (op n : Nat) (run : Dev → Dev) (d : Dev) : Dev :=
  if !ctlServed d || d.fab.busy then d
  else if isReady d then run (fabStart d op n)
  else { d with fab.op := BitVec.ofNat 3 op, fab.cmdNode := BitVec.ofNat 6 n }
/-- Whether a node number names another node of the lead's fabric. -/
def fabNode (d : Dev) (n : Nat) : Bool := d.fab.role == .lead && n != 0 && decide (n < 64) && d.fab.nodes.getLsbD n

/-- ADMIT: a port that went down for good and leads to the node may train again; the node joins as soon as a route reaches it. A node
without an ALLOW row has no identity that could pass. -/
def admitGo (n : Nat) : Dev → Dev :=
  fabRun 1 n fun d1 =>
    let x := getNode d1 n
    if !fabNode d1 n || x.state == .member || x.state == .joining then fabEnd d1 1
    else if (mapGet [] d1.fab.allow n).isEmpty then fabEnd d1 2
    else
      let r := routeByte d1 n
      if !r.getLsbD 3 && !r.getLsbD 7 then fabEnd d1 3
      else
        let free (acc : Dev) (v : Bool) (p : Nat) : Dev := if v then modPort acc p fun q => { q with barred := false } else acc
        let d2 := free (free d1 (r.getLsbD 3) (r.toNat % 4)) (r.getLsbD 7) (r.toNat / 16 % 4)
        let d3 := modNode d2 n fun y => { y with state := if y.state == .removed then .absent else y.state }
        if (routeOf d3 n false).isSome then joinStart d3 n else d3
def execFabAdmit (node : Nat) (s : State) : Out3 := onDev s (admitGo node)

/-- ADMIT_TIMEOUT. -/
def admitTimeoutGo (d : Dev) : Dev := if d.fab.busy && d.fab.op == 1 then fabEnd d 4 else d
def execAdmitTimeout (s : State) : Out3 := onDev s admitTimeoutGo

/-- Whether an SQ homed on a node is enabled or draining. -/
def nodeInUse (d : Dev) (n : Nat) : Bool := d.sqs.any fun e => (e.2.en || e.2.draining) && sqHome d e.1 == n

/-- REMOVE: the node's grants come back and its session stops (R526). -/
def fabRemoveGo (n : Nat) : Dev → Dev :=
  fabRun 2 n fun d1 =>
    if !fabNode d1 n || (getNode d1 n).state == .removed then fabEnd d1 1
    else if nodeInUse d1 n then fabEnd d1 5
    else fqsFree (fabEnd (modNode d1 n fun x => { sessionClear x with state := .removed }) 0)
def execFabRemove (node : Nat) (s : State) : Out3 := onDev s (fabRemoveGo node)

/-- REKEY: BUSY until the new keys apply. -/
def rekeyGo (n : Nat) : Dev → Dev :=
  fabRun 3 n fun d1 =>
    if !fabNode d1 n || (getNode d1 n).state != .member then fabEnd d1 1
    else if (getNode d1 n).stage = 0 then hsStart d1 n true else d1
def execFabRekey (node : Nat) (s : State) : Out3 := onDev s (rekeyGo node)

/-! ## Homed jobs (18 R514, R515, R524) -/

/-- Reserve a journal entry for a homed job: the lead holds a grant for it. -/
def jrnGranted (d : Dev) (o : Nat) (e : JEntry) : Option Nat × Dev :=
  match jrnPick d with
  | none => (none, d)
  | some k => (some k, { setJ d k { e with owner := o, boot := d.glob.bootCnt, tb := d.glob.tb } with jrn.next := (k + 1) % 4096 })

/-- SUBMIT: a homed job comes to its member, with a job credit and, where it needs one, a journal entry granted before. -/
def submitIn (b : Bytes) (d : Dev) : Dev :=
  let j := leNat (slice b 0 8)
  let o := (byteAt b 8).toNat
  let sq := leNat (slice b 11 2)
  let idx := u32At b 13
  let e := parseSqe (slice b 17 64)
  if !isReady d || (findJob d j).isSome then d
  else
    let d1 := modNode d 0 fun x => { x with credits := mapMod 0 x.credits o (· - 1) }
    let (k, d2) : Option Nat × Dev :=
      if journalled d1 o e then
        jrnGranted (modNode d1 0 fun x => { x with jrns := mapMod 0 x.jrns o (· - 1) }) o
          { state := .reserved, sqId := BitVec.ofNat 16 sq, index := idx, tag := e.tag, opcode := e.opcode, key0 := e.key0 }
      else (none, d1)
    admitJob d2 { id := j, owner := o, sq := sq, index := idx, e := e, mode := (byteAt b 10).setWidth 2, node := d.glob.node
                  fetchTb := d.glob.tb, jrn := k } ((byteAt b 9).setWidth 2)

/-- Write a homed job's completion once the lead has issued as many output writes as its COMPLETE frame says (R515). -/
def tryComplete (d : Dev) (n j : Nat) : Dev :=
  match findJob d j with
  | none => d
  | some b =>
    match b.cpl with
    | none => d
    | some c =>
      if mapGet 0 (getNode d n).wrData j ≠ leNat (slice c 29 4) then d
      else
        let d1 := modNode d n fun x => { x with wrData := mapSet 0 x.wrData j 0 }
        closeJob d1 { b with outLen := leNat (slice c 12 4), effect := byteAt c 16, result := u32At c 25 } (u16At c 8) (u16At c 10)
          { engine := u16At c 22, attempts := byteAt c 17, cycles := u32At c 18, ver := byteAt c 24 }

/-- Whether a job is homed on the node that a frame comes from. -/
def homedOn (d : Dev) (n j : Nat) : Bool := match findJob d j with | some b => b.remote && b.node == n | none => false

/-- COMPLETE. -/
def completeIn (n : Nat) (b : Bytes) (d : Dev) : Dev :=
  let j := leNat (slice b 0 8)
  if !homedOn d n j then d else tryComplete (modJob d j fun x => { x with cpl := some b }) n j
/-- WR_DATA: the lead issues the write for the job's owner. -/
def wrDataIn (n : Nat) (b : Bytes) (d : Dev) : Dev :=
  let j := leNat (slice b 0 8)
  let data := b.drop 17
  if !homedOn d n j then d
  else
    let d1 := hostWrite d (byteAt b 8).toNat (u64At b 9) data true
    let d2 := modNode (modJob d1 j fun x => { x with outLen := x.outLen + data.length }) n fun x => { x with wrData := mapMod 0 x.wrData j (· + 1) }
    tryComplete d2 n j
/-- RD_REQ: the lead issues the read for the job's owner. -/
def rdReqIn (n : Nat) (b : Bytes) (d : Dev) : Dev :=
  let j := leNat (slice b 0 8)
  if !homedOn d n j then d
  else
    hostRead d (byteAt b 9).toNat (u64At b 10) (leNat (slice b 18 4))
      (match sideOf (byteAt b 8).toNat with | .input => .input j | .aux => .aux j | .inList => .inList j | .outList => .outList j)
/-- RD_DATA: the data of a member's read, or its failure. -/
def rdDataIn (b : Bytes) (d : Dev) : Dev :=
  match findJob d (leNat (slice b 0 8)) with
  | none => d
  | some x =>
    let side := sideOf (byteAt b 8).toNat
    if byteAt b 9 = 0 then jobData d x side (b.drop 10) else jobReadFailed d x side (byteAt b 9).toNat

/-- ABANDON: a member abandons an owner's homed jobs, or every owner's, and their volatile objects; or aborts one job (R524). -/
def abandonIn (b : Bytes) (d : Dev) : Dev :=
  let o := leNat (slice b 0 2)
  if 2 < b.length then
    match findJob d (leNat (slice b 2 8)) with
    | some x => abortJob d x (u16At b 10)
    | none => d
  else
    let p (x : Nat) : Bool := o == 256 || x == o
    let d1 := destroyVolatile (resolveOwners (abandonJobs d p true) p false) p
    (liveOwners d1).foldl (fun acc x => if p x then topUp acc x else acc) (sendFrame d1 0 .abandonDone (leBytes 2 o))
/-- ABANDON_DONE. -/
def abandonDoneIn (n : Nat) (b : Bytes) (d : Dev) : Dev :=
  { d with fab.abandon := d.fab.abandon.filter (· != abandonKey n (leNat (slice b 0 2))) }
/-- CREDIT_GRANT. -/
def grantIn (n : Nat) (b : Bytes) (d : Dev) : Dev :=
  let o := (byteAt b 0).toNat
  modNode d n fun x => { x with credits := mapMod 0 x.credits o (· + leNat (slice b 1 2)), jrns := mapMod 0 x.jrns o (· + leNat (slice b 3 2)) }

/-! ## Fate (18 R523) -/

/-- A member's own record of a job: one in flight, or one resolved. -/
def fateMember (d : Dev) (a : FqArgs) : FateRec :=
  match jByJob d a with
  | some k => jRec (getJ d k)
  | none =>
    if d.jobs.live.any fun b => b.owner == a.owner && b.sq == a.sqId.toNat && b.index == a.index then fateByJob d a else {}
/-- The record of 32 bytes of a FATE frame. -/
def fateOf (b : Bytes) : FateRec :=
  let w := u64At b 0
  let fs : List Fate := [.noRecord, .pending, .running, .completed, .abandonedNone, .abandonedDone, .retired, .consumed]
  { fate := fs.getD (w.toNat % 16) .noRecord, effect := (w >>> 8).setWidth 8, status := (w >>> 16).setWidth 16, tag := (w >>> 32).setWidth 32
    object := u32At b 8, boot := u32At b 12, first := u32At b 16, last := u32At b 20, tb := u64At b 24 }

/-- A query on a member: it answers with up to 14 records. -/
def fateQueryIn (b : Bytes) (d : Dev) : Dev :=
  let op := (byteAt b 0).toNat
  let boot := u32At b 16
  let a : FqArgs := { owner := (byteAt b 1).toNat, sqId := u16At b 10, index := u32At b 12, boot := if boot = 0 then d.glob.bootCnt else boot
                      key := u32At b 20 }
  let reply (d : Dev) (rs : List FateRec) : Dev :=
    sendFrame d 0 .fate ([0x80 ||| byteAt b 0, byteAt b 1] ++ slice b 2 22 ++ ((rs.take 14).map fateBytes).flatten)
  if op = 1 then reply d [fateMember d a]
  else if op = 2 then reply d ((jByKey d a).map fun k => jRec (getJ d k))
  else if op = 3 then (let r := fateRelease d a; topUp (reply r.2 [r.1]) a.owner)
  else if op = 4 then topUp (fateReleaseBoot d a.owner a.boot) a.owner
  else
    let o := (byteAt b 1).toNat
    match d.jrn.entries.find? fun e => e.2.state == .completed && !e.2.kept && e.2.owner == o && e.2.sqId == u16At b 2 && e.2.index == u32At b 4 with
    | some e => topUp (giveEntries (freeJ d e.1) o) o
    | none => d

/-- An answer on the lead: a record that the member does not have is the lead's own. -/
def fateAnswerIn (b : Bytes) (d : Dev) : Dev :=
  let op := (byteAt b 0).toNat % 128
  let asker := leNat (slice b 2 8)
  let boot := u32At b 16
  let a : FqArgs := { owner := (byteAt b 1).toNat, sqId := u16At b 10, index := u32At b 12, boot := if boot = 0 then d.glob.bootCnt else boot
                      key := u32At b 20 }
  let rs := (chunks 32 15 (b.drop 24)).map fateOf
  let one := let r := rs.getD 0 {}; if op = 1 && r.fate = .noRecord then fateByJob d a else r
  if 2 ^ 32 ≤ asker then
    match findJob d (asker - 2 ^ 32) with
    | some x =>
      let l := if op = 2 then rs ++ [({} : FateRec)] else [one]
      if x.step = 1 then finishOut d x (((l.take (x.e.outCap.toNat / 32)).map fateBytes).flatten) 0 0 0 0 else d
    | none => d
  else
    let q := getFq d asker
    if !q.busy then d
    else
      let d1 := if op = 3 then (fateRelease d a).2 else d
      let d2 := if op = 2 then
          (match rs[q.cursor]? with | some r => fqAnswer d1 asker r (q.cursor + 1) | none => fqAnswer d1 asker {} 0)
        else fqAnswer d1 asker one 0
      setFq d2 asker { getFq d2 asker with busy := false }

/-! ## Time, records, Amber (18 R516, R530; 17 R484) -/

/-- TIME: a member corrects its offset by the path delay measured at join, which is free (log 4). -/
def timeIn (b : Bytes) (d : Dev) : Dev :=
  let want : Int := (u64At b 0).toNat + Config.count .fabricDelay [leBytes 1 d.glob.node] - d.glob.tb.toNat
  { d with fab.offset := want, fab.terr := BitVec.ofInt 16 (want - d.fab.offset) }
/-- RECORD: the lead writes a member's record into its mirror. -/
def recordIn (n : Nat) (b : Bytes) (d : Dev) : Dev :=
  if d.recd.mirrorEn then mirrorWrite d n (leNat (slice b 0 2)) (slice b 2 256) else d
/-- AMBER: the lead writes a member's entry into its own ring. -/
def amberIn (n : Nat) (b : Bytes) (d : Dev) : Dev :=
  ringPut d { tb := u64At b 0, boot := u32At b 8, code := u16At b 12, source := (u16At b 14 &&& 0xF03F) ||| BitVec.ofNat 16 (64 * n)
              supp := u16At b 16, sev := byteAt b 18, flags := byteAt b 19 ||| 4, wall := u64At b 20, args := slice b 28 36 }

/-! ## Frames that arrive (18 R503, R506-R509, R521 step 1) -/

/-- What a frame does at the node it is for. -/
def deliver (t : FType) (n : Nat) (b : Bytes) (d : Dev) : Dev :=
  match t with
  | .submit => if isMember d then submitIn b d else d
  | .complete => if isMember d then d else completeIn n b d
  | .rdReq => if isMember d then d else rdReqIn n b d
  | .rdData => if isMember d then rdDataIn b d else d
  | .wrData => if isMember d then d else wrDataIn n b d
  | .abandon => if isMember d then abandonIn b d else d
  | .abandonDone => if isMember d then d else abandonDoneIn n b d
  | .creditGrant => if isMember d then d else grantIn n b d
  | .ackNak => d
  | .heartbeat => d
  | .time => if isMember d then timeIn b d else d
  | .handshake => handshakeIn n b d
  | .config => configIn n b d
  | .record => if isMember d then d else recordIn n b d
  | .amber => if isMember d then d else amberIn n b d
  | .fate => if isMember d then fateQueryIn b d else fateAnswerIn b d
  | .rekey => rekeyIn n d

/-- Whether a node's session takes a type: everything from a member, or from one that has ended its handshake; only HANDSHAKE
before. -/
def sessionTakes (d : Dev) (n : Nat) (t : FType) : Bool :=
  let x := getNode d n
  if isMember d then t == .handshake || x.state == .member
  else x.state == .member || (x.state == .joining && (t == .handshake || x.stage == 3))

/-- Deliver a frame that is next in order, then those that waited for it. `fuel` bounds them. -/
def deliverFrom (n : Nat) : Nat → FType → Frame → Dev → Dev
  | 0, _, _, d => d
  | k + 1, t, f, d =>
    let d1 := deliver t n f.body (modNode d n fun x => { x with rx := x.rx + 1 })
    match (getNode d1 n).early.find? fun e => e.2.eseq == (getNode d1 n).rx with
    | some e => deliverFrom n k e.1 e.2 (modNode d1 n fun x => { x with early := x.early.filter (· != e) })
    | none => d1

/-- A frame for this node. A handshake that starts again ends the session that was (R509, R521). -/
def frameHere (t : FType) (f : Frame) (d0 : Dev) : Dev :=
  let n := f.src
  let partner := if isMember d0 then n == 0 else fabNode d0 n
  let restart := isMember d0 && t == .handshake && f.eseq == 0 && (getNode d0 0).rx != 0
  let d := if restart then modNode (leadLostGo d0) 0 sessionClear else d0
  if !partner || !sessionTakes d n t then d
  else if ftypeLink t then deliver t n f.body d
  else if d.fab.enc && sealedType t && !f.tagOk then sessionEnd n 2 d
  else
    let x := getNode d n
    if f.eseq = x.rx then deliverFrom n 33 t f d
    else if f.eseq < x.rx || x.early.any (fun e => e.2.eseq == f.eseq) || 32 ≤ x.early.length then d
    else modNode d n fun y => { y with early := y.early ++ [(t, f)] }

/-- A frame arrives on a port: a bad CRC and a break in LSEQ are answered with NAK; a good frame is acknowledged, its credit is
returned, and it is taken or forwarded. -/
def frameIn (t : FType) (f : Frame) (d : Dev) : Dev :=
  let p := f.port
  let q := getPort d p
  if 4 ≤ p || q.state != 2 then d
  else if !f.crcOk then
    sendAck (modPort d p fun x => { x with crcErr := satInc x.crcErr }) p (ackBody false q.rxSeq 0 0)
  else if t = .ackNak then ackGo p f.body d
  else
    let here (d : Dev) : Dev := if f.dst = d.glob.node then frameHere t f d else routeFrame d t f
    if ftypeLink t then here d
    else
      let u := frameUnits d.fab.enc t f
      if f.lseq = q.rxSeq then
        here (sendAck (modPort d p fun x => { x with rxSeq := x.rxSeq + 1 }) p (ackBody true f.lseq (frameClass t f) u))
      else if (q.rxSeq - f.lseq).toNat < 2048 then sendAck d p (ackBody true (q.rxSeq - 1) 0 0)
      else sendAck d p (ackBody false q.rxSeq 0 0)

def execFrameSubmit (fr : Frame) (s : State) : Out3 := onDev s (frameIn .submit fr)
def execFrameComplete (fr : Frame) (s : State) : Out3 := onDev s (frameIn .complete fr)
def execFrameRdReq (fr : Frame) (s : State) : Out3 := onDev s (frameIn .rdReq fr)
def execFrameRdData (fr : Frame) (s : State) : Out3 := onDev s (frameIn .rdData fr)
def execFrameWrData (fr : Frame) (s : State) : Out3 := onDev s (frameIn .wrData fr)
def execFrameAbandon (fr : Frame) (s : State) : Out3 := onDev s (frameIn .abandon fr)
def execFrameAbandonDone (fr : Frame) (s : State) : Out3 := onDev s (frameIn .abandonDone fr)
def execFrameCreditGrant (fr : Frame) (s : State) : Out3 := onDev s (frameIn .creditGrant fr)
def execFrameAckNak (fr : Frame) (s : State) : Out3 := onDev s (frameIn .ackNak fr)
def execFrameHeartbeat (fr : Frame) (s : State) : Out3 := onDev s (frameIn .heartbeat fr)
def execFrameTime (fr : Frame) (s : State) : Out3 := onDev s (frameIn .time fr)
def execFrameHandshake (fr : Frame) (s : State) : Out3 := onDev s (frameIn .handshake fr)
def execFrameConfig (fr : Frame) (s : State) : Out3 := onDev s (frameIn .config fr)
def execFrameRecord (fr : Frame) (s : State) : Out3 := onDev s (frameIn .record fr)
def execFrameAmber (fr : Frame) (s : State) : Out3 := onDev s (frameIn .amber fr)
def execFrameFate (fr : Frame) (s : State) : Out3 := onDev s (frameIn .fate fr)
def execFrameRekey (fr : Frame) (s : State) : Out3 := onDev s (frameIn .rekey fr)

/-! ## Ticks (18 R516, R521) -/

/-- The nodes that this node has a session with. -/
def sessionNodes (d : Dev) : List Nat := if isMember d then (if (getNode d 0).state == .member then [0] else []) else memberNodes d

/-- HEARTBEAT_TICK: a frame on each session. A member also goes on with what its lead has asked of it and grants what is free. -/
def heartbeatGo (d : Dev) : Dev :=
  let d1 := (sessionNodes d).foldl (fun acc n => sendFrame acc n .heartbeat []) d
  if isMember d1 && isReady d1 then
    let d2 := cfgRun d1.fab.cfgQ.length d1
    (liveOwners d2).foldl topUp d2
  else d1
def execHeartbeatTick (s : State) : Out3 := onDev s heartbeatGo

/-- TIME_TICK: the lead sends its TB to every member. -/
def timeTickGo (d : Dev) : Dev := (memberNodes d).foldl (fun acc n => sendFrame acc n .time (le64 acc.glob.tb)) d
def execTimeTick (s : State) : Out3 := onDev s timeTickGo

/-! ## Loss of the SerDes rails (20 R562) -/

/-- The Brynique links go down with the effects of R521, and every session ends with those of R522. -/
def serdesDown (d : Dev) : Dev :=
  let d1 := (List.range 4).foldl (fun acc p => portDown p acc) d
  (memberNodes d1).foldl (fun acc n => memberLost n 1 acc) (leadLostGo d1)
/-- The PCIe link is down. -/
def linkOff (d : Dev) : Dev := { d with hif := { d.hif with linkUp := false, speed := 0, width := 0 } }
/-- SERDES_RAIL_LOSS: the Brynique links go down, and the PCIe link with the effects of a hot reset. -/
def serdesEnd (env : StartEnv) (d : Dev) : Dev :=
  if d.glob.st = .bedrock || !d.hif.linkUp then d else takeReset env .hot (linkOff d)
def serdesGo (env : StartEnv) (d : Dev) : Dev := serdesEnd env (serdesDown d)
def execSerdesRailLoss (env : StartEnv) (s : State) : Out3 := onDev s (serdesGo env)

end Sys2Proof.Machine
end

