-- ==== Sys2Proof/Machine/Modular.lean ====
section
/-!
DEFINITION. Modular programs: validation, the commands one by one, and a whole run (06 R204-R209).
-/
namespace Sys2Proof.Machine

/-- The integer components of a class 0x5 private key (06 R206). -/
def keyParts (d : Dev) (o : Nat) (k : KObj) : List Nat :=
  let set := opSet k.type
  let s := secretOf k
  if opClass k.type ≠ 5 || !isPrivate k then []
  else if isRsa set then (List.range 5).map (rsaPart s (rsaLenOf k)) ++ [rsaN k.pub]
  else if isXcurve set then [clampX (set == 0x11) s]
  else if isEdwards set then [edScalar (set == 0x13) (s.take (if set == 0x13 then 57 else 32))]
  else if isWeier set then [beNat (s.take (nLen (curveOf d o set k.param)))]
  else [beNat s]

/-! ## Validation (06 R190, R191, R207, R208) -/

/-- The first index in a list that satisfies a predicate. -/
def firstBad {α : Type} (p : α → Bool) : Nat → List α → Option Nat
  | _, [] => none
  | i, w :: ws => if p w then some i else firstBad p (i + 1) ws

/-- The first command that reads a slot that no earlier one wrote. -/
def mpUnset : List Nat → Nat → List MpWord → Option Nat
  | _, _, [] => none
  | ws, i, w :: rest =>
    let u := mpUse w.op
    if (u.2.1 && !ws.contains w.a.toNat) || (u.2.2 && !ws.contains w.b.toNat) then some i
    else mpUnset (if u.1 then w.d.toNat :: ws else ws) (i + 1) rest

/-- Whether a STORE of the program writes a slot that is secret when it runs (06 R208). -/
def mpLeaks : List Nat → List MpWord → Bool
  | _, [] => false
  | sec, w :: rest =>
    let u := mpUse w.op
    let tainted := w.op == 3 || (u.2.1 && sec.contains w.a.toNat) || (u.2.2 && sec.contains w.b.toNat)
    if w.op == 0x18 && sec.contains w.a.toNat then true
    else if u.1 then mpLeaks (if tainted then w.d.toNat :: sec else sec.filter (· ≠ w.d.toNat)) rest
    else mpLeaks sec rest

/-- Whether an engine's dispatch table serves a command code (08 R280). -/
def mpServed (d : Dev) (b : Job) (op : Byte) : Bool :=
  match (b.eng.bind cellSeq).bind fun u => dispAt d u op.toNat with
  | some x => x.serves false
  | none => true

/-- PROGRAM_INVALID with its DETAIL: the lowest reason, the header before the commands, the lowest index; `served` says which codes the
engine's dispatch table serves. -/
def mpFault (served : Byte → Bool) (p : Prog) (inLen : Nat) (parts : Option Nat) : Option U16 :=
  let ws := p.words.map mpParse
  let reason (r : Nat) (i : Option Nat) : Option U16 := i.map fun n => BitVec.ofNat 16 (r * 256 + n)
  if p.ncmd = 0 || 64 < p.ncmd || p.rsvBad then some 0x01FF
  else if p.bits < 2 || 8192 < p.bits then some 0x02FF
  else
    List.findSome? id [
    (reason 3 (firstBad (fun v => !mpKnown (mpParse v).op || !served (mpParse v).op || v / 2 ^ 29 % 8 != 0 || (mpParse v).chk == 3) 0 p.words)),
    (reason 4 (firstBad (fun w => let u := mpUse w.op
      (u.1 && decide (mpSlots p ≤ w.d.toNat)) || (u.2.1 && decide (mpSlots p ≤ w.a.toNat))
        || (u.2.2 && decide (mpSlots p ≤ w.b.toNat))) 0 ws)),
    (reason 5 (mpUnset [] 0 ws)),
    (if inLen < p.modOff + mpBytes p then some 0x06FF else none),
    (reason 6 (firstBad (fun w => match mpReads p w with | some (o, n) => decide (inLen < o + n) | none => false) 0 ws)),
    (reason 7 (firstBad (fun w =>
      (w.op == 2 && (w.imm.toNat / 2 ^ 20 == 0 || decide (64 * mpW p < w.imm.toNat / 2 ^ 20)))
        || (w.op == 0x0F && (w.imm == 0 || decide (512 * mpW p < w.imm.toNat)))) 0 ws)),
    (reason 8 (firstBad (fun w => w.op == 3 && (match parts with | none => true | some n => decide (n ≤ w.imm.toNat))) 0 ws))]

/-- The integer of `n` bytes at an offset of IN. -/
def mpOperand (inp : Bytes) (off n : Nat) (le : Bool) : Nat :=
  let bs := slice inp off n
  if le then leNat bs else beNat bs

/-- The RANGE faults of a program: DETAIL and RESULT (06 R190). -/
def mpRange (p : Prog) (inp : Bytes) : Option (U16 × U32) :=
  let ws := p.words.map mpParse
  let n := mpN p inp
  let val (w : MpWord) : Nat := mpOperand inp w.imm.toNat (mpBytes p) w.le
  let bad (code : U16) (f : MpWord → Bool) : Option (U16 × U32) := (firstBad f 0 ws).map fun i => (code, BitVec.ofNat 32 i)
  List.findSome? id [
  (bad 0x0601 fun w => (w.op == 1 && decide (n ≤ val w)) || (w.op == 4 && decide (n ≤ w.imm.toNat))),
  (bad 0x0602 fun w => w.op == 1 && w.chk != 0 && val w == 0),
  (bad 0x0603 fun w => w.op == 1 && w.chk == 2 && val w == 1),
  (if n % 2 = 0 then some (0x0604, 0xFF) else none),
  (if n < 2 ^ (p.bits - 1) then some (0x0605, 0xFF) else none)]

/-- Length of the validation phase (06 R191). -/
def mpValidCycles (p : Prog) : Nat :=
  96 + 4 * p.ncmd + 2 * (mpW p + ((p.words.map mpParse).map fun w =>
    match mpReads p w with | some (_, n) => if w.op = 1 then mpW p else cdiv n 64 | none => 0).sum)

/-- The largest end offset of its STOREs. -/
def mpOutMax (p : Prog) : Nat :=
  (((p.words.map mpParse).filter fun w => w.op == 0x18).map fun w => w.imm.toNat + mpBytes p).foldl max 0

/-! ## The Slate (06 R180) -/

/-- The Slate byte at which an operand slot starts: line 128 + s × W. -/
def slotAt (p : Prog) (s : Nat) : Nat := 64 * (128 + s * mpW p)
/-- The integer in an operand slot of the job's engine. -/
def slotGet (d : Dev) (b : Job) (p : Prog) (s : Byte) : Nat :=
  match b.eng with
  | some c => leNat (memRead (getMe d (c - 16)).slate (slotAt p s.toNat) (64 * mpW p))
  | none => 0
/-- Write an operand slot. -/
def slotPut (d : Dev) (b : Job) (p : Prog) (s : Byte) (v : Nat) : Dev :=
  match b.eng with
  | some c => modMe d (c - 16) fun x => { x with slate := memFill x.slate (slotAt p s.toNat) (leBytes (64 * mpW p) v) }
  | none => d
/-- The program start forms the modulus and its Montgomery constants in the system region, lines 0 to 127; their places in it are not
stated: a free image (log 164). -/
def sysPut (d : Dev) (b : Job) (p : Prog) : Dev :=
  match b.eng with
  | some c => modMe d (c - 16) fun x =>
      { x with slate := memFill x.slate 0 (fit 8192 (Config.prim .sysRegion [leBytes 2 p.bits, leBytes 1024 (mpN p b.inData)])) }
  | none => d

/-! ## Commands (06 R206) -/

/-- What a command costs in core cycles. -/
def mpCost (p : Prog) (w : MpWord) : Nat :=
  match w.op.toNat with
  | 0x01 | 0x03 | 0x18 => 2 * mpW p
  | 0x02 => 2 * cdiv (w.imm.toNat / 2 ^ 20) 64
  | 0x04 | 0x05 => mpW p + 2
  | 0x08 | 0x09 => 4 + cdiv (mpL p) 4
  | 0x0E => (2 * p.bits + 16) * (4 + cdiv (mpL p) 8)
  | 0x0F => (w.imm.toNat + cdiv w.imm.toNat 4 + 16) * mpM p + 64
  | _ => mpM p

/-- The component that a LOADK loads; the spec does not say what a slot holds that is too short for it (log 4). -/
def mpComponent (d : Dev) (b : Job) (p : Prog) (i : Nat) : Nat :=
  let v := (keyParts d b.owner (jobKey0 d b)).getD i 0
  if v < 2 ^ (512 * mpW p) then v else Config.count .slotOverflow [leBytes 1024 v, leBytes 2 p.bits] % 2 ^ (512 * mpW p)

/-- The value that a command writes to its destination slot. -/
def mpValue (d : Dev) (b : Job) (p : Prog) (w : MpWord) : Nat :=
  let n := mpN p b.inData
  let s (i : Byte) : Nat := slotGet d b p i
  let rad := 2 ^ (64 * mpL p)
  match w.op.toNat with
  | 0x01 => mpOperand b.inData w.imm.toNat (mpBytes p) w.le
  | 0x02 => mpOperand b.inData (w.imm.toNat % 2 ^ 20) (w.imm.toNat / 2 ^ 20) w.le
  | 0x03 => mpComponent d b p w.imm.toNat
  | 0x04 => w.imm.toNat
  | 0x05 => s w.a
  | 0x08 => (s w.a + s w.b) % n
  | 0x09 => subMod (s w.a) (s w.b) n
  | 0x0A => s w.a * s w.b * inv0 rad n % n
  | 0x0C => s w.a * rad % n
  | 0x0D => s w.a * inv0 rad n % n
  | 0x0E => inv0 (s w.a) n
  | _ => powMod (s w.a) (s w.b % 2 ^ w.imm.toNat) n

/-- The bytes that a STORE writes: the low ⌈MODBITS / 8⌉ bytes of A. -/
def mpStored (d : Dev) (b : Job) (p : Prog) (w : MpWord) : Bytes :=
  let v := slotGet d b p w.a
  if w.le then leBytes (mpBytes p) v else beBytes (mpBytes p) v

/-- Run the next command of a job's program. -/
def mpStep (d : Dev) (b : Job) (p : Prog) (r : MpRun) (w : MpWord) : Dev × Job :=
  let r1 : MpRun := { r with idx := r.idx + 1, cycles := r.cycles + mpCost p w }
  let put (d : Dev) (b : Job) : Dev × Job := (modJob d b.id fun _ => b, b)
  if w.op = 0x18 then
      let e := max r1.outEnd (w.imm.toNat + mpBytes p)
      put (writeOut d b w.imm.toNat (mpStored d b p w))
        { b with mp := some { r1 with outEnd := e }, outLen := e, effect := b.effect ||| effOutput }
  else put (slotPut d b p w.d (mpValue d b p w)) { b with mp := some r1 }

/-- The program has ended: the job completes (06 R209). -/
def mpEnd (d : Dev) (b : Job) (p : Prog) (r : MpRun) : Dev :=
  finish d { b with cycles := r.cycles + mpW p * (mpWritten p).length } stOk 0

/-- The validation phase: a refusal, or the start of the program. The lengths of R100 come before it and use no engine (06 R188). -/
def mpStart (d : Dev) (b : Job) : Except Dev (Dev × MpRun) :=
  let p := mpProg (ownAux b)
  let cyc := mpValidCycles p
  let parts := if hasKey0 b then
      (let n := (keyParts d b.owner (jobKey0 d b)).length
       if n = 0 then none else some n) else none
  if b.e.outCap.toNat < mpOutMax p then .error (refuseUnplaced d b stLength 2)
  else if (ownAux b).length ≠ 16 + 8 * p.ncmd then .error (refuseUnplaced d b stLength 3)
  else
    match mpFault (mpServed d b) p b.inData.length parts with
    | some det => .error (meRefuse d b stProgramInvalid det cyc)
    | none =>
      if mpLeaks [] (p.words.map mpParse) && !(jobKey0 d b).policy.getLsbD polProgOut then .error (meRefuse d b stKeyPolicy 0 cyc)
      else
        match mpRange p b.inData with
        | some (det, res) =>
          .error (finish (meRefused d b) { b with cycles := cyc, outLen := 0, result := res } stRange det)
        | none => .ok (sysPut d b p, { cycles := 200 + cyc + 2 * mpW p + 4 * mpM p })

/-- The program of a job as it stands: where it has not begun, its validation phase comes first. -/
def mpBegun (d : Dev) (b : Job) : Except Dev (Dev × MpRun) :=
  match b.mp with | some r => .ok (d, r) | none => mpStart d b

/-- Whether a command is a STORE that a bad output list stops: the job ends there, with SGL_INVALID (02 R43). -/
def mpBadList (b : Job) (w : MpWord) : Bool := w.op == 0x18 && b.outBad.isSome

/-- Run the remaining commands; `fuel` bounds their number. -/
def mpRunAll (p : Prog) : Nat → Dev → Job → MpRun → Dev
  | 0, d, b, r => mpEnd d b p r
  | f + 1, d, b, r =>
    match p.words[r.idx]? with
    | none => mpEnd d b p r
    | some v =>
      if mpBadList b (mpParse v) then mpEnd d b p r
      else
        let x := mpStep d b p r (mpParse v)
        mpRunAll p f x.1 x.2 (x.2.mp.getD r)

/-- RUN: validate the program unless it has begun, and run what remains of it (06 R204). -/
def modRunRun (d : Dev) (b : Job) : Dev :=
  match mpBegun d b with
  | .error d1 => d1
  | .ok (d1, r) => mpRunAll (mpProg (ownAux b)) 64 d1 b r
def execModRun (j : Nat) (s : State) : Out3 := onDev s (service j (isCode 0x6001) modRunRun)

/-- One command of the program on an engine: it runs when it is the program's next command; the last one completes the
job. -/
def mpOneRun (w : MpWord) (d : Dev) (b : Job) : Dev :=
  let p := mpProg (ownAux b)
  match mpBegun d b with
  | .error d1 => d1
  | .ok (d1, r) =>
    if (p.words[r.idx]?).map mpParse ≠ some w then d
    else if mpBadList b w then mpEnd d1 b p r
    else
      let x := mpStep d1 b p r w
      let r1 := x.2.mp.getD r
      if p.words.length ≤ r1.idx then mpEnd x.1 x.2 p r1 else x.1

/-- One command of the job that engine `e` runs, when its CMD is `op`. -/
def mpCommand (e op : Nat) (w : MpWord) (d : Dev) : Dev :=
  match engJob d e with
  | none => d
  | some b => if w.op.toNat = op then service b.id (isCode 0x6001) (mpOneRun w) d else d

def execMpLoad (e : Nat) (w : MpWord) (s : State) : Out3 := onDev s (mpCommand e 0x01 w)
def execMpLoadx (e : Nat) (w : MpWord) (s : State) : Out3 := onDev s (mpCommand e 0x02 w)
def execMpLoadk (e : Nat) (w : MpWord) (s : State) : Out3 := onDev s (mpCommand e 0x03 w)
def execMpSeti (e : Nat) (w : MpWord) (s : State) : Out3 := onDev s (mpCommand e 0x04 w)
def execMpCopy (e : Nat) (w : MpWord) (s : State) : Out3 := onDev s (mpCommand e 0x05 w)
def execMpAdd (e : Nat) (w : MpWord) (s : State) : Out3 := onDev s (mpCommand e 0x08 w)
def execMpSub (e : Nat) (w : MpWord) (s : State) : Out3 := onDev s (mpCommand e 0x09 w)
def execMmul (e : Nat) (w : MpWord) (s : State) : Out3 := onDev s (mpCommand e 0x0A w)
def execTom (e : Nat) (w : MpWord) (s : State) : Out3 := onDev s (mpCommand e 0x0C w)
def execFromm (e : Nat) (w : MpWord) (s : State) : Out3 := onDev s (mpCommand e 0x0D w)
def execInv (e : Nat) (w : MpWord) (s : State) : Out3 := onDev s (mpCommand e 0x0E w)
def execExp (e : Nat) (w : MpWord) (s : State) : Out3 := onDev s (mpCommand e 0x0F w)
def execStore (e : Nat) (w : MpWord) (s : State) : Out3 := onDev s (mpCommand e 0x18 w)

end Sys2Proof.Machine
end

