-- ==== Sys2Proof/Machine/Float64.lean ====
section
/-!
DEFINITION. IEEE 754 binary64 arithmetic on exact integers, with the rounding modes and flags of `FCSR` (07 R217, R253). What the
standard leaves to an implementation is a free choice (log 50).
-/
namespace Sys2Proof.Machine

/-- The sticky flags, in the order of `FCSR`: NX, UF, OF, DZ, NV. -/
abbrev Flags5 := BitVec 5
def flNX : Flags5 := 1
def flUF : Flags5 := 2
def flOF : Flags5 := 4
def flDZ : Flags5 := 8
def flNV : Flags5 := 16

/-- A result with its flags. -/
abbrev FRes := U64 × Flags5

/-- The canonical quiet NaN. -/
def fNan : U64 := 0x7FF8000000000000
def fSign (v : U64) : Bool := v.getLsbD 63
def fExp (v : U64) : Nat := v.toNat / 2 ^ 52 % 2048
def fFrac (v : U64) : Nat := v.toNat % 2 ^ 52
def fIsNan (v : U64) : Bool := fExp v == 2047 && fFrac v != 0
def fIsSnan (v : U64) : Bool := fIsNan v && !v.getLsbD 51
def fIsInf (v : U64) : Bool := fExp v == 2047 && fFrac v == 0
def fIsZero (v : U64) : Bool := fExp v == 0 && fFrac v == 0
def fInf (s : Bool) : U64 := if s then 0xFFF0000000000000 else 0x7FF0000000000000
def fZero (s : Bool) : U64 := if s then 0x8000000000000000 else 0
def fMax (s : Bool) : U64 := if s then 0xFFEFFFFFFFFFFFFF else 0x7FEFFFFFFFFFFFFF
/-- Significand and exponent of a finite number: its magnitude is m × 2^e. -/
def fSig (v : U64) : Nat := if fExp v = 0 then fFrac v else fFrac v + 2 ^ 52
def fPow (v : U64) : Int := (if fExp v = 0 then 1 else (fExp v : Int)) - 1075
/-- The signed significand. -/
def fInt (v : U64) : Int := if fSign v then -(fSig v : Int) else fSig v

/-- Whether rounding goes up in magnitude. `half` compares the part dropped with one half: 0 zero, 1 below, 2 equal, 3 above. -/
def roundUp (rm : BitVec 3) (s odd : Bool) (half : Nat) : Bool :=
  match rm.toNat with
  | 0 => half == 3 || (half == 2 && odd)
  | 1 => false
  | 2 => s && half != 0
  | 3 => !s && half != 0
  | _ => half == 2 || half == 3

/-- The part of `m` below 2^n against one half of 2^n. -/
def halfOf (m n : Nat) : Nat :=
  let r := m % 2 ^ n
  if r = 0 then 0 else if 2 * r < 2 ^ n then 1 else if 2 * r = 2 ^ n then 2 else 3

/-- `m` rounded to a multiple of 2^n, divided by it. -/
def roundAt (rm : BitVec 3) (s : Bool) (m n : Nat) : Nat :=
  let k := m / 2 ^ n
  if roundUp rm s (k % 2 == 1) (halfOf m n) then k + 1 else k

/-- The result on overflow. -/
def fOver (rm : BitVec 3) (s : Bool) : FRes :=
  let inf := match rm.toNat with | 0 => true | 1 => false | 2 => s | 3 => !s | _ => true
  (if inf then fInf s else fMax s, flOF ||| flNX)

/-- Round the number ±m × 2^e once. Underflow is signalled when a tiny result is inexact; whether tininess is detected before or
after rounding is free (log 50). -/
def fRound (rm : BitVec 3) (s : Bool) (m : Nat) (e : Int) : FRes :=
  if m = 0 then (fZero s, 0)
  else
    let top : Int := (Nat.log2 m : Int) + e
    let q : Int := max (top - 52) (-1074)
    let sh : Int := q - e
    let k := if sh ≤ 0 then m * 2 ^ (-sh).toNat else roundAt rm s m sh.toNat
    let inexact := decide (0 < sh) && m % 2 ^ sh.toNat != 0
    let sh2 : Int := top - 52 - e
    let wide := if sh2 ≤ 0 then 0 else roundAt rm s m sh2.toNat
    let tinyAfter := decide (top < -1023) || (top == -1023 && wide != 2 ^ 53)
    let tiny := if Config.test .tinyBefore [] then decide (top < -1022) else tinyAfter
    let bits := if q = -1074 then k else (q + 1075).toNat * 2 ^ 52 + k - 2 ^ 52
    if 0x7FF * 2 ^ 52 ≤ bits then fOver rm s
    else (fZero s ||| BitVec.ofNat 64 bits, (if inexact then flNX else 0) ||| (if tiny && inexact then flUF else 0))

/-- A signed number n × 2^e; an exact zero has the sign `z`. -/
def fRoundInt (rm : BitVec 3) (n : Int) (e : Int) (z : Bool) : FRes :=
  if n = 0 then (fZero z, 0) else fRound rm (decide (n < 0)) n.natAbs e

/-- The NaN result of operands of which one is NaN: invalid for a signalling one. -/
def fNanRes (l : List U64) : FRes := (fNan, if l.any fIsSnan then flNV else 0)
def fInvalid : FRes := (fNan, flNV)

/-- The sum of two signed numbers with exponents, rounded once; `zs` are the signs of the addends when both are zero. -/
def fSum (rm : BitVec 3) (n1 : Int) (e1 : Int) (s1 : Bool) (n2 : Int) (e2 : Int) (s2 : Bool) : FRes :=
  let e := min e1 e2
  let n := n1 * 2 ^ (e1 - e).toNat + n2 * 2 ^ (e2 - e).toNat
  let z := if n1 = 0 && n2 = 0 && s1 == s2 then s1 else rm == 2
  fRoundInt rm n e z

/-- a + b. -/
def fAdd (rm : BitVec 3) (a b : U64) : FRes :=
  if fIsNan a || fIsNan b then fNanRes [a, b]
  else if fIsInf a && fIsInf b && fSign a != fSign b then fInvalid
  else if fIsInf a then (a, 0)
  else if fIsInf b then (b, 0)
  else fSum rm (fInt a) (fPow a) (fSign a) (fInt b) (fPow b) (fSign b)

def fFlip (a : U64) : U64 := a ^^^ 0x8000000000000000
/-- a − b. -/
def fSub (rm : BitVec 3) (a b : U64) : FRes := if fIsNan b then fNanRes [a, b] else fAdd rm a (fFlip b)

/-- a × b. -/
def fMul (rm : BitVec 3) (a b : U64) : FRes :=
  let s := fSign a != fSign b
  if fIsNan a || fIsNan b then fNanRes [a, b]
  else if (fIsInf a && fIsZero b) || (fIsZero a && fIsInf b) then fInvalid
  else if fIsInf a || fIsInf b then (fInf s, 0)
  else fRound rm s (fSig a * fSig b) (fPow a + fPow b)

/-- a × b + c with one rounding. -/
def fFma (rm : BitVec 3) (a b c : U64) : FRes :=
  let s := fSign a != fSign b
  let inv := (fIsInf a && fIsZero b) || (fIsZero a && fIsInf b)
  if fIsNan a || fIsNan b then fNanRes [a, b, c]
  else if fIsNan c then
    (fNan, if fIsSnan c || (inv && Config.test .fmaInvalid []) then flNV else 0)
  else if inv then fInvalid
  else if fIsInf a || fIsInf b then (if fIsInf c && fSign c != s then fInvalid else (fInf s, 0))
  else if fIsInf c then (c, 0)
  else
    let m : Int := fSig a * fSig b
    fSum rm (if s then -m else m) (fPow a + fPow b) s (fInt c) (fPow c) (fSign c)

/-- a / b: the quotient to 64 further bits, with a sticky bit below. -/
def fDiv (rm : BitVec 3) (a b : U64) : FRes :=
  let s := fSign a != fSign b
  if fIsNan a || fIsNan b then fNanRes [a, b]
  else if (fIsInf a && fIsInf b) || (fIsZero a && fIsZero b) then fInvalid
  else if fIsInf a then (fInf s, 0)
  else if fIsInf b then (fZero s, 0)
  else if fIsZero b then (fInf s, flDZ)
  else
    let n := fSig a * 2 ^ 120
    let k := n / fSig b * 2 + (if n % fSig b = 0 then 0 else 1)
    fRound rm s k (fPow a - fPow b - 121)

/-- Integer square root by bits. -/
def isqrt : Nat → Nat → Nat → Nat
  | 0, _, r => r
  | n + 1, v, r => let t := r + 2 ^ n; isqrt n v (if t * t ≤ v then t else r)

/-- √a. -/
def fSqrt (rm : BitVec 3) (a : U64) : FRes :=
  if fIsNan a then fNanRes [a]
  else if fIsZero a then (a, 0)
  else if fSign a then fInvalid
  else if fIsInf a then (a, 0)
  else
    let e := fPow a
    let odd := e % 2 != 0
    let n := fSig a * 2 ^ (if odd then 121 else 120)
    let r := isqrt 90 n 0
    fRound rm false (r * 2 + (if r * r = n then 0 else 1)) ((e - (if odd then 121 else 120)) / 2 - 1)

/-- a < b of numbers that are not NaN, with −0 below +0. -/
def fLess (a b : U64) : Bool :=
  if fSign a != fSign b then fSign a else if fSign a then BitVec.ult b a else BitVec.ult a b
/-- IEEE minimum and maximum: a NaN operand gives NaN. -/
def fMinOp (_ : BitVec 3) (a b : U64) : FRes := if fIsNan a || fIsNan b then fNanRes [a, b] else (if fLess b a then b else a, 0)
def fMaxOp (_ : BitVec 3) (a b : U64) : FRes := if fIsNan a || fIsNan b then fNanRes [a, b] else (if fLess a b then b else a, 0)
/-- Sign flip; a NaN result is the canonical one (07 R253). -/
def fNegOp (_ : BitVec 3) (a : U64) : FRes := (if fIsNan a then fNan else fFlip a, 0)

/-- int64 to binary64. -/
def fFromInt (rm : BitVec 3) (a : U64) : FRes := fRoundInt rm a.toInt 0 false

/-- A finite number rounded to an integer, and whether that was inexact. -/
def fIntegral (rm : BitVec 3) (a : U64) : Int × Bool :=
  let e := fPow a
  let m := if 0 ≤ e then fSig a * 2 ^ e.toNat else roundAt rm (fSign a) (fSig a) (-e).toNat
  (if fSign a then -(m : Int) else m, decide (e < 0) && fSig a % 2 ^ (-e).toNat != 0)

/-- binary64 to int64: out of range saturates and sets NV; NaN too, and to which end it saturates is free (log 50). -/
def fToInt (rm : BitVec 3) (free : Nat) (a : U64) : FRes :=
  let lo : U64 := 0x8000000000000000
  let hi : U64 := 0x7FFFFFFFFFFFFFFF
  if fIsNan a then (if free % 2 = 0 then lo else hi, flNV)
  else if fIsInf a then (if fSign a then lo else hi, flNV)
  else
    let r := fIntegral rm a
    if r.1 < -2 ^ 63 then (lo, flNV)
    else if 2 ^ 63 ≤ r.1 then (hi, flNV)
    else (BitVec.ofInt 64 r.1, if r.2 then flNX else 0)

/-- Round to an integral value, with the operand's sign on a zero; whether an inexact rounding sets NX is free (log 50). -/
def fRint (rm : BitVec 3) (a : U64) : FRes :=
  if fIsNan a then fNanRes [a]
  else if fIsInf a || fIsZero a then (a, 0)
  else
    let r := fIntegral rm a
    ((fRoundInt rm r.1 0 (fSign a)).1, if r.2 && Config.test .roundInexact [] then flNX else 0)

end Sys2Proof.Machine
end

