-- ==== Sys2Proof/Machine/PyScalar.lean ====
section
/-!
DEFINITION. Scalar and control instructions (07 R216-R219, R227, R244-R247, R259).
-/
namespace Sys2Proof.Machine

/-! ## Scalar arithmetic (07 R244, R245) -/

/-- Scalar instructions in format A take M = 0, K = 0 and X = 0 (07 R240). -/
def plainA (f : FmtA) : Bool := !f.m && f.k == 0 && f.x == 0

/-- xd ← xa op xb. -/
def scalarA (lat unit occ : Nat) (op : U64 → U64 → U64) (f : FmtA) : PyOp :=
  { use := fun _ => { reads := [rx f.a, rx f.b], writes := [(rx f.d, lat)], units := [(unit, occ)], legal := plainA f }
    body := fun p => .next { p with r := xSet p.r f.d (op (xGet p.r f.a) (xGet p.r f.b)) } }

/-- xd ← xa op IMM12, sign-extended. -/
def scalarI (op : U64 → U64 → U64) (f : FmtI) : PyOp :=
  { use := fun _ => { reads := [rx f.a], writes := [(rx f.d, 1)], units := [(uSA, 1)] }
    body := fun p => .next { p with r := xSet p.r f.d (op (xGet p.r f.a) (f.imm.signExtend 64)) } }

/-- Shifts use the low six bits of their count. -/
def shAmt (b : U64) : Nat := b.toNat % 64
def aluSll (a b : U64) : U64 := a <<< shAmt b
def aluSrl (a b : U64) : U64 := a >>> shAmt b
def aluSra (a b : U64) : U64 := a.sshiftRight (shAmt b)
def bit01 (c : Bool) : U64 := if c then 1 else 0
def aluSlt (a b : U64) : U64 := bit01 (BitVec.slt a b)
def aluSltu (a b : U64) : U64 := bit01 (BitVec.ult a b)
def aluSeq (a b : U64) : U64 := bit01 (a == b)
def aluMin (a b : U64) : U64 := if BitVec.slt b a then b else a
def aluMax (a b : U64) : U64 := if BitVec.slt a b then b else a
def aluMinu (a b : U64) : U64 := if BitVec.ult b a then b else a
def aluMaxu (a b : U64) : U64 := if BitVec.ult a b then b else a
/-- High half of the signed product. -/
def aluMulh (a b : U64) : U64 := BitVec.ofInt 64 (a.toInt * b.toInt / 2 ^ 64)
/-- High half of the unsigned product. -/
def aluMulhu (a b : U64) : U64 := BitVec.ofNat 64 (a.toNat * b.toNat / 2 ^ 64)
/-- Division truncates toward zero (log 48); by zero it gives all ones and the dividend (07 R245). -/
def aluDiv (a b : U64) : U64 := if b = 0 then BitVec.allOnes 64 else BitVec.ofInt 64 (a.toInt.tdiv b.toInt)
def aluDivu (a b : U64) : U64 := if b = 0 then BitVec.allOnes 64 else BitVec.ofNat 64 (a.toNat / b.toNat)
def aluRem (a b : U64) : U64 := if b = 0 then a else BitVec.ofInt 64 (a.toInt.tmod b.toInt)
def aluRemu (a b : U64) : U64 := if b = 0 then a else BitVec.ofNat 64 (a.toNat % b.toNat)

/-- LUI. -/
def opLui (f : FmtU) : PyOp :=
  { use := fun _ => { writes := [(rx f.d, 1)], units := [(uSA, 1)] }
    body := fun p => .next { p with r := xSet p.r f.d (f.imm.signExtend 64 <<< 15) } }

/-- CSEL. -/
def opCsel (f : FmtA) : PyOp :=
  { use := fun _ => { reads := [rx f.d, rx f.a, rx f.b], writes := [(rx f.d, 1)], units := [(uSA, 1)], legal := plainA f }
    body := fun p => .next { p with r := xSet p.r f.d (if xGet p.r f.d ≠ 0 then xGet p.r f.a else xGet p.r f.b) } }

/-! ## Scalar memory (07 R227, R231, R237, R244) -/

/-- Why an element stops an access: out of bounds or a store to the input area, a page that is not present, or a load of a line of a
core's tile that holds an uncorrectable error. -/
inductive ElStop
  | fault | page (j : Nat) | ecc (core : Nat)
  deriving DecidableEq, Repr

/-- Whether a load of `n` bytes at an address meets an uncorrectable error (07 R237). -/
def lineBad (p : Px) (a n : Nat) : Option ElStop :=
  match tilePlace p a n with
  | some (tc, off) => if (getCore p.d tc).eccLines.contains (off / 256) then some (.ecc tc) else none
  | none => none

/-- Whether `n` bytes at an address stop an access. -/
def elStop (p : Px) (a n : Nat) (store : Bool) : Option ElStop :=
  if (tilePlace p a n).isNone then some .fault
  else
    match pageAt p a with
    | some j => if store then some .fault else if p.io.pages.contains j then lineBad p a n else some (.page j)
    | none => if store then none else lineBad p a n

/-- The DETAIL of ECC in a core's tile: the memory's code (16 R463). -/
def tileCode (tc : Nat) : U16 := BitVec.ofNat 16 (0x100 + tc)

/-- xa + IMM12. -/
def scalarAddr (p : Px) (a : BitVec 5) (imm : BitVec 12) : Nat := (xGet p.r a + imm.signExtend 64).toNat

/-- A scalar load of `n` bytes. -/
def scalarLoad (n : Nat) (f : FmtI) : PyOp :=
  { use := fun p =>
      let a := scalarAddr p f.a f.imm
      { reads := [rx f.a], writes := [(rx f.d, 3 + farTile p a)], units := [(uLP, 1)], lines := lineUse p a 1 false }
    body := fun p =>
      let a := scalarAddr p f.a f.imm
      if a % n ≠ 0 then .fault p stAlign 0xFFFF
      else
        match elStop p a n false with
        | some .fault => .fault p stVfault 0xFFFF
        | some (.page j) => .wait p (.page j)
        | some (.ecc tc) => .fault p stEcc (tileCode tc)
        | none => .next (freeUse { p with r := xSet p.r f.d (BitVec.ofNat 64 (tileRead p a n 0 % 2 ^ (8 * n))) } 1) }

/-- A scalar store of `n` bytes. -/
def scalarStore (n : Nat) (f : FmtS) : PyOp :=
  { use := fun p =>
      { reads := [rx f.a, rx f.b], units := [(uSP, 1)], lines := lineUse p (scalarAddr p f.a f.imm) 1 true }
    body := fun p =>
      let a := scalarAddr p f.a f.imm
      if a % n ≠ 0 then .fault p stAlign 0xFFFF
      else if (tilePlace p a n).isNone || (pageAt p a).isSome then .fault p stVfault 0xFFFF
      else .next (tileWrite p a n (xGet p.r f.b).toNat) }

/-! ## Branches and jumps (07 R244, R245) -/

/-- Go to a program-memory byte: one outside the program faults with ILLEGAL_INSTR (07 R245, R264). -/
def pyJump (p : Px) (target : Int) : PyEnd :=
  if (p.io.base : Int) ≤ target && target < (p.io.base + 4 * p.io.hdr.codeLen : Nat) then
    .next { p with jump := some (BitVec.ofInt 16 target) }
  else .fault p stIllegalInstr (p.r.pc >>> 2)

/-- A conditional branch. -/
def branch (cond : U64 → U64 → Bool) (f : FmtS) : PyOp :=
  { use := fun _ => { reads := [rx f.a, rx f.b], units := [(uBR, 2)], gap := 2 }
    body := fun p =>
      if cond (xGet p.r f.a) (xGet p.r f.b) then pyJump p (p.r.pc.toNat + 4 * f.imm.toInt) else .next p }

/-- The return address of a jump. -/
def linkAddr (p : Px) : U64 := BitVec.ofNat 64 (p.r.pc.toNat + 4)

/-- JAL. -/
def opJal (f : FmtJ) : PyOp :=
  { use := fun _ => { writes := [(rx f.d, 1)], units := [(uBR, 2)], gap := 2 }
    body := fun p => pyJump { p with r := xSet p.r f.d (linkAddr p) } (p.r.pc.toNat + 4 * f.off.toInt) }

/-- JALR. -/
def opJalr (f : FmtI) : PyOp :=
  { use := fun _ => { reads := [rx f.a], writes := [(rx f.d, 1)], units := [(uBR, 2)], gap := 2 }
    body := fun p => pyJump { p with r := xSet p.r f.d (linkAddr p) } ((scalarAddr p f.a f.imm) / 4 * 4 : Nat) }

/-! ## Control (07 R216-R219, R246, R247, R259) -/

/-- VCFG. -/
def opVcfg (f : FmtI) : PyOp :=
  { use := fun _ => { reads := [rx f.a], writes := [(rx f.d, 1)], units := [(uSA, 1)] }
    body := fun p =>
      let r := { p.r with vtype := f.imm.setWidth 6 }
      let n := min (xGet p.r f.a).toNat (vlmaxOf r)
      .next { p with r := xSet { r with vl := BitVec.ofNat 12 n } f.d (BitVec.ofNat 64 n) } }

/-- The inverse of an odd number modulo 2^32. -/
def inv32 (q : U32) : U32 := (List.range 5).foldl (fun x _ => x * (2 - q * x)) q
/-- QINV: −q⁻¹ mod 2^32; of an even modulus the spec gives no value, and of 0 the reset value 0 (07 R217; log 4). -/
def qinvOf (q : BitVec 31) : U32 :=
  if q = 0 then 0
  else if q.getLsbD 0 then 0 - inv32 (q.setWidth 32)
  else BitVec.ofNat 32 (Config.count .evenInverse [leBytes 4 q.toNat])
/-- Degree of a polynomial, 0 for the zero polynomial. -/
def polyDeg (p : Nat) : Nat := Nat.log2 p

/-- A core control register as CCRR reads it (07 R216, R217). -/
def ccrRead (r : PyRegs) (n : Nat) : U64 :=
  BitVec.ofNat 64 (match n with
    | 0 => r.vl.toNat
    | 1 => r.vtype.toNat
    | 2 => r.vresume.toNat
    | 3 => r.qmod.toNat + (qinvOf r.qmod).toNat * 2 ^ 32
    | 4 => r.gfpoly.toNat + polyDeg r.gfpoly.toNat * 2 ^ 20
    | 5 => r.frm.toNat + r.fflags.toNat * 2 ^ 8
    | _ => r.twbase.toNat * 2 ^ 8)

/-- Write a core control register: read-only and reserved fields keep (07 R216, R217). VL is written only by VCFG and by
microcode (08 R275). -/
def ccrWrite (r : PyRegs) (n : Nat) (v : U64) : PyRegs :=
  match n with
  | 0 => { r with vl := v.setWidth 12 }
  | 1 => { r with vtype := v.setWidth 6 }
  | 2 => { r with vresume := v.setWidth 12 }
  | 3 => { r with qmod := v.setWidth 31 }
  | 4 => { r with gfpoly := v.setWidth 17 }
  | 5 => { r with frm := v.setWidth 3, fflags := (v >>> 8).setWidth 5 }
  | _ => { r with twbase := (v >>> 8).setWidth 11 }

/-- A write to QMOD or GFPOLY completes its derived field within 4 cycles (07 R218). -/
def ccrMark (p : Px) (n : Nat) : Px :=
  { p with d := modCore p.d p.c fun k =>
      { k with qAt := if n = 3 then p.t + 4 else k.qAt, gAt := if n = 4 then p.t + 4 else k.gAt } }

/-- CCRR. -/
def opCcrr (f : FmtI) : PyOp :=
  let n := f.imm.toNat
  { use := fun _ => { writes := [(rx f.d, 1)], units := [(uSA, 1)], q := n == 3, g := n == 4, legal := decide (n ≤ 6) }
    body := fun p => .next { p with r := xSet p.r f.d (ccrRead p.r n) } }

/-- CCRW. -/
def opCcrw (f : FmtI) : PyOp :=
  let n := f.imm.toNat
  { use := fun _ => { reads := [rx f.a], units := [(uSA, 1)], legal := decide (1 ≤ n && n ≤ 6) }
    body := fun p => .next (ccrMark { p with r := ccrWrite p.r n (xGet p.r f.a) } n) }

/-- YIELD: a yield point; an abort has acted at the boundary before it, then come the deadline check and, with no debug halt, the
Dealer's pre-emption (07 R247). -/
def opYield : PyOp :=
  { use := fun _ => {}
    body := fun p => if late p.d p.b.e then .fault p stDeadline 0 else .next { p with yielded := true, deal := !p.b.cluster } }

/-- What an instruction that needs the output list waits for (02 R43, 07 R236). -/
def listWait (p : Px) : Bool := outSgl p.b.e && p.b.e.outCap != 0 && !p.b.outOk && p.b.outBad.isNone

/-- HALT: waits for the output list and the drain, then ends the job (07 R233, R236, R247). -/
def opHalt : PyOp :=
  { use := fun _ => {}
    body := fun p =>
      if listWait p then .wait p .outCheck
      else if p.b.outBad.isNone && !p.io.buf.isEmpty then .wait p .drain
      else let s := p.io.jset.getD (stOk, 0); .halt p s.1 s.2 }

/-- The last of the cycles at which the cores of a barrier arrive. -/
def barLast (p : Px) : Nat := p.io.bars.foldl (fun m x => max m x.2.2) p.t

/-- BAR: ends on all four cores 6 cycles after the last arrival; different tags end the job (07 R258, R259). -/
def opBar (f : FmtI) : PyOp :=
  { use := fun p => { legal := p.b.cluster, gap := if p.io.bars.length = 3 then barLast p + 6 - p.t else 1 }
    body := fun p =>
      if p.io.bars.length < 3 then .next { p with io := { p.io with bars := p.io.bars ++ [(p.c, f.imm.toNat, p.t)] } }
      else if p.io.bars.any fun x => x.2.1 != f.imm.toNat then .fault p stContractFault (contractPc p.r.word)
      else
        let n := barLast p + 6
        let away := match p.b.eng with | some c => if c = p.c then 0 else n - (getCore p.d c).nextT | none => 0
        .next { p with io := { p.io with bars := [] }
                       b := { p.b with cycles := p.b.cycles + away }
                       d := (List.range 4).foldl (fun acc i => modCore acc (p.c / 4 * 4 + i) fun k =>
                         { k with nextT := if p.c / 4 * 4 + i = p.c then k.nextT else n, ports := [], stores := [] }) p.d } }

/-- IDLE issues nothing for 1 to 2,047 cycles. -/
def opIdle (f : FmtI) : PyOp :=
  { use := fun _ => { gap := f.imm.toNat, legal := decide (0 < f.imm.toInt) }
    body := fun p => .next p }

/-! ## The instructions -/

def opAdd : FmtA → PyOp := scalarA 1 uSA 1 (· + ·)
/-- ADD (07 R244). -/
def execAdd (p : PyAt) (f : FmtA) (s : State) : Out3 := onDev s (pyRun p (encA 0x00 0 f) (opAdd f))
def opSub : FmtA → PyOp := scalarA 1 uSA 1 (· - ·)
/-- SUB (07 R244). -/
def execSub (p : PyAt) (f : FmtA) (s : State) : Out3 := onDev s (pyRun p (encA 0x00 1 f) (opSub f))
def opAnd : FmtA → PyOp := scalarA 1 uSA 1 (· &&& ·)
/-- AND (07 R244). -/
def execAnd (p : PyAt) (f : FmtA) (s : State) : Out3 := onDev s (pyRun p (encA 0x00 2 f) (opAnd f))
def opOr : FmtA → PyOp := scalarA 1 uSA 1 (· ||| ·)
/-- OR (07 R244). -/
def execOr (p : PyAt) (f : FmtA) (s : State) : Out3 := onDev s (pyRun p (encA 0x00 3 f) (opOr f))
def opXor : FmtA → PyOp := scalarA 1 uSA 1 (· ^^^ ·)
/-- XOR (07 R244). -/
def execXor (p : PyAt) (f : FmtA) (s : State) : Out3 := onDev s (pyRun p (encA 0x00 4 f) (opXor f))
def opSll : FmtA → PyOp := scalarA 1 uSA 1 aluSll
/-- SLL (07 R244). -/
def execSll (p : PyAt) (f : FmtA) (s : State) : Out3 := onDev s (pyRun p (encA 0x00 5 f) (opSll f))
def opSrl : FmtA → PyOp := scalarA 1 uSA 1 aluSrl
/-- SRL (07 R244). -/
def execSrl (p : PyAt) (f : FmtA) (s : State) : Out3 := onDev s (pyRun p (encA 0x00 6 f) (opSrl f))
def opSra : FmtA → PyOp := scalarA 1 uSA 1 aluSra
/-- SRA (07 R244). -/
def execSra (p : PyAt) (f : FmtA) (s : State) : Out3 := onDev s (pyRun p (encA 0x00 7 f) (opSra f))
def opAddi : FmtI → PyOp := scalarI (· + ·)
/-- ADDI (07 R244). -/
def execAddi (p : PyAt) (f : FmtI) (s : State) : Out3 := onDev s (pyRun p (encI 0x01 0 f) (opAddi f))
def opAndi : FmtI → PyOp := scalarI (· &&& ·)
/-- ANDI (07 R244). -/
def execAndi (p : PyAt) (f : FmtI) (s : State) : Out3 := onDev s (pyRun p (encI 0x01 1 f) (opAndi f))
def opOri : FmtI → PyOp := scalarI (· ||| ·)
/-- ORI (07 R244). -/
def execOri (p : PyAt) (f : FmtI) (s : State) : Out3 := onDev s (pyRun p (encI 0x01 2 f) (opOri f))
def opXori : FmtI → PyOp := scalarI (· ^^^ ·)
/-- XORI (07 R244). -/
def execXori (p : PyAt) (f : FmtI) (s : State) : Out3 := onDev s (pyRun p (encI 0x01 3 f) (opXori f))
def opSlli : FmtI → PyOp := scalarI aluSll
/-- SLLI (07 R244). -/
def execSlli (p : PyAt) (f : FmtI) (s : State) : Out3 := onDev s (pyRun p (encI 0x01 4 f) (opSlli f))
def opSrli : FmtI → PyOp := scalarI aluSrl
/-- SRLI (07 R244). -/
def execSrli (p : PyAt) (f : FmtI) (s : State) : Out3 := onDev s (pyRun p (encI 0x01 5 f) (opSrli f))
def opSrai : FmtI → PyOp := scalarI aluSra
/-- SRAI (07 R244). -/
def execSrai (p : PyAt) (f : FmtI) (s : State) : Out3 := onDev s (pyRun p (encI 0x01 6 f) (opSrai f))
def opSlti : FmtI → PyOp := scalarI aluSlt
/-- SLTI (07 R244). -/
def execSlti (p : PyAt) (f : FmtI) (s : State) : Out3 := onDev s (pyRun p (encI 0x01 7 f) (opSlti f))
/-- LUI (07 R244). -/
def execLui (p : PyAt) (f : FmtU) (s : State) : Out3 := onDev s (pyRun p (encU 0x02 0 f) (opLui f))
def opMul : FmtA → PyOp := scalarA 3 uSM 1 (· * ·)
/-- MUL (07 R244). -/
def execMul (p : PyAt) (f : FmtA) (s : State) : Out3 := onDev s (pyRun p (encA 0x02 1 f) (opMul f))
def opMulh : FmtA → PyOp := scalarA 3 uSM 1 aluMulh
/-- MULH (07 R244). -/
def execMulh (p : PyAt) (f : FmtA) (s : State) : Out3 := onDev s (pyRun p (encA 0x02 2 f) (opMulh f))
def opMulhu : FmtA → PyOp := scalarA 3 uSM 1 aluMulhu
/-- MULHU (07 R244). -/
def execMulhu (p : PyAt) (f : FmtA) (s : State) : Out3 := onDev s (pyRun p (encA 0x02 3 f) (opMulhu f))
def opDiv : FmtA → PyOp := scalarA 24 uSM 24 aluDiv
/-- DIV (07 R244, R245). -/
def execDiv (p : PyAt) (f : FmtA) (s : State) : Out3 := onDev s (pyRun p (encA 0x02 4 f) (opDiv f))
def opDivu : FmtA → PyOp := scalarA 24 uSM 24 aluDivu
/-- DIVU (07 R244, R245). -/
def execDivu (p : PyAt) (f : FmtA) (s : State) : Out3 := onDev s (pyRun p (encA 0x02 5 f) (opDivu f))
def opRem : FmtA → PyOp := scalarA 24 uSM 24 aluRem
/-- REM (07 R244, R245). -/
def execRem (p : PyAt) (f : FmtA) (s : State) : Out3 := onDev s (pyRun p (encA 0x02 6 f) (opRem f))
def opRemu : FmtA → PyOp := scalarA 24 uSM 24 aluRemu
/-- REMU (07 R244, R245). -/
def execRemu (p : PyAt) (f : FmtA) (s : State) : Out3 := onDev s (pyRun p (encA 0x02 7 f) (opRemu f))
def opSlt : FmtA → PyOp := scalarA 1 uSA 1 aluSlt
/-- SLT (07 R244). -/
def execSlt (p : PyAt) (f : FmtA) (s : State) : Out3 := onDev s (pyRun p (encA 0x03 0 f) (opSlt f))
def opSltu : FmtA → PyOp := scalarA 1 uSA 1 aluSltu
/-- SLTU (07 R244). -/
def execSltu (p : PyAt) (f : FmtA) (s : State) : Out3 := onDev s (pyRun p (encA 0x03 1 f) (opSltu f))
def opSeq : FmtA → PyOp := scalarA 1 uSA 1 aluSeq
/-- SEQ (07 R244). -/
def execSeq (p : PyAt) (f : FmtA) (s : State) : Out3 := onDev s (pyRun p (encA 0x03 2 f) (opSeq f))
/-- CSEL (07 R244). -/
def execCsel (p : PyAt) (f : FmtA) (s : State) : Out3 := onDev s (pyRun p (encA 0x03 3 f) (opCsel f))
def opMin : FmtA → PyOp := scalarA 1 uSA 1 aluMin
/-- MIN (07 R244). -/
def execMin (p : PyAt) (f : FmtA) (s : State) : Out3 := onDev s (pyRun p (encA 0x03 4 f) (opMin f))
def opMax : FmtA → PyOp := scalarA 1 uSA 1 aluMax
/-- MAX (07 R244). -/
def execMax (p : PyAt) (f : FmtA) (s : State) : Out3 := onDev s (pyRun p (encA 0x03 5 f) (opMax f))
def opMinu : FmtA → PyOp := scalarA 1 uSA 1 aluMinu
/-- MINU (07 R244). -/
def execMinu (p : PyAt) (f : FmtA) (s : State) : Out3 := onDev s (pyRun p (encA 0x03 6 f) (opMinu f))
def opMaxu : FmtA → PyOp := scalarA 1 uSA 1 aluMaxu
/-- MAXU (07 R244). -/
def execMaxu (p : PyAt) (f : FmtA) (s : State) : Out3 := onDev s (pyRun p (encA 0x03 7 f) (opMaxu f))
def opLd8 : FmtI → PyOp := scalarLoad 1
/-- LD8 (07 R227, R244). -/
def execLd8 (p : PyAt) (f : FmtI) (s : State) : Out3 := onDev s (pyRun p (encI 0x04 0 f) (opLd8 f))
def opLd16 : FmtI → PyOp := scalarLoad 2
/-- LD16 (07 R227, R244). -/
def execLd16 (p : PyAt) (f : FmtI) (s : State) : Out3 := onDev s (pyRun p (encI 0x04 1 f) (opLd16 f))
def opLd32 : FmtI → PyOp := scalarLoad 4
/-- LD32 (07 R227, R244). -/
def execLd32 (p : PyAt) (f : FmtI) (s : State) : Out3 := onDev s (pyRun p (encI 0x04 2 f) (opLd32 f))
def opLd64 : FmtI → PyOp := scalarLoad 8
/-- LD64 (07 R227, R244). -/
def execLd64 (p : PyAt) (f : FmtI) (s : State) : Out3 := onDev s (pyRun p (encI 0x04 3 f) (opLd64 f))
def opSt8 : FmtS → PyOp := scalarStore 1
/-- ST8 (07 R227, R244). -/
def execSt8 (p : PyAt) (f : FmtS) (s : State) : Out3 := onDev s (pyRun p (encS 0x04 4 f) (opSt8 f))
def opSt16 : FmtS → PyOp := scalarStore 2
/-- ST16 (07 R227, R244). -/
def execSt16 (p : PyAt) (f : FmtS) (s : State) : Out3 := onDev s (pyRun p (encS 0x04 5 f) (opSt16 f))
def opSt32 : FmtS → PyOp := scalarStore 4
/-- ST32 (07 R227, R244). -/
def execSt32 (p : PyAt) (f : FmtS) (s : State) : Out3 := onDev s (pyRun p (encS 0x04 6 f) (opSt32 f))
def opSt64 : FmtS → PyOp := scalarStore 8
/-- ST64 (07 R227, R244). -/
def execSt64 (p : PyAt) (f : FmtS) (s : State) : Out3 := onDev s (pyRun p (encS 0x04 7 f) (opSt64 f))
def opBeq : FmtS → PyOp := branch (· == ·)
/-- BEQ (07 R244, R245). -/
def execBeq (p : PyAt) (f : FmtS) (s : State) : Out3 := onDev s (pyRun p (encS 0x05 0 f) (opBeq f))
def opBne : FmtS → PyOp := branch (· != ·)
/-- BNE (07 R244, R245). -/
def execBne (p : PyAt) (f : FmtS) (s : State) : Out3 := onDev s (pyRun p (encS 0x05 1 f) (opBne f))
def opBlt : FmtS → PyOp := branch BitVec.slt
/-- BLT (07 R244, R245). -/
def execBlt (p : PyAt) (f : FmtS) (s : State) : Out3 := onDev s (pyRun p (encS 0x05 2 f) (opBlt f))
def opBge : FmtS → PyOp := branch (fun a b => !BitVec.slt a b)
/-- BGE (07 R244, R245). -/
def execBge (p : PyAt) (f : FmtS) (s : State) : Out3 := onDev s (pyRun p (encS 0x05 3 f) (opBge f))
def opBltu : FmtS → PyOp := branch BitVec.ult
/-- BLTU (07 R244, R245). -/
def execBltu (p : PyAt) (f : FmtS) (s : State) : Out3 := onDev s (pyRun p (encS 0x05 4 f) (opBltu f))
def opBgeu : FmtS → PyOp := branch (fun a b => !BitVec.ult a b)
/-- BGEU (07 R244, R245). -/
def execBgeu (p : PyAt) (f : FmtS) (s : State) : Out3 := onDev s (pyRun p (encS 0x05 5 f) (opBgeu f))
/-- JAL (07 R244). -/
def execJal (p : PyAt) (f : FmtJ) (s : State) : Out3 := onDev s (pyRun p (encJ 0x05 6 f) (opJal f))
/-- JALR (07 R244, R264). -/
def execJalr (p : PyAt) (f : FmtI) (s : State) : Out3 := onDev s (pyRun p (encI 0x05 7 f) (opJalr f))
/-- VCFG (07 R219). -/
def execVcfg (p : PyAt) (f : FmtI) (s : State) : Out3 := onDev s (pyRun p (encI 0x10 0 f) (opVcfg f))
/-- CCRR (07 R216). -/
def execCcrr (p : PyAt) (f : FmtI) (s : State) : Out3 := onDev s (pyRun p (encI 0x10 1 f) (opCcrr f))
/-- CCRW (07 R216, R218). -/
def execCcrw (p : PyAt) (f : FmtI) (s : State) : Out3 := onDev s (pyRun p (encI 0x10 2 f) (opCcrw f))
/-- YIELD (07 R247). -/
def execYield (p : PyAt) (f : FmtI) (s : State) : Out3 := onDev s (pyRun p (encI 0x10 3 f) opYield)
/-- HALT (07 R247). -/
def execHalt (p : PyAt) (f : FmtI) (s : State) : Out3 := onDev s (pyRun p (encI 0x10 4 f) opHalt)
/-- BAR (07 R259). -/
def execBar (p : PyAt) (f : FmtI) (s : State) : Out3 := onDev s (pyRun p (encI 0x10 5 f) (opBar f))
/-- IDLE (07 R246). -/
def execIdle (p : PyAt) (f : FmtI) (s : State) : Out3 := onDev s (pyRun p (encI 0x10 6 f) (opIdle f))

end Sys2Proof.Machine
end

