-- ==== Sys2Proof/Machine/PyVector.lean ====
section
/-!
DEFINITION. Vector integer, mask, reduction and memory instructions (07 R219-R222, R226-R231, R238, R248, R249).
-/
namespace Sys2Proof.Machine

/-! ## Format A on elements -/

/-- Second operand of element `i`: vector, broadcast scalar, or signed immediate (07 R240). -/
def bElem (r : PyRegs) (f : FmtA) (i : Nat) : Nat :=
  if f.x = 0 then elAt (sewOf r) (vGet r f.b.toNat (grpOf r)) i
  else if f.x = 1 then (xGet r f.b).toNat % 2 ^ sewOf r
  else unsgn (sewOf r) f.b.toInt
/-- Registers that the second operand reads. -/
def bReads (r : PyRegs) (f : FmtA) : List Nat := if f.x = 0 then rvs f.b (grpOf r) else if f.x = 1 then [rx f.b] else []
/-- The mask register that an instruction reads. -/
def mReads (m : Bool) (k : BitVec 3) : List Nat := if m then [rm k.toNat] else []
/-- A masked instruction needs VLMAX of at most 256 (07 R222). -/
def maskOk (r : PyRegs) (m : Bool) : Bool := !m || decide (vlmaxOf r ≤ 256)
/-- Whether the second operand is legal. -/
def bOk (r : PyRegs) (f : FmtA) : Bool := decide (f.x.toNat ≤ 2) && (f.x != 0 || aligned f.b (grpOf r))
/-- Element `i` of a group operand. -/
def vEl (r : PyRegs) (n : BitVec 5) (i : Nat) : Nat := elAt (sewOf r) (vGet r n.toNat (grpOf r)) i

/-- d[i] ← op(a[i], b[i], d[i]). `acc`: d is read too; `ok`: further limits; `q`, `g`: QMOD or GFPOLY is read. -/
def vecA (lat unit occ : Nat) (op : Px → Nat → Nat → Nat → Nat) (f : FmtA) (acc : Bool := false)
    (ok : PyRegs → Bool := fun _ => true) (q g : Bool := false) : PyOp :=
  { use := fun p =>
      let n := grpOf p.r
      { reads := rvs f.a n ++ bReads p.r f ++ mReads f.m f.k ++ (if acc then rvs f.d n else [])
        writes := (rvs f.d n).map fun x => (x, lat), units := [(unit, occ * n)], q := q, g := g, vec := true
        legal := aligned f.d n && aligned f.a n && bOk p.r f && maskOk p.r f.m && ok p.r }
    body := fun p => .next { p with r := vWrite p.r (maskOf f.m f.k) f.d fun i => op p (vEl p.r f.a i) (bElem p.r f i) (vEl p.r f.d i) } }

/-- d[i] ← op(a[i]): the second operand is not read. -/
def vecU (lat unit occ : Nat) (op : Px → Nat → Nat) (f : FmtA) (ok : PyRegs → Bool := fun _ => true) (q g : Bool := false) :
    PyOp :=
  { use := fun p =>
      let n := grpOf p.r
      { reads := rvs f.a n ++ mReads f.m f.k, writes := (rvs f.d n).map fun x => (x, lat), units := [(unit, occ * n)]
        q := q, g := g, vec := true
        legal := aligned f.d n && aligned f.a n && decide (f.x.toNat ≤ 2) && maskOk p.r f.m && ok p.r }
    body := fun p => .next { p with r := vWrite p.r (maskOf f.m f.k) f.d fun i => op p (vEl p.r f.a i) } }

/-- m[d][i] ← op(a[i], b[i]); D must be 0 to 7 (07 R222, R248). -/
def vecCmp (op : Nat → Nat → Nat → Bool) (f : FmtA) : PyOp :=
  { use := fun p =>
      let n := grpOf p.r
      { reads := rvs f.a n ++ bReads p.r f ++ mReads f.m f.k, writes := [(rm f.d.toNat, 2)], units := [(uVA, n)], vec := true
        legal := decide (f.d.toNat < 8) && aligned f.a n && bOk p.r f && maskOk p.r f.m }
    body := fun p =>
      .next { p with r := mWrite p.r (maskOf f.m f.k) f.d.toNat fun i => op (sewOf p.r) (vEl p.r f.a i) (bElem p.r f i) } }

/-! ## Element operations (07 R248) -/

def elSub (sew a b : Nat) : Nat := (a + 2 ^ sew - b % 2 ^ sew) % 2 ^ sew
def elMulh (sew a b : Nat) : Nat := unsgn sew (sgn sew a * sgn sew b / 2 ^ sew)
def elMin (sew a b : Nat) : Nat := if sgn sew b < sgn sew a then b else a
def elMax (sew a b : Nat) : Nat := if sgn sew a < sgn sew b then b else a
def elSra (sew a s : Nat) : Nat := unsgn sew (sgn sew a / 2 ^ s)
/-- The number of 1 bits. -/
def popc (n v : Nat) : Nat := (List.range n).foldl (fun acc i => acc + v >>> i % 2) 0

/-- Bitwise on mask registers, all 256 bits; the operands must be 0 to 7. -/
def maskBits (op : BitVec 256 → BitVec 256 → BitVec 256) (f : FmtA) : PyOp :=
  { use := fun _ =>
      { reads := [rm f.a.toNat, rm f.b.toNat], writes := [(rm f.d.toNat, 1)], units := [(uVA, 1)], vec := true
        legal := decide (f.d.toNat < 8) && decide (f.a.toNat < 8) && decide (f.b.toNat < 8) && decide (f.x.toNat ≤ 2) }
    body := fun p => .next { p with r := mPut p.r f.d.toNat (op (mReg p.r f.a.toNat) (mReg p.r f.b.toNat)) } }

/-- VSEL: the mask register is read as a selector; of a lane beyond its 256 bits the selection is free. -/
def opVsel (f : FmtA) : PyOp :=
  { use := fun p =>
      let n := grpOf p.r
      { reads := rvs f.a n ++ bReads p.r f ++ [rm f.k.toNat], writes := (rvs f.d n).map fun x => (x, 2), units := [(uVA, n)]
        vec := true, legal := !f.m && aligned f.d n && aligned f.a n && bOk p.r f }
    body := fun p =>
      let sel (i : Nat) : Bool := if i < 256 then (mReg p.r f.k.toNat).getLsbD i else freeAt p i % 2 == 1
      .next (freeUse { p with r := vWrite p.r none f.d fun i => if sel i then vEl p.r f.a i else bElem p.r f i } 2048) }

/-- VBCAST. -/
def opVbcast (f : FmtA) : PyOp :=
  { use := fun p =>
      let n := grpOf p.r
      { reads := rx f.a :: mReads f.m f.k, writes := (rvs f.d n).map fun x => (x, 2), units := [(uVA, n)], vec := true
        legal := aligned f.d n && decide (f.x.toNat ≤ 2) && maskOk p.r f.m }
    body := fun p => .next { p with r := vWrite p.r (maskOf f.m f.k) f.d fun _ => (xGet p.r f.a).toNat } }

/-- VEXT: the index must be below VLMAX. -/
def opVext (f : FmtA) : PyOp :=
  { use := fun p =>
      { reads := rx f.b :: rvs f.a (grpOf p.r), writes := [(rx f.d, 3)], units := [(uVA, 1)], vec := true
        legal := aligned f.a (grpOf p.r) && decide (f.x.toNat ≤ 2) && decide ((xGet p.r f.b).toNat < vlmaxOf p.r) }
    body := fun p => .next { p with r := xSet p.r f.d (BitVec.ofNat 64 (vEl p.r f.a (xGet p.r f.b).toNat)) } }

/-- VINS: the index must be below VLMAX. -/
def opVins (f : FmtA) : PyOp :=
  { use := fun p =>
      { reads := [rx f.b, rx f.a], writes := (rvs f.d (grpOf p.r)).map fun x => (x, 2), units := [(uVA, 1)], vec := true
        legal := aligned f.d (grpOf p.r) && decide (f.x.toNat ≤ 2) && decide ((xGet p.r f.b).toNat < vlmaxOf p.r) }
    body := fun p =>
      let k := (xGet p.r f.b).toNat
      .next { p with r := vPut p.r f.d.toNat (grpOf p.r) (elPack (sewOf p.r) ((List.range (vlmaxOf p.r)).map fun i =>
        if i = k then (xGet p.r f.a).toNat else vEl p.r f.d i)) } }

/-- A reduction of the active elements into an x register. -/
def reduce (op : Nat → Nat → Nat) (f : FmtA) : PyOp :=
  { use := fun p =>
      let n := grpOf p.r
      { reads := rvs f.a n ++ mReads f.m f.k, writes := [(rx f.d, 4)], units := [(uVA, n)], vec := true
        legal := aligned f.a n && decide (f.x.toNat ≤ 2) && maskOk p.r f.m }
    body := fun p =>
      let v := (activeEls p.r (maskOf f.m f.k)).foldl (fun acc i => op acc (vEl p.r f.a i)) 0
      .next { p with r := xSet p.r f.d (BitVec.ofNat 64 v) } }

/-! ## Vector memory (07 R226-R231, R238, R249) -/

/-- xa + 32 × OFF8. -/
def vecAddr (p : Px) (f : FmtM) : Nat := (xGet p.r f.a + (f.off.signExtend 64) * 32).toNat

/-- The first active element that stops an access. -/
def firstStop (p : Px) (msk : Option Nat) (addr : Nat) (store : Bool) : Option (Nat × ElStop) :=
  (activeEls p.r msk).findSome? fun i =>
    (elStop p (addr + i * (sewOf p.r / 8)) (sewOf p.r / 8) store).map fun s => (i, s)

/-- Write the active elements below `k` and nothing else (07 R238). -/
def vPartial (r : PyRegs) (msk : Option Nat) (n : BitVec 5) (k : Nat) (f : Nat → Nat) : PyRegs :=
  vPut r n.toNat (grpOf r) (elPack (sewOf r) ((List.range (vlmaxOf r)).map fun i =>
    if i < k && laneOf r msk i == .go then f i else vEl r n i))

/-- How an access that stops at element `k` ends: VRESUME names it. -/
def stopEnd (p : Px) (k : Nat) (s : ElStop) : PyEnd :=
  let q := { p with r := { p.r with vresume := BitVec.ofNat 12 k } }
  match s with | .fault => .fault q stVfault (BitVec.ofNat 16 k) | .page j => .wait q (.page j) | .ecc tc => .fault q stEcc (tileCode tc)

/-- A vector load: `al` is the alignment needed, 0 for that of the element; `extra` lines beyond G. -/
def vecLoad (al extra lat : Nat) (f : FmtM) : PyOp :=
  { use := fun p =>
      let n := grpOf p.r
      { reads := rx f.a :: mReads f.m f.k, writes := (rvs f.v n).map fun x => (x, lat + farTile p (vecAddr p f))
        units := [(uLP, n + extra)], lines := lineUse p (vecAddr p f) (n + extra) false, vec := true
        legal := aligned f.v n && maskOk p.r f.m }
    body := fun p =>
      let addr := vecAddr p f
      let w := sewOf p.r / 8
      let ld (i : Nat) : Nat := tileRead p (addr + i * w) w i % 2 ^ sewOf p.r
      if addr % (if al = 0 then w else al) ≠ 0 then .fault p stAlign 0
      else
        match firstStop p (maskOf f.m f.k) addr false with
        | some (k, s) => stopEnd (freeUse { p with r := vPartial p.r (maskOf f.m f.k) f.v k ld } 2048) k s
        | none => .next (freeUse { p with r := vWrite p.r (maskOf f.m f.k) f.v ld } 2048) }

/-- A vector store. -/
def vecStore (al extra : Nat) (f : FmtM) : PyOp :=
  { use := fun p =>
      let n := grpOf p.r
      { reads := rx f.a :: rvs f.v n ++ mReads f.m f.k, units := [(uSP, n + extra)]
        lines := lineUse p (vecAddr p f) (n + extra) true, vec := true, legal := aligned f.v n && maskOk p.r f.m }
    body := fun p =>
      let addr := vecAddr p f
      let w := sewOf p.r / 8
      let put (q : Px) (i : Nat) : Px := tileWrite q (addr + i * w) w (vEl p.r f.v i)
      let act := activeEls p.r (maskOf f.m f.k)
      if addr % (if al = 0 then w else al) ≠ 0 then .fault p stAlign 0
      else
        match firstStop p (maskOf f.m f.k) addr true with
        | some (k, s) => stopEnd ((act.filter (· < k)).foldl put p) k s
        | none => .next (act.foldl put p) }

/-- VKLD: 32 bytes into a mask register; M must be 0. -/
def opVkld (f : FmtM) : PyOp :=
  { use := fun p =>
      { reads := [rx f.a], writes := [(rm f.v.toNat, 3 + farTile p (vecAddr p f))], units := [(uLP, 1)]
        lines := lineUse p (vecAddr p f) 1 false, vec := true, legal := !f.m && decide (f.v.toNat < 8) }
    body := fun p =>
      let a := vecAddr p f
      let v : Nat := elPack 64 ((List.range 4).map fun i => tileRead p (a + 8 * i) 8 i)
      if a % 32 ≠ 0 then .fault p stAlign 0
      else
        match elStop p a 32 false with
        | some s => stopEnd p 0 s
        | none => .next (freeUse { p with r := mPut p.r f.v.toNat (BitVec.ofNat 256 v) } 4) }

/-- VKST: a mask register into 32 bytes; M must be 0. -/
def opVkst (f : FmtM) : PyOp :=
  { use := fun p =>
      { reads := [rx f.a, rm f.v.toNat], units := [(uSP, 1)], lines := lineUse p (vecAddr p f) 1 true, vec := true
        legal := !f.m && decide (f.v.toNat < 8) }
    body := fun p =>
      let a := vecAddr p f
      if a % 32 ≠ 0 then .fault p stAlign 0
      else
        match elStop p a 32 true with
        | some s => stopEnd p 0 s
        | none => .next (tileWrite p a 32 (mReg p.r f.v.toNat).toNat) }

/-! ## The instructions -/

def opVadd (f : FmtA) : PyOp := vecA 2 uVA 1 (fun _ a b _ => a + b) f
/-- VADD (07 R248). -/
def execVadd (p : PyAt) (f : FmtA) (s : State) : Out3 := onDev s (pyRun p (encA 0x18 0 f) (opVadd f))
def opVsub (f : FmtA) : PyOp := vecA 2 uVA 1 (fun p a b _ => elSub (sewOf p.r) a b) f
/-- VSUB (07 R248). -/
def execVsub (p : PyAt) (f : FmtA) (s : State) : Out3 := onDev s (pyRun p (encA 0x18 1 f) (opVsub f))
def opVand (f : FmtA) : PyOp := vecA 2 uVA 1 (fun _ a b _ => a &&& b) f
/-- VAND (07 R248). -/
def execVand (p : PyAt) (f : FmtA) (s : State) : Out3 := onDev s (pyRun p (encA 0x18 2 f) (opVand f))
def opVor (f : FmtA) : PyOp := vecA 2 uVA 1 (fun _ a b _ => a ||| b) f
/-- VOR (07 R248). -/
def execVor (p : PyAt) (f : FmtA) (s : State) : Out3 := onDev s (pyRun p (encA 0x18 3 f) (opVor f))
def opVxor (f : FmtA) : PyOp := vecA 2 uVA 1 (fun _ a b _ => a ^^^ b) f
/-- VXOR (07 R248). -/
def execVxor (p : PyAt) (f : FmtA) (s : State) : Out3 := onDev s (pyRun p (encA 0x18 4 f) (opVxor f))
def opVsll (f : FmtA) : PyOp := vecA 2 uVA 1 (fun p a b _ => a <<< (b % sewOf p.r)) f
/-- VSLL (07 R248). -/
def execVsll (p : PyAt) (f : FmtA) (s : State) : Out3 := onDev s (pyRun p (encA 0x18 5 f) (opVsll f))
def opVsrl (f : FmtA) : PyOp := vecA 2 uVA 1 (fun p a b _ => a >>> (b % sewOf p.r)) f
/-- VSRL (07 R248). -/
def execVsrl (p : PyAt) (f : FmtA) (s : State) : Out3 := onDev s (pyRun p (encA 0x18 6 f) (opVsrl f))
def opVsra (f : FmtA) : PyOp := vecA 2 uVA 1 (fun p a b _ => elSra (sewOf p.r) a (b % sewOf p.r)) f
/-- VSRA (07 R248). -/
def execVsra (p : PyAt) (f : FmtA) (s : State) : Out3 := onDev s (pyRun p (encA 0x18 7 f) (opVsra f))
def opVimul (f : FmtA) : PyOp := vecA 4 uVX 1 (fun _ a b _ => a * b) f
/-- VIMUL (07 R248). -/
def execVimul (p : PyAt) (f : FmtA) (s : State) : Out3 := onDev s (pyRun p (encA 0x19 0 f) (opVimul f))
def opVimulh (f : FmtA) : PyOp := vecA 4 uVX 1 (fun p a b _ => elMulh (sewOf p.r) a b) f
/-- VIMULH (07 R248). -/
def execVimulh (p : PyAt) (f : FmtA) (s : State) : Out3 := onDev s (pyRun p (encA 0x19 1 f) (opVimulh f))
def opVimulhu (f : FmtA) : PyOp := vecA 4 uVX 1 (fun p a b _ => (a * b) >>> sewOf p.r) f
/-- VIMULHU (07 R248). -/
def execVimulhu (p : PyAt) (f : FmtA) (s : State) : Out3 := onDev s (pyRun p (encA 0x19 2 f) (opVimulhu f))
def opVimin (f : FmtA) : PyOp := vecA 2 uVA 1 (fun p a b _ => elMin (sewOf p.r) a b) f
/-- VIMIN (07 R248). -/
def execVimin (p : PyAt) (f : FmtA) (s : State) : Out3 := onDev s (pyRun p (encA 0x19 3 f) (opVimin f))
def opVimax (f : FmtA) : PyOp := vecA 2 uVA 1 (fun p a b _ => elMax (sewOf p.r) a b) f
/-- VIMAX (07 R248). -/
def execVimax (p : PyAt) (f : FmtA) (s : State) : Out3 := onDev s (pyRun p (encA 0x19 4 f) (opVimax f))
def opViminu (f : FmtA) : PyOp := vecA 2 uVA 1 (fun _ a b _ => min a b) f
/-- VIMINU (07 R248). -/
def execViminu (p : PyAt) (f : FmtA) (s : State) : Out3 := onDev s (pyRun p (encA 0x19 5 f) (opViminu f))
def opVimaxu (f : FmtA) : PyOp := vecA 2 uVA 1 (fun _ a b _ => max a b) f
/-- VIMAXU (07 R248). -/
def execVimaxu (p : PyAt) (f : FmtA) (s : State) : Out3 := onDev s (pyRun p (encA 0x19 6 f) (opVimaxu f))
/-- VSEL (07 R248). -/
def execVsel (p : PyAt) (f : FmtA) (s : State) : Out3 := onDev s (pyRun p (encA 0x19 7 f) (opVsel f))
def opVseq : FmtA → PyOp := vecCmp (fun _ a b => a == b)
/-- VSEQ (07 R222, R248). -/
def execVseq (p : PyAt) (f : FmtA) (s : State) : Out3 := onDev s (pyRun p (encA 0x1A 0 f) (opVseq f))
def opVsne : FmtA → PyOp := vecCmp (fun _ a b => a != b)
/-- VSNE (07 R222, R248). -/
def execVsne (p : PyAt) (f : FmtA) (s : State) : Out3 := onDev s (pyRun p (encA 0x1A 1 f) (opVsne f))
def opVslt : FmtA → PyOp := vecCmp (fun sew a b => decide (sgn sew a < sgn sew b))
/-- VSLT (07 R222, R248). -/
def execVslt (p : PyAt) (f : FmtA) (s : State) : Out3 := onDev s (pyRun p (encA 0x1A 2 f) (opVslt f))
def opVsltu : FmtA → PyOp := vecCmp (fun _ a b => decide (a < b))
/-- VSLTU (07 R222, R248). -/
def execVsltu (p : PyAt) (f : FmtA) (s : State) : Out3 := onDev s (pyRun p (encA 0x1A 3 f) (opVsltu f))
def opVkand : FmtA → PyOp := maskBits (· &&& ·)
/-- VKAND (07 R248). -/
def execVkand (p : PyAt) (f : FmtA) (s : State) : Out3 := onDev s (pyRun p (encA 0x1A 4 f) (opVkand f))
def opVkor : FmtA → PyOp := maskBits (· ||| ·)
/-- VKOR (07 R248). -/
def execVkor (p : PyAt) (f : FmtA) (s : State) : Out3 := onDev s (pyRun p (encA 0x1A 5 f) (opVkor f))
def opVkxor : FmtA → PyOp := maskBits (· ^^^ ·)
/-- VKXOR (07 R248). -/
def execVkxor (p : PyAt) (f : FmtA) (s : State) : Out3 := onDev s (pyRun p (encA 0x1A 6 f) (opVkxor f))
def opVknot : FmtA → PyOp := maskBits (fun a _ => ~~~ a)
/-- VKNOT (07 R248). -/
def execVknot (p : PyAt) (f : FmtA) (s : State) : Out3 := onDev s (pyRun p (encA 0x1A 7 f) (opVknot f))
def opVld : FmtM → PyOp := vecLoad 256 0 3
/-- VLD (07 R227, R249). -/
def execVld (p : PyAt) (f : FmtM) (s : State) : Out3 := onDev s (pyRun p (encM 0x1B 0 f) (opVld f))
def opVldu : FmtM → PyOp := vecLoad 0 1 4
/-- VLDU (07 R227, R249). -/
def execVldu (p : PyAt) (f : FmtM) (s : State) : Out3 := onDev s (pyRun p (encM 0x1B 1 f) (opVldu f))
def opVst : FmtM → PyOp := vecStore 256 0
/-- VST (07 R227, R249). -/
def execVst (p : PyAt) (f : FmtM) (s : State) : Out3 := onDev s (pyRun p (encM 0x1B 2 f) (opVst f))
def opVstu : FmtM → PyOp := vecStore 0 1
/-- VSTU (07 R227, R249). -/
def execVstu (p : PyAt) (f : FmtM) (s : State) : Out3 := onDev s (pyRun p (encM 0x1B 3 f) (opVstu f))
/-- VKLD (07 R249). -/
def execVkld (p : PyAt) (f : FmtM) (s : State) : Out3 := onDev s (pyRun p (encM 0x1B 4 f) (opVkld f))
/-- VKST (07 R249). -/
def execVkst (p : PyAt) (f : FmtM) (s : State) : Out3 := onDev s (pyRun p (encM 0x1B 5 f) (opVkst f))
/-- VBCAST (07 R248). -/
def execVbcast (p : PyAt) (f : FmtA) (s : State) : Out3 := onDev s (pyRun p (encA 0x1B 6 f) (opVbcast f))
def opVpopc (f : FmtA) : PyOp := vecU 2 uVA 1 (fun p a => popc (sewOf p.r) a) f
/-- VPOPC (07 R248). -/
def execVpopc (p : PyAt) (f : FmtA) (s : State) : Out3 := onDev s (pyRun p (encA 0x1B 7 f) (opVpopc f))
/-- VEXT (07 R248). -/
def execVext (p : PyAt) (f : FmtA) (s : State) : Out3 := onDev s (pyRun p (encA 0x1C 0 f) (opVext f))
/-- VINS (07 R248). -/
def execVins (p : PyAt) (f : FmtA) (s : State) : Out3 := onDev s (pyRun p (encA 0x1C 1 f) (opVins f))
def opVredsum : FmtA → PyOp := reduce (· + ·)
/-- VREDSUM (07 R248). -/
def execVredsum (p : PyAt) (f : FmtA) (s : State) : Out3 := onDev s (pyRun p (encA 0x1C 2 f) (opVredsum f))
def opVredxor : FmtA → PyOp := reduce (· ^^^ ·)
/-- VREDXOR (07 R248). -/
def execVredxor (p : PyAt) (f : FmtA) (s : State) : Out3 := onDev s (pyRun p (encA 0x1C 3 f) (opVredxor f))
def opVredor : FmtA → PyOp := reduce (· ||| ·)
/-- VREDOR (07 R248). -/
def execVredor (p : PyAt) (f : FmtA) (s : State) : Out3 := onDev s (pyRun p (encA 0x1C 4 f) (opVredor f))

end Sys2Proof.Machine
end

