-- ==== Sys2Proof/Machine/PyFloat.lean ====
section
/-!
DEFINITION. Binary64 instructions: scalar form on f registers and vector form (07 R213, R214, R218, R253).
-/
namespace Sys2Proof.Machine

/-- fn is the low 64 bits of vn (07 R213). -/
def fGet (r : PyRegs) (n : BitVec 5) : U64 := (vReg r n.toNat).setWidth 64
/-- A scalar form writes fn and clears the bits above (07 R214). -/
def fSet (r : PyRegs) (n : BitVec 5) (v : U64) : PyRegs := vPut r n.toNat 1 v.toNat
/-- Accrue flags. -/
def fAccrue (r : PyRegs) (fl : Flags5) : PyRegs := { r with fflags := r.fflags ||| fl }
/-- A rounding mode from 0 to 4 (07 R218). -/
def rmOk (r : PyRegs) : Bool := decide (r.frm.toNat ≤ 4)

/-- Write the results of a vector form and OR the flags of the active elements. -/
def fVecWrite (r : PyRegs) (msk : Option Nat) (d : BitVec 5) (res : Nat → FRes) : PyRegs :=
  fAccrue (vWrite r msk d fun i => (res i).1.toNat) ((activeEls r msk).foldl (fun acc i => acc ||| (res i).2) 0)

/-- Registers that a form reads or writes at an operand: the f register, or the group. -/
def fKeys (r : PyRegs) (vec : Bool) (n : BitVec 5) : List Nat := if vec then rvs n (grpOf r) else [rv n]
/-- Limits of a form: the vector form takes SEW 64 and aligned groups, the scalar form no mask (07 R220, R240, R253; log 51). -/
def fFormOk (r : PyRegs) (vec m : Bool) (ns : List (BitVec 5)) : Bool :=
  rmOk r && (if vec then sewOf r == 64 && ns.all (aligned · (grpOf r)) else !m)
/-- The lane of a form's element as a binary64 number. -/
def fEl (r : PyRegs) (vec : Bool) (n : BitVec 5) (i : Nat) : U64 := if vec then BitVec.ofNat 64 (vEl r n i) else fGet r n
/-- Write a form's result. -/
def fPut (r : PyRegs) (vec : Bool) (msk : Option Nat) (d : BitVec 5) (res : Nat → FRes) : PyRegs :=
  if vec then fVecWrite r msk d res else fAccrue (fSet r d (res 0).1) (res 0).2
/-- Whether an instruction of the F group is the vector form. -/
def fVec (x : Nat) : Bool := x == 1

/-- An F instruction of one or two operands in format A. -/
def fltA (lat unit occ : Nat) (two : Bool) (op : BitVec 3 → Nat → U64 → U64 → FRes) (f : FmtA) : PyOp :=
  let v := fVec f.x.toNat
  { use := fun p =>
      { reads := fKeys p.r v f.a ++ (if two then fKeys p.r v f.b else []) ++ mReads (v && f.m) f.k
        writes := (fKeys p.r v f.d).map fun x => (x, lat), units := [(unit, if v then occ * grpOf p.r else occ)], vec := v
        legal := decide (f.x.toNat ≤ 1) && fFormOk p.r v f.m (f.d :: f.a :: (if two then [f.b] else [])) && maskOk p.r (v && f.m) }
    body := fun p =>
      let res (i : Nat) : FRes := op p.r.frm (freeAt p i) (fEl p.r v f.a i) (fEl p.r v f.b i)
      .next (freeUse { p with r := fPut p.r v (maskOf f.m f.k) f.d res } 2048) }

/-- An F instruction of two operands. -/
def flt2 (lat unit occ : Nat) (op : BitVec 3 → U64 → U64 → FRes) : FmtA → PyOp := fltA lat unit occ true fun rm _ => op rm
/-- An F instruction of one operand. -/
def flt1 (lat unit occ : Nat) (op : BitVec 3 → U64 → FRes) : FmtA → PyOp := fltA lat unit occ false fun rm _ a _ => op rm a

/-- The fused forms in format Q. -/
def fltQ (op : BitVec 3 → U64 → U64 → U64 → FRes) (f : FmtQ) : PyOp :=
  let v := fVec f.x.toNat
  { use := fun p =>
      { reads := fKeys p.r v f.a ++ fKeys p.r v f.b ++ fKeys p.r v f.c, writes := (fKeys p.r v f.d).map fun x => (x, 5)
        units := [(uVX, if v then grpOf p.r else 1)], vec := v
        legal := decide (f.x.toNat ≤ 1) && fFormOk p.r v false [f.d, f.a, f.b, f.c] }
    body := fun p =>
      .next { p with r := fPut p.r v none f.d fun i => op p.r.frm (fEl p.r v f.a i) (fEl p.r v f.b i) (fEl p.r v f.c i) } }

/-- FMS: a × b − c. -/
def fFms (rm : BitVec 3) (a b c : U64) : FRes := fFma rm a b (if fIsNan c then c else fFlip c)
/-- FNMA: −(a × b) + c. -/
def fFnma (rm : BitVec 3) (a b c : U64) : FRes := fFma rm (if fIsNan a then a else fFlip a) b c

/-- FMVX: xd ← bits of fa; X must be 0. -/
def opFmvx (f : FmtA) : PyOp :=
  { use := fun p => { reads := [rv f.a], writes := [(rx f.d, 1)], units := [(uVA, 1)], legal := f.x == 0 && !f.m && rmOk p.r }
    body := fun p => .next { p with r := xSet p.r f.d (fGet p.r f.a) } }
/-- FMVF: fd ← bits of xa; X must be 0. -/
def opFmvf (f : FmtA) : PyOp :=
  { use := fun p => { reads := [rx f.a], writes := [(rv f.d, 1)], units := [(uVA, 1)], legal := f.x == 0 && !f.m && rmOk p.r }
    body := fun p => .next { p with r := fSet p.r f.d (xGet p.r f.a) } }

/-! ## The instructions -/

def opFadd : FmtA → PyOp := flt2 4 uVX 1 fAdd
/-- FADD (07 R253). -/
def execFadd (p : PyAt) (f : FmtA) (s : State) : Out3 := onDev s (pyRun p (encA 0x50 0 f) (opFadd f))
def opFsub : FmtA → PyOp := flt2 4 uVX 1 fSub
/-- FSUB (07 R253). -/
def execFsub (p : PyAt) (f : FmtA) (s : State) : Out3 := onDev s (pyRun p (encA 0x50 1 f) (opFsub f))
def opFmul : FmtA → PyOp := flt2 4 uVX 1 fMul
/-- FMUL (07 R253). -/
def execFmul (p : PyAt) (f : FmtA) (s : State) : Out3 := onDev s (pyRun p (encA 0x50 2 f) (opFmul f))
def opFdiv : FmtA → PyOp := flt2 16 uVX 4 fDiv
/-- FDIV (07 R253). -/
def execFdiv (p : PyAt) (f : FmtA) (s : State) : Out3 := onDev s (pyRun p (encA 0x50 3 f) (opFdiv f))
def opFsqrt : FmtA → PyOp := flt1 16 uVX 4 fSqrt
/-- FSQRT (07 R253). -/
def execFsqrt (p : PyAt) (f : FmtA) (s : State) : Out3 := onDev s (pyRun p (encA 0x50 4 f) (opFsqrt f))
def opFmin : FmtA → PyOp := flt2 2 uVA 1 fMinOp
/-- FMIN (07 R253). -/
def execFmin (p : PyAt) (f : FmtA) (s : State) : Out3 := onDev s (pyRun p (encA 0x50 5 f) (opFmin f))
def opFmax : FmtA → PyOp := flt2 2 uVA 1 fMaxOp
/-- FMAX (07 R253). -/
def execFmax (p : PyAt) (f : FmtA) (s : State) : Out3 := onDev s (pyRun p (encA 0x50 6 f) (opFmax f))
def opFneg : FmtA → PyOp := flt1 2 uVA 1 fNegOp
/-- FNEG (07 R253). -/
def execFneg (p : PyAt) (f : FmtA) (s : State) : Out3 := onDev s (pyRun p (encA 0x50 7 f) (opFneg f))
def opFma : FmtQ → PyOp := fltQ fFma
/-- FMA (07 R253). -/
def execFma (p : PyAt) (f : FmtQ) (s : State) : Out3 := onDev s (pyRun p (encQ 0x51 0 f) (opFma f))
def opFms : FmtQ → PyOp := fltQ fFms
/-- FMS (07 R253). -/
def execFms (p : PyAt) (f : FmtQ) (s : State) : Out3 := onDev s (pyRun p (encQ 0x51 1 f) (opFms f))
def opFnma : FmtQ → PyOp := fltQ fFnma
/-- FNMA (07 R253). -/
def execFnma (p : PyAt) (f : FmtQ) (s : State) : Out3 := onDev s (pyRun p (encQ 0x51 2 f) (opFnma f))
def opFcvtf : FmtA → PyOp := flt1 4 uVX 1 fFromInt
/-- FCVTF (07 R253). -/
def execFcvtf (p : PyAt) (f : FmtA) (s : State) : Out3 := onDev s (pyRun p (encA 0x51 3 f) (opFcvtf f))
def opFcvti : FmtA → PyOp := fltA 4 uVX 1 false (fun rm free a _ => fToInt rm free a)
/-- FCVTI (07 R253). -/
def execFcvti (p : PyAt) (f : FmtA) (s : State) : Out3 := onDev s (pyRun p (encA 0x51 4 f) (opFcvti f))
def opFrnd : FmtA → PyOp := flt1 4 uVX 1 fRint
/-- FRND (07 R253). -/
def execFrnd (p : PyAt) (f : FmtA) (s : State) : Out3 := onDev s (pyRun p (encA 0x51 5 f) (opFrnd f))
/-- FMVX (07 R253). -/
def execFmvx (p : PyAt) (f : FmtA) (s : State) : Out3 := onDev s (pyRun p (encA 0x51 6 f) (opFmvx f))
/-- FMVF (07 R253, R214). -/
def execFmvf (p : PyAt) (f : FmtA) (s : State) : Out3 := onDev s (pyRun p (encA 0x51 7 f) (opFmvf f))

end Sys2Proof.Machine
end

