-- ==== Sys2Proof/Machine/PyHash.lean ====
section
/-!
DEFINITION. Hash-channel and share instructions, with the schedule of the hash units and the mask expander
(07 R255, R256; 09 R298; 10 R329-R331).
-/
namespace Sys2Proof.Machine

/-! ## The units' states and schedule (07 R255, 09 R298) -/

def bankOf (r : PyRegs) (u : Nat) : HashBank := r.banks.toList.getD u {}
def bankPut (r : PyRegs) (u : Nat) (b : HashBank) : PyRegs := { r with banks := r.banks.setIfInBounds u b }
def hashAt (p : Px) (u : Nat) : HashTime := (getCore p.d p.c).hash.toList.getD u {}
def hashPut (p : Px) (u : Nat) (f : HashTime → HashTime) : Px :=
  { p with d := modCore p.d p.c fun k => { k with hash := k.hash.setIfInBounds u (f (k.hash.toList.getD u {})) } }

/-- A number of `n` free 64-bit words from the `i`-th on. -/
def freeWords (p : Px) (i n : Nat) : Nat := elPack 64 ((List.range n).map fun k => freeAt p (i + k))

/-- A unit's bank before use: what a unit that was never initialised holds is free. -/
def bankReady (p : Px) (u : Nat) : HashBank :=
  let b := bankOf p.r u
  if b.fn = 0 then { b with keccak := b.keccak.set 0 (BitVec.ofNat 1600 (freeWords p 0 25)), sha := BitVec.ofNat 512 (freeWords p 25 8), fn := 1 }
  else b
/-- Shares of the guarded unit; the other units have one. -/
def bankShares (r : PyRegs) (u : Nat) : Nat := if u = 2 then min 4 (max 1 (bankOf r 2).fn) else 1
/-- Whether the guarded unit is masked. -/
def masked (r : PyRegs) (u : Nat) : Bool := decide (1 < bankShares r u)

/-- Start of a Keccak operation issued at core cycle t, and its length, in hash cycles (09 R298). -/
def kuStart (t : Nat) : Nat := 8 * (t / 6) + 16
def kuLen (r : PyRegs) (u : Nat) : Nat := if masked r u then 48 else 24
/-- Start of a compression that finds its unit idle. -/
def suArrive (t : Nat) : Nat := cdiv (4 * t) 3 + 17

/-- Permute the state: shares above 0 come out fresh (10 R331). -/
def permute (p : Px) (n : Nat) (b : HashBank) : HashBank :=
  let out := keccakWord (b.keccak.toList.foldl (· ^^^ ·) 0)
  let fresh := (List.range (n - 1)).map fun i => BitVec.ofNat 1600 (freeWords p (40 + 25 * i) 25)
  { b with keccak := Vector.ofFn fun i => if i.val = 0 then out ^^^ fresh.foldl (· ^^^ ·) 0 else fresh.getD (i.val - 1) 0 }

/-- The permutation of a unit is under way: it is busy to its end, and its window is ready when the result can be read. -/
def kuRun (p : Px) (u : Nat) : Px :=
  hashPut p u fun h => { h with busy := kuStart p.t + kuLen p.r u, win := p.t + if masked p.r u then 58 else 40 }

/-- HINIT. -/
def opHinit (f : FmtH) : PyOp :=
  let u := f.u.toNat
  let n := f.len.toNat
  { use := fun p =>
      { units := [(uH u, 1)], clash := decide (p.t < (hashAt p u).win)
        legal := if u < 2 then true
                 else if u = 2 then decide (1 ≤ n && n ≤ 4) && (n == 1 || n == p.b.order + 1)
                 else decide (1 ≤ n && n ≤ 6) }
    body := fun p =>
      let b : HashBank :=
        if u < 2 then { fn := 1 } else if u = 2 then { fn := n }
        else { sha := BitVec.ofNat 512 (elPack 64 ((hIv n).map (·.toNat))), fn := n }
      .next { hashPut p u (fun h => { h with win := p.t + 2, init := p.t + 2 }) with r := bankPut p.r u b } }

/-- HABS: absorb into share S, and permute with P after the last share. -/
def opHabs (f : FmtH) : PyOp :=
  let u := f.u.toNat
  { use := fun p =>
      { reads := [rv f.v], units := [(uH u, 1)]
        clash := decide (kuStart p.t < (hashAt p u).busy) || decide (p.t < (hashAt p u).init)
        legal := decide (u < 3) && decide (f.len.toNat ≤ 200) && decide (f.s.toNat < bankShares p.r u) }
    body := fun p =>
      let b := bankReady p u
      let n := bankShares p.r u
      let x : BitVec 1600 := BitVec.ofNat 1600 ((vReg p.r f.v.toNat).toNat % 2 ^ (8 * f.len.toNat))
      let b1 := { b with keccak := b.keccak.setIfInBounds f.s.toNat (b.keccak.toList.getD f.s.toNat 0 ^^^ x) }
      if f.p && f.s.toNat + 1 = n then .next (freeUse (kuRun { p with r := bankPut p.r u (permute p n b1) } u) 128)
      else .next (freeUse { p with r := bankPut p.r u b1 } 128) }

/-- HSQZ: with P permute first; then the first LEN bytes of share S. -/
def opHsqz (f : FmtH) : PyOp :=
  let u := f.u.toNat
  { use := fun p =>
      { writes := [(rv f.v, if f.p then (if masked p.r u then 58 else 40) else 12)], units := [(uH u, 1)]
        clash := if f.p then decide (kuStart p.t < (hashAt p u).busy) || decide (p.t < (hashAt p u).init)
                 else decide (p.t < (hashAt p u).win)
        legal := decide (u < 3) && decide (f.len.toNat ≤ 200) && decide (f.s.toNat < bankShares p.r u) }
    body := fun p =>
      let b0 := bankReady p u
      let b := if f.p then permute p (bankShares p.r u) b0 else b0
      let r := vPut (bankPut p.r u b) f.v.toNat 1 ((b.keccak.toList.getD f.s.toNat 0).toNat % 2 ^ (8 * f.len.toNat))
      .next (freeUse (if f.p then kuRun { p with r := r } u else { p with r := r }) 128) }

/-- The words of a SHA-2 state. -/
def shaWords (b : HashBank) : List U64 := (List.range 8).map fun i => (b.sha >>> (64 * i)).setWidth 64
/-- Whether a unit runs a SHA-512 function. -/
def shaLong (r : PyRegs) : Bool := decide (3 ≤ (bankOf r 3).fn)

/-- HSHA: one compression in SU; the unit holds one waiting command. -/
def opHsha (f : FmtH) : PyOp :=
  { use := fun p =>
      { reads := [rv f.v], units := [(uH 3, 1)]
        clash := decide (suArrive p.t < (hashAt p 3).queue) || decide (p.t < (hashAt p 3).init), legal := f.u == 3 }
    body := fun p =>
      let b := bankReady p 3
      let blk := leBytes (if shaLong p.r then 128 else 64) (vReg p.r f.v.toNat).toNat
      let st := hBlockRun (if b.fn = 0 then 2 else b.fn) (shaWords b) blk
      let start := max (suArrive p.t) (hashAt p 3).busy
      .next (freeUse (hashPut { p with r := bankPut p.r 3 { b with sha := BitVec.ofNat 512 (elPack 64 (st.map (·.toNat))) } } 3
        fun h => { h with busy := start + (if shaLong p.r then 81 else 65), queue := start
                          win := p.t + if shaLong p.r then 84 else 72 }) 64) }

/-- HDIG: the SHA-2 state, 32 or 64 bytes. -/
def opHdig (f : FmtH) : PyOp :=
  { use := fun p =>
      { writes := [(rv f.v, 12)], units := [(uH 3, 1)], clash := decide (p.t < (hashAt p 3).win), legal := f.u == 3 }
    body := fun p =>
      let b := bankReady p 3
      let bs := if shaLong p.r then wordBytes 8 (shaWords b) else wordBytes 4 ((shaWords b).map fun x => (x.setWidth 32 : U32))
      .next (freeUse { p with r := vPut (bankPut p.r 3 b) f.v.toNat 1 (leNat bs) } 64) }

/-! ## The mask expander (10 R329) -/

/-- Keccak-p[1600, 12]: the last twelve rounds. -/
def keccakP12 (s : List U64) : List U64 := (keccakRc.drop 12).foldl keccakRound s
/-- Block `j` of the expander: 136 bytes. -/
def mxBlock (seed : Bytes) (j : Nat) : Bytes :=
  (bytesOfLanes (keccakP12 (lanesOf (fit 32 seed ++ leBytes 8 j ++ [0x1F] ++ zeros 159)))).take 136
/-- Bytes of the expander's output, from the blocks in order. -/
def mxBytes (seed : Bytes) (lo n : Nat) : Bytes :=
  let j := lo / 136
  (((List.range (n / 136 + 2)).map fun i => mxBlock seed (j + i)).flatten.drop (lo - 136 * j)).take n
/-- Take `n` 256-bit words. -/
def mxTake (p : Px) (n : Nat) : Px := { p with io := { p.io with mxCtr := p.io.mxCtr + n } }

/-- SRND: 2,048 fresh bits. A job without a seed has none stated: the value is free. -/
def opSrnd (f : FmtK) : PyOp :=
  { use := fun _ => { writes := [(rv f.d, 9)], units := [(uMX, 8)], vec := true, legal := f.ord == 0 && !f.x && f.rsv == 0 }
    body := fun p =>
      let v := if p.io.mxSeed.isEmpty then freeLine p 0 else leNat (mxBytes p.io.mxSeed (32 * p.io.mxCtr) 256)
      .next (freeUse (mxTake { p with r := vPut p.r f.d.toNat 1 v } 8) 32) }

/-! ## Share operations (07 R256) -/

/-- How a value is shared: by exclusive or, or as a sum modulo 2^SEW or q. -/
inductive Sharing
  | bool | sum (m : Nat)
  deriving DecidableEq, Repr

/-- The registers of a share group are single registers: G counts as 1 (log 53). -/
def single (r : PyRegs) : PyRegs := { r with vtype := r.vtype &&& 0x33 }

/-- The value that a share group holds at element `i`. -/
def unshare (r : PyRegs) (k : Sharing) (a : BitVec 5) (n i : Nat) : Nat :=
  let sh := (List.range n).map fun j => elAt (sewOf r) (vReg r (a.toNat + j)).toNat i
  match k with | .bool => sh.foldl (· ^^^ ·) 0 | .sum m => sh.foldl (· + ·) 0 % m

/-- Write fresh shares of a value: shares above 0 are random, so free here, and share 0 completes the value. -/
def reshare (p : Px) (k : Sharing) (d : BitVec 5) (n : Nat) (val : Nat → Nat) : Px :=
  let r0 := single p.r
  let sew := sewOf r0
  let rnd (j i : Nat) : Nat := match k with | .bool => freeAt p (256 * j + i) % 2 ^ sew | .sum m => freeAt p (256 * j + i) % m
  let zero (i : Nat) : Nat :=
    let others := (List.range (n - 1)).map fun j => rnd (j + 1) i
    match k with
    | .bool => others.foldl (· ^^^ ·) (val i)
    | .sum m => (others.foldl (fun acc x => acc + (m - x % m)) (val i)) % m
  let r1 := (List.range n).foldl (fun r j => vWrite r none (d + BitVec.ofNat 5 j) fun i => if j = 0 then zero i else rnd j i) r0
  freeUse { p with r := { r1 with vtype := p.r.vtype } } (256 * n)

/-- The arithmetic sharing of a conversion, none where the element width does not allow it; `named`: the instruction names q. -/
def sumOf (r : PyRegs) (q named : Bool) : Option Sharing :=
  let w := sewOf r
  if q && named then (if w = 16 || w = 32 then some (.sum (r.qmod.toNat)) else none)
  else if w = 32 then none else some (.sum (2 ^ w))

/-- Whether a group of shares ends by v31. -/
def shareOk (n : BitVec 5) (ord : Nat) : Bool := decide (n.toNat + ord ≤ 31)

/-- A share operation: latency and occupancy from d, words of randomness, operands, further limits. -/
def shareOp (lat occ words : Nat → Nat) (useB : Bool) (accD : Bool) (bGroup dGroup q : Bool) (ok : PyRegs → Bool)
    (body : Px → Px) (f : FmtK) : PyOp :=
  let d := f.ord.toNat
  let grp (n : BitVec 5) : List Nat := (List.range (d + 1)).map fun i => rv n + i
  { use := fun p =>
      { reads := grp f.a ++ (if useB then (if bGroup then grp f.b else [rv f.b]) else []) ++ (if accD then grp f.d else [])
        writes := (if dGroup then grp f.d else [rv f.d]).map fun x => (x, lat d)
        units := [(uVX, occ d), (uMX, occ d)], q := q, vec := true
        legal := decide (1 ≤ d) && f.rsv == 0 && shareOk f.a d && (!useB || !bGroup || shareOk f.b d) && (!dGroup || shareOk f.d d)
          && ok p.r }
    body := fun p => .next (mxTake (body p) (words d)) }

/-- A modulus of 0 leaves the sharing without a meaning: the value is free. -/
def safeVal (p : Px) (k : Sharing) (v : Nat → Nat) (i : Nat) : Nat :=
  match k with | .sum 0 => freeAt p (1024 + i) | _ => v i

/-- SREF. -/
def opSref (f : FmtK) : PyOp :=
  let n := f.ord.toNat + 1
  let kind (r : PyRegs) : Option Sharing := if f.x then sumOf r true false else some .bool
  shareOp (fun d => 8 * d + 2) (fun d => 8 * d) (fun d => 8 * d) false false false true false (fun r => (kind r).isSome)
    (fun p => let k := (kind p.r).getD .bool; reshare p k f.d n (unshare p.r k f.a n)) f

/-- SAND. -/
def opSand (f : FmtK) : PyOp :=
  let n := f.ord.toNat + 1
  shareOp (fun d => 4 * d * (d + 1) + 3) (fun d => 4 * d * (d + 1)) (fun d => 4 * d * (d + 1)) true false true true false
    (fun _ => !f.x)
    (fun p => reshare p .bool f.d n fun i => unshare p.r .bool f.a n i &&& unshare p.r .bool f.b n i) f

/-- Latency and occupancy of the conversions. -/
def convLat (d : Nat) : Nat := 24 * d * (d + 1) + 11
def convOcc (d : Nat) : Nat := 24 * d * (d + 1) + 8

/-- SA2B. -/
def opSa2b (f : FmtK) : PyOp :=
  let n := f.ord.toNat + 1
  shareOp convLat convOcc convOcc false false false true f.x (fun r => (sumOf r f.x true).isSome)
    (fun p =>
      let k := (sumOf p.r f.x true).getD .bool
      reshare p .bool f.d n (safeVal p k (unshare p.r k f.a n))) f

/-- SB2A. -/
def opSb2a (f : FmtK) : PyOp :=
  let n := f.ord.toNat + 1
  shareOp convLat convOcc convOcc false false false true f.x (fun r => (sumOf r f.x true).isSome)
    (fun p =>
      let k := (sumOf p.r f.x true).getD .bool
      reshare p k f.d n (safeVal p k fun i =>
        let v := unshare p.r .bool f.a n i
        match k with | .sum m => v % m | .bool => v)) f

/-- SCMP: a word of ones in every element processed when all of them are equal (log 53). -/
def opScmp (f : FmtK) : PyOp :=
  let n := f.ord.toNat + 1
  shareOp (fun d => 4 * d * (d + 1) + 11) (fun d => 4 * d * (d + 1) + 8) (fun d => 4 * d * (d + 1) + 8) true f.x false true false
    (fun _ => true)
    (fun p =>
      let r0 := single p.r
      let eq := (activeEls r0 none).all fun i => unshare p.r .bool f.a n i == elAt (sewOf r0) (vReg p.r f.b.toNat).toNat i
      let ones := if eq then 2 ^ sewOf r0 - 1 else 0
      reshare p .bool f.d n fun i => if f.x then ones &&& unshare p.r .bool f.d n i else ones) f

/-- SUNM: the value itself; B must be 0. -/
def opSunm (f : FmtK) : PyOp :=
  let n := f.ord.toNat + 1
  let kind (r : PyRegs) : Option Sharing := if f.x then sumOf r true true else some .bool
  shareOp (fun d => d + 3) (fun d => d + 1) (fun _ => 0) false false false false f.x (fun r => (kind r).isSome && f.b == 0)
    (fun p =>
      let k := (kind p.r).getD .bool
      let r1 := vWrite (single p.r) none f.d (safeVal p k (unshare p.r k f.a n))
      freeUse { p with r := { r1 with vtype := p.r.vtype } } 2048) f

/-! ## The instructions -/

/-- HINIT (07 R255, 09 R298). -/
def execHinit (p : PyAt) (f : FmtH) (s : State) : Out3 := onDev s (pyRun p (encH 0x60 0 f) (opHinit f))
/-- HABS (07 R255, 09 R298). -/
def execHabs (p : PyAt) (f : FmtH) (s : State) : Out3 := onDev s (pyRun p (encH 0x60 1 f) (opHabs f))
/-- HSQZ (07 R255, 09 R298). -/
def execHsqz (p : PyAt) (f : FmtH) (s : State) : Out3 := onDev s (pyRun p (encH 0x60 2 f) (opHsqz f))
/-- HSHA (07 R255, 09 R298). -/
def execHsha (p : PyAt) (f : FmtH) (s : State) : Out3 := onDev s (pyRun p (encH 0x60 3 f) (opHsha f))
/-- HDIG (07 R255, 09 R298). -/
def execHdig (p : PyAt) (f : FmtH) (s : State) : Out3 := onDev s (pyRun p (encH 0x60 4 f) (opHdig f))
/-- SREF (07 R256). -/
def execSref (p : PyAt) (f : FmtK) (s : State) : Out3 := onDev s (pyRun p (encK 0x68 0 f) (opSref f))
/-- SAND (07 R256). -/
def execSand (p : PyAt) (f : FmtK) (s : State) : Out3 := onDev s (pyRun p (encK 0x68 1 f) (opSand f))
/-- SA2B (07 R256). -/
def execSa2b (p : PyAt) (f : FmtK) (s : State) : Out3 := onDev s (pyRun p (encK 0x68 2 f) (opSa2b f))
/-- SB2A (07 R256). -/
def execSb2a (p : PyAt) (f : FmtK) (s : State) : Out3 := onDev s (pyRun p (encK 0x68 3 f) (opSb2a f))
/-- SCMP (07 R256). -/
def execScmp (p : PyAt) (f : FmtK) (s : State) : Out3 := onDev s (pyRun p (encK 0x68 4 f) (opScmp f))
/-- SUNM (07 R256). -/
def execSunm (p : PyAt) (f : FmtK) (s : State) : Out3 := onDev s (pyRun p (encK 0x68 5 f) (opSunm f))
/-- SRND (07 R256). -/
def execSrnd (p : PyAt) (f : FmtK) (s : State) : Out3 := onDev s (pyRun p (encK 0x68 6 f) (opSrnd f))

end Sys2Proof.Machine
end

