-- ==== Sys2Proof/Machine/PyJob.lean ====
section
/-!
DEFINITION. Job I/O instructions, the fills and drains of a job's areas, the start of a custom program, and the yield watchdog
(07 R229-R236, R247, R257, R262, R264; 08 R284; 10 R326).
-/
namespace Sys2Proof.Machine

/-- A job I/O instruction. -/
def jio (reads : List Nat) (writes : List (Nat × Nat)) (unit occ : Nat) (legal : Px → Bool) (body : Px → PyEnd) : PyOp :=
  { use := fun p => { reads := reads, writes := writes, units := [(unit, occ)], legal := legal p }, body := body }

/-- Whether a job runs a custom program. -/
def isCustom (b : Job) : Bool := opClass b.e.opcode == 0xD

/-! ## Areas (07 R230-R233) -/

/-- The core whose tile holds a job's areas, and the first byte of its partitions (log 47). -/
def areaBase (b : Job) : Nat × Nat :=
  match b.eng with | some c => (if b.cluster then c / 4 * 4 else c, ctxSlot b * partBytes) | none => (0, 0)

/-- The chunk of IN that a page takes next. -/
def nextChunk (io : JobIo) (page : Nat) : Nat := page + io.hdr.inPages * mapGet 0 io.refills page

/-- JWAIT: page 0 to 15, or 16 for the aux area. DESIGN CHOICE: DETAIL 3 of IO_BOUND, aux area, which the spec lists and gives no
instruction, is a JWAIT for the aux area of an image that declares none (07 R237; log 179). -/
def opJwait (f : FmtT) : PyOp :=
  let n := f.imm.toNat
  jio [] [] uJIO 1 (fun _ => decide (n ≤ 16)) fun p =>
    if n = 16 then
      (if p.io.hdr.auxMax = 0 then .fault p stIoBound 3 else if p.io.auxIn then .next p else .wait p .aux)
    else if p.io.pages.contains n then .next p else .wait p (.page n)

/-- JREL: the page is refilled with its next chunk, or with zeros at once when there is none (07 R230). -/
def opJrel (f : FmtT) : PyOp :=
  let n := f.imm.toNat
  jio [] [] uJIO 1 (fun _ => decide (n ≤ 15)) fun p =>
    if !p.io.pages.contains n then .next p
    else
      let io := { p.io with refills := mapMod 0 p.io.refills n (· + 1) }
      let size := 2 ^ io.hdr.pageLog
      if nextChunk io n * size < p.b.e.inLen.toNat then .next { p with io := { io with pages := io.pages.filter (· != n) } }
      else
        let (tc, base) := areaBase p.b
        .next { p with io := io
                       d := modCore p.d tc fun k => { k with tile := memClear k.tile (base + io.hdr.inBase + n * size) size } }

/-- JOUT: append the first xb bytes of vv (07 R233, R236). -/
def opJout (f : FmtT) : PyOp :=
  jio [rx f.b, rv f.d] [] uJIO 1 (fun p => decide (1 ≤ (xGet p.r f.b).toNat && (xGet p.r f.b).toNat ≤ 256)) fun p =>
    let n := (xGet p.r f.b).toNat
    if p.io.hdr.outMax < p.io.outDone + p.io.buf.length + n then .fault p stIoBound 1
    else if listWait p then .wait p .outCheck
    else if p.b.outBad.isSome then .halt p stSglInvalid 0
    else if 8192 < p.io.buf.length + n then .wait p .room
    else .next { p with io := { p.io with buf := p.io.buf ++ leBytes n (vReg p.r f.d.toNat).toNat } }

/-! ## Keys (07 R234; 10 R325, R326) -/

/-- The object that a key field resolves to. -/
def portObj (p : Px) (key1 : Bool) : KObj :=
  let h := if key1 then p.b.e.key1 else p.b.e.key0
  if h = blobHandle then p.b.blob.getD {} else (resolveHandle p.d p.b.owner h).getD {}

/-- The fresh strings r1 (`n` = 0) and r2 of a delivery. -/
def portRnd (p : Px) (key1 : Bool) (n : Nat) : Bytes :=
  let l0 := portLen p.d p.b p.b.e.key0
  let l := if key1 then portLen p.d p.b p.b.e.key1 else l0
  drawFrom (p.io.keyCtr + (if key1 then 2 * l0 else 0) + n * l) l

/-- A share of a secret part as the key port delivers it (10 R326). -/
def portShare (p : Px) (key1 : Bool) (i : Nat) : Bytes :=
  let k := portObj p key1
  match p.b.order, i with
  | 0, _ => secretOf k
  | 1, 0 => k.shareA
  | 1, _ => k.shareB
  | 2, 0 => k.shareA
  | _, 0 => xorBytes k.shareA (portRnd p key1 1)
  | _, 1 => xorBytes k.shareB (portRnd p key1 0)
  | _, 2 => portRnd p key1 0
  | _, _ => portRnd p key1 1

/-- JKEY: one line of a share or of the public part. -/
def opJkey (f : FmtT) : PyOp :=
  let sel := f.imm.toNat % 8
  jio [rx f.a] [(rv f.d, 6)] uKP 4 (fun p => decide (f.imm.toNat < 16) && (decide (sel < 4) || sel == 7) && (xGet p.r f.a).toNat % 64 == 0) fun p =>
    let off := (xGet p.r f.a).toNat
    let key1 := f.imm.getLsbD 3
    let part := if sel = 7 then (portObj p key1).pub else portShare p key1 sel
    if (sel != 7 && decide (p.b.order < sel)) || part.length ≤ off then .fault p stIoBound 2
    else .next { p with r := vPut p.r f.d.toNat 1 (leNat (slice part off 256)) }

/-- The extent of a part of the new object, by the last line begun. -/
def newExtent (io : JobIo) (part : Nat) : Nat :=
  io.newKey.foldl (fun m e => if e.1 / 2 ^ 20 = part then max m (e.1 % 2 ^ 20 / 256 * 256 + 1) else m) 0

/-- JKPUT: a line of the new object. Its secret part is two Boolean shares, or one at order 0 (10 R326). Custom programs have no
JKPUT (07 R263). -/
def opJkput (f : FmtT) : PyOp :=
  let sel := f.imm.toNat
  jio [rx f.a, rv f.d] [] uKP 4 (fun p => (sel == 7 || decide (sel < 4)) && !isCustom p.b) fun p =>
    let off := (xGet p.r f.a).toNat
    let io := { p.io with newKey := memWrite p.io.newKey (sel * 2 ^ 20 + off) (leBytes 256 (vReg p.r f.d.toNat).toNat) }
    let ext (s : Nat) : Nat := max (newExtent p.io s) (if sel = s then off + 1 else 0)
    let sec := max (ext 0) (ext 1)
    let need := if sec = 0 then granPub (ext 7) else granPriv sec (ext 7)
    let most := p.b.granRes - (match p.b.blob with | some t => t.gran | none => 0)
    if (sel != 7 && decide (min p.b.order 1 < sel)) || 2 ^ 20 ≤ off + 256 || most < need then .fault p stIoBound 2
    else .next { p with io := io }

/-- The object that JKDONE commits: a KEYGEN's object, whose lengths are free here since the vendor routine fixes them, or the
32-byte secret that a KEEP form stores (12 R367, R368). -/
def newObj (p : Px) (d : Dev) : KObj × Dev :=
  let gen := opOp p.b.e.opcode == 1
  let s := if gen then vendorFig p.b.e 30 else 32
  let n := if gen then vendorFig p.b.e 31 else 0
  let part (i len : Nat) : Bytes := memRead p.io.newKey (i * 2 ^ 20) len
  let sh := if p.b.order = 0 then splitSecret d (part 0 s) else (part 0 s, part 1 s, d)
  ({ type := if gen then opType p.b.e.opcode else 0x8140, policy := pPolicy p.b.e, origin := if gen then 0 else 1, persist := p.b.pkeyRes != 0, shareA := sh.1, shareB := sh.2.1,
     pub := part 7 n, gran := granPriv s n, blocks := if p.b.pkeyRes = 0 then 0 else persistBlocks s n }, sh.2.2)

/-- JKDONE: a volatile object exists at once; a persistent one after its MRAM write, behind the output-list check (07 R236, R257;
02 R82; 03 R104). -/
def opJkdone (f : FmtT) : PyOp :=
  jio [] [(rx f.d, 16)] uKP 16 (fun p => !isCustom p.b) fun p =>
    let done (q : Px) (h : U32) (eff : Byte) : PyEnd :=
      .next { q with r := xSet q.r f.d (h.setWidth 64), io := { q.io with res := h, eff := eff }
                     b := { q.b with effect := eff, result := h } }
    if p.b.committed then done p p.b.result p.b.effect
    else if listWait p then .wait p .outCheck
    else if p.b.outBad.isSome then .halt p stSglInvalid 0
    else if p.b.keep.isSome then .wait p .mram
    else
      let blobG := match p.b.blob with | some t => t.gran | none => 0
      if p.b.pkeyRes = 0 then
        let o := newObj p p.d
        let r := createObj o.2 p.b.owner o.1
        done { p with d := r.2, b := { p.b with granRes := blobG } } r.1 effKeyCreated
      else
        let o := newObj p (needSalts p.d p.b.owner)
        .wait { p with d := jIntent o.2 p.b
                       b := { p.b with keep := some o.1, mramTb := p.d.glob.tb, granRes := o.1.gran + blobG, blkRes := o.1.blocks } } .mram

/-! ## Randomness and results (07 R235, R257, R264) -/

/-- JRND: the whole job random buffer. -/
def opJrnd (f : FmtT) : PyOp :=
  jio [] [(rv f.d, 2)] uJIO 1 (fun _ => true) fun p =>
    .next { p with r := vPut p.r f.d.toNat 1 (leNat (fit 128 p.io.rnd)) }

/-- JSET: RESULT, STATUS with DETAIL, or ATTEMPTS; a custom program may set only STATUS 0x0000 and 0x0200 to 0x02FF. -/
def opJset (f : FmtT) : PyOp :=
  let n := f.imm.toNat
  let stOkFor (p : Px) : Bool :=
    let st := (xGet p.r f.a).toNat % 65536
    !isCustom p.b || st == 0 || st / 256 == 2
  jio [rx f.a] [] uJIO 1 (fun p => decide (n ≤ 2) && (n != 1 || stOkFor p)) fun p =>
    let v := xGet p.r f.a
    let io := match n with
      | 0 => { p.io with res := v.setWidth 32 }
      | 1 => { p.io with jset := some (v.setWidth 16, (v >>> 16).setWidth 16) }
      | _ => { p.io with att := v.setWidth 8 }
    .next { p with io := io }

/-! ## Fills, drains and the program's start -/

/-- The job I/O of the job on a core. -/
def coreJobIo (d : Dev) (c : Nat) : Option (Job × JobIo) :=
  if 16 ≤ c then none
  else
    match cellJob d c with
    | some b => if b.coreSaved then none else some (b, mapGet {} d.io b.id)
    | none => none

/-- The jobs whose areas lie in a core's tile, the running one first: a saved job keeps its partitions, and the DMA block goes on filling
them (09 R307). -/
def fillJobs (d : Dev) (c : Nat) : List (Job × JobIo) :=
  if 16 ≤ c then []
  else (coreJobIo d c).toList ++ (d.jobs.live.filter fun b => b.phase == .saved && !b.cluster && b.eng == some c).map fun b =>
    (b, mapGet {} d.io b.id)

/-- Whether a page of a job may take its next chunk: it has been released, the chunk has arrived, and the first chunks come in page order
(07 R230). -/
def fillDue (b : Job) (io : JobIo) (page : Nat) : Bool :=
  decide (page < io.hdr.inPages) && !io.pages.contains page
    && decide (min b.e.inLen.toNat ((nextChunk io page + 1) * 2 ^ io.hdr.pageLog) ≤ b.inData.length)
    && (mapGet 0 io.refills page != 0 || (List.range page).all fun p => io.pages.contains p || mapGet 0 io.refills p != 0)

/-- INPUT_PAGE_FILLED: a page takes its chunk of IN, zeros beyond IN_LEN, and is present (07 R230). -/
def inputPageFilledGo (c page : Nat) (d : Dev) : Dev :=
  match (fillJobs d c).find? fun x => fillDue x.1 x.2 page with
  | none => d
  | some (b, io) =>
    let size := 2 ^ io.hdr.pageLog
    let lo := nextChunk io page * size
    let (tc, base) := areaBase b
    let at0 := base + io.hdr.inBase + page * size
    modCore { d with io := mapSet {} d.io b.id { io with pages := io.pages ++ [page] } } tc fun k =>
      { k with tile := memFill k.tile at0 (fit size ((b.inData.drop lo).take size)) }
def execInputPageFilled (c page : Nat) (s : State) : Out3 := onDev s (inputPageFilledGo c page)

/-- AUX_FILL_DONE: the aux area holds AUX (07 R232). -/
def auxFillDoneGo (c : Nat) (d : Dev) : Dev :=
  match (fillJobs d c).find? fun x => !x.2.auxIn && x.1.auxData.length == x.1.e.auxLen.toNat with
  | none => d
  | some (b, io) =>
    let (tc, base) := areaBase b
    modCore { d with io := mapSet {} d.io b.id { io with auxIn := true } } tc fun k =>
      { k with tile := memWrite k.tile (base + io.hdr.auxBase) (ownAux b) }
def execAuxFillDone (c : Nat) (s : State) : Out3 := onDev s (auxFillDoneGo c)

/-- OUTPUT_BUFFER_ROOM: the DMA block drains the output buffer in ascending order, once the output list has been checked
(02 R41, R43; 07 R233). -/
def outputBufferRoomGo (c : Nat) (d : Dev) : Dev :=
  match (fillJobs d c).find? fun x => !x.2.buf.isEmpty && x.1.outBad.isNone && (!outSgl x.1.e || x.1.outOk) with
  | none => d
  | some (b, io) =>
    let n := io.outDone + io.buf.length
    let d1 := writeOut { d with io := mapSet {} d.io b.id { io with outDone := n, buf := [] } } b io.outDone io.buf
    modJob d1 b.id fun x => { x with outLen := n }
def execOutputBufferRoom (c : Nat) (s : State) : Out3 := onDev s (outputBufferRoomGo c)

/-- CUSTOM_RUN: the program of a placed class 0xD job starts at its entry (07 R215, R262). -/
def customRunGo (j : Nat) (d : Dev) : Dev :=
  match findJob d j with
  | none => d
  | some b =>
    if !isCustom b || b.phase != .placed || !(ctxCells b).all (cellRuns d) then d
    else
      let d := (ctxCells b).foldl stepTaken d
      match b.abort with
      | some st => failJob d b st 0
      | none =>
        if late d b.e then failJob d b stDeadline 0
        else { d with io := mapMod {} d.io b.id fun io => { io with started := true } }
def execCustomRun (j : Nat) (s : State) : Out3 := onDev s (customRunGo j)

/-- YIELD_TIMEOUT: the watchdog of a sequencer ends its job; it stands still while the sequencer is halted, and a job that waits
counts nothing (07 R236, 08 R284, 09 R302). -/
def yieldTimeoutGo (c : Nat) (d : Dev) : Dev :=
  if 32 ≤ c || (cellSeq c).isNone || cellHalted d c then d
  else
    match cellJob d c with
    | none => d
    | some b =>
      if b.phase != .placed || (mapGet none (mapGet {} d.io b.id).wait c).isSome then d
      else failOn d b c stYieldTimeout 0
def execYieldTimeout (c : Nat) (s : State) : Out3 := onDev s (yieldTimeoutGo c)

/-! ## The instructions -/

/-- JWAIT (07 R257). -/
def execJwait (p : PyAt) (f : FmtT) (s : State) : Out3 := onDev s (pyRun p (encT 0x70 0 f) (opJwait f))
/-- JREL (07 R257). -/
def execJrel (p : PyAt) (f : FmtT) (s : State) : Out3 := onDev s (pyRun p (encT 0x70 1 f) (opJrel f))
/-- JOUT (07 R257). -/
def execJout (p : PyAt) (f : FmtT) (s : State) : Out3 := onDev s (pyRun p (encT 0x70 2 f) (opJout f))
/-- JKEY (07 R257). -/
def execJkey (p : PyAt) (f : FmtT) (s : State) : Out3 := onDev s (pyRun p (encT 0x70 3 f) (opJkey f))
/-- JKPUT (07 R257). -/
def execJkput (p : PyAt) (f : FmtT) (s : State) : Out3 := onDev s (pyRun p (encT 0x70 4 f) (opJkput f))
/-- JKDONE (07 R257). -/
def execJkdone (p : PyAt) (f : FmtT) (s : State) : Out3 := onDev s (pyRun p (encT 0x70 5 f) (opJkdone f))
/-- JRND (07 R257). -/
def execJrnd (p : PyAt) (f : FmtT) (s : State) : Out3 := onDev s (pyRun p (encT 0x70 6 f) (opJrnd f))
/-- JSET (07 R257). -/
def execJset (p : PyAt) (f : FmtT) (s : State) : Out3 := onDev s (pyRun p (encT 0x70 7 f) (opJset f))

end Sys2Proof.Machine
end

