-- ==== Sys2Proof/Machine/PyMod.lean ====
section
/-!
DEFINITION. Modular lanes, permutes, binary-field and carry-less instructions (07 R218, R250-R252).
-/
namespace Sys2Proof.Machine

/-! ## Modular lanes (07 R218, R250) -/

def qOf (r : PyRegs) : Nat := r.qmod.toNat
/-- SEW 16 with q below 2^15, or SEW 32; q odd and at least 3 (07 R218). -/
def vmOk (r : PyRegs) : Bool :=
  r.qmod.getLsbD 0 && decide (3 ≤ qOf r) && (sewOf r == 32 || (sewOf r == 16 && decide (qOf r < 2 ^ 15)))

/-- a times 2^−n modulo an odd q. -/
def montDiv (q : Nat) : Nat → Nat → Nat
  | 0, a => a % q
  | n + 1, a => montDiv q n ((if a % 2 = 0 then a else a + q) / 2)
/-- a × b × 2^−SEW mod q. -/
def montMul (r : PyRegs) (a b : Nat) : Nat := montDiv (qOf r) (sewOf r) (a * b)
/-- a − b mod q. -/
def qSub (q a b : Nat) : Nat := (a + (q - b % q)) % q

/-- A modular operation on a and b. -/
def vmA (lat unit : Nat) (op : PyRegs → Nat → Nat → Nat → Nat) (f : FmtA) (acc : Bool := false) : PyOp :=
  vecA lat unit 1 (fun p => op p.r) f acc vmOk true
/-- A modular operation on a. -/
def vmU (lat unit : Nat) (op : PyRegs → Nat → Nat) (f : FmtA) : PyOp := vecU lat unit 1 (fun p => op p.r) f vmOk true

/-- A butterfly's two results from a, b and its twiddle c: Cooley–Tukey or Gentleman–Sande (07 R250). -/
def bflyCt (r : PyRegs) (a b c : Nat) : Nat × Nat := let t := montMul r c b; ((a + t) % qOf r, qSub (qOf r) a t)
def bflyGs (r : PyRegs) (a b c : Nat) : Nat × Nat := ((a + b) % qOf r, montMul r (qSub (qOf r) a b) c)

/-- Write vd and vd+1 of a butterfly, with G = 1. -/
def bflyWrite (r : PyRegs) (d : BitVec 5) (f : Nat → Nat × Nat) : PyRegs :=
  vWrite (vWrite r none d fun i => (f i).1) none (d + 1) fun i => (f i).2
/-- Butterflies take G = 1 and an even D. -/
def bflyOk (r : PyRegs) (d : BitVec 5) : Bool := grpOf r == 1 && d.toNat % 2 == 0 && vmOk r

/-- A butterfly with its twiddles in a register. -/
def bflyQ (op : PyRegs → Nat → Nat → Nat → Nat × Nat) (f : FmtQ) : PyOp :=
  { use := fun p =>
      { reads := [rv f.a, rv f.b, rv f.c], writes := [(rv f.d, 6), (rv f.d + 1, 6)], units := [(uVX, 1)], q := true, vec := true
        legal := bflyOk p.r f.d && f.x == 0 }
    body := fun p => .next { p with r := bflyWrite p.r f.d fun i => op p.r (vEl p.r f.a i) (vEl p.r f.b i) (vEl p.r f.c i) } }

/-- Address of the twiddle line: `TWBASE.LINE` + IMM7. -/
def twAddr (p : Px) (f : FmtT) : Nat := (p.r.twbase.toNat + f.imm.toNat) * 256

/-- A butterfly with its twiddles from a tile line, read through the load port in the issue cycle. -/
def bflyT (op : PyRegs → Nat → Nat → Nat → Nat × Nat) (f : FmtT) : PyOp :=
  { use := fun p =>
      { reads := [rv f.a, rv f.b], writes := [(rv f.d, 6), (rv f.d + 1, 6)], units := [(uVX, 1), (uLP, 1)]
        lines := lineUse p (twAddr p f) 1 false, q := true, vec := true, legal := bflyOk p.r f.d }
    body := fun p =>
      let w := sewOf p.r / 8
      let tw (i : Nat) : Nat := tileRead p (twAddr p f + i * w) w i % 2 ^ sewOf p.r
      let res (i : Nat) : Nat × Nat := op p.r (vEl p.r f.a i) (vEl p.r f.b i) (tw i)
      match firstStop p none (twAddr p f) false with
      | some (k, s) =>
        stopEnd (freeUse { p with r := vPartial (vPartial p.r none f.d k fun i => (res i).1) none (f.d + 1) k fun i => (res i).2 } 2048) k s
      | none => .next (freeUse { p with r := bflyWrite p.r f.d res } 2048) }

/-! ## Permutes (07 R251) -/

/-- A permute in format T: d[i] ← op(a, b) at i, one destination group. -/
def permT (lat : Nat) (useB : Bool) (op : Px → (Nat → Nat) → (Nat → Nat) → Nat → Nat) (f : FmtT) : PyOp :=
  { use := fun p =>
      let n := grpOf p.r
      { reads := rvs f.a n ++ (if useB then rvs f.b n else []), writes := (rvs f.d n).map fun x => (x, lat), units := [(uVA, n)]
        vec := true, legal := aligned f.d n && aligned f.a n && (!useB || aligned f.b n) }
    body := fun p => .next { p with r := vWrite p.r none f.d (op p (vEl p.r f.a) (vEl p.r f.b)) } }

/-- Size of the blocks of a zip: 2^IMM7 elements, at most VLMAX. -/
def zipBlk (r : PyRegs) (f : FmtT) : Nat := min (2 ^ f.imm.toNat) (vlmaxOf r)
/-- Element `j` of the interleaving of two groups. -/
def zipEl (blk : Nat) (a b : Nat → Nat) (j : Nat) : Nat :=
  let k := j / blk / 2 * blk + j % blk
  if j / blk % 2 = 0 then a k else b k
/-- Element `j` of the even (`odd` = 0) or odd blocks of two groups put together. -/
def unzipEl (n blk odd : Nat) (a b : Nat → Nat) (j : Nat) : Nat :=
  let k := (2 * (j / blk) + odd) * blk + j % blk
  if k < n then a k else b (k - n)

/-- A permute that writes the group at D and the one after it. -/
def permPair (res : Nat → Nat → (Nat → Nat) → (Nat → Nat) → Nat → Nat × Nat) (f : FmtT) : PyOp :=
  { use := fun p =>
      let n := grpOf p.r
      { reads := rvs f.a n ++ rvs f.b n, writes := (rvs f.d (2 * n)).map fun x => (x, 3), units := [(uVA, 2 * n)], vec := true
        legal := aligned f.d n && aligned f.a n && aligned f.b n && decide (f.d.toNat + 2 * n ≤ 32) }
    body := fun p =>
      let n := vlmaxOf p.r
      let out (i : Nat) : Nat × Nat := res n (zipBlk p.r f) (vEl p.r f.a) (vEl p.r f.b) i
      let d2 := f.d + BitVec.ofNat 5 (grpOf p.r)
      .next { p with r := vWrite (vWrite p.r none f.d fun i => (out i).1) none d2 fun i => (out i).2 } }

/-- The slide of VSLUP and VSLDN: xb when B names a register other than x0, else IMM7 (07 R251; log 49). -/
def slideBy (r : PyRegs) (f : FmtT) : Nat := if f.b = 0 then f.imm.toNat else (xGet r f.b).toNat

/-- VSLUP and VSLDN. -/
def slide (op : Px → Nat → Nat → Nat) (f : FmtT) : PyOp :=
  { use := fun p =>
      let n := grpOf p.r
      { reads := rx f.b :: rvs f.a n, writes := (rvs f.d n).map fun x => (x, 3), units := [(uVA, n)], vec := true
        legal := aligned f.d n && aligned f.a n }
    body := fun p => .next { p with r := vWrite p.r none f.d (op p (slideBy p.r f)) } }

/-- The low `n` bits of `i` in reverse. -/
def bitRev (n i : Nat) : Nat := (List.range n).foldl (fun acc k => acc + (i >>> k % 2) <<< (n - 1 - k)) 0

/-- VCOMPR: the active elements of a packed to the front of d; M must be 1. The elements after them, below VL, count as inactive
(log 49). -/
def packFront (r : PyRegs) (d : BitVec 5) (vals : List Nat) : PyRegs :=
  let n := vals.length
  vPut r d.toNat (grpOf r) (elPack (sewOf r) ((List.range (vlmaxOf r)).map fun i =>
    if i < n then vals.getD i 0
    else if i < r.vl.toNat then (if winEnd r && r.vtype.getLsbD 5 then 0 else vEl r d i)
    else if winEnd r && r.vtype.getLsbD 4 then 0 else vEl r d i))
def opVcompr (f : FmtA) : PyOp :=
  { use := fun p =>
      let n := grpOf p.r
      { reads := rvs f.a n ++ mReads f.m f.k, writes := (rvs f.d n).map fun x => (x, 4), units := [(uVA, n)], vec := true
        legal := f.m && aligned f.d n && aligned f.a n && decide (f.x.toNat ≤ 2) && maskOk p.r f.m }
    body := fun p => .next { p with r := packFront p.r f.d ((activeEls p.r (maskOf f.m f.k)).map (vEl p.r f.a)) } }

/-! ## Carry-less and binary-field instructions (07 R252) -/

/-- Carry-less product of `a` and the low `n` bits of `b`. -/
def clmul (n a b : Nat) : Nat := (List.range n).foldl (fun acc i => if b.testBit i then acc ^^^ (a <<< i) else acc) 0
/-- The remainder of a polynomial of at most `n` + deg bits. -/
def polyMod (poly : Nat) : Nat → Nat → Nat
  | 0, v => v
  | n + 1, v => polyMod poly n (if v.testBit (n + polyDeg poly) then v ^^^ (poly <<< n) else v)
/-- Multiplication in GF(2)[x] / POLY. -/
def gfMul (poly a b : Nat) : Nat := polyMod poly 32 (clmul 16 a b)

/-- Extended Euclid over GF(2)[x]: keeps g = s × a modulo POLY. Fuel bounds the shifts. -/
def gfEuclid : Nat → Nat → Nat → Nat → Nat → Nat × Nat
  | 0, g, s, _, _ => (g, s)
  | n + 1, g, s, h, t =>
    if h = 0 then (g, s)
    else if polyDeg g < polyDeg h || g = 0 then gfEuclid n h t g s
    else
      let k := polyDeg g - polyDeg h
      gfEuclid n (g ^^^ (h <<< k)) (s ^^^ (t <<< k)) h t
/-- The inverse of `a`; 0 gives 0; of an element that has none, with a POLY that is not irreducible, the value is free. -/
def gfInv (poly free a : Nat) : Nat :=
  let v := polyMod poly 32 a
  if v = 0 then 0
  else
    let r := gfEuclid 128 poly 0 v 1
    if r.1 = 1 then polyMod poly 64 r.2 else free % 2 ^ 16

/-- SEW 16 and a degree from 2 to 16 (07 R218, R252). -/
def vgOk (r : PyRegs) : Bool := sewOf r == 16 && decide (2 ≤ polyDeg r.gfpoly.toNat && polyDeg r.gfpoly.toNat ≤ 16)
def vgA (lat : Nat) (op : Nat → Nat → Nat → Nat → Nat) (f : FmtA) (acc : Bool := false) : PyOp :=
  vecA lat uVX 1 (fun p => op p.r.gfpoly.toNat) f acc vgOk false true
/-- VGINV. -/
def opVginv (f : FmtA) : PyOp :=
  let o := vecU 12 uVX 4 (fun p => gfInv p.r.gfpoly.toNat (freeAt p 0)) f vgOk false true
  { o with body := fun p => match o.body p with | .next q => .next (freeUse q 1) | e => e }

/-- VGXP: the transpose of a 64 × 64 bit matrix, SEW 64 and G 2 only. -/
def opVgxp (f : FmtA) : PyOp :=
  let o := vecU 6 uVX 1 (fun _ a => a) f (fun r => sewOf r == 64 && grpOf r == 2)
  { o with body := fun p =>
      .next { p with r := vWrite p.r (maskOf f.m f.k) f.d fun i =>
        (List.range 64).foldl (fun acc j => acc + (vEl p.r f.a j >>> i % 2) <<< j) 0 } }

/-! ## The instructions -/

def opVmadd (f : FmtA) : PyOp := vmA 2 uVA (fun r a b _ => (a + b) % qOf r) f
/-- VMADD (07 R250). -/
def execVmadd (p : PyAt) (f : FmtA) (s : State) : Out3 := onDev s (pyRun p (encA 0x30 0 f) (opVmadd f))
def opVmsub (f : FmtA) : PyOp := vmA 2 uVA (fun r a b _ => qSub (qOf r) a b) f
/-- VMSUB (07 R250). -/
def execVmsub (p : PyAt) (f : FmtA) (s : State) : Out3 := onDev s (pyRun p (encA 0x30 1 f) (opVmsub f))
def opVmneg (f : FmtA) : PyOp := vmU 2 uVA (fun r a => qSub (qOf r) 0 a) f
/-- VMNEG (07 R250). -/
def execVmneg (p : PyAt) (f : FmtA) (s : State) : Out3 := onDev s (pyRun p (encA 0x30 2 f) (opVmneg f))
def opVmmul (f : FmtA) : PyOp := vmA 4 uVX (fun r a b _ => montMul r a b) f
/-- VMMUL (07 R250). -/
def execVmmul (p : PyAt) (f : FmtA) (s : State) : Out3 := onDev s (pyRun p (encA 0x30 3 f) (opVmmul f))
def opVmred (f : FmtA) : PyOp := vmU 2 uVA (fun r a => a % qOf r) f
/-- VMRED (07 R250). -/
def execVmred (p : PyAt) (f : FmtA) (s : State) : Out3 := onDev s (pyRun p (encA 0x30 4 f) (opVmred f))
def opVmtom (f : FmtA) : PyOp := vmU 4 uVX (fun r a => a * 2 ^ sewOf r % qOf r) f
/-- VMTOM (07 R250). -/
def execVmtom (p : PyAt) (f : FmtA) (s : State) : Out3 := onDev s (pyRun p (encA 0x30 5 f) (opVmtom f))
def opVmfromm (f : FmtA) : PyOp := vmU 4 uVX (fun r a => montMul r a 1) f
/-- VMFROMM (07 R250). -/
def execVmfromm (p : PyAt) (f : FmtA) (s : State) : Out3 := onDev s (pyRun p (encA 0x30 6 f) (opVmfromm f))
def opVmmac (f : FmtA) : PyOp := vmA 4 uVX (fun r a b d => (d + montMul r a b) % qOf r) f true
/-- VMMAC (07 R250). -/
def execVmmac (p : PyAt) (f : FmtA) (s : State) : Out3 := onDev s (pyRun p (encA 0x30 7 f) (opVmmac f))
def opVmbf : FmtQ → PyOp := bflyQ bflyCt
/-- VMBF (07 R250). -/
def execVmbf (p : PyAt) (f : FmtQ) (s : State) : Out3 := onDev s (pyRun p (encQ 0x31 0 f) (opVmbf f))
def opVmbfi : FmtQ → PyOp := bflyQ bflyGs
/-- VMBFI (07 R250). -/
def execVmbfi (p : PyAt) (f : FmtQ) (s : State) : Out3 := onDev s (pyRun p (encQ 0x31 1 f) (opVmbfi f))
def opVmbft : FmtT → PyOp := bflyT bflyCt
/-- VMBFT (07 R250). -/
def execVmbft (p : PyAt) (f : FmtT) (s : State) : Out3 := onDev s (pyRun p (encT 0x31 2 f) (opVmbft f))
def opVmbfti : FmtT → PyOp := bflyT bflyGs
/-- VMBFTI (07 R250). -/
def execVmbfti (p : PyAt) (f : FmtT) (s : State) : Out3 := onDev s (pyRun p (encT 0x31 3 f) (opVmbfti f))
def opVzip : FmtT → PyOp := permPair (fun n blk a b i => (zipEl blk a b i, zipEl blk a b (n + i)))
/-- VZIP (07 R251). -/
def execVzip (p : PyAt) (f : FmtT) (s : State) : Out3 := onDev s (pyRun p (encT 0x40 0 f) (opVzip f))
def opVunzip : FmtT → PyOp := permPair (fun n blk a b i => (unzipEl n blk 0 a b i, unzipEl n blk 1 a b i))
/-- VUNZIP (07 R251). -/
def execVunzip (p : PyAt) (f : FmtT) (s : State) : Out3 := onDev s (pyRun p (encT 0x40 1 f) (opVunzip f))
def opVslup (f : FmtT) : PyOp := slide (fun p k i => if i < k then vEl p.r f.d i else vEl p.r f.a (i - k)) f
/-- VSLUP (07 R251). -/
def execVslup (p : PyAt) (f : FmtT) (s : State) : Out3 := onDev s (pyRun p (encT 0x40 2 f) (opVslup f))
def opVsldn (f : FmtT) : PyOp := slide (fun p k i => if i + k < vlmaxOf p.r then vEl p.r f.a (i + k) else 0) f
/-- VSLDN (07 R251). -/
def execVsldn (p : PyAt) (f : FmtT) (s : State) : Out3 := onDev s (pyRun p (encT 0x40 3 f) (opVsldn f))
def opVperm : FmtT → PyOp := permT 4 true (fun p a b i => a (b i % vlmaxOf p.r))
/-- VPERM (07 R251). -/
def execVperm (p : PyAt) (f : FmtT) (s : State) : Out3 := onDev s (pyRun p (encT 0x40 4 f) (opVperm f))
def opVrev : FmtT → PyOp := permT 3 false (fun p a _ i => a (p.r.vl.toNat - 1 - i))
/-- VREV (07 R251). -/
def execVrev (p : PyAt) (f : FmtT) (s : State) : Out3 := onDev s (pyRun p (encT 0x40 5 f) (opVrev f))
/-- VCOMPR (07 R251). -/
def execVcompr (p : PyAt) (f : FmtA) (s : State) : Out3 := onDev s (pyRun p (encA 0x40 6 f) (opVcompr f))
def opVbrev : FmtT → PyOp := permT 3 false (fun p a _ i => a (bitRev (Nat.log2 (vlmaxOf p.r)) i))
/-- VBREV (07 R251). -/
def execVbrev (p : PyAt) (f : FmtT) (s : State) : Out3 := onDev s (pyRun p (encT 0x40 7 f) (opVbrev f))
def opVclmul (f : FmtA) : PyOp := vecA 4 uVX 1 (fun _ a b _ => clmul 64 a b) f false (fun r => sewOf r == 64)
/-- VCLMUL (07 R252). -/
def execVclmul (p : PyAt) (f : FmtA) (s : State) : Out3 := onDev s (pyRun p (encA 0x48 0 f) (opVclmul f))
def opVclmulh (f : FmtA) : PyOp := vecA 4 uVX 1 (fun _ a b _ => clmul 64 a b >>> 64) f false (fun r => sewOf r == 64)
/-- VCLMULH (07 R252). -/
def execVclmulh (p : PyAt) (f : FmtA) (s : State) : Out3 := onDev s (pyRun p (encA 0x48 1 f) (opVclmulh f))
def opVgmul (f : FmtA) : PyOp := vgA 4 (fun poly a b _ => gfMul poly a b) f
/-- VGMUL (07 R252). -/
def execVgmul (p : PyAt) (f : FmtA) (s : State) : Out3 := onDev s (pyRun p (encA 0x48 2 f) (opVgmul f))
def opVgsqr (f : FmtA) : PyOp := vecU 3 uVX 1 (fun p a => gfMul p.r.gfpoly.toNat a a) f vgOk false true
/-- VGSQR (07 R252). -/
def execVgsqr (p : PyAt) (f : FmtA) (s : State) : Out3 := onDev s (pyRun p (encA 0x48 3 f) (opVgsqr f))
/-- VGINV (07 R252). -/
def execVginv (p : PyAt) (f : FmtA) (s : State) : Out3 := onDev s (pyRun p (encA 0x48 4 f) (opVginv f))
def opVgmac (f : FmtA) : PyOp := vgA 4 (fun poly a b d => polyMod poly 32 (d ^^^ clmul 16 a b)) f true
/-- VGMAC (07 R252). -/
def execVgmac (p : PyAt) (f : FmtA) (s : State) : Out3 := onDev s (pyRun p (encA 0x48 5 f) (opVgmac f))
/-- VGXP (07 R252). -/
def execVgxp (p : PyAt) (f : FmtA) (s : State) : Out3 := onDev s (pyRun p (encA 0x48 6 f) (opVgxp f))

end Sys2Proof.Machine
end

