-- ==== Sys2Proof/Machine/PySample.lean ====
section
/-!
DEFINITION. Sampling and packing instructions: the encodings and samplers of FIPS 203 and FIPS 204 on SEW-bit elements, with
results modulo q in [0, q) (07 R254; log 52).
-/
namespace Sys2Proof.Machine

/-- A format T instruction that takes whole groups a and b as bits and writes d, within limits on IMM7. -/
def sampT (lat : Nat) (useB q : Bool) (ok : Nat → Bool) (op : Px → Nat → (Nat → Nat) → (Nat → Nat) → Nat → Nat) (f : FmtT) : PyOp :=
  { use := fun p =>
      let n := grpOf p.r
      { reads := rvs f.a n ++ (if useB then rvs f.b n else []), writes := (rvs f.d n).map fun x => (x, lat), units := [(uVA, n)]
        q := q, vec := true, legal := aligned f.d n && aligned f.a n && (!useB || aligned f.b n) && ok f.imm.toNat }
    body := fun p =>
      .next (freeUse { p with r := vWrite p.r none f.d (op p f.imm.toNat (vEl p.r f.a) (vEl p.r f.b)) } 2048) }

/-- A format T or A instruction that writes the group at D and the one after it. -/
def sampPair (lat : Nat) (a d : BitVec 5) (ok : Bool) (msk : Option Nat) (res : Px → Nat → Nat × Nat) : PyOp :=
  { use := fun p =>
      let n := grpOf p.r
      { reads := rvs a n ++ (match msk with | some k => [rm k] | none => []), writes := (rvs d (2 * n)).map fun x => (x, lat)
        units := [(uVA, n)], q := true, vec := true
        legal := aligned d n && aligned a n && decide (d.toNat + 2 * n ≤ 32) && ok && maskOk p.r msk.isSome }
    body := fun p =>
      let d2 := d + BitVec.ofNat 5 (grpOf p.r)
      .next (freeUse { p with r := vWrite (vWrite p.r msk d fun i => (res p i).1) msk d2 fun i => (res p i).2 } 2048) }

/-! ## Packing -/

/-- Bits `lo` up, `n` of them, of a group's bits. -/
def bitsAt (v lo n : Nat) : Nat := (v >>> lo) % 2 ^ n
/-- The low bits of the elements below VL as one little-endian string. -/
def packBits (n : Nat) (l : List Nat) : Nat := l.foldr (fun e acc => e % 2 ^ n + acc <<< n) 0

/-- VPACK: the string takes the place of the elements processed; the bits of the group after it follow the tail policy (log 52). -/
def opVpack (f : FmtT) : PyOp :=
  { use := fun p =>
      let n := grpOf p.r
      { reads := rvs f.a n, writes := (rvs f.d n).map fun x => (x, 3), units := [(uVA, n)], vec := true
        legal := aligned f.d n && aligned f.a n && decide (1 ≤ f.imm.toNat && f.imm.toNat ≤ 32) }
    body := fun p =>
      let n := f.imm.toNat
      let lo := n * p.r.vresume.toNat
      let hi := n * min p.r.vl.toNat (vlmaxOf p.r)
      let old := vGet p.r f.d.toNat (grpOf p.r)
      let new := packBits n ((List.range (min p.r.vl.toNat (vlmaxOf p.r))).map (vEl p.r f.a))
      let top := max lo hi
      let tail := if p.r.vtype.getLsbD 4 then 0 else old >>> top
      let v := old % 2 ^ lo + (if hi ≤ lo then 0 else (new >>> lo) <<< lo) + tail <<< top
      .next { p with r := vPut p.r f.d.toNat (grpOf p.r) v } }

/-- VUNPK: the inverse, zero-extended. -/
def vunpkEl (p : Px) (n : Nat) (a : BitVec 5) (i : Nat) : Nat := bitsAt (vGet p.r a.toNat (grpOf p.r)) (n * i) n
def opVunpk (f : FmtT) : PyOp :=
  { use := (opVpack f).use
    body := fun p => .next { p with r := vWrite p.r none f.d (vunpkEl p f.imm.toNat f.a) } }

/-! ## Samplers -/

/-- A value modulo q in [0, q); with q = 0 there is none, and the value is free. -/
def modQ (p : Px) (i : Nat) (v : Int) : Nat := if qOf p.r = 0 then freeAt p i else (v % (qOf p.r : Int)).toNat

/-- VCBD: element i takes 2η bits of the string; x − y of its halves' weights (FIPS 203 SamplePolyCBD). -/
def vcbdEl (p : Px) (eta : Nat) (a : BitVec 5) (i : Nat) : Nat :=
  let v := bitsAt (vGet p.r a.toNat (grpOf p.r)) (2 * eta * i) (2 * eta)
  modQ p i ((popc eta (v % 2 ^ eta) : Int) - popc eta (v >>> eta))

/-- The candidates of VREJ: 12 bits each, or the low 23 of 24 bits (FIPS 203 SampleNTT, FIPS 204 RejNTTPoly). -/
def rejCand (v x i : Nat) : Nat := if x = 0 then bitsAt v (12 * i) 12 else bitsAt v (24 * i) 23

/-- VREJ: one candidate for each element processed; those below q go to the front of d, and xb counts them. -/
def opVrej (f : FmtA) : PyOp :=
  { use := fun p =>
      let n := grpOf p.r
      { reads := rvs f.a n ++ mReads f.m f.k, writes := (rx f.b, 4) :: (rvs f.d n).map fun x => (x, 4), units := [(uVA, n)]
        q := true, vec := true
        legal := decide (f.x.toNat ≤ 1) && aligned f.d n && aligned f.a n && maskOk p.r f.m }
    body := fun p =>
      let v := vGet p.r f.a.toNat (grpOf p.r)
      let ok := ((activeEls p.r (maskOf f.m f.k)).map (rejCand v f.x.toNat)).filter (· < qOf p.r)
      .next { p with r := xSet (packFront p.r f.d ok) f.b (BitVec.ofNat 64 ok.length) } }

/-! ## Compression and rounding (FIPS 203 4.2.1, FIPS 204 7.4) -/

/-- Compress_d: ⌈(2^d / q) × x⌋ mod 2^d. -/
def vcompdEl (p : Px) (n i a : Nat) : Nat :=
  let q := qOf p.r
  if q = 0 then freeAt p i else (2 ^ (n + 1) * (a % q) + q) / (2 * q) % 2 ^ n
/-- Decompress_d: ⌈(q / 2^d) × y⌋. -/
def vdecdEl (p : Px) (n a : Nat) : Nat := (2 * qOf p.r * (a % 2 ^ n) + 2 ^ n) / 2 ^ (n + 1)

/-- The representative of r modulo an even α in (−α/2, α/2]. -/
def centred (r alpha : Int) : Int := let m := r % alpha; if alpha < 2 * m then m - alpha else m

/-- Power2Round: t1, and t0 modulo q. -/
def p2rEl (p : Px) (i a : Nat) : Nat × Nat :=
  let r := modQ p i a
  let t0 := centred r (2 ^ 13)
  ((((r : Int) - t0) / 2 ^ 13).toNat, modQ p i t0)

/-- γ2 of IMM7. -/
def gamma2 (q imm : Nat) : Nat := (q - 1) / (if imm = 0 then 88 else 32)

/-- Decompose: r1 and r0; without a usable q the values are free. -/
def decomp (p : Px) (imm i a : Nat) : Nat × Int :=
  let q := qOf p.r
  let g := gamma2 q imm
  if g = 0 then (freeAt p i, freeAt p i)
  else
    let r : Int := (a % q : Nat)
    let r0 := centred r (2 * g)
    if r - r0 = q - 1 then (0, r0 - 1) else (((r - r0) / (2 * g)).toNat, r0)
def decompEl (p : Px) (imm i a : Nat) : Nat × Nat := let r := decomp p imm i a; (r.1, modQ p i r.2)
/-- HighBits. -/
def highBits (p : Px) (imm i a : Nat) : Nat := (decomp p imm i a).1

/-- MakeHint(z, r): 1 when adding z changes the high bits of r. -/
def makeHint (p : Px) (imm i z r : Nat) : Nat := if highBits p imm i r = highBits p imm i (r + z) then 0 else 1
/-- UseHint(h, r). -/
def useHint (p : Px) (imm i h r : Nat) : Nat :=
  let q := qOf p.r
  let g := gamma2 q imm
  if g = 0 then freeAt p i
  else
    let m := (q - 1) / (2 * g)
    let x := decomp p imm i r
    if h % 2 = 0 then x.1 else if 0 < x.2 then (x.1 + 1) % m else (x.1 + m - 1) % m

/-- VCHKN: m[d][i] ← |a[i] centred mod q| ≥ xb. -/
def opVchkn (f : FmtA) : PyOp :=
  { use := fun p =>
      let n := grpOf p.r
      { reads := rx f.b :: rvs f.a n ++ mReads f.m f.k, writes := [(rm f.d.toNat, 3)], units := [(uVA, n)], q := true, vec := true
        legal := decide (f.d.toNat < 8) && aligned f.a n && decide (f.x.toNat ≤ 2) && maskOk p.r f.m }
    body := fun p =>
      let norm (i : Nat) : Nat :=
        if qOf p.r = 0 then freeAt p i
        else let r := vEl p.r f.a i % qOf p.r; min r (qOf p.r - r)
      .next (freeUse { p with r := mWrite p.r (maskOf f.m f.k) f.d.toNat fun i => decide ((xGet p.r f.b).toNat ≤ norm i) } 256) }

/-! ## The instructions -/

/-- VPACK (07 R254). -/
def execVpack (p : PyAt) (f : FmtT) (s : State) : Out3 := onDev s (pyRun p (encT 0x58 0 f) (opVpack f))
/-- VUNPK (07 R254). -/
def execVunpk (p : PyAt) (f : FmtT) (s : State) : Out3 := onDev s (pyRun p (encT 0x58 1 f) (opVunpk f))
def opVcbd (f : FmtT) : PyOp := sampT 3 false true (fun n => n == 2 || n == 3) (fun p n _ _ i => vcbdEl p n f.a i) f
/-- VCBD (07 R254). -/
def execVcbd (p : PyAt) (f : FmtT) (s : State) : Out3 := onDev s (pyRun p (encT 0x58 2 f) (opVcbd f))
/-- VREJ (07 R254). -/
def execVrej (p : PyAt) (f : FmtA) (s : State) : Out3 := onDev s (pyRun p (encA 0x58 3 f) (opVrej f))
def opVcompd : FmtT → PyOp := sampT 3 false true (fun _ => true) (fun p n a _ i => vcompdEl p n i (a i))
/-- VCOMPD (07 R254). -/
def execVcompd (p : PyAt) (f : FmtT) (s : State) : Out3 := onDev s (pyRun p (encT 0x58 4 f) (opVcompd f))
def opVdecd : FmtT → PyOp := sampT 3 false true (fun _ => true) (fun p n a _ i => vdecdEl p n (a i))
/-- VDECD (07 R254). -/
def execVdecd (p : PyAt) (f : FmtT) (s : State) : Out3 := onDev s (pyRun p (encT 0x58 5 f) (opVdecd f))
def opVp2r (f : FmtA) : PyOp := sampPair 3 f.a f.d (decide (f.x.toNat ≤ 2)) (maskOf f.m f.k) fun p i => p2rEl p i (vEl p.r f.a i)
/-- VP2R (07 R254). -/
def execVp2r (p : PyAt) (f : FmtA) (s : State) : Out3 := onDev s (pyRun p (encA 0x58 6 f) (opVp2r f))
def opVdcmp (f : FmtT) : PyOp := sampPair 4 f.a f.d (decide (f.imm.toNat ≤ 1)) none fun p i => decompEl p f.imm.toNat i (vEl p.r f.a i)
/-- VDCMP (07 R254). -/
def execVdcmp (p : PyAt) (f : FmtT) (s : State) : Out3 := onDev s (pyRun p (encT 0x58 7 f) (opVdcmp f))
def opVhmake : FmtT → PyOp := sampT 4 true true (fun n => decide (n ≤ 1)) (fun p n a b i => makeHint p n i (a i) (b i))
/-- VHMAKE (07 R254). -/
def execVhmake (p : PyAt) (f : FmtT) (s : State) : Out3 := onDev s (pyRun p (encT 0x59 0 f) (opVhmake f))
def opVhuse : FmtT → PyOp := sampT 4 true true (fun n => decide (n ≤ 1)) (fun p n a b i => useHint p n i (a i) (b i))
/-- VHUSE (07 R254). -/
def execVhuse (p : PyAt) (f : FmtT) (s : State) : Out3 := onDev s (pyRun p (encT 0x59 1 f) (opVhuse f))
/-- VCHKN (07 R254). -/
def execVchkn (p : PyAt) (f : FmtA) (s : State) : Out3 := onDev s (pyRun p (encA 0x59 2 f) (opVchkn f))

end Sys2Proof.Machine
end

