-- ==== Sys2Proof/Machine/PyTable.lean ====
section
/-!
DEFINITION. The machine instruction of a dispatch index, with its fields taken from a word: what UISS starts (07 R240, 08 R273).
-/
namespace Sys2Proof.Machine

/-- The instructions of a MAJOR, by MINOR. -/
def pyRow (w : U32) (mj : Nat) : List PyOp :=
  match mj with
  | 0 => [opAdd (decA w), opSub (decA w), opAnd (decA w), opOr (decA w),
      opXor (decA w), opSll (decA w), opSrl (decA w), opSra (decA w)]
  | 1 => [opAddi (decI w), opAndi (decI w), opOri (decI w), opXori (decI w),
      opSlli (decI w), opSrli (decI w), opSrai (decI w), opSlti (decI w)]
  | 2 => [opLui (decU w), opMul (decA w), opMulh (decA w), opMulhu (decA w),
      opDiv (decA w), opDivu (decA w), opRem (decA w), opRemu (decA w)]
  | 3 => [opSlt (decA w), opSltu (decA w), opSeq (decA w), opCsel (decA w),
      opMin (decA w), opMax (decA w), opMinu (decA w), opMaxu (decA w)]
  | 4 => [opLd8 (decI w), opLd16 (decI w), opLd32 (decI w), opLd64 (decI w),
      opSt8 (decS w), opSt16 (decS w), opSt32 (decS w), opSt64 (decS w)]
  | 5 => [opBeq (decS w), opBne (decS w), opBlt (decS w), opBge (decS w),
      opBltu (decS w), opBgeu (decS w), opJal (decJ w), opJalr (decI w)]
  | 16 => [opVcfg (decI w), opCcrr (decI w), opCcrw (decI w), opYield, opHalt, opBar (decI w), opIdle (decI w)]
  | 24 => [opVadd (decA w), opVsub (decA w), opVand (decA w), opVor (decA w),
      opVxor (decA w), opVsll (decA w), opVsrl (decA w), opVsra (decA w)]
  | 25 => [opVimul (decA w), opVimulh (decA w), opVimulhu (decA w), opVimin (decA w),
      opVimax (decA w), opViminu (decA w), opVimaxu (decA w), opVsel (decA w)]
  | 26 => [opVseq (decA w), opVsne (decA w), opVslt (decA w), opVsltu (decA w),
      opVkand (decA w), opVkor (decA w), opVkxor (decA w), opVknot (decA w)]
  | 27 => [opVld (decM w), opVldu (decM w), opVst (decM w), opVstu (decM w),
      opVkld (decM w), opVkst (decM w), opVbcast (decA w), opVpopc (decA w)]
  | 28 => [opVext (decA w), opVins (decA w), opVredsum (decA w), opVredxor (decA w), opVredor (decA w)]
  | 48 => [opVmadd (decA w), opVmsub (decA w), opVmneg (decA w), opVmmul (decA w),
      opVmred (decA w), opVmtom (decA w), opVmfromm (decA w), opVmmac (decA w)]
  | 49 => [opVmbf (decQ w), opVmbfi (decQ w), opVmbft (decT w), opVmbfti (decT w)]
  | 64 => [opVzip (decT w), opVunzip (decT w), opVslup (decT w), opVsldn (decT w),
      opVperm (decT w), opVrev (decT w), opVcompr (decA w), opVbrev (decT w)]
  | 72 => [opVclmul (decA w), opVclmulh (decA w), opVgmul (decA w), opVgsqr (decA w),
      opVginv (decA w), opVgmac (decA w), opVgxp (decA w)]
  | 80 => [opFadd (decA w), opFsub (decA w), opFmul (decA w), opFdiv (decA w),
      opFsqrt (decA w), opFmin (decA w), opFmax (decA w), opFneg (decA w)]
  | 81 => [opFma (decQ w), opFms (decQ w), opFnma (decQ w), opFcvtf (decA w),
      opFcvti (decA w), opFrnd (decA w), opFmvx (decA w), opFmvf (decA w)]
  | 88 => [opVpack (decT w), opVunpk (decT w), opVcbd (decT w), opVrej (decA w),
      opVcompd (decT w), opVdecd (decT w), opVp2r (decA w), opVdcmp (decT w)]
  | 89 => [opVhmake (decT w), opVhuse (decT w), opVchkn (decA w)]
  | 96 => [opHinit (decH w), opHabs (decH w), opHsqz (decH w), opHsha (decH w), opHdig (decH w)]
  | 104 => [opSref (decK w), opSand (decK w), opSa2b (decK w), opSb2a (decK w),
      opScmp (decK w), opSunm (decK w), opSrnd (decK w)]
  | 112 => [opJwait (decT w), opJrel (decT w), opJout (decT w), opJkey (decT w),
      opJkput (decT w), opJkdone (decT w), opJrnd (decT w), opJset (decT w)]
  | _ => []

/-- The instruction of a MAJOR and a MINOR. -/
def pyOpOf (w : U32) (mj mn : Nat) : Option PyOp := (pyRow w mj)[mn]?

end Sys2Proof.Machine
end

