-- ==== Sys2Proof/Machine/Micro.lean ====
section
/-!
DEFINITION. Micro-ops of the three sequencer types: the common classes and those of each type (08 R268-R287, R301).
Sequencer `u` is a polynomial core (0 to 15), a modular engine (16 to 23) or a tree sequencer (24 to 27).
-/
namespace Sys2Proof.Machine

/-! ## The micro-state (08 R269) -/

/-- The cell of a sequencer. -/
def seqCellOf (u : Nat) : Nat := if u < 24 then u else u + 4
/-- The micro-state of a sequencer. -/
def getMicro (d : Dev) (u : Nat) : Micro :=
  if u < 16 then
    let r := (getCore d u).live
    { u := r.u, lc := r.lc, stack := r.stack, upc := r.upc, run := r.inUop }
  else if u < 24 then (getMe d (u - 16)).micro else (getTs d (u - 24)).micro
/-- Write the micro-state of a sequencer. -/
def setMicro (d : Dev) (u : Nat) (m : Micro) : Dev :=
  if u < 16 then
    modCore d u fun k => { k with live := { k.live with u := m.u, lc := m.lc, stack := m.stack, upc := m.upc, inUop := m.run } }
  else if u < 24 then modMe d (u - 16) fun e => { e with micro := m } else modTs d (u - 24) fun e => { e with micro := m }

def uGet (m : Micro) (n : BitVec 5) : U64 := m.u[n.toNat]'n.isLt
def uSet (m : Micro) (n : BitVec 5) (v : U64) : Micro := { m with u := m.u.set n.toNat v n.isLt }
def lcOf (m : Micro) (n : BitVec 5) : U16 := m.lc.toList.getD (n.toNat % 4) 0
def lcSet (m : Micro) (n : BitVec 5) (v : U16) : Micro := { m with lc := m.lc.setIfInBounds (n.toNat % 4) v }

/-- A micro-op in flight. -/
structure Ux where
  d : Dev
  u : Nat
  b : Job
  m : Micro
  f : UFmt

/-- How a micro-op ends: the next micro-PC, with a yield point at which the Dealer acts, a breach of R272 or of the schedule, the end of the job with a status, or a wait. -/
inductive UEnd
  | next (x : Ux) (upc : Nat) (deal : Bool := false) | bad | stop (d : Dev) (b : Job) (st det : U16) | ended (d : Dev) | wait

/-- The micro-op before next. -/
def Ux.on (x : Ux) (m : Micro) : UEnd := .next { x with m := m } (x.m.upc.toNat + 1)
/-- uA, uB and uC. -/
def Ux.a (x : Ux) : U64 := uGet x.m x.f.a
def Ux.bv (x : Ux) : U64 := uGet x.m x.f.b
def Ux.cv (x : Ux) : U64 := uGet x.m x.f.c
def Ux.setA (x : Ux) (v : U64) : UEnd := x.on (uSet x.m x.f.a v)
/-- Jump: a target at or beyond the store's size ends the job (08 R272). -/
def Ux.go (x : Ux) (m : Micro) (target : Int) : UEnd :=
  if 0 ≤ target && target < storeSize x.u then .next { x with m := m } target.toNat else .bad

/-- A micro-register as the hazard checker counts it. -/
def ru (n : BitVec 5) : Nat := 72 + n.toNat

/-- The checker's records of a sequencer (09 R301). -/
def getSched (d : Dev) (u : Nat) : Sched :=
  if u < 16 then let k := getCore d u; { nextT := k.nextT, land := k.land, free := k.free, yieldT := k.yieldT }
  else if u < 24 then (getMe d (u - 16)).sched else (getTs d (u - 24)).sched
/-- Write the checker's records of a sequencer. -/
def setSched (d : Dev) (u : Nat) (s : Sched) : Dev :=
  if u < 16 then modCore d u fun k => { k with nextT := s.nextT, land := s.land, free := s.free, yieldT := s.yieldT }
  else if u < 24 then modMe d (u - 16) fun e => { e with sched := s } else modTs d (u - 24) fun e => { e with sched := s }
/-- The cycle at which a sequencer issues its next micro-op. -/
def uTime (d : Dev) (u : Nat) : Nat := (getSched d u).nextT
/-- The yield distance of a sequencer: 2,048 core cycles, 2,730 hash cycles (08 R284). -/
def yieldMax (u : Nat) : Nat := if u < 24 then 2048 else 2730

/-- What a micro-op reads and writes, the units of a modular engine or tree sequencer that it holds, and its cycles. -/
structure UUse where
  reads  : List Nat := []
  writes : List (Nat × Nat) := []
  units  : List (Nat × Nat) := []
  cycles : Nat := 1

/-- Whether a micro-op on a modular engine or tree sequencer reads a result too early, lands one before an earlier one, or issues to a
busy unit (09 R299, R301). -/
def uHazard (s : Sched) (use : UUse) : Bool :=
  use.reads.any (fun n => decide (s.nextT < mapGet 0 s.land n))
    || use.writes.any (fun w => decide (s.nextT + w.2 < mapGet 0 s.land w.1))
    || use.units.any (fun x => decide (s.nextT < mapGet 0 s.free x.1))
/-- Enter a micro-op into the records of a modular engine or tree sequencer. -/
def uMark (s : Sched) (use : UUse) : Sched :=
  { s with nextT := s.nextT + use.cycles
           land := use.writes.foldl (fun m w => mapSet 0 m w.1 (s.nextT + w.2)) s.land
           free := use.units.foldl (fun m x => mapSet 0 m x.1 (s.nextT + x.2)) s.free }

/-! ## Debug halts (07 R247, 08 R287, R295) -/

/-- Whether a sequencer stands inside a routine, away from its last yield point. -/
def midRoutine (d : Dev) (u : Nat) : Bool := inRoutine (getMicro d u) (getSched d u)
/-- `x_UDBG.AT_YLD`: whether a sequencer stands at a yield point: inside a routine at a YLD, or after a YIELD. -/
def seqAtYield (d : Dev) (u : Nat) : Bool :=
  let s := getSched d u
  if (getMicro d u).run then decide (s.nextT ≤ s.yieldT)
  else u < 16 && (getCore d u).live.word % 1024 == 0x190 && s.nextT == s.yieldT + 1
/-- Halt a sequencer where it stands. -/
def haltHere (d : Dev) (u : Nat) : Dev :=
  modStore { d with lc.halted := d.lc.halted ++ [u] } u fun x =>
    { x with halted := true, atYld := seqAtYield d u, stepOk := false, haltReq := false }
/-- A halt that waits is taken at the first boundary or yield point. -/
def takeHalt (d : Dev) (u : Nat) : Dev := if (getStore d u).haltReq && !midRoutine d u then haltHere d u else d

/-! ## Running -/

/-- Whether the active control store holds a micro-op at a micro-PC, and whether its word there is of a reserved class; without a
release every micro-op may come (log 163). -/
def wordHere (d : Dev) (u a cls : Nat) (f : UFmt) : Bool := (storeWord d u a).all fun w => w == microWord cls f
def wordBad (d : Dev) (u a : Nat) : Bool := (storeWord d u a).any fun w => classReserved u (w.toNat / 2 ^ 27)

/-- A sequencer runs a micro-op of a class for the job on its cell (08 R270-R272, R284, R301). On a core the micro-op issues at the
core's next cycle. -/
def uRun (u cls : Nat) (f : UFmt) (kinds : Nat → Bool) (use : UUse) (body : Ux → UEnd) (d : Dev) : Dev :=
  if 28 ≤ u || !kinds u || !cellRuns d (seqCellOf u) then d
  else
    match cellJob d (seqCellOf u) with
    | none => d
    | some b =>
      let c := seqCellOf u
      let m := getMicro d u
      if b.phase != .placed || (u < 16 && ((pyHere d u (uTime d u)).isNone))
          || !(wordBad d u m.upc.toNat || wordHere d u m.upc.toNat cls f) then d
      else
        let s := getSched d u
        let t := s.nextT
        let det := m.upc.setWidth 16
        let d := stepTaken d c
        let py := decide (u < 16)
        let clash := if py then hazard { d := d, c := u, t := t, b := b, io := {}, r := {} } { reads := use.reads, writes := use.writes }
          else uHazard s use
        if s.yieldT + yieldMax u ≤ t then failOn d b c stYieldTimeout 0
        else if wordBad d u m.upc.toNat || clash then failOn d b c stContractFault det
        else
          match body { d := d, u := u, b := b, m := m, f := f } with
          | .bad => failOn d b c stContractFault det
          | .stop d1 b1 st dt => failOn d1 b1 c st dt
          | .ended d1 => takeHalt d1 u
          | .wait => d
          | .next x upc deal =>
            let n := use.cycles
            let b1 := if py && b.eng = some u then { x.b with cycles := x.b.cycles + n } else x.b
            let d1 := setMicro x.d u { x.m with upc := BitVec.ofNat 14 upc, run := true }
            let d2 := modJob d1 b.id fun _ => b1
            let d3 := if py then markUse d2 b.cluster u t { writes := use.writes, gap := n } else setSched d2 u (uMark (getSched d2 u) use)
            let d4 := takeHalt d3 u
            if deal && !b1.cluster && !cellHalted d4 c then dealYield d4 b1 else d4

/-- Every sequencer type. -/
def uAny (_ : Nat) : Bool := true
def uPy (u : Nat) : Bool := decide (u < 16)
def uMe (u : Nat) : Bool := decide (16 ≤ u && u < 24)
def uTs (u : Nat) : Bool := decide (24 ≤ u)

/-! ## Common classes (08 R271, R272, R274-R276) -/

/-- The operation of UOP and UOPI; none for a reserved code. `old` is uA. -/
def uAlu (op : Nat) (old a b : U64) : Option U64 :=
  match op with
  | 0 => some (a + b) | 1 => some (a - b) | 2 => some (a &&& b) | 3 => some (a ||| b) | 4 => some (a ^^^ b)
  | 5 => some (aluSll a b) | 6 => some (aluSrl a b) | 7 => some (aluSra a b)
  | 8 => some (aluMinu a b) | 9 => some (aluMaxu a b) | 10 => some (aluSltu a b) | 11 => some (aluSeq a b)
  | 12 => some (if old ≠ 0 then a else b)
  | _ => none

/-- Micro-op WAIT. -/
def execUWait (u : Nat) (f : UFmt) (s : State) : Out3 :=
  onDev s (uRun u 0 f uAny { cycles := f.imm.toNat + 1 } fun x => x.on x.m)

/-- Micro-op UOP. -/
def uopGo (x : Ux) : UEnd :=
  if x.f.imm.toNat / 16 ≠ 0 then .bad
  else match uAlu (x.f.imm.toNat % 16) x.a x.bv x.cv with | some v => x.setA v | none => .bad
def execUUop (u : Nat) (f : UFmt) (s : State) : Out3 :=
  onDev s (uRun u 1 f uAny { reads := [ru f.a, ru f.b, ru f.c], writes := [(ru f.a, 1)] } uopGo)

/-- Micro-op UOPI. -/
def uopiGo (x : Ux) : UEnd :=
  match uAlu (x.f.c.toNat % 16) x.a x.bv (x.f.imm.setWidth 64) with | some v => x.setA v | none => .bad
def execUUopi (u : Nat) (f : UFmt) (s : State) : Out3 :=
  onDev s (uRun u 2 f uAny { reads := [ru f.a, ru f.b], writes := [(ru f.a, 1)] } uopiGo)

/-- Micro-op UINS. -/
def uinsGo (x : Ux) : UEnd :=
  let k := x.f.c.toNat % 8
  if 5 < k then .bad
  else
    let w := if k = 5 then 4 else 12
    let mask : U64 := BitVec.ofNat 64 ((2 ^ w - 1) * 2 ^ (12 * k))
    x.setA ((x.a &&& ~~~ mask) ||| BitVec.ofNat 64 (x.f.imm.toNat % 2 ^ w * 2 ^ (12 * k)))
def execUUins (u : Nat) (f : UFmt) (s : State) : Out3 :=
  onDev s (uRun u 3 f uAny { reads := [ru f.a], writes := [(ru f.a, 1)] } uinsGo)

/-- The formats of R240. -/
inductive Fmt | a | q | i | u | s | j | m | t | h | k
  deriving DecidableEq, Repr

/-- Format of a MAJOR and a MINOR (07 R244-R257); that of a vendor-only entry counts as A. -/
def fmtOf (mj mn : Nat) : Fmt :=
  match mj with
  | 0x01 => .i
  | 0x02 => if mn = 0 then .u else .a
  | 0x04 => if mn < 4 then .i else .s
  | 0x05 => if mn < 6 then .s else if mn = 6 then .j else .i
  | 0x10 => .i
  | 0x1B => if mn < 6 then .m else .a
  | 0x31 => if mn < 2 then .q else .t
  | 0x40 => if mn = 6 then .a else .t
  | 0x51 => if mn < 3 then .q else .a
  | 0x58 => if mn = 3 || mn = 6 then .a else .t
  | 0x59 => if mn = 2 then .a else .t
  | 0x60 => .h
  | 0x68 => .k
  | 0x70 => .t
  | _ => .a

/-- A field of the dispatched instruction word, or of the state (08 R274). -/
def fldPy (r : PyRegs) (code : Nat) : Option U64 :=
  let w := r.word
  let f := fmtOf (w.toNat % 128) (w.toNat / 128 % 8)
  let z (lo n : Nat) : U64 := BitVec.ofNat 64 (w.toNat / 2 ^ lo % 2 ^ n)
  let sx (lo n : Nat) : U64 := (BitVec.ofNat n (w.toNat / 2 ^ lo)).signExtend 64
  match code with
  | 0 => some (z 10 5)
  | 1 => some (z 15 5)
  | 2 => some (if f = .s then z 10 5 else z 20 5)
  | 3 => some (z 25 5)
  | 4 => some (sx 20 12)
  | 5 => some (sx 15 17)
  | 6 => some (sx 24 8)
  | 7 => some (z 25 7)
  | 8 => some (if f = .m then z 20 1 else z 25 1)
  | 9 => some (if f = .m then z 21 3 else z 26 3)
  | 10 => some (if f = .q then z 30 2 else if f = .k then z 27 1 else z 29 3)
  | 11 => some (z 15 2)
  | 12 => some (z 17 2)
  | 13 => some (z 19 1)
  | 14 => some (z 20 12)
  | 15 => some (z 25 2)
  | 16 => some (BitVec.ofNat 64 (r.vtype.toNat % 4))
  | 17 => some (BitVec.ofNat 64 (r.vtype.toNat / 4 % 4))
  | 18 => some (BitVec.ofNat 64 (r.ipc.toNat / 4))
  | _ => none

/-- A free 64-bit value and the device that has used it (log 4). -/
def freeWord (d : Dev) : U64 × Dev := (Config.open64 d.glob.freeCtr, { d with glob.freeCtr := d.glob.freeCtr + 1 })

/-- A field of a modular engine's current command; a built-in routine has no command, and the value is free (08 R274). -/
def fldMe (d : Dev) (b : Job) (code : Nat) : Option (U64 × Dev) :=
  let bits := meBits d b
  let n (v : Nat) : Option (U64 × Dev) := some (BitVec.ofNat 64 v, d)
  match code with
  | 6 => n bits
  | 7 => n (cdiv bits 64)
  | 8 => n (cdiv bits 512)
  | _ =>
    if 8 < code then none
    else
      match ((mpProg (ownAux b)).words[(b.mp.getD {}).idx]?).map mpParse, b.e.opcode == 0x6001 with
      | some w, true =>
        n (match code with
           | 0 => w.d.toNat | 1 => w.a.toNat | 2 => w.b.toNat | 3 => w.chk.toNat | 4 => (if w.le then 1 else 0) | _ => w.imm.toNat)
      | _, _ => some (freeWord d)

/-- A field of a tree sequencer's job (08 R274). -/
def fldTs (d : Dev) (b : Job) (code : Nat) : Option U64 :=
  let k := getSs d b.owner (hSlot b.e.key0)
  (match code with
   | 0 => some (opSet b.e.opcode) | 1 => some (opOp b.e.opcode) | 2 => some b.e.param.toNat | 3 => some b.e.inLen.toNat
   | 4 => some b.e.auxLen.toNat | 5 => some (ssLevels k).length | 6 => some k.blockLog2 | _ => none).map (BitVec.ofNat 64)

/-- Micro-op FLD. -/
def fldGo (x : Ux) : UEnd :=
  let code := x.f.imm.toNat % 64
  if x.u < 16 then match fldPy (getCore x.d x.u).live code with | some v => x.setA v | none => .bad
  else if x.u < 24 then match fldMe x.d x.b code with | some r => { x with d := r.2 }.setA r.1 | none => .bad
  else match fldTs x.d x.b code with | some v => x.setA v | none => .bad
def execUFld (u : Nat) (f : UFmt) (s : State) : Out3 := onDev s (uRun u 4 f uAny { writes := [(ru f.a, 1)] } fldGo)

/-- Micro-op CCR: the core control registers with VL; the length registers MODBITS, L and W; the unit-ownership register. -/
def uccrGo (x : Ux) : UEnd :=
  let n := x.f.imm.toNat
  let wr := x.f.c.getLsbD 0
  if x.u < 16 then
    let k := getCore x.d x.u
    if 6 < n then .bad
    else if !wr then (if (n = 3 && uTime x.d x.u < k.qAt) || (n = 4 && uTime x.d x.u < k.gAt) then .bad else x.setA (ccrRead k.live n))
    else
      let t := uTime x.d x.u
      { x with d := modCore x.d x.u fun k =>
          { k with live := ccrWrite k.live n x.a, qAt := if n = 3 then t + 4 else k.qAt, gAt := if n = 4 then t + 4 else k.gAt } }.on x.m
  else if x.u < 24 then
    if 2 < n then .bad
    else if !wr then x.setA ((getMe x.d (x.u - 16)).lens.toList.getD n 0)
    else { x with d := modMe x.d (x.u - 16) fun e => { e with lens := e.lens.setIfInBounds n x.a } }.on x.m
  else
    if 0 < n then .bad
    else if !wr then x.setA (getTs x.d (x.u - 24)).owned
    else { x with d := modTs x.d (x.u - 24) fun e => { e with owned := x.a } }.on x.m
def execUCcr (u : Nat) (f : UFmt) (s : State) : Out3 :=
  onDev s (uRun u 5 f uAny { reads := if f.c.getLsbD 0 then [ru f.a] else [], writes := if f.c.getLsbD 0 then [] else [(ru f.a, 1)] } uccrGo)

/-- Micro-op FLT. -/
def ufltGo (x : Ux) : UEnd :=
  if x.f.imm.toNat / 256 ≠ 0 then .bad
  else .stop x.d x.b (0x0500 ||| BitVec.ofNat 16 (x.f.imm.toNat % 256)) (x.a.setWidth 16)
def execUFlt (u : Nat) (f : UFmt) (s : State) : Out3 := onDev s (uRun u 6 f uAny { reads := [ru f.a] } ufltGo)

/-- The conditions of BR; none for a reserved code. -/
def ubrCond (code : Nat) (a b : U64) : Option Bool :=
  match code with
  | 0 => some (a == b) | 1 => some (a != b) | 2 => some (BitVec.slt a b) | 3 => some (!BitVec.slt a b)
  | 4 => some (BitVec.ult a b) | 5 => some (!BitVec.ult a b) | _ => none
/-- Micro-op BR. -/
def ubrGo (x : Ux) : UEnd :=
  match ubrCond (x.f.c.toNat % 8) x.a x.bv with
  | none => .bad
  | some true => x.go x.m (x.m.upc.toNat + x.f.imm.toInt)
  | some false => x.on x.m
def execUBr (u : Nat) (f : UFmt) (s : State) : Out3 := onDev s (uRun u 8 f uAny { reads := [ru f.a, ru f.b] } ubrGo)

/-- The target of JMP and CALL. -/
def ufar (f : UFmt) : Nat := f.c.toNat % 4 * 4096 + f.imm.toNat
/-- Micro-op JMP. -/
def execUJmp (u : Nat) (f : UFmt) (s : State) : Out3 := onDev s (uRun u 9 f uAny {} fun x => x.go x.m (ufar x.f))

/-- Micro-op CALL: a fifth one without a RET ends the job. -/
def ucallGo (x : Ux) : UEnd :=
  if 4 ≤ x.m.stack.length then .bad else x.go { x.m with stack := (x.m.upc + 1) :: x.m.stack } (ufar x.f)
def execUCall (u : Nat) (f : UFmt) (s : State) : Out3 := onDev s (uRun u 10 f uAny {} ucallGo)

/-- Micro-op RET. -/
def uretGo (x : Ux) : UEnd :=
  match x.m.stack with
  | [] => .bad
  | r :: rs => .next { x with m := { x.m with stack := rs } } r.toNat
def execURet (u : Nat) (f : UFmt) (s : State) : Out3 := onDev s (uRun u 11 f uAny {} uretGo)

/-- Micro-op LPSET. -/
def ulpsetGo (x : Ux) : UEnd :=
  x.on (lcSet x.m x.f.a (if x.f.c.getLsbD 0 then x.bv.setWidth 16 else x.f.imm.setWidth 16))
def execULpset (u : Nat) (f : UFmt) (s : State) : Out3 :=
  onDev s (uRun u 12 f uAny { reads := if f.c.getLsbD 0 then [ru f.b] else [] } ulpsetGo)

/-- Micro-op LPEND. -/
def ulpendGo (x : Ux) : UEnd :=
  let n := lcOf x.m x.f.a
  if n ≠ 0 then x.go (lcSet x.m x.f.a (n - 1)) (x.m.upc.toNat + x.f.imm.toInt) else x.on x.m
def execULpend (u : Nat) (f : UFmt) (s : State) : Out3 := onDev s (uRun u 13 f uAny {} ulpendGo)

/-- Whether a sequencer still has a result outstanding or a unit occupied at its next cycle (08 R283). -/
def outstanding (s : Sched) : Bool := s.land.any (fun e => decide (s.nextT < e.2)) || s.free.any (fun e => decide (s.nextT < e.2))

/-- A yield point of a sequencer: an abort, then the deadline check (07 R247, 08 R283, R284). -/
def uYield (x : Ux) (go : Ux → UEnd) : UEnd :=
  match x.b.abort with
  | some st => .stop x.d x.b st 0
  | none =>
    if late x.d x.b.e then .stop x.d x.b stDeadline 0
    else let s := getSched x.d x.u; go { x with d := setSched x.d x.u { s with yieldT := s.nextT } }

/-- Micro-op YLD: it takes no cycle of its own (08 R270). -/
def uyldGo (x : Ux) : UEnd :=
  if outstanding (getSched x.d x.u) then .bad else uYield x fun y => .next y (y.m.upc.toNat + 1) true
def execUYld (u : Nat) (f : UFmt) (s : State) : Out3 := onDev s (uRun u 14 f uAny { cycles := 0 } uyldGo)

/-- The word of a custom image at the machine PC of its core; none for a vendor image, whose words are not published. -/
def nextWord (d : Dev) (b : Job) (c : Nat) : Option U32 :=
  let k := ((getCore d c).live.pc.toNat - imageBase d b c) / 4
  if opClass b.e.opcode ≠ 0xD then none
  else (customAt d c (opSet b.e.opcode)).bind fun i => if k < (parseImg i.bytes).codeLen then some (u32At i.bytes (64 + 4 * k)) else none

/-- The dispatch index that follows an END: the next machine instruction of a core, the next command of a modular program (08 R276). -/
def nextIndex (x : Ux) : Option Nat :=
  if x.u < 16 then (nextWord x.d x.b x.u).map fun w => w.toNat % 128 * 8 + w.toNat / 128 % 8
  else if x.b.e.opcode = 0x6001 && x.u < 24 then ((mpProg (ownAux x.b)).words[(x.b.mp.getD {}).idx + 1]?).map (· % 256)
  else none

/-- Micro-op END: the routine ends, and a vector instruction that completes clears VRESUME (07 R224). The micro-PC is START of the next
dispatch (08 R276); free where the release, the image or the epilogue is not published (log 124). It takes no cycle of its own. -/
def uendGo (x : Ux) : UEnd :=
  if !x.m.stack.isEmpty then .bad
  else
    let w := freeWord x.d
    let start : BitVec 14 := match (nextIndex x).bind (dispAt x.d x.u) with
      | some e => BitVec.ofNat 14 e.start
      | none => w.1.setWidth 14
    let d1 :=
      if 16 ≤ x.u then w.2
      else
        modCore w.2 x.u fun k =>
          let v := match pyOpOf k.live.word (k.live.word.toNat % 128) (k.live.word.toNat / 128 % 8) with
            | some o => (o.use { d := {}, c := x.u, t := 0, b := {}, io := {}, r := k.live }).vec
            | none => false
          { k with live := { k.live with vresume := if v then 0 else k.live.vresume, velOn := false } }
    .ended (setMicro d1 x.u { x.m with upc := start, run := false })
def execUEnd (u : Nat) (f : UFmt) (s : State) : Out3 := onDev s (uRun u 15 f uAny { cycles := 0 } uendGo)

/-! ## Polynomial cores (08 R273) -/

/-- Whether an architectural register is ready for a micro-op of a core that reads it, or that writes it in one cycle: results to one
register land in issue order (07 R243, 09 R299). -/
def archReady (d : Dev) (u key : Nat) : Bool := decide (mapGet 0 (getCore d u).land key ≤ uTime d u)
def archLands (d : Dev) (u key : Nat) : Bool := decide (mapGet 0 (getCore d u).land key ≤ uTime d u + 1)

/-- Micro-op XMOV. -/
def uxmovGo (x : Ux) : UEnd :=
  let n : BitVec 5 := x.bv.setWidth 5
  if x.f.c.getLsbD 0 then { x with d := modCore x.d x.u fun k => { k with live := xSet k.live n x.a } }.on x.m
  else x.setA (xGet (getCore x.d x.u).live n)
def execUXmov (u : Nat) (f : UFmt) (s : State) : Out3 :=
  onDev s (uRun u 16 f uPy { reads := if f.c.getLsbD 0 then [ru f.a, ru f.b] else [ru f.b], writes := if f.c.getLsbD 0 then [] else [(ru f.a, 1)] }
    fun x =>
      let n : BitVec 5 := x.bv.setWidth 5
      if n ≠ 0 && !(if f.c.getLsbD 0 then archLands x.d u (rx n) else archReady x.d u (rx n)) then .bad else uxmovGo x)

/-- The dispatched word with other register numbers, where its format has them. -/
def uissWord (w : U32) (f : Fmt) (d a b : BitVec 5) : U32 :=
  let put (v : U32) (lo : Nat) (n : BitVec 5) : U32 := (v &&& ~~~ ((0x1F : U32) <<< lo)) ||| (n.setWidth 32 <<< lo)
  match f with
  | .a | .q | .t | .k => put (put (put w 10 d) 15 a) 20 b
  | .i | .m => put (put w 10 d) 15 a
  | .s => put (put w 10 b) 15 a
  | .u | .j | .h => put w 10 d

/-- Run a datapath operation for a micro-op of a core at the core's next cycle: unit, latency, occupancy and hazards are those of
the operation; the machine PC stays, VRESUME is left to END, and the element window is used up (08 R273). -/
def uDatapath (op : PyOp) (x : Ux) : UEnd :=
  let t := uTime x.d x.u
  match pyHere x.d x.u t with
  | none => .wait
  | some p0 =>
    let since := mapGet none p0.io.wait x.u
    let u := { op.use p0 with gap := 1, vec := false }
    if !u.legal then .stop x.d x.b stIllegalInstr ((p0.r.pc >>> 2).setWidth 16)
    else if hazard p0 u then .bad
    else
      match op.body p0 with
      | .next q =>
        let d1 := pyRetire p0 since u (.next { q with jump := some (q.jump.getD q.r.pc), r := { q.r with velOn := false } })
        .ended (setMicro d1 x.u { x.m with upc := x.m.upc + 1, run := true })
      | e => .ended (pyRetire p0 since u e)

/-- Micro-op UISS. -/
def uuissGo (x : Ux) : UEnd :=
  let i := x.f.imm.toNat % 1024
  let n (v : U64) : BitVec 5 := v.setWidth 5
  let w := uissWord (getCore x.d x.u).live.word (fmtOf (i / 8) (i % 8)) (n x.a) (n x.bv) (n x.cv)
  if x.f.imm.toNat / 1024 ≠ 0 then .bad
  else
    match pyOpOf w (i / 8) (i % 8) with
    | some op => uDatapath op x
    | none => .stop x.d x.b stIllegalInstr (((getCore x.d x.u).live.pc >>> 2).setWidth 16)
def execUUiss (u : Nat) (f : UFmt) (s : State) : Out3 :=
  onDev s (uRun u 17 f uPy { reads := [ru f.a, ru f.b, ru f.c] } uuissGo)

/-- The elements of one line that a VLN moves: those in the window, or all. -/
def vlnEls (r : PyRegs) : List Nat :=
  (List.range (2048 / sewOf r)).filter fun i => !r.velOn || (decide (r.velLo.toNat ≤ i) && decide (i < r.velHi.toNat))
/-- One line between a register and the tile (08 R273). -/
def vlnOp (v : BitVec 5) (addr : Nat) (store : Bool) : PyOp :=
  { use := fun p =>
      { reads := if store then [rv v] else [], writes := if store then [] else [(rv v, 3 + farTile p addr)]
        units := [(if store then uSP else uLP, 1)], lines := lineUse p addr 1 store }
    body := fun p =>
      let w := sewOf p.r / 8
      let els := vlnEls p.r
      let old := (vReg p.r v.toNat).toNat
      let upTo (k : Nat) : Px :=
        if store then (els.filter (· < k)).foldl (fun q i => tileWrite q (addr + i * w) w (elAt (8 * w) old i)) p
        else
          freeUse { p with r := vPut p.r v.toNat 1 (elPack (8 * w) ((List.range (2048 / (8 * w))).map fun i =>
            if i < k && els.contains i then tileRead p (addr + i * w) w i else elAt (8 * w) old i)) } 256
      if addr % 256 ≠ 0 then .fault p stAlign 0
      else
        match els.findSome? fun i => (elStop p (addr + i * w) w store).map fun s => (i, s) with
        | some (k, s) => stopEnd (upTo k) k s
        | none => .next (upTo 4096) }
/-- Micro-op VLN. -/
def execUVln (u : Nat) (f : UFmt) (s : State) : Out3 :=
  onDev s (uRun u 18 f uPy { reads := [ru f.a, ru f.b] } fun x => uDatapath (vlnOp (x.a.setWidth 5) x.bv.toNat (f.c.getLsbD 0)) x)

/-- Micro-op VEL. -/
def uvelGo (x : Ux) : UEnd :=
  { x with d := modCore x.d x.u fun k =>
      { k with live := { k.live with velLo := x.bv.setWidth 12, velHi := x.cv.setWidth 12, velOn := true } } }.on x.m
def execUVel (u : Nat) (f : UFmt) (s : State) : Out3 := onDev s (uRun u 19 f uPy { reads := [ru f.b, ru f.c] } uvelGo)

/-- A scalar tile access of a micro-op: `n` bytes at an address (08 R273). -/
def tlsGo (n : Nat) (store : Bool) (x : Ux) : UEnd :=
  let t := uTime x.d x.u
  let a := (x.bv + x.f.imm.signExtend 64).toNat
  match pyHere x.d x.u t with
  | none => .wait
  | some p =>
    let u : Use :=
      { writes := if store then [] else [(ru x.f.a, 3 + farTile p a)], units := [(if store then uSP else uLP, 1)], lines := lineUse p a 1 store }
    let end1 (q : Px) (m : Micro) : UEnd :=
      let d1 := markUse ({ q with b := (spend q 1).b }).save p.b.cluster x.u t u
      .ended (setMicro d1 x.u { m with upc := m.upc + 1, run := true })
    if hazard p u then .bad
    else if a % n ≠ 0 then .stop x.d x.b stAlign 0xFFFF
    else
      match elStop p a n store with
      | some .fault => .stop x.d x.b stVfault 0xFFFF
      | some (.ecc tc) => .ended (pyFault p stEcc (tileCode tc))
      | some (.page j) => .ended (pyRetire p (mapGet none p.io.wait x.u) { u with writes := [] } (.wait p (.page j)))
      | none =>
        let p := match mapGet none p.io.wait x.u with | some w => endWait p w.2 | none => p
        if store then end1 (tileWrite p a n x.a.toNat) x.m
        else end1 (freeUse p 1) (uSet x.m x.f.a (BitVec.ofNat 64 (tileRead p a n 0 % 2 ^ (8 * n))))
/-- Micro-op TLS. -/
def execUTls (u : Nat) (f : UFmt) (s : State) : Out3 :=
  onDev s (uRun u 20 f uPy { reads := if f.c.getLsbD 2 then [ru f.a, ru f.b] else [ru f.b] }
    (tlsGo (2 ^ (f.c.toNat % 4)) (f.c.getLsbD 2)))

/-- Micro-op MKV. -/
def umkvGo (x : Ux) : UEnd :=
  let n := x.bv.toNat % 8
  let lo := 64 * (x.f.imm.toNat % 4)
  let r := (getCore x.d x.u).live
  if x.f.c.getLsbD 0 then
    if !archLands x.d x.u (rm n) then .bad else
    let keep : BitVec 256 := mReg r n &&& ~~~ ((BitVec.allOnes 64).setWidth 256 <<< lo)
    { x with d := modCore x.d x.u fun k => { k with live := mPut k.live n (keep ||| (x.a.setWidth 256 <<< lo)) } }.on x.m
  else if !archReady x.d x.u (rm n) then .bad
  else x.setA ((mReg r n >>> lo).setWidth 64)
def execUMkv (u : Nat) (f : UFmt) (s : State) : Out3 :=
  onDev s (uRun u 21 f uPy { reads := if f.c.getLsbD 0 then [ru f.a, ru f.b] else [ru f.b], writes := if f.c.getLsbD 0 then [] else [(ru f.a, 1)] }
    umkvGo)

/-! ## Modular engines (08 R273; 06 R179, R180) -/

/-- Change the engine of a micro-op. -/
def Ux.me (x : Ux) (g : MeEng → MeEng) : Ux := { x with d := modMe x.d (x.u - 16) g }
def Ux.eng (x : Ux) : MeEng := getMe x.d (x.u - 16)
/-- The byte of a 64-byte line of Slate or of the node buffer. -/
def lineByte (v : U64) : Nat := v.toNat % 1024 * 64

/-- Micro-op SLN: a Slate line into or out of an operand buffer. -/
def uslnGo (x : Ux) : UEnd :=
  let i := x.f.imm.toNat % 4
  let a := lineByte x.bv
  (x.me fun e =>
    if x.f.c.getLsbD 0 then { e with slate := memWrite e.slate a (leBytes 64 (e.bufs.toList.getD i 0).toNat) }
    else { e with bufs := e.bufs.setIfInBounds i (BitVec.ofNat 512 (leNat (memRead e.slate a 64))) }).on x.m
def execUSln (u : Nat) (f : UFmt) (s : State) : Out3 := onDev s (uRun u 16 f uMe { reads := [ru f.b], units := [(0, 1)] } uslnGo)

/-- The modulus of a modular engine's job: of its program, its curve or its group; none where a key's is still to be derived. -/
def meModulus (d : Dev) (b : Job) : Option Nat :=
  let set := opSet b.e.opcode
  if b.e.opcode = 0x6001 then some (mpN (mpProg (ownAux b)) b.inData)
  else if isFfdh set then some (ffPrime set)
  else if isWeier set then some (jobCurve d b).p
  else if set = 0x10 || set = 0x12 then some (2 ^ 255 - 19)
  else if set = 0x11 || set = 0x13 then some (2 ^ 448 - 2 ^ 224 - 1)
  else none

/-- Micro-op MAC on P0, a limb of P1 and the accumulator P2:P3. The Montgomery step adds the multiple of N that clears the low limb, by
the constant in the low limb of line uC, and drops that limb; the conditional subtraction takes N off once. A modulus wider than a
buffer is worked in passes whose lines the spec does not state: their result is free (log 54). -/
def umacGo (x : Ux) : UEnd :=
  let e := x.eng
  let buf (i : Nat) : Nat := (e.bufs.toList.getD i 0).toNat
  let limb := buf 1 / 2 ^ (64 * (x.bv.toNat % 8)) % 2 ^ 64
  let acc := buf 2 + buf 3 * 2 ^ 512
  let free := elPack 64 ((List.range 16).map fun i => (Config.open64 (x.d.glob.freeCtr + i)).toNat)
  let n : Option Nat := (meModulus x.d x.b).filter (· < 2 ^ 512)
  let k := leNat (memRead e.slate (lineByte x.cv) 8)
  let res : Option Nat := match x.f.imm.toNat % 16 with
    | 0 => some (buf 0 * limb)
    | 1 => some (acc + buf 0 * limb)
    | 2 => some (match n with | some n => (acc + acc * k % 2 ^ 64 * n) / 2 ^ 64 | none => free)
    | 3 => some (acc + buf 0)
    | 4 => some (acc + 2 ^ 1024 - buf 0)
    | 5 => some (match n with | some n => if n ≤ acc then acc - n else acc | none => free)
    | _ => none
  match res with
  | none => .bad
  | some v =>
    let y := x.me fun e => { e with bufs := (e.bufs.setIfInBounds 2 (BitVec.ofNat 512 v)).setIfInBounds 3 (BitVec.ofNat 512 (v / 2 ^ 512)) }
    ({ y with d := { y.d with glob.freeCtr := y.d.glob.freeCtr + 16 } }).on x.m
def execUMac (u : Nat) (f : UFmt) (s : State) : Out3 := onDev s (uRun u 17 f uMe { reads := [ru f.b, ru f.c], units := [(1, 1)] } umacGo)

/-- The SHA-2 words of a padding unit or tree unit; from its function's initial value when it has run none (log 54). -/
def unitWords (b : HashBank) (set : Nat) : List U64 := if b.fn = set then shaWords b else hIv set
/-- One SHA-2 block in a unit. -/
def unitSha (b : HashBank) (set : Nat) (blk : Bytes) : HashBank :=
  { b with sha := BitVec.ofNat 512 (elPack 64 ((hBlockRun set (unitWords b set) blk).map (·.toNat))), fn := set }
/-- Keccak-f on a unit's state. -/
def unitKeccak (b : HashBank) : HashBank := { b with keccak := b.keccak.set 0 (keccakWord b.keccak[0]), pos := 0 }
/-- Exclusive or of a line into a unit's Keccak state, after the bytes absorbed since the last permutation. -/
def unitAbsorb (b : HashBank) (line : Bytes) : HashBank :=
  { b with keccak := b.keccak.set 0 (b.keccak[0] ^^^ (BitVec.ofNat 1600 (leNat line) <<< (8 * b.pos))), pos := b.pos + line.length }

/-- Micro-op PAD: a SHA-256 block in line uB, a SHA-512 block in lines uB and uB + 1, or Keccak-f after line uB (log 54). -/
def upadGo (x : Ux) : UEnd :=
  let line (n : Nat) : Bytes := memRead x.eng.slate (lineByte x.bv) n
  match x.f.imm.toNat with
  | 0 => (x.me fun e => { e with pad := unitSha e.pad 2 (line 64) }).on x.m
  | 1 => (x.me fun e => { e with pad := unitSha e.pad 4 (line 128) }).on x.m
  | 2 => (x.me fun e => { e with pad := unitKeccak (unitAbsorb e.pad (line 64)) }).on x.m
  | _ => .bad
def execUPad (u : Nat) (f : UFmt) (s : State) : Out3 := onDev s (uRun u 18 f uMe { reads := [ru f.b], units := [(2, if f.imm = 0 then 65 else if f.imm = 1 then 81 else 24)] } upadGo)

/-- The key port's lines of KEY0: its secret part's two shares, then its public part (log 54). -/
def portBytes (d : Dev) (b : Job) : Bytes := let k := jobKey0 d b; k.shareA ++ k.shareB ++ k.pub
/-- Write a line of the job's new object through the key port. -/
def portPut (d : Dev) (b : Job) (line : Nat) (bs : Bytes) : Dev :=
  { d with io := mapMod {} d.io b.id fun io => { io with newKey := memWrite io.newKey (64 * line) bs } }

/-- Micro-op KPL of a modular engine. -/
def ukplMeGo (x : Ux) : UEnd :=
  let a := lineByte x.a
  if x.f.c.getLsbD 0 then { x with d := portPut x.d x.b (x.bv.toNat % 2 ^ 14) (memRead x.eng.slate a 64) }.on x.m
  else (x.me fun e => { e with slate := memWrite e.slate a (slice (portBytes x.d x.b) (64 * x.bv.toNat) 64) }).on x.m
def execUKplMe (u : Nat) (f : UFmt) (s : State) : Out3 := onDev s (uRun u 19 f uMe { reads := [ru f.a, ru f.b], units := [(3, 1)] } ukplMeGo)

/-- Whether a job's output may be written: its list, if any, has been checked (02 R43). -/
def outReady (b : Job) : Bool := !outSgl b.e || b.outOk
/-- Write output of a micro-op inside OUT_CAP (02 R39). -/
def uOut (x : Ux) (off : Nat) (bs : Bytes) : UEnd :=
  if !outReady x.b then .wait
  else
    let bs := bs.take (x.b.e.outCap.toNat - off)
    if bs.isEmpty then x.on x.m
    else
      { x with d := writeOut x.d x.b off bs
               b := { x.b with outLen := max x.b.outLen (off + bs.length), effect := x.b.effect ||| effOutput } }.on x.m

/-- Micro-op HIO: 1 to 64 bytes between IN or OUT and a Slate line. -/
def uhioGo (x : Ux) : UEnd :=
  let n := x.f.imm.toNat % 128
  let a := lineByte x.a
  if n = 0 || 64 < n then .bad
  else if x.f.c.getLsbD 0 then uOut x x.bv.toNat (memRead x.eng.slate a n)
  else if x.b.inData.length < min x.b.e.inLen.toNat (x.bv.toNat + n) then .wait
  else (x.me fun e => { e with slate := memWrite e.slate a (slice x.b.inData x.bv.toNat n) }).on x.m
def execUHio (u : Nat) (f : UFmt) (s : State) : Out3 := onDev s (uRun u 20 f uMe { reads := [ru f.a, ru f.b], units := [(4, 1)] } uhioGo)

/-! ## Tree sequencers (08 R273) -/

/-- Change the sequencer of a micro-op. -/
def Ux.ts (x : Ux) (g : TsEng → TsEng) : Ux := { x with d := modTs x.d (x.u - 24) g }
def Ux.tree (x : Ux) : TsEng := getTs x.d (x.u - 24)
def unitOf (t : TsEng) (i : Nat) : HashBank := t.units.toList.getD i {}
/-- The digest bytes of a SHA-256 unit. -/
def unitDigest (b : HashBank) : Bytes := wordBytes 4 ((unitWords b 2).map fun w => (w.setWidth 32 : U32))

/-- Cycles for which a permutation or compression holds a unit of the cluster (04 R126). -/
def huiCycles (i : Nat) : Nat := if i < 12 then 24 else 65

/-- Micro-op HUI: a Keccak unit (0 to 11) or a SHA-2 unit, which runs SHA-256 (12 to 15; log 54). A unit that still permutes or
compresses takes nothing. -/
def uhuiGo (x : Ux) : UEnd :=
  let i := x.a.toNat % 16
  let sha := decide (12 ≤ i)
  let a := lineByte x.bv
  let line := memRead x.tree.node a 64
  let b := unitOf x.tree i
  let put (h : HashBank) : UEnd := (x.ts fun t => { t with units := t.units.setIfInBounds i h }).on x.m
  if x.tree.sched.nextT < mapGet 0 x.tree.sched.free (16 + i) then .bad else
  match x.f.imm.toNat % 16 with
  | 0 => put {}
  | 1 => put (if sha then { b with keccak := b.keccak.set 0 (BitVec.ofNat 1600 (leNat line)) } else unitAbsorb b line)
  | 2 =>
    let h := if sha then unitSha b 2 (leBytes 64 b.keccak[0].toNat) else unitKeccak b
    (x.ts fun t => { t with units := t.units.setIfInBounds i h
                            sched := { t.sched with free := mapSet 0 t.sched.free (16 + i) (t.sched.nextT + huiCycles i) } }).on x.m
  | 3 =>
    let out := if sha then fit 64 (unitDigest b) else slice (leBytes 200 b.keccak[0].toNat) b.pos 64
    (x.ts fun t =>
      { t with node := memWrite t.node a out, units := if sha then t.units else t.units.setIfInBounds i { b with pos := b.pos + 64 } }).on x.m
  | _ => .bad
def execUHui (u : Nat) (f : UFmt) (s : State) : Out3 := onDev s (uRun u 16 f uTs { reads := [ru f.a, ru f.b] } uhuiGo)

/-- Micro-op NBM: a node-buffer line from IN or to OUT. -/
def unbmGo (x : Ux) : UEnd :=
  let a := lineByte x.a
  if x.f.c.getLsbD 0 then uOut x x.bv.toNat (memRead x.tree.node a 64)
  else if x.b.inData.length < min x.b.e.inLen.toNat (x.bv.toNat + 64) then .wait
  else (x.ts fun t => { t with node := memWrite t.node a (slice x.b.inData x.bv.toNat 64) }).on x.m
def execUNbm (u : Nat) (f : UFmt) (s : State) : Out3 := onDev s (uRun u 17 f uTs { reads := [ru f.a, ru f.b], units := [(4, 1)] } unbmGo)

/-- Micro-op SST, a yield point (08 R283): the next index of the stateful key; a key without one left ends the job (04 R149, R151). -/
def usstGo (x : Ux) : UEnd :=
  uYield x fun y =>
    if outSgl y.b.e && y.b.e.outCap != 0 && !y.b.outOk && y.b.outBad.isNone then .wait
    else if y.b.outBad.isSome then .stop y.d y.b stSglInvalid 0
    else
    match ssTake y.d y.b.owner y.b.e.key0 with
    | none => .stop (ssCause y.d 4 (BitVec.ofNat 16 (hSlot y.b.e.key0))) y.b stStateExhausted 0
    | some t =>
      .next { y with d := t.2, b := { y.b with taken := some t.1, effect := y.b.effect ||| effStateConsumed }
                     m := uSet y.m y.f.a (BitVec.ofNat 64 t.1) } (y.m.upc.toNat + 1) true
def execUSst (u : Nat) (f : UFmt) (s : State) : Out3 := onDev s (uRun u 18 f uTs { writes := [(ru f.a, 1)] } usstGo)

/-- Micro-op KPL of a tree sequencer. -/
def ukplTsGo (x : Ux) : UEnd :=
  let a := lineByte x.a
  if x.f.c.getLsbD 0 then { x with d := portPut x.d x.b (x.bv.toNat % 2 ^ 14) (memRead x.tree.node a 64) }.on x.m
  else (x.ts fun t => { t with node := memWrite t.node a (slice (portBytes x.d x.b) (64 * x.bv.toNat) 64) }).on x.m
def execUKplTs (u : Nat) (f : UFmt) (s : State) : Out3 := onDev s (uRun u 19 f uTs { reads := [ru f.a, ru f.b], units := [(3, 1)] } ukplTsGo)

end Sys2Proof.Machine
end

