-- ==== Sys2Proof/Machine/LcCmds.lean ====
section
/-!
DEFINITION. The life-cycle commands: challenges, tokens, debug grants, integrator keys, and the debugger's halts (14 R421-R436;
08 R289; 12 R396).
-/
namespace Sys2Proof.Machine

/-! ## Access (14 R436, R437) -/

/-- Whether the LC registers are served: in READY, SAFE and HELD, to the PF or through the debug TAP. -/
def lcServed (d : Dev) : Bool :=
  (isReady d || d.glob.st == .safe || d.glob.st == .held) && (barOk d 0 || d.jtag.insn == .debug)
/-- Whether a write of `LC_CMD` acts: not while a command is in progress. -/
def lcOpen (d : Dev) : Bool := lcServed d && d.lc.want.isNone

/-- The RESULT codes of `LC_CMD` (14 R431). -/
def lrOk : Byte := 0
def lrFormat : Byte := 1
def lrState : Byte := 2
def lrDevice : Byte := 3
def lrChallenge : Byte := 4
def lrSigner : Byte := 5
def lrSignature : Byte := 6
def lrMove : Byte := 7
def lrScope : Byte := 8
def lrOtp : Byte := 9

/-- The end of a command of `LC_CMD`. -/
def lcEnd (d : Dev) (op : BitVec 4) (r : Byte) : Dev := { d with lc.op := op, lc.result := r }

/-! ## Challenges (14 R430) -/

/-- CHALLENGE. HELD serves no request (R428), and without a DRBG in service there is no challenge (11 R349, R351; log 183). -/
def challengeGo (d : Dev) : Dev :=
  if !lcOpen d then d
  else if d.glob.st = .held || !(d.rng.state == .ok || d.rng.state == .hold) then lcEnd d 1 lrState
  else
    let r := draw d 32
    lcEnd { r.2 with lc.chal := some (r.1, r.2.glob.tb) } 1 lrOk
def execChallenge (s : State) : Out3 := onDev s challengeGo

/-- CHALLENGE_EXPIRY: 600 s after it was drawn. -/
def challengeExpiryGo (d : Dev) : Dev :=
  match d.lc.chal with
  | some (_, t) => if 600000000000 ≤ (d.glob.tb - t).toNat then { d with lc.chal := none } else d
  | none => d
def execChallengeExpiry (s : State) : Out3 := onDev s challengeExpiryGo

/-! ## Moves and scopes (14 R421, R422) -/

/-- The signer that a move needs: 0 a vendor key, 1 an integrator key; none when the move is not permitted. -/
def moveSigner (from' to' : Nat) : Option Nat :=
  match from', to' with
  | 1, 2 => some 0
  | 2, 3 => some 1
  | 2, 4 => some 1
  | 3, 4 => some 1
  | 1, 5 => some 0
  | 2, 5 => some 1
  | 3, 5 => some 1
  | 4, 5 => some 0
  | _, _ => none

/-- The signers that may grant a scope in a state, as a mask: bit 0 a vendor key, bit 1 an integrator key; 0 when it is not
grantable. In MAKER the scopes are open and no token grants them. -/
def scopeSigners (code bit : Nat) : Nat :=
  match code, bit with
  | 2, 0 => 3
  | 2, 1 => 2
  | 2, 2 => 1
  | 3, 0 => 2
  | 4, 0 => 1
  | 4, 1 => 1
  | 4, 2 => 1
  | 4, 3 => 1
  | 4, 4 => 1
  | 4, 5 => 1
  | _, _ => 0

/-- A token's fields (14 R429). -/
structure Token where
  kind   : Nat := 0
  signer : Nat := 0
  devId  : Bytes := []
  chal   : Bytes := []
  boot   : U32 := 0
  target : Nat := 0
  scope  : U32 := 0
  secs   : Nat := 0
  pk     : Bytes := []
  body   : Bytes := []
  sig    : Bytes := []
  deriving DecidableEq, Repr

/-- Read the token window. -/
def readToken (w : SMap Byte) : Token :=
  let b := memRead w 0 0xA70
  { kind := (byteAt b 6).toNat, signer := (byteAt b 7).toNat, devId := slice b 8 16, chal := slice b 0x18 32, boot := u32At b 0x38
    target := (byteAt b 0x3C).toNat, scope := u32At b 0x40, secs := (u32At b 0x44).toNat, pk := slice b 0x50 2592, body := b
    sig := memRead w 0xA70 4627 }

/-- Whether a token is well formed. -/
def tokenOk (t : Token) : Bool :=
  u32At t.body 0 == 0x4E4B5451 && u16At t.body 4 == 1 && allZero (slice t.body 0x3D 3) && allZero (slice t.body 0x48 8)
    && ((t.kind == 1 && t.scope == 0 && t.secs == 0)
      || (t.kind == 2 && t.target == 0 && decide (1 ≤ t.secs) && decide (t.secs ≤ 86400)))

/-- Whether a signer's kind is one that the move or every grantable scope asked for permits. -/
def signerMay (code : Nat) (t : Token) : Bool :=
  let v := if t.signer ≤ 1 then 0 else 1
  if t.kind = 1 then (match moveSigner code t.target with | some k => k == v | none => true)
  else (List.range 6).all fun i => !t.scope.getLsbD i || scopeSigners code i == 0 || fbit (scopeSigners code i) v

/-- The first check that a token fails (14 R431). -/
def tokenFault (d : Dev) (t : Token) : Option Byte :=
  let code := d.glob.lcCode.toNat
  let bars := match d.lc.grant with | some g => grantBars g | none => false
  if !tokenOk t then some lrFormat
  else if !(isReady d || d.glob.st == .safe) || (t.kind == 1 && bars) then some lrState
  else if t.devId != devIdBytes d then some lrDevice
  else if !(match d.lc.chal with | some (c, _) => c == t.chal && t.boot == d.glob.bootCnt | none => false) then some lrChallenge
  else if !(decide (t.signer ≤ 3) && rowMatches (signerRow d.otp t.signer) t.pk && signerMay code t) then some lrSigner
  else if !mlDsa87 t.pk "SQ-LC-TOKEN" t.body t.sig then some lrSignature
  else if t.kind = 1 then (if (moveSigner code t.target).isNone then some lrMove else none)
  else if t.scope >>> 6 != 0 || (List.range 6).any (fun i => t.scope.getLsbD i && scopeSigners code i == 0) then some lrScope
  else none

/-! ## SUBMIT (14 R423, R431-R436) -/

/-- A grant takes effect. SCAN or MEMTEST first disables every queue with ABORT. Persistent and stateful keys that exist now are
barred for the length of a grant with HALT or SUPV in INTEGRATOR. -/
def grantNow (g : Grant) (d : Dev) : Dev :=
  let secs := (g.until' - d.glob.tb)
  let d1 := if grantBars g then
      let q := d.sqs.foldl (fun acc e => sqDisable acc e.1 4) d
      { q with cqs := mapAll {} (fun _ x => { x with en := false, timer := false }) q.cqs }
    else d
  let barred := if d.glob.lcCode = 2 && (g.scope.getLsbD 1 || g.scope.getLsbD 2) then
      d1.ks.slots.filterMap fun e => match e.2.obj with
        | some k => if k.persist || k.stateful then some (e.1 * 256 + (slotGen d1 e.2).toNat) else none
        | none => none
    else []
  amber { d1 with lc.grant := some { g with until' := d1.glob.tb + secs }, lc.barred := barred } .debugGrant .supv
    [g.scope.setWidth 8, g.signer.setWidth 8]

/-- Go on with a grant that waits for the soft zeroise of every owner's volatile keys: it begins once no other runs, and the grant
takes effect when it has ended. -/
def grantNext (d : Dev) : Dev :=
  match d.lc.want with
  | none => d
  | some (g, begun) =>
    if d.ks.zsoft.isSome then d
    else if begun then grantNow { g with until' := d.glob.tb + g.until' } { d with lc.want := none }
    else softStart { d with lc.want := some (g, true) } { all := true, owner := 0 }

/-- Start a grant: `until'` holds its length until it takes effect. The one in force ends. -/
def grantStart (g : Grant) (env : StartEnv) (d : Dev) : Dev :=
  let bars := match d.lc.grant with | some x => grantBars x | none => false
  let d1 := endGrant d
  let d2 :=
    if d.glob.lcCode = 2 && (g.scope.getLsbD 1 || g.scope.getLsbD 2) then
      let d2 := grantNext { d1 with lc.want := some (g, false) }
      if d2.ks.zsoft.isSome && !d2.jobs.live.any (match d2.ks.zsoft with | some z => softHits z | none => fun _ => false) then
        grantNext (zeroiseSoftGo d2)
      else d2
    else grantNow { g with until' := d1.glob.tb + g.until' } d1
  if bars then takeReset env .soft d2 else d2

/-- ZEROISE_SOFT: the soft zeroise ends, and with it the wait of a grant. -/
def execZeroiseSoft (s : State) : Out3 := onDev s fun d => grantNext (zeroiseSoftGo d)

/-- A token is refused: the challenge has ended, and nothing else changes. -/
def lcDenied (d : Dev) (r : Byte) (signer : Nat) : Dev :=
  lcCause (amber (lcEnd d 2 r) .lcDenied .supv [r, BitVec.ofNat 8 signer]) 2

/-- An accepted transition: the grant ends, INTENT is programmed in the lowest slot without one, and a soft reset follows. -/
def lcCommit (t : Token) (env : StartEnv) (d : Dev) : Dev :=
  match (List.range 4).find? fun s => (lcSlot d.otp s).intent == 0 with
  | none => lcDenied d lrOtp t.signer
  | some s =>
    if env.otpFail.contains 0 then lcDenied d lrOtp t.signer
    else
      let d1 := modLcSlot (endGrant d) s fun x => { x with intent := x.intent ||| intentBit t.target }
      takeReset env .soft (amber (lcEnd d1 2 lrOk) .lcStart .supv [BitVec.ofNat 8 s, BitVec.ofNat 8 t.target])

/-- SUBMIT. `env` is what the soft reset of an accepted transition meets; its OTP step 0 is the programming of INTENT. -/
def submitGo (env : StartEnv) (d : Dev) : Dev :=
  if !lcOpen d then d
  else
    let t := readToken d.lc.token
    match tokenFault d t with
    | some r => lcDenied { d with lc.chal := none } r t.signer
    | none =>
      let d1 := { d with lc.chal := none }
      if t.kind = 1 then lcCommit t env d1
      else grantStart { scope := t.scope.setWidth 6, signer := BitVec.ofNat 2 t.signer, until' := BitVec.ofNat 64 (t.secs * 1000000000) }
        env (lcEnd d1 2 lrOk)
def execSubmit (env : StartEnv) (s : State) : Out3 := onDev s (submitGo env)

/-- A grant ends by REVOKE or with its duration; one with SCAN or MEMTEST is followed by a soft reset. -/
def grantOver (env : StartEnv) (d : Dev) : Dev :=
  match d.lc.grant with
  | none => d
  | some g => if grantBars g then takeReset env .soft (endGrant d) else endGrant d

/-- REVOKE. -/
def revokeGo (env : StartEnv) (d : Dev) : Dev := if !lcOpen d then d else grantOver env (lcEnd d 3 lrOk)
def execRevoke (env : StartEnv) (s : State) : Out3 := onDev s (revokeGo env)

/-- DEBUG_GRANT_EXPIRY. -/
def debugGrantExpiryGo (env : StartEnv) (d : Dev) : Dev :=
  match d.lc.grant with
  | some g => if g.until' ≤ d.glob.tb then grantOver env d else d
  | none => d
def execDebugGrantExpiry (env : StartEnv) (s : State) : Out3 := onDev s (debugGrantExpiryGo env)

/-! ## Integrator keys (14 R432) -/

/-- Whether a key-hash row is blank. -/
def rowBlank (r : KeyRow) : Bool := r.hash.isEmpty && !r.valid && !r.kill

/-- IKH_PROGRAM: the digest of the key at offset 0 of the window goes into IKH0, or into IKH1 when IKH0 is not blank. `otpOk` says
that the row reads back. -/
def ikhProgramGo (otpOk : Bool) (d : Dev) : Dev :=
  if !lcOpen d || !barOk d 0 then d
  else if d.glob.st = .held then lcEnd d 4 lrState
  else
    let o := d.otp
    let i := if rowBlank o.ikh[0] then 0 else 1
    if d.glob.lcCode ≠ 2 || !rowBlank (signerRow o (2 + i)) then lcEnd d 4 lrOtp
    else
      let row : KeyRow := { hash := sha384 (memRead d.lc.token 0 2592), valid := otpOk }
      lcEnd { d with otp.ikh := o.ikh.setIfInBounds i row } 4 (if otpOk then lrOk else lrOtp)
def execIkhProgram (otpOk : Bool) (s : State) : Out3 := onDev s (ikhProgramGo otpOk)

/-! ## Halts (14 R433, R434; 08 R289) -/

/-- Whether the debugger reaches the device: through the debug TAP, in a state in which the sequencers and the supervisor run. -/
def debugReach (d : Dev) : Bool := d.jtag.insn == .debug && (isReady d || d.glob.st == .safe)

/-- DEBUG_HALT: a sequencer under HALT, at once where it stands at a boundary or yield point, else at the next one (08 R287); the
supervisor under SUPV. -/
def debugHaltGo (u : Nat) (op : DebugOp) (d : Dev) : Dev :=
  if !debugReach d then d
  else
    match op with
    | .seq =>
      if !scopeOpen d 1 || 28 ≤ u || (getStore d u).halted then d
      else takeHalt (modStore d u fun x => { x with haltReq := true }) u
    | .supv => if scopeOpen d 2 then { d with lc.supvHalt := true } else d
    | .step => d
    | .go => d
    | .arch _ => d
def execDebugHalt (u : Nat) (op : DebugOp) (s : State) : Out3 := onDev s (debugHaltGo u op)

/-- The architectural state of a halted sequencer that the debugger reads: registers and tile bytes of a core, Slate or node-buffer
lines (08 R289, 14 R433). -/
def archRead (d : Dev) (u : Nat) (sel : ArchSel) : Bytes :=
  if u < 16 then
    let k := getCore d u
    match sel with
    | .x n => le64 (xGet k.live n)
    | .v n => leBytes 256 (vReg k.live n.toNat).toNat
    | .m n => leBytes 32 (mReg k.live n.toNat).toNat
    | .ccr n => le64 (ccrRead k.live n)
    | .pc => le16 k.live.pc
    | .line n => memRead k.tile (64 * n) 64
  else
    match sel with
    | .line n => memRead (if u < 24 then (getMe d (u - 16)).slate else (getTs d (u - 24)).node) (64 * n) 64
    | _ => []

/-- DEBUG_STEP: a halted sequencer runs its next command, or goes on, or shows its architectural state; the supervisor goes on. The
cycles of the halt do not count toward the yield distance (09 R302). -/
def debugStepGo (u : Nat) (op : DebugOp) (d : Dev) : Dev :=
  if !debugReach d then d
  else
    match op with
    | .step =>
      if scopeOpen d 1 && (getStore d u).halted then
        modCore (modStore d u fun x => { x with stepOk := true }) u fun k => { k with resumed := true }
      else d
    | .go =>
      if !scopeOpen d 1 then d
      else if (getStore d u).halted then
        modCore (modStore { d with lc.halted := d.lc.halted.filter (· != u) } u fun x => { x with halted := false, atYld := false, stepOk := false })
          u fun k => { k with resumed := true }
      else modStore d u fun x => { x with haltReq := false }
    | .supv => if scopeOpen d 2 then { d with lc.supvHalt := false, bdr.wdogAt := d.glob.tb } else d
    | .arch sel => if scopeOpen d 1 && (getStore d u).halted then { d with hif.out := d.hif.out ++ [.jtag (archRead d u sel)] } else d
    | .seq => d
def execDebugStep (u : Nat) (op : DebugOp) (s : State) : Out3 := onDev s (debugStepGo u op)

end Sys2Proof.Machine
end

