-- ==== Sys2Proof/Machine/Pcie.lean ====
section
/-!
DEFINITION. The PCIe functions as software and the link move them: Bus Master Enable, power states, MSI-X masks, PF event messages,
the link's width and speed, poisoned writes (19 R534-R536, R544-R549).
-/
namespace Sys2Proof.Machine

/-- Whether a function answers on the link: the link is up and, for a VF, VF Enable is set (19 R531, 13 R401). -/
def fnThere (d : Dev) (f : Nat) : Bool := d.hif.linkUp && d.glob.st != .bedrock && (f == 0 || (d.hif.vfEn && decide (f ≤ d.hif.numVfs.toNat)))

/-- Whether the endpoint may be asked although configuration space is not ready: nothing holds the device in reset (01 R27, 20 R568). -/
def endpointUp (d : Dev) : Bool := !d.glob.porAsserted && d.glob.vddBr && !d.glob.perstAsserted && !d.glob.jtagHold

/-- A configuration request of a function: Request Retry Status until configuration space is ready (R532), Unsupported Request for a
function that is not there. -/
def cfgRequest (f : Nat) (g : Dev → Dev) (d : Dev) : Dev :=
  if fnThere d f then g d
  else if d.glob.st = .bedrock then if endpointUp d then emit d (.retry f) else d
  else if d.hif.linkUp then emit d (.ur f) else d

/-! ## The configuration header (R532; 00 R2) -/

/-- An item of a function's configuration space: its bytes and its value. The serial number is bits [63:0] of the device ID. A VF has no
SR-IOV capability: those items read 0. -/
def cfgItem (d : Dev) (f : Nat) : CfgItem → Nat × Nat
  | .vendorId => (2, 0x1FD7)
  | .deviceId => (2, if f = 0 then 0x4816 else 0x4817)
  | .revisionId => (1, 0xB0)
  | .classCode => (3, 0x108000)
  | .subsystemVendorId => (2, 0x1FD7)
  | .subsystemId => (2, 0x0001)
  | .serialNumber => (8, (d.glob.devId.setWidth 64).toNat)
  | .totalVfs | .initialVfs => (2, if f = 0 then 255 else 0)
  | .numVfs => (2, if f = 0 then d.hif.numVfs.toNat else 0)
  | .vfEnable => (1, if f = 0 && d.hif.vfEn then 1 else 0)
  | .firstVfOffset | .vfStride => (2, if f = 0 then 1 else 0)
  | .vfDeviceId => (2, if f = 0 then 0x4817 else 0)
  | .supportedPageSizes => (4, if f = 0 then 0x13 else 0)
  | .busMaster => (1, (getFn d f).bme.toNat)
  | .memorySpace => (1, (getFn d f).mse.toNat)
  | .powerState => (1, if (getFn d f).d3hot then 3 else 0)
  | .msixEnable => (1, (getFn d f).msixEn.toNat)
  | .functionMask => (1, (getFn d f).fnMask.toNat)
  | .timeout => (1, (getFn d f).cto.toNat)
  | .payload => (2, (getFn d f).mps)
  | .readRequest => (2, (getFn d f).mrrs)
  | .relaxedOrdering => (1, (getFn d f).relaxEn.toNat)

/-- A read of configuration space: its completion. -/
def cfgRead (f : Nat) (i : CfgItem) (d : Dev) : Dev := emit d (.cpl f (leBytes (cfgItem d f i).1 (cfgItem d f i).2))

/-! ## Bus Master Enable and power states (R534, R535) -/

/-- Issue the requests of a function that waited, in order. -/
def flushWaiting (d : Dev) (f : Nat) : Dev :=
  let ws := d.hif.waiting.filter fun o => outFn o == some f
  ws.foldl emit { d with hif.waiting := d.hif.waiting.filter fun o => outFn o != some f }

/-- BUS_MASTER_ENABLE: a write of the command register's Bus Master Enable and Memory Space Enable. -/
def busMasterGo (f : Nat) (bme mse : Bool) : Dev → Dev :=
  cfgRequest f fun d =>
    let d1 := setFn d f { getFn d f with bme := bme, mse := mse }
    if bme then flushWaiting d1 f else d1
def execBusMasterEnable (f : Nat) (bme mse : Bool) (s : State) : Out3 := onDev s (busMasterGo f bme mse)

/-- Send the held messages of a function that nothing masks any more (R534, R545). -/
def flushPend (d : Dev) (f : Nat) : Dev :=
  let p := getFn d f
  if p.fnMask || !p.msixEn || p.d3hot then d
  else
    (d.hif.msix.filter fun e => e.1 / 2112 == f && e.2.pend && !e.2.mask).foldl (fun acc e =>
      emit (setVec acc f (e.1 % 2112) { e.2 with pend := false }) (.msix f (e.1 % 2112) e.2.addr e.2.data)) d

/-- POWER_STATE_CHANGE: a function enters D3hot or returns to D0. -/
def powerGo (f : Nat) (d3hot : Bool) : Dev → Dev :=
  cfgRequest f fun d => flushPend (setFn d f { getFn d f with d3hot := d3hot }) f
def execPowerStateChange (f : Nat) (d3hot : Bool) (s : State) : Out3 := onDev s (powerGo f d3hot)

/-- MSIX_UNMASK: a write of a vector's mask, or of MSI-X Enable and the Function Mask. -/
def msixGo (f : Nat) (w : MsixWrite) (d : Dev) : Dev :=
  match w with
  | .vector v masked =>
    if !fnThere d f || vecCount d f ≤ v then d else flushPend (setVec d f v { getVec d f v with mask := masked }) f
  | .function en masked => cfgRequest f (fun d => flushPend (setFn d f { getFn d f with msixEn := en, fnMask := masked }) f) d
def execMsixUnmask (f : Nat) (w : MsixWrite) (s : State) : Out3 := onDev s (msixGo f w)

/-! ## PF events (R547, R549) -/

/-- Whether a PF event source has a cause set. -/
def evSource (d : Dev) (n : Nat) : Bool :=
  let store (lo hi : Nat) : Bool := (List.range 28).any fun u => decide (lo ≤ u) && decide (u < hi) && (getStore d u).event
  match n with
  | 0 => d.hif.event != 0
  | 1 => (List.range 16).any (fun c => (getEng d c).lastValid) || store 0 16
  | 2 => store 24 28
  | 3 => (List.range 8).any (fun i => (getEng d (16 + i)).rchkEvent) || store 16 24
  | 4 => d.ks.zdone || d.ks.pfull
  | 5 => d.vfm.event != 0
  | 6 => d.dlr.dutyEvent
  | 7 => d.rng.event != 0
  | 8 => d.ss.event != 0
  | 9 => d.recd.event != 0
  | 10 => d.amb.event != 0
  | 11 => d.bdr.fault &&& 0x10F != 0
  | 12 => d.fab.event != 0
  | 13 => d.lc.event != 0
  | 14 => d.boot.event != 0
  | 15 => d.bist.event != 0
  | 16 => d.tmon.event != 0
  | _ => false

/-- A write of `GLB_EVMASK`: each source unmasked while it reads 1 requests one message (R549 rule 4). -/
def evMaskGo (v : U32) (d : Dev) : Dev :=
  if !ctlServed d then d
  else
    let old := d.glob.evMask
    (List.range 17).foldl (fun acc n => if old.getLsbD n && !v.getLsbD n && evSource acc n then evRequest acc n else acc)
      { d with glob.evMask := v.setWidth 17 }
def execEvmaskWrite (v : U32) (s : State) : Out3 := onDev s (evMaskGo v)

/-- EVENT_HOLDOFF_EXPIRY: 1 µs has passed since a PF event vector's last message; a request that was carried goes now (R549 rule 5). -/
def holdoffGo (v : Nat) (d : Dev) : Dev :=
  if !d.glob.evHold.contains v then d
  else if d.glob.evCarry.contains v then msixSend { d with glob.evCarry := d.glob.evCarry.filter (· != v) } 0 v
  else { d with glob.evHold := d.glob.evHold.filter (· != v) }
def execEventHoldoffExpiry (v : Nat) (s : State) : Out3 := onDev s (holdoffGo v)

/-! ## The link (R531, R536, R544) -/

/-- LINK_RETRAIN: the link trains at a speed (3, 4, 5 for 8, 16, 32 GT/s) and a width. A member's stays in Detect.Quiet. -/
def linkRetrainGo (speed width : Nat) (d : Dev) : Dev :=
  if d.glob.st = .bedrock || isMember d || !([3, 4, 5].contains speed) || !([1, 2, 4, 8].contains width) then d
  else
    let d1 := { d with hif := { d.hif with linkUp := true, speed := BitVec.ofNat 3 speed, width := BitVec.ofNat 4 width } }
    hifCause d1 ((if d.hif.linkUp then 0x10 else 0) ||| if speed < 5 || width < 8 then 0x1 else 0)
def execLinkRetrain (speed width : Nat) (s : State) : Out3 := onDev s (linkRetrainGo speed width)

/-- POISONED_BAR_WRITE. -/
def poisonedGo (f off : Nat) (d : Dev) : Dev :=
  if !fnThere d f then d
  else
    let h := d.hif
    let d1 := { d with hif := { h with errPoison := satInc h.errPoison, aerPoison := true, out := h.out ++ [.aerPoison f] } }
    hifCause (hifLastErr d1 f 5 0 (BitVec.ofNat 32 off)) 0x8
def execPoisonedBarWrite (f off : Nat) (s : State) : Out3 := onDev s (poisonedGo f off)

end Sys2Proof.Machine
end

