-- ==== Sys2Proof/Machine/QueueCmds.lean ====
section
/-!
DEFINITION. The commands on queues, doorbells, fetches, placements and data (02, 09, 19).
-/
namespace Sys2Proof.Machine

def execSqDoorbell (f q : Nat) (tail : U32) (s : State) : Out3 := onDev s (sqDoorbellGo f q tail)
def execCqHeadDoorbell (f q : Nat) (head : U32) (s : State) : Out3 := onDev s (cqDoorbellGo f q head)
/-- A 64-bit doorbell write: the tail takes effect first (02 R52). -/
def execDoorbell64 (f q : Nat) (tail head : U32) (s : State) : Out3 :=
  onDev s fun d => cqDoorbellGo f q head (sqDoorbellGo f q tail d)
def execPushWindowWrite (f q off : Nat) (data : Bytes) (s : State) : Out3 := onDev s (pushWriteGo f q off data)
def execEntryFetch (o : Nat) (s : State) : Out3 := onDev s (entryFetchGo o)
def execEntryReadDone (q : Nat) (r : DmaRes) (s : State) : Out3 := onDev s (entryReadDoneGo q r)
def execDmaReadCompletion (j : Nat) (side : DmaSide) (r : DmaRes) (s : State) : Out3 :=
  onDev s (dmaReadCompletionGo j side r)
def execDmaReadTimeout (t : DmaTarget) (s : State) : Out3 := onDev s (dmaReadTimeoutGo t)
def execOutputListChecked (j : Nat) (s : State) : Out3 := onDev s (outputListCheckedGo j)

/-- The coalescing timer of a device CQ expires (02 R62). -/
def coalTimerExpiryGo (c : Nat) (d : Dev) : Dev :=
  let q := getCq d c
  if q.timer && 0 < q.unsig then cqMessage d c else d
def execCoalTimerExpiry (c : Nat) (s : State) : Out3 := onDev s (coalTimerExpiryGo c)

/-- A write of `Q_SQ_CFG` with EN = 1 (02 R69, R73). -/
def sqEnableGo (f j : Nat) (v : U64) (d : Dev) : Dev :=
  if !barOk d f then d
  else match sqDev d f j with | some q => sqEnable d f q v | none => d
def execSqEnable (f q : Nat) (v : U64) (s : State) : Out3 := onDev s (sqEnableGo f q v)

/-- A write of `Q_SQ_CFG` with EN = 0 (02 R74). -/
def sqDisableGo (f j : Nat) (v : U64) (d : Dev) : Dev :=
  if !barOk d f then d
  else match sqDev d f j with | some q => sqDisable d q v | none => d
def execSqDisable (f q : Nat) (v : U64) (s : State) : Out3 := onDev s (sqDisableGo f q v)

/-- A write of `Q_CQ_CFG` with EN = 1 (02 R76). -/
def cqEnableGo (f j : Nat) (v : U64) (d : Dev) : Dev :=
  if !barOk d f then d
  else match cqDev d f j with | some c => cqEnable d f c v | none => d
def execCqEnable (f q : Nat) (v : U64) (s : State) : Out3 := onDev s (cqEnableGo f q v)

/-- A write of `Q_CQ_CFG` with EN = 0 (02 R75). -/
def cqDisableGo (f j : Nat) (v : U64) (d : Dev) : Dev :=
  if !barOk d f then d
  else match cqDev d f j with | some c => cqDisable d c v | none => d
def execCqDisable (f q : Nat) (v : U64) (s : State) : Out3 := onDev s (cqDisableGo f q v)

/-- A write of `Q_SQ_HEAD` while EN = 0 sets HEAD and TAIL (02 R68). -/
def sqHeadWriteGo (f j : Nat) (v : U32) (d : Dev) : Dev :=
  if !barOk d f then d
  else
    match sqDev d f j with
    | some q => modSq d q fun s => if s.en then s else { s with head := v, tail := v }
    | none => d
def execSqHeadWrite (f q : Nat) (v : U32) (s : State) : Out3 := onDev s (sqHeadWriteGo f q v)

/-- A write of `Q_CQ_PTR` while EN = 0 sets TAIL and HEAD (02 R71). -/
def cqPtrWriteGo (f j : Nat) (v : U32) (d : Dev) : Dev :=
  if !barOk d f then d
  else
    match cqDev d f j with
    | some c => modCq d c fun q => if q.en then q else { q with head := v, tail := v }
    | none => d
def execCqPtrWrite (f q : Nat) (v : U32) (s : State) : Out3 := onDev s (cqPtrWriteGo f q v)

end Sys2Proof.Machine
end

