-- ==== Sys2Proof/Machine/Update.lean ====
section
/-!
DEFINITION. Live update: the commands of `BOOT_CMD`, the rollout of components, staging and swaps, the supervisor's hand-over
(15 R446-R455; 08 R290-R292; 07 R263).
-/
namespace Sys2Proof.Machine

/-! ## Commands (15 R449, R450, R456, R457) -/

/-- Whether a write of `BOOT_CMD` acts: not while a command is in progress. -/
def bootOpen (d : Dev) : Bool := ctlServed d && !d.boot.busy
/-- Whether the NVM does not answer. -/
def nvmDown (d : Dev) : Bool := d.boot.nvmErr || d.boot.nvmGone
/-- The inactive slot. -/
def idleSlot (d : Dev) : Nat := otherSlot (if d.boot.recovery then d.boot.dir.active else d.boot.slot)

/-- A command of `BOOT_CMD` ends. -/
def bootEnd (d : Dev) (r : Byte) : Dev :=
  bootCause { d with boot := { d.boot with busy := false, result := r, step := 0, rollout := [], stepDone := false, handover := false } } 1

/-- Run a command of `BOOT_CMD`: it is refused with STATE in HELD or when its preconditions fail, and with NVM when the NVM does not
answer. -/
def bootCmd (op : BitVec 4) (pre : Bool) (run : Dev → Dev) (d : Dev) : Dev :=
  if !bootOpen d then d
  else
    let d1 := { d with boot.op := op }
    if d.glob.st = .held || !pre then bootEnd d1 brState
    else if nvmDown d then bootEnd d1 brNvm
    else run { d1 with boot.inst := 0, boot.done := 0 }

/-- The reads of an image: each one has come before more than 256 are outstanding, so none is when the command ends. -/
def imageRead (d : Dev) (addr : U64) (n : Nat) : Dev :=
  (readPieces 0 (getFn d 0).mrrs .image n addr.toNat n).foldl
    (fun acc o => { emit { acc with hif.reads := [] } o with hif.reads := d.hif.reads }) d

/-- WRITE_SLOT: the read of the host's image and its programming. A length outside 1 byte to 15 MiB is a FORMAT refusal. -/
def writeSlotRun (r : DmaRes) (d : Dev) : Dev :=
  let n := d.boot.hlen.toNat
  let addr : U64 := d.boot.haddr &&& ~~~0xFFF
  if n = 0 || slotBytes < n then bootEnd d brFormat
  else
    let d2 := imageRead d addr n
    match r with
    | .data b =>
      let s := idleSlot d
      let d3 := { d2 with boot.nvm := nvmWrite d2.boot.nvm (slotBase s) (fit n b), hif.rdBytes := d2.hif.rdBytes + BitVec.ofNat 64 n
                          boot.verified := false, boot.stgRel := 0 }
      bootEnd (dirWrite d3 (setSlotState s slWritten)) brOk
    | f => bootEnd (readFailed d2 0 (failKind f) 0 addr) brDma
def writeSlotGo (r : DmaRes) (d : Dev) : Dev := bootCmd 1 (slotState d.boot.dir (idleSlot d) != slTrial) (writeSlotRun r) d
def execWriteSlot (r : DmaRes) (s : State) : Out3 := onDev s (writeSlotGo r)

/-- VERIFY. -/
def verifyRun (d : Dev) : Dev :=
  let s := idleSlot d
  let d0 := { d with boot.verified := false, boot.stgRel := 0 }
  match authSlot d s with
  | .error r => bootEnd d0 r
  | .ok (v, i) =>
    if !compsGood d.boot.nvm s (v.comps ++ i.comps) (fun _ => true) then bootEnd d0 brHash
    else
      match customFault d d.boot.nvm s (customComps i) with
      | some p => bootEnd { d0 with boot.inst := BitVec.ofNat 8 p } brCustom
      | none => bootEnd { d0 with boot.verified := true, boot.stgRel := relWord s v } brOk
def verifyGo (d : Dev) : Dev :=
  let st := slotState d.boot.dir (idleSlot d)
  bootCmd 2 (st == slWritten || st == slGood) verifyRun d
def execVerify (s : State) : Out3 := onDev s verifyGo

/-! ## Measurements (15 R452, 12 R392) -/

/-- Change a measurement. -/
def setMeas (d : Dev) (k : Nat) (m : Meas) : Dev := { d with boot.meas := d.boot.meas.set k m }
/-- The sections of the slot in use. -/
def slotSects (d : Dev) : Option (Sect × Sect) :=
  match readSect d.boot.nvm d.boot.slot 0 true with
  | none => none
  | some v => (readSect d.boot.nvm d.boot.slot (cdiv v.whole.length 4096 * 4096) false).map fun i => (v, i)

/-! ## Rollout (15 R451) -/

/-- The steps of a rollout in order: order and instance. -/
def rolloutSteps (mask : BitVec 7) : List (Nat × Nat) :=
  (List.range 7).flatMap fun k =>
    if mask.getLsbD k then
      (List.range (if k = 1 then 4 else if k = 2 then 8 else if k = 3 || k = 4 then 16 else 1)).map fun i => (k + 1, i)
    else []

/-- The sequencer of a step: orders 2 to 5. -/
def stepSeq (order inst : Nat) : Option Nat :=
  if order = 2 then some (24 + inst) else if order = 3 then some (16 + inst) else if order = 4 || order = 5 then some inst else none

/-- A command ends with a failure: an instance held for its swap returns to service. -/
def rollFail (d : Dev) (r : Byte) : Dev :=
  let d1 := match d.boot.rollout with
    | (k, i) :: _ => (match stepSeq k i with | some u => modStore d u fun x => { x with drain := false, staged := false, stgVer := 0, stgCrc := 0 } | none => d)
    | [] => d
  bootEnd { d1 with bdr.limit := 0x14 } r

/-- The blocks whose change in service is by ACTIVATE, beside the deal table, take effect with the values of the slot in use:
detector trims, THERMAL, RNG and RECORDER; an absent one takes its default. -/
def applyService (d : Dev) (m : SMap Bytes) : Dev :=
  let old := d.boot.blocks
  let d1 := { d with boot.blocks := [5, 7, 8, 9].foldl (fun acc k => mapSet [] acc k (mapGet [] m k)) old }
  let b7 := (cfgBlock d1 7).getD [0x69, 0x64, 4, 0]
  let b8 := (cfgBlock d1 8).getD [0x3C]
  let b9 := (cfgBlock d1 9).getD [0x3C, 0, 0x64, 0, 0, 0, 0, 0]
  let d2 := { d1 with
    dlr.dutyOn := byteAt b7 0, dlr.dutyOff := byteAt b7 1, dlr.dutyMax := (byteAt b7 2).setWidth 3
    rng.katInt := byteAt b8 0
    recd.ckptS := byteAt b9 0, recd.mirrorMs := (u16At b9 2).setWidth 10
    amb.tokens := (recOverrides b9).foldl (fun acc e => mapSet 8 acc e.1 e.2.1) []
    amb.refill := (recOverrides b9).foldl (fun acc e => mapSet 100 acc e.1 e.2.2) [] }
  setMeas d2 31 (measConfig d2.boot.blocks)

/-- The blocks of the slot in use, none when a digest or a block is wrong: with the RESULT. -/
def newBlocks (d : Dev) (i : Sect) : Except Byte (SMap Bytes) :=
  if !compsGood d.boot.nvm d.boot.slot i.comps (· == 0x10) then .error brHash
  else match loadBlocks d true (sectBlocks d.boot.nvm d.boot.slot i) with
    | .ok m => .ok m
    | .error _ => .error brFormat

/-- Begin the first step of the rollout that remains. -/
def stepBegin (d : Dev) : Dev :=
  match d.boot.rollout with
  | [] =>
    match slotSects d with
    | some (v, _) => bootEnd { d with boot.mixed := false, boot.imgRel := relWord d.boot.slot v } brOk
    | none => bootEnd { d with boot.mixed := false } brOk
  | (k, i) :: _ =>
    let d1 := { d with boot.step := BitVec.ofNat 4 k, boot.inst := BitVec.ofNat 8 i, boot.stepDone := false }
    if nvmDown d1 then rollFail d1 brNvm
    else
      match slotSects d1 with
      | none => rollFail d1 brFormat
      | some (v, ig) =>
        let n := d1.boot.nvm
        let s := d1.boot.slot
        match k with
        | 1 =>
          if compsGood n s v.comps (· == 1) then { d1 with boot.handover := true, bdr.limit := 0x64 } else rollFail d1 brHash
        | 5 => modStore d1 i fun x => { x with drain := true }
        | 6 =>
          if d1.dlr.pending || d1.dlr.chkBusy then d1
          else
            match newBlocks d1 ig with
            | .error r => rollFail d1 r
            | .ok m =>
              let b := mapGet [] m 2
              if b.isEmpty then { d1 with boot.stepDone := true }
              else commitTable { d1 with dlr.stg := tableOf b, boot.blocks := mapSet [] d1.boot.blocks 2 b, boot.stepDone := true }
        | 7 =>
          match newBlocks d1 ig with
          | .error r => rollFail d1 r
          | .ok m => { applyService d1 m with boot.stepDone := true }
        | _ =>
          match stepSeq k i with
          | some u =>
            match compFor v.comps (seqComp u).1 (seqComp u).2 with
            | some _ => modStore d1 u fun x => { x with staged := false, stgVer := 0, stgCrc := 0 }
            | none => { d1 with boot.stepDone := true }
          | none => d1

/-- Start a rollout from a slot. -/
def rollout (d : Dev) (s : Nat) : Dev :=
  stepBegin { d with boot.slot := s, boot.verified := false, boot.stgRel := 0, boot.busy := true, boot.rollout := rolloutSteps d.boot.mask }

/-- ACTIVATE. With no slot that authenticates, it marks the slot TRIAL and a soft reset follows (15 R447). -/
def activateRun (env : StartEnv) (d : Dev) : Dev :=
  let s := idleSlot d
  let d1 := dirWrite d fun r => { setSlotState s slTrial r with active := s, trials := 0 }
  if d.boot.recovery then takeReset env .soft (bootEnd d1 brOk) else rollout d1 s
def activateGo (env : StartEnv) (d : Dev) : Dev :=
  bootCmd 3 (d.boot.verified && (d.boot.recovery || slotState d.boot.dir d.boot.slot != slTrial)) (activateRun env) d
def execActivate (env : StartEnv) (s : State) : Out3 := onDev s (activateGo env)

/-- COMMIT: the slot is GOOD, and the minimums rise as the ADVANCE flags say. -/
def commitRun (d : Dev) : Dev :=
  match slotSects d with
  | none => bootEnd d brNvm
  | some (v, i) =>
    let d1 := dirWrite d (setSlotState d.boot.slot slGood)
    bootEnd { d1 with
      otp.svn := if v.flags.getLsbD 1 then max d1.otp.svn v.svn else d1.otp.svn
      boot.cfgMin := if i.flags.getLsbD 1 && d1.boot.cfgMin < i.rel then i.rel else d1.boot.cfgMin } brOk
def commitGo (d : Dev) : Dev :=
  bootCmd 4 (isReady d && slotState d.boot.dir d.boot.slot == slTrial && !d.boot.mixed) commitRun d
def execCommit (s : State) : Out3 := onDev s commitGo

/-- ROLLBACK. -/
def rollbackRun (d : Dev) : Dev :=
  let s := d.boot.slot
  let o := otherSlot s
  rollout (dirWrite d fun r => { setSlotState s slBad r with active := o, trials := 0 }) o
def rollbackGo (d : Dev) : Dev :=
  bootCmd 5 (!d.boot.recovery && slotState d.boot.dir d.boot.slot == slTrial && slotState d.boot.dir (otherSlot d.boot.slot) == slGood)
    rollbackRun d
def execRollback (s : State) : Out3 := onDev s rollbackGo

/-- Whether a staged dispatch table keeps every index that a custom image of the core uses: enabled, contracted, not vendor-only, CYCLES
and LAT unchanged (08 R281). -/
def tableKeeps (d : Dev) (u : Nat) (bs : Bytes) : Bool :=
  16 ≤ u || (List.range 64).all fun p =>
    match customAt d u p with
    | none => true
    | some i =>
      (List.range (parseImg i.bytes).codeLen).all fun k =>
        let x := dispIndex (u32At i.bytes (64 + 4 * k)).toNat
        let new := dispIn bs u x
        new.serves true && (dispAt d u x).all fun old => old.cycles == new.cycles && old.lat == new.lat

/-- UCODE_STAGE: the staging of the instance in progress ends. `crcOk` is the outcome of the bank's CRC-32C; the staged table is
checked against the core's custom images (08 R281, R291). -/
def ucodeStageGo (u : Nat) (crcOk : Bool) (d : Dev) : Dev :=
  match d.boot.rollout with
  | (k, i) :: _ =>
    if !d.boot.busy || k < 2 || 4 < k || stepSeq k i ≠ some u || d.boot.stepDone || (getStore d u).staged then d
    else if nvmDown d then rollFail d brNvm
    else
      match (slotSects d).bind fun x => compFor x.1.comps (seqComp u).1 (seqComp u).2 with
      | none => rollFail d brFormat
      | some c =>
        if crcOk && compGood d.boot.nvm d.boot.slot c && tableKeeps d u (compBytes d.boot.nvm d.boot.slot c) then
          modStore d u fun x => fillOther (compBytes d.boot.nvm d.boot.slot c)
            { x with staged := true, stgVer := c.version, stgCrc := c.crc, drain := true }
        else
          let bank : Byte := if (getStore d u).bank then 0 else 1
          rollFail (amber (modStore d u fun x => { x with fails := satInc x.fails }) .ucodeStage .supv [BitVec.ofNat 8 u, bank]) brHash
  | [] => d
def execUcodeStage (u : Nat) (crcOk : Bool) (s : State) : Out3 := onDev s (ucodeStageGo u crcOk)

/-- The measurement of a sequencer's component of a release. -/
def measSeq (cs : List Comp) (u : Nat) : Meas := if u < 16 then measCore cs u else measOf (compFor cs (seqComp u).1 (seqComp u).2)
/-- The place of a sequencer's measurement. -/
def measSlot (u : Nat) : Nat := u + 2

/-- Steps 3 to 5 of a bank swap: the instance runs the staged release. -/
def swapNow (d : Dev) (u : Nat) : Dev :=
  let cs := match slotSects d with | some (v, i) => v.comps ++ i.comps | none => []
  let d1 := modStore d u fun x => { swapBank x with progs := vendorProgs d.boot.nvm d.boot.slot cs u }
  setMeas { d1 with boot.mixed := true, boot.stepDone := true, boot.done := d1.boot.done + 1 } (measSlot u) (measSeq cs u)

/-- A core's custom area takes the images of the slot in use. -/
def customNow (d : Dev) (c : Nat) : Dev :=
  let cs := match slotSects d with | some (_, i) => customComps i | none => []
  let d1 := modStore { d with boot.custom := installCore d d.boot.nvm d.boot.slot cs d.boot.custom c } c fun x => { x with drain := false }
  setMeas { d1 with boot.mixed := true, boot.stepDone := true, boot.done := d1.boot.done + 1 } 30 (measCustom d1.boot.custom)

/-- A bank with an uncorrectable error is written again from the slot in use, before its sequencer is tested (08 R267, 15 R455). -/
def reloadBank (d : Dev) (c : Nat) : Dev :=
  match cellSeq c with
  | none => d
  | some u =>
    if !(getStore d u).reload then d
    else
      match (slotSects d).bind fun x => compFor x.1.comps (seqComp u).1 (seqComp u).2 with
      | some k => modStore d u fun x =>
          let bs := compBytes d.boot.nvm d.boot.slot k
          if x.bank then { x with bankB := bs, reload := false } else { x with bankA := bs, reload := false }
      | none => modStore d u fun x => { x with reload := false }

/-- INSTANCE_DRAINED: a test of the instance begins, after the reload of a bank that failed, or its swap runs. A swap waits for a test
of its kind. -/
def instanceDrainedGo (c : Nat) (d : Dev) : Dev :=
  if 32 ≤ c || !(isReady d || d.glob.st == .safe) || !cellIdle d c || cellHalted d c then d
  else if (getEng d c).svc = .draining then
    if testTurn d c then modEng (reloadBank d c) c fun r => { r with svc := .inTest } else d
  else
    match d.boot.rollout, cellSeq c with
    | (k, i) :: _, some u =>
      if stepSeq k i ≠ some u || !(getStore d u).drain || kindTested d c || nvmDown d then d
      else if k = 5 then customNow d c
      else if (getStore d u).staged then swapNow d u
      else d
    | _, _ => d
def execInstanceDrained (c : Nat) (s : State) : Out3 := onDev s (instanceDrainedGo c)

/-- ROLLOUT_STEP_DONE: the step in progress has ended and the next one begins. The deal table's ends once its table has taken effect
or has been refused. -/
def rolloutStepDoneGo (d : Dev) : Dev :=
  match d.boot.rollout with
  | (k, _) :: rest =>
    if !d.boot.busy then d
    else if k = 6 && (d.dlr.pending || d.dlr.chkBusy) then d
    else if k = 6 && !d.boot.stepDone then stepBegin d
    else if !d.boot.stepDone then d
    else
      let n := if k = 2 || k = 3 || k = 4 || k = 5 then d.boot.done else d.boot.done + 1
      stepBegin { d with boot.rollout := rest, boot.done := n }
  | [] => d
def execRolloutStepDone (s : State) : Out3 := onDev s rolloutStepDoneGo

/-! ## Hand-over (15 R453) -/

/-- Whether the supervisor is at a quiet point: no planner run, APPLY, recalibration or fate query is in progress. -/
def supvQuiet (d : Dev) : Bool :=
  !d.dlr.chkBusy && d.vfm.apply.isNone && (d.rng.srcs.toList.all fun s => s.state != .recal) && d.jrn.fq.all fun e => !e.2.busy
/-- SUPV_HANDOVER_REPORT. -/
def supvHandoverReportGo (d : Dev) : Dev :=
  if !d.boot.handover || !supvQuiet d then d
  else
    let m := match slotSects d with | some (v, _) => measOf (v.comps.find? fun c => c.type == 1) | none => {}
    setMeas { d with boot.handover := false, boot.stepDone := true, boot.mixed := true, bdr.limit := 0x14 } 1 m
def execSupvHandoverReport (s : State) : Out3 := onDev s supvHandoverReportGo
/-- SUPV_HANDOVER_FAIL. -/
def supvHandoverFailGo (d : Dev) : Dev :=
  if !d.boot.handover then d else rollFail (amber d .supvHandoverFail .supv []) brHandover
def execSupvHandoverFail (s : State) : Out3 := onDev s supvHandoverFailGo

/-! ## The NVM in service (15 R449) -/

/-- NVM_FAIL. -/
def nvmFailGo (d : Dev) : Dev :=
  if !isReady d || d.boot.nvmErr then d else bootCause (amber { d with boot.nvmErr := true } .nvmFail .supv []) 4
def execNvmFail (s : State) : Out3 := onDev s nvmFailGo

end Sys2Proof.Machine
end

