-- ==== Sys2Proof/Machine/Regs.lean ====
section
/-!
DEFINITION. The registers of PF BAR0 and of the VFs' BAR0: what each reads, and what a write of it does (19 R551-R554 and the field
tables of the other chapters).
-/
namespace Sys2Proof.Machine

/-- A register: 64-bit or 32-bit, the value it reads, what a write of a whole value does, the RW fields of the low half of a 64-bit
register (00 R8), and what a read changes. -/
structure RegDef where
  wide : Bool := false
  get  : Dev → Nat := fun _ => 0
  put  : Nat → Dev → Dev := fun _ d => d
  low  : Dev → Nat := fun _ => 0
  side : Dev → Dev := id

def ro32 (g : Dev → Nat) : RegDef := { get := g }
def ro64 (g : Dev → Nat) : RegDef := { wide := true, get := g }
/-- The value of a counter as a register reads it. -/
def bv {w : Nat} (v : BitVec w) : Nat := v.toNat
/-- A RW1C field after a write: the bits written 1 are cleared (00 R10). -/
def w1c {w : Nat} (c : BitVec w) (v : Nat) : BitVec w := c &&& ~~~(BitVec.ofNat w v)
def w32 (v : Nat) : U32 := BitVec.ofNat 32 v
def w64 (v : Nat) : U64 := BitVec.ofNat 64 v

/-! ## Global registers (01 R28, R34, R35; 19 R553) -/

/-- The bits of `GLB_EVMAP`j that are not reserved. -/
def evMapMask (j : Nat) : U64 := if j < 2 then 0x3F3F3F3F3F3F3F3F else 0x3F
/-- The seconds of the wall time. -/
def wallSec (d : Dev) : Nat := (wallNow d).toNat / 1000000000

def glbReg (off : Nat) : Option RegDef :=
  match off with
  | 0x00 => some (ro64 fun d => bv d.glob.devId % 2 ^ 64)
  | 0x08 => some (ro64 fun d => bv d.glob.devId / 2 ^ 64)
  | 0x10 => some (ro32 fun d => packW [(0, bv (devStateCode d.glob.st)), (8, bv d.glob.step), (16, bv d.glob.safeCause)])
  | 0x18 => some { put := fun v d => if fbit v 0 then softResetGo (BitVec.ofNat 16 (v / 65536)) {} d else d }
  | 0x20 => some { get := fun d => bv d.glob.rstCause, put := fun v d => { d with glob.rstCause := w1c d.glob.rstCause v } }
  | 0x28 => some (ro64 fun d => bv d.glob.tb)
  | 0x30 => some (ro32 fun d => bv d.glob.bootCnt)
  | 0x38 => some { wide := true, get := wallSec, put := fun v d => { d with glob.wallSHeld := w64 v }
                   low := fun d => bv d.glob.wallSHeld % 2 ^ 32
                   side := fun d => { d with glob.wallNsCap := BitVec.ofNat 30 ((wallNow d).toNat % 1000000000) } }
  | 0x40 => some { get := fun d => packW [(0, bv d.glob.wallNsCap), (31, b2n d.glob.wallSet)], put := fun v d => wallCommitGo (w32 v) d }
  | 0x48 => some (ro32 fun d => packW ((List.range 17).map fun n => (n, b2n (evSource d n))))
  | 0x4C => some { get := fun d => bv d.glob.evMask, put := fun v d => evMaskGo (w32 v) d }
  | 0x50 => some (evMapReg 0)
  | 0x58 => some (evMapReg 1)
  | 0x60 => some (evMapReg 2)
  | _ => none
where
  evMapReg (j : Nat) : RegDef :=
    let cur (d : Dev) : U64 := d.glob.evMap.toList.getD j 0
    { wide := true, get := fun d => bv (cur d), low := fun d => bv (cur d) % 2 ^ 32
      put := fun v d => { d with glob.evMap := d.glob.evMap.setIfInBounds j (w64 v &&& evMapMask j) } }

/-! ## Life cycle (14 R437, R438) -/

/-- A write of `LC_CMD`. -/
def lcCmdPut (v : Nat) (d : Dev) : Dev :=
  if !lcOpen d then d
  else
    let d1 := { d with lc.op := BitVec.ofNat 4 v }
    if !fbit v 8 then d1
    else match v % 16 with
      | 1 => challengeGo d1
      | 2 => submitGo {} d1
      | 3 => revokeGo {} d1
      | 4 => ikhProgramGo true d1
      | _ => d1

/-- The scopes in force: in MAKER every scope is open (14 R421). -/
def scopeBits (d : Dev) : Nat := if d.glob.lcCode == 1 then 0x3F else match d.lc.grant with | some g => bv g.scope | none => 0

def lcReg (off : Nat) : Option RegDef :=
  match off with
  | 0x00 => some (ro64 lcStatWord)
  | 0x08 => some { get := fun d => packW [(0, bv d.lc.op), (16, bv d.lc.result), (31, b2n d.lc.want.isSome)], put := lcCmdPut }
  | 0x10 => some (chal 0)
  | 0x18 => some (chal 1)
  | 0x20 => some (chal 2)
  | 0x28 => some (chal 3)
  | 0x30 => some (ro64 fun d => match d.lc.grant with
      | some g => packW [(0, scopeBits d), (8, bv g.signer), (32, (g.until' - d.glob.tb).toNat / 1000000000)]
      | none => scopeBits d)
  | 0x38 => some { get := fun d => bv d.lc.event, put := fun v d => { d with lc.event := w1c d.lc.event v } }
  | _ => none
where
  chal (i : Nat) : RegDef := ro64 fun d => match d.lc.chal with | some c => leNat (slice c.1 (8 * i) 8) | none => 0

/-! ## Boot (15 R457) -/

/-- The bytes that a WRITE_SLOT started by a bare register write reads from the host: free values (log 4). -/
def freeBytes (d : Dev) (n : Nat) : Bytes := (List.range n).map fun i => (Config.open64 (d.glob.freeCtr + i)).setWidth 8

/-- A write of `BOOT_CMD`. -/
def bootCmdPut (v : Nat) (d : Dev) : Dev :=
  if !bootOpen d then d
  else
    let d1 := { d with boot.op := BitVec.ofNat 4 v }
    if !fbit v 8 then d1
    else match v % 16 with
      | 1 =>
        let n := d1.boot.hlen.toNat
        writeSlotGo (.data (freeBytes d1 n)) { d1 with glob.freeCtr := d1.glob.freeCtr + n }
      | 2 => verifyGo d1
      | 3 => activateGo {} d1
      | 4 => commitGo d1
      | 5 => rollbackGo d1
      | _ => d1

/-- A write of an argument of `BOOT_CMD`: ignored while a command runs. -/
def bootArg (f : Dev → Dev) (d : Dev) : Dev := if d.boot.busy then d else f d

def bootReg (off : Nat) : Option RegDef :=
  match off with
  | 0x00 => some (ro64 fun d => packW [(0, d.boot.slot), (1, d.boot.dir.stA), (4, d.boot.dir.stB), (7, b2n d.boot.mixed),
      (8, d.boot.dir.trials), (10, b2n d.boot.nvmErr), (11, b2n d.boot.fallback), (16, bv d.boot.block), (32, d.otp.svn % 128)])
  | 0x08 => some (ro32 fun d => bv d.boot.imgRel)
  | 0x0C => some (ro32 fun d => bv d.boot.stgRel)
  | 0x10 => some { get := fun d => packW [(0, bv d.boot.op), (16, bv d.boot.result), (31, b2n d.boot.busy)], put := bootCmdPut }
  | 0x18 => some { wide := true, get := fun d => bv d.boot.haddr, low := fun d => bv d.boot.haddr % 2 ^ 32
                   put := fun v d => bootArg (fun d => { d with boot.haddr := w64 v }) d }
  | 0x20 => some { get := fun d => bv d.boot.hlen, put := fun v d => bootArg (fun d => { d with boot.hlen := w32 v }) d }
  | 0x24 => some { get := fun d => bv d.boot.mask, put := fun v d => bootArg (fun d => { d with boot.mask := BitVec.ofNat 7 v }) d }
  | 0x28 => some (ro32 fun d => packW [(0, bv d.boot.step), (8, bv d.boot.inst), (16, bv d.boot.done)])
  | 0x30 => some { get := fun d => bv d.boot.event, put := fun v d => { d with boot.event := w1c d.boot.event v } }
  | 0x38 => some (ro64 fun d => leNat (d.boot.times.toList.map le16).flatten)
  | _ => none

/-! ## Self-test (16 R474) -/

/-- A write of `BIST_IS_CTL`: an INT or a DRAIN of 0 is ignored. -/
def isCtlPut (v : Nat) (d : Dev) : Dev :=
  { d with bist := { d.bist with
      isEn := fbit v 0
      isInt := if fld v 8 8 = 0 then d.bist.isInt else BitVec.ofNat 8 (fld v 8 8)
      isDrain := if fld v 16 16 = 0 then d.bist.isDrain else BitVec.ofNat 16 (fld v 16 16) } }

/-- One bit for each partition ID 0x00 to 0x1F of an instance with a property. -/
def partBits (p : Nat → Bool) : Nat := packW ((List.range 32).map fun i => (i, b2n (p (partCell i))))

/-- `BIST_LRES`n. -/
def lresWord (d : Dev) (n : Nat) : Nat :=
  let r := mapGet {} d.bist.lres n
  packW [(0, bv r.result), (2, b2n r.sigOk), (3, b2n r.done), (4, b2n r.orderErr), (8, bv r.count), (32, bv (lExpect n))]

def bistReg (off : Nat) : Option RegDef :=
  match off with
  | 0x00 => some (ro64 fun d => packW [(0, bv d.bist.mem), (2, bv d.bist.logic), (4, b2n d.bist.cond), (8, bv d.bist.lpart), (16, bv d.bist.tj)])
  | 0x08 => some (ro64 fun d => packW [(0, bv d.bist.mfCode), (16, bv d.bist.mfAddr), (40, bv d.bist.mfBit), (47, b2n d.bist.mfRepaired),
      (48, bv d.bist.mfCount), (63, b2n d.bist.mfValid)])
  | 0x10 => some (ro64 fun d => packW [(0, bv d.bist.repaired), (16, bv d.bist.spareMin), (32, bv d.bist.codeMin)])
  | 0x18 => some { get := fun d => packW [(0, b2n d.bist.isEn), (8, bv d.bist.isInt), (16, bv d.bist.isDrain)], put := isCtlPut }
  | 0x1C => some { get := fun d => packW [(0, bv d.bist.inst), (9, b2n d.bist.force), (16, bv d.bist.result)], put := fun v => isCmdGo (w32 v) }
  | 0x20 => some (ro64 fun d => packW [(0, partBits fun c => (getEng d c).svc == .retired),
      (32, partBits fun c => d.bist.queue.contains c || (getEng d c).svc == .inTest)])
  | 0x28 => some { get := fun d => packW [(0, bv d.bist.event), (8, bv d.bist.evInst)]
                   put := fun v d => { d with bist.event := w1c d.bist.event v } }
  | n => if 0x100 ≤ n && n < 0x228 && n % 8 = 0 then some (ro64 fun d => lresWord d ((n - 0x100) / 8)) else none

/-! ## RNG (11 R363) -/


/-- `RNG_SRC`n. -/
def srcWord (d : Dev) (i : Nat) : Nat :=
  let s := getSrc d i
  packW [(0, srcStateCode s.state), (4, srcCauseCode s.cause), (8, s.pool.length), (16, bv s.fails), (32, s.ones.sum)]

/-- A write of `RNG_CTL`: a KAT_INT of 0 is ignored. -/
def rngCtlPut (v : Nat) (d : Dev) : Dev :=
  let d1 := if fld v 8 8 = 0 then d else { d with rng.katInt := BitVec.ofNat 8 (fld v 8 8) }
  let d2 := if fbit v 0 then rngRecalGo (fld v 1 2) d1 else d1
  if fbit v 3 then katStart d2 else d2

def rngReg (off : Nat) : Option RegDef :=
  let srcs (st : SrcState) (d : Dev) : Nat := packW ((List.range 4).map fun i => (i, b2n ((getSrc d i).state == st)))
  match off with
  | 0x00 => some (ro64 fun d => packW [(0, rngStateCode d.rng.state), (3, b2n d.rng.kat), (4, bv d.rng.seedSrc), (8, srcs .healthy d),
      (12, srcs .dead d)])
  | 0x08 => some { get := fun d => bv d.rng.katInt * 256, put := rngCtlPut }
  | 0x10 => some (ro64 fun d => srcWord d 0)
  | 0x18 => some (ro64 fun d => srcWord d 1)
  | 0x20 => some (ro64 fun d => srcWord d 2)
  | 0x28 => some (ro64 fun d => srcWord d 3)
  | 0x30 => some (ro64 fun d => packW [(0, bv d.rng.holds), (24, bv d.rng.holdUs), (48, bv d.rng.unavail)])
  | 0x38 => some { get := fun d => bv d.rng.event, put := fun v d => { d with rng.event := w1c d.rng.event v } }
  | 0x40 => some (ro64 fun d => packW [(0, bv d.rng.reseeds), (32, bv d.rng.switches)])
  | _ => none

/-! ## Key store and state store (12 R398, 04 R155) -/

def ksReg (off : Nat) : Option RegDef :=
  match off with
  | 0x00 => some (ro64 fun d => packW [(0, granTotal d), (16, pkeysHeld d), (32, blocksUsed d), (48, bv d.ks.epoch), (50, b2n d.ks.nodus),
      (51, b2n d.ks.zsalt.isSome)])
  | 0x08 => some { put := fun v d => softZeroiseGo (w32 v) (hardZeroiseGo (w32 v) d) }
  | 0x0C => some { get := fun d => packW [(0, b2n d.ks.zsoft.isSome), (1, b2n d.ks.zdone), (2, b2n d.ks.pfull), (8, bv d.ks.zowner)]
                   put := fun v d => { d with ks.zdone := d.ks.zdone && !fbit v 1, ks.pfull := d.ks.pfull && !fbit v 2 } }
  | 0x10 => some (ro32 fun d => packW [(0, bv d.ks.zpol), (31, b2n d.ks.zlock)])
  | 0x18 => some (ro64 fun d => bv d.ks.resolve)
  | _ => none

def ssReg (off : Nat) : Option RegDef :=
  match off with
  | 0x00 => some (ro64 fun d => packW [(0, d.ss.keys.length),
      (16, (d.ss.keys.filter fun e => match e.2 with | some k => k.isOpen | none => false).length), (32, bv d.ss.takes)])
  | 0x08 => some { get := fun d => bv d.ss.low, put := fun v d => { d with ss.low := BitVec.ofNat 6 v } }
  | 0x10 => some { get := fun d => packW [(0, bv d.ss.event), (16, bv d.ss.evSlot)], put := fun v d => { d with ss.event := w1c d.ss.event v } }
  | 0x18 => some (ro64 fun d => packW [(0, bv d.ss.idxMax), (32, (d.jrn.writes.map (·.2)).foldl max 0 % 2 ^ 32)])
  | _ => none

/-! ## VF manager (13 R416) -/

/-- The stranded jobs of an owner (13 R407). -/
def strandedCount (d : Dev) (o : Nat) : Nat := ((ownJobs d o).filter fun b => b.phase == .stranded).length

/-- `VFM_OWN` of the selected owner; on a member selected, its state alone. -/
def vfmOwnWord (d : Dev) : Nat :=
  let o := d.vfm.sel.toNat
  match vfmNode d with
  | some n => b2n (o == 0 || (getNode d n).owners.contains o)
  | none =>
    let w := getOwn d o
    packW [(0, if o = 0 then 1 else bv (ownStateCode w.state)), (4, w.sqBase), (16, w.cqBase), (32, (ownJobs d o).length), (48, strandedCount d o)]

/-- A register of the staging window. -/
def stgReg (wide : Bool) (g : Shares → Nat) (f : Shares → Nat → Shares) : RegDef :=
  { wide := wide, get := fun d => g d.vfm.stg, low := fun d => g d.vfm.stg % 2 ^ 32
    put := fun v d => if d.vfm.busy then d else { d with vfm.stg := f d.vfm.stg v } }

/-- A write of `VFM_CMD`. -/
def vfmCmdPut (v : Nat) (d : Dev) : Dev :=
  if d.vfm.busy then d
  else if fbit v 8 && decide (1 ≤ v % 8) && decide (v % 8 ≤ 3) then vfmGo (v % 8) (fbit v 3) d
  else { d with vfm.op := BitVec.ofNat 3 v, vfm.purge := fbit v 3 }

/-- The owners of VFs that are ACTIVE or RESETTING. -/
def vfsActive (d : Dev) : Nat := ((liveOwners d).filter fun o => o != 0 && ((getOwn d o).state == .active || (getOwn d o).state == .resetting)).length

def vfmReg (off : Nat) : Option RegDef :=
  let free (d : Dev) (i : Nat) : Nat := (freeKitty d none).getD i 0
  match off with
  | 0x00 => some (ro64 fun d => packW [(0, vfsActive d), (8, b2n d.vfm.apply.isSome), (9, b2n d.vfm.busy)])
  | 0x08 => some (ro64 fun d => packW [(0, free d 0), (16, free d 1), (32, free d 2), (48, free d 3)])
  | 0x10 => some (ro64 fun d => packW [(0, free d 4), (16, free d 5), (32, free d 6), (48, free d 7)])
  | 0x18 => some { get := fun d => bv d.vfm.sel, put := fun v => vfmSelGo (v % 256) }
  | 0x20 => some (stgReg true resWord setRes)
  | 0x28 => some (stgReg true memWord setMem)
  | 0x30 => some (stgReg true trkWord setTrk)
  | 0x38 => some (stgReg false permWord setPerm)
  | 0x40 => some { get := fun d => packW [(0, bv d.vfm.op), (3, b2n d.vfm.purge), (16, bv d.vfm.result), (31, b2n d.vfm.busy)], put := vfmCmdPut }
  | 0x48 => some (ro64 vfmOwnWord)
  | 0x50 => some { get := fun d => packW [(0, bv d.vfm.event), (8, bv d.vfm.evOwner)], put := fun v d => { d with vfm.event := w1c d.vfm.event v } }
  | _ => none

/-! ## Dealer (09 R322) -/

/-- A write of `DLR_CTL`: one with COMMIT and DISCARD is ignored as a whole. -/
def dlrCtlPut (v : Nat) (d : Dev) : Dev :=
  if fbit v 0 && fbit v 2 then d
  else
    let d1 := { d with dlr.src := fbit v 1 }
    if fbit v 0 then dlrCommitGo d1 else if fbit v 2 then dlrDiscardGo d1 else d1

/-- A write of `DLR_DUTY`: one with OFF not below ON is ignored. -/
def dlrDutyPut (v : Nat) (d : Dev) : Dev :=
  if fld v 0 8 ≤ fld v 8 8 then d
  else { d with dlr.dutyOn := BitVec.ofNat 8 v, dlr.dutyOff := BitVec.ofNat 8 (fld v 8 8), dlr.dutyMax := BitVec.ofNat 3 (fld v 16 3) }

def dlrReg (off : Nat) : Option RegDef :=
  match off with
  | 0x00 => some (ro64 fun d => packW [(0, bv d.dlr.trick), (6, b2n d.dlr.bank), (7, b2n d.dlr.pending), (8, bv d.dlr.level),
      (16, tblU16 d.dlr.act 4), (32, bv d.dlr.round)])
  | 0x08 => some { get := fun d => 2 * b2n d.dlr.src, put := dlrCtlPut }
  | 0x10 => some (ro32 fun d => packW [(0, bv d.dlr.chkCode), (8, b2n d.dlr.chkBusy), (9, bv d.dlr.chkStage), (16, bv d.dlr.chkTrick),
      (22, bv d.dlr.chkCell)])
  | 0x18 => some { get := fun d => packW [(0, bv d.dlr.dutyOn), (8, bv d.dlr.dutyOff), (16, bv d.dlr.dutyMax)], put := dlrDutyPut }
  | 0x20 => some { wide := true, get := fun d => packW [(0, bv d.dlr.level), (3, b2n d.dlr.dutyEvent), (32, bv d.dlr.dutyRounds)]
                   put := fun v d => { d with dlr.dutyEvent := d.dlr.dutyEvent && !fbit v 3 } }
  | 0x28 => some (ro64 fun d => bv d.dlr.turn)
  | 0x30 => some (ro64 fun d => bv d.dlr.reoffer)
  | 0x38 => some (ro32 fun d => packW [(0, bv d.dlr.worst), (16, bv d.dlr.preempt)])
  | _ => none

/-! ## Engines (06 R212, 07 R265, 08 R294, R295; 19 R554) -/

/-- STATE of an engine: 0 idle, 1 running, 2 draining, 3 under test, 4 retired, 5 scrubbing after an abort, 6 waiting under 07 R236, 7
held by a cluster-mode job. -/
def engState (d : Dev) (c : Nat) : Nat :=
  let r := getEng d c
  if r.svc == .retired then 4 else if r.svc == .inTest then 3 else if r.svc == .draining || swapHeld d c then 2
  else match cellJob d c with
    | none => if scrubDone d c then 0 else 5
    | some b =>
      if b.cluster && b.eng != some c then 7
      else if (mapGet none (mapGet {} d.io b.id).wait c).isSome then 6 else 1

/-- Contexts saved on an engine: the jobs saved or parked there. -/
def ctxCount (d : Dev) (c : Nat) : Nat :=
  (d.jobs.live.filter fun b => b.phase == .saved && !b.cluster && (ctxCells b).contains c).length

/-- The owner and OPCODE that an engine shows: those of the job it runs or, for ME and TS, holds saved; else 0 (log 76). -/
def engShows (d : Dev) (c : Nat) : Nat × Nat :=
  let saved := if c < 16 then none else d.jobs.live.find? fun b => b.phase == .saved && (ctxCells b).contains c
  match (cellJob d c).orElse fun _ => saved with
  | some b => (b.owner, b.e.opcode.toNat)
  | none => (0, 0)

/-- `PY_STAT`, `ME_STAT` or `TS_STAT`. -/
def engStat (d : Dev) (c : Nat) : Nat :=
  let ctx := if c < 16 then min 4 (ctxCount d c) else min 1 (ctxCount d c)
  packW [(0, engState d c), (3, ctx), (8, (engShows d c).1), (16, (engShows d c).2)]

/-- The registers of any dealt engine. -/
def engReg (c off : Nat) : Option RegDef :=
  match off with
  | 0x00 => some (ro32 fun d => engStat d c)
  | 0x08 => some (ro64 fun d => bv (getEng d c).jobs)
  | 0x10 => some (ro64 fun d => bv (getEng d c).busy)
  | _ => none

def pyReg (c off : Nat) : Option RegDef :=
  match off with
  | 0x18 => some (ro64 fun d => bv (getEng d c).wait)
  | 0x20 => some { wide := true
                   get := fun d =>
                     let r := getEng d c
                     packW [(0, bv r.lastStatus), (16, bv r.lastDetail), (32, bv r.lastPc % 2 ^ 14), (48, bv r.lastVres % 2 ^ 12), (63, b2n r.lastValid)]
                   put := fun v d => if fbit v 63 then modEng d c fun r => { r with lastValid := false } else d }
  | 0x28 => some (ro32 fun d => bv (getEng d c).fltCnt)
  | n => engReg c n

def meReg (c off : Nat) : Option RegDef :=
  match off with
  | 0x18 => some (ro32 fun d => bv (getEng d c).refuse)
  | 0x1C => some { get := fun d => packW [(0, bv (getEng d c).rchk), (31, b2n (getEng d c).rchkEvent)]
                   put := fun v d => if fbit v 31 then modEng d c fun r => { r with rchkEvent := false } else d }
  | n => engReg c n

/-- Whether the debug registers of a sequencer show anything: it is halted and debug access is authorised. -/
def dbgShown (d : Dev) (u : Nat) : Bool := (getStore d u).halted && scopeOpen d 1

/-- `x_UDBG`. -/
def udbgWord (d : Dev) (u : Nat) : Nat :=
  let s := getStore d u
  let m := getMicro d u
  packW [(17, b2n s.halted)] + if dbgShown d u then packW [(0, bv m.upc), (14, m.stack.length), (18, b2n s.atYld)] else 0

/-- The microcode registers of a sequencer, from its block's offset 0x100. -/
def microReg (u off : Nat) : Option RegDef :=
  let shown (f : Micro → Nat) (d : Dev) : Nat := if dbgShown d u then f (getMicro d u) else 0
  match off with
  | 0x00 => some (ro32 fun d =>
      let s := getStore d u
      packW [(0, b2n s.bank), (1, b2n s.staged), (2, b2n s.swap), (3, b2n s.drain), (8, bv s.fails)])
  | 0x08 => some (ro64 fun d =>
      let s := getStore d u
      packW [(0, bv s.actVer), (16, if s.staged then bv s.stgVer else 0), (32, bv s.actCrc)])
  | 0x10 => some { get := fun d =>
                     let s := getStore d u
                     packW [(0, bv s.corr), (16, bv s.uncorr), (31, b2n s.event)]
                   put := fun v d => if fbit v 31 then modStore d u fun s => { s with event := false } else d }
  | 0x18 => some (ro64 fun d => udbgWord d u)
  | 0x20 => some (ro64 (shown fun m => leNat (m.lc.toList.map le16).flatten))
  | 0x28 => some (ro64 (shown fun m => packW ((List.range 4).map fun i => (16 * i, bv (m.stack.reverse.getD i 0)))))
  | n => if 0x100 ≤ n && n < 0x200 && n % 8 = 0 then some (ro64 (shown fun m => bv (m.u.toList.getD ((n - 0x100) / 8) 0))) else none

/-- `HA_MODE`. -/
def haMode (d : Dev) : Nat :=
  packW ((List.range 4).map (fun n => (n, b2n (cellTree (tblCell d.dlr.act d.dlr.trick.toNat (28 + n)))))
    ++ (List.range 4).map fun n => (4 + n, b2n (cellV (tblCap d.dlr.act n))))

/-! ## Fate queries (02 R87-R89) -/

/-- A write of `JRN_FQ_CMD`. -/
def fqCmdPut (f v : Nat) (d : Dev) : Dev :=
  if (getFq d f).busy then d
  else
    let d1 := setFq d f { getFq d f with op := BitVec.ofNat 4 v }
    if !fbit v 8 then d1
    else match v % 16 with
      | 1 => fqByJobGo d1 f
      | 2 => fqByKeyGo d1 f
      | 3 => fqReleaseGo d1 f
      | 4 => fqReleaseBootGo d1 f
      | _ => d1

/-- A write of an argument: a list by key begins anew. -/
def fqArgPut (f : Nat) (g : Fq → Fq) (d : Dev) : Dev := if (getFq d f).busy then d else setFq d f { g (getFq d f) with cursor := 0 }

def fqReg (f off : Nat) : Option RegDef :=
  let q (d : Dev) : Fq := getFq d f
  match off with
  | 0x00 => some { get := fun d => packW [(0, bv (q d).op), (31, b2n (q d).busy)], put := fqCmdPut f }
  | 0x08 => some { wide := true, get := fun d => bv (q d).arg0, low := fun d => bv (q d).arg0 % 2 ^ 32
                   put := fun v => fqArgPut f fun x => { x with arg0 := w64 v &&& 0xFFFFFFFF0000FFFF } }
  | 0x10 => some { wide := true, get := fun d => bv (q d).arg1, low := fun d => bv (q d).arg1 % 2 ^ 32
                   put := fun v => fqArgPut f fun x => { x with arg1 := w64 v } }
  | 0x18 => some (ro64 fun d => bv (q d).res0)
  | 0x20 => some (ro64 fun d => bv (q d).res1)
  | 0x28 => some (ro64 fun d => bv (q d).res2)
  | 0x30 => some (ro64 fun d => bv (q d).res3)
  | 0x38 => some (ro64 fun d => packW [(0, (jrnHeld d f).length), (16, bv (getOwn d f).sh.jrn)])
  | _ => none

/-! ## Recorder, Amber and Bedrock (17 R500) -/

/-- A write of `REC_CTL`. -/
def recCtlPut (v : Nat) (d : Dev) : Dev :=
  let ms := fld v 16 10
  let d1 := { d with recd := { d.recd with
      ckptS := if fld v 8 8 = 0 then d.recd.ckptS else BitVec.ofNat 8 (fld v 8 8)
      mirrorMs := if 10 ≤ ms && ms ≤ 1000 then BitVec.ofNat 10 ms else d.recd.mirrorMs } }
  let d2 := if fbit v 1 then clearHistGo d1 else d1
  if fbit v 0 then ckptCmdGo d2 else d2

def recReg (off : Nat) : Option RegDef :=
  match off with
  | 0x00 => some (ro64 fun d => packW [(0, b2n d.recd.volatil), (1, b2n d.recd.full), (2, bv d.bdr.badBanks % 4), (4, b2n d.recd.ckptBusy.isSome),
      (5, b2n d.recd.mirrorErr), (8, recCount d), (32, bv d.recd.ckptSeq)])
  | 0x08 => some { get := fun d => packW [(8, bv d.recd.ckptS), (16, bv d.recd.mirrorMs)], put := recCtlPut }
  | 0x10 => some { wide := true, get := mirrorWord, low := fun d => mirrorWord d % 2 ^ 32
                   put := fun v d => { d with recd.mirrorEn := fbit v 0, recd.mirrorAddr := BitVec.ofNat 52 (v / 4096) } }
  | 0x18 => some { get := fun d => bv d.recd.page, put := fun v d => { d with recd.page := BitVec.ofNat 4 v } }
  | 0x1C => some { get := fun d => bv d.recd.event, put := fun v d => { d with recd.event := w1c d.recd.event v } }
  | _ => none
where
  mirrorWord (d : Dev) : Nat := packW [(0, b2n d.recd.mirrorEn), (12, bv d.recd.mirrorAddr)]

/-- A write of `AMB_CTL`: a PAGE above 24 leaves PAGE unchanged. -/
def ambCtlPut (v : Nat) (d : Dev) : Dev :=
  let pg := fld v 8 5
  let d1 := { d with amb.digSrc := fbit v 2, amb.page := if pg ≤ 24 then BitVec.ofNat 5 pg else d.amb.page }
  let d2 := if fbit v 0 then ambFreezeGo d1 else d1
  if fbit v 1 then ambDigestGo (fbit v 2) d2 else d2

def ambReg (off : Nat) : Option RegDef :=
  match off with
  | 0x00 => some (ro64 ambStat)
  | 0x08 => some (ro64 fun d => packW [(0, bv d.amb.suppressed), (32, bv d.amb.lost), (48, bv d.amb.freezes)])
  | 0x10 => some { get := fun d => packW [(2, b2n d.amb.digSrc), (8, bv d.amb.page)], put := ambCtlPut }
  | 0x18 => some { get := fun d => bv d.amb.event, put := fun v d => { d with amb.event := w1c d.amb.event v } }
  | _ => none

def bdrReg (off : Nat) : Option RegDef :=
  match off with
  | 0x00 => some { get := fun d => bv d.bdr.fault, put := fun v d => { d with bdr.fault := d.bdr.fault &&& ~~~(BitVec.ofNat 9 v &&& 0x10F) } }
  | 0x04 => some (ro32 fun d => packW [(0, bv d.bdr.limit), (8, bv d.bdr.expiries)])
  | 0x08 => some (ro32 fun d => bv d.bdr.oscFreq)
  | 0x0C => some (ro32 fun d => packW [(0, bv d.glob.strapSmb), (3, 0x70 + bv d.glob.strapSmb)])
  | _ => none

/-! ## Fabric (18 R529) -/

/-- `FAB_STAT`. -/
def fabStat (d : Dev) : Nat :=
  packW [(0, d.glob.node), (6, roleCode d.fab.role), (8, b2n d.fab.enc), (9, syFabric d),
    (16, if d.fab.role = .alone then 0 else (memberNodes d).length + b2n (d.fab.role == .lead)), (32, bv d.fab.terr)]

def nodeStateCode : NodeState → Nat | .absent => 0 | .joining => 1 | .member => 2 | .lost => 3 | .removed => 4

/-- `FAB_NODE`n. -/
def fabNodeWord (d : Dev) (n : Nat) : Nat :=
  if d.fab.role = .alone then 0
  else
    let x := getNode d n
    let homed := if n = 0 then 4096 - d.fab.home.length else (d.fab.home.filter fun e => e.2 == n).length
    packW [(0, if n = 0 && d.fab.role == .lead then 2 else nodeStateCode x.state), (4, bv x.hops), (16, homed), (32, bv x.lostJobs),
      (48, bv x.losses)]

/-- A write of `FAB_CMD`. -/
def fabCmdPut (v : Nat) (d : Dev) : Dev :=
  if d.fab.busy then d
  else
    let n := fld v 9 6
    let d1 := { d with fab.op := BitVec.ofNat 3 v, fab.cmdNode := BitVec.ofNat 6 n }
    if !fbit v 8 then d1
    else match v % 8 with
      | 1 => admitGo n d1
      | 2 => fabRemoveGo n d1
      | 3 => rekeyGo n d1
      | _ => d1

def fabReg (off : Nat) : Option RegDef :=
  match off with
  | 0x00 => some (ro64 fabStat)
  | 0x08 => some { get := fun d => packW [(0, bv d.fab.op), (9, bv d.fab.cmdNode), (16, bv d.fab.result), (31, b2n d.fab.busy)], put := fabCmdPut }
  | 0x0C => some { get := fun d => bv d.fab.nodesel, put := fun v d => { d with fab.nodesel := BitVec.ofNat 6 v } }
  | 0x10 => some { get := fun d => packW [(0, bv d.fab.event), (8, bv d.fab.evNode)], put := fun v d => { d with fab.event := w1c d.fab.event v } }
  | n =>
    if 0x20 ≤ n && n < 0x40 && n % 8 = 0 then
      some (ro64 fun d =>
        let p := getPort d ((n - 0x20) / 8)
        packW [(0, bv p.state), (8, bv p.retrains), (16, bv p.replays), (32, bv p.crcErr)])
    else if 0x100 ≤ n && n < 0x300 && n % 8 = 0 then some (ro64 fun d => fabNodeWord d ((n - 0x100) / 8))
    else none

/-! ## Host interface and monitors (19 R554, 20 R572) -/

def hifReg (off : Nat) : Option RegDef :=
  match off with
  | 0x00 => some (ro64 fun d => packW [(0, bv d.hif.speed), (4, bv d.hif.width), (8, b2n d.hif.linkUp), (9, b2n (getFn d 0).bme),
      (10, b2n (getFn d 0).msixEn), (16, bv d.hif.numVfs), (25, b2n d.hif.vfEn), (32, d.hif.reads.length)])
  | 0x08 => some (ro64 fun d => bv d.hif.rdBytes)
  | 0x10 => some (ro64 fun d => bv d.hif.wrBytes)
  | 0x18 => some (ro64 fun d => packW [(0, bv d.hif.errUrCa), (16, bv d.hif.errTimeout), (32, bv d.hif.errPoison), (48, bv d.hif.errAccess)])
  | 0x20 => some (ro64 fun d => packW [(0, bv d.hif.lastOwner), (8, bv d.hif.lastKind), (16, bv d.hif.lastEngine), (32, bv d.hif.lastAddr)])
  | 0x28 => some { get := fun d => bv d.hif.event, put := fun v d => { d with hif.event := w1c d.hif.event v } }
  | _ => none

/-- A write of `TMON_LIMIT`: a BAND outside 1 to 20 is ignored. -/
def tmonLimitPut (v : Nat) (d : Dev) : Dev :=
  let b := fld v 16 8
  { d with tmon.hi := BitVec.ofNat 8 v, tmon.lo := BitVec.ofNat 8 (fld v 8 8), tmon.band := if 1 ≤ b && b ≤ 20 then BitVec.ofNat 8 b else d.tmon.band }

def tmonReg (off : Nat) : Option RegDef :=
  let half (xs : List U16) (i : Nat) : Nat := leNat (((xs.drop (4 * i)).take 4).map le16).flatten
  match off with
  | 0x00 => some (ro64 fun d => half d.tmon.tj.toList 0)
  | 0x08 => some (ro64 fun d => half d.tmon.tj.toList 1)
  | 0x10 => some (ro64 fun d => half d.tmon.rails.toList 0)
  | 0x18 => some (ro64 fun d => half d.tmon.rails.toList 1)
  | 0x20 => some (ro64 fun d => half d.tmon.rails.toList 2)
  | 0x28 => some (ro64 fun d => leNat d.tmon.det.toList)
  | 0x30 => some { get := fun d => bv d.tmon.event, put := fun v d => { d with tmon.event := w1c d.tmon.event v } }
  | 0x38 => some { get := fun d => packW [(0, bv d.tmon.hi), (8, bv d.tmon.lo), (16, bv d.tmon.band)], put := tmonLimitPut }
  | 0x40 => some (ro32 fun d => packW [(0, bv d.tmon.resp), (31, b2n d.tmon.lock)])
  | _ => none

/-! ## Queue blocks (02 R64-R72) -/

/-- `Q_SQ_CFG` as it reads. -/
def sqCfgWord (s : Sq) : Nat :=
  packW [(0, b2n s.en), (1, b2n s.push), (4, bv s.log2), (9, bv s.mask), (12, bv s.mode), (16, bv s.cqid)]
/-- `Q_SQ_STAT`. -/
def sqStatWord (s : Sq) : Nat :=
  packW [(0, b2n (s.en && !s.stopped)), (1, b2n s.stopped), (2, b2n s.draining), (3, b2n s.fenceWait), (4, b2n s.slotWait),
    (5, b2n s.creditWait), (6, b2n s.jrnWait), (8, bv s.err), (16, bv s.outstanding), (32, bv s.errIndex)]
/-- `Q_CQ_CFG`. -/
def cqCfgWord (c : Cq) : Nat :=
  packW [(0, b2n c.en), (1, b2n c.immErr), (4, bv c.log2), (16, bv c.vector), (32, bv c.coalCnt), (48, bv c.coalTime)]
/-- `Q_CQ_STAT`. -/
def cqStatWord (c : Cq) : Nat :=
  packW [(0, b2n c.en), (1, b2n c.headErr), (2, b2n (c.unsig != 0)), (3, b2n c.disRefused), (4, bv c.enErr), (16, bv c.reserved)]

/-- The SQ half of a block: device SQ `q`, number `j` of function `f`. -/
def sqReg (f j q off : Nat) : Option RegDef :=
  match off with
  | 0x00 => some { wide := true, get := fun d => bv (getSq d q).base * 4096, low := fun d => bv (getSq d q).base * 4096 % 2 ^ 32
                   put := fun v d => modSq d q fun s => if s.en || s.draining then s else { s with base := BitVec.ofNat 52 (v / 4096) } }
  | 0x08 => some { wide := true, get := fun d => sqCfgWord (getSq d q), low := fun d => sqCfgWord (getSq d q) % 2 ^ 32
                   put := fun v => if fbit v 0 then sqEnableGo f j (w64 v) else sqDisableGo f j (w64 v) }
  | 0x10 => some { wide := true, get := fun d => packW [(0, bv (getSq d q).head), (32, bv (getSq d q).tail)], low := fun d => bv (getSq d q).head
                   put := fun v => sqHeadWriteGo f j (w32 v) }
  | 0x18 => some (ro64 fun d => sqStatWord (getSq d q))
  | _ => none

/-- The CQ half of a block. -/
def cqReg (f j c off : Nat) : Option RegDef :=
  match off with
  | 0x20 => some { wide := true, get := fun d => bv (getCq d c).base * 4096, low := fun d => bv (getCq d c).base * 4096 % 2 ^ 32
                   put := fun v d => modCq d c fun q => if q.en then q else { q with base := BitVec.ofNat 52 (v / 4096) } }
  | 0x28 => some { wide := true, get := fun d => cqCfgWord (getCq d c), low := fun d => cqCfgWord (getCq d c) % 2 ^ 32
                   put := fun v => if fbit v 0 then cqEnableGo f j (w64 v) else cqDisableGo f j (w64 v) }
  | 0x30 => some { wide := true, get := fun d => packW [(0, bv (getCq d c).tail), (32, bv (getCq d c).head)], low := fun d => bv (getCq d c).tail
                   put := fun v => cqPtrWriteGo f j (w32 v) }
  | 0x38 => some { wide := true, get := fun d => cqStatWord (getCq d c)
                   put := fun v d => modCq d c fun q => { q with headErr := q.headErr && !fbit v 1, disRefused := q.disRefused && !fbit v 3 } }
  | _ => none

/-- A register that takes no write. -/
def readOnly (r : RegDef) : RegDef := { wide := r.wide, get := r.get }

/-- A register of the PF's block of device queue `q`: its own, read-only where a VF holds the queue, 0 where nobody does (R64). -/
def pfQueueReg (d : Dev) (q off : Nat) : Option RegDef :=
  let view (mine held : Bool) (r : Option RegDef) : Option RegDef :=
    r.map fun r => if mine then r else if held then readOnly r else { wide := true }
  if off < 0x20 then view (sqDev d 0 q == some q) (sqOwner d q).isSome (sqReg 0 q q off)
  else if 2048 ≤ q then none
  else view (cqDev d 0 q == some q) (cqOwner d q).isSome (cqReg 0 q q off)

/-! ## The maps (19 R551, R552) -/

/-- The register of PF BAR0 that begins at an offset. -/
def pfReg (d : Dev) (off : Nat) : Option RegDef :=
  let lo := off % 65536
  match off / 65536 with
  | 0x00 => glbReg lo
  | 0x01 => lcReg lo
  | 0x02 => bootReg lo
  | 0x03 => bistReg lo
  | 0x04 => rngReg lo
  | 0x05 => ksReg lo
  | 0x06 => vfmReg lo
  | 0x07 => dlrReg lo
  | 0x08 => if lo % 4096 < 0x100 then pyReg (lo / 4096) (lo % 4096) else if lo % 4096 < 0x300 then microReg (lo / 4096) (lo % 4096 - 0x100) else none
  | 0x0A =>
    if lo = 0 then some (ro32 haMode)
    else if 0xC000 ≤ lo && lo < 0xD000 then
      let n := (lo - 0xC000) / 0x400
      let r := lo % 0x400
      if r < 0x100 then engReg (28 + n) r else if r < 0x300 then microReg (24 + n) (r - 0x100) else none
    else none
  | 0x0B =>
    if 0x8000 ≤ lo then none
    else if lo % 4096 < 0x100 then meReg (16 + lo / 4096) (lo % 4096)
    else if lo % 4096 < 0x300 then microReg (16 + lo / 4096) (lo % 4096 - 0x100) else none
  | 0x0C => if lo < 0x8000 then ssReg lo else fqReg 0 (lo - 0x8000)
  | 0x0D => recReg lo
  | 0x0E => ambReg lo
  | 0x0F => fabReg lo
  | 0x10 => hifReg lo
  | 0x11 => tmonReg lo
  | 0x12 => bdrReg lo
  | _ => if 0x200000 ≤ off && off < 0x240000 then pfQueueReg d ((off - 0x200000) / 64) (off % 64) else none

end Sys2Proof.Machine
end

