-- ==== Sys2Proof/Machine/RegAccess.lean ====
section
/-!
DEFINITION. Accesses of the functions' BARs and of the debug TAP: windows, sizes, split 64-bit accesses, doorbells, and the fields of
configuration space (00 R8; 02 R51-R55, R64; 13 R417; 14 R433, R437; 19 R533, R537, R538, R545, R551, R552).
-/
namespace Sys2Proof.Machine

/-! ## VF BAR0 (13 R417, 19 R552) -/

/-- Whether a VF's BAR0 serves its registers: not during its reset, nor while it is removed (13 R409). -/
def vfOpen (d : Dev) (f : Nat) : Bool := (getOwn d f).state == .active || (getOwn d f).state == .disabled

/-- Whether a change of an owner's shares waits for its boundary (13 R405, R417). -/
def sharePending (d : Dev) (f : Nat) : Bool :=
  (match d.vfm.apply with | some (o, _) => o == f | none => false) || d.vfm.credLater.any fun e => e.1 == f
/-- `VFM_VID`. -/
def vidWord (d : Dev) (f : Nat) : Nat :=
  packW [(0, f), (8, d.glob.node), (16, bv (ownStateCode (getOwn d f).state)), (19, b2n (sharePending d f)), (20, bv (devStateCode d.glob.st))]

/-- `VFM_VCTL`. -/
def vctlReg (f : Nat) : RegDef :=
  { get := fun d =>
      let w := getOwn d f
      packW [(0, bv w.vecReg), (6, b2n w.vEn), (8, b2n w.vShare), (9, b2n w.vStrand)]
    put := fun v d => modOwn d f fun w =>
      { w with vecReg := BitVec.ofNat 6 v, vEn := fbit v 6, vShare := w.vShare && !fbit v 8, vStrand := w.vStrand && !fbit v 9 } }

/-- The register of a VF's BAR0 that begins at an offset. -/
def vfReg (d : Dev) (f off : Nat) : Option RegDef :=
  let sh (d : Dev) : Shares := (getOwn d f).sh
  match off with
  | 0x00 => some (ro32 fun d => vidWord d f)
  | 0x08 => some (ro64 fun d => resWord (sh d))
  | 0x10 => some (ro64 fun d => memWord (sh d))
  | 0x18 => some (ro64 fun d => trkWord (sh d))
  | 0x20 => some (ro32 fun d => permWord (sh d))
  | 0x28 => some (ro64 fun d => packW [(0, (ownJobs d f).length), (16, granUsed d f), (32, strandedCount d f)])
  | 0x100 => some (vctlReg f)
  | n =>
    if 0x140 ≤ n && n < 0x180 then fqReg f (n - 0x140)
    else if 0x1000 ≤ n && n < 0x2000 then
      let j := (n - 0x1000) / 64
      match sqDev d f j, cqDev d f j with
      | some q, none => sqReg f j q (n % 64)
      | none, some c => cqReg f j c (n % 64)
      | some q, some c => (sqReg f j q (n % 64)).orElse fun _ => cqReg f j c (n % 64)
      | none, none => none
    else none

/-! ## Windows (19 R538, R545, R551) -/

/-- A window of bytes: where it lies, the access sizes it takes, its bytes, and what a write does. -/
structure WinDef where
  base  : Nat
  len   : Nat
  sizes : List Nat := [4, 8, 64]
  get   : Dev → Nat → Nat → Bytes
  put   : Nat → Bytes → Dev → Dev := fun _ _ d => d

/-- The 16 bytes of an MSI-X table entry. -/
def vecBytes (v : Vec) : Bytes := le64 v.addr ++ le32 v.data ++ leBytes 4 (b2n v.mask)
/-- An MSI-X table entry from its bytes; it keeps its pending bit. -/
def vecOf (v : Vec) (bs : Bytes) : Vec :=
  { addr := u64At bs 0 &&& ~~~3, data := u32At bs 8, mask := fbit (leNat (slice bs 12 4)) 0, pend := v.pend }

/-- The MSI-X table of a function: an entry unmasked sends what it held (R545). -/
def msixWin (f base : Nat) : WinDef :=
  { base := base, len := 0x400, sizes := [4, 8]
    get := fun d off n => if off / 16 < vecCount d f then slice (vecBytes (getVec d f (off / 16))) (off % 16) n else zeros n
    put := fun off bs d =>
      if vecCount d f ≤ off / 16 then d
      else
        let v := getVec d f (off / 16)
        flushPend (setVec d f (off / 16) (vecOf v (splice (vecBytes v) (off % 16) bs))) f }

/-- The pending-bit array of a function. -/
def pbaWin (f base : Nat) : WinDef :=
  { base := base, len := 8, sizes := [4, 8]
    get := fun d off n =>
      slice (leBytes 8 (packW ((List.range (min 64 (vecCount d f))).map fun i => (i, b2n (getVec d f i).pend)))) off n }

/-- The bytes of `AMB_WIN` (17 R500). -/
def ambWinByte (d : Dev) (off : Nat) : Byte :=
  let p := d.amb.page.toNat
  let slot := 512 * (p % 8) + off / 64
  if p < 8 then byteAt (match d.amb.ring.find? fun e => e.1 == slot with | some e => entryBytes e.2 | none => zeros 64) (off % 64)
  else if p < 16 then byteAt (frzSlot (frzBank d 0) slot) (off % 64)
  else if p < 24 then byteAt (frzSlot (frzBank d 1) slot) (off % 64)
  else byteAt d.amb.digest off

/-- One byte written to `FAB_HOME` (18 R513). -/
def homePut (q : Nat) (b : Byte) (d : Dev) : Dev :=
  let s := getSq d q
  if s.en || s.draining then d else { d with fab.home := mapSet 0 d.fab.home q (b.toNat % 64) }

/-- One byte written to `FAB_ALLOW` (18 R526): row 0 is read-only. -/
def allowPut (off : Nat) (b : Byte) (d : Dev) : Dev :=
  let n := off / 48
  if n = 0 || !((getNode d n).state == .absent || (getNode d n).state == .removed) then d
  else { d with fab.allow := mapMod [] d.fab.allow n fun r => splice (fit 48 r) (off % 48) [b] }

/-- Write bytes one by one from an offset. -/
def putEach (f : Nat → Byte → Dev → Dev) : Nat → Bytes → Dev → Dev
  | _, [], d => d
  | o, b :: bs, d => putEach f (o + 1) bs (f o b d)

/-- The windows of PF BAR0. -/
def pfWindows : List WinDef :=
  [{ base := 0x011000, len := 0x2000, get := fun _ _ n => zeros n
     put := fun off bs d => if d.lc.want.isSome then d else { d with lc.token := memWrite d.lc.token off bs } },
   { base := 0x071000, len := 0x1100, get := fun d off n => memRead d.dlr.stg off n
     put := fun off bs d =>
       if !d.dlr.src || d.dlr.pending || d.dlr.chkBusy then d else { d with dlr.stg := memWrite d.dlr.stg off bs } },
   { base := 0x073000, len := 0x1100, get := fun d off n => memRead d.dlr.act off n },
   { base := 0x0D8000, len := 0x8000, get := fun d off n => slice (recBytes d (128 * d.recd.page.toNat + off / 256)) (off % 256) n },
   { base := 0x0E8000, len := 0x8000, get := fun d off n => (List.range n).map fun i => ambWinByte d (off + i) },
   { base := 0x0F1000, len := 0x1000, sizes := [4], get := fun d off n => (List.range n).map fun i => BitVec.ofNat 8 (sqHome d (off + i))
     put := putEach homePut },
   { base := 0x0F2000, len := 0xC00
     get := fun d off n => (List.range n).map fun i => byteAt (mapGet [] d.fab.allow ((off + i) / 48)) ((off + i) % 48)
     put := putEach allowPut },
   msixWin 0 0x400000, pbaWin 0 0x401000]

/-- The windows of a function's BAR0. -/
def windowsOf (f : Nat) : List WinDef := if f = 0 then pfWindows else [msixWin f 0x8000, pbaWin f 0xC000]

/-! ## Accesses of BAR0 (00 R8, 19 R538) -/

/-- The window of a function's BAR0 that holds an offset. -/
def winAt (f off : Nat) : Option WinDef := (windowsOf f).find? fun w => decide (w.base ≤ off) && decide (off < w.base + w.len)

/-- The register of a function's BAR0 that begins at an offset. -/
def regHere (d : Dev) (f off : Nat) : Option RegDef := if f = 0 then pfReg d off else vfReg d f off

/-- The register that holds the 32-bit word at an offset: where it begins, and whether the word is its high half. -/
def regAt (d : Dev) (f off : Nat) : Option (Nat × RegDef × Bool) :=
  match regHere d f off with
  | some r => some (off, r, false)
  | none =>
    if off < 4 then none
    else match regHere d f (off - 4) with
      | some r => if r.wide then some (off - 4, r, true) else none
      | none => none

/-- The name of a register among the halves held and captured. -/
def halfKey (f base : Nat) : Nat := f * 16777216 + base
def setHeld (d : Dev) (k : Nat) (v : Option U32) : Dev := { d with glob.loHeld := mapSet none d.glob.loHeld k v }
def setCap (d : Dev) (k : Nat) (v : Option U32) : Dev := { d with glob.hiCap := mapSet none d.glob.hiCap k v }

/-- A write of a register or half of one (R8); another size is refused (R538). -/
def regPut (f off base : Nat) (r : RegDef) (hi : Bool) (bs : Bytes) (d : Dev) : Dev :=
  let k := halfKey f base
  let v := leNat bs
  if !r.wide && bs.length = 4 then r.put v d
  else if r.wide && bs.length = 8 && !hi then r.put v (setHeld d k none)
  else if r.wide && bs.length = 4 && !hi then setHeld d k (some (w32 v))
  else if r.wide && bs.length = 4 then
    let lo : Nat := match mapGet none d.glob.loHeld k with | some x => x.toNat | none => r.low d
    r.put (4294967296 * v + lo) (setHeld d k none)
  else badAccess d f off

/-- A read of a register or half of one: its bytes and the state after it (R8, R538). -/
def regGet (f off base : Nat) (r : RegDef) (hi : Bool) (size : Nat) (d : Dev) : Bytes × Dev :=
  let k := halfKey f base
  if !r.wide && size = 4 then (leBytes 4 (r.get d), r.side d)
  else if r.wide && size = 8 && !hi then (leBytes 8 (r.get d), r.side d)
  else if r.wide && size = 4 && !hi then (leBytes 4 (r.get d), setCap (r.side d) k (some (w32 (r.get d / 4294967296))))
  else if r.wide && size = 4 then
    match mapGet none d.glob.hiCap k with
    | some x => (leBytes 4 x.toNat, setCap d k none)
    | none => (leBytes 4 (r.get d / 4294967296), r.side d)
  else (zeros size, badAccess d f off)

/-- The registers of PF BAR0 that are served in every state but BEDROCK: GLB_STATE, GLB_RST_CAUSE and the Bedrock mirror (01 R27). -/
def alwaysServed (off : Nat) : Bool := off / 8 * 8 == 0x10 || off / 8 * 8 == 0x20 || off / 65536 == 0x12
/-- Whether an access of a function's BAR0 at an offset is served. -/
def offServed (d : Dev) (f off : Nat) : Bool :=
  if f = 0 then mapServed d || alwaysServed off else mapServed d && vfOpen d f

/-- A write of BAR0 outside doorbells and push windows. GLB_RST_CTL is taken in ZEROISED as well (01 R25). -/
def mapWrite (f off : Nat) (bs : Bytes) (d : Dev) : Dev :=
  let n := bs.length
  let ok := offServed d f off || (f == 0 && off == 0x18)
  match winAt f off with
  | some w => if !w.sizes.contains n || off % n ≠ 0 then badAccess d f off else if ok then w.put (off - w.base) bs d else d
  | none =>
    match regAt d f (off / 4 * 4) with
    | none => d
    | some (b, r, hi) =>
      if !([4, 8].contains n) || off % n ≠ 0 then badAccess d f off else if ok then regPut f off b r hi bs d else d

/-- A read of BAR0 outside doorbells and push windows: VFM_VID reads during a VF's reset too (13 R409). -/
def mapRead (f off size : Nat) (d : Dev) : Bytes × Dev :=
  let ok := offServed d f off || (f != 0 && off == 0 && mapServed d)
  match winAt f off with
  | some w =>
    if !w.sizes.contains size || off % size ≠ 0 then (zeros size, badAccess d f off)
    else if ok then (w.get d (off - w.base) size, d) else (zeros size, d)
  | none =>
    match regAt d f (off / 4 * 4) with
    | none => (zeros size, d)
    | some (b, r, hi) =>
      if !([4, 8].contains size) || off % size ≠ 0 then (zeros size, badAccess d f off)
      else if ok then regGet f off b r hi size d else (zeros size, d)

/-! ## Doorbells and push windows (02 R51, R52, R55) -/

/-- What lies at an offset of a BAR: a doorbell, a push window, each with its queue and the offset in it, or the map. -/
inductive BarPart
  | doorbell (q off : Nat) | push (q off : Nat) | map | reserved
  deriving DecidableEq, Repr

def barPart (f n off : Nat) : BarPart :=
  if n = 2 then
    if off < 0x8000 then .doorbell (off / 8) (off % 8)
    else if 0x10000 ≤ off && off < 0x50000 then .push ((off - 0x10000) / 64) (off % 64) else .reserved
  else if f = 0 then .map
  else if 0x2000 ≤ off && off < 0x3000 then .doorbell ((off - 0x2000) / 8) (off % 8)
  else if 0x3000 ≤ off && off < 0x4000 then .push ((off - 0x3000) / 64) (off % 64)
  else .map

/-- A write of a doorbell: other sizes are ignored. -/
def doorbellPut (f q off : Nat) (bs : Bytes) (d : Dev) : Dev :=
  if bs.length = 4 && off = 0 then sqDoorbellGo f q (u32At bs 0) d
  else if bs.length = 4 && off = 4 then cqDoorbellGo f q (u32At bs 0) d
  else if bs.length = 8 && off = 0 then cqDoorbellGo f q (u32At bs 4) (sqDoorbellGo f q (u32At bs 0) d)
  else d

/-! ## The command (19 R534, R537; 14 R433, R437) -/

/-- Whether a function's BAR answers: the function is there, Memory Space Enable is 1, it is in D0, and it has such a BAR. -/
def barThere (d : Dev) (f n : Nat) : Bool :=
  fnThere d f && (getFn d f).mse && !(getFn d f).d3hot && (n == 0 || (f == 0 && n == 2))

/-- A memory request to a BAR of a function that is there and does not answer: Unsupported Request (R534, R535). -/
def barRefused (d : Dev) (f : Nat) : Dev := if fnThere d f then emit d (.ur f) else d

/-- A write that reaches a function's BAR. -/
def barWrite (f n off : Nat) (bs : Bytes) (d : Dev) : Dev :=
  if bs.isEmpty then d else if !barThere d f n then barRefused d f
  else match barPart f n off with
    | .doorbell q o => doorbellPut f q o bs d
    | .push q o => pushWriteGo f q o bs d
    | .map => mapWrite f off bs d
    | .reserved => d

/-- A read that reaches a function's BAR, and its completion. What a push window reads is a free value (log 4). -/
def barRead (f n off size : Nat) (d : Dev) : Dev :=
  if size = 0 then d else if !barThere d f n then barRefused d f
  else match barPart f n off with
    | .doorbell _ _ => emit d (.cpl f (zeros size))
    | .push _ _ => emit { d with glob.freeCtr := d.glob.freeCtr + size } (.cpl f (freeBytes d size))
    | .map =>
      let r := mapRead f off size d
      emit r.2 (.cpl f r.1)
    | .reserved => emit d (.cpl f (zeros size))

/-- Whether the debug TAP reaches an offset of PF BAR0: under REGS all of it, else the life-cycle registers. -/
def tapReach (d : Dev) (off : Nat) : Bool :=
  d.jtag.insn == .debug && d.glob.st != .bedrock && (scopeOpen d 0 || (off / 65536 == 1 && mapServed d))

/-- A field of a function's configuration space. Sizes that PCIe does not name are ignored. -/
def cfgPut (f : Nat) (w : CfgField) : Dev → Dev :=
  cfgRequest f fun d =>
    let p := getFn d f
    match w with
    | .cto v => setFn d f { p with cto := v }
    | .mps n => if [128, 256, 512].contains n then setFn d f { p with mps := n } else d
    | .mrrs n => if [128, 256, 512, 1024, 2048, 4096].contains n then setFn d f { p with mrrs := n } else d
    | .relaxed on => setFn d f { p with relaxEn := on }

/-- The number that names the debug TAP in place of a function. -/
def tapFn : Nat := 256

/-- REGISTER_WRITE through the debug TAP. -/
def tapGo (a : RegAccess) (d : Dev) : Dev :=
  let off (x : Dev) : Dev := { x with jtag.acc := false }
  match a with
  | .bar 0 o bs => if tapReach d o && !bs.isEmpty then off (mapWrite 0 o bs { d with jtag.acc := true }) else d
  | .read 0 o n =>
    if tapReach d o && n != 0 then
      let r := mapRead 0 o n { d with jtag.acc := true }
      emit (off r.2) (.jtag r.1)
    else d
  | _ => d

/-- REGISTER_WRITE: a write of a register that has no row of its own, a read, or a write or read of configuration space. -/
def registerGo (f : Nat) (a : RegAccess) (d : Dev) : Dev :=
  if f = tapFn then tapGo a d
  else match a with
    | .bar n off bs => barWrite f n off bs d
    | .read n off size => barRead f n off size d
    | .cfg w => cfgPut f w d
    | .cfgRead i => cfgRequest f (cfgRead f i) d
def execRegisterWrite (f : Nat) (a : RegAccess) (s : State) : Out3 := onDev s (registerGo f a)

end Sys2Proof.Machine
end

