-- ==== Sys2Proof/Machine/Sym.lean ====
section
/-!
DEFINITION. The symmetric jobs of class 0x8 (12 R387-R389).
-/
namespace Sys2Proof.Machine

/-! ## Cycles (12 R389) -/

/-- Streaming work: `passes` readings of IN, the first with the AAD. -/
def symCycles (n aad : Nat) (twice xts : Bool) : Nat :=
  120 + cdiv (n + aad) 16 + (if twice then cdiv n 16 else 0) + (if xts then 16 else 0)
/-- KW and KWP over `n` semiblocks of wrapped text. -/
def kwCycles (n : Nat) : Nat := 120 + 132 * (n - 1)

/-- The key of a job. -/
def symKey (d : Dev) (b : Job) : Bytes := secretOf (jobKey0 d b)

/-- A job's IN is read once more (12 R388). -/
def readAgain (d : Dev) (b : Job) : Dev :=
  let d1 := modJob d b.id fun x => { x with inData := [], step := 1 }
  match b.inSegs with
  | some segs => readSegs d1 b segs b.e.inLen.toNat
  | none => hostRead d1 b.owner b.e.inAddr b.e.inLen.toNat (.input b.id)
/-- GCM_DEC and AEAD_DEC read IN twice: the first pass checks the tag, the second decrypts what it then reads (12 R388). -/
def twoPass (d : Dev) (b : Job) (ok : Bool) (plain : Bytes) (cyc : Nat) : Dev :=
  if b.step = 1 then finishOut d b plain 0 0 0 cyc
  else if ok then readAgain d b
  else refuse d b stTagInvalid 0 cyc

/-- End an unwrap: no plaintext unless its check verifies, the same CYCLES either way (12 R388). -/
def opened (d : Dev) (b : Job) (plain : Option Bytes) (cyc : Nat) : Dev :=
  match plain with
  | some p => finishOut d b p 0 0 0 cyc
  | none => refuse d b stTagInvalid 0 cyc

/-! ## GCM -/

/-- GCM_ENC: `[IV] ‖ ciphertext ‖ tag`; with GEN_IV the DRBG gives the IV. -/
def gcmEncRun (d : Dev) (b : Job) : Dev :=
  let gen := pbit b.e 0
  let aux := ownAux b
  let r := if gen then draw d 12 else (aux.take 12, d)
  let aad := if gen then aux else aux.drop 12
  let ks := aesKeys (symKey d b)
  let ct := gcmCrypt ks r.1 b.inData
  finishOut r.2 b ((if gen then r.1 else []) ++ ct ++ (gcmTag ks r.1 aad ct).take (tagLen b.e)) 0 0 0
    (symCycles b.inData.length aad.length false false)
def execGcmEnc (j : Nat) (s : State) : Out3 := onDev s (service j (isOp 8 1) gcmEncRun)

/-- GCM_DEC. -/
def gcmDecRun (d : Dev) (b : Job) : Dev :=
  let aux := ownAux b
  let iv := aux.take 12
  let ks := aesKeys (symKey d b)
  let n := b.inData.length - tagLen b.e
  let ct := b.inData.take n
  twoPass d b ((gcmTag ks iv (aux.drop 12) ct).take (tagLen b.e) == b.inData.drop n) (gcmCrypt ks iv ct)
    (symCycles b.inData.length (aux.length - 12) true false)
def execGcmDec (j : Nat) (s : State) : Out3 := onDev s (service j (isOp 8 2) gcmDecRun)

/-! ## CTR and XTS -/

/-- CTR: the whole 128-bit block counts; a job that would wrap it is refused. -/
def ctrRun (d : Dev) (b : Job) : Dev :=
  let iv := fit 16 (ownAux b)
  if 2 ^ 128 < beNat iv + cdiv b.inData.length 16 then refuse d b stRange 0x0801 (unstated b.e)
  else finishOut d b (aesCtr (symKey d b) iv b.inData) 0 0 0 (symCycles b.inData.length 0 false false)
def execCtr (j : Nat) (s : State) : Out3 := onDev s (service j (isOp 8 3) ctrRun)

/-- XTS in either direction. -/
def xtsRun (dec : Bool) (d : Dev) (b : Job) : Dev :=
  finishOut d b (aesXts dec (symKey d b) (secretOf (jobKey1 d b)) (fit 16 (ownAux b)) b.inData) 0 0 0
    (symCycles b.inData.length 0 false true)
def execXtsEnc (j : Nat) (s : State) : Out3 := onDev s (service j (isOp 8 4) (xtsRun false))
def execXtsDec (j : Nat) (s : State) : Out3 := onDev s (service j (isOp 8 5) (xtsRun true))

/-! ## Key wrap -/

def kwWrapRun (d : Dev) (b : Job) : Dev :=
  finishOut d b (kwWrap (symKey d b) b.inData) 0 0 0 (kwCycles (b.inData.length / 8 + 1))
def execKwWrap (j : Nat) (s : State) : Out3 := onDev s (service j (isOp 8 6) kwWrapRun)
def kwUnwrapRun (d : Dev) (b : Job) : Dev :=
  opened d b (kwUnwrap (symKey d b) b.inData) (kwCycles (b.inData.length / 8))
def execKwUnwrap (j : Nat) (s : State) : Out3 := onDev s (service j (isOp 8 7) kwUnwrapRun)
def kwpWrapRun (d : Dev) (b : Job) : Dev :=
  finishOut d b (kwpWrap (symKey d b) b.inData) 0 0 0 (kwCycles (cdiv b.inData.length 8 + 1))
def execKwpWrap (j : Nat) (s : State) : Out3 := onDev s (service j (isOp 8 8) kwpWrapRun)
def kwpUnwrapRun (d : Dev) (b : Job) : Dev :=
  opened d b (kwpUnwrap (symKey d b) b.inData) (kwCycles (cdiv b.inData.length 8))
def execKwpUnwrap (j : Nat) (s : State) : Out3 := onDev s (service j (isOp 8 9) kwpUnwrapRun)

/-! ## ChaCha20-Poly1305 -/

def aeadEncRun (d : Dev) (b : Job) : Dev :=
  let aux := ownAux b
  let k := symKey d b
  let nonce := aux.take 12
  let aad := aux.drop 12
  let ct := chaCrypt k nonce b.inData
  finishOut d b (ct ++ aeadTag k nonce aad ct) 0 0 0 (symCycles b.inData.length aad.length false false)
def execAeadEnc (j : Nat) (s : State) : Out3 := onDev s (service j (isOp 8 0x0A) aeadEncRun)
def aeadDecRun (d : Dev) (b : Job) : Dev :=
  let aux := ownAux b
  let k := symKey d b
  let nonce := aux.take 12
  let aad := aux.drop 12
  let ct := b.inData.take (b.inData.length - 16)
  twoPass d b (aeadTag k nonce aad ct == b.inData.drop (b.inData.length - 16)) (chaCrypt k nonce ct)
    (symCycles b.inData.length aad.length true false)
def execAeadDec (j : Nat) (s : State) : Out3 := onDev s (service j (isOp 8 0x0B) aeadDecRun)

end Sys2Proof.Machine
end

