-- ==== Sys2Proof/Machine/Dispatch.lean ====
section
/-!
DEFINITION. One arm per command: its meaning, by a direct call.
-/
namespace Sys2Proof.Machine

/-- The effect of a command on everything but the queue. -/
def exec (i : Instr) (s : State) : Host.Outcome State Fault Refusal :=
  match i with
  | .porNAssert => Sys2Proof.Machine.execPorNAssert s
  | .porNRelease fabId smbAddr env => Sys2Proof.Machine.execPorNRelease fabId smbAddr env s
  | .bedrockBrownout => Sys2Proof.Machine.execBedrockBrownout s
  | .perstNAssert => Sys2Proof.Machine.execPerstNAssert s
  | .perstNRelease env => Sys2Proof.Machine.execPerstNRelease env s
  | .selftestTempWait env => Sys2Proof.Machine.execSelftestTempWait env s
  | .hotReset env => Sys2Proof.Machine.execHotReset env s
  | .pfFlr => Sys2Proof.Machine.execPfFlr s
  | .vfFlr f => Sys2Proof.Machine.execVfFlr f s
  | .vfResetDone f => Sys2Proof.Machine.execVfResetDone f s
  | .softReset key env => Sys2Proof.Machine.execSoftReset key env s
  | .jtagHoldInstr k => Sys2Proof.Machine.execJtagHoldInstr k s
  | .jtagTestLogicReset env => Sys2Proof.Machine.execJtagTestLogicReset env s
  | .bypass => Sys2Proof.Machine.execBypass s
  | .idcode => Sys2Proof.Machine.execIdcode s
  | .samplePreload => Sys2Proof.Machine.execSamplePreload s
  | .jtagDebug => Sys2Proof.Machine.execJtagDebug s
  | .detectorEvent first second refclkLost env => Sys2Proof.Machine.execDetectorEvent first second refclkLost env s
  | .serdesRailLoss env => Sys2Proof.Machine.execSerdesRailLoss env s
  | .sensorRead tj rails => Sys2Proof.Machine.execSensorRead tj rails s
  | .sqDoorbell f q tail => Sys2Proof.Machine.execSqDoorbell f q tail s
  | .cqHeadDoorbell f q head => Sys2Proof.Machine.execCqHeadDoorbell f q head s
  | .doorbell64 f q tail head => Sys2Proof.Machine.execDoorbell64 f q tail head s
  | .pushWindowWrite f q off data => Sys2Proof.Machine.execPushWindowWrite f q off data s
  | .entryFetch o => Sys2Proof.Machine.execEntryFetch o s
  | .entryReadDone q r => Sys2Proof.Machine.execEntryReadDone q r s
  | .jobPlace j => Sys2Proof.Machine.execJobPlace j s
  | .blobUnwrapDone j => Sys2Proof.Machine.execBlobUnwrapDone j s
  | .hybridHalfDone j ec => Sys2Proof.Machine.execHybridHalfDone j ec s
  | .dmaReadCompletion j side r => Sys2Proof.Machine.execDmaReadCompletion j side r s
  | .dmaReadTimeout t => Sys2Proof.Machine.execDmaReadTimeout t s
  | .outputListChecked j => Sys2Proof.Machine.execOutputListChecked j s
  | .inputPageFilled c page => Sys2Proof.Machine.execInputPageFilled c page s
  | .auxFillDone c => Sys2Proof.Machine.execAuxFillDone c s
  | .outputBufferRoom c => Sys2Proof.Machine.execOutputBufferRoom c s
  | .mramCommitDone j => Sys2Proof.Machine.execMramCommitDone j s
  | .coalTimerExpiry c => Sys2Proof.Machine.execCoalTimerExpiry c s
  | .yieldTimeout cell => Sys2Proof.Machine.execYieldTimeout cell s
  | .trickBoundary => Sys2Proof.Machine.execTrickBoundary s
  | .decisionPoint => Sys2Proof.Machine.execDecisionPoint s
  | .roundBoundary => Sys2Proof.Machine.execRoundBoundary s
  | .dutyCoolTimer => Sys2Proof.Machine.execDutyCoolTimer s
  | .sqEnable f q v => Sys2Proof.Machine.execSqEnable f q v s
  | .sqDisable f q v => Sys2Proof.Machine.execSqDisable f q v s
  | .cqEnable f q v => Sys2Proof.Machine.execCqEnable f q v s
  | .cqDisable f q v => Sys2Proof.Machine.execCqDisable f q v s
  | .sqHeadWrite f q v => Sys2Proof.Machine.execSqHeadWrite f q v s
  | .cqPtrWrite f q v => Sys2Proof.Machine.execCqPtrWrite f q v s
  | .registerWrite f a => Sys2Proof.Machine.execRegisterWrite f a s
  | .nop j => Sys2Proof.Machine.execNop j s
  | .echo j => Sys2Proof.Machine.execEcho j s
  | .queryCaps j => Sys2Proof.Machine.execQueryCaps j s
  | .time j => Sys2Proof.Machine.execTime j s
  | .fateQuery j => Sys2Proof.Machine.execFateQuery j s
  | .fateRelease j => Sys2Proof.Machine.execFateRelease j s
  | .notify j => Sys2Proof.Machine.execNotify j s
  | .byJob f => Sys2Proof.Machine.execByJob f s
  | .byKey f => Sys2Proof.Machine.execByKey f s
  | .release f => Sys2Proof.Machine.execRelease f s
  | .releaseBoot f => Sys2Proof.Machine.execReleaseBoot f s
  | .kemKeygen j => Sys2Proof.Machine.execKemKeygen j s
  | .kemEncaps j => Sys2Proof.Machine.execKemEncaps j s
  | .kemDecaps j => Sys2Proof.Machine.execKemDecaps j s
  | .kemEncapsKeep j => Sys2Proof.Machine.execKemEncapsKeep j s
  | .kemDecapsKeep j => Sys2Proof.Machine.execKemDecapsKeep j s
  | .ekCheck j => Sys2Proof.Machine.execEkCheck j s
  | .kemPubExport j => Sys2Proof.Machine.execKemPubExport j s
  | .dsaKeygen j => Sys2Proof.Machine.execDsaKeygen j s
  | .dsaSign j => Sys2Proof.Machine.execDsaSign j s
  | .signPh j => Sys2Proof.Machine.execSignPh j s
  | .signMu j => Sys2Proof.Machine.execSignMu j s
  | .dsaVerify j => Sys2Proof.Machine.execDsaVerify j s
  | .verifyPh j => Sys2Proof.Machine.execVerifyPh j s
  | .verifyMu j => Sys2Proof.Machine.execVerifyMu j s
  | .dsaPubExport j => Sys2Proof.Machine.execDsaPubExport j s
  | .hbsKeygen j => Sys2Proof.Machine.execHbsKeygen j s
  | .hbsSign j => Sys2Proof.Machine.execHbsSign j s
  | .hbsSignPh j => Sys2Proof.Machine.execHbsSignPh j s
  | .hbsVerify j => Sys2Proof.Machine.execHbsVerify j s
  | .hbsVerifyPh j => Sys2Proof.Machine.execHbsVerifyPh j s
  | .hbsPubExport j => Sys2Proof.Machine.execHbsPubExport j s
  | .advance j => Sys2Proof.Machine.execAdvance j s
  | .rebuild j => Sys2Proof.Machine.execRebuild j s
  | .codeKeygen j => Sys2Proof.Machine.execCodeKeygen j s
  | .codeEncaps j => Sys2Proof.Machine.execCodeEncaps j s
  | .codeDecaps j => Sys2Proof.Machine.execCodeDecaps j s
  | .codeEncapsKeep j => Sys2Proof.Machine.execCodeEncapsKeep j s
  | .codeDecapsKeep j => Sys2Proof.Machine.execCodeDecapsKeep j s
  | .codePkLoad j => Sys2Proof.Machine.execCodePkLoad j s
  | .codePubExport j => Sys2Proof.Machine.execCodePubExport j s
  | .pkKeygen j => Sys2Proof.Machine.execPkKeygen j s
  | .pkSign j => Sys2Proof.Machine.execPkSign j s
  | .signV15 j => Sys2Proof.Machine.execSignV15 j s
  | .pkVerify j => Sys2Proof.Machine.execPkVerify j s
  | .verifyV15 j => Sys2Proof.Machine.execVerifyV15 j s
  | .pkPubExport j => Sys2Proof.Machine.execPkPubExport j s
  | .dh j => Sys2Proof.Machine.execDh j s
  | .dhKeep j => Sys2Proof.Machine.execDhKeep j s
  | .pkLoad j => Sys2Proof.Machine.execPkLoad j s
  | .curveLoad j => Sys2Proof.Machine.execCurveLoad j s
  | .encrypt j => Sys2Proof.Machine.execEncrypt j s
  | .decrypt j => Sys2Proof.Machine.execDecrypt j s
  | .privRaw j => Sys2Proof.Machine.execPrivRaw j s
  | .pubRaw j => Sys2Proof.Machine.execPubRaw j s
  | .modRun j => Sys2Proof.Machine.execModRun j s
  | .mpLoad e w => Sys2Proof.Machine.execMpLoad e w s
  | .mpLoadx e w => Sys2Proof.Machine.execMpLoadx e w s
  | .mpLoadk e w => Sys2Proof.Machine.execMpLoadk e w s
  | .mpSeti e w => Sys2Proof.Machine.execMpSeti e w s
  | .mpCopy e w => Sys2Proof.Machine.execMpCopy e w s
  | .mpAdd e w => Sys2Proof.Machine.execMpAdd e w s
  | .mpSub e w => Sys2Proof.Machine.execMpSub e w s
  | .mmul e w => Sys2Proof.Machine.execMmul e w s
  | .tom e w => Sys2Proof.Machine.execTom e w s
  | .fromm e w => Sys2Proof.Machine.execFromm e w s
  | .inv e w => Sys2Proof.Machine.execInv e w s
  | .exp e w => Sys2Proof.Machine.execExp e w s
  | .store e w => Sys2Proof.Machine.execStore e w s
  | .hashDigest j => Sys2Proof.Machine.execHashDigest j s
  | .hashMac j => Sys2Proof.Machine.execHashMac j s
  | .macVerify j => Sys2Proof.Machine.execMacVerify j s
  | .hashInit j => Sys2Proof.Machine.execHashInit j s
  | .hashUpdate j => Sys2Proof.Machine.execHashUpdate j s
  | .hashFinal j => Sys2Proof.Machine.execHashFinal j s
  | .finalVerify j => Sys2Proof.Machine.execFinalVerify j s
  | .gcmEnc j => Sys2Proof.Machine.execGcmEnc j s
  | .gcmDec j => Sys2Proof.Machine.execGcmDec j s
  | .ctr j => Sys2Proof.Machine.execCtr j s
  | .xtsEnc j => Sys2Proof.Machine.execXtsEnc j s
  | .xtsDec j => Sys2Proof.Machine.execXtsDec j s
  | .kwWrap j => Sys2Proof.Machine.execKwWrap j s
  | .kwUnwrap j => Sys2Proof.Machine.execKwUnwrap j s
  | .kwpWrap j => Sys2Proof.Machine.execKwpWrap j s
  | .kwpUnwrap j => Sys2Proof.Machine.execKwpUnwrap j s
  | .aeadEnc j => Sys2Proof.Machine.execAeadEnc j s
  | .aeadDec j => Sys2Proof.Machine.execAeadDec j s
  | .generate j => Sys2Proof.Machine.execGenerate j s
  | .condKat j => Sys2Proof.Machine.execCondKat j s
  | .drbgKat j => Sys2Proof.Machine.execDrbgKat j s
  | .rngRaw j => Sys2Proof.Machine.execRngRaw j s
  | .secretGen j => Sys2Proof.Machine.execSecretGen j s
  | .derive j => Sys2Proof.Machine.execDerive j s
  | .blobExport j => Sys2Proof.Machine.execBlobExport j s
  | .blobImport j => Sys2Proof.Machine.execBlobImport j s
  | .kwExport j => Sys2Proof.Machine.execKwExport j s
  | .kwImport j => Sys2Proof.Machine.execKwImport j s
  | .kemImport j => Sys2Proof.Machine.execKemImport j s
  | .restrict j => Sys2Proof.Machine.execRestrict j s
  | .destroy j => Sys2Proof.Machine.execDestroy j s
  | .info j => Sys2Proof.Machine.execInfo j s
  | .readPlain j => Sys2Proof.Machine.execReadPlain j s
  | .zeroiseOwner j => Sys2Proof.Machine.execZeroiseOwner j s
  | .report j => Sys2Proof.Machine.execReport j s
  | .identity j => Sys2Proof.Machine.execIdentity j s
  | .keyAttest j => Sys2Proof.Machine.execKeyAttest j s
  | .ssQuery j => Sys2Proof.Machine.execSsQuery j s
  | .park j => Sys2Proof.Machine.execPark j s
  | .limit j => Sys2Proof.Machine.execLimit j s
  | .delete j => Sys2Proof.Machine.execDelete j s
  | .customRun j => Sys2Proof.Machine.execCustomRun j s
  | .add p f => Sys2Proof.Machine.execAdd p f s
  | .sub p f => Sys2Proof.Machine.execSub p f s
  | .and p f => Sys2Proof.Machine.execAnd p f s
  | .or p f => Sys2Proof.Machine.execOr p f s
  | .xor p f => Sys2Proof.Machine.execXor p f s
  | .sll p f => Sys2Proof.Machine.execSll p f s
  | .srl p f => Sys2Proof.Machine.execSrl p f s
  | .sra p f => Sys2Proof.Machine.execSra p f s
  | .addi p f => Sys2Proof.Machine.execAddi p f s
  | .andi p f => Sys2Proof.Machine.execAndi p f s
  | .ori p f => Sys2Proof.Machine.execOri p f s
  | .xori p f => Sys2Proof.Machine.execXori p f s
  | .slli p f => Sys2Proof.Machine.execSlli p f s
  | .srli p f => Sys2Proof.Machine.execSrli p f s
  | .srai p f => Sys2Proof.Machine.execSrai p f s
  | .slti p f => Sys2Proof.Machine.execSlti p f s
  | .lui p f => Sys2Proof.Machine.execLui p f s
  | .mul p f => Sys2Proof.Machine.execMul p f s
  | .mulh p f => Sys2Proof.Machine.execMulh p f s
  | .mulhu p f => Sys2Proof.Machine.execMulhu p f s
  | .div p f => Sys2Proof.Machine.execDiv p f s
  | .divu p f => Sys2Proof.Machine.execDivu p f s
  | .rem p f => Sys2Proof.Machine.execRem p f s
  | .remu p f => Sys2Proof.Machine.execRemu p f s
  | .slt p f => Sys2Proof.Machine.execSlt p f s
  | .sltu p f => Sys2Proof.Machine.execSltu p f s
  | .seq p f => Sys2Proof.Machine.execSeq p f s
  | .csel p f => Sys2Proof.Machine.execCsel p f s
  | .min p f => Sys2Proof.Machine.execMin p f s
  | .max p f => Sys2Proof.Machine.execMax p f s
  | .minu p f => Sys2Proof.Machine.execMinu p f s
  | .maxu p f => Sys2Proof.Machine.execMaxu p f s
  | .ld8 p f => Sys2Proof.Machine.execLd8 p f s
  | .ld16 p f => Sys2Proof.Machine.execLd16 p f s
  | .ld32 p f => Sys2Proof.Machine.execLd32 p f s
  | .ld64 p f => Sys2Proof.Machine.execLd64 p f s
  | .st8 p f => Sys2Proof.Machine.execSt8 p f s
  | .st16 p f => Sys2Proof.Machine.execSt16 p f s
  | .st32 p f => Sys2Proof.Machine.execSt32 p f s
  | .st64 p f => Sys2Proof.Machine.execSt64 p f s
  | .beq p f => Sys2Proof.Machine.execBeq p f s
  | .bne p f => Sys2Proof.Machine.execBne p f s
  | .blt p f => Sys2Proof.Machine.execBlt p f s
  | .bge p f => Sys2Proof.Machine.execBge p f s
  | .bltu p f => Sys2Proof.Machine.execBltu p f s
  | .bgeu p f => Sys2Proof.Machine.execBgeu p f s
  | .jal p f => Sys2Proof.Machine.execJal p f s
  | .jalr p f => Sys2Proof.Machine.execJalr p f s
  | .vcfg p f => Sys2Proof.Machine.execVcfg p f s
  | .ccrr p f => Sys2Proof.Machine.execCcrr p f s
  | .ccrw p f => Sys2Proof.Machine.execCcrw p f s
  | .yield p f => Sys2Proof.Machine.execYield p f s
  | .halt p f => Sys2Proof.Machine.execHalt p f s
  | .bar p f => Sys2Proof.Machine.execBar p f s
  | .idle p f => Sys2Proof.Machine.execIdle p f s
  | .vadd p f => Sys2Proof.Machine.execVadd p f s
  | .vsub p f => Sys2Proof.Machine.execVsub p f s
  | .vand p f => Sys2Proof.Machine.execVand p f s
  | .vor p f => Sys2Proof.Machine.execVor p f s
  | .vxor p f => Sys2Proof.Machine.execVxor p f s
  | .vsll p f => Sys2Proof.Machine.execVsll p f s
  | .vsrl p f => Sys2Proof.Machine.execVsrl p f s
  | .vsra p f => Sys2Proof.Machine.execVsra p f s
  | .vimul p f => Sys2Proof.Machine.execVimul p f s
  | .vimulh p f => Sys2Proof.Machine.execVimulh p f s
  | .vimulhu p f => Sys2Proof.Machine.execVimulhu p f s
  | .vimin p f => Sys2Proof.Machine.execVimin p f s
  | .vimax p f => Sys2Proof.Machine.execVimax p f s
  | .viminu p f => Sys2Proof.Machine.execViminu p f s
  | .vimaxu p f => Sys2Proof.Machine.execVimaxu p f s
  | .vsel p f => Sys2Proof.Machine.execVsel p f s
  | .vseq p f => Sys2Proof.Machine.execVseq p f s
  | .vsne p f => Sys2Proof.Machine.execVsne p f s
  | .vslt p f => Sys2Proof.Machine.execVslt p f s
  | .vsltu p f => Sys2Proof.Machine.execVsltu p f s
  | .vkand p f => Sys2Proof.Machine.execVkand p f s
  | .vkor p f => Sys2Proof.Machine.execVkor p f s
  | .vkxor p f => Sys2Proof.Machine.execVkxor p f s
  | .vknot p f => Sys2Proof.Machine.execVknot p f s
  | .vbcast p f => Sys2Proof.Machine.execVbcast p f s
  | .vpopc p f => Sys2Proof.Machine.execVpopc p f s
  | .vext p f => Sys2Proof.Machine.execVext p f s
  | .vins p f => Sys2Proof.Machine.execVins p f s
  | .vredsum p f => Sys2Proof.Machine.execVredsum p f s
  | .vredxor p f => Sys2Proof.Machine.execVredxor p f s
  | .vredor p f => Sys2Proof.Machine.execVredor p f s
  | .vld p f => Sys2Proof.Machine.execVld p f s
  | .vldu p f => Sys2Proof.Machine.execVldu p f s
  | .vst p f => Sys2Proof.Machine.execVst p f s
  | .vstu p f => Sys2Proof.Machine.execVstu p f s
  | .vkld p f => Sys2Proof.Machine.execVkld p f s
  | .vkst p f => Sys2Proof.Machine.execVkst p f s
  | .vmadd p f => Sys2Proof.Machine.execVmadd p f s
  | .vmsub p f => Sys2Proof.Machine.execVmsub p f s
  | .vmneg p f => Sys2Proof.Machine.execVmneg p f s
  | .vmmul p f => Sys2Proof.Machine.execVmmul p f s
  | .vmred p f => Sys2Proof.Machine.execVmred p f s
  | .vmtom p f => Sys2Proof.Machine.execVmtom p f s
  | .vmfromm p f => Sys2Proof.Machine.execVmfromm p f s
  | .vmmac p f => Sys2Proof.Machine.execVmmac p f s
  | .vmbf p f => Sys2Proof.Machine.execVmbf p f s
  | .vmbfi p f => Sys2Proof.Machine.execVmbfi p f s
  | .vmbft p f => Sys2Proof.Machine.execVmbft p f s
  | .vmbfti p f => Sys2Proof.Machine.execVmbfti p f s
  | .vzip p f => Sys2Proof.Machine.execVzip p f s
  | .vunzip p f => Sys2Proof.Machine.execVunzip p f s
  | .vslup p f => Sys2Proof.Machine.execVslup p f s
  | .vsldn p f => Sys2Proof.Machine.execVsldn p f s
  | .vperm p f => Sys2Proof.Machine.execVperm p f s
  | .vrev p f => Sys2Proof.Machine.execVrev p f s
  | .vcompr p f => Sys2Proof.Machine.execVcompr p f s
  | .vbrev p f => Sys2Proof.Machine.execVbrev p f s
  | .vclmul p f => Sys2Proof.Machine.execVclmul p f s
  | .vclmulh p f => Sys2Proof.Machine.execVclmulh p f s
  | .vgmul p f => Sys2Proof.Machine.execVgmul p f s
  | .vgsqr p f => Sys2Proof.Machine.execVgsqr p f s
  | .vginv p f => Sys2Proof.Machine.execVginv p f s
  | .vgmac p f => Sys2Proof.Machine.execVgmac p f s
  | .vgxp p f => Sys2Proof.Machine.execVgxp p f s
  | .fadd p f => Sys2Proof.Machine.execFadd p f s
  | .fsub p f => Sys2Proof.Machine.execFsub p f s
  | .fmul p f => Sys2Proof.Machine.execFmul p f s
  | .fdiv p f => Sys2Proof.Machine.execFdiv p f s
  | .fsqrt p f => Sys2Proof.Machine.execFsqrt p f s
  | .fmin p f => Sys2Proof.Machine.execFmin p f s
  | .fmax p f => Sys2Proof.Machine.execFmax p f s
  | .fneg p f => Sys2Proof.Machine.execFneg p f s
  | .fma p f => Sys2Proof.Machine.execFma p f s
  | .fms p f => Sys2Proof.Machine.execFms p f s
  | .fnma p f => Sys2Proof.Machine.execFnma p f s
  | .fcvtf p f => Sys2Proof.Machine.execFcvtf p f s
  | .fcvti p f => Sys2Proof.Machine.execFcvti p f s
  | .frnd p f => Sys2Proof.Machine.execFrnd p f s
  | .fmvx p f => Sys2Proof.Machine.execFmvx p f s
  | .fmvf p f => Sys2Proof.Machine.execFmvf p f s
  | .vpack p f => Sys2Proof.Machine.execVpack p f s
  | .vunpk p f => Sys2Proof.Machine.execVunpk p f s
  | .vcbd p f => Sys2Proof.Machine.execVcbd p f s
  | .vrej p f => Sys2Proof.Machine.execVrej p f s
  | .vcompd p f => Sys2Proof.Machine.execVcompd p f s
  | .vdecd p f => Sys2Proof.Machine.execVdecd p f s
  | .vp2r p f => Sys2Proof.Machine.execVp2r p f s
  | .vdcmp p f => Sys2Proof.Machine.execVdcmp p f s
  | .vhmake p f => Sys2Proof.Machine.execVhmake p f s
  | .vhuse p f => Sys2Proof.Machine.execVhuse p f s
  | .vchkn p f => Sys2Proof.Machine.execVchkn p f s
  | .hinit p f => Sys2Proof.Machine.execHinit p f s
  | .habs p f => Sys2Proof.Machine.execHabs p f s
  | .hsqz p f => Sys2Proof.Machine.execHsqz p f s
  | .hsha p f => Sys2Proof.Machine.execHsha p f s
  | .hdig p f => Sys2Proof.Machine.execHdig p f s
  | .sref p f => Sys2Proof.Machine.execSref p f s
  | .sand p f => Sys2Proof.Machine.execSand p f s
  | .sa2b p f => Sys2Proof.Machine.execSa2b p f s
  | .sb2a p f => Sys2Proof.Machine.execSb2a p f s
  | .scmp p f => Sys2Proof.Machine.execScmp p f s
  | .sunm p f => Sys2Proof.Machine.execSunm p f s
  | .srnd p f => Sys2Proof.Machine.execSrnd p f s
  | .jwait p f => Sys2Proof.Machine.execJwait p f s
  | .jrel p f => Sys2Proof.Machine.execJrel p f s
  | .jout p f => Sys2Proof.Machine.execJout p f s
  | .jkey p f => Sys2Proof.Machine.execJkey p f s
  | .jkput p f => Sys2Proof.Machine.execJkput p f s
  | .jkdone p f => Sys2Proof.Machine.execJkdone p f s
  | .jrnd p f => Sys2Proof.Machine.execJrnd p f s
  | .jset p f => Sys2Proof.Machine.execJset p f s
  | .uWait u f => Sys2Proof.Machine.execUWait u f s
  | .uUop u f => Sys2Proof.Machine.execUUop u f s
  | .uUopi u f => Sys2Proof.Machine.execUUopi u f s
  | .uUins u f => Sys2Proof.Machine.execUUins u f s
  | .uFld u f => Sys2Proof.Machine.execUFld u f s
  | .uCcr u f => Sys2Proof.Machine.execUCcr u f s
  | .uFlt u f => Sys2Proof.Machine.execUFlt u f s
  | .uBr u f => Sys2Proof.Machine.execUBr u f s
  | .uJmp u f => Sys2Proof.Machine.execUJmp u f s
  | .uCall u f => Sys2Proof.Machine.execUCall u f s
  | .uRet u f => Sys2Proof.Machine.execURet u f s
  | .uLpset u f => Sys2Proof.Machine.execULpset u f s
  | .uLpend u f => Sys2Proof.Machine.execULpend u f s
  | .uYld u f => Sys2Proof.Machine.execUYld u f s
  | .uEnd u f => Sys2Proof.Machine.execUEnd u f s
  | .uXmov u f => Sys2Proof.Machine.execUXmov u f s
  | .uUiss u f => Sys2Proof.Machine.execUUiss u f s
  | .uVln u f => Sys2Proof.Machine.execUVln u f s
  | .uVel u f => Sys2Proof.Machine.execUVel u f s
  | .uTls u f => Sys2Proof.Machine.execUTls u f s
  | .uMkv u f => Sys2Proof.Machine.execUMkv u f s
  | .uSln u f => Sys2Proof.Machine.execUSln u f s
  | .uMac u f => Sys2Proof.Machine.execUMac u f s
  | .uPad u f => Sys2Proof.Machine.execUPad u f s
  | .uKplMe u f => Sys2Proof.Machine.execUKplMe u f s
  | .uHio u f => Sys2Proof.Machine.execUHio u f s
  | .uHui u f => Sys2Proof.Machine.execUHui u f s
  | .uNbm u f => Sys2Proof.Machine.execUNbm u f s
  | .uSst u f => Sys2Proof.Machine.execUSst u f s
  | .uKplTs u f => Sys2Proof.Machine.execUKplTs u f s
  | .controlStoreEcc u correctable => Sys2Proof.Machine.execControlStoreEcc u correctable s
  | .ucodeStage u crcOk => Sys2Proof.Machine.execUcodeStage u crcOk s
  | .instanceDrained c => Sys2Proof.Machine.execInstanceDrained c s
  | .dlrCommit => Sys2Proof.Machine.execDlrCommit s
  | .tableCheckDone => Sys2Proof.Machine.execTableCheckDone s
  | .dlrDiscard => Sys2Proof.Machine.execDlrDiscard s
  | .dealPlan => Sys2Proof.Machine.execDealPlan s
  | .flintTrimStep n latch ones => Sys2Proof.Machine.execFlintTrimStep n latch ones s
  | .rctFailure n => Sys2Proof.Machine.execRctFailure n s
  | .aptFailure n => Sys2Proof.Machine.execAptFailure n s
  | .conditionerBlock n samples => Sys2Proof.Machine.execConditionerBlock n samples s
  | .reseedDue => Sys2Proof.Machine.execReseedDue s
  | .rngHoldEnd katOk => Sys2Proof.Machine.execRngHoldEnd katOk s
  | .reserveRefill => Sys2Proof.Machine.execReserveRefill s
  | .inlineKat => Sys2Proof.Machine.execInlineKat s
  | .rngKat => Sys2Proof.Machine.execRngKat s
  | .rngRecal n => Sys2Proof.Machine.execRngRecal n s
  | .recalDone n pass trims => Sys2Proof.Machine.execRecalDone n pass trims s
  | .sourceRetry n => Sys2Proof.Machine.execSourceRetry n s
  | .softZeroise v => Sys2Proof.Machine.execSoftZeroise v s
  | .zeroiseSoft => Sys2Proof.Machine.execZeroiseSoft s
  | .hardZeroise v => Sys2Proof.Machine.execHardZeroise v s
  | .zeroiseNAssert => Sys2Proof.Machine.execZeroiseNAssert s
  | .tamper n => Sys2Proof.Machine.execTamper n s
  | .zeroise env => Sys2Proof.Machine.execZeroise env s
  | .vfEnableSet n => Sys2Proof.Machine.execVfEnableSet n s
  | .vfEnableClear => Sys2Proof.Machine.execVfEnableClear s
  | .vfmSelWrite o => Sys2Proof.Machine.execVfmSelWrite o s
  | .enable => Sys2Proof.Machine.execEnable s
  | .apply => Sys2Proof.Machine.execApply s
  | .remove purge => Sys2Proof.Machine.execRemove purge s
  | .challenge => Sys2Proof.Machine.execChallenge s
  | .challengeExpiry => Sys2Proof.Machine.execChallengeExpiry s
  | .submit env => Sys2Proof.Machine.execSubmit env s
  | .revoke env => Sys2Proof.Machine.execRevoke env s
  | .ikhProgram otpOk => Sys2Proof.Machine.execIkhProgram otpOk s
  | .debugGrantExpiry env => Sys2Proof.Machine.execDebugGrantExpiry env s
  | .writeSlot r => Sys2Proof.Machine.execWriteSlot r s
  | .verify => Sys2Proof.Machine.execVerify s
  | .activate env => Sys2Proof.Machine.execActivate env s
  | .commit => Sys2Proof.Machine.execCommit s
  | .rollback => Sys2Proof.Machine.execRollback s
  | .rolloutStepDone => Sys2Proof.Machine.execRolloutStepDone s
  | .supvHandoverReport => Sys2Proof.Machine.execSupvHandoverReport s
  | .supvHandoverFail => Sys2Proof.Machine.execSupvHandoverFail s
  | .nvmFail => Sys2Proof.Machine.execNvmFail s
  | .isSchedule => Sys2Proof.Machine.execIsSchedule s
  | .isCmd v => Sys2Proof.Machine.execIsCmd v s
  | .isDrainTimeout c => Sys2Proof.Machine.execIsDrainTimeout c s
  | .isTestDone c r => Sys2Proof.Machine.execIsTestDone c r s
  | .uncorrectableEcc site => Sys2Proof.Machine.execUncorrectableEcc site s
  | .ckptTimer => Sys2Proof.Machine.execCkptTimer s
  | .ckpt => Sys2Proof.Machine.execCkpt s
  | .ckptDone => Sys2Proof.Machine.execCkptDone s
  | .clearHist => Sys2Proof.Machine.execClearHist s
  | .mirrorTimer n ok => Sys2Proof.Machine.execMirrorTimer n ok s
  | .recBankBad b => Sys2Proof.Machine.execRecBankBad b s
  | .wallCommit v => Sys2Proof.Machine.execWallCommit v s
  | .wallSRead => Sys2Proof.Machine.execWallSRead s
  | .ambFreeze => Sys2Proof.Machine.execAmbFreeze s
  | .freezeCopyDone => Sys2Proof.Machine.execFreezeCopyDone s
  | .ambDigest src => Sys2Proof.Machine.execAmbDigest src s
  | .digestDone => Sys2Proof.Machine.execDigestDone s
  | .amberRefill code => Sys2Proof.Machine.execAmberRefill code s
  | .supvPush => Sys2Proof.Machine.execSupvPush s
  | .wdogRestart => Sys2Proof.Machine.execWdogRestart s
  | .wdog env => Sys2Proof.Machine.execWdog env s
  | .smbGetStatus => Sys2Proof.Machine.execSmbGetStatus s
  | .smbGetIdentity => Sys2Proof.Machine.execSmbGetIdentity s
  | .smbGetLc => Sys2Proof.Machine.execSmbGetLc s
  | .smbGetEnv => Sys2Proof.Machine.execSmbGetEnv s
  | .smbAmbRead back n => Sys2Proof.Machine.execSmbAmbRead back n s
  | .smbFrzRead bank slot n => Sys2Proof.Machine.execSmbFrzRead bank slot n s
  | .smbDigest src part => Sys2Proof.Machine.execSmbDigest src part s
  | .smbFreeze => Sys2Proof.Machine.execSmbFreeze s
  | .smbReset key env => Sys2Proof.Machine.execSmbReset key env s
  | .smbZeroise key => Sys2Proof.Machine.execSmbZeroise key s
  | .smbAlertAck => Sys2Proof.Machine.execSmbAlertAck s
  | .frameSubmit fr => Sys2Proof.Machine.execFrameSubmit fr s
  | .frameComplete fr => Sys2Proof.Machine.execFrameComplete fr s
  | .frameRdReq fr => Sys2Proof.Machine.execFrameRdReq fr s
  | .frameRdData fr => Sys2Proof.Machine.execFrameRdData fr s
  | .frameWrData fr => Sys2Proof.Machine.execFrameWrData fr s
  | .frameAbandon fr => Sys2Proof.Machine.execFrameAbandon fr s
  | .frameAbandonDone fr => Sys2Proof.Machine.execFrameAbandonDone fr s
  | .frameCreditGrant fr => Sys2Proof.Machine.execFrameCreditGrant fr s
  | .frameAckNak fr => Sys2Proof.Machine.execFrameAckNak fr s
  | .frameHeartbeat fr => Sys2Proof.Machine.execFrameHeartbeat fr s
  | .frameTime fr => Sys2Proof.Machine.execFrameTime fr s
  | .frameHandshake fr => Sys2Proof.Machine.execFrameHandshake fr s
  | .frameConfig fr => Sys2Proof.Machine.execFrameConfig fr s
  | .frameRecord fr => Sys2Proof.Machine.execFrameRecord fr s
  | .frameAmber fr => Sys2Proof.Machine.execFrameAmber fr s
  | .frameFate fr => Sys2Proof.Machine.execFrameFate fr s
  | .frameRekey fr => Sys2Proof.Machine.execFrameRekey fr s
  | .heartbeatTick => Sys2Proof.Machine.execHeartbeatTick s
  | .timeTick => Sys2Proof.Machine.execTimeTick s
  | .replayTimeout port => Sys2Proof.Machine.execReplayTimeout port s
  | .portLinkChange port ev => Sys2Proof.Machine.execPortLinkChange port ev s
  | .gapTimeout node => Sys2Proof.Machine.execGapTimeout node s
  | .memberSilence node => Sys2Proof.Machine.execMemberSilence node s
  | .leadLost => Sys2Proof.Machine.execLeadLost s
  | .fabJoin node hops => Sys2Proof.Machine.execFabJoin node hops s
  | .sessionRenew node => Sys2Proof.Machine.execSessionRenew node s
  | .fabAdmit node => Sys2Proof.Machine.execFabAdmit node s
  | .fabRemove node => Sys2Proof.Machine.execFabRemove node s
  | .fabRekey node => Sys2Proof.Machine.execFabRekey node s
  | .busMasterEnable f bme mse => Sys2Proof.Machine.execBusMasterEnable f bme mse s
  | .powerStateChange f d3hot => Sys2Proof.Machine.execPowerStateChange f d3hot s
  | .msixUnmask f w => Sys2Proof.Machine.execMsixUnmask f w s
  | .evmaskWrite v => Sys2Proof.Machine.execEvmaskWrite v s
  | .eventHoldoffExpiry v => Sys2Proof.Machine.execEventHoldoffExpiry v s
  | .linkRetrain speed width => Sys2Proof.Machine.execLinkRetrain speed width s
  | .poisonedBarWrite f off => Sys2Proof.Machine.execPoisonedBarWrite f off s
  | .refclkStable env => Sys2Proof.Machine.execRefclkStable env s
  | .vddBrReturn env => Sys2Proof.Machine.execVddBrReturn env s
  | .debugHalt u op => Sys2Proof.Machine.execDebugHalt u op s
  | .debugStep u op => Sys2Proof.Machine.execDebugStep u op s
  | .importStepDone j => Sys2Proof.Machine.execImportStepDone j s
  | .clockLowTimeout => Sys2Proof.Machine.execClockLowTimeout s
  | .lossOfArbitration => Sys2Proof.Machine.execLossOfArbitration s
  | .admitTimeout => Sys2Proof.Machine.execAdmitTimeout s

end Sys2Proof.Machine
end

