-- ==== Sys2Proof/Machine/Tick.lean ====
section
/-!
DEFINITION. What one beat of 10 ns does when no command waits (00 R7, 17 R475; log 2).
-/
namespace Sys2Proof.Machine

/-- One beat: TB counts 10 ns while CLK_SUP runs, and the Bedrock oscillator extends it while it does not. -/
def beat (d : Dev) : Dev :=
  if d.glob.tbRun || (!d.glob.porAsserted && d.glob.vddBr) then { d with glob.tb := d.glob.tb + 10 } else d

end Sys2Proof.Machine
end

