-- ==== Sys2Proof/Safety.lean ====
section
/-!
DEFINITION. The terms in which the statements speak of safe runs: when a core, an engine or a queue may act, and what an action leaves alone.
-/
namespace Sys2Proof.Safety

open Sys2Proof.Machine

/-! ## What signalling and recording may change -/

/-- Requests to the host and event messages: the host interface and the message hold-off (19 R549) change, nothing else. -/
def Signals (d d' : Dev) : Prop := ∃ h a b, d' = { d with hif := h, glob := { d.glob with evHold := a, evCarry := b } }

/-- Besides signalling, entries of Amber, of the recorder and of Bedrock's registers, and frames to the fabric. -/
def Reports (d d' : Dev) : Prop :=
  ∃ h a b m r f c, d' = { d with
    hif := h, glob := { d.glob with evHold := a, evCarry := b }, amb := m, bdr := r, fab := f, recd := c }

/-! ## The end of a job (01 R17, 02 R44-R46) -/

/-- What the end of a job may change: the jobs and their I/O and parked contexts, the queues, the engines' registers, what a modular
engine or a tree sequencer holds of the job (overwritten with DRBG output, 06 R181, 08 R288), the fate journal, the count of
RNG_UNAVAILABLE, and what signalling and the recorder change. -/
def Closes (d d' : Dev) : Prop :=
  ∃ h a b dc rc un js io pk sq cq en me ts jr, d' = { d with
    hif := h, glob := { d.glob with evHold := a, evCarry := b, drbgCtr := dc }, recd := rc, rng := { d.rng with unavail := un }
    jobs := js, io := io, parked := pk, sqs := sq, cqs := cq, engs := en, mes := me, tss := ts, jrn := jr }

/-- A job has ended: it is no longer in flight, its completion with this status and effect is kept as the last one, its credit and slot
are free and its CQ has one entry more. -/
structure JobEnds (d d' : Dev) (b : Job) (st : U16) (eff : Byte) : Prop where
  live : d'.jobs.live = d.jobs.live.filter fun x => x.id ≠ b.id
  done : ∃ r, d'.jobs.done = d.jobs.done ++ [r] ∧ r.owner = b.owner ∧ r.sq = b.sq ∧ r.sqIndex = b.index ∧ r.cq = b.cq
    ∧ r.cqIndex = (getCq d b.cq).tail ∧ r.tag = b.e.tag ∧ r.status = st ∧ r.effect = eff
  tail : (getCq d' b.cq).tail = (getCq d b.cq).tail + 1
  free : (getSq d' b.sq).outstanding = (getSq d b.sq).outstanding - 1

/-! ## Polynomial cores (07, 08, 09) -/

/-- A core that can issue an instruction of its job at a cycle: it runs, its job is placed and started, no barrier, wait, halt,
abort or yield timeout stands in its way, the cycle is not before its next one, and the dispatch entries that its control store holds, if
any, serve the job (07 R215, R236, R239, R242; 08 R280, R284; 09 R301). -/
structure PyReady (d : Dev) (c t : Nat) (b : Job) (io : JobIo) : Prop where
  core    : c < 16
  run     : (getStore d c).halted = false
  noStep  : (getStore d c).stepOk = false
  job     : cellJob d c = some b
  placed  : b.phase = .placed
  here    : b.coreSaved = false
  area    : mapGet {} d.io b.id = io
  started : io.started = true
  noBar   : io.bars.any (fun x => x.1 == c) = false
  noWait  : mapGet none io.wait c = none
  due     : (getCore d c).nextT ≤ t
  noAbort : b.abort = none
  fresh   : (getCore d c).resumed = false
  yield   : t < (getCore d c).yieldT + 2048
  serves  : ∀ i x, dispAt d c i = some x → x.serves (opClass b.e.opcode == 0xD) = true

/-- At this cycle the schedule contract holds nothing against a core: every result has landed, every unit is free, and every line
access lies more than a cycle back (07 R243; 09 R301). -/
structure PyQuiet (d : Dev) (c t : Nat) : Prop where
  land  : ∀ e ∈ (getCore d c).land, e.2 ≤ t
  free  : ∀ e ∈ (getCore d c).free, e.2 ≤ t
  ports : ∀ k < 16, ∀ q ∈ (getCore d k).ports, q.1 + 1 < t
  q     : (getCore d c).qAt ≤ t
  g     : (getCore d c).gAt ≤ t

/-- The registers of a core as an instruction sees them: the dispatched word and its PC latched, no element window (07 R213; 08 R273,
R274). -/
def regsAt (d : Dev) (c : Nat) (word : U32) : PyRegs := { (getCore d c).live with word := word, ipc := (getCore d c).live.pc, velOn := false }

/-- An instruction at its issue. -/
def pxAt (d : Dev) (a : PyAt) (word : U32) (b : Job) (io : JobIo) : Px :=
  { d := d, c := a.core, t := a.t, b := b, io := io, r := regsAt d a.core word }

/-- The device outside the cores, the jobs and their I/O is as before, but for the model's counters of free values (log 4). -/
def SameDevice (d d' : Dev) : Prop :=
  d' = { d with
    cores := d'.cores, jobs := d'.jobs, io := d'.io
    glob := { d.glob with freeCtr := d'.glob.freeCtr, drbgCtr := d'.glob.drbgCtr } }

/-- No job but one is touched. -/
def SameJobsBut (d d' : Dev) (j : Nat) : Prop := ∀ n, n ≠ j → findJob d' n = findJob d n

/-- The registers, contexts and tiles of every core but one are as before. -/
def SameCoresBut (d d' : Dev) (c : Nat) : Prop :=
  ∀ k, k ≠ c → (getCore d' k).live = (getCore d k).live ∧ (getCore d' k).tile = (getCore d k).tile
    ∧ (getCore d' k).ctx = (getCore d k).ctx

/-- What an instruction that works on registers leaves: the core's registers are `r`, its tile and contexts are as before, and
so is everything outside this core and its job. -/
structure PyDone (d d' : Dev) (c : Nat) (b : Job) (r : PyRegs) : Prop where
  regs  : (getCore d' c).live = r
  tile  : (getCore d' c).tile = (getCore d c).tile
  ctx   : (getCore d' c).ctx = (getCore d c).ctx
  cores : SameCoresBut d d' c
  jobs  : SameJobsBut d d' b.id
  rest  : SameDevice d d'

/-- What an instruction that stores to a tile leaves: the bytes of the string stand from `off` on in the tile of core `tc`, every other byte
of every tile is as before, and so is everything outside this core and its job; the core's registers are `r`. -/
structure PyStored (d d' : Dev) (c : Nat) (b : Job) (r : PyRegs) (tc off : Nat) (bs : Bytes) : Prop where
  regs  : (getCore d' c).live = r
  bytes : ∀ i (h : i < bs.length), memByte (getCore d' tc).tile (off + i) = bs[i]
  other : ∀ k a, (k = tc → a < off ∨ off + bs.length ≤ a) → memByte (getCore d' k).tile a = memByte (getCore d k).tile a
  cores : ∀ k, k ≠ c → (getCore d' k).live = (getCore d k).live
  ctx   : ∀ k, (getCore d' k).ctx = (getCore d k).ctx
  jobs  : SameJobsBut d d' b.id
  rest  : SameDevice d d'

/-! ## Completion -/

/-- A command answers a next state: the queue is what it was, and the device is as `P` says. -/
def Completes (i : Instr) (s : State) (P : Dev → Prop) : Prop :=
  ∃ t, exec i s = .next t ∧ t.pending = s.pending ∧ P t.dev

/-- A core that can issue, with nothing against it in the schedule contract. -/
def PyGo (s : State) (p : PyAt) (b : Job) (io : JobIo) : Prop := PyReady s.dev p.core p.t b io ∧ PyQuiet s.dev p.core p.t

/-- The registers of the core that a command names. -/
def live (s : State) (p : PyAt) : PyRegs := (getCore s.dev p.core).live

/-- An instruction completes with exactly this change of its core's registers; the word it dispatched is latched. -/
def PyExec (i : Instr) (s : State) (p : PyAt) (b : Job) (f : PyRegs → PyRegs) : Prop :=
  Completes i s fun d' => ∃ w, PyDone s.dev d' p.core b (f (regsAt s.dev p.core w))

/-- The next instruction; a vector instruction clears `VRESUME` too (07 R221). -/
def nextS (r : PyRegs) : PyRegs := { r with pc := r.pc + 4 }
def nextV (r : PyRegs) : PyRegs := { r with pc := r.pc + 4, vresume := 0 }

/-- xd ← op(xa, xb), for a format A word with M, K and X 0. -/
def ScalarA (c : PyAt → FmtA → Instr) (op : U64 → U64 → U64) : Prop :=
  ∀ s p f b io, PyGo s p b io → f.m = false → f.k = 0 → f.x = 0 →
    PyExec (c p f) s p b fun r => nextS (xSet r f.d (op (xGet r f.a) (xGet r f.b)))

/-- xd ← op(xa, IMM12 sign-extended). -/
def ScalarI (c : PyAt → FmtI → Instr) (op : U64 → U64 → U64) : Prop :=
  ∀ s p f b io, PyGo s p b io → PyExec (c p f) s p b fun r => nextS (xSet r f.d (op (xGet r f.a) (f.imm.signExtend 64)))

/-- d[i] ← op(a[i], b[i], d[i]) for the active elements of aligned groups; `ok` is what the instruction asks of the type. -/
def VectorA (c : PyAt → FmtA → Instr) (ok : PyRegs → Bool) (op : PyRegs → Nat → Nat → Nat → Nat) : Prop :=
  ∀ s p f b io, PyGo s p b io →
    aligned f.d (grpOf (live s p)) → aligned f.a (grpOf (live s p)) → bOk (live s p) f → maskOk (live s p) f.m → ok (live s p) →
    PyExec (c p f) s p b fun r =>
      nextV (vWrite r (maskOf f.m f.k) f.d fun i => op r (vEl r f.a i) (bElem r f i) (vEl r f.d i))

/-- d[i] ← op(a[i]) for the active elements of aligned groups. -/
def VectorU (c : PyAt → FmtA → Instr) (ok : PyRegs → Bool) (op : PyRegs → Nat → Nat) : Prop :=
  ∀ s p f b io, PyGo s p b io →
    aligned f.d (grpOf (live s p)) → aligned f.a (grpOf (live s p)) → f.x.toNat ≤ 2 → maskOk (live s p) f.m → ok (live s p) →
    PyExec (c p f) s p b fun r => nextV (vWrite r (maskOf f.m f.k) f.d fun i => op r (vEl r f.a i))

/-- m[d][i] ← op(a[i], b[i]) for the active elements. -/
def VectorCmp (c : PyAt → FmtA → Instr) (op : Nat → Nat → Nat → Bool) : Prop :=
  ∀ s p f b io, PyGo s p b io →
    f.d.toNat < 8 → aligned f.a (grpOf (live s p)) → bOk (live s p) f → maskOk (live s p) f.m →
    PyExec (c p f) s p b fun r =>
      nextV (mWrite r (maskOf f.m f.k) f.d.toNat fun i => op (sewOf r) (vEl r f.a i) (bElem r f i))

/-- All 256 bits of mask register d ← op(a, b); X is no reserved value. -/
def MaskBits (c : PyAt → FmtA → Instr) (op : BitVec 256 → BitVec 256 → BitVec 256) : Prop :=
  ∀ s p f b io, PyGo s p b io → f.d.toNat < 8 → f.a.toNat < 8 → f.b.toNat < 8 → f.x.toNat ≤ 2 →
    PyExec (c p f) s p b fun r => nextV (mPut r f.d.toNat (op (mReg r f.a.toNat) (mReg r f.b.toNat)))

/-- xd ← the active elements of a joined by op, starting at 0. -/
def Reduction (c : PyAt → FmtA → Instr) (op : Nat → Nat → Nat) : Prop :=
  ∀ s p f b io, PyGo s p b io → aligned f.a (grpOf (live s p)) → f.x.toNat ≤ 2 → maskOk (live s p) f.m →
    PyExec (c p f) s p b fun r =>
      nextV (xSet r f.d (BitVec.ofNat 64 ((activeEls r (maskOf f.m f.k)).foldl (fun acc i => op acc (vEl r f.a i)) 0)))

/-- A scalar load of `n` bytes: aligned, inside the job's memory, on a page that is present, on no line with an uncorrectable error and on
none that another core stored to less than five cycles ago (07 R227, R230, R237, R258). -/
def ScalarLoad (c : PyAt → FmtI → Instr) (n : Nat) : Prop :=
  ∀ s p f b io tc off, PyGo s p b io →
    let px := pxAt s.dev p 0 b io
    let a := (xGet (live s p) f.a + f.imm.signExtend 64).toNat
    a % n = 0 → tilePlace px a n = some (tc, off) → elStop px a n false = none → lineStale px tc (off / 256) = false →
    PyExec (c p f) s p b fun r => nextS (xSet r f.d (BitVec.ofNat 64 (leNat (memRead (getCore s.dev tc).tile off n))))

/-- A scalar store of `n` bytes: aligned, inside the job's memory and outside the input area. -/
def ScalarStore (c : PyAt → FmtS → Instr) (n : Nat) : Prop :=
  ∀ s p f b io tc off, PyGo s p b io →
    let px := pxAt s.dev p 0 b io
    let a := (xGet (live s p) f.a + f.imm.signExtend 64).toNat
    a % n = 0 → tilePlace px a n = some (tc, off) → pageAt px a = none → memWf (getCore s.dev tc).tile →
    Completes (c p f) s fun d' => ∃ w,
      PyStored s.dev d' p.core b (nextS (regsAt s.dev p.core w)) tc off (leBytes n (xGet (live s p) f.b).toNat)

/-- A vector load: every active element is inside the job's memory, on a page that is present and on no line with an uncorrectable error; of
an element on a line that another core has just stored to, the value is free (07 R258; log 4). -/
def VectorLoad (c : PyAt → FmtM → Instr) (al : PyRegs → Nat) : Prop :=
  ∀ s p f b io, PyGo s p b io →
    let px := pxAt s.dev p 0 b io
    let w := sewOf (live s p) / 8
    aligned f.v (grpOf (live s p)) → maskOk (live s p) f.m → vecAddr px f % al (live s p) = 0 →
    (∀ i ∈ activeEls px.r (maskOf f.m f.k), elStop px (vecAddr px f + i * w) w false = none) →
    ∃ ld : Nat → Nat,
      (∀ i tc off, tilePlace px (vecAddr px f + i * w) w = some (tc, off) → lineStale px tc (off / 256) = false →
        ld i = leNat (memRead (getCore s.dev tc).tile off w))
      ∧ PyExec (c p f) s p b fun r => nextV (vWrite r (maskOf f.m f.k) f.v ld)

/-- What a vector store leaves: the bytes of each active element stand at its place, every other byte of every tile is as before, and so
is everything outside this core and its job. -/
structure PyStoredEls (d d' : Dev) (c : Nat) (b : Job) (r : PyRegs) (els : List Nat) (w : Nat) (place : Nat → Option (Nat × Nat))
    (val : Nat → Nat) : Prop where
  regs  : (getCore d' c).live = r
  bytes : ∀ i ∈ els, ∀ tc off, place i = some (tc, off) → memRead (getCore d' tc).tile off w = leBytes w (val i)
  other : ∀ k a, (∀ i ∈ els, ∀ off, place i = some (k, off) → a < off ∨ off + w ≤ a) →
    memByte (getCore d' k).tile a = memByte (getCore d k).tile a
  cores : ∀ k, k ≠ c → (getCore d' k).live = (getCore d k).live
  ctx   : ∀ k, (getCore d' k).ctx = (getCore d k).ctx
  jobs  : SameJobsBut d d' b.id
  rest  : SameDevice d d'

/-- A vector store: every active element is inside the job's memory and outside the input area. -/
def VectorStore (c : PyAt → FmtM → Instr) (al : PyRegs → Nat) : Prop :=
  ∀ s p f b io, PyGo s p b io →
    let px := pxAt s.dev p 0 b io
    let w := sewOf (live s p) / 8
    aligned f.v (grpOf (live s p)) → maskOk (live s p) f.m → vecAddr px f % al (live s p) = 0 →
    (∀ i ∈ activeEls px.r (maskOf f.m f.k), elStop px (vecAddr px f + i * w) w true = none) →
    (∀ k, memWf (getCore s.dev k).tile) →
    Completes (c p f) s fun d' => ∃ wd,
      PyStoredEls s.dev d' p.core b (nextV (regsAt s.dev p.core wd)) (activeEls px.r (maskOf f.m f.k)) w
        (fun i => tilePlace px (vecAddr px f + i * w) w) (vEl (live s p) f.v)

/-- A butterfly of two vector registers with its twiddles in a third, G = 1: the two results go to vd and vd+1. -/
def Butterfly (c : PyAt → FmtQ → Instr) (op : PyRegs → Nat → Nat → Nat → Nat × Nat) : Prop :=
  ∀ s p f b io, PyGo s p b io → bflyOk (live s p) f.d → f.x = 0 →
    PyExec (c p f) s p b fun r =>
      nextV (vWrite (vWrite r none f.d fun i => (op r (vEl r f.a i) (vEl r f.b i) (vEl r f.c i)).1) none (f.d + 1)
        fun i => (op r (vEl r f.a i) (vEl r f.b i) (vEl r f.c i)).2)

/-- A butterfly with its twiddles in the tile line TWBASE.LINE + IMM7, which is inside the job's memory and present. -/
def TileButterfly (c : PyAt → FmtT → Instr) (op : PyRegs → Nat → Nat → Nat → Nat × Nat) : Prop :=
  ∀ s p f b io, PyGo s p b io →
    let px := pxAt s.dev p 0 b io
    let w := sewOf (live s p) / 8
    let addr := ((live s p).twbase.toNat + f.imm.toNat) * 256
    bflyOk (live s p) f.d →
    (∀ i ∈ activeEls px.r none, elStop px (addr + i * w) w false = none) →
    ∃ tw : Nat → Nat,
      (∀ i tc off, tilePlace px (addr + i * w) w = some (tc, off) → lineStale px tc (off / 256) = false →
        tw i = leNat (memRead (getCore s.dev tc).tile off w))
      ∧ PyExec (c p f) s p b fun r =>
          nextV (vWrite (vWrite r none f.d fun i => (op r (vEl r f.a i) (vEl r f.b i) (tw i)).1) none (f.d + 1)
            fun i => (op r (vEl r f.a i) (vEl r f.b i) (tw i)).2)

/-- A permute into one group. -/
def Permute (c : PyAt → FmtT → Instr) (useB : Bool) (op : PyRegs → (Nat → Nat) → (Nat → Nat) → Nat → Nat) : Prop :=
  ∀ s p f b io, PyGo s p b io → aligned f.d (grpOf (live s p)) → aligned f.a (grpOf (live s p)) →
    (useB = true → aligned f.b (grpOf (live s p))) →
    PyExec (c p f) s p b fun r => nextV (vWrite r none f.d (op r (vEl r f.a) (vEl r f.b)))

/-- A permute into the group at D and the one after it; blocks of 2^IMM7 elements, at most VLMAX. -/
def PermutePair (c : PyAt → FmtT → Instr) (op : Nat → Nat → (Nat → Nat) → (Nat → Nat) → Nat → Nat × Nat) : Prop :=
  ∀ s p f b io, PyGo s p b io → aligned f.d (grpOf (live s p)) → aligned f.a (grpOf (live s p)) → aligned f.b (grpOf (live s p)) →
    f.d.toNat + 2 * grpOf (live s p) ≤ 32 →
    PyExec (c p f) s p b fun r =>
      let blk := min (2 ^ f.imm.toNat) (vlmaxOf r)
      nextV (vWrite (vWrite r none f.d fun i => (op (vlmaxOf r) blk (vEl r f.a) (vEl r f.b) i).1) none (f.d + BitVec.ofNat 5 (grpOf r))
        fun i => (op (vlmaxOf r) blk (vEl r f.a) (vEl r f.b) i).2)

/-- A slide by xb, or by IMM7 where B names x0. -/
def Slide (c : PyAt → FmtT → Instr) (op : PyRegs → (Nat → Nat) → (Nat → Nat) → Nat → Nat → Nat) : Prop :=
  ∀ s p f b io, PyGo s p b io → aligned f.d (grpOf (live s p)) → aligned f.a (grpOf (live s p)) →
    PyExec (c p f) s p b fun r =>
      nextV (vWrite r none f.d (op r (vEl r f.d) (vEl r f.a) (if f.b = 0 then f.imm.toNat else (xGet r f.b).toNat)))

/-- A binary64 instruction of two operands: on f registers (X = 0), or on aligned groups of 64-bit elements (X = 1); the flags accrue
(07 R214, R218, R253). -/
def Float2 (c : PyAt → FmtA → Instr) (op : BitVec 3 → U64 → U64 → FRes) : Prop :=
  ∀ s p f b io, PyGo s p b io → (live s p).frm.toNat ≤ 4 →
    (f.x = 0 → f.m = false →
      PyExec (c p f) s p b fun r =>
        let v := op r.frm (fGet r f.a) (fGet r f.b)
        nextS (fAccrue (fSet r f.d v.1) v.2))
    ∧ (f.x = 1 → sewOf (live s p) = 64 → aligned f.d (grpOf (live s p)) → aligned f.a (grpOf (live s p)) →
      aligned f.b (grpOf (live s p)) → maskOk (live s p) f.m →
      PyExec (c p f) s p b fun r =>
        nextV (fVecWrite r (maskOf f.m f.k) f.d fun i => op r.frm (BitVec.ofNat 64 (vEl r f.a i)) (BitVec.ofNat 64 (vEl r f.b i))))

/-- A binary64 instruction of one operand; `free` are values the spec leaves open (log 4). -/
def Float1 (c : PyAt → FmtA → Instr) (op : BitVec 3 → Nat → U64 → FRes) : Prop :=
  ∀ s p f b io, PyGo s p b io → (live s p).frm.toNat ≤ 4 → ∃ free : Nat → Nat,
    (f.x = 0 → f.m = false →
      PyExec (c p f) s p b fun r =>
        let v := op r.frm (free 0) (fGet r f.a)
        nextS (fAccrue (fSet r f.d v.1) v.2))
    ∧ (f.x = 1 → sewOf (live s p) = 64 → aligned f.d (grpOf (live s p)) → aligned f.a (grpOf (live s p)) → maskOk (live s p) f.m →
      PyExec (c p f) s p b fun r =>
        nextV (fVecWrite r (maskOf f.m f.k) f.d fun i => op r.frm (free i) (BitVec.ofNat 64 (vEl r f.a i))))

/-- A fused instruction of three operands. -/
def Float3 (c : PyAt → FmtQ → Instr) (op : BitVec 3 → U64 → U64 → U64 → FRes) : Prop :=
  ∀ s p f b io, PyGo s p b io → (live s p).frm.toNat ≤ 4 →
    (f.x = 0 →
      PyExec (c p f) s p b fun r =>
        let v := op r.frm (fGet r f.a) (fGet r f.b) (fGet r f.c)
        nextS (fAccrue (fSet r f.d v.1) v.2))
    ∧ (f.x = 1 → sewOf (live s p) = 64 → (∀ n ∈ [f.d, f.a, f.b, f.c], aligned n (grpOf (live s p))) →
      PyExec (c p f) s p b fun r =>
        nextV (fVecWrite r none f.d fun i =>
          op r.frm (BitVec.ofNat 64 (vEl r f.a i)) (BitVec.ofNat 64 (vEl r f.b i)) (BitVec.ofNat 64 (vEl r f.c i))))

/-! ### Sampling and packing (07 R254) -/

/-- An instruction on whole groups that writes one: `ok` limits IMM7, `use` says for which modulus the value is stated; where it is not, the
values are free (log 4). -/
def SampleT (c : PyAt → FmtT → Instr) (useB : Bool) (ok : Nat → Bool) (use : Nat → Nat → Bool) (op : PyRegs → FmtT → Nat → Nat) : Prop :=
  ∀ s p f b io, PyGo s p b io → aligned f.d (grpOf (live s p)) → aligned f.a (grpOf (live s p)) →
    (useB = true → aligned f.b (grpOf (live s p))) → ok f.imm.toNat →
    (use (qOf (live s p)) f.imm.toNat → PyExec (c p f) s p b fun r => nextV (vWrite r none f.d (op r f)))
    ∧ ∃ v, PyExec (c p f) s p b fun r => nextV (vWrite r none f.d v)

/-- Two groups are written, at D and after it. -/
def vWrite2 (r : PyRegs) (msk : Option Nat) (d : BitVec 5) (f : Nat → Nat × Nat) : PyRegs :=
  vWrite (vWrite r msk d fun i => (f i).1) msk (d + BitVec.ofNat 5 (grpOf r)) fun i => (f i).2

/-- Decompose of FIPS 204: the high part and the low part of a modulo q, with γ2 = g. -/
def decomposeQ (q g a : Nat) : Nat × Int :=
  let r : Int := (a % q : Nat)
  let r0 := centred r (2 * g)
  if r - r0 = q - 1 then (0, r0 - 1) else (((r - r0) / (2 * g)).toNat, r0)

/-- UseHint of FIPS 204. -/
def useHintQ (q g h a : Nat) : Nat :=
  let m := (q - 1) / (2 * g)
  let x := decomposeQ q g a
  if h % 2 = 0 then x.1 else if 0 < x.2 then (x.1 + 1) % m else (x.1 + m - 1) % m

/-! ### Hash channels (07 R255) -/

/-- The value of a Keccak unit: its shares joined. -/
def keccakOf (b : HashBank) : BitVec 1600 := b.keccak.toList.foldl (· ^^^ ·) 0

/-- A unit that was initialised holds what it holds; of another one the content is free (log 4). -/
def unitHolds (s : State) (p : PyAt) (u : Nat) (b : HashBank) : Prop := (bankOf (live s p) u).fn ≠ 0 → b = bankOf (live s p) u

/-! ### Shares (07 R256) -/

/-- The value that `n` shares of one element hold. -/
def shareVal (k : Sharing) (n : Nat) (sh : Nat → Nat) : Nat :=
  match k with
  | .bool => ((List.range n).map sh).foldl (· ^^^ ·) 0
  | .sum m => ((List.range n).map sh).foldl (· + ·) 0 % m

/-- A share group is written, register by register: G counts as 1. -/
def shareWrite (r : PyRegs) (d : BitVec 5) (n : Nat) (sh : Nat → Nat → Nat) : PyRegs :=
  { (List.range n).foldl (fun r j => vWrite r none (d + BitVec.ofNat 5 j) (sh j)) (single r) with vtype := r.vtype }

/-- A share operation leaves shares of a value: which shares is open, but for what they hold together. -/
def Shared (i : Instr) (s : State) (p : PyAt) (b : Job) (d : BitVec 5) (n : Nat) (k : Sharing) (val : Nat → Nat) : Prop :=
  ∃ sh : Nat → Nat → Nat,
    (∀ e, match k with
      | .bool => shareVal .bool n (fun j => sh j e) = val e
      | .sum m => 0 < m → shareVal (.sum m) n (fun j => sh j e) = val e % m)
    ∧ PyExec i s p b fun r => nextV (shareWrite r d n sh)

/-! ### Job I/O -/

/-- An instruction completes with this change of its core's registers and leaves its job's I/O so. -/
def PyExecIo (i : Instr) (s : State) (p : PyAt) (b : Job) (f : PyRegs → PyRegs) (io' : JobIo) : Prop :=
  Completes i s fun d' => (∃ w, PyDone s.dev d' p.core b (f (regsAt s.dev p.core w))) ∧ mapGet {} d'.io b.id = io'

/-- Whether a byte address lies in the program of a job (07 R245). -/
def inProgram (io : JobIo) (a : Int) : Prop := (io.base : Int) ≤ a ∧ a < (io.base : Int) + 4 * io.hdr.codeLen

/-- A conditional branch: to PC + 4 × IMM12 when the condition holds, which must lie in the program; else to the next word. -/
def Branch (c : PyAt → FmtS → Instr) (cond : U64 → U64 → Prop) : Prop :=
  ∀ s p f b io, PyGo s p b io →
    let a := xGet (live s p) f.a
    let bb := xGet (live s p) f.b
    let target : Int := (live s p).pc.toNat + 4 * f.imm.toInt
    (cond a bb → inProgram io target → PyExec (c p f) s p b fun r => { r with pc := BitVec.ofInt 16 target })
    ∧ (¬ cond a bb → PyExec (c p f) s p b nextS)

/-- The job on a core ends with a fault of the core, where no check of the job's output list is due (02 R43, 07 R237): no instruction of it
goes on. -/
def PyFaults (i : Instr) (s : State) (b : Job) (st : U16) : Prop :=
  listDue b = false → Completes i s fun d' => ∃ eff, JobEnds s.dev d' b st eff

/-- A device on which a job's end is its own: no member of a fabric, the job's output list in order, and the queue maps in canonical
form. -/
def OwnQueues (d : Dev) (b : Job) : Prop :=
  isMember d = false ∧ b.outBad = none ∧ mapWf {} d.sqs = true ∧ mapWf {} d.cqs = true

/-! ## Sequencers (08) -/

/-- A sequencer that can issue its next micro-op: its store runs and no halt waits, the job on its cell is placed and not aborted, its yield
point is near and the schedule contract holds nothing against it; on a core, moreover, the job has started and no barrier or wait holds it. -/
structure MicroReady (d : Dev) (u : Nat) (b : Job) : Prop where
  seq    : u < 28
  run    : (getStore d u).halted = false
  noStep : (getStore d u).stepOk = false
  job    : cellJob d (seqCellOf u) = some b
  placed : b.phase = .placed
  abort  : b.abort = none
  noHalt : (getStore d u).haltReq = false
  yield  : uTime d u < (getSched d u).yieldT + yieldMax u
  land   : ∀ e ∈ (getSched d u).land, e.2 ≤ uTime d u
  free   : ∀ e ∈ (getSched d u).free, e.2 ≤ uTime d u
  core   : u < 16 → PyReady d u (uTime d u) b (mapGet {} d.io b.id) ∧ PyQuiet d u (uTime d u)

/-- The control store's word at a sequencer's micro-PC, where it holds one, spells this command (08 R268, R272, R276). -/
def MicroWord (d : Dev) (u : Nat) (i : Instr) : Prop :=
  ∀ w, storeWord d u (getMicro d u).upc.toNat = some w → uCommand u w = some i

/-- The registers of a core with another micro-state. -/
def withMicro (r : PyRegs) (m : Micro) : PyRegs := { r with u := m.u, lc := m.lc, stack := m.stack, upc := m.upc, inUop := m.run }

/-- What a micro-op leaves: its core's registers, its modular engine or its tree sequencer changed as given, but for the engine's records of
the schedule contract; every tile, every context, every other unit of these kinds, every other job and the rest of the device as before. -/
structure MicroLeaves (d d' : Dev) (u : Nat) (b : Job) (py : PyRegs → PyRegs) (me : MeEng → MeEng) (ts : TsEng → TsEng) : Prop where
  core  : ∀ k < 16, (getCore d' k).live = if k = u then py (getCore d k).live else (getCore d k).live
  tile  : ∀ k, (getCore d' k).tile = (getCore d k).tile
  ctx   : ∀ k, (getCore d' k).ctx = (getCore d k).ctx
  meng  : ∀ i < 8, getMe d' i = if 16 + i = u then { me (getMe d i) with sched := (getMe d' i).sched } else getMe d i
  tree  : ∀ i < 4, getTs d' i = if 24 + i = u then { ts (getTs d i) with sched := (getTs d' i).sched } else getTs d i
  jobs  : SameJobsBut d d' b.id
  rest  : d' = { d with
    cores := d'.cores, mes := d'.mes, tss := d'.tss, jobs := d'.jobs, io := d'.io
    glob := { d.glob with freeCtr := d'.glob.freeCtr, drbgCtr := d'.glob.drbgCtr } }

/-- The micro-state after a micro-op that goes on to the next word. -/
def uNext (m : Micro) : Micro := { m with upc := m.upc + 1, run := true }

/-- A micro-op that changes the micro-state only. -/
def MicroState (i : Instr) (s : State) (u : Nat) (b : Job) (g : Micro → Micro) : Prop :=
  MicroWord s.dev u i → Completes i s fun d' => MicroLeaves s.dev d' u b (fun r => withMicro r (g (getMicro s.dev u)))
    (fun e => { e with micro := g e.micro }) fun t => { t with micro := g t.micro }

/-- A micro-op of a core that changes its registers and goes on to the next word. -/
def MicroPy (i : Instr) (s : State) (u : Nat) (b : Job) (f : PyRegs → PyRegs) (g : Micro → Micro) : Prop :=
  MicroWord s.dev u i → Completes i s fun d' => MicroLeaves s.dev d' u b (fun r => withMicro (f r) (uNext (g (getMicro s.dev u)))) id id

/-- A micro-op of a modular engine that changes the engine and goes on to the next word. -/
def MicroMe (i : Instr) (s : State) (u : Nat) (b : Job) (f : MeEng → MeEng) : Prop :=
  MicroWord s.dev u i → Completes i s fun d' => MicroLeaves s.dev d' u b id (fun e => { f e with micro := uNext e.micro }) id

/-- A micro-op of a tree sequencer that changes it and goes on to the next word. -/
def MicroTs (i : Instr) (s : State) (u : Nat) (b : Job) (f : TsEng → TsEng) : Prop :=
  MicroWord s.dev u i → Completes i s fun d' => MicroLeaves s.dev d' u b id id fun t => { f t with micro := uNext t.micro }

/-- A micro-op that writes a string to OUT at an offset: the host's memory is written, the job's output and effect note it (02 R39). -/
def MicroOut (i : Instr) (s : State) (u : Nat) (b : Job) (off : Nat) (bs : Bytes) : Prop :=
  MicroWord s.dev u i → Completes i s fun d' =>
    MicroLeaves (writeOut s.dev b off bs) d' u b id (fun e => { e with micro := uNext e.micro }) (fun t => { t with micro := uNext t.micro })
      ∧ findJob d' b.id = some { b with outLen := max b.outLen (off + bs.length), effect := b.effect ||| effOutput }

/-- A micro-op that ends its job with this status. -/
def MicroFaults (i : Instr) (s : State) (u : Nat) (b : Job) (st : U16) : Prop := MicroWord s.dev u i → PyFaults i s b st

/-- Micro-registers uA, uB and uC of a sequencer. -/
def uReg (s : State) (u : Nat) (n : BitVec 5) : U64 := uGet (getMicro s.dev u) n

/-- The instruction before the sequencer of a core. -/
def uAt (s : State) (u : Nat) (b : Job) : Px :=
  { d := s.dev, c := u, t := uTime s.dev u, b := b, io := mapGet {} s.dev.io b.id, r := (getCore s.dev u).live }

/-- Whether the dispatched word is a vector instruction. -/
def vectorWord (u : Nat) (r : PyRegs) : Bool :=
  match pyOpOf r.word (r.word.toNat % 128) (r.word.toNat / 128 % 8) with
  | some o => (o.use { d := {}, c := u, t := 0, b := {}, io := {}, r := r }).vec
  | none => false

/-- The operations of UOP and UOPI by code: of the old uA, and of the two operands (08 R271). -/
def uopTable : List (Nat × (U64 → U64 → U64 → U64)) :=
  [(0, fun _ a b => a + b), (1, fun _ a b => a - b), (2, fun _ a b => a &&& b), (3, fun _ a b => a ||| b), (4, fun _ a b => a ^^^ b),
   (5, fun _ a b => a <<< (b.toNat % 64)), (6, fun _ a b => a >>> (b.toNat % 64)), (7, fun _ a b => a.sshiftRight (b.toNat % 64)),
   (8, fun _ a b => if a.toNat ≤ b.toNat then a else b), (9, fun _ a b => if b.toNat ≤ a.toNat then a else b),
   (10, fun _ a b => if a.toNat < b.toNat then 1 else 0), (11, fun _ a b => if a = b then 1 else 0),
   (12, fun old a b => if old = 0 then b else a)]

/-- The conditions of BR by code (08 R271). -/
def ubrTable : List (Nat × (U64 → U64 → Bool)) :=
  [(0, fun a b => a = b), (1, fun a b => a ≠ b), (2, fun a b => a.toInt < b.toInt), (3, fun a b => b.toInt ≤ a.toInt),
   (4, fun a b => a.toNat < b.toNat), (5, fun a b => b.toNat ≤ a.toNat)]

/-- The fields that FLD reads at the same place in every format, and from the state of a core (08 R274). -/
def fldTable : List (Nat × (PyRegs → U64)) :=
  [(0, fun r => (r.word.extractLsb' 10 5).setWidth 64), (1, fun r => (r.word.extractLsb' 15 5).setWidth 64),
   (3, fun r => (r.word.extractLsb' 25 5).setWidth 64), (4, fun r => (r.word.extractLsb' 20 12).signExtend 64),
   (5, fun r => (r.word.extractLsb' 15 17).signExtend 64), (6, fun r => (r.word.extractLsb' 24 8).signExtend 64),
   (7, fun r => (r.word.extractLsb' 25 7).setWidth 64), (11, fun r => (r.word.extractLsb' 15 2).setWidth 64),
   (12, fun r => (r.word.extractLsb' 17 2).setWidth 64), (13, fun r => (r.word.extractLsb' 19 1).setWidth 64),
   (14, fun r => (r.word.extractLsb' 20 12).setWidth 64), (15, fun r => (r.word.extractLsb' 25 2).setWidth 64),
   (16, fun r => (r.vtype.extractLsb' 0 2).setWidth 64), (17, fun r => (r.vtype.extractLsb' 2 2).setWidth 64),
   (18, fun r => (r.ipc >>> 2).setWidth 64)]

/-! ## Services (01 R17, 02 R43, R60, R61) -/

/-- A placed job whose routine can run to its end: it is of an operation of `ops`, its input is there and its output list checked, no
debugger, abort, deadline, failed RNG or pending commit stands in its way. -/
structure JobReady (d : Dev) (j : Nat) (ops : Sqe → Bool) (b : Job) : Prop where
  job     : findJob d j = some b
  op      : ops b.e = true
  placed  : b.phase = .placed
  runs    : ∀ c ∈ ctxCells b, cellRuns d c = true ∧ stepTaken d c = d
  noAbort : b.abort = none
  inTime  : late d b.e = false
  random  : needsRandom d b.owner b.e = false ∨ d.rng.state ≠ .error
  ready   : jobReady b = true
  fresh   : b.committed = false ∧ b.keep = none

/-- A waiting job of an operation without an engine, with its input and its output list, if any, checked and good (02 R43). -/
structure JobWaiting (d : Dev) (j : Nat) (ops : Sqe → Bool) (b : Job) : Prop where
  job     : findJob d j = some b
  op      : ops b.e = true
  waiting : b.phase = .waiting
  input   : b.inData.length = b.e.inLen.toNat
  aux     : b.auxData.length = b.e.auxLen.toNat
  list    : outSgl b.e = false ∨ b.e.outCap = 0 ∨ b.outOk = true
  good    : b.outBad = none
  inTime  : late d b.e = false

/-- A command whose job succeeds: on the device `d0` the output is written and the job completes with STATUS OK; on a device of its own the
job is over and nothing beyond what the end of a job touches has changed since `d0` (01 R17, 02 R44-R46). -/
def JobDone (i : Instr) (s : State) (d0 : Dev) (b : Job) (out : Bytes) (res : U32) (eff : Byte) (att cyc : Nat) : Prop :=
  exec i s = .next { s with dev := finishOut d0 b out res eff att cyc }
  ∧ (OwnQueues d0 b → Completes i s fun d' =>
      JobEnds d0 d' b stOk (eff ||| if out.isEmpty then 0 else effOutput) ∧ Closes d0 d')

/-- A command whose job ends without output, with this status, detail, result, ATTEMPTS and CYCLES. -/
def JobOver (i : Instr) (s : State) (d0 : Dev) (b : Job) (st det : U16) (res : U32) (att cyc : Nat) : Prop :=
  exec i s = .next { s with dev := finish d0 { b with cycles := cyc, attempts := att, outLen := 0, result := res } st det }
  ∧ (OwnQueues d0 b → Completes i s fun d' => JobEnds d0 d' b st b.effect ∧ Closes d0 d')

/-- The value that each command of a modular program writes to its destination slot, from the operands IN holds and the slots it reads, by
code (06 R206). -/
def mpTable (d : Dev) (b : Job) (p : Prog) (w : MpWord) : List ((Nat → MpWord → Instr) × Nat × Nat) :=
  let n := mpN p b.inData
  let sa := slotGet d b p w.a
  let sb := slotGet d b p w.b
  let rad := 2 ^ (64 * mpL p)
  [(.mpLoad, 0x01, mpOperand b.inData w.imm.toNat (mpBytes p) w.le),
   (.mpLoadx, 0x02, mpOperand b.inData (w.imm.toNat % 2 ^ 20) (w.imm.toNat / 2 ^ 20) w.le),
   (.mpLoadk, 0x03, mpComponent d b p w.imm.toNat), (.mpSeti, 0x04, w.imm.toNat), (.mpCopy, 0x05, sa),
   (.mpAdd, 0x08, (sa + sb) % n), (.mpSub, 0x09, subMod sa sb n), (.mmul, 0x0A, sa * sb * inv0 rad n % n),
   (.tom, 0x0C, sa * rad % n), (.fromm, 0x0D, sa * inv0 rad n % n), (.inv, 0x0E, inv0 sa n),
   (.exp, 0x0F, powMod sa (sb % 2 ^ w.imm.toNat) n)]

/-- A command whose job creates a key object (12 R383, 03 R104): a transient one at once, and the job completes with its handle; a persistent one
waits in the job for its MRAM commit, its secret in two shares. A job with a bad output list creates nothing (02 R43). -/
def KeyMade (i : Instr) (s : State) (d0 : Dev) (b : Job) (k : NewKey) (out : Bytes) (att cyc : Nat) : Prop :=
  (b.outBad = none → b.pkeyRes = 0 →
    let r := createKey d0 b.owner k.type k.policy k.origin false k.sec k.pub k.param
    JobDone i s r.2 b out r.1 effKeyCreated att cyc)
  ∧ (b.outBad ≠ none → exec i s = .next { s with dev := finishOut d0 b [] 0 0 att cyc })
  ∧ (b.outBad = none → b.pkeyRes ≠ 0 → findJob d0 b.id = some b →
    Completes i s fun d' => ∃ obj g n,
      findJob d' b.id
          = some { b with keep := some obj, mramTb := d0.glob.tb, part2 := out, attempts := att, cycles := cyc, granRes := g, blkRes := n }
      ∧ obj.persist = true ∧ obj.type = k.type ∧ obj.policy = k.policy ∧ obj.origin = k.origin ∧ obj.pub = k.pub ∧ obj.param = k.param
      ∧ obj.shareB = xorBytes k.sec obj.shareA)

/-- A service: what its command does for every job that is ready for it. -/
def Serves (c : Nat → Instr) (ops : Sqe → Bool) (P : State → Job → Instr → Prop) : Prop :=
  ∀ s b, JobReady s.dev b.id ops b → P s b (c b.id)

/-- An operation without an engine. -/
def ServesNone (c : Nat → Instr) (ops : Sqe → Bool) (P : State → Job → Instr → Prop) : Prop :=
  ∀ s b, JobWaiting s.dev b.id ops b → P s b (c b.id)

/-- The job ends with plaintext when `plain` is some, and else with TAG_INVALID and nothing written, at the same CYCLES (12 R388). -/
def Opened (i : Instr) (s : State) (b : Job) (plain : Option Bytes) (cyc : Nat) : Prop :=
  match plain with
  | some p => JobDone i s s.dev b p 0 0 0 cyc
  | none => JobOver i s s.dev b stTagInvalid 0 0 b.attempts cyc

/-- A decryption reads its input twice: the first pass checks the tag, the second one writes the plaintext (12 R388). -/
def TwoPass (i : Instr) (s : State) (b : Job) (ok : Bool) (plain : Bytes) (cyc : Nat) : Prop :=
  (b.step ≠ 1 → ok = true → exec i s = .next { s with dev := readAgain s.dev b })
  ∧ (b.step ≠ 1 → ok = false → JobOver i s s.dev b stTagInvalid 0 0 b.attempts cyc)
  ∧ (b.step = 1 → JobDone i s s.dev b plain 0 0 0 cyc)

/-- A verification: RESULT 1 and OK, or RESULT 0 and the given status; no output. -/
def Verdict (i : Instr) (s : State) (b : Job) (ok : Bool) (st : U16) (cyc : Nat) : Prop :=
  JobOver i s s.dev b (if ok then stOk else st) 0 (if ok then 1 else 0) 0 cyc

/-- A hybrid job on its core and its modular engine, with its input (03 R117). -/
structure HybridReady (d : Dev) (b : Job) : Prop where
  job     : findJob d b.id = some b
  op      : opClass b.e.opcode = 1 ∧ isHybrid (opSet b.e.opcode) = true
  placed  : b.phase = .placed
  noAbort : b.abort = none
  ready   : jobReady { b with coreSaved := false } = true

/-- The commands of the forms of a class 0x2 signature with their OP: the form, the bytes signed and the length of the hash input
(03 R99, R106, R109). -/
def signForms (b : Job) : List ((Nat → Instr) × Nat × Nat × Bytes × Nat) :=
  let set := opSet b.e.opcode
  [(.dsaSign, 2, 0, mPure (ownAux b) b.inData, hashInput set (mPure (ownAux b) b.inData)),
   (.signPh, 3, 0, mHash (pbits b.e 8 8) (ownAux b) b.inData, hashInput set (mHash (pbits b.e 8 8) (ownAux b) b.inData)),
   (.signMu, 4, 1, b.inData, 0)]

/-- The same of a verification, whose context string stands at the end of AUX (03 R110). -/
def verifyForms (b : Job) : List ((Nat → Instr) × Nat × Nat × Bytes × Nat) :=
  let set := opSet b.e.opcode
  [(.dsaVerify, 5, 0, mPure (verifyCtx b) b.inData, hashInput set (mPure (verifyCtx b) b.inData)),
   (.verifyPh, 6, 0, mHash (pbits b.e 8 8) (verifyCtx b) b.inData, hashInput set (mHash (pbits b.e 8 8) (verifyCtx b) b.inData)),
   (.verifyMu, 7, 1, b.inData, 0)]

/-- A refusal of a validation phase: the engine's REFUSE counts it and the job ends without output (06 R188, R212). -/
def MeRefused (i : Instr) (s : State) (d0 : Dev) (b : Job) (st det : U16) (cyc : Nat) : Prop :=
  exec i s = .next { s with dev := meRefuse d0 b st det cyc }
  ∧ (OwnQueues d0 b → Completes i s fun d' => JobEnds d0 d' b st b.effect ∧ Closes d0 d')

/-- What a signature of RSA ends with: LENGTH where the modulus is too short for the encoding; else the signature of the encoded message, checked
with the public exponent (06 R199, R203). -/
def RsaSigned (i : Instr) (s : State) (d0 : Dev) (b : Job) (em : Option Bytes) : Prop :=
  let k := jobKey0 d0 b
  let n := rsaLenOf k
  let cyc := rsaPriv n + 400 + jobHashCost b
  (em = none → MeRefused i s d0 b stLength 1 (pkValidCycles {} 0x20 n))
  ∧ ∀ x, em = some x →
    let z := rsaBlind d0 k.pub
    let sig := rsaPrivOp (secretOf k) k.pub n (beNat x) z.1
    (powMod sig (rsaE k.pub) (rsaN k.pub) = beNat x → JobDone i s z.2 b (beBytes n sig) 0 0 0 cyc)
    ∧ (powMod sig (rsaE k.pub) (rsaN k.pub) ≠ beNat x → exec i s = .next { s with dev := resultCheck z.2 b cyc })

/-- What a verification of RSA ends with (06 R190, R199). -/
def RsaVerified (i : Instr) (s : State) (b : Job) (ok : Bytes → Nat → Bool) : Prop :=
  let n := if hasKey0 b then rsaLenOf (jobKey0 s.dev b) else modkLen (pbits b.e 24 3)
  let pk := (jobPk s.dev b (4 + n)).1
  let sig := beNat ((jobPk s.dev b (4 + n)).2.take n)
  (∀ f, rsaKeyFault pk = some f → MeRefused i s s.dev b f.1 f.2 (pkValidCycles {} 0x20 n))
  ∧ (rsaKeyFault pk = none →
    Verdict i s b (sig < rsaN pk && ok pk (powMod sig (rsaE pk) (rsaN pk))) stSigInvalid
      (rsaPub n (rsaE pk) + 400 + jobHashCost b))

/-- The end of an import: its object is created, in the room that its first step found (12 R380, R382). -/
def Imported (i : Instr) (s : State) (d0 : Dev) (b : Job) (plain : Bytes) (cyc : Nat) : Prop :=
  let p := importParts (impType b) plain
  KeyMade i s d0 b
    { type := impType b, policy := impPolicy b, origin := if opOp b.e.opcode = 6 then 3 else 4, sec := p.1, pub := p.2 } [] 0 cyc

/-- An import goes on to its next step on an engine of `kind` (12 R381). -/
def ImportGoesOn (i : Instr) (s : State) (d0 : Dev) (b : Job) (kind step cyc : Nat) (data : Bytes) : Prop :=
  exec i s = .next { s with dev := importNext d0 b kind step cyc data }
  ∧ (findJob d0 b.id = some b → Completes i s fun d' => findJob d' b.id = some
    { b with phase := .waiting, eng := none, part := 0, nextKind := kind, step := step, cycles2 := b.cycles2 + cyc, part2 := data })

/-- The unwrap of an import: TAG_INVALID, a wrong length, the object, or the check of its type (12 R380, R381). -/
def Unwrapped (i : Instr) (s : State) (d0 : Dev) (b : Job) (kek w : Bytes) : Prop :=
  let cyc := kwpCycles (cdiv w.length 8)
  (kwpUnwrap kek w = none → JobOver i s d0 b stTagInvalid 0 0 b.attempts cyc)
  ∧ ∀ x, kwpUnwrap kek w = some x →
    (x.length ∉ importLens (impType b) → JobOver i s d0 b stLength 1 0 b.attempts cyc)
    ∧ (x.length ∈ importLens (impType b) →
      (importCheckKind (impType b) = 0 → Imported i s d0 b x cyc)
      ∧ (importCheckKind (impType b) ≠ 0 → ImportGoesOn i s d0 b (importCheckKind (impType b)) 2 cyc x))

/-- A statement signed with an identity key: ML-DSA-87 or, by PARAM, ECDSA P-384 (12 R390, R391). -/
def Attested (i : Instr) (s : State) (b : Job) (context : String) (body : Bytes) : Prop :=
  (pbit b.e 0 = true →
    let r := ecdsaLoop p384 (idScalar s.dev) (ecHashInt p384 (sha384 (ascii context ++ body))) 3 255 1 none s.dev
    let cyc := ecSignCycles p384 2 + hashCost 3 (context.length + body.length)
    (r.1 = none → JobOver i s r.2 b stIterationBound 0 b.result 255 cyc)
    ∧ ∀ ok x y n, r.1 = some (ok, x, y, n) →
      (ok = true → JobDone i s r.2 b (body ++ beBytes 48 x ++ beBytes 48 y) 0 0 n cyc)
      ∧ (ok = false → exec i s = .next { s with dev := resultCheck r.2 b cyc }))
  ∧ (pbit b.e 0 = false →
    let m := mPure (ascii context) body
    let cyc := fun n : Nat => dsaSetup 3 2 + n * dsaAttempt 3 2 + absorbExtra (hashInput 3 m) + expandExtra 2 3 ((idPk s.dev).take 32)
    let sig := dsaSignMsg 3 (idSk s.dev) m (jobRnd s.dev b 32)
    (sig = none → JobOver i s s.dev b stIterationBound 0 b.result 255 (cyc 255))
    ∧ ∀ n x, sig = some (n, x) → JobDone i s s.dev b (body ++ x) 0 0 n (cyc n))

/-- The command's next state: this device, the queue as it was. -/
def Gives (i : Instr) (s : State) (d : Dev) : Prop := exec i s = .next { s with dev := d }

/-- A function's doorbells and windows take a write that names its SQ, device queue `q` (02 R51, 19 R535). -/
def SqOpen (d : Dev) (f j q : Nat) : Prop := barOk d f = true ∧ sqDev d f j = some q
/-- The same of a CQ. -/
def CqOpen (d : Dev) (f j c : Nat) : Prop := barOk d f = true ∧ cqDev d f j = some c

/-- The VF manager takes a command: in READY, through the PF's BAR, none in progress (13 R404). -/
def VfmReady (d : Dev) : Prop := isReady d = true ∧ barOk d 0 = true ∧ d.vfm.busy = false

/-- What BEDROCK leaves: no job, no queue, no context, no grant and no challenge; TB stands and nothing is issued (01 R24, R30). -/
def InBedrock (d : Dev) : Prop :=
  d.glob.st = .bedrock ∧ d.glob.tbRun = false ∧ d.glob.issuing = false ∧ d.glob.safeCause = 0 ∧ d.jobs.live = [] ∧ d.jobs.done = []
    ∧ d.sqs = [] ∧ d.cqs = [] ∧ d.io = [] ∧ d.parked = [] ∧ d.lc.grant = none ∧ d.lc.chal = none

/-- A pin, the clock, the Bedrock supply or the test access holds the device from its start (01 R29, 20 R568). -/
def Held (d : Dev) : Prop :=
  d.glob.porAsserted = true ∨ d.glob.vddBr = false ∨ d.glob.perstAsserted = true ∨ d.glob.refclk = false ∨ d.glob.jtagHold = true

/-- The start sequence, with the link up. -/
def started (env : StartEnv) (d : Dev) : Dev := startSeq env { d with hif.linkUp := true, hif.speed := 5, hif.width := 8 }

/-- A detector of 10 R335 that is armed. -/
def DetectorArmed (d : Dev) (id : Nat) : Prop := d.glob.armed = true ∧ 1 ≤ id ∧ id ≤ 6

/-- A record of the recorder is a histogram (17 R479). -/
def isHist (r : Record) : Bool := match r.data with | .hist _ _ _ _ _ => true | _ => false

/-- A command brings a frame of a type (18 R507). -/
def Brings (i : Instr) (t : FType) (f : Frame) : Prop :=
  match t with
  | .submit => i = .frameSubmit f
  | .complete => i = .frameComplete f
  | .rdReq => i = .frameRdReq f
  | .rdData => i = .frameRdData f
  | .wrData => i = .frameWrData f
  | .abandon => i = .frameAbandon f
  | .abandonDone => i = .frameAbandonDone f
  | .creditGrant => i = .frameCreditGrant f
  | .ackNak => i = .frameAckNak f
  | .heartbeat => i = .frameHeartbeat f
  | .time => i = .frameTime f
  | .handshake => i = .frameHandshake f
  | .config => i = .frameConfig f
  | .record => i = .frameRecord f
  | .amber => i = .frameAmber f
  | .fate => i = .frameFate f
  | .rekey => i = .frameRekey f

/-- A port that takes frames (18 R505). -/
def PortUp (d : Dev) (p : Nat) : Prop := p < 4 ∧ (getPort d p).state = 2

/-- A node that this node has a session with by its configuration: the lead for a member, a node of its fabric for the lead (18 R503). -/
def FramePartner (d : Dev) (n : Nat) : Prop := (isMember d = true ∧ n = 0) ∨ (isMember d = false ∧ fabNode d n = true)

/-- The bits of a transition slot are only programmed (14 R419). -/
def SlotGrows (a b : LcSlot) : Prop := a.intent &&& b.intent = a.intent ∧ a.target &&& b.target = a.target ∧ a.mark &&& b.mark = a.mark

/-- A key-hash row, once programmed, keeps its hash, and its marks stay (14 R419). -/
def RowGrows (a b : KeyRow) : Prop := (a.hash ≠ [] → b.hash = a.hash) ∧ (a.valid = true → b.valid = true) ∧ (a.kill = true → b.kill = true)

/-- An epoch, once programmed, keeps its secret, and its marks stay (12 R374). -/
def EpochGrows (a b : Epoch) : Prop :=
  (a.secret ≠ [] → b.secret = a.secret) ∧ (a.valid = true → b.valid = true) ∧ (a.kill = true → b.kill = true)

/-- OTP has only gained since `a` (12 R374, 14 R419, 15 R446). -/
def OtpGrows (a b : Otp) : Prop :=
  b.devId = a.devId ∧ b.base = a.base ∧ b.vkh = a.vkh ∧ a.svn ≤ b.svn ∧ (∀ s, SlotGrows (lcSlot a s) (lcSlot b s))
    ∧ (∀ (i : Nat) (h : i < 2), RowGrows a.ikh[i] b.ikh[i]) ∧ ∀ e, EpochGrows (epochAt a e) (epochAt b e)

/-- The fuses hold what they held at `o`, and the smallest release that may run is not below `m`: nothing is taken back. -/
def NothingTakenBack (o : Otp) (m : U32) (d : Dev) : Prop := OtpGrows o d.otp ∧ m ≤ d.boot.cfgMin

/-- What a register of PF BAR0 reads. -/
def pfReads (d : Dev) (off : Nat) : Option Nat := (pfReg d off).map fun r => r.get d

end Sys2Proof.Safety
end

