-- ==== Sys2Proof/Certificates/Slice0/Obligations.lean ====
section
/-!
DEFINITION. The statements: what the commands do, family by family, and what no step undoes. A clause with a conclusion `Gives`, `Completes`,
`PyExec`, `JobDone` and the like says that the command answers a next state, and which. Where a clause rests on a reading or a choice of the model,
it names the log entry.
-/
open Sys2Proof Sys2Proof.Machine Sys2Proof.Safety

/-- xd ← xa op xb, for every instruction of the group in format A that works on two x registers, and CSEL; a write to x0 is discarded, and
nothing but xd and the PC changes. Multiply and divide: the halves of the products, the quotients and remainders with division by zero.
How a negative quotient rounds is the model's reading (log 48). xd ← xa op the sign-extended IMM12, and LUI. Completes (exec answers a
next state for every state and operands that meet the clause's conditions): add, sub, and, or, xor, sll, srl, sra, addi, andi, ori, xori,
slli, srli, srai, slti, lui, mul, mulh, mulhu, div, divu, rem, remu, slt, sltu, seq, csel, min, max, minu, maxu. -/
def Obligations.ScalarResults : Prop :=
  (ScalarA .add (fun a b => a + b) ∧ ScalarA .sub (fun a b => a - b) ∧ ScalarA .and (fun a b => a &&& b)
  ∧ ScalarA .or (fun a b => a ||| b) ∧ ScalarA .xor (fun a b => a ^^^ b)
  ∧ ScalarA .sll (fun a b => a <<< (b.toNat % 64)) ∧ ScalarA .srl (fun a b => a >>> (b.toNat % 64))
  ∧ ScalarA .sra (fun a b => a.sshiftRight (b.toNat % 64))
  ∧ ScalarA .slt (fun a b => if a.toInt < b.toInt then 1 else 0) ∧ ScalarA .sltu (fun a b => if a.toNat < b.toNat then 1 else 0)
  ∧ ScalarA .seq (fun a b => if a = b then 1 else 0)
  ∧ ScalarA .min (fun a b => if b.toInt < a.toInt then b else a) ∧ ScalarA .max (fun a b => if a.toInt < b.toInt then b else a)
  ∧ ScalarA .minu (fun a b => if b.toNat < a.toNat then b else a) ∧ ScalarA .maxu (fun a b => if a.toNat < b.toNat then b else a)
  ∧ (∀ s p f b io, PyGo s p b io → f.m = false → f.k = 0 → f.x = 0 →
      PyExec (.csel p f) s p b fun r => nextS (xSet r f.d (if xGet r f.d ≠ 0 then xGet r f.a else xGet r f.b))))
  ∧ (ScalarA .mul (fun a b => a * b)
  ∧ ScalarA .mulh (fun a b => BitVec.ofInt 64 (a.toInt * b.toInt / 2 ^ 64))
  ∧ ScalarA .mulhu (fun a b => BitVec.ofNat 64 (a.toNat * b.toNat / 2 ^ 64))
  ∧ ScalarA .div (fun a b => if b = 0 then BitVec.allOnes 64 else BitVec.ofInt 64 (a.toInt.tdiv b.toInt))
  ∧ ScalarA .divu (fun a b => if b = 0 then BitVec.allOnes 64 else BitVec.ofNat 64 (a.toNat / b.toNat))
  ∧ ScalarA .rem (fun a b => if b = 0 then a else BitVec.ofInt 64 (a.toInt.tmod b.toInt))
  ∧ ScalarA .remu (fun a b => if b = 0 then a else BitVec.ofNat 64 (a.toNat % b.toNat)))
  ∧ (ScalarI .addi (fun a b => a + b) ∧ ScalarI .andi (fun a b => a &&& b) ∧ ScalarI .ori (fun a b => a ||| b)
  ∧ ScalarI .xori (fun a b => a ^^^ b)
  ∧ ScalarI .slli (fun a b => a <<< (b.toNat % 64)) ∧ ScalarI .srli (fun a b => a >>> (b.toNat % 64))
  ∧ ScalarI .srai (fun a b => a.sshiftRight (b.toNat % 64))
  ∧ ScalarI .slti (fun a b => if a.toInt < b.toInt then 1 else 0)
  ∧ (∀ s p f b io, PyGo s p b io →
      PyExec (.lui p f) s p b fun r => nextS (xSet r f.d (f.imm.signExtend 64 <<< 15))))

/-- Scalar loads of 1, 2, 4 and 8 bytes give the zero-extended little-endian value of the bytes in the tile. Scalar stores of 1, 2, 4 and 8
bytes put the low bytes of xb into the tile and change no other byte and no register but the PC. Completes (exec answers a next state for
every state and operands that meet the clause's conditions): ld8, ld16, ld32, ld64, st8, st16, st32, st64. -/
def Obligations.ScalarMemoryResults : Prop :=
  (ScalarLoad .ld8 1 ∧ ScalarLoad .ld16 2 ∧ ScalarLoad .ld32 4 ∧ ScalarLoad .ld64 8)
  ∧ (ScalarStore .st8 1 ∧ ScalarStore .st16 2 ∧ ScalarStore .st32 4 ∧ ScalarStore .st64 8)

/-- Conditional branches, JAL and JALR, where the target lies in the program. Completes (exec answers a next state for every state and
operands that meet the clause's conditions): beq, bne, blt, bge, bltu, bgeu, jal, jalr. -/
def Obligations.BranchAndJumpResults : Prop :=
  Branch .beq (fun a b => a = b) ∧ Branch .bne (fun a b => a ≠ b)
  ∧ Branch .blt (fun a b => a.toInt < b.toInt) ∧ Branch .bge (fun a b => b.toInt ≤ a.toInt)
  ∧ Branch .bltu (fun a b => a.toNat < b.toNat) ∧ Branch .bgeu (fun a b => b.toNat ≤ a.toNat)
  ∧ (∀ s p f b io, PyGo s p b io →
      let target : Int := (live s p).pc.toNat + 4 * f.off.toInt
      inProgram io target →
      PyExec (.jal p f) s p b fun r =>
        { xSet r f.d (BitVec.ofNat 64 (r.pc.toNat + 4)) with pc := BitVec.ofInt 16 target })
  ∧ (∀ s p f b io, PyGo s p b io →
      let target : Nat := (xGet (live s p) f.a + f.imm.signExtend 64).toNat / 4 * 4
      inProgram io target →
      PyExec (.jalr p f) s p b fun r =>
        { xSet r f.d (BitVec.ofNat 64 (r.pc.toNat + 4)) with pc := BitVec.ofNat 16 target })

/-- CCRR and CCRW read and write the core control registers by number; IDLE goes on; a YIELD of a job that is not late goes on too, and
outside cluster mode the Dealer then acts at its yield point; BAR goes on for the first three cores, and for the fourth one when all tags
agree; HALT ends the job with what JSET set once its output has been drained. Completes (exec answers a next state for every state and
operands that meet the clause's conditions): ccrr, ccrw, yield, halt, bar, idle. -/
def Obligations.ControlInstructionResults : Prop :=
  (∀ s p f b io, PyGo s p b io → f.imm.toNat ≤ 6 → PyExec (.ccrr p f) s p b fun r => nextS (xSet r f.d (ccrRead r f.imm.toNat)))
  ∧ (∀ s p f b io, PyGo s p b io → 1 ≤ f.imm.toNat → f.imm.toNat ≤ 6 →
      PyExec (.ccrw p f) s p b fun r => nextS (ccrWrite r f.imm.toNat (xGet r f.a)))
  ∧ (∀ s p f b io, PyGo s p b io → 0 < f.imm.toInt → PyExec (.idle p f) s p b nextS)
  ∧ (∀ s p f b io, PyGo s p b io → late s.dev b.e = false →
      ∃ w d1 b1, PyDone s.dev d1 p.core b (nextS (regsAt s.dev p.core w)) ∧ (findJob s.dev b.id = some b → findJob d1 b.id = some b1)
        ∧ Gives (.yield p f) s (if b.cluster then d1 else dealYield d1 b1))
  ∧ (∀ s p f b io, PyGo s p b io → b.cluster = true → (io.bars.length < 3 ∨ ∀ x ∈ io.bars, x.2.1 = f.imm.toNat) →
      PyExec (.bar p f) s p b nextS)
  ∧ (∀ s p f b io, PyGo s p b io → OwnQueues s.dev b → io.buf = [] → (outSgl b.e = false ∨ b.e.outCap = 0 ∨ b.outOk = true) →
      Completes (.halt p f) s fun d' =>
        JobEnds s.dev d' b (io.jset.getD (stOk, 0)).1
          (io.eff ||| (if io.outDone = 0 then 0 else effOutput)
            ||| (if io.hdr.fixed && io.outDone < io.hdr.outMax then effPartial else 0)))

/-- VCFG sets VTYPE from imm[5:0], VL to the smaller of xa and VLMAX, and xd to the new VL. VLMAX is 2,048 × G / SEW: the values of the table.
Completes (exec answers a next state for every state and operands that meet the clause's conditions): vcfg. -/
def Obligations.VcfgResult : Prop :=
  (∀ s p f b io, PyGo s p b io →
    PyExec (.vcfg p f) s p b fun r =>
      let r1 := { r with vtype := f.imm.setWidth 6 }
      let n := min (xGet r f.a).toNat (vlmaxOf r1)
      nextS (xSet { r1 with vl := BitVec.ofNat 12 n } f.d (BitVec.ofNat 64 n)))
  ∧ ∀ r sew g n, (sew, g, n) ∈
      [(8, 1, 256), (8, 2, 512), (8, 4, 1024), (8, 8, 2048), (16, 1, 128), (16, 2, 256), (16, 4, 512), (16, 8, 1024),
       (32, 1, 64), (32, 2, 128), (32, 4, 256), (32, 8, 512), (64, 1, 32), (64, 2, 64), (64, 4, 128), (64, 8, 256)] →
    sewOf r = sew → grpOf r = g → vlmaxOf r = n

/-- Where scalar memory instructions, branches and reserved words end the job instead: a misaligned access with ALIGN, one outside the job's
memory or a store into the input area with VFAULT, a taken branch or a jump out of the program, a format A word with M, K or X set, a CCRR
or CCRW of no register and an IDLE of no cycles with ILLEGAL_INSTR. An instruction that reads a result before it lands, or takes a unit
that is still busy, breaks the schedule contract: the job ends with CONTRACT_FAULT. -/
def Obligations.ScalarFaults : Prop :=
  ((∀ s p f b io, PyGo s p b io → OwnQueues s.dev b →
    let px := pxAt s.dev p 0 b io
    let a := (xGet (live s p) f.a + f.imm.signExtend 64).toNat
    (a % 8 ≠ 0 → PyFaults (.ld64 p f) s b stAlign)
    ∧ (a % 4 ≠ 0 → PyFaults (.ld32 p f) s b stAlign)
    ∧ (a % 2 ≠ 0 → PyFaults (.ld16 p f) s b stAlign)
    ∧ (a % 8 = 0 → tilePlace px a 8 = none → PyFaults (.ld64 p f) s b stVfault))
  ∧ (∀ s p f b io, PyGo s p b io → OwnQueues s.dev b →
    let px := pxAt s.dev p 0 b io
    let a := (xGet (live s p) f.a + f.imm.signExtend 64).toNat
    (a % 8 ≠ 0 → PyFaults (.st64 p f) s b stAlign)
    ∧ (a % 8 = 0 → (tilePlace px a 8 = none ∨ (pageAt px a).isSome) → PyFaults (.st64 p f) s b stVfault)
    ∧ (xGet (live s p) f.a = xGet (live s p) f.b → ¬ inProgram io ((live s p).pc.toNat + 4 * f.imm.toInt) →
        PyFaults (.beq p f) s b stIllegalInstr))
  ∧ (∀ s p f b io, PyReady s.dev p.core p.t b io → OwnQueues s.dev b → (f.m = true ∨ f.k ≠ 0 ∨ f.x ≠ 0) →
      PyFaults (.add p f) s b stIllegalInstr ∧ PyFaults (.csel p f) s b stIllegalInstr ∧ PyFaults (.divu p f) s b stIllegalInstr)
  ∧ (∀ s p f b io, PyReady s.dev p.core p.t b io → OwnQueues s.dev b →
      (6 < f.imm.toNat → PyFaults (.ccrr p f) s b stIllegalInstr)
      ∧ (f.imm = 0 ∨ 6 < f.imm.toNat → PyFaults (.ccrw p f) s b stIllegalInstr)
      ∧ (f.imm.toInt ≤ 0 → PyFaults (.idle p f) s b stIllegalInstr)))
  ∧ (∀ s p f b io, PyReady s.dev p.core p.t b io → OwnQueues s.dev b → f.m = false → f.k = 0 → f.x = 0 →
    ((f.a ≠ 0 ∧ p.t < mapGet 0 (getCore s.dev p.core).land f.a.toNat) ∨ p.t < mapGet 0 (getCore s.dev p.core).free uSM) →
    PyFaults (.mul p f) s b stContractFault)

/-- x0 reads 0 and discards writes; a write to another x register is what it reads as afterwards, and leaves the others alone. -/
def Obligations.ZeroRegister : Prop :=
  ∀ r n v, xGet r 0 = 0 ∧ xSet r 0 v = r ∧ (n ≠ 0 → xGet (xSet r n v) n = v) ∧ (∀ k, k ≠ n → xGet (xSet r n v) k = xGet r k)

/-- d[i] ← a[i] op b[i] for the active elements, modulo 2^SEW: add, subtract, bitwise, shifts by b mod SEW, the halves of the products, minima
and maxima; population count; broadcast; insertion; and selection by a mask register, which of a lane beyond its 256 bits is free (log 4).
Compares into a mask register, mask logic on all 256 bits, extraction of an element, and the reductions to an x register. Completes (exec
answers a next state for every state and operands that meet the clause's conditions): vadd, vsub, vand, vor, vxor, vsll, vsrl, vsra,
vimul, vimulh, vimulhu, vimin, vimax, viminu, vimaxu, vsel, vseq, vsne, vslt, vsltu, vkand, vkor, vkxor, vknot, vbcast, vpopc, vext, vins,
vredsum, vredxor, vredor. -/
def Obligations.VectorResults : Prop :=
  (VectorA .vadd (fun _ => true) (fun _ a b _ => a + b) ∧ VectorA .vsub (fun _ => true) (fun r a b _ => elSub (sewOf r) a b)
  ∧ VectorA .vand (fun _ => true) (fun _ a b _ => a &&& b) ∧ VectorA .vor (fun _ => true) (fun _ a b _ => a ||| b)
  ∧ VectorA .vxor (fun _ => true) (fun _ a b _ => a ^^^ b)
  ∧ VectorA .vsll (fun _ => true) (fun r a b _ => a * 2 ^ (b % sewOf r)) ∧ VectorA .vsrl (fun _ => true) (fun r a b _ => a / 2 ^ (b % sewOf r))
  ∧ VectorA .vsra (fun _ => true) (fun r a b _ => unsgn (sewOf r) (sgn (sewOf r) a / 2 ^ (b % sewOf r)))
  ∧ VectorA .vimul (fun _ => true) (fun _ a b _ => a * b)
  ∧ VectorA .vimulh (fun _ => true) (fun r a b _ => unsgn (sewOf r) (sgn (sewOf r) a * sgn (sewOf r) b / 2 ^ sewOf r))
  ∧ VectorA .vimulhu (fun _ => true) (fun r a b _ => a * b / 2 ^ sewOf r)
  ∧ VectorA .vimin (fun _ => true) (fun r a b _ => if sgn (sewOf r) b < sgn (sewOf r) a then b else a)
  ∧ VectorA .vimax (fun _ => true) (fun r a b _ => if sgn (sewOf r) a < sgn (sewOf r) b then b else a)
  ∧ VectorA .viminu (fun _ => true) (fun _ a b _ => min a b) ∧ VectorA .vimaxu (fun _ => true) (fun _ a b _ => max a b)
  ∧ VectorU .vpopc (fun _ => true) (fun r a => popc (sewOf r) a)
  ∧ (∀ s p f b io, PyGo s p b io → aligned f.d (grpOf (live s p)) → f.x.toNat ≤ 2 → maskOk (live s p) f.m →
      PyExec (.vbcast p f) s p b fun r => nextV (vWrite r (maskOf f.m f.k) f.d fun _ => (xGet r f.a).toNat))
  ∧ (∀ s p f b io, PyGo s p b io → f.x.toNat ≤ 2 → aligned f.d (grpOf (live s p)) → (xGet (live s p) f.b).toNat < vlmaxOf (live s p) →
      PyExec (.vins p f) s p b fun r => nextV (vPut r f.d.toNat (grpOf r) (elPack (sewOf r) ((List.range (vlmaxOf r)).map fun i =>
        if i = (xGet r f.b).toNat then (xGet r f.a).toNat else vEl r f.d i))))
  ∧ (∀ s p f b io, PyGo s p b io → aligned f.d (grpOf (live s p)) → aligned f.a (grpOf (live s p)) → bOk (live s p) f → f.m = false →
      ∃ sel : Nat → Bool, (∀ i < 256, sel i = (mReg (live s p) f.k.toNat).getLsbD i)
        ∧ PyExec (.vsel p f) s p b fun r =>
            nextV (vWrite r none f.d fun i => if sel i then vEl r f.a i else bElem r f i)))
  ∧ (VectorCmp .vseq (fun _ a b => a == b) ∧ VectorCmp .vsne (fun _ a b => a != b)
  ∧ VectorCmp .vslt (fun sew a b => decide (sgn sew a < sgn sew b)) ∧ VectorCmp .vsltu (fun _ a b => decide (a < b))
  ∧ MaskBits .vkand (fun a b => a &&& b) ∧ MaskBits .vkor (fun a b => a ||| b) ∧ MaskBits .vkxor (fun a b => a ^^^ b)
  ∧ MaskBits .vknot (fun a _ => ~~~ a)
  ∧ Reduction .vredsum (fun a b => a + b) ∧ Reduction .vredxor (fun a b => a ^^^ b) ∧ Reduction .vredor (fun a b => a ||| b)
  ∧ (∀ s p f b io, PyGo s p b io → f.x.toNat ≤ 2 → aligned f.a (grpOf (live s p)) → (xGet (live s p) f.b).toNat < vlmaxOf (live s p) →
      PyExec (.vext p f) s p b fun r => nextV (xSet r f.d (BitVec.ofNat 64 (vEl r f.a (xGet r f.b).toNat)))))

/-- Vector loads and stores: the aligned and the unaligned form for a group, and the two for a mask register. Completes (exec answers a next
state for every state and operands that meet the clause's conditions): vld, vldu, vst, vstu, vkld, vkst. -/
def Obligations.VectorMemoryResults : Prop :=
  VectorLoad .vld (fun _ => 256) ∧ VectorLoad .vldu (fun r => sewOf r / 8)
  ∧ VectorStore .vst (fun _ => 256) ∧ VectorStore .vstu (fun r => sewOf r / 8)
  ∧ (∀ s p f b io tc off, PyGo s p b io →
      let px := pxAt s.dev p 0 b io
      let a := vecAddr px f
      f.m = false → f.v.toNat < 8 → a % 32 = 0 → tilePlace px a 32 = some (tc, off) → elStop px a 32 false = none →
      lineStale px tc (off / 256) = false →
      PyExec (.vkld p f) s p b fun r =>
        nextV (mPut r f.v.toNat (BitVec.ofNat 256 (leNat (memRead (getCore s.dev tc).tile off 32)))))
  ∧ (∀ s p f b io tc off, PyGo s p b io →
      let px := pxAt s.dev p 0 b io
      let a := vecAddr px f
      f.m = false → f.v.toNat < 8 → a % 32 = 0 → tilePlace px a 32 = some (tc, off) → pageAt px a = none →
      memWf (getCore s.dev tc).tile →
      Completes (.vkst p f) s fun d' => ∃ w,
        PyStored s.dev d' p.core b (nextV (regsAt s.dev p.core w)) tc off (leBytes 32 (mReg (live s p) f.v.toNat).toNat))

/-- What a write of a destination group is for each element: the result for an active element, 0 or the old value for the others as `VTYPE`
says; every other register is as before. The bits of a destination mask register go the same way. -/
def Obligations.VectorWriteElements : Prop :=
  (∀ r msk n f, aligned n (grpOf r) →
    (∀ i < vlmaxOf r, vEl (vWrite r msk n f) n i
      = match laneOf r msk i with | .go => f i % 2 ^ sewOf r | .zero => 0 | .keep => vEl r n i)
    ∧ (∀ k < 32, (k < n.toNat ∨ n.toNat + grpOf r ≤ k) → vReg (vWrite r msk n f) k = vReg r k)
    ∧ vWrite r msk n f = { r with v := (vWrite r msk n f).v })
  ∧ (∀ r msk n f, n < 8 →
    (∀ i < 256, (mReg (mWrite r msk n f) n).getLsbD i
      = match laneOf r msk i with | .go => f i | .zero => false | .keep => (mReg r n).getLsbD i)
    ∧ (∀ k < 8, k ≠ n → mReg (mWrite r msk n f) k = mReg r k)
    ∧ mWrite r msk n f = { r with m := (mWrite r msk n f).m })

/-- Where vector words end the job instead: groups that are not aligned, a destination mask register beyond m7, a masked form with more than
256 elements, an index beyond the group and an operand select of 3 or more with ILLEGAL_INSTR; a misaligned address with ALIGN; an element
out of the job's memory with VFAULT. -/
def Obligations.VectorFaults : Prop :=
  (∀ s p f b io, PyReady s.dev p.core p.t b io → OwnQueues s.dev b →
    ((¬ aligned f.d (grpOf (live s p)) ∨ ¬ aligned f.a (grpOf (live s p)) ∨ 2 < f.x.toNat ∨ (f.m = true ∧ 256 < vlmaxOf (live s p))) →
      PyFaults (.vadd p f) s b stIllegalInstr ∧ PyFaults (.vimul p f) s b stIllegalInstr ∧ PyFaults (.vpopc p f) s b stIllegalInstr)
    ∧ (8 ≤ f.d.toNat → PyFaults (.vseq p f) s b stIllegalInstr ∧ PyFaults (.vkand p f) s b stIllegalInstr)
    ∧ (vlmaxOf (live s p) ≤ (xGet (live s p) f.b).toNat →
        PyFaults (.vext p f) s b stIllegalInstr ∧ PyFaults (.vins p f) s b stIllegalInstr)
    ∧ (2 < f.x.toNat → PyFaults (.vext p f) s b stIllegalInstr ∧ PyFaults (.vins p f) s b stIllegalInstr
        ∧ PyFaults (.vkand p f) s b stIllegalInstr ∧ PyFaults (.vcompr p f) s b stIllegalInstr)
    ∧ (f.m = true → PyFaults (.vsel p f) s b stIllegalInstr))
  ∧ (∀ s p f b io, PyGo s p b io → OwnQueues s.dev b → aligned f.v (grpOf (live s p)) → maskOk (live s p) f.m →
    let px := pxAt s.dev p 0 b io
    (vecAddr px f % 256 ≠ 0 → PyFaults (.vld p f) s b stAlign ∧ PyFaults (.vst p f) s b stAlign)
    ∧ (vecAddr px f % (sewOf (live s p) / 8) ≠ 0 → PyFaults (.vldu p f) s b stAlign ∧ PyFaults (.vstu p f) s b stAlign)
    ∧ (∀ k, vecAddr px f % 256 = 0 → firstStop px (maskOf f.m f.k) (vecAddr px f) false = some (k, .fault) →
        PyFaults (.vld p f) s b stVfault))

/-- Modular lanes: sums, differences, Montgomery products and conversions modulo QMOD, for SEW 16 or 32 and a legal modulus; and the
Cooley–Tukey and Gentleman–Sande butterflies, with twiddles from a register or from a tile line. Completes (exec answers a next state for
every state and operands that meet the clause's conditions): vmadd, vmsub, vmneg, vmmul, vmred, vmtom, vmfromm, vmmac, vmbf, vmbfi, vmbft,
vmbfti. -/
def Obligations.ModularLaneResults : Prop :=
  VectorA .vmadd vmOk (fun r a b _ => (a + b) % qOf r) ∧ VectorA .vmsub vmOk (fun r a b _ => qSub (qOf r) a b)
  ∧ VectorU .vmneg vmOk (fun r a => qSub (qOf r) 0 a)
  ∧ VectorA .vmmul vmOk (fun r a b _ => montMul r a b) ∧ VectorU .vmred vmOk (fun r a => a % qOf r)
  ∧ VectorU .vmtom vmOk (fun r a => a * 2 ^ sewOf r % qOf r) ∧ VectorU .vmfromm vmOk (fun r a => montMul r a 1)
  ∧ VectorA .vmmac vmOk (fun r a b d => (d + montMul r a b) % qOf r)
  ∧ Butterfly .vmbf (fun r a b c => ((a + montMul r c b) % qOf r, qSub (qOf r) a (montMul r c b)))
  ∧ Butterfly .vmbfi (fun r a b c => ((a + b) % qOf r, montMul r (qSub (qOf r) a b) c))
  ∧ TileButterfly .vmbft (fun r a b c => ((a + montMul r c b) % qOf r, qSub (qOf r) a (montMul r c b)))
  ∧ TileButterfly .vmbfti (fun r a b c => ((a + b) % qOf r, montMul r (qSub (qOf r) a b) c))

/-- What the modular operations compute: a difference modulo q is below q and gives the minuend back; a product with 2^−n modulo an odd q is
below q and times 2^n is the dividend again. -/
def Obligations.MontgomeryArithmetic : Prop :=
  (∀ q a b, 0 < q → qSub q a b < q ∧ (qSub q a b + b) % q = a % q)
  ∧ (∀ q n a, 0 < q → q % 2 = 1 → montDiv q n a < q ∧ montDiv q n a * 2 ^ n % q = a % q)

/-- Permutes: interleaving and its inverse by blocks of 2^IMM7 elements, slides, gathers, reversals, and the active elements packed to the
front. A slide takes its amount from IMM7 when B names x0, and what VCOMPR leaves behind the packed elements follows the policies of
inactive ones (log 49). Carry-less products of 64-bit elements; products, squares, inverses and multiply-accumulate in the binary field of
GFPOLY; and the 64 × 64 bit transpose. Of an element that has no inverse the result is free (log 4). Completes (exec answers a next state
for every state and operands that meet the clause's conditions): vzip, vunzip, vslup, vsldn, vperm, vrev, vcompr, vbrev, vclmul, vclmulh,
vgmul, vgsqr, vginv, vgmac, vgxp. -/
def Obligations.PermuteAndFieldResults : Prop :=
  (PermutePair .vzip (fun n blk a b i =>
    (if i / blk % 2 = 0 then a (i / blk / 2 * blk + i % blk) else b (i / blk / 2 * blk + i % blk),
      if (n + i) / blk % 2 = 0 then a ((n + i) / blk / 2 * blk + (n + i) % blk) else b ((n + i) / blk / 2 * blk + (n + i) % blk)))
  ∧ PermutePair .vunzip (fun n blk a b i =>
    let ab := fun k => if k < n then a k else b (k - n)
    (ab (2 * (i / blk) * blk + i % blk), ab ((2 * (i / blk) + 1) * blk + i % blk)))
  ∧ Slide .vslup (fun _ d a k i => if i < k then d i else a (i - k))
  ∧ Slide .vsldn (fun r _ a k i => if i + k < vlmaxOf r then a (i + k) else 0)
  ∧ Permute .vperm true (fun r a b i => a (b i % vlmaxOf r))
  ∧ Permute .vrev false (fun r a _ i => a (r.vl.toNat - 1 - i))
  ∧ Permute .vbrev false (fun r a _ i => a (bitRev (Nat.log2 (vlmaxOf r)) i))
  ∧ (∀ s p f b io, PyGo s p b io → f.m = true → f.x.toNat ≤ 2 → aligned f.d (grpOf (live s p)) →
      aligned f.a (grpOf (live s p)) → maskOk (live s p) f.m →
      PyExec (.vcompr p f) s p b fun r => nextV (packFront r f.d ((activeEls r (some f.k.toNat)).map (vEl r f.a)))))
  ∧ (VectorA .vclmul (fun r => sewOf r == 64) (fun _ a b _ => clmul 64 a b)
  ∧ VectorA .vclmulh (fun r => sewOf r == 64) (fun _ a b _ => clmul 64 a b / 2 ^ 64)
  ∧ VectorA .vgmul vgOk (fun r a b _ => polyMod r.gfpoly.toNat 32 (clmul 16 a b))
  ∧ VectorU .vgsqr vgOk (fun r a => polyMod r.gfpoly.toNat 32 (clmul 16 a a))
  ∧ VectorA .vgmac vgOk (fun r a b d => polyMod r.gfpoly.toNat 32 (d ^^^ clmul 16 a b))
  ∧ (∀ s p f b io, PyGo s p b io → aligned f.d (grpOf (live s p)) → aligned f.a (grpOf (live s p)) → f.x.toNat ≤ 2 →
      maskOk (live s p) f.m → vgOk (live s p) →
      ∃ v, PyExec (.vginv p f) s p b fun r =>
        nextV (vWrite r (maskOf f.m f.k) f.d fun i => gfInv r.gfpoly.toNat v (vEl r f.a i)))
  ∧ (∀ s p f b io, PyGo s p b io → aligned f.d 2 → aligned f.a 2 → f.x.toNat ≤ 2 → maskOk (live s p) f.m →
      sewOf (live s p) = 64 → grpOf (live s p) = 2 →
      PyExec (.vgxp p f) s p b fun r =>
        nextV (vWrite r (maskOf f.m f.k) f.d fun i =>
          (List.range 64).foldl (fun acc j => acc + (vEl r f.a j >>> i % 2) <<< j) 0)))

/-- Binary64 arithmetic, fused forms, conversions and moves, in the scalar form on f registers and in the vector form; the flags accrue in
FCSR. What a conversion of a NaN or of a value out of range gives is as log 51 reads it. Completes (exec answers a next state for every
state and operands that meet the clause's conditions): fadd, fsub, fmul, fdiv, fsqrt, fmin, fmax, fneg, fma, fms, fnma, fcvtf, fcvti,
frnd, fmvx, fmvf. -/
def Obligations.FloatResults : Prop :=
  Float2 .fadd fAdd ∧ Float2 .fsub fSub ∧ Float2 .fmul fMul ∧ Float2 .fdiv fDiv
  ∧ Float1 .fsqrt (fun rm _ => fSqrt rm) ∧ Float2 .fmin fMinOp ∧ Float2 .fmax fMaxOp ∧ Float1 .fneg (fun rm _ => fNegOp rm)
  ∧ Float3 .fma fFma ∧ Float3 .fms (fun rm a b c => fFma rm a b (if fIsNan c then c else fFlip c))
  ∧ Float3 .fnma (fun rm a b c => fFma rm (if fIsNan a then a else fFlip a) b c)
  ∧ Float1 .fcvtf (fun rm _ => fFromInt rm) ∧ Float1 .fcvti fToInt ∧ Float1 .frnd (fun rm _ => fRint rm)
  ∧ (∀ s p f b io, PyGo s p b io → (live s p).frm.toNat ≤ 4 → f.x = 0 → f.m = false →
      PyExec (.fmvx p f) s p b (fun r => nextS (xSet r f.d (fGet r f.a)))
      ∧ PyExec (.fmvf p f) s p b (fun r => nextS (fSet r f.d (xGet r f.a))))

/-- Packing, the samplers, compression, rounding, decomposition, hints and the norm check of FIPS 203 and FIPS 204, with results modulo QMOD;
with a modulus that gives an operation no meaning its values are free (log 4, log 52). Completes (exec answers a next state for every
state and operands that meet the clause's conditions): vpack, vunpk, vcbd, vrej, vcompd, vdecd, vp2r, vdcmp, vhmake, vhuse, vchkn. -/
def Obligations.SamplingResults : Prop :=
  SampleT .vcbd false (fun n => n == 2 || n == 3) (fun q _ => q != 0) (fun r f i =>
      let n := f.imm.toNat
      let v := bitsAt (vGet r f.a.toNat (grpOf r)) (2 * n * i) (2 * n)
      (((popc n (v % 2 ^ n) : Int) - popc n (v >>> n)) % (qOf r : Int)).toNat)
  ∧ SampleT .vcompd false (fun _ => true) (fun q _ => q != 0) (fun r f i =>
      (2 ^ (f.imm.toNat + 1) * (vEl r f.a i % qOf r) + qOf r) / (2 * qOf r) % 2 ^ f.imm.toNat)
  ∧ SampleT .vdecd false (fun _ => true) (fun _ _ => true) (fun r f i =>
      (2 * qOf r * (vEl r f.a i % 2 ^ f.imm.toNat) + 2 ^ f.imm.toNat) / 2 ^ (f.imm.toNat + 1))
  ∧ SampleT .vhmake true (fun n => decide (n ≤ 1)) (fun q n => q != 0 && gamma2 q n != 0) (fun r f i =>
      let g := gamma2 (qOf r) f.imm.toNat
      if (decomposeQ (qOf r) g (vEl r f.b i)).1 = (decomposeQ (qOf r) g (vEl r f.b i + vEl r f.a i)).1 then 0 else 1)
  ∧ SampleT .vhuse true (fun n => decide (n ≤ 1)) (fun q n => q != 0 && gamma2 q n != 0) (fun r f i =>
      useHintQ (qOf r) (gamma2 (qOf r) f.imm.toNat) (vEl r f.a i) (vEl r f.b i))
  ∧ (∀ s p f b io, PyGo s p b io → aligned f.d (grpOf (live s p)) → aligned f.a (grpOf (live s p)) →
      f.d.toNat + 2 * grpOf (live s p) ≤ 32 →
      (f.imm.toNat ≤ 1 → qOf (live s p) ≠ 0 → gamma2 (qOf (live s p)) f.imm.toNat ≠ 0 →
        PyExec (.vdcmp p f) s p b fun r =>
          nextV (vWrite2 r none f.d fun i =>
            let x := decomposeQ (qOf r) (gamma2 (qOf r) f.imm.toNat) (vEl r f.a i)
            (x.1, (x.2 % (qOf r : Int)).toNat)))
      ∧ (f.imm.toNat ≤ 1 → ∃ v, PyExec (.vdcmp p f) s p b fun r => nextV (vWrite2 r none f.d v))
      ∧ (1 ≤ f.imm.toNat → f.imm.toNat ≤ 32 →
        PyExec (.vunpk p f) s p b fun r =>
          nextV (vWrite r none f.d fun i => bitsAt (vGet r f.a.toNat (grpOf r)) (f.imm.toNat * i) f.imm.toNat)))
  ∧ (∀ s p f b io, PyGo s p b io → aligned f.d (grpOf (live s p)) → aligned f.a (grpOf (live s p)) →
      f.d.toNat + 2 * grpOf (live s p) ≤ 32 → f.x.toNat ≤ 2 → maskOk (live s p) f.m →
      (qOf (live s p) ≠ 0 →
        PyExec (.vp2r p f) s p b fun r =>
          nextV (vWrite2 r (maskOf f.m f.k) f.d fun i =>
            let a : Int := (vEl r f.a i % qOf r : Nat)
            let t0 := centred a (2 ^ 13)
            (((a - t0) / 2 ^ 13).toNat, (t0 % (qOf r : Int)).toNat)))
      ∧ ∃ v, PyExec (.vp2r p f) s p b fun r => nextV (vWrite2 r (maskOf f.m f.k) f.d v))
  ∧ (∀ s p f b io, PyGo s p b io → aligned f.d (grpOf (live s p)) → aligned f.a (grpOf (live s p)) → f.x.toNat ≤ 1 →
      maskOk (live s p) f.m →
      PyExec (.vrej p f) s p b fun r =>
        let cand := fun i =>
          if f.x = 0 then bitsAt (vGet r f.a.toNat (grpOf r)) (12 * i) 12 else bitsAt (vGet r f.a.toNat (grpOf r)) (24 * i) 23
        let ok := ((activeEls r (maskOf f.m f.k)).map cand).filter (· < qOf r)
        nextV (xSet (packFront r f.d ok) f.b (BitVec.ofNat 64 ok.length)))
  ∧ (∀ s p f b io, PyGo s p b io → aligned f.a (grpOf (live s p)) → f.d.toNat < 8 → f.x.toNat ≤ 2 → maskOk (live s p) f.m →
      (qOf (live s p) ≠ 0 →
        PyExec (.vchkn p f) s p b fun r =>
          nextV (mWrite r (maskOf f.m f.k) f.d.toNat fun i =>
            let a := vEl r f.a i % qOf r
            decide ((xGet r f.b).toNat ≤ min a (qOf r - a))))
      ∧ ∃ v, PyExec (.vchkn p f) s p b fun r => nextV (mWrite r (maskOf f.m f.k) f.d.toNat v))
  ∧ (∀ s p f b io, PyGo s p b io → aligned f.d (grpOf (live s p)) → aligned f.a (grpOf (live s p)) →
      1 ≤ f.imm.toNat → f.imm.toNat ≤ 32 →
      PyExec (.vpack p f) s p b fun r =>
        let n := f.imm.toNat
        let vl := min r.vl.toNat (vlmaxOf r)
        let lo := n * r.vresume.toNat
        let bits := packBits n ((List.range vl).map (vEl r f.a))
        let old := vGet r f.d.toNat (grpOf r)
        let tail := if r.vtype.getLsbD 4 then 0 else old >>> max lo (n * vl)
        nextV (vPut r f.d.toNat (grpOf r)
          (old % 2 ^ lo + (if n * vl ≤ lo then 0 else (bits >>> lo) <<< lo) + tail <<< max lo (n * vl))))

/-- Hash channels: HINIT sets a unit up; HABS joins bytes into a share and, with P after the last share, permutes the state; HSQZ permutes
with P and reads bytes of a share; HSHA compresses one block; HDIG reads the SHA-2 state. The unit is ready for the command; the shares of
a permuted masked state are free but for their sum, and so is what a unit holds before its first HINIT (log 4). SRND gives the bytes of
the mask expander. Completes (exec answers a next state for every state and operands that meet the clause's conditions): hinit, habs,
hsqz, hsha, hdig, srnd. -/
def Obligations.HashChannelResults : Prop :=
  (∀ s p f b io, PyGo s p b io → (hashAt (pxAt s.dev p 0 b io) f.u.toNat).win ≤ p.t →
    (f.u.toNat < 2 → PyExec (.hinit p f) s p b fun r => nextS (bankPut r f.u.toNat { fn := 1 }))
    ∧ (f.u = 2 → f.len.toNat = 1 ∨ (2 ≤ f.len.toNat ∧ f.len.toNat ≤ 4 ∧ f.len.toNat = b.order + 1) →
        PyExec (.hinit p f) s p b fun r => nextS (bankPut r 2 { fn := f.len.toNat }))
    ∧ (f.u = 3 → 1 ≤ f.len.toNat → f.len.toNat ≤ 6 →
        PyExec (.hinit p f) s p b fun r =>
          nextS (bankPut r 3 { sha := BitVec.ofNat 512 (elPack 64 ((hIv f.len.toNat).map (·.toNat))), fn := f.len.toNat })))
  ∧ (∀ s p f b io, PyGo s p b io → f.u.toNat < 3 → f.len.toNat ≤ 200 → f.s.toNat < bankShares (live s p) f.u.toNat →
      (hashAt (pxAt s.dev p 0 b io) f.u.toNat).busy ≤ 8 * (p.t / 6) + 16 → (hashAt (pxAt s.dev p 0 b io) f.u.toNat).init ≤ p.t →
      ∃ old new : HashBank, unitHolds s p f.u.toNat old
        ∧ (let x : BitVec 1600 := BitVec.ofNat 1600 ((vReg (live s p) f.v.toNat).toNat % 2 ^ (8 * f.len.toNat))
          let joined := old.keccak.setIfInBounds f.s.toNat (old.keccak.toList.getD f.s.toNat 0 ^^^ x)
          if f.p ∧ f.s.toNat + 1 = bankShares (live s p) f.u.toNat
            then keccakOf new = keccakWord (keccakOf { old with keccak := joined })
            else new = { old with keccak := joined })
        ∧ PyExec (.habs p f) s p b fun r => nextS (bankPut r f.u.toNat new))
  ∧ (∀ s p f b io, PyGo s p b io → f.u.toNat < 3 → f.len.toNat ≤ 200 → f.s.toNat < bankShares (live s p) f.u.toNat →
      (if f.p then (hashAt (pxAt s.dev p 0 b io) f.u.toNat).busy ≤ 8 * (p.t / 6) + 16 ∧ (hashAt (pxAt s.dev p 0 b io) f.u.toNat).init ≤ p.t
        else (hashAt (pxAt s.dev p 0 b io) f.u.toNat).win ≤ p.t) →
      ∃ old new : HashBank, unitHolds s p f.u.toNat old
        ∧ (if f.p then keccakOf new = keccakWord (keccakOf old) else new = old)
        ∧ PyExec (.hsqz p f) s p b fun r =>
            nextS (vPut (bankPut r f.u.toNat new) f.v.toNat 1 ((new.keccak.toList.getD f.s.toNat 0).toNat % 2 ^ (8 * f.len.toNat))))
  ∧ (∀ s p f b io, PyGo s p b io → f.u = 3 → (bankOf (live s p) 3).fn ≠ 0 →
      ((hashAt (pxAt s.dev p 0 b io) 3).queue ≤ (4 * p.t + 2) / 3 + 17 → (hashAt (pxAt s.dev p 0 b io) 3).init ≤ p.t →
        PyExec (.hsha p f) s p b fun r =>
          let u := bankOf r 3
          let n := if 3 ≤ u.fn then 128 else 64
          let st := hBlockRun u.fn (shaWords u) (leBytes n (vReg r f.v.toNat).toNat)
          nextS (bankPut r 3 { u with sha := BitVec.ofNat 512 (elPack 64 (st.map (·.toNat))) }))
      ∧ ((hashAt (pxAt s.dev p 0 b io) 3).win ≤ p.t →
        PyExec (.hdig p f) s p b fun r =>
          let u := bankOf r 3
          let bs := if 3 ≤ u.fn then wordBytes 8 (shaWords u) else wordBytes 4 ((shaWords u).map fun x => (x.setWidth 32 : U32))
          nextS (vPut (bankPut r 3 u) f.v.toNat 1 (leNat bs))))
  ∧ (∀ s p f b io, PyGo s p b io → f.ord = 0 → f.x = false → f.rsv = 0 → io.mxSeed ≠ [] →
      PyExec (.srnd p f) s p b fun r => nextV (vPut r f.d.toNat 1 (leNat (mxBytes io.mxSeed (32 * io.mxCtr) 256))))

/-- Share operations on ORD + 1 shares: refresh, AND, the two conversions, the comparison with a public value, and the value itself. Which
shares come out is free, but for the value they hold. Completes (exec answers a next state for every state and operands that meet the
clause's conditions): sref, sand, sa2b, sb2a, scmp, sunm. -/
def Obligations.ShareResults : Prop :=
  ∀ s p f b io, PyGo s p b io → f.rsv = 0 → 1 ≤ f.ord.toNat → f.a.toNat + f.ord.toNat ≤ 31 →
    let r := regsAt s.dev p.core 0
    let n := f.ord.toNat + 1
    let named := sumOf r f.x true
    (f.d.toNat + f.ord.toNat ≤ 31 →
      (f.x = false → Shared (.sref p f) s p b f.d n .bool (unshare r .bool f.a n))
      ∧ (∀ k, f.x = true → sumOf r true false = some k → Shared (.sref p f) s p b f.d n k (unshare r k f.a n))
      ∧ (f.x = false → f.b.toNat + f.ord.toNat ≤ 31 →
          Shared (.sand p f) s p b f.d n .bool fun i => unshare r .bool f.a n i &&& unshare r .bool f.b n i)
      ∧ (∀ m, named = some (.sum m) → 0 < m →
          Shared (.sa2b p f) s p b f.d n .bool (unshare r (.sum m) f.a n)
          ∧ Shared (.sb2a p f) s p b f.d n (.sum m) fun i => unshare r .bool f.a n i % m)
      ∧ Shared (.scmp p f) s p b f.d n .bool fun i =>
          let eq := (activeEls (single r) none).all fun j =>
            unshare r .bool f.a n j == elAt (sewOf (single r)) (vReg r f.b.toNat).toNat j
          let ones := if eq then 2 ^ sewOf (single r) - 1 else 0
          if f.x then ones &&& unshare r .bool f.d n i else ones)
    ∧ (f.b = 0 →
      (f.x = false → PyExec (.sunm p f) s p b fun r =>
        nextV { vWrite (single r) none f.d (unshare r .bool f.a n) with vtype := r.vtype })
      ∧ (∀ m, f.x = true → named = some (.sum m) → 0 < m → PyExec (.sunm p f) s p b fun r =>
        nextV { vWrite (single r) none f.d (unshare r (.sum m) f.a n) with vtype := r.vtype }))

/-- Job I/O of a job on its core: waiting for a page or the aux area that is there, releasing a page, output into the buffer, a line of a key,
a line of the new key, the job random buffer, and the result, status and attempts of the job. JKDONE of a volatile key creates its object,
and its handle goes to xd and RESULT. The areas of a job: a page takes its chunk of IN and is present; the aux area takes AUX; the output
buffer drains into OUT, and OUT_LEN counts it. A custom job's program starts; a job that never yields ends with YIELD_TIMEOUT. Completes
(exec answers a next state for every state and operands that meet the clause's conditions): inputPageFilled, auxFillDone,
outputBufferRoom, yieldTimeout, customRun, jwait, jrel, jout, jkey, jkput, jkdone, jrnd, jset. -/
def Obligations.JobIoResults : Prop :=
  (∀ s p f b io, PyGo s p b io → mapWf {} s.dev.io = true →
    let px := pxAt s.dev p 0 b io
    let r0 := live s p
    let n := f.imm.toNat
    let sel := f.imm.toNat % 8
    ((n < 16 ∧ n ∈ io.pages) ∨ (n = 16 ∧ io.hdr.auxMax ≠ 0 ∧ io.auxIn = true) → PyExecIo (.jwait p f) s p b nextS io)
    ∧ (n < 16 → n ∈ io.pages → nextChunk { io with refills := mapMod 0 io.refills n (· + 1) } n * 2 ^ io.hdr.pageLog < b.e.inLen.toNat →
        PyExecIo (.jrel p f) s p b nextS
          { io with refills := mapMod 0 io.refills n (· + 1), pages := io.pages.filter (· != n) })
    ∧ (n < 16 → n ∉ io.pages → PyExecIo (.jrel p f) s p b nextS io)
    ∧ (let k := (xGet r0 f.b).toNat
      1 ≤ k → k ≤ 256 → io.outDone + io.buf.length + k ≤ io.hdr.outMax → io.buf.length + k ≤ 8192 →
      b.outBad = none → (outSgl b.e = false ∨ b.e.outCap = 0 ∨ b.outOk = true) →
      PyExecIo (.jout p f) s p b nextS { io with buf := io.buf ++ leBytes k (vReg r0 f.d.toNat).toNat })
    ∧ (let off := (xGet r0 f.a).toNat
      let part := if sel = 7 then (portObj px (f.imm.getLsbD 3)).pub else portShare px (f.imm.getLsbD 3) sel
      n < 16 → off % 64 = 0 → (sel = 7 ∨ (sel ≤ 3 ∧ sel ≤ b.order)) → off < part.length →
      PyExecIo (.jkey p f) s p b (fun r => nextS (vPut r f.d.toNat 1 (leNat (slice part off 256)))) io)
    ∧ (let off := (xGet r0 f.a).toNat
      let io' := { io with newKey := memWrite io.newKey (n * 2 ^ 20 + off) (leBytes 256 (vReg r0 f.d.toNat).toNat) }
      let sec := max (newExtent io 0) (newExtent io 1)
      let need := if max sec (if n < 2 then off + 1 else 0) = 0 then granPub (max (newExtent io 7) (if n = 7 then off + 1 else 0))
        else granPriv (max sec (if n < 2 then off + 1 else 0)) (max (newExtent io 7) (if n = 7 then off + 1 else 0))
      isCustom b = false → (n = 7 ∨ n ≤ min b.order 1) → off + 256 < 2 ^ 20 → b.blob = none → need ≤ b.granRes →
      PyExecIo (.jkput p f) s p b nextS io')
    ∧ PyExecIo (.jrnd p f) s p b (fun r => nextS (vPut r f.d.toNat 1 (leNat (fit 128 io.rnd)))) io
    ∧ (n = 0 → PyExecIo (.jset p f) s p b nextS { io with res := (xGet r0 f.a).setWidth 32 })
    ∧ (n = 1 → (isCustom b = true → (xGet r0 f.a).toNat % 65536 = 0 ∨ (xGet r0 f.a).toNat % 65536 / 256 = 2) →
        PyExecIo (.jset p f) s p b nextS { io with jset := some ((xGet r0 f.a).setWidth 16, (xGet r0 f.a >>> 16).setWidth 16) })
    ∧ (n = 2 → PyExecIo (.jset p f) s p b nextS { io with att := (xGet r0 f.a).setWidth 8 })
    ∧ (isCustom b = false → b.committed = false → b.outBad = none → (outSgl b.e = false ∨ b.e.outCap = 0 ∨ b.outOk = true) →
        b.keep = none → b.pkeyRes = 0 →
        let o := newObj px s.dev
        let h := createObj o.2 b.owner o.1
        Completes (.jkdone p f) s fun d' => ∃ w,
          (getCore d' p.core).live = nextS (xSet (regsAt s.dev p.core w) f.d (h.1.setWidth 64))
          ∧ mapGet {} d'.io b.id = { io with res := h.1, eff := effKeyCreated } ∧ d'.ks = h.2.ks))
  ∧ ((∀ s c page b io, (fillJobs s.dev c).head? = some (b, io) → mapWf {} s.dev.io = true → memWf (getCore s.dev (areaBase b).1).tile →
    (areaBase b).1 < 16 →
    let size := 2 ^ io.hdr.pageLog
    let at0 := (areaBase b).2 + io.hdr.inBase + page * size
    let lo := nextChunk io page * size
    let bytes := (b.inData.drop lo).take size
    (fillDue b io page = true →
      Completes (.inputPageFilled c page) s fun d' =>
        mapGet {} d'.io b.id = { io with pages := io.pages ++ [page] }
        ∧ (∀ i (h : i < bytes.length), memByte (getCore d' (areaBase b).1).tile (at0 + i) = bytes[i])
        ∧ (∀ i, bytes.length ≤ i → i < size → memByte (getCore d' (areaBase b).1).tile (at0 + i) = 0)
        ∧ (∀ k a, (k = (areaBase b).1 → a < at0 ∨ at0 + size ≤ a) → memByte (getCore d' k).tile a = memByte (getCore s.dev k).tile a)
        ∧ d' = { s.dev with io := d'.io, cores := d'.cores })
    ∧ (io.auxIn = false → b.auxData.length = b.e.auxLen.toNat →
      let aux := ownAux b
      let at1 := (areaBase b).2 + io.hdr.auxBase
      Completes (.auxFillDone c) s fun d' =>
        mapGet {} d'.io b.id = { io with auxIn := true }
        ∧ (∀ i (h : i < aux.length), memByte (getCore d' (areaBase b).1).tile (at1 + i) = aux[i])
        ∧ (∀ k a, (k = (areaBase b).1 → a < at1 ∨ at1 + aux.length ≤ a) → memByte (getCore d' k).tile a = memByte (getCore s.dev k).tile a)
        ∧ d' = { s.dev with io := d'.io, cores := d'.cores })
    ∧ (io.buf ≠ [] → b.outBad = none → (outSgl b.e = false ∨ b.outOk = true) → isMember s.dev = false →
      findJob s.dev b.id = some b →
      Completes (.outputBufferRoom c) s fun d' =>
        let io' := { io with outDone := io.outDone + io.buf.length, buf := [] }
        let d1 := writeOut { s.dev with io := mapSet {} s.dev.io b.id io' } b io.outDone io.buf
        mapGet {} d'.io b.id = io'
        ∧ findJob d' b.id = some { b with outLen := io.outDone + io.buf.length }
        ∧ d'.hif = d1.hif ∧ d' = { s.dev with hif := d'.hif, glob := d'.glob, io := d'.io, jobs := d'.jobs }))
  ∧ (∀ s j b, findJob s.dev j = some b → isCustom b = true → b.phase = .placed → (ctxCells b).all (cellRuns s.dev) = true →
      (∀ k ∈ ctxCells b, k < 16 ∧ (getStore s.dev k).stepOk = false) → b.abort = none → late s.dev b.e = false →
      Completes (.customRun j) s fun d' =>
        d' = { s.dev with io := mapMod {} s.dev.io b.id fun io => { io with started := true } })
  ∧ (∀ s c b, c < 16 → cellJob s.dev c = some b → cellHalted s.dev c = false → b.phase = .placed →
      mapGet none (mapGet {} s.dev.io b.id).wait c = none → OwnQueues s.dev b →
      PyFaults (.yieldTimeout c) s b stYieldTimeout))

/-- The common micro-ops on all three sequencer types: each changes the micro-state as its class says and goes on to the next word or to its
target; FLD and CCR read and write what the type has; FLT ends the job; YLD is a yield point at which the Dealer acts; END's micro-PC is
START of the next dispatch entry, and free where there is none (log 124). What a sequencer may not do ends its job with CONTRACT_FAULT:
reserved codes, a fifth CALL, a RET with an empty stack, an END with a non-empty one, a target beyond the store. Completes (exec answers a
next state for every state and operands that meet the clause's conditions): uWait, uUop, uUopi, uUins, uFld, uCcr, uFlt, uBr, uJmp, uCall,
uRet, uLpset, uLpend, uYld, uEnd. -/
def Obligations.MicroCommonResults : Prop :=
  (∀ s u f b, MicroReady s.dev u b →
    let m := getMicro s.dev u
    MicroState (.uWait u f) s u b uNext
    ∧ (∀ e ∈ uopTable, f.imm.toNat = e.1 →
        MicroState (.uUop u f) s u b fun m => uNext (uSet m f.a (e.2 (uGet m f.a) (uGet m f.b) (uGet m f.c))))
    ∧ (∀ e ∈ uopTable, f.c.toNat % 16 = e.1 →
        MicroState (.uUopi u f) s u b fun m => uNext (uSet m f.a (e.2 (uGet m f.a) (uGet m f.b) (f.imm.setWidth 64))))
    ∧ (f.c.toNat % 8 ≤ 5 → ∃ v : U64,
        (∀ i < 64, v.getLsbD i =
          let lo := 12 * (f.c.toNat % 8)
          if lo ≤ i ∧ i < lo + 12 then f.imm.getLsbD (i - lo) else (uReg s u f.a).getLsbD i)
        ∧ MicroState (.uUins u f) s u b fun m => uNext (uSet m f.a v))
    ∧ (u < 16 → ∀ e ∈ fldTable, f.imm.toNat % 64 = e.1 →
        MicroState (.uFld u f) s u b fun m => uNext (uSet m f.a (e.2 (getCore s.dev u).live)))
    ∧ (u < 16 → ∀ v, fldPy (getCore s.dev u).live (f.imm.toNat % 64) = some v →
        MicroState (.uFld u f) s u b fun m => uNext (uSet m f.a v))
    ∧ (16 ≤ u → u < 24 → ∀ r, fldMe s.dev b (f.imm.toNat % 64) = some r →
        MicroState (.uFld u f) s u b fun m => uNext (uSet m f.a r.1))
    ∧ (24 ≤ u → ∀ v, fldTs s.dev b (f.imm.toNat % 64) = some v → MicroState (.uFld u f) s u b fun m => uNext (uSet m f.a v))
    ∧ (u < 16 → f.imm.toNat ≤ 6 →
        if f.c.getLsbD 0 then MicroPy (.uCcr u f) s u b (fun r => ccrWrite r f.imm.toNat (uReg s u f.a)) id
        else MicroState (.uCcr u f) s u b fun m => uNext (uSet m f.a (ccrRead (getCore s.dev u).live f.imm.toNat)))
    ∧ (16 ≤ u → u < 24 → f.imm.toNat ≤ 2 →
        if f.c.getLsbD 0 then MicroMe (.uCcr u f) s u b fun e => { e with lens := e.lens.setIfInBounds f.imm.toNat (uReg s u f.a) }
        else MicroState (.uCcr u f) s u b fun m => uNext (uSet m f.a ((getMe s.dev (u - 16)).lens.toList.getD f.imm.toNat 0)))
    ∧ (24 ≤ u → f.imm = 0 →
        if f.c.getLsbD 0 then MicroTs (.uCcr u f) s u b fun t => { t with owned := uReg s u f.a }
        else MicroState (.uCcr u f) s u b fun m => uNext (uSet m f.a (getTs s.dev (u - 24)).owned))
    ∧ (OwnQueues s.dev b → f.imm.toNat < 256 → MicroFaults (.uFlt u f) s u b (0x0500 ||| BitVec.ofNat 16 f.imm.toNat))
    ∧ (∀ e ∈ ubrTable, f.c.toNat % 8 = e.1 → e.2 (uReg s u f.a) (uReg s u f.b) = false → MicroState (.uBr u f) s u b uNext)
    ∧ (∀ e ∈ ubrTable, f.c.toNat % 8 = e.1 → e.2 (uReg s u f.a) (uReg s u f.b) = true →
        ∀ t < storeSize u, (t : Int) = m.upc.toNat + f.imm.toInt →
          MicroState (.uBr u f) s u b fun m => { uNext m with upc := BitVec.ofNat 14 t })
    ∧ (ufar f < storeSize u → MicroState (.uJmp u f) s u b fun m => { uNext m with upc := BitVec.ofNat 14 (ufar f) })
    ∧ (ufar f < storeSize u → m.stack.length < 4 →
        MicroState (.uCall u f) s u b fun m => { uNext m with upc := BitVec.ofNat 14 (ufar f), stack := (m.upc + 1) :: m.stack })
    ∧ (∀ r rs, m.stack = r :: rs → MicroState (.uRet u f) s u b fun m => { uNext m with upc := r, stack := rs })
    ∧ MicroState (.uLpset u f) s u b (fun m =>
        uNext (lcSet m f.a (if f.c.getLsbD 0 then (uGet m f.b).setWidth 16 else f.imm.setWidth 16)))
    ∧ (lcOf m f.a = 0 → MicroState (.uLpend u f) s u b uNext)
    ∧ (lcOf m f.a ≠ 0 → ∀ t < storeSize u, (t : Int) = m.upc.toNat + f.imm.toInt →
        MicroState (.uLpend u f) s u b fun m => { uNext (lcSet m f.a (lcOf m f.a - 1)) with upc := BitVec.ofNat 14 t })
    ∧ (late s.dev b.e = false → MicroWord s.dev u (.uYld u f) → ∃ d1 b1,
        MicroLeaves s.dev d1 u b (fun r => withMicro r (uNext m)) (fun e => { e with micro := uNext e.micro })
          (fun t => { t with micro := uNext t.micro })
        ∧ (findJob s.dev b.id = some b → findJob d1 b.id = some b1)
        ∧ Gives (.uYld u f) s (if b.cluster then d1 else dealYield d1 b1))
    ∧ (m.stack = [] → MicroWord s.dev u (.uEnd u f) → ∃ pc, 
        (∀ n e, nextIndex { d := s.dev, u := u, b := b, m := m, f := f } = some n → dispAt s.dev u n = some e → pc = BitVec.ofNat 14 e.start) ∧
        Completes (.uEnd u f) s fun d' => MicroLeaves s.dev d' u b
        (fun r => { withMicro r { m with upc := pc, run := false } with
          vresume := if vectorWord u r then 0 else r.vresume, velOn := false })
        (fun e => { e with micro := { e.micro with upc := pc, run := false } })
        fun t => { t with micro := { t.micro with upc := pc, run := false } }))
  ∧ (∀ s u f b, MicroReady s.dev u b → OwnQueues s.dev b →
    let m := getMicro s.dev u
    (16 ≤ f.imm.toNat ∨ 13 ≤ f.imm.toNat % 16 → MicroFaults (.uUop u f) s u b stContractFault)
    ∧ (13 ≤ f.c.toNat % 16 → MicroFaults (.uUopi u f) s u b stContractFault)
    ∧ (6 ≤ f.c.toNat % 8 → MicroFaults (.uUins u f) s u b stContractFault ∧ MicroFaults (.uBr u f) s u b stContractFault)
    ∧ (u < 16 → 19 ≤ f.imm.toNat % 64 → MicroFaults (.uFld u f) s u b stContractFault)
    ∧ (24 ≤ u → 7 ≤ f.imm.toNat % 64 → MicroFaults (.uFld u f) s u b stContractFault)
    ∧ (7 ≤ f.imm.toNat → MicroFaults (.uCcr u f) s u b stContractFault)
    ∧ (4 ≤ m.stack.length → MicroFaults (.uCall u f) s u b stContractFault)
    ∧ (m.stack = [] → MicroFaults (.uRet u f) s u b stContractFault)
    ∧ (m.stack ≠ [] → MicroFaults (.uEnd u f) s u b stContractFault)
    ∧ (storeSize u ≤ ufar f → MicroFaults (.uJmp u f) s u b stContractFault))

/-- The micro-ops of the three types on their own registers, buffers, lines and key port. The Montgomery step and the fixed-time conditional
subtraction of MAC take the modulus of the job, and have free results where it has none below 2^512 (log 54). Completes (exec answers a
next state for every state and operands that meet the clause's conditions): uXmov, uUiss, uVln, uVel, uTls, uMkv, uSln, uMac, uPad,
uKplMe, uHio, uHui, uNbm, uSst, uKplTs. -/
def Obligations.MicroEngineResults : Prop :=
  (∀ s u f b, MicroReady s.dev u b → u < 16 →
    let r := (getCore s.dev u).live
    let n : BitVec 5 := (uReg s u f.b).setWidth 5
    let q := (uReg s u f.b).toNat % 8
    let lo := 64 * (f.imm.toNat % 4)
    (if f.c.getLsbD 0 then MicroPy (.uXmov u f) s u b (fun r => xSet r n (uReg s u f.a)) id
      else MicroState (.uXmov u f) s u b fun m => uNext (uSet m f.a (xGet r n)))
    ∧ MicroPy (.uVel u f) s u b
        (fun r => { r with velLo := (uReg s u f.b).setWidth 12, velHi := (uReg s u f.c).setWidth 12, velOn := true }) id
    ∧ (f.c.getLsbD 0 = false → MicroState (.uMkv u f) s u b fun m => uNext (uSet m f.a ((mReg r q).extractLsb' lo 64)))
    ∧ (f.c.getLsbD 0 = true → ∃ v : BitVec 256,
        (∀ i < 256, v.getLsbD i = if lo ≤ i ∧ i < lo + 64 then (uReg s u f.a).getLsbD (i - lo) else (mReg r q).getLsbD i)
        ∧ MicroPy (.uMkv u f) s u b (fun r => mPut r q v) id)
    ∧ (∀ op p, let i := f.imm.toNat
        let w := uissWord r.word (fmtOf (i / 8) (i % 8)) ((uReg s u f.a).setWidth 5) ((uReg s u f.b).setWidth 5)
          ((uReg s u f.c).setWidth 5)
        i < 1024 → pyOpOf w (i / 8) (i % 8) = some op →
        (op.use (uAt s u b)).legal = true → (op.use (uAt s u b)).clash = false → op.body (uAt s u b) = .next p → p.d = s.dev →
        p.c = u → p.b.id = b.id → p.jump = none → p.deal = false →
        MicroPy (.uUiss u f) s u b (fun _ => { p.r with velOn := false }) id)
    ∧ (∀ tc off, f.c.toNat % 8 < 4 →
        let w := 2 ^ (f.c.toNat % 4)
        let a := (uReg s u f.b + f.imm.signExtend 64).toNat
        a % w = 0 → tilePlace (uAt s u b) a w = some (tc, off) →
        elStop (uAt s u b) a w false = none → lineStale (uAt s u b) tc (off / 256) = false →
        MicroState (.uTls u f) s u b fun m =>
          uNext (uSet m f.a (BitVec.ofNat 64 (leNat (memRead (getCore s.dev tc).tile off w)))))
    ∧ (∀ tc off, 4 ≤ f.c.toNat % 8 →
        let w := 2 ^ (f.c.toNat % 4)
        let a := (uReg s u f.b + f.imm.signExtend 64).toNat
        a % w = 0 → tilePlace (uAt s u b) a w = some (tc, off) → pageAt (uAt s u b) a = none → memWf (getCore s.dev tc).tile → MicroWord s.dev u (.uTls u f) →
        Completes (.uTls u f) s fun d' =>
          PyStored s.dev d' u b (withMicro r (uNext (getMicro s.dev u))) tc off (leBytes w (uReg s u f.a).toNat))
    ∧ (let v := (uReg s u f.a).toNat % 32
        let a := (uReg s u f.b).toNat
        let w := sewOf r / 8
        a % 256 = 0 →
        (f.c.getLsbD 0 = false → (∀ i ∈ vlnEls r, elStop (uAt s u b) (a + i * w) w false = none) →
          ∃ ld : Nat → Nat,
            (∀ i tc off, tilePlace (uAt s u b) (a + i * w) w = some (tc, off) → lineStale (uAt s u b) tc (off / 256) = false →
              ld i = leNat (memRead (getCore s.dev tc).tile off w))
            ∧ MicroPy (.uVln u f) s u b (fun r =>
                { vPut r v 1 (elPack (8 * w) ((List.range (2048 / (8 * w))).map fun i =>
                    if (vlnEls r).contains i then ld i else elAt (8 * w) (vReg r v).toNat i)) with velOn := false }) id)
        ∧ (f.c.getLsbD 0 = true → (∀ i ∈ vlnEls r, elStop (uAt s u b) (a + i * w) w true = none) →
          (∀ k, memWf (getCore s.dev k).tile) → MicroWord s.dev u (.uVln u f) →
          Completes (.uVln u f) s fun d' =>
            PyStoredEls s.dev d' u b { withMicro r (uNext (getMicro s.dev u)) with velOn := false } (vlnEls r) w
              (fun i => tilePlace (uAt s u b) (a + i * w) w) (elAt (8 * w) (vReg r v).toNat))))
  ∧ (∀ s u f b, MicroReady s.dev u b → 16 ≤ u → u < 24 →
    let e := getMe s.dev (u - 16)
    let la := (uReg s u f.a).toNat % 1024 * 64
    let lb := (uReg s u f.b).toNat % 1024 * 64
    let buf := fun i => (e.bufs.toList.getD i 0).toNat
    let limb := buf 1 / 2 ^ (64 * ((uReg s u f.b).toNat % 8)) % 2 ^ 64
    let acc := buf 2 + buf 3 * 2 ^ 512
    let put := fun (v : Nat) (e : MeEng) =>
      { e with bufs := (e.bufs.setIfInBounds 2 (BitVec.ofNat 512 v)).setIfInBounds 3 (BitVec.ofNat 512 (v / 2 ^ 512)) }
    (f.c.getLsbD 0 = false →
      MicroMe (.uSln u f) s u b fun e =>
        { e with bufs := e.bufs.setIfInBounds (f.imm.toNat % 4) (BitVec.ofNat 512 (leNat (memRead e.slate lb 64))) })
    ∧ (f.c.getLsbD 0 = true →
      MicroMe (.uSln u f) s u b fun e => { e with slate := memWrite e.slate lb (leBytes 64 (buf (f.imm.toNat % 4))) })
    ∧ (f.imm.toNat % 16 = 0 → MicroMe (.uMac u f) s u b (put (buf 0 * limb)))
    ∧ (f.imm.toNat % 16 = 1 → MicroMe (.uMac u f) s u b (put (acc + buf 0 * limb)))
    ∧ (f.imm.toNat % 16 = 3 → MicroMe (.uMac u f) s u b (put (acc + buf 0)))
    ∧ (f.imm.toNat % 16 = 4 → MicroMe (.uMac u f) s u b (put (acc + 2 ^ 1024 - buf 0)))
    ∧ (∀ n, meModulus s.dev b = some n → n < 2 ^ 512 →
      let k := leNat (memRead e.slate ((uReg s u f.c).toNat % 1024 * 64) 8)
      (f.imm.toNat % 16 = 2 → MicroMe (.uMac u f) s u b (put ((acc + acc * k % 2 ^ 64 * n) / 2 ^ 64)))
      ∧ (f.imm.toNat % 16 = 5 → MicroMe (.uMac u f) s u b (put (if n ≤ acc then acc - n else acc))))
    ∧ (f.imm.toNat % 16 = 2 ∨ f.imm.toNat % 16 = 5 → ∃ v, MicroMe (.uMac u f) s u b (put v))
    ∧ (f.imm = 0 → MicroMe (.uPad u f) s u b fun e => { e with pad := unitSha e.pad 2 (memRead e.slate lb 64) })
    ∧ (f.imm = 1 → MicroMe (.uPad u f) s u b fun e => { e with pad := unitSha e.pad 4 (memRead e.slate lb 128) })
    ∧ (f.imm = 2 → MicroMe (.uPad u f) s u b fun e => { e with pad := unitKeccak (unitAbsorb e.pad (memRead e.slate lb 64)) })
    ∧ (f.c.getLsbD 0 = false →
      MicroMe (.uKplMe u f) s u b fun e =>
        { e with slate := memWrite e.slate la (slice (portBytes s.dev b) (64 * (uReg s u f.b).toNat) 64) })
    ∧ (f.c.getLsbD 0 = true → mapWf {} s.dev.io → MicroWord s.dev u (.uKplMe u f) →
      Completes (.uKplMe u f) s fun d' =>
        (mapGet {} d'.io b.id).newKey
            = memWrite (mapGet {} s.dev.io b.id).newKey (64 * ((uReg s u f.b).toNat % 2 ^ 14)) (memRead e.slate la 64)
          ∧ MicroLeaves s.dev d' u b id (fun e => { e with micro := uNext e.micro }) id)
    ∧ (1 ≤ f.imm.toNat % 128 → f.imm.toNat % 128 ≤ 64 → f.c.getLsbD 0 = false →
      min b.e.inLen.toNat ((uReg s u f.b).toNat + f.imm.toNat % 128) ≤ b.inData.length →
      MicroMe (.uHio u f) s u b fun e =>
        { e with slate := memWrite e.slate la (slice b.inData (uReg s u f.b).toNat (f.imm.toNat % 128)) })
    ∧ (1 ≤ f.imm.toNat % 128 → f.imm.toNat % 128 ≤ 64 → f.c.getLsbD 0 = true → outReady b → isMember s.dev = false →
      findJob s.dev b.id = some b →
      (uReg s u f.b).toNat + f.imm.toNat % 128 ≤ b.e.outCap.toNat →
      MicroOut (.uHio u f) s u b (uReg s u f.b).toNat (memRead e.slate la (f.imm.toNat % 128))))
  ∧ (∀ s u f b, MicroReady s.dev u b → 24 ≤ u →
    let t := getTs s.dev (u - 24)
    let i := (uReg s u f.a).toNat % 16
    let h := unitOf t i
    let la := (uReg s u f.a).toNat % 1024 * 64
    let lb := (uReg s u f.b).toNat % 1024 * 64
    let put := fun (h : HashBank) => MicroTs (.uHui u f) s u b fun t => { t with units := t.units.setIfInBounds i h }
    t.sched.nextT ≥ mapGet 0 t.sched.free (16 + i) → 
    (f.imm.toNat % 16 = 0 → put {})
    ∧ (f.imm.toNat % 16 = 1 → i < 12 → put (unitAbsorb h (memRead t.node lb 64)))
    ∧ (f.imm.toNat % 16 = 1 → 12 ≤ i → put { h with keccak := h.keccak.set 0 (BitVec.ofNat 1600 (leNat (memRead t.node lb 64))) })
    ∧ (f.imm.toNat % 16 = 2 → i < 12 → put (unitKeccak h))
    ∧ (f.imm.toNat % 16 = 2 → 12 ≤ i → put (unitSha h 2 (leBytes 64 h.keccak[0].toNat)))
    ∧ (f.imm.toNat % 16 = 3 → i < 12 →
      MicroTs (.uHui u f) s u b fun t =>
        { t with node := memWrite t.node lb (slice (leBytes 200 h.keccak[0].toNat) h.pos 64)
                 units := t.units.setIfInBounds i { h with pos := h.pos + 64 } })
    ∧ (f.imm.toNat % 16 = 3 → 12 ≤ i →
      MicroTs (.uHui u f) s u b fun t => { t with node := memWrite t.node lb (fit 64 (unitDigest h)) })
    ∧ (f.c.getLsbD 0 = false → min b.e.inLen.toNat ((uReg s u f.b).toNat + 64) ≤ b.inData.length →
      MicroTs (.uNbm u f) s u b fun t => { t with node := memWrite t.node la (slice b.inData (uReg s u f.b).toNat 64) })
    ∧ (f.c.getLsbD 0 = true → outReady b → isMember s.dev = false → findJob s.dev b.id = some b →
      (uReg s u f.b).toNat + 64 ≤ b.e.outCap.toNat →
      MicroOut (.uNbm u f) s u b (uReg s u f.b).toNat (memRead t.node la 64))
    ∧ (f.c.getLsbD 0 = false →
      MicroTs (.uKplTs u f) s u b fun t =>
        { t with node := memWrite t.node la (slice (portBytes s.dev b) (64 * (uReg s u f.b).toNat) 64) })
    ∧ (f.c.getLsbD 0 = true → mapWf {} s.dev.io → MicroWord s.dev u (.uKplTs u f) →
      Completes (.uKplTs u f) s fun d' =>
        (mapGet {} d'.io b.id).newKey
            = memWrite (mapGet {} s.dev.io b.id).newKey (64 * ((uReg s u f.b).toNat % 2 ^ 14)) (memRead t.node la 64)
          ∧ MicroLeaves s.dev d' u b id id fun t => { t with micro := uNext t.micro })
    ∧ (late s.dev b.e = false → findJob s.dev b.id = some b →
      let d0 := setSched s.dev u { getSched s.dev u with yieldT := uTime s.dev u }
      ∀ n d1, ssTake d0 b.owner b.e.key0 = some (n, d1) →
      outSgl b.e = false ∨ b.e.outCap = 0 ∨ b.outOk = true → b.outBad = none → MicroWord s.dev u (.uSst u f) →
      let b1 := { b with taken := some n, effect := b.effect ||| effStateConsumed }
      ∃ d2, MicroLeaves d1 d2 u b id id (fun t => { t with micro := uNext (uSet t.micro f.a (BitVec.ofNat 64 n)) })
        ∧ findJob d2 b.id = some b1 ∧ Gives (.uSst u f) s (if b.cluster then d2 else dealYield d2 b1))
    ∧ (late s.dev b.e = false →
      ssTake (setSched s.dev u { getSched s.dev u with yieldT := uTime s.dev u }) b.owner b.e.key0 = none → OwnQueues s.dev b →
      outSgl b.e = false ∨ b.e.outCap = 0 ∨ b.outOk = true → b.outBad = none →
      MicroFaults (.uSst u f) s u b stStateExhausted))

/-- One command of a running program that is not its last: the destination slot in Slate gets its value, the job's command index and cycles go
on, nothing else changes; STORE writes ⌈MODBITS/8⌉ bytes of the slot to OUT. The last command ends the job with STATUS OK. MOD_RUN: a
program that its checks accept runs to its end, and the job ends with STATUS OK; one that a check refuses ends with the status and detail
of the first check that fails, and nothing of it runs. Completes (exec answers a next state for every state and operands that meet the
clause's conditions): modRun, mpLoad, mpLoadx, mpLoadk, mpSeti, mpCopy, mpAdd, mpSub, mmul, tom, fromm, inv, exp, store. -/
def Obligations.ModularCommandResults : Prop :=
  (∀ s e w b r, engJob s.dev e = some b → JobReady s.dev b.id (isCode 0x6001) b → b.mp = some r →
    let p := mpProg (ownAux b)
    let r1 : MpRun := { r with idx := r.idx + 1, cycles := r.cycles + mpCost p w }
    (p.words[r.idx]?).map mpParse = some w →
    (∀ row ∈ mpTable s.dev b p w, w.op.toNat = row.2.1 →
      let b1 := { b with mp := some r1 }
      (r.idx + 1 < p.words.length →
        exec (row.1 e w) s = .next { s with dev := modJob (slotPut s.dev b p w.d row.2.2) b.id fun _ => b1 })
      ∧ (p.words.length = r.idx + 1 → OwnQueues s.dev b →
        Completes (row.1 e w) s fun d' => JobEnds s.dev d' b stOk b.effect ∧ Closes s.dev d'))
    ∧ (w.op = 0x18 → b.outBad = none →
      let v := slotGet s.dev b p w.a
      let bs := if w.le then leBytes (mpBytes p) v else beBytes (mpBytes p) v
      let n := max r.outEnd (w.imm.toNat + mpBytes p)
      let b1 := { b with mp := some { r1 with outEnd := n }, outLen := n, effect := b.effect ||| effOutput }
      (r.idx + 1 < p.words.length →
        exec (.store e w) s = .next { s with dev := modJob (writeOut s.dev b w.imm.toNat bs) b.id fun _ => b1 })
      ∧ (p.words.length = r.idx + 1 → OwnQueues s.dev b →
        Completes (.store e w) s fun d' => JobEnds s.dev d' b stOk (b.effect ||| effOutput) ∧ Closes s.dev d')))
  ∧ (∀ s b, JobReady s.dev b.id (isCode 0x6001) b → OwnQueues s.dev b → b.mp = none →
    let p := mpProg (ownAux b)
    let parts := if hasKey0 b then
        (if (keyParts s.dev b.owner (jobKey0 s.dev b)).length = 0 then none else some (keyParts s.dev b.owner (jobKey0 s.dev b)).length)
      else none
    (∀ x, mpStart s.dev b = .ok x →
      Completes (.modRun b.id) s fun d' => ∃ eff, JobEnds s.dev d' b stOk eff ∧ Closes s.dev d')
    ∧ ((ownAux b).length ≠ 16 + 8 * p.ncmd ∨ b.e.outCap.toNat < mpOutMax p →
      Completes (.modRun b.id) s fun d' => JobEnds s.dev d' b stLength b.effect ∧ Closes s.dev d')
    ∧ (∀ det, (ownAux b).length = 16 + 8 * p.ncmd → mpOutMax p ≤ b.e.outCap.toNat → mpFault (mpServed s.dev b) p b.inData.length parts = some det →
      Completes (.modRun b.id) s fun d' => JobEnds s.dev d' b stProgramInvalid b.effect ∧ Closes s.dev d')
    ∧ ((ownAux b).length = 16 + 8 * p.ncmd → mpOutMax p ≤ b.e.outCap.toNat → mpFault (mpServed s.dev b) p b.inData.length parts = none → mpLeaks [] (p.words.map mpParse) = true →
      (jobKey0 s.dev b).policy.getLsbD polProgOut = false →
      Completes (.modRun b.id) s fun d' => JobEnds s.dev d' b stKeyPolicy b.effect ∧ Closes s.dev d')
    ∧ (∀ det res, (ownAux b).length = 16 + 8 * p.ncmd → mpOutMax p ≤ b.e.outCap.toNat → mpFault (mpServed s.dev b) p b.inData.length parts = none →
      mpLeaks [] (p.words.map mpParse) = false → mpRange p b.inData = some (det, res) →
      Completes (.modRun b.id) s fun d' => JobEnds s.dev d' b stRange b.effect ∧ Closes s.dev d'))

/-- The control operations and IDENTITY: they use no engine; a waiting job with its input completes at once. Hash services: one-shot digests
and tags over the whole input, their verification, and streams: INIT seals a context, UPDATE absorbs into one and seals the next, FINAL
and FINAL_VERIFY end it; a context that a check of its own refuses ends the job with CONTEXT_INVALID. Completes (exec answers a next state
for every state and operands that meet the clause's conditions): nop, echo, queryCaps, time, fateQuery, fateRelease, notify, hashDigest,
hashMac, macVerify, hashInit, hashUpdate, hashFinal, finalVerify, identity. -/
def Obligations.ControlAndHashResults : Prop :=
  (ServesNone .nop (isCode 0x0001) (fun s b i => exec i s = .next { s with dev := finish s.dev b stOk 0 }
    ∧ (OwnQueues s.dev b → Completes i s fun d' => JobEnds s.dev d' b stOk b.effect ∧ Closes s.dev d'))
  ∧ ServesNone .notify (isCode 0x0007) (fun s b i => exec i s = .next { s with dev := finish s.dev b stOk 0 }
    ∧ (OwnQueues s.dev b → Completes i s fun d' => JobEnds s.dev d' b stOk b.effect ∧ Closes s.dev d'))
  ∧ ServesNone .echo (isCode 0x0002) (fun s b i => JobDone i s s.dev b b.inData 0 0 0 0)
  ∧ ServesNone .queryCaps (isCode 0x0003) (fun s b i => JobDone i s s.dev b (capsBytes s.dev b.owner) 0 0 0 0)
  ∧ ServesNone .time (isCode 0x0004) (fun s b i =>
      JobDone i s s.dev b (le64 s.dev.glob.tb ++ le32 s.dev.glob.bootCnt) (s.dev.glob.tb.setWidth 32) 0 0 0)
  ∧ ServesNone .fateQuery (isCode 0x0005) (fun s b i =>
      let a := fqArgs s.dev b.owner (u64At b.auxData 0) (u64At b.auxData 8)
      let recs := if b.e.param = 2 then (jByKey s.dev a).map (fun k => jRec (getJ s.dev k)) ++ [({} : FateRec)] else [fateByJob s.dev a]
      fateNode s.dev a = none →
        JobDone i s s.dev b (((recs.take (b.e.outCap.toNat / 32)).map fateBytes).flatten) 0 0 0 0)
  ∧ ServesNone .fateRelease (isCode 0x0006) (fun s b i =>
      let boot := if b.e.param = 0 then s.dev.glob.bootCnt else b.e.param
      exec i s = .next { s with
        dev := finish (releaseEverywhere s.dev { sqId := 0, index := 0, boot := boot, owner := b.owner, key := 0 }) b stOk 0 })
  ∧ ServesNone .identity (isCode 0xB002) (fun s b i =>
      JobDone i s s.dev b (devIdBytes s.dev ++ [s.dev.ks.epoch.setWidth 8, s.dev.glob.lcCode] ++ zeros 2 ++ idPk s.dev ++ idPoint s.dev)
        0 0 0 0))
  ∧ (Serves .hashDigest (isOp 7 1) (fun s b i => JobDone i s s.dev b (hashValue s.dev b) 0 0 0 (hashJobCycles s.dev b 0))
  ∧ Serves .hashMac (isOp 7 2) (fun s b i => JobDone i s s.dev b (hashValue s.dev b) 0 0 0 (hashJobCycles s.dev b 0))
  ∧ Serves .macVerify (isOp 7 3) (fun s b i =>
      Verdict i s b (hashValue s.dev b == (ownAux b).drop (hashSlen b.e)) stTagInvalid (hashJobCycles s.dev b 0))
  ∧ Serves .hashInit (isOp 7 4) (fun s b i =>
      let set := opSet b.e.opcode
      let name := (ownAux b).take (hashNlen b.e)
      let cust := ((ownAux b).drop (hashNlen b.e)).take (hashSlen b.e)
      let r := ctxSeal s.dev b.owner b.e.opcode b.e.key0
        { run := hAbsorb set (hStart set (macKey s.dev b) name cust) b.inData, name := name, cust := cust, xof := hashXof b.e
          total := b.inData.length }
      JobDone i s r.2 b r.1 0 0 0 (hashJobCycles s.dev b 220))
  ∧ Serves .hashUpdate (isOp 7 5) (fun s b i =>
      let x := ownAux b
      let c := ctxOpen s.dev b x
      let r := ctxSeal s.dev b.owner (u16At x 4) (u32At x 0xC)
        { c with run := hAbsorb (opSet b.e.opcode) c.run b.inData, total := c.total + b.inData.length }
      (ctxFault s.dev b x = none → JobDone i s r.2 b r.1 0 0 0 (hashJobCycles s.dev b 440))
      ∧ ∀ det, ctxFault s.dev b x = some det → JobOver i s s.dev b stContextInvalid det 0 b.attempts 220)
  ∧ Serves .hashFinal (isOp 7 6) (fun s b i =>
      let x := (ownAux b).take 512
      (ctxFault s.dev b x = none → JobDone i s s.dev b (ctxEnd s.dev b (ctxOpen s.dev b x)) 0 0 0
        (hashJobCycles s.dev b 220 (ctxOpen s.dev b x).xof))
      ∧ ∀ det, ctxFault s.dev b x = some det → JobOver i s s.dev b stContextInvalid det 0 b.attempts 220)
  ∧ Serves .finalVerify (isOp 7 7) (fun s b i =>
      let x := (ownAux b).take 512
      (ctxFault s.dev b x = none →
        Verdict i s b (ctxEnd s.dev b (ctxOpen s.dev b x) == (ownAux b).drop 512) stTagInvalid
          (hashJobCycles s.dev b 220 (ctxOpen s.dev b x).xof))
      ∧ ∀ det, ctxFault s.dev b x = some det → JobOver i s s.dev b stContextInvalid det 0 b.attempts 220))

/-- Symmetric services: what each writes from its key, its AUX and its input; a decryption or unwrap whose tag or check value does not match
ends with TAG_INVALID and writes nothing, and GCM_DEC and AEAD_DEC read their input twice; a counter that would wrap is refused. Completes
(exec answers a next state for every state and operands that meet the clause's conditions): gcmEnc, gcmDec, ctr, xtsEnc, xtsDec, kwWrap,
kwUnwrap, kwpWrap, kwpUnwrap, aeadEnc, aeadDec. -/
def Obligations.SymmetricResults : Prop :=
  Serves .gcmEnc (isOp 8 1) (fun s b i =>
      let ks := aesKeys (symKey s.dev b)
      let sealed := fun (iv aad : Bytes) => gcmCrypt ks iv b.inData ++ (gcmTag ks iv aad (gcmCrypt ks iv b.inData)).take (tagLen b.e)
      (pbit b.e 0 = false →
        JobDone i s s.dev b (sealed ((ownAux b).take 12) ((ownAux b).drop 12)) 0 0 0
          (symCycles b.inData.length ((ownAux b).drop 12).length false false))
      ∧ (pbit b.e 0 = true →
        let r := draw s.dev 12
        JobDone i s r.2 b (r.1 ++ sealed r.1 (ownAux b)) 0 0 0 (symCycles b.inData.length (ownAux b).length false false)))
  ∧ Serves .gcmDec (isOp 8 2) (fun s b i =>
      let iv := (ownAux b).take 12
      let aad := (ownAux b).drop 12
      let ct := b.inData.take (b.inData.length - tagLen b.e)
      let tag := (gcmTag (aesKeys (symKey s.dev b)) iv aad ct).take (tagLen b.e)
      TwoPass i s b (tag == b.inData.drop (b.inData.length - tagLen b.e)) (gcmCrypt (aesKeys (symKey s.dev b)) iv ct)
        (symCycles b.inData.length ((ownAux b).length - 12) true false))
  ∧ Serves .ctr (isOp 8 3) (fun s b i =>
      let iv := fit 16 (ownAux b)
      (beNat iv + cdiv b.inData.length 16 ≤ 2 ^ 128 →
        JobDone i s s.dev b (aesCtr (symKey s.dev b) iv b.inData) 0 0 0 (symCycles b.inData.length 0 false false))
      ∧ (2 ^ 128 < beNat iv + cdiv b.inData.length 16 → ∃ cyc, JobOver i s s.dev b stRange 0x0801 0 b.attempts cyc))
  ∧ Serves .xtsEnc (isOp 8 4) (fun s b i =>
      JobDone i s s.dev b (aesXts false (symKey s.dev b) (secretOf (jobKey1 s.dev b)) (fit 16 (ownAux b)) b.inData) 0 0 0
        (symCycles b.inData.length 0 false true))
  ∧ Serves .xtsDec (isOp 8 5) (fun s b i =>
      JobDone i s s.dev b (aesXts true (symKey s.dev b) (secretOf (jobKey1 s.dev b)) (fit 16 (ownAux b)) b.inData) 0 0 0
        (symCycles b.inData.length 0 false true))
  ∧ Serves .kwWrap (isOp 8 6) (fun s b i =>
      JobDone i s s.dev b (kwWrap (symKey s.dev b) b.inData) 0 0 0 (120 + 132 * (b.inData.length / 8)))
  ∧ Serves .kwUnwrap (isOp 8 7) (fun s b i =>
      Opened i s b (kwUnwrap (symKey s.dev b) b.inData) (120 + 132 * (b.inData.length / 8 - 1)))
  ∧ Serves .kwpWrap (isOp 8 8) (fun s b i =>
      JobDone i s s.dev b (kwpWrap (symKey s.dev b) b.inData) 0 0 0 (120 + 132 * cdiv b.inData.length 8))
  ∧ Serves .kwpUnwrap (isOp 8 9) (fun s b i =>
      Opened i s b (kwpUnwrap (symKey s.dev b) b.inData) (120 + 132 * (cdiv b.inData.length 8 - 1)))
  ∧ Serves .aeadEnc (isOp 8 0x0A) (fun s b i =>
      let nonce := (ownAux b).take 12
      let aad := (ownAux b).drop 12
      let ct := chaCrypt (symKey s.dev b) nonce b.inData
      JobDone i s s.dev b (ct ++ aeadTag (symKey s.dev b) nonce aad ct) 0 0 0 (symCycles b.inData.length aad.length false false))
  ∧ Serves .aeadDec (isOp 8 0x0B) (fun s b i =>
      let nonce := (ownAux b).take 12
      let aad := (ownAux b).drop 12
      let ct := b.inData.take (b.inData.length - 16)
      TwoPass i s b (aeadTag (symKey s.dev b) nonce aad ct == b.inData.drop (b.inData.length - 16)) (chaCrypt (symKey s.dev b) nonce ct)
        (symCycles b.inData.length aad.length true false))

/-- The code-based services: key generation creates a key pair, encapsulation gives a ciphertext with its secret or keeps the secret as an
object, decapsulation never fails, a public key with bad padding is refused as ENCODING. Completes (exec answers a next state for every
state and operands that meet the clause's conditions): codeKeygen, codeEncaps, codeDecaps, codeEncapsKeep, codeDecapsKeep, codePkLoad,
codePubExport. -/
def Obligations.CodeBasedResults : Prop :=
  (∀ s b z, codeSet (opSet b.e.opcode) = some z → JobReady s.dev b.id (isOp 4 1) b → isHqc (opSet b.e.opcode) = true →
    let set := opSet b.e.opcode
    let r := jobRnd s.dev b (80 + z.sigma)
    let pk := slice r (40 + z.sigma) 40 ++ hqcClear set (fit (z.pk - 40) (Config.prim .hqcKeygenEk [arg1 set, r]))
    KeyMade (.codeKeygen b.id) s s.dev b
      { type := opType b.e.opcode, policy := pPolicy b.e, origin := 0, sec := r.take (40 + z.sigma), pub := pk } pk 0
      (codeKeygenCycles set))
  ∧ (∀ s b z, codeSet (opSet b.e.opcode) = some z → JobReady s.dev b.id (isOp 4 1) b → isHqc (opSet b.e.opcode) = false →
    let set := opSet b.e.opcode
    let r := if pbit b.e 1 then fit 32 (ownAux b) else jobRnd s.dev b 32
    let n := Config.count .mcElieceKeygenSk [arg1 set, r] + 1
    (n ≤ 255 → KeyMade (.codeKeygen b.id) s (if b.outBad.isSome then scrubJob s.dev b else s.dev) b
      { type := opType b.e.opcode, policy := pPolicy b.e, origin := 0
        sec := fit z.sk (Config.prim .mcElieceKeygenSk [arg1 set, r]), pub := [] }
      (fit z.pk (Config.prim .mcElieceKeygenPk [arg1 set, r])) n (n * codeKeygenCycles set))
    ∧ (255 < n → exec (.codeKeygen b.id) s = .next { s with
        dev := finish (scrubJob s.dev b) { b with attempts := 255, cycles := 255 * codeKeygenCycles set, outLen := 0 } stIterationBound 0 }))
  ∧ (∀ (keep : Bool) s b z, codeSet (opSet b.e.opcode) = some z → JobReady s.dev b.id (isOp 4 (if keep then 4 else 2)) b →
    let i : Instr := if keep then .codeEncapsKeep b.id else .codeEncaps b.id
    let set := opSet b.e.opcode
    let pk := if hasKey0 b then codePubOf (jobKey0 s.dev b) else b.inData
    let k := codeEnc set z pk (jobRnd s.dev b (if isHqc set then z.sigma + 16 else 32))
    let cyc := if hasKey0 b || isHqc set then codeEncCycles set else 2400 + streamCycles z.pk
    (hasKey0 b = true ∨ codePkBad set pk = none →
      if keep then
        KeyMade i s s.dev b { type := 0x8140, policy := pPolicy b.e, origin := 1, sec := k.2, pub := [] } k.1 0 cyc
      else JobDone i s s.dev b (k.1 ++ k.2) 0 0 0 cyc)
    ∧ (hasKey0 b = false → ∀ det, codePkBad set pk = some det → JobOver i s s.dev b stEncoding det 0 b.attempts (codePkBadCycles set z.pk)))
  ∧ (∀ (keep : Bool) s b z, codeSet (opSet b.e.opcode) = some z → JobReady s.dev b.id (isOp 4 (if keep then 5 else 3)) b →
    let i : Instr := if keep then .codeDecapsKeep b.id else .codeDecaps b.id
    let set := opSet b.e.opcode
    let k := jobKey0 s.dev b
    let ss := fit z.ss (Config.prim (if isHqc set then .hqcDecaps else .mcElieceDecaps) [arg1 set, secretOf k ++ k.pub, b.inData])
    if keep then
      KeyMade i s s.dev b { type := 0x8140, policy := pPolicy b.e, origin := 1, sec := ss, pub := [] } [] 0 (codeDecCycles set b.order)
    else JobDone i s s.dev b ss 0 0 0 (codeDecCycles set b.order))
  ∧ (∀ s b z, codeSet (opSet b.e.opcode) = some z → JobReady s.dev b.id (isOp 4 6) b →
    let set := opSet b.e.opcode
    (codePkBad set b.inData = none →
      KeyMade (.codePkLoad b.id) s s.dev b
        { type := opType b.e.opcode, policy := pPolicy b.e, origin := 5, sec := [], pub := b.inData } [] 0
        (if isHqc set then hqcDecode set + 400 else 1200 + streamCycles z.pk))
    ∧ ∀ det, codePkBad set b.inData = some det → JobOver (.codePkLoad b.id) s s.dev b stEncoding det 0 b.attempts (codePkBadCycles set z.pk))
  ∧ Serves .codePubExport (isOp 4 7) (fun s b i =>
      let pk := (jobKey0 s.dev b).pub
      JobDone i s s.dev b pk 0 0 0 (if isHqc (opSet b.e.opcode) then 200 else 200 + streamCycles pk.length))

/-- ML-KEM: key generation from the given or drawn d and z, encapsulation to a checked key, decapsulation that never fails, the check of a
public key, and its export. Hybrids: each half keeps its result for the join, the core half with its context saved when it is the first; a
point that the EC half refuses ends the job; once both are there the join combines them. Completes (exec answers a next state for every
state and operands that meet the clause's conditions): hybridHalfDone, kemKeygen, kemEncaps, kemDecaps, kemEncapsKeep, kemDecapsKeep,
ekCheck, kemPubExport. -/
def Obligations.KemResults : Prop :=
  ((∀ s b, JobReady s.dev b.id (isOp 1 1) b → isHybrid (opSet b.e.opcode) = false →
    let set := opSet b.e.opcode
    let k := kemNew set (if pbit b.e 1 then fit 64 (ownAux b) else jobRnd s.dev b 64)
    KeyMade (.kemKeygen b.id) s s.dev b { type := opType b.e.opcode, policy := pPolicy b.e, origin := 0, sec := k.2.1, pub := k.2.2 } k.1 0
      (kemKeygenCycles set b.order + expandExtra 1 set (ekRho k.1)))
  ∧ (∀ (keep : Bool) s b, JobReady s.dev b.id (isOp 1 (if keep then 4 else 2)) b → isHybrid (opSet b.e.opcode) = false →
    let i : Instr := if keep then .kemEncapsKeep b.id else .kemEncaps b.id
    let set := opSet b.e.opcode
    let ek := if hasKey0 b then kemPubOf set (jobKey0 s.dev b) else b.inData
    let k := kemEnc set ek (jobRnd s.dev b 32)
    let cyc := kemEncapsCycles set + expandExtra 1 set (ekRho ek)
    (hasKey0 b = true ∨ ekOk ek = true →
      if keep then KeyMade i s s.dev b { type := 0x8140, policy := pPolicy b.e, origin := 1, sec := k.2, pub := [] } k.1 0 cyc
      else JobDone i s s.dev b (k.1 ++ k.2) 0 0 0 cyc)
    ∧ (hasKey0 b = false → ekOk ek = false → JobOver i s s.dev b stRange 0x0201 0 b.attempts (ekDecode set)))
  ∧ (∀ (keep : Bool) s b, JobReady s.dev b.id (isOp 1 (if keep then 5 else 3)) b → isHybrid (opSet b.e.opcode) = false →
    let i : Instr := if keep then .kemDecapsKeep b.id else .kemDecaps b.id
    let set := opSet b.e.opcode
    let k := jobKey0 s.dev b
    let ss := kemDec set (kemDk set k) b.inData
    let cyc := kemDecapsCycles set b.order + expandExtra 1 set (ekRho (k.pub.take (kemEk set)))
    if keep then KeyMade i s s.dev b { type := 0x8140, policy := pPolicy b.e, origin := 1, sec := ss, pub := [] } [] 0 cyc
    else JobDone i s s.dev b ss 0 0 0 cyc)
  ∧ Serves .ekCheck (isOp 1 6) (fun s b i =>
      (ekOk b.inData = true → JobDone i s s.dev b [] 1 0 0 (ekDecode (opSet b.e.opcode)))
      ∧ (ekOk b.inData = false → JobOver i s s.dev b stRange 0x0201 0 b.attempts (ekDecode (opSet b.e.opcode))))
  ∧ Serves .kemPubExport (isOp 1 7) (fun s b i => JobDone i s s.dev b (kemPubOf (opSet b.e.opcode) (jobKey0 s.dev b)) 0 0 0 200))
  ∧ ((∀ s b, HybridReady s.dev b → b.ecDone = none →
    let i := Instr.hybridHalfDone b.id true
    let set := opSet b.e.opcode
    let op := opOp b.e.opcode
    let cyc := hybEcCycles set op
    let k := hybKey s.dev set
    let stored : Bytes → Prop := fun x => Completes i s fun d' => findJob d' b.id = some { b with ecDone := some x, eng2 := none, cycles2 := cyc }
    let stopped : Dev → U16 → U16 → Nat → Prop := fun d0 st det n =>
      let n1 := if b.coreDone.isSome then b.cycles else halfStopped b
      JobOver i s d0 { b with cycles2 := n } st det b.result b.attempts n1
    (op = 1 → k.2.2.1 = true → stored (k.1 ++ k.2.1))
    ∧ (op = 1 ∨ op = 2 ∨ op = 4 → k.2.2.1 = false → stopped k.2.2.2 stResultCheck 0 cyc)
    ∧ (op = 2 ∨ op = 4 → k.2.2.1 = true →
      let r := hybDh k.2.2.2 set k.1 (hybEncPk s.dev b)
      (∀ ss, r.1 = .ok ss → stored (ss ++ k.2.1))
      ∧ ∀ det whole, r.1 = .error (det, whole) → stopped r.2 stPointInvalid det (if whole then cyc else 400))
    ∧ (op = 3 ∨ op = 5 →
      let r := hybDh s.dev set (slice (secretOf (jobKey0 s.dev b)) 1184 32) (b.inData.drop 1088)
      (∀ ss, r.1 = .ok ss → stored ss)
      ∧ ∀ det whole, r.1 = .error (det, whole) → stopped r.2 stPointInvalid det (if whole then cyc else 400)))
  ∧ (∀ s b, HybridReady s.dev b → b.coreDone = none →
    let i := Instr.hybridHalfDone b.id false
    let op := opOp b.e.opcode
    let waits := b.ecDone.isNone
    let stored : Bytes → Nat → Prop := fun x cyc => Completes i s fun d' => findJob d' b.id = some
      { b with coreDone := some x, coreSaved := waits, cycles := cyc, saveCyc := b.saveCyc + if waits then 48 else 0 }
    (op = 1 →
      let k := kemNew 2 (jobRnd s.dev b 64)
      stored (k.2.1 ++ k.1) (kemKeygenCycles 2 b.order + expandExtra 1 2 (ekRho k.1)))
    ∧ (op = 2 ∨ op = 4 →
      let ek := (if hasKey0 b then kemPubOf (opSet b.e.opcode) (jobKey0 s.dev b) else b.inData).take 1184
      let k := kemEnc 2 ek (jobRnd s.dev b 32)
      (hasKey0 b = true ∨ ekOk ek = true → stored (k.1 ++ k.2) (kemEncapsCycles 2 + expandExtra 1 2 (ekRho ek)))
      ∧ (hasKey0 b = false → ekOk ek = false →
        JobOver i s s.dev { b with cycles2 := if b.ecDone.isSome then b.cycles2 else halfStopped b } stRange 0x0201 0 b.attempts (ekDecode 2)))
    ∧ (op = 3 ∨ op = 5 →
      let k := jobKey0 s.dev b
      stored (kemDec 2 (kemDk 2 k) (b.inData.take 1088)) (kemDecapsCycles 2 b.order + expandExtra 1 2 (ekRho (k.pub.take 1184)))))
  ∧ (∀ s b core ec, JobReady s.dev b.id (isOp 1 1) b → isHybrid (opSet b.e.opcode) = true → b.coreDone = some core → b.ecDone = some ec →
    let ek := core.drop 1184
    KeyMade (.kemKeygen b.id) s s.dev b
      { type := opType b.e.opcode, policy := pPolicy b.e, origin := 0, sec := core.take 1184 ++ ec.take 32
        pub := ek ++ sha3 32 ek ++ ec.drop 32 } (ek ++ ec.drop 32) 0 (b.cycles + 64))
  ∧ ∀ (keep : Bool) s b core ec, isHybrid (opSet b.e.opcode) = true → b.coreDone = some core → b.ecDone = some ec →
    let comb := pbit b.e 0
    let cyc := b.cycles + if comb then 104 else 64
    let key : Instr → Bytes → Bytes → Prop := fun i ss out =>
      if keep then KeyMade i s s.dev b { type := 0x8140, policy := pPolicy b.e, origin := 1, sec := ss, pub := [] } out 0 cyc
      else JobDone i s s.dev b (out ++ ss) 0 0 0 cyc
    (JobReady s.dev b.id (isOp 1 (if keep then 4 else 2)) b →
      key (if keep then .kemEncapsKeep b.id else .kemEncaps b.id)
        (hybSecret comb (core.drop 1088) (ec.take 32) (ec.drop 32) (hybEncPk s.dev b)) (core.take 1088 ++ ec.drop 32))
    ∧ (JobReady s.dev b.id (isOp 1 (if keep then 5 else 3)) b →
      key (if keep then .kemDecapsKeep b.id else .kemDecaps b.id)
        (hybSecret comb core (ec.take 32) (b.inData.drop 1088) (hybPkEc (opSet b.e.opcode) (jobKey0 s.dev b))) []))

/-- ML-DSA and FN-DSA: keys, signatures of the pure, digest and µ forms with their attempts, verification to SIG_INVALID, and the checks of a
given FN-DSA key. Completes (exec answers a next state for every state and operands that meet the clause's conditions): dsaKeygen,
dsaSign, signPh, signMu, dsaVerify, verifyPh, verifyMu, dsaPubExport. -/
def Obligations.LatticeSignatureResults : Prop :=
  (∀ s b z, latSet 2 (opSet b.e.opcode) = some z → JobReady s.dev b.id (isOp 2 1) b →
    let i := Instr.dsaKeygen b.id
    let set := opSet b.e.opcode
    let seed := if pbit b.e 1 then fit 32 (ownAux b) else jobRnd s.dev b 32
    let key : Bytes → Bytes → Nat → Nat → Prop := fun sk pk n cyc =>
      KeyMade i s s.dev b { type := opType b.e.opcode, policy := pPolicy b.e, origin := 0, sec := sk, pub := pk } pk n cyc
    (isFnDsa set = false →
      let k := dsaKeygen set seed
      key k.2.1 k.1 0 (dsaKeygenCycles set b.order + expandExtra 2 set (k.1.take 32) + expandSExtra set b.order k.2.2))
    ∧ (isFnDsa set = true →
      let per := if set = 8 then 3600000 else 11500000
      (∀ n sk pk, fnKeygen set z.sk seed 64 0 = some (n, sk, pk) → key sk pk n (n * per))
      ∧ (fnKeygen set z.sk seed 64 0 = none → JobOver i s s.dev b stIterationBound 0 b.result 64 (64 * per))))
  ∧ (∀ s b z c op form msg len, latSet 2 (opSet b.e.opcode) = some z → (c, op, form, msg, len) ∈ signForms b →
    JobReady s.dev b.id (isOp 2 op) b →
    let set := opSet b.e.opcode
    let k := jobKey0 s.dev b
    let rnd := if isFnDsa set then jobRnd s.dev b 40 else if pbit b.e 0 then zeros 32 else jobRnd s.dev b 32
    let made := dsaJobSig set z.ct form k msg rnd
    let cyc := fun n : Nat => dsaSetup set b.order + n * dsaAttempt set b.order + absorbExtra len
      + if isFnDsa set then 0 else expandExtra 2 set (k.pub.take 32)
    (∀ n sig, made = some (n, sig) → JobDone (c b.id) s s.dev b sig 0 0 n (cyc n))
    ∧ (made = none → JobOver (c b.id) s s.dev b stIterationBound 0 b.result 255 (cyc 255)))
  ∧ (∀ s b z c op form msg len, latSet 2 (opSet b.e.opcode) = some z → (c, op, form, msg, len) ∈ verifyForms b →
    JobReady s.dev b.id (isOp 2 op) b →
    let i := c b.id
    let set := opSet b.e.opcode
    let pk := if hasKey0 b then dsaPubOf (jobKey0 s.dev b) else (ownAux b).take z.pk
    let sig := slice (if hasKey0 b then ownAux b else (ownAux b).drop z.pk) 0 z.ct
    let decode := if set = 8 then 700 else 1300
    let given := isFnDsa set && !hasKey0 b
    (given = true → fnPkHead set pk = false → JobOver i s s.dev b stEncoding 0x0202 0 b.attempts decode)
    ∧ (given = true → fnPkHead set pk = true → fnPkRange set pk = false → JobOver i s s.dev b stRange 0x0202 0 b.attempts decode)
    ∧ (given = false ∨ fnPkHead set pk = true ∧ fnPkRange set pk = true →
      Verdict i s b (if isFnDsa set then fnVerify set pk msg sig
          else if form = 1 then dsaVerifyMu set pk msg sig else dsaVerifyMsg set pk msg sig) stSigInvalid
        (dsaVerifyCycles set + absorbExtra len + if isFnDsa set then 0 else expandExtra 2 set (pk.take 32))))
  ∧ Serves .dsaPubExport (isOp 2 8) (fun s b i => JobDone i s s.dev b (dsaPubOf (jobKey0 s.dev b)) 0 0 0 200)

/-- SLH-DSA: keys, signatures of M′ and verification, pure and digest forms; export of a public key of class 0x3. Completes (exec answers a
next state for every state and operands that meet the clause's conditions): hbsKeygen, hbsSign, hbsSignPh, hbsVerify, hbsVerifyPh,
hbsPubExport. -/
def Obligations.StatelessHashSignatureResults : Prop :=
  (∀ s b, JobReady s.dev b.id (isOp 3 1) b → isSlh (opSet b.e.opcode) = true →
    let set := opSet b.e.opcode
    let n := slhN set
    let r := if pbit b.e 1 then (fit (3 * n) (ownAux b), s.dev) else draw s.dev (3 * n)
    let root := slhRoot set (slice r.1 0 n) (slice r.1 (2 * n) n)
    let pk := slice r.1 (2 * n) n ++ root
    KeyMade (.hbsKeygen b.id) s r.2 b { type := opType b.e.opcode, policy := pPolicy b.e, origin := 0, sec := r.1 ++ root, pub := pk } pk 0
      (slhCycles set).1)
  ∧ (∀ (ph : Bool) s b, JobReady s.dev b.id (isOp 3 (if ph then 3 else 2)) b → (ph = false → isSlh (opSet b.e.opcode) = true) →
    let set := opSet b.e.opcode
    let k := jobKey0 s.dev b
    let m := if ph then mHash (pbits b.e 8 8) (ownAux b) b.inData else mPure (ownAux b) b.inData
    let r := if pbit b.e 0 then (slice k.pub 0 (slhN set), s.dev) else draw s.dev (slhN set)
    JobDone (if ph then .hbsSignPh b.id else .hbsSign b.id) s r.2 b
      (slhSigOf set (secretOf k) m r.1) 0 0 0 ((slhCycles set).2.1 + slhExtra set m.length))
  ∧ (∀ (ph : Bool) s b, JobReady s.dev b.id (isOp 3 (if ph then 6 else 5)) b → (ph = false → isSlh (opSet b.e.opcode) = true) →
    let set := opSet b.e.opcode
    let m := if ph then mHash (pbits b.e 8 8) (verifyCtx b) b.inData else mPure (verifyCtx b) b.inData
    let pk := if hasKey0 b then (jobKey0 s.dev b).pub else (ownAux b).take (2 * slhN set)
    let sig := slice (if hasKey0 b then ownAux b else (ownAux b).drop (2 * slhN set)) 0 (slhSig set)
    Verdict (if ph then .hbsVerifyPh b.id else .hbsVerify b.id) s b (slhSigOk set pk m sig) stSigInvalid
      ((slhCycles set).2.2 + slhExtra set m.length))
  ∧ Serves .hbsPubExport (isOp 3 8) (fun s b i => JobDone i s s.dev b (jobKey0 s.dev b).pub 0 0 0 (unstated b.e))

/-- Stateful signatures: a key's record, seeds and first path cache; a signature takes one index before it looks at its path cache, which must
hold the right trees; verification; the next tree of a level and the whole path cache again. The state store: QUERY, PARK, LIMIT and
DELETE. Completes (exec answers a next state for every state and operands that meet the clause's conditions): hbsKeygen, hbsSign,
hbsVerify, advance, rebuild, ssQuery, park, limit, delete. -/
def Obligations.StatefulSignatureResults : Prop :=
  ((∀ s b, JobReady s.dev b.id (isOp 3 1) b → isSlh (opSet b.e.opcode) = false →
    let i := Instr.hbsKeygen b.id
    (parseBlock (opSet b.e.opcode) b.auxData = none → JobOver i s s.dev b stParamInvalid 0 0 b.attempts (unstated b.e))
    ∧ ∀ k, parseBlock (opSet b.e.opcode) b.auxData = some k →
      let need := ssPkLen k.set (ssLevels k) + pathCacheLen (ssLevels k)
      let seeds := (draw (needSalts s.dev b.owner) (seedLen k)).1
      let root := ssRoot k seeds 0 0
      (b.e.outCap.toNat < need → JobOver i s s.dev b stLength 2 0 b.attempts (unstated b.e))
      ∧ (need ≤ b.e.outCap.toNat → b.outBad ≠ none → exec i s = .next { s with dev := finishOut s.dev b [] 0 0 0 (unstated b.e) })
      ∧ (need ≤ b.e.outCap.toNat → b.outBad = none → Completes i s fun d' => ∃ obj, findJob d' b.id = some
          { b with keep := some obj, mramTb := s.dev.glob.tb, ssNew := some { k with root := root }, part2 := ssPub k seeds root ++ cacheImage k seeds 0
                   cycles := buildCycles k seeds 0 }
        ∧ obj.stateful = true ∧ obj.type = opType b.e.opcode ∧ obj.policy = pPolicy b.e ∧ obj.pub = ssPub k seeds root
        ∧ obj.shareB = xorBytes seeds obj.shareA))
  ∧ (∀ s b, JobReady s.dev b.id (isOp 3 2) b → isSlh (opSet b.e.opcode) = false →
    let i := Instr.hbsSign b.id
    let k := getSs s.dev b.owner (hSlot b.e.key0)
    let ls := ssLevels k
    let bot := bottomLev ls
    let img := b.inData.take (pathCacheLen ls)
    let msg := b.inData.drop (pathCacheLen ls)
    let c := if isLms k.set then draw s.dev bot.n else ([], s.dev)
    (b.taken = none → b.outBad ≠ none → exec i s = .next { s with dev := finishOut s.dev b [] 0 0 0 (unstated b.e) })
    ∧ (b.taken = none → b.outBad = none → ssTake c.2 b.owner b.e.key0 = none →
      JobOver i s (ssCause s.dev 4 (BitVec.ofNat 16 (hSlot b.e.key0))) b stStateExhausted 0 0 b.attempts (unstated b.e))
    ∧ ∀ idx d1 taken, (b.taken = none ∧ b.outBad = none ∧ taken = some idx ∧ ssTake c.2 b.owner b.e.key0 = some (idx, d1))
        ∨ (b.taken = some idx ∧ taken = some idx ∧ d1 = c.2) →
      let b1 := { b with taken := taken, effect := b.effect ||| effStateConsumed }
      let sec := secretOf (jobKey0 d1 b1)
      let path := pathOk k sec (bottomRegion ls img idx) idx
      let rnd := signRandom k sec c.1 idx
      (∀ lv, wrongTree ls img idx = some lv → JobOver i s d1 b1 stTreeNotReady (BitVec.ofNat 16 lv) 0 b.attempts (unstated b.e))
      ∧ (wrongTree ls img idx = none → path = false → JobOver i s d1 b1 stEncoding 0x0302 0 b.attempts (unstated b.e))
      ∧ (wrongTree ls img idx = none → path = true →
        JobDone i s d1 b1 (ssSignature k sec img rnd msg idx) (BitVec.ofNat 32 idx) effStateConsumed 0
          (unitCycles bot (signUnits k.set bot (signedDigits bot (bottomHash k sec rnd msg idx)).sum (msgBlocks k.set bot msg.length)) + 2960)))
  ∧ (∀ s b, JobReady s.dev b.id (isOp 3 5) b → isSlh (opSet b.e.opcode) = false →
    let i := Instr.hbsVerify b.id
    let set := opSet b.e.opcode
    let aux := ownAux b
    let judged := fun (k : SsKey) (pk sig : Bytes) =>
      Verdict i s b (ssSigOk k pk b.inData sig) stSigInvalid (ssVerifyCycles k pk b.inData sig)
    let short := JobOver i s s.dev b stLength 3 0 b.attempts (unstated b.e)
    let sized := fun k : SsKey =>
      let n := ssPkLen set (ssLevels k)
      (aux.length ≠ n + ssSigLen set (ssLevels k) → short)
      ∧ (aux.length = n + ssSigLen set (ssLevels k) → judged k (aux.take n) (aux.drop n))
    (hasKey0 b = true → judged (getSs s.dev b.owner (hSlot b.e.key0)) (jobKey0 s.dev b).pub aux)
    ∧ (hasKey0 b = false → aux.length < pkHead set → short)
    ∧ (hasKey0 b = false → pkHead set ≤ aux.length → pkParams set aux = none → JobOver i s s.dev b stEncoding 0x0301 0 b.attempts (unstated b.e))
    ∧ ∀ k, hasKey0 b = false → pkHead set ≤ aux.length → pkParams set aux = some k →
      let lower := hssTypes (k.levels - 1) (k.types.headD (0, 0)) (aux.drop (ssPkLen set (ssLevels k) + 4))
      (set ≠ 0x11 → sized k)
      ∧ (∀ ts, set = 0x11 → lower = .types ts → sized { k with types := ts })
      ∧ (set = 0x11 → lower = .short → short)
      ∧ (set = 0x11 → lower = .unknown → Verdict i s b false stSigInvalid (unstated b.e)))
  ∧ Serves .advance (fun e => isOp 3 9 e && isStateful (opSet e.opcode)) (fun s b i =>
      let k := getSs s.dev b.owner (hSlot b.e.key0)
      let ls := ssLevels k
      let l := b.e.param.toNat
      let t := treeAt ls l k.next + 1
      let seed := secretOf (jobKey0 s.dev b)
      (k.limit ≤ t * 2 ^ heightFrom ls l → JobOver i s s.dev b stStateExhausted 0 0 b.attempts (unstated b.e))
      ∧ (t * 2 ^ heightFrom ls l < k.limit → t % 2 ^ (ls.getD (l - 1) {}).h = 0 →
        JobOver i s s.dev b stTreeNotReady (BitVec.ofNat 16 (l - 1)) 0 b.attempts (unstated b.e))
      ∧ (t * 2 ^ heightFrom ls l < k.limit → t % 2 ^ (ls.getD (l - 1) {}).h ≠ 0 →
        JobDone i s s.dev b (regionImage k seed l t) (BitVec.ofNat 32 t) 0 0
          (unitCycles (ls.getD l {}) (treeUnits k.set (ls.getD l {})) + headCycles k seed l t)))
  ∧ Serves .rebuild (fun e => isOp 3 0x0A e && isStateful (opSet e.opcode)) (fun s b i =>
      let k := getSs s.dev b.owner (hSlot b.e.key0)
      let seed := secretOf (jobKey0 s.dev b)
      JobDone i s s.dev b (cacheImage k seed k.next) 0 0 0 (buildCycles k seed k.next)))
  ∧ (ServesNone .ssQuery (isCode 0xC001) (fun s b i => JobDone i s s.dev b (ssRecord (getSs s.dev b.owner (hSlot b.e.key0))) 0 0 0 0)
  ∧ ServesNone .park (isCode 0xC002) (fun s b i =>
      let slots := if hasKey0 b then [hSlot b.e.key0]
        else (s.dev.ss.keys.filter fun e => e.1 / 65536 == b.owner).map fun e => e.1 % 65536
      JobDone i s (jCommitted (slots.foldl (fun acc x => parkKey acc b.owner x) (jIntent s.dev b)) b effPersistent) b [] 0 effPersistent 0 0)
  ∧ ServesNone .limit (isCode 0xC003) (fun s b i =>
      let k := getSs s.dev b.owner (hSlot b.e.key0)
      let n := (u64At b.auxData 0).toNat
      (k.limit < n ∨ n < k.next → exec i s = .next { s with dev := finish s.dev b stRange 0x0303 })
      ∧ (k.next ≤ n → n ≤ k.limit →
        let k1 := { k with limit := n, blockEnd := min k.blockEnd n }
        JobDone i s (jCommitted (ssLowEvents (setSs (jIntent s.dev b) b.owner (hSlot b.e.key0) k1) k k1 (hSlot b.e.key0)) b
          effPersistent) b [] 0 effPersistent 0 0))
  ∧ ServesNone .delete (isCode 0xC004) (fun s b i =>
      (keyBusy s.dev b b.e.key0 = true → exec i s = .next s)
      ∧ (keyBusy s.dev b b.e.key0 = false →
        JobDone i s (jCommitted (destroyStateful (jIntent s.dev b) b.owner (hSlot b.e.key0)) b effPersistent) b [] 0 effPersistent 0 0)))

/-- The one-time use of an index: a take gives the key's next index, below its limit, moves the next index on by one within a reserved block,
and leaves every other key's record as it was. -/
def Obligations.IndexUsedOnce : Prop :=
  ∀ d o h i d', mapWf none d.ss.keys = true → ssTake d o h = some (i, d') →
    let k := getSs d o (hSlot h)
    let k' := getSs d' o (hSlot h)
    i = k.next ∧ i < k.limit ∧ k'.next = i + 1 ∧ k'.limit = k.limit ∧ k'.isOpen = true
    ∧ (k.isOpen = true ∧ k.next < k.blockEnd ∧ k'.blockEnd = k.blockEnd
      ∨ ¬ (k.isOpen = true ∧ k.next < k.blockEnd) ∧ i < k'.blockEnd ∧ k'.blockEnd ≤ k.limit)
    ∧ ∀ o1 x1, slotKey o1 x1 ≠ slotKey o (hSlot h) → getSs d' o1 x1 = getSs d o1 x1

/-- Classical keys: key generation on a curve or field and of RSA, the loading of public keys and of curve parameters, and export. Completes
(exec answers a next state for every state and operands that meet the clause's conditions): pkKeygen, pkPubExport, pkLoad, curveLoad. -/
def Obligations.ClassicalKeyResults : Prop :=
  (∀ s b, JobReady s.dev b.id (isOp 5 1) b → isRsa (opSet b.e.opcode) = false →
    let c := jobCurve s.dev b
    let k := pkNew s.dev c (opSet b.e.opcode)
    let cyc := pkKeygenCycles c (opSet b.e.opcode)
    (k.2.2.1 = true → KeyMade (.pkKeygen b.id) s k.2.2.2 b
      { type := opType b.e.opcode, policy := pPolicy b.e, origin := 0, sec := k.1, pub := k.2.1, param := newParam b } k.2.1 0 cyc)
    ∧ (k.2.2.1 = false → exec (.pkKeygen b.id) s = .next { s with dev := resultCheck k.2.2.2 b cyc }))
  ∧ (∀ s b, JobReady s.dev b.id (isOp 5 1) b → isRsa (opSet b.e.opcode) = true →
    let i := Instr.pkKeygen b.id
    let bits := (u16At b.auxData 0).toNat
    let k := bits / 8
    let e := if (u32At b.auxData 4).toNat = 0 then 65537 else (u32At b.auxData 4).toNat
    let sec := 5 * (k / 2)
    let sizes := bits ∈ [2048, 3072, 4096, 6144, 8192] ∧ u16At b.auxData 2 = 0
    let ends := fun d0 : Dev => fun st det => JobOver i s d0 { b with eng := none } st det 0 b.attempts 0
    let fits := sizes ∧ 4 + k ≤ b.e.outCap.toNat
    let cache := granUsed s.dev b.owner + granPriv sec (4 + k) ≤ (getOwn s.dev b.owner).sh.gran.toNat
    let store := b.pkeyRes = 0 ∨ blocksUsed s.dev + persistBlocks sec (4 + k) ≤ 1920
    let badE := e % 2 = 0 ∨ e < 65537
    (¬ sizes → MeRefused i s s.dev b stParamInvalid 0 (unstated b.e))
    ∧ (sizes → b.e.outCap.toNat < 4 + k → ends s.dev stLength 2)
    ∧ (fits → ¬ cache → ends s.dev stKeyCacheFull 0)
    ∧ (fits → cache → ¬ store → ends (ksPfull s.dev) stPersistFull 2)
    ∧ (fits → cache → store → badE → MeRefused i s s.dev b stRange 0x0507 (pkValidCycles {} 0x20 k))
    ∧ (fits → cache → store → ¬ badE →
      let x := rsaSearch (8 * (k / 2)) e 0 4080 16777216 0 s.dev
      let y := match x.1 with
        | some p => rsaSearch (8 * (k / 2)) e p 4080 16777216 x.2.1 x.2.2
        | none => (none, x.2.1, x.2.2)
      let cyc := Config.count .rsaKeygenN [leBytes 2 k, leBytes 4 e, leBytes 4 (y.2.2.glob.drbgCtr - s.dev.glob.drbgCtr), leBytes 2 y.2.1]
      let half := fun x : Nat => beBytes (k / 2) x
      (x.1 = none ∨ y.1 = none → JobOver i s y.2.2 b stIterationBound 0 b.result 255 cyc)
      ∧ ∀ p q, x.1 = some p → y.1 = some q →
        let pk := beBytes 4 e ++ beBytes k (p * q)
        KeyMade i s y.2.2 b
          { type := opType b.e.opcode, policy := pPolicy b.e, origin := 0, pub := pk
            sec := half p ++ half q ++ half (inv0 e (p - 1)) ++ half (inv0 e (q - 1)) ++ half (inv0 q p) } pk (cdiv y.2.1 16) cyc))
  ∧ Serves .pkLoad (isOp 5 0x0B) (fun s b i =>
      let set := opSet b.e.opcode
      let c := jobCurve s.dev b
      (∀ f, pkLoaded c set b.inData = .error f → MeRefused i s s.dev b f.1 f.2 (pkValidCycles c set (b.inData.length - 4)))
      ∧ ∀ pk, pkLoaded c set b.inData = .ok pk →
        KeyMade i s s.dev b { type := opType b.e.opcode, policy := pPolicy b.e, origin := 5, sec := [], pub := pk, param := newParam b } [] 0
          (if isEdwards set || isRsa set then unstated b.e else dhHandleCycles c set))
  ∧ Serves .curveLoad (isOp 5 0x0C) (fun s b i =>
      let c := blockCurve b.auxData
      let n := (b.auxData.length - 8) / 6
      let cyc := listAt [260000, 610000, 1350000, 2300000] (sizeClass c)
      let wrong := 160 ≤ c.pbits ∧ c.pbits ≤ 640 ∧ n ≠ cdiv c.pbits 8
      let p := isPrime c.p 50 s.dev
      let q := isPrime c.n 50 p.2
      let bad := curveFaults b.auxData c p.1 q.1
      (wrong → JobOver i s s.dev { b with eng := none } stLength 3 0 b.attempts 0)
      ∧ (¬ wrong → bad ≠ 0 → MeRefused i s q.2 b stCurveInvalid bad cyc)
      ∧ (¬ wrong → bad = 0 → b.outBad ≠ none → exec i s = .next { s with dev := finish q.2 { b with cycles := cyc } stOk 0 })
      ∧ (¬ wrong → bad = 0 → b.outBad = none →
        let r := createObj q.2 b.owner
          { type := opType b.e.opcode, origin := 5, isParam := true, pub := b.auxData, gran := cdiv (6 * n + 64) 512 + 8 }
        JobDone i s r.2 b [] r.1 effKeyCreated 0 cyc))
  ∧ Serves .pkPubExport (isOp 5 8) (fun s b i => JobDone i s s.dev b (jobKey0 s.dev b).pub 0 0 0 200)

/-- Classical signatures: ECDSA with its attempts, EdDSA, RSA with PSS and v1.5, and their verification with the checks of a given key.
Completes (exec answers a next state for every state and operands that meet the clause's conditions): pkSign, signV15, pkVerify,
verifyV15. -/
def Obligations.ClassicalSignatureResults : Prop :=
  (∀ s b, JobReady s.dev b.id (isOp 5 2) b → isWeier (opSet b.e.opcode) = true →
    let c := jobCurve s.dev b
    let priv := beNat (secretOf (jobKey0 s.dev b))
    let id := pkHash b.e
    let e := ecHashInt c (jobDigest b)
    let det := if pbit b.e 0 then some (detStart (phHash id) (phBlock id) (hashLenOf id) c priv e) else none
    let r := ecdsaLoop c priv e id 255 1 det s.dev
    let cyc := ecSignCycles c (opSet b.e.opcode) + jobHashCost b
      + if pbit b.e 0 then (if sizeClass c = 3 then unstated b.e else listAt [1300, 1900, 2600] (sizeClass c)) else 0
    (r.1 = none → JobOver (.pkSign b.id) s r.2 b stIterationBound 0 b.result 255 cyc)
    ∧ ∀ ok x y n, r.1 = some (ok, x, y, n) →
      (ok = true → JobDone (.pkSign b.id) s r.2 b (beBytes (nLen c) x ++ beBytes (nLen c) y) 0 0 n cyc)
      ∧ (ok = false → exec (.pkSign b.id) s = .next { s with dev := resultCheck r.2 b cyc }))
  ∧ (∀ s b, JobReady s.dev b.id (isOp 5 2) b → isWeier (opSet b.e.opcode) = false → isEdwards (opSet b.e.opcode) = true →
    let big := opSet b.e.opcode == 0x13
    let z := edBlind s.dev big
    let sig := edSign big (pkPh b.e) ((secretOf (jobKey0 s.dev b)).take (if big then 57 else 32)) (ownAux b) b.inData z.1
    let off := (edDecode (edCurve big) (sig.take (if big then 57 else 32))).isNone
    let cyc := ecSignCycles {} (opSet b.e.opcode) + edExtra (opSet b.e.opcode) (b.inData.length + (ownAux b).length) 2
    (off = false → JobDone (.pkSign b.id) s z.2 b sig 0 0 0 cyc)
    ∧ (off = true → exec (.pkSign b.id) s = .next { s with dev := resultCheck z.2 b cyc }))
  ∧ (∀ s b, JobReady s.dev b.id (isOp 5 2) b → isWeier (opSet b.e.opcode) = false → isEdwards (opSet b.e.opcode) = false →
    let r := draw s.dev (pkLen8 b.e)
    RsaSigned (.pkSign b.id) s r.2 b (pssEncode (pkHash b.e) (jobDigest b) r.1 (Nat.log2 (rsaN (jobKey0 s.dev b).pub))))
  ∧ Serves .signV15 (isOp 5 3) (fun s b i =>
      RsaSigned i s s.dev b (v15Encode (phOid (pkHash b.e)) (jobDigest b) (rsaLenOf (jobKey0 s.dev b))))
  ∧ (∀ s b, JobReady s.dev b.id (isOp 5 5) b → isWeier (opSet b.e.opcode) = true →
    let i := Instr.pkVerify b.id
    let c := jobCurve s.dev b
    let set := opSet b.e.opcode
    let sl := sigLen c set 0
    let aux := ownAux b
    let pk := if hasKey0 b then (jobKey0 s.dev b).pub else aux.take (aux.length - sl)
    let sig := aux.drop (aux.length - sl)
    (∀ f, ecDecode c pk = .error f → MeRefused i s s.dev b (ptFault f).1 (ptFault f).2 (pkValidCycles c set 0))
    ∧ ∀ q, ecDecode c pk = .ok q →
      exec i s = .next { s with
        dev := verdict s.dev b (ecdsaOk c q (ecHashInt c (jobDigest b)) (beNat (sig.take (nLen c))) (beNat (sig.drop (nLen c)))) stSigInvalid 0
          (ecVerifyCycles c set + jobHashCost b) })
  ∧ (∀ s b, JobReady s.dev b.id (isOp 5 5) b → isWeier (opSet b.e.opcode) = false → isEdwards (opSet b.e.opcode) = true →
    let i := Instr.pkVerify b.id
    let set := opSet b.e.opcode
    let big := set == 0x13
    let n := if big then 57 else 32
    let pk := (jobPk s.dev b n).1
    let rest := (jobPk s.dev b n).2
    ((edDecode (edCurve big) pk).isNone = true → MeRefused i s s.dev b stPointInvalid 0x0504 (pkValidCycles {} set 0))
    ∧ ((edDecode (edCurve big) pk).isNone = false →
      Verdict i s b (edVerify big (pkPh b.e) pk (rest.drop (2 * n)) b.inData (rest.take (2 * n))) stSigInvalid
        (ecVerifyCycles {} set + edExtra set (b.inData.length + pkLen8 b.e) 1)))
  ∧ (∀ s b, JobReady s.dev b.id (isOp 5 5) b → isWeier (opSet b.e.opcode) = false → isEdwards (opSet b.e.opcode) = false →
    RsaVerified (.pkVerify b.id) s b fun pk m =>
      let bits := Nat.log2 (rsaN pk)
      decide (m < 2 ^ (8 * cdiv bits 8)) && pssOk (pkHash b.e) (jobDigest b) (beBytes (cdiv bits 8) m) (pkLen8 b.e) bits)
  ∧ Serves .verifyV15 (isOp 5 6) (fun s b i =>
      RsaVerified i s b fun pk m => v15Encode (phOid (pkHash b.e)) (jobDigest b) (pk.length - 4) == some (beBytes (pk.length - 4) m))

/-- Key agreement and RSA encryption: the shared secret, given or kept, with the checks of a peer's key and of the result; OAEP and the bare
primitives, a decoding failure always DECRYPT_FAILED at the same CYCLES. Completes (exec answers a next state for every state and operands
that meet the clause's conditions): dh, dhKeep, encrypt, decrypt, privRaw, pubRaw. -/
def Obligations.AgreementAndEncryptionResults : Prop :=
  (∀ (keep : Bool) s b, JobReady s.dev b.id (isOp 5 (if keep then 0x0A else 9)) b →
    let i : Instr := if keep then .dhKeep b.id else .dh b.id
    let set := opSet b.e.opcode
    let c := jobCurve s.dev b
    let byHandle := b.e.key1 != noHandle
    let cyc := if byHandle then dhHandleCycles c set else dhCycles c set
    let r := dhSecret s.dev c set (secretOf (jobKey0 s.dev b)) (if byHandle then (jobKey1 s.dev b).pub else b.inData) (!byHandle)
    (∀ st det, r.1 = .error (st, det, false) → MeRefused i s r.2 b st det (pkValidCycles c set 0))
    ∧ (∀ st det, r.1 = .error (st, det, true) → JobOver i s r.2 b st det 0 b.attempts cyc)
    ∧ ∀ z ok, r.1 = .ok (z, ok) →
      (ok = false ∨ ffOutOk set z = false → exec i s = .next { s with dev := resultCheck r.2 b cyc })
      ∧ (ok = true → ffOutOk set z = true →
        if keep then KeyMade i s r.2 b { type := 0x8140, policy := pPolicy b.e, origin := 1, sec := z, pub := [] } [] 0 cyc
        else JobDone i s r.2 b z 0 0 0 cyc))
  ∧ Serves .encrypt (isOp 5 0x0D) (fun s b i =>
      let n := if hasKey0 b then rsaLenOf (jobKey0 s.dev b) else modkLen (pbits b.e 24 3)
      let pk := (jobPk s.dev b (4 + n)).1
      let label := (jobPk s.dev b (4 + n)).2
      let hl := hashLenOf (pkHash b.e)
      let r := draw s.dev hl
      let em := oaepEncode (pkHash b.e) hl label b.inData r.1 n
      (∀ f, rsaKeyFault pk = some f → MeRefused i s s.dev b f.1 f.2 (pkValidCycles {} 0x20 n))
      ∧ (rsaKeyFault pk = none → em = none → MeRefused i s s.dev b stLength 1 (pkValidCycles {} 0x20 n))
      ∧ ∀ x, rsaKeyFault pk = none → em = some x →
        JobDone i s r.2 b (beBytes n (powMod (beNat x) (rsaE pk) (rsaN pk))) 0 0 0
          (rsaPub n (rsaE pk) + 400 + hashCost (pkHash b.e) label.length))
  ∧ Serves .decrypt (isOp 5 0x0E) (fun s b i =>
      let k := jobKey0 s.dev b
      let n := rsaLenOf k
      let c := beNat b.inData
      let cyc := rsaPriv n + 400 + hashCost (pkHash b.e) (ownAux b).length
      let z := rsaBlind s.dev k.pub
      let m := rsaPrivOp (secretOf k) k.pub n c z.1
      let plain := oaepDecode (pkHash b.e) (hashLenOf (pkHash b.e)) (ownAux b) (beBytes n m)
      (rsaN k.pub ≤ c → MeRefused i s s.dev b stRange 0x0503 (pkValidCycles {} 0x20 n))
      ∧ (c < rsaN k.pub → powMod m (rsaE k.pub) (rsaN k.pub) ≠ c → exec i s = .next { s with dev := resultCheck z.2 b cyc })
      ∧ (c < rsaN k.pub → powMod m (rsaE k.pub) (rsaN k.pub) = c →
        (plain = none → JobOver i s z.2 b stDecryptFailed 0 b.result b.attempts cyc) ∧ ∀ p, plain = some p → JobDone i s z.2 b p 0 0 0 cyc))
  ∧ Serves .privRaw (isOp 5 0x0F) (fun s b i =>
      let k := jobKey0 s.dev b
      let n := rsaLenOf k
      let x := beNat b.inData
      let z := rsaBlind s.dev k.pub
      let y := rsaPrivOp (secretOf k) k.pub n x z.1
      let trivial := x = 0 ∨ x = 1 ∨ x = rsaN k.pub - 1
      (rsaN k.pub ≤ x → MeRefused i s s.dev b stRange 0x0503 (pkValidCycles {} 0x20 n))
      ∧ (x < rsaN k.pub → trivial → MeRefused i s s.dev b stRange 0x0504 (pkValidCycles {} 0x20 n))
      ∧ (x < rsaN k.pub → ¬ trivial → powMod y (rsaE k.pub) (rsaN k.pub) ≠ x →
        exec i s = .next { s with dev := resultCheck z.2 b (rsaPriv n) })
      ∧ (x < rsaN k.pub → ¬ trivial → powMod y (rsaE k.pub) (rsaN k.pub) = x → JobDone i s z.2 b (beBytes n y) 0 0 0 (rsaPriv n)))
  ∧ Serves .pubRaw (isOp 5 0x10) (fun s b i =>
      let n := if hasKey0 b then rsaLenOf (jobKey0 s.dev b) else modkLen (pbits b.e 24 3)
      let pk := (jobPk s.dev b (4 + n)).1
      let x := beNat b.inData
      (rsaN pk ≤ x → MeRefused i s s.dev b stRange 0x0503 (pkValidCycles {} 0x20 n))
      ∧ (∀ f, x < rsaN pk → rsaKeyFault pk = some f → MeRefused i s s.dev b f.1 f.2 (pkValidCycles {} 0x20 n))
      ∧ (x < rsaN pk → rsaKeyFault pk = none →
        JobDone i s s.dev b (beBytes n (powMod x (rsaE pk) (rsaN pk))) 0 0 0 (rsaPub n (rsaE pk))))

/-- Keys: creation, derivation, restriction, destruction, their description, READ_PLAIN, the zeroise of an owner, and the MRAM commit that
makes a persistent key exist. Completes (exec answers a next state for every state and operands that meet the clause's conditions):
mramCommitDone, secretGen, derive, restrict, destroy, info, readPlain, zeroiseOwner. -/
def Obligations.KeyManagementResults : Prop :=
  Serves .secretGen (isCode 0xA001) (fun s b i =>
      let r := draw s.dev (secretSize b.e)
      KeyMade i s r.2 b { type := secretType b.e, policy := pPolicy b.e, origin := 0, sec := r.1, pub := [] } [] 0 300)
  ∧ Serves .derive (isCode 0xA002) (fun s b i =>
      let ll := (u16At b.auxData 0).toNat
      let rest := b.auxData.drop 2
      let key := secretOf (jobKey0 s.dev b)
      let n := secretSize b.e
      (rest.length < ll → JobOver i s s.dev b stLength 3 0 b.attempts (unstated b.e))
      ∧ (ll ≤ rest.length →
        KeyMade i s s.dev b
          { type := secretType b.e, policy := pPolicy b.e, origin := 1, pub := []
            sec := kdf (pbits b.e 14 2) key (rest.take ll) (rest.drop ll) n } [] 0
          (kdfCycles (pbits b.e 14 2) b.auxData.length key.length (rest.take ll).length (rest.drop ll).length n)))
  ∧ Serves .restrict (isCode 0xA008) (fun s b i =>
      let k := jobKey0 s.dev b
      let eff := if k.persist || k.stateful then effPersistent else 0
      (b.outBad ≠ none → exec i s = .next { s with dev := finishOut s.dev b [] 0 0 0 300 })
      ∧ (b.outBad = none →
        JobDone i s (jCommitted (modObj (jIntent s.dev b) b.owner b.e.key0 fun x => { x with policy := pPolicy b.e }) b eff) b [] 0 eff 0 300))
  ∧ Serves .destroy (isCode 0xA009) (fun s b i =>
      let k := jobKey0 s.dev b
      let eff := if k.persist || k.stateful then effPersistent else 0
      let named := k.isParam = true ∧ paramUsed s.dev b.owner b.e.key0 = true
      let gone := if k.stateful then destroyStateful (jIntent s.dev b) b.owner (hSlot b.e.key0) else destroySlot (jIntent s.dev b) b.owner (hSlot b.e.key0)
      (keyBusy s.dev b b.e.key0 = true → exec i s = .next s)
      ∧ (keyBusy s.dev b b.e.key0 = false → b.outBad ≠ none → exec i s = .next { s with dev := finishOut s.dev b [] 0 0 0 300 })
      ∧ (keyBusy s.dev b b.e.key0 = false → b.outBad = none → named → JobOver i s s.dev b stKeyPolicy 0 0 b.attempts 300)
      ∧ (keyBusy s.dev b b.e.key0 = false → b.outBad = none → ¬ named → JobDone i s (jCommitted gone b eff) b [] 0 eff 0 300))
  ∧ Serves .info (isCode 0xA00A) (fun s b i =>
      let k := jobKey0 s.dev b
      JobDone i s s.dev b (le16 k.type ++ le16 k.policy ++ [k.origin, keyFlags k] ++ leBytes 2 k.gran ++ leBytes 4 k.shareA.length
        ++ leBytes 4 k.pub.length ++ le32 k.param ++ le32 k.boot ++ zeros 8) 0 0 0 300)
  ∧ Serves .readPlain (isCode 0xA00B) (fun s b i => JobDone i s s.dev b (secretOf (jobKey0 s.dev b)) 0 0 0 300)
  ∧ Serves .zeroiseOwner (isCode 0xA00C) (fun s b i =>
      let z : SoftZ := { owner := if b.owner = 0 then pbits b.e 24 8 else b.owner, persist := pbit b.e 16, byJob := some b.id }
      (s.dev.ks.zsoft.isSome = true → exec i s = .next s)
      ∧ (s.dev.ks.zsoft = none → b.outBad ≠ none → exec i s = .next { s with dev := finishOut s.dev b [] 0 0 0 300 })
      ∧ (s.dev.ks.zsoft = none → b.outBad = none → exec i s = .next { s with dev := softStart s.dev z }))
  ∧ (∀ s b k, findJob s.dev b.id = some b → b.keep = some k → b.committed = false →
      let r := createObj s.dev b.owner k
      Completes (.mramCommitDone b.id) s fun d' => d'.ks = r.2.ks ∧ findJob d' b.id = some
        { b with committed := true, result := r.1, effect := effKeyCreated ||| effPersistent, granRes := blobGran b, pkeyRes := 0, blkRes := 0
                 ssRes := 0 })

/-- Keys outside the device: blobs of a domain with their checks in order, wrapped export and import in its engine steps, and the unwrap of
the blob that stands for KEY0. Completes (exec answers a next state for every state and operands that meet the clause's conditions):
blobUnwrapDone, blobExport, blobImport, kwExport, kwImport, kemImport, importStepDone. -/
def Obligations.KeyTransportResults : Prop :=
  Serves .blobExport (isCode 0xA003) (fun s b i =>
      let dom := pbits b.e 8 2
      let d := blobSalts s.dev dom b.owner
      let k := jobKey0 d b
      let sec := secretOf k
      let group := secretOf (jobKey1 d b)
      let r := draw d 12
      let head := le32 0x4B425153 ++ [1, BitVec.ofNat 8 dom, if dom = 2 then 0 else d.ks.epoch.setWidth 8,
          if dom = 0 then BitVec.ofNat 8 b.owner else 0] ++ le16 k.type ++ le16 k.policy ++ [k.origin] ++ zeros 3
        ++ leBytes 4 sec.length ++ leBytes 4 k.pub.length ++ r.1 ++ zeros 4 ++ (if dom = 2 then groupId group else zeros 16) ++ zeros 8
      let ks := aesKeys (blobKey d dom b.owner group)
      let ct := gcmCrypt ks r.1 sec
      let cyc := blobCycles sec.length k.pub.length
      (b.outBad ≠ none → exec i s = .next { s with
        dev := finishOut s.dev b [] 0 0 0 (blobCycles (jobKey0 s.dev b).shareA.length (jobKey0 s.dev b).pub.length) })
      ∧ (b.outBad = none →
        JobDone i s (modObj r.2 b.owner b.e.key0 fun x => { x with exported := true }) b (head ++ ct ++ k.pub ++ gcmTag ks r.1 (head ++ k.pub) ct)
          0 0 0 cyc))
  ∧ Serves .blobImport (isCode 0xA004) (fun s b i =>
      let x := b.inData
      let form := blobHeadOk x = true ∧ x.length = 80 + blobSec x + blobPub x
      let group := if b.e.key1 = noHandle then none else some (secretOf (jobKey1 s.dev b))
      let d := blobSalts s.dev (blobDomain x) b.owner
      let cyc := blobCycles (blobSec x) (blobPub x)
      let plain := blobOpen (blobKey d (blobDomain x) b.owner (group.getD [])) x
      let grouped := blobDomain x ≠ 2 ∧ b.e.key1 ≠ noHandle
      (¬ form → exec i s = .next { s with dev := ksRefuse s.dev b stEncoding 0x0A01 })
      ∧ (form → grouped → exec i s = .next { s with dev := ksRefuse s.dev b stParamInvalid 0 })
      ∧ (∀ st det, form → ¬ grouped → newShort s.dev b (blobSec x) (blobPub x) = some (st, det) →
        exec i s = .next { s with dev := ksRefuse (if st = stPersistFull then ksPfull s.dev else s.dev) b st det })
      ∧ (form → ¬ grouped → newShort s.dev b (blobSec x) (blobPub x) = none →
        (∀ st det, blobFault s.dev b.owner x group = some (st, det) → exec i s = .next { s with dev := ksRefuse s.dev b st det })
        ∧ (blobFault s.dev b.owner x group = none →
          (plain = none → JobOver i s d b stTagInvalid 0 0 b.attempts cyc)
          ∧ ∀ sec pub, plain = some (sec, pub) →
            KeyMade i s d b { type := u16At x 8, policy := u16At x 0xA, origin := byteAt x 0xC, sec := sec, pub := pub } [] 0 cyc)))
  ∧ Serves .kwExport (isCode 0xA005) (fun s b i =>
      let w := kwpWrap (secretOf (jobKey1 s.dev b)) (kwPlain (jobKey0 s.dev b))
      let cyc := kwpCycles (w.length / 8)
      (b.outBad ≠ none → exec i s = .next { s with dev := finishOut s.dev b [] 0 0 0 cyc })
      ∧ (b.outBad = none → JobDone i s (modObj s.dev b.owner b.e.key0 fun x => { x with exported := true }) b w 0 0 0 cyc))
  ∧ (∀ (kem : Bool) s b, JobReady s.dev b.id (isCode (if kem then 0xA007 else 0xA006)) b → b.step = 0 → opOp b.e.opcode = (if kem then 7 else 6) →
      let i : Instr := if kem then .kemImport b.id else .kwImport b.id
      let refused := fun st det => exec i s = .next { s with dev := ksRefuse (if st = stPersistFull then ksPfull s.dev else s.dev) b st det }
      let kind := importCheckKind (impType b)
      let barred := kind = 1 ∧ holdsKind s.dev b.owner .py = false ∨ kind = 3 ∧ holdsKind s.dev b.owner .me = false
      let n := impSizes s.dev b
      (descOk b = false → refused stParamInvalid 0)
      ∧ (descOk b = true → barred → refused stNotPermitted 0)
      ∧ (∀ st det, descOk b = true → ¬ barred → newShort s.dev b n.1 n.2 = some (st, det) → refused st det)
      ∧ (descOk b = true → ¬ barred → newShort s.dev b n.1 n.2 = none →
        let b1 := { b with granRes := if n.1 = 0 then granPub n.2 else granPriv n.1 n.2
                           blkRes := if b.pkeyRes = 0 then 0 else persistBlocks n.1 n.2 }
        let d := modJob s.dev b.id fun _ => b1
        let k := jobKey1 d b1
        let core := opSet k.type
        let ss := kemDec core (kemDk core k) (b.inData.take (kemCt core))
        if kem then ImportGoesOn i s d b1 4 1 (kemDecapsCycles core b.order) (kmac256 ss b.auxData 32 (ascii "SQ-KEMWRAP"))
        else Unwrapped i s d b1 (secretOf k) b.inData))
  ∧ Serves .importStepDone (fun e => isCode 0xA006 e || isCode 0xA007 e) (fun s b i =>
      (b.step = 1 → Unwrapped i s s.dev b b.part2 (b.inData.drop (kemTypeCt (jobKey1 s.dev b).type)))
      ∧ (2 ≤ b.step →
        (∀ st det, importFault (impType b) b.part2 = some (st, det) → JobOver i s s.dev b st det 0 b.attempts (unstated b.e))
        ∧ (importFault (impType b) b.part2 = none → Imported i s s.dev b b.part2 (unstated b.e))))
  ∧ (∀ s b sp, findJob s.dev b.id = some b → b.phase = .unwrapping → b.auxData.length = b.e.auxLen.toNat →
      opSpec s.dev b.owner b.e = some sp →
      let i := Instr.blobUnwrapDone b.id
      let h := b.auxData
      let gran := blobObjGran h
      let ends := fun st det => exec i s = .next { s with dev := finish s.dev b st det }
      let form := 64 ≤ h.length ∧ blobHeadOk h = true ∧ 80 + blobSec h + blobPub h ≤ h.length
      let runs := resolveStopped s.dev b.owner = false ∧ (kindCells .sy).any (engineFree s.dev b) = true
      let d := blobSalts s.dev (blobDomain h) b.owner
      (late s.dev b.e = true → ends stDeadline 0)
      ∧ (late s.dev b.e = false → ¬ form → ends stEncoding 0x0A01)
      ∧ (late s.dev b.e = false → form → granShort s.dev b.owner gran = true → ends stKeyCacheFull 0)
      ∧ (late s.dev b.e = false → form → granShort s.dev b.owner gran = false →
        (blobDomain h = 2 → ends stKeyPolicy 0)
        ∧ (∀ st det, blobDomain h ≠ 2 → blobFault s.dev b.owner h none = some (st, det) → ends st det)
        ∧ (blobDomain h ≠ 2 → blobFault s.dev b.owner h none = none →
          (¬ runs → exec i s = .next s)
          ∧ (runs → s.dev.rng.state = .error → ends stRngUnavailable 0)
          ∧ (runs → s.dev.rng.state ≠ .error → s.dev.rng.hold.isSome = true → exec i s = .next s)
          ∧ (runs → s.dev.rng.state ≠ .error → s.dev.rng.hold = none →
            (blobOpen (blobKey d (blobDomain h) b.owner []) h = none → exec i s = .next { s with dev := finish d b stTagInvalid 0 })
            ∧ ∀ sec pub, blobOpen (blobKey d (blobDomain h) b.owner []) h = some (sec, pub) →
              let r := draw d sec.length
              let obj : KObj :=
                { type := u16At h 8, policy := u16At h 0xA, origin := byteAt h 0xC, shareA := r.1, shareB := xorBytes sec r.1, pub := pub, gran := gran }
              let d2 := modJob r.2 b.id fun t => { t with granRes := gran }
              let rest := (h.drop (80 + blobSec h + blobPub h)).length
              (∀ st det, refuseLate d2 b.owner b.e sp (some obj) rest = some (st, det) →
                exec i s = .next { s with dev := finish (if st = stPersistFull then ksPfull d2 else d2) b st det })
              ∧ (refuseLate d2 b.owner b.e sp (some obj) rest = none →
                Completes i s fun d' => findJob d' b.id = some
                  { b with phase := .waiting, blob := some obj, granRes := gran + sp.gran, pkeyRes := if sp.persist then 1 else 0
                           blkRes := if sp.persist then sp.blocks else 0 })))))

/-- Random numbers and statements: GENERATE with its holds, the known-answer jobs, RAW reads of a source, device reports and key statements.
Completes (exec answers a next state for every state and operands that meet the clause's conditions): generate, condKat, drbgKat, rngRaw,
report, keyAttest. -/
def Obligations.RandomAndAttestResults : Prop :=
  Serves .generate (isCode 0x9001) (fun s b i =>
      let n := pbits b.e 0 24
      let pr := pbit b.e 31
      let reqs := cdiv n 65536
      let held := s.dev.rng.hold.isSome
      (pr = true → b.step = 0 → held = true → exec i s = .next s)
      ∧ (pr = true → b.step = 0 → held = false → Completes i s fun d' =>
        findJob d' b.id = some { b with step := 1 }
        ∧ d'.rng.hold = some { kind := .prReseed, src := nextHealthy s.dev s.dev.rng.seedSrc.toNat, since := s.dev.glob.tb })
      ∧ (pr = false ∨ b.step ≠ 0 → held = true ∧ (pr = true ∨ 1 < reqs) → exec i s = .next s)
      ∧ (pr = false ∨ b.step ≠ 0 → ¬ (held = true ∧ (pr = true ∨ 1 < reqs)) →
        let r := drbgRequests reqs (drbgNow s.dev) b.auxData n
        JobDone i s { s.dev with rng.drbg := r.2, rng.requests := s.dev.rng.requests + reqs } b r.1 0 0 0
          (64 + cdiv n 8 + 40 * reqs + if pr then b.cycles else 0)))
  ∧ Serves .condKat (isCode 0x9002) (fun s b i => JobDone i s s.dev b (leBytes 32 (condRun 0 (sampleBits b.inData)).toNat) 0 0 0 1040)
  ∧ Serves .drbgKat (isCode 0x9003) (fun s b i =>
      let first := b.step = 0 ∧ s.dev.rng.state ≠ .error
      (s.dev.rng.hold.isSome = true → exec i s = .next s)
      ∧ (s.dev.rng.hold = none → first → Completes i s fun d' => findJob d' b.id = some { b with step := 1 }
        ∧ d'.rng.hold = some { kind := .kat, byJob := true, since := s.dev.glob.tb } ∧ d'.rng.kat = true)
      ∧ (s.dev.rng.hold = none → ¬ first → JobDone i s s.dev b (drbgKat b.e b.inData) 0 0 0 (min 8000 (unstated b.e))))
  ∧ Serves .rngRaw (isCode 0x9004) (fun s b i =>
      let n := pbits b.e 0 2
      let supplies := match s.dev.rng.hold with | some h => h.src == some n && holdSeeds h | none => false
      (b.step = 0 → supplies = true → exec i s = .next s)
      ∧ (b.step = 0 → supplies = false → Completes i s fun d' => findJob d' b.id = some { b with step := 1, result := 0, part2 := [] }
        ∧ getSrc d' n = { getSrc s.dev n with former := (getSrc s.dev n).state, state := .raw, pool := [], blockBad := true })
      ∧ (b.step ≠ 0 → b.part2.length < b.e.outCap.toNat → exec i s = .next s)
      ∧ (b.step ≠ 0 → b.e.outCap.toNat ≤ b.part2.length →
        JobDone i s (rawLeave s.dev n) b (b.part2.take b.e.outCap.toNat) b.result 0 0 (8 * b.e.outCap.toNat + unstated b.e)))
  ∧ Serves .report (isCode 0xB001) (fun s b i => Attested i s b "SQ-ATTEST-RPT" (reportBody s.dev b))
  ∧ Serves .keyAttest (isCode 0xB003) (fun s b i => Attested i s b "SQ-ATTEST-KEY" (keyStatement s.dev b))

/-- Queues: doorbells and push windows, the messages of coalescing, and the writes of queue registers that act. Completes (exec answers a next
state for every state and operands that meet the clause's conditions): sqDoorbell, cqHeadDoorbell, doorbell64, pushWindowWrite,
coalTimerExpiry, sqEnable, sqDisable, cqEnable, cqDisable, sqHeadWrite, cqPtrWrite. -/
def Obligations.QueueCommandResults : Prop :=
  (∀ s f j q t, SqOpen s.dev f j q → isReady s.dev = true →
    let i := Instr.sqDoorbell f j t
    let r := getSq s.dev q
    let bad := sqSize r < (t - r.head).toNat ∨ sqSize r < (t - r.tail).toNat
    let whole := r.push = true ∧ t = r.tail + 1 ∧ byteAt (fit 64 r.window) 3 = genOf r.log2 r.tail
    (r.en = false ∨ r.stopped = true ∨ t = r.tail → Gives i s s.dev)
    ∧ (r.en = true → r.stopped = false → t ≠ r.tail →
      (bad → Gives i s (stopSq s.dev q erDoorbellRange t))
      ∧ (¬ bad → whole → Gives i s (setSq s.dev q { r with tail := t, captured := r.captured ++ [(r.tail, fit 64 r.window)] }))
      ∧ (¬ bad → ¬ whole → Gives i s (setSq s.dev q { r with tail := t }))))
  ∧ (∀ s f j c h, CqOpen s.dev f j c → isReady s.dev = true →
    let i := Instr.cqHeadDoorbell f j h
    let r := getCq s.dev c
    (r.en = false → Gives i s s.dev)
    ∧ (r.en = true → (h - r.head).toNat ≤ (r.tail - r.head).toNat → Gives i s (passDone (setCq s.dev c { r with head := h }) c r.head h)))
  ∧ (∀ s f j t h d1, Gives (.sqDoorbell f j t) s d1 →
    Gives (.doorbell64 f j t h) s (cqDoorbellGo f j h d1))
  ∧ (∀ s f j q off bs, SqOpen s.dev f j q → isReady s.dev = true →
    let i := Instr.pushWindowWrite f j off bs
    let r := getSq s.dev q
    let form := 4 ≤ bs.length ∧ bs.length ≤ 64 ∧ bs.length % 4 = 0 ∧ off % 4 = 0 ∧ off + bs.length ≤ 64
    (¬ form → Gives i s (badAccess s.dev f ((if f = 0 then 0x10000 else 0x3000) + 64 * j + off)))
    ∧ (form → r.en = true → r.stopped = false → r.draining = false →
      Gives i s (setSq s.dev q { r with window := splice (fit 64 r.window) off bs }))
    ∧ (form → r.en = false ∨ r.stopped = true ∨ r.draining = true → Gives i s s.dev))
  ∧ (∀ s c, (getCq s.dev c).timer = true → 0 < (getCq s.dev c).unsig → Gives (.coalTimerExpiry c) s (cqMessage s.dev c))
  ∧ (∀ s f j q v, SqOpen s.dev f j q →
    let r := getSq s.dev q
    let held := (s.dev.jobs.live.filter fun b => b.sq == q).foldl (fun acc b => abortJob acc b stDiscarded)
    (r.en = false → isReady s.dev = false ∨ enableBarred s.dev = true → Gives (.sqEnable f j v) s (setSq s.dev q (sqFields r v)))
    ∧ (r.en = false → isReady s.dev = true → enableBarred s.dev = false →
      (∀ e, sqEnableRefusal s.dev f q (sqFields r v) = some e → Gives (.sqEnable f j v) s (setSq s.dev q { sqFields r v with err := e }))
      ∧ (sqEnableRefusal s.dev f q (sqFields r v) = none →
        Gives (.sqEnable f j v) s (setSq s.dev q { sqFields r v with en := true, stopped := false, err := 0, errIndex := 0 })))
    ∧ (r.en = true →
      let d1 := setSq s.dev q
        { r with en := false, window := [], captured := [], reading := none, held := none, fenceWait := false, slotWait := false
                 creditWait := false, jrnWait := false, draining := r.outstanding != 0 }
      (v.getLsbD 2 = false → Gives (.sqDisable f j v) s d1) ∧ (v.getLsbD 2 = true → Gives (.sqDisable f j v) s (held d1)))
    ∧ (r.en = false → v.getLsbD 2 = false → Gives (.sqDisable f j v) s (setSq s.dev q (sqFields r v)))
    ∧ ∀ n, Gives (.sqHeadWrite f j n) s (setSq s.dev q (if r.en then r else { r with head := n, tail := n })))
  ∧ ∀ s f j c v, CqOpen s.dev f j c →
    let r := getCq s.dev c
    let x := cqFields r v
    (r.en = false → isReady s.dev = false ∨ enableBarred s.dev = true → Gives (.cqEnable f j v) s (setCq s.dev c x))
    ∧ (r.en = false → isReady s.dev = true → enableBarred s.dev = false →
      (x.log2.toNat < 6 ∨ 16 < x.log2.toNat → Gives (.cqEnable f j v) s (setCq s.dev c { x with enErr := 1 }))
      ∧ (6 ≤ x.log2.toNat → x.log2.toNat ≤ 16 → vecCount s.dev f ≤ x.vector.toNat → Gives (.cqEnable f j v) s (setCq s.dev c { x with enErr := 2 }))
      ∧ (6 ≤ x.log2.toNat → x.log2.toNat ≤ 16 → x.vector.toNat < vecCount s.dev f →
        Gives (.cqEnable f j v) s (setCq s.dev c { x with en := true, enErr := 0 })))
    ∧ (r.en = true → cqBusy s.dev c = false → r.reserved = 0 → Gives (.cqDisable f j v) s (setCq s.dev c { r with en := false }))
    ∧ ∀ n, Gives (.cqPtrWrite f j n) s (setCq s.dev c (if r.en then r else { r with head := n, tail := n }))

/-- A CQ head write is out of range when (new head − current head) exceeds (tail − current head), modulo 2^32. The device ignores such a write
and sets HEAD_ERR; the CQ, its SQs and everything else go on as they were. It comes alone or in the upper half of a 64-bit doorbell, after
the tail in its lower half has had its effect. -/
def Obligations.CqHeadOutOfRange : Prop :=
  (∀ s f j c h, CqOpen s.dev f j c → isReady s.dev = true →
    let r := getCq s.dev c
    r.en = true → (r.tail - r.head).toNat < (h - r.head).toNat → Gives (.cqHeadDoorbell f j h) s (setCq s.dev c { r with headErr := true }))
  ∧ ∀ s f j c t h d1, Gives (.sqDoorbell f j t) s d1 → CqOpen d1 f j c → isReady d1 = true →
    let r := getCq d1 c
    r.en = true → (r.tail - r.head).toNat < (h - r.head).toNat → Gives (.doorbell64 f j t h) s (setCq d1 c { r with headErr := true })

/-- A write of EN = 0 to an enabled CQ is refused while any SQ bound to it is enabled or draining, or while completions are reserved: EN stays
1, DIS_REFUSED is set, and nothing else changes. -/
def Obligations.CqDisableRefused : Prop :=
  ∀ s f j c v, CqOpen s.dev f j c →
    let r := getCq s.dev c
    r.en = true →
    ((∃ q x o, (q, x) ∈ s.dev.sqs ∧ (x.en = true ∨ x.draining = true) ∧ sqOwner s.dev q = some o ∧ boundCq s.dev o x = c) ∨ r.reserved ≠ 0) →
    Gives (.cqDisable f j v) s (setCq s.dev c { r with disRefused := true })

/-- A job's way to its engine: the read of its entry, the checks of the entry in their order, its placement on the lowest free engine, and the
arrival of its data and lists, or a failure that ends it. Completes (exec answers a next state for every state and operands that meet the
clause's conditions): entryFetch, entryReadDone, jobPlace, dmaReadCompletion, dmaReadTimeout, outputListChecked. -/
def Obligations.JobFlowResults : Prop :=
  (∀ s o q, isReady s.dev = true → fetchStopped s.dev o = false → nextSq s.dev o = some q →
    let i := Instr.entryFetch o
    let d1 := modOwn s.dev o fun w => { w with rrSq := q }
    let r := getSq d1 q
    let read := hostRead (setSq d1 q { r with reading := some r.head }) o
      ((r.base.setWidth 64 <<< 12) + BitVec.ofNat 64 (64 * (r.head.toNat % sqSize r))) 64 (.entry q r.head)
    let turn := slotTurn d1 (boundCq d1 o r) q
    let credit := sqHome d1 q ≠ 0 ∨ (ownJobs d1 o).length < (getOwn d1 o).sh.credit.toNat
    (∀ bytes, r.held = some bytes → Gives i s (takeEntry d1 q bytes))
    ∧ (r.held = none → turn = false → Gives i s (setSq d1 q { r with slotWait := true }))
    ∧ (r.held = none → turn = true → ¬ credit → Gives i s (setSq d1 q { r with creditWait := true }))
    ∧ (r.held = none → turn = true → credit →
      let mine := r.captured.find? fun x => x.1 == r.head
      (mine = none → Gives i s read)
      ∧ ∀ n bytes, mine = some (n, bytes) → Gives i s (takeEntry d1 q bytes)))
  ∧ (∀ s q n, (getSq s.dev q).reading = some n →
    let r := getSq s.dev q
    let fails := fun kind => stopSq (readFailed (readOver s.dev (ofSq q)) ((sqOwner s.dev q).getD 0) kind 0
      ((r.base.setWidth 64 <<< 12) + BitVec.ofNat 64 (64 * (n.toNat % sqSize r)))) q erFetchError n
    (∀ bytes, Gives (.entryReadDone q (.data bytes)) s (takeEntry (readDone s.dev (ofSq q) 64) q (fit 64 bytes)))
    ∧ (∀ x, x = .ur ∨ x = .ca ∨ x = .poison → Gives (.entryReadDone q x) s (fails (failKind x)))
    ∧ Gives (.dmaReadTimeout (.entry q)) s (fails 3))
  ∧ (∀ d q bytes o, sqOwner d q = some o →
    let r := getSq d q
    let e := parseSqe bytes
    let c := boundCq d o r
    let waits := fun x : Sq => setSq d q x
    let rest := r.captured.filter fun x => x.1 != r.head
    let kept : Sq := { r with reading := none, captured := rest, held := some bytes, fenceWait := false, slotWait := false, creditWait := false
                              jrnWait := false }
    (∀ f, formFault r.log2 r.head e = some f → takeEntry d q bytes = stopSq d q f r.head)
    ∧ (formFault r.log2 r.head e = none →
      let fenced := isFence e = true ∧ d.jobs.live.any (fun b => b.sq == q) = true
      (fenced → takeEntry d q bytes = waits { kept with fenceWait := true })
      ∧ (¬ fenced → slotTurn d c q = false → takeEntry d q bytes = waits { kept with slotWait := true })
      ∧ (¬ fenced → slotTurn d c q = true → goesHome d q e = false →
        ((getOwn d o).sh.credit.toNat ≤ (ownJobs d o).length → takeEntry d q bytes = waits { kept with creditWait := true })
        ∧ ((ownJobs d o).length < (getOwn d o).sh.credit.toNat → keyWaits d o e = true → takeEntry d q bytes = waits { kept with jrnWait := true })
        ∧ ((ownJobs d o).length < (getOwn d o).sh.credit.toNat → keyWaits d o e = false → journalled d o e = false →
          takeEntry d q bytes = startJob (modCq (setSq d q { kept with head := r.head + 1, outstanding := r.outstanding + 1, held := none }) c
            fun x => { x with reserved := x.reserved + 1, lastSq := q }) o q c r.head e none))))
  ∧ (∀ s b sp c c2 d1 d2, findJob s.dev b.id = some b → b.phase = .waiting → b.nextKind = 0 → opSpec s.dev b.owner b.e = some sp →
    resolveStopped s.dev b.owner = false → needsRandom s.dev b.owner b.e = false ∨ s.dev.rng.state ≠ .error ∧ s.dev.rng.hold = none →
    outranked s.dev b = false → keyWaits s.dev b.owner b.e = false →
    let d := preempt s.dev b sp.kind
    findJob d b.id = some b → pickEngine d b sp.kind = some c → secondCell d b sp.kind2 = some c2 →
    keyBarred d b.owner sp.key0 b.e.key0 = false → keyBarred d b.owner sp.key1 b.e.key1 = false →
    resolveField d b.owner sp.key0 b.e.key0 = some d1 → resolveField d1 b.owner sp.key1 b.e.key1 = some d2 →
    (late s.dev b.e = true → Gives (.jobPlace b.id) s (finish s.dev b stDeadline 0))
    ∧ (late s.dev b.e = false → Completes (.jobPlace b.id) s fun d' => findJob d' b.id = some
        { b with phase := .placed, eng := some c, eng2 := c2, part := takeParts d b c, placeNo := d.jobs.nextPlace, placeTb := d.glob.tb
                 ver := jobVer d b c }))
  ∧ (∀ s b bs, findJob s.dev b.id = some b → b.remote = false →
    (Completes (.dmaReadCompletion b.id .input (.data bs)) s fun d' =>
      findJob d' b.id = some (inputIn s.dev { b with inData := (b.inData ++ bs).take b.e.inLen.toNat }))
    ∧ (Completes (.dmaReadCompletion b.id .aux (.data bs)) s fun d' =>
      findJob d' b.id = some (inputIn s.dev { b with auxData := (b.auxData ++ bs).take b.e.auxLen.toNat }))
    ∧ (∀ side r, r = .ur ∨ r = .ca ∨ r = .poison →
      Gives (.dmaReadCompletion b.id side r) s (jobReadFailed s.dev b side (failKind r)))
    ∧ ∀ side, Gives (.dmaReadTimeout (.job b.id side)) s (jobReadFailed s.dev b side 3))
  ∧ (∀ s b segs, findJob s.dev b.id = some b → b.outSegs = some segs →
    let i := Instr.outputListChecked b.id
    let scan := segScan segs 0 b.e.outCap.toNat
    let judged := fun b1 : Job => (b.fail = none → Completes i s fun d' => findJob d' b.id = some b1)
      ∧ ∀ n st det, b.fail = some (n, st, det) → Gives i s (failNow s.dev b1 st det)
    (scan = .more → Gives i s s.dev)
    ∧ (∀ n, scan = .bad n → judged { b with outBad := some (BitVec.ofNat 16 n) })
    ∧ (∀ n seg, scan = .done n → segWraps (segs.take n) = some seg →
      Gives i s (failNow (wrapFailed s.dev b seg.addr) { b with outSegs := none } stDmaError 2))
    ∧ (∀ n, scan = .done n → segWraps (segs.take n) = none → judged { b with outSegs := some (segs.take n), outOk := true }))

/-- The Dealer: the decision point and the boundaries of tricks and rounds, duty cooling, and the commit, check and discard of a table.
Completes (exec answers a next state for every state and operands that meet the clause's conditions): trickBoundary, decisionPoint,
roundBoundary, dutyCoolTimer, dlrCommit, tableCheckDone, dlrDiscard, dealPlan. -/
def Obligations.DealerResults : Prop :=
  (∀ s, isReady s.dev = true → s.dev.dlr.window = false →
    Completes .decisionPoint s fun d' => d'.dlr.window = true ∧ d'.dlr.trick = s.dev.dlr.trick ∧ d'.dlr.occ = s.dev.dlr.occ
      ∧ d'.dlr.occNext = (Vector.range 32).map fun c => (occupant s.dev (nextTable s.dev) (nextTrick s.dev) c).1)
  ∧ (∀ s, isReady s.dev = true → s.dev.dlr.window = true →
    let next := fun d : Dev => boundaryDeadlines (turnover { d with dlr.trick := d.dlr.trick + 1, dlr.occ := d.dlr.occNext, dlr.window := false })
    (s.dev.dlr.trick ≠ 63 → Gives .trickBoundary s (next s.dev) ∧ Gives .roundBoundary s s.dev)
    ∧ (s.dev.dlr.trick = 63 → Gives .trickBoundary s (next (roundGo s.dev)) ∧ Gives .roundBoundary s (next (roundGo s.dev))))
  ∧ (∀ s t0, s.dev.tmon.coolTb = some t0 →
    let due := isReady s.dev = true ∧ s.dev.dlr.level ≠ 0 ∧ 100000000 ≤ (s.dev.glob.tb - t0).toNat
    (due → Gives .dutyCoolTimer s { s.dev with dlr.fallPend := true, tmon.coolTb := some s.dev.glob.tb }) ∧ (¬ due → Gives .dutyCoolTimer s s.dev))
  ∧ (∀ s, isReady s.dev = true → barOk s.dev 0 = true →
    (s.dev.dlr.pending = false → s.dev.dlr.chkBusy = false → Gives .dlrCommit s { s.dev with dlr.chkBusy := true })
    ∧ (s.dev.dlr.pending = true ∨ s.dev.dlr.chkBusy = true → Gives .dlrCommit s s.dev)
    ∧ (s.dev.dlr.pending = true →
      let d1 := { s.dev with dlr.pending := false, dlr.late := false, dlr.planFor := none }
      (∀ o, s.dev.dlr.planFor = some o →
        Gives .dlrDiscard s (modOwn d1 o fun w => { w with sh := { w.sh with py := 0, me := 0, sy := 0, tree := 0 } }))
      ∧ (s.dev.dlr.planFor = none →
        (∀ o n, s.dev.vfm.apply = some (o, n) → Gives .dlrDiscard s (vfmEnd { d1 with vfm.apply := none } 5 0 o))
        ∧ (s.dev.vfm.apply = none → Gives .dlrDiscard s d1))))
  ∧ (∀ s, isReady s.dev = true → s.dev.dlr.src = false → s.dev.dlr.pending = false → s.dev.dlr.chkBusy = false →
    (∀ t, planTable s.dev = .ok t → Gives .dealPlan s { s.dev with dlr.stg := t, dlr.chkBusy := true })
    ∧ ∀ n, planTable s.dev = .error n → s.dev.vfm.enabling = none → s.dev.vfm.apply = none →
      Gives .dealPlan s { s.dev with dlr.chkCode := 9, dlr.chkStage := BitVec.ofNat 3 n, dlr.chkTrick := 0x3F, dlr.chkCell := 0 })
  ∧ ∀ s, s.dev.dlr.chkBusy = true →
    let fails := fun code t k => { s.dev with dlr.chkBusy := false, dlr.chkCode := BitVec.ofNat 8 code, dlr.chkStage := 0
                                              dlr.chkTrick := BitVec.ofNat 6 t, dlr.chkCell := BitVec.ofNat 5 k }
    let last := s.dev.dlr.trick = 63 ∨ s.dev.dlr.trick = 62 ∧ s.dev.dlr.window = true
    let good := { s.dev with dlr.chkBusy := false, dlr.chkCode := 0, dlr.chkStage := 0, dlr.chkTrick := 0, dlr.chkCell := 0
                             dlr.pending := true, dlr.late := decide last, dlr.planFor := s.dev.vfm.enabling }
    (∀ code t k, checkTable s.dev s.dev.dlr.stg = some (code, t, k) →
      (s.dev.dlr.src = true ∨ s.dev.vfm.enabling = none ∧ s.dev.vfm.apply = none → Gives .tableCheckDone s (fails code t k))
      ∧ (∀ o, s.dev.dlr.src = false → s.dev.vfm.enabling = some o →
        Gives .tableCheckDone s (vfmEnd { fails code t k with vfm.enabling := none } 5 0 o))
      ∧ ∀ o n, s.dev.dlr.src = false → s.dev.vfm.enabling = none → s.dev.vfm.apply = some (o, n) →
        Gives .tableCheckDone s (vfmEnd { fails code t k with vfm.apply := none } 5 0 o))
    ∧ (checkTable s.dev s.dev.dlr.stg = none →
      (s.dev.vfm.enabling = none → Gives .tableCheckDone s good)
      ∧ ∀ o, s.dev.vfm.enabling = some o → Gives .tableCheckDone s (vfActivate good o s.dev.vfm.stg))

/-- The VF manager: the staging window, ENABLE, APPLY and REMOVE with their refusals in order, the resets of a VF, and VF Enable. Completes
(exec answers a next state for every state and operands that meet the clause's conditions): vfFlr, vfResetDone, vfEnableSet,
vfEnableClear, vfmSelWrite, enable, apply, remove. -/
def Obligations.VfManagerResults : Prop :=
  (∀ s, ctlServed s.dev = true → s.dev.vfm.busy = false →
    (∀ o, Gives (.vfmSelWrite o) s { s.dev with vfm.sel := BitVec.ofNat 8 o, vfm.stg := sharesOf s.dev (o % 256) })
    ∧ (isReady s.dev = false → Gives .enable s { s.dev with vfm.op := 1, vfm.purge := false }
      ∧ Gives .apply s { s.dev with vfm.op := 2, vfm.purge := false } ∧ ∀ p, Gives (.remove p) s { s.dev with vfm.op := 3, vfm.purge := p }))
  ∧ (∀ s, VfmReady s.dev → vfmNode s.dev = none →
    let o := s.dev.vfm.sel.toNat
    let d1 := { s.dev with vfm.op := 1, vfm.purge := false }
    let g := d1.vfm.stg
    (∀ r, enableFault d1 o g = some r → Gives .enable s (vfmEnd d1 r 0 o))
    ∧ (enableFault d1 o g = none → s.dev.dlr.src = true → Gives .enable s (vfActivate { d1 with vfm.busy := true } o g))
    ∧ (enableFault d1 o g = none → s.dev.dlr.src = false → Gives .enable s (plan { d1 with vfm.busy := true, vfm.enabling := some o })))
  ∧ (∀ s, VfmReady s.dev → vfmNode s.dev = none →
    let o := s.dev.vfm.sel.toNat
    let d1 := { s.dev with vfm.op := 2, vfm.purge := false }
    let g := d1.vfm.stg
    let d2 := modOwn d1 o fun w => { w with sh := { w.sh with py := g.py, me := g.me, sy := g.sy, tree := g.tree } }
    (∀ r, applyFault d1 o g = some r → Gives .apply s (vfmEnd d1 r 0 o))
    ∧ (applyFault d1 o g = none → s.dev.dlr.src = true →
      Gives .apply s (vfmEnd { d2 with vfm.credLater := (d2.vfm.credLater.filter fun e => e.1 != o) ++ [(o, g.credit)] } 0 0 o))
    ∧ (applyFault d1 o g = none → s.dev.dlr.src = false → Gives .apply s (plan { d1 with vfm.busy := true, vfm.apply := some (o, g) })))
  ∧ (∀ s purge, VfmReady s.dev → vfmNode s.dev = none →
    let o := s.dev.vfm.sel.toNat
    let d1 := { s.dev with vfm.op := 3, vfm.purge := purge }
    let i := Instr.remove purge
    (o = 0 ∨ ownerThere d1 o = false → Gives i s (vfmEnd d1 3 0 o))
    ∧ (o ≠ 0 → ownerThere d1 o = true →
      (purge = false → vfHolds d1 o = true → Gives i s (vfmEnd d1 6 0 o))
      ∧ (purge = true ∨ vfHolds d1 o = false →
        ((getOwn d1 o).state = .resetting → Gives i s { d1 with vfm.busy := true, vfm.removeQ := d1.vfm.removeQ ++ [(o, purge)] })
        ∧ ((getOwn d1 o).state ≠ .resetting → Gives i s (removeStart { d1 with vfm.busy := true } o purge)))))
  ∧ (∀ s n, VfmReady s.dev → vfmNode s.dev = some n →
    Gives .enable s (vfmRemote { s.dev with vfm.op := 1, vfm.purge := false } n s.dev.vfm.sel.toNat 1 false)
    ∧ Gives .apply s (vfmRemote { s.dev with vfm.op := 2, vfm.purge := false } n s.dev.vfm.sel.toNat 2 false)
    ∧ ∀ p, Gives (.remove p) s (vfmRemote { s.dev with vfm.op := 3, vfm.purge := p } n s.dev.vfm.sel.toNat 3 p))
  ∧ (∀ s f, s.dev.glob.hardZ.isSome = true → Gives (.vfFlr f) s { s.dev with glob.heldResets := s.dev.glob.heldResets ++ [.vfFlr f] })
  ∧ (∀ s f, f ≠ 0 → s.dev.glob.hardZ = none → pciOnly s.dev = true → ownerThere s.dev f = true → Gives (.vfFlr f) s (flrFn s.dev f))
  ∧ (∀ s f, f ≠ 0 → isReady s.dev = true → ownerThere s.dev f = true →
    ((getOwn s.dev f).state = .active → Gives (.vfFlr f) s (modOwn (flrFn (vfResetStart s.dev f .resetting) f) f fun w =>
        { w with vEn := false, vShare := false, vStrand := false, vecReg := 0 }))
    ∧ ((getOwn s.dev f).state = .disabled → Gives (.vfFlr f) s (flrFn s.dev f)))
  ∧ (∀ s f, f ≠ 0 → abandonDue s.dev f = false →
    let d := recHist s.dev 0x503 (s.dev.glob.tb - (getOwn s.dev f).rstTb).toNat
    ((getOwn s.dev f).state = .resetting →
      Gives (.vfResetDone f) s (removeNext (vfmCause (modOwn d f fun w => { w with state := .active }) 4 f)))
    ∧ ((getOwn s.dev f).state = .removing →
      let d1 := vfGone d f (removing s.dev f && s.dev.vfm.purge)
      Gives (.vfResetDone f) s (removeNext (if removing s.dev f then vfmEnd d1 0 4 f else vfmCause d1 4 f))))
  ∧ (∀ s n, s.dev.glob.st ≠ .bedrock → s.dev.hif.vfEn = false → n ≤ 255 →
    Gives (.vfEnableSet n) s { s.dev with hif.numVfs := BitVec.ofNat 9 n, hif.vfEn := true })
  ∧ ∀ s, s.dev.hif.vfEn = true → s.dev.vfm.enabling = none →
    let d0 := { s.dev with hif.vfEn := false }
    (isReady d0 = false → Gives .vfEnableClear s d0)
    ∧ (isReady d0 = true → Gives .vfEnableClear s ((liveOwners d0).foldl (fun acc o =>
        if o = 0 ∨ (getOwn acc o).state = .disabled ∨ (getOwn acc o).state = .removing then acc else removeReset acc o false) d0))

/-- Random sources: the health tests and trims of a source, its blocks, the holds of the DRBG and what ends them, known-answer tests,
recalibration and retries. Completes (exec answers a next state for every state and operands that meet the clause's conditions):
flintTrimStep, rctFailure, aptFailure, conditionerBlock, reseedDue, rngHoldEnd, reserveRefill, inlineKat, rngKat, rngRecal, recalDone,
sourceRetry. -/
def Obligations.RandomSourceResults : Prop :=
  (∀ s n latch ones (hl : latch < 16), n < 4 →
    let i := Instr.flintTrimStep n latch ones
    let x := getSrc s.dev n
    let frozen := match rawJob s.dev n with | some b => pbit b.e 2 | none => false
    let far := 2048 + 40 < ones ∨ ones + 40 < 2048
    let up := Config.test .trimUp [] == decide (ones < 2048)
    let t := x.trims[latch]
    (x.state = .off ∨ frozen = true ∨ ¬ far → Gives i s s.dev)
    ∧ (x.state ≠ .off → frozen = false → far →
      ((up = true ∧ t = 127 ∨ up = false ∧ t = 0) → Gives i s (srcFail s.dev n .trim))
      ∧ (¬ (up = true ∧ t = 127 ∨ up = false ∧ t = 0) → Completes i s fun d' =>
        getSrc d' n = { x with trims := x.trims.set latch (if up then t + 1 else t - 1) })))
  ∧ (∀ s n, Gives (.rctFailure n) s (srcFail s.dev n .rct) ∧ Gives (.aptFailure n) s (srcFail s.dev n .apt))
  ∧ (∀ s n samples, n < 4 → (getSrc s.dev n).state ≠ .off → samples.length = 128 →
    let x := getSrc s.dev n
    let bits := sampleBits samples
    let r := condRun x.r bits
    let run := rctRun (x.lastBit, x.run, false) bits
    let bad := x.blockBad || run.2.2 || aptBad bits
    let c := windowCause x bits
    (c ≠ .none → Gives (.conditionerBlock n samples) s (srcFail (condBlock n samples s.dev) n c))
    ∧ (c = .none → Completes (.conditionerBlock n samples) s fun d' => getSrc d' n =
      { x with r := r, lastBit := run.1, run := run.2.1, blockBad := false
               pool := if x.state = .healthy ∧ bad = false ∧ x.pool.length < 4 then x.pool ++ [r] else x.pool
               ones := (x.ones ++ [(bits.filter id).length]).drop (x.ones.length - 3) }))
  ∧ (∀ s, s.dev.rng.state = .ok → s.dev.rng.hold = none →
    let due := 2 ^ 20 ≤ s.dev.rng.requests ∨ 100000000 ≤ (s.dev.glob.tb - s.dev.rng.seedTb).toNat
    let kat := holdStart { s.dev with rng.katTb := s.dev.glob.tb } { kind := .kat }
    (due → Gives .reseedDue s (holdStart s.dev { kind := .reseed, src := nextHealthy s.dev s.dev.rng.seedSrc.toNat }))
    ∧ (¬ due → Gives .reseedDue s s.dev)
    ∧ (s.dev.rng.katInt.toNat * secNs ≤ (s.dev.glob.tb - s.dev.rng.katTb).toNat → Gives .inlineKat s kat)
    ∧ ((s.dev.glob.tb - s.dev.rng.katTb).toNat < s.dev.rng.katInt.toNat * secNs → Gives .inlineKat s s.dev)
    ∧ (barOk s.dev 0 = true → Gives .rngKat s kat)
    ∧ Gives .reserveRefill s { s.dev with rng.reserves := true, rng.requests := s.dev.rng.requests + 1 })
  ∧ (∀ s ok h, s.dev.rng.hold = some h →
    let kat := (h.kind = .kat ∨ h.kind = .switchInKat) ∧ h.byJob = false
    let d1 := rngCause (holdRecord { s.dev with rng.hold := none, rng.kat := false, rng.katDead := true } h) 0x20
    let ends := fun d : Dev => Gives (.rngHoldEnd ok) s (if d.rng.hold.isSome then d else
      (d.jobs.live.filter fun b => (isCode 0x9001 b.e || isCode 0x9003 b.e) && b.phase == .placed && b.step == 1).foldl (fun acc b =>
        modJob acc b.id fun x => { x with step := 2, cycles := nsCycles cellRng (s.dev.glob.tb - h.since).toNat }) d)
    (kat → ok = false → ends (if s.dev.rng.state = .error then d1 else rngError d1))
    ∧ (¬ kat ∨ ok = true →
      (holdSeeds h = false → ends (holdRecord { s.dev with
        rng.hold := none, rng.kat := false, rng.state := if s.dev.rng.state = .hold then .ok else s.dev.rng.state } h))
      ∧ ∀ n, holdSeeds h = true → h.src = some n →
        ((getSrc s.dev n).pool.length < 3 → ends s.dev)
        ∧ (3 ≤ (getSrc s.dev n).pool.length →
          let d2 := recalWaiting (holdRecord
            (rngSeedFrom { s.dev with rng.hold := none, rng.kat := false, rng.state := .ok, rng.reserves := true } n h.recover) h)
          ends (if h.recover then rngCause (amber d2 .rngRecover .rng []) 0x04 else d2))))
  ∧ (∀ s n, barOk s.dev 0 = true → n < 4 →
    let x := getSrc s.dev n
    let refused := recalRuns s.dev = true ∨ x.state = .dead ∨ x.state = .raw ∨ (healthySrcs s.dev).any (· != n) = false
    let supplies := match s.dev.rng.hold with | some h => h.src == some n && holdSeeds h | none => false
    (refused → Gives (.rngRecal n) s (rngCause s.dev 0x10))
    ∧ (¬ refused → Completes (.rngRecal n) s fun d' => getSrc d' n =
        if supplies = true ∧ x.state = .healthy then { x with pfRecal := true } else { x with state := .recal, pool := [], pfRecal := true }))
  ∧ (∀ s n trims (hn : n < 4), (getSrc s.dev n).state = .recal ∨ (getSrc s.dev n).state = .startup →
    let t : Vector (BitVec 7) 16 := Vector.ofFn fun k => BitVec.ofNat 7 (trims.getD k.val 64)
    let e := modSrc s.dev n fun x => { x with trims := t }
    let d1 := if (getSrc s.dev n).state = .recal then { e with rng.mramTrims := e.rng.mramTrims.set n (some t) } else s.dev
    Gives (.recalDone n true trims) s (srcHealthy d1 n)
    ∧ ((getSrc s.dev n).pfRecal = true →
      Gives (.recalDone n false trims) s (errorCheck (srcCount d1 n .startup (s.dev.rng.seedSrc.toNat == n))))
    ∧ ((getSrc s.dev n).pfRecal = false →
      Gives (.recalDone n false trims) s (errorCheck (modSrc d1 n fun x =>
        { x with state := .retired, cause := .startup, retryAt := some (s.dev.glob.tb + BitVec.ofNat 64 secNs) }))))
  ∧ ∀ s n t, n < 4 → recalRuns s.dev = false → (getSrc s.dev n).state = .retired → (getSrc s.dev n).retryAt = some t → t ≤ s.dev.glob.tb →
    (∀ k, k < n → (getSrc s.dev k).state ≠ .retired ∨ ∀ u, (getSrc s.dev k).retryAt = some u → s.dev.glob.tb < u) →
    Completes (.sourceRetry n) s fun d' => getSrc d' n = { getSrc s.dev n with state := .recal, pool := [] }

/-- Resets by pin, clock, supply, link and command: what each one does to the device, and that one which comes during a hard zeroise waits.
Completes (exec answers a next state for every state and operands that meet the clause's conditions): porNAssert, porNRelease,
bedrockBrownout, perstNAssert, perstNRelease, selftestTempWait, hotReset, pfFlr, softReset, refclkStable, vddBrReturn. -/
def Obligations.ResetResults : Prop :=
  (∀ s, let d1 : Dev := { s.dev with glob.perstAsserted := true }
    s.dev.glob.perstAsserted = false →
      (s.dev.glob.hardZ = none → Gives .perstNAssert s (tryStart {} (toBedrock (causeSet d1 1))))
      ∧ (s.dev.glob.hardZ.isSome = true → Gives .perstNAssert s { d1 with glob.heldResets := d1.glob.heldResets ++ [.perst] }))
  ∧ (∀ s, Gives .porNAssert s (porReset { s.dev with glob.porAsserted := true }))
  ∧ (∀ s, Completes .bedrockBrownout s fun d' => d'.glob.strapFab = s.dev.glob.strapFab ∧ d'.glob.strapSmb = s.dev.glob.strapSmb
      ∧ InBedrock d' ∧ d'.glob.tb = 0 ∧ d'.glob.rstCause = 1)
  ∧ (∀ env d, (Held d → tryStart env d = d) ∧ (¬ Held d → tryStart env d = started env d))
  ∧ (∀ d, InBedrock (toBedrock d) ∧ InBedrock (porReset d) ∧ (porReset d).glob.rstCause = 1 ∧ (porReset d).glob.tb = 0)
  ∧ (∀ s fab smb env, s.dev.glob.porAsserted = true →
      let d1 : Dev := { s.dev with glob.porAsserted := false, glob.strapFab := fab, glob.strapSmb := smb, glob.node := fab.toNat, glob.armed := true
                                   glob.devId := s.dev.otp.devId, glob.lcCode := lcState s.dev.otp
                                   bdr.fault := s.dev.bdr.fault ||| (s.dev.bdr.badBanks.setWidth 9 <<< 4) }
      (Held d1 → Gives (.porNRelease fab smb env) s d1) ∧ (¬ Held d1 → Gives (.porNRelease fab smb env) s (started env d1)))
  ∧ (∀ s env, s.dev.glob.vddBr = false →
      let d1 : Dev := { s.dev with glob.vddBr := true, glob.armed := !s.dev.glob.porAsserted, glob.devId := s.dev.otp.devId
                                   glob.lcCode := lcState s.dev.otp
                                   bdr.fault := s.dev.bdr.fault ||| (s.dev.bdr.badBanks.setWidth 9 <<< 4) }
      (Held d1 → Gives (.vddBrReturn env) s d1) ∧ (¬ Held d1 → Gives (.vddBrReturn env) s (started env d1)))
  ∧ (∀ s env, s.dev.glob.perstAsserted = true →
      let d1 : Dev := { s.dev with glob.perstAsserted := false }
      (Held d1 ∨ s.dev.glob.hardZ.isSome = true → Gives (.perstNRelease env) s d1)
      ∧ (¬ Held d1 → s.dev.glob.hardZ = none → Gives (.perstNRelease env) s (started env d1)))
  ∧ (∀ s env, s.dev.glob.refclk = false →
      let d1 : Dev := { s.dev with glob.refclk := true }
      (Held d1 ∨ s.dev.glob.hardZ.isSome = true ∨ s.dev.glob.st ≠ .bedrock → Gives (.refclkStable env) s d1)
      ∧ (¬ Held d1 → s.dev.glob.hardZ = none → s.dev.glob.st = .bedrock → Gives (.refclkStable env) s (started env d1)))
  ∧ (∀ s, s.dev.glob.st ≠ .bedrock →
      (∀ env, (s.dev.glob.hardZ = none → Gives (.hotReset env) s (hotReset env (causeSet s.dev 2)))
        ∧ (s.dev.glob.hardZ.isSome = true → Gives (.hotReset env) s { s.dev with glob.heldResets := s.dev.glob.heldResets ++ [.hot] }))
      ∧ (s.dev.glob.hardZ = none → Gives .pfFlr s (pfFlr (causeSet s.dev 3)))
      ∧ (s.dev.glob.hardZ.isSome = true → Gives .pfFlr s { s.dev with glob.heldResets := s.dev.glob.heldResets ++ [.pfFlr] }))
  ∧ ∀ s env, s.dev.glob.hardZ = none →
      (softServed s.dev = true → Gives (.softReset 0xA5C3 env) s (softReset env (causeSet s.dev 4)))
      ∧ (∀ key, softServed s.dev = false ∨ key ≠ 0xA5C3 → Gives (.softReset key env) s s.dev)
      ∧ (s.dev.glob.st = .safe → s.dev.glob.safeCause = 8 → Gives (.selftestTempWait env) s (softReset env (causeSet s.dev 4)))

/-- The detectors, the sensors, the SerDes rail and the test access port. Completes (exec answers a next state for every state and operands
that meet the clause's conditions): jtagHoldInstr, jtagTestLogicReset, bypass, idcode, samplePreload, jtagDebug, detectorEvent,
serdesRailLoss, sensorRead. -/
def Obligations.DetectorAndTestResults : Prop :=
  (∀ s id lost env, DetectorArmed s.dev id →
    let i := Instr.detectorEvent id 0 lost env
    let told := fun r : Byte => freeze (bdrCause (amber (countDet id { s.dev with glob.issuing := false
                                                                                  glob.refclk := s.dev.glob.refclk && !(lost && id == 4) })
      .glitch (.bedrock id) [BitVec.ofNat 8 id, 0, r]) 0x2) 1
    (s.dev.glob.hardZ.isSome = true → Gives i s (told 2))
    ∧ (s.dev.glob.hardZ = none → detZeroises s.dev id = false ∨ s.dev.glob.st = .scrapped →
      Gives i s (let d1 := causeSet (told (if detZeroises s.dev id then 1 else 0)) (detCause id)
                 tryStart env { toBedrock d1 with bdr.resets := satInc d1.bdr.resets }))
    ∧ (s.dev.glob.hardZ = none → detZeroises s.dev id = true → s.dev.glob.st ≠ .scrapped →
      Gives i s (let d1 := hardStart 3 (BitVec.ofNat 8 id) (told 1)
                 { d1 with glob.heldResets := d1.glob.heldResets ++ [.bedrock (detCause id)] })))
  ∧ (∀ s tj rails, s.dev.glob.porAsserted = false → s.dev.glob.vddBr = true →
      Completes (.sensorRead tj rails) s fun d' =>
        d'.tmon.tj = Vector.ofFn (fun i => tj.getD i.val (s.dev.tmon.tj.toList.getD i.val 0))
        ∧ d'.tmon.rails = Vector.ofFn (fun i => rails.getD i.val (s.dev.tmon.rails.toList.getD i.val 0))
        ∧ d'.tmon.minTj = min s.dev.tmon.minTj (hotTj d') ∧ d'.tmon.maxTj = max s.dev.tmon.maxTj (hotTj d')
        ∧ d'.otp = s.dev.otp ∧ d'.jobs = s.dev.jobs ∧ d'.ks = s.dev.ks)
  ∧ (∀ s env,
      let d1 := serdesDown s.dev
      (d1.glob.st = .bedrock ∨ d1.hif.linkUp = false → Gives (.serdesRailLoss env) s d1)
      ∧ (d1.glob.st ≠ .bedrock → d1.hif.linkUp = true → d1.glob.hardZ = none →
        Gives (.serdesRailLoss env) s (hotReset env (causeSet (linkOff d1) 2))))
  ∧ (∀ s k, s.dev.glob.jtagHold = false →
      let d1 : Dev := { jtagLoad (match k with | .extest => .extest | .clamp => .clamp | .highz => .highz) 0 s.dev with glob.jtagHold := true }
      (s.dev.glob.st = .bedrock → Gives (.jtagHoldInstr k) s d1)
      ∧ (s.dev.glob.st ≠ .bedrock → s.dev.glob.hardZ = none → Gives (.jtagHoldInstr k) s (tryStart {} (toBedrock d1)))
      ∧ (s.dev.glob.st ≠ .bedrock → s.dev.glob.hardZ.isSome = true →
        Gives (.jtagHoldInstr k) s { d1 with glob.heldResets := d1.glob.heldResets ++ [.hold] }))
  ∧ (∀ s env,
      let d1 := jtagLoad .idcode 0xB481678B s.dev
      let d2 : Dev := { d1 with glob.jtagHold := false }
      (s.dev.glob.jtagHold = false → Gives (.jtagTestLogicReset env) s d1)
      ∧ (s.dev.glob.jtagHold = true → s.dev.glob.hardZ.isSome = true ∨ Held d2 → Gives (.jtagTestLogicReset env) s d2)
      ∧ (s.dev.glob.jtagHold = true → s.dev.glob.hardZ = none → ¬ Held d2 → Gives (.jtagTestLogicReset env) s (started env d2)))
  ∧ (∀ s, Gives .bypass s { s.dev with jtag := { insn := .bypass, dr := 0 } }
    ∧ Gives .samplePreload s { s.dev with jtag := { insn := .samplePreload, dr := 0 } }
    ∧ Gives .idcode s { s.dev with jtag := { insn := .idcode, dr := 0xB481678B }, hif.out := s.dev.hif.out ++ [.jtag (le32 0xB481678B)] }
    ∧ (s.dev.glob.lcCode = 5 ∨ s.dev.glob.lcCode = 0xFF → Gives .jtagDebug s { s.dev with jtag := { insn := .bypass, dr := 0 } })
    ∧ (s.dev.glob.lcCode ≠ 5 → s.dev.glob.lcCode ≠ 0xFF → Gives .jtagDebug s { s.dev with jtag := { insn := .debug, dr := 0 } }))

/-- Zeroise: a hard one by pin, tamper input or command, its end, and the soft one. Completes (exec answers a next state for every state and
operands that meet the clause's conditions): softZeroise, zeroiseSoft, hardZeroise, zeroiseNAssert, tamper, zeroise. -/
def Obligations.ZeroiseResults : Prop :=
  (∀ (s : State) t x, s.dev.glob.st ≠ .scrapped → s.dev.glob.hardZ = none →
    (hardStart t x s.dev).glob.hardZ = some { trigger := t, detail := x } ∧ (hardStart t x s.dev).glob.zmark = true
    ∧ (hardStart t x s.dev).ks.salts = [] ∧ (hardStart t x s.dev).ks.zsalt = none ∧ (hardStart t x s.dev).ks.wiped = true
    ∧ (hardStart t x s.dev).sqs = [] ∧ (hardStart t x s.dev).cqs = [])
  ∧ (∀ s, Gives .zeroiseNAssert s (hardStart 1 0 s.dev))
  ∧ (∀ s n, n < 4 →
      let told := fun x : Byte => amber s.dev .tamper (.bedrock 0) [BitVec.ofNat 8 n, x]
      (s.dev.ks.zpol.getLsbD n = true → Gives (.tamper n) s (hardStart 2 (BitVec.ofNat 8 n) (told 1)))
      ∧ (s.dev.ks.zpol.getLsbD n = false → Gives (.tamper n) s (told 0)))
  ∧ (∀ (s : State) (v : U32), barOk s.dev 0 = true →
      let valid := v >>> 16 = 0x5A3C ∧ v.getLsbD 1 = true ∧ s.dev.ks.zpol.getLsbD 5 = true ∧ s.dev.ks.zsoft = none
      (isReady s.dev = true ∨ s.dev.glob.st = .safe → valid → Gives (.hardZeroise v) s (hardStart 5 0 s.dev))
      ∧ (¬ valid → Gives (.hardZeroise v) s s.dev))
  ∧ (∀ s env z, s.dev.glob.hardZ = some z →
      let d1 := amber (wipeMemories s.dev) .zeroise (.bedrock 0) [z.trigger, z.detail]
      let d2 := setState { d1 with glob.hardZ := none, glob.zmark := false, glob.heldResets := [], glob.safeCause := 0
                                   bdr.alert := true, bdr.alertHold := true } .zeroised
      Gives (.zeroise env) s (doResets env s.dev.glob.heldResets d2)
      ∧ (s.dev.glob.heldResets = [] → Completes (.zeroise env) s fun d' =>
          d'.glob.st = .zeroised ∧ d'.glob.hardZ = none ∧ d'.glob.zmark = false ∧ d'.io = []
          ∧ d'.cores = Vector.replicate 16 {} ∧ d'.mes = Vector.replicate 8 {} ∧ d'.tss = Vector.replicate 4 {}
          ∧ d'.ks.idMldsa = [] ∧ d'.ks.idP384 = []))
  ∧ (∀ (s : State) (v : U32), isReady s.dev = true → barOk s.dev 0 = true → s.dev.ks.zsoft = none →
      (v >>> 16 = 0x5A3C → v.getLsbD 0 = true →
        Gives (.softZeroise v) s (softStart s.dev { all := v.getLsbD 2, owner := (v >>> 8).toNat % 256, persist := v.getLsbD 3 }))
      ∧ (v >>> 16 ≠ 0x5A3C ∨ v.getLsbD 0 = false → Gives (.softZeroise v) s s.dev))
  ∧ (∀ d z, d.ks.zsoft = some z → d.jobs.live.any (softHits z) = false → z.byJob = none →
      let objs := softObjs d z
      let d1 := objs.foldl (fun acc e =>
        if e.2.stateful then zeroStateful acc (e.1 / 65536) (e.1 % 65536) else destroySlot acc (e.1 / 65536) (e.1 % 65536)) d
      let d2 := if z.persist then softSalts d1 z else d1
      let who : Byte := if z.all then 0xFF else BitVec.ofNat 8 z.owner
      (softFinish d).ks.zsoft = none ∧ (softFinish d).ks.zdone = true ∧ (softFinish d).ks.zowner = who
      ∧ Reports { d2 with ks.zsoft := none, ks.zowner := who, ks.zdone := true } (softFinish d))
  ∧ ∀ s z, s.dev.ks.zsoft = some z → s.dev.jobs.live.any (softHits z) = false → z.byJob = none → softInReset s.dev = false →
      let d1 := softFinish s.dev
      (∀ o, d1.ks.purge = some o → Gives .zeroiseSoft s (grantNext (removeReset { d1 with ks.purge := none } o true)))
      ∧ (d1.ks.purge = none → Gives .zeroiseSoft s (grantNext (removeNext d1)))

/-- The life cycle: challenges, tokens, debug grants, and a debugger's halts and steps. Completes (exec answers a next state for every state
and operands that meet the clause's conditions): challenge, challengeExpiry, submit, revoke, debugGrantExpiry, debugHalt, debugStep. -/
def Obligations.LifeCycleResults : Prop :=
  (∀ s, lcOpen s.dev = true →
    let drbgUp := s.dev.rng.state = .ok ∨ s.dev.rng.state = .hold
    (s.dev.glob.st = .held ∨ ¬ drbgUp → Gives .challenge s (lcEnd s.dev 1 lrState))
    ∧ (s.dev.glob.st ≠ .held → drbgUp → Gives .challenge s
        (lcEnd { (draw s.dev 32).2 with lc.chal := some ((draw s.dev 32).1, (draw s.dev 32).2.glob.tb) } 1 lrOk)))
  ∧ (∀ s c t, s.dev.lc.chal = some (c, t) →
    (600000000000 ≤ (s.dev.glob.tb - t).toNat → Gives .challengeExpiry s { s.dev with lc.chal := none })
    ∧ ((s.dev.glob.tb - t).toNat < 600000000000 → Gives .challengeExpiry s s.dev))
  ∧ (∀ s env, lcOpen s.dev = true →
    let t := readToken s.dev.lc.token
    let d1 : Dev := { s.dev with lc.chal := none }
    (∀ r, tokenFault s.dev t = some r → Gives (.submit env) s (lcDenied d1 r t.signer))
    ∧ (tokenFault s.dev t = none → t.kind = 1 →
      ((List.range 4).find? (fun x => (lcSlot s.dev.otp x).intent == 0) = none ∨ env.otpFail.contains 0 = true →
        Gives (.submit env) s (lcDenied d1 lrOtp t.signer))
      ∧ ∀ n, (List.range 4).find? (fun x => (lcSlot s.dev.otp x).intent == 0) = some n → env.otpFail.contains 0 = false →
        Gives (.submit env) s (takeReset env .soft (amber (lcEnd (modLcSlot (endGrant d1) n fun x => { x with intent := x.intent ||| intentBit t.target })
          2 lrOk) .lcStart .supv [BitVec.ofNat 8 n, BitVec.ofNat 8 t.target])))
    ∧ (tokenFault s.dev t = none → t.kind ≠ 1 → Gives (.submit env) s
      (grantStart { scope := t.scope.setWidth 6, signer := BitVec.ofNat 2 t.signer, until' := BitVec.ofNat 64 (t.secs * 1000000000) } env
        (lcEnd d1 2 lrOk))))
  ∧ (∀ d t, let code := d.glob.lcCode.toNat
    (tokenOk t = false → tokenFault d t = some lrFormat)
    ∧ (tokenOk t = true → isReady d = true → d.lc.grant = none →
      (t.devId ≠ devIdBytes d → tokenFault d t = some lrDevice)
      ∧ (t.devId = devIdBytes d →
        (d.lc.chal = none → tokenFault d t = some lrChallenge)
        ∧ ∀ c n, d.lc.chal = some (c, n) →
          (c ≠ t.chal ∨ t.boot ≠ d.glob.bootCnt → tokenFault d t = some lrChallenge)
          ∧ (c = t.chal → t.boot = d.glob.bootCnt →
            let signs := t.signer ≤ 3 ∧ rowMatches (signerRow d.otp t.signer) t.pk = true ∧ signerMay code t = true
            (¬ signs → tokenFault d t = some lrSigner)
            ∧ (signs → mlDsa87 t.pk "SQ-LC-TOKEN" t.body t.sig = false → tokenFault d t = some lrSignature)
            ∧ (signs → mlDsa87 t.pk "SQ-LC-TOKEN" t.body t.sig = true → t.kind = 1 →
              tokenFault d t = if (moveSigner code t.target).isNone then some lrMove else none)))))
  ∧ (∀ s env g, s.dev.lc.grant = some g →
    let last := fun d => if grantBars g then takeReset env .soft (endGrant d) else endGrant d
    (lcOpen s.dev = true → Gives (.revoke env) s (last (lcEnd s.dev 3 lrOk)))
    ∧ (g.until' ≤ s.dev.glob.tb → Gives (.debugGrantExpiry env) s (last s.dev))
    ∧ (s.dev.glob.tb < g.until' → Gives (.debugGrantExpiry env) s s.dev))
  ∧ ∀ s u, debugReach s.dev = true →
    let x := getStore s.dev u
    (scopeOpen s.dev 1 = true → u < 28 → x.halted = false →
      Gives (.debugHalt u .seq) s (takeHalt (modStore s.dev u fun y => { y with haltReq := true }) u))
    ∧ (scopeOpen s.dev 2 = true → Gives (.debugHalt u .supv) s { s.dev with lc.supvHalt := true }
      ∧ Gives (.debugStep u .supv) s { s.dev with lc.supvHalt := false, bdr.wdogAt := s.dev.glob.tb })
    ∧ (scopeOpen s.dev 1 = true → x.halted = true →
      Gives (.debugStep u .step) s (modCore (modStore s.dev u fun y => { y with stepOk := true }) u fun k => { k with resumed := true })
      ∧ Gives (.debugStep u .go) s (modCore (modStore { s.dev with lc.halted := s.dev.lc.halted.filter (· != u) } u
          fun y => { y with halted := false, atYld := false, stepOk := false }) u fun k => { k with resumed := true })
      ∧ ∀ sel, Gives (.debugStep u (.arch sel)) s { s.dev with hif.out := s.dev.hif.out ++ [.jtag (archRead s.dev u sel)] })
    ∧ (scopeOpen s.dev 1 = true → x.halted = false →
      Gives (.debugStep u .go) s (modStore s.dev u fun y => { y with haltReq := false }) ∧ ∀ sel, Gives (.debugStep u (.arch sel)) s s.dev)
    ∧ (scopeOpen s.dev 1 = false → Gives (.debugHalt u .seq) s s.dev ∧ Gives (.debugStep u .step) s s.dev ∧ Gives (.debugStep u .go) s s.dev
      ∧ ∀ sel, Gives (.debugStep u (.arch sel)) s s.dev)
    ∧ (scopeOpen s.dev 2 = false → Gives (.debugHalt u .supv) s s.dev ∧ Gives (.debugStep u .supv) s s.dev)

/-- IKH_PROGRAM, which needs no token: with the device in INTEGRATOR and the row blank, the SHA-384 of the ML-DSA-87 public key at offset 0 of
the token window goes into IKH0 if IKH0 is blank and otherwise into IKH1, and the row's valid bit is set as its read-back is good. In
another life-cycle state, in HELD or with no blank row nothing is programmed. Completes (exec answers a next state for every state and
operands that meet the clause's conditions): ikhProgram. -/
def Obligations.IntegratorKeyProgramming : Prop :=
  ∀ s good, lcOpen s.dev = true → barOk s.dev 0 = true →
    let i := Instr.ikhProgram good
    let n := if rowBlank s.dev.otp.ikh[0] then 0 else 1
    (s.dev.glob.st = .held → Gives i s (lcEnd s.dev 4 lrState))
    ∧ (s.dev.glob.st ≠ .held → s.dev.glob.lcCode ≠ 2 ∨ rowBlank (signerRow s.dev.otp (2 + n)) = false → Gives i s (lcEnd s.dev 4 lrOtp))
    ∧ (s.dev.glob.st ≠ .held → s.dev.glob.lcCode = 2 → rowBlank (signerRow s.dev.otp (2 + n)) = true →
      Gives i s (lcEnd { s.dev with otp.ikh := s.dev.otp.ikh.setIfInBounds n { hash := sha384 (memRead s.dev.lc.token 0 2592), valid := good } } 4
        (if good then lrOk else lrOtp)))

/-- Live update: the commands of BOOT_CMD with their refusals, the rollout's stages, steps and swaps, the hand-over and the NVM's failure.
Completes (exec answers a next state for every state and operands that meet the clause's conditions): ucodeStage, instanceDrained,
writeSlot, verify, activate, commit, rollback, rolloutStepDone, supvHandoverReport, supvHandoverFail, nvmFail. -/
def Obligations.LiveUpdateResults : Prop :=
  (∀ s env r, bootOpen s.dev = true →
    let d := s.dev
    let idle := idleSlot d
    let st := slotState d.boot.dir
    let named := fun op : BitVec 4 => ({ d with boot.op := op } : Dev)
    let fresh := fun op : BitVec 4 => ({ named op with boot.inst := 0, boot.done := 0 } : Dev)
    let runs : Instr → BitVec 4 → Prop → (Dev → Dev) → Prop := fun i op pre run =>
      (d.glob.st = .held ∨ ¬ pre → Gives i s (bootEnd (named op) brState))
      ∧ (d.glob.st ≠ .held → pre → nvmDown d = true → Gives i s (bootEnd (named op) brNvm))
      ∧ (d.glob.st ≠ .held → pre → nvmDown d = false → Gives i s (run (fresh op)))
    runs (.writeSlot r) 1 (st idle ≠ slTrial) (writeSlotRun r)
    ∧ runs .verify 2 (st idle = slWritten ∨ st idle = slGood) verifyRun
    ∧ runs (.activate env) 3 (d.boot.verified = true ∧ (d.boot.recovery = true ∨ st d.boot.slot ≠ slTrial)) (activateRun env)
    ∧ runs .commit 4 (isReady d = true ∧ st d.boot.slot = slTrial ∧ d.boot.mixed = false) commitRun
    ∧ runs .rollback 5 (d.boot.recovery = false ∧ st d.boot.slot = slTrial ∧ st (otherSlot d.boot.slot) = slGood) rollbackRun)
  ∧ (∀ d bs,
      let n := d.boot.hlen.toNat
      let addr : U64 := d.boot.haddr &&& ~~~0xFFF
      let d1 := imageRead d addr n
      (n = 0 ∨ slotBytes < n → writeSlotRun (.data bs) d = bootEnd d brFormat)
      ∧ (1 ≤ n → n ≤ slotBytes → writeSlotRun (.data bs) d = bootEnd (dirWrite
          { d1 with boot.nvm := nvmWrite d1.boot.nvm (slotBase (idleSlot d)) (fit n bs), boot.verified := false, boot.stgRel := 0
                    hif.rdBytes := d1.hif.rdBytes + BitVec.ofNat 64 n }
          (setSlotState (idleSlot d) slWritten)) brOk)
      ∧ (1 ≤ n → n ≤ slotBytes → ∀ r, r = .ur ∨ r = .ca ∨ r = .poison → writeSlotRun r d =
          bootEnd (readFailed d1 0 (failKind r) 0 addr) brDma))
  ∧ (∀ d v i, let s := idleSlot d
      let d0 : Dev := { d with boot.verified := false, boot.stgRel := 0 }
      (∀ r, authSlot d s = .error r → verifyRun d = bootEnd d0 r)
      ∧ (authSlot d s = .ok (v, i) →
        (compsGood d.boot.nvm s (v.comps ++ i.comps) (fun _ => true) = false → verifyRun d = bootEnd d0 brHash)
        ∧ (compsGood d.boot.nvm s (v.comps ++ i.comps) (fun _ => true) = true →
          (customFault d d.boot.nvm s (customComps i) = none → verifyRun d = bootEnd { d0 with boot.verified := true, boot.stgRel := relWord s v } brOk)
          ∧ ∀ p, customFault d d.boot.nvm s (customComps i) = some p → verifyRun d = bootEnd { d0 with boot.inst := BitVec.ofNat 8 p } brCustom)))
  ∧ (∀ d v i, slotSects d = some (v, i) →
      let d1 := dirWrite d (setSlotState d.boot.slot slGood)
      commitRun d = bootEnd { d1 with
        otp.svn := if v.flags.getLsbD 1 then max d1.otp.svn v.svn else d1.otp.svn
        boot.cfgMin := if i.flags.getLsbD 1 && d1.boot.cfgMin < i.rel then i.rel else d1.boot.cfgMin } brOk)
  ∧ (∀ s u k j rest c v i, s.dev.boot.busy = true → s.dev.boot.rollout = (k, j) :: rest → 2 ≤ k → k ≤ 4 → stepSeq k j = some u →
      s.dev.boot.stepDone = false → (getStore s.dev u).staged = false → nvmDown s.dev = false →
      slotSects s.dev = some (v, i) → compFor v.comps (seqComp u).1 (seqComp u).2 = some c →
      (compGood s.dev.boot.nvm s.dev.boot.slot c = true → tableKeeps s.dev u (compBytes s.dev.boot.nvm s.dev.boot.slot c) = true →
        Gives (.ucodeStage u true) s
        (modStore s.dev u fun x => fillOther (compBytes s.dev.boot.nvm s.dev.boot.slot c)
          { x with staged := true, stgVer := c.version, stgCrc := c.crc, drain := true }))
      ∧ Gives (.ucodeStage u false) s (rollFail (amber (modStore s.dev u fun x => { x with fails := satInc x.fails }) .ucodeStage .supv
          [BitVec.ofNat 8 u, if (getStore s.dev u).bank then 0 else 1]) brHash))
  ∧ (∀ s c, c < 32 → isReady s.dev = true ∨ s.dev.glob.st = .safe → cellIdle s.dev c = true → cellHalted s.dev c = false →
      ((getEng s.dev c).svc = .draining → testTurn s.dev c = true → Gives (.instanceDrained c) s
        (modEng (reloadBank s.dev c) c fun r => { r with svc := .inTest }))
      ∧ ((getEng s.dev c).svc = .draining → testTurn s.dev c = false → Gives (.instanceDrained c) s s.dev)
      ∧ ∀ k j rest u, (getEng s.dev c).svc ≠ .draining → s.dev.boot.rollout = (k, j) :: rest → cellSeq c = some u → stepSeq k j = some u →
        (getStore s.dev u).drain = true → kindTested s.dev c = false → nvmDown s.dev = false →
        (k = 5 → Gives (.instanceDrained c) s (customNow s.dev c))
        ∧ (k ≠ 5 → (getStore s.dev u).staged = true → Gives (.instanceDrained c) s (swapNow s.dev u)))
  ∧ (∀ s k j rest, s.dev.boot.busy = true → s.dev.boot.rollout = (k, j) :: rest → s.dev.boot.stepDone = true →
      (k = 6 → s.dev.dlr.pending = false ∧ s.dev.dlr.chkBusy = false) →
      Gives .rolloutStepDone s (stepBegin { s.dev with
        boot.rollout := rest, boot.done := if 2 ≤ k ∧ k ≤ 5 then s.dev.boot.done else s.dev.boot.done + 1 }))
  ∧ (∀ s, s.dev.boot.handover = true →
      (∀ v i, supvQuiet s.dev = true → slotSects s.dev = some (v, i) → Gives .supvHandoverReport s
        { s.dev with boot.handover := false, boot.stepDone := true, boot.mixed := true, bdr.limit := 0x14
                     boot.meas := s.dev.boot.meas.set 1 (measOf (v.comps.find? fun c => c.type == 1)) })
      ∧ (supvQuiet s.dev = false → Gives .supvHandoverReport s s.dev)
      ∧ Gives .supvHandoverFail s (rollFail (amber s.dev .supvHandoverFail .supv []) brHandover))
  ∧ ∀ s, isReady s.dev = true → s.dev.boot.nvmErr = false →
      Gives .nvmFail s (bootCause (amber { s.dev with boot.nvmErr := true } .nvmFail .supv []) 4)

/-- In-service tests: their schedule, the command, the drain's timeout, the result; and uncorrectable memory errors. Completes (exec answers a
next state for every state and operands that meet the clause's conditions): controlStoreEcc, isSchedule, isCmd, isDrainTimeout,
isTestDone, uncorrectableEcc. -/
def Obligations.InServiceTestResults : Prop :=
  (∀ s, isReady s.dev = true → s.dev.bist.isEn = true →
    let k := testKind s.dev.bist.kindTurn
    let d1 : Dev := { s.dev with bist.kindTurn := (s.dev.bist.kindTurn + 1) % 4 }
    let able := (kindCells k).filter (mayTest s.dev)
    let waits := s.dev.bist.queue.any fun x => cellKind x == k
    (waits = true ∨ able = [] → Gives .isSchedule s d1)
    ∧ (waits = false → ∀ c, able.find? (fun c => !s.dev.bist.tested.contains c) = some c →
      Gives .isSchedule s (takeOut { d1 with bist.tested := s.dev.bist.tested ++ [c] } c))
    ∧ (waits = false → ∀ c rest, able = c :: rest → able.find? (fun c => !s.dev.bist.tested.contains c) = none →
      Gives .isSchedule s (takeOut { d1 with bist.tested := (s.dev.bist.tested.filter fun x => cellKind x != k) ++ [c] } c)))
  ∧ (∀ (s : State) (v : U32), ctlServed s.dev = true → isReady s.dev = true → v.getLsbD 8 = true →
    let p := v.toNat % 64
    let c := partCell p
    let r := getEng s.dev c
    let force := v.getLsbD 9
    let told : Dev := { s.dev with bist.inst := BitVec.ofNat 6 p, bist.force := force }
    (32 ≤ p → Gives (.isCmd v) s { told with bist.result := 1 })
    ∧ (p < 32 →
      (r.svc = .retired → Gives (.isCmd v) s { told with bist.result := 2 })
      ∧ (r.svc ≠ .retired → reservedCells s.dev c = true → force = false → Gives (.isCmd v) s { told with bist.result := 3 })
      ∧ (r.svc = .inService → reservedCells s.dev c = false ∨ force = true → lastOfKind s.dev c = true → Gives (.isCmd v) s { told with bist.result := 4 })
      ∧ (r.svc = .inService → reservedCells s.dev c = false ∨ force = true → lastOfKind s.dev c = false →
        let d2 := takeOut { told with bist.result := 0 } c
        (force = false → Gives (.isCmd v) s d2)
        ∧ (force = true → d2.bist.forced.contains c = false → Gives (.isCmd v) s { d2 with bist.forced := d2.bist.forced ++ [c] }))))
  ∧ (∀ s c, isReady s.dev = true → (getEng s.dev c).svc = .draining → testTurn s.dev c = true →
    Gives (.isDrainTimeout c) s (bistCause (testEnd s.dev c .inService) 4 (partId c)))
  ∧ (∀ s c (r : IsResult), isReady s.dev = true → (getEng s.dev c).svc = .inTest →
    let p := partId c
    let args : Bytes := [BitVec.ofNat 8 p, BitVec.ofNat 8 r.step]
    let d2 := amber (noteMem { wipeCell s.dev c with bist.lres := mapSet {} (wipeCell s.dev c).bist.lres p (logicRes p r.logic) } r) .bistIs .supv args
    (r.step = 0 → r.mem = none → Gives (.isTestDone c r) s (testEnd d2 c .inService))
    ∧ (r.step = 0 → ∀ f, r.mem = some f → Gives (.isTestDone c r) s
        (if f.repaired then bistCause (testEnd d2 c .inService) 2 p else testEnd d2 c .inService))
    ∧ (r.step ≠ 0 →
      let d3 := bistCause (amber (testEnd d2 c .retired) .bistRetire .supv args) 1 p
      let fatal := lastOfKind d3 c = true ∧ (r.step = 5 ∨ r.step = 6)
      (¬ fatal → Gives (.isTestDone c r) s (plan d3)) ∧ (fatal → Gives (.isTestDone c r) s (fatalFault d3))))
  ∧ (∀ s, isReady s.dev = true →
    Gives (.uncorrectableEcc .fatal) s (fatalFault s.dev)
    ∧ (s.dev.bist.supvErr = false → Gives (.uncorrectableEcc .supvRam) s { s.dev with bist.supvErr := true })
    ∧ (s.dev.bist.supvErr = true → Gives (.uncorrectableEcc .supvRam) s (fatalFault s.dev))
    ∧ (∀ b code, findJob s.dev b.id = some b → b.phase = .placed →
      Gives (.uncorrectableEcc (.jobMem b.id code)) s ((ctxCells b).foldl takeOut (failJob s.dev b stEcc code)))
    ∧ (∀ j code o slot k, (getSlot s.dev o slot).obj = some k →
      let d1 := match j with | some n => eccJob s.dev n code | none => s.dev
      let d2 := if k.stateful then zeroStateful d1 o slot else destroySlot d1 o slot
      Gives (.uncorrectableEcc (.granule j code o slot)) s { d2 with ks.withdrawn := d2.ks.withdrawn + 1 })
    ∧ (∀ c line, Gives (.uncorrectableEcc (.tileLine c line)) s
        (modCore s.dev c fun r => { r with eccLines := line :: r.eccLines.filter (· != line) })))
  ∧ ∀ s u, isReady s.dev = true → u < 28 →
    Gives (.controlStoreEcc u true) s (modStore s.dev u fun x => { x with corr := satInc x.corr })
    ∧ (let d1 := raise (modStore s.dev u fun x => { x with uncorr := satInc x.uncorr, event := true, reload := true }) (storeSource u)
        (BitVec.ofBool (getStore s.dev u).event) 1
      (cellJob d1 (seqCell u) = none → Gives (.controlStoreEcc u false) s (takeOut d1 (seqCell u)))
      ∧ ∀ b, cellJob d1 (seqCell u) = some b →
        Gives (.controlStoreEcc u false) s (takeOut (failJob d1 b stEcc (storeCode u)) (seqCell u)))

/-- The recorder: checkpoints, the histograms' clear, the host mirror and bad banks. Fate queries: by job, by key, the release of a record and
of a boot's records; each goes to the member that holds the SQ. Completes (exec answers a next state for every state and operands that
meet the clause's conditions): byJob, byKey, release, releaseBoot, ckptTimer, ckpt, ckptDone, clearHist, mirrorTimer, recBankBad. -/
def Obligations.RecorderAndFateResults : Prop :=
  ((∀ s, recServes s.dev = true →
    (s.dev.recd.ckptBusy.isSome = true ∨ ckptBank s.dev = none → Gives .ckptTimer s s.dev ∧ (barOk s.dev 0 = true → Gives .ckpt s s.dev))
    ∧ (∀ b, s.dev.recd.ckptBusy = none → ckptBank s.dev = some b →
      let d1 := modBank { s.dev with recd.ckptBusy := some b } b fun x => { x with complete := false }
      Gives .ckptTimer s d1 ∧ (barOk s.dev 0 = true → Gives .ckpt s d1)))
  ∧ (∀ s b, s.dev.recd.ckptBusy = some b →
    Gives .ckptDone s (modBank { s.dev with recd.ckptBusy := none, recd.ckptSeq := s.dev.recd.ckptSeq + 1 } b fun _ =>
      { complete := true, seq := s.dev.recd.ckptSeq + 1, badmap := s.dev.bdr.badBanks, boot := s.dev.glob.bootCnt, tb := s.dev.glob.tb
        records := s.dev.recd.records }))
  ∧ (∀ s, recServes s.dev = true → barOk s.dev 0 = true → mapWf none s.dev.recd.records = true → Completes .clearHist s fun d' =>
    d' = { s.dev with recd.records := d'.recd.records }
    ∧ ∀ k, mapGet none d'.recd.records k = (mapGet none s.dev.recd.records k).map fun r =>
      if isHist r then { r with seq := r.seq + 2, tb := s.dev.glob.tb, wall := wallNow s.dev, boot := s.dev.glob.bootCnt, data := .hist 0 0 0 0 [] }
      else r)
  ∧ (∀ s i, recServes s.dev = true → i < 2048 →
    (s.dev.fab.role = .member → ∀ ok, Gives (.mirrorTimer i ok) s (sendFrame s.dev 0 .record (leBytes 2 i ++ recBytes s.dev i)))
    ∧ (s.dev.fab.role ≠ .member → s.dev.recd.mirrorEn = true →
      Gives (.mirrorTimer i true) s (mirrorWrite s.dev 0 i (recBytes s.dev i))
      ∧ Gives (.mirrorTimer i false) s (recCause { s.dev with recd.mirrorErr := true } 0x8)))
  ∧ ∀ s b, b < 4 → s.dev.bdr.badBanks.getLsbD b = false →
    let bit : BitVec 4 := BitVec.ofNat 4 (2 ^ b)
    let d2 := bdrCause { s.dev with bdr.badBanks := s.dev.bdr.badBanks ||| bit } (bit.setWidth 9 <<< 4)
    (b < 2 →
      let d3 := recCause (amber d2 .recBankBad (.bedrock 0) [BitVec.ofNat 8 b]) 0x2
      let d4 := modBank d3 (1 - b) fun x => { x with badmap := d3.bdr.badBanks }
      Gives (.recBankBad b) s (recVolatile { d4 with recd.ckptBusy := if d4.recd.ckptBusy = some b then none else d4.recd.ckptBusy }))
    ∧ (2 ≤ b →
      let d3 := ambCause (amber d2 .ambBankBad (.bedrock 0) [BitVec.ofNat 8 (b - 2)]) 0x2
      let d4 : Dev := { d3 with amb.volatil := d3.bdr.badBanks.getLsbD 2 && d3.bdr.badBanks.getLsbD 3 }
      (∀ c, d4.amb.copy = some c → c.bank = some (b - 2) → Gives (.recBankBad b) s (c.fifo.foldl ringPut { d4 with amb.copy := none }))
      ∧ (d4.amb.copy = none → Gives (.recBankBad b) s d4)))
  ∧ (∀ s f, barOk s.dev f = true → mapServed s.dev = true → (getFq s.dev f).busy = false → fqServed s.dev f = true →
    let asked := fun op => setFq s.dev f { getFq s.dev f with op := op }
    let args := fun op => fqArgs (asked op) f (getFq (asked op) f).arg0 (getFq (asked op) f).arg1
    (∀ n, fateNode (asked 1) (args 1) = some n → Gives (.byJob f) s (fqAsk (asked 1) f n 1 (args 1)))
    ∧ (fateNode (asked 1) (args 1) = none → Gives (.byJob f) s (fqAnswer (asked 1) f (fateByJob (asked 1) (args 1)) 0))
    ∧ (∀ n, fateNode (asked 2) (args 2) = some n → Gives (.byKey f) s (fqAsk (asked 2) f n 2 (args 2)))
    ∧ (fateNode (asked 2) (args 2) = none →
      let at' := (jByKey (asked 2) (args 2))[(getFq (asked 2) f).cursor]?
      (∀ k, at' = some k → Gives (.byKey f) s (fqAnswer (asked 2) f (jRec (getJ (asked 2) k)) ((getFq (asked 2) f).cursor + 1)))
      ∧ (at' = none → Gives (.byKey f) s (fqAnswer (asked 2) f {} 0)))
    ∧ (∀ n, fateNode (asked 3) (args 3) = some n → Gives (.release f) s (fqAsk (asked 3) f n 3 (args 3)))
    ∧ (fateNode (asked 3) (args 3) = none →
      Gives (.release f) s (fqAnswer (fateRelease (asked 3) (args 3)).2 f (fateRelease (asked 3) (args 3)).1 0))
    ∧ Gives (.releaseBoot f) s (fqAnswer (releaseEverywhere (asked 4) (args 4)) f {} 0))

/-- Bedrock: freezes and their copies, the fault digest, buckets, pushes, the watchdog and wall time. The SMBus endpoint: each request's
response, and what resets the interface. Completes (exec answers a next state for every state and operands that meet the clause's
conditions): wallCommit, wallSRead, ambFreeze, freezeCopyDone, ambDigest, digestDone, amberRefill, supvPush, wdogRestart, wdog,
smbGetStatus, smbGetIdentity, smbGetLc, smbGetEnv, smbAmbRead, smbFrzRead, smbDigest, smbFreeze, smbReset, smbZeroise, smbAlertAck,
clockLowTimeout, lossOfArbitration. -/
def Obligations.BedrockResults : Prop :=
  ((∀ s, ctlServed s.dev = true →
    Gives .ambFreeze s (freeze s.dev 5)
    ∧ (∀ src, Gives (.ambDigest src) s { s.dev with amb.digSrc := src, amb.digestBusy := true })
    ∧ (let w := (wallNow s.dev).toNat
      Gives .wallSRead s { s.dev with glob.wallNsCap := BitVec.ofNat 30 (w % 1000000000)
                                      hif.out := s.dev.hif.out ++ [.cpl 0 (leBytes 8 (w / 1000000000))] })
    ∧ ∀ v : U32, let ns := v.toNat % 2 ^ 30
      (1000000000 ≤ ns → Gives (.wallCommit v) s s.dev)
      ∧ (ns < 1000000000 →
        let w : U64 := s.dev.glob.wallSHeld * 1000000000 + BitVec.ofNat 64 ns
        Gives (.wallCommit v) s (amber { s.dev with glob.wallSet := true, glob.wallBase := w, glob.wallTb := s.dev.glob.tb }
          .timeStep .supv (le64 (wallNow s.dev) ++ le64 w))))
  ∧ (∀ s c b, bedrockAlive s.dev = true → s.dev.amb.copy = some c → c.bank = some b →
    let n := min c.upTo 4095
    let es := (List.range n).map fun i => mapGet {} s.dev.amb.ring ((c.upTo - n + i) % 4096)
    let k : FrzBank := { valid := true, boot := ((es.getLast?).map (·.boot)).getD s.dev.glob.bootCnt, triggers := c.triggers, tb := c.tb
                         seq := s.dev.amb.frzSeq + 1, lost := c.lost, entries := es }
    Gives .freezeCopyDone s (ambCause (c.fifo.foldl ringPut
      { s.dev with amb.banks := s.dev.amb.banks.setIfInBounds b k, amb.frzSeq := s.dev.amb.frzSeq + 1, amb.latest := b == 1
                   amb.copy := none, bdr.alert := true }) 1))
  ∧ (∀ s, bedrockAlive s.dev = true → s.dev.amb.digestBusy = true →
    Gives .digestDone s (ambCause { digestNow s.dev s.dev.amb.digSrc with amb.digestBusy := false } 4))
  ∧ (∀ s (c : U16), bedrockAlive s.dev = true → acodeTakesToken c = true →
    Gives (.amberRefill c) s { s.dev with amb.buckets := mapMod {} s.dev.amb.buckets c.toNat fun b => { b with used := b.used - 1 } })
  ∧ (∀ s, supvRuns s.dev = true →
    Gives .wdogRestart s { s.dev with bdr.wdogAt := s.dev.glob.tb }
    ∧ Gives .supvPush s { s.dev with bdr.push :=
        { tjMin := s.dev.tmon.minTj, tjMax := s.dev.tmon.maxTj, tjLife := lifeTj s.dev
          railMin := (List.range 9).map fun i => match extremeOf s.dev (0x8010 + i) with | some e => BitVec.ofInt 16 e.1 | none => 0
          counters := pushCounters s.dev } })
  ∧ ∀ s env, bedrockAlive s.dev = true → s.dev.lc.supvHalt = false → s.dev.glob.st ≠ .bedrock → s.dev.glob.hardZ = none →
    s.dev.glob.tbRun = true →
    let due := 1000000 * s.dev.bdr.limit.toNat ≤ (s.dev.glob.tb - s.dev.bdr.wdogAt).toNat
    (due → Gives (.wdog env) s (takeReset env (.bedrock 5)
      (bdrCause (freeze (amber { s.dev with bdr.expiries := satInc s.dev.bdr.expiries } .wdog (.bedrock 0) []) 0) 1)))
    ∧ (¬ due → Gives (.wdog env) s s.dev))
  ∧ (∀ s, bedrockAlive s.dev = true →
    let d := s.dev
    let sends : Instr → Dev → Byte → Byte → Bytes → Prop := fun i d0 cmd code bs =>
      let r : Bytes := [0x7E, 0x1F, 0xD7, cmd ||| 0x80, code] ++ bs
      Gives i s { d0 with bdr.resp := r, bdr.retries := 0, hif.out := d0.hif.out ++ [.smbus r] }
    sends .smbGetStatus d 1 0 ([(devStateCode d.glob.st).setWidth 8, d.glob.safeCause] ++ leBytes 4 d.glob.rstCause.toNat
      ++ leBytes 4 d.bdr.fault.toNat ++ le32 d.glob.bootCnt ++ le64 d.glob.tb ++ leBytes 8 (ambStat d))
    ∧ sends .smbGetIdentity d 2 0 (leBytes 16 d.glob.devId.toNat ++ le32 d.boot.imgRel ++ [d.ks.epoch.setWidth 8, d.glob.lcCode])
    ∧ sends .smbGetLc d 3 0 (leBytes 5 d.bdr.lcStat.toNat)
    ∧ sends .smbGetEnv d 4 0 ((d.tmon.tj.toList.map le16).flatten ++ (d.tmon.rails.toList.map le16).flatten)
    ∧ (∀ back n, (n = 0 ∨ 16 < n ∨ 65535 < back → sends (.smbAmbRead back n) d 5 2 [])
      ∧ (1 ≤ n → n ≤ 16 → back ≤ 65535 →
        let upTo := (ringList d).take ((ringList d).length - back)
        sends (.smbAmbRead back n) d 5 0 ((upTo.drop (upTo.length - n)).map entryBytes).flatten))
    ∧ (∀ bank slot n, (1 < bank ∨ n = 0 ∨ 16 < n ∨ 4096 < slot + n → sends (.smbFrzRead bank slot n) d 6 2 [])
      ∧ (bank ≤ 1 → 1 ≤ n → n ≤ 16 → slot + n ≤ 4096 →
        sends (.smbFrzRead bank slot n) d 6 0 ((List.range n).map fun i => frzSlot (frzBank d bank) (slot + i)).flatten))
    ∧ (∀ src part, (1 < src ∨ 1 < part → sends (.smbDigest src part) d 7 2 [])
      ∧ (src ≤ 1 → d.amb.digestBusy = true → sends (.smbDigest src 0) d 7 4 [])
      ∧ (src ≤ 1 → d.amb.digestBusy = false →
        let d1 := digestNow d (src == 1)
        sends (.smbDigest src 0) d1 7 0 (slice d1.amb.digest 0 1024))
      ∧ (src ≤ 1 → sends (.smbDigest src 1) d 7 0 (slice d.amb.digest 1024 1024)))
    ∧ sends .smbFreeze (freeze d 4) 8 0 []
    ∧ (∀ key env, key ≠ 0xA5C3 → sends (.smbReset key env) d 9 2 [])
    ∧ (∀ env, Gives (.smbReset 0xA5C3 env) s (takeReset env (.bedrock 8) (freeze (bdrCause (smReply d 9 0 []) 8) 6)))
    ∧ (∀ key, key ≠ 0x5A3C → sends (.smbZeroise key) d 0xA 2 [])
    ∧ (d.ks.zpol.getLsbD 4 = false → sends (.smbZeroise 0x5A3C) d 0xA 3 [])
    ∧ (d.ks.zpol.getLsbD 4 = true → Gives (.smbZeroise 0x5A3C) s (hardStart 4 0 (smReply d 0xA 0 [])))
    ∧ sends .smbAlertAck { d with bdr.alert := d.bdr.alert && d.bdr.alertHold } 0xB 0 []
    ∧ Gives .clockLowTimeout s { d with bdr.resp := [], bdr.retries := 0 }
    ∧ (d.bdr.resp = [] → Gives .lossOfArbitration s d)
    ∧ (d.bdr.resp ≠ [] → d.bdr.retries < 4 →
      Gives .lossOfArbitration s { d with bdr.retries := d.bdr.retries + 1, hif.out := d.hif.out ++ [.smbus d.bdr.resp] })
    ∧ (d.bdr.resp ≠ [] → 4 ≤ d.bdr.retries → Gives .lossOfArbitration s { d with bdr.resp := [], bdr.retries := 0 }))

/-- Frames on a Brynique port: what the port answers, and what each frame in order does at the node that it is for. Completes (exec answers a
next state for every state and operands that meet the clause's conditions): frameSubmit, frameComplete, frameRdReq, frameRdData,
frameWrData, frameAbandon, frameAbandonDone, frameCreditGrant, frameAckNak, frameHeartbeat, frameTime, frameHandshake, frameConfig,
frameRecord, frameAmber, frameFate, frameRekey. -/
def Obligations.FrameResults : Prop :=
  (∀ i s t f, Brings i t f → PortUp s.dev f.port →
    let p := f.port
    let q := getPort s.dev p
    (f.crcOk = false → Gives i s (sendAck (modPort s.dev p fun x => { x with crcErr := satInc x.crcErr }) p (ackBody false q.rxSeq 0 0)))
    ∧ (f.crcOk = true → t = .ackNak → Gives i s (ackGo p f.body s.dev))
    ∧ (f.crcOk = true → t = .heartbeat ∨ t = .time →
      Gives i s (if f.dst = s.dev.glob.node then frameHere t f s.dev else routeFrame s.dev t f))
    ∧ (f.crcOk = true → ftypeLink t = false →
      let d1 := sendAck (modPort s.dev p fun x => { x with rxSeq := x.rxSeq + 1 }) p
        (ackBody true f.lseq (frameClass t f) (frameUnits s.dev.fab.enc t f))
      (f.lseq = q.rxSeq → Gives i s (if f.dst = d1.glob.node then frameHere t f d1 else routeFrame d1 t f))
      ∧ (f.lseq ≠ q.rxSeq → (q.rxSeq - f.lseq).toNat < 2048 → Gives i s (sendAck s.dev p (ackBody true (q.rxSeq - 1) 0 0)))
      ∧ (f.lseq ≠ q.rxSeq → 2048 ≤ (q.rxSeq - f.lseq).toNat → Gives i s (sendAck s.dev p (ackBody false q.rxSeq 0 0)))))
  ∧ (∀ d t f, FramePartner d f.src → sessionTakes d f.src t = true → ¬ (isMember d = true ∧ t = .handshake ∧ f.eseq = 0 ∧ (getNode d 0).rx ≠ 0) →
    (t = .heartbeat ∨ t = .time → frameHere t f d = deliver t f.src f.body d)
    ∧ (ftypeLink t = false → d.fab.enc = true → sealedType t = true → f.tagOk = false → frameHere t f d = sessionEnd f.src 2 d)
    ∧ (ftypeLink t = false → d.fab.enc = false ∨ sealedType t = false ∨ f.tagOk = true →
      let x := getNode d f.src
      let d1 := deliver t f.src f.body (modNode d f.src fun x => { x with rx := x.rx + 1 })
      (f.eseq = x.rx → (getNode d1 f.src).early.find? (fun e => e.2.eseq == (getNode d1 f.src).rx) = none → frameHere t f d = d1)
      ∧ (f.eseq < x.rx → frameHere t f d = d)
      ∧ (x.rx < f.eseq → x.early.any (fun e => e.2.eseq == f.eseq) = false → x.early.length < 32 →
        frameHere t f d = modNode d f.src fun y => { y with early := y.early ++ [(t, f)] })))
  ∧ ∀ d n bs,
    (isMember d = true →
      deliver .submit n bs d = submitIn bs d ∧ deliver .rdData n bs d = rdDataIn bs d ∧ deliver .abandon n bs d = abandonIn bs d
      ∧ deliver .time n bs d = timeIn bs d ∧ deliver .fate n bs d = fateQueryIn bs d)
    ∧ (isMember d = false →
      deliver .complete n bs d = completeIn n bs d ∧ deliver .rdReq n bs d = rdReqIn n bs d ∧ deliver .wrData n bs d = wrDataIn n bs d
      ∧ deliver .abandonDone n bs d = { d with fab.abandon := d.fab.abandon.filter (· != abandonKey n (leNat (slice bs 0 2))) }
      ∧ deliver .creditGrant n bs d = (let o := (byteAt bs 0).toNat
          modNode d n fun x => { x with credits := mapMod 0 x.credits o (· + leNat (slice bs 1 2)), jrns := mapMod 0 x.jrns o (· + leNat (slice bs 3 2)) })
      ∧ deliver .record n bs d = (if d.recd.mirrorEn then mirrorWrite d n (leNat (slice bs 0 2)) (slice bs 2 256) else d)
      ∧ deliver .amber n bs d = amberIn n bs d ∧ deliver .fate n bs d = fateAnswerIn bs d)
    ∧ deliver .heartbeat n bs d = d ∧ deliver .handshake n bs d = handshakeIn n bs d ∧ deliver .config n bs d = configIn n bs d
    ∧ deliver .rekey n bs d = rekeyIn n d

/-- The fabric's own events: ticks, links, sessions that end, nodes that join, and the commands of FAB_CMD. Completes (exec answers a next
state for every state and operands that meet the clause's conditions): time, heartbeatTick, timeTick, replayTimeout, portLinkChange,
gapTimeout, memberSilence, leadLost, fabJoin, sessionRenew, fabAdmit, fabRemove, fabRekey, admitTimeout. -/
def Obligations.FabricEventResults : Prop :=
  (∀ s, let d1 := (sessionNodes s.dev).foldl (fun acc n => sendFrame acc n .heartbeat []) s.dev
    (¬ (isMember d1 = true ∧ isReady d1 = true) → Gives .heartbeatTick s d1)
    ∧ (isMember d1 = true → isReady d1 = true →
      let d2 := cfgRun d1.fab.cfgQ.length d1
      Gives .heartbeatTick s ((liveOwners d2).foldl topUp d2)))
  ∧ (∀ s, Gives .timeTick s ((memberNodes s.dev).foldl (fun acc n => sendFrame acc n .time (le64 acc.glob.tb)) s.dev))
  ∧ (∀ s p, let q := getPort s.dev p
    (q.state = 2 → q.replay ≠ [] → 8 ≤ q.tries →
      Gives (.replayTimeout p) s (modPort s.dev p fun x => { x with state := 1, tries := 0, retrains := satInc x.retrains }))
    ∧ (q.state = 2 → q.replay ≠ [] → q.tries < 8 → Gives (.replayTimeout p) s (q.replay.foldl (fun acc x => portEmit acc p x.1 x.2)
        (modPort s.dev p fun x => { x with tries := x.tries + 1, replays := satInc x.replays })))
    ∧ (q.state ≠ 2 ∨ q.replay = [] → Gives (.replayTimeout p) s s.dev)
    ∧ (p < 4 → q.state ≠ 3 →
      let d1 := modPort s.dev p fun x => { x with state := 0, tries := 0, txSeq := 0, rxSeq := 0, replay := [], wait := []
                                                  credits := #v[16, 16, 128, 128, 256, 256, 32, 32] }
      Gives (.portLinkChange p .down) s ((q.replay ++ q.wait).foldl (fun acc x => routeFrame acc x.1 { x.2 with lseq := 0 }) d1))
    ∧ (p < 4 → q.state ≠ 3 → q.barred = false → s.dev.fab.role ≠ .alone →
      Gives (.portLinkChange p .train) s (modPort s.dev p fun x => { x with state := 1, retrains := if x.state == 2 then satInc x.retrains else x.retrains })
      ∧ (let d2 := pump (q.replay.foldl (fun acc x => portEmit acc p x.1 x.2) (modPort s.dev p fun x => { x with state := 2, fails := [] })) p
        Gives (.portLinkChange p .up) s (if isReady d2 then joinAll d2 else d2)))
    ∧ (p < 4 → q.state = 1 →
      let fs := (q.fails.filter fun t => decide (s.dev.glob.tb.toNat ≤ t.toNat + 10000000)) ++ [s.dev.glob.tb]
      (fs.length < 3 → Gives (.portLinkChange p .failed) s (modPort s.dev p fun x => { x with fails := fs, retrains := satInc x.retrains }))
      ∧ (3 ≤ fs.length → Gives (.portLinkChange p .failed) s
        (fabCause (amber (modPort (portDown p s.dev) p fun x => { x with fails := [], barred := true }) .portDown .fab [BitVec.ofNat 8 p]) 4
          s.dev.fab.evNode.toNat))))
  ∧ (∀ s n, s.dev.fab.role = .lead → (getNode s.dev n).state = .member →
    let js := homedJobs s.dev n
    let lost := fun cause =>
      let d1 := modNode s.dev n fun x => { sessionClear x with state := .lost, losses := satInc x.losses
                                                               lostJobs := satNat 16 (x.lostJobs.toNat + js.length) }
      let d2 := js.foldl lostJob d1
      let d4 := amber { d2 with fab.abandon := d2.fab.abandon.filter fun k => k / 512 != n } .memberLost .fab
        (leBytes 1 n ++ leBytes 1 cause ++ leBytes 2 js.length)
      let d5 := fabCause d4 2 n
      fqsFree (fabEndFor (if d5.vfm.busy && vfmNode d5 == some n then vfmEnd d5 3 0 d5.vfm.sel.toNat else d5) 3 n 1)
    Gives (.memberSilence n) s (lost 1)
    ∧ ((getNode s.dev n).early ≠ [] → Gives (.gapTimeout n) s (lost 3))
    ∧ ((getNode s.dev n).early = [] → Gives (.gapTimeout n) s s.dev)
    ∧ ((getNode s.dev n).stage = 0 → Gives (.sessionRenew n) s (hsStart s.dev n true))
    ∧ ((getNode s.dev n).stage ≠ 0 → Gives (.sessionRenew n) s s.dev))
  ∧ (∀ s, isMember s.dev = true → (getNode s.dev 0).state = .member →
    let d1 := modNode s.dev 0 fun x => { sessionClear x with state := .lost, shares := [] }
    let d2 := destroyVolatile (resolveOwners (abandonJobs d1 (fun _ => true) true) (fun _ => true) false) fun _ => true
    Gives .leadLost s (amber (reTable { d2 with own := d2.own.filter fun e => e.1 == 0
                                                vfm := { event := d2.vfm.event, evOwner := d2.vfm.evOwner }, fab.cfgQ := [] })
      .leadLost .fab (leBytes 2 (min s.dev.jobs.live.length 65535))))
  ∧ (∀ s n hops, s.dev.fab.role = .lead → (getNode s.dev n).state = .joining → (getNode s.dev n).stage = 3 →
    Gives (.fabJoin n hops) s (fabEndFor (fabCause (amber (modNode s.dev n fun y => { y with state := .member, stage := 0, hops := BitVec.ofNat 4 hops })
      .fabJoin .fab (leBytes 1 n ++ leBytes 1 hops)) 1 n) 1 n 0))
  ∧ (∀ s, (s.dev.fab.busy = true → s.dev.fab.op = 1 → Gives .admitTimeout s { s.dev with fab.busy := false, fab.result := 4 })
    ∧ (s.dev.fab.busy = false ∨ s.dev.fab.op ≠ 1 → Gives .admitTimeout s s.dev))
  ∧ (∀ s n, ctlServed s.dev = true → s.dev.fab.busy = false → isReady s.dev = false →
    ∀ i op, (i, op) ∈ [(Instr.fabAdmit n, (1 : BitVec 3)), (.fabRemove n, 2), (.fabRekey n, 3)] →
      Gives i s { s.dev with fab.op := op, fab.cmdNode := BitVec.ofNat 6 n })
  ∧ ∀ s n, ctlServed s.dev = true → s.dev.fab.busy = false → isReady s.dev = true →
    let d1 := fabStart s.dev
    let x := getNode s.dev n
    let r := routeByte s.dev n
    let here := fabNode s.dev n = true
    (¬ here ∨ x.state = .member ∨ x.state = .joining → Gives (.fabAdmit n) s (fabEnd (d1 1 n) 1))
    ∧ (here → x.state ≠ .member → x.state ≠ .joining →
      (mapGet [] s.dev.fab.allow n = [] → Gives (.fabAdmit n) s (fabEnd (d1 1 n) 2))
      ∧ (mapGet [] s.dev.fab.allow n ≠ [] → r.getLsbD 3 = false → r.getLsbD 7 = false → Gives (.fabAdmit n) s (fabEnd (d1 1 n) 3))
      ∧ (mapGet [] s.dev.fab.allow n ≠ [] → r.getLsbD 3 = true ∨ r.getLsbD 7 = true →
        let free := fun (acc : Dev) (v : Bool) (p : Nat) => if v then modPort acc p fun q => { q with barred := false } else acc
        let d3 := modNode (free (free (d1 1 n) (r.getLsbD 3) (r.toNat % 4)) (r.getLsbD 7) (r.toNat / 16 % 4)) n
          fun y => { y with state := if y.state == .removed then .absent else y.state }
        Gives (.fabAdmit n) s (if (routeOf d3 n false).isSome then joinStart d3 n else d3)))
    ∧ (¬ here ∨ x.state = .removed → Gives (.fabRemove n) s (fabEnd (d1 2 n) 1))
    ∧ (here → x.state ≠ .removed → nodeInUse s.dev n = true → Gives (.fabRemove n) s (fabEnd (d1 2 n) 5))
    ∧ (here → x.state ≠ .removed → nodeInUse s.dev n = false →
      Gives (.fabRemove n) s (fqsFree (fabEnd (modNode (d1 2 n) n fun x => { sessionClear x with state := .removed }) 0)))
    ∧ (¬ here ∨ x.state ≠ .member → Gives (.fabRekey n) s (fabEnd (d1 3 n) 1))
    ∧ (here → x.state = .member → Gives (.fabRekey n) s (if x.stage = 0 then hsStart (d1 3 n) n true else d1 3 n))

/-- The PCIe functions: Bus Master Enable, power states, MSI-X masks, PF event messages, the link and poisoned writes. A write or a read of
BAR0: where a register has no row of its own, halves of a 64-bit register, and what an access of another size does. Completes (exec
answers a next state for every state and operands that meet the clause's conditions): registerWrite, busMasterEnable, powerStateChange,
msixUnmask, evmaskWrite, eventHoldoffExpiry, linkRetrain, poisonedBarWrite. -/
def Obligations.PcieResults : Prop :=
  ((∀ s f, fnThere s.dev f = true →
    (∀ mse, Gives (.busMasterEnable f false mse) s (setFn s.dev f { getFn s.dev f with bme := false, mse := mse })
      ∧ (let d1 := setFn s.dev f { getFn s.dev f with bme := true, mse := mse }
        let ws := d1.hif.waiting.filter fun o => outFn o == some f
        Gives (.busMasterEnable f true mse) s
          (ws.foldl emit { d1 with hif.waiting := d1.hif.waiting.filter fun o => outFn o != some f })))
    ∧ (∀ on, Gives (.powerStateChange f on) s (flushPend (setFn s.dev f { getFn s.dev f with d3hot := on }) f))
    ∧ (∀ v masked, v < vecCount s.dev f →
      Gives (.msixUnmask f (.vector v masked)) s (flushPend (setVec s.dev f v { getVec s.dev f v with mask := masked }) f))
    ∧ (∀ en masked, Gives (.msixUnmask f (.function en masked)) s
        (flushPend (setFn s.dev f { getFn s.dev f with msixEn := en, fnMask := masked }) f))
    ∧ (∀ off, Gives (.poisonedBarWrite f off) s (hifCause (hifLastErr
        { s.dev with hif := { s.dev.hif with errPoison := satInc s.dev.hif.errPoison, aerPoison := true
                                             out := s.dev.hif.out ++ [.aerPoison f] } } f 5 0 (BitVec.ofNat 32 off)) 0x8)))
  ∧ (∀ s (v : U32), ctlServed s.dev = true →
    Gives (.evmaskWrite v) s ((List.range 17).foldl
      (fun acc n => if s.dev.glob.evMask.getLsbD n && !v.getLsbD n && evSource acc n then evRequest acc n else acc)
      { s.dev with glob.evMask := v.setWidth 17 }))
  ∧ (∀ s v, s.dev.glob.evHold.contains v = true →
    (s.dev.glob.evCarry.contains v = true →
      Gives (.eventHoldoffExpiry v) s (msixSend { s.dev with glob.evCarry := s.dev.glob.evCarry.filter (· != v) } 0 v))
    ∧ (s.dev.glob.evCarry.contains v = false →
      Gives (.eventHoldoffExpiry v) s { s.dev with glob.evHold := s.dev.glob.evHold.filter (· != v) }))
  ∧ ∀ s g w, s.dev.glob.st ≠ .bedrock → isMember s.dev = false → g = 3 ∨ g = 4 ∨ g = 5 → w = 1 ∨ w = 2 ∨ w = 4 ∨ w = 8 →
    Gives (.linkRetrain g w) s (hifCause
      { s.dev with hif := { s.dev.hif with linkUp := true, speed := BitVec.ofNat 3 g, width := BitVec.ofNat 4 w } }
      ((if s.dev.hif.linkUp then 0x10 else 0) ||| if g < 5 || w < 8 then 0x1 else 0)))
  ∧ ((∀ s f off bs, f < 256 → barThere s.dev f 0 = true → bs ≠ [] → barPart f 0 off = .map →
    let i := Instr.registerWrite f (.bar 0 off bs)
    winAt f off = none → offServed s.dev f off = true →
    (regAt s.dev f (off / 4 * 4) = none → Gives i s s.dev)
    ∧ ∀ b r hi, regAt s.dev f (off / 4 * 4) = some (b, r, hi) →
      let k := halfKey f b
      let v := leNat bs
      (bs.length ≠ 4 ∧ bs.length ≠ 8 ∨ off % bs.length ≠ 0 → Gives i s (badAccess s.dev f off))
      ∧ (bs.length = 4 → off % 4 = 0 → r.wide = false → Gives i s (r.put v s.dev))
      ∧ (bs.length = 8 → off % 8 = 0 → r.wide = true → hi = false → Gives i s (r.put v (setHeld s.dev k none)))
      ∧ (bs.length = 4 → off % 4 = 0 → r.wide = true → hi = false → Gives i s (setHeld s.dev k (some (w32 v))))
      ∧ (bs.length = 4 → off % 4 = 0 → r.wide = true → hi = true → Gives i s (r.put
          (4294967296 * v + (match mapGet none s.dev.glob.loHeld k with | some x => x.toNat | none => r.low s.dev)) (setHeld s.dev k none))))
  ∧ (∀ s f off n, f < 256 → barThere s.dev f 0 = true → n ≠ 0 → barPart f 0 off = .map →
    let i := Instr.registerWrite f (.read 0 off n)
    winAt f off = none → offServed s.dev f off = true →
    (regAt s.dev f (off / 4 * 4) = none → Gives i s (emit s.dev (.cpl f (zeros n))))
    ∧ ∀ b r hi, regAt s.dev f (off / 4 * 4) = some (b, r, hi) →
      let k := halfKey f b
      (n ≠ 4 ∧ n ≠ 8 ∨ off % n ≠ 0 → Gives i s (emit (badAccess s.dev f off) (.cpl f (zeros n))))
      ∧ (n = 4 → off % 4 = 0 → r.wide = false → Gives i s (emit (r.side s.dev) (.cpl f (leBytes 4 (r.get s.dev)))))
      ∧ (n = 8 → off % 8 = 0 → r.wide = true → hi = false → Gives i s (emit (r.side s.dev) (.cpl f (leBytes 8 (r.get s.dev)))))
      ∧ (n = 4 → off % 4 = 0 → r.wide = true → hi = false → Gives i s
          (emit (setCap (r.side s.dev) k (some (w32 (r.get s.dev / 4294967296)))) (.cpl f (leBytes 4 (r.get s.dev)))))
      ∧ (∀ x, n = 4 → off % 4 = 0 → r.wide = true → hi = true → mapGet none s.dev.glob.hiCap k = some x → Gives i s
          (emit (setCap s.dev k none) (.cpl f (leBytes 4 x.toNat)))))
  ∧ (∀ s f, f < 256 → fnThere s.dev f = true →
    (∀ v, Gives (.registerWrite f (.cfg (.cto v))) s (setFn s.dev f { getFn s.dev f with cto := v }))
    ∧ (∀ n, n = 128 ∨ n = 256 ∨ n = 512 → Gives (.registerWrite f (.cfg (.mps n))) s (setFn s.dev f { getFn s.dev f with mps := n }))
    ∧ (∀ n, n = 128 ∨ n = 256 ∨ n = 512 ∨ n = 1024 ∨ n = 2048 ∨ n = 4096 →
      Gives (.registerWrite f (.cfg (.mrrs n))) s (setFn s.dev f { getFn s.dev f with mrrs := n }))
    ∧ (∀ on, Gives (.registerWrite f (.cfg (.relaxed on))) s (setFn s.dev f { getFn s.dev f with relaxEn := on }))
    ∧ ∀ item, Gives (.registerWrite f (.cfgRead item)) s (emit s.dev (.cpl f (leBytes (cfgItem s.dev f item).1 (cfgItem s.dev f item).2))))
  ∧ (∀ s f item, f < 256 → fnThere s.dev f = false →
    (s.dev.glob.st = .bedrock → endpointUp s.dev = true → Gives (.registerWrite f (.cfgRead item)) s (emit s.dev (.retry f)))
    ∧ (s.dev.glob.st ≠ .bedrock → s.dev.hif.linkUp = true → Gives (.registerWrite f (.cfgRead item)) s (emit s.dev (.ur f))))
  ∧ ∀ d f, cfgItem d f .revisionId = (1, 0xB0) ∧ cfgItem d f .vendorId = (2, 0x1FD7) ∧ cfgItem d f .subsystemVendorId = (2, 0x1FD7)
    ∧ cfgItem d f .subsystemId = (2, 1) ∧ cfgItem d f .classCode = (3, 0x108000) ∧ cfgItem d 0 .deviceId = (2, 0x4816)
    ∧ (f ≠ 0 → cfgItem d f .deviceId = (2, 0x4817)) ∧ cfgItem d 0 .totalVfs = (2, 255))

/-- A step runs the command at the front of the queue, with the queue's rest. -/
def Obligations.StepRunsFront : Prop :=
  ∀ (c : Instr) (s : State) (rest : List Instr), s.pending = c :: rest → step s = exec c { s with pending := rest }

/-- The model's choice (log 2): a step on an empty queue is one beat of 10 ns, in which TB counts 10 while CLK_SUP runs or the Bedrock
oscillator extends it, and nothing else changes. -/
def Obligations.IdleBeat : Prop :=
  ∀ s : State, s.pending = [] →
    (s.dev.glob.tbRun = true ∨ (s.dev.glob.porAsserted = false ∧ s.dev.glob.vddBr = true) →
      step s = .next { s with dev := { s.dev with glob.tb := s.dev.glob.tb + 10 } })
    ∧ (s.dev.glob.tbRun = false → (s.dev.glob.porAsserted = true ∨ s.dev.glob.vddBr = false) → step s = .next s)

/-- The queue is taken first in, first out, and to its end: as many steps as commands wait leave it empty, whatever the state; and what the
first commands do does not depend on those behind them. -/
def Obligations.QueueInOrder : Prop :=
  (∀ s : State, ∃ d, Host.Core.run Sys2Proof.core s.pending.length s = .next { dev := d, pending := [] })
  ∧ ∀ (d e : Dev) (l1 l2 : List Instr), Host.Core.run Sys2Proof.core l1.length { dev := d, pending := l1 } = .next { dev := e, pending := [] } →
    Host.Core.run Sys2Proof.core l1.length { dev := d, pending := l1 ++ l2 } = .next { dev := e, pending := l2 }

/-- No step takes anything back from OTP or lowers the smallest release that may run: programmed life-cycle bits, key hashes and epochs stay,
the security version never falls, whatever the state and whatever command is taken. -/
def Obligations.FusesOnlyGain : Prop :=
  ∀ (o : Otp) (m : U32) (s s' : State), NothingTakenBack o m s.dev → step s = .next s' → NothingTakenBack o m s'.dev

/-- At reset OTP holds what log 11 names, blank but for the code of MAKER, and no release is too old: with it the invariant of FusesOnlyGain
begins. What reset leaves: no job and no queue, the queue of commands empty, the device in BEDROCK with POR alone in GLB_RST_CAUSE, and in
the registers of PF BAR0 the reset values that their field tables give. -/
def Obligations.ResetState : Prop :=
  (State.reset.dev.otp = { base := 0x3C3C3C3C } ∧ lcState State.reset.dev.otp = 1 ∧ curEpoch State.reset.dev.otp = none
    ∧ NothingTakenBack State.reset.dev.otp State.reset.dev.boot.cfgMin State.reset.dev)
  ∧ (State.reset.pending = [] ∧ State.reset.dev.glob.st = .bedrock ∧ State.reset.dev.jobs.live = [] ∧ State.reset.dev.sqs = []
  ∧ State.reset.dev.cqs = [] ∧ State.reset.dev.dlr.act = []
  ∧ ∀ off v, (off, v) ∈ [(0x10, 0), (0x20, 1), (0x28, 0), (0x4C, 0x1FFFF), (0x20024, 0x7F), (0x30018, 0x03E80A01), (0x40008, 0x3C00),
      (0x70018, 0x046469), (0xD0008, 0x643C00), (0x110038, 0x06DD6E), (0x120004, 0x14)] → pfReads State.reset.dev off = some v)
end

