-- ==== Sys2Proof/Laws/Cores.lean ====
section
/-!
SUPPORT. Lemmas of the core, engine and store updates: what each leaves, true by a case split on the bound.
-/
namespace Sys2Proof.Machine

@[simp] theorem getCore_modCore_self (d : Dev) (c : Nat) (f : Core → Core) (h : c < 16) :
    getCore (modCore d c f) c = f (getCore d c) := by simp [getCore, modCore, h]
theorem getCore_modCore_ne (d : Dev) (c k : Nat) (f : Core → Core) (h : k ≠ c) :
    getCore (modCore d c f) k = getCore d k := by
  unfold getCore modCore
  split
  · split
    · simp only [Vector.getElem_set]; split <;> simp_all
    · rfl
  · rfl
theorem getCore_modCore (d : Dev) (c k : Nat) (f : Core → Core) (hk : k < 16) :
    getCore (modCore d c f) k = if k = c then f (getCore d k) else getCore d k := by
  split
  · subst_vars; exact getCore_modCore_self d _ f hk
  · exact getCore_modCore_ne d c k f ‹_›
/-- A change of a core changes the cores only. -/
theorem modCore_eq (d : Dev) (c : Nat) (f : Core → Core) : modCore d c f = { d with cores := (modCore d c f).cores } := by
  unfold modCore; split <;> rfl
/-- A change that leaves a core's record as it is leaves the device as it is. -/
theorem modCore_same (d : Dev) (c : Nat) (f : Core → Core) (h : f (getCore d c) = getCore d c) : modCore d c f = d := by
  unfold modCore
  split
  · rename_i hc
    have e : f d.cores[c] = d.cores[c] := by simpa [getCore, hc] using h
    rw [e, Vector.set_getElem_self]
  · rfl
/-- A part of the cores' records that a change leaves alone is as before. -/
theorem getCore_modCore_part {α : Type} (g : Core → α) (d : Dev) (c k : Nat) (f : Core → Core) (h : ∀ x, g (f x) = g x) :
    g (getCore (modCore d c f) k) = g (getCore d k) := by
  by_cases hk : k = c
  · subst hk
    by_cases hb : k < 16
    · rw [getCore_modCore_self _ _ _ hb, h]
    · simp [getCore, hb]
  · rw [getCore_modCore_ne _ _ _ _ hk]

/-- A change of a job changes the jobs in flight only. -/
theorem modJob_eq (d : Dev) (j : Nat) (f : Job → Job) : modJob d j f = { d with jobs := (modJob d j f).jobs } := rfl
@[simp] theorem modJob_cores (d : Dev) (j : Nat) (f : Job → Job) : (modJob d j f).cores = d.cores := rfl
@[simp] theorem getCore_modJob (d : Dev) (j k : Nat) (f : Job → Job) : getCore (modJob d j f) k = getCore d k := rfl

/-- A job whose entry is changed is found changed. -/
theorem findJob_modJob_self {d : Dev} {j : Nat} {b : Job} (f : Job → Job) (h : findJob d j = some b) (hf : (f b).id = b.id) :
    findJob (modJob d j f) j = some (f b) := by
  have hid : b.id = j := by
    have := List.find?_some h
    simpa using this
  unfold findJob modJob at *
  simp only
  generalize d.jobs.live = l at h
  induction l with
  | nil => cases h
  | cons c l ih =>
    simp only [List.map_cons, List.find?_cons] at h ⊢
    by_cases hc : c.id = j
    · simp only [hc, beq_self_eq_true, Option.some.injEq] at h
      subst h
      simp [hc, hf]
    · have : (c.id == j) = false := by simpa using hc
      rw [this] at h
      simp only [hc, if_false, this] at h ⊢
      simpa using ih h

/-- A change of job `j` that keeps its number leaves every other job alone. -/
theorem findJob_modJob_ne (d : Dev) (j n : Nat) (f : Job → Job) (hf : ∀ b, b.id = j → (f b).id = j) (h : n ≠ j) :
    findJob (modJob d j f) n = findJob d n := by
  unfold findJob modJob
  simp only
  induction d.jobs.live with
  | nil => rfl
  | cons b l ih =>
    simp only [List.map_cons, List.find?_cons]
    by_cases hb : b.id = j
    · have h1 : ((f b).id == n) = false := by rw [hf b hb]; simpa using fun e => h e.symm
      have h2 : (b.id == n) = false := by rw [hb]; simpa using fun e => h e.symm
      simp only [hb, if_true, h1]
      have h3 : (j == n) = false := by simpa using fun e => h e.symm
      simp only [h3]
      exact ih
    · simp only [if_neg hb]
      cases hbn : (b.id == n) <;> simp [ih]

/-- The job on a cell is a job in flight. -/
theorem cellJob_mem {d : Dev} {c : Nat} {b : Job} (h : cellJob d c = some b) : b ∈ d.jobs.live := List.mem_of_find?_eq_some h

end Sys2Proof.Machine
end

