-- ==== Sys2Proof/Laws/Maps.lean ====
section
/-!
SUPPORT. Sparse maps and byte memories: a read after a write, and the canonical form that every operation keeps.
-/
namespace Sys2Proof.Machine

/-! ## Reads after writes -/

/-- A write that is not the default reads back. -/
theorem mapGet_mapSet_ne_default {α : Type} [DecidableEq α] (d : α) (m : SMap α) (a : Nat) (v : α) (h : v ≠ d) :
    mapGet d (mapSet d m a v) a = v := by
  induction m with
  | nil => simp [mapSet, h, mapGet]
  | cons e m ih =>
    obtain ⟨k, w⟩ := e
    unfold mapSet
    by_cases h1 : a < k
    · simp [h1, h, mapGet]
    · by_cases h2 : a = k
      · simp [h2, h, mapGet]
      · simp [h1, h2, mapGet, ih]

/-- A write leaves every other key alone. -/
theorem mapGet_mapSet_ne {α : Type} [DecidableEq α] (d : α) (m : SMap α) (a b : Nat) (v : α) (h : b ≠ a) :
    mapGet d (mapSet d m a v) b = mapGet d m b := by
  induction m with
  | nil => unfold mapSet; split <;> simp [mapGet, h]
  | cons e m ih =>
    obtain ⟨k, w⟩ := e
    unfold mapSet
    by_cases h1 : a < k
    · by_cases h3 : v = d <;> simp [h1, h3, mapGet, h]
    · by_cases h2 : a = k
      · subst h2
        by_cases h3 : v = d <;> simp [h3, mapGet, h]
      · simp only [h1, h2, if_false]
        unfold mapGet
        split
        · rfl
        · exact ih

theorem mapWfFrom_mono {α : Type} [DecidableEq α] {d : α} {m : SMap α} {lo hi : Nat} (h : mapWfFrom d hi m = true) (hl : lo ≤ hi) :
    mapWfFrom d lo m = true := by
  cases m with
  | nil => rfl
  | cons e m =>
    obtain ⟨k, v⟩ := e
    simp only [mapWfFrom, Bool.and_eq_true, decide_eq_true_eq] at h ⊢
    exact ⟨⟨by omega, h.1.2⟩, h.2⟩

/-- Below the least key a canonical map reads as the default. -/
theorem mapGet_below {α : Type} [DecidableEq α] {d : α} {m : SMap α} {lo a : Nat} (h : mapWfFrom d lo m = true) (ha : a < lo) :
    mapGet d m a = d := by
  induction m generalizing lo with
  | nil => rfl
  | cons e m ih =>
    obtain ⟨k, v⟩ := e
    simp only [mapWfFrom, Bool.and_eq_true, decide_eq_true_eq] at h
    have : a ≠ k := by omega
    simp only [mapGet, this, if_false]
    exact ih h.2 (by omega)

/-- In a canonical map every write reads back. -/
theorem mapGet_mapSet_self {α : Type} [DecidableEq α] {d : α} {m : SMap α} (h : mapWf d m = true) (a : Nat) (v : α) :
    mapGet d (mapSet d m a v) a = v := by
  by_cases hv : v = d
  · subst hv
    unfold mapWf at h
    revert h
    generalize 0 = lo
    intro h
    induction m generalizing lo with
    | nil => simp [mapSet, mapGet]
    | cons e m ih =>
      obtain ⟨k, w⟩ := e
      simp only [mapWfFrom, Bool.and_eq_true, decide_eq_true_eq] at h
      unfold mapSet
      by_cases h1 : a < k
      · simp only [h1, if_true]
        have : a ≠ k := by omega
        simp only [mapGet, this, if_false]
        exact mapGet_below h.2 (by omega)
      · by_cases h2 : a = k
        · simp only [h2, if_true, if_false, Nat.lt_irrefl]
          exact mapGet_below h.2 (by omega)
        · simp only [h1, h2, if_false, mapGet]
          exact ih (k + 1) h.2
  · exact mapGet_mapSet_ne_default d m a v hv

/-! ## The canonical form -/

theorem mapWfFrom_mapSet {α : Type} [DecidableEq α] {d : α} {m : SMap α} {lo : Nat} (h : mapWfFrom d lo m = true) (a : Nat) (v : α)
    (ha : lo ≤ a) : mapWfFrom d lo (mapSet d m a v) = true := by
  induction m generalizing lo with
  | nil =>
    unfold mapSet
    split
    · rfl
    · simp only [mapWfFrom, Bool.and_eq_true, decide_eq_true_eq]; simp_all
  | cons e m ih =>
    obtain ⟨k, w⟩ := e
    simp only [mapWfFrom, Bool.and_eq_true, decide_eq_true_eq] at h
    unfold mapSet
    by_cases h1 : a < k
    · simp only [h1, if_true]
      split
      · simp only [mapWfFrom, Bool.and_eq_true, decide_eq_true_eq]; exact h
      · simp only [mapWfFrom, Bool.and_eq_true, decide_eq_true_eq]
        refine ⟨⟨ha, by simp_all⟩, ⟨⟨by omega, h.1.2⟩, h.2⟩⟩
    · by_cases h2 : a = k
      · simp only [h2, if_true, if_false, Nat.lt_irrefl]
        split
        · exact mapWfFrom_mono h.2 (by omega)
        · simp only [mapWfFrom, Bool.and_eq_true, decide_eq_true_eq]
          exact ⟨⟨h.1.1, by simp_all⟩, h.2⟩
      · simp only [h1, h2, if_false, mapWfFrom, Bool.and_eq_true, decide_eq_true_eq]
        exact ⟨h.1, ih h.2 (by omega)⟩
/-- A write keeps the canonical form. -/
theorem mapWf_mapSet {α : Type} [DecidableEq α] {d : α} {m : SMap α} (h : mapWf d m = true) (a : Nat) (v : α) :
    mapWf d (mapSet d m a v) = true := mapWfFrom_mapSet h a v (Nat.zero_le a)
theorem mapWf_mapMod {α : Type} [DecidableEq α] {d : α} {m : SMap α} (h : mapWf d m = true) (a : Nat) (f : α → α) :
    mapWf d (mapMod d m a f) = true := mapWf_mapSet h a _

theorem mapWfFrom_filter {α : Type} [DecidableEq α] {d : α} {m : SMap α} {lo : Nat} (h : mapWfFrom d lo m = true) (p : Nat × α → Bool) :
    mapWfFrom d lo (m.filter p) = true := by
  induction m generalizing lo with
  | nil => rfl
  | cons e m ih =>
    obtain ⟨k, w⟩ := e
    simp only [mapWfFrom, Bool.and_eq_true, decide_eq_true_eq] at h
    simp only [List.filter_cons]
    split
    · simp only [mapWfFrom, Bool.and_eq_true, decide_eq_true_eq]; exact ⟨h.1, ih h.2⟩
    · exact mapWfFrom_mono (ih h.2) (by omega)
/-- Keeping some entries keeps the canonical form. -/
theorem mapWf_mapKeep {α : Type} [DecidableEq α] {d : α} {m : SMap α} (h : mapWf d m = true) (p : Nat → Bool) :
    mapWf d (mapKeep p m) = true := mapWfFrom_filter h _

theorem mapWfFrom_mapAll {α : Type} [DecidableEq α] {d : α} {m : SMap α} {lo : Nat} (h : mapWfFrom d lo m = true) (f : Nat → α → α) :
    mapWfFrom d lo (mapAll d f m) = true := by
  induction m generalizing lo with
  | nil => rfl
  | cons e m ih =>
    obtain ⟨k, w⟩ := e
    simp only [mapWfFrom, Bool.and_eq_true, decide_eq_true_eq] at h
    have hm := ih h.2
    unfold mapAll at hm ⊢
    simp only [List.map_cons, List.filter_cons]
    split
    · rename_i hv
      simp only [mapWfFrom, Bool.and_eq_true, decide_eq_true_eq]
      exact ⟨⟨h.1.1, by simp_all⟩, hm⟩
    · exact mapWfFrom_mono hm (by omega)
/-- Changing every entry keeps the canonical form. -/
theorem mapWf_mapAll {α : Type} [DecidableEq α] {d : α} {m : SMap α} (h : mapWf d m = true) (f : Nat → α → α) :
    mapWf d (mapAll d f m) = true := mapWfFrom_mapAll h f

/-! ## Byte memories -/

theorem memByte_memPut_ne (m : SMap Byte) (a b : Nat) (v : Byte) (h : b ≠ a) : memByte (memPut m a v) b = memByte m b :=
  mapGet_mapSet_ne 0 m a b v h
theorem memByte_memPut_self {m : SMap Byte} (hm : memWf m = true) (a : Nat) (v : Byte) : memByte (memPut m a v) a = v :=
  mapGet_mapSet_self hm a v
theorem memWf_memPut {m : SMap Byte} (hm : memWf m = true) (a : Nat) (v : Byte) : memWf (memPut m a v) = true := mapWf_mapSet hm a v
theorem memWf_memWrite {m : SMap Byte} (hm : memWf m = true) (a : Nat) (bs : Bytes) : memWf (memWrite m a bs) = true := by
  induction bs generalizing m a with
  | nil => exact hm
  | cons b bs ih => exact ih (memWf_memPut hm a b) (a + 1)
theorem memWf_memClear {m : SMap Byte} (hm : memWf m = true) (lo n : Nat) : memWf (memClear m lo n) = true := mapWf_mapKeep hm _
/-- A write of a string leaves every byte outside it alone. -/
theorem memByte_memWrite_out (m : SMap Byte) (a b : Nat) (bs : Bytes) (h : b < a ∨ a + bs.length ≤ b) :
    memByte (memWrite m a bs) b = memByte m b := by
  induction bs generalizing m a with
  | nil => rfl
  | cons x bs ih =>
    simp only [List.length_cons] at h
    unfold memWrite
    rw [ih (memPut m a x) (a + 1) (by omega)]
    exact memByte_memPut_ne m a b x (by omega)
/-- A string that has been written reads back. -/
theorem memByte_memWrite_in {m : SMap Byte} (hm : memWf m = true) (a i : Nat) (bs : Bytes) (h : i < bs.length) :
    memByte (memWrite m a bs) (a + i) = bs[i] := by
  induction bs generalizing m a i with
  | nil => simp at h
  | cons x bs ih =>
    unfold memWrite
    cases i with
    | zero =>
      rw [memByte_memWrite_out _ _ _ _ (by omega)]
      exact memByte_memPut_self hm a x
    | succ i =>
      have := ih (memWf_memPut hm a x) (a + 1) i (by simpa using h)
      rw [show a + (i + 1) = a + 1 + i by omega, this]
      rfl
theorem mapGet_append_left {α : Type} (d : α) (l r : SMap α) (k : Nat) (h : ∀ e ∈ r, e.1 ≠ k) : mapGet d (l ++ r) k = mapGet d l k := by
  induction l with
  | nil =>
    induction r with
    | nil => rfl
    | cons e r ih =>
      have hk : ¬ k = e.1 := fun x => h e (by simp) x.symm
      have := ih fun x hx => h x (by simp [hx])
      simp only [List.nil_append, mapGet, hk, if_false] at this ⊢
      exact this
  | cons e l ih => simp only [List.cons_append, mapGet, ih]
theorem mapGet_append_right {α : Type} (d : α) (l r : SMap α) (k : Nat) (h : ∀ e ∈ l, e.1 ≠ k) : mapGet d (l ++ r) k = mapGet d r k := by
  induction l with
  | nil => rfl
  | cons e l ih =>
    have hk : ¬ k = e.1 := fun x => h e (by simp) x.symm
    simp only [List.cons_append, mapGet, hk, if_false]
    exact ih fun x hx => h x (by simp [hx])
theorem listBytes_keys (a : Nat) (bs : Bytes) : ∀ e ∈ listBytes a bs, a ≤ e.1 ∧ e.1 < a + bs.length := by
  induction bs generalizing a with
  | nil => simp [listBytes]
  | cons b bs ih =>
    intro e he
    have hr : e ∈ listBytes (a + 1) bs ∨ e = (a, b) := by
      unfold listBytes at he
      split at he
      · exact .inl he
      · rcases List.mem_cons.1 he with h | h
        · exact .inr h
        · exact .inl h
    rcases hr with h | rfl
    · have := ih (a + 1) e h
      simp only [List.length_cons]; omega
    · simp
theorem memByte_listBytes (a i : Nat) (bs : Bytes) (h : i < bs.length) : memByte (listBytes a bs) (a + i) = bs[i] := by
  induction bs generalizing a i with
  | nil => simp at h
  | cons b bs ih =>
    unfold memByte listBytes
    cases i with
    | zero =>
      by_cases hb : b = 0
      · rw [if_pos hb]
        have := mapGet_append_right (0 : Byte) (listBytes (a + 1) bs) [] (a + 0) fun e he => by have := listBytes_keys _ _ e he; omega
        rw [List.append_nil] at this
        rw [this]
        exact hb.symm
      · rw [if_neg hb]; simp [mapGet]
    | succ i =>
      have e := ih (a + 1) i (by simpa using h)
      rw [show a + (i + 1) = a + 1 + i by omega]
      split
      · exact e
      · have hk : ¬ a + 1 + i = a := by omega
        simp only [mapGet, hk, if_false]; exact e
theorem mem_mapKeep {α : Type} (p : Nat → Bool) (m : SMap α) : ∀ e ∈ mapKeep p m, p e.1 = true := by
  intro e he; unfold mapKeep at he; exact (List.mem_filter.1 he).2
theorem memByte_mapKeep (p : Nat → Bool) (m : SMap Byte) (k : Nat) (h : p k = true) : memByte (mapKeep p m) k = memByte m k := by
  unfold memByte
  induction m with
  | nil => rfl
  | cons e m ih =>
    unfold mapKeep at ih ⊢
    rw [List.filter_cons]
    by_cases hk : k = e.1
    · subst hk; simp only [h, if_true, mapGet]
    · split
      · simp only [mapGet, hk, if_false]; exact ih
      · simp only [mapGet, hk, if_false]; exact ih
/-- A region filled whole reads back, and every byte outside it keeps its value. -/
theorem memByte_memFill_in (m : SMap Byte) (a i : Nat) (bs : Bytes) (h : i < bs.length) : memByte (memFill m a bs) (a + i) = bs[i] := by
  unfold memFill memByte
  rw [mapGet_append_left _ _ _ _ fun e he => by have := mem_mapKeep _ _ e he; simp at this; omega,
    mapGet_append_right _ _ _ _ fun e he => by have := mem_mapKeep _ _ e he; simp at this; omega]
  exact memByte_listBytes a i bs h
theorem memByte_memFill_out (m : SMap Byte) (a k : Nat) (bs : Bytes) (h : k < a ∨ a + bs.length ≤ k) : memByte (memFill m a bs) k = memByte m k := by
  unfold memFill memByte
  rcases h with h | h
  · rw [mapGet_append_left _ _ _ _ fun e he => by have := mem_mapKeep _ _ e he; simp at this; omega,
      mapGet_append_left _ _ _ _ fun e he => by have := listBytes_keys _ _ e he; omega]
    exact memByte_mapKeep _ _ _ (by simpa using h)
  · rw [mapGet_append_right _ _ _ _ fun e he => by
      rcases List.mem_append.1 he with he | he
      · have := mem_mapKeep _ _ e he; simp at this; omega
      · have := listBytes_keys _ _ e he; omega]
    exact memByte_mapKeep _ _ _ (by simpa using h)
theorem mapWfFrom_append {α : Type} [DecidableEq α] {d : α} {l r : SMap α} {lo mid : Nat} (hl : mapWfFrom d lo l = true) (hr : mapWfFrom d mid r = true)
    (h : ∀ e ∈ l, e.1 < mid) (hm : lo ≤ mid) : mapWfFrom d lo (l ++ r) = true := by
  induction l generalizing lo with
  | nil => exact mapWfFrom_mono hr hm
  | cons e l ih =>
    obtain ⟨k, v⟩ := e
    simp only [List.cons_append, mapWfFrom, Bool.and_eq_true] at hl ⊢
    exact ⟨hl.1, ih hl.2 (fun e he => h e (by simp [he])) (h (k, v) (by simp))⟩
theorem mapWfFrom_listBytes (a : Nat) (bs : Bytes) : mapWfFrom (0 : Byte) a (listBytes a bs) = true := by
  induction bs generalizing a with
  | nil => rfl
  | cons b bs ih =>
    unfold listBytes
    split
    · exact mapWfFrom_mono (ih (a + 1)) (by omega)
    · rename_i hb
      simp only [mapWfFrom, ih, Bool.and_true, Bool.and_eq_true]
      simpa using hb
theorem mapWfFrom_keep_above {α : Type} [DecidableEq α] {d : α} {m : SMap α} {lo : Nat} (h : mapWfFrom d lo m = true) (a : Nat) :
    mapWfFrom d a (mapKeep (a ≤ ·) m) = true := by
  induction m generalizing lo with
  | nil => rfl
  | cons e m ih =>
    obtain ⟨k, v⟩ := e
    simp only [mapWfFrom, Bool.and_eq_true, decide_eq_true_eq] at h
    have := ih h.2
    unfold mapKeep at this ⊢
    rw [List.filter_cons]
    split
    · rename_i hk
      simp only [decide_eq_true_eq] at hk
      simp only [mapWfFrom, Bool.and_eq_true, decide_eq_true_eq]
      refine ⟨⟨hk, h.1.2⟩, ?_⟩
      exact mapWfFrom_filter h.2 _
    · exact this
/-- A fill keeps the canonical form. -/
theorem memWf_memFill {m : SMap Byte} (hm : memWf m = true) (a : Nat) (bs : Bytes) : memWf (memFill m a bs) = true := by
  unfold memFill memWf mapWf
  refine mapWfFrom_append (mid := a + bs.length) (mapWfFrom_append (mid := a) (mapWf_mapKeep hm _) (mapWfFrom_listBytes a bs) ?_ (by omega)) (mapWfFrom_keep_above hm _) ?_ (by omega)
  · intro e he; have := mem_mapKeep _ _ e he; simpa using this
  · intro e he
    rcases List.mem_append.1 he with he | he
    · have := mem_mapKeep _ _ e he; simp at this; omega
    · exact (listBytes_keys _ _ e he).2
@[simp] theorem memRead_length (m : SMap Byte) (a n : Nat) : (memRead m a n).length = n := by
  induction n generalizing a with
  | zero => rfl
  | succ n ih => simp [memRead, ih]
/-- The little-endian value of a string fits its length. -/
theorem leNat_lt (bs : Bytes) : leNat bs < 256 ^ bs.length := by
  induction bs with
  | nil => simp [leNat]
  | cons b bs ih =>
    have : b.toNat < 256 := b.isLt
    simp only [leNat, List.length_cons, Nat.pow_succ]
    omega
theorem leBytes_length (n v : Nat) : (leBytes n v).length = n := by
  induction n generalizing v with
  | zero => rfl
  | succ n ih => simp [leBytes, ih]
/-- The memories of the state after reset are in canonical form. -/
theorem reset_memories : (∀ c : Fin 16, memWf State.reset.dev.cores[c].tile = true) ∧ memWf State.reset.dev.boot.nvm = true := by
  constructor
  · intro c; simp [State.reset, memWf, mapWf, mapWfFrom]
  · rfl

end Sys2Proof.Machine
end

