-- ==== Sys2Proof/Laws/Reports.lean ====
section
/-!
SUPPORT. What signalling, recording and sending frames change: the host interface, the recorder, Amber, Bedrock's registers and the
fabric, and nothing else. Later proofs cite these lemmas and never unfold the operations.
-/
namespace Sys2Proof.Safety

open Sys2Proof.Machine

/-! ## The two relations -/

theorem Signals.refl (d : Dev) : Signals d d := ⟨d.hif, d.glob.evHold, d.glob.evCarry, rfl⟩
theorem Signals.trans {a b c : Dev} : Signals a b → Signals b c → Signals a c := by
  rintro ⟨_, _, _, rfl⟩ ⟨_, _, _, rfl⟩; exact ⟨_, _, _, rfl⟩
theorem Reports.refl (d : Dev) : Reports d d := ⟨d.hif, d.glob.evHold, d.glob.evCarry, d.amb, d.bdr, d.fab, d.recd, rfl⟩
theorem Reports.trans {a b c : Dev} : Reports a b → Reports b c → Reports a c := by
  rintro ⟨_, _, _, _, _, _, _, rfl⟩ ⟨_, _, _, _, _, _, _, rfl⟩; exact ⟨_, _, _, _, _, _, _, rfl⟩
theorem Signals.reports {a b : Dev} : Signals a b → Reports a b := by
  rintro ⟨_, _, _, rfl⟩; exact ⟨_, _, _, _, _, _, _, rfl⟩

theorem Signals.foldl {β : Type} (f : Dev → β → Dev) (h : ∀ d x, Signals d (f d x)) (l : List β) (d : Dev) : Signals d (l.foldl f d) := by
  induction l generalizing d with
  | nil => exact Signals.refl d
  | cons x l ih => exact (h d x).trans (ih (f d x))
theorem Reports.foldl {β : Type} (f : Dev → β → Dev) (h : ∀ d x, Reports d (f d x)) (l : List β) (d : Dev) : Reports d (l.foldl f d) := by
  induction l generalizing d with
  | nil => exact Reports.refl d
  | cons x l ih => exact (h d x).trans (ih (f d x))

end Sys2Proof.Safety

namespace Sys2Proof.Machine

open Sys2Proof.Safety

/-! ## Requests and events -/

theorem emit_signals (d : Dev) (o : Out) : Signals d (emit d o) := by
  unfold emit
  split
  · exact ⟨_, _, _, rfl⟩
  · split
    · exact Signals.refl d
    · split
      · exact ⟨_, _, _, rfl⟩
      · split <;> exact ⟨_, _, _, rfl⟩
theorem hostWrite_signals (d : Dev) (f : Nat) (a : U64) (bs : Bytes) (r : Bool) : Signals d (hostWrite d f a bs r) :=
  Signals.foldl emit emit_signals _ d
theorem setVec_signals (d : Dev) (f v : Nat) (x : Vec) : Signals d (setVec d f v x) := ⟨_, _, _, rfl⟩
theorem msixSend_signals (d : Dev) (f v : Nat) : Signals d (msixSend d f v) := by
  unfold msixSend; simp only; split
  · exact setVec_signals ..
  · exact emit_signals ..
theorem evRequest_signals (d : Dev) (n : Nat) : Signals d (evRequest d n) := by
  unfold evRequest
  simp only
  split
  · exact Signals.refl d
  · split
    · exact ⟨_, _, _, rfl⟩
    · exact (msixSend_signals d 0 _).trans ⟨_, _, _, rfl⟩
theorem raise_signals {w : Nat} (d : Dev) (n : Nat) (a b : BitVec w) : Signals d (raise d n a b) := by
  unfold raise
  split
  · exact Signals.refl d
  · exact evRequest_signals d n
theorem hifCause_signals (d : Dev) (b : BitVec 5) : Signals d (hifCause d b) :=
  Signals.trans ⟨_, _, _, rfl⟩ (raise_signals _ _ _ _)
theorem hifLastErr_signals (d : Dev) (o k : Nat) (e : U16) (a : U32) : Signals d (hifLastErr d o k e a) := ⟨_, _, _, rfl⟩
theorem badAccess_signals (d : Dev) (f o : Nat) : Signals d (badAccess d f o) :=
  Signals.trans (Signals.trans ⟨_, _, _, rfl⟩ (hifLastErr_signals _ _ _ _ _)) (hifCause_signals _ _)

/-! ## Frames -/

theorem modPort_reports (d : Dev) (p : Nat) (f : Port → Port) : Reports d (modPort d p f) := by
  unfold modPort; split
  · exact ⟨_, _, _, _, _, _, _, rfl⟩
  · exact Reports.refl d
theorem modNode_reports (d : Dev) (n : Nat) (f : Node → Node) : Reports d (modNode d n f) := ⟨_, _, _, _, _, _, _, rfl⟩
theorem portEmit_reports (d : Dev) (p : Nat) (t : FType) (f : Frame) : Reports d (portEmit d p t f) := ⟨_, _, _, _, _, _, _, rfl⟩
theorem pumpPort_reports (p n : Nat) : ∀ (ws : List (FType × Frame)) (ls : List Nat) (d : Dev), Reports d (pumpPort p n ws ls d) := by
  induction n with
  | zero => intro ws ls d; exact Reports.refl d
  | succ n ih =>
    intro ws ls d
    cases ws with
    | nil => exact Reports.refl d
    | cons x ws =>
      obtain ⟨t, f⟩ := x
      simp only [pumpPort]
      split
      · exact ((modPort_reports _ _ _).trans (portEmit_reports _ _ _ _)).trans (ih _ _ _)
      · exact (modPort_reports _ _ _).trans (ih _ _ _)
theorem pump_reports (d : Dev) (p : Nat) : Reports d (pump d p) := (modPort_reports _ _ _).trans (pumpPort_reports _ _ _ _ _)
theorem portSend_reports (d : Dev) (p : Nat) (t : FType) (f : Frame) : Reports d (portSend d p t f) := by
  unfold portSend
  split
  · exact portEmit_reports _ _ _ _
  · exact (modPort_reports _ _ _).trans (pump_reports _ _)
theorem routeFrame_reports (d : Dev) (t : FType) (f : Frame) : Reports d (routeFrame d t f) := by
  unfold routeFrame
  split
  · exact Reports.refl d
  · exact portSend_reports _ _ _ _
theorem sendFrame_reports (d : Dev) (n : Nat) (t : FType) (b : Bytes) : Reports d (sendFrame d n t b) := by
  unfold sendFrame
  simp only
  split
  · exact routeFrame_reports _ _ _
  · exact (modNode_reports _ _ _).trans (routeFrame_reports _ _ _)
theorem sendWrites_reports (d : Dev) (j o : Nat) (a : U64) (bs : Bytes) : Reports d (sendWrites d j o a bs) :=
  Reports.foldl _ (fun _ _ => (modNode_reports _ _ _).trans (sendFrame_reports _ _ _ _)) _ d
theorem sendReadData_reports (d : Dev) (n j : Nat) (s : DmaSide) (bs : Bytes) : Reports d (sendReadData d n j s bs) :=
  Reports.foldl _ (fun _ _ => sendFrame_reports _ _ _ _) _ d
theorem hostRead_reports (d : Dev) (f : Nat) (a : U64) (n : Nat) (w : ReadFor) : Reports d (hostRead d f a n w) := by
  unfold hostRead
  split
  · split <;> first | exact sendFrame_reports _ _ _ _ | exact Reports.refl d
  · exact (Signals.foldl emit emit_signals _ d).reports

/-! ## Amber, the recorder and Bedrock's registers -/

theorem bdrCause_reports (d : Dev) (b : BitVec 9) : Reports d (bdrCause d b) :=
  Reports.trans ⟨_, _, _, _, _, _, _, rfl⟩ (raise_signals _ _ _ _).reports
theorem recCause_reports (d : Dev) (b : BitVec 4) : Reports d (recCause d b) :=
  Reports.trans ⟨_, _, _, _, _, _, _, rfl⟩ (raise_signals _ _ _ _).reports
theorem ambCause_reports (d : Dev) (b : BitVec 3) : Reports d (ambCause d b) :=
  Reports.trans ⟨_, _, _, _, _, _, _, rfl⟩ (raise_signals _ _ _ _).reports
theorem ringPut_reports (d : Dev) (e : AEntry) : Reports d (ringPut d e) := by
  unfold ringPut
  simp only
  split
  · exact ⟨_, _, _, _, _, _, _, rfl⟩
  · split
    · exact ⟨_, _, _, _, _, _, _, rfl⟩
    · split
      · exact ⟨_, _, _, _, _, _, _, rfl⟩
      · exact Reports.trans ⟨_, _, _, _, _, _, _, rfl⟩ (bdrCause_reports _ _)
theorem relay_reports (d : Dev) (e : AEntry) : Reports d (relay d e) := by
  unfold relay
  split
  · exact sendFrame_reports _ _ _ _
  · exact Reports.refl d
theorem amber_reports (d : Dev) (c : ACode) (s : ASrc) (a : Bytes) : Reports d (amber d c s a) := by
  unfold amber
  simp only
  split
  · exact ⟨_, _, _, _, _, _, _, rfl⟩
  · exact Reports.trans (Reports.trans ⟨_, _, _, _, _, _, _, rfl⟩ (ringPut_reports _ _)) (relay_reports _ _)
theorem recUpdate_reports (d : Dev) (k : Nat) (x : RecData) (f : RecData → RecData) : Reports d (recUpdate d k x f) := by
  unfold recUpdate
  simp only
  split
  · exact Reports.refl d
  · split
    · exact ⟨_, _, _, _, _, _, _, rfl⟩
    · split
      · exact ⟨_, _, _, _, _, _, _, rfl⟩
      · split
        · exact Reports.refl d
        · exact Reports.trans ⟨_, _, _, _, _, _, _, rfl⟩ (recCause_reports _ _)
theorem recHist_reports (d : Dev) (s v : Nat) : Reports d (recHist d s v) := recUpdate_reports _ _ _ _
theorem recExtreme_reports (d : Dev) (s : Nat) (v : Int) : Reports d (recExtreme d s v) := recUpdate_reports _ _ _ _
theorem recLife_reports (d : Dev) (f : U64 → U32 → Vector U32 9 → U32 → U32 → U64 → RecData) : Reports d (recLife d f) :=
  recUpdate_reports _ _ _ _
theorem lifeFlush_reports (d : Dev) : Reports d (lifeFlush d) := by
  unfold lifeFlush
  simp only
  split
  · exact Reports.refl d
  · split
    · exact Reports.refl d
    · exact Reports.trans ⟨_, _, _, _, _, _, _, rfl⟩ (recLife_reports _ _)
theorem lifeNote_reports (d : Dev) (k : Nat) : Reports d (lifeNote d k) :=
  Reports.trans ⟨_, _, _, _, _, _, _, rfl⟩ (lifeFlush_reports _)
theorem freeze_reports (d : Dev) (b : Nat) : Reports d (freeze d b) := by
  unfold freeze
  split
  · exact ⟨_, _, _, _, _, _, _, rfl⟩
  · simp only
    split
    · exact Reports.trans ⟨_, _, _, _, _, _, _, rfl⟩ (lifeNote_reports _ _)
    · exact Reports.trans (Reports.trans ⟨_, _, _, _, _, _, _, rfl⟩ (lifeNote_reports _ _)) ⟨_, _, _, _, _, _, _, rfl⟩

end Sys2Proof.Machine
end

