-- ==== Sys2Proof/Laws/Jobs.lean ====
section
/-!
SUPPORT. The end of a job, said once: what `finish` and `finishOut` change on a device that is no member of a fabric.
-/
namespace Sys2Proof.Safety

open Sys2Proof.Machine

theorem Closes.refl (d : Dev) : Closes d d :=
  ⟨d.hif, d.glob.evHold, d.glob.evCarry, d.glob.drbgCtr, d.recd, d.rng.unavail, d.jobs, d.io, d.parked, d.sqs, d.cqs, d.engs, d.mes,
    d.tss, d.jrn, rfl⟩
theorem Closes.trans {a b c : Dev} : Closes a b → Closes b c → Closes a c := by
  rintro ⟨_, _, _, _, _, _, _, _, _, _, _, _, _, _, _, rfl⟩ ⟨_, _, _, _, _, _, _, _, _, _, _, _, _, _, _, rfl⟩
  exact ⟨_, _, _, _, _, _, _, _, _, _, _, _, _, _, _, rfl⟩
theorem Signals.closes {a b : Dev} : Signals a b → Closes a b := by
  rintro ⟨_, _, _, rfl⟩; exact ⟨_, _, _, _, _, _, _, _, _, _, _, _, _, _, _, rfl⟩

end Sys2Proof.Safety

namespace Sys2Proof.Machine

open Sys2Proof.Safety

/-- Recording a value: signalling and the recorder change. -/
theorem recUpdate_ex (d : Dev) (k : Nat) (x : RecData) (f : RecData → RecData) :
    ∃ h a b c, recUpdate d k x f = { d with hif := h, glob := { d.glob with evHold := a, evCarry := b }, recd := c } := by
  unfold recUpdate
  simp only
  split
  · exact ⟨_, _, _, _, rfl⟩
  · split
    · exact ⟨_, _, _, _, rfl⟩
    · split
      · exact ⟨_, _, _, _, rfl⟩
      · split
        · exact ⟨_, _, _, _, rfl⟩
        · unfold recCause
          obtain ⟨h, a, b, e⟩ := raise_signals { { d with recd.full := true } with
            recd.event := d.recd.event ||| 0x4 } 9 d.recd.event (d.recd.event ||| 0x4)
          exact ⟨h, a, b, _, e⟩
theorem recHist_ex (d : Dev) (s v : Nat) :
    ∃ h a b c, recHist d s v = { d with hif := h, glob := { d.glob with evHold := a, evCarry := b }, recd := c } := recUpdate_ex _ _ _ _

theorem modEng_ex (d : Dev) (c : Nat) (f : EngReg → EngReg) : ∃ e, modEng d c f = { d with engs := e } := by
  unfold modEng; split <;> exact ⟨_, rfl⟩
/-- What overwriting a job's traces may change: the engines, parked contexts and the count of DRBG output used. -/
def Wipes (d d' : Dev) : Prop :=
  ∃ q e me ts pk, d' = { d with glob := { d.glob with drbgCtr := q }, engs := e, mes := me, tss := ts, parked := pk }
theorem Wipes.refl (d : Dev) : Wipes d d := ⟨_, _, _, _, _, rfl⟩
theorem Wipes.trans {a b c : Dev} : Wipes a b → Wipes b c → Wipes a c := by
  rintro ⟨_, _, _, _, _, rfl⟩ ⟨_, _, _, _, _, rfl⟩; exact ⟨_, _, _, _, _, rfl⟩
theorem Wipes.foldl {α : Type} (f : Dev → α → Dev) (h : ∀ d x, Wipes d (f d x)) (l : List α) (d : Dev) : Wipes d (l.foldl f d) := by
  induction l generalizing d with
  | nil => exact .refl d
  | cons x l ih => exact (h d x).trans (ih _)
theorem modMe_wipes (d : Dev) (i : Nat) (f) : Wipes d (modMe d i f) := by unfold modMe; split <;> exact ⟨_, _, _, _, _, rfl⟩
theorem modTs_wipes (d : Dev) (i : Nat) (f) : Wipes d (modTs d i f) := by unfold modTs; split <;> exact ⟨_, _, _, _, _, rfl⟩
theorem modEng_wipes (d : Dev) (i : Nat) (f) : Wipes d (modEng d i f) := by unfold modEng; split <;> exact ⟨_, _, _, _, _, rfl⟩
theorem noise_wipes (d : Dev) (n : Nat) : Wipes d (noise d n).2 := ⟨_, _, _, _, _, rfl⟩
theorem wipeSlate_wipes (d : Dev) (c : Nat) : Wipes d (wipeSlate d c) := by
  unfold wipeSlate
  split
  · exact .refl d
  · exact (noise_wipes d _).trans (modMe_wipes _ _ _)
theorem wipeContexts_wipes (d : Dev) (j : Nat) : Wipes d (wipeContexts d j) := by
  unfold wipeContexts
  refine ((Wipes.foldl _ (fun x k => ⟨_, _, _, _, _, rfl⟩) _ _).trans (Wipes.foldl _ (fun x k => ?_) _ _)).trans
    (Wipes.foldl _ (fun x k => ?_) _ _)
  · show Wipes x (ite _ _ _)
    split
    · exact (noise_wipes _ _).trans (modMe_wipes _ _ _)
    · exact .refl _
  · show Wipes x (ite _ _ _)
    split
    · exact (noise_wipes _ _).trans (modTs_wipes _ _ _)
    · exact .refl _
theorem engineEnd_wipes (d : Dev) (b : Job) (c : Nat) : Wipes d (engineEnd d b c) := (modEng_wipes _ _ _).trans (wipeSlate_wipes _ _)

/-- A CQ's message: the CQ's count and timer, and signalling. -/
theorem cqMessage_ex (d : Dev) (c : Nat) :
    ∃ h a b, cqMessage d c = { d with
      cqs := mapSet {} d.cqs c { getCq d c with unsig := 0, timer := false }, hif := h
      glob := { d.glob with evHold := a, evCarry := b } } := by
  unfold cqMessage
  simp only
  split
  · obtain ⟨h, a, b, e⟩ := msixSend_signals (setCq d c { getCq d c with unsig := 0, timer := false }) ‹Nat› (getCq d c).vector.toNat
    exact ⟨h, a, b, e⟩
  · exact ⟨_, _, _, rfl⟩

/-- One completion entry: its CQ, the host interface and the message hold-off change, and the CQ's TAIL is one higher. -/
theorem postCqe_ex (d : Dev) (o c : Nat) (entry : Byte → Bytes) (st : U16) (n : Bool) (hw : mapWf {} d.cqs = true) :
    ∃ h a b q, postCqe d o c entry st n = { d with cqs := q, hif := h, glob := { d.glob with evHold := a, evCarry := b } }
      ∧ mapWf {} q = true ∧ (mapGet {} q c).tail = (getCq d c).tail + 1 ∧ ∀ k, k ≠ c → mapGet {} q k = getCq d k := by
  unfold postCqe
  simp only
  obtain ⟨h, a, b, e⟩ := hostWrite_signals d o (((getCq d c).base.setWidth 64 <<< 12)
    + BitVec.ofNat 64 (32 * ((getCq d c).tail.toNat % cqSize (getCq d c)))) (entry (phaseOf (getCq d c).log2 (getCq d c).tail)) false
  rw [e]
  generalize hx : ({ getCq d c with tail := (getCq d c).tail + 1, reserved := (getCq d c).reserved - 1, unsig := (getCq d c).unsig + 1, timer := (getCq d c).timer || (getCq d c).coalTime != 0 } : Cq) = x
  have ht : x.tail = (getCq d c).tail + 1 := by rw [← hx]
  have hq : mapWf {} (mapSet {} d.cqs c x) = true := mapWf_mapSet hw c x
  have hr : mapGet {} (mapSet {} d.cqs c x) c = x := mapGet_mapSet_self hw c x
  generalize (_ || n : Bool) = cc
  split
  · obtain ⟨h2, a2, b2, e2⟩ := cqMessage_ex (setCq { d with hif := h, glob := { d.glob with evHold := a, evCarry := b } } c x) c
    refine ⟨h2, a2, b2, _, e2, mapWf_mapSet hq c _, ?_, ?_⟩
    · rw [mapGet_mapSet_self (by exact hq)]
      simp only [getCq, setCq, hr, ht]
    · intro k hk
      rw [mapGet_mapSet_ne _ _ _ _ _ hk]
      exact mapGet_mapSet_ne _ _ _ _ _ hk
  · refine ⟨h, a, b, _, rfl, hq, by rw [hr, ht], ?_⟩
    intro k hk
    exact mapGet_mapSet_ne _ _ _ _ _ hk

/-- The end of a job on the device that fetched it. -/
theorem closeJob_ends (d : Dev) (b : Job) (st det : U16) (r : RunInfo) (hs : mapWf {} d.sqs = true) (hc : mapWf {} d.cqs = true) :
    JobEnds d (closeJob d b st det r) b st b.effect ∧ Closes d (closeJob d b st det r) := by
  unfold closeJob
  simp only
  generalize hn : (List.append d.jobs.done _ : List Done) = dn
  generalize hent : (fun ph => cqeBytes b.e.tag st det (BitVec.ofNat 32 b.outLen) b.index
    (BitVec.ofNat 16 (b.sq - (getOwn d b.owner).sqBase)) b.effect r.attempts r.cycles r.engine r.ver ph b.result) = entry
  generalize hd : ({ modSq (dropJob d b.id) b.sq (fun q => { q with
      outstanding := q.outstanding - 1, draining := q.draining && q.outstanding != 1 }) with jobs.done := _ } : Dev) = d2
  obtain ⟨h, a, bb, q, e, hw, ht, hk⟩ := postCqe_ex d2 b.owner b.cq entry st (b.e.opcode == 0x0007)
    (by rw [← hd]; exact hc)
  rw [e, ← hd]
  refine ⟨⟨rfl, ⟨_, rfl, rfl, rfl, rfl, rfl, rfl, rfl, rfl, rfl⟩, ?_, ?_⟩, ?_⟩
  · show (mapGet {} q b.cq).tail = _
    rw [ht, ← hd]; rfl
  · show (mapGet {} (mapSet {} d.sqs b.sq _) b.sq).outstanding = _
    rw [mapGet_mapSet_self hs]
    rfl
  · exact ⟨_, _, _, _, _, _, _, _, _, _, _, _, _, _, _, rfl⟩

theorem modJ_ex (d : Dev) (n : Nat) (f : JEntry → JEntry) : ∃ j, modJ d n f = { d with jrn := j } := ⟨_, rfl⟩

theorem endEngines_wipes (d : Dev) (b : Job) : Wipes d (endEngines d b) := by
  unfold endEngines
  have h2 : ∀ d1 : Dev, Wipes d d1 → Wipes d (match b.eng2 with | some c => engineEnd d1 b c | none => d1) := by
    intro d1 h
    split
    · exact h.trans (engineEnd_wipes _ _ _)
    · exact h
  refine h2 _ ?_
  split
  · split
    · exact Wipes.foldl _ (fun x i => engineEnd_wipes _ _ _) _ _
    · exact engineEnd_wipes _ _ _
  · exact .refl d
theorem endJournal_ex (d : Dev) (b : Job) (st : U16) : ∃ j, endJournal d b st = { d with jrn := j } := by
  unfold endJournal; split <;> exact ⟨_, rfl⟩
theorem endCounts_ex (d : Dev) (b : Job) (st : U16) :
    ∃ h x y c u, endCounts d b st
      = { d with hif := h, glob := { d.glob with evHold := x, evCarry := y }, recd := c, rng := { d.rng with unavail := u } } := by
  unfold endCounts
  obtain ⟨h, x, y, c, e⟩ := recHist_ex { d with
    rng.unavail := if st = stRngUnavailable then satInc d.rng.unavail else d.rng.unavail } (b.e.opcode.toNat / 64) (d.glob.tb - b.fetchTb).toNat
  exact ⟨h, x, y, c, _, e⟩

/-- The end of a job on a device that is no member, with its output list in order: it is gone, its completion is kept, and nothing
beyond `Closes` changes. -/
theorem finish_ends (d : Dev) (b : Job) (st det : U16) (hm : isMember d = false) (hb : b.outBad = none)
    (hs : mapWf {} d.sqs = true) (hc : mapWf {} d.cqs = true) :
    JobEnds d (finish d b st det) b st b.effect ∧ Closes d (finish d b st det) := by
  obtain ⟨q, e1, me, ts, pk, h1⟩ := (wipeContexts_wipes d b.id).trans (endEngines_wipes _ b)
  obtain ⟨j, h2⟩ := endJournal_ex { d with glob := { d.glob with drbgCtr := q }, engs := e1, mes := me, tss := ts, parked := pk } b st
  obtain ⟨h, x, y, c, u, h3⟩ := endCounts_ex
    { d with glob := { d.glob with drbgCtr := q }, engs := e1, mes := me, tss := ts, parked := pk, jrn := j } b st
  unfold finish
  simp only [hb, hm, Option.isSome_none, Bool.false_eq_true, if_false]
  rw [h1, h2, h3]
  obtain ⟨k1, k2⟩ := closeJob_ends { d with
    engs := e1, mes := me, tss := ts, parked := pk, jrn := j, hif := h, recd := c, rng := { d.rng with unavail := u }
    glob := { d.glob with evHold := x, evCarry := y, drbgCtr := q } }
    b st det (runInfo b) hs hc
  refine ⟨⟨k1.live, k1.done, k1.tail, k1.free⟩, Closes.trans ?_ k2⟩
  exact ⟨_, _, _, _, _, _, _, _, _, _, _, _, _, _, _, rfl⟩

/-- Output through a segment list or to one address: signalling only, on a device that is no member. -/
theorem jobWrite_signals (d : Dev) (j f : Nat) (a : U64) (bs : Bytes) (hm : isMember d = false) : Signals d (jobWrite d j f a bs) := by
  unfold jobWrite
  rw [if_neg (by rw [hm]; decide)]
  exact hostWrite_signals d f a bs true
theorem Signals.isMember {d d' : Dev} (h : Signals d d') : Machine.isMember d' = Machine.isMember d := by
  obtain ⟨_, _, _, rfl⟩ := h; rfl
theorem writeSegs_signals (j f : Nat) (segs : List Seg) (n : Nat) : ∀ (off : Nat) (bs : Bytes) (d : Dev), isMember d = false →
    Signals d (writeSegs d j f segs n off bs) := by
  induction n with
  | zero => intro off bs d _; exact Signals.refl d
  | succ n ih =>
    intro off bs d hm
    cases bs with
    | nil => exact Signals.refl d
    | cons x bs =>
      simp only [writeSegs]
      split
      · exact Signals.refl d
      · rename_i a room _
        have h := jobWrite_signals d j f (BitVec.ofNat 64 a) ((x :: bs).take (min room (bs.length + 1))) hm
        exact h.trans (ih _ _ _ (by rw [Signals.isMember h]; exact hm))
theorem writeOut_signals (d : Dev) (b : Job) (off : Nat) (bs : Bytes) (hm : isMember d = false) : Signals d (writeOut d b off bs) := by
  unfold writeOut
  split
  · exact writeSegs_signals _ _ _ _ _ _ _ hm
  · exact jobWrite_signals _ _ _ _ _ hm

/-- A job that succeeds: its output is written, then it ends with STATUS 0. -/
theorem finishOut_ends (d : Dev) (b : Job) (out : Bytes) (res : U32) (eff : Byte) (att cyc : Nat) (hm : isMember d = false)
    (hb : b.outBad = none) (hs : mapWf {} d.sqs = true) (hc : mapWf {} d.cqs = true) :
    JobEnds d (finishOut d b out res eff att cyc) b stOk (eff ||| if out.isEmpty then 0 else effOutput)
      ∧ Closes d (finishOut d b out res eff att cyc) := by
  have hf : finishOut d b out res eff att cyc = finish (writeOut d b 0 out)
      { b with result := res, attempts := att, cycles := cyc, outLen := out.length, effect := eff ||| if out.isEmpty then 0 else effOutput }
      stOk 0 := by
    unfold finishOut
    rw [if_neg (by simp [hb])]
  rw [hf]
  have hw := writeOut_signals d b 0 out hm
  have hm' : isMember (writeOut d b 0 out) = false := by rw [Signals.isMember hw]; exact hm
  have hw2 := hw
  obtain ⟨h, x, y, e⟩ := hw
  obtain ⟨k1, k2⟩ := finish_ends (writeOut d b 0 out)
    { b with result := res, attempts := att, cycles := cyc, outLen := out.length, effect := eff ||| if out.isEmpty then 0 else effOutput }
    stOk 0 hm' hb (by rw [e]; exact hs) (by rw [e]; exact hc)
  refine ⟨⟨?_, ?_, ?_, ?_⟩, hw2.closes.trans k2⟩
  · rw [k1.live, e]
  · obtain ⟨r, h1, h2, h3, h4, h5, h6, h7, h8, h9⟩ := k1.done
    exact ⟨r, by rw [h1, e], h2, h3, h4, h5, by rw [h6, e]; rfl, h7, h8, h9⟩
  · rw [k1.tail, e]; rfl
  · rw [k1.free, e]; rfl

end Sys2Proof.Machine
end

