-- ==== Sys2Proof/Laws/Py.lean ====
section
/-!
SUPPORT. What one instruction of a polynomial core does once it may issue: the checks pass, and its retirement writes the registers,
the records of the hazard checker and the job, and nothing else.
-/
namespace Sys2Proof.Machine

open Sys2Proof.Safety

/-- What a map reads as at a key is its default or a listed value. -/
theorem mapGet_mem {α : Type} (d : α) (m : SMap α) (k : Nat) : mapGet d m k = d ∨ ∃ e ∈ m, mapGet d m k = e.2 := by
  induction m with
  | nil => exact .inl rfl
  | cons e m ih =>
    obtain ⟨k', v⟩ := e
    unfold mapGet
    split
    · exact .inr ⟨(k', v), by simp, rfl⟩
    · rcases ih with h | ⟨e, he, h⟩
      · exact .inl h
      · exact .inr ⟨e, by simp [he], h⟩

/-- A bound of every listed number bounds what a map with default 0 reads as. -/
theorem mapGet_le {m : SMap Nat} {t : Nat} (h : ∀ e ∈ m, e.2 ≤ t) (k : Nat) : mapGet 0 m k ≤ t := by
  rcases mapGet_mem 0 m k with e | ⟨e, he, hk⟩
  · omega
  · rw [hk]; exact h e he

theorem getCore_big {d : Dev} {c : Nat} (h : ¬ c < 16) : getCore d c = {} := by simp [getCore, h]

/-- On a quiet core no issue is a hazard, whatever it reads and writes. -/
theorem hazard_quiet {p : Px} {u : Use} (hq : PyQuiet p.d p.c p.t) (hc : u.clash = false) : hazard p u = false := by
  have hl := fun n => mapGet_le hq.land n
  have hf := fun n => mapGet_le hq.free n
  have e1 : ∀ n, ¬ p.t < mapGet 0 (getCore p.d p.c).land n := fun n => by have := hl n; omega
  have e2 : ∀ n k, ¬ p.t + k < mapGet 0 (getCore p.d p.c).land n := fun n k => by have := hl n; omega
  have e3 : ∀ n, ¬ p.t < mapGet 0 (getCore p.d p.c).free n := fun n => by have := hf n; omega
  have e4 : ∀ l, lineClash p l = false := by
    intro l
    unfold lineClash
    simp only [List.any_eq_false]
    intro q hm
    have hlt : q.1 + 1 < p.t := by
      by_cases hk : l.2.2.1 < 16
      · exact hq.ports _ hk q hm
      · rw [getCore_big hk] at hm; simp at hm
    have a1 : (q.1 == p.t + l.1) = false := by simp; omega
    have a2 : (q.1 + 1 == p.t + l.1) = false := by simp; omega
    have a3 : (p.t + l.1 + 1 == q.1) = false := by simp; omega
    simp [a1, a2, a3]
  have e5 : ¬ p.t < (getCore p.d p.c).qAt := by have := hq.q; omega
  have e6 : ¬ p.t < (getCore p.d p.c).gAt := by have := hq.g; omega
  unfold hazard
  simp only [hc, e1, e2, e3, e5, e6, decide_false, Bool.and_false, Bool.or_false]
  simp [e4]

theorem stepTaken_idle {d : Dev} {c : Nat} (hc : c < 16) (h : (getStore d c).stepOk = false) : stepTaken d c = d := by
  have : cellSeq c = some c := by unfold cellSeq; rw [if_pos (by omega)]
  simp [stepTaken, this, h]

/-- A ready core has its job before it. -/
theorem pyHere_ready {d : Dev} {c t : Nat} {b : Job} {io : JobIo} (h : PyReady d c t b io) :
    pyHere d c t = some { d := d, c := c, t := t, b := b, io := io, r := (getCore d c).live } := by
  have hs : cellSeq c = some c := by unfold cellSeq; rw [if_pos (by have := h.core; omega)]
  have hr : cellRuns d c = true := by simp [cellRuns, hs, h.run]
  have hc : ¬ 16 ≤ c := by have := h.core; omega
  unfold pyHere
  simp only [hr, hc, h.job, h.area]
  simp [h.placed, h.here, h.started, h.noBar]

@[simp] theorem withLat_legal (p : Px) (u : Use) : (withLat p u).legal = u.legal := by unfold withLat; split <;> rfl
@[simp] theorem withLat_clash (p : Px) (u : Use) : (withLat p u).clash = u.clash := by unfold withLat; split <;> rfl
@[simp] theorem withLat_reads (p : Px) (u : Use) : (withLat p u).reads = u.reads := by unfold withLat; split <;> rfl
@[simp] theorem withLat_vec (p : Px) (u : Use) : (withLat p u).vec = u.vec := by unfold withLat; split <;> rfl
@[simp] theorem withLat_units (p : Px) (u : Use) : (withLat p u).units = u.units := by unfold withLat; split <;> rfl
@[simp] theorem withLat_lines (p : Px) (u : Use) : (withLat p u).lines = u.lines := by unfold withLat; split <;> rfl
@[simp] theorem withLat_q (p : Px) (u : Use) : (withLat p u).q = u.q := by unfold withLat; split <;> rfl
@[simp] theorem withLat_g (p : Px) (u : Use) : (withLat p u).g = u.g := by unfold withLat; split <;> rfl
@[simp] theorem withLat_gap (p : Px) (u : Use) : (withLat p u).gap = u.gap := by unfold withLat; split <;> rfl

/-- A ready core carries its instruction to the checks. -/
theorem pyRun_ready {d : Dev} {a : PyAt} {b : Job} {io : JobIo} (word : U32) (op : PyOp) (h : PyReady d a.core a.t b io) :
    pyRun a word op d = pyIssue (pxAt d a word b io) none op := by
  have e1 : ¬ a.t < (getCore d a.core).nextT := by have := h.due; omega
  have e2 : ¬ (getCore d a.core).yieldT + 2048 ≤ a.t := by have := h.yield; omega
  have e3 : modCore d a.core (fun x => { x with yieldT := x.yieldT + 0, resumed := false }) = d := modCore_same _ _ _ (by
    show ({ getCore d a.core with resumed := false } : Core) = _
    rw [← h.fresh])
  have e4 : mapGet none io.wait a.core = none := h.noWait
  unfold pyRun
  simp only [pyHere_ready h, e4, stepTaken_idle h.core h.noStep, h.noAbort, h.fresh]
  simp only [Bool.false_eq_true, if_false, e3]
  simp [e1, e2, pxAt, regsAt]

/-- The dispatch entries of a ready core serve its job. -/
theorem entryServes_ready {d : Dev} {a : PyAt} {b : Job} {io : JobIo} (word : U32) (h : PyReady d a.core a.t b io) :
    entryServes (pxAt d a word b io) = true := by
  unfold entryServes
  split
  · exact h.serves _ _ ‹_›
  · rfl

/-- A legal instruction on a quiet, ready core retires. -/
theorem pyRun_retire {d : Dev} {a : PyAt} {b : Job} {io : JobIo} {word : U32} {op : PyOp} (h : PyReady d a.core a.t b io)
    (hq : PyQuiet d a.core a.t) (hl : (op.use (pxAt d a word b io)).legal = true)
    (hc : (op.use (pxAt d a word b io)).clash = false) :
    pyRun a word op d
      = pyRetire (pxAt d a word b io) none (withLat (pxAt d a word b io) (op.use (pxAt d a word b io))) (op.body (pxAt d a word b io)) := by
  rw [pyRun_ready word op h]
  have hz : hazard (pxAt d a word b io) (withLat (pxAt d a word b io) (op.use (pxAt d a word b io))) = false :=
    hazard_quiet hq (by rw [withLat_clash]; exact hc)
  unfold pyIssue
  simp only [withLat_legal, hl, hz, entryServes_ready word h, Bool.not_true, Bool.or_false, Bool.false_eq_true, if_false]

/-! ## Retirement -/

/-- The registers after a retirement. -/
def retired (q : Px) (u : Use) : PyRegs :=
  { q.r with pc := q.jump.getD (q.r.pc + 4), vresume := if u.vec then 0 else q.r.vresume }

/-- The checker's records change the cores only. -/
theorem markUse_ex (d : Dev) (cl : Bool) (c t : Nat) (u : Use) : ∃ cs, markUse d cl c t u = { d with cores := cs } := by
  have key : ∀ (l : List (Nat × Bool × Nat × Nat)) (d : Dev),
      ∃ cs, l.foldl (fun acc l => modCore acc l.2.2.1 fun k =>
        { k with ports := (t + l.1, l.2.1, l.2.2.2) :: (if cl then k.ports else k.ports.filter fun q => decide (t ≤ q.1 + 1)) }) d
        = { d with cores := cs } := by
    intro l
    induction l with
    | nil => intro d; exact ⟨d.cores, rfl⟩
    | cons x l ih =>
      intro d
      simp only [List.foldl_cons]
      obtain ⟨c1, h1⟩ := ih (modCore d x.2.2.1 _)
      exact ⟨c1, by rw [h1, modCore_eq]⟩
  obtain ⟨c1, h1⟩ := key u.lines d
  unfold markUse
  rw [modCore_eq]
  exact ⟨_, by rw [h1]⟩

theorem getCore_markUse_part {α : Type} (g : Core → α) (hp : ∀ (x : Core) p, g { x with ports := p } = g x)
    (hl : ∀ (x : Core) a b c, g { x with land := a, free := b, nextT := c } = g x) (d : Dev) (cl : Bool) (c t : Nat) (u : Use) (k : Nat) :
    g (getCore (markUse d cl c t u) k) = g (getCore d k) := by
  have key : ∀ (l : List (Nat × Bool × Nat × Nat)) (d : Dev),
      g (getCore (l.foldl (fun acc l => modCore acc l.2.2.1 fun k =>
        { k with ports := (t + l.1, l.2.1, l.2.2.2) :: (if cl then k.ports else k.ports.filter fun q => decide (t ≤ q.1 + 1)) }) d) k)
        = g (getCore d k) := by
    intro l
    induction l with
    | nil => intro d; rfl
    | cons x l ih =>
      intro d
      simp only [List.foldl_cons]
      rw [ih]
      exact getCore_modCore_part g _ _ _ _ (fun x => hp x _)
  unfold markUse
  rw [getCore_modCore_part g _ _ _ _ (fun x => hl x _ _ _)]
  exact key _ _

theorem spend_fields (q : Px) (n : Nat) : (spend q n).d = q.d ∧ (spend q n).c = q.c ∧ (spend q n).t = q.t ∧ (spend q n).r = q.r
    ∧ (spend q n).io = q.io ∧ (spend q n).jump = q.jump ∧ (spend q n).yielded = q.yielded ∧ (spend q n).b.id = q.b.id
    ∧ (spend q n).b.cluster = q.b.cluster := by
  unfold spend; split <;> exact ⟨rfl, rfl, rfl, rfl, rfl, rfl, rfl, rfl, rfl⟩

/-- The device that a retirement hands to the records: the yield point noted, registers, I/O and job put back. -/
def putBack (q : Px) (u : Use) : Dev :=
  let d1 := if q.yielded then modCore q.d q.c fun k => { k with yieldT := q.t } else q.d
  let d2 := modCore d1 q.c fun k => { k with live := retired q u }
  modJob { d2 with io := mapSet {} d2.io q.b.id q.io } q.b.id fun _ => (spend q u.gap).b

theorem pyRetire_next (p q : Px) (u : Use) (hy : q.deal = false) :
    pyRetire p none u (.next q) = markUse (putBack q u) q.b.cluster q.c q.t u := by
  unfold pyRetire putBack retired Px.save spend
  by_cases h1 : q.b.eng = some q.c <;> by_cases h2 : q.yielded = true <;> simp [h1, h2, hy]
/-- At a yield point outside cluster mode the Dealer acts on what the retirement leaves. -/
theorem pyRetire_deal (p q : Px) (u : Use) (hy : q.deal = true) :
    pyRetire p none u (.next q) = dealYield (markUse (putBack q u) q.b.cluster q.c q.t u) (spend q u.gap).b := by
  unfold pyRetire putBack retired Px.save spend
  by_cases h1 : q.b.eng = some q.c <;> by_cases h2 : q.yielded = true <;> simp [h1, h2, hy]
theorem retired_withLat (p q : Px) (u : Use) : retired q (withLat p u) = retired q u := by unfold retired; rw [withLat_vec]

theorem modCore_ex (d : Dev) (c : Nat) (f : Core → Core) : ∃ cs, modCore d c f = { d with cores := cs } := ⟨_, modCore_eq d c f⟩

/-- Registers, I/O and job put back: nothing else changes. -/
theorem putBack_ex (q : Px) (u : Use) : ∃ cs js io, putBack q u = { q.d with cores := cs, jobs := js, io := io } := by
  have h1 : ∃ cs, (if q.yielded then modCore q.d q.c fun k => { k with yieldT := q.t } else q.d) = { q.d with cores := cs } := by
    split
    · exact modCore_ex _ _ _
    · exact ⟨_, rfl⟩
  obtain ⟨c1, h1⟩ := h1
  unfold putBack
  simp only [h1]
  obtain ⟨c2, h2⟩ := modCore_ex { q.d with cores := c1 } q.c fun k => { k with live := retired q u }
  rw [h2]
  exact ⟨_, _, _, rfl⟩

theorem putBack_regs (q : Px) (u : Use) (hc : q.c < 16) : (getCore (putBack q u) q.c).live = retired q u := by
  unfold putBack
  exact congrArg Core.live (getCore_modCore_self _ _ _ hc)

theorem putBack_part {α : Type} (g : Core → α) (hy : ∀ (x : Core) y, g { x with yieldT := y } = g x)
    (hr : ∀ (x : Core) r, g { x with live := r } = g x) (q : Px) (u : Use) (k : Nat) :
    g (getCore (putBack q u) k) = g (getCore q.d k) := by
  unfold putBack
  refine (getCore_modCore_part g _ _ _ _ (fun x => hr x _)).trans ?_
  split
  · exact getCore_modCore_part g _ _ _ _ (fun x => hy x _)
  · rfl

theorem putBack_live_ne (q : Px) (u : Use) (k : Nat) (hk : k ≠ q.c) : (getCore (putBack q u) k).live = (getCore q.d k).live := by
  unfold putBack
  refine (congrArg Core.live (getCore_modCore_ne _ _ _ _ hk)).trans ?_
  split
  · exact congrArg Core.live (getCore_modCore_ne _ _ _ _ hk)
  · rfl

theorem findJob_putBack (q : Px) (u : Use) (n : Nat) (hn : n ≠ q.b.id) : findJob (putBack q u) n = findJob q.d n := by
  obtain ⟨h1, h2, h3, h4, h5, h6, h7, h8, h9⟩ := spend_fields q u.gap
  unfold putBack
  rw [findJob_modJob_ne _ _ _ _ (fun _ _ => h8) hn]
  unfold findJob
  have h1 : ∃ cs, (if q.yielded then modCore q.d q.c fun k => { k with yieldT := q.t } else q.d) = { q.d with cores := cs } := by
    split
    · exact modCore_ex _ _ _
    · exact ⟨_, rfl⟩
  obtain ⟨c1, h1⟩ := h1
  simp only [h1]
  obtain ⟨c2, h2⟩ := modCore_ex { q.d with cores := c1 } q.c fun k => { k with live := retired q u }
  rw [h2]

/-- The job's own entry after a retirement. -/
theorem findJob_putBack_self {q : Px} {b0 : Job} (u : Use) (h : findJob q.d q.b.id = some b0) :
    findJob (markUse (putBack q u) q.b.cluster q.c q.t u) q.b.id = some (spend q u.gap).b := by
  obtain ⟨h1, h2, h3, h4, h5, h6, h7, h8, h9⟩ := spend_fields q u.gap
  obtain ⟨cs, hm⟩ := markUse_ex (putBack q u) q.b.cluster q.c q.t u
  rw [hm]
  show findJob (putBack q u) q.b.id = _
  unfold putBack
  have hid : b0.id = q.b.id := by have := List.find?_some h; simpa using this
  refine findJob_modJob_self (b := b0) _ ?_ (h8.trans hid.symm)
  have hc : ∃ cs, (if q.yielded then modCore q.d q.c fun k => { k with yieldT := q.t } else q.d) = { q.d with cores := cs } := by
    split
    · exact modCore_ex _ _ _
    · exact ⟨_, rfl⟩
  obtain ⟨c1, hc⟩ := hc
  unfold findJob
  simp only [hc]
  obtain ⟨c2, h2⟩ := modCore_ex { q.d with cores := c1 } q.c fun k => { k with live := retired q u }
  rw [h2]
  exact h

/-- What the retirement of an instruction leaves: the registers of its core, and of everything else what the instruction's own body
made of it. -/
theorem putBack_keeps (q : Px) (u : Use) (hc : q.c < 16) :
    let d' := markUse (putBack q u) q.b.cluster q.c q.t u
    (getCore d' q.c).live = retired q u
    ∧ (∀ k, k ≠ q.c → (getCore d' k).live = (getCore q.d k).live)
    ∧ (∀ k, (getCore d' k).tile = (getCore q.d k).tile)
    ∧ (∀ k, (getCore d' k).ctx = (getCore q.d k).ctx)
    ∧ (∀ n, n ≠ q.b.id → findJob d' n = findJob q.d n)
    ∧ d' = { q.d with cores := d'.cores, jobs := d'.jobs, io := d'.io } := by
  intro d'
  refine ⟨?_, ?_, ?_, ?_, ?_, ?_⟩
  · rw [getCore_markUse_part Core.live (fun _ _ => rfl) (fun _ _ _ _ => rfl)]; exact putBack_regs q u hc
  · intro k hk
    rw [getCore_markUse_part Core.live (fun _ _ => rfl) (fun _ _ _ _ => rfl)]; exact putBack_live_ne q u k hk
  · intro k
    rw [getCore_markUse_part Core.tile (fun _ _ => rfl) (fun _ _ _ _ => rfl)]
    exact putBack_part Core.tile (fun _ _ => rfl) (fun _ _ => rfl) q u k
  · intro k
    rw [getCore_markUse_part Core.ctx (fun _ _ => rfl) (fun _ _ _ _ => rfl)]
    exact putBack_part Core.ctx (fun _ _ => rfl) (fun _ _ => rfl) q u k
  · intro n hn
    obtain ⟨cs, hm⟩ := markUse_ex (putBack q u) q.b.cluster q.c q.t u
    show findJob (markUse _ _ _ _ _) n = _
    rw [hm]
    exact findJob_putBack q u n hn
  · obtain ⟨cs, hm⟩ := markUse_ex (putBack q u) q.b.cluster q.c q.t u
    obtain ⟨c2, js, io, hp⟩ := putBack_ex q u
    have e : d' = markUse (putBack q u) q.b.cluster q.c q.t u := rfl
    rw [e, hm, hp]

/-- An instruction whose body changes registers only (and uses up free values, or notes something in the checker's records) is done with
exactly that, up to what the Dealer does at a yield point. -/
theorem putBack_done {d : Dev} {a : PyAt} {b : Job} {io : JobIo} (h : PyReady d a.core a.t b io) {q : Px} (p : Px) (u : Use)
    (hd : SameDevice d q.d) (hg : ∀ k, (getCore q.d k).live = (getCore d k).live ∧ (getCore q.d k).tile = (getCore d k).tile
      ∧ (getCore q.d k).ctx = (getCore d k).ctx) (hjobs : q.d.jobs = d.jobs) (hc' : q.c = a.core) (hb' : q.b.id = b.id) :
    PyDone d (markUse (putBack q (withLat p u)) q.b.cluster q.c q.t (withLat p u)) a.core b (retired q u) := by
  obtain ⟨k1, k2, k3, k4, k5, k6⟩ := putBack_keeps q (withLat p u) (by rw [hc']; exact h.core)
  refine ⟨?_, ?_, ?_, ?_, ?_, ?_⟩
  · rw [← hc']; exact k1.trans (retired_withLat p q u)
  · rw [k3, (hg _).2.1]
  · rw [k4, (hg _).2.2]
  · intro k hk
    exact ⟨by rw [k2 k (by rw [hc']; exact hk), (hg k).1], by rw [k3, (hg k).2.1], by rw [k4, (hg k).2.2]⟩
  · intro n hn
    rw [k5 n (by rw [hb']; exact hn)]; unfold findJob; rw [hjobs]
  · unfold SameDevice at *
    generalize hx : markUse (putBack q (withLat p u)) q.b.cluster q.c q.t (withLat p u) = x at k6 ⊢
    rw [k6, hd]
theorem pyRun_done {d : Dev} {a : PyAt} {b : Job} {io : JobIo} {word : U32} {op : PyOp} (h : PyReady d a.core a.t b io)
    (hq : PyQuiet d a.core a.t) (hl : (op.use (pxAt d a word b io)).legal = true)
    (hc : (op.use (pxAt d a word b io)).clash = false) {q : Px} (hb : op.body (pxAt d a word b io) = .next q)
    (hd : SameDevice d q.d) (hg : ∀ k, (getCore q.d k).live = (getCore d k).live ∧ (getCore q.d k).tile = (getCore d k).tile
      ∧ (getCore q.d k).ctx = (getCore d k).ctx) (hjobs : q.d.jobs = d.jobs) (hc' : q.c = a.core) (hb' : q.b.id = b.id)
    (hy : q.deal = false) :
    PyDone d (pyRun a word op d) a.core b (retired q (op.use (pxAt d a word b io))) := by
  rw [pyRun_retire h hq hl hc, hb, pyRetire_next _ _ _ hy]
  exact putBack_done h _ _ hd hg hjobs hc' hb'

/-- The completion of an instruction that leaves its core's tile and contexts alone, from its body. -/
theorem pyExec_parts {i : Instr} {s : State} {p : PyAt} {b : Job} {io : JobIo} {word : U32} {op : PyOp} {g : PyRegs → PyRegs} {q : Px}
    (hi : exec i s = onDev s (pyRun p word op)) (h : PyGo s p b io)
    (hl : (op.use (pxAt s.dev p word b io)).legal = true) (hc : (op.use (pxAt s.dev p word b io)).clash = false)
    (hb : op.body (pxAt s.dev p word b io) = .next q) (hd : SameDevice s.dev q.d)
    (hk : ∀ k, (getCore q.d k).live = (getCore s.dev k).live ∧ (getCore q.d k).tile = (getCore s.dev k).tile
      ∧ (getCore q.d k).ctx = (getCore s.dev k).ctx) (hjobs : q.d.jobs = s.dev.jobs) (hc' : q.c = p.core) (hb' : q.b.id = b.id)
    (hg : retired q (op.use (pxAt s.dev p word b io)) = g (regsAt s.dev p.core word))
    (hy : q.deal = false := by rfl) : PyExec i s p b g :=
  ⟨_, hi, rfl, word, hg ▸ pyRun_done h.1 h.2 hl hc hb hd hk hjobs hc' hb' hy⟩

/-- The completion of an instruction that works on registers, from its body. -/
theorem pyExec_of {i : Instr} {s : State} {p : PyAt} {b : Job} {io : JobIo} {word : U32} {op : PyOp} {g : PyRegs → PyRegs} {q : Px}
    (hi : exec i s = onDev s (pyRun p word op)) (h : PyGo s p b io)
    (hl : (op.use (pxAt s.dev p word b io)).legal = true) (hc : (op.use (pxAt s.dev p word b io)).clash = false)
    (hb : op.body (pxAt s.dev p word b io) = .next q) (hd : SameDevice s.dev q.d) (hcores : q.d.cores = s.dev.cores)
    (hjobs : q.d.jobs = s.dev.jobs) (hc' : q.c = p.core) (hb' : q.b.id = b.id)
    (hg : retired q (op.use (pxAt s.dev p word b io)) = g (regsAt s.dev p.core word))
    (hy : q.deal = false := by rfl) : PyExec i s p b g :=
  pyExec_parts hi h hl hc hb hd (fun k => by
    have : getCore q.d k = getCore s.dev k := by unfold getCore; rw [hcores]
    rw [this]; exact ⟨rfl, rfl, rfl⟩) hjobs hc' hb' hg hy

/-! ## Stores -/

theorem tilePlace_core {p : Px} {a n tc off : Nat} (h : tilePlace p a n = some (tc, off)) (hc : p.c < 16) (hn : 0 < n) : tc < 16 := by
  unfold tilePlace at h
  split at h
  · split at h
    · simp only [Option.some.injEq, Prod.mk.injEq] at h
      have : a / 2 ^ 19 < 4 := by apply Nat.div_lt_of_lt_mul; omega
      omega
    · cases h
  · split at h
    · simp only [Option.some.injEq, Prod.mk.injEq] at h; omega
    · cases h

/-- An instruction whose body stores one string and changes no register but the PC. -/
theorem pyStored_of {i : Instr} {s : State} {p : PyAt} {b : Job} {io : JobIo} {word : U32} {op : PyOp} {a n v tc off : Nat} {r : PyRegs}
    (hi : exec i s = onDev s (pyRun p word op)) (h : PyGo s p b io)
    (hl : (op.use (pxAt s.dev p word b io)).legal = true) (hc : (op.use (pxAt s.dev p word b io)).clash = false)
    (hb : op.body (pxAt s.dev p word b io) = .next (tileWrite (pxAt s.dev p word b io) a n v))
    (ht : tilePlace (pxAt s.dev p word b io) a n = some (tc, off)) (hn : 0 < n) (hm : memWf (getCore s.dev tc).tile = true)
    (hr : retired (pxAt s.dev p word b io) (op.use (pxAt s.dev p word b io)) = r) :
    Completes i s fun d' => PyStored s.dev d' p.core b r tc off (leBytes n v) := by
  refine ⟨_, hi, rfl, ?_⟩
  show PyStored s.dev (pyRun p word op s.dev) p.core b r tc off (leBytes n v)
  have hy : (tileWrite (pxAt s.dev p word b io) a n v).deal = false := by unfold tileWrite; split <;> rfl
  rw [pyRun_retire h.1 h.2 hl hc, hb, pyRetire_next _ _ _ hy]
  have htc : tc < 16 := tilePlace_core ht h.1.core hn
  generalize hq : tileWrite (pxAt s.dev p word b io) a n v = q
  have e : q = { pxAt s.dev p word b io with d := modCore s.dev tc fun k =>
        { k with tile := memWrite k.tile off (leBytes n v)
                 stores := if tc = p.core then k.stores else (p.t, off / 256) :: k.stores } } := by
    rw [← hq]; unfold tileWrite; rw [ht]; rfl
  obtain ⟨k1, k2, k3, k4, k5, k6⟩ := putBack_keeps q (withLat (pxAt s.dev p word b io) (op.use (pxAt s.dev p word b io)))
    (by rw [e]; exact h.1.core)
  have hqc : q.c = p.core := by rw [e]; rfl
  have hqd : q.d = modCore s.dev tc fun k =>
        { k with tile := memWrite k.tile off (leBytes n v)
                 stores := if tc = p.core then k.stores else (p.t, off / 256) :: k.stores } := by rw [e]
  have hlive : ∀ k, (getCore q.d k).live = (getCore s.dev k).live := fun k => by
    rw [hqd]; exact getCore_modCore_part Core.live _ _ _ _ (fun _ => rfl)
  have hctx : ∀ k, (getCore q.d k).ctx = (getCore s.dev k).ctx := fun k => by
    rw [hqd]; exact getCore_modCore_part Core.ctx _ _ _ _ (fun _ => rfl)
  have htile : (getCore q.d tc).tile = memWrite (getCore s.dev tc).tile off (leBytes n v) := by
    rw [hqd, getCore_modCore_self _ _ _ htc]
  refine ⟨?_, ?_, ?_, ?_, ?_, ?_, ?_⟩
  · rw [← hqc, k1, retired_withLat, ← hr, e]; rfl
  · intro i hi
    rw [k3, htile]
    exact memByte_memWrite_in hm off i _ hi
  · intro k x hx
    rw [k3]
    by_cases hk : k = tc
    · subst hk
      rw [htile]
      exact memByte_memWrite_out _ _ _ _ (hx rfl)
    · rw [hqd, getCore_modCore_ne _ _ _ _ hk]
  · intro k hk
    rw [k2 k (by rw [hqc]; exact hk), hlive]
  · intro k
    rw [k4, hctx]
  · intro j hj
    rw [k5 j (by rw [e]; exact hj), hqd]
    unfold findJob
    rw [modCore_eq]
  · unfold SameDevice
    generalize markUse (putBack q _) q.b.cluster q.c q.t _ = x at k6 ⊢
    rw [k6, hqd, modCore_eq]

/-! ## Faults -/

theorem filter_map_ne (l : List Job) (j : Nat) (f : Job → Job) (hf : ∀ b, b.id = j → (f b).id = j) :
    (l.map fun b => if b.id = j then f b else b).filter (fun x => x.id ≠ j) = l.filter fun x => x.id ≠ j := by
  induction l with
  | nil => rfl
  | cons b l ih =>
    simp only [List.map_cons]
    by_cases h : b.id = j
    · simp [h, hf b h] at ih ⊢; exact ih
    · simp [h] at ih ⊢; exact ih

/-- The job ends alike however far its own entry in the list has been changed before. -/
theorem JobEnds.of_same {d d1 d' : Dev} {b b' : Job} {st : U16} {eff : Byte} (h : JobEnds d1 d' b' st eff)
    (hl : d1.jobs.live.filter (fun x => x.id ≠ b.id) = d.jobs.live.filter fun x => x.id ≠ b.id) (hd : d1.jobs.done = d.jobs.done)
    (hs : d1.sqs = d.sqs) (hc : d1.cqs = d.cqs) (e1 : b'.id = b.id) (e2 : b'.owner = b.owner) (e3 : b'.sq = b.sq)
    (e4 : b'.index = b.index) (e5 : b'.cq = b.cq) (e6 : b'.e = b.e) : JobEnds d d' b st eff := by
  obtain ⟨h1, ⟨r, g1, g2, g3, g4, g5, g6, g7, g8, g9⟩, h3, h4⟩ := h
  have ec : ∀ k, getCq d1 k = getCq d k := fun k => by unfold getCq; rw [hc]
  have es : ∀ k, getSq d1 k = getSq d k := fun k => by unfold getSq; rw [hs]
  refine ⟨?_, ⟨r, ?_, ?_, ?_, ?_, ?_, ?_, ?_, ?_, ?_⟩, ?_, ?_⟩
  · rw [h1, e1, hl]
  · rw [g1, hd]
  · rw [g2, e2]
  · rw [g3, e3]
  · rw [g4, e4]
  · rw [g5, e5]
  · rw [g6, ec, e5]
  · rw [g7, e6]
  · exact g8
  · exact g9
  · rw [← e5, h3, ec]
  · rw [← e3, h4, es]

/-- What overwriting a stopped job's share of its engines may change (02 R61). -/
def Scrubs (d d' : Dev) : Prop :=
  ∃ q e cs me ts sy, d' = { d with glob := { d.glob with drbgCtr := q }, engs := e, cores := cs, mes := me, tss := ts, sys := sy }
theorem Scrubs.refl (d : Dev) : Scrubs d d := ⟨_, _, _, _, _, _, rfl⟩
theorem Scrubs.trans {a b c : Dev} : Scrubs a b → Scrubs b c → Scrubs a c := by
  rintro ⟨_, _, _, _, _, _, rfl⟩ ⟨_, _, _, _, _, _, rfl⟩; exact ⟨_, _, _, _, _, _, rfl⟩
theorem Scrubs.foldl {α : Type} (f : Dev → α → Dev) (h : ∀ d x, Scrubs d (f d x)) (l : List α) (d : Dev) : Scrubs d (l.foldl f d) := by
  induction l generalizing d with
  | nil => exact .refl d
  | cons x l ih => exact (h d x).trans (ih _)
theorem modCore_scrubs (d : Dev) (c : Nat) (f) : Scrubs d (modCore d c f) := by unfold modCore; split <;> exact ⟨_, _, _, _, _, _, rfl⟩
theorem modEng_scrubs (d : Dev) (c : Nat) (f) : Scrubs d (modEng d c f) := by unfold modEng; split <;> exact ⟨_, _, _, _, _, _, rfl⟩
theorem modTs_scrubs (d : Dev) (c : Nat) (f) : Scrubs d (modTs d c f) := by unfold modTs; split <;> exact ⟨_, _, _, _, _, _, rfl⟩
theorem modSy_scrubs (d : Dev) (c : Nat) (f) : Scrubs d (modSy d c f) := by unfold modSy; split <;> exact ⟨_, _, _, _, _, _, rfl⟩
theorem noise_scrubs (d : Dev) (n : Nat) : Scrubs d (noise d n).2 := ⟨_, _, _, _, _, _, rfl⟩
theorem scrubCore_scrubs (d : Dev) (b : Job) (c : Nat) : Scrubs d (scrubCore d b c) := by
  unfold scrubCore
  refine Scrubs.trans (Scrubs.foldl _ (fun x p => ?_) _ _) (Scrubs.trans (noise_scrubs _ _) (Scrubs.trans (modCore_scrubs _ _ _) (modEng_scrubs _ _ _)))
  exact Scrubs.trans (noise_scrubs _ _) (modCore_scrubs _ _ _)
theorem scrubCell_scrubs (d : Dev) (b : Job) (c : Nat) : Scrubs d (scrubCell d b c) := by
  unfold scrubCell
  dsimp only
  split
  · exact .refl d
  split
  · exact (modEng_scrubs _ _ _).trans (modEng_scrubs _ _ _)
  split
  · exact (noise_scrubs _ _).trans ((modSy_scrubs _ _ _).trans (modEng_scrubs _ _ _))
  split
  · exact (noise_scrubs _ _).trans ((modTs_scrubs _ _ _).trans (modEng_scrubs _ _ _))
  · exact .refl d
theorem scrubJob_scrubs (d : Dev) (b : Job) : Scrubs d (scrubJob d b) := by
  unfold scrubJob
  dsimp only
  have h := Scrubs.foldl (fun acc c => scrubCore acc b c) (fun x c => scrubCore_scrubs x b c) (jobCores b) d
  split
  · exact h.trans (Scrubs.foldl _ (fun x c => scrubCell_scrubs x b c) _ _)
  · exact h
theorem endWaits_scrubs (d : Dev) (b : Job) : Scrubs d (endWaits d b) := by
  unfold endWaits
  refine Scrubs.foldl _ (fun x w => ?_) _ _
  split
  · exact .refl _
  · exact modEng_scrubs _ _ _
theorem noteFault_ex (d : Dev) (c : Nat) (st det : U16) :
    ∃ e h x y, noteFault d c st det = { d with engs := e, hif := h, glob := { d.glob with evHold := x, evCarry := y } } := by
  unfold noteFault
  split
  · exact ⟨_, _, _, _, rfl⟩
  · simp only
    obtain ⟨e, he⟩ := modEng_ex d c fun e => { e with
      fltCnt := satInc e.fltCnt, lastStatus := st, lastDetail := det, lastPc := (getCore d c).live.pc >>> 2
      lastVres := (getCore d c).live.vresume.setWidth 16, lastValid := true }
    rw [he]
    obtain ⟨h, x, y, hr⟩ := raise_signals { d with engs := e } 1 (BitVec.ofBool (getEng d c).lastValid) 1
    exact ⟨e, h, x, y, hr⟩

/-- What ends of jobs read and change of the queues and jobs is all that `JobEnds` looks at. -/
theorem JobEnds.of_after {d d1 d2 : Dev} {b : Job} {st : U16} {eff : Byte} (h : JobEnds d d1 b st eff) (hj : d2.jobs = d1.jobs)
    (hs : d2.sqs = d1.sqs) (hc : d2.cqs = d1.cqs) : JobEnds d d2 b st eff := by
  obtain ⟨h1, h2, h3, h4⟩ := h
  exact ⟨by rw [hj]; exact h1, by rw [hj]; exact h2, by unfold getCq at *; rw [hc]; exact h3, by unfold getSq at *; rw [hs]; exact h4⟩

/-- A job that is not already ending, and whose output list needs no check, ends with the fault's status at once. -/
theorem failOn_ends (d : Dev) (b : Job) (c : Nat) (st det : U16) (h : OwnQueues d b) (hp : b.phase = .placed) (hl : listDue b = false) :
    ∃ eff, JobEnds d (failOn d b c st det) b st eff := by
  obtain ⟨hm, hb, hs, hc⟩ := h
  obtain ⟨e, hh, x, y, hnf⟩ := noteFault_ex d c st det
  unfold failOn
  rw [if_neg (by rw [hp]; decide), hl, if_neg (by decide)]
  unfold failNow
  dsimp only
  have hu : unpause (endWaits (noteFault d c st det) b) b = b := by unfold unpause; simp [hp]
  obtain ⟨q, e2, cs, me, ts, sy, hsc⟩ := (endWaits_scrubs (noteFault d c st det) b).trans (scrubJob_scrubs _ b)
  rw [hu, hsc, hnf]
  generalize hb2 : ({ b with effect := brokenEffect (endWaits (noteFault d c st det) b) b } : Job) = b2
  rw [hnf] at hb2
  rw [hb2]
  refine ⟨b2.effect, ?_⟩
  have key := (finish_ends { d with
    hif := hh, glob := { d.glob with evHold := x, evCarry := y, drbgCtr := q }, engs := e2, cores := cs, mes := me, tss := ts, sys := sy }
    b2 st det hm (by rw [← hb2]; exact hb) hs hc).1
  refine JobEnds.of_same key rfl rfl rfl rfl ?_ ?_ ?_ ?_ ?_ ?_ <;> rw [← hb2]

/-- A fault of a core ends its job with that status. -/
theorem pyFault_ends (p : Px) (st det : U16) (h : OwnQueues p.d p.b) (hp : p.b.phase = .placed) (hl : listDue p.b = false) :
    ∃ eff, JobEnds p.d (pyFault p st det) p.b st eff := by
  obtain ⟨hm, hb, hs, hc⟩ := h
  have hsp : ∃ n, spend p 1 = { p with b := { p.b with cycles := n } } := by unfold spend; split <;> exact ⟨_, rfl⟩
  obtain ⟨n, hn⟩ := hsp
  unfold pyFault
  simp only [hn]
  generalize hb' : ({ { p.b with cycles := n } with outLen := p.io.outDone } : Job) = b'
  generalize hsv : ({ p with b := b' } : Px).save = d1
  have hd1 : ∃ cs io, d1 = { p.d with cores := cs, io := io, jobs := { p.d.jobs with live := p.d.jobs.live.map fun x : Job => if x.id = b'.id then b' else x } } := by
    rw [← hsv]
    unfold Px.save
    simp only
    obtain ⟨cs, hcs⟩ := modCore_ex p.d p.c fun k => { k with live := p.r }
    rw [hcs]
    exact ⟨_, _, rfl⟩
  obtain ⟨cs, io, hd1⟩ := hd1
  have hid : b'.id = p.b.id := by rw [← hb']
  obtain ⟨eff, key⟩ := failOn_ends d1 b' p.c st det (by rw [hd1]; exact ⟨hm, by rw [← hb']; exact hb, hs, hc⟩) (by rw [← hb']; exact hp)
    (by rw [← hb']; exact hl)
  have key2 : JobEnds p.d (failOn d1 b' p.c st det) p.b st eff := by
    refine JobEnds.of_same key ?_ ?_ ?_ ?_ ?_ ?_ ?_ ?_ ?_ ?_
    · rw [hd1]; simp only [hid]
      exact filter_map_ne _ _ _ (fun _ _ => hid)
    · rw [hd1]
    · rw [hd1]
    · rw [hd1]
    all_goals (rw [← hb'])
  refine ⟨eff, ?_⟩
  split
  · refine JobEnds.of_after key2 ?_ ?_ ?_ <;> unfold takeOut modEng modCore <;> dsimp only <;> (repeat' split) <;> rfl
  · exact key2

/-- An illegal word ends the job with ILLEGAL_INSTR. -/
theorem pyFaults_illegal {i : Instr} {s : State} {p : PyAt} {b : Job} {io : JobIo} {word : U32} {op : PyOp}
    (hi : exec i s = onDev s (pyRun p word op)) (h : PyReady s.dev p.core p.t b io) (ho : OwnQueues s.dev b)
    (hl : (op.use (pxAt s.dev p word b io)).legal = false) : PyFaults i s b stIllegalInstr := by
  intro hd
  refine ⟨_, hi, rfl, ?_⟩
  show ∃ eff, JobEnds s.dev (pyRun p word op s.dev) b _ eff
  rw [pyRun_ready word op h]
  unfold pyIssue
  simp only [withLat_legal, hl, Bool.not_false, Bool.true_or, if_true]
  exact pyFault_ends (pxAt s.dev p word b io) _ _ ho h.placed hd

/-- A word that breaks the schedule contract ends the job with CONTRACT_FAULT. -/
theorem pyFaults_hazard {i : Instr} {s : State} {p : PyAt} {b : Job} {io : JobIo} {word : U32} {op : PyOp}
    (hi : exec i s = onDev s (pyRun p word op)) (h : PyReady s.dev p.core p.t b io) (ho : OwnQueues s.dev b)
    (hl : (op.use (pxAt s.dev p word b io)).legal = true)
    (hz : hazard (pxAt s.dev p word b io) (withLat (pxAt s.dev p word b io) (op.use (pxAt s.dev p word b io))) = true) : PyFaults i s b stContractFault := by
  intro hd
  refine ⟨_, hi, rfl, ?_⟩
  show ∃ eff, JobEnds s.dev (pyRun p word op s.dev) b _ eff
  rw [pyRun_ready word op h]
  unfold pyIssue
  simp only [withLat_legal, hl, hz, entryServes_ready word h, Bool.not_true, Bool.or_false, Bool.false_eq_true, if_true, if_false]
  exact pyFault_ends (pxAt s.dev p word b io) _ _ ho h.placed hd

/-- A fault of the body ends the job with its status. -/
theorem pyFaults_body {i : Instr} {s : State} {p : PyAt} {b : Job} {io : JobIo} {word : U32} {op : PyOp} {q : Px} {st det : U16}
    (hi : exec i s = onDev s (pyRun p word op)) (h : PyGo s p b io) (ho : OwnQueues s.dev b)
    (hl : (op.use (pxAt s.dev p word b io)).legal = true) (hc : (op.use (pxAt s.dev p word b io)).clash = false)
    (hb : op.body (pxAt s.dev p word b io) = .fault q st det) (hq : q.d = s.dev) (hqb : q.b = b) : PyFaults i s b st := by
  intro hdue
  refine ⟨_, hi, rfl, ?_⟩
  show ∃ eff, JobEnds s.dev (pyRun p word op s.dev) b _ eff
  rw [pyRun_retire h.1 h.2 hl hc, hb]
  have := pyFault_ends q st det (by rw [hq, hqb]; exact ho) (by rw [hqb]; exact h.1.placed) (by rw [hqb]; exact hdue)
  rw [hq, hqb] at this
  exact this

/-! ## Instructions that touch the records of cores, jumps, barriers and halts -/

/-- Nothing but the cores has changed, and of those neither registers nor tiles nor contexts. -/
def CoreRecords (d d' : Dev) : Prop :=
  (∃ cs, d' = { d with cores := cs }) ∧ ∀ k, (getCore d' k).live = (getCore d k).live ∧ (getCore d' k).tile = (getCore d k).tile
    ∧ (getCore d' k).ctx = (getCore d k).ctx

theorem CoreRecords.refl (d : Dev) : CoreRecords d d := ⟨⟨_, rfl⟩, fun _ => ⟨rfl, rfl, rfl⟩⟩
theorem CoreRecords.trans {a b c : Dev} (h : CoreRecords a b) (k : CoreRecords b c) : CoreRecords a c := by
  obtain ⟨⟨x, rfl⟩, h2⟩ := h
  obtain ⟨⟨y, rfl⟩, k2⟩ := k
  exact ⟨⟨_, rfl⟩, fun n => ⟨(k2 n).1.trans (h2 n).1, (k2 n).2.1.trans (h2 n).2.1, (k2 n).2.2.trans (h2 n).2.2⟩⟩

/-- A change of a core's records only. -/
theorem modCore_records (d : Dev) (c : Nat) (f : Core → Core) (h1 : ∀ x, (f x).live = x.live) (h2 : ∀ x, (f x).tile = x.tile)
    (h3 : ∀ x, (f x).ctx = x.ctx) : CoreRecords d (modCore d c f) :=
  ⟨⟨_, modCore_eq d c f⟩, fun _ => ⟨getCore_modCore_part Core.live _ _ _ _ h1, getCore_modCore_part Core.tile _ _ _ _ h2,
    getCore_modCore_part Core.ctx _ _ _ _ h3⟩⟩

theorem modCores_records (f : Nat → Core → Core) (h1 : ∀ i x, (f i x).live = x.live) (h2 : ∀ i x, (f i x).tile = x.tile)
    (h3 : ∀ i x, (f i x).ctx = x.ctx) (c0 : Nat) (l : List Nat) :
    ∀ d : Dev, CoreRecords d (l.foldl (fun acc i => modCore acc (c0 + i) (f i)) d) := by
  induction l with
  | nil => exact CoreRecords.refl
  | cons i l ih => intro d; exact (modCore_records d (c0 + i) (f i) (h1 i) (h2 i) (h3 i)).trans (ih _)

/-- The completion of an instruction whose body touches registers and the records of cores. -/
theorem pyExec_cores {i : Instr} {s : State} {p : PyAt} {b : Job} {io : JobIo} {word : U32} {op : PyOp} {g : PyRegs → PyRegs} {q : Px}
    (hi : exec i s = onDev s (pyRun p word op)) (h : PyGo s p b io)
    (hl : (op.use (pxAt s.dev p word b io)).legal = true) (hc : (op.use (pxAt s.dev p word b io)).clash = false)
    (hb : op.body (pxAt s.dev p word b io) = .next q) (hd : CoreRecords s.dev q.d) (hc' : q.c = p.core) (hb' : q.b.id = b.id)
    (hg : retired q (op.use (pxAt s.dev p word b io)) = g (regsAt s.dev p.core word))
    (hy : q.deal = false := by rfl) : PyExec i s p b g := by
  obtain ⟨⟨cs, hd⟩, hk⟩ := hd
  refine pyExec_parts hi h hl hc hb ?_ hk ?_ hc' hb' hg hy
  · unfold SameDevice; rw [hd]
  · rw [hd]

theorem ccrMark_records (p : Px) (n : Nat) : CoreRecords p.d (ccrMark p n).d := by
  unfold ccrMark
  dsimp only
  apply modCore_records <;> exact fun _ => rfl

/-- The last core of a barrier goes on. -/
theorem opBar_last (f : FmtI) (p : Px) (h1 : ¬ p.io.bars.length < 3) (h2 : ∀ x ∈ p.io.bars, x.2.1 = f.imm.toNat) :
    ∃ q, (opBar f).body p = .next q ∧ CoreRecords p.d q.d ∧ q.c = p.c ∧ q.b.id = p.b.id ∧ q.r = p.r ∧ q.jump = p.jump ∧ q.deal = p.deal := by
  have hany : (p.io.bars.any fun x => x.2.1 != f.imm.toNat) = false := by
    rw [List.any_eq_false]; intro x hx; simp [h2 x hx]
  simp only [opBar, h1, hany, if_false]
  refine ⟨_, rfl, ?_, rfl, rfl, rfl, rfl, rfl⟩
  dsimp only
  apply modCores_records <;> exact fun _ _ => rfl

/-- What saving a core's context into its job changes. -/
theorem findJob_save_filter (p : Px) : ∃ cs io, p.save = { p.d with cores := cs, io := io, jobs := { p.d.jobs with live := p.d.jobs.live.map fun x : Job => if x.id = p.b.id then p.b else x } } := by
  unfold Px.save
  obtain ⟨cs, hcs⟩ := modCore_ex p.d p.c fun k => { k with live := p.r }
  simp only [hcs]
  exact ⟨_, _, rfl⟩
/-- A halt ends the job with its status. -/
theorem pyHalt_ends (p : Px) (st det : U16) (h : OwnQueues p.d p.b) : JobEnds p.d (pyHalt p st det) p.b st (p.io.eff ||| (if p.io.outDone = 0 then 0 else effOutput)
                        ||| (if p.io.hdr.fixed && p.io.outDone < p.io.hdr.outMax then effPartial else 0)) := by
  obtain ⟨hm, hb, hs, hc⟩ := h
  unfold pyHalt
  simp only
  generalize hb' : ({ p.b with outLen := p.io.outDone, result := p.io.res, attempts := p.io.att.toNat, effect := p.io.eff ||| (if p.io.outDone = 0 then 0 else effOutput) ||| (if p.io.hdr.fixed && p.io.outDone < p.io.hdr.outMax then effPartial else 0) } : Job) = b'
  obtain ⟨cs, io, hsv⟩ := findJob_save_filter { p with b := b' }
  rw [hsv]
  have key := (finish_ends { p.d with cores := cs, io := io, jobs := { p.d.jobs with live := p.d.jobs.live.map fun x : Job => if x.id = b'.id then b' else x } } b' st det hm (by rw [← hb']; exact hb) hs hc).1
  have hid : b'.id = p.b.id := by rw [← hb']
  have he : b'.effect = (p.io.eff ||| (if p.io.outDone = 0 then 0 else effOutput)
                        ||| (if p.io.hdr.fixed && p.io.outDone < p.io.hdr.outMax then effPartial else 0)) := by rw [← hb']
  rw [he] at key
  refine JobEnds.of_same key ?_ rfl rfl rfl ?_ ?_ ?_ ?_ ?_ ?_
  · simp only [hid]
    exact filter_map_ne _ _ _ (fun _ _ => hid)
  all_goals (rw [← hb'])
theorem spend_ex (p : Px) (n : Nat) : ∃ m, spend p n = { p with b := { p.b with cycles := m } } := by unfold spend; split <;> exact ⟨_, rfl⟩
theorem opHalt_body (q : Px) (h1 : listWait q = false) (h2 : q.io.buf = []) :
    opHalt.body q = .halt q (q.io.jset.getD (stOk, 0)).1 (q.io.jset.getD (stOk, 0)).2 := by
  simp [opHalt, h1, h2]

/-- A jump into the program. -/
theorem pyJump_in {p : Px} {t : Int} (h : inProgram p.io t) : pyJump p t = .next { p with jump := some (BitVec.ofInt 16 t) } := by
  unfold pyJump inProgram at *
  rw [if_pos]
  have : ((p.io.base + 4 * p.io.hdr.codeLen : Nat) : Int) = (p.io.base : Int) + 4 * p.io.hdr.codeLen := by
    rw [Int.natCast_add, Int.natCast_mul]; rfl
  rw [this]
  simp [h.1, h.2]
theorem retired_scalar (q : Px) (u : Use) (h : u.vec = false) : retired q u = { q.r with pc := q.jump.getD (q.r.pc + 4) } := by
  unfold retired; rw [h]; rfl
theorem opJal_body (f : FmtJ) (q : Px) (target : Int) (h1 : target = q.r.pc.toNat + 4 * f.off.toInt) (h : inProgram q.io target) :
    (opJal f).body q = .next { q with r := xSet q.r f.d (linkAddr q), jump := some (BitVec.ofInt 16 target) } := by
  subst h1; exact pyJump_in (p := { q with r := xSet q.r f.d (linkAddr q) }) h
theorem opJalr_body (f : FmtI) (q : Px) (target : Nat) (h1 : target = scalarAddr q f.a f.imm / 4 * 4) (h : inProgram q.io target) :
    (opJalr f).body q = .next { q with r := xSet q.r f.d (linkAddr q), jump := some (BitVec.ofNat 16 target) } := by
  subst h1; rw [← BitVec.ofInt_natCast]; exact pyJump_in (p := { q with r := xSet q.r f.d (linkAddr q) }) h
theorem retired_jal (q : Px) (u : Use) (d : BitVec 5) (v : U64) (t : BitVec 16) (h : u.vec = false) :
    retired { q with r := xSet q.r d v, jump := some t } u = { xSet q.r d v with pc := t } := by
  unfold retired; rw [h]; rfl
theorem pxAt_pc (d : Dev) (a : PyAt) (w : U32) (b : Job) (io : JobIo) :
    (pxAt d a w b io).r.pc = (getCore d a.core).live.pc := rfl
theorem pxAt_x (d : Dev) (a : PyAt) (w : U32) (b : Job) (io : JobIo) (n : BitVec 5) :
    xGet (pxAt d a w b io).r n = xGet (getCore d a.core).live n := rfl

end Sys2Proof.Machine
end

