-- ==== Sys2Proof/Laws/PyVec.lean ====
section
/-!
SUPPORT. Vector instructions: what the stores of several elements leave, the elements of a written group, the bits of a written mask
register.
-/
namespace Sys2Proof.Machine

open Sys2Proof.Safety

/-! ## Strings in a tile -/

theorem memRead_eq (m : SMap Byte) (a n : Nat) : memRead m a n = (List.range n).map fun i => memByte m (a + i) := by
  induction n generalizing a with
  | zero => rfl
  | succ n ih =>
    rw [List.range_succ_eq_map, List.map_cons, List.map_map, memRead, ih]
    refine congrArg _ (List.map_congr_left fun i _ => ?_)
    simp only [Function.comp]
    rw [show a + 1 + i = a + (i + 1) by omega]

theorem memRead_congr {m m' : SMap Byte} {a n : Nat} (h : ∀ i < n, memByte m (a + i) = memByte m' (a + i)) : memRead m a n = memRead m' a n := by
  rw [memRead_eq, memRead_eq]
  exact List.map_congr_left fun i hi => h i (List.mem_range.1 hi)

theorem memRead_memWrite {m : SMap Byte} (hm : memWf m = true) (a : Nat) (bs : Bytes) : memRead (memWrite m a bs) a bs.length = bs := by
  rw [memRead_eq]
  apply List.ext_getElem
  · simp
  · intro i h1 h2
    simp only [List.getElem_map, List.getElem_range]
    exact memByte_memWrite_in hm a i bs h2

/-- Nothing but the tiles and the records of the cores has changed. -/
def TilesOnly (d d' : Dev) : Prop :=
  (∃ cs, d' = { d with cores := cs }) ∧ ∀ k, (getCore d' k).live = (getCore d k).live ∧ (getCore d' k).ctx = (getCore d k).ctx

theorem TilesOnly.refl (d : Dev) : TilesOnly d d := ⟨⟨_, rfl⟩, fun _ => ⟨rfl, rfl⟩⟩
theorem TilesOnly.trans {a b c : Dev} (h : TilesOnly a b) (k : TilesOnly b c) : TilesOnly a c := by
  obtain ⟨⟨x, rfl⟩, h2⟩ := h
  obtain ⟨⟨y, rfl⟩, k2⟩ := k
  exact ⟨⟨_, rfl⟩, fun n => ⟨(k2 n).1.trans (h2 n).1, (k2 n).2.trans (h2 n).2⟩⟩

/-- What one store of a string in a tile does. -/
theorem tileWrite_does {q : Px} {a n v tc off : Nat} (ht : tilePlace q a n = some (tc, off)) (hc : tc < 16)
    (hm : ∀ k, memWf (getCore q.d k).tile = true) :
    tileWrite q a n v = { q with d := (tileWrite q a n v).d } ∧ TilesOnly q.d (tileWrite q a n v).d
    ∧ (∀ k, memWf (getCore (tileWrite q a n v).d k).tile = true)
    ∧ memRead (getCore (tileWrite q a n v).d tc).tile off n = leBytes n v
    ∧ ∀ k x, (k = tc → x < off ∨ off + n ≤ x) → memByte (getCore (tileWrite q a n v).d k).tile x = memByte (getCore q.d k).tile x := by
  generalize hq : tileWrite q a n v = q'
  have e : q' = { q with d := modCore q.d tc fun k =>
        { k with tile := memWrite k.tile off (leBytes n v)
                 stores := if tc = q.c then k.stores else (q.t, off / 256) :: k.stores } } := by
    rw [← hq]; unfold tileWrite; rw [ht]
  have hself : (getCore q'.d tc).tile = memWrite (getCore q.d tc).tile off (leBytes n v) := by
    rw [e]; dsimp only; rw [getCore_modCore_self _ _ _ hc]
  have hne : ∀ k, k ≠ tc → getCore q'.d k = getCore q.d k := fun k hk => by
    rw [e]; dsimp only; rw [getCore_modCore_ne _ _ _ _ hk]
  refine ⟨by rw [e], ⟨?_, fun k => ?_⟩, fun k => ?_, ?_, fun k x hx => ?_⟩
  · rw [e]; dsimp only; exact modCore_ex _ _ _
  · rw [e]
    exact ⟨getCore_modCore_part Core.live _ _ _ _ (fun _ => rfl), getCore_modCore_part Core.ctx _ _ _ _ (fun _ => rfl)⟩
  · by_cases hk : k = tc
    · rw [hk, hself]; exact memWf_memWrite (hm tc) _ _
    · rw [hne k hk]; exact hm k
  · rw [hself]
    have := memRead_memWrite (hm tc) off (leBytes n v)
    rw [leBytes_length] at this
    exact this
  · by_cases hk : k = tc
    · rw [hk, hself]
      exact memByte_memWrite_out _ _ _ _ (by rw [leBytes_length]; exact hx hk)
    · rw [hne k hk]

/-- The place of an address does not depend on what the tiles hold. -/
theorem tilePlace_same {q q' : Px} (h1 : q'.b = q.b) (h2 : q'.c = q.c) (a n : Nat) : tilePlace q' a n = tilePlace q a n := by
  unfold tilePlace; rw [h1, h2]

theorem tilePlace_off {p : Px} {a n tc off : Nat} (h : tilePlace p a n = some (tc, off)) :
    (p.b.cluster = true ∧ tc = p.c / 4 * 4 + a / 2 ^ 19 ∧ off = a % 2 ^ 19) ∨ (p.b.cluster = false ∧ tc = p.c ∧ off = ctxSlot p.b * partBytes + a) := by
  unfold tilePlace at h
  split at h
  · rename_i hc
    split at h
    · simp only [Option.some.injEq, Prod.mk.injEq] at h; exact .inl ⟨hc, h.1.symm, h.2.symm⟩
    · cases h
  · rename_i hc
    split at h
    · simp only [Option.some.injEq, Prod.mk.injEq] at h; exact .inr ⟨by simpa using hc, h.1.symm, h.2.symm⟩
    · cases h

/-- Two different elements of a string of elements lie in different places. -/
theorem tilePlace_apart {p : Px} {a w i j tc o1 o2 : Nat} (hw : w = 1 ∨ w = 2 ∨ w = 4 ∨ w = 8) (ha : a % w = 0) (hij : i ≠ j)
    (h1 : tilePlace p (a + i * w) w = some (tc, o1)) (h2 : tilePlace p (a + j * w) w = some (tc, o2)) : o1 + w ≤ o2 ∨ o2 + w ≤ o1 := by
  have e1 := tilePlace_off h1
  have e2 := tilePlace_off h2
  rcases Nat.lt_or_gt_of_ne hij with h | h
  · have : (i + 1) * w ≤ j * w := Nat.mul_le_mul_right _ h
    rw [Nat.add_mul] at this
    rcases e1 with ⟨c1, t1, f1⟩ | ⟨c1, t1, f1⟩ <;> rcases e2 with ⟨c2, t2, f2⟩ | ⟨c2, t2, f2⟩
    · rcases hw with hw | hw | hw | hw <;> subst hw <;> omega
    · rw [c1] at c2; cases c2
    · rw [c1] at c2; cases c2
    · left; omega
  · have : (j + 1) * w ≤ i * w := Nat.mul_le_mul_right _ h
    rw [Nat.add_mul] at this
    rcases e1 with ⟨c1, t1, f1⟩ | ⟨c1, t1, f1⟩ <;> rcases e2 with ⟨c2, t2, f2⟩ | ⟨c2, t2, f2⟩
    · rcases hw with hw | hw | hw | hw <;> subst hw <;> omega
    · rw [c1] at c2; cases c2
    · rw [c1] at c2; cases c2
    · right; omega

theorem sewBytes (r : PyRegs) : (sewOf r / 8 = 1 ∨ sewOf r / 8 = 2 ∨ sewOf r / 8 = 4 ∨ sewOf r / 8 = 8) ∧ sewOf r = 8 * (sewOf r / 8) := by
  unfold sewOf
  have : r.vtype.toNat % 4 < 4 := Nat.mod_lt _ (by decide)
  rcases (by omega : r.vtype.toNat % 4 = 0 ∨ r.vtype.toNat % 4 = 1 ∨ r.vtype.toNat % 4 = 2 ∨ r.vtype.toNat % 4 = 3) with h | h | h | h <;>
    rw [h] <;> decide

/-- The stores of several elements, one after another. -/
theorem storeEls (w : Nat) (hw : w = 1 ∨ w = 2 ∨ w = 4 ∨ w = 8) (a : Nat) (ha : a % w = 0) (val : Nat → Nat) :
    ∀ (l : List Nat) (q : Px), l.Nodup → q.c < 16 → (∀ i ∈ l, (tilePlace q (a + i * w) w).isSome) → (∀ k, memWf (getCore q.d k).tile = true) →
    let q' := l.foldl (fun q i => tileWrite q (a + i * w) w (val i)) q
    q' = { q with d := q'.d } ∧ TilesOnly q.d q'.d
    ∧ (∀ i ∈ l, ∀ tc off, tilePlace q (a + i * w) w = some (tc, off) → memRead (getCore q'.d tc).tile off w = leBytes w (val i))
    ∧ ∀ k x, (∀ i ∈ l, ∀ off, tilePlace q (a + i * w) w = some (k, off) → x < off ∨ off + w ≤ x) →
        memByte (getCore q'.d k).tile x = memByte (getCore q.d k).tile x := by
  intro l
  induction l with
  | nil => intro q _ _ _ _; exact ⟨rfl, TilesOnly.refl _, by simp, fun _ _ _ => rfl⟩
  | cons i l ih =>
    intro q hn hc hp hm
    simp only [List.foldl_cons]
    obtain ⟨hi, hn⟩ := List.nodup_cons.1 hn
    have hpi := hp i (by simp)
    obtain ⟨⟨tc, off⟩, hpl⟩ := Option.isSome_iff_exists.1 hpi
    have hw0 : 0 < w := by omega
    obtain ⟨t1, t2, t3, t4, t5⟩ := tileWrite_does (v := val i) hpl (tilePlace_core hpl hc hw0) hm
    generalize hq1 : tileWrite q (a + i * w) w (val i) = q1 at *
    have eb : q1.b = q.b := by rw [t1]
    have ec : q1.c = q.c := by rw [t1]
    have es : ∀ x n, tilePlace q1 x n = tilePlace q x n := tilePlace_same eb ec
    obtain ⟨u1, u2, u3, u4⟩ := ih q1 hn (by rw [ec]; exact hc) (fun j hj => by rw [es]; exact hp j (by simp [hj])) t3
    refine ⟨by rw [u1, t1], t2.trans u2, ?_, ?_⟩
    · intro j hj tc' off' hpj
      rcases List.mem_cons.1 hj with rfl | hj
      · rw [hpl] at hpj
        simp only [Option.some.injEq, Prod.mk.injEq] at hpj
        obtain ⟨rfl, rfl⟩ := hpj
        rw [← t4]
        apply memRead_congr
        intro x hx
        apply u4
        intro y hy o2 ho2
        rw [es] at ho2
        have hne : j ≠ y := fun e => hi (e ▸ hy)
        have := tilePlace_apart hw ha hne hpl ho2
        omega
      · exact u3 j hj tc' off' (by rw [es]; exact hpj)
    · intro k x hx
      rw [u4 k x (fun j hj o ho => hx j (by simp [hj]) o (by rw [← es]; exact ho))]
      apply t5
      intro hk
      exact hx i (by simp) off (by rw [hk]; exact hpl)

theorem activeEls_nodup (r : PyRegs) (msk : Option Nat) : (activeEls r msk).Nodup := List.Pairwise.filter _ List.nodup_range

/-! ## A string read in elements -/

theorem leNat_append (a b : Bytes) : leNat (a ++ b) = leNat a + 256 ^ a.length * leNat b := by
  induction a with
  | nil => simp [leNat]
  | cons x a ih =>
    simp only [List.cons_append, leNat, ih, List.length_cons, Nat.pow_succ]
    rw [Nat.mul_add, ← Nat.mul_assoc, Nat.mul_comm 256 (256 ^ a.length)]
    omega
theorem memRead_add (m : SMap Byte) (a n k : Nat) : memRead m a (n + k) = memRead m a n ++ memRead m (a + n) k := by
  induction n generalizing a with
  | zero => simp [memRead]
  | succ n ih =>
    rw [show n + 1 + k = (n + k) + 1 by omega, memRead, ih, memRead, show a + 1 + n = a + (n + 1) by omega]
    rfl

/-- A string of `k` elements of `n` bytes, packed. -/
theorem elPack_memRead (m : SMap Byte) (n : Nat) : ∀ (k a : Nat),
    elPack (8 * n) ((List.range k).map fun i => leNat (memRead m (a + n * i) n)) = leNat (memRead m a (n * k)) := by
  intro k
  induction k with
  | zero => intro a; rfl
  | succ k ih =>
    intro a
    rw [List.range_succ_eq_map, List.map_cons, List.map_map]
    have h1 : ∀ (e : Nat) (l : List Nat), elPack (8 * n) (e :: l) = e % 2 ^ (8 * n) + elPack (8 * n) l <<< (8 * n) := fun _ _ => rfl
    rw [h1, Nat.mul_succ, Nat.add_comm (n * k) n, memRead_add, leNat_append, memRead_length, ← ih (a + n), Nat.shiftLeft_eq]
    have h2 := leNat_lt (memRead m a n)
    rw [memRead_length] at h2
    have h3 : (2 : Nat) ^ (8 * n) = 256 ^ n := by rw [Nat.pow_mul]
    rw [h3, Nat.mul_zero, Nat.add_zero, Nat.mod_eq_of_lt h2, Nat.mul_comm (256 ^ n)]
    congr 3
    apply List.map_congr_left
    intro i _
    simp only [Function.comp]
    rw [Nat.mul_succ, show a + (n * i + n) = a + n + n * i by omega]

/-- Where a part of a string lies. -/
theorem tilePlace_part {p : Px} {a n k i tc off : Nat} (ha : a % n = 0) (hn : n ∣ 2 ^ 19) (hi : i + k ≤ n) (hk : 0 < k)
    (h : tilePlace p a n = some (tc, off)) : tilePlace p (a + i) k = some (tc, off + i) := by
  unfold tilePlace at h ⊢
  split at h
  · rename_i hc
    rw [if_pos hc]
    split at h
    · simp only [Option.some.injEq, Prod.mk.injEq] at h
      rw [if_pos (by omega)]
      obtain ⟨c, hcn⟩ := hn
      obtain ⟨x, hx⟩ := Nat.dvd_of_mod_eq_zero ha
      have h1 : (a % 2 ^ 19) % n = 0 := by rw [hcn, Nat.mod_mul_right_mod]; exact ha
      have h2 : a % 2 ^ 19 + n ≤ 2 ^ 19 := by
        have hlt : a % 2 ^ 19 < 2 ^ 19 := Nat.mod_lt _ (by decide)
        obtain ⟨y, hy⟩ := Nat.dvd_of_mod_eq_zero h1
        rw [hy] at hlt ⊢
        rw [hcn] at hlt ⊢
        have : y < c := Nat.lt_of_mul_lt_mul_left hlt
        calc n * y + n = n * (y + 1) := by rw [Nat.mul_succ]
          _ ≤ n * c := Nat.mul_le_mul_left _ this
      have h3 : (a + i) / 2 ^ 19 = a / 2 ^ 19 := by omega
      have h4 : (a + i) % 2 ^ 19 = a % 2 ^ 19 + i := by omega
      rw [h3, h4, h.1, h.2]
    · cases h
  · rename_i hc
    rw [if_neg hc]
    split at h
    · simp only [Option.some.injEq, Prod.mk.injEq] at h
      rw [if_pos (by omega), h.1, ← h.2, Nat.add_assoc]
    · cases h

/-! ## Elements of a group -/

theorem vPut_vec (vs : Vector (BitVec 2048) 32) (n v g k : Nat) (hk : k < 32) :
    ((List.range g).foldl (fun vs i => vs.setIfInBounds (n + i) (BitVec.ofNat 2048 (v >>> (2048 * i)))) vs)[k]
      = if n ≤ k ∧ k < n + g then BitVec.ofNat 2048 (v >>> (2048 * (k - n))) else vs[k] := by
  induction g with
  | zero => simp <;> omega
  | succ g ih =>
    rw [List.range_succ, List.foldl_append]
    simp only [List.foldl_cons, List.foldl_nil]
    rw [Vector.getElem_setIfInBounds]
    by_cases h : n + g = k
    · rw [if_pos h, if_pos (by omega)]
      congr 3
      omega
    · rw [if_neg h, ih]
      by_cases h2 : n ≤ k ∧ k < n + g
      · rw [if_pos h2, if_pos (by omega)]
      · rw [if_neg h2, if_neg (by omega)]

theorem vReg_eq (r : PyRegs) (k : Nat) (hk : k < 32) : vReg r k = r.v[k] := by
  unfold vReg
  rw [List.getD_eq_getElem?_getD, List.getElem?_eq_getElem (by simpa using hk)]
  simp

theorem vReg_vPut (r : PyRegs) (n g v k : Nat) (hk : k < 32) :
    vReg (vPut r n g v) k = if n ≤ k ∧ k < n + g then BitVec.ofNat 2048 (v >>> (2048 * (k - n))) else vReg r k := by
  rw [vReg_eq _ _ hk, vReg_eq _ _ hk]
  exact vPut_vec r.v n v g k hk

theorem slices (v g w : Nat) :
    (List.range g).foldl (fun acc i => acc + (v >>> (w * i) % 2 ^ w) <<< (w * i)) 0 = v % 2 ^ (w * g) := by
  induction g with
  | zero => simp [Nat.mod_one]
  | succ g ih =>
    rw [List.range_succ, List.foldl_append, ih]
    simp only [List.foldl_cons, List.foldl_nil]
    rw [Nat.mul_succ, Nat.pow_add, Nat.mod_mul, Nat.shiftLeft_eq, Nat.shiftRight_eq_div_pow, Nat.mul_comm (2 ^ (w * g))]

theorem vGet_vPut (r : PyRegs) (n g v : Nat) (h : n + g ≤ 32) : vGet (vPut r n g v) n g = v % 2 ^ (2048 * g) := by
  rw [← slices v g 2048]
  unfold vGet
  have key : ∀ (l : List Nat) (acc : Nat), (∀ i ∈ l, i < g) →
      l.foldl (fun acc i => acc + (vReg (vPut r n g v) (n + i)).toNat <<< (2048 * i)) acc
        = l.foldl (fun acc i => acc + (v >>> (2048 * i) % 2 ^ 2048) <<< (2048 * i)) acc := by
    intro l
    induction l with
    | nil => intro _ _; rfl
    | cons i l ih =>
      intro acc hl
      simp only [List.foldl_cons]
      have hi := hl i (by simp)
      rw [ih _ (fun j hj => hl j (by simp [hj])), vReg_vPut _ _ _ _ _ (by omega), if_pos (by omega), BitVec.toNat_ofNat,
        show n + i - n = i by omega]
  exact key _ _ (fun i hi => List.mem_range.1 hi)

theorem elPack_lt (sew : Nat) (l : List Nat) : elPack sew l < 2 ^ (sew * l.length) := by
  induction l with
  | nil => simp [elPack]
  | cons e l ih =>
    have h1 : elPack sew (e :: l) = e % 2 ^ sew + elPack sew l <<< sew := rfl
    rw [h1, Nat.shiftLeft_eq, List.length_cons, Nat.mul_succ, Nat.pow_add]
    have h2 : e % 2 ^ sew < 2 ^ sew := Nat.mod_lt _ (Nat.two_pow_pos _)
    have h3 : (elPack sew l + 1) * 2 ^ sew ≤ 2 ^ (sew * l.length) * 2 ^ sew := Nat.mul_le_mul_right _ ih
    rw [Nat.add_mul] at h3
    omega

theorem elAt_elPack (sew : Nat) : ∀ (l : List Nat) (i : Nat) (h : i < l.length), elAt sew (elPack sew l) i = l[i] % 2 ^ sew := by
  intro l
  induction l with
  | nil => intro i h; cases h
  | cons e l ih =>
    intro i h
    have h1 : elPack sew (e :: l) = e % 2 ^ sew + elPack sew l <<< sew := rfl
    have h2 : e % 2 ^ sew < 2 ^ sew := Nat.mod_lt _ (Nat.two_pow_pos _)
    cases i with
    | zero =>
      unfold elAt
      rw [h1, Nat.shiftLeft_eq, Nat.mul_zero]
      show (e % 2 ^ sew + elPack sew l * 2 ^ sew) % 2 ^ sew = e % 2 ^ sew
      rw [Nat.add_mul_mod_self_right, Nat.mod_mod]
    | succ i =>
      have := ih i (by simpa using h)
      unfold elAt at *
      rw [h1, Nat.shiftLeft_eq, Nat.mul_succ, Nat.add_comm (sew * i), Nat.shiftRight_add, Nat.shiftRight_eq_div_pow _ sew,
        Nat.add_mul_div_right _ _ (Nat.two_pow_pos _), Nat.div_eq_of_lt h2, Nat.zero_add]
      exact this

theorem grp_cases (r : PyRegs) : grpOf r = 1 ∨ grpOf r = 2 ∨ grpOf r = 4 ∨ grpOf r = 8 := by
  unfold grpOf
  have : r.vtype.toNat / 4 % 4 < 4 := Nat.mod_lt _ (by decide)
  rcases (by omega : r.vtype.toNat / 4 % 4 = 0 ∨ r.vtype.toNat / 4 % 4 = 1 ∨ r.vtype.toNat / 4 % 4 = 2 ∨ r.vtype.toNat / 4 % 4 = 3) with h | h | h | h <;>
    rw [h] <;> decide

theorem sew_vlmax (r : PyRegs) : sewOf r * vlmaxOf r = 2048 * grpOf r := by
  unfold vlmaxOf
  obtain ⟨h1, h2⟩ := sewBytes r
  rcases h1 with h | h | h | h <;> rw [h] at h2 <;> rcases grp_cases r with g | g | g | g <;> rw [h2, g]

theorem aligned_fits {n : BitVec 5} {r : PyRegs} (h : aligned n (grpOf r) = true) : n.toNat + grpOf r ≤ 32 := by
  unfold aligned at h
  have h' : n.toNat % grpOf r = 0 := by simpa using h
  have := n.isLt
  rcases grp_cases r with g | g | g | g <;> rw [g] at h' ⊢ <;> omega

/-- What a group of elements reads as after it has been written. -/
theorem vEl_vPut {r : PyRegs} {n : BitVec 5} (ha : aligned n (grpOf r) = true) (l : List Nat) (hl : l.length = vlmaxOf r) (i : Nat)
    (hi : i < vlmaxOf r) : vEl (vPut r n.toNat (grpOf r) (elPack (sewOf r) l)) n i = l.getD i 0 % 2 ^ sewOf r := by
  show elAt (sewOf r) (vGet (vPut r n.toNat (grpOf r) (elPack (sewOf r) l)) n.toNat (grpOf r)) i = _
  rw [vGet_vPut _ _ _ _ (aligned_fits ha)]
  have hlt := elPack_lt (sewOf r) l
  rw [hl, sew_vlmax] at hlt
  rw [Nat.mod_eq_of_lt hlt, elAt_elPack _ _ _ (by omega)]
  simp [hl, hi]

/-- The elements of a written destination group. -/
theorem vEl_vWrite (r : PyRegs) (msk : Option Nat) (n : BitVec 5) (f : Nat → Nat) (ha : aligned n (grpOf r) = true) (i : Nat)
    (hi : i < vlmaxOf r) :
    vEl (vWrite r msk n f) n i = match laneOf r msk i with | .go => f i % 2 ^ sewOf r | .zero => 0 | .keep => vEl r n i := by
  unfold vWrite
  rw [vEl_vPut ha _ (by simp) i hi]
  simp only [List.getD_eq_getElem?_getD, List.getElem?_map, List.getElem?_range hi, Option.map_some, Option.getD_some]
  cases laneOf r msk i with
  | go => rfl
  | zero => simp
  | keep => unfold vEl elAt; simp

/-! ## Bits of a mask register -/

theorem mReg_mPut (r : PyRegs) (n k : Nat) (v : BitVec 256) (hn : n < 8) (hk : k < 8) :
    mReg (mPut r n v) k = if k = n then v else mReg r k := by
  unfold mReg mPut
  simp only [List.getD_eq_getElem?_getD, Vector.getElem?_toList, Nat.mod_eq_of_lt hn, Nat.mod_eq_of_lt hk]
  rw [Vector.getElem?_setIfInBounds]
  by_cases h : n = k
  · rw [if_pos h, if_pos h.symm, if_pos hn]; rfl
  · rw [if_neg h, if_neg (fun e => h e.symm)]

theorem bit_one (g i : Nat) (hi : i < 256) : (1#256 <<< g).getLsbD i = decide (i = g) := by
  rw [BitVec.getLsbD_shiftLeft, BitVec.getLsbD_one]
  simp only [hi, decide_true, Bool.true_and]
  by_cases h : i = g
  · subst h; simp
  · simp [h]; omega
theorem bit_set (b : BitVec 256) (g i : Nat) (hi : i < 256) :
    (b ||| (1#256 <<< g)).getLsbD i = (b.getLsbD i || decide (i = g)) := by
  rw [BitVec.getLsbD_or, bit_one g i hi]
theorem bit_clear (b : BitVec 256) (g i : Nat) (hi : i < 256) :
    (b &&& ~~~ (1#256 <<< g)).getLsbD i = (b.getLsbD i && !decide (i = g)) := by
  rw [BitVec.getLsbD_and, BitVec.getLsbD_not, bit_one g i hi]
  simp [hi]

/-- The bits of a written destination mask register. -/
theorem mReg_mWrite (r : PyRegs) (msk : Option Nat) (n : Nat) (f : Nat → Bool) (hn : n < 8) (i : Nat) (hi : i < 256) :
    (mReg (mWrite r msk n f) n).getLsbD i
      = match laneOf r msk i with | .go => f i | .zero => false | .keep => (mReg r n).getLsbD i := by
  unfold mWrite
  rw [mReg_mPut _ _ _ _ hn hn, if_pos rfl]
  have key : ∀ (g : Nat) (b : BitVec 256), ((List.range g).foldl (fun acc i => match laneOf r msk i with
      | .keep => acc
      | .zero => acc &&& ~~~ (1#256 <<< i)
      | .go => if f i then acc ||| (1#256 <<< i) else acc &&& ~~~ (1#256 <<< i)) b).getLsbD i
      = if i < g then (match laneOf r msk i with | .go => f i | .zero => false | .keep => b.getLsbD i) else b.getLsbD i := by
    intro g
    induction g with
    | zero => intro b; simp
    | succ g ih =>
      intro b
      rw [List.range_succ, List.foldl_append]
      simp only [List.foldl_cons, List.foldl_nil]
      have hx := ih b
      generalize List.foldl _ b (List.range g) = acc at hx ⊢
      by_cases h : i = g
      · subst h
        rw [if_neg (Nat.lt_irrefl i)] at hx
        rw [if_pos (Nat.lt_succ_self i)]
        cases hl : laneOf r msk i with
        | keep => exact hx
        | zero => simp only; rw [bit_clear _ _ _ hi]; simp
        | go =>
          simp only
          cases f i
          · rw [if_neg (by decide), bit_clear _ _ _ hi]; simp
          · rw [if_pos rfl, bit_set _ _ _ hi]; simp
      · have e2 : (i < g + 1) ↔ (i < g) := by omega
        simp only [e2]
        rw [← hx]
        cases hl : laneOf r msk g with
        | keep => rfl
        | zero => simp only; rw [bit_clear _ _ _ hi]; simp [h]
        | go =>
          simp only
          cases f g
          · rw [if_neg (by decide), bit_clear _ _ _ hi]; simp [h]
          · rw [if_pos rfl, bit_set _ _ _ hi]; simp [h]
  refine (key 256 _).trans ?_
  rw [if_pos hi]

end Sys2Proof.Machine
end

