-- ==== Sys2Proof/Laws/Micro.lean ====
section
/-!
SUPPORT. What one micro-op of a sequencer does once it may issue, and how what it leaves composes.
-/
namespace Sys2Proof.Safety

open Sys2Proof.Machine

theorem MicroLeaves.refl (d : Dev) (u : Nat) (b : Job) : MicroLeaves d d u b id id id :=
  ⟨fun _ _ => by split <;> rfl, fun _ => rfl, fun _ => rfl, fun _ _ => by split <;> rfl, fun _ _ => by split <;> rfl, fun _ _ => rfl, rfl⟩

/-- A change of a modular engine, or of a tree sequencer, that does not look at the records of the schedule contract. -/
def MeBlind (e : MeEng → MeEng) : Prop := ∀ x s r, ({ e { x with sched := r } with sched := s } : MeEng) = { e x with sched := s }
def TsBlind (e : TsEng → TsEng) : Prop := ∀ x s r, ({ e { x with sched := r } with sched := s } : TsEng) = { e x with sched := s }

theorem MicroLeaves.trans {a m c : Dev} {u : Nat} {b : Job} {p1 p2 : PyRegs → PyRegs} {e1 e2 : MeEng → MeEng} {t1 t2 : TsEng → TsEng}
    (h : MicroLeaves a m u b p1 e1 t1) (k : MicroLeaves m c u b p2 e2 t2) (he : MeBlind e2 := by intros _ _ _; rfl)
    (ht : TsBlind t2 := by intros _ _ _; rfl) :
    MicroLeaves a c u b (fun r => p2 (p1 r)) (fun e => e2 (e1 e)) (fun t => t2 (t1 t)) := by
  refine ⟨?_, fun n => (k.tile n).trans (h.tile n), fun n => (k.ctx n).trans (h.ctx n), ?_, ?_, fun n hn => (k.jobs n hn).trans (h.jobs n hn), ?_⟩
  · intro n hn; rw [k.core n hn, h.core n hn]; split <;> rfl
  · intro n hn
    have k1 := k.meng n hn
    have h1 := h.meng n hn
    split
    · rw [if_pos ‹_›] at k1 h1
      rw [k1, h1]
      exact he _ _ _
    · rw [if_neg ‹_›] at k1 h1
      rw [k1, h1]
  · intro n hn
    have k1 := k.tree n hn
    have h1 := h.tree n hn
    split
    · rw [if_pos ‹_›] at k1 h1
      rw [k1, h1]
      exact ht _ _ _
    · rw [if_neg ‹_›] at k1 h1
      rw [k1, h1]
  · have k6 := k.rest
    have h6 := h.rest
    rw [k6, h6]

/-- Only what a change makes of its own unit counts, and of an engine not its records of the schedule contract. -/
theorem MicroLeaves.of_sched {d d' : Dev} {u : Nat} {b : Job} {p p' : PyRegs → PyRegs} {e e' : MeEng → MeEng} {t t' : TsEng → TsEng}
    (h : MicroLeaves d d' u b p e t) (hp : u < 16 → p (getCore d u).live = p' (getCore d u).live)
    (he : 16 ≤ u → u < 24 → ∀ s, ({ e (getMe d (u - 16)) with sched := s } : MeEng) = { e' (getMe d (u - 16)) with sched := s })
    (ht : 24 ≤ u → ∀ s, ({ t (getTs d (u - 24)) with sched := s } : TsEng) = { t' (getTs d (u - 24)) with sched := s }) :
    MicroLeaves d d' u b p' e' t' := by
  refine ⟨?_, h.tile, h.ctx, ?_, ?_, h.jobs, h.rest⟩
  · intro k hk
    rw [h.core k hk]
    by_cases hku : k = u
    · subst hku; simp only [if_true]; exact hp hk
    · simp only [if_neg hku]
  · intro i hi
    have h1 := h.meng i hi
    by_cases hku : 16 + i = u
    · subst hku
      have := he (by omega) (by omega)
      rw [show 16 + i - 16 = i by omega] at this
      rw [if_pos rfl] at h1 ⊢
      rw [← this]; exact h1
    · rw [if_neg hku] at h1 ⊢; exact h1
  · intro i hi
    have h1 := h.tree i hi
    by_cases hku : 24 + i = u
    · subst hku
      have := ht (by omega)
      rw [show 24 + i - 24 = i by omega] at this
      rw [if_pos rfl] at h1 ⊢
      rw [← this]; exact h1
    · rw [if_neg hku] at h1 ⊢; exact h1
theorem MicroLeaves.of_eq {d d' : Dev} {u : Nat} {b : Job} {p p' : PyRegs → PyRegs} {e e' : MeEng → MeEng} {t t' : TsEng → TsEng}
    (h : MicroLeaves d d' u b p e t) (hp : u < 16 → p (getCore d u).live = p' (getCore d u).live)
    (he : 16 ≤ u → u < 24 → e (getMe d (u - 16)) = e' (getMe d (u - 16))) (ht : 24 ≤ u → t (getTs d (u - 24)) = t' (getTs d (u - 24))) :
    MicroLeaves d d' u b p' e' t' :=
  h.of_sched hp (fun h1 h2 _ => by rw [he h1 h2]) fun h1 _ => by rw [ht h1]

end Sys2Proof.Safety

namespace Sys2Proof.Machine

open Sys2Proof.Safety

theorem getMe_of_mes {d d' : Dev} (h : d'.mes = d.mes) (i : Nat) : getMe d' i = getMe d i := by unfold getMe; rw [h]
theorem getTs_of_tss {d d' : Dev} (h : d'.tss = d.tss) (i : Nat) : getTs d' i = getTs d i := by unfold getTs; rw [h]
theorem getCore_of_cores {d d' : Dev} (h : d'.cores = d.cores) (i : Nat) : getCore d' i = getCore d i := by unfold getCore; rw [h]

theorem leaves_modCore {d : Dev} {u : Nat} {b : Job} {f : Core → Core} {p : PyRegs → PyRegs} (hu : u < 16)
    (h1 : ∀ x, (f x).live = p x.live) (h2 : ∀ x, (f x).tile = x.tile) (h3 : ∀ x, (f x).ctx = x.ctx) (me : MeEng → MeEng) (ts : TsEng → TsEng) :
    MicroLeaves d (modCore d u f) u b p me ts := by
  obtain ⟨cs, e⟩ := modCore_ex d u f
  refine ⟨?_, fun k => getCore_modCore_part Core.tile _ _ _ _ h2, fun k => getCore_modCore_part Core.ctx _ _ _ _ h3, ?_, ?_, ?_, ?_⟩
  · intro k hk
    rw [getCore_modCore _ _ _ _ hk]
    split
    · rw [h1]
    · rfl
  · intro i hi
    rw [if_neg (by omega)]; exact getMe_of_mes (by rw [e]) i
  · intro i hi
    rw [if_neg (by omega)]; exact getTs_of_tss (by rw [e]) i
  · intro n _; rw [e]; rfl
  · rw [e]

theorem leaves_modMe {d : Dev} {u : Nat} {b : Job} {f : MeEng → MeEng} (h1 : 16 ≤ u) (h2 : u < 24) (p : PyRegs → PyRegs) (ts : TsEng → TsEng) :
    MicroLeaves d (modMe d (u - 16) f) u b p f ts := by
  have h8 : u - 16 < 8 := by omega
  have e : modMe d (u - 16) f = { d with mes := d.mes.set (u - 16) (f d.mes[u - 16]) } := by unfold modMe; rw [dif_pos h8]
  rw [e]
  refine ⟨?_, fun _ => rfl, fun _ => rfl, ?_, ?_, fun _ _ => rfl, rfl⟩
  · intro k hk; rw [if_neg (by omega)]; rfl
  · intro i hi
    unfold getMe
    rw [dif_pos hi, dif_pos hi]
    simp only [Vector.getElem_set]
    by_cases hiu : 16 + i = u
    · subst hiu
      have : 16 + i - 16 = i := by omega
      simp only [this, if_true]
    · rw [if_neg (by omega), if_neg hiu]
  · intro i hi; rw [if_neg (by omega)]; rfl

theorem leaves_modTs {d : Dev} {u : Nat} {b : Job} {f : TsEng → TsEng} (h1 : 24 ≤ u) (h2 : u < 28) (p : PyRegs → PyRegs) (me : MeEng → MeEng) :
    MicroLeaves d (modTs d (u - 24) f) u b p me f := by
  have h8 : u - 24 < 4 := by omega
  have e : modTs d (u - 24) f = { d with tss := d.tss.set (u - 24) (f d.tss[u - 24]) } := by unfold modTs; rw [dif_pos h8]
  rw [e]
  refine ⟨?_, fun _ => rfl, fun _ => rfl, ?_, ?_, fun _ _ => rfl, rfl⟩
  · intro k hk; rw [if_neg (by omega)]; rfl
  · intro i hi; rw [if_neg (by omega)]; rfl
  · intro i hi
    unfold getTs
    rw [dif_pos hi, dif_pos hi]
    simp only [Vector.getElem_set]
    by_cases hiu : 24 + i = u
    · subst hiu
      have : 24 + i - 24 = i := by omega
      simp only [this, if_true]
    · rw [if_neg (by omega), if_neg hiu]

theorem leaves_setMicro (d : Dev) {u : Nat} (b : Job) (m : Micro) (hu : u < 28) :
    MicroLeaves d (setMicro d u m) u b (fun r => withMicro r m) (fun e => { e with micro := m }) fun t => { t with micro := m } := by
  unfold setMicro
  split
  · refine leaves_modCore ‹_› ?_ ?_ ?_ _ _ <;> intro _ <;> rfl
  · split
    · exact leaves_modMe (by omega) ‹_› _ _
    · exact leaves_modTs (by omega) hu _ _

theorem leaves_modJob (d : Dev) (u : Nat) (b : Job) (f : Job → Job) (hf : ∀ x, x.id = b.id → (f x).id = b.id) :
    MicroLeaves d (modJob d b.id f) u b id id id :=
  ⟨fun _ _ => by split <;> rfl, fun _ => rfl, fun _ => rfl, fun _ _ => by split <;> rfl, fun _ _ => by split <;> rfl,
    fun n hn => findJob_modJob_ne d b.id n f hf hn, rfl⟩

theorem leaves_records {d d' : Dev} (u : Nat) (b : Job) (h : CoreRecords d d') : MicroLeaves d d' u b id id id := by
  obtain ⟨⟨cs, rfl⟩, h⟩ := h
  exact ⟨fun k _ => by simp [(h k).1], fun k => (h k).2.1, fun k => (h k).2.2, fun _ _ => by split <;> rfl, fun _ _ => by split <;> rfl,
    fun _ _ => rfl, rfl⟩

theorem markUse_records (d : Dev) (cl : Bool) (c t : Nat) (u : Use) : CoreRecords d (markUse d cl c t u) :=
  ⟨markUse_ex d cl c t u, fun _ => ⟨getCore_markUse_part Core.live (fun _ _ => rfl) (fun _ _ _ _ => rfl) _ _ _ _ _ _,
    getCore_markUse_part Core.tile (fun _ _ => rfl) (fun _ _ _ _ => rfl) _ _ _ _ _ _,
    getCore_markUse_part Core.ctx (fun _ _ => rfl) (fun _ _ _ _ => rfl) _ _ _ _ _ _⟩⟩

theorem leaves_ctr (d : Dev) (u : Nat) (b : Job) (n : Nat) : MicroLeaves d { d with glob.freeCtr := n } u b id id id :=
  ⟨fun _ _ => by split <;> rfl, fun _ => rfl, fun _ => rfl, fun _ _ => by split <;> rfl, fun _ _ => by split <;> rfl, fun _ _ => rfl, rfl⟩

theorem leaves_io (d : Dev) (u : Nat) (b : Job) (n : SMap JobIo) : MicroLeaves d { d with io := n } u b id id id :=
  ⟨fun _ _ => by split <;> rfl, fun _ => rfl, fun _ => rfl, fun _ _ => by split <;> rfl, fun _ _ => by split <;> rfl, fun _ _ => rfl, rfl⟩

/-! ## Issue -/

theorem cellSeq_of (u : Nat) (hu : u < 28) : cellSeq (seqCellOf u) = some u := by
  unfold cellSeq seqCellOf
  by_cases h : u < 24
  · simp [h]
  · simp [h, show ¬ u + 4 < 24 by omega, show 28 ≤ u + 4 by omega, show u + 4 < 32 by omega]

theorem cellRuns_of {d : Dev} {u : Nat} {b : Job} (h : MicroReady d u b) : cellRuns d (seqCellOf u) = true := by
  simp [cellRuns, cellSeq_of u h.seq, h.run]
theorem stepTaken_of {d : Dev} {u : Nat} {b : Job} (h : MicroReady d u b) : stepTaken d (seqCellOf u) = d := by
  simp [stepTaken, cellSeq_of u h.seq, h.noStep]

theorem microWord_dec (w : U32) : microWord (w.toNat / 2 ^ 27) (decMicro w) = w := by
  apply BitVec.eq_of_toNat_eq
  have hw := w.isLt
  simp only [microWord, decMicro, wf, BitVec.toNat_ofNat, BitVec.toNat_setWidth, BitVec.toNat_ushiftRight, Nat.shiftRight_eq_div_pow]
  omega

/-- Class and fields of a micro-op. -/
noncomputable def microCode : Instr → Option (Nat × UFmt)
  | .uWait _ f => some (0, f) | .uUop _ f => some (1, f) | .uUopi _ f => some (2, f) | .uUins _ f => some (3, f)
  | .uFld _ f => some (4, f) | .uCcr _ f => some (5, f) | .uFlt _ f => some (6, f) | .uBr _ f => some (8, f)
  | .uJmp _ f => some (9, f) | .uCall _ f => some (10, f) | .uRet _ f => some (11, f) | .uLpset _ f => some (12, f)
  | .uLpend _ f => some (13, f) | .uYld _ f => some (14, f) | .uEnd _ f => some (15, f)
  | .uXmov _ f => some (16, f) | .uUiss _ f => some (17, f) | .uVln _ f => some (18, f) | .uVel _ f => some (19, f)
  | .uTls _ f => some (20, f) | .uMkv _ f => some (21, f)
  | .uSln _ f => some (16, f) | .uMac _ f => some (17, f) | .uPad _ f => some (18, f) | .uKplMe _ f => some (19, f) | .uHio _ f => some (20, f)
  | .uHui _ f => some (16, f) | .uNbm _ f => some (17, f) | .uSst _ f => some (18, f) | .uKplTs _ f => some (19, f)
  | _ => none

/-- A word that spells a micro-op is that micro-op's word, and not of a reserved class. -/
theorem uCommand_code {u : Nat} {w : U32} {i : Instr} (h : uCommand u w = some i) :
    microCode i = some (w.toNat / 2 ^ 27, decMicro w) ∧ classReserved u (w.toNat / 2 ^ 27) = false := by
  unfold uCommand at h
  dsimp only at h
  generalize w.toNat / 2 ^ 27 = c at h ⊢
  split at h
  · unfold uCommon at h
    split at h <;> first | (cases h; exact ⟨rfl, rfl⟩) | cases h
  · unfold uOwn at h
    split at h
    · split at h <;> first | (cases h; refine ⟨rfl, ?_⟩; simp [classReserved, *]; done) | cases h
    · split at h
      · split at h <;> first | (cases h; refine ⟨rfl, ?_⟩; simp [classReserved, *]; done) | cases h
      · split at h <;> first | (cases h; refine ⟨rfl, ?_⟩; simp [classReserved, *]; done) | cases h

/-- Where the control store holds the word of a micro-op at the micro-PC, or none at all, the micro-op may come. -/
theorem microWord_here {d : Dev} {u c : Nat} {i : Instr} {f : UFmt} (h : MicroWord d u i) (hc : microCode i = some (c, f)) :
    wordBad d u (getMicro d u).upc.toNat = false ∧ wordHere d u (getMicro d u).upc.toNat c f = true := by
  unfold wordBad wordHere
  cases hs : storeWord d u (getMicro d u).upc.toNat with
  | none => exact ⟨rfl, rfl⟩
  | some w =>
    obtain ⟨h1, h2⟩ := uCommand_code (h w hs)
    rw [hc] at h1
    simp only [Option.some.injEq, Prod.mk.injEq] at h1
    obtain ⟨rfl, rfl⟩ := h1
    exact ⟨h2, by rw [microWord_dec]; exact beq_self_eq_true w⟩

/-- A quiet engine's records hold nothing against a micro-op. -/
theorem uHazard_quiet {s : Sched} {use : UUse} (h1 : ∀ e ∈ s.land, e.2 ≤ s.nextT) (h2 : ∀ e ∈ s.free, e.2 ≤ s.nextT) : uHazard s use = false := by
  have e1 : ∀ n, ¬ s.nextT < mapGet 0 s.land n := fun n => by have := mapGet_le h1 n; omega
  have e2 : ∀ n k, ¬ s.nextT + k < mapGet 0 s.land n := fun n k => by have := mapGet_le h1 n; omega
  have e3 : ∀ n, ¬ s.nextT < mapGet 0 s.free n := fun n => by have := mapGet_le h2 n; omega
  unfold uHazard
  simp [e1, e2, e3]

theorem takeHalt_idle {d : Dev} {u : Nat} (h : (getStore d u).haltReq = false) : takeHalt d u = d := by unfold takeHalt; simp [h]

/-- The job as a micro-op that goes on leaves it: its CYCLES count on its first core. -/
def uSpent (u : Nat) (b x : Job) (n : Nat) : Job :=
  if decide (u < 16) && decide (b.eng = some u) then { x with cycles := x.cycles + n } else x
/-- The device that a micro-op leaves which goes on, before the Dealer acts. -/
def uPut (x : Ux) (upc : Nat) (b : Job) (u t : Nat) (use : UUse) : Dev :=
  let d2 := modJob (setMicro x.d u { x.m with upc := BitVec.ofNat 14 upc, run := true }) b.id fun _ => uSpent u b x.b use.cycles
  if u < 16 then markUse d2 b.cluster u t { writes := use.writes, gap := use.cycles } else setSched d2 u (uMark (getSched d2 u) use)

/-- The checks of a micro-op pass on a ready sequencer: it is what its body gives. -/
theorem uRun_body {d : Dev} {u c : Nat} {b : Job} {f : UFmt} {kinds : Nat → Bool} {use : UUse} {body : Ux → UEnd} {i : Instr}
    (h : MicroReady d u b) (hw : MicroWord d u i) (hc : microCode i = some (c, f))
    (hk : kinds u = true) {e : UEnd} (hb : body { d := d, u := u, b := b, m := getMicro d u, f := f } = e) :
    uRun u c f kinds use body d =
      match e with
      | .bad => failOn d b (seqCellOf u) stContractFault (BitVec.setWidth 16 (getMicro d u).upc)
      | .stop d1 b1 st dt => failOn d1 b1 (seqCellOf u) st dt
      | .ended d1 => takeHalt d1 u
      | .wait => d
      | .next x upc deal =>
        let d4 := takeHalt (uPut x upc b u (uTime d u) use) u
        if deal && !(uSpent u b x.b use.cycles).cluster && !cellHalted d4 (seqCellOf u) then dealYield d4 (uSpent u b x.b use.cycles) else d4 := by
  have h0 : ¬ 28 ≤ u := by have := h.seq; omega
  have hy : ¬ (getSched d u).yieldT + yieldMax u ≤ (getSched d u).nextT := by have := h.yield; unfold uTime at this; omega
  obtain ⟨w1, w2⟩ := microWord_here hw hc
  unfold uRun uPut uSpent uTime
  simp only [cellRuns_of h, h.job, stepTaken_of h, hk, h.placed, hb, h0, w1, w2, hy]
  by_cases hu : u < 16
  · obtain ⟨h1, h2⟩ := h.core hu
    have hz : hazard { d := d, c := u, t := (getSched d u).nextT, b := b, io := {}, r := {} } { reads := use.reads, writes := use.writes } = false :=
      hazard_quiet (p := { d := d, c := u, t := uTime d u, b := b, io := {}, r := {} }) h2 rfl
    have hp := pyHere_ready h1
    unfold uTime at hp
    simp only [hp, hz, hu]
    cases e <;> simp
  · have hz : uHazard (getSched d u) use = false := uHazard_quiet h.land h.free
    simp only [hu, hz]
    cases e <;> simp

theorem leaves_setSched (d : Dev) {u : Nat} (b : Job) (x : Sched) (hu : u < 28) : MicroLeaves d (setSched d u x) u b id id id := by
  unfold setSched
  split
  · refine leaves_modCore ‹_› ?_ ?_ ?_ _ _ <;> intro _ <;> rfl
  · split
    · exact (leaves_modMe (by omega) ‹_› id id).of_sched (fun _ => rfl) (fun _ _ _ => rfl) fun _ _ => rfl
    · exact (leaves_modTs (by omega) hu id id).of_sched (fun _ => rfl) (fun _ _ _ => rfl) fun _ _ => rfl

theorem leaves_uPut {d0 : Dev} {u : Nat} {b : Job} {x : Ux} {p : PyRegs → PyRegs} {e : MeEng → MeEng} {t : TsEng → TsEng} (hu : u < 28)
    (hl : MicroLeaves d0 x.d u b p e t) (upc : Nat) (tt : Nat) (use : UUse) (hid : x.b.id = b.id) :
    MicroLeaves d0 (uPut x upc b u tt use) u b
      (fun r => withMicro (p r) { x.m with upc := BitVec.ofNat 14 upc, run := true })
      (fun q => { e q with micro := { x.m with upc := BitVec.ofNat 14 upc, run := true } })
      fun q => { t q with micro := { x.m with upc := BitVec.ofNat 14 upc, run := true } } := by
  have h1 := (hl.trans (leaves_setMicro x.d b { x.m with upc := BitVec.ofNat 14 upc, run := true } hu)).trans
    (leaves_modJob _ u b (fun _ => uSpent u b x.b use.cycles) fun _ _ => by unfold uSpent; split <;> exact hid)
  unfold uPut
  dsimp only
  split
  · exact h1.trans (leaves_records u b (markUse_records _ _ _ _ _))
  · exact h1.trans (leaves_setSched _ b _ hu)

/-- What a micro-op leaves has the stores that were there. -/
theorem MicroLeaves.store {d d' : Dev} {u : Nat} {b : Job} {p e t} (h : MicroLeaves d d' u b p e t) (k : Nat) : getStore d' k = getStore d k := by
  have h6 := h.rest
  rw [h6]; rfl

/-- A micro-op that goes on, with no yield point: what its body left, with the micro-state put back. -/
theorem uRun_next {d d0 : Dev} {u c : Nat} {b : Job} {f : UFmt} {kinds : Nat → Bool} {use : UUse} {body : Ux → UEnd} {i : Instr}
    (h : MicroReady d u b) (hw : MicroWord d u i) (hc : microCode i = some (c, f)) (hk : kinds u = true) {x : Ux} {upc : Nat}
    (hb : body { d := d, u := u, b := b, m := getMicro d u, f := f } = .next x upc)
    {p : PyRegs → PyRegs} {e : MeEng → MeEng} {t : TsEng → TsEng} (hl : MicroLeaves d0 x.d u b p e t) (hid : x.b.id = b.id)
    (h0 : getStore d0 u = getStore d u := by rfl) :
    uRun u c f kinds use body d = uPut x upc b u (uTime d u) use
    ∧ MicroLeaves d0 (uRun u c f kinds use body d) u b (fun r => withMicro (p r) { x.m with upc := BitVec.ofNat 14 upc, run := true })
      (fun q => { e q with micro := { x.m with upc := BitVec.ofNat 14 upc, run := true } })
      fun q => { t q with micro := { x.m with upc := BitVec.ofNat 14 upc, run := true } } := by
  have k := leaves_uPut h.seq hl upc (uTime d u) use hid
  have e : uRun u c f kinds use body d = uPut x upc b u (uTime d u) use := by
    rw [uRun_body h hw hc hk hb]
    dsimp only
    rw [takeHalt_idle (by rw [MicroLeaves.store k, h0]; exact h.noHalt)]
    simp
  exact ⟨e, by rw [e]; exact k⟩

theorem setMicro_jobs (d : Dev) (u : Nat) (m : Micro) : (setMicro d u m).jobs = d.jobs := by
  unfold setMicro modCore modMe modTs; (repeat' split) <;> rfl
theorem setSched_jobs (d : Dev) (u : Nat) (m : Sched) : (setSched d u m).jobs = d.jobs := by
  unfold setSched modCore modMe modTs; (repeat' split) <;> rfl

/-- A yield point of a micro-routine: the Dealer acts on what the micro-op left, outside cluster mode. -/
theorem uRun_deal {d d0 : Dev} {u c : Nat} {b : Job} {f : UFmt} {kinds : Nat → Bool} {use : UUse} {body : Ux → UEnd} {i : Instr}
    (h : MicroReady d u b) (hw : MicroWord d u i) (hc : microCode i = some (c, f)) (hk : kinds u = true) {x : Ux} {upc : Nat}
    (hb : body { d := d, u := u, b := b, m := getMicro d u, f := f } = .next x upc true) (hcl : x.b.cluster = b.cluster)
    {p : PyRegs → PyRegs} {e : MeEng → MeEng} {t : TsEng → TsEng} (hl : MicroLeaves d0 x.d u b p e t) (hid : x.b.id = b.id)
    (h0 : getStore d0 u = getStore d u := by rfl) :
    uRun u c f kinds use body d
      = (if b.cluster then uPut x upc b u (uTime d u) use else dealYield (uPut x upc b u (uTime d u) use) (uSpent u b x.b use.cycles))
    ∧ MicroLeaves d0 (uPut x upc b u (uTime d u) use) u b (fun r => withMicro (p r) { x.m with upc := BitVec.ofNat 14 upc, run := true })
      (fun q => { e q with micro := { x.m with upc := BitVec.ofNat 14 upc, run := true } })
      fun q => { t q with micro := { x.m with upc := BitVec.ofNat 14 upc, run := true } } := by
  have k := leaves_uPut h.seq hl upc (uTime d u) use hid
  have hs : getStore (uPut x upc b u (uTime d u) use) u = getStore d u := by rw [MicroLeaves.store k, h0]
  have hh : cellHalted (uPut x upc b u (uTime d u) use) (seqCellOf u) = false := by
    unfold cellHalted; rw [cellSeq_of u h.seq]; dsimp only; rw [hs]; exact h.run
  have hcl2 : (uSpent u b x.b use.cycles).cluster = b.cluster := by unfold uSpent; split <;> exact hcl
  refine ⟨?_, k⟩
  rw [uRun_body h hw hc hk hb]
  dsimp only
  rw [takeHalt_idle (by rw [hs]; exact h.noHalt), hh, hcl2]
  cases b.cluster <;> simp

theorem uSpent_engine {u : Nat} (hu : 16 ≤ u) (b x : Job) (n : Nat) : uSpent u b x n = x := by
  unfold uSpent; simp [show ¬ u < 16 by omega]

/-- The job of a micro-op that goes on. -/
theorem uPut_job {u : Nat} {b : Job} {x : Ux} {upc t : Nat} {use : UUse} (hid : x.b.id = b.id) {b0 : Job}
    (hf : findJob x.d b.id = some b0) : findJob (uPut x upc b u t use) b.id = some (uSpent u b x.b use.cycles) := by
  have hs : findJob (setMicro x.d u { x.m with upc := BitVec.ofNat 14 upc, run := true }) b.id = some b0 := by
    rw [← hf]; unfold findJob; rw [setMicro_jobs]
  have hj : (uSpent u b x.b use.cycles).id = b.id := by unfold uSpent; split <;> exact hid
  have hm : findJob (modJob (setMicro x.d u { x.m with upc := BitVec.ofNat 14 upc, run := true }) b.id fun _ => uSpent u b x.b use.cycles) b.id
      = some (uSpent u b x.b use.cycles) := by
    generalize setMicro x.d u { x.m with upc := BitVec.ofNat 14 upc, run := true } = y at hs
    unfold findJob modJob at *
    dsimp only
    generalize y.jobs.live = l at hs
    induction l with
    | nil => cases hs
    | cons z l ih =>
      simp only [List.map_cons, List.find?_cons] at hs ⊢
      by_cases hz : z.id = b.id
      · simp [hz, hj]
      · have hz' : (z.id == b.id) = false := by simpa using hz
        simp only [hz, if_false, hz'] at hs ⊢
        exact ih hs
  rw [← hm]
  unfold uPut findJob
  dsimp only
  split
  · obtain ⟨cs, e⟩ := markUse_ex (modJob (setMicro x.d u { x.m with upc := BitVec.ofNat 14 upc, run := true }) b.id fun _ => uSpent u b x.b use.cycles)
      b.cluster u t { writes := use.writes, gap := use.cycles }
    rw [e]
  · rw [setSched_jobs]

theorem uFaults_bad {i : Instr} {s : State} {u c : Nat} {b : Job} {f : UFmt} {kinds : Nat → Bool} {use : UUse} {body : Ux → UEnd}
    (hi : exec i s = onDev s (uRun u c f kinds use body)) (hc : microCode i = some (c, f)) (h : MicroReady s.dev u b) (hk : kinds u = true)
    (ho : OwnQueues s.dev b) (hb : body { d := s.dev, u := u, b := b, m := getMicro s.dev u, f := f } = .bad) :
    MicroFaults i s u b stContractFault := by
  intro hw hl
  refine ⟨_, hi, rfl, ?_⟩
  show ∃ eff, JobEnds s.dev (uRun u c f kinds use body s.dev) b _ eff
  rw [uRun_body h hw hc hk hb]
  exact failOn_ends _ _ _ _ _ ho h.placed hl

theorem uFaults_stop {i : Instr} {s : State} {u c : Nat} {b : Job} {f : UFmt} {kinds : Nat → Bool} {use : UUse} {body : Ux → UEnd} {st det : U16}
    (hi : exec i s = onDev s (uRun u c f kinds use body)) (hc : microCode i = some (c, f)) (h : MicroReady s.dev u b) (hk : kinds u = true)
    (ho : OwnQueues s.dev b) (hb : body { d := s.dev, u := u, b := b, m := getMicro s.dev u, f := f } = .stop s.dev b st det) :
    MicroFaults i s u b st := by
  intro hw hl
  refine ⟨_, hi, rfl, ?_⟩
  show ∃ eff, JobEnds s.dev (uRun u c f kinds use body s.dev) b _ eff
  rw [uRun_body h hw hc hk hb]
  exact failOn_ends _ _ _ _ _ ho h.placed hl

/-- The micro-state of a sequencer is where its type keeps it. -/
theorem getMicro_me {d : Dev} {u : Nat} (h1 : 16 ≤ u) (h2 : u < 24) : getMicro d u = (getMe d (u - 16)).micro := by
  unfold getMicro; rw [if_neg (by omega), if_pos h2]
theorem getMicro_ts {d : Dev} {u : Nat} (h1 : 24 ≤ u) : getMicro d u = (getTs d (u - 24)).micro := by
  unfold getMicro; rw [if_neg (by omega), if_neg (by omega)]

/-- A micro-op that changes the micro-state only. -/
theorem microState_of {i : Instr} {s : State} {u c : Nat} {b : Job} {f : UFmt} {kinds : Nat → Bool} {use : UUse} {body : Ux → UEnd}
    {g : Micro → Micro} {x : Ux} {upc : Nat} (hi : exec i s = onDev s (uRun u c f kinds use body)) (hc : microCode i = some (c, f)) (h : MicroReady s.dev u b)
    (hk : kinds u = true) (hb : body { d := s.dev, u := u, b := b, m := getMicro s.dev u, f := f } = .next x upc)
    (hl : MicroLeaves s.dev x.d u b id id id) (hid : x.b.id = b.id)
    (hg : { x.m with upc := BitVec.ofNat 14 upc, run := true } = g (getMicro s.dev u)) : MicroState i s u b g := by
  refine fun hw => ⟨_, hi, rfl, (uRun_next (use := use) h hw hc hk hb hl hid).2.of_eq ?_ ?_ ?_⟩
  · intro _; simp only [id, hg]
  · intro h1 h2; simp only [id, hg, getMicro_me h1 h2]
  · intro h1; simp only [id, hg, getMicro_ts h1]

theorem microPy_of {i : Instr} {s : State} {u c : Nat} {b : Job} {f : UFmt} {kinds : Nat → Bool} {use : UUse} {body : Ux → UEnd}
    {p : PyRegs → PyRegs} {g : Micro → Micro} {x : Ux} {upc : Nat} (hi : exec i s = onDev s (uRun u c f kinds use body)) (hc : microCode i = some (c, f))
    (h : MicroReady s.dev u b) (hu : u < 16) (hk : kinds u = true)
    (hb : body { d := s.dev, u := u, b := b, m := getMicro s.dev u, f := f } = .next x upc)
    (hl : MicroLeaves s.dev x.d u b p id id) (hid : x.b.id = b.id)
    (hg : { x.m with upc := BitVec.ofNat 14 upc, run := true } = uNext (g (getMicro s.dev u))) : MicroPy i s u b p g := by
  refine fun hw => ⟨_, hi, rfl, (uRun_next (use := use) h hw hc hk hb hl hid).2.of_eq ?_ ?_ ?_⟩
  · intro _; simp only [hg]
  · intro h1 h2; omega
  · intro h1; omega

theorem microMe_of {i : Instr} {s : State} {u c : Nat} {b : Job} {f : UFmt} {kinds : Nat → Bool} {use : UUse} {body : Ux → UEnd}
    {e : MeEng → MeEng} {x : Ux} {upc : Nat} (hi : exec i s = onDev s (uRun u c f kinds use body)) (hc : microCode i = some (c, f)) (h : MicroReady s.dev u b)
    (h1 : 16 ≤ u) (h2 : u < 24) (hk : kinds u = true)
    (hb : body { d := s.dev, u := u, b := b, m := getMicro s.dev u, f := f } = .next x upc)
    {e' : MeEng → MeEng} (hl : MicroLeaves s.dev x.d u b id e' id) (he : e' (getMe s.dev (u - 16)) = e (getMe s.dev (u - 16)))
    (hid : x.b.id = b.id) (hm : x.m = getMicro s.dev u) (hpc : upc = (getMicro s.dev u).upc.toNat + 1) : MicroMe i s u b e := by
  refine fun hw => ⟨_, hi, rfl, (uRun_next (use := use) h hw hc hk hb hl hid).2.of_eq ?_ ?_ ?_⟩
  · intro _; omega
  · intro _ _
    rw [he, hm, hpc, getMicro_me h1 h2]
    have : BitVec.ofNat 14 ((getMe s.dev (u - 16)).micro.upc.toNat + 1) = (getMe s.dev (u - 16)).micro.upc + 1 := by
      apply BitVec.eq_of_toNat_eq; simp
    simp only [this]
    rfl
  · intro h1; omega

theorem microTs_of {i : Instr} {s : State} {u c : Nat} {b : Job} {f : UFmt} {kinds : Nat → Bool} {use : UUse} {body : Ux → UEnd}
    {e : TsEng → TsEng} {x : Ux} {upc : Nat} (hi : exec i s = onDev s (uRun u c f kinds use body)) (hc : microCode i = some (c, f)) (h : MicroReady s.dev u b)
    (h1 : 24 ≤ u) (hk : kinds u = true)
    (hb : body { d := s.dev, u := u, b := b, m := getMicro s.dev u, f := f } = .next x upc)
    {e' : TsEng → TsEng} (hl : MicroLeaves s.dev x.d u b id id e') (he : e' (getTs s.dev (u - 24)) = e (getTs s.dev (u - 24)))
    (hid : x.b.id = b.id) (hm : x.m = getMicro s.dev u) (hpc : upc = (getMicro s.dev u).upc.toNat + 1) : MicroTs i s u b e := by
  refine fun hw => ⟨_, hi, rfl, (uRun_next (use := use) h hw hc hk hb hl hid).2.of_eq ?_ ?_ ?_⟩
  · intro _; omega
  · intro _ _; omega
  · intro _
    rw [he, hm, hpc, getMicro_ts h1]
    have : BitVec.ofNat 14 ((getTs s.dev (u - 24)).micro.upc.toNat + 1) = (getTs s.dev (u - 24)).micro.upc + 1 := by
      apply BitVec.eq_of_toNat_eq; simp
    simp only [this]
    rfl

theorem microMe_mod {i : Instr} {s : State} {u c : Nat} {b : Job} {f : UFmt} {kinds : Nat → Bool} {use : UUse} {body : Ux → UEnd}
    {e : MeEng → MeEng} {x : Ux} {upc : Nat} (hi : exec i s = onDev s (uRun u c f kinds use body)) (hc : microCode i = some (c, f)) (h : MicroReady s.dev u b)
    (h1 : 16 ≤ u) (h2 : u < 24) (hk : kinds u = true)
    (hb : body { d := s.dev, u := u, b := b, m := getMicro s.dev u, f := f } = .next x upc)
    (hl : ∃ e', x.d = modMe s.dev (u - 16) e' ∧ e' (getMe s.dev (u - 16)) = e (getMe s.dev (u - 16)))
    (hid : x.b.id = b.id) (hm : x.m = getMicro s.dev u) (hpc : upc = (getMicro s.dev u).upc.toNat + 1) : MicroMe i s u b e := by
  obtain ⟨e', hl, he⟩ := hl
  exact microMe_of hi hc h h1 h2 hk hb (by rw [hl]; exact leaves_modMe h1 h2 _ _) he hid hm hpc

theorem microTs_mod {i : Instr} {s : State} {u c : Nat} {b : Job} {f : UFmt} {kinds : Nat → Bool} {use : UUse} {body : Ux → UEnd}
    {e : TsEng → TsEng} {x : Ux} {upc : Nat} (hi : exec i s = onDev s (uRun u c f kinds use body)) (hc : microCode i = some (c, f)) (h : MicroReady s.dev u b)
    (h1 : 24 ≤ u) (hk : kinds u = true)
    (hb : body { d := s.dev, u := u, b := b, m := getMicro s.dev u, f := f } = .next x upc)
    (hl : ∃ e', x.d = modTs s.dev (u - 24) e' ∧ e' (getTs s.dev (u - 24)) = e (getTs s.dev (u - 24)))
    (hid : x.b.id = b.id) (hm : x.m = getMicro s.dev u) (hpc : upc = (getMicro s.dev u).upc.toNat + 1) : MicroTs i s u b e := by
  obtain ⟨e', hl, he⟩ := hl
  exact microTs_of hi hc h h1 hk hb (by rw [hl]; exact leaves_modTs h1 h.seq _ _) he hid hm hpc

/-- The micro-PC of the next word. -/
theorem upc_next (m : Micro) : ({ m with upc := BitVec.ofNat 14 (m.upc.toNat + 1), run := true } : Micro) = uNext m := by
  have : BitVec.ofNat 14 (m.upc.toNat + 1) = m.upc + 1 := by apply BitVec.eq_of_toNat_eq; simp
  simp only [this]; rfl

end Sys2Proof.Machine
end

