-- ==== Sys2Proof/Laws/Services.lean ====
section
/-!
SUPPORT. The routines of services: when one runs, and the ways its job can end.
-/
namespace Sys2Proof.Machine

open Sys2Proof.Safety

/-- The checks of a service pass for a ready job: its routine runs. -/
theorem service_ready {d : Dev} {j : Nat} {ops : Sqe → Bool} {b : Job} (h : JobReady d j ops b) (run : Dev → Job → Dev) :
    service j ops run d = run d b := by
  have h1 : (ctxCells b).all (cellRuns d) = true := List.all_eq_true.2 fun c hc => (h.runs c hc).1
  have h2 : (ctxCells b).foldl stepTaken d = d := by
    have : ∀ l : List Nat, (∀ c ∈ l, stepTaken d c = d) → l.foldl stepTaken d = d := by
      intro l
      induction l with
      | nil => intro _; rfl
      | cons c l ih => intro hl; rw [List.foldl_cons, hl c (by simp)]; exact ih fun x hx => hl x (by simp [hx])
    exact this _ fun c hc => (h.runs c hc).2
  have h3 : (needsRandom d b.owner b.e && d.rng.state == .error) = false := by
    rcases h.random with e | e
    · rw [e]; rfl
    · have : (d.rng.state == .error) = false := by simpa using e
      rw [this, Bool.and_false]
  unfold service
  simp only [h.job, h.op, h.placed, h1, h2, h.noAbort, h.inTime, h3, h.ready, h.fresh.1, h.fresh.2]
  simp

theorem serviceNone_ready {d : Dev} {j : Nat} {ops : Sqe → Bool} {b : Job} (h : JobWaiting d j ops b) (run : Dev → Job → Dev) :
    serviceNone j ops run d = run d b := by
  have hl : (outSgl b.e && b.e.outCap != 0 && !b.outOk) = false := by
    rcases h.list with e | e | e <;> simp [e]
  unfold serviceNone
  simp only [h.job, h.op, h.waiting, h.input, h.aux, h.inTime, h.good, hl]
  simp

theorem jobDone_of {i : Instr} {s : State} {d0 : Dev} {b : Job} {out : Bytes} {res : U32} {eff : Byte} {att cyc : Nat}
    (h : exec i s = .next { s with dev := finishOut d0 b out res eff att cyc }) : JobDone i s d0 b out res eff att cyc :=
  ⟨h, fun ⟨hm, hb, hs, hc⟩ => ⟨_, h, rfl, finishOut_ends d0 b out res eff att cyc hm hb hs hc⟩⟩

theorem jobOver_of {i : Instr} {s : State} {d0 : Dev} {b : Job} {st det : U16} {res : U32} {att cyc : Nat}
    (h : exec i s = .next { s with dev := finish d0 { b with cycles := cyc, attempts := att, outLen := 0, result := res } st det }) :
    JobOver i s d0 b st det res att cyc :=
  ⟨h, fun ⟨hm, hb, hs, hc⟩ => ⟨_, h, rfl, by
    obtain ⟨k1, k2⟩ := finish_ends d0 { b with cycles := cyc, attempts := att, outLen := 0, result := res } st det hm hb hs hc
    exact ⟨JobEnds.of_same k1 rfl rfl rfl rfl rfl rfl rfl rfl rfl rfl, k2⟩⟩⟩

/-- A ready job runs its routine. -/
theorem serve_exec {i : Instr} {s : State} {j : Nat} {ops : Sqe → Bool} {run : Dev → Job → Dev} {b : Job}
    (hi : exec i s = onDev s (service j ops run)) (h : JobReady s.dev j ops b) : exec i s = .next { s with dev := run s.dev b } := by
  rw [hi]; unfold onDev; rw [service_ready h]
theorem serveNone_exec {i : Instr} {s : State} {j : Nat} {ops : Sqe → Bool} {run : Dev → Job → Dev} {b : Job}
    (hi : exec i s = onDev s (serviceNone j ops run)) (h : JobWaiting s.dev j ops b) : exec i s = .next { s with dev := run s.dev b } := by
  rw [hi]; unfold onDev; rw [serviceNone_ready h]

/-- The same, with what the operation's run answers already known. -/
theorem serve_to {i : Instr} {s : State} {j : Nat} {ops : Sqe → Bool} {b : Job} (run : Dev → Job → Dev) {d1 : Dev}
    (hi : exec i s = onDev s (service j ops run)) (h : JobReady s.dev j ops b) (e : run s.dev b = d1) : exec i s = .next { s with dev := d1 } := by
  rw [serve_exec hi h, e]
theorem serveNone_to {i : Instr} {s : State} {j : Nat} {ops : Sqe → Bool} {b : Job} (run : Dev → Job → Dev) {d1 : Dev}
    (hi : exec i s = onDev s (serviceNone j ops run)) (h : JobWaiting s.dev j ops b) (e : run s.dev b = d1) :
    exec i s = .next { s with dev := d1 } := by
  rw [serveNone_exec hi h, e]

theorem needSalts_jobs (d : Dev) (o : Nat) : (needSalts d o).jobs = d.jobs := by
  unfold needSalts needZsalt draw
  cases d.ks.zsalt <;> dsimp only <;> split <;> rfl

/-- The creation of an object by a job. -/
theorem keyMade_of {i : Instr} {s : State} {d0 : Dev} {b : Job} {k : NewKey} {out : Bytes} {att cyc : Nat}
    (h : exec i s = .next { s with dev := makeKey d0 b k out att cyc }) : KeyMade i s d0 b k out att cyc := by
  refine ⟨?_, ?_, ?_⟩
  · intro hb hp r
    apply jobDone_of
    rw [h]; unfold makeKey; rw [if_neg (by simp [hb]), if_pos hp]
  · intro hb
    rw [h]; unfold makeKey; rw [if_pos (by simpa [Option.isSome_iff_ne_none] using hb)]
  · intro hb hp hj
    refine ⟨_, h, rfl, ?_⟩
    dsimp only
    unfold makeKey
    rw [if_neg (by simp [hb]), if_neg hp]
    dsimp only
    refine ⟨_, _, _, findJob_modJob_self (b := b) _ ?_ rfl, rfl, rfl, rfl, rfl, rfl, rfl, rfl⟩
    have hf : findJob (splitSecret (needSalts d0 b.owner) k.sec).2.2 b.id = some b := by
      unfold findJob at hj ⊢
      rw [show (splitSecret (needSalts d0 b.owner) k.sec).2.2.jobs = d0.jobs from needSalts_jobs d0 b.owner]
      exact hj
    unfold findJob at hf ⊢
    split <;> exact hf

/-- The ends a run of an operation has, each as the statement that says it. -/
theorem finish_over {i : Instr} {s : State} {b : Job} {st det : U16} (h : exec i s = .next { s with dev := finish s.dev b st det }) :
    OwnQueues s.dev b → Completes i s fun d' => JobEnds s.dev d' b st b.effect ∧ Closes s.dev d' :=
  fun ⟨hm, hb, hs, hc⟩ => ⟨_, h, rfl, finish_ends s.dev b st det hm hb hs hc⟩
theorem refuse_over {i : Instr} {s : State} {d0 : Dev} {b : Job} {st det : U16} {cyc : Nat}
    (h : exec i s = .next { s with dev := refuse d0 b st det cyc }) : JobOver i s d0 b st det 0 b.attempts cyc := jobOver_of h
theorem verdict_over {i : Instr} {s : State} {b : Job} {ok : Bool} {st : U16} {cyc : Nat}
    (h : exec i s = .next { s with dev := verdict s.dev b ok st 0 cyc }) : Verdict i s b ok st cyc := jobOver_of h
theorem opened_of {i : Instr} {s : State} {b : Job} {p : Option Bytes} {cyc : Nat} (h : exec i s = .next { s with dev := opened s.dev b p cyc }) :
    Opened i s b p cyc := by
  cases p with
  | none => exact refuse_over h
  | some p => exact jobDone_of h

theorem twoPass_of {i : Instr} {s : State} {b : Job} {ok : Bool} {p : Bytes} {cyc : Nat}
    (h : exec i s = .next { s with dev := twoPass s.dev b ok p cyc }) : TwoPass i s b ok p cyc := by
  unfold twoPass at h
  refine ⟨fun hs hk => ?_, fun hs hk => refuse_over ?_, fun hs => jobDone_of ?_⟩
  · rw [if_neg hs, hk] at h; exact h
  · rw [if_neg hs, hk] at h; exact h
  · rw [if_pos hs] at h; exact h

/-- A device on which a job goes on: only its own entry, signalling and what the end of a job may touch have changed. -/
structure Near (d dc : Dev) (b bc : Job) : Prop where
  own   : OwnQueues dc bc
  live  : dc.jobs.live.filter (fun x => x.id ≠ b.id) = d.jobs.live.filter fun x => x.id ≠ b.id
  done  : dc.jobs.done = d.jobs.done
  sqs   : dc.sqs = d.sqs
  cqs   : dc.cqs = d.cqs
  ends  : Closes d dc
  job   : bc.id = b.id ∧ bc.owner = b.owner ∧ bc.sq = b.sq ∧ bc.index = b.index ∧ bc.cq = b.cq ∧ bc.e = b.e

theorem Near.refl {d : Dev} {b : Job} (h : OwnQueues d b) : Near d d b b := ⟨h, rfl, rfl, rfl, rfl, Closes.refl d, rfl, rfl, rfl, rfl, rfl, rfl⟩
/-- The job's own fields change. -/
theorem Near.job' {d dc : Dev} {b bc b1 : Job} (h : Near d dc b bc) (h1 : b1.id = bc.id) (h2 : b1.owner = bc.owner) (h3 : b1.sq = bc.sq)
    (h4 : b1.index = bc.index) (h5 : b1.cq = bc.cq) (h6 : b1.e = bc.e) (h7 : b1.outBad = bc.outBad) : Near d dc b b1 := by
  obtain ⟨⟨m, o, s, c⟩, hl, hd, hs, hc, he, j1, j2, j3, j4, j5, j6⟩ := h
  exact ⟨⟨m, by rw [h7]; exact o, s, c⟩, hl, hd, hs, hc, he, by rw [h1, j1], by rw [h2, j2], by rw [h3, j3], by rw [h4, j4], by rw [h5, j5],
    by rw [h6, j6]⟩
/-- The job's entry changes. -/
theorem Near.modJob {d dc : Dev} {b bc : Job} (h : Near d dc b bc) (f : Job → Job) (hf : ∀ x, x.id = b.id → (f x).id = b.id) :
    Near d (Machine.modJob dc b.id f) b bc := by
  obtain ⟨⟨m, o, s, c⟩, hl, hd, hs, hc, he, j⟩ := h
  refine ⟨⟨m, o, s, c⟩, ?_, hd, hs, hc, he.trans ⟨_, _, _, _, _, _, _, _, _, _, _, _, _, _, _, rfl⟩, j⟩
  rw [← hl]; exact filter_map_ne _ _ _ hf
/-- Signalling. -/
theorem Near.signals {d dc d1 : Dev} {b bc : Job} (h : Near d dc b bc) (hs : Signals dc d1) : Near d d1 b bc := by
  obtain ⟨⟨m, o, s, c⟩, hl, hd, h1, h2, he, j⟩ := h
  have hm1 : isMember d1 = false := by rw [Signals.isMember hs]; exact m
  have hcl := hs.closes
  obtain ⟨x, y, z, rfl⟩ := hs
  exact ⟨⟨hm1, o, s, c⟩, hl, hd, h1, h2, he.trans hcl, j⟩
/-- The engines' registers change. -/
theorem Near.engs {d dc : Dev} {b bc : Job} (h : Near d dc b bc) (e : Vector EngReg 32) : Near d { dc with engs := e } b bc := by
  obtain ⟨⟨m, o, s, c⟩, hl, hd, h1, h2, he, j⟩ := h
  exact ⟨⟨m, o, s, c⟩, hl, hd, h1, h2, he.trans ⟨_, _, _, _, _, _, _, _, _, _, _, _, _, _, _, rfl⟩, j⟩
/-- The end of a job that has gone on for a while. -/
theorem Near.finish {d dc : Dev} {b bc : Job} (h : Near d dc b bc) (st det : U16) :
    JobEnds d (Machine.finish dc bc st det) b st bc.effect ∧ Closes d (Machine.finish dc bc st det) := by
  obtain ⟨⟨m, o, s, c⟩, hl, hd, hs, hc, he, j1, j2, j3, j4, j5, j6⟩ := h
  obtain ⟨k1, k2⟩ := finish_ends dc bc st det m o s c
  exact ⟨JobEnds.of_same k1 hl hd hs hc j1 j2 j3 j4 j5 j6, he.trans k2⟩

/-- A refusal of a validation phase. -/
theorem meRefuse_ends {d dc : Dev} {b bc : Job} (h : Near d dc b bc) (st det : U16) (cyc : Nat) :
    JobEnds d (meRefuse dc bc st det cyc) b st bc.effect ∧ Closes d (meRefuse dc bc st det cyc) := by
  unfold meRefuse refuse meRefused
  split
  · rename_i c _
    obtain ⟨e, he⟩ := modEng_ex dc c fun r => { r with refuse := satInc r.refuse }
    rw [he]
    exact ((h.engs e).job' (b1 := { bc with cycles := cyc, outLen := 0, result := 0 }) rfl rfl rfl rfl rfl rfl rfl).finish _ _
  · exact (h.job' (b1 := { bc with cycles := cyc, outLen := 0, result := 0 }) rfl rfl rfl rfl rfl rfl rfl).finish _ _
theorem meRefused_of {i : Instr} {s : State} {d0 : Dev} {b : Job} {st det : U16} {cyc : Nat}
    (h : exec i s = .next { s with dev := meRefuse d0 b st det cyc }) : MeRefused i s d0 b st det cyc :=
  ⟨h, fun ho => ⟨_, h, rfl, meRefuse_ends (Near.refl ho) st det cyc⟩⟩
theorem next_eq {i : Instr} {s : State} {d0 d1 : Dev} (h : exec i s = .next { s with dev := d0 }) (e : d0 = d1) :
    exec i s = .next { s with dev := d1 } := by rw [h, e]

end Sys2Proof.Machine
end

