-- ==== Sys2Proof/Laws/FuseJobs.lean ====
section
/-!
SUPPORT. What the queues, the jobs and the fabric leave of OTP and of the smallest release that may run: all of it.
-/
set_option linter.unusedSimpArgs false
set_option linter.unusedVariables false
namespace Sys2Proof.Machine

theorem foldl_fuse {β : Type} (f : Dev → β → Dev) (l : List β) (d : Dev)
    (h : ∀ a x, (f a x).otp = a.otp ∧ (f a x).boot.cfgMin = a.boot.cfgMin) :
    (l.foldl f d).otp = d.otp ∧ (l.foldl f d).boot.cfgMin = d.boot.cfgMin := by
  induction l generalizing d with
  | nil => exact ⟨rfl, rfl⟩
  | cons x l ih => rw [List.foldl_cons]; exact ⟨(ih _).1.trans (h d x).1, (ih _).2.trans (h d x).2⟩

@[simp] theorem ite_otp (c : Prop) [Decidable c] (a b : Dev) : (if c then a else b).otp = if c then a.otp else b.otp := by split <;> rfl

@[simp] theorem ite_min (c : Prop) [Decidable c] (a b : Dev) : (if c then a else b).boot.cfgMin = if c then a.boot.cfgMin else b.boot.cfgMin := by split <;> rfl

/-- OTP and the smallest release that may run are as they were. -/
abbrev Kept (d' d : Dev) : Prop := d'.otp = d.otp ∧ d'.boot.cfgMin = d.boot.cfgMin

theorem Kept.trans {a b c : Dev} (h : Kept a b) (g : Kept b c) : Kept a c := ⟨h.1.trans g.1, h.2.trans g.2⟩

theorem Kept.foldl {β : Type} {f : Dev → β → Dev} {l : List β} {d : Dev} (h : ∀ a x, Kept (f a x) a) : Kept (l.foldl f d) d := foldl_fuse f l d h

@[simp] theorem kept_iff (a b : Dev) : Kept a b ↔ a.otp = b.otp ∧ a.boot.cfgMin = b.boot.cfgMin := Iff.rfl

def PyEnd.Keeps (d : Dev) : PyEnd → Prop
  | .next q => Kept q.d d | .fault q _ _ => Kept q.d d | .wait q _ => Kept q.d d | .halt q _ _ => Kept q.d d

@[simp] theorem keeps_next (d : Dev) (q : Px) : PyEnd.Keeps d (.next q) ↔ Kept q.d d := Iff.rfl

@[simp] theorem keeps_fault (d : Dev) (q : Px) (a b : U16) : PyEnd.Keeps d (.fault q a b) ↔ Kept q.d d := Iff.rfl

@[simp] theorem keeps_wait (d : Dev) (q : Px) (w : PyWait) : PyEnd.Keeps d (.wait q w) ↔ Kept q.d d := Iff.rfl

@[simp] theorem keeps_halt (d : Dev) (q : Px) (a b : U16) : PyEnd.Keeps d (.halt q a b) ↔ Kept q.d d := Iff.rfl

@[simp] theorem keeps_ite (d : Dev) (c : Prop) [Decidable c] (a b : PyEnd) :
    PyEnd.Keeps d (if c then a else b) ↔ if c then PyEnd.Keeps d a else PyEnd.Keeps d b := by split <;> rfl

def UEnd.Keeps (d : Dev) : UEnd → Prop
  | .next x _ _ => Kept x.d d | .bad => True | .stop e _ _ _ => Kept e d | .ended e => Kept e d | .wait => True

@[simp] theorem ukeeps_next (d : Dev) (q : Ux) (n : Nat) (y : Bool) : UEnd.Keeps d (.next q n y) ↔ Kept q.d d := Iff.rfl

@[simp] theorem ukeeps_stop (d e : Dev) (b : Job) (s t : U16) : UEnd.Keeps d (.stop e b s t) ↔ Kept e d := Iff.rfl

@[simp] theorem ukeeps_ended (d e : Dev)  : UEnd.Keeps d (.ended e) ↔ Kept e d := Iff.rfl

@[simp] theorem ukeeps_bad (d : Dev)  : UEnd.Keeps d .bad := trivial

@[simp] theorem ukeeps_wait (d : Dev)  : UEnd.Keeps d .wait := trivial

theorem foldl_keeps {β : Type} (f : Px → β → Px) (l : List β) (p : Px) (h : ∀ a x, Kept (f a x).d a.d) : Kept (l.foldl f p).d p.d := by
  induction l generalizing p with
  | nil => exact ⟨rfl, rfl⟩
  | cons x l ih => rw [List.foldl_cons]; exact (ih _).trans (h p x)

theorem kept_ite {c : Prop} [Decidable c] {a b d : Dev} (ha : Kept a d) (hb : Kept b d) : Kept (if c then a else b) d := by
  split
  · exact ha
  · exact hb

theorem ukeeps_ite {c : Prop} [Decidable c] {a b : UEnd} {d : Dev} (ha : UEnd.Keeps d a) (hb : UEnd.Keeps d b) :
    UEnd.Keeps d (if c then a else b) := by
  split
  · exact ha
  · exact hb

@[simp] theorem modPort_fuse (d : Dev) (p : Nat) (f : Port → Port) : Kept (modPort d p f) d := by
  unfold modPort
  repeat' split
  all_goals simp

@[simp] theorem setNode_fuse (d : Dev) (n : Nat) (v : Node) : Kept (setNode d n v) d := by
  unfold setNode
  exact ⟨rfl, rfl⟩

@[simp] theorem modNode_fuse (d : Dev) (n : Nat) (f : Node → Node) : Kept (modNode d n f) d := by
  unfold modNode
  exact ⟨rfl, rfl⟩

@[simp] theorem portEmit_fuse (d : Dev) (p : Nat) (t : FType) (f : Frame) : Kept (portEmit d p t f) d := by
  unfold portEmit
  exact ⟨rfl, rfl⟩

@[simp] theorem pumpPort_fuse (p : Nat) : ∀ (n : Nat) (ws : List (FType × Frame)) (bl : List Nat) (d : Dev),
    (pumpPort p n ws bl d).otp = d.otp ∧ (pumpPort p n ws bl d).boot.cfgMin = d.boot.cfgMin := by
  intro n
  induction n with
  | zero => intro ws bl d; rw [pumpPort]; exact ⟨rfl, rfl⟩
  | succ n ih =>
    intro ws bl d
    cases ws with
    | nil => rw [pumpPort]; exact ⟨rfl, rfl⟩; simp
    | cons w ws =>
      unfold pumpPort; dsimp only
      split <;> simp [ih]

@[simp] theorem pump_fuse (d : Dev) (p : Nat) : Kept (pump d p) d := by
  unfold pump
  simp

@[simp] theorem portSend_fuse (d : Dev) (p : Nat) (t : FType) (f : Frame) : Kept (portSend d p t f) d := by
  unfold portSend
  simp

@[simp] theorem routeFrame_fuse (d : Dev) (t : FType) (f : Frame) : Kept (routeFrame d t f) d := by
  unfold routeFrame
  repeat' split
  all_goals simp

@[simp] theorem sendFrame_fuse (d : Dev) (n : Nat) (t : FType) (body : Bytes) : Kept (sendFrame d n t body) d := by
  unfold sendFrame
  simp

@[simp] theorem sendWrites_fuse (d : Dev) (j : Nat) (owner : Nat) (addr : U64) (bs : Bytes) : Kept (sendWrites d j owner addr bs) d := by
  unfold sendWrites
  refine foldl_fuse _ _ _ fun a x => ?_
  repeat' split
  all_goals simp

@[simp] theorem sendReadData_fuse (d : Dev) (n : Nat) (j : Nat) (side : DmaSide) (bs : Bytes) : Kept (sendReadData d n j side bs) d := by
  unfold sendReadData
  refine foldl_fuse _ _ _ fun a x => ?_
  repeat' split
  all_goals simp

@[simp] theorem setSq_fuse (d : Dev) (q : Nat) (v : Sq) : Kept (setSq d q v) d := by
  unfold setSq
  exact ⟨rfl, rfl⟩

@[simp] theorem modSq_fuse (d : Dev) (q : Nat) (f : Sq → Sq) : Kept (modSq d q f) d := by
  unfold modSq
  exact ⟨rfl, rfl⟩

@[simp] theorem setCq_fuse (d : Dev) (q : Nat) (v : Cq) : Kept (setCq d q v) d := by
  unfold setCq
  exact ⟨rfl, rfl⟩

@[simp] theorem modCq_fuse (d : Dev) (q : Nat) (f : Cq → Cq) : Kept (modCq d q f) d := by
  unfold modCq
  exact ⟨rfl, rfl⟩

@[simp] theorem setOwn_fuse (d : Dev) (o : Nat) (v : Own) : Kept (setOwn d o v) d := by
  unfold setOwn
  exact ⟨rfl, rfl⟩

@[simp] theorem modOwn_fuse (d : Dev) (o : Nat) (f : Own → Own) : Kept (modOwn d o f) d := by
  unfold modOwn
  exact ⟨rfl, rfl⟩

@[simp] theorem setFn_fuse (d : Dev) (f : Nat) (v : Fn) : Kept (setFn d f v) d := by
  unfold setFn
  exact ⟨rfl, rfl⟩

@[simp] theorem setVec_fuse (d : Dev) (fn : Nat) (v : Nat) (x : Vec) : Kept (setVec d fn v x) d := by
  unfold setVec
  exact ⟨rfl, rfl⟩

@[simp] theorem modEng_fuse (d : Dev) (c : Nat) (f : EngReg → EngReg) : Kept (modEng d c f) d := by
  unfold modEng
  repeat' split
  all_goals simp

@[simp] theorem modCore_fuse (d : Dev) (c : Nat) (f : Core → Core) : Kept (modCore d c f) d := by
  unfold modCore
  repeat' split
  all_goals simp

@[simp] theorem modMe_fuse (d : Dev) (i : Nat) (f : MeEng → MeEng) : Kept (modMe d i f) d := by
  unfold modMe
  repeat' split
  all_goals simp

@[simp] theorem modTs_fuse (d : Dev) (i : Nat) (f : TsEng → TsEng) : Kept (modTs d i f) d := by
  unfold modTs
  repeat' split
  all_goals simp

@[simp] theorem modSy_fuse (d : Dev) (i : Nat) (f : SyEng → SyEng) : Kept (modSy d i f) d := by
  unfold modSy
  (repeat' split) <;> simp

@[simp] theorem modJob_fuse (d : Dev) (j : Nat) (f : Job → Job) : Kept (modJob d j f) d := by
  unfold modJob
  exact ⟨rfl, rfl⟩

@[simp] theorem dropJob_fuse (d : Dev) (j : Nat) : Kept (dropJob d j) d := by
  unfold dropJob
  exact ⟨rfl, rfl⟩

@[simp] theorem emit_fuse (d : Dev) (o : Out) : Kept (emit d o) d := by
  unfold emit
  repeat' split
  all_goals simp

@[simp] theorem hostWrite_fuse (d : Dev) (fn : Nat) (addr : U64) (bs : Bytes) (relaxed : Bool) : Kept (hostWrite d fn addr bs relaxed) d := by
  unfold hostWrite
  refine foldl_fuse _ _ _ fun a x => ?_
  repeat' split
  all_goals simp

@[simp] theorem hostRead_fuse (d : Dev) (fn : Nat) (addr : U64) (len : Nat) (what : ReadFor) : Kept (hostRead d fn addr len what) d := by
  unfold hostRead
  ((try dsimp only) <;> (repeat' split) <;> (first | (simp [foldl_fuse]; done) | exact ⟨rfl, rfl⟩ | (refine foldl_fuse _ _ _ fun a x => ?_; ((try dsimp only) <;> (repeat' split) <;> (first | (simp [foldl_fuse]; done) | exact ⟨rfl, rfl⟩))) | skip))

@[simp] theorem msixSend_fuse (d : Dev) (fn : Nat) (v : Nat) : Kept (msixSend d fn v) d := by
  unfold msixSend
  simp

@[simp] theorem evRequest_fuse (d : Dev) (src : Nat) : Kept (evRequest d src) d := by
  unfold evRequest
  simp

@[simp] theorem raise_fuse (d : Dev) (src : Nat) (old : BitVec w) (new : BitVec w) : Kept (raise d src old new) d := by
  unfold raise
  simp

@[simp] theorem hifCause_fuse (d : Dev) (bits : BitVec 5) : Kept (hifCause d bits) d := by
  unfold hifCause
  simp

@[simp] theorem ksDone_fuse (d : Dev) : Kept (ksDone d) d := by
  unfold ksDone
  simp

@[simp] theorem ksPfull_fuse (d : Dev) : Kept (ksPfull d) d := by
  unfold ksPfull
  simp

@[simp] theorem vfmCause_fuse (d : Dev) (bits : BitVec 3) (o : Nat) : Kept (vfmCause d bits o) d := by
  unfold vfmCause
  simp

@[simp] theorem dutyCause_fuse (d : Dev) : Kept (dutyCause d) d := by
  unfold dutyCause
  simp

@[simp] theorem rngCause_fuse (d : Dev) (bits : BitVec 6) : Kept (rngCause d bits) d := by
  unfold rngCause
  simp

@[simp] theorem ssCause_fuse (d : Dev) (bits : BitVec 3) (slot : U16) : Kept (ssCause d bits slot) d := by
  unfold ssCause
  simp

@[simp] theorem recCause_fuse (d : Dev) (bits : BitVec 4) : Kept (recCause d bits) d := by
  unfold recCause
  simp

@[simp] theorem ambCause_fuse (d : Dev) (bits : BitVec 3) : Kept (ambCause d bits) d := by
  unfold ambCause
  simp

@[simp] theorem bdrCause_fuse (d : Dev) (bits : BitVec 9) : Kept (bdrCause d bits) d := by
  unfold bdrCause
  simp

@[simp] theorem tmonCause_fuse (d : Dev) (bits : BitVec 4) : Kept (tmonCause d bits) d := by
  unfold tmonCause
  simp

@[simp] theorem vfEvent_fuse (d : Dev) (o : Nat) (share : Bool) (strand : Bool) : Kept (vfEvent d o share strand) d := by
  unfold vfEvent
  simp

@[simp] theorem ringPut_fuse (d : Dev) (e : AEntry) : Kept (ringPut d e) d := by
  unfold ringPut
  repeat' split
  all_goals simp

@[simp] theorem relay_fuse (d : Dev) (e : AEntry) : Kept (relay d e) d := by
  unfold relay
  simp

@[simp] theorem amber_fuse (d : Dev) (c : ACode) (src : ASrc) (args : Bytes) : Kept (amber d c src args) d := by
  unfold amber
  simp

@[simp] theorem recUpdate_fuse (d : Dev) (key : Nat) (fresh : RecData) (f : RecData → RecData) : Kept (recUpdate d key fresh f) d := by
  unfold recUpdate
  repeat' split
  all_goals simp

@[simp] theorem recHist_fuse (d : Dev) (subject : Nat) (v : Nat) : Kept (recHist d subject v) d := by
  unfold recHist
  simp

@[simp] theorem recExtreme_fuse (d : Dev) (subject : Nat) (v : Int) : Kept (recExtreme d subject v) d := by
  unfold recExtreme
  simp

@[simp] theorem recLife_fuse (d : Dev) (f : U64 →   U32 → Vector U32 9 → U32 → U32 → U64 → RecData) : Kept (recLife d f) d := by
  unfold recLife
  simp

@[simp] theorem lifeFlush_fuse (d : Dev) : Kept (lifeFlush d) d := by
  unfold lifeFlush
  simp

@[simp] theorem lifeNote_fuse (d : Dev) (k : Nat) : Kept (lifeNote d k) d := by
  unfold lifeNote
  simp

@[simp] theorem freeze_fuse (d : Dev) (bit : Nat) : Kept (freeze d bit) d := by
  unfold freeze
  dsimp only
  repeat' split
  all_goals simp

@[simp] theorem modStore_fuse (d : Dev) (u : Nat) (f : UStore → UStore) : Kept (modStore d u f) d := by
  unfold modStore
  repeat' split
  all_goals simp

@[simp] theorem stepTaken_fuse (d : Dev) (c : Nat) : Kept (stepTaken d c) d := by
  unfold stepTaken
  repeat' split
  all_goals simp

@[simp] theorem takeOut_fuse (d : Dev) (c : Nat) : Kept (takeOut d c) d := by
  unfold takeOut
  simp

@[simp] theorem draw_fuse (d : Dev) (n : Nat) : Kept (draw d n).2 d := by
  unfold draw
  exact ⟨rfl, rfl⟩

@[simp] theorem noise_fuse (d : Dev) (n : Nat) : Kept (noise d n).2 d := by
  unfold noise; simp

@[simp] theorem wipeContexts_fuse (d : Dev) (j : Nat) : Kept (wipeContexts d j) d := by
  unfold wipeContexts
  generalize List.range 8 = l8
  generalize List.range 4 = l4
  refine Kept.trans (Kept.foldl fun a x => ?_) (Kept.trans (Kept.foldl fun a x => ?_) (Kept.foldl fun a x => ?_))
  · split <;> simp
  · split <;> simp
  · simp

@[simp] theorem wipeSlate_fuse (d : Dev) (c : Nat) : Kept (wipeSlate d c) d := by
  unfold wipeSlate; simp

@[simp] theorem setState_fuse (d : Dev) (st : DevState) : Kept (setState d st) d := by
  unfold setState
  simp

@[simp] theorem setSlot_fuse (d : Dev) (o : Nat) (slot : Nat) (v : Slot) : Kept (setSlot d o slot v) d := by
  unfold setSlot
  exact ⟨rfl, rfl⟩

@[simp] theorem splitSecret_fuse (d : Dev) (sec : Bytes) : Kept (splitSecret d sec).2.2 d := by
  unfold splitSecret
  exact ⟨rfl, rfl⟩

@[simp] theorem createObj_fuse (d : Dev) (o : Nat) (k : KObj) : Kept (createObj d o k).2 d := by
  unfold createObj
  repeat' split
  all_goals simp

@[simp] theorem createKey_fuse (d : Dev) (o : Nat) (type : U16) (policy : U16) (origin : Byte) (persist : Bool) (sec : Bytes) (pub : Bytes) (param : U32) :
    Kept (createKey d o type policy origin persist sec pub param).2 d := by
  unfold createKey
  simp

@[simp] theorem destroySlot_fuse (d : Dev) (o : Nat) (n : Nat) : Kept (destroySlot d o n) d := by
  unfold destroySlot
  dsimp only
  repeat' split
  all_goals simp

@[simp] theorem destroyVolatile_fuse (d : Dev) (p : Nat → Bool) : Kept (destroyVolatile d p) d := by
  unfold destroyVolatile
  refine foldl_fuse _ _ _ fun a x => ?_
  repeat' split
  all_goals simp

@[simp] theorem forgetGens_fuse (d : Dev) : Kept (forgetGens d) d := by
  unfold forgetGens
  exact ⟨rfl, rfl⟩

theorem resolveKey_fuse {d : Dev} {o : Nat} {h : U32} {r : KObj × Dev} (e : resolveKey d o h = some r) :
    r.2.otp = d.otp ∧ r.2.boot.cfgMin = d.boot.cfgMin := by
  unfold resolveKey at e
  split at e
  · cases e
  · cases e; simp

@[simp] theorem modObj_fuse (d : Dev) (o : Nat) (h : U32) (f : KObj → KObj) : Kept (modObj d o h f) d := by
  unfold modObj
  exact ⟨rfl, rfl⟩

@[simp] theorem setJ_fuse (d : Dev) (k : Nat) (e : JEntry) : Kept (setJ d k e) d := by
  unfold setJ
  exact ⟨rfl, rfl⟩

@[simp] theorem modJ_fuse (d : Dev) (k : Nat) (f : JEntry → JEntry) : Kept (modJ d k f) d := by
  unfold modJ
  exact ⟨rfl, rfl⟩

@[simp] theorem freeJ_fuse (d : Dev) (k : Nat) : Kept (freeJ d k) d := by
  unfold freeJ
  exact ⟨rfl, rfl⟩

theorem jrnReserve_fuse {d : Dev} {o : Nat} {e : JEntry} {r : Nat × Dev} (h : jrnReserve d o e = some r) :
    r.2.otp = d.otp ∧ r.2.boot.cfgMin = d.boot.cfgMin := by
  unfold jrnReserve at h
  split at h
  · cases h
  · split at h
    · cases h
    · cases h; simp

@[simp] theorem jrnResolve_fuse (d : Dev) (p : Nat → Bool) (zeroised : Bool) : Kept (jrnResolve d p zeroised) d := by
  unfold jrnResolve
  refine Kept.foldl fun a x => ?_
  (repeat' split) <;> simp

@[simp] theorem giveEntries_fuse (d : Dev) (o : Nat) : Kept (giveEntries d o) d := by
  unfold giveEntries
  refine foldl_fuse _ _ _ fun a x => ?_
  dsimp only
  split
  · split
    · split
      · next h => exact jrnReserve_fuse h
      · simp
    · simp
  · simp

@[simp] theorem fateRelease_fuse (d : Dev) (a : FqArgs) : Kept (fateRelease d a).2 d := by
  unfold fateRelease
  repeat' split
  all_goals simp

@[simp] theorem fateReleaseBoot_fuse (d : Dev) (o : Nat) (boot : U32) : Kept (fateReleaseBoot d o boot) d := by
  unfold fateReleaseBoot
  refine Kept.trans (giveEntries_fuse _ _) ?_
  exact Kept.foldl (f := freeJ) fun a x => freeJ_fuse a x

@[simp] theorem setFq_fuse (d : Dev) (f : Nat) (v : Fq) : Kept (setFq d f v) d := by
  unfold setFq
  exact ⟨rfl, rfl⟩

@[simp] theorem fqAnswer_fuse (d : Dev) (f : Nat) (r : FateRec) (cursor : Nat) : Kept (fqAnswer d f r cursor) d := by
  unfold fqAnswer
  exact ⟨rfl, rfl⟩

@[simp] theorem fateAsk_fuse (d : Dev) (n : Nat) (op : Nat) (asker : Nat) (a : FqArgs) : Kept (fateAsk d n op asker a) d := by
  unfold fateAsk
  simp

@[simp] theorem fqAsk_fuse (d : Dev) (f : Nat) (n : Nat) (op : Nat) (a : FqArgs) : Kept (fqAsk d f n op a) d := by
  unfold fqAsk
  simp

@[simp] theorem fqRun_fuse (op : Nat) (run : Dev → Nat → Dev) (d : Dev) (f : Nat) (h : ∀ a n, Kept (run a n) a) : Kept (fqRun op run d f) d := by
  unfold fqRun
  dsimp only
  split
  · exact ⟨rfl, rfl⟩
  split
  · exact Kept.trans (h _ _) ⟨rfl, rfl⟩
  · exact ⟨rfl, rfl⟩

@[simp] theorem fqByJobGo_fuse (x0 : Dev) (x1 : Nat) : Kept (fqByJobGo x0 x1) x0 := by
  unfold fqByJobGo
  refine fqRun_fuse _ _ _ _ fun a n => ?_
  dsimp only
  (repeat' split) <;> simp

@[simp] theorem fqByKeyGo_fuse (x0 : Dev) (x1 : Nat) : Kept (fqByKeyGo x0 x1) x0 := by
  unfold fqByKeyGo
  refine fqRun_fuse _ _ _ _ fun a n => ?_
  dsimp only
  (repeat' split) <;> simp

@[simp] theorem fqReleaseGo_fuse (x0 : Dev) (x1 : Nat) : Kept (fqReleaseGo x0 x1) x0 := by
  unfold fqReleaseGo
  refine fqRun_fuse _ _ _ _ fun a n => ?_
  dsimp only
  (repeat' split) <;> simp

@[simp] theorem releaseEverywhere_fuse (d : Dev) (a : FqArgs) : Kept (releaseEverywhere d a) d := by
  unfold releaseEverywhere
  ((try dsimp only) <;> (repeat' split) <;> (first | (simp [foldl_fuse]; done) | exact ⟨rfl, rfl⟩ | (refine foldl_fuse _ _ _ fun a x => ?_; ((try dsimp only) <;> (repeat' split) <;> (first | (simp [foldl_fuse]; done) | exact ⟨rfl, rfl⟩))) | skip))

@[simp] theorem fqReleaseBootGo_fuse (x0 : Dev) (x1 : Nat) : Kept (fqReleaseBootGo x0 x1) x0 := by
  unfold fqReleaseBootGo
  refine fqRun_fuse _ _ _ _ fun a n => ?_
  dsimp only
  (repeat' split) <;> simp

@[simp] theorem ssLowEvents_fuse (d : Dev) (old : SsKey) (new : SsKey) (slot : Nat) : Kept (ssLowEvents d old new slot) d := by
  unfold ssLowEvents
  simp

@[simp] theorem abandonAt_fuse (d : Dev) (o : Nat) : Kept (abandonAt d o) d := by
  unfold abandonAt
  refine foldl_fuse _ _ _ fun a x => ?_
  repeat' split
  all_goals simp

@[simp] theorem cqMessage_fuse (d : Dev) (c : Nat) : Kept (cqMessage d c) d := by
  unfold cqMessage
  repeat' split
  all_goals simp

@[simp] theorem stopSq_fuse (d : Dev) (q : Nat) (reason : Byte) (idx : U32) : Kept (stopSq d q reason idx) d := by
  unfold stopSq
  repeat' split
  all_goals simp

@[simp] theorem sqTail_fuse (d : Dev) (q : Nat) (t : U32) : Kept (sqTail d q t) d := by
  unfold sqTail
  simp

@[simp] theorem passDone_fuse (d : Dev) (c : Nat) (a b : U32) : Kept (passDone d c a b) d := by
  have h : ∀ (x : Dev) (l : List Done), Kept x d → Kept (match cqOwner { x with jobs.done := l } c with
      | some o => giveEntries { x with jobs.done := l } o | none => { x with jobs.done := l }) d := by
    intro x l hx
    split
    · exact Kept.trans (giveEntries_fuse _ _) hx
    · exact hx
  unfold passDone
  refine h _ _ (Kept.foldl fun a x => ?_)
  repeat' split
  all_goals simp

@[simp] theorem cqHead_fuse (d : Dev) (c : Nat) (h : U32) : Kept (cqHead d c h) d := by
  unfold cqHead
  simp

@[simp] theorem sqDoorbellGo_fuse (f : Nat) (j : Nat) (t : U32) (d : Dev) : Kept (sqDoorbellGo f j t d) d := by
  unfold sqDoorbellGo
  repeat' split
  all_goals simp

@[simp] theorem cqDoorbellGo_fuse (f : Nat) (j : Nat) (h : U32) (d : Dev) : Kept (cqDoorbellGo f j h d) d := by
  unfold cqDoorbellGo
  repeat' split
  all_goals simp

@[simp] theorem hifLastErr_fuse (d : Dev) (owner : Nat) (kind : Nat) (engine : U16) (addr : U32) : Kept (hifLastErr d owner kind engine addr) d := by
  unfold hifLastErr
  exact ⟨rfl, rfl⟩

@[simp] theorem badAccess_fuse (d : Dev) (f : Nat) (off : Nat) : Kept (badAccess d f off) d := by
  unfold badAccess
  simp

@[simp] theorem pushWriteGo_fuse (f : Nat) (j : Nat) (off : Nat) (bs : Bytes) (d : Dev) : Kept (pushWriteGo f j off bs d) d := by
  unfold pushWriteGo
  repeat' split
  all_goals simp

@[simp] theorem jobWrite_fuse (d : Dev) (j : Nat) (fn : Nat) (addr : U64) (bs : Bytes) : Kept (jobWrite d j fn addr bs) d := by
  unfold jobWrite
  simp

@[simp] theorem writeSegs_fuse (j fn : Nat) (segs : List Seg) : ∀ (n off : Nat) (bs : Bytes) (d : Dev),
    (writeSegs d j fn segs n off bs).otp = d.otp ∧ (writeSegs d j fn segs n off bs).boot.cfgMin = d.boot.cfgMin := by
  intro n
  induction n with
  | zero => intro off bs d; rw [writeSegs]; exact ⟨rfl, rfl⟩
  | succ n ih =>
    intro off bs d
    cases bs with
    | nil => rw [writeSegs]; exact ⟨rfl, rfl⟩
    | cons w ws =>
      unfold writeSegs
      split <;> simp [ih]

@[simp] theorem writeOut_fuse (d : Dev) (b : Job) (off : Nat) (bs : Bytes) : Kept (writeOut d b off bs) d := by
  unfold writeOut
  repeat' split
  all_goals simp

@[simp] theorem postCqe_fuse (d : Dev) (o : Nat) (c : Nat) (entry : Byte → Bytes) (st : U16) (notify : Bool) :
    Kept (postCqe d o c entry st notify) d := by
  unfold postCqe
  simp

@[simp] theorem engineEnd_fuse (d : Dev) (b : Job) (cell : Nat) : Kept (engineEnd d b cell) d := by
  unfold engineEnd
  simp

@[simp] theorem closeJob_fuse (d : Dev) (b : Job) (st : U16) (det : U16) (r : RunInfo) : Kept (closeJob d b st det r) d := by
  unfold closeJob
  simp

@[simp] theorem topUp_fuse (d : Dev) (o : Nat) : Kept (topUp d o) d := by
  unfold topUp
  simp

@[simp] theorem memberClose_fuse (d : Dev) (b : Job) (st : U16) (det : U16) (r : RunInfo) : Kept (memberClose d b st det r) d := by
  unfold memberClose
  simp

@[simp] theorem endEngines_fuse (d : Dev) (b : Job) : Kept (endEngines d b) d := by
  unfold endEngines
  ((try dsimp only) <;> (repeat' split) <;> (first | (simp [foldl_fuse]; done) | exact ⟨rfl, rfl⟩ | (refine foldl_fuse _ _ _ fun a x => ?_; ((try dsimp only) <;> (repeat' split) <;> (first | (simp [foldl_fuse]; done) | exact ⟨rfl, rfl⟩))) | skip))

@[simp] theorem endJournal_fuse (d : Dev) (b : Job) (st : U16) : Kept (endJournal d b st) d := by
  unfold endJournal
  repeat' split
  all_goals simp

@[simp] theorem endCounts_fuse (d : Dev) (b : Job) (st : U16) : Kept (endCounts d b st) d := by
  unfold endCounts
  simp

@[simp] theorem finish_fuse (d : Dev) (b : Job) (st0 : U16) (det0 : U16) : Kept (finish d b st0 det0) d := by
  unfold finish
  simp

@[simp] theorem finishJob_fuse (d : Dev) (j : Nat) (st : U16) (det : U16) : Kept (finishJob d j st det) d := by
  unfold finishJob
  repeat' split
  all_goals simp

@[simp] theorem finishOut_fuse (d : Dev) (b : Job) (out : Bytes) (result : U32) (eff : Byte) (attempts : Nat) (cycles : Nat) :
    Kept (finishOut d b out result eff attempts cycles) d := by
  unfold finishOut
  simp

@[simp] theorem sqEnable_fuse (d : Dev) (o : Nat) (q : Nat) (v : U64) : Kept (sqEnable d o q v) d := by
  unfold sqEnable
  dsimp only
  repeat' split
  all_goals simp

@[simp] theorem cqEnable_fuse (d : Dev) (o : Nat) (c : Nat) (v : U64) : Kept (cqEnable d o c v) d := by
  unfold cqEnable
  simp

@[simp] theorem cqDisable_fuse (d : Dev) (c : Nat) (v : U64) : Kept (cqDisable d c v) d := by
  unfold cqDisable
  simp

@[simp] theorem startReads_fuse (d : Dev) (b : Job) : Kept (startReads d b) d := by
  unfold startReads
  simp

@[simp] theorem admitJob_fuse (d : Dev) (b : Job) (mask : BitVec 2) : Kept (admitJob d b mask) d := by
  unfold admitJob
  dsimp only
  repeat' split
  all_goals simp

@[simp] theorem startJob_fuse (d : Dev) (o : Nat) (q : Nat) (c : Nat) (idx : U32) (e : Sqe) (jrn : Option Nat) :
    Kept (startJob d o q c idx e jrn) d := by
  unfold startJob
  simp

@[simp] theorem forwardJob_fuse (d : Dev) (o : Nat) (q : Nat) (c : Nat) (idx : U32) (e : Sqe) (bytes : Bytes) (granted : Bool) :
    Kept (forwardJob d o q c idx e bytes granted) d := by
  unfold forwardJob
  simp

@[simp] theorem takeEntry_fuse (d : Dev) (q : Nat) (bytes : Bytes) : Kept (takeEntry d q bytes) d := by
  unfold takeEntry; dsimp only
  repeat' split
  all_goals first | (simp; done) | skip
  all_goals
    next h =>
      split at h
      · obtain ⟨r, hr, he⟩ := Option.map_eq_some_iff.1 h
        have := jrnReserve_fuse hr
        cases he
        simp [this]
      · cases h; simp

@[simp] theorem entryFetchGo_fuse (o : Nat) (d : Dev) : Kept (entryFetchGo o d) d := by
  unfold entryFetchGo
  dsimp only
  repeat' split
  all_goals simp

@[simp] theorem readFailed_fuse (d : Dev) (owner : Nat) (kind : Nat) (engine : U16) (addr : U64) : Kept (readFailed d owner kind engine addr) d := by
  unfold readFailed
  simp

@[simp] theorem issueReads_fuse (d : Dev) : Kept (issueReads d) d := by
  unfold issueReads
  refine Kept.foldl fun a x => ?_
  (repeat' split) <;> simp

@[simp] theorem readDone_fuse (d : Dev) (p : ReadFor → Bool) (n : Nat) : Kept (readDone d p n) d := by
  unfold readDone; simp

@[simp] theorem readOver_fuse (d : Dev) (p : ReadFor → Bool) : Kept (readOver d p) d := by
  unfold readOver; simp

@[simp] theorem entryReadDoneGo_fuse (q : Nat) (r : DmaRes) (d : Dev) : Kept (entryReadDoneGo q r d) d := by
  unfold entryReadDoneGo; dsimp only
  (repeat' split) <;> simp

@[simp] theorem putPark_fuse (d : Dev) (k : Nat) (p : Parked) : Kept (putPark d k p) d := by
  unfold putPark; simp

@[simp] theorem holdCtx_fuse (d : Dev) (c : Nat) (p : Parked) : Kept (holdCtx d c p) d := by
  unfold holdCtx; simp

@[simp] theorem moveHeld_fuse (d : Dev) (c : Nat) : Kept (moveHeld d c) d := by
  unfold moveHeld
  (repeat' split) <;> simp

@[simp] theorem saveOn_fuse (d : Dev) (pre : Bool) (b : Job) (c : Nat) : Kept (saveOn d pre b c) d := by
  unfold saveOn; simp

@[simp] theorem restoreOn_fuse (d : Dev) (b : Job) (c : Nat) : Kept (restoreOn d b c) d := by
  unfold restoreOn
  simp

@[simp] theorem saveJob_fuse (d : Dev) (pre : Bool) (b : Job) : Kept (saveJob d pre b) d := by
  unfold saveJob
  dsimp only
  (repeat' split) <;> first | (simp; done) | exact Kept.foldl fun a x => by simp

@[simp] theorem restoreJob_fuse (d : Dev) (b : Job) : Kept (restoreJob d b) d := by
  unfold restoreJob
  ((try dsimp only) <;> (repeat' split) <;> (first | (simp [foldl_fuse]; done) | exact ⟨rfl, rfl⟩ | (refine foldl_fuse _ _ _ fun a x => ?_; ((try dsimp only) <;> (repeat' split) <;> (first | (simp [foldl_fuse]; done) | exact ⟨rfl, rfl⟩))) | skip))

@[simp] theorem giveParts_fuse (d : Dev) (b : Job) (c : Nat) : Kept (giveParts d b c) d := by
  unfold giveParts
  refine foldl_fuse _ _ _ fun a x => ?_
  repeat' split
  all_goals simp

@[simp] theorem scrubCore_fuse (d : Dev) (b : Job) (c : Nat) : Kept (scrubCore d b c) d := by
  unfold scrubCore
  refine Kept.trans (modEng_fuse _ _ _) (Kept.trans (modCore_fuse _ _ _) (Kept.trans (noise_fuse _ _) (Kept.foldl fun a x => ?_)))
  exact Kept.trans (modCore_fuse _ _ _) (noise_fuse _ _)

@[simp] theorem scrubCell_fuse (d : Dev) (b : Job) (c : Nat) : Kept (scrubCell d b c) d := by
  unfold scrubCell; simp

@[simp] theorem scrubJob_fuse (d : Dev) (b : Job) : Kept (scrubJob d b) d := by
  unfold scrubJob
  dsimp only
  split
  · exact Kept.trans (Kept.foldl fun a x => scrubCell_fuse _ _ _) (Kept.foldl fun a x => scrubCore_fuse _ _ _)
  · exact Kept.foldl fun a x => scrubCore_fuse _ _ _

@[simp] theorem readSegs_fuse (b : Job) : ∀ (ss : List Seg) (n : Nat) (d : Dev),
    (readSegs d b ss n).otp = d.otp ∧ (readSegs d b ss n).boot.cfgMin = d.boot.cfgMin := by
  intro ss
  induction ss with
  | nil => intro n d; rw [readSegs]; exact ⟨rfl, rfl⟩
  | cons s ss ih => intro n d; rw [readSegs]; simp [ih]

@[simp] theorem noteFault_fuse (d : Dev) (c : Nat) (st : U16) (det : U16) : Kept (noteFault d c st det) d := by
  unfold noteFault
  simp

@[simp] theorem pageWaited_fuse (d : Dev) (io : JobIo) (c : Nat) : Kept (pageWaited d io c) d := by
  unfold pageWaited
  (repeat' split) <;> simp

@[simp] theorem endWaits_fuse (d : Dev) (b : Job) : Kept (endWaits d b) d := by
  unfold endWaits
  refine Kept.foldl fun a x => ?_
  (repeat' split) <;> simp

@[simp] theorem failNow_fuse (d : Dev) (b : Job) (st : U16) (det : U16) : Kept (failNow d b st det) d := by
  unfold failNow; simp

@[simp] theorem failOn_fuse (d : Dev) (b : Job) (c : Nat) (st : U16) (det : U16) : Kept (failOn d b c st det) d := by
  unfold failOn
  simp

@[simp] theorem failJob_fuse (d : Dev) (b : Job) (st : U16) (det : U16) : Kept (failJob d b st det) d := by
  unfold failJob
  simp

@[simp] theorem abortJob_fuse (d : Dev) (b : Job) (st : U16) : Kept (abortJob d b st) d := by
  unfold abortJob
  simp

@[simp] theorem sqDisable_fuse (d : Dev) (q : Nat) (v : U64) : Kept (sqDisable d q v) d := by
  unfold sqDisable
  ((try dsimp only) <;> (repeat' split) <;> (first | (simp [foldl_fuse]; done) | exact ⟨rfl, rfl⟩ | (refine foldl_fuse _ _ _ fun a x => ?_; ((try dsimp only) <;> (repeat' split) <;> (first | (simp [foldl_fuse]; done) | exact ⟨rfl, rfl⟩))) | skip))

@[simp] theorem wrapFailed_fuse (d : Dev) (b : Job) (addr : U64) : Kept (wrapFailed d b addr) d := by
  unfold wrapFailed
  simp

@[simp] theorem jobReadFailed_fuse (d : Dev) (b : Job) (side : DmaSide) (kind : Nat) : Kept (jobReadFailed d b side kind) d := by
  unfold jobReadFailed
  simp

@[simp] theorem jobData_fuse (d : Dev) (b : Job) (side : DmaSide) (bs : Bytes) : Kept (jobData d b side bs) d := by
  unfold jobData; dsimp only
  (repeat' split) <;> simp

@[simp] theorem remoteData_fuse (d : Dev) (b : Job) (side : DmaSide) (r : DmaRes) : Kept (remoteData d b side r) d := by
  unfold remoteData
  (repeat' split) <;> simp

@[simp] theorem dmaReadCompletionGo_fuse (j : Nat) (side : DmaSide) (r : DmaRes) (d : Dev) : Kept (dmaReadCompletionGo j side r d) d := by
  unfold dmaReadCompletionGo
  repeat' split
  all_goals simp

@[simp] theorem listVerdict_fuse (d : Dev) (b : Job) : Kept (listVerdict d b) d := by
  unfold listVerdict
  (repeat' split) <;> simp

@[simp] theorem outputListCheckedGo_fuse (j : Nat) (d : Dev) : Kept (outputListCheckedGo j d) d := by
  unfold outputListCheckedGo
  repeat' split
  all_goals simp

@[simp] theorem dmaReadTimeoutGo_fuse (t : DmaTarget) (d : Dev) : Kept (dmaReadTimeoutGo t d) d := by
  unfold dmaReadTimeoutGo
  dsimp only
  repeat' split
  all_goals simp

theorem resolveField_fuse {d : Dev} {o : Nat} {u : KeyUse} {h : U32} {r : Dev} (e : resolveField d o u h = some r) :
    r.otp = d.otp ∧ r.boot.cfgMin = d.boot.cfgMin := by
  have k : ∀ r, (resolveKey d o h).map (·.2) = some r → r.otp = d.otp ∧ r.boot.cfgMin = d.boot.cfgMin := by
    intro r e
    obtain ⟨x, hx, hy⟩ := Option.map_eq_some_iff.1 e
    cases hy
    exact resolveKey_fuse hx
  unfold resolveField at e
  repeat' split at e
  all_goals first | exact k _ e | (simp at e; done) | (cases e; simp)

@[simp] theorem startIo_fuse (d : Dev) (b : Job) (c : Nat) (seed : Bytes) : Kept (startIo d b c seed) d := by
  unfold startIo
  dsimp only
  repeat' split
  all_goals simp

@[simp] theorem maskSeed_fuse (d : Dev) (b : Job) (c : Nat) : Kept (maskSeed d b c).2 d := by
  unfold maskSeed
  (repeat' split) <;> simp

@[simp] theorem startOn_fuse (d : Dev) (b : Job) (seed : Bytes) : Kept (startOn d b seed) d := by
  unfold startOn
  ((try dsimp only) <;> (repeat' split) <;> (first | (simp [foldl_fuse]; done) | exact ⟨rfl, rfl⟩ | (refine foldl_fuse _ _ _ fun a x => ?_; ((try dsimp only) <;> (repeat' split) <;> (first | (simp [foldl_fuse]; done) | exact ⟨rfl, rfl⟩))) | skip))

@[simp] theorem stopJob_fuse (d : Dev) (pre : Bool) (b : Job) : Kept (stopJob d pre b) d := by
  unfold stopJob
  (repeat' split) <;> simp

@[simp] theorem preempt_fuse (d : Dev) (b : Job) (k : EngKind) : Kept (preempt d b k) d := by
  unfold preempt
  (repeat' split) <;> simp

@[simp] theorem dealYield_fuse (d : Dev) (b : Job) : Kept (dealYield d b) d := by
  unfold dealYield
  (repeat' split) <;> simp

@[simp] theorem placeNew_fuse (d : Dev) (b : Job) : Kept (placeNew d b) d := by
  have bad : ∀ (x : Dev) (st det : U16), Kept x d → Kept (finish x b st det) d := fun _ _ _ h => Kept.trans (finish_fuse _ _ _ _) h
  have r : Kept d d := ⟨rfl, rfl⟩
  unfold placeNew
  split
  · exact r
  next sp _ =>
  split
  · exact bad _ _ _ r
  split
  · exact r
  split
  · exact bad _ _ _ r
  split
  · exact r
  split
  · exact r
  dsimp only
  have kp := preempt_fuse d b sp.kind
  generalize preempt d b sp.kind = d0 at kp ⊢
  split
  · exact kp
  next c _ =>
  split
  · exact kp
  split
  · exact bad _ _ _ kp
  split
  · exact bad _ _ _ kp
  next d1 h1 =>
  have k1 := Kept.trans (resolveField_fuse h1) kp
  split
  · exact bad _ _ _ k1
  next d2 h2 =>
  have k2 := Kept.trans (maskSeed_fuse _ b c) (Kept.trans (resolveField_fuse h2) k1)
  generalize maskSeed d2 b c = seed at k2 ⊢
  refine Kept.trans (startReads_fuse _ _) ?_
  have k4 : ∀ (b1 : Job) (n : Nat), Kept (startOn { modJob seed.2 b.id (fun _ => b1) with jobs.nextPlace := n } b1 seed.1) d := fun b1 n =>
    Kept.trans (startOn_fuse _ _ _) (Kept.trans (modJob_fuse seed.2 b.id fun _ => b1) k2)
  split
  · exact Kept.trans (recHist_fuse _ _ _) (k4 _ _)
  · exact k4 _ _

@[simp] theorem resumeJob_fuse (d : Dev) (b : Job) : Kept (resumeJob d b) d := by
  unfold resumeJob
  simp

@[simp] theorem placeStep_fuse (d : Dev) (b : Job) : Kept (placeStep d b) d := by
  unfold placeStep
  repeat' split
  all_goals simp

@[simp] theorem jobPlaceGo_fuse (j : Nat) (d : Dev) : Kept (jobPlaceGo j d) d := by
  unfold jobPlaceGo
  (repeat' split) <;> simp

end Sys2Proof.Machine
end

