-- ==== Sys2Proof/Laws/FuseServices.lean ====
section
/-!
SUPPORT. What the services leave of OTP and of the smallest release that may run: all of it.
-/
set_option linter.unusedSimpArgs false
set_option linter.unusedVariables false
namespace Sys2Proof.Machine

theorem service_fuse (j : Nat) (ops : Sqe → Bool) (run : Dev → Job → Dev) (d : Dev)
    (h : ∀ a x, (run a x).otp = a.otp ∧ (run a x).boot.cfgMin = a.boot.cfgMin) :
    (service j ops run d).otp = d.otp ∧ (service j ops run d).boot.cfgMin = d.boot.cfgMin := by
  unfold service
  dsimp only
  repeat' split
  all_goals first | (simp [h]; done) | (simp [h, foldl_fuse]; done)

@[simp] theorem refuse_fuse (d : Dev) (b : Job) (st : U16) (det : U16) (cyc : Nat) : Kept (refuse d b st det cyc) d := by
  unfold refuse
  simp

@[simp] theorem verdict_fuse (d : Dev) (b : Job) (ok : Bool) (st : U16) (attempts : Nat) (cyc : Nat) : Kept (verdict d b ok st attempts cyc) d := by
  unfold verdict
  simp

@[simp] theorem needZsalt_fuse (d : Dev) : Kept (needZsalt d) d := by
  unfold needZsalt
  repeat' split
  all_goals simp

@[simp] theorem needSalts_fuse (d : Dev) (o : Nat) : Kept (needSalts d o) d := by
  unfold needSalts
  simp

@[simp] theorem makeKey_fuse (d : Dev) (b : Job) (k : NewKey) (out : Bytes) (attempts : Nat) (cyc : Nat) :
    Kept (makeKey d b k out attempts cyc) d := by
  unfold makeKey
  repeat' split
  all_goals simp

@[simp] theorem mramCommitDoneGo_fuse (j : Nat) (d : Dev) : Kept (mramCommitDoneGo j d) d := by
  unfold mramCommitDoneGo
  dsimp only
  repeat' split
  all_goals simp

theorem serviceNone_fuse (j : Nat) (ops : Sqe → Bool) (run : Dev → Job → Dev) (d : Dev)
    (h : ∀ a x, (run a x).otp = a.otp ∧ (run a x).boot.cfgMin = a.boot.cfgMin) :
    (serviceNone j ops run d).otp = d.otp ∧ (serviceNone j ops run d).boot.cfgMin = d.boot.cfgMin := by
  unfold serviceNone
  repeat' split
  all_goals first | (simp [h]; done) | (simp [h, foldl_fuse]; done)

@[simp] theorem jIntent_fuse (d : Dev) (b : Job) : Kept (jIntent d b) d := by
  unfold jIntent
  repeat' split
  all_goals simp

@[simp] theorem jCommitted_fuse (d : Dev) (b : Job) (eff : Byte) : Kept (jCommitted d b eff) d := by
  unfold jCommitted
  repeat' split
  all_goals simp

@[simp] theorem hashDigestRun_fuse (d : Dev) (b : Job) : Kept (hashDigestRun d b) d := by
  unfold hashDigestRun
  simp

@[simp] theorem hashMacRun_fuse (d : Dev) (b : Job) : Kept (hashMacRun d b) d := by
  unfold hashMacRun
  simp

@[simp] theorem macVerifyRun_fuse (d : Dev) (b : Job) : Kept (macVerifyRun d b) d := by
  unfold macVerifyRun
  simp

@[simp] theorem ctxSeal_fuse (d0 : Dev) (o : Nat) (opcode : U16) (key : U32) (c : HCtx) : Kept (ctxSeal d0 o opcode key c).2 d0 := by
  unfold ctxSeal
  simp

@[simp] theorem hashInitRun_fuse (d : Dev) (b : Job) : Kept (hashInitRun d b) d := by
  unfold hashInitRun
  simp

@[simp] theorem hashUpdateRun_fuse (d : Dev) (b : Job) : Kept (hashUpdateRun d b) d := by
  unfold hashUpdateRun
  dsimp only
  repeat' split
  all_goals simp

@[simp] theorem hashFinalRun_fuse (d : Dev) (b : Job) : Kept (hashFinalRun d b) d := by
  unfold hashFinalRun
  dsimp only
  repeat' split
  all_goals simp

@[simp] theorem finalVerifyRun_fuse (d : Dev) (b : Job) : Kept (finalVerifyRun d b) d := by
  unfold finalVerifyRun
  dsimp only
  repeat' split
  all_goals simp

@[simp] theorem drawBits_fuse (d : Dev) (n : Nat) : Kept (drawBits d n).2 d := by
  unfold drawBits; simp

@[simp] theorem drawBelow_fuse (d : Dev) (n : Nat) : Kept (drawBelow d n).2 d := by
  unfold drawBelow; simp

@[simp] theorem drawScalar_fuse (d : Dev) (n : Nat) : Kept (drawScalar d n).2 d := by
  unfold drawScalar; simp

@[simp] theorem ecSecret_fuse (d : Dev) (c : Curve) (k : Nat) (q : Pt) : Kept (ecSecret d c k q).2 d := by
  unfold ecSecret; simp

@[simp] theorem xSecret_fuse (d : Dev) (big : Bool) (k : Bytes) (u : Bytes) : Kept (xSecret d big k u).2 d := by
  unfold xSecret; simp

@[simp] theorem edBlind_fuse (d : Dev) (big : Bool) : Kept (edBlind d big).2 d := by
  unfold edBlind; simp

@[simp] theorem ecdsaBlind_fuse (d : Dev) (c : Curve) : Kept (ecdsaBlind d c).2 d := by
  unfold ecdsaBlind; simp

@[simp] theorem ffSecret_fuse (d : Dev) (set : Nat) (x : Nat) (y : Nat) : Kept (ffSecret d set x y).2 d := by
  unfold ffSecret; simp

@[simp] theorem hybKey_fuse (d : Dev) (set : Nat) : Kept (hybKey d set).2.2.2 d := by
  unfold hybKey
  (repeat' split) <;> simp

@[simp] theorem hybDh_fuse (d : Dev) (set : Nat) (scalar : Bytes) (point : Bytes) : Kept (hybDh d set scalar point).2 d := by
  unfold hybDh
  (repeat' split) <;> simp

@[simp] theorem hybEcHalf_fuse (d : Dev) (b : Job) : Kept (hybEcHalf d b) d := by
  unfold hybEcHalf
  dsimp only
  repeat' split
  all_goals simp

@[simp] theorem hybCoreHalf_fuse (d : Dev) (b : Job) : Kept (hybCoreHalf d b) d := by
  unfold hybCoreHalf
  (repeat' split) <;> simp

@[simp] theorem hybridHalfDoneGo_fuse (j : Nat) (ec : Bool) (d : Dev) : Kept (hybridHalfDoneGo j ec d) d := by
  unfold hybridHalfDoneGo
  repeat' split
  all_goals simp

@[simp] theorem keepSecret_fuse (d : Dev) (b : Job) (ss : Bytes) (out : Bytes) (cyc : Nat) : Kept (keepSecret d b ss out cyc) d := by
  unfold keepSecret
  simp

@[simp] theorem hybFinish_fuse (d : Dev) (b : Job) (core : Bytes) (ec : Bytes) : Kept (hybFinish d b core ec) d := by
  unfold hybFinish
  simp

@[simp] theorem hybRun_fuse (d : Dev) (b : Job) : Kept (hybRun d b) d := by
  unfold hybRun
  repeat' split
  all_goals simp

@[simp] theorem hybService_fuse (j : Nat) (d : Dev) : Kept (hybService j d) d := by
  unfold hybService
  repeat' split
  all_goals simp

theorem kemService_fuse (j op : Nat) (run : Dev → Job → Nat → Dev) (d : Dev)
    (h : ∀ a x n, (run a x n).otp = a.otp ∧ (run a x n).boot.cfgMin = a.boot.cfgMin) :
    (kemService j op run d).otp = d.otp ∧ (kemService j op run d).boot.cfgMin = d.boot.cfgMin := by
  unfold kemService
  refine Kept.trans (service_fuse _ _ _ _ fun a x => ?_) ?_
  · split
    · simp
    · exact h _ _ _
  · split
    · split <;> simp
    · exact ⟨rfl, rfl⟩

@[simp] theorem kemKeygenRun_fuse (d : Dev) (b : Job) (set : Nat) : Kept (kemKeygenRun d b set) d := by
  unfold kemKeygenRun
  repeat' split
  all_goals simp

@[simp] theorem kemEncapsRun_fuse (keep : Bool) (d : Dev) (b : Job) (set : Nat) : Kept (kemEncapsRun keep d b set) d := by
  unfold kemEncapsRun
  simp

@[simp] theorem kemDecapsRun_fuse (keep : Bool) (d : Dev) (b : Job) (set : Nat) : Kept (kemDecapsRun keep d b set) d := by
  unfold kemDecapsRun
  simp

@[simp] theorem ekCheckRun_fuse (d : Dev) (b : Job) : Kept (ekCheckRun d b) d := by
  unfold ekCheckRun
  simp

@[simp] theorem kemPubExportRun_fuse (d : Dev) (b : Job) : Kept (kemPubExportRun d b) d := by
  unfold kemPubExportRun
  simp

@[simp] theorem dsaKeygenRun_fuse (d : Dev) (b : Job) : Kept (dsaKeygenRun d b) d := by
  unfold dsaKeygenRun
  dsimp only
  repeat' split
  all_goals simp

@[simp] theorem dsaSignWith_fuse (d : Dev) (b : Job) (form : Nat) (msg : Bytes) (absorbed : Nat) : Kept (dsaSignWith d b form msg absorbed) d := by
  unfold dsaSignWith
  dsimp only
  repeat' split
  all_goals simp

@[simp] theorem dsaSignRun_fuse (d : Dev) (b : Job) : Kept (dsaSignRun d b) d := by
  unfold dsaSignRun
  simp

@[simp] theorem signPhRun_fuse (d : Dev) (b : Job) : Kept (signPhRun d b) d := by
  unfold signPhRun
  simp

@[simp] theorem signMuRun_fuse (d : Dev) (b : Job) : Kept (signMuRun d b) d := by
  unfold signMuRun
  simp

@[simp] theorem dsaVerifyWith_fuse (d : Dev) (b : Job) (form : Nat) (msg : Bytes) (absorbed : Nat) :
    Kept (dsaVerifyWith d b form msg absorbed) d := by
  unfold dsaVerifyWith
  dsimp only
  repeat' split
  all_goals simp

@[simp] theorem dsaVerifyRun_fuse (d : Dev) (b : Job) : Kept (dsaVerifyRun d b) d := by
  unfold dsaVerifyRun
  simp

@[simp] theorem verifyPhRun_fuse (d : Dev) (b : Job) : Kept (verifyPhRun d b) d := by
  unfold verifyPhRun
  simp

@[simp] theorem verifyMuRun_fuse (d : Dev) (b : Job) : Kept (verifyMuRun d b) d := by
  unfold verifyMuRun
  simp

@[simp] theorem dsaPubExportRun_fuse (d : Dev) (b : Job) : Kept (dsaPubExportRun d b) d := by
  unfold dsaPubExportRun
  simp

@[simp] theorem meRefused_fuse (d : Dev) (b : Job) : Kept (meRefused d b) d := by
  unfold meRefused
  (repeat' split) <;> simp

@[simp] theorem meRefuse_fuse (d : Dev) (b : Job) (st : U16) (det : U16) (cyc : Nat) : Kept (meRefuse d b st det cyc) d := by
  unfold meRefuse
  repeat' split
  all_goals simp

@[simp] theorem refuseUnplaced_fuse (d : Dev) (b : Job) (st : U16) (det : U16) : Kept (refuseUnplaced d b st det) d := by
  unfold refuseUnplaced; simp

@[simp] theorem resultCheck_fuse (d : Dev) (b : Job) (cyc : Nat) : Kept (resultCheck d b cyc) d := by
  unfold resultCheck
  repeat' split
  all_goals simp

@[simp] theorem rsaBlind_fuse (d : Dev) (pk : Bytes) : Kept (rsaBlind d pk).2 d := by
  unfold rsaBlind; simp

@[simp] theorem mrTest_fuse (n : Nat) : ∀ (f : Nat) (d : Dev), Kept (mrTest n f d).2 d
  | 0, d => ⟨rfl, rfl⟩
  | f + 1, d => Kept.trans (mrTest_fuse n f _) (drawBits_fuse _ _)

@[simp] theorem isPrime_fuse (n : Nat) (rounds : Nat) (d : Dev) : Kept (isPrime n rounds d).2 d := by
  unfold isPrime; simp

@[simp] theorem rsaSearch_fuse (bits e other cap : Nat) : ∀ (f s : Nat) (d : Dev), Kept (rsaSearch bits e other cap f s d).2.2 d := by
  intro f
  induction f with
  | zero => intro s d; exact ⟨rfl, rfl⟩
  | succ f ih =>
    intro s d
    have two : ∀ (c : Prop) [Decidable c] (x y : Option Nat × Nat × Dev), Kept x.2.2 d → Kept y.2.2 d → Kept (if c then x else y).2.2 d := by
      intro c _ x y hx hy
      split
      · exact hx
      · exact hy
    unfold rsaSearch
    refine two _ _ _ ⟨rfl, rfl⟩ (two _ _ _ (Kept.trans (ih _ _) (drawBits_fuse _ _)) (two _ _ _ ?_ (Kept.trans (ih _ _) ?_))) <;>
      exact Kept.trans (isPrime_fuse _ _ _) (drawBits_fuse _ _)

@[simp] theorem pkNew_fuse (d : Dev) (c : Curve) (set : Nat) : Kept (pkNew d c set).2.2.2 d := by
  unfold pkNew
  (repeat' split) <;> simp

@[simp] theorem rsaKeygen_fuse (d : Dev) (b : Job) : Kept (rsaKeygen d b) d := by
  unfold rsaKeygen; dsimp only
  (repeat' split) <;> simp

@[simp] theorem pkKeygenRun_fuse (d : Dev) (b : Job) : Kept (pkKeygenRun d b) d := by
  unfold pkKeygenRun; simp

@[simp] theorem ecdsaLoop_fuse (c : Curve) (priv e id : Nat) : ∀ (f i : Nat) (det : Option (Bytes × Bytes)) (d : Dev),
    Kept (ecdsaLoop c priv e id f i det d).2 d := by
  intro f
  induction f with
  | zero => intro i det d; exact ⟨rfl, rfl⟩
  | succ f ih =>
    intro i det d
    have one : ∀ x : Dev, Kept x d → ∀ k, Kept (ecdsaBlind (ecSecret x c k (ecG c)).2 c).2 d := fun x h k =>
      Kept.trans (ecdsaBlind_fuse _ _) (Kept.trans (ecSecret_fuse _ _ _ _) h)
    unfold ecdsaLoop
    cases det with
    | none =>
      dsimp only
      split
      · exact one _ (drawBelow_fuse _ _) _
      · exact Kept.trans (ih _ _ _) (one _ (drawBelow_fuse _ _) _)
    | some w =>
      dsimp only
      split
      · exact one _ ⟨rfl, rfl⟩ _
      · exact Kept.trans (ih _ _ _) (one _ ⟨rfl, rfl⟩ _)

@[simp] theorem ecdsaSign_fuse (d : Dev) (b : Job) : Kept (ecdsaSign d b) d := by
  unfold ecdsaSign
  dsimp only
  have h := fun (c : Curve) (p e i : Nat) (w : Option (Bytes × Bytes)) => ecdsaLoop_fuse c p e i 255 1 w d
  split
  · exact Kept.trans (finish_fuse _ _ _ _) (h _ _ _ _ _)
  · split
    · exact Kept.trans (resultCheck_fuse _ _ _) (h _ _ _ _ _)
    · exact Kept.trans (finishOut_fuse _ _ _ _ _ _ _) (h _ _ _ _ _)

@[simp] theorem rsaSignEm_fuse (d : Dev) (b : Job) (em : Option Bytes) : Kept (rsaSignEm d b em) d := by
  unfold rsaSignEm
  repeat' split
  all_goals simp

@[simp] theorem pkSignRun_fuse (d : Dev) (b : Job) : Kept (pkSignRun d b) d := by
  unfold pkSignRun
  simp

@[simp] theorem signV15Run_fuse (d : Dev) (b : Job) : Kept (signV15Run d b) d := by
  unfold signV15Run
  simp

@[simp] theorem rsaVerify_fuse (d : Dev) (b : Job) (ok : Bytes → Nat → Bool) : Kept (rsaVerify d b ok) d := by
  unfold rsaVerify; dsimp only
  (repeat' split) <;> simp

@[simp] theorem pkVerifyRun_fuse (d : Dev) (b : Job) : Kept (pkVerifyRun d b) d := by
  unfold pkVerifyRun; dsimp only
  (repeat' split) <;> simp

@[simp] theorem verifyV15Run_fuse (d : Dev) (b : Job) : Kept (verifyV15Run d b) d := by
  unfold verifyV15Run; simp

@[simp] theorem pkPubExportRun_fuse (d : Dev) (b : Job) : Kept (pkPubExportRun d b) d := by
  unfold pkPubExportRun
  simp

@[simp] theorem dhSecret_fuse (d : Dev) (c : Curve) (set : Nat) (sec : Bytes) (peer : Bytes) (checked : Bool) :
    Kept (dhSecret d c set sec peer checked).2 d := by
  unfold dhSecret; dsimp only
  (repeat' split) <;> simp

@[simp] theorem dhRun_fuse (keep : Bool) (d : Dev) (b : Job) : Kept (dhRun keep d b) d := by
  unfold dhRun
  dsimp only
  repeat' split
  all_goals simp

@[simp] theorem pkLoadRun_fuse (d : Dev) (b : Job) : Kept (pkLoadRun d b) d := by
  unfold pkLoadRun
  dsimp only
  repeat' split
  all_goals simp

@[simp] theorem curveLoadRun_fuse (d : Dev) (b : Job) : Kept (curveLoadRun d b) d := by
  unfold curveLoadRun
  simp

@[simp] theorem encryptRun_fuse (d : Dev) (b : Job) : Kept (encryptRun d b) d := by
  unfold encryptRun
  dsimp only
  repeat' split
  all_goals simp

@[simp] theorem decryptRun_fuse (d : Dev) (b : Job) : Kept (decryptRun d b) d := by
  unfold decryptRun
  dsimp only
  repeat' split
  all_goals simp

@[simp] theorem privRawRun_fuse (d : Dev) (b : Job) : Kept (privRawRun d b) d := by
  unfold privRawRun
  simp

@[simp] theorem pubRawRun_fuse (d : Dev) (b : Job) : Kept (pubRawRun d b) d := by
  unfold pubRawRun
  dsimp only
  repeat' split
  all_goals simp

@[simp] theorem slhKeygen_fuse (d : Dev) (b : Job) : Kept (slhKeygen d b) d := by
  unfold slhKeygen
  repeat' split
  all_goals simp

@[simp] theorem slhSign_fuse (d : Dev) (b : Job) (m : Bytes) : Kept (slhSign d b m) d := by
  unfold slhSign
  repeat' split
  all_goals simp

@[simp] theorem slhVerify_fuse (d : Dev) (b : Job) (m : Bytes) : Kept (slhVerify d b m) d := by
  unfold slhVerify
  simp

@[simp] theorem hbsSignPhRun_fuse (d : Dev) (b : Job) : Kept (hbsSignPhRun d b) d := by
  unfold hbsSignPhRun
  simp

@[simp] theorem hbsVerifyPhRun_fuse (d : Dev) (b : Job) : Kept (hbsVerifyPhRun d b) d := by
  unfold hbsVerifyPhRun
  simp

@[simp] theorem hbsPubExportRun_fuse (d : Dev) (b : Job) : Kept (hbsPubExportRun d b) d := by
  unfold hbsPubExportRun
  simp

@[simp] theorem setSs_fuse (d : Dev) (o : Nat) (slot : Nat) (k : SsKey) : Kept (setSs d o slot k) d := by
  unfold setSs
  exact ⟨rfl, rfl⟩

@[simp] theorem wordWrite_fuse (d : Dev) (k : SsKey) : Kept (wordWrite d k).2 d := by
  unfold wordWrite
  exact ⟨rfl, rfl⟩

@[simp] theorem ssReserve_fuse (d : Dev) (k : SsKey) (h : U32) : Kept (ssReserve d k h).2 d := by
  unfold ssReserve
  repeat' split
  all_goals simp

theorem ssTake_fuse {d : Dev} {o : Nat} {h : U32} {r : Nat × Dev} (e : ssTake d o h = some r) :
    r.2.otp = d.otp ∧ r.2.boot.cfgMin = d.boot.cfgMin := by
  unfold ssTake at e
  dsimp only at e
  split at e
  · cases e
  · cases e
    split <;> simp

@[simp] theorem ssKeygen_fuse (d : Dev) (b : Job) : Kept (ssKeygen d b) d := by
  unfold ssKeygen
  repeat' split
  all_goals simp

@[simp] theorem hbsKeygenRun_fuse (d : Dev) (b : Job) : Kept (hbsKeygenRun d b) d := by
  unfold hbsKeygenRun
  simp

theorem ssSignWith_fuse (d : Dev) (b : Job) (k : SsKey) (drawn : Bytes) (idx : Nat) : Kept (ssSign.ssSignWith d b k drawn idx) d := by
  unfold ssSign.ssSignWith
  dsimp only
  split
  · exact refuse_fuse _ _ _ _ _
  · split
    · exact refuse_fuse _ _ _ _ _
    · exact finishOut_fuse _ _ _ _ _ _ _

@[simp] theorem ssSign_fuse (d : Dev) (b : Job) : Kept (ssSign d b) d := by
  unfold ssSign
  dsimp only
  have h : ∀ (c : Prop) [Decidable c] (n : Nat), Kept (if c then draw d n else ([], d)).2 d := by
    intro c _ n; split <;> simp
  split
  · split
    · exact finishOut_fuse _ _ _ _ _ _ _
    · split
      · simp
      · next t ht => exact Kept.trans (ssSignWith_fuse _ _ _ _ _) (Kept.trans (ssTake_fuse ht) (h _ _))
  · next t ht =>
      obtain ⟨i, hi, rfl⟩ := Option.map_eq_some_iff.1 ht
      exact Kept.trans (ssSignWith_fuse _ _ _ _ _) (h _ _)

@[simp] theorem ssSign.ssSignWith_fuse (d : Dev) (b : Job) (k : SsKey) (drawn : Bytes) (idx : Nat) : Kept (ssSign.ssSignWith d b k drawn idx) d := by
  unfold ssSign.ssSignWith; dsimp only
  (repeat' split) <;> simp

@[simp] theorem hbsSignRun_fuse (d : Dev) (b : Job) : Kept (hbsSignRun d b) d := by
  unfold hbsSignRun
  simp

@[simp] theorem ssVerify_fuse (d : Dev) (b : Job) : Kept (ssVerify d b) d := by
  unfold ssVerify
  dsimp only
  repeat' split
  all_goals simp

@[simp] theorem hbsVerifyRun_fuse (d : Dev) (b : Job) : Kept (hbsVerifyRun d b) d := by
  unfold hbsVerifyRun
  simp

@[simp] theorem advanceRun_fuse (d : Dev) (b : Job) : Kept (advanceRun d b) d := by
  unfold advanceRun
  simp

@[simp] theorem rebuildRun_fuse (d : Dev) (b : Job) : Kept (rebuildRun d b) d := by
  unfold rebuildRun
  simp

@[simp] theorem ssQueryRun_fuse (d : Dev) (b : Job) : Kept (ssQueryRun d b) d := by
  unfold ssQueryRun
  simp

@[simp] theorem parkKey_fuse (d : Dev) (o : Nat) (slot : Nat) : Kept (parkKey d o slot) d := by
  unfold parkKey
  dsimp only
  repeat' split
  all_goals simp

@[simp] theorem parkRun_fuse (d : Dev) (b : Job) : Kept (parkRun d b) d := by
  unfold parkRun
  ((try dsimp only) <;> (repeat' split) <;> (first | (simp [foldl_fuse]; done) | exact ⟨rfl, rfl⟩ | (refine foldl_fuse _ _ _ fun a x => ?_; ((try dsimp only) <;> (repeat' split) <;> (first | (simp [foldl_fuse]; done) | exact ⟨rfl, rfl⟩))) | skip))

@[simp] theorem limitRun_fuse (d : Dev) (b : Job) : Kept (limitRun d b) d := by
  unfold limitRun
  simp

@[simp] theorem destroyStateful_fuse (d : Dev) (o : Nat) (slot : Nat) : Kept (destroyStateful d o slot) d := by
  unfold destroyStateful
  dsimp only
  repeat' split
  all_goals simp

@[simp] theorem deleteRun_fuse (d : Dev) (b : Job) : Kept (deleteRun d b) d := by
  unfold deleteRun
  simp

@[simp] theorem softStart_fuse (d : Dev) (z : SoftZ) : Kept (softStart d z) d := by
  unfold softStart
  refine foldl_fuse _ _ _ fun a x => ?_
  repeat' split
  all_goals simp

@[simp] theorem zeroStateful_fuse (d : Dev) (o : Nat) (slot : Nat) : Kept (zeroStateful d o slot) d := by
  unfold zeroStateful
  dsimp only
  repeat' split
  all_goals simp

@[simp] theorem softSalts_fuse (d : Dev) (z : SoftZ) : Kept (softSalts d z) d := by
  unfold softSalts
  refine foldl_fuse _ _ _ fun a x => ?_
  repeat' split
  all_goals simp

@[simp] theorem softFinish_fuse (d : Dev) : Kept (softFinish d) d := by
  unfold softFinish
  ((try dsimp only) <;> (repeat' split) <;> (first | (simp [foldl_fuse]; done) | exact ⟨rfl, rfl⟩ | (refine foldl_fuse _ _ _ fun a x => ?_; ((try dsimp only) <;> (repeat' split) <;> (first | (simp [foldl_fuse]; done) | exact ⟨rfl, rfl⟩))) | skip))

@[simp] theorem softZeroiseGo_fuse (v : U32) (d : Dev) : Kept (softZeroiseGo v d) d := by
  unfold softZeroiseGo
  simp

@[simp] theorem secretGenRun_fuse (d : Dev) (b : Job) : Kept (secretGenRun d b) d := by
  unfold secretGenRun
  simp

@[simp] theorem deriveRun_fuse (d : Dev) (b : Job) : Kept (deriveRun d b) d := by
  unfold deriveRun
  simp

@[simp] theorem blobSalts_fuse (d : Dev) (domain : Nat) (o : Nat) : Kept (blobSalts d domain o) d := by
  unfold blobSalts
  simp

@[simp] theorem ksRefuse_fuse (d : Dev) (b : Job) (st : U16) (det : U16) : Kept (ksRefuse d b st det) d := by
  unfold ksRefuse
  simp

@[simp] theorem blobExportRun_fuse (d0 : Dev) (b : Job) : Kept (blobExportRun d0 b) d0 := by
  unfold blobExportRun
  simp

@[simp] theorem blobImportRun_fuse (d0 : Dev) (b : Job) : Kept (blobImportRun d0 b) d0 := by
  unfold blobImportRun
  dsimp only
  repeat' split
  all_goals simp

@[simp] theorem blobUnwrapGo_fuse (j : Nat) (d : Dev) : Kept (blobUnwrapGo j d) d := by
  have bad : ∀ (x : Dev) (b : Job) (st det : U16), Kept x d → Kept (finish x b st det) d := fun _ _ _ _ h => Kept.trans (finish_fuse _ _ _ _) h
  have r : Kept d d := ⟨rfl, rfl⟩
  have two : ∀ (c : Prop) [Decidable c] (a b : Dev), Kept a d → Kept b d → Kept (if c then a else b) d := by
    intro c _ a b ha hb; split
    · exact ha
    · exact hb
  unfold blobUnwrapGo
  split
  · exact r
  refine two _ _ _ r ?_
  split
  · exact r
  dsimp only
  refine two _ _ _ (bad _ _ _ _ r) (two _ _ _ (bad _ _ _ _ r) (two _ _ _ (bad _ _ _ _ r) (two _ _ _ (bad _ _ _ _ r) ?_)))
  split
  · exact bad _ _ _ _ r
  refine two _ _ _ r (two _ _ _ (bad _ _ _ _ r) (two _ _ _ r ?_))
  have ks := blobSalts_fuse d (blobDomain ‹Job›.auxData) ‹Job›.owner
  split
  · exact bad _ _ _ _ ks
  · next sec pub _ =>
    have kq := Kept.trans (modJob_fuse _ j fun t => { t with granRes := blobObjGran ‹Job›.auxData }) (Kept.trans (splitSecret_fuse _ sec) ks)
    split
    · refine bad _ _ _ _ (two _ _ _ ?_ ?_)
      · exact Kept.trans (ksPfull_fuse _) kq
      · exact kq
    · exact Kept.trans (modJob_fuse _ _ _) kq

@[simp] theorem kwExportRun_fuse (d : Dev) (b : Job) : Kept (kwExportRun d b) d := by
  unfold kwExportRun
  simp

@[simp] theorem importNext_fuse (d : Dev) (b : Job) (kind : Nat) (step : Nat) (cyc : Nat) (data : Bytes) :
    Kept (importNext d b kind step cyc data) d := by
  unfold importNext
  repeat' split
  all_goals simp

@[simp] theorem importMake_fuse (d : Dev) (b : Job) (plain : Bytes) (cyc : Nat) : Kept (importMake d b plain cyc) d := by
  unfold importMake
  dsimp only
  repeat' split
  all_goals simp

theorem importRoom_fuse (d : Dev) (b : Job) (go : Dev → Job → Dev) (h : ∀ x y, Kept (go x y) x) : Kept (importRoom d b go) d := by
  unfold importRoom
  dsimp only
  split
  · exact ksRefuse_fuse _ _ _ _
  split
  · exact ksRefuse_fuse _ _ _ _
  split
  · refine Kept.trans (ksRefuse_fuse _ _ _ _) ?_
    split
    · exact ksPfull_fuse _
    · exact ⟨rfl, rfl⟩
  · exact Kept.trans (h _ _) (modJob_fuse _ _ _)

@[simp] theorem importUnwrap_fuse (d : Dev) (b : Job) (kek : Bytes) (w : Bytes) : Kept (importUnwrap d b kek w) d := by
  unfold importUnwrap
  repeat' split
  all_goals simp

@[simp] theorem importDecaps_fuse (d : Dev) (b : Job) : Kept (importDecaps d b) d := by
  unfold importDecaps
  simp

@[simp] theorem importRun_fuse (d : Dev) (b : Job) : Kept (importRun d b) d := by
  unfold importRun
  refine kept_ite (importRoom_fuse _ _ _ fun x y => ?_) ?_
  · split <;> simp
  · repeat' split
    all_goals simp

@[simp] theorem kwImportRun_fuse (d : Dev) (b : Job) : Kept (kwImportRun d b) d := by
  unfold kwImportRun
  simp

@[simp] theorem kemImportRun_fuse (d : Dev) (b : Job) : Kept (kemImportRun d b) d := by
  unfold kemImportRun
  simp

@[simp] theorem restrictRun_fuse (d : Dev) (b : Job) : Kept (restrictRun d b) d := by
  unfold restrictRun
  simp

@[simp] theorem destroyRun_fuse (d : Dev) (b : Job) : Kept (destroyRun d b) d := by
  unfold destroyRun
  simp

@[simp] theorem infoRun_fuse (d : Dev) (b : Job) : Kept (infoRun d b) d := by
  unfold infoRun
  simp

@[simp] theorem readPlainRun_fuse (d : Dev) (b : Job) : Kept (readPlainRun d b) d := by
  unfold readPlainRun
  simp

@[simp] theorem zeroiseOwnerRun_fuse (d : Dev) (b : Job) : Kept (zeroiseOwnerRun d b) d := by
  unfold zeroiseOwnerRun
  simp

@[simp] theorem attSign_fuse (d : Dev) (b : Job) (context : String) (body : Bytes) : Kept (attSign d b context body) d := by
  unfold attSign
  dsimp only
  have h := fun (c : Curve) (p e i : Nat) (w : Option (Bytes × Bytes)) => ecdsaLoop_fuse c p e i 255 1 w d
  split
  · split
    · exact Kept.trans (finish_fuse _ _ _ _) (h _ _ _ _ _)
    · split
      · exact Kept.trans (resultCheck_fuse _ _ _) (h _ _ _ _ _)
      · exact Kept.trans (finishOut_fuse _ _ _ _ _ _ _) (h _ _ _ _ _)
  · split <;> simp

@[simp] theorem reportRun_fuse (d : Dev) (b : Job) : Kept (reportRun d b) d := by
  unfold reportRun
  simp

@[simp] theorem identityRun_fuse (d : Dev) (b : Job) : Kept (identityRun d b) d := by
  unfold identityRun
  simp

@[simp] theorem keyAttestRun_fuse (d : Dev) (b : Job) : Kept (keyAttestRun d b) d := by
  unfold keyAttestRun
  simp

end Sys2Proof.Machine
end

