-- ==== Sys2Proof/Laws/FuseDevice.lean ====
section
/-!
SUPPORT. What the dealer, the function manager, the life cycle, the generator, the starts and the fabric leave of OTP and of the smallest release
that may run: all but what Laws/FuseGrows.lean says.
-/
set_option linter.unusedSimpArgs false
set_option linter.unusedVariables false
namespace Sys2Proof.Machine

@[simp] theorem decide32_fuse (d : Dev) (tb : SMap Byte) (t : Nat) : Kept (decide32 d tb t) d := by
  unfold decide32
  exact ⟨rfl, rfl⟩

@[simp] theorem decisionPointGo_fuse (d : Dev) : Kept (decisionPointGo d) d := by
  unfold decisionPointGo
  simp

@[simp] theorem dutySet_fuse (d : Dev) (n : BitVec 3) : Kept (dutySet d n) d := by
  unfold dutySet
  simp

@[simp] theorem dutyRound_fuse (d : Dev) : Kept (dutyRound d) d := by
  unfold dutyRound
  simp

@[simp] theorem dutyCoolTimerGo_fuse (d : Dev) : Kept (dutyCoolTimerGo d) d := by
  unfold dutyCoolTimerGo
  repeat' split
  all_goals simp

@[simp] theorem restrand_fuse (d : Dev) : Kept (restrand d) d := by
  unfold restrand
  refine foldl_fuse _ _ _ fun a x => ?_
  repeat' split
  all_goals simp

@[simp] theorem vfmEnd_fuse (d : Dev) (result : Byte) (bits : BitVec 3) (o : Nat) : Kept (vfmEnd d result bits o) d := by
  unfold vfmEnd
  simp

@[simp] theorem takeTable_fuse (d : Dev) : Kept (takeTable d) d := by
  unfold takeTable
  ((try dsimp only) <;> (repeat' split) <;> (first | (simp [foldl_fuse]; done) | exact ⟨rfl, rfl⟩ | (refine foldl_fuse _ _ _ fun a x => ?_; ((try dsimp only) <;> (repeat' split) <;> (first | (simp [foldl_fuse]; done) | exact ⟨rfl, rfl⟩))) | skip))

@[simp] theorem roundGo_fuse (d : Dev) : Kept (roundGo d) d := by
  unfold roundGo
  simp

@[simp] theorem boundaryDeadlines_fuse (d : Dev) : Kept (boundaryDeadlines d) d := by
  unfold boundaryDeadlines
  refine foldl_fuse _ _ _ fun a x => ?_
  repeat' split
  all_goals simp

@[simp] theorem turnOut_fuse (d : Dev) (b : Job) : Kept (turnOut d b) d := by
  unfold turnOut
  (repeat' split) <;> simp

@[simp] theorem turnover_fuse (d : Dev) : Kept (turnover d) d := by
  unfold turnover
  generalize List.range 32 = l
  exact Kept.trans (Kept.foldl (f := moveHeld) fun a x => moveHeld_fuse a x) (Kept.trans (Kept.foldl (f := turnOut) fun a x => turnOut_fuse a x) ⟨rfl, rfl⟩)

@[simp] theorem trickGo_fuse (d : Dev) : Kept (trickGo d) d := by
  unfold trickGo
  simp

@[simp] theorem trickBoundaryGo_fuse (d : Dev) : Kept (trickBoundaryGo d) d := by
  unfold trickBoundaryGo
  simp

@[simp] theorem roundBoundaryGo_fuse (d : Dev) : Kept (roundBoundaryGo d) d := by
  unfold roundBoundaryGo
  simp

@[simp] theorem commitTable_fuse (d : Dev) : Kept (commitTable d) d := by
  unfold commitTable
  simp

@[simp] theorem plan_fuse (d : Dev) : Kept (plan d) d := by
  unfold plan
  dsimp only
  repeat' split
  all_goals simp

@[simp] theorem dealPlanGo_fuse (d : Dev) : Kept (dealPlanGo d) d := by
  unfold dealPlanGo
  simp

@[simp] theorem dlrCommitGo_fuse (d : Dev) : Kept (dlrCommitGo d) d := by
  unfold dlrCommitGo
  simp

@[simp] theorem dlrDiscardGo_fuse (d : Dev) : Kept (dlrDiscardGo d) d := by
  unfold dlrDiscardGo
  repeat' split
  all_goals simp

@[simp] theorem abandonJobs_fuse (d : Dev) (p : Nat → Bool) (finishWrites : Bool) : Kept (abandonJobs d p finishWrites) d := by
  unfold abandonJobs
  refine foldl_fuse _ _ _ fun a x => ?_
  repeat' split
  all_goals simp

@[simp] theorem retireBlocks_fuse (d : Dev) (p : Nat → Bool) : Kept (retireBlocks d p) d := by
  unfold retireBlocks
  refine Kept.foldl fun a x => ?_
  (repeat' split) <;> simp

@[simp] theorem resolveOwners_fuse (d : Dev) (p : Nat → Bool) (zeroised : Bool) : Kept (resolveOwners d p zeroised) d := by
  unfold resolveOwners
  refine Kept.trans (Kept.foldl fun a x => ?_) (Kept.trans (jrnResolve_fuse _ _ _) (retireBlocks_fuse _ _))
  split <;> simp

@[simp] theorem clearQueues_fuse (d : Dev) (o : Nat) : Kept (clearQueues d o) d := by
  unfold clearQueues
  exact ⟨rfl, rfl⟩

@[simp] theorem clearPba_fuse (d : Dev) (f : Nat) : Kept (clearPba d f) d := by
  unfold clearPba
  exact ⟨rfl, rfl⟩

@[simp] theorem dropWaiting_fuse (d : Dev) (f : Nat) : Kept (dropWaiting d f) d := by
  unfold dropWaiting
  exact ⟨rfl, rfl⟩

@[simp] theorem vfResetStart_fuse (d : Dev) (o : Nat) (st : OwnState) : Kept (vfResetStart d o st) d := by
  unfold vfResetStart
  simp

@[simp] theorem vfmSelGo_fuse (o : Nat) (d : Dev) : Kept (vfmSelGo o d) d := by
  unfold vfmSelGo
  simp

@[simp] theorem vfmRemote_fuse (d : Dev) (n : Nat) (o : Nat) (op : Nat) (purge : Bool) : Kept (vfmRemote d n o op purge) d := by
  unfold vfmRemote
  simp

@[simp] theorem vfActivate_fuse (d : Dev) (o : Nat) (s : Shares) : Kept (vfActivate d o s) d := by
  unfold vfActivate
  dsimp only
  generalize hx : List.foldl _ _ _ = y
  have hy : y.otp = d.otp ∧ y.boot.cfgMin = d.boot.cfgMin := by
    rw [← hx]; refine (show _ ∧ _ from ⟨(foldl_fuse _ _ _ fun a x => ?_).1.trans ?_, (foldl_fuse _ _ _ fun a x => ?_).2.trans ?_⟩)
    · ((try dsimp only) <;> (repeat' split) <;> (first | (simp [foldl_fuse]; done) | exact ⟨rfl, rfl⟩))
    · simp
    · ((try dsimp only) <;> (repeat' split) <;> (first | (simp [foldl_fuse]; done) | exact ⟨rfl, rfl⟩))
    · simp
  simp [hy]

@[simp] theorem vfmEnable_fuse (d : Dev) (o : Nat) : Kept (vfmEnable d o) d := by
  unfold vfmEnable
  repeat' split
  all_goals simp

@[simp] theorem vfmApply_fuse (d : Dev) (o : Nat) : Kept (vfmApply d o) d := by
  unfold vfmApply
  dsimp only
  repeat' split
  all_goals simp

@[simp] theorem tableCheckGo_fuse (d : Dev) : Kept (tableCheckGo d) d := by
  unfold tableCheckGo
  dsimp only
  repeat' split
  all_goals simp

@[simp] theorem vfGone_fuse (d : Dev) (o : Nat) (purge : Bool) : Kept (vfGone d o purge) d := by
  unfold vfGone
  ((try dsimp only) <;> (repeat' split) <;> (first | (simp [foldl_fuse]; done) | exact ⟨rfl, rfl⟩ | (refine foldl_fuse _ _ _ fun a x => ?_; ((try dsimp only) <;> (repeat' split) <;> (first | (simp [foldl_fuse]; done) | exact ⟨rfl, rfl⟩))) | skip))

@[simp] theorem removeReset_fuse (d : Dev) (o : Nat) (purge : Bool) : Kept (removeReset d o purge) d := by
  unfold removeReset
  simp

@[simp] theorem removeStart_fuse (d : Dev) (o : Nat) (purge : Bool) : Kept (removeStart d o purge) d := by
  unfold removeStart
  simp

@[simp] theorem vfmRemove_fuse (d : Dev) (o : Nat) (purge : Bool) : Kept (vfmRemove d o purge) d := by
  unfold vfmRemove
  simp

@[simp] theorem removeNext_fuse (d : Dev) : Kept (removeNext d) d := by
  unfold removeNext
  repeat' split
  all_goals simp

@[simp] theorem zeroiseSoftGo_fuse (d : Dev) : Kept (zeroiseSoftGo d) d := by
  unfold zeroiseSoftGo
  dsimp only
  repeat' split
  all_goals simp

@[simp] theorem flrFn_fuse (d : Dev) (f : Nat) : Kept (flrFn d f) d := by
  unfold flrFn
  exact ⟨rfl, rfl⟩

@[simp] theorem vfFlrRun_fuse (f : Nat) (d : Dev) : Kept (vfFlrRun f d) d := by
  unfold vfFlrRun
  (repeat' split) <;> simp

@[simp] theorem vfFlrGo_fuse (f : Nat) (d : Dev) : Kept (vfFlrGo f d) d := by
  unfold vfFlrGo
  repeat' split
  all_goals simp

@[simp] theorem vfResetDoneGo_fuse (f : Nat) (d : Dev) : Kept (vfResetDoneGo f d) d := by
  unfold vfResetDoneGo
  repeat' split
  all_goals simp

@[simp] theorem vfmGo_fuse (op : Nat) (purge : Bool) (d : Dev) : Kept (vfmGo op purge d) d := by
  unfold vfmGo
  dsimp only
  repeat' split
  all_goals simp

@[simp] theorem vfEnableSetGo_fuse (n : Nat) (d : Dev) : Kept (vfEnableSetGo n d) d := by
  unfold vfEnableSetGo
  simp

@[simp] theorem vfEnableClearGo_fuse (d : Dev) : Kept (vfEnableClearGo d) d := by
  unfold vfEnableClearGo
  ((try dsimp only) <;> (repeat' split) <;> (first | (simp [foldl_fuse]; done) | exact ⟨rfl, rfl⟩ | (refine foldl_fuse _ _ _ fun a x => ?_; ((try dsimp only) <;> (repeat' split) <;> (first | (simp [foldl_fuse]; done) | exact ⟨rfl, rfl⟩))) | skip))

theorem dirPut_fuse (d : Dev) (r : Dir) (n : SMap Byte) : Kept { d with boot.dir := r, boot.nvm := n } d := ⟨rfl, rfl⟩

@[simp] theorem dirWrite_fuse (d : Dev) (f : Dir → Dir) : Kept (dirWrite d f) d := by
  unfold dirWrite
  exact dirPut_fuse _ _ _

@[simp] theorem lcCause_fuse (d : Dev) (bits : BitVec 3) : Kept (lcCause d bits) d := by
  unfold lcCause
  simp

@[simp] theorem bootCause_fuse (d : Dev) (bits : BitVec 3) : Kept (bootCause d bits) d := by
  unfold bootCause
  simp

@[simp] theorem bistCause_fuse (d : Dev) (bits : BitVec 3) (p : Nat) : Kept (bistCause d bits p) d := by
  unfold bistCause
  simp

@[simp] theorem fabCause_fuse (d : Dev) (bits : BitVec 4) (n : Nat) : Kept (fabCause d bits n) d := by
  unfold fabCause
  simp

@[simp] theorem readEpoch_fuse (d : Dev) : Kept (readEpoch d) d := by
  unfold readEpoch
  repeat' split
  all_goals simp

@[simp] theorem wipeSalts_fuse (d : Dev) : Kept (wipeSalts d) d := by
  unfold wipeSalts
  exact ⟨rfl, rfl⟩

@[simp] theorem wipeMemories_fuse (d : Dev) : Kept (wipeMemories d) d := by
  unfold wipeMemories
  simp

@[simp] theorem freeRecords_fuse (d : Dev) : Kept (freeRecords d) d := by
  unfold freeRecords
  dsimp only
  generalize hx : List.foldl _ _ _ = y
  have hy : y.otp = d.otp ∧ y.boot.cfgMin = d.boot.cfgMin := by
    rw [← hx]; refine (show _ ∧ _ from ⟨(foldl_fuse _ _ _ fun a x => ?_).1.trans ?_, (foldl_fuse _ _ _ fun a x => ?_).2.trans ?_⟩)
    · ((try dsimp only) <;> (repeat' split) <;> (first | (simp [foldl_fuse]; done) | exact ⟨rfl, rfl⟩))
    · simp
    · ((try dsimp only) <;> (repeat' split) <;> (first | (simp [foldl_fuse]; done) | exact ⟨rfl, rfl⟩))
    · simp
  simp [hy]

@[simp] theorem stepFailed_fuse (d : Dev) (k : Nat) (cause : Nat) (mem : Nat) : Kept (stepFailed d k cause mem) d := by
  unfold stepFailed
  simp

@[simp] theorem dropHalts_fuse (d : Dev) : Kept (dropHalts d) d := by
  unfold dropHalts
  refine foldl_fuse _ _ _ fun a x => ?_
  repeat' split
  all_goals simp

@[simp] theorem endGrant_fuse (d : Dev) : Kept (endGrant d) d := by
  unfold endGrant
  repeat' split
  all_goals simp

@[simp] theorem hsSend_fuse (d : Dev) (n : Nat) (k : Nat) (msg : Bytes) : Kept (hsSend d n k msg) d := by
  unfold hsSend
  refine foldl_fuse _ _ _ fun a x => ?_
  repeat' split
  all_goals simp

@[simp] theorem hsStart_fuse (d : Dev) (n : Nat) (renew : Bool) : Kept (hsStart d n renew) d := by
  unfold hsStart
  simp

@[simp] theorem joinStart_fuse (d : Dev) (n : Nat) : Kept (joinStart d n) d := by
  unfold joinStart
  simp

@[simp] theorem hsSign_fuse (d : Dev) (ctx : String) (body : Bytes) : Kept (hsSign d ctx body).2 d := by
  unfold hsSign
  exact ⟨rfl, rfl⟩

@[simp] theorem hsMember1_fuse (d : Dev) : Kept (hsMember1 d) d := by
  unfold hsMember1
  simp

theorem hsLead2_fuse {d : Dev} {n : Nat} {r : Dev} (e : hsLead2 d n = some r) : r.otp = d.otp ∧ r.boot.cfgMin = d.boot.cfgMin := by
  unfold hsLead2 at e
  dsimp only at e
  split at e
  · cases e
  · cases e; simp

@[simp] theorem hsMember3_fuse (d : Dev) : Kept (hsMember3 d) d := by
  unfold hsMember3
  simp

@[simp] theorem modBank_fuse (d : Dev) (b : Nat) (f : CkptBank → CkptBank) : Kept (modBank d b f) d := by
  unfold modBank
  repeat' split
  all_goals simp

@[simp] theorem ckptStart_fuse (d : Dev) : Kept (ckptStart d) d := by
  unfold ckptStart
  repeat' split
  all_goals simp

@[simp] theorem ckptEnd_fuse (d : Dev) : Kept (ckptEnd d) d := by
  unfold ckptEnd
  repeat' split
  all_goals simp

@[simp] theorem ckptGo_fuse (d : Dev) : Kept (ckptGo d) d := by
  unfold ckptGo
  simp

@[simp] theorem ckptCmdGo_fuse (d : Dev) : Kept (ckptCmdGo d) d := by
  unfold ckptCmdGo
  simp

@[simp] theorem clearHistGo_fuse (d : Dev) : Kept (clearHistGo d) d := by
  unfold clearHistGo
  simp

@[simp] theorem recLoad_fuse (d : Dev) (badRecs : List Nat) : Kept (recLoad d badRecs) d := by
  unfold recLoad
  simp

@[simp] theorem lifePower_fuse (d : Dev) : Kept (lifePower d) d := by
  unfold lifePower
  simp

@[simp] theorem mirrorWrite_fuse (d : Dev) (node : Nat) (i : Nat) (bs : Bytes) : Kept (mirrorWrite d node i bs) d := by
  unfold mirrorWrite
  simp

@[simp] theorem mirrorTimerGo_fuse (i : Nat) (ok : Bool) (d : Dev) : Kept (mirrorTimerGo i ok d) d := by
  unfold mirrorTimerGo
  simp

@[simp] theorem recVolatile_fuse (d : Dev) : Kept (recVolatile d) d := by
  unfold recVolatile
  simp

@[simp] theorem recBankBadGo_fuse (b : Nat) (d : Dev) : Kept (recBankBadGo b d) d := by
  unfold recBankBadGo
  ((try dsimp only) <;> (repeat' split) <;> (first | (simp [foldl_fuse]; done) | exact ⟨rfl, rfl⟩ | (refine foldl_fuse _ _ _ fun a x => ?_; ((try dsimp only) <;> (repeat' split) <;> (first | (simp [foldl_fuse]; done) | exact ⟨rfl, rfl⟩))) | skip))

@[simp] theorem modSrc_fuse (d : Dev) (i : Nat) (f : Src → Src) : Kept (modSrc d i f) d := by
  unfold modSrc
  repeat' split
  all_goals simp

@[simp] theorem condBlock_fuse (i : Nat) (samples : Bytes) (d : Dev) : Kept (condBlock i samples d) d := by
  unfold condBlock; dsimp only
  (repeat' split) <;> simp

@[simp] theorem holdStart_fuse (d : Dev) (h : Hold) : Kept (holdStart d h) d := by
  unfold holdStart
  exact ⟨rfl, rfl⟩

@[simp] theorem holdRecord_fuse (d : Dev) (h : Hold) : Kept (holdRecord d h) d := by
  unfold holdRecord
  simp

@[simp] theorem rngError_fuse (d : Dev) : Kept (rngError d) d := by
  unfold rngError
  simp

@[simp] theorem rngSeedFrom_fuse (d : Dev) (i : Nat) (first : Bool) : Kept (rngSeedFrom d i first) d := by
  unfold rngSeedFrom; simp

@[simp] theorem srcCount_fuse (d : Dev) (i : Nat) (c : SrcCause) (seed : Bool) : Kept (srcCount d i c seed) d := by
  unfold srcCount
  simp

@[simp] theorem errorCheck_fuse (d : Dev) : Kept (errorCheck d) d := by
  unfold errorCheck
  simp

@[simp] theorem srcFail_fuse (d : Dev) (i : Nat) (c : SrcCause) : Kept (srcFail d i c) d := by
  unfold srcFail
  dsimp only
  repeat' split
  all_goals simp

@[simp] theorem condBlockGo_fuse (i : Nat) (samples : Bytes) (d : Dev) : Kept (condBlockGo i samples d) d := by
  unfold condBlockGo
  dsimp only
  repeat' split
  all_goals simp

@[simp] theorem trimStepGo_fuse (i : Nat) (latch : Nat) (ones : Nat) (d : Dev) : Kept (trimStepGo i latch ones d) d := by
  unfold trimStepGo
  repeat' split
  all_goals simp

@[simp] theorem reseedDueGo_fuse (d : Dev) : Kept (reseedDueGo d) d := by
  unfold reseedDueGo
  simp

@[simp] theorem katStart_fuse (d : Dev) : Kept (katStart d) d := by
  unfold katStart
  simp

@[simp] theorem inlineKatGo_fuse (d : Dev) : Kept (inlineKatGo d) d := by
  unfold inlineKatGo
  simp

@[simp] theorem recalWaiting_fuse (d : Dev) : Kept (recalWaiting d) d := by
  unfold recalWaiting
  refine foldl_fuse _ _ _ fun a x => ?_
  repeat' split
  all_goals simp

@[simp] theorem holdEnd_fuse (katOk : Bool) (d : Dev) : Kept (holdEnd katOk d) d := by
  unfold holdEnd
  (repeat' split) <;> simp

@[simp] theorem holdEndGo_fuse (katOk : Bool) (d : Dev) : Kept (holdEndGo katOk d) d := by
  unfold holdEndGo
  dsimp only
  split
  · exact holdEnd_fuse _ _
  split
  · exact holdEnd_fuse _ _
  · exact Kept.trans (Kept.foldl fun a x => modJob_fuse _ _ _) (holdEnd_fuse _ _)

@[simp] theorem reserveRefillGo_fuse (d : Dev) : Kept (reserveRefillGo d) d := by
  unfold reserveRefillGo
  simp

@[simp] theorem rngRecalGo_fuse (i : Nat) (d : Dev) : Kept (rngRecalGo i d) d := by
  unfold rngRecalGo
  simp

@[simp] theorem srcHealthy_fuse (d : Dev) (i : Nat) : Kept (srcHealthy d i) d := by
  unfold srcHealthy
  simp

@[simp] theorem recalDoneGo_fuse (i : Nat) (pass : Bool) (trims : List Nat) (d : Dev) : Kept (recalDoneGo i pass trims d) d := by
  unfold recalDoneGo
  repeat' split
  all_goals simp

@[simp] theorem sourceRetryGo_fuse (i : Nat) (d : Dev) : Kept (sourceRetryGo i d) d := by
  unfold sourceRetryGo
  simp

@[simp] theorem rngSeed_fuse (d : Dev) (ok : List Bool) (katOk : Bool) : Kept (rngSeed d ok katOk).1 d := by
  have h : ∀ x : Dev, Kept x d → Kept ((List.range 4).foldl (fun acc i =>
      if ok.getD i true then acc else rngCause (amber acc .rngFail .rng [BitVec.ofNat 8 i, 4, 0, 0]) 0x01) x) d := fun x hx =>
    Kept.trans (Kept.foldl fun a i => by split <;> simp) hx
  unfold rngSeed
  dsimp only
  generalize hx : List.foldl _ _ (List.range 4) = y
  have hy : Kept y d := by rw [← hx]; exact h _ ⟨rfl, rfl⟩
  split
  · split
    · exact Kept.trans (b := rngSeedFrom y _ true) ⟨rfl, rfl⟩ (Kept.trans (rngSeedFrom_fuse _ _ _) hy)
    · exact hy
  · exact hy

@[simp] theorem rngReady_fuse (d : Dev) : Kept (rngReady d) d := by
  unfold rngReady
  refine foldl_fuse _ _ _ fun a x => ?_
  repeat' split
  all_goals simp

@[simp] theorem generateRun_fuse (d : Dev) (b : Job) : Kept (generateRun d b) d := by
  unfold generateRun
  simp

@[simp] theorem condKatRun_fuse (d : Dev) (b : Job) : Kept (condKatRun d b) d := by
  unfold condKatRun
  simp

@[simp] theorem drbgKatRun_fuse (d : Dev) (b : Job) : Kept (drbgKatRun d b) d := by
  unfold drbgKatRun
  simp

@[simp] theorem rawLeave_fuse (d : Dev) (i : Nat) : Kept (rawLeave d i) d := by
  unfold rawLeave
  simp

@[simp] theorem rawLeaveAll_fuse (d : Dev) : Kept (rawLeaveAll d) d := by
  unfold rawLeaveAll
  refine Kept.foldl fun a x => ?_
  (repeat' split) <;> simp

@[simp] theorem rngRawRun_fuse (d : Dev) (b : Job) : Kept (rngRawRun d b) d := by
  unfold rngRawRun
  simp

@[simp] theorem rawService_fuse (j : Nat) (d : Dev) : Kept (rawService j d) d := by
  unfold rawService
  split
  · split
    · have h := service_fuse j (isCode 0x9004) rngRawRun (rawLeave d (pbits (by assumption : Job).e 0 2)) fun a x => by simp
      simp [service_fuse]
    · simp [service_fuse]
  · simp

@[simp] theorem freshBoot_fuse (d : Dev) : Kept (freshBoot d) d := by
  unfold freshBoot
  exact ⟨rfl, rfl⟩

@[simp] theorem keepPci_fuse (old d : Dev) : (keepPci old d).otp = d.otp ∧ (keepPci old d).boot.cfgMin = d.boot.cfgMin := ⟨rfl, rfl⟩

@[simp] theorem enterSafe_fuse (cause : Byte) (d : Dev) : Kept (enterSafe cause d) d := by
  unfold enterSafe
  simp

theorem inStage_fuse (st : DevState) (f : Dev → Dev) (d : Dev) (h : ∀ a, (f a).otp = a.otp ∧ (f a).boot.cfgMin = a.boot.cfgMin) :
    (inStage st f d).otp = d.otp ∧ (inStage st f d).boot.cfgMin = d.boot.cfgMin := by
  unfold inStage; split <;> simp [h]

@[simp] theorem chooseSlot_fuse (d : Dev) : Kept (chooseSlot d).1 d := by
  unfold chooseSlot
  dsimp only
  repeat' split
  all_goals simp

@[simp] theorem bootImage_fuse (env : StartEnv) (d : Dev) : Kept (bootImage env d) d := by
  unfold bootImage
  dsimp only
  split
  · simp
  generalize hx : chooseSlot _ = x
  have : x.1.otp = d.otp ∧ x.1.boot.cfgMin = d.boot.cfgMin := by rw [← hx]; simp
  obtain ⟨d2, r⟩ := x
  cases r with
  | error c => simp_all
  | ok r => obtain ⟨s, v, w⟩ := r; dsimp only at this ⊢; repeat' split
            all_goals simp [this]

@[simp] theorem selfTest_fuse (env : StartEnv) (d : Dev) : Kept (selfTest env d) d := by
  unfold selfTest
  simp

@[simp] theorem applyBlocks_fuse (d : Dev) : Kept (applyBlocks d) d := by
  unfold applyBlocks
  repeat' split
  all_goals simp

@[simp] theorem setTable_fuse (d : Dev) : Kept (setTable d) d := by
  unfold setTable
  repeat' split
  all_goals simp

@[simp] theorem loadStores_fuse (d : Dev) (cs : List Comp) : Kept (loadStores d cs) d := by
  unfold loadStores
  exact ⟨rfl, rfl⟩

@[simp] theorem idSeeds_fuse (d : Dev) : Kept (idSeeds d) d := by
  unfold idSeeds
  simp

@[simp] theorem lockPolicy_fuse (d : Dev) : Kept (lockPolicy d) d := by
  unfold lockPolicy
  simp

@[simp] theorem load_fuse (env : StartEnv) (d : Dev) : Kept (load env d) d := by
  unfold load
  dsimp only
  repeat' split
  all_goals simp

@[simp] theorem openKeys_fuse (badTags : List Nat) (d : Dev) : Kept (openKeys badTags d) d := by
  unfold openKeys
  ((try dsimp only) <;> (repeat' split) <;> (first | (simp [foldl_fuse]; done) | exact ⟨rfl, rfl⟩ | (refine foldl_fuse _ _ _ fun a x => ?_; ((try dsimp only) <;> (repeat' split) <;> (first | (simp [foldl_fuse]; done) | exact ⟨rfl, rfl⟩))) | skip))

@[simp] theorem openRecords_fuse (env : StartEnv) (d : Dev) : Kept (openRecords env d) d := by
  unfold openRecords
  ((try dsimp only) <;> (repeat' split) <;> (first | (simp [foldl_fuse]; done) | exact ⟨rfl, rfl⟩ | (refine foldl_fuse _ _ _ fun a x => ?_; ((try dsimp only) <;> (repeat' split) <;> (first | (simp [foldl_fuse]; done) | exact ⟨rfl, rfl⟩))) | skip))

@[simp] theorem openStore_fuse (env : StartEnv) (d : Dev) : Kept (openStore env d) d := by
  unfold openStore
  dsimp only
  split <;> simp

@[simp] theorem joinAll_fuse (d : Dev) : Kept (joinAll d) d := by
  unfold joinAll
  ((try dsimp only) <;> (repeat' split) <;> (first | (simp [foldl_fuse]; done) | exact ⟨rfl, rfl⟩ | (refine foldl_fuse _ _ _ fun a x => ?_; ((try dsimp only) <;> (repeat' split) <;> (first | (simp [foldl_fuse]; done) | exact ⟨rfl, rfl⟩))) | skip))

@[simp] theorem enterReady_fuse (d : Dev) : Kept (enterReady d) d := by
  unfold enterReady
  simp

@[simp] theorem seed_fuse (env : StartEnv) (d : Dev) : Kept (seed env d) d := by
  unfold seed
  generalize hx : rngSeed d env.flintOk env.katOk = x
  have : x.1.otp = d.otp ∧ x.1.boot.cfgMin = d.boot.cfgMin := by rw [← hx]; simp
  obtain ⟨d2, r⟩ := x
  cases r <;> simp_all

@[simp] theorem stageTime_fuse (env : StartEnv) (i : Nat) (d : Dev) : Kept (stageTime env i d) d := by
  unfold stageTime
  exact ⟨rfl, rfl⟩

@[simp] theorem bootMarks_fuse (d : Dev) : Kept (bootMarks d) d := by
  unfold bootMarks
  simp

@[simp] theorem causeSet_fuse (d : Dev) (bit : Nat) : Kept (causeSet d bit) d := by
  unfold causeSet
  simp

@[simp] theorem dropAll_fuse (d : Dev) : Kept (dropAll d) d := by
  unfold dropAll
  simp

@[simp] theorem toBedrock_fuse (d : Dev) : Kept (toBedrock d) d := by
  unfold toBedrock
  simp

@[simp] theorem reTable_fuse (d : Dev) : Kept (reTable d) d := by
  unfold reTable
  exact ⟨rfl, rfl⟩

@[simp] theorem warmClear_fuse (d : Dev) : Kept (warmClear d) d := by
  unfold warmClear
  simp

@[simp] theorem clearPci_fuse (d : Dev) : Kept (clearPci d) d := by
  unfold clearPci
  exact ⟨rfl, rfl⟩

@[simp] theorem hotReset_fuse (env : StartEnv) (d : Dev) : Kept (hotReset env d) d := by
  unfold hotReset
  simp

@[simp] theorem pfFlr_fuse (d : Dev) : Kept (pfFlr d) d := by
  unfold pfFlr
  simp

@[simp] theorem porReset_fuse (d : Dev) : Kept (porReset d) d := by
  unfold porReset
  simp

@[simp] theorem hardStart_fuse (trigger : Byte) (detail : Byte) (d : Dev) : Kept (hardStart trigger detail d) d := by
  unfold hardStart
  simp

@[simp] theorem tamperGo_fuse (n : Nat) (d : Dev) : Kept (tamperGo n d) d := by
  unfold tamperGo
  simp

@[simp] theorem hardZeroiseGo_fuse (v : U32) (d : Dev) : Kept (hardZeroiseGo v d) d := by
  unfold hardZeroiseGo
  simp

@[simp] theorem jtagLoad_fuse (i : JtagInsn) (dr : U32) (d : Dev) : Kept (jtagLoad i dr d) d := by
  unfold jtagLoad
  exact ⟨rfl, rfl⟩

@[simp] theorem countDet_fuse (id : Nat) (d : Dev) : Kept (countDet id d) d := by
  unfold countDet
  simp

@[simp] theorem sensorExtremes_fuse (d : Dev) (subject : Nat) (v : Int) : Kept (sensorExtremes d subject v) d := by
  unfold sensorExtremes
  simp

@[simp] theorem sensorReadGo_fuse (tj : List (BitVec 16)) (rails : List U16) (d : Dev) : Kept (sensorReadGo tj rails d) d := by
  unfold sensorReadGo
  ((try dsimp only) <;> (repeat' split) <;> (first | (simp [foldl_fuse]; done) | exact ⟨rfl, rfl⟩ | (refine foldl_fuse _ _ _ fun a x => ?_; ((try dsimp only) <;> (repeat' split) <;> (first | (simp [foldl_fuse]; done) | exact ⟨rfl, rfl⟩))) | skip))

@[simp] theorem fatalFault_fuse (d : Dev) : Kept (fatalFault d) d := by
  unfold fatalFault
  simp

@[simp] theorem isScheduleGo_fuse (d : Dev) : Kept (isScheduleGo d) d := by
  unfold isScheduleGo
  dsimp only
  repeat' split
  all_goals simp

@[simp] theorem isCmdGo_fuse (v : U32) (d : Dev) : Kept (isCmdGo v d) d := by
  unfold isCmdGo
  simp

@[simp] theorem testEnd_fuse (d : Dev) (c : Nat) (svc : EngSvc) : Kept (testEnd d c svc) d := by
  unfold testEnd
  simp

@[simp] theorem isDrainTimeoutGo_fuse (c : Nat) (d : Dev) : Kept (isDrainTimeoutGo c d) d := by
  unfold isDrainTimeoutGo
  simp

@[simp] theorem noteMem_fuse (d : Dev) (r : IsResult) : Kept (noteMem d r) d := by
  unfold noteMem
  repeat' split
  all_goals simp

@[simp] theorem wipeCell_fuse (d : Dev) (c : Nat) : Kept (wipeCell d c) d := by
  unfold wipeCell; simp

@[simp] theorem isTestDoneGo_fuse (c : Nat) (r : IsResult) (d : Dev) : Kept (isTestDoneGo c r d) d := by
  unfold isTestDoneGo
  repeat' split
  all_goals simp

@[simp] theorem eccJob_fuse (d : Dev) (j : Nat) (code : U16) : Kept (eccJob d j code) d := by
  unfold eccJob
  repeat' split
  all_goals simp

@[simp] theorem uncorrectableEccGo_fuse (site : EccSite) (d : Dev) : Kept (uncorrectableEccGo site d) d := by
  unfold uncorrectableEccGo
  ((try dsimp only) <;> (repeat' split) <;> (first | (simp [foldl_fuse]; done) | exact ⟨rfl, rfl⟩ | (refine foldl_fuse _ _ _ fun a x => ?_; ((try dsimp only) <;> (repeat' split) <;> (first | (simp [foldl_fuse]; done) | exact ⟨rfl, rfl⟩))) | skip))

@[simp] theorem controlStoreEccGo_fuse (u : Nat) (correctable : Bool) (d : Dev) : Kept (controlStoreEccGo u correctable d) d := by
  unfold controlStoreEccGo
  dsimp only
  repeat' split
  all_goals simp

@[simp] theorem ambFreezeGo_fuse (d : Dev) : Kept (ambFreezeGo d) d := by
  unfold ambFreezeGo
  simp

@[simp] theorem freezeCopyDoneGo_fuse (d : Dev) : Kept (freezeCopyDoneGo d) d := by
  unfold freezeCopyDoneGo
  ((try dsimp only) <;> (repeat' split) <;> (first | (simp [foldl_fuse]; done) | exact ⟨rfl, rfl⟩ | (refine foldl_fuse _ _ _ fun a x => ?_; ((try dsimp only) <;> (repeat' split) <;> (first | (simp [foldl_fuse]; done) | exact ⟨rfl, rfl⟩))) | skip))

@[simp] theorem amberRefillGo_fuse (code : U16) (d : Dev) : Kept (amberRefillGo code d) d := by
  unfold amberRefillGo
  simp

@[simp] theorem supvPushGo_fuse (d : Dev) : Kept (supvPushGo d) d := by
  unfold supvPushGo
  simp

@[simp] theorem wdogRestartGo_fuse (d : Dev) : Kept (wdogRestartGo d) d := by
  unfold wdogRestartGo
  simp

@[simp] theorem digestNow_fuse (d : Dev) (fromFreeze : Bool) : Kept (digestNow d fromFreeze) d := by
  unfold digestNow
  exact ⟨rfl, rfl⟩

@[simp] theorem ambDigestGo_fuse (src : Bool) (d : Dev) : Kept (ambDigestGo src d) d := by
  unfold ambDigestGo
  simp

@[simp] theorem digestDoneGo_fuse (d : Dev) : Kept (digestDoneGo d) d := by
  unfold digestDoneGo
  simp

@[simp] theorem wallCommitGo_fuse (v : U32) (d : Dev) : Kept (wallCommitGo v d) d := by
  unfold wallCommitGo
  simp

@[simp] theorem wallSReadGo_fuse (d : Dev) : Kept (wallSReadGo d) d := by
  unfold wallSReadGo
  simp

@[simp] theorem smReply_fuse (d : Dev) (cmd : Byte) (code : Byte) (data : Bytes) : Kept (smReply d cmd code data) d := by
  unfold smReply
  exact ⟨rfl, rfl⟩

theorem smDo_fuse (f : Dev → Dev) (d : Dev) (h : ∀ a, (f a).otp = a.otp ∧ (f a).boot.cfgMin = a.boot.cfgMin) :
    (smDo f d).otp = d.otp ∧ (smDo f d).boot.cfgMin = d.boot.cfgMin := by
  unfold smDo; split <;> simp [h]

@[simp] theorem smbAmbReadGo_fuse (back : Nat) (n : Nat) (d : Dev) : Kept (smbAmbReadGo back n d) d := by
  unfold smbAmbReadGo
  simp

@[simp] theorem smbFrzReadGo_fuse (bank : Nat) (slot : Nat) (n : Nat) (d : Dev) : Kept (smbFrzReadGo bank slot n d) d := by
  unfold smbFrzReadGo
  simp

@[simp] theorem smbDigestGo_fuse (src : Nat) (part : Nat) (d : Dev) : Kept (smbDigestGo src part d) d := by
  unfold smbDigestGo
  simp

@[simp] theorem smbZeroiseGo_fuse (key : U16) (d : Dev) : Kept (smbZeroiseGo key d) d := by
  unfold smbZeroiseGo
  simp

@[simp] theorem lossGo_fuse (d : Dev) : Kept (lossGo d) d := by
  unfold lossGo
  simp

@[simp] theorem queryCapsRun_fuse (d : Dev) (b : Job) : Kept (queryCapsRun d b) d := by
  unfold queryCapsRun
  simp

@[simp] theorem codeKeygenRun_fuse (d : Dev) (b : Job) : Kept (codeKeygenRun d b) d := by
  unfold codeKeygenRun
  dsimp only
  repeat' split
  all_goals simp

@[simp] theorem codeEncapsRun_fuse (keep : Bool) (d : Dev) (b : Job) : Kept (codeEncapsRun keep d b) d := by
  unfold codeEncapsRun
  dsimp only
  repeat' split
  all_goals simp

@[simp] theorem codeDecapsRun_fuse (keep : Bool) (d : Dev) (b : Job) : Kept (codeDecapsRun keep d b) d := by
  unfold codeDecapsRun
  dsimp only
  repeat' split
  all_goals simp

@[simp] theorem codePkLoadRun_fuse (d : Dev) (b : Job) : Kept (codePkLoadRun d b) d := by
  unfold codePkLoadRun
  dsimp only
  repeat' split
  all_goals simp

@[simp] theorem codePubExportRun_fuse (d : Dev) (b : Job) : Kept (codePubExportRun d b) d := by
  unfold codePubExportRun
  simp

@[simp] theorem nopRun_fuse (d : Dev) (b : Job) : Kept (nopRun d b) d := by
  unfold nopRun
  simp

@[simp] theorem echoRun_fuse (d : Dev) (b : Job) : Kept (echoRun d b) d := by
  unfold echoRun
  simp

@[simp] theorem timeRun_fuse (d : Dev) (b : Job) : Kept (timeRun d b) d := by
  unfold timeRun
  simp

@[simp] theorem fateQueryRun_fuse (d : Dev) (b : Job) : Kept (fateQueryRun d b) d := by
  unfold fateQueryRun
  dsimp only
  repeat' split
  all_goals simp

@[simp] theorem fateReleaseRun_fuse (d : Dev) (b : Job) : Kept (fateReleaseRun d b) d := by
  unfold fateReleaseRun
  simp

@[simp] theorem notifyRun_fuse (d : Dev) (b : Job) : Kept (notifyRun d b) d := by
  unfold notifyRun
  simp

@[simp] theorem portDown_fuse (p : Nat) (d : Dev) : Kept (portDown p d) d := by
  unfold portDown
  ((try dsimp only) <;> (repeat' split) <;> (first | (simp [foldl_fuse]; done) | exact ⟨rfl, rfl⟩ | (refine foldl_fuse _ _ _ fun a x => ?_; ((try dsimp only) <;> (repeat' split) <;> (first | (simp [foldl_fuse]; done) | exact ⟨rfl, rfl⟩))) | skip))

@[simp] theorem portReplay_fuse (p : Nat) (d : Dev) : Kept (portReplay p d) d := by
  unfold portReplay
  ((try dsimp only) <;> (repeat' split) <;> (first | (simp [foldl_fuse]; done) | exact ⟨rfl, rfl⟩ | (refine foldl_fuse _ _ _ fun a x => ?_; ((try dsimp only) <;> (repeat' split) <;> (first | (simp [foldl_fuse]; done) | exact ⟨rfl, rfl⟩))) | skip))

@[simp] theorem portIsUp_fuse (p : Nat) (d : Dev) : Kept (portIsUp p d) d := by
  unfold portIsUp
  ((try dsimp only) <;> (repeat' split) <;> (first | (simp [foldl_fuse]; done) | exact ⟨rfl, rfl⟩ | (refine foldl_fuse _ _ _ fun a x => ?_; ((try dsimp only) <;> (repeat' split) <;> (first | (simp [foldl_fuse]; done) | exact ⟨rfl, rfl⟩))) | skip))

@[simp] theorem portFailed_fuse (p : Nat) (d : Dev) : Kept (portFailed p d) d := by
  unfold portFailed
  simp

@[simp] theorem portLinkGo_fuse (p : Nat) (ev : LinkEv) (d : Dev) : Kept (portLinkGo p ev d) d := by
  unfold portLinkGo
  repeat' split
  all_goals simp

@[simp] theorem sendAck_fuse (d : Dev) (p : Nat) (b : Bytes) : Kept (sendAck d p b) d := by
  unfold sendAck
  exact ⟨rfl, rfl⟩

@[simp] theorem ackGo_fuse (p : Nat) (b : Bytes) (d : Dev) : Kept (ackGo p b d) d := by
  unfold ackGo
  simp

@[simp] theorem fabEnd_fuse (d : Dev) (result : Byte) : Kept (fabEnd d result) d := by
  unfold fabEnd
  exact ⟨rfl, rfl⟩

@[simp] theorem fabEndFor_fuse (d : Dev) (op : Nat) (n : Nat) (result : Byte) : Kept (fabEndFor d op n result) d := by
  unfold fabEndFor
  simp

@[simp] theorem lostJob_fuse (d : Dev) (b : Job) : Kept (lostJob d b) d := by
  unfold lostJob
  simp

@[simp] theorem fqsFree_fuse (d : Dev) : Kept (fqsFree d) d := by
  unfold fqsFree
  refine foldl_fuse _ _ _ fun a x => ?_
  repeat' split
  all_goals simp

@[simp] theorem memberLost_fuse (n : Nat) (cause : Nat) (d : Dev) : Kept (memberLost n cause d) d := by
  unfold memberLost
  ((try dsimp only) <;> (repeat' split) <;> (first | (simp [foldl_fuse]; done) | exact ⟨rfl, rfl⟩ | (refine foldl_fuse _ _ _ fun a x => ?_; ((try dsimp only) <;> (repeat' split) <;> (first | (simp [foldl_fuse]; done) | exact ⟨rfl, rfl⟩))) | skip))

@[simp] theorem leadLostGo_fuse (d : Dev) : Kept (leadLostGo d) d := by
  unfold leadLostGo
  simp

@[simp] theorem sessionEnd_fuse (n : Nat) (cause : Nat) (d : Dev) : Kept (sessionEnd n cause d) d := by
  unfold sessionEnd
  simp

@[simp] theorem gapGo_fuse (n : Nat) (d : Dev) : Kept (gapGo n d) d := by
  unfold gapGo
  simp

@[simp] theorem cfgRun_fuse : ∀ (n : Nat) (d : Dev), (cfgRun n d).otp = d.otp ∧ (cfgRun n d).boot.cfgMin = d.boot.cfgMin := by
  intro n
  induction n with
  | zero => intro d; exact ⟨rfl, rfl⟩
  | succ n ih =>
    intro d
    unfold cfgRun
    split
    · simp
    split
    · simp
    dsimp only
    refine ⟨(ih _).1.trans ?_, (ih _).2.trans ?_⟩
    all_goals
      simp
      repeat' split
      all_goals simp

@[simp] theorem configIn_fuse (n : Nat) (b : Bytes) (d : Dev) : Kept (configIn n b d) d := by
  unfold configIn
  simp

@[simp] theorem sendKitty_fuse (d : Dev) (n : Nat) : Kept (sendKitty d n) d := by
  unfold sendKitty
  refine foldl_fuse _ _ _ fun a x => ?_
  repeat' split
  all_goals simp

@[simp] theorem identityFails_fuse (n : Nat) (d : Dev) : Kept (identityFails n d) d := by
  unfold identityFails
  simp

@[simp] theorem handshakeIn_fuse (n : Nat) (b : Bytes) (d : Dev) : Kept (handshakeIn n b d) d := by
  unfold handshakeIn
  dsimp only
  repeat' split
  all_goals first | (simp; done) | (next h => have := hsLead2_fuse h; simp [this]) | (next h _ => have := hsLead2_fuse h; simp [this])

@[simp] theorem rekeyIn_fuse (n : Nat) (d : Dev) : Kept (rekeyIn n d) d := by
  unfold rekeyIn
  simp

@[simp] theorem joinGo_fuse (n : Nat) (hops : Nat) (d : Dev) : Kept (joinGo n hops d) d := by
  unfold joinGo
  simp

@[simp] theorem renewGo_fuse (n : Nat) (d : Dev) : Kept (renewGo n d) d := by
  unfold renewGo
  simp

@[simp] theorem fabStart_fuse (d : Dev) (op : Nat) (n : Nat) : Kept (fabStart d op n) d := by
  unfold fabStart
  exact ⟨rfl, rfl⟩

theorem fabRun_fuse (op n : Nat) (run : Dev → Dev) (d : Dev) (h : ∀ x, Kept (run x) x) : Kept (fabRun op n run d) d := by
  unfold fabRun
  split
  · exact ⟨rfl, rfl⟩
  split
  · exact Kept.trans (h _) (fabStart_fuse _ _ _)
  · exact ⟨rfl, rfl⟩

@[simp] theorem admitGo_fuse (n : Nat) (x1 : Dev) : Kept (admitGo n x1) x1 := by
  unfold admitGo
  refine fabRun_fuse _ _ _ _ fun a => ?_
  dsimp only
  (repeat' split) <;> simp

@[simp] theorem admitTimeoutGo_fuse (d : Dev) : Kept (admitTimeoutGo d) d := by
  unfold admitTimeoutGo
  simp

@[simp] theorem fabRemoveGo_fuse (n : Nat) (x1 : Dev) : Kept (fabRemoveGo n x1) x1 := by
  unfold fabRemoveGo
  refine fabRun_fuse _ _ _ _ fun a => ?_
  dsimp only
  (repeat' split) <;> simp

@[simp] theorem rekeyGo_fuse (n : Nat) (d : Dev) : Kept (rekeyGo n d) d := by
  unfold rekeyGo
  refine fabRun_fuse _ _ _ _ fun a => ?_
  (repeat' split) <;> simp

@[simp] theorem jrnGranted_fuse (d : Dev) (o : Nat) (e : JEntry) : Kept (jrnGranted d o e).2 d := by
  unfold jrnGranted
  repeat' split
  all_goals simp

@[simp] theorem submitIn_fuse (b : Bytes) (d : Dev) : Kept (submitIn b d) d := by
  unfold submitIn
  dsimp only
  repeat' split
  all_goals simp

@[simp] theorem tryComplete_fuse (d : Dev) (n : Nat) (j : Nat) : Kept (tryComplete d n j) d := by
  unfold tryComplete
  repeat' split
  all_goals simp

@[simp] theorem completeIn_fuse (n : Nat) (b : Bytes) (d : Dev) : Kept (completeIn n b d) d := by
  unfold completeIn
  simp

@[simp] theorem wrDataIn_fuse (n : Nat) (b : Bytes) (d : Dev) : Kept (wrDataIn n b d) d := by
  unfold wrDataIn
  simp

@[simp] theorem rdReqIn_fuse (n : Nat) (b : Bytes) (d : Dev) : Kept (rdReqIn n b d) d := by
  unfold rdReqIn
  simp

@[simp] theorem rdDataIn_fuse (b : Bytes) (d : Dev) : Kept (rdDataIn b d) d := by
  unfold rdDataIn
  repeat' split
  all_goals simp

@[simp] theorem abandonIn_fuse (b : Bytes) (d : Dev) : Kept (abandonIn b d) d := by
  unfold abandonIn
  ((try dsimp only) <;> (repeat' split) <;> (first | (simp [foldl_fuse]; done) | exact ⟨rfl, rfl⟩ | (refine foldl_fuse _ _ _ fun a x => ?_; ((try dsimp only) <;> (repeat' split) <;> (first | (simp [foldl_fuse]; done) | exact ⟨rfl, rfl⟩))) | skip))

@[simp] theorem abandonDoneIn_fuse (n : Nat) (b : Bytes) (d : Dev) : Kept (abandonDoneIn n b d) d := by
  unfold abandonDoneIn
  exact ⟨rfl, rfl⟩

@[simp] theorem grantIn_fuse (n : Nat) (b : Bytes) (d : Dev) : Kept (grantIn n b d) d := by
  unfold grantIn
  exact ⟨rfl, rfl⟩

@[simp] theorem fateQueryIn_fuse (b : Bytes) (d : Dev) : Kept (fateQueryIn b d) d := by
  unfold fateQueryIn
  dsimp only
  repeat' split
  all_goals simp

@[simp] theorem fateAnswerIn_fuse (b : Bytes) (d : Dev) : Kept (fateAnswerIn b d) d := by
  unfold fateAnswerIn
  dsimp only
  repeat' split
  all_goals simp

@[simp] theorem timeIn_fuse (b : Bytes) (d : Dev) : Kept (timeIn b d) d := by
  unfold timeIn
  exact ⟨rfl, rfl⟩

@[simp] theorem recordIn_fuse (n : Nat) (b : Bytes) (d : Dev) : Kept (recordIn n b d) d := by
  unfold recordIn
  simp

@[simp] theorem amberIn_fuse (n : Nat) (b : Bytes) (d : Dev) : Kept (amberIn n b d) d := by
  unfold amberIn
  simp

@[simp] theorem deliver_fuse (t : FType) (n : Nat) (b : Bytes) (d : Dev) : Kept (deliver t n b d) d := by
  unfold deliver
  repeat' split
  all_goals simp

@[simp] theorem deliverFrom_fuse (n : Nat) : ∀ (k : Nat) (t : FType) (f : Frame) (d : Dev), (deliverFrom n k t f d).otp = d.otp ∧ (deliverFrom n k t f d).boot.cfgMin = d.boot.cfgMin := by
  intro k
  induction k with
  | zero => intro t f d; exact ⟨rfl, rfl⟩
  | succ k ih =>
    intro t f d
    unfold deliverFrom
    dsimp only
    split <;> simp [ih]

@[simp] theorem frameHere_fuse (t : FType) (f : Frame) (d0 : Dev) : Kept (frameHere t f d0) d0 := by
  unfold frameHere
  simp

@[simp] theorem frameIn_fuse (t : FType) (f : Frame) (d : Dev) : Kept (frameIn t f d) d := by
  unfold frameIn
  simp

@[simp] theorem heartbeatGo_fuse (d : Dev) : Kept (heartbeatGo d) d := by
  unfold heartbeatGo
  ((try dsimp only) <;> (repeat' split) <;> (first | (simp [foldl_fuse]; done) | exact ⟨rfl, rfl⟩ | (refine foldl_fuse _ _ _ fun a x => ?_; ((try dsimp only) <;> (repeat' split) <;> (first | (simp [foldl_fuse]; done) | exact ⟨rfl, rfl⟩))) | skip))

@[simp] theorem timeTickGo_fuse (d : Dev) : Kept (timeTickGo d) d := by
  unfold timeTickGo
  refine foldl_fuse _ _ _ fun a x => ?_
  repeat' split
  all_goals simp

@[simp] theorem serdesDown_fuse (d : Dev) : Kept (serdesDown d) d := by
  unfold serdesDown
  ((try dsimp only) <;> (repeat' split) <;> (first | (simp [foldl_fuse]; done) | exact ⟨rfl, rfl⟩ | (refine foldl_fuse _ _ _ fun a x => ?_; ((try dsimp only) <;> (repeat' split) <;> (first | (simp [foldl_fuse]; done) | exact ⟨rfl, rfl⟩))) | skip))

@[simp] theorem linkOff_fuse (d : Dev) : Kept (linkOff d) d := by
  unfold linkOff
  exact ⟨rfl, rfl⟩

end Sys2Proof.Machine
end

