-- ==== Sys2Proof/Laws/FuseCores.lean ====
section
/-!
SUPPORT. What the cores, their micro-ops and the modular engines leave of OTP and of the smallest release that may run: all of it.
-/
set_option linter.unusedSimpArgs false
set_option linter.unusedVariables false
namespace Sys2Proof.Machine

@[simp] theorem freeUse_keeps (p : Px) (n : Nat) : Kept (freeUse p n).d p.d := by
  unfold freeUse
  exact ⟨rfl, rfl⟩

@[simp] theorem tileWrite_keeps (p : Px) (a : Nat) (n : Nat) (v : Nat) : Kept (tileWrite p a n v).d p.d := by
  unfold tileWrite
  repeat' split
  all_goals simp

@[simp] theorem markUse_fuse (d : Dev) (cluster : Bool) (c : Nat) (t : Nat) (u : Use) : Kept (markUse d cluster c t u) d := by
  unfold markUse
  ((try dsimp only) <;> (repeat' split) <;> (first | (simp [foldl_fuse]; done) | exact ⟨rfl, rfl⟩ | (refine foldl_fuse _ _ _ fun a x => ?_; ((try dsimp only) <;> (repeat' split) <;> (first | (simp [foldl_fuse]; done) | exact ⟨rfl, rfl⟩))) | skip))

theorem pyHere_dev {d : Dev} {c t : Nat} {p : Px} (h : pyHere d c t = some p) : p.d = d := by
  unfold pyHere at h
  dsimp only at h
  repeat' split at h
  all_goals first | (cases h; rfl) | cases h

@[simp] theorem Px.save_fuse (p : Px) : Kept p.save p.d := by
  unfold Px.save; simp

@[simp] theorem spend_keeps (p : Px) (gap : Nat) : Kept (spend p gap).d p.d := by
  unfold spend
  repeat' split
  all_goals simp

@[simp] theorem pyFault_fuse (p : Px) (st det : U16) : Kept (pyFault p st det) p.d := by
  unfold pyFault; simp

@[simp] theorem endWait_keeps (p : Px) (since : Nat) : Kept (endWait p since).d p.d := by
  unfold endWait
  simp

@[simp] theorem pyHalt_fuse (p : Px) (st det : U16) : Kept (pyHalt p st det) p.d := by
  unfold pyHalt; simp

theorem pyRetire_fuse {d : Dev} (p : Px) (since : Option (PyWait × Nat)) (u : Use) (e : PyEnd) (k : Kept p.d d) (h : PyEnd.Keeps d e) :
    Kept (pyRetire p since u e) d := by
  unfold pyRetire
  split
  · exact (pyFault_fuse _ _ _).trans h
  · refine (pyHalt_fuse _ _ _).trans ((spend_keeps _ _).trans ?_)
    split
    · exact (endWait_keeps _ _).trans h
    · exact h
  · next q =>
    have g : ∀ x : Px, Kept x.d d → Kept (if x.yielded then { x with d := modCore x.d x.c fun k => { k with yieldT := x.t } } else x : Px).d d := by
      intro x hx
      split
      · exact Kept.trans (modCore_fuse _ _ _) hx
      · exact hx
    have m : ∀ (x : Px) (c : Bool) (n t : Nat), Kept x.d d → Kept (markUse x.save c n t u) d := fun x c n t hx =>
      Kept.trans (markUse_fuse _ _ _ _ _) ((Px.save_fuse _).trans hx)
    have gq : Kept (match since with | some w => endWait q w.2 | none => q).d d := by
      split
      · exact (endWait_keeps _ _).trans h
      · exact h
    exact kept_ite (Kept.trans (dealYield_fuse _ _) (m _ _ _ _ (g _ ((spend_keeps _ _).trans gq)))) (m _ _ _ _ (g _ ((spend_keeps _ _).trans gq)))
  · split
    · split
      · exact k
      · exact (Px.save_fuse _).trans h
    · split
      · exact Kept.trans (failOn_fuse _ _ _ _ _) k
      · dsimp only
        split
        · exact Kept.trans (markUse_fuse _ _ _ _ _) ((Px.save_fuse _).trans (Kept.trans (modCore_fuse _ _ _) ((spend_keeps _ _).trans h)))
        · exact Kept.trans (dealYield_fuse _ _)
            (Kept.trans (markUse_fuse _ _ _ _ _) ((Px.save_fuse _).trans (Kept.trans (modCore_fuse _ _ _) ((spend_keeps _ _).trans h))))

theorem pyIssue_fuse {d : Dev} (p : Px) (since : Option (PyWait × Nat)) (op : PyOp) (k : Kept p.d d) (h : ∀ p, PyEnd.Keeps p.d (op.body p)) :
    Kept (pyIssue p since op) d := by
  have tr : ∀ (e : PyEnd), PyEnd.Keeps p.d e → PyEnd.Keeps d e := by
    intro e he; cases e <;> exact Kept.trans he k
  unfold pyIssue
  refine kept_ite ?_ (kept_ite ?_ (pyRetire_fuse _ _ _ _ k (tr _ (h p)))) <;> exact (pyFault_fuse _ _ _).trans k

theorem pyRun_fuse (a : PyAt) (word : U32) (op : PyOp) (d : Dev) (h : ∀ p, PyEnd.Keeps p.d (op.body p)) : Kept (pyRun a word op d) d := by
  unfold pyRun
  split
  · exact ⟨rfl, rfl⟩
  · next p0 e =>
    refine kept_ite ⟨rfl, rfl⟩ ?_
    dsimp only
    generalize hd : modCore (stepTaken d a.core) a.core _ = d1
    have k : Kept d1 d := by rw [← hd]; exact Kept.trans (modCore_fuse _ _ _) (stepTaken_fuse _ _)
    split
    · exact Kept.trans (failJob_fuse _ _ _ _) k
    · exact kept_ite (Kept.trans (failOn_fuse _ _ _ _ _) k) (pyIssue_fuse _ _ _ k h)

@[simp] theorem scalarA_keeps (lat : Nat) (unit : Nat) (occ : Nat) (op : U64 → U64 → U64) (f : FmtA) (p : Px) :
    PyEnd.Keeps p.d ((scalarA lat unit occ op f).body p) := by
  unfold scalarA
  exact ⟨rfl, rfl⟩

@[simp] theorem scalarI_keeps (op : U64 → U64 → U64) (f : FmtI) (p : Px) : PyEnd.Keeps p.d ((scalarI op f).body p) := by
  unfold scalarI
  exact ⟨rfl, rfl⟩

@[simp] theorem opLui_keeps (f : FmtU) (p : Px) : PyEnd.Keeps p.d ((opLui f).body p) := by
  unfold opLui
  exact ⟨rfl, rfl⟩

@[simp] theorem opCsel_keeps (f : FmtA) (p : Px) : PyEnd.Keeps p.d ((opCsel f).body p) := by
  unfold opCsel
  exact ⟨rfl, rfl⟩

@[simp] theorem scalarLoad_keeps (n : Nat) (f : FmtI) (p : Px) : PyEnd.Keeps p.d ((scalarLoad n f).body p) := by
  unfold scalarLoad
  dsimp only
  repeat' split
  all_goals simp

@[simp] theorem scalarStore_keeps (n : Nat) (f : FmtS) (p : Px) : PyEnd.Keeps p.d ((scalarStore n f).body p) := by
  unfold scalarStore
  simp

theorem pyJump_keeps {d : Dev} (p : Px) (t : Int) (h : Kept p.d d) : PyEnd.Keeps d (pyJump p t) := by
  unfold pyJump; split <;> exact h

@[simp] theorem branch_keeps (cond : U64 → U64 → Bool) (f : FmtS) (p : Px) : PyEnd.Keeps p.d ((branch cond f).body p) := by
  unfold branch; dsimp only; split
  · exact pyJump_keeps _ _ ⟨rfl, rfl⟩
  · exact ⟨rfl, rfl⟩

@[simp] theorem opJal_keeps (f : FmtJ) (p : Px) : PyEnd.Keeps p.d ((opJal f).body p) := pyJump_keeps _ _ ⟨rfl, rfl⟩

@[simp] theorem opJalr_keeps (f : FmtI) (p : Px) : PyEnd.Keeps p.d ((opJalr f).body p) := pyJump_keeps _ _ ⟨rfl, rfl⟩

@[simp] theorem opVcfg_keeps (f : FmtI) (p : Px) : PyEnd.Keeps p.d ((opVcfg f).body p) := by
  unfold opVcfg
  exact ⟨rfl, rfl⟩

@[simp] theorem ccrMark_keeps (p : Px) (n : Nat) : Kept (ccrMark p n).d p.d := by
  unfold ccrMark
  simp

@[simp] theorem opCcrr_keeps (f : FmtI) (p : Px) : PyEnd.Keeps p.d ((opCcrr f).body p) := by
  unfold opCcrr
  exact ⟨rfl, rfl⟩

@[simp] theorem opCcrw_keeps (f : FmtI) (p : Px) : PyEnd.Keeps p.d ((opCcrw f).body p) := by
  unfold opCcrw
  simp

@[simp] theorem opYield_keeps  (p : Px) : PyEnd.Keeps p.d ((opYield ).body p) := by
  unfold opYield
  simp

@[simp] theorem opHalt_keeps  (p : Px) : PyEnd.Keeps p.d ((opHalt ).body p) := by
  unfold opHalt
  simp

@[simp] theorem opBar_keeps (f : FmtI) (p : Px) : PyEnd.Keeps p.d ((opBar f).body p) := by
  unfold opBar; dsimp only
  split
  · exact ⟨rfl, rfl⟩
  split
  · exact ⟨rfl, rfl⟩
  · exact Kept.foldl (d := p.d) fun a x => by simp

@[simp] theorem opIdle_keeps (f : FmtI) (p : Px) : PyEnd.Keeps p.d ((opIdle f).body p) := by
  unfold opIdle
  exact ⟨rfl, rfl⟩

@[simp] theorem opAdd_keeps (x0 : FmtA) (p : Px) : PyEnd.Keeps p.d ((opAdd x0).body p) := by
  unfold opAdd
  exact ⟨rfl, rfl⟩

@[simp] theorem opSub_keeps (x0 : FmtA) (p : Px) : PyEnd.Keeps p.d ((opSub x0).body p) := by
  unfold opSub
  exact ⟨rfl, rfl⟩

@[simp] theorem opAnd_keeps (x0 : FmtA) (p : Px) : PyEnd.Keeps p.d ((opAnd x0).body p) := by
  unfold opAnd
  exact ⟨rfl, rfl⟩

@[simp] theorem opOr_keeps (x0 : FmtA) (p : Px) : PyEnd.Keeps p.d ((opOr x0).body p) := by
  unfold opOr
  exact ⟨rfl, rfl⟩

@[simp] theorem opXor_keeps (x0 : FmtA) (p : Px) : PyEnd.Keeps p.d ((opXor x0).body p) := by
  unfold opXor
  exact ⟨rfl, rfl⟩

@[simp] theorem opSll_keeps (x0 : FmtA) (p : Px) : PyEnd.Keeps p.d ((opSll x0).body p) := by
  unfold opSll
  exact ⟨rfl, rfl⟩

@[simp] theorem opSrl_keeps (x0 : FmtA) (p : Px) : PyEnd.Keeps p.d ((opSrl x0).body p) := by
  unfold opSrl
  exact ⟨rfl, rfl⟩

@[simp] theorem opSra_keeps (x0 : FmtA) (p : Px) : PyEnd.Keeps p.d ((opSra x0).body p) := by
  unfold opSra
  exact ⟨rfl, rfl⟩

@[simp] theorem opAddi_keeps (x0 : FmtI) (p : Px) : PyEnd.Keeps p.d ((opAddi x0).body p) := by
  unfold opAddi
  exact ⟨rfl, rfl⟩

@[simp] theorem opAndi_keeps (x0 : FmtI) (p : Px) : PyEnd.Keeps p.d ((opAndi x0).body p) := by
  unfold opAndi
  exact ⟨rfl, rfl⟩

@[simp] theorem opOri_keeps (x0 : FmtI) (p : Px) : PyEnd.Keeps p.d ((opOri x0).body p) := by
  unfold opOri
  exact ⟨rfl, rfl⟩

@[simp] theorem opXori_keeps (x0 : FmtI) (p : Px) : PyEnd.Keeps p.d ((opXori x0).body p) := by
  unfold opXori
  exact ⟨rfl, rfl⟩

@[simp] theorem opSlli_keeps (x0 : FmtI) (p : Px) : PyEnd.Keeps p.d ((opSlli x0).body p) := by
  unfold opSlli
  exact ⟨rfl, rfl⟩

@[simp] theorem opSrli_keeps (x0 : FmtI) (p : Px) : PyEnd.Keeps p.d ((opSrli x0).body p) := by
  unfold opSrli
  exact ⟨rfl, rfl⟩

@[simp] theorem opSrai_keeps (x0 : FmtI) (p : Px) : PyEnd.Keeps p.d ((opSrai x0).body p) := by
  unfold opSrai
  exact ⟨rfl, rfl⟩

@[simp] theorem opSlti_keeps (x0 : FmtI) (p : Px) : PyEnd.Keeps p.d ((opSlti x0).body p) := by
  unfold opSlti
  exact ⟨rfl, rfl⟩

@[simp] theorem opMul_keeps (x0 : FmtA) (p : Px) : PyEnd.Keeps p.d ((opMul x0).body p) := by
  unfold opMul
  exact ⟨rfl, rfl⟩

@[simp] theorem opMulh_keeps (x0 : FmtA) (p : Px) : PyEnd.Keeps p.d ((opMulh x0).body p) := by
  unfold opMulh
  exact ⟨rfl, rfl⟩

@[simp] theorem opMulhu_keeps (x0 : FmtA) (p : Px) : PyEnd.Keeps p.d ((opMulhu x0).body p) := by
  unfold opMulhu
  exact ⟨rfl, rfl⟩

@[simp] theorem opDiv_keeps (x0 : FmtA) (p : Px) : PyEnd.Keeps p.d ((opDiv x0).body p) := by
  unfold opDiv
  exact ⟨rfl, rfl⟩

@[simp] theorem opDivu_keeps (x0 : FmtA) (p : Px) : PyEnd.Keeps p.d ((opDivu x0).body p) := by
  unfold opDivu
  exact ⟨rfl, rfl⟩

@[simp] theorem opRem_keeps (x0 : FmtA) (p : Px) : PyEnd.Keeps p.d ((opRem x0).body p) := by
  unfold opRem
  exact ⟨rfl, rfl⟩

@[simp] theorem opRemu_keeps (x0 : FmtA) (p : Px) : PyEnd.Keeps p.d ((opRemu x0).body p) := by
  unfold opRemu
  exact ⟨rfl, rfl⟩

@[simp] theorem opSlt_keeps (x0 : FmtA) (p : Px) : PyEnd.Keeps p.d ((opSlt x0).body p) := by
  unfold opSlt
  exact ⟨rfl, rfl⟩

@[simp] theorem opSltu_keeps (x0 : FmtA) (p : Px) : PyEnd.Keeps p.d ((opSltu x0).body p) := by
  unfold opSltu
  exact ⟨rfl, rfl⟩

@[simp] theorem opSeq_keeps (x0 : FmtA) (p : Px) : PyEnd.Keeps p.d ((opSeq x0).body p) := by
  unfold opSeq
  exact ⟨rfl, rfl⟩

@[simp] theorem opMin_keeps (x0 : FmtA) (p : Px) : PyEnd.Keeps p.d ((opMin x0).body p) := by
  unfold opMin
  exact ⟨rfl, rfl⟩

@[simp] theorem opMax_keeps (x0 : FmtA) (p : Px) : PyEnd.Keeps p.d ((opMax x0).body p) := by
  unfold opMax
  exact ⟨rfl, rfl⟩

@[simp] theorem opMinu_keeps (x0 : FmtA) (p : Px) : PyEnd.Keeps p.d ((opMinu x0).body p) := by
  unfold opMinu
  exact ⟨rfl, rfl⟩

@[simp] theorem opMaxu_keeps (x0 : FmtA) (p : Px) : PyEnd.Keeps p.d ((opMaxu x0).body p) := by
  unfold opMaxu
  exact ⟨rfl, rfl⟩

@[simp] theorem opLd8_keeps (x0 : FmtI) (p : Px) : PyEnd.Keeps p.d ((opLd8 x0).body p) := by
  unfold opLd8
  simp

@[simp] theorem opLd16_keeps (x0 : FmtI) (p : Px) : PyEnd.Keeps p.d ((opLd16 x0).body p) := by
  unfold opLd16
  simp

@[simp] theorem opLd32_keeps (x0 : FmtI) (p : Px) : PyEnd.Keeps p.d ((opLd32 x0).body p) := by
  unfold opLd32
  simp

@[simp] theorem opLd64_keeps (x0 : FmtI) (p : Px) : PyEnd.Keeps p.d ((opLd64 x0).body p) := by
  unfold opLd64
  simp

@[simp] theorem opSt8_keeps (x0 : FmtS) (p : Px) : PyEnd.Keeps p.d ((opSt8 x0).body p) := by
  unfold opSt8
  simp

@[simp] theorem opSt16_keeps (x0 : FmtS) (p : Px) : PyEnd.Keeps p.d ((opSt16 x0).body p) := by
  unfold opSt16
  simp

@[simp] theorem opSt32_keeps (x0 : FmtS) (p : Px) : PyEnd.Keeps p.d ((opSt32 x0).body p) := by
  unfold opSt32
  simp

@[simp] theorem opSt64_keeps (x0 : FmtS) (p : Px) : PyEnd.Keeps p.d ((opSt64 x0).body p) := by
  unfold opSt64
  simp

@[simp] theorem opBeq_keeps (x0 : FmtS) (p : Px) : PyEnd.Keeps p.d ((opBeq x0).body p) := by
  unfold opBeq
  simp

@[simp] theorem opBne_keeps (x0 : FmtS) (p : Px) : PyEnd.Keeps p.d ((opBne x0).body p) := by
  unfold opBne
  simp

@[simp] theorem opBlt_keeps (x0 : FmtS) (p : Px) : PyEnd.Keeps p.d ((opBlt x0).body p) := by
  unfold opBlt
  simp

@[simp] theorem opBge_keeps (x0 : FmtS) (p : Px) : PyEnd.Keeps p.d ((opBge x0).body p) := by
  unfold opBge
  simp

@[simp] theorem opBltu_keeps (x0 : FmtS) (p : Px) : PyEnd.Keeps p.d ((opBltu x0).body p) := by
  unfold opBltu
  simp

@[simp] theorem opBgeu_keeps (x0 : FmtS) (p : Px) : PyEnd.Keeps p.d ((opBgeu x0).body p) := by
  unfold opBgeu
  simp

@[simp] theorem vecA_keeps (lat : Nat) (unit : Nat) (occ : Nat) (op : Px → Nat → Nat → Nat → Nat) (f : FmtA) (acc : Bool) (ok : (PyRegs → Bool)) (q : Bool) (g : Bool) (p : Px) :
    PyEnd.Keeps p.d ((vecA lat unit occ op f acc ok q g).body p) := by
  unfold vecA
  exact ⟨rfl, rfl⟩

@[simp] theorem vecU_keeps (lat : Nat) (unit : Nat) (occ : Nat) (op : Px → Nat → Nat) (f : FmtA) (ok : (PyRegs → Bool)) (q : Bool) (g : Bool) (p : Px) :
    PyEnd.Keeps p.d ((vecU lat unit occ op f ok q g).body p) := by
  unfold vecU
  exact ⟨rfl, rfl⟩

@[simp] theorem vecCmp_keeps (op : Nat → Nat → Nat → Bool) (f : FmtA) (p : Px) : PyEnd.Keeps p.d ((vecCmp op f).body p) := by
  unfold vecCmp
  exact ⟨rfl, rfl⟩

@[simp] theorem maskBits_keeps (op : BitVec 256 → BitVec 256 → BitVec 256) (f : FmtA) (p : Px) : PyEnd.Keeps p.d ((maskBits op f).body p) := by
  unfold maskBits
  exact ⟨rfl, rfl⟩

@[simp] theorem opVsel_keeps (f : FmtA) (p : Px) : PyEnd.Keeps p.d ((opVsel f).body p) := by
  unfold opVsel
  exact ⟨rfl, rfl⟩

@[simp] theorem opVbcast_keeps (f : FmtA) (p : Px) : PyEnd.Keeps p.d ((opVbcast f).body p) := by
  unfold opVbcast
  exact ⟨rfl, rfl⟩

@[simp] theorem opVext_keeps (f : FmtA) (p : Px) : PyEnd.Keeps p.d ((opVext f).body p) := by
  unfold opVext
  exact ⟨rfl, rfl⟩

@[simp] theorem opVins_keeps (f : FmtA) (p : Px) : PyEnd.Keeps p.d ((opVins f).body p) := by
  unfold opVins
  exact ⟨rfl, rfl⟩

@[simp] theorem reduce_keeps (op : Nat → Nat → Nat) (f : FmtA) (p : Px) : PyEnd.Keeps p.d ((reduce op f).body p) := by
  unfold reduce
  exact ⟨rfl, rfl⟩

theorem stopEnd_keeps {d : Dev} (p : Px) (k : Nat) (s : ElStop) (h : Kept p.d d) : PyEnd.Keeps d (stopEnd p k s) := by
  unfold stopEnd; split <;> exact h

@[simp] theorem vecLoad_keeps (al extra lat : Nat) (f : FmtM) (p : Px) : PyEnd.Keeps p.d ((vecLoad al extra lat f).body p) := by
  unfold vecLoad; dsimp only
  generalize (if al = 0 then sewOf p.r / 8 else al) = n
  split
  · exact ⟨rfl, rfl⟩
  split
  · exact stopEnd_keeps _ _ _ (by simp)
  · simp

@[simp] theorem vecStore_keeps (al extra : Nat) (f : FmtM) (p : Px) : PyEnd.Keeps p.d ((vecStore al extra f).body p) := by
  unfold vecStore; dsimp only
  generalize (if al = 0 then sewOf p.r / 8 else al) = n
  split
  · exact ⟨rfl, rfl⟩
  split
  · exact stopEnd_keeps _ _ _ (foldl_keeps _ _ _ fun a x => by simp)
  · exact foldl_keeps _ _ _ fun a x => by simp

@[simp] theorem opVkld_keeps (f : FmtM) (p : Px) : PyEnd.Keeps p.d ((opVkld f).body p) := by
  unfold opVkld; dsimp only
  split
  · exact ⟨rfl, rfl⟩
  split
  · exact stopEnd_keeps _ _ _ ⟨rfl, rfl⟩
  · simp

@[simp] theorem opVkst_keeps (f : FmtM) (p : Px) : PyEnd.Keeps p.d ((opVkst f).body p) := by
  unfold opVkst; dsimp only
  split
  · exact ⟨rfl, rfl⟩
  split
  · exact stopEnd_keeps _ _ _ ⟨rfl, rfl⟩
  · simp

@[simp] theorem opVadd_keeps (f : FmtA) (p : Px) : PyEnd.Keeps p.d ((opVadd f).body p) := by
  unfold opVadd
  exact ⟨rfl, rfl⟩

@[simp] theorem opVsub_keeps (f : FmtA) (p : Px) : PyEnd.Keeps p.d ((opVsub f).body p) := by
  unfold opVsub
  exact ⟨rfl, rfl⟩

@[simp] theorem opVand_keeps (f : FmtA) (p : Px) : PyEnd.Keeps p.d ((opVand f).body p) := by
  unfold opVand
  exact ⟨rfl, rfl⟩

@[simp] theorem opVor_keeps (f : FmtA) (p : Px) : PyEnd.Keeps p.d ((opVor f).body p) := by
  unfold opVor
  exact ⟨rfl, rfl⟩

@[simp] theorem opVxor_keeps (f : FmtA) (p : Px) : PyEnd.Keeps p.d ((opVxor f).body p) := by
  unfold opVxor
  exact ⟨rfl, rfl⟩

@[simp] theorem opVsll_keeps (f : FmtA) (p : Px) : PyEnd.Keeps p.d ((opVsll f).body p) := by
  unfold opVsll
  exact ⟨rfl, rfl⟩

@[simp] theorem opVsrl_keeps (f : FmtA) (p : Px) : PyEnd.Keeps p.d ((opVsrl f).body p) := by
  unfold opVsrl
  exact ⟨rfl, rfl⟩

@[simp] theorem opVsra_keeps (f : FmtA) (p : Px) : PyEnd.Keeps p.d ((opVsra f).body p) := by
  unfold opVsra
  exact ⟨rfl, rfl⟩

@[simp] theorem opVimul_keeps (f : FmtA) (p : Px) : PyEnd.Keeps p.d ((opVimul f).body p) := by
  unfold opVimul
  exact ⟨rfl, rfl⟩

@[simp] theorem opVimulh_keeps (f : FmtA) (p : Px) : PyEnd.Keeps p.d ((opVimulh f).body p) := by
  unfold opVimulh
  exact ⟨rfl, rfl⟩

@[simp] theorem opVimulhu_keeps (f : FmtA) (p : Px) : PyEnd.Keeps p.d ((opVimulhu f).body p) := by
  unfold opVimulhu
  exact ⟨rfl, rfl⟩

@[simp] theorem opVimin_keeps (f : FmtA) (p : Px) : PyEnd.Keeps p.d ((opVimin f).body p) := by
  unfold opVimin
  exact ⟨rfl, rfl⟩

@[simp] theorem opVimax_keeps (f : FmtA) (p : Px) : PyEnd.Keeps p.d ((opVimax f).body p) := by
  unfold opVimax
  exact ⟨rfl, rfl⟩

@[simp] theorem opViminu_keeps (f : FmtA) (p : Px) : PyEnd.Keeps p.d ((opViminu f).body p) := by
  unfold opViminu
  exact ⟨rfl, rfl⟩

@[simp] theorem opVimaxu_keeps (f : FmtA) (p : Px) : PyEnd.Keeps p.d ((opVimaxu f).body p) := by
  unfold opVimaxu
  exact ⟨rfl, rfl⟩

@[simp] theorem opVseq_keeps (x0 : FmtA) (p : Px) : PyEnd.Keeps p.d ((opVseq x0).body p) := by
  unfold opVseq
  exact ⟨rfl, rfl⟩

@[simp] theorem opVsne_keeps (x0 : FmtA) (p : Px) : PyEnd.Keeps p.d ((opVsne x0).body p) := by
  unfold opVsne
  exact ⟨rfl, rfl⟩

@[simp] theorem opVslt_keeps (x0 : FmtA) (p : Px) : PyEnd.Keeps p.d ((opVslt x0).body p) := by
  unfold opVslt
  exact ⟨rfl, rfl⟩

@[simp] theorem opVsltu_keeps (x0 : FmtA) (p : Px) : PyEnd.Keeps p.d ((opVsltu x0).body p) := by
  unfold opVsltu
  exact ⟨rfl, rfl⟩

@[simp] theorem opVkand_keeps (x0 : FmtA) (p : Px) : PyEnd.Keeps p.d ((opVkand x0).body p) := by
  unfold opVkand
  exact ⟨rfl, rfl⟩

@[simp] theorem opVkor_keeps (x0 : FmtA) (p : Px) : PyEnd.Keeps p.d ((opVkor x0).body p) := by
  unfold opVkor
  exact ⟨rfl, rfl⟩

@[simp] theorem opVkxor_keeps (x0 : FmtA) (p : Px) : PyEnd.Keeps p.d ((opVkxor x0).body p) := by
  unfold opVkxor
  exact ⟨rfl, rfl⟩

@[simp] theorem opVknot_keeps (x0 : FmtA) (p : Px) : PyEnd.Keeps p.d ((opVknot x0).body p) := by
  unfold opVknot
  exact ⟨rfl, rfl⟩

@[simp] theorem opVld_keeps (x0 : FmtM) (p : Px) : PyEnd.Keeps p.d ((opVld x0).body p) := by
  unfold opVld
  simp

@[simp] theorem opVldu_keeps (x0 : FmtM) (p : Px) : PyEnd.Keeps p.d ((opVldu x0).body p) := by
  unfold opVldu
  simp

@[simp] theorem opVst_keeps (x0 : FmtM) (p : Px) : PyEnd.Keeps p.d ((opVst x0).body p) := by
  unfold opVst
  simp

@[simp] theorem opVstu_keeps (x0 : FmtM) (p : Px) : PyEnd.Keeps p.d ((opVstu x0).body p) := by
  unfold opVstu
  simp

@[simp] theorem opVpopc_keeps (f : FmtA) (p : Px) : PyEnd.Keeps p.d ((opVpopc f).body p) := by
  unfold opVpopc
  exact ⟨rfl, rfl⟩

@[simp] theorem opVredsum_keeps (x0 : FmtA) (p : Px) : PyEnd.Keeps p.d ((opVredsum x0).body p) := by
  unfold opVredsum
  exact ⟨rfl, rfl⟩

@[simp] theorem opVredxor_keeps (x0 : FmtA) (p : Px) : PyEnd.Keeps p.d ((opVredxor x0).body p) := by
  unfold opVredxor
  exact ⟨rfl, rfl⟩

@[simp] theorem opVredor_keeps (x0 : FmtA) (p : Px) : PyEnd.Keeps p.d ((opVredor x0).body p) := by
  unfold opVredor
  exact ⟨rfl, rfl⟩

@[simp] theorem vmA_keeps (lat : Nat) (unit : Nat) (op : PyRegs → Nat → Nat → Nat → Nat) (f : FmtA) (acc : Bool) (p : Px) :
    PyEnd.Keeps p.d ((vmA lat unit op f acc).body p) := by
  unfold vmA
  exact ⟨rfl, rfl⟩

@[simp] theorem vmU_keeps (lat : Nat) (unit : Nat) (op : PyRegs → Nat → Nat) (f : FmtA) (p : Px) : PyEnd.Keeps p.d ((vmU lat unit op f).body p) := by
  unfold vmU
  exact ⟨rfl, rfl⟩

@[simp] theorem bflyQ_keeps (op : PyRegs → Nat → Nat → Nat → Nat × Nat) (f : FmtQ) (p : Px) : PyEnd.Keeps p.d ((bflyQ op f).body p) := by
  unfold bflyQ
  exact ⟨rfl, rfl⟩

@[simp] theorem bflyT_keeps (op : PyRegs → Nat → Nat → Nat → Nat × Nat) (f : FmtT) (p : Px) : PyEnd.Keeps p.d ((bflyT op f).body p) := by
  unfold bflyT; dsimp only
  split
  · exact stopEnd_keeps _ _ _ (by simp)
  · simp

@[simp] theorem permT_keeps (lat : Nat) (useB : Bool) (op : Px → (Nat → Nat) → (Nat → Nat) → Nat → Nat) (f : FmtT) (p : Px) :
    PyEnd.Keeps p.d ((permT lat useB op f).body p) := by
  unfold permT
  exact ⟨rfl, rfl⟩

@[simp] theorem permPair_keeps (res : Nat → Nat → (Nat → Nat) → (Nat → Nat) → Nat → Nat × Nat) (f : FmtT) (p : Px) :
    PyEnd.Keeps p.d ((permPair res f).body p) := by
  unfold permPair
  exact ⟨rfl, rfl⟩

@[simp] theorem slide_keeps (op : Px → Nat → Nat → Nat) (f : FmtT) (p : Px) : PyEnd.Keeps p.d ((slide op f).body p) := by
  unfold slide
  exact ⟨rfl, rfl⟩

@[simp] theorem opVcompr_keeps (f : FmtA) (p : Px) : PyEnd.Keeps p.d ((opVcompr f).body p) := by
  unfold opVcompr
  exact ⟨rfl, rfl⟩

@[simp] theorem vgA_keeps (lat : Nat) (op : Nat → Nat → Nat → Nat → Nat) (f : FmtA) (acc : Bool) (p : Px) :
    PyEnd.Keeps p.d ((vgA lat op f acc).body p) := by
  unfold vgA
  exact ⟨rfl, rfl⟩

@[simp] theorem opVginv_keeps (f : FmtA) (p : Px) : PyEnd.Keeps p.d ((opVginv f).body p) := by
  unfold opVginv; dsimp only
  have h := vecU_keeps 12 uVX 4 (fun p => gfInv p.r.gfpoly.toNat (freeAt p 0)) f vgOk false true p
  split
  · next e => rw [e] at h; exact Kept.trans (by simp) h
  · exact h

@[simp] theorem opVgxp_keeps (f : FmtA) (p : Px) : PyEnd.Keeps p.d ((opVgxp f).body p) := by
  unfold opVgxp
  exact ⟨rfl, rfl⟩

@[simp] theorem opVmadd_keeps (f : FmtA) (p : Px) : PyEnd.Keeps p.d ((opVmadd f).body p) := by
  unfold opVmadd
  exact ⟨rfl, rfl⟩

@[simp] theorem opVmsub_keeps (f : FmtA) (p : Px) : PyEnd.Keeps p.d ((opVmsub f).body p) := by
  unfold opVmsub
  exact ⟨rfl, rfl⟩

@[simp] theorem opVmneg_keeps (f : FmtA) (p : Px) : PyEnd.Keeps p.d ((opVmneg f).body p) := by
  unfold opVmneg
  exact ⟨rfl, rfl⟩

@[simp] theorem opVmmul_keeps (f : FmtA) (p : Px) : PyEnd.Keeps p.d ((opVmmul f).body p) := by
  unfold opVmmul
  exact ⟨rfl, rfl⟩

@[simp] theorem opVmred_keeps (f : FmtA) (p : Px) : PyEnd.Keeps p.d ((opVmred f).body p) := by
  unfold opVmred
  exact ⟨rfl, rfl⟩

@[simp] theorem opVmtom_keeps (f : FmtA) (p : Px) : PyEnd.Keeps p.d ((opVmtom f).body p) := by
  unfold opVmtom
  exact ⟨rfl, rfl⟩

@[simp] theorem opVmfromm_keeps (f : FmtA) (p : Px) : PyEnd.Keeps p.d ((opVmfromm f).body p) := by
  unfold opVmfromm
  exact ⟨rfl, rfl⟩

@[simp] theorem opVmmac_keeps (f : FmtA) (p : Px) : PyEnd.Keeps p.d ((opVmmac f).body p) := by
  unfold opVmmac
  exact ⟨rfl, rfl⟩

@[simp] theorem opVmbf_keeps (x0 : FmtQ) (p : Px) : PyEnd.Keeps p.d ((opVmbf x0).body p) := by
  unfold opVmbf
  exact ⟨rfl, rfl⟩

@[simp] theorem opVmbfi_keeps (x0 : FmtQ) (p : Px) : PyEnd.Keeps p.d ((opVmbfi x0).body p) := by
  unfold opVmbfi
  exact ⟨rfl, rfl⟩

@[simp] theorem opVmbft_keeps (x0 : FmtT) (p : Px) : PyEnd.Keeps p.d ((opVmbft x0).body p) := by
  unfold opVmbft
  simp

@[simp] theorem opVmbfti_keeps (x0 : FmtT) (p : Px) : PyEnd.Keeps p.d ((opVmbfti x0).body p) := by
  unfold opVmbfti
  simp

@[simp] theorem opVzip_keeps (x0 : FmtT) (p : Px) : PyEnd.Keeps p.d ((opVzip x0).body p) := by
  unfold opVzip
  exact ⟨rfl, rfl⟩

@[simp] theorem opVunzip_keeps (x0 : FmtT) (p : Px) : PyEnd.Keeps p.d ((opVunzip x0).body p) := by
  unfold opVunzip
  exact ⟨rfl, rfl⟩

@[simp] theorem opVslup_keeps (f : FmtT) (p : Px) : PyEnd.Keeps p.d ((opVslup f).body p) := by
  unfold opVslup
  exact ⟨rfl, rfl⟩

@[simp] theorem opVsldn_keeps (f : FmtT) (p : Px) : PyEnd.Keeps p.d ((opVsldn f).body p) := by
  unfold opVsldn
  exact ⟨rfl, rfl⟩

@[simp] theorem opVperm_keeps (x0 : FmtT) (p : Px) : PyEnd.Keeps p.d ((opVperm x0).body p) := by
  unfold opVperm
  exact ⟨rfl, rfl⟩

@[simp] theorem opVrev_keeps (x0 : FmtT) (p : Px) : PyEnd.Keeps p.d ((opVrev x0).body p) := by
  unfold opVrev
  exact ⟨rfl, rfl⟩

@[simp] theorem opVbrev_keeps (x0 : FmtT) (p : Px) : PyEnd.Keeps p.d ((opVbrev x0).body p) := by
  unfold opVbrev
  exact ⟨rfl, rfl⟩

@[simp] theorem opVclmul_keeps (f : FmtA) (p : Px) : PyEnd.Keeps p.d ((opVclmul f).body p) := by
  unfold opVclmul
  exact ⟨rfl, rfl⟩

@[simp] theorem opVclmulh_keeps (f : FmtA) (p : Px) : PyEnd.Keeps p.d ((opVclmulh f).body p) := by
  unfold opVclmulh
  exact ⟨rfl, rfl⟩

@[simp] theorem opVgmul_keeps (f : FmtA) (p : Px) : PyEnd.Keeps p.d ((opVgmul f).body p) := by
  unfold opVgmul
  exact ⟨rfl, rfl⟩

@[simp] theorem opVgsqr_keeps (f : FmtA) (p : Px) : PyEnd.Keeps p.d ((opVgsqr f).body p) := by
  unfold opVgsqr
  exact ⟨rfl, rfl⟩

@[simp] theorem opVgmac_keeps (f : FmtA) (p : Px) : PyEnd.Keeps p.d ((opVgmac f).body p) := by
  unfold opVgmac
  exact ⟨rfl, rfl⟩

@[simp] theorem fltA_keeps (lat : Nat) (unit : Nat) (occ : Nat) (two : Bool) (op : BitVec 3 → Nat → U64 → U64 → FRes) (f : FmtA) (p : Px) :
    PyEnd.Keeps p.d ((fltA lat unit occ two op f).body p) := by
  unfold fltA
  exact ⟨rfl, rfl⟩

@[simp] theorem flt2_keeps (lat : Nat) (unit : Nat) (occ : Nat) (op : BitVec 3 → U64 → U64 → FRes) (x4 : FmtA) (p : Px) :
    PyEnd.Keeps p.d ((flt2 lat unit occ op x4).body p) := by
  unfold flt2
  exact ⟨rfl, rfl⟩

@[simp] theorem flt1_keeps (lat : Nat) (unit : Nat) (occ : Nat) (op : BitVec 3 → U64 → FRes) (x4 : FmtA) (p : Px) :
    PyEnd.Keeps p.d ((flt1 lat unit occ op x4).body p) := by
  unfold flt1
  exact ⟨rfl, rfl⟩

@[simp] theorem fltQ_keeps (op : BitVec 3 → U64 → U64 → U64 → FRes) (f : FmtQ) (p : Px) : PyEnd.Keeps p.d ((fltQ op f).body p) := by
  unfold fltQ
  exact ⟨rfl, rfl⟩

@[simp] theorem opFmvx_keeps (f : FmtA) (p : Px) : PyEnd.Keeps p.d ((opFmvx f).body p) := by
  unfold opFmvx
  exact ⟨rfl, rfl⟩

@[simp] theorem opFmvf_keeps (f : FmtA) (p : Px) : PyEnd.Keeps p.d ((opFmvf f).body p) := by
  unfold opFmvf
  exact ⟨rfl, rfl⟩

@[simp] theorem opFadd_keeps (x0 : FmtA) (p : Px) : PyEnd.Keeps p.d ((opFadd x0).body p) := by
  unfold opFadd
  exact ⟨rfl, rfl⟩

@[simp] theorem opFsub_keeps (x0 : FmtA) (p : Px) : PyEnd.Keeps p.d ((opFsub x0).body p) := by
  unfold opFsub
  exact ⟨rfl, rfl⟩

@[simp] theorem opFmul_keeps (x0 : FmtA) (p : Px) : PyEnd.Keeps p.d ((opFmul x0).body p) := by
  unfold opFmul
  exact ⟨rfl, rfl⟩

@[simp] theorem opFdiv_keeps (x0 : FmtA) (p : Px) : PyEnd.Keeps p.d ((opFdiv x0).body p) := by
  unfold opFdiv
  exact ⟨rfl, rfl⟩

@[simp] theorem opFsqrt_keeps (x0 : FmtA) (p : Px) : PyEnd.Keeps p.d ((opFsqrt x0).body p) := by
  unfold opFsqrt
  exact ⟨rfl, rfl⟩

@[simp] theorem opFmin_keeps (x0 : FmtA) (p : Px) : PyEnd.Keeps p.d ((opFmin x0).body p) := by
  unfold opFmin
  exact ⟨rfl, rfl⟩

@[simp] theorem opFmax_keeps (x0 : FmtA) (p : Px) : PyEnd.Keeps p.d ((opFmax x0).body p) := by
  unfold opFmax
  exact ⟨rfl, rfl⟩

@[simp] theorem opFneg_keeps (x0 : FmtA) (p : Px) : PyEnd.Keeps p.d ((opFneg x0).body p) := by
  unfold opFneg
  exact ⟨rfl, rfl⟩

@[simp] theorem opFma_keeps (x0 : FmtQ) (p : Px) : PyEnd.Keeps p.d ((opFma x0).body p) := by
  unfold opFma
  exact ⟨rfl, rfl⟩

@[simp] theorem opFms_keeps (x0 : FmtQ) (p : Px) : PyEnd.Keeps p.d ((opFms x0).body p) := by
  unfold opFms
  exact ⟨rfl, rfl⟩

@[simp] theorem opFnma_keeps (x0 : FmtQ) (p : Px) : PyEnd.Keeps p.d ((opFnma x0).body p) := by
  unfold opFnma
  exact ⟨rfl, rfl⟩

@[simp] theorem opFcvtf_keeps (x0 : FmtA) (p : Px) : PyEnd.Keeps p.d ((opFcvtf x0).body p) := by
  unfold opFcvtf
  exact ⟨rfl, rfl⟩

@[simp] theorem opFcvti_keeps (x0 : FmtA) (p : Px) : PyEnd.Keeps p.d ((opFcvti x0).body p) := by
  unfold opFcvti
  exact ⟨rfl, rfl⟩

@[simp] theorem opFrnd_keeps (x0 : FmtA) (p : Px) : PyEnd.Keeps p.d ((opFrnd x0).body p) := by
  unfold opFrnd
  exact ⟨rfl, rfl⟩

@[simp] theorem sampT_keeps (lat : Nat) (useB : Bool) (q : Bool) (ok : Nat → Bool) (op : Px → Nat → (Nat → Nat) → (Nat → Nat) → Nat → Nat) (f : FmtT) (p : Px) :
    PyEnd.Keeps p.d ((sampT lat useB q ok op f).body p) := by
  unfold sampT
  exact ⟨rfl, rfl⟩

@[simp] theorem sampPair_keeps (lat : Nat) (a : BitVec 5) (d : BitVec 5) (ok : Bool) (msk : Option Nat) (res : Px → Nat → Nat × Nat) (p : Px) :
    PyEnd.Keeps p.d ((sampPair lat a d ok msk res).body p) := by
  unfold sampPair
  exact ⟨rfl, rfl⟩

@[simp] theorem opVpack_keeps (f : FmtT) (p : Px) : PyEnd.Keeps p.d ((opVpack f).body p) := by
  unfold opVpack
  exact ⟨rfl, rfl⟩

@[simp] theorem opVunpk_keeps (f : FmtT) (p : Px) : PyEnd.Keeps p.d ((opVunpk f).body p) := by
  unfold opVunpk
  exact ⟨rfl, rfl⟩

@[simp] theorem opVrej_keeps (f : FmtA) (p : Px) : PyEnd.Keeps p.d ((opVrej f).body p) := by
  unfold opVrej
  exact ⟨rfl, rfl⟩

@[simp] theorem opVchkn_keeps (f : FmtA) (p : Px) : PyEnd.Keeps p.d ((opVchkn f).body p) := by
  unfold opVchkn
  exact ⟨rfl, rfl⟩

@[simp] theorem opVcbd_keeps (f : FmtT) (p : Px) : PyEnd.Keeps p.d ((opVcbd f).body p) := by
  unfold opVcbd
  exact ⟨rfl, rfl⟩

@[simp] theorem opVcompd_keeps (x0 : FmtT) (p : Px) : PyEnd.Keeps p.d ((opVcompd x0).body p) := by
  unfold opVcompd
  exact ⟨rfl, rfl⟩

@[simp] theorem opVdecd_keeps (x0 : FmtT) (p : Px) : PyEnd.Keeps p.d ((opVdecd x0).body p) := by
  unfold opVdecd
  exact ⟨rfl, rfl⟩

@[simp] theorem opVp2r_keeps (f : FmtA) (p : Px) : PyEnd.Keeps p.d ((opVp2r f).body p) := by
  unfold opVp2r
  exact ⟨rfl, rfl⟩

@[simp] theorem opVdcmp_keeps (f : FmtT) (p : Px) : PyEnd.Keeps p.d ((opVdcmp f).body p) := by
  unfold opVdcmp
  exact ⟨rfl, rfl⟩

@[simp] theorem opVhmake_keeps (x0 : FmtT) (p : Px) : PyEnd.Keeps p.d ((opVhmake x0).body p) := by
  unfold opVhmake
  exact ⟨rfl, rfl⟩

@[simp] theorem opVhuse_keeps (x0 : FmtT) (p : Px) : PyEnd.Keeps p.d ((opVhuse x0).body p) := by
  unfold opVhuse
  exact ⟨rfl, rfl⟩

@[simp] theorem hashPut_keeps (p : Px) (u : Nat) (f : HashTime → HashTime) : Kept (hashPut p u f).d p.d := by
  unfold hashPut
  simp

@[simp] theorem kuRun_keeps (p : Px) (u : Nat) : Kept (kuRun p u).d p.d := by
  unfold kuRun
  simp

@[simp] theorem opHinit_keeps (f : FmtH) (p : Px) : PyEnd.Keeps p.d ((opHinit f).body p) := by
  unfold opHinit
  simp

@[simp] theorem opHabs_keeps (f : FmtH) (p : Px) : PyEnd.Keeps p.d ((opHabs f).body p) := by
  unfold opHabs
  simp

@[simp] theorem opHsqz_keeps (f : FmtH) (p : Px) : PyEnd.Keeps p.d ((opHsqz f).body p) := by
  unfold opHsqz
  repeat' split
  all_goals simp

@[simp] theorem opHsha_keeps (f : FmtH) (p : Px) : PyEnd.Keeps p.d ((opHsha f).body p) := by
  unfold opHsha
  simp

@[simp] theorem opHdig_keeps (f : FmtH) (p : Px) : PyEnd.Keeps p.d ((opHdig f).body p) := by
  unfold opHdig
  exact ⟨rfl, rfl⟩

@[simp] theorem mxTake_keeps (p : Px) (n : Nat) : Kept (mxTake p n).d p.d := by
  unfold mxTake
  exact ⟨rfl, rfl⟩

@[simp] theorem opSrnd_keeps (f : FmtK) (p : Px) : PyEnd.Keeps p.d ((opSrnd f).body p) := by
  unfold opSrnd
  exact ⟨rfl, rfl⟩

@[simp] theorem reshare_keeps (p : Px) (k : Sharing) (d : BitVec 5) (n : Nat) (val : Nat → Nat) : Kept (reshare p k d n val).d p.d := by
  unfold reshare
  exact ⟨rfl, rfl⟩

@[simp] theorem shareOp_keeps (lat occ words : Nat → Nat) (useB accD bGroup dGroup q : Bool) (ok : PyRegs → Bool) (body : Px → Px) (f : FmtK)
    (p : Px) (h : Kept (body p).d p.d) : PyEnd.Keeps p.d ((shareOp lat occ words useB accD bGroup dGroup q ok body f).body p) := by
  unfold shareOp; dsimp only
  exact Kept.trans (by simp) h

@[simp] theorem opSref_keeps (f : FmtK) (p : Px) : PyEnd.Keeps p.d ((opSref f).body p) := by
  unfold opSref
  exact ⟨rfl, rfl⟩

@[simp] theorem opSand_keeps (f : FmtK) (p : Px) : PyEnd.Keeps p.d ((opSand f).body p) := by
  unfold opSand
  exact ⟨rfl, rfl⟩

@[simp] theorem opSa2b_keeps (f : FmtK) (p : Px) : PyEnd.Keeps p.d ((opSa2b f).body p) := by
  unfold opSa2b
  exact ⟨rfl, rfl⟩

@[simp] theorem opSb2a_keeps (f : FmtK) (p : Px) : PyEnd.Keeps p.d ((opSb2a f).body p) := by
  unfold opSb2a
  exact ⟨rfl, rfl⟩

@[simp] theorem opScmp_keeps (f : FmtK) (p : Px) : PyEnd.Keeps p.d ((opScmp f).body p) := by
  unfold opScmp
  exact ⟨rfl, rfl⟩

@[simp] theorem opSunm_keeps (f : FmtK) (p : Px) : PyEnd.Keeps p.d ((opSunm f).body p) := by
  unfold opSunm
  exact ⟨rfl, rfl⟩

theorem jio_keeps (reads : List Nat) (writes : List (Nat × Nat)) (unit occ : Nat) (legal : Px → Bool) (body : Px → PyEnd) (p : Px)
    (h : PyEnd.Keeps p.d (body p)) : PyEnd.Keeps p.d ((jio reads writes unit occ legal body).body p) := h

@[simp] theorem jio_body (reads : List Nat) (writes : List (Nat × Nat)) (unit occ : Nat) (legal : Px → Bool) (body : Px → PyEnd) :
    (jio reads writes unit occ legal body).body = body := rfl

@[simp] theorem opJwait_keeps (f : FmtT) (p : Px) : PyEnd.Keeps p.d ((opJwait f).body p) := by
  unfold opJwait
  simp

@[simp] theorem opJrel_keeps (f : FmtT) (p : Px) : PyEnd.Keeps p.d ((opJrel f).body p) := by
  unfold opJrel
  simp

@[simp] theorem opJout_keeps (f : FmtT) (p : Px) : PyEnd.Keeps p.d ((opJout f).body p) := by
  unfold opJout
  simp

@[simp] theorem opJkey_keeps (f : FmtT) (p : Px) : PyEnd.Keeps p.d ((opJkey f).body p) := by
  unfold opJkey
  simp

@[simp] theorem opJkput_keeps (f : FmtT) (p : Px) : PyEnd.Keeps p.d ((opJkput f).body p) := by
  unfold opJkput
  simp

@[simp] theorem newObj_fuse (p : Px) (d : Dev) : Kept (newObj p d).2 d := by
  unfold newObj
  repeat' split
  all_goals simp

@[simp] theorem opJkdone_keeps (f : FmtT) (p : Px) : PyEnd.Keeps p.d ((opJkdone f).body p) := by
  unfold opJkdone
  simp

@[simp] theorem opJrnd_keeps (f : FmtT) (p : Px) : PyEnd.Keeps p.d ((opJrnd f).body p) := by
  unfold opJrnd
  exact ⟨rfl, rfl⟩

@[simp] theorem opJset_keeps (f : FmtT) (p : Px) : PyEnd.Keeps p.d ((opJset f).body p) := by
  unfold opJset
  exact ⟨rfl, rfl⟩

@[simp] theorem inputPageFilledGo_fuse (c : Nat) (page : Nat) (d : Dev) : Kept (inputPageFilledGo c page d) d := by
  unfold inputPageFilledGo
  repeat' split
  all_goals simp

@[simp] theorem auxFillDoneGo_fuse (c : Nat) (d : Dev) : Kept (auxFillDoneGo c d) d := by
  unfold auxFillDoneGo
  repeat' split
  all_goals simp

@[simp] theorem outputBufferRoomGo_fuse (c : Nat) (d : Dev) : Kept (outputBufferRoomGo c d) d := by
  unfold outputBufferRoomGo
  repeat' split
  all_goals simp

@[simp] theorem customRunGo_fuse (j : Nat) (d : Dev) : Kept (customRunGo j d) d := by
  unfold customRunGo
  ((try dsimp only) <;> (repeat' split) <;> (first | (simp [foldl_fuse]; done) | exact ⟨rfl, rfl⟩ | (refine foldl_fuse _ _ _ fun a x => ?_; ((try dsimp only) <;> (repeat' split) <;> (first | (simp [foldl_fuse]; done) | exact ⟨rfl, rfl⟩))) | skip))

@[simp] theorem yieldTimeoutGo_fuse (c : Nat) (d : Dev) : Kept (yieldTimeoutGo c d) d := by
  unfold yieldTimeoutGo
  repeat' split
  all_goals simp

@[simp] theorem slotPut_fuse (d : Dev) (b : Job) (p : Prog) (s : Byte) (v : Nat) : Kept (slotPut d b p s v) d := by
  unfold slotPut
  (repeat' split) <;> simp

@[simp] theorem sysPut_fuse (d : Dev) (b : Job) (p : Prog) : Kept (sysPut d b p) d := by
  unfold sysPut
  (repeat' split) <;> simp

@[simp] theorem mpStep_fuse (d : Dev) (b : Job) (p : Prog) (r : MpRun) (w : MpWord) : Kept (mpStep d b p r w).1 d := by
  unfold mpStep
  repeat' split
  all_goals simp

@[simp] theorem mpEnd_fuse (d : Dev) (b : Job) (p : Prog) (r : MpRun) : Kept (mpEnd d b p r) d := by
  unfold mpEnd
  simp

theorem mpStart_fuse {d : Dev} {b : Job} :
    (∀ x, mpStart d b = .error x → Kept x d) ∧ ∀ x, mpStart d b = .ok x → Kept x.1 d := by
  unfold mpStart
  dsimp only
  generalize (if hasKey0 b then _ else none : Option Nat) = parts
  have bad : ∀ x y : Dev, Kept y d → (∀ z, (Except.error y : Except Dev (Dev × MpRun)) = .error z → Kept z d)
      ∧ ∀ z, (Except.error y : Except Dev (Dev × MpRun)) = .ok z → Kept z.1 d := fun x y h =>
    ⟨fun z e => by cases e; exact h, fun z e => by cases e⟩
  split
  · exact bad d _ (refuseUnplaced_fuse _ _ _ _)
  split
  · exact bad d _ (refuseUnplaced_fuse _ _ _ _)
  split
  · exact bad d _ (meRefuse_fuse _ _ _ _ _)
  split
  · exact bad d _ (meRefuse_fuse _ _ _ _ _)
  split
  · exact bad d _ (Kept.trans (finish_fuse _ _ _ _) (meRefused_fuse _ _))
  · exact ⟨fun z e => (by cases e), fun z e => (by cases e; exact sysPut_fuse _ _ _)⟩

theorem mpBegun_fuse {d : Dev} {b : Job} :
    (∀ x, mpBegun d b = .error x → Kept x d) ∧ ∀ x, mpBegun d b = .ok x → Kept x.1 d := by
  unfold mpBegun
  split
  · exact ⟨fun z e => (by cases e), fun z e => (by cases e; exact ⟨rfl, rfl⟩)⟩
  · exact mpStart_fuse

@[simp] theorem mpRunAll_fuse (p : Prog) : ∀ (n : Nat) (d : Dev) (b : Job) (r : MpRun), Kept (mpRunAll p n d b r) d := by
  intro n
  induction n with
  | zero => intro d b r; exact mpEnd_fuse _ _ _ _
  | succ n ih =>
    intro d b r
    unfold mpRunAll
    split
    · exact mpEnd_fuse _ _ _ _
    · split
      · exact mpEnd_fuse _ _ _ _
      · exact (ih _ _ _).trans (mpStep_fuse _ _ _ _ _)

@[simp] theorem modRunRun_fuse (d : Dev) (b : Job) : Kept (modRunRun d b) d := by
  unfold modRunRun
  split
  · next h => exact mpBegun_fuse.1 _ h
  · next h => exact (mpRunAll_fuse _ _ _ _ _).trans (mpBegun_fuse.2 _ h)

@[simp] theorem mpOneRun_fuse (w : MpWord) (d : Dev) (b : Job) : Kept (mpOneRun w d b) d := by
  unfold mpOneRun
  dsimp only
  split
  · next h => exact mpBegun_fuse.1 _ h
  · next h =>
    have k := mpBegun_fuse.2 _ h
    split
    · exact ⟨rfl, rfl⟩
    split
    · exact (mpEnd_fuse _ _ _ _).trans k
    split
    · exact (mpEnd_fuse _ _ _ _).trans ((mpStep_fuse _ _ _ _ _).trans k)
    · exact (mpStep_fuse _ _ _ _ _).trans k

@[simp] theorem mpCommand_fuse (e op : Nat) (w : MpWord) (d : Dev) : Kept (mpCommand e op w d) d := by
  unfold mpCommand
  split
  · exact ⟨rfl, rfl⟩
  split
  · exact service_fuse _ _ _ _ fun a x => mpOneRun_fuse _ _ _
  · exact ⟨rfl, rfl⟩

theorem pyRow_keeps (w : U32) (mj : Nat) : ∀ op ∈ pyRow w mj, ∀ p, PyEnd.Keeps p.d (op.body p) := by
  unfold pyRow
  split
  all_goals simp

theorem pyOpOf_keeps {w : U32} {mj mn : Nat} {op : PyOp} (h : pyOpOf w mj mn = some op) : ∀ p, PyEnd.Keeps p.d (op.body p) :=
  pyRow_keeps w mj op (List.mem_of_getElem? h)

@[simp] theorem setMicro_fuse (d : Dev) (u : Nat) (m : Micro) : Kept (setMicro d u m) d := by
  unfold setMicro
  simp

@[simp] theorem Ux.on_keeps (d : Dev) (x : Ux) (m : Micro) : UEnd.Keeps d (x.on m) ↔ Kept x.d d := Iff.rfl

@[simp] theorem Ux.setA_keeps (d : Dev) (x : Ux) (v : U64) : UEnd.Keeps d (x.setA v) ↔ Kept x.d d := Iff.rfl

@[simp] theorem Ux.go_keeps {d : Dev} (x : Ux) (m : Micro) (t : Int) (h : Kept x.d d) : UEnd.Keeps d (x.go m t) := by
  unfold Ux.go; split
  · exact h
  · trivial

@[simp] theorem setSched_fuse (d : Dev) (u : Nat) (s : Sched) : Kept (setSched d u s) d := by
  unfold setSched; simp

@[simp] theorem haltHere_fuse (d : Dev) (u : Nat) : Kept (haltHere d u) d := by
  unfold haltHere; simp

@[simp] theorem takeHalt_fuse (d : Dev) (u : Nat) : Kept (takeHalt d u) d := by
  unfold takeHalt; simp

theorem uRun_fuse (u cls : Nat) (f : UFmt) (kinds : Nat → Bool) (use : UUse) (body : Ux → UEnd) (d : Dev) (h : ∀ x, UEnd.Keeps x.d (body x)) :
    Kept (uRun u cls f kinds use body d) d := by
  unfold uRun
  refine kept_ite ⟨rfl, rfl⟩ ?_
  split
  · exact ⟨rfl, rfl⟩
  next b _ =>
  have hs := stepTaken_fuse d (seqCellOf u)
  refine kept_ite ⟨rfl, rfl⟩ (kept_ite ((failOn_fuse _ _ _ _ _).trans hs) (kept_ite ((failOn_fuse _ _ _ _ _).trans hs) ?_))
  have hb := h { d := stepTaken d (seqCellOf u), u := u, b := b, m := getMicro d u, f := f }
  generalize body _ = e at hb ⊢
  cases e with
  | bad => exact (failOn_fuse _ _ _ _ _).trans hs
  | stop d1 b1 st dt => exact (failOn_fuse _ _ _ _ _).trans (Kept.trans hb hs)
  | ended d1 => exact (takeHalt_fuse _ _).trans (Kept.trans hb hs)
  | wait => exact hs
  | next x upc deal =>
    have hx : Kept x.d d := Kept.trans hb hs
    have g : ∀ y : Dev, Kept y x.d → Kept (takeHalt y u) d := fun y k => (takeHalt_fuse _ _).trans (k.trans hx)
    exact kept_ite ((dealYield_fuse _ _).trans (g _ (kept_ite (by simp) (by simp)))) (g _ (kept_ite (by simp) (by simp)))

@[simp] theorem uopGo_keeps (x : Ux) : UEnd.Keeps x.d (uopGo x) := by
  unfold uopGo
  repeat' split
  all_goals simp

@[simp] theorem uopiGo_keeps (x : Ux) : UEnd.Keeps x.d (uopiGo x) := by
  unfold uopiGo
  repeat' split
  all_goals simp

@[simp] theorem uinsGo_keeps (x : Ux) : UEnd.Keeps x.d (uinsGo x) := by
  unfold uinsGo
  dsimp only
  repeat' split
  all_goals simp

@[simp] theorem freeWord_fuse (d : Dev) : Kept (freeWord d).2 d := by
  unfold freeWord
  exact ⟨rfl, rfl⟩

theorem fldMe_fuse {d : Dev} {b : Job} {c : Nat} {r : U64 × Dev} (h : fldMe d b c = some r) : Kept r.2 d := by
  unfold fldMe at h
  dsimp only at h
  repeat' split at h
  all_goals first | (cases h; exact ⟨rfl, rfl⟩) | cases h

@[simp] theorem fldGo_keeps (x : Ux) : UEnd.Keeps x.d (fldGo x) := by
  unfold fldGo; dsimp only
  repeat' split
  all_goals first | exact trivial | exact ⟨rfl, rfl⟩ | (next h => exact fldMe_fuse h)

@[simp] theorem uccrGo_keeps (x : Ux) : UEnd.Keeps x.d (uccrGo x) := by
  unfold uccrGo
  dsimp only
  repeat' split
  all_goals simp

@[simp] theorem ufltGo_keeps (x : Ux) : UEnd.Keeps x.d (ufltGo x) := by
  unfold ufltGo
  repeat' split
  all_goals simp

@[simp] theorem ubrGo_keeps (x : Ux) : UEnd.Keeps x.d (ubrGo x) := by
  unfold ubrGo
  repeat' split
  all_goals simp

@[simp] theorem ucallGo_keeps (x : Ux) : UEnd.Keeps x.d (ucallGo x) := by
  unfold ucallGo
  repeat' split
  all_goals simp

@[simp] theorem uretGo_keeps (x : Ux) : UEnd.Keeps x.d (uretGo x) := by
  unfold uretGo
  repeat' split
  all_goals simp

@[simp] theorem ulpsetGo_keeps (x : Ux) : UEnd.Keeps x.d (ulpsetGo x) := by
  unfold ulpsetGo
  exact ⟨rfl, rfl⟩

@[simp] theorem ulpendGo_keeps (x : Ux) : UEnd.Keeps x.d (ulpendGo x) := by
  unfold ulpendGo
  dsimp only
  repeat' split
  all_goals simp

theorem uYield_keeps {d : Dev} (x : Ux) (go : Ux → UEnd) (h : Kept x.d d) (g : ∀ y, UEnd.Keeps y.d (go y)) : UEnd.Keeps d (uYield x go) := by
  have tr : ∀ (a b : Dev) (e : UEnd), UEnd.Keeps a e → Kept a b → UEnd.Keeps b e := by
    intro a b e h k; cases e <;> first | exact Kept.trans h k | trivial
  unfold uYield
  split
  · exact h
  split
  · exact h
  · exact tr _ _ _ (g _) (Kept.trans (setSched_fuse _ _ _) h)

@[simp] theorem uyldGo_keeps (x : Ux) : UEnd.Keeps x.d (uyldGo x) := by
  unfold uyldGo
  exact ukeeps_ite trivial (uYield_keeps _ _ ⟨rfl, rfl⟩ fun y => ⟨rfl, rfl⟩)

@[simp] theorem uendGo_keeps (x : Ux) : UEnd.Keeps x.d (uendGo x) := by
  unfold uendGo
  repeat' split
  all_goals simp

@[simp] theorem uxmovGo_keeps (x : Ux) : UEnd.Keeps x.d (uxmovGo x) := by
  unfold uxmovGo
  repeat' split
  all_goals simp

@[simp] theorem uDatapath_keeps (op : PyOp) (x : Ux) (h : ∀ p, PyEnd.Keeps p.d (op.body p)) : UEnd.Keeps x.d (uDatapath op x) := by
  unfold uDatapath; dsimp only
  split
  · trivial
  · next p0 e =>
    have k := pyHere_dev e
    have hb := h p0
    rw [k] at hb
    split
    · exact ⟨rfl, rfl⟩
    split
    · trivial
    split
    · next eq =>
      rw [eq] at hb
      have := pyRetire_fuse p0 (mapGet none p0.io.wait x.u) ({ op.use p0 with gap := 1, vec := false }) _ (d := x.d) (by rw [k]; exact ⟨rfl, rfl⟩)
        (show PyEnd.Keeps x.d (.next { (‹Px› : Px) with jump := some ((‹Px› : Px).jump.getD (‹Px› : Px).r.pc), r := { (‹Px› : Px).r with velOn := false } }) from hb)
      exact Kept.trans (by simp) this
    · exact pyRetire_fuse _ _ _ _ (by rw [k]; exact ⟨rfl, rfl⟩) hb

@[simp] theorem uuissGo_keeps (x : Ux) : UEnd.Keeps x.d (uuissGo x) := by
  unfold uuissGo
  refine ukeeps_ite trivial ?_
  split
  · next h => exact uDatapath_keeps _ _ (pyOpOf_keeps h)
  · exact ⟨rfl, rfl⟩

@[simp] theorem vlnOp_keeps (v : BitVec 5) (addr : Nat) (store : Bool) (p : Px) : PyEnd.Keeps p.d ((vlnOp v addr store).body p) := by
  have k : ∀ (l : List Nat) (g : Px → Nat → Px) (q : Px), (∀ a x, Kept (g a x).d a.d) → Kept q.d p.d →
      Kept (if store then l.foldl g p else q).d p.d := by
    intro l g q h e; split
    · exact foldl_keeps _ _ _ h
    · exact e
  unfold vlnOp; dsimp only
  split
  · exact ⟨rfl, rfl⟩
  split
  · exact stopEnd_keeps _ _ _ (k _ _ _ (fun a x => by simp) (by simp))
  · exact k _ _ _ (fun a x => by simp) (by simp)

@[simp] theorem uvelGo_keeps (x : Ux) : UEnd.Keeps x.d (uvelGo x) := by
  unfold uvelGo
  simp

@[simp] theorem tlsGo_keeps (n : Nat) (store : Bool) (x : Ux) : UEnd.Keeps x.d (tlsGo n store x) := by
  have e1 : ∀ (q : Px) (u : Use) (m : Micro) (c : Bool) (t : Nat) (b : Job), Kept q.d x.d →
      UEnd.Keeps x.d (.ended (setMicro (markUse ({ q with b := b }).save c x.u t u) x.u { m with upc := m.upc + 1, run := true })) :=
    fun q u m c t b h => Kept.trans (setMicro_fuse _ _ _) (Kept.trans (markUse_fuse _ _ _ _ _) (Kept.trans (Px.save_fuse _) h))
  have w : ∀ p : Px, Kept p.d x.d → Kept (match mapGet none p.io.wait x.u with | some w => endWait p w.2 | none => p).d x.d := by
    intro p h
    split
    · exact (endWait_keeps _ _).trans h
    · exact h
  unfold tlsGo
  extract_lets t a
  split
  · trivial
  · next p0 hp =>
    have k : Kept p0.d x.d := by rw [pyHere_dev hp]; exact ⟨rfl, rfl⟩
    refine ukeeps_ite trivial (ukeeps_ite ⟨rfl, rfl⟩ ?_)
    split
    · exact ⟨rfl, rfl⟩
    · exact (pyFault_fuse _ _ _).trans k
    · exact pyRetire_fuse _ _ _ _ k k
    · exact ukeeps_ite (e1 _ _ _ _ _ _ (Kept.trans (tileWrite_keeps _ _ _ _) (w _ k))) (e1 _ _ _ _ _ _ (Kept.trans (freeUse_keeps _ _) (w _ k)))

@[simp] theorem umkvGo_keeps (x : Ux) : UEnd.Keeps x.d (umkvGo x) := by
  unfold umkvGo
  dsimp only
  repeat' split
  all_goals simp

@[simp] theorem Ux.me_keeps (x : Ux) (g : MeEng → MeEng) : Kept (Ux.me x g).d x.d := by
  unfold Ux.me
  simp

@[simp] theorem uslnGo_keeps (x : Ux) : UEnd.Keeps x.d (uslnGo x) := by
  unfold uslnGo
  simp

@[simp] theorem umacGo_keeps (x : Ux) : UEnd.Keeps x.d (umacGo x) := by
  unfold umacGo
  repeat' split
  all_goals simp

@[simp] theorem upadGo_keeps (x : Ux) : UEnd.Keeps x.d (upadGo x) := by
  unfold upadGo
  repeat' split
  all_goals simp

@[simp] theorem portPut_fuse (d : Dev) (b : Job) (line : Nat) (bs : Bytes) : Kept (portPut d b line bs) d := by
  unfold portPut
  exact ⟨rfl, rfl⟩

@[simp] theorem ukplMeGo_keeps (x : Ux) : UEnd.Keeps x.d (ukplMeGo x) := by
  unfold ukplMeGo
  repeat' split
  all_goals simp

@[simp] theorem uOut_keeps {d : Dev} (x : Ux) (off : Nat) (bs : Bytes) (h : Kept x.d d) : UEnd.Keeps d (uOut x off bs) := by
  unfold uOut; dsimp only
  split
  · trivial
  split
  · exact h
  · exact Kept.trans (by simp) h

@[simp] theorem uhioGo_keeps (x : Ux) : UEnd.Keeps x.d (uhioGo x) := by
  unfold uhioGo
  dsimp only
  repeat' split
  all_goals simp

@[simp] theorem Ux.ts_keeps (x : Ux) (g : TsEng → TsEng) : Kept (Ux.ts x g).d x.d := by
  unfold Ux.ts
  simp

@[simp] theorem uhuiGo_keeps (x : Ux) : UEnd.Keeps x.d (uhuiGo x) := by
  unfold uhuiGo; dsimp only
  (repeat' split) <;> simp

@[simp] theorem unbmGo_keeps (x : Ux) : UEnd.Keeps x.d (unbmGo x) := by
  unfold unbmGo
  repeat' split
  all_goals simp

@[simp] theorem usstGo_keeps (x : Ux) : UEnd.Keeps x.d (usstGo x) := by
  unfold usstGo
  refine uYield_keeps _ _ ⟨rfl, rfl⟩ fun y => ?_
  dsimp only
  repeat' split
  all_goals first | (simp; done) | (next h => exact ssTake_fuse h)

@[simp] theorem ukplTsGo_keeps (x : Ux) : UEnd.Keeps x.d (ukplTsGo x) := by
  unfold ukplTsGo
  repeat' split
  all_goals simp

end Sys2Proof.Machine
end

