-- ==== Sys2Proof/Laws/FuseCommands.lean ====
section
/-!
SUPPORT. What the commands of the life cycle, the host interface and the update leave of OTP and of the smallest release that may run: all but what
Laws/FuseGrows.lean says.
-/
set_option linter.unusedSimpArgs false
set_option linter.unusedVariables false
namespace Sys2Proof.Machine

@[simp] theorem lcEnd_fuse (d : Dev) (op : BitVec 4) (r : Byte) : Kept (lcEnd d op r) d := by
  unfold lcEnd
  exact ⟨rfl, rfl⟩

@[simp] theorem challengeGo_fuse (d : Dev) : Kept (challengeGo d) d := by
  unfold challengeGo
  simp

@[simp] theorem challengeExpiryGo_fuse (d : Dev) : Kept (challengeExpiryGo d) d := by
  unfold challengeExpiryGo
  repeat' split
  all_goals simp

@[simp] theorem grantNow_fuse (g : Grant) (d : Dev) : Kept (grantNow g d) d := by
  unfold grantNow
  ((try dsimp only) <;> (repeat' split) <;> (first | (simp [foldl_fuse]; done) | exact ⟨rfl, rfl⟩ | (refine foldl_fuse _ _ _ fun a x => ?_; ((try dsimp only) <;> (repeat' split) <;> (first | (simp [foldl_fuse]; done) | exact ⟨rfl, rfl⟩))) | skip))

@[simp] theorem grantNext_fuse (d : Dev) : Kept (grantNext d) d := by
  unfold grantNext
  repeat' split
  all_goals simp

@[simp] theorem lcDenied_fuse (d : Dev) (r : Byte) (signer : Nat) : Kept (lcDenied d r signer) d := by
  unfold lcDenied
  simp

@[simp] theorem debugHaltGo_fuse (u : Nat) (op : DebugOp) (d : Dev) : Kept (debugHaltGo u op d) d := by
  unfold debugHaltGo
  repeat' split
  all_goals simp

@[simp] theorem debugStepGo_fuse (u : Nat) (op : DebugOp) (d : Dev) : Kept (debugStepGo u op d) d := by
  unfold debugStepGo
  repeat' split
  all_goals simp

theorem cfgRequest_fuse (f : Nat) (g : Dev → Dev) (d : Dev) (h : ∀ x, Kept (g x) x) : Kept (cfgRequest f g d) d := by
  unfold cfgRequest
  repeat' split
  all_goals first | exact h _ | simp

@[simp] theorem cfgRead_fuse (f : Nat) (i : CfgItem) (d : Dev) : Kept (cfgRead f i d) d := by
  unfold cfgRead; simp

@[simp] theorem flushWaiting_fuse (d : Dev) (f : Nat) : Kept (flushWaiting d f) d := by
  unfold flushWaiting
  refine foldl_fuse _ _ _ fun a x => ?_
  repeat' split
  all_goals simp

@[simp] theorem busMasterGo_fuse (f : Nat) (bme : Bool) (mse : Bool) (x3 : Dev) : Kept (busMasterGo f bme mse x3) x3 := by
  unfold busMasterGo
  refine cfgRequest_fuse _ _ _ fun a => ?_
  dsimp only
  (repeat' split) <;> simp

@[simp] theorem flushPend_fuse (d : Dev) (f : Nat) : Kept (flushPend d f) d := by
  unfold flushPend
  ((try dsimp only) <;> (repeat' split) <;> (first | (simp [foldl_fuse]; done) | exact ⟨rfl, rfl⟩ | (refine foldl_fuse _ _ _ fun a x => ?_; ((try dsimp only) <;> (repeat' split) <;> (first | (simp [foldl_fuse]; done) | exact ⟨rfl, rfl⟩))) | skip))

@[simp] theorem powerGo_fuse (f : Nat) (d3hot : Bool) (x2 : Dev) : Kept (powerGo f d3hot x2) x2 := by
  unfold powerGo
  refine cfgRequest_fuse _ _ _ fun a => ?_
  dsimp only
  (repeat' split) <;> simp

@[simp] theorem msixGo_fuse (f : Nat) (w : MsixWrite) (d : Dev) : Kept (msixGo f w d) d := by
  unfold msixGo
  cases w with
  | vector v masked => dsimp only; split <;> simp
  | function en masked => exact cfgRequest_fuse _ _ _ fun a => by simp

@[simp] theorem evMaskGo_fuse (v : U32) (d : Dev) : Kept (evMaskGo v d) d := by
  unfold evMaskGo
  ((try dsimp only) <;> (repeat' split) <;> (first | (simp [foldl_fuse]; done) | exact ⟨rfl, rfl⟩ | (refine foldl_fuse _ _ _ fun a x => ?_; ((try dsimp only) <;> (repeat' split) <;> (first | (simp [foldl_fuse]; done) | exact ⟨rfl, rfl⟩))) | skip))

@[simp] theorem holdoffGo_fuse (v : Nat) (d : Dev) : Kept (holdoffGo v d) d := by
  unfold holdoffGo
  simp

@[simp] theorem linkRetrainGo_fuse (speed : Nat) (width : Nat) (d : Dev) : Kept (linkRetrainGo speed width d) d := by
  unfold linkRetrainGo
  simp

@[simp] theorem poisonedGo_fuse (f : Nat) (off : Nat) (d : Dev) : Kept (poisonedGo f off d) d := by
  unfold poisonedGo
  simp

@[simp] theorem coalTimerExpiryGo_fuse (c : Nat) (d : Dev) : Kept (coalTimerExpiryGo c d) d := by
  unfold coalTimerExpiryGo
  simp

@[simp] theorem sqEnableGo_fuse (f : Nat) (j : Nat) (v : U64) (d : Dev) : Kept (sqEnableGo f j v d) d := by
  unfold sqEnableGo
  repeat' split
  all_goals simp

@[simp] theorem sqDisableGo_fuse (f : Nat) (j : Nat) (v : U64) (d : Dev) : Kept (sqDisableGo f j v d) d := by
  unfold sqDisableGo
  repeat' split
  all_goals simp

@[simp] theorem cqEnableGo_fuse (f : Nat) (j : Nat) (v : U64) (d : Dev) : Kept (cqEnableGo f j v d) d := by
  unfold cqEnableGo
  repeat' split
  all_goals simp

@[simp] theorem cqDisableGo_fuse (f : Nat) (j : Nat) (v : U64) (d : Dev) : Kept (cqDisableGo f j v d) d := by
  unfold cqDisableGo
  repeat' split
  all_goals simp

@[simp] theorem sqHeadWriteGo_fuse (f : Nat) (j : Nat) (v : U32) (d : Dev) : Kept (sqHeadWriteGo f j v d) d := by
  unfold sqHeadWriteGo
  repeat' split
  all_goals simp

@[simp] theorem cqPtrWriteGo_fuse (f : Nat) (j : Nat) (v : U32) (d : Dev) : Kept (cqPtrWriteGo f j v d) d := by
  unfold cqPtrWriteGo
  repeat' split
  all_goals simp

@[simp] theorem bootEnd_fuse (d : Dev) (r : Byte) : Kept (bootEnd d r) d := by
  unfold bootEnd
  simp

theorem bootCmd_fuse (op : BitVec 4) (pre : Bool) (run : Dev → Dev) (d : Dev) (h : ∀ a, (run a).otp = a.otp ∧ (run a).boot.cfgMin = a.boot.cfgMin) :
    (bootCmd op pre run d).otp = d.otp ∧ (bootCmd op pre run d).boot.cfgMin = d.boot.cfgMin := by
  unfold bootCmd
  dsimp only
  repeat' split
  all_goals simp [h]

@[simp] theorem imageRead_fuse (d : Dev) (addr : U64) (n : Nat) : Kept (imageRead d addr n) d := by
  unfold imageRead
  refine Kept.foldl fun a x => ?_
  (repeat' split) <;> simp

@[simp] theorem writeSlotRun_fuse (r : DmaRes) (d : Dev) : Kept (writeSlotRun r d) d := by
  unfold writeSlotRun
  repeat' split
  all_goals simp

@[simp] theorem writeSlotGo_fuse (r : DmaRes) (d : Dev) : (writeSlotGo r d).otp = d.otp ∧ (writeSlotGo r d).boot.cfgMin = d.boot.cfgMin :=
  bootCmd_fuse _ _ _ _ fun a => writeSlotRun_fuse _ _

@[simp] theorem verifyRun_fuse (d : Dev) : Kept (verifyRun d) d := by
  unfold verifyRun
  dsimp only
  repeat' split
  all_goals simp

@[simp] theorem verifyGo_fuse (d : Dev) : (verifyGo d).otp = d.otp ∧ (verifyGo d).boot.cfgMin = d.boot.cfgMin :=
  bootCmd_fuse _ _ _ _ fun a => verifyRun_fuse _

@[simp] theorem setMeas_fuse (d : Dev) (k : Nat) (m : Meas) : Kept (setMeas d k m) d := by
  unfold setMeas
  exact ⟨rfl, rfl⟩

@[simp] theorem rollFail_fuse (d : Dev) (r : Byte) : Kept (rollFail d r) d := by
  unfold rollFail
  repeat' split
  all_goals simp

@[simp] theorem applyService_fuse (d : Dev) (m : SMap Bytes) : Kept (applyService d m) d := by
  unfold applyService
  exact ⟨rfl, rfl⟩

@[simp] theorem stepBegin_fuse (d : Dev) : Kept (stepBegin d) d := by
  unfold stepBegin
  dsimp only
  repeat' split
  all_goals simp

@[simp] theorem rollout_fuse (d : Dev) (s : Nat) : Kept (rollout d s) d := by
  unfold rollout
  simp

@[simp] theorem rollbackRun_fuse (d : Dev) : Kept (rollbackRun d) d := by
  unfold rollbackRun
  exact (Kept.trans (rollout_fuse _ _) (dirWrite_fuse _ _))

@[simp] theorem rollbackGo_fuse (d : Dev) : (rollbackGo d).otp = d.otp ∧ (rollbackGo d).boot.cfgMin = d.boot.cfgMin :=
  bootCmd_fuse _ _ _ _ fun a => rollbackRun_fuse _

@[simp] theorem ucodeStageGo_fuse (u : Nat) (crcOk : Bool) (d : Dev) : Kept (ucodeStageGo u crcOk d) d := by
  unfold ucodeStageGo
  repeat' split
  all_goals simp

@[simp] theorem swapNow_fuse (d : Dev) (u : Nat) : Kept (swapNow d u) d := by
  unfold swapNow
  simp

@[simp] theorem customNow_fuse (d : Dev) (c : Nat) : Kept (customNow d c) d := by
  unfold customNow
  simp

@[simp] theorem reloadBank_fuse (d : Dev) (c : Nat) : Kept (reloadBank d c) d := by
  unfold reloadBank
  (repeat' split) <;> simp

@[simp] theorem instanceDrainedGo_fuse (c : Nat) (d : Dev) : Kept (instanceDrainedGo c d) d := by
  unfold instanceDrainedGo
  repeat' split
  all_goals simp

@[simp] theorem rolloutStepDoneGo_fuse (d : Dev) : Kept (rolloutStepDoneGo d) d := by
  unfold rolloutStepDoneGo
  repeat' split
  all_goals simp

@[simp] theorem supvHandoverReportGo_fuse (d : Dev) : Kept (supvHandoverReportGo d) d := by
  unfold supvHandoverReportGo
  simp

@[simp] theorem supvHandoverFailGo_fuse (d : Dev) : Kept (supvHandoverFailGo d) d := by
  unfold supvHandoverFailGo
  simp

@[simp] theorem nvmFailGo_fuse (d : Dev) : Kept (nvmFailGo d) d := by
  unfold nvmFailGo
  simp

theorem bootArg_fuse (f : Dev → Dev) (d : Dev) (h : ∀ x, Kept (f x) x) : Kept (bootArg f d) d := by
  unfold bootArg
  split
  · exact ⟨rfl, rfl⟩
  · exact h _

@[simp] theorem isCtlPut_fuse (v : Nat) (d : Dev) : Kept (isCtlPut v d) d := by
  unfold isCtlPut
  exact ⟨rfl, rfl⟩

@[simp] theorem rngCtlPut_fuse (v : Nat) (d : Dev) : Kept (rngCtlPut v d) d := by
  unfold rngCtlPut
  simp

@[simp] theorem vfmCmdPut_fuse (v : Nat) (d : Dev) : Kept (vfmCmdPut v d) d := by
  unfold vfmCmdPut
  simp

@[simp] theorem dlrCtlPut_fuse (v : Nat) (d : Dev) : Kept (dlrCtlPut v d) d := by
  unfold dlrCtlPut
  simp

@[simp] theorem dlrDutyPut_fuse (v : Nat) (d : Dev) : Kept (dlrDutyPut v d) d := by
  unfold dlrDutyPut
  simp

@[simp] theorem fqCmdPut_fuse (f : Nat) (v : Nat) (d : Dev) : Kept (fqCmdPut f v d) d := by
  unfold fqCmdPut
  repeat' split
  all_goals simp

@[simp] theorem fqArgPut_fuse (f : Nat) (g : Fq → Fq) (d : Dev) : Kept (fqArgPut f g d) d := by
  unfold fqArgPut
  simp

@[simp] theorem recCtlPut_fuse (v : Nat) (d : Dev) : Kept (recCtlPut v d) d := by
  unfold recCtlPut
  simp

@[simp] theorem ambCtlPut_fuse (v : Nat) (d : Dev) : Kept (ambCtlPut v d) d := by
  unfold ambCtlPut
  simp

@[simp] theorem fabCmdPut_fuse (v : Nat) (d : Dev) : Kept (fabCmdPut v d) d := by
  unfold fabCmdPut
  repeat' split
  all_goals simp

@[simp] theorem tmonLimitPut_fuse (v : Nat) (d : Dev) : Kept (tmonLimitPut v d) d := by
  unfold tmonLimitPut
  exact ⟨rfl, rfl⟩

@[simp] theorem homePut_fuse (q : Nat) (b : Byte) (d : Dev) : Kept (homePut q b d) d := by
  unfold homePut
  simp

@[simp] theorem allowPut_fuse (off : Nat) (b : Byte) (d : Dev) : Kept (allowPut off b d) d := by
  unfold allowPut
  simp

theorem putEach_fuse (f : Nat → Byte → Dev → Dev) (h : ∀ n b x, Kept (f n b x) x) : ∀ (o : Nat) (bs : Bytes) (d : Dev), Kept (putEach f o bs d) d
  | _, [], d => ⟨rfl, rfl⟩
  | o, b :: bs, d => Kept.trans (putEach_fuse f h (o + 1) bs _) (h _ _ _)

@[simp] theorem setHeld_fuse (d : Dev) (k : Nat) (v : Option U32) : Kept (setHeld d k v) d := by
  unfold setHeld
  exact ⟨rfl, rfl⟩

@[simp] theorem setCap_fuse (d : Dev) (k : Nat) (v : Option U32) : Kept (setCap d k v) d := by
  unfold setCap
  exact ⟨rfl, rfl⟩

theorem regGet_fuse (f off base : Nat) (r : RegDef) (hi : Bool) (size : Nat) (d : Dev) (h : ∀ x, Kept (r.side x) x) :
    Kept (regGet f off base r hi size d).2 d := by
  unfold regGet
  dsimp only
  split
  · exact h _
  split
  · exact h _
  split
  · exact Kept.trans (setCap_fuse _ _ _) (h _)
  split
  · split
    · simp
    · exact h _
  · simp

@[simp] theorem doorbellPut_fuse (f : Nat) (q : Nat) (off : Nat) (bs : Bytes) (d : Dev) : Kept (doorbellPut f q off bs d) d := by
  unfold doorbellPut
  simp

@[simp] theorem barRefused_fuse (d : Dev) (f : Nat) : Kept (barRefused d f) d := by
  unfold barRefused; simp

@[simp] theorem cfgPut_fuse (f : Nat) (w : CfgField) (x2 : Dev) : Kept (cfgPut f w x2) x2 := by
  unfold cfgPut
  refine cfgRequest_fuse _ _ _ fun a => ?_
  dsimp only
  (repeat' split) <;> simp

@[simp] theorem readAgain_fuse (d : Dev) (b : Job) : Kept (readAgain d b) d := by
  unfold readAgain
  (repeat' split) <;> simp

@[simp] theorem twoPass_fuse (d : Dev) (b : Job) (ok : Bool) (plain : Bytes) (cyc : Nat) : Kept (twoPass d b ok plain cyc) d := by
  unfold twoPass; simp

@[simp] theorem opened_fuse (d : Dev) (b : Job) (plain : Option Bytes) (cyc : Nat) : Kept (opened d b plain cyc) d := by
  unfold opened
  repeat' split
  all_goals simp

@[simp] theorem gcmEncRun_fuse (d : Dev) (b : Job) : Kept (gcmEncRun d b) d := by
  unfold gcmEncRun
  dsimp only
  repeat' split
  all_goals simp

@[simp] theorem gcmDecRun_fuse (d : Dev) (b : Job) : Kept (gcmDecRun d b) d := by
  unfold gcmDecRun
  simp

@[simp] theorem ctrRun_fuse (d : Dev) (b : Job) : Kept (ctrRun d b) d := by
  unfold ctrRun
  simp

@[simp] theorem xtsRun_fuse (dec : Bool) (d : Dev) (b : Job) : Kept (xtsRun dec d b) d := by
  unfold xtsRun
  simp

@[simp] theorem kwWrapRun_fuse (d : Dev) (b : Job) : Kept (kwWrapRun d b) d := by
  unfold kwWrapRun
  simp

@[simp] theorem kwUnwrapRun_fuse (d : Dev) (b : Job) : Kept (kwUnwrapRun d b) d := by
  unfold kwUnwrapRun
  simp

@[simp] theorem kwpWrapRun_fuse (d : Dev) (b : Job) : Kept (kwpWrapRun d b) d := by
  unfold kwpWrapRun
  simp

@[simp] theorem kwpUnwrapRun_fuse (d : Dev) (b : Job) : Kept (kwpUnwrapRun d b) d := by
  unfold kwpUnwrapRun
  simp

@[simp] theorem aeadEncRun_fuse (d : Dev) (b : Job) : Kept (aeadEncRun d b) d := by
  unfold aeadEncRun
  simp

@[simp] theorem aeadDecRun_fuse (d : Dev) (b : Job) : Kept (aeadDecRun d b) d := by
  unfold aeadDecRun
  simp

@[simp] theorem beat_fuse (d : Dev) : Kept (beat d) d := by
  unfold beat
  simp

end Sys2Proof.Machine
end

