-- ==== Sys2Proof/Laws/FuseGrows.lean ====
section
/-!
SUPPORT. What programs OTP and what raises the smallest release that may run, through starts, resets, the life cycle and the update: neither
takes anything back (12 R374, 14 R419, 15 R446).
-/
set_option linter.unusedVariables false
namespace Sys2Proof.Machine

open Sys2Proof.Safety

/-- OTP and the smallest release only gain. -/
def Grows (d d' : Dev) : Prop := OtpGrows d.otp d'.otp ∧ d.boot.cfgMin ≤ d'.boot.cfgMin

theorem otpGrows_refl (a : Otp) : OtpGrows a a :=
  ⟨rfl, rfl, rfl, Nat.le_refl _, fun _ => ⟨BitVec.and_self, BitVec.and_self, BitVec.and_self⟩, fun _ _ => ⟨fun _ => rfl, id, id⟩,
    fun _ => ⟨fun _ => rfl, id, id⟩⟩

theorem and_trans {w : Nat} {a b c : BitVec w} (h : a &&& b = a) (g : b &&& c = b) : a &&& c = a := by
  rw [← h, BitVec.and_assoc, g]

theorem secret_trans {a b c : Bytes} (h : a ≠ [] → b = a) (g : b ≠ [] → c = b) : a ≠ [] → c = a := by
  intro x
  have := h x
  subst this
  exact g x

theorem otpGrows_trans {a b c : Otp} (h : OtpGrows a b) (g : OtpGrows b c) : OtpGrows a c := by
  obtain ⟨h1, h2, h3, h4, h5, h6, h7⟩ := h
  obtain ⟨g1, g2, g3, g4, g5, g6, g7⟩ := g
  refine ⟨g1.trans h1, g2.trans h2, g3.trans h3, Nat.le_trans h4 g4, fun s => ?_, fun i hi => ?_, fun e => ?_⟩
  · exact ⟨and_trans (h5 s).1 (g5 s).1, and_trans (h5 s).2.1 (g5 s).2.1, and_trans (h5 s).2.2 (g5 s).2.2⟩
  · exact ⟨secret_trans (h6 i hi).1 (g6 i hi).1, (g6 i hi).2.1 ∘ (h6 i hi).2.1, (g6 i hi).2.2 ∘ (h6 i hi).2.2⟩
  · exact ⟨secret_trans (h7 e).1 (g7 e).1, (g7 e).2.1 ∘ (h7 e).2.1, (g7 e).2.2 ∘ (h7 e).2.2⟩

theorem Grows.refl (d : Dev) : Grows d d := ⟨otpGrows_refl _, BitVec.le_refl _⟩

theorem Grows.trans {a b c : Dev} (h : Grows a b) (g : Grows b c) : Grows a c := ⟨otpGrows_trans h.1 g.1, BitVec.le_trans h.2 g.2⟩

theorem Kept.grows {a b : Dev} (h : Kept a b) : Grows b a := by
  obtain ⟨h1, h2⟩ := h
  unfold Grows
  rw [h1, h2]
  exact ⟨otpGrows_refl _, BitVec.le_refl _⟩

theorem Grows.step {a b c : Dev} (h : Grows a b) (g : Kept c b) : Grows a c := h.trans g.grows

/-! ## What programs OTP -/

theorem range4_getD {α : Type} (f : Nat → α) (x : α) (i : Nat) :
    ((Vector.range 4).map f).toList.getD i x = if i < 4 then f i else x := by
  by_cases h : i < 4
  · rw [if_pos h, List.getD_eq_getElem?_getD]
    simp [h]
  · rw [if_neg h, List.getD_eq_getElem?_getD, List.getElem?_eq_none (by simp; omega)]
    rfl

theorem modLcSlot_grows (d : Dev) (s : Nat) (f : LcSlot → LcSlot) (h : SlotGrows (lcSlot d.otp s) (f (lcSlot d.otp s))) :
    Grows d (modLcSlot d s f) := by
  obtain ⟨r1, r2, r3, r4, r5, r6, r7⟩ := otpGrows_refl d.otp
  refine ⟨⟨rfl, rfl, rfl, Nat.le_refl _, fun i => ?_, r6, r7⟩, BitVec.le_refl _⟩
  have e : lcSlot (modLcSlot d s f).otp i = if i < 4 then (if i = s then f (lcSlot d.otp i) else lcSlot d.otp i) else {} :=
    range4_getD _ _ i
  rw [e]
  split
  · split
    · next hs => subst hs; exact h
    · exact r5 i
  · next hi =>
    have : lcSlot d.otp i = {} := by
      unfold lcSlot
      rw [List.getD_eq_getElem?_getD, List.getElem?_eq_none (by simp; omega)]; rfl
    rw [this]; exact ⟨rfl, rfl, rfl⟩

theorem modEpoch_grows (d : Dev) (s : Nat) (f : Epoch → Epoch) (h : EpochGrows (epochAt d.otp s) (f (epochAt d.otp s))) :
    Grows d (modEpoch d s f) := by
  obtain ⟨r1, r2, r3, r4, r5, r6, r7⟩ := otpGrows_refl d.otp
  refine ⟨⟨rfl, rfl, rfl, Nat.le_refl _, r5, r6, fun i => ?_⟩, BitVec.le_refl _⟩
  have e : epochAt (modEpoch d s f).otp i = if i < 4 then (if i = s then f (epochAt d.otp i) else epochAt d.otp i) else {} :=
    range4_getD _ _ i
  rw [e]
  split
  · split
    · next hs => subst hs; exact h
    · exact r7 i
  · next hi =>
    have : epochAt d.otp i = {} := by
      unfold epochAt
      rw [List.getD_eq_getElem?_getD, List.getElem?_eq_none (by simp; omega)]; rfl
    rw [this]; exact ⟨fun _ => rfl, id, id⟩

theorem newEpoch_grows (bad : List Nat) : ∀ (es : List Nat) (d : Dev), Grows d (newEpoch bad es d) := by
  intro es
  induction es with
  | nil => intro d; exact Grows.refl d
  | cons e es ih =>
    intro d
    rw [newEpoch]
    dsimp only
    have hd : (draw d 32).2.otp = d.otp := (draw_fuse d 32).1
    have g0 : Grows d (draw d 32).2 := Kept.grows (draw_fuse d 32)
    split
    · exact ih d
    · next hv =>
      have hk : (epochAt d.otp e).valid = false ∧ (epochAt d.otp e).kill = false := by simpa using hv
      split
      · exact (modEpoch_grows d e _ ⟨fun _ => rfl, id, fun _ => rfl⟩).trans (ih _)
      · next hs =>
        have hs' : (epochAt d.otp e).secret = [] := by simpa using hs
        split
        · refine (g0.trans (modEpoch_grows _ e _ ?_)).trans (ih _)
          rw [hd]
          exact ⟨fun h => absurd hs' h, fun h => absurd h (by simp [hk.1]), fun _ => rfl⟩
        · refine g0.trans (modEpoch_grows _ e _ ?_)
          rw [hd]
          exact ⟨fun h => absurd hs' h, fun _ => rfl, fun h => absurd h (by simp [hk.2])⟩

theorem or_grows {w : Nat} (a b : BitVec w) : a &&& (a ||| b) = a := by
  ext i; simp; intro h; exact Or.inl h

theorem stepEffect_grows (env : StartEnv) (s k code : Nat) (d : Dev) : Grows d (stepEffect env s k code d) := by
  unfold stepEffect
  split
  · exact Grows.refl d
  split
  · exact modLcSlot_grows _ _ _ ⟨BitVec.and_self, or_grows _ _, BitVec.and_self⟩
  · exact Kept.grows (by simp)
  · obtain ⟨r1, r2, r3, r4, r5, r6, r7⟩ := otpGrows_refl d.otp
    refine ⟨⟨rfl, rfl, rfl, Nat.le_refl _, r5, fun i hi => ?_, r7⟩, BitVec.le_refl _⟩
    simp [RowGrows]
  · split
    · exact modEpoch_grows _ _ _ ⟨fun _ => rfl, id, fun _ => rfl⟩
    · exact Grows.refl d
  · exact newEpoch_grows _ _ _
  · exact Grows.refl d

theorem heldSteps_grows (env : StartEnv) (s code : Nat) : ∀ (ks : List Nat) (d : Dev), Grows d (heldSteps env s code ks d) := by
  intro ks
  induction ks with
  | nil => intro d; exact Grows.refl d
  | cons k ks ih =>
    intro d
    rw [heldSteps]
    split
    · exact ih d
    split
    · dsimp only
      refine Grows.trans ?_ (ih _)
      have g1 := stepEffect_grows env s k code d
      have g2 : Grows d (if (k = 2 && stepApplies 2 code) = true then
          match env.scrubFail with | some m => stepFailed (stepEffect env s k code d) 2 3 m.toNat | none => stepEffect env s k code d
        else stepEffect env s k code d) := by
        split
        · split
          · exact g1.step (stepFailed_fuse _ _ _ _)
          · exact g1
        · exact g1
      have g3 := g2.trans (modLcSlot_grows _ s (fun x => { x with mark := x.mark ||| BitVec.ofNat 6 (2 ^ (k - 1)) })
        ⟨BitVec.and_self, BitVec.and_self, or_grows _ _⟩)
      split
      · exact (g3.step (amber_fuse _ _ _ _)).step (lcCause_fuse _ _)
      · exact g3
    · exact Kept.grows (stepFailed_fuse _ _ _ _)

/-! ## Starts and resets -/

theorem bootLife_grows (env : StartEnv) (d : Dev) : Grows d (bootLife env d) := by
  have two : ∀ (c : Prop) [Decidable c] (a b : Dev), Kept a d → Kept b d → Kept (if c then a else b) d := by
    intro c _ a b ha hb; split
    · exact ha
    · exact hb
  have fin : ∀ x : Dev, Kept x d → Grows d (match lcPending x.otp with
      | some s => heldSteps env s (intentCode (lcSlot x.otp s).intent) [1, 2, 3, 4, 5, 6] (setState x .held)
      | none =>
        if x.glob.lcCode = 0xFF then setState (amber x .lcInvalid .supv []) .scrapped
        else if x.glob.lcCode = 5 then setState x .scrapped
        else x) := by
    intro x k
    split
    · exact (k.grows.step (setState_fuse _ _)).trans (heldSteps_grows _ _ _ _ _)
    · split
      · exact (k.grows.step (amber_fuse _ _ _ _)).step (setState_fuse _ _)
      split
      · exact k.grows.step (setState_fuse _ _)
      · exact k.grows
  have k1 : ∀ (n : BitVec 128) (c : Byte), Kept (readEpoch { d with glob.devId := n, glob.lcCode := c }) d := fun n c => by simp
  have k2 : ∀ (a : Dev) (w : BitVec 36), Kept a d → Kept { a with bdr.lcStat := w } d := fun a w h => h
  have k3 : ∀ a : Dev, Kept a d → Kept (if a.glob.zmark then amber { wipeSalts a with glob.zmark := false } .zeroiseResumed (.bedrock 0) [] else a) d :=
    fun a h => two _ _ _ (Kept.trans (amber_fuse _ _ _ _) h) h
  exact fin _ (k3 _ (k2 _ _ (k1 _ _)))

theorem startSeq_grows (env : StartEnv) (d : Dev) : Grows d (startSeq env d) := by
  have g : ∀ (st : DevState) (f : Dev → Dev) (x : Dev), (∀ y, Kept (f y) y) → Grows d x → Grows d (inStage st f x) :=
    fun st f x hf hx => hx.step (inStage_fuse st f x hf)
  unfold startSeq
  dsimp only
  refine g _ _ _ (fun y => Kept.trans (seed_fuse _ _) (stageTime_fuse _ _ _)) (g _ _ _ (fun y => Kept.trans (load_fuse _ _) (stageTime_fuse _ _ _))
    (g _ _ _ (fun y => Kept.trans (selfTest_fuse _ _) (stageTime_fuse _ _ _)) (g _ _ _ (fun y => bootImage_fuse _ _) ?_)))
  refine Grows.trans (b := stageTime env 0 (lifeNote (bootMarks (forgetGens (setState _ .boot))) 11)) ?_ (bootLife_grows _ _)
  exact Kept.grows (Kept.trans (stageTime_fuse _ _ _) (Kept.trans (lifeNote_fuse _ _) (Kept.trans (bootMarks_fuse _) (Kept.trans (forgetGens_fuse _)
    (Kept.trans (setState_fuse _ _) ⟨rfl, rfl⟩)))))

theorem tryStart_grows (env : StartEnv) (d : Dev) : Grows d (tryStart env d) := by
  unfold tryStart
  dsimp only
  split
  · exact Grows.refl d
  · exact Grows.trans (b := { d with hif.linkUp := true, hif.speed := 5, hif.width := 8 }) (Grows.refl d) (startSeq_grows _ _)

theorem softReset_grows (env : StartEnv) (d : Dev) : Grows d (softReset env d) := by
  unfold softReset
  dsimp only
  refine Grows.trans (Kept.grows ?_) (startSeq_grows _ _)
  simp

theorem doReset_grows (env : StartEnv) (d : Dev) (k : ResetKind) : Grows d (doReset env d k) := by
  have k1 : Kept (causeSet d (resetCauseBit k)) d := causeSet_fuse d (resetCauseBit k)
  unfold doReset
  generalize causeSet d (resetCauseBit k) = d1 at k1 ⊢
  have kb := Kept.trans (toBedrock_fuse d1) k1
  cases k with
  | por => exact Kept.grows k1
  | perst => exact (Kept.grows kb).trans (tryStart_grows _ _)
  | hold => exact (Kept.grows kb).trans (tryStart_grows _ _)
  | vfFlr f => exact Kept.grows (Kept.trans (vfFlrRun_fuse _ _) k1)
  | bedrock b => exact Grows.trans (Kept.grows (a := { toBedrock d1 with bdr.resets := satInc d1.bdr.resets }) kb) (tryStart_grows _ _)
  | hot => exact Kept.grows (Kept.trans (hotReset_fuse _ _) k1)
  | pfFlr => exact Kept.grows (Kept.trans (pfFlr_fuse _) k1)
  | soft => exact (Kept.grows k1).trans (softReset_grows _ _)

theorem doResets_grows (env : StartEnv) (ks : List ResetKind) (d : Dev) : Grows d (doResets env ks d) := by
  have f : ∀ (l : List ResetKind) (x : Dev), Grows x (l.foldl (doReset env) x) := by
    intro l
    induction l with
    | nil => intro x; exact Grows.refl x
    | cons k l ih => intro x; exact (doReset_grows _ _ _).trans (ih _)
  unfold doResets
  extract_lets top rest
  split
  · exact f _ _
  · split
    · exact Grows.refl d
    · next k _ =>
      refine (Kept.grows (Kept.foldl (f := rest) fun a x => ?_)).trans (doReset_grows _ _ _)
      cases x <;> exact Kept.trans (causeSet_fuse _ _) ⟨rfl, rfl⟩

theorem takeReset_grows (env : StartEnv) (k : ResetKind) (d : Dev) : Grows d (takeReset env k d) := by
  unfold takeReset
  split
  · exact Grows.refl d
  · exact doReset_grows _ _ _

theorem hardFinish_grows (env : StartEnv) (d : Dev) : Grows d (hardFinish env d) := by
  unfold hardFinish
  split
  · exact Grows.refl d
  · refine Grows.trans (Kept.grows ?_) (doResets_grows _ _ _)
    exact Kept.trans (setState_fuse _ _) (Kept.trans (amber_fuse _ _ _ _) (wipeMemories_fuse _))

theorem porReleaseGo_grows (fab : BitVec 6) (smb : BitVec 3) (env : StartEnv) (d : Dev) : Grows d (porReleaseGo fab smb env d) := by
  unfold porReleaseGo
  split
  · exact Grows.refl d
  · exact Grows.trans (Kept.grows ⟨rfl, rfl⟩) (tryStart_grows _ _)

theorem vddBrReturnGo_grows (env : StartEnv) (d : Dev) : Grows d (vddBrReturnGo env d) := by
  unfold vddBrReturnGo
  split
  · exact Grows.refl d
  · exact Grows.trans (Kept.grows ⟨rfl, rfl⟩) (tryStart_grows _ _)

theorem perstReleaseGo_grows (env : StartEnv) (d : Dev) : Grows d (perstReleaseGo env d) := by
  unfold perstReleaseGo
  dsimp only
  split
  · exact Grows.refl d
  split
  · exact Kept.grows ⟨rfl, rfl⟩
  · exact Grows.trans (Kept.grows ⟨rfl, rfl⟩) (tryStart_grows _ _)

theorem testLogicResetGo_grows (env : StartEnv) (d : Dev) : Grows d (testLogicResetGo env d) := by
  unfold testLogicResetGo
  dsimp only
  have k := jtagLoad_fuse .idcode 0xB481678B d
  split
  · exact Kept.grows k
  split
  · exact Kept.grows k
  · exact Grows.trans (Kept.grows k) (tryStart_grows _ _)

theorem softResetGo_grows (key : U16) (env : StartEnv) (d : Dev) : Grows d (softResetGo key env d) := by
  unfold softResetGo
  split
  · exact takeReset_grows _ _ _
  · exact Grows.refl d

theorem detectorGo_grows (first second : Nat) (lost : Bool) (env : StartEnv) (d : Dev) : Grows d (detectorGo first second lost env d) := by
  unfold detectorGo
  split
  · exact Grows.refl d
  dsimp only
  generalize hx : freeze _ 1 = d3
  have k : Kept d3 d := by rw [← hx]; simp
  split
  · exact k.grows
  split
  · exact Kept.grows (Kept.trans (hardStart_fuse _ _ _) k)
  split
  · exact Grows.trans (Kept.grows (Kept.trans (causeSet_fuse _ _) k)) (doReset_grows _ _ _)
  · exact k.grows.trans (doReset_grows _ _ _)

theorem wdogGo_grows (env : StartEnv) (d : Dev) : Grows d (wdogGo env d) := by
  unfold wdogGo
  split
  · exact Grows.refl d
  · exact Grows.trans (Kept.grows (by simp)) (takeReset_grows _ _ _)

theorem smbResetGo_grows (key : U16) (env : StartEnv) (d : Dev) : Grows d (smbResetGo key env d) := by
  unfold smbResetGo
  split
  · exact Kept.grows (by simp)
  · exact Grows.trans (Kept.grows (by simp)) (takeReset_grows _ _ _)

theorem serdesGo_grows (env : StartEnv) (d : Dev) : Grows d (serdesGo env d) := by
  unfold serdesGo serdesEnd
  have k := serdesDown_fuse d
  split
  · exact Kept.grows k
  · exact Grows.trans (Kept.grows (Kept.trans (linkOff_fuse _) k)) (takeReset_grows _ _ _)

theorem holdInstrGo_grows (k : HoldInsn) (d : Dev) : Grows d (holdInstrGo k d) := by
  have fin : ∀ x : Dev, Kept x d → Grows d (if d.glob.jtagHold then x else
      (if d.glob.st = .bedrock then { x with glob.jtagHold := true } else takeReset {} .hold { x with glob.jtagHold := true })) := by
    intro x h
    split
    · exact h.grows
    split
    · exact Kept.grows h
    · exact Grows.trans (Kept.grows h) (takeReset_grows _ _ _)
  unfold holdInstrGo
  exact fin _ (jtagLoad_fuse _ _ _)

/-! ## Life cycle and update -/

theorem lcCommit_grows (t : Token) (env : StartEnv) (d : Dev) : Grows d (lcCommit t env d) := by
  unfold lcCommit
  split
  · exact Kept.grows (lcDenied_fuse _ _ _)
  split
  · exact Kept.grows (lcDenied_fuse _ _ _)
  · dsimp only
    refine Grows.trans ?_ (takeReset_grows _ _ _)
    exact (((Kept.grows (endGrant_fuse d)).trans (modLcSlot_grows (endGrant d) _ _ ⟨or_grows _ _, BitVec.and_self, BitVec.and_self⟩)).step
      (lcEnd_fuse _ _ _)).step (amber_fuse _ _ _ _)

theorem grantStart_grows (g : Grant) (env : StartEnv) (d : Dev) : Grows d (grantStart g env d) := by
  have k : ∀ (c : Prop) [Decidable c] (a b : Dev), Kept a d → Kept b d → Kept (if c then a else b) d := by
    intro c _ a b ha hb; split
    · exact ha
    · exact hb
  have e := endGrant_fuse d
  unfold grantStart
  dsimp only
  generalize endGrant d = d1 at e ⊢
  have kn : Kept (grantNext { d1 with lc.want := some (g, false) }) d := Kept.trans (grantNext_fuse _) e
  generalize grantNext { d1 with lc.want := some (g, false) } = d2 at kn ⊢
  have kd := k ((decide (d.glob.lcCode = 2) && (g.scope.getLsbD 1 || g.scope.getLsbD 2)) = true)
    (if (d2.ks.zsoft.isSome && !d2.jobs.live.any (match d2.ks.zsoft with | some z => softHits z | none => fun _ => false)) = true then
        grantNext (zeroiseSoftGo d2) else d2)
    (grantNow { g with until' := d1.glob.tb + g.until' } d1)
    (k _ _ _ (Kept.trans (grantNext_fuse _) (Kept.trans (zeroiseSoftGo_fuse _) kn)) kn) (Kept.trans (grantNow_fuse _ _) e)
  have fin : ∀ (x : Dev) (b : Bool), Kept x d → Grows d (if b then takeReset env .soft x else x) := by
    intro x b h
    split
    · exact Grows.trans h.grows (takeReset_grows _ _ _)
    · exact h.grows
  exact fin _ _ kd

theorem submitGo_grows (env : StartEnv) (d : Dev) : Grows d (submitGo env d) := by
  have fin : ∀ (x : Dev) (t : Token), Kept x d → Grows d (if t.kind = 1 then lcCommit t env x
      else grantStart { scope := t.scope.setWidth 6, signer := BitVec.ofNat 2 t.signer, until' := BitVec.ofNat 64 (t.secs * 1000000000) }
        env (lcEnd x 2 lrOk)) := by
    intro x t h
    split
    · exact h.grows.trans (lcCommit_grows _ _ _)
    · exact Grows.trans (Kept.grows (Kept.trans (lcEnd_fuse _ _ _) h)) (grantStart_grows _ _ _)
  have bad : ∀ (x : Dev) (r : Byte) (n : Nat), Kept x d → Grows d (lcDenied x r n) := fun x r n h =>
    Kept.grows (Kept.trans (lcDenied_fuse _ _ _) h)
  unfold submitGo
  split
  · exact Grows.refl d
  dsimp only
  split
  · exact bad _ _ _ ⟨rfl, rfl⟩
  · exact fin _ _ ⟨rfl, rfl⟩

theorem grantOver_grows (env : StartEnv) (d : Dev) : Grows d (grantOver env d) := by
  unfold grantOver
  split
  · exact Grows.refl d
  split
  · exact Grows.trans (Kept.grows (endGrant_fuse d)) (takeReset_grows _ _ _)
  · exact Kept.grows (endGrant_fuse d)

theorem revokeGo_grows (env : StartEnv) (d : Dev) : Grows d (revokeGo env d) := by
  unfold revokeGo
  split
  · exact Grows.refl d
  · exact Grows.trans (Kept.grows (lcEnd_fuse _ _ _)) (grantOver_grows _ _)

theorem debugGrantExpiryGo_grows (env : StartEnv) (d : Dev) : Grows d (debugGrantExpiryGo env d) := by
  unfold debugGrantExpiryGo
  repeat' split
  all_goals first | exact grantOver_grows _ _ | exact Grows.refl d

theorem rowBlank_eq {r : KeyRow} (h : rowBlank r = true) : r = {} := by
  obtain ⟨a, b, c⟩ := r
  simp [rowBlank] at h
  obtain ⟨⟨h1, h2⟩, h3⟩ := h
  simp [h1, h2, h3]

theorem ikhPut_grows (d : Dev) (i : Nat) (row : KeyRow) (h : ∀ hi : i < 2, d.otp.ikh[i] = {}) :
    Grows d { d with otp.ikh := d.otp.ikh.setIfInBounds i row } := by
  obtain ⟨r1, r2, r3, r4, r5, r6, r7⟩ := otpGrows_refl d.otp
  refine ⟨⟨rfl, rfl, rfl, Nat.le_refl _, r5, fun j hj => ?_, r7⟩, BitVec.le_refl _⟩
  by_cases e : i = j
  · subst e
    rw [h hj]
    exact ⟨fun x => absurd rfl x, fun x => (by cases x), fun x => (by cases x)⟩
  · have : (d.otp.ikh.setIfInBounds i row)[j] = d.otp.ikh[j] := by simp [e]
    show RowGrows d.otp.ikh[j] (d.otp.ikh.setIfInBounds i row)[j]
    rw [this]
    exact r6 j hj

theorem ikhProgramGo_grows (ok : Bool) (d : Dev) : Grows d (ikhProgramGo ok d) := by
  have fin : ∀ (i : Nat) (row : KeyRow) (r : Byte), rowBlank (signerRow d.otp (2 + i)) = true → i < 2 →
      Grows d (lcEnd { d with otp.ikh := d.otp.ikh.setIfInBounds i row } 4 r) := by
    intro i row r h hi
    refine Grows.step (ikhPut_grows d i row fun _ => rowBlank_eq ?_) (lcEnd_fuse _ _ _)
    match i, hi with
    | 0, _ => exact h
    | 1, _ => exact h
  unfold ikhProgramGo
  split
  · exact Grows.refl d
  split
  · exact Kept.grows (lcEnd_fuse _ _ _)
  dsimp only
  generalize hi : (if rowBlank d.otp.ikh[0] then 0 else 1 : Nat) = i
  have hi2 : i < 2 := by rw [← hi]; split <;> omega
  by_cases hb : (decide (d.glob.lcCode ≠ 2) || !rowBlank (signerRow d.otp (2 + i))) = true
  · rw [if_pos hb]; exact Kept.grows (lcEnd_fuse _ _ _)
  · rw [if_neg hb]
    refine fin _ _ _ ?_ hi2
    revert hb
    cases rowBlank (signerRow d.otp (2 + i)) <;> simp

theorem activateRun_grows (env : StartEnv) (d : Dev) : Grows d (activateRun env d) := by
  unfold activateRun
  dsimp only
  split
  · exact Grows.trans (Kept.grows (Kept.trans (bootEnd_fuse _ _) (dirWrite_fuse _ _))) (takeReset_grows _ _ _)
  · exact Kept.grows (Kept.trans (rollout_fuse _ _) (dirWrite_fuse _ _))

theorem commitRun_grows (d : Dev) : Grows d (commitRun d) := by
  unfold commitRun
  split
  · exact Kept.grows (bootEnd_fuse _ _)
  · next v i _ =>
    dsimp only
    refine Grows.step ?_ (bootEnd_fuse _ _)
    have k := dirWrite_fuse d (setSlotState d.boot.slot slGood)
    generalize dirWrite d (setSlotState d.boot.slot slGood) = d1 at k ⊢
    obtain ⟨k1, k2⟩ := k
    rw [Grows, ← k1, ← k2]
    obtain ⟨r1, r2, r3, r4, r5, r6, r7⟩ := otpGrows_refl d1.otp
    refine ⟨⟨rfl, rfl, rfl, ?_, r5, r6, r7⟩, ?_⟩
    · dsimp only; split
      · exact Nat.le_max_left _ _
      · exact Nat.le_refl _
    · dsimp only; split
      · next h => simp at h; exact BitVec.le_of_lt h.2
      · exact BitVec.le_refl _

theorem bootCmd_grows (op : BitVec 4) (pre : Bool) (run : Dev → Dev) (d : Dev) (h : ∀ a, Grows a (run a)) : Grows d (bootCmd op pre run d) := by
  unfold bootCmd
  split
  · exact Grows.refl d
  dsimp only
  split
  · exact Kept.grows (bootEnd_fuse _ _)
  split
  · exact Kept.grows (bootEnd_fuse _ _)
  · exact Grows.trans (Kept.grows ⟨rfl, rfl⟩) (h _)

end Sys2Proof.Machine
end

