-- ==== Sys2Proof/Laws/FuseRegs.lean ====
section
/-!
SUPPORT. The registers and their accesses take nothing of OTP back; how a command's meaning shows that.
-/
set_option linter.unusedVariables false
namespace Sys2Proof.Machine

open Sys2Proof.Safety

/-! ## Registers -/

theorem bootCmdPut_grows (v : Nat) (d : Dev) : Grows d (bootCmdPut v d) := by
  unfold bootCmdPut
  split
  · exact Grows.refl d
  dsimp only
  generalize hx : ({ d with boot.op := BitVec.ofNat 4 v } : Dev) = x
  have k : Kept x d := by rw [← hx]; exact ⟨rfl, rfl⟩
  split
  · exact k.grows
  split
  · exact Kept.grows (Kept.trans (writeSlotGo_fuse _ _) ⟨rfl, rfl⟩)
  · exact Kept.grows (Kept.trans (verifyGo_fuse _) k)
  · exact k.grows.trans (bootCmd_grows _ _ _ _ fun a => activateRun_grows _ _)
  · exact k.grows.trans (bootCmd_grows _ _ _ _ fun a => commitRun_grows _)
  · exact Kept.grows (Kept.trans (rollbackGo_fuse _) k)
  · exact k.grows

theorem lcCmdPut_grows (v : Nat) (d : Dev) : Grows d (lcCmdPut v d) := by
  unfold lcCmdPut
  split
  · exact Grows.refl d
  dsimp only
  generalize hx : ({ d with lc.op := BitVec.ofNat 4 v } : Dev) = x
  have k : Kept x d := by rw [← hx]; exact ⟨rfl, rfl⟩
  split
  · exact k.grows
  split
  · exact Kept.grows (Kept.trans (challengeGo_fuse _) k)
  · exact k.grows.trans (submitGo_grows _ _)
  · exact k.grows.trans (revokeGo_grows _ _)
  · exact k.grows.trans (ikhProgramGo_grows _ _)
  · exact k.grows

/-- A write of a register takes nothing of OTP back, and a read of it leaves OTP alone. -/
def RegDef.Gains (r : RegDef) : Prop := (∀ v d, Grows d (r.put v d)) ∧ ∀ d, Kept (r.side d) d
/-- The same of the register that lies at an offset, if any. -/
def RegGains (o : Option RegDef) : Prop := ∀ r, o = some r → r.Gains

@[simp] theorem regGains_none : RegGains none := fun r h => by cases h
@[simp] theorem regGains_some (r : RegDef) : RegGains (some r) ↔ r.Gains :=
  ⟨fun h => h r rfl, fun h x e => by cases e; exact h⟩

theorem regGains_ite (c : Prop) [Decidable c] (a b : Option RegDef) (ha : RegGains a) (hb : RegGains b) : RegGains (if c then a else b) := by
  split
  · exact ha
  · exact hb

theorem gains_ro32 (g : Dev → Nat) : (ro32 g).Gains := ⟨fun _ d => Grows.refl d, fun _ => ⟨rfl, rfl⟩⟩

theorem gains_ro64 (g : Dev → Nat) : (ro64 g).Gains := ⟨fun _ d => Grows.refl d, fun _ => ⟨rfl, rfl⟩⟩

theorem gains_kept (w : Bool) (g l : Dev → Nat) (p : Nat → Dev → Dev) (s : Dev → Dev) (h : ∀ v d, Kept (p v d) d) (k : ∀ d, Kept (s d) d) :
    RegDef.Gains { wide := w, get := g, put := p, low := l, side := s } := ⟨fun v d => (h v d).grows, k⟩

theorem gains_put (w : Bool) (g l : Dev → Nat) (p : Nat → Dev → Dev) (s : Dev → Dev) (h : ∀ v d, Grows d (p v d)) (k : ∀ d, Kept (s d) d) :
    RegDef.Gains { wide := w, get := g, put := p, low := l, side := s } := ⟨h, k⟩

theorem evMapReg_gains (j : Nat) : (glbReg.evMapReg j).Gains := ⟨fun _ _ => Kept.grows ⟨rfl, rfl⟩, fun _ => ⟨rfl, rfl⟩⟩

theorem chal_gains (i : Nat) : (lcReg.chal i).Gains := gains_ro64 _

theorem stgReg_gains (w : Bool) (g : Shares → Nat) (f : Shares → Nat → Shares) : (stgReg w g f).Gains := by
  refine gains_kept _ _ _ _ _ (fun v d => ?_) fun d => ⟨rfl, rfl⟩
  split <;> exact ⟨rfl, rfl⟩

theorem rstPut_grows (v : Nat) (d : Dev) : Grows d (if fbit v 0 then softResetGo (BitVec.ofNat 16 (v / 65536)) {} d else d) := by
  split
  · exact softResetGo_grows _ _ _
  · exact Grows.refl d

theorem bootArg_kept (f : Dev → Dev) (h : ∀ d, Kept (f d) d) (d : Dev) : Kept (bootArg f d) d := by
  unfold bootArg; split
  · exact ⟨rfl, rfl⟩
  · exact h d

theorem engReg_gains (c off : Nat) : RegGains (engReg c off) := by
  unfold engReg
  split
  all_goals first
    | exact regGains_none
    | (refine (regGains_some _).2 (gains_kept _ _ _ _ _ (fun v d => ?_) fun d => ⟨rfl, rfl⟩); simp; done)

theorem glbReg_gains (off : Nat) : RegGains (glbReg off) := by
  unfold glbReg
  split
  all_goals first
    | exact regGains_none
    | exact (regGains_some _).2 (gains_ro32 _)
    | (refine (regGains_some _).2 (gains_kept _ _ _ _ _ (fun v d => ?_) fun d => ⟨rfl, rfl⟩); simp; done)
    | exact (regGains_some _).2 (gains_put _ _ _ _ _ rstPut_grows fun d => ⟨rfl, rfl⟩)

theorem lcReg_gains (off : Nat) : RegGains (lcReg off) := by
  unfold lcReg
  split
  all_goals first
    | exact regGains_none
    | (refine (regGains_some _).2 (gains_kept _ _ _ _ _ (fun v d => ?_) fun d => ⟨rfl, rfl⟩); simp; done)
    | exact (regGains_some _).2 (gains_put _ _ _ _ _ lcCmdPut_grows fun d => ⟨rfl, rfl⟩)

theorem bootReg_gains (off : Nat) : RegGains (bootReg off) := by
  unfold bootReg
  split
  all_goals first
    | exact regGains_none
    | (refine (regGains_some _).2 (gains_kept _ _ _ _ _ (fun v d => ?_) fun d => ⟨rfl, rfl⟩); refine bootArg_kept _ (fun d => ?_) _; exact ⟨rfl, rfl⟩)
    | (refine (regGains_some _).2 (gains_kept _ _ _ _ _ (fun v d => ?_) fun d => ⟨rfl, rfl⟩); simp; done)
    | exact (regGains_some _).2 (gains_put _ _ _ _ _ bootCmdPut_grows fun d => ⟨rfl, rfl⟩)

theorem bistReg_gains (off : Nat) : RegGains (bistReg off) := by
  unfold bistReg
  split
  all_goals first
    | exact (regGains_some _).2 (gains_ro64 _)
    | (refine (regGains_some _).2 (gains_kept _ _ _ _ _ (fun v d => ?_) fun d => ⟨rfl, rfl⟩); simp; done)
    | exact regGains_ite _ _ _ ((regGains_some _).2 (gains_ro64 _)) regGains_none

theorem rngReg_gains (off : Nat) : RegGains (rngReg off) := by
  unfold rngReg
  split
  all_goals first
    | exact regGains_none
    | exact (regGains_some _).2 (gains_ro64 _)
    | (refine (regGains_some _).2 (gains_kept _ _ _ _ _ (fun v d => ?_) fun d => ⟨rfl, rfl⟩); simp; done)

theorem ksReg_gains (off : Nat) : RegGains (ksReg off) := by
  unfold ksReg
  split
  all_goals first
    | exact regGains_none
    | (refine (regGains_some _).2 (gains_kept _ _ _ _ _ (fun v d => ?_) fun d => ⟨rfl, rfl⟩); simp; done)

theorem ssReg_gains (off : Nat) : RegGains (ssReg off) := by
  unfold ssReg
  split
  all_goals first
    | exact regGains_none
    | (refine (regGains_some _).2 (gains_kept _ _ _ _ _ (fun v d => ?_) fun d => ⟨rfl, rfl⟩); simp; done)

theorem vfmReg_gains (off : Nat) : RegGains (vfmReg off) := by
  unfold vfmReg
  split
  all_goals first
    | exact regGains_none
    | exact (regGains_some _).2 (gains_ro64 _)
    | (refine (regGains_some _).2 (gains_kept _ _ _ _ _ (fun v d => ?_) fun d => ⟨rfl, rfl⟩); simp; done)

theorem dlrReg_gains (off : Nat) : RegGains (dlrReg off) := by
  unfold dlrReg
  split
  all_goals first
    | exact regGains_none
    | (refine (regGains_some _).2 (gains_kept _ _ _ _ _ (fun v d => ?_) fun d => ⟨rfl, rfl⟩); simp; done)

theorem recReg_gains (off : Nat) : RegGains (recReg off) := by
  unfold recReg
  split
  all_goals first
    | exact regGains_none
    | (refine (regGains_some _).2 (gains_kept _ _ _ _ _ (fun v d => ?_) fun d => ⟨rfl, rfl⟩); simp; done)

theorem ambReg_gains (off : Nat) : RegGains (ambReg off) := by
  unfold ambReg
  split
  all_goals first
    | exact regGains_none
    | (refine (regGains_some _).2 (gains_kept _ _ _ _ _ (fun v d => ?_) fun d => ⟨rfl, rfl⟩); simp; done)

theorem bdrReg_gains (off : Nat) : RegGains (bdrReg off) := by
  unfold bdrReg
  split
  all_goals first
    | exact regGains_none
    | (refine (regGains_some _).2 (gains_kept _ _ _ _ _ (fun v d => ?_) fun d => ⟨rfl, rfl⟩); simp; done)

theorem fabReg_gains (off : Nat) : RegGains (fabReg off) := by
  unfold fabReg
  split
  all_goals first
    | (refine (regGains_some _).2 (gains_kept _ _ _ _ _ (fun v d => ?_) fun d => ⟨rfl, rfl⟩); simp; done)
    | exact regGains_ite _ _ _ ((regGains_some _).2 (gains_ro64 _)) (regGains_ite _ _ _ ((regGains_some _).2 (gains_ro64 _)) regGains_none)

theorem hifReg_gains (off : Nat) : RegGains (hifReg off) := by
  unfold hifReg
  split
  all_goals first
    | exact regGains_none
    | (refine (regGains_some _).2 (gains_kept _ _ _ _ _ (fun v d => ?_) fun d => ⟨rfl, rfl⟩); simp; done)

theorem tmonReg_gains (off : Nat) : RegGains (tmonReg off) := by
  unfold tmonReg
  split
  all_goals first
    | exact regGains_none
    | (refine (regGains_some _).2 (gains_kept _ _ _ _ _ (fun v d => ?_) fun d => ⟨rfl, rfl⟩); simp; done)

theorem pyReg_gains (c off : Nat) : RegGains (pyReg c off) := by
  unfold pyReg
  split
  all_goals first
    | (refine (regGains_some _).2 (gains_kept _ _ _ _ _ (fun v d => ?_) fun d => ⟨rfl, rfl⟩); simp; done)
    | exact engReg_gains _ _

theorem meReg_gains (c off : Nat) : RegGains (meReg c off) := by
  unfold meReg
  split
  all_goals first
    | (refine (regGains_some _).2 (gains_kept _ _ _ _ _ (fun v d => ?_) fun d => ⟨rfl, rfl⟩); simp; done)
    | exact engReg_gains _ _

theorem microReg_gains (c off : Nat) : RegGains (microReg c off) := by
  unfold microReg
  split
  all_goals first
    | (refine (regGains_some _).2 (gains_kept _ _ _ _ _ (fun v d => ?_) fun d => ⟨rfl, rfl⟩); simp; done)
    | exact regGains_ite _ _ _ ((regGains_some _).2 (gains_ro64 _)) regGains_none

theorem fqReg_gains (c off : Nat) : RegGains (fqReg c off) := by
  unfold fqReg
  split
  all_goals first
    | exact regGains_none
    | (refine (regGains_some _).2 (gains_kept _ _ _ _ _ (fun v d => ?_) fun d => ⟨rfl, rfl⟩); simp; done)

theorem sqReg_gains (f j q off : Nat) : RegGains (sqReg f j q off) := by
  unfold sqReg
  split
  all_goals first
    | exact regGains_none
    | exact (regGains_some _).2 (gains_ro64 _)
    | (refine (regGains_some _).2 (gains_kept _ _ _ _ _ (fun v d => ?_) fun d => ⟨rfl, rfl⟩); simp; done)
    | (refine (regGains_some _).2 (gains_kept _ _ _ _ _ (fun v d => ?_) fun d => ⟨rfl, rfl⟩); split <;> simp; done)

theorem cqReg_gains (f j q off : Nat) : RegGains (cqReg f j q off) := by
  unfold cqReg
  split
  all_goals first
    | exact regGains_none
    | (refine (regGains_some _).2 (gains_kept _ _ _ _ _ (fun v d => ?_) fun d => ⟨rfl, rfl⟩); simp; done)
    | (refine (regGains_some _).2 (gains_kept _ _ _ _ _ (fun v d => ?_) fun d => ⟨rfl, rfl⟩); split <;> simp; done)

theorem regGains_map (o : Option RegDef) (f : RegDef → RegDef) (h : RegGains o) (k : ∀ r, r.Gains → (f r).Gains) : RegGains (o.map f) := by
  intro r e
  obtain ⟨x, hx, hy⟩ := Option.map_eq_some_iff.1 e
  cases hy
  exact k x (h x hx)

theorem regGains_orElse (a b : Option RegDef) (ha : RegGains a) (hb : RegGains b) : RegGains (a.orElse fun _ => b) := by
  cases a with
  | some x => exact ha
  | none => exact hb

theorem readOnly_gains (r : RegDef) : (readOnly r).Gains := ⟨fun _ d => Grows.refl d, fun _ => ⟨rfl, rfl⟩⟩

theorem pfQueueReg_gains (d : Dev) (q off : Nat) : RegGains (pfQueueReg d q off) := by
  have v : ∀ (a b : Bool) (r : RegDef), r.Gains → RegDef.Gains (if a then r else if b then readOnly r else { wide := true }) := by
    intro a b r h
    split
    · exact h
    split
    · exact readOnly_gains r
    · exact ⟨fun _ d => Grows.refl d, fun _ => ⟨rfl, rfl⟩⟩
  unfold pfQueueReg
  dsimp only
  refine regGains_ite _ _ _ (regGains_map _ _ (sqReg_gains _ _ _ _) (v _ _)) (regGains_ite _ _ _ regGains_none
    (regGains_map _ _ (cqReg_gains _ _ _ _) (v _ _)))

theorem pfReg_gains (d : Dev) (off : Nat) : RegGains (pfReg d off) := by
  unfold pfReg
  dsimp only
  split
  · exact glbReg_gains _
  · exact lcReg_gains _
  · exact bootReg_gains _
  · exact bistReg_gains _
  · exact rngReg_gains _
  · exact ksReg_gains _
  · exact vfmReg_gains _
  · exact dlrReg_gains _
  · exact regGains_ite _ _ _ (pyReg_gains _ _) (regGains_ite _ _ _ (microReg_gains _ _) regGains_none)
  · exact regGains_ite _ _ _ ((regGains_some _).2 (gains_ro32 _)) (regGains_ite _ _ _
      (regGains_ite _ _ _ (engReg_gains _ _) (regGains_ite _ _ _ (microReg_gains _ _) regGains_none)) regGains_none)
  · exact regGains_ite _ _ _ regGains_none (regGains_ite _ _ _ (meReg_gains _ _) (regGains_ite _ _ _ (microReg_gains _ _) regGains_none))
  · exact regGains_ite _ _ _ (ssReg_gains _) (fqReg_gains _ _)
  · exact recReg_gains _
  · exact ambReg_gains _
  · exact fabReg_gains _
  · exact hifReg_gains _
  · exact tmonReg_gains _
  · exact bdrReg_gains _
  · exact regGains_ite _ _ _ (pfQueueReg_gains _ _ _) regGains_none

theorem vctlReg_gains (f : Nat) : (vctlReg f).Gains := gains_kept _ _ _ _ _ (fun v d => modOwn_fuse _ _ _) fun d => ⟨rfl, rfl⟩

theorem vfReg_gains (d : Dev) (f off : Nat) : RegGains (vfReg d f off) := by
  unfold vfReg
  dsimp only
  split
  · exact (regGains_some _).2 (gains_ro32 _)
  · exact (regGains_some _).2 (gains_ro64 _)
  · exact (regGains_some _).2 (gains_ro64 _)
  · exact (regGains_some _).2 (gains_ro64 _)
  · exact (regGains_some _).2 (gains_ro32 _)
  · exact (regGains_some _).2 (gains_ro64 _)
  · exact (regGains_some _).2 (vctlReg_gains f)
  · refine regGains_ite _ _ _ (fqReg_gains _ _) (regGains_ite _ _ _ ?_ regGains_none)
    split
    · exact sqReg_gains _ _ _ _
    · exact cqReg_gains _ _ _ _
    · exact regGains_orElse _ _ (sqReg_gains _ _ _ _) (cqReg_gains _ _ _ _)
    · exact regGains_none

theorem regAt_gains {d : Dev} {f off : Nat} {x : Nat × RegDef × Bool} (h : regAt d f off = some x) : x.2.1.Gains := by
  have g : ∀ o, RegGains (regHere d f o) := by
    intro o
    unfold regHere
    exact regGains_ite _ _ _ (pfReg_gains _ _) (vfReg_gains _ _ _)
  unfold regAt at h
  split at h
  · next r e => cases h; exact g _ _ e
  · split at h
    · cases h
    split at h
    · next r e =>
      split at h
      · cases h; exact g _ _ e
      · cases h
    · cases h

/-! ## Accesses -/

theorem setHeld_fuse' (d : Dev) (k : Nat) (v : Option U32) : Kept (setHeld d k v) d := ⟨rfl, rfl⟩

theorem regPut_grows (f off base : Nat) (r : RegDef) (hi : Bool) (bs : Bytes) (d : Dev) (h : r.Gains) : Grows d (regPut f off base r hi bs d) := by
  unfold regPut
  dsimp only
  split
  · exact h.1 _ _
  split
  · exact Grows.trans (Kept.grows (setHeld_fuse _ _ _)) (h.1 _ _)
  split
  · exact Kept.grows (setHeld_fuse _ _ _)
  split
  · exact Grows.trans (Kept.grows (setHeld_fuse _ _ _)) (h.1 _ _)
  · exact Kept.grows (badAccess_fuse _ _ _)

theorem regGet_kept (f off base : Nat) (r : RegDef) (hi : Bool) (n : Nat) (d : Dev) (h : r.Gains) : Kept (regGet f off base r hi n d).2 d := by
  unfold regGet
  dsimp only
  split
  · exact h.2 _
  split
  · exact h.2 _
  split
  · exact Kept.trans (setCap_fuse _ _ _) (h.2 _)
  split
  · split
    · exact setCap_fuse _ _ _
    · exact h.2 _
  · exact badAccess_fuse _ _ _

theorem putEach_kept (f : Nat → Byte → Dev → Dev) (h : ∀ o b d, Kept (f o b d) d) : ∀ (bs : Bytes) (o : Nat) (d : Dev), Kept (putEach f o bs d) d := by
  intro bs
  induction bs with
  | nil => intro o d; exact ⟨rfl, rfl⟩
  | cons b bs ih => intro o d; exact Kept.trans (ih _ _) (h _ _ _)

theorem msixWin_kept (f b off : Nat) (bs : Bytes) (d : Dev) : Kept ((msixWin f b).put off bs d) d := by
  unfold msixWin
  dsimp only
  split <;> simp

theorem winAt_kept {f off : Nat} {w : WinDef} (h : winAt f off = some w) (o : Nat) (bs : Bytes) (d : Dev) : Kept (w.put o bs d) d := by
  have hm := List.mem_of_find?_eq_some h
  have k : ∀ w ∈ windowsOf f, Kept (w.put o bs d) d := by
    unfold windowsOf
    split
    · unfold pfWindows
      simp only [List.forall_mem_cons]
      refine ⟨?_, ?_, ⟨rfl, rfl⟩, ⟨rfl, rfl⟩, ⟨rfl, rfl⟩, putEach_kept _ homePut_fuse _ _ _, putEach_kept _ allowPut_fuse _ _ _, msixWin_kept _ _ _ _ _, ⟨rfl, rfl⟩, ?_⟩
      · split <;> exact ⟨rfl, rfl⟩
      · split <;> exact ⟨rfl, rfl⟩
      · intro x hx; cases hx
    · simp only [List.forall_mem_cons]
      exact ⟨msixWin_kept _ _ _ _ _, ⟨rfl, rfl⟩, fun x hx => by cases hx⟩
  exact k w hm

theorem mapWrite_grows (f off : Nat) (bs : Bytes) (d : Dev) : Grows d (mapWrite f off bs d) := by
  unfold mapWrite
  dsimp only
  split
  · next w hw =>
    split
    · exact Kept.grows (badAccess_fuse _ _ _)
    split
    · exact Kept.grows (winAt_kept hw _ _ _)
    · exact Grows.refl d
  · split
    · exact Grows.refl d
    · next b r hi h =>
      split
      · exact Kept.grows (badAccess_fuse _ _ _)
      split
      · exact regPut_grows _ _ _ _ _ _ _ (regAt_gains h)
      · exact Grows.refl d

theorem mapRead_kept (f off n : Nat) (d : Dev) : Kept (mapRead f off n d).2 d := by
  unfold mapRead
  dsimp only
  split
  · split
    · exact badAccess_fuse _ _ _
    split <;> exact ⟨rfl, rfl⟩
  · split
    · exact ⟨rfl, rfl⟩
    · next h =>
      split
      · exact badAccess_fuse _ _ _
      split
      · exact regGet_kept _ _ _ _ _ _ _ (regAt_gains h)
      · exact ⟨rfl, rfl⟩

theorem barWrite_grows (f n off : Nat) (bs : Bytes) (d : Dev) : Grows d (barWrite f n off bs d) := by
  unfold barWrite
  split
  · exact Grows.refl d
  split
  · exact Kept.grows (barRefused_fuse _ _)
  split
  · exact Kept.grows (doorbellPut_fuse _ _ _ _ _)
  · exact Kept.grows (pushWriteGo_fuse _ _ _ _ _)
  · exact mapWrite_grows _ _ _ _
  · exact Grows.refl d

theorem barRead_kept (f n off size : Nat) (d : Dev) : Kept (barRead f n off size d) d := by
  unfold barRead
  split
  · exact ⟨rfl, rfl⟩
  split
  · exact barRefused_fuse _ _
  split
  · exact emit_fuse _ _
  · exact Kept.trans (emit_fuse _ _) ⟨rfl, rfl⟩
  · exact Kept.trans (emit_fuse _ _) (mapRead_kept _ _ _ _)
  · exact emit_fuse _ _

theorem tapGo_grows (a : RegAccess) (d : Dev) : Grows d (tapGo a d) := by
  have on : Kept { d with jtag.acc := true } d := ⟨rfl, rfl⟩
  have off : ∀ x : Dev, Grows d x → Grows d { x with jtag.acc := false } := fun _ h => ⟨h.1, h.2⟩
  have offK : ∀ x : Dev, Kept x d → Kept { x with jtag.acc := false } d := fun _ h => h
  unfold tapGo
  generalize hx : ({ d with jtag.acc := true } : Dev) = x at on ⊢
  dsimp only
  split
  · split
    · exact off _ (Grows.trans (Kept.grows on) (mapWrite_grows _ _ _ _))
    · exact Grows.refl d
  · split
    · exact Kept.grows (Kept.trans (emit_fuse _ _) (offK _ (Kept.trans (mapRead_kept _ _ _ _) on)))
    · exact Grows.refl d
  · exact Grows.refl d

theorem registerGo_grows (f : Nat) (a : RegAccess) (d : Dev) : Grows d (registerGo f a d) := by
  unfold registerGo
  split
  · exact tapGo_grows _ _
  split
  · exact barWrite_grows _ _ _ _ _
  · exact Kept.grows (barRead_kept _ _ _ _ _)
  · exact Kept.grows (cfgPut_fuse _ _ _)
  · exact Kept.grows (cfgRequest_fuse _ _ _ fun x => cfgRead_fuse _ _ _)


/-! ## Commands -/

/-- A command answers a next state, changes the device alone, and takes nothing of OTP back. -/
def ExecGrows (o : State → Out3) : Prop := ∀ s, ∃ d, o s = .next { s with dev := d } ∧ Grows s.dev d
theorem growGrows {o : State → Out3} {f : Dev → Dev} (e : ∀ s, o s = onDev s f) (h : ∀ d, Grows d (f d)) : ExecGrows o :=
  fun s => ⟨_, e s, h s.dev⟩
theorem keptGrows {o : State → Out3} {f : Dev → Dev} (e : ∀ s, o s = onDev s f) (h : ∀ d, Kept (f d) d) : ExecGrows o :=
  fun s => ⟨_, e s, (h s.dev).grows⟩
theorem pyGrows {o : State → Out3} {a : PyAt} {w : U32} {op : PyOp} (e : ∀ s, o s = onDev s (pyRun a w op))
    (h : ∀ p, PyEnd.Keeps p.d (op.body p)) : ExecGrows o := keptGrows e fun d => pyRun_fuse a w op d h
theorem uGrows {o : State → Out3} {u cls : Nat} {f : UFmt} {kinds : Nat → Bool} {use : UUse} {body : Ux → UEnd}
    (e : ∀ s, o s = onDev s (uRun u cls f kinds use body)) (h : ∀ x, UEnd.Keeps x.d (body x)) : ExecGrows o :=
  keptGrows e fun d => uRun_fuse u cls f kinds use body d h

end Sys2Proof.Machine
end

