-- ==== Sys2Proof/Laws/Devices.lean ====
section
/-!
SUPPORT. Keys, queues, the kitty, resets, the life cycle, updates, self-test, the recorder, the fabric and PCIe.
-/
set_option linter.unusedSimpArgs false
set_option linter.unusedVariables false

namespace Sys2Proof.Laws

open Sys2Proof.Machine Sys2Proof.Safety

theorem findJob_jobs {d d1 : Dev} {j : Nat} (h : d1.jobs = d.jobs) : findJob d1 j = findJob d j := by unfold findJob; rw [h]

theorem stay {i : Instr} {s : State} (h : exec i s = .next { s with dev := s.dev }) : exec i s = .next s := h

theorem giveEntries_keeps (d : Dev) (o : Nat) : (giveEntries d o).ks = d.ks ∧ (giveEntries d o).jobs = d.jobs := by
  unfold giveEntries
  generalize d.ss.keys = l
  induction l generalizing d with
  | nil => exact ⟨rfl, rfl⟩
  | cons e l ih =>
    rw [List.foldl_cons]
    refine ⟨(ih _).1.trans ?_, (ih _).2.trans ?_⟩ <;>
    · split
      · split
        · split
          · rename_i hx
            unfold jrnReserve at hx
            split at hx
            · cases hx
            · split at hx
              · cases hx
              · simp only [Option.some.injEq, Prod.mk.injEq] at hx
                rw [← hx.2]; rfl
          · rfl
        · rfl
      · rfl

theorem createObj_jobs (d : Dev) (o : Nat) (k : KObj) : (createObj d o k).2.jobs = d.jobs := by
  unfold createObj; split <;> rfl

theorem imported_of {i : Instr} {s : State} {d0 : Dev} {b : Job} {plain : Bytes} {cyc : Nat}
    (h : exec i s = .next { s with dev := importMake d0 b plain cyc }) : Imported i s d0 b plain cyc := keyMade_of h

theorem goesOn_of {i : Instr} {s : State} {d0 : Dev} {b : Job} {kind step cyc : Nat} {data : Bytes}
    (h : exec i s = .next { s with dev := importNext d0 b kind step cyc data }) : ImportGoesOn i s d0 b kind step cyc data := by
  refine ⟨h, fun hf => ⟨_, h, rfl, ?_⟩⟩
  unfold importNext
  refine findJob_modJob_self (b := b) _ ?_ rfl
  split
  · rename_i c _
    have he : ∀ f, (modEng d0 c f).jobs = d0.jobs := fun f => by obtain ⟨en, he⟩ := modEng_ex d0 c f; rw [he]
    exact (findJob_jobs (he _)).trans hf
  · exact hf

theorem unwrapped_of {i : Instr} {s : State} {d0 : Dev} {b : Job} {kek w : Bytes}
    (h : exec i s = .next { s with dev := importUnwrap d0 b kek w }) : Unwrapped i s d0 b kek w := by
  refine ⟨fun hu => refuse_over (next_eq h ?_), fun x hu => ⟨fun hl => refuse_over (next_eq h ?_),
    fun hl => ⟨fun hk => imported_of (next_eq h ?_), fun hk => goesOn_of (next_eq h ?_)⟩⟩⟩
  · unfold importUnwrap; simp only [hu]
  · unfold importUnwrap; simp only [hu]; exact if_pos (by simpa using hl)
  · unfold importUnwrap; simp only [hu]; exact (if_neg (by simpa using hl)).trans (if_pos hk)
  · unfold importUnwrap; simp only [hu]; exact (if_neg (by simpa using hl)).trans (if_neg hk)

theorem attested_of {i : Instr} {s : State} {b : Job} {c : String} {body : Bytes} (h : exec i s = .next { s with dev := attSign s.dev b c body }) :
    Attested i s b c body := by
  refine ⟨fun hb => ⟨fun hn => jobOver_of (next_eq h ?_), fun ok x y n hn => ⟨fun ho => jobDone_of (next_eq h ?_), fun ho => next_eq h ?_⟩⟩,
    fun hb => ⟨fun hn => jobOver_of (next_eq h ?_), fun n x hn => jobDone_of (next_eq h ?_)⟩⟩
  · unfold attSign; rw [if_pos hb]; simp only [hn]
  · unfold attSign; rw [if_pos hb]; simp only [hn]; exact if_neg (by rw [ho]; simp)
  · unfold attSign; rw [if_pos hb]; simp only [hn]; exact if_pos (by rw [ho]; rfl)
  · unfold attSign; rw [if_neg (by rw [hb]; simp)]; simp only [hn]
  · unfold attSign; rw [if_neg (by rw [hb]; simp)]; simp only [hn]

theorem raw_exec {s : State} {b : Job} {d1 : Dev} (h : JobReady s.dev b.id (isCode 0x9004) b) (e : rngRawRun s.dev b = d1) :
    exec (.rngRaw b.id) s = .next { s with dev := d1 } := by
  refine serve_to rngRawRun ?_ h e
  show onDev s (rawService b.id) = _
  unfold onDev rawService
  simp only [h.job, h.noAbort, h.inTime]
  rw [show (isCode 0x9004 b.e && b.phase == .placed && b.step == 1 && ((none : Option U16).isSome || false)) = false from Bool.and_false _]
  rfl

theorem sq_go {s : State} {f j q : Nat} {go : Nat → Dev} {d1 : Dev} (h : SqOpen s.dev f j q) (e : go q = d1) :
    (if (!barOk s.dev f) = true then s.dev else match sqDev s.dev f j with | some q => go q | none => s.dev) = d1 := by
  rw [h.1, h.2]; exact e

theorem sqr_go {s : State} {f j q : Nat} {go : Nat → Dev} {d1 : Dev} (h : SqOpen s.dev f j q) (hr : isReady s.dev = true) (e : go q = d1) :
    (if (!isReady s.dev || !barOk s.dev f) = true then s.dev else match sqDev s.dev f j with | some q => go q | none => s.dev) = d1 := by
  rw [hr, h.1, h.2]; exact e

theorem gives_of {i : Instr} {s : State} {go : Dev → Dev} {d1 : Dev} (hi : exec i s = onDev s go) (e : go s.dev = d1) : Gives i s d1 := by
  unfold Gives; rw [hi]; unfold onDev; rw [e]

theorem gives_done {i : Instr} {s : State} {d1 : Dev} {P : Dev → Prop} (h : Gives i s d1) (hp : P d1) : Completes i s P := ⟨_, h, rfl, hp⟩

theorem foldl_jobs {β : Type} (f : Dev → β → Dev) (h : ∀ d x, (f d x).jobs = d.jobs) (l : List β) (d : Dev) : (l.foldl f d).jobs = d.jobs := by
  induction l generalizing d with
  | nil => rfl
  | cons x l ih => rw [List.foldl_cons, ih, h]

theorem reports_jobs {a b : Dev} (h : Reports a b) : b.jobs = a.jobs := by obtain ⟨_, _, _, _, _, _, _, rfl⟩ := h; rfl

/-- A finished read lets the waiting reads go out: only the host interface changes, and what an event raises. -/
theorem readDone_keeps (d : Dev) (p : ReadFor → Bool) (n : Nat) : (readDone d p n).jobs = d.jobs ∧ (readDone d p n).glob.tb = d.glob.tb := by
  unfold readDone; split
  · exact ⟨rfl, rfl⟩
  · have key : ∀ (l : List Out) (x : Dev), (l.foldl emit x).jobs = x.jobs ∧ (l.foldl emit x).glob.tb = x.glob.tb := fun l => by
      induction l with
      | nil => exact fun _ => ⟨rfl, rfl⟩
      | cons o l ih =>
        intro x
        obtain ⟨h, a, b, e⟩ := emit_signals x o
        rw [List.foldl_cons, e]
        exact ⟨(ih _).1, (ih _).2⟩
    exact ⟨(key _ _).1, (key _ _).2⟩

/-- Marking when a job's input is in leaves the job its own. -/
theorem inputIn_id (d : Dev) (b : Job) : (inputIn d b).id = b.id := by unfold inputIn; split <;> rfl

theorem startReads_jobs (d : Dev) (b : Job) : (startReads d b).jobs = d.jobs := by
  have hr : ∀ d f a n w, (hostRead d f a n w).jobs = d.jobs := fun d f a n w => reports_jobs (hostRead_reports d f a n w)
  unfold startReads
  dsimp only
  have key : ∀ (c : Prop) [Decidable c] (x y : Dev), (if c then x else y).jobs = if c then x.jobs else y.jobs := by intro c _ x y; split <;> rfl
  simp only [key, hr, ite_self]

theorem resolveField_jobs {d d1 : Dev} {o : Nat} {u : KeyUse} {h : U32} (e : resolveField d o u h = some d1) : d1.jobs = d.jobs := by
  unfold resolveField at e
  split at e
  · have : ∀ c : Bool, (if c = true then some d else none) = some d1 → d1 = d := by
      intro c hc; cases c
      · cases hc
      · exact (Option.some.inj hc).symm
    rw [this _ e]
  · split at e
    · unfold resolveKey at e
      split at e
      · cases e
      · cases e; rfl
    · cases e; rfl

theorem modCore_jobs (d : Dev) (c : Nat) (f) : (modCore d c f).jobs = d.jobs := by unfold modCore; split <;> rfl

theorem modMe_jobs (d : Dev) (c : Nat) (f) : (modMe d c f).jobs = d.jobs := by unfold modMe; split <;> rfl

theorem modTs_jobs (d : Dev) (c : Nat) (f) : (modTs d c f).jobs = d.jobs := by unfold modTs; split <;> rfl

theorem giveParts_jobs (d : Dev) (b : Job) (c : Nat) : (giveParts d b c).jobs = d.jobs := by
  unfold giveParts
  exact foldl_jobs _ (fun d p => modCore_jobs _ _ _) _ _

theorem startIo_jobs (d : Dev) (b : Job) (c : Nat) (seed : Bytes) : (startIo d b c seed).jobs = d.jobs := by
  unfold startIo
  dsimp only
  split <;> rfl

theorem modSy_jobs (d : Dev) (c : Nat) (f) : (modSy d c f).jobs = d.jobs := by unfold modSy; split <;> rfl

/-- Saving a job's context moves it within its engine and the park slots; the jobs stay. -/
theorem saveOn_jobs (d : Dev) (pre : Bool) (b : Job) (c : Nat) : (saveOn d pre b c).jobs = d.jobs := by
  unfold saveOn holdCtx putPark
  dsimp only
  repeat' split
  all_goals simp only [modCore_jobs, modMe_jobs, modTs_jobs, modSy_jobs]

theorem startOn_jobs (d : Dev) (b : Job) (seed : Bytes) : (startOn d b seed).jobs = d.jobs := by
  unfold startOn
  extract_lets d1 d2
  have h1 : d1.jobs = d.jobs := foldl_jobs _ (fun d c => (modCore_jobs _ _ _).trans (giveParts_jobs _ _ _)) _ _
  have h2 : d2.jobs = d.jobs := (foldl_jobs _ (fun d c => by
    split
    · rfl
    split
    · exact modMe_jobs _ _ _
    split
    · exact modSy_jobs _ _ _
    split
    · exact modTs_jobs _ _ _
    · rfl) _ _).trans h1
  split
  · exact (startIo_jobs _ _ _ _).trans h2
  · exact h2

theorem vfm_go {i : Instr} {s : State} {op : Nat} {p : Bool} {d1 : Dev} (h : VfmReady s.dev) (hi : exec i s = onDev s (vfmGo op p))
    (e : (match vfmNode { s.dev with vfm.op := BitVec.ofNat 3 op, vfm.purge := p } with
      | some n => vfmRemote { s.dev with vfm.op := BitVec.ofNat 3 op, vfm.purge := p } n s.dev.vfm.sel.toNat op p
      | none => if op = 1 then vfmEnable { s.dev with vfm.op := BitVec.ofNat 3 op, vfm.purge := p } s.dev.vfm.sel.toNat
        else if op = 2 then vfmApply { s.dev with vfm.op := BitVec.ofNat 3 op, vfm.purge := p } s.dev.vfm.sel.toNat
        else vfmRemove { s.dev with vfm.op := BitVec.ofNat 3 op, vfm.purge := p } s.dev.vfm.sel.toNat p) = d1) : Gives i s d1 := by
  refine gives_of hi ?_
  have hm : mapServed s.dev = true := by unfold mapServed; rw [h.1]; simp
  unfold vfmGo ctlServed; rw [h.1, h.2.1, hm, h.2.2]; exact e

theorem getSrc_modSrc (d : Dev) {n : Nat} (f : Src → Src) (h : n < 4) : getSrc (modSrc d n f) n = f (getSrc d n) := by
  unfold modSrc getSrc; simp [h]

theorem getSrc_rng {d d1 : Dev} (n : Nat) (h : d1.rng = d.rng) : getSrc d1 n = getSrc d n := by unfold getSrc; rw [h]

theorem setState_reports (d : Dev) (st : DevState) : ∃ n, Reports { d with glob.st := st, glob.step := n } (setState d st) := by
  unfold setState
  split
  · next h => subst h; exact ⟨d.glob.step, Reports.refl d⟩
  · exact ⟨0, amber_reports _ _ _ _⟩

theorem toBedrock_in (d : Dev) : InBedrock (toBedrock d) := by
  unfold toBedrock
  obtain ⟨n, h, a, b, m, r, f, c, e⟩ := setState_reports
    { freshBoot (dropAll { d with glob.issuing := false }) with
      glob.tbRun := false, glob.safeCause := 0, bdr.alert := d.bdr.alert && !d.bdr.alertHold, bdr.alertHold := false } .bedrock
  dsimp only
  rw [e]
  exact ⟨rfl, rfl, rfl, rfl, rfl, rfl, rfl, rfl, rfl, rfl, rfl, rfl⟩

theorem porReset_in (d : Dev) : InBedrock (porReset d) := by
  obtain ⟨h1, h2, h3, h4, h5, h6, h7, h8, h9, h10, h11, h12⟩ := toBedrock_in { d with glob.hardZ := none, glob.heldResets := [] }
  unfold porReset
  generalize toBedrock { d with glob.hardZ := none, glob.heldResets := [] } = b at *
  exact ⟨h1, h2, h3, h4, h5, h6, h7, h8, h9, h10, h11, h12⟩

theorem held_iff (d : Dev) :
    (d.glob.porAsserted || !d.glob.vddBr || d.glob.perstAsserted || !d.glob.refclk || d.glob.jtagHold) = true ↔ Held d := by
  simp only [Bool.or_eq_true, Bool.not_eq_true', or_assoc, Held]

theorem tryStart_held {env : StartEnv} {d : Dev} (h : Held d) : tryStart env d = d := if_pos ((held_iff d).2 h)

theorem tryStart_free {env : StartEnv} {d : Dev} (h : ¬ Held d) : tryStart env d = started env d := if_neg fun x => h ((held_iff d).1 x)

theorem takeReset_held {env : StartEnv} {k : ResetKind} {d : Dev} (h : d.glob.hardZ.isSome = true) :
    takeReset env k d = { d with glob.heldResets := d.glob.heldResets ++ [k] } := if_pos h

theorem takeReset_free {env : StartEnv} {k : ResetKind} {d : Dev} (h : d.glob.hardZ = none) : takeReset env k d = doReset env d k :=
  if_neg (by rw [h]; simp)

theorem notHard {d : Dev} (h : d.glob.hardZ = none) : ¬ d.glob.hardZ.isSome = true := by rw [h]; simp

theorem foldl_reports_all {β : Type} (f : Dev → β → Dev) (h : ∀ d x, Reports d (f d x)) (l : List β) (d : Dev) : Reports d (l.foldl f d) :=
  Reports.foldl f h l d

theorem hot_same {d d' : Dev} (h : d'.tmon = d.tmon) : hotTj d' = hotTj d := by unfold hotTj; rw [h]

def sensorTmon (tj : List (BitVec 16)) (rails : List U16) (d : Dev) : Tmon :=
    let old := d.tmon
    let d1 : Dev := { d with tmon.tj := Vector.ofFn (fun i => tj.getD i.val (old.tj.toList.getD i.val 0))
                             tmon.rails := Vector.ofFn (fun i => rails.getD i.val (old.rails.toList.getD i.val 0)) }
    let hot := hotTj d1
    let cold := coldTj d1
    let hi := 8 * old.hi.toInt
    let lo := 8 * old.lo.toInt
    let off := 8 * (d.dlr.dutyOff.toNat : Int)
    let d2 := { d1 with
      tmon.hiArm := (old.hiArm && decide (hot < hi)) || decide (hot ≤ hi - 16)
      tmon.loArm := (old.loArm && decide (lo < cold)) || decide (lo + 16 ≤ cold)
      tmon.minTj := min old.minTj hot, tmon.maxTj := max old.maxTj hot
      tmon.coolTb := if hot ≤ off then some (old.coolTb.getD d.glob.tb) else none }
    let e1 : BitVec 4 := if old.hiArm && decide (hi ≤ hot) then 1 else 0
    let e2 : BitVec 4 := if old.loArm && decide (cold ≤ lo) then 2 else 0
    let warn := (List.range 9).any fun i =>
      !railIn d i (d2.tmon.rails.toList.getD i 0) && (old.rails.toList.getD i 0 == 0 || railIn d i (old.rails.toList.getD i 0))
    { d2.tmon with event := d2.tmon.event ||| (e1 ||| e2 ||| if warn then 4 else 0) }

theorem sensor_sum (tj : List (BitVec 16)) (rails : List U16) (d : Dev) (h1 : d.glob.porAsserted = false) (h2 : d.glob.vddBr = true) :
    Reports { d with tmon := sensorTmon tj rails d } (sensorReadGo tj rails d) := by
  unfold sensorReadGo
  rw [if_neg (by rw [h1, h2]; decide)]
  dsimp only
  refine Reports.trans ?_ (recLife_reports _ _)
  refine Reports.trans ?_ (Reports.foldl _ (fun d x => (recExtreme_reports _ _ _).trans (recExtreme_reports _ _ _)) _ _)
  refine Reports.trans ?_ (Reports.foldl _ (fun d x => (recExtreme_reports _ _ _).trans (recExtreme_reports _ _ _)) _ _)
  exact (raise_signals _ _ _ _).reports

theorem serdes_stays {env : StartEnv} {d : Dev} (h : d.glob.st = .bedrock ∨ d.hif.linkUp = false) : serdesEnd env d = d := by
  refine if_pos ?_
  rcases h with h | h
  · rw [h]; rfl
  · rw [h]; simp

theorem serdes_hot {env : StartEnv} {d : Dev} (h1 : d.glob.st ≠ .bedrock) (h2 : d.hif.linkUp = true) (h3 : d.glob.hardZ = none) :
    serdesEnd env d = hotReset env (causeSet (linkOff d) 2) := by
  refine (if_neg ?_).trans (takeReset_free h3)
  rw [decide_eq_false h1, h2]; decide

theorem hardEnd (x : Dev) (c : ACode) (s : ASrc) (a : Bytes) (st : DevState) :
    let d2 := setState { amber x c s a with glob.hardZ := none, glob.zmark := false, glob.heldResets := [], glob.safeCause := 0
                                            bdr.alert := true, bdr.alertHold := true } st
    d2.glob.st = st ∧ d2.glob.hardZ = none ∧ d2.glob.zmark = false ∧ d2.io = x.io ∧ d2.cores = x.cores ∧ d2.mes = x.mes ∧ d2.tss = x.tss
      ∧ d2.ks = x.ks := by
  obtain ⟨h, a, b, m, r, f, c, e⟩ := amber_reports x c s a
  rw [e]
  obtain ⟨n, h, a, b, m, r, f, c, e⟩ := setState_reports
    { ({ x with hif := h, glob := { x.glob with evHold := a, evCarry := b }, amb := m, bdr := r, fab := f, recd := c } : Dev) with
      glob.hardZ := none, glob.zmark := false, glob.heldResets := [], glob.safeCause := 0, bdr.alert := true, bdr.alertHold := true } st
  intro d2
  have e : d2 = _ := e
  rw [e]
  exact ⟨rfl, rfl, rfl, rfl, rfl, rfl, rfl, rfl⟩

theorem softFinish_sum (d : Dev) (z : SoftZ) (h : d.ks.zsoft = some z) (hj : d.jobs.live.any (softHits z) = false) (hb : z.byJob = none) :
    Reports { (if z.persist then softSalts ((softObjs d z).foldl (fun acc e =>
        if e.2.stateful then zeroStateful acc (e.1 / 65536) (e.1 % 65536) else destroySlot acc (e.1 / 65536) (e.1 % 65536)) d) z
      else (softObjs d z).foldl (fun acc e =>
        if e.2.stateful then zeroStateful acc (e.1 / 65536) (e.1 % 65536) else destroySlot acc (e.1 / 65536) (e.1 % 65536)) d) with
      ks.zsoft := none, ks.zowner := if z.all then 0xFF else BitVec.ofNat 8 z.owner, ks.zdone := true } (softFinish d) := by
  unfold softFinish
  rw [h]
  dsimp only
  rw [hj, hb]
  simp only [Bool.false_eq_true, if_false]
  refine Reports.trans ?_ (amber_reports _ _ _ _)
  exact (raise_signals _ _ _ _).reports

theorem zsoft_none {d d' : Dev} (h : Reports d d') (e : d.ks.zsoft = none) : d'.ks.zsoft = none := by
  obtain ⟨h, a, b, m, r, f, c, rfl⟩ := h; exact e

theorem notOpen {d : Dev} (h : lcOpen d = true) : ¬ (!lcOpen d) = true := by rw [h]; decide

theorem bootCmd_runs {i : Instr} {s : State} {op : BitVec 4} {pre : Bool} {p : Prop} (run : Dev → Dev)
    (ho : bootOpen s.dev = true) (hi : exec i s = .next { s with dev := bootCmd op pre run s.dev }) (hp : pre = true ↔ p) :
    (s.dev.glob.st = .held ∨ ¬ p → Gives i s (bootEnd { s.dev with boot.op := op } brState))
    ∧ (s.dev.glob.st ≠ .held → p → nvmDown s.dev = true → Gives i s (bootEnd { s.dev with boot.op := op } brNvm))
    ∧ (s.dev.glob.st ≠ .held → p → nvmDown s.dev = false → Gives i s (run { s.dev with boot.op := op, boot.inst := 0, boot.done := 0 })) := by
  have eq : bootCmd op pre run s.dev = (if (decide (s.dev.glob.st = .held) || !pre) = true then bootEnd { s.dev with boot.op := op } brState
    else if nvmDown s.dev = true then bootEnd { s.dev with boot.op := op } brNvm
    else run { s.dev with boot.op := op, boot.inst := 0, boot.done := 0 }) := by
    unfold bootCmd; exact if_neg (by rw [ho]; decide)
  unfold Gives
  rw [hi, eq]
  refine ⟨fun h => ?_, fun h1 h2 h3 => ?_, fun h1 h2 h3 => ?_⟩
  · rw [if_pos]
    rcases h with h | h
    · simp [h]
    · have : pre = false := by cases hpre : pre with | false => rfl | true => exact absurd (hp.1 hpre) h
      simp [this]
  · rw [if_neg (by rw [hp.2 h2]; simp [h1]), if_pos h3]
  · rw [if_neg (by rw [hp.2 h2]; simp [h1]), if_neg (by rw [h3]; decide)]

theorem mapGet_mapAll_from {α : Type} [DecidableEq α] {d : α} {f : Nat → α → α} (hf : ∀ k, f k d = d) (k : Nat) :
    ∀ (m : SMap α) (lo : Nat), mapWfFrom d lo m = true → mapGet d (mapAll d f m) k = f k (mapGet d m k) := by
  intro m
  induction m with
  | nil => intro lo _; exact (hf k).symm
  | cons e m ih =>
    obtain ⟨a, v⟩ := e
    intro lo h
    have h' : lo ≤ a ∧ v ≠ d ∧ mapWfFrom d (a + 1) m = true := by
      simpa [mapWfFrom, and_assoc] using h
    have ih := ih (a + 1) h'.2.2
    have hc : mapGet d ((a, v) :: m) k = if a = k then v else mapGet d m k := by
      by_cases x : a = k
      · simp [mapGet, x]
      · simp [mapGet, x, Ne.symm x, eq_comm]
    have hall : mapAll d f ((a, v) :: m) = if f a v ≠ d then (a, f a v) :: mapAll d f m else mapAll d f m := by
      unfold mapAll
      by_cases x : f a v = d
      · simp [x]
      · simp [x]
    rw [hc, hall]
    by_cases x : a = k
    · subst x
      rw [if_pos rfl]
      by_cases y : f a v = d
      · rw [if_neg (by simpa using y), ih, mapGet_below h'.2.2 (by omega), hf, y]
      · rw [if_pos y]; simp [mapGet]
    · rw [if_neg x, ← ih]
      by_cases y : f a v = d
      · rw [if_neg (by simpa using y)]
      · rw [if_pos y]; simp [mapGet, x, Ne.symm x, eq_comm]

theorem sm_of {i : Instr} {s : State} {f : Dev → Dev} {d1 : Dev} (ha : bedrockAlive s.dev = true) (hi : exec i s = onDev s (smDo f)) (e : f s.dev = d1) :
    Gives i s d1 := gives_of hi ((if_pos ha).trans e)

theorem frame_exec {i : Instr} {t : FType} {f : Frame} (h : Brings i t f) (s : State) : exec i s = onDev s (frameIn t f) := by
  cases t <;> (cases h; rfl)

theorem port_served {d : Dev} {p : Nat} (h1 : p < 4) (h2 : (getPort d p).state ≠ 3) (h3 : (getPort d p).barred = false) (h4 : d.fab.role ≠ .alone) :
    ¬ (decide (4 ≤ p) || (getPort d p).state == 3 || (getPort d p).barred || d.fab.role == .alone) = true := by
  have e2 : ((getPort d p).state == 3) = false := beq_eq_false_iff_ne.2 h2
  have e4 : (d.fab.role == .alone) = false := beq_eq_false_iff_ne.2 h4
  rw [e2, h3, e4, decide_eq_false (by omega)]; decide

theorem bar_map {s : State} {f off : Nat} {bs : Bytes} (hf : f < 256) (h : barThere s.dev f 0 = true) (hb : bs ≠ []) (hp : barPart f 0 off = .map) :
    registerGo f (.bar 0 off bs) s.dev = mapWrite f off bs s.dev := by
  unfold registerGo
  rw [if_neg (by unfold tapFn; omega)]
  show barWrite f 0 off bs s.dev = _
  unfold barWrite
  rw [if_neg (by simpa using hb), if_neg (by rw [h]; decide), hp]

theorem read_map {s : State} {f off n : Nat} (hf : f < 256) (h : barThere s.dev f 0 = true) (hb : n ≠ 0) (hp : barPart f 0 off = .map) :
    registerGo f (.read 0 off n) s.dev = emit (mapRead f off n s.dev).2 (.cpl f (mapRead f off n s.dev).1) := by
  unfold registerGo
  rw [if_neg (by unfold tapFn; omega)]
  show barRead f 0 off n s.dev = _
  unfold barRead
  rw [if_neg hb, if_neg (by rw [h]; decide), hp]

end Sys2Proof.Laws
end

