-- ==== Sys2Proof/Laws/ExecGrows.lean ====
section
/-!
SUPPORT. No command takes anything back from OTP: one lemma per command; and every command is a change of the device.
-/
set_option linter.unusedSimpArgs false
set_option linter.unusedVariables false

namespace Sys2Proof.Laws

open Sys2Proof.Machine Sys2Proof.Safety

theorem exec_porNAssert_grows : ExecGrows (exec (.porNAssert )) := fun s => ⟨_, rfl, Kept.grows (by simp [service_fuse, serviceNone_fuse, bootCmd_fuse, smDo_fuse, inStage_fuse])⟩

theorem exec_porNRelease_grows : ∀ fabId smbAddr env, ExecGrows (exec (.porNRelease fabId smbAddr env)) := fun fabId smbAddr env => growGrows (fun _ => rfl) fun d => porReleaseGo_grows _ _ _ _

theorem exec_bedrockBrownout_grows : ExecGrows (exec (.bedrockBrownout )) := fun s => ⟨_, rfl, Kept.grows (by simp [service_fuse, serviceNone_fuse, bootCmd_fuse, smDo_fuse, inStage_fuse])⟩

theorem exec_perstNAssert_grows : ExecGrows (exec (.perstNAssert )) :=  fun s => ⟨_, rfl, by
  dsimp only
  split
  · exact Grows.refl _
  · exact Grows.trans (Kept.grows ⟨rfl, rfl⟩) (takeReset_grows _ _ _)⟩

theorem exec_perstNRelease_grows : ∀ env, ExecGrows (exec (.perstNRelease env)) := fun env => growGrows (fun _ => rfl) fun d => perstReleaseGo_grows _ _

theorem exec_selftestTempWait_grows : ∀ env, ExecGrows (exec (.selftestTempWait env)) := fun env =>  fun s => ⟨_, rfl, by
  dsimp only
  split
  · exact takeReset_grows _ _ _
  · exact Grows.refl _⟩

theorem exec_hotReset_grows : ∀ env, ExecGrows (exec (.hotReset env)) := fun env =>  fun s => ⟨_, rfl, by
  dsimp only
  split
  · exact Grows.refl _
  · exact takeReset_grows _ _ _⟩

theorem exec_pfFlr_grows : ExecGrows (exec (.pfFlr )) :=  fun s => ⟨_, rfl, by
  dsimp only
  split
  · exact Grows.refl _
  · exact takeReset_grows _ _ _⟩

theorem exec_vfFlr_grows : ∀ f, ExecGrows (exec (.vfFlr f)) := fun f => keptGrows (fun _ => rfl) fun d => by simp [service_fuse, serviceNone_fuse, kemService_fuse, bootCmd_fuse, smDo_fuse, inStage_fuse]

theorem exec_vfResetDone_grows : ∀ f, ExecGrows (exec (.vfResetDone f)) := fun f => keptGrows (fun _ => rfl) fun d => by simp [service_fuse, serviceNone_fuse, kemService_fuse, bootCmd_fuse, smDo_fuse, inStage_fuse]

theorem exec_softReset_grows : ∀ key env, ExecGrows (exec (.softReset key env)) := fun key env => growGrows (fun _ => rfl) fun d => softResetGo_grows _ _ _

theorem exec_jtagHoldInstr_grows : ∀ k, ExecGrows (exec (.jtagHoldInstr k)) := fun k => growGrows (fun _ => rfl) fun d => holdInstrGo_grows _ _

theorem exec_jtagTestLogicReset_grows : ∀ env, ExecGrows (exec (.jtagTestLogicReset env)) := fun env => growGrows (fun _ => rfl) fun d => testLogicResetGo_grows _ _

theorem exec_bypass_grows : ExecGrows (exec (.bypass )) := keptGrows (fun _ => rfl) fun d => by simp [service_fuse, serviceNone_fuse, kemService_fuse, bootCmd_fuse, smDo_fuse, inStage_fuse]

theorem exec_idcode_grows : ExecGrows (exec (.idcode )) := fun s => ⟨_, rfl, Kept.grows (by simp [service_fuse, serviceNone_fuse, bootCmd_fuse, smDo_fuse, inStage_fuse])⟩

theorem exec_samplePreload_grows : ExecGrows (exec (.samplePreload )) := keptGrows (fun _ => rfl) fun d => by simp [service_fuse, serviceNone_fuse, kemService_fuse, bootCmd_fuse, smDo_fuse, inStage_fuse]

theorem exec_jtagDebug_grows : ExecGrows (exec (.jtagDebug )) := fun s => ⟨_, rfl, Kept.grows (by simp [service_fuse, serviceNone_fuse, bootCmd_fuse, smDo_fuse, inStage_fuse])⟩

theorem exec_detectorEvent_grows : ∀ first second refclkLost env, ExecGrows (exec (.detectorEvent first second refclkLost env)) := fun first second refclkLost env => growGrows (fun _ => rfl) fun d => detectorGo_grows _ _ _ _ _

theorem exec_serdesRailLoss_grows : ∀ env, ExecGrows (exec (.serdesRailLoss env)) := fun env => growGrows (fun _ => rfl) fun d => serdesGo_grows _ _

theorem exec_sensorRead_grows : ∀ tj rails, ExecGrows (exec (.sensorRead tj rails)) := fun tj rails => keptGrows (fun _ => rfl) fun d => by simp [service_fuse, serviceNone_fuse, kemService_fuse, bootCmd_fuse, smDo_fuse, inStage_fuse]

theorem exec_sqDoorbell_grows : ∀ f q tail, ExecGrows (exec (.sqDoorbell f q tail)) := fun f q tail => keptGrows (fun _ => rfl) fun d => by simp [service_fuse, serviceNone_fuse, kemService_fuse, bootCmd_fuse, smDo_fuse, inStage_fuse]

theorem exec_cqHeadDoorbell_grows : ∀ f q head, ExecGrows (exec (.cqHeadDoorbell f q head)) := fun f q head => keptGrows (fun _ => rfl) fun d => by simp [service_fuse, serviceNone_fuse, kemService_fuse, bootCmd_fuse, smDo_fuse, inStage_fuse]

theorem exec_doorbell64_grows : ∀ f q tail head, ExecGrows (exec (.doorbell64 f q tail head)) := fun f q tail head => fun s => ⟨_, rfl, Kept.grows (by simp [service_fuse, serviceNone_fuse, bootCmd_fuse, smDo_fuse, inStage_fuse])⟩

theorem exec_pushWindowWrite_grows : ∀ f q off data, ExecGrows (exec (.pushWindowWrite f q off data)) := fun f q off data => keptGrows (fun _ => rfl) fun d => by simp [service_fuse, serviceNone_fuse, kemService_fuse, bootCmd_fuse, smDo_fuse, inStage_fuse]

theorem exec_entryFetch_grows : ∀ o, ExecGrows (exec (.entryFetch o)) := fun o => keptGrows (fun _ => rfl) fun d => by simp [service_fuse, serviceNone_fuse, kemService_fuse, bootCmd_fuse, smDo_fuse, inStage_fuse]

theorem exec_entryReadDone_grows : ∀ q r, ExecGrows (exec (.entryReadDone q r)) := fun q r => keptGrows (fun _ => rfl) fun d => by simp [service_fuse, serviceNone_fuse, kemService_fuse, bootCmd_fuse, smDo_fuse, inStage_fuse]

theorem exec_jobPlace_grows : ∀ j, ExecGrows (exec (.jobPlace j)) := fun j => keptGrows (fun _ => rfl) fun d => by simp [service_fuse, serviceNone_fuse, kemService_fuse, bootCmd_fuse, smDo_fuse, inStage_fuse]

theorem exec_blobUnwrapDone_grows : ∀ j, ExecGrows (exec (.blobUnwrapDone j)) := fun j => keptGrows (fun _ => rfl) fun d => by simp [service_fuse, serviceNone_fuse, kemService_fuse, bootCmd_fuse, smDo_fuse, inStage_fuse]

theorem exec_hybridHalfDone_grows : ∀ j ec, ExecGrows (exec (.hybridHalfDone j ec)) := fun j ec => keptGrows (fun _ => rfl) fun d => by simp [service_fuse, serviceNone_fuse, kemService_fuse, bootCmd_fuse, smDo_fuse, inStage_fuse]

theorem exec_dmaReadCompletion_grows : ∀ j side r, ExecGrows (exec (.dmaReadCompletion j side r)) := fun j side r => keptGrows (fun _ => rfl) fun d => by simp [service_fuse, serviceNone_fuse, kemService_fuse, bootCmd_fuse, smDo_fuse, inStage_fuse]

theorem exec_dmaReadTimeout_grows : ∀ t, ExecGrows (exec (.dmaReadTimeout t)) := fun t => keptGrows (fun _ => rfl) fun d => by simp [service_fuse, serviceNone_fuse, kemService_fuse, bootCmd_fuse, smDo_fuse, inStage_fuse]

theorem exec_outputListChecked_grows : ∀ j, ExecGrows (exec (.outputListChecked j)) := fun j => keptGrows (fun _ => rfl) fun d => by simp [service_fuse, serviceNone_fuse, kemService_fuse, bootCmd_fuse, smDo_fuse, inStage_fuse]

theorem exec_inputPageFilled_grows : ∀ c page, ExecGrows (exec (.inputPageFilled c page)) := fun c page => keptGrows (fun _ => rfl) fun d => by simp [service_fuse, serviceNone_fuse, kemService_fuse, bootCmd_fuse, smDo_fuse, inStage_fuse]

theorem exec_auxFillDone_grows : ∀ c, ExecGrows (exec (.auxFillDone c)) := fun c => keptGrows (fun _ => rfl) fun d => by simp [service_fuse, serviceNone_fuse, kemService_fuse, bootCmd_fuse, smDo_fuse, inStage_fuse]

theorem exec_outputBufferRoom_grows : ∀ c, ExecGrows (exec (.outputBufferRoom c)) := fun c => keptGrows (fun _ => rfl) fun d => by simp [service_fuse, serviceNone_fuse, kemService_fuse, bootCmd_fuse, smDo_fuse, inStage_fuse]

theorem exec_mramCommitDone_grows : ∀ j, ExecGrows (exec (.mramCommitDone j)) := fun j => keptGrows (fun _ => rfl) fun d => by simp [service_fuse, serviceNone_fuse, kemService_fuse, bootCmd_fuse, smDo_fuse, inStage_fuse]

theorem exec_coalTimerExpiry_grows : ∀ c, ExecGrows (exec (.coalTimerExpiry c)) := fun c => keptGrows (fun _ => rfl) fun d => by simp [service_fuse, serviceNone_fuse, kemService_fuse, bootCmd_fuse, smDo_fuse, inStage_fuse]

theorem exec_yieldTimeout_grows : ∀ cell, ExecGrows (exec (.yieldTimeout cell)) := fun cell => keptGrows (fun _ => rfl) fun d => by simp [service_fuse, serviceNone_fuse, kemService_fuse, bootCmd_fuse, smDo_fuse, inStage_fuse]

theorem exec_trickBoundary_grows : ExecGrows (exec (.trickBoundary )) := keptGrows (fun _ => rfl) fun d => by simp [service_fuse, serviceNone_fuse, kemService_fuse, bootCmd_fuse, smDo_fuse, inStage_fuse]

theorem exec_decisionPoint_grows : ExecGrows (exec (.decisionPoint )) := keptGrows (fun _ => rfl) fun d => by simp [service_fuse, serviceNone_fuse, kemService_fuse, bootCmd_fuse, smDo_fuse, inStage_fuse]

theorem exec_roundBoundary_grows : ExecGrows (exec (.roundBoundary )) := keptGrows (fun _ => rfl) fun d => by simp [service_fuse, serviceNone_fuse, kemService_fuse, bootCmd_fuse, smDo_fuse, inStage_fuse]

theorem exec_dutyCoolTimer_grows : ExecGrows (exec (.dutyCoolTimer )) := keptGrows (fun _ => rfl) fun d => by simp [service_fuse, serviceNone_fuse, kemService_fuse, bootCmd_fuse, smDo_fuse, inStage_fuse]

theorem exec_sqEnable_grows : ∀ f q v, ExecGrows (exec (.sqEnable f q v)) := fun f q v => keptGrows (fun _ => rfl) fun d => by simp [service_fuse, serviceNone_fuse, kemService_fuse, bootCmd_fuse, smDo_fuse, inStage_fuse]

theorem exec_sqDisable_grows : ∀ f q v, ExecGrows (exec (.sqDisable f q v)) := fun f q v => keptGrows (fun _ => rfl) fun d => by simp [service_fuse, serviceNone_fuse, kemService_fuse, bootCmd_fuse, smDo_fuse, inStage_fuse]

theorem exec_cqEnable_grows : ∀ f q v, ExecGrows (exec (.cqEnable f q v)) := fun f q v => keptGrows (fun _ => rfl) fun d => by simp [service_fuse, serviceNone_fuse, kemService_fuse, bootCmd_fuse, smDo_fuse, inStage_fuse]

theorem exec_cqDisable_grows : ∀ f q v, ExecGrows (exec (.cqDisable f q v)) := fun f q v => keptGrows (fun _ => rfl) fun d => by simp [service_fuse, serviceNone_fuse, kemService_fuse, bootCmd_fuse, smDo_fuse, inStage_fuse]

theorem exec_sqHeadWrite_grows : ∀ f q v, ExecGrows (exec (.sqHeadWrite f q v)) := fun f q v => keptGrows (fun _ => rfl) fun d => by simp [service_fuse, serviceNone_fuse, kemService_fuse, bootCmd_fuse, smDo_fuse, inStage_fuse]

theorem exec_cqPtrWrite_grows : ∀ f q v, ExecGrows (exec (.cqPtrWrite f q v)) := fun f q v => keptGrows (fun _ => rfl) fun d => by simp [service_fuse, serviceNone_fuse, kemService_fuse, bootCmd_fuse, smDo_fuse, inStage_fuse]

theorem exec_registerWrite_grows : ∀ f a, ExecGrows (exec (.registerWrite f a)) := fun f a => growGrows (fun _ => rfl) fun d => registerGo_grows _ _ _

theorem exec_nop_grows : ∀ j, ExecGrows (exec (.nop j)) := fun j => keptGrows (fun _ => rfl) fun d => by simp [service_fuse, serviceNone_fuse, kemService_fuse, bootCmd_fuse, smDo_fuse, inStage_fuse]

theorem exec_echo_grows : ∀ j, ExecGrows (exec (.echo j)) := fun j => keptGrows (fun _ => rfl) fun d => by simp [service_fuse, serviceNone_fuse, kemService_fuse, bootCmd_fuse, smDo_fuse, inStage_fuse]

theorem exec_queryCaps_grows : ∀ j, ExecGrows (exec (.queryCaps j)) := fun j => keptGrows (fun _ => rfl) fun d => by simp [service_fuse, serviceNone_fuse, kemService_fuse, bootCmd_fuse, smDo_fuse, inStage_fuse]

theorem exec_time_grows : ∀ j, ExecGrows (exec (.time j)) := fun j => keptGrows (fun _ => rfl) fun d => by simp [service_fuse, serviceNone_fuse, kemService_fuse, bootCmd_fuse, smDo_fuse, inStage_fuse]

theorem exec_fateQuery_grows : ∀ j, ExecGrows (exec (.fateQuery j)) := fun j => keptGrows (fun _ => rfl) fun d => by simp [service_fuse, serviceNone_fuse, kemService_fuse, bootCmd_fuse, smDo_fuse, inStage_fuse]

theorem exec_fateRelease_grows : ∀ j, ExecGrows (exec (.fateRelease j)) := fun j => keptGrows (fun _ => rfl) fun d => by simp [service_fuse, serviceNone_fuse, kemService_fuse, bootCmd_fuse, smDo_fuse, inStage_fuse]

theorem exec_notify_grows : ∀ j, ExecGrows (exec (.notify j)) := fun j => keptGrows (fun _ => rfl) fun d => by simp [service_fuse, serviceNone_fuse, kemService_fuse, bootCmd_fuse, smDo_fuse, inStage_fuse]

theorem exec_byJob_grows : ∀ f, ExecGrows (exec (.byJob f)) := fun f => fun s => ⟨_, rfl, Kept.grows (by simp [service_fuse, serviceNone_fuse, bootCmd_fuse, smDo_fuse, inStage_fuse])⟩

theorem exec_byKey_grows : ∀ f, ExecGrows (exec (.byKey f)) := fun f => fun s => ⟨_, rfl, Kept.grows (by simp [service_fuse, serviceNone_fuse, bootCmd_fuse, smDo_fuse, inStage_fuse])⟩

theorem exec_release_grows : ∀ f, ExecGrows (exec (.release f)) := fun f => fun s => ⟨_, rfl, Kept.grows (by simp [service_fuse, serviceNone_fuse, bootCmd_fuse, smDo_fuse, inStage_fuse])⟩

theorem exec_releaseBoot_grows : ∀ f, ExecGrows (exec (.releaseBoot f)) := fun f => fun s => ⟨_, rfl, Kept.grows (by simp [service_fuse, serviceNone_fuse, bootCmd_fuse, smDo_fuse, inStage_fuse])⟩

theorem exec_kemKeygen_grows : ∀ j, ExecGrows (exec (.kemKeygen j)) := fun j => keptGrows (fun _ => rfl) fun d => by simp [service_fuse, serviceNone_fuse, kemService_fuse, bootCmd_fuse, smDo_fuse, inStage_fuse]

theorem exec_kemEncaps_grows : ∀ j, ExecGrows (exec (.kemEncaps j)) := fun j => keptGrows (fun _ => rfl) fun d => by simp [service_fuse, serviceNone_fuse, kemService_fuse, bootCmd_fuse, smDo_fuse, inStage_fuse]

theorem exec_kemDecaps_grows : ∀ j, ExecGrows (exec (.kemDecaps j)) := fun j => keptGrows (fun _ => rfl) fun d => by simp [service_fuse, serviceNone_fuse, kemService_fuse, bootCmd_fuse, smDo_fuse, inStage_fuse]

theorem exec_kemEncapsKeep_grows : ∀ j, ExecGrows (exec (.kemEncapsKeep j)) := fun j => keptGrows (fun _ => rfl) fun d => by simp [service_fuse, serviceNone_fuse, kemService_fuse, bootCmd_fuse, smDo_fuse, inStage_fuse]

theorem exec_kemDecapsKeep_grows : ∀ j, ExecGrows (exec (.kemDecapsKeep j)) := fun j => keptGrows (fun _ => rfl) fun d => by simp [service_fuse, serviceNone_fuse, kemService_fuse, bootCmd_fuse, smDo_fuse, inStage_fuse]

theorem exec_ekCheck_grows : ∀ j, ExecGrows (exec (.ekCheck j)) := fun j => keptGrows (fun _ => rfl) fun d => by simp [service_fuse, serviceNone_fuse, kemService_fuse, bootCmd_fuse, smDo_fuse, inStage_fuse]

theorem exec_kemPubExport_grows : ∀ j, ExecGrows (exec (.kemPubExport j)) := fun j => keptGrows (fun _ => rfl) fun d => by simp [service_fuse, serviceNone_fuse, kemService_fuse, bootCmd_fuse, smDo_fuse, inStage_fuse]

theorem exec_dsaKeygen_grows : ∀ j, ExecGrows (exec (.dsaKeygen j)) := fun j => keptGrows (fun _ => rfl) fun d => by simp [service_fuse, serviceNone_fuse, kemService_fuse, bootCmd_fuse, smDo_fuse, inStage_fuse]

theorem exec_dsaSign_grows : ∀ j, ExecGrows (exec (.dsaSign j)) := fun j => keptGrows (fun _ => rfl) fun d => by simp [service_fuse, serviceNone_fuse, kemService_fuse, bootCmd_fuse, smDo_fuse, inStage_fuse]

theorem exec_signPh_grows : ∀ j, ExecGrows (exec (.signPh j)) := fun j => keptGrows (fun _ => rfl) fun d => by simp [service_fuse, serviceNone_fuse, kemService_fuse, bootCmd_fuse, smDo_fuse, inStage_fuse]

theorem exec_signMu_grows : ∀ j, ExecGrows (exec (.signMu j)) := fun j => fun s => ⟨_, rfl, Kept.grows (by simp [service_fuse, serviceNone_fuse, bootCmd_fuse, smDo_fuse, inStage_fuse])⟩

theorem exec_dsaVerify_grows : ∀ j, ExecGrows (exec (.dsaVerify j)) := fun j => keptGrows (fun _ => rfl) fun d => by simp [service_fuse, serviceNone_fuse, kemService_fuse, bootCmd_fuse, smDo_fuse, inStage_fuse]

theorem exec_verifyPh_grows : ∀ j, ExecGrows (exec (.verifyPh j)) := fun j => keptGrows (fun _ => rfl) fun d => by simp [service_fuse, serviceNone_fuse, kemService_fuse, bootCmd_fuse, smDo_fuse, inStage_fuse]

theorem exec_verifyMu_grows : ∀ j, ExecGrows (exec (.verifyMu j)) := fun j => fun s => ⟨_, rfl, Kept.grows (by simp [service_fuse, serviceNone_fuse, bootCmd_fuse, smDo_fuse, inStage_fuse])⟩

theorem exec_dsaPubExport_grows : ∀ j, ExecGrows (exec (.dsaPubExport j)) := fun j => keptGrows (fun _ => rfl) fun d => by simp [service_fuse, serviceNone_fuse, kemService_fuse, bootCmd_fuse, smDo_fuse, inStage_fuse]

theorem exec_hbsKeygen_grows : ∀ j, ExecGrows (exec (.hbsKeygen j)) := fun j => keptGrows (fun _ => rfl) fun d => by simp [service_fuse, serviceNone_fuse, kemService_fuse, bootCmd_fuse, smDo_fuse, inStage_fuse]

theorem exec_hbsSign_grows : ∀ j, ExecGrows (exec (.hbsSign j)) := fun j => keptGrows (fun _ => rfl) fun d => by simp [service_fuse, serviceNone_fuse, kemService_fuse, bootCmd_fuse, smDo_fuse, inStage_fuse]

theorem exec_hbsSignPh_grows : ∀ j, ExecGrows (exec (.hbsSignPh j)) := fun j => keptGrows (fun _ => rfl) fun d => by simp [service_fuse, serviceNone_fuse, kemService_fuse, bootCmd_fuse, smDo_fuse, inStage_fuse]

theorem exec_hbsVerify_grows : ∀ j, ExecGrows (exec (.hbsVerify j)) := fun j => keptGrows (fun _ => rfl) fun d => by simp [service_fuse, serviceNone_fuse, kemService_fuse, bootCmd_fuse, smDo_fuse, inStage_fuse]

theorem exec_hbsVerifyPh_grows : ∀ j, ExecGrows (exec (.hbsVerifyPh j)) := fun j => keptGrows (fun _ => rfl) fun d => by simp [service_fuse, serviceNone_fuse, kemService_fuse, bootCmd_fuse, smDo_fuse, inStage_fuse]

theorem exec_hbsPubExport_grows : ∀ j, ExecGrows (exec (.hbsPubExport j)) := fun j => keptGrows (fun _ => rfl) fun d => by simp [service_fuse, serviceNone_fuse, kemService_fuse, bootCmd_fuse, smDo_fuse, inStage_fuse]

theorem exec_advance_grows : ∀ j, ExecGrows (exec (.advance j)) := fun j => keptGrows (fun _ => rfl) fun d => by simp [service_fuse, serviceNone_fuse, kemService_fuse, bootCmd_fuse, smDo_fuse, inStage_fuse]

theorem exec_rebuild_grows : ∀ j, ExecGrows (exec (.rebuild j)) := fun j => keptGrows (fun _ => rfl) fun d => by simp [service_fuse, serviceNone_fuse, kemService_fuse, bootCmd_fuse, smDo_fuse, inStage_fuse]

theorem exec_codeKeygen_grows : ∀ j, ExecGrows (exec (.codeKeygen j)) := fun j => keptGrows (fun _ => rfl) fun d => by simp [service_fuse, serviceNone_fuse, kemService_fuse, bootCmd_fuse, smDo_fuse, inStage_fuse]

theorem exec_codeEncaps_grows : ∀ j, ExecGrows (exec (.codeEncaps j)) := fun j => keptGrows (fun _ => rfl) fun d => by simp [service_fuse, serviceNone_fuse, kemService_fuse, bootCmd_fuse, smDo_fuse, inStage_fuse]

theorem exec_codeDecaps_grows : ∀ j, ExecGrows (exec (.codeDecaps j)) := fun j => keptGrows (fun _ => rfl) fun d => by simp [service_fuse, serviceNone_fuse, kemService_fuse, bootCmd_fuse, smDo_fuse, inStage_fuse]

theorem exec_codeEncapsKeep_grows : ∀ j, ExecGrows (exec (.codeEncapsKeep j)) := fun j => keptGrows (fun _ => rfl) fun d => by simp [service_fuse, serviceNone_fuse, kemService_fuse, bootCmd_fuse, smDo_fuse, inStage_fuse]

theorem exec_codeDecapsKeep_grows : ∀ j, ExecGrows (exec (.codeDecapsKeep j)) := fun j => keptGrows (fun _ => rfl) fun d => by simp [service_fuse, serviceNone_fuse, kemService_fuse, bootCmd_fuse, smDo_fuse, inStage_fuse]

theorem exec_codePkLoad_grows : ∀ j, ExecGrows (exec (.codePkLoad j)) := fun j => keptGrows (fun _ => rfl) fun d => by simp [service_fuse, serviceNone_fuse, kemService_fuse, bootCmd_fuse, smDo_fuse, inStage_fuse]

theorem exec_codePubExport_grows : ∀ j, ExecGrows (exec (.codePubExport j)) := fun j => keptGrows (fun _ => rfl) fun d => by simp [service_fuse, serviceNone_fuse, kemService_fuse, bootCmd_fuse, smDo_fuse, inStage_fuse]

theorem exec_pkKeygen_grows : ∀ j, ExecGrows (exec (.pkKeygen j)) := fun j => keptGrows (fun _ => rfl) fun d => by simp [service_fuse, serviceNone_fuse, kemService_fuse, bootCmd_fuse, smDo_fuse, inStage_fuse]

theorem exec_pkSign_grows : ∀ j, ExecGrows (exec (.pkSign j)) := fun j => keptGrows (fun _ => rfl) fun d => by simp [service_fuse, serviceNone_fuse, kemService_fuse, bootCmd_fuse, smDo_fuse, inStage_fuse]

theorem exec_signV15_grows : ∀ j, ExecGrows (exec (.signV15 j)) := fun j => keptGrows (fun _ => rfl) fun d => by simp [service_fuse, serviceNone_fuse, kemService_fuse, bootCmd_fuse, smDo_fuse, inStage_fuse]

theorem exec_pkVerify_grows : ∀ j, ExecGrows (exec (.pkVerify j)) := fun j => keptGrows (fun _ => rfl) fun d => by simp [service_fuse, serviceNone_fuse, kemService_fuse, bootCmd_fuse, smDo_fuse, inStage_fuse]

theorem exec_verifyV15_grows : ∀ j, ExecGrows (exec (.verifyV15 j)) := fun j => keptGrows (fun _ => rfl) fun d => by simp [service_fuse, serviceNone_fuse, kemService_fuse, bootCmd_fuse, smDo_fuse, inStage_fuse]

theorem exec_pkPubExport_grows : ∀ j, ExecGrows (exec (.pkPubExport j)) := fun j => keptGrows (fun _ => rfl) fun d => by simp [service_fuse, serviceNone_fuse, kemService_fuse, bootCmd_fuse, smDo_fuse, inStage_fuse]

theorem exec_dh_grows : ∀ j, ExecGrows (exec (.dh j)) := fun j => keptGrows (fun _ => rfl) fun d => by simp [service_fuse, serviceNone_fuse, kemService_fuse, bootCmd_fuse, smDo_fuse, inStage_fuse]

theorem exec_dhKeep_grows : ∀ j, ExecGrows (exec (.dhKeep j)) := fun j => keptGrows (fun _ => rfl) fun d => by simp [service_fuse, serviceNone_fuse, kemService_fuse, bootCmd_fuse, smDo_fuse, inStage_fuse]

theorem exec_pkLoad_grows : ∀ j, ExecGrows (exec (.pkLoad j)) := fun j => keptGrows (fun _ => rfl) fun d => by simp [service_fuse, serviceNone_fuse, kemService_fuse, bootCmd_fuse, smDo_fuse, inStage_fuse]

theorem exec_curveLoad_grows : ∀ j, ExecGrows (exec (.curveLoad j)) := fun j => keptGrows (fun _ => rfl) fun d => by simp [service_fuse, serviceNone_fuse, kemService_fuse, bootCmd_fuse, smDo_fuse, inStage_fuse]

theorem exec_encrypt_grows : ∀ j, ExecGrows (exec (.encrypt j)) := fun j => keptGrows (fun _ => rfl) fun d => by simp [service_fuse, serviceNone_fuse, kemService_fuse, bootCmd_fuse, smDo_fuse, inStage_fuse]

theorem exec_decrypt_grows : ∀ j, ExecGrows (exec (.decrypt j)) := fun j => keptGrows (fun _ => rfl) fun d => by simp [service_fuse, serviceNone_fuse, kemService_fuse, bootCmd_fuse, smDo_fuse, inStage_fuse]

theorem exec_privRaw_grows : ∀ j, ExecGrows (exec (.privRaw j)) := fun j => keptGrows (fun _ => rfl) fun d => by simp [service_fuse, serviceNone_fuse, kemService_fuse, bootCmd_fuse, smDo_fuse, inStage_fuse]

theorem exec_pubRaw_grows : ∀ j, ExecGrows (exec (.pubRaw j)) := fun j => keptGrows (fun _ => rfl) fun d => by simp [service_fuse, serviceNone_fuse, kemService_fuse, bootCmd_fuse, smDo_fuse, inStage_fuse]

theorem exec_modRun_grows : ∀ j, ExecGrows (exec (.modRun j)) := fun j => keptGrows (fun _ => rfl) fun d => by simp [service_fuse, serviceNone_fuse, kemService_fuse, bootCmd_fuse, smDo_fuse, inStage_fuse]

theorem exec_mpLoad_grows : ∀ e w, ExecGrows (exec (.mpLoad e w)) := fun e w => keptGrows (fun _ => rfl) fun d => by simp [service_fuse, serviceNone_fuse, kemService_fuse, bootCmd_fuse, smDo_fuse, inStage_fuse]

theorem exec_mpLoadx_grows : ∀ e w, ExecGrows (exec (.mpLoadx e w)) := fun e w => keptGrows (fun _ => rfl) fun d => by simp [service_fuse, serviceNone_fuse, kemService_fuse, bootCmd_fuse, smDo_fuse, inStage_fuse]

theorem exec_mpLoadk_grows : ∀ e w, ExecGrows (exec (.mpLoadk e w)) := fun e w => keptGrows (fun _ => rfl) fun d => by simp [service_fuse, serviceNone_fuse, kemService_fuse, bootCmd_fuse, smDo_fuse, inStage_fuse]

theorem exec_mpSeti_grows : ∀ e w, ExecGrows (exec (.mpSeti e w)) := fun e w => keptGrows (fun _ => rfl) fun d => by simp [service_fuse, serviceNone_fuse, kemService_fuse, bootCmd_fuse, smDo_fuse, inStage_fuse]

theorem exec_mpCopy_grows : ∀ e w, ExecGrows (exec (.mpCopy e w)) := fun e w => keptGrows (fun _ => rfl) fun d => by simp [service_fuse, serviceNone_fuse, kemService_fuse, bootCmd_fuse, smDo_fuse, inStage_fuse]

theorem exec_mpAdd_grows : ∀ e w, ExecGrows (exec (.mpAdd e w)) := fun e w => keptGrows (fun _ => rfl) fun d => by simp [service_fuse, serviceNone_fuse, kemService_fuse, bootCmd_fuse, smDo_fuse, inStage_fuse]

theorem exec_mpSub_grows : ∀ e w, ExecGrows (exec (.mpSub e w)) := fun e w => keptGrows (fun _ => rfl) fun d => by simp [service_fuse, serviceNone_fuse, kemService_fuse, bootCmd_fuse, smDo_fuse, inStage_fuse]

theorem exec_mmul_grows : ∀ e w, ExecGrows (exec (.mmul e w)) := fun e w => keptGrows (fun _ => rfl) fun d => by simp [service_fuse, serviceNone_fuse, kemService_fuse, bootCmd_fuse, smDo_fuse, inStage_fuse]

theorem exec_tom_grows : ∀ e w, ExecGrows (exec (.tom e w)) := fun e w => keptGrows (fun _ => rfl) fun d => by simp [service_fuse, serviceNone_fuse, kemService_fuse, bootCmd_fuse, smDo_fuse, inStage_fuse]

theorem exec_fromm_grows : ∀ e w, ExecGrows (exec (.fromm e w)) := fun e w => keptGrows (fun _ => rfl) fun d => by simp [service_fuse, serviceNone_fuse, kemService_fuse, bootCmd_fuse, smDo_fuse, inStage_fuse]

theorem exec_inv_grows : ∀ e w, ExecGrows (exec (.inv e w)) := fun e w => keptGrows (fun _ => rfl) fun d => by simp [service_fuse, serviceNone_fuse, kemService_fuse, bootCmd_fuse, smDo_fuse, inStage_fuse]

theorem exec_exp_grows : ∀ e w, ExecGrows (exec (.exp e w)) := fun e w => keptGrows (fun _ => rfl) fun d => by simp [service_fuse, serviceNone_fuse, kemService_fuse, bootCmd_fuse, smDo_fuse, inStage_fuse]

theorem exec_store_grows : ∀ e w, ExecGrows (exec (.store e w)) := fun e w => keptGrows (fun _ => rfl) fun d => by simp [service_fuse, serviceNone_fuse, kemService_fuse, bootCmd_fuse, smDo_fuse, inStage_fuse]

theorem exec_hashDigest_grows : ∀ j, ExecGrows (exec (.hashDigest j)) := fun j => keptGrows (fun _ => rfl) fun d => by simp [service_fuse, serviceNone_fuse, kemService_fuse, bootCmd_fuse, smDo_fuse, inStage_fuse]

theorem exec_hashMac_grows : ∀ j, ExecGrows (exec (.hashMac j)) := fun j => keptGrows (fun _ => rfl) fun d => by simp [service_fuse, serviceNone_fuse, kemService_fuse, bootCmd_fuse, smDo_fuse, inStage_fuse]

theorem exec_macVerify_grows : ∀ j, ExecGrows (exec (.macVerify j)) := fun j => keptGrows (fun _ => rfl) fun d => by simp [service_fuse, serviceNone_fuse, kemService_fuse, bootCmd_fuse, smDo_fuse, inStage_fuse]

theorem exec_hashInit_grows : ∀ j, ExecGrows (exec (.hashInit j)) := fun j => keptGrows (fun _ => rfl) fun d => by simp [service_fuse, serviceNone_fuse, kemService_fuse, bootCmd_fuse, smDo_fuse, inStage_fuse]

theorem exec_hashUpdate_grows : ∀ j, ExecGrows (exec (.hashUpdate j)) := fun j => keptGrows (fun _ => rfl) fun d => by simp [service_fuse, serviceNone_fuse, kemService_fuse, bootCmd_fuse, smDo_fuse, inStage_fuse]

theorem exec_hashFinal_grows : ∀ j, ExecGrows (exec (.hashFinal j)) := fun j => keptGrows (fun _ => rfl) fun d => by simp [service_fuse, serviceNone_fuse, kemService_fuse, bootCmd_fuse, smDo_fuse, inStage_fuse]

theorem exec_finalVerify_grows : ∀ j, ExecGrows (exec (.finalVerify j)) := fun j => keptGrows (fun _ => rfl) fun d => by simp [service_fuse, serviceNone_fuse, kemService_fuse, bootCmd_fuse, smDo_fuse, inStage_fuse]

theorem exec_gcmEnc_grows : ∀ j, ExecGrows (exec (.gcmEnc j)) := fun j => keptGrows (fun _ => rfl) fun d => by simp [service_fuse, serviceNone_fuse, kemService_fuse, bootCmd_fuse, smDo_fuse, inStage_fuse]

theorem exec_gcmDec_grows : ∀ j, ExecGrows (exec (.gcmDec j)) := fun j => keptGrows (fun _ => rfl) fun d => by simp [service_fuse, serviceNone_fuse, kemService_fuse, bootCmd_fuse, smDo_fuse, inStage_fuse]

theorem exec_ctr_grows : ∀ j, ExecGrows (exec (.ctr j)) := fun j => keptGrows (fun _ => rfl) fun d => by simp [service_fuse, serviceNone_fuse, kemService_fuse, bootCmd_fuse, smDo_fuse, inStage_fuse]

theorem exec_xtsEnc_grows : ∀ j, ExecGrows (exec (.xtsEnc j)) := fun j => keptGrows (fun _ => rfl) fun d => by simp [service_fuse, serviceNone_fuse, kemService_fuse, bootCmd_fuse, smDo_fuse, inStage_fuse]

theorem exec_xtsDec_grows : ∀ j, ExecGrows (exec (.xtsDec j)) := fun j => keptGrows (fun _ => rfl) fun d => by simp [service_fuse, serviceNone_fuse, kemService_fuse, bootCmd_fuse, smDo_fuse, inStage_fuse]

theorem exec_kwWrap_grows : ∀ j, ExecGrows (exec (.kwWrap j)) := fun j => keptGrows (fun _ => rfl) fun d => by simp [service_fuse, serviceNone_fuse, kemService_fuse, bootCmd_fuse, smDo_fuse, inStage_fuse]

theorem exec_kwUnwrap_grows : ∀ j, ExecGrows (exec (.kwUnwrap j)) := fun j => keptGrows (fun _ => rfl) fun d => by simp [service_fuse, serviceNone_fuse, kemService_fuse, bootCmd_fuse, smDo_fuse, inStage_fuse]

theorem exec_kwpWrap_grows : ∀ j, ExecGrows (exec (.kwpWrap j)) := fun j => keptGrows (fun _ => rfl) fun d => by simp [service_fuse, serviceNone_fuse, kemService_fuse, bootCmd_fuse, smDo_fuse, inStage_fuse]

theorem exec_kwpUnwrap_grows : ∀ j, ExecGrows (exec (.kwpUnwrap j)) := fun j => keptGrows (fun _ => rfl) fun d => by simp [service_fuse, serviceNone_fuse, kemService_fuse, bootCmd_fuse, smDo_fuse, inStage_fuse]

theorem exec_aeadEnc_grows : ∀ j, ExecGrows (exec (.aeadEnc j)) := fun j => keptGrows (fun _ => rfl) fun d => by simp [service_fuse, serviceNone_fuse, kemService_fuse, bootCmd_fuse, smDo_fuse, inStage_fuse]

theorem exec_aeadDec_grows : ∀ j, ExecGrows (exec (.aeadDec j)) := fun j => keptGrows (fun _ => rfl) fun d => by simp [service_fuse, serviceNone_fuse, kemService_fuse, bootCmd_fuse, smDo_fuse, inStage_fuse]

theorem exec_generate_grows : ∀ j, ExecGrows (exec (.generate j)) := fun j => keptGrows (fun _ => rfl) fun d => by simp [service_fuse, serviceNone_fuse, kemService_fuse, bootCmd_fuse, smDo_fuse, inStage_fuse]

theorem exec_condKat_grows : ∀ j, ExecGrows (exec (.condKat j)) := fun j => keptGrows (fun _ => rfl) fun d => by simp [service_fuse, serviceNone_fuse, kemService_fuse, bootCmd_fuse, smDo_fuse, inStage_fuse]

theorem exec_drbgKat_grows : ∀ j, ExecGrows (exec (.drbgKat j)) := fun j => keptGrows (fun _ => rfl) fun d => by simp [service_fuse, serviceNone_fuse, kemService_fuse, bootCmd_fuse, smDo_fuse, inStage_fuse]

theorem exec_rngRaw_grows : ∀ j, ExecGrows (exec (.rngRaw j)) := fun j => keptGrows (fun _ => rfl) fun d => by simp [service_fuse, serviceNone_fuse, kemService_fuse, bootCmd_fuse, smDo_fuse, inStage_fuse]

theorem exec_secretGen_grows : ∀ j, ExecGrows (exec (.secretGen j)) := fun j => keptGrows (fun _ => rfl) fun d => by simp [service_fuse, serviceNone_fuse, kemService_fuse, bootCmd_fuse, smDo_fuse, inStage_fuse]

theorem exec_derive_grows : ∀ j, ExecGrows (exec (.derive j)) := fun j => keptGrows (fun _ => rfl) fun d => by simp [service_fuse, serviceNone_fuse, kemService_fuse, bootCmd_fuse, smDo_fuse, inStage_fuse]

theorem exec_blobExport_grows : ∀ j, ExecGrows (exec (.blobExport j)) := fun j => keptGrows (fun _ => rfl) fun d => by simp [service_fuse, serviceNone_fuse, kemService_fuse, bootCmd_fuse, smDo_fuse, inStage_fuse]

theorem exec_blobImport_grows : ∀ j, ExecGrows (exec (.blobImport j)) := fun j => keptGrows (fun _ => rfl) fun d => by simp [service_fuse, serviceNone_fuse, kemService_fuse, bootCmd_fuse, smDo_fuse, inStage_fuse]

theorem exec_kwExport_grows : ∀ j, ExecGrows (exec (.kwExport j)) := fun j => keptGrows (fun _ => rfl) fun d => by simp [service_fuse, serviceNone_fuse, kemService_fuse, bootCmd_fuse, smDo_fuse, inStage_fuse]

theorem exec_kwImport_grows : ∀ j, ExecGrows (exec (.kwImport j)) := fun j => keptGrows (fun _ => rfl) fun d => by simp [service_fuse, serviceNone_fuse, kemService_fuse, bootCmd_fuse, smDo_fuse, inStage_fuse]

theorem exec_kemImport_grows : ∀ j, ExecGrows (exec (.kemImport j)) := fun j => keptGrows (fun _ => rfl) fun d => by simp [service_fuse, serviceNone_fuse, kemService_fuse, bootCmd_fuse, smDo_fuse, inStage_fuse]

theorem exec_restrict_grows : ∀ j, ExecGrows (exec (.restrict j)) := fun j => keptGrows (fun _ => rfl) fun d => by simp [service_fuse, serviceNone_fuse, kemService_fuse, bootCmd_fuse, smDo_fuse, inStage_fuse]

theorem exec_destroy_grows : ∀ j, ExecGrows (exec (.destroy j)) := fun j => keptGrows (fun _ => rfl) fun d => by simp [service_fuse, serviceNone_fuse, kemService_fuse, bootCmd_fuse, smDo_fuse, inStage_fuse]

theorem exec_info_grows : ∀ j, ExecGrows (exec (.info j)) := fun j => keptGrows (fun _ => rfl) fun d => by simp [service_fuse, serviceNone_fuse, kemService_fuse, bootCmd_fuse, smDo_fuse, inStage_fuse]

theorem exec_readPlain_grows : ∀ j, ExecGrows (exec (.readPlain j)) := fun j => keptGrows (fun _ => rfl) fun d => by simp [service_fuse, serviceNone_fuse, kemService_fuse, bootCmd_fuse, smDo_fuse, inStage_fuse]

theorem exec_zeroiseOwner_grows : ∀ j, ExecGrows (exec (.zeroiseOwner j)) := fun j => keptGrows (fun _ => rfl) fun d => by simp [service_fuse, serviceNone_fuse, kemService_fuse, bootCmd_fuse, smDo_fuse, inStage_fuse]

theorem exec_report_grows : ∀ j, ExecGrows (exec (.report j)) := fun j => keptGrows (fun _ => rfl) fun d => by simp [service_fuse, serviceNone_fuse, kemService_fuse, bootCmd_fuse, smDo_fuse, inStage_fuse]

theorem exec_identity_grows : ∀ j, ExecGrows (exec (.identity j)) := fun j => keptGrows (fun _ => rfl) fun d => by simp [service_fuse, serviceNone_fuse, kemService_fuse, bootCmd_fuse, smDo_fuse, inStage_fuse]

theorem exec_keyAttest_grows : ∀ j, ExecGrows (exec (.keyAttest j)) := fun j => keptGrows (fun _ => rfl) fun d => by simp [service_fuse, serviceNone_fuse, kemService_fuse, bootCmd_fuse, smDo_fuse, inStage_fuse]

theorem exec_ssQuery_grows : ∀ j, ExecGrows (exec (.ssQuery j)) := fun j => keptGrows (fun _ => rfl) fun d => by simp [service_fuse, serviceNone_fuse, kemService_fuse, bootCmd_fuse, smDo_fuse, inStage_fuse]

theorem exec_park_grows : ∀ j, ExecGrows (exec (.park j)) := fun j => keptGrows (fun _ => rfl) fun d => by simp [service_fuse, serviceNone_fuse, kemService_fuse, bootCmd_fuse, smDo_fuse, inStage_fuse]

theorem exec_limit_grows : ∀ j, ExecGrows (exec (.limit j)) := fun j => keptGrows (fun _ => rfl) fun d => by simp [service_fuse, serviceNone_fuse, kemService_fuse, bootCmd_fuse, smDo_fuse, inStage_fuse]

theorem exec_delete_grows : ∀ j, ExecGrows (exec (.delete j)) := fun j => keptGrows (fun _ => rfl) fun d => by simp [service_fuse, serviceNone_fuse, kemService_fuse, bootCmd_fuse, smDo_fuse, inStage_fuse]

theorem exec_customRun_grows : ∀ j, ExecGrows (exec (.customRun j)) := fun j => keptGrows (fun _ => rfl) fun d => by simp [service_fuse, serviceNone_fuse, kemService_fuse, bootCmd_fuse, smDo_fuse, inStage_fuse]

theorem exec_add_grows : ∀ p f, ExecGrows (exec (.add p f)) := fun p f => pyGrows (fun _ => rfl) (by simp)

theorem exec_sub_grows : ∀ p f, ExecGrows (exec (.sub p f)) := fun p f => pyGrows (fun _ => rfl) (by simp)

theorem exec_and_grows : ∀ p f, ExecGrows (exec (.and p f)) := fun p f => pyGrows (fun _ => rfl) (by simp)

theorem exec_or_grows : ∀ p f, ExecGrows (exec (.or p f)) := fun p f => pyGrows (fun _ => rfl) (by simp)

theorem exec_xor_grows : ∀ p f, ExecGrows (exec (.xor p f)) := fun p f => pyGrows (fun _ => rfl) (by simp)

theorem exec_sll_grows : ∀ p f, ExecGrows (exec (.sll p f)) := fun p f => pyGrows (fun _ => rfl) (by simp)

theorem exec_srl_grows : ∀ p f, ExecGrows (exec (.srl p f)) := fun p f => pyGrows (fun _ => rfl) (by simp)

theorem exec_sra_grows : ∀ p f, ExecGrows (exec (.sra p f)) := fun p f => pyGrows (fun _ => rfl) (by simp)

theorem exec_addi_grows : ∀ p f, ExecGrows (exec (.addi p f)) := fun p f => pyGrows (fun _ => rfl) (by simp)

theorem exec_andi_grows : ∀ p f, ExecGrows (exec (.andi p f)) := fun p f => pyGrows (fun _ => rfl) (by simp)

theorem exec_ori_grows : ∀ p f, ExecGrows (exec (.ori p f)) := fun p f => pyGrows (fun _ => rfl) (by simp)

theorem exec_xori_grows : ∀ p f, ExecGrows (exec (.xori p f)) := fun p f => pyGrows (fun _ => rfl) (by simp)

theorem exec_slli_grows : ∀ p f, ExecGrows (exec (.slli p f)) := fun p f => pyGrows (fun _ => rfl) (by simp)

theorem exec_srli_grows : ∀ p f, ExecGrows (exec (.srli p f)) := fun p f => pyGrows (fun _ => rfl) (by simp)

theorem exec_srai_grows : ∀ p f, ExecGrows (exec (.srai p f)) := fun p f => pyGrows (fun _ => rfl) (by simp)

theorem exec_slti_grows : ∀ p f, ExecGrows (exec (.slti p f)) := fun p f => pyGrows (fun _ => rfl) (by simp)

theorem exec_lui_grows : ∀ p f, ExecGrows (exec (.lui p f)) := fun p f => pyGrows (fun _ => rfl) (by simp)

theorem exec_mul_grows : ∀ p f, ExecGrows (exec (.mul p f)) := fun p f => pyGrows (fun _ => rfl) (by simp)

theorem exec_mulh_grows : ∀ p f, ExecGrows (exec (.mulh p f)) := fun p f => pyGrows (fun _ => rfl) (by simp)

theorem exec_mulhu_grows : ∀ p f, ExecGrows (exec (.mulhu p f)) := fun p f => pyGrows (fun _ => rfl) (by simp)

theorem exec_div_grows : ∀ p f, ExecGrows (exec (.div p f)) := fun p f => pyGrows (fun _ => rfl) (by simp)

theorem exec_divu_grows : ∀ p f, ExecGrows (exec (.divu p f)) := fun p f => pyGrows (fun _ => rfl) (by simp)

theorem exec_rem_grows : ∀ p f, ExecGrows (exec (.rem p f)) := fun p f => pyGrows (fun _ => rfl) (by simp)

theorem exec_remu_grows : ∀ p f, ExecGrows (exec (.remu p f)) := fun p f => pyGrows (fun _ => rfl) (by simp)

theorem exec_slt_grows : ∀ p f, ExecGrows (exec (.slt p f)) := fun p f => pyGrows (fun _ => rfl) (by simp)

theorem exec_sltu_grows : ∀ p f, ExecGrows (exec (.sltu p f)) := fun p f => pyGrows (fun _ => rfl) (by simp)

theorem exec_seq_grows : ∀ p f, ExecGrows (exec (.seq p f)) := fun p f => pyGrows (fun _ => rfl) (by simp)

theorem exec_csel_grows : ∀ p f, ExecGrows (exec (.csel p f)) := fun p f => pyGrows (fun _ => rfl) (by simp)

theorem exec_min_grows : ∀ p f, ExecGrows (exec (.min p f)) := fun p f => pyGrows (fun _ => rfl) (by simp)

theorem exec_max_grows : ∀ p f, ExecGrows (exec (.max p f)) := fun p f => pyGrows (fun _ => rfl) (by simp)

theorem exec_minu_grows : ∀ p f, ExecGrows (exec (.minu p f)) := fun p f => pyGrows (fun _ => rfl) (by simp)

theorem exec_maxu_grows : ∀ p f, ExecGrows (exec (.maxu p f)) := fun p f => pyGrows (fun _ => rfl) (by simp)

theorem exec_ld8_grows : ∀ p f, ExecGrows (exec (.ld8 p f)) := fun p f => pyGrows (fun _ => rfl) (by simp)

theorem exec_ld16_grows : ∀ p f, ExecGrows (exec (.ld16 p f)) := fun p f => pyGrows (fun _ => rfl) (by simp)

theorem exec_ld32_grows : ∀ p f, ExecGrows (exec (.ld32 p f)) := fun p f => pyGrows (fun _ => rfl) (by simp)

theorem exec_ld64_grows : ∀ p f, ExecGrows (exec (.ld64 p f)) := fun p f => pyGrows (fun _ => rfl) (by simp)

theorem exec_st8_grows : ∀ p f, ExecGrows (exec (.st8 p f)) := fun p f => pyGrows (fun _ => rfl) (by simp)

theorem exec_st16_grows : ∀ p f, ExecGrows (exec (.st16 p f)) := fun p f => pyGrows (fun _ => rfl) (by simp)

theorem exec_st32_grows : ∀ p f, ExecGrows (exec (.st32 p f)) := fun p f => pyGrows (fun _ => rfl) (by simp)

theorem exec_st64_grows : ∀ p f, ExecGrows (exec (.st64 p f)) := fun p f => pyGrows (fun _ => rfl) (by simp)

theorem exec_beq_grows : ∀ p f, ExecGrows (exec (.beq p f)) := fun p f => pyGrows (fun _ => rfl) (by simp)

theorem exec_bne_grows : ∀ p f, ExecGrows (exec (.bne p f)) := fun p f => pyGrows (fun _ => rfl) (by simp)

theorem exec_blt_grows : ∀ p f, ExecGrows (exec (.blt p f)) := fun p f => pyGrows (fun _ => rfl) (by simp)

theorem exec_bge_grows : ∀ p f, ExecGrows (exec (.bge p f)) := fun p f => pyGrows (fun _ => rfl) (by simp)

theorem exec_bltu_grows : ∀ p f, ExecGrows (exec (.bltu p f)) := fun p f => pyGrows (fun _ => rfl) (by simp)

theorem exec_bgeu_grows : ∀ p f, ExecGrows (exec (.bgeu p f)) := fun p f => pyGrows (fun _ => rfl) (by simp)

theorem exec_jal_grows : ∀ p f, ExecGrows (exec (.jal p f)) := fun p f => pyGrows (fun _ => rfl) (by simp)

theorem exec_jalr_grows : ∀ p f, ExecGrows (exec (.jalr p f)) := fun p f => pyGrows (fun _ => rfl) (by simp)

theorem exec_vcfg_grows : ∀ p f, ExecGrows (exec (.vcfg p f)) := fun p f => pyGrows (fun _ => rfl) (by simp)

theorem exec_ccrr_grows : ∀ p f, ExecGrows (exec (.ccrr p f)) := fun p f => pyGrows (fun _ => rfl) (by simp)

theorem exec_ccrw_grows : ∀ p f, ExecGrows (exec (.ccrw p f)) := fun p f => pyGrows (fun _ => rfl) (by simp)

theorem exec_yield_grows : ∀ p f, ExecGrows (exec (.yield p f)) := fun p f => pyGrows (fun _ => rfl) (by simp)

theorem exec_halt_grows : ∀ p f, ExecGrows (exec (.halt p f)) := fun p f => pyGrows (fun _ => rfl) (by simp)

theorem exec_bar_grows : ∀ p f, ExecGrows (exec (.bar p f)) := fun p f => pyGrows (fun _ => rfl) (by simp)

theorem exec_idle_grows : ∀ p f, ExecGrows (exec (.idle p f)) := fun p f => pyGrows (fun _ => rfl) (by simp)

theorem exec_vadd_grows : ∀ p f, ExecGrows (exec (.vadd p f)) := fun p f => pyGrows (fun _ => rfl) (by simp)

theorem exec_vsub_grows : ∀ p f, ExecGrows (exec (.vsub p f)) := fun p f => pyGrows (fun _ => rfl) (by simp)

theorem exec_vand_grows : ∀ p f, ExecGrows (exec (.vand p f)) := fun p f => pyGrows (fun _ => rfl) (by simp)

theorem exec_vor_grows : ∀ p f, ExecGrows (exec (.vor p f)) := fun p f => pyGrows (fun _ => rfl) (by simp)

theorem exec_vxor_grows : ∀ p f, ExecGrows (exec (.vxor p f)) := fun p f => pyGrows (fun _ => rfl) (by simp)

theorem exec_vsll_grows : ∀ p f, ExecGrows (exec (.vsll p f)) := fun p f => pyGrows (fun _ => rfl) (by simp)

theorem exec_vsrl_grows : ∀ p f, ExecGrows (exec (.vsrl p f)) := fun p f => pyGrows (fun _ => rfl) (by simp)

theorem exec_vsra_grows : ∀ p f, ExecGrows (exec (.vsra p f)) := fun p f => pyGrows (fun _ => rfl) (by simp)

theorem exec_vimul_grows : ∀ p f, ExecGrows (exec (.vimul p f)) := fun p f => pyGrows (fun _ => rfl) (by simp)

theorem exec_vimulh_grows : ∀ p f, ExecGrows (exec (.vimulh p f)) := fun p f => pyGrows (fun _ => rfl) (by simp)

theorem exec_vimulhu_grows : ∀ p f, ExecGrows (exec (.vimulhu p f)) := fun p f => pyGrows (fun _ => rfl) (by simp)

theorem exec_vimin_grows : ∀ p f, ExecGrows (exec (.vimin p f)) := fun p f => pyGrows (fun _ => rfl) (by simp)

theorem exec_vimax_grows : ∀ p f, ExecGrows (exec (.vimax p f)) := fun p f => pyGrows (fun _ => rfl) (by simp)

theorem exec_viminu_grows : ∀ p f, ExecGrows (exec (.viminu p f)) := fun p f => pyGrows (fun _ => rfl) (by simp)

theorem exec_vimaxu_grows : ∀ p f, ExecGrows (exec (.vimaxu p f)) := fun p f => pyGrows (fun _ => rfl) (by simp)

theorem exec_vsel_grows : ∀ p f, ExecGrows (exec (.vsel p f)) := fun p f => pyGrows (fun _ => rfl) (by simp)

theorem exec_vseq_grows : ∀ p f, ExecGrows (exec (.vseq p f)) := fun p f => pyGrows (fun _ => rfl) (by simp)

theorem exec_vsne_grows : ∀ p f, ExecGrows (exec (.vsne p f)) := fun p f => pyGrows (fun _ => rfl) (by simp)

theorem exec_vslt_grows : ∀ p f, ExecGrows (exec (.vslt p f)) := fun p f => pyGrows (fun _ => rfl) (by simp)

theorem exec_vsltu_grows : ∀ p f, ExecGrows (exec (.vsltu p f)) := fun p f => pyGrows (fun _ => rfl) (by simp)

theorem exec_vkand_grows : ∀ p f, ExecGrows (exec (.vkand p f)) := fun p f => pyGrows (fun _ => rfl) (by simp)

theorem exec_vkor_grows : ∀ p f, ExecGrows (exec (.vkor p f)) := fun p f => pyGrows (fun _ => rfl) (by simp)

theorem exec_vkxor_grows : ∀ p f, ExecGrows (exec (.vkxor p f)) := fun p f => pyGrows (fun _ => rfl) (by simp)

theorem exec_vknot_grows : ∀ p f, ExecGrows (exec (.vknot p f)) := fun p f => pyGrows (fun _ => rfl) (by simp)

theorem exec_vbcast_grows : ∀ p f, ExecGrows (exec (.vbcast p f)) := fun p f => pyGrows (fun _ => rfl) (by simp)

theorem exec_vpopc_grows : ∀ p f, ExecGrows (exec (.vpopc p f)) := fun p f => pyGrows (fun _ => rfl) (by simp)

theorem exec_vext_grows : ∀ p f, ExecGrows (exec (.vext p f)) := fun p f => pyGrows (fun _ => rfl) (by simp)

theorem exec_vins_grows : ∀ p f, ExecGrows (exec (.vins p f)) := fun p f => pyGrows (fun _ => rfl) (by simp)

theorem exec_vredsum_grows : ∀ p f, ExecGrows (exec (.vredsum p f)) := fun p f => pyGrows (fun _ => rfl) (by simp)

theorem exec_vredxor_grows : ∀ p f, ExecGrows (exec (.vredxor p f)) := fun p f => pyGrows (fun _ => rfl) (by simp)

theorem exec_vredor_grows : ∀ p f, ExecGrows (exec (.vredor p f)) := fun p f => pyGrows (fun _ => rfl) (by simp)

theorem exec_vld_grows : ∀ p f, ExecGrows (exec (.vld p f)) := fun p f => pyGrows (fun _ => rfl) (by simp)

theorem exec_vldu_grows : ∀ p f, ExecGrows (exec (.vldu p f)) := fun p f => pyGrows (fun _ => rfl) (by simp)

theorem exec_vst_grows : ∀ p f, ExecGrows (exec (.vst p f)) := fun p f => pyGrows (fun _ => rfl) (by simp)

theorem exec_vstu_grows : ∀ p f, ExecGrows (exec (.vstu p f)) := fun p f => pyGrows (fun _ => rfl) (by simp)

theorem exec_vkld_grows : ∀ p f, ExecGrows (exec (.vkld p f)) := fun p f => pyGrows (fun _ => rfl) (by simp)

theorem exec_vkst_grows : ∀ p f, ExecGrows (exec (.vkst p f)) := fun p f => pyGrows (fun _ => rfl) (by simp)

theorem exec_vmadd_grows : ∀ p f, ExecGrows (exec (.vmadd p f)) := fun p f => pyGrows (fun _ => rfl) (by simp)

theorem exec_vmsub_grows : ∀ p f, ExecGrows (exec (.vmsub p f)) := fun p f => pyGrows (fun _ => rfl) (by simp)

theorem exec_vmneg_grows : ∀ p f, ExecGrows (exec (.vmneg p f)) := fun p f => pyGrows (fun _ => rfl) (by simp)

theorem exec_vmmul_grows : ∀ p f, ExecGrows (exec (.vmmul p f)) := fun p f => pyGrows (fun _ => rfl) (by simp)

theorem exec_vmred_grows : ∀ p f, ExecGrows (exec (.vmred p f)) := fun p f => pyGrows (fun _ => rfl) (by simp)

theorem exec_vmtom_grows : ∀ p f, ExecGrows (exec (.vmtom p f)) := fun p f => pyGrows (fun _ => rfl) (by simp)

theorem exec_vmfromm_grows : ∀ p f, ExecGrows (exec (.vmfromm p f)) := fun p f => pyGrows (fun _ => rfl) (by simp)

theorem exec_vmmac_grows : ∀ p f, ExecGrows (exec (.vmmac p f)) := fun p f => pyGrows (fun _ => rfl) (by simp)

theorem exec_vmbf_grows : ∀ p f, ExecGrows (exec (.vmbf p f)) := fun p f => pyGrows (fun _ => rfl) (by simp)

theorem exec_vmbfi_grows : ∀ p f, ExecGrows (exec (.vmbfi p f)) := fun p f => pyGrows (fun _ => rfl) (by simp)

theorem exec_vmbft_grows : ∀ p f, ExecGrows (exec (.vmbft p f)) := fun p f => pyGrows (fun _ => rfl) (by simp)

theorem exec_vmbfti_grows : ∀ p f, ExecGrows (exec (.vmbfti p f)) := fun p f => pyGrows (fun _ => rfl) (by simp)

theorem exec_vzip_grows : ∀ p f, ExecGrows (exec (.vzip p f)) := fun p f => pyGrows (fun _ => rfl) (by simp)

theorem exec_vunzip_grows : ∀ p f, ExecGrows (exec (.vunzip p f)) := fun p f => pyGrows (fun _ => rfl) (by simp)

theorem exec_vslup_grows : ∀ p f, ExecGrows (exec (.vslup p f)) := fun p f => pyGrows (fun _ => rfl) (by simp)

theorem exec_vsldn_grows : ∀ p f, ExecGrows (exec (.vsldn p f)) := fun p f => pyGrows (fun _ => rfl) (by simp)

theorem exec_vperm_grows : ∀ p f, ExecGrows (exec (.vperm p f)) := fun p f => pyGrows (fun _ => rfl) (by simp)

theorem exec_vrev_grows : ∀ p f, ExecGrows (exec (.vrev p f)) := fun p f => pyGrows (fun _ => rfl) (by simp)

theorem exec_vcompr_grows : ∀ p f, ExecGrows (exec (.vcompr p f)) := fun p f => pyGrows (fun _ => rfl) (by simp)

theorem exec_vbrev_grows : ∀ p f, ExecGrows (exec (.vbrev p f)) := fun p f => pyGrows (fun _ => rfl) (by simp)

theorem exec_vclmul_grows : ∀ p f, ExecGrows (exec (.vclmul p f)) := fun p f => pyGrows (fun _ => rfl) (by simp)

theorem exec_vclmulh_grows : ∀ p f, ExecGrows (exec (.vclmulh p f)) := fun p f => pyGrows (fun _ => rfl) (by simp)

theorem exec_vgmul_grows : ∀ p f, ExecGrows (exec (.vgmul p f)) := fun p f => pyGrows (fun _ => rfl) (by simp)

theorem exec_vgsqr_grows : ∀ p f, ExecGrows (exec (.vgsqr p f)) := fun p f => pyGrows (fun _ => rfl) (by simp)

theorem exec_vginv_grows : ∀ p f, ExecGrows (exec (.vginv p f)) := fun p f => pyGrows (fun _ => rfl) (by simp)

theorem exec_vgmac_grows : ∀ p f, ExecGrows (exec (.vgmac p f)) := fun p f => pyGrows (fun _ => rfl) (by simp)

theorem exec_vgxp_grows : ∀ p f, ExecGrows (exec (.vgxp p f)) := fun p f => pyGrows (fun _ => rfl) (by simp)

theorem exec_fadd_grows : ∀ p f, ExecGrows (exec (.fadd p f)) := fun p f => pyGrows (fun _ => rfl) (by simp)

theorem exec_fsub_grows : ∀ p f, ExecGrows (exec (.fsub p f)) := fun p f => pyGrows (fun _ => rfl) (by simp)

theorem exec_fmul_grows : ∀ p f, ExecGrows (exec (.fmul p f)) := fun p f => pyGrows (fun _ => rfl) (by simp)

theorem exec_fdiv_grows : ∀ p f, ExecGrows (exec (.fdiv p f)) := fun p f => pyGrows (fun _ => rfl) (by simp)

theorem exec_fsqrt_grows : ∀ p f, ExecGrows (exec (.fsqrt p f)) := fun p f => pyGrows (fun _ => rfl) (by simp)

theorem exec_fmin_grows : ∀ p f, ExecGrows (exec (.fmin p f)) := fun p f => pyGrows (fun _ => rfl) (by simp)

theorem exec_fmax_grows : ∀ p f, ExecGrows (exec (.fmax p f)) := fun p f => pyGrows (fun _ => rfl) (by simp)

theorem exec_fneg_grows : ∀ p f, ExecGrows (exec (.fneg p f)) := fun p f => pyGrows (fun _ => rfl) (by simp)

theorem exec_fma_grows : ∀ p f, ExecGrows (exec (.fma p f)) := fun p f => pyGrows (fun _ => rfl) (by simp)

theorem exec_fms_grows : ∀ p f, ExecGrows (exec (.fms p f)) := fun p f => pyGrows (fun _ => rfl) (by simp)

theorem exec_fnma_grows : ∀ p f, ExecGrows (exec (.fnma p f)) := fun p f => pyGrows (fun _ => rfl) (by simp)

theorem exec_fcvtf_grows : ∀ p f, ExecGrows (exec (.fcvtf p f)) := fun p f => pyGrows (fun _ => rfl) (by simp)

theorem exec_fcvti_grows : ∀ p f, ExecGrows (exec (.fcvti p f)) := fun p f => pyGrows (fun _ => rfl) (by simp)

theorem exec_frnd_grows : ∀ p f, ExecGrows (exec (.frnd p f)) := fun p f => pyGrows (fun _ => rfl) (by simp)

theorem exec_fmvx_grows : ∀ p f, ExecGrows (exec (.fmvx p f)) := fun p f => pyGrows (fun _ => rfl) (by simp)

theorem exec_fmvf_grows : ∀ p f, ExecGrows (exec (.fmvf p f)) := fun p f => pyGrows (fun _ => rfl) (by simp)

theorem exec_vpack_grows : ∀ p f, ExecGrows (exec (.vpack p f)) := fun p f => pyGrows (fun _ => rfl) (by simp)

theorem exec_vunpk_grows : ∀ p f, ExecGrows (exec (.vunpk p f)) := fun p f => pyGrows (fun _ => rfl) (by simp)

theorem exec_vcbd_grows : ∀ p f, ExecGrows (exec (.vcbd p f)) := fun p f => pyGrows (fun _ => rfl) (by simp)

theorem exec_vrej_grows : ∀ p f, ExecGrows (exec (.vrej p f)) := fun p f => pyGrows (fun _ => rfl) (by simp)

theorem exec_vcompd_grows : ∀ p f, ExecGrows (exec (.vcompd p f)) := fun p f => pyGrows (fun _ => rfl) (by simp)

theorem exec_vdecd_grows : ∀ p f, ExecGrows (exec (.vdecd p f)) := fun p f => pyGrows (fun _ => rfl) (by simp)

theorem exec_vp2r_grows : ∀ p f, ExecGrows (exec (.vp2r p f)) := fun p f => pyGrows (fun _ => rfl) (by simp)

theorem exec_vdcmp_grows : ∀ p f, ExecGrows (exec (.vdcmp p f)) := fun p f => pyGrows (fun _ => rfl) (by simp)

theorem exec_vhmake_grows : ∀ p f, ExecGrows (exec (.vhmake p f)) := fun p f => pyGrows (fun _ => rfl) (by simp)

theorem exec_vhuse_grows : ∀ p f, ExecGrows (exec (.vhuse p f)) := fun p f => pyGrows (fun _ => rfl) (by simp)

theorem exec_vchkn_grows : ∀ p f, ExecGrows (exec (.vchkn p f)) := fun p f => pyGrows (fun _ => rfl) (by simp)

theorem exec_hinit_grows : ∀ p f, ExecGrows (exec (.hinit p f)) := fun p f => pyGrows (fun _ => rfl) (by simp)

theorem exec_habs_grows : ∀ p f, ExecGrows (exec (.habs p f)) := fun p f => pyGrows (fun _ => rfl) (by simp)

theorem exec_hsqz_grows : ∀ p f, ExecGrows (exec (.hsqz p f)) := fun p f => pyGrows (fun _ => rfl) (by simp)

theorem exec_hsha_grows : ∀ p f, ExecGrows (exec (.hsha p f)) := fun p f => pyGrows (fun _ => rfl) (by simp)

theorem exec_hdig_grows : ∀ p f, ExecGrows (exec (.hdig p f)) := fun p f => pyGrows (fun _ => rfl) (by simp)

theorem exec_sref_grows : ∀ p f, ExecGrows (exec (.sref p f)) := fun p f => pyGrows (fun _ => rfl) (by simp)

theorem exec_sand_grows : ∀ p f, ExecGrows (exec (.sand p f)) := fun p f => pyGrows (fun _ => rfl) (by simp)

theorem exec_sa2b_grows : ∀ p f, ExecGrows (exec (.sa2b p f)) := fun p f => pyGrows (fun _ => rfl) (by simp)

theorem exec_sb2a_grows : ∀ p f, ExecGrows (exec (.sb2a p f)) := fun p f => pyGrows (fun _ => rfl) (by simp)

theorem exec_scmp_grows : ∀ p f, ExecGrows (exec (.scmp p f)) := fun p f => pyGrows (fun _ => rfl) (by simp)

theorem exec_sunm_grows : ∀ p f, ExecGrows (exec (.sunm p f)) := fun p f => pyGrows (fun _ => rfl) (by simp)

theorem exec_srnd_grows : ∀ p f, ExecGrows (exec (.srnd p f)) := fun p f => pyGrows (fun _ => rfl) (by simp)

theorem exec_jwait_grows : ∀ p f, ExecGrows (exec (.jwait p f)) := fun p f => pyGrows (fun _ => rfl) (by simp)

theorem exec_jrel_grows : ∀ p f, ExecGrows (exec (.jrel p f)) := fun p f => pyGrows (fun _ => rfl) (by simp)

theorem exec_jout_grows : ∀ p f, ExecGrows (exec (.jout p f)) := fun p f => pyGrows (fun _ => rfl) (by simp)

theorem exec_jkey_grows : ∀ p f, ExecGrows (exec (.jkey p f)) := fun p f => pyGrows (fun _ => rfl) (by simp)

theorem exec_jkput_grows : ∀ p f, ExecGrows (exec (.jkput p f)) := fun p f => pyGrows (fun _ => rfl) (by simp)

theorem exec_jkdone_grows : ∀ p f, ExecGrows (exec (.jkdone p f)) := fun p f => pyGrows (fun _ => rfl) (by simp)

theorem exec_jrnd_grows : ∀ p f, ExecGrows (exec (.jrnd p f)) := fun p f => pyGrows (fun _ => rfl) (by simp)

theorem exec_jset_grows : ∀ p f, ExecGrows (exec (.jset p f)) := fun p f => pyGrows (fun _ => rfl) (by simp)

theorem exec_uWait_grows : ∀ u f, ExecGrows (exec (.uWait u f)) := fun u f => uGrows (fun _ => rfl) (by simp)

theorem exec_uUop_grows : ∀ u f, ExecGrows (exec (.uUop u f)) := fun u f => uGrows (fun _ => rfl) (by simp)

theorem exec_uUopi_grows : ∀ u f, ExecGrows (exec (.uUopi u f)) := fun u f => uGrows (fun _ => rfl) (by simp)

theorem exec_uUins_grows : ∀ u f, ExecGrows (exec (.uUins u f)) := fun u f => uGrows (fun _ => rfl) (by simp)

theorem exec_uFld_grows : ∀ u f, ExecGrows (exec (.uFld u f)) := fun u f => uGrows (fun _ => rfl) (by simp)

theorem exec_uCcr_grows : ∀ u f, ExecGrows (exec (.uCcr u f)) := fun u f => uGrows (fun _ => rfl) (by simp)

theorem exec_uFlt_grows : ∀ u f, ExecGrows (exec (.uFlt u f)) := fun u f => uGrows (fun _ => rfl) (by simp)

theorem exec_uBr_grows : ∀ u f, ExecGrows (exec (.uBr u f)) := fun u f => uGrows (fun _ => rfl) (by simp)

theorem exec_uJmp_grows : ∀ u f, ExecGrows (exec (.uJmp u f)) := fun u f => uGrows (fun _ => rfl) (by simp)

theorem exec_uCall_grows : ∀ u f, ExecGrows (exec (.uCall u f)) := fun u f => uGrows (fun _ => rfl) (by simp)

theorem exec_uRet_grows : ∀ u f, ExecGrows (exec (.uRet u f)) := fun u f => uGrows (fun _ => rfl) (by simp)

theorem exec_uLpset_grows : ∀ u f, ExecGrows (exec (.uLpset u f)) := fun u f => uGrows (fun _ => rfl) (by simp)

theorem exec_uLpend_grows : ∀ u f, ExecGrows (exec (.uLpend u f)) := fun u f => uGrows (fun _ => rfl) (by simp)

theorem exec_uYld_grows : ∀ u f, ExecGrows (exec (.uYld u f)) := fun u f => uGrows (fun _ => rfl) (by simp)

theorem exec_uEnd_grows : ∀ u f, ExecGrows (exec (.uEnd u f)) := fun u f => uGrows (fun _ => rfl) (by simp)

theorem exec_uXmov_grows : ∀ u f, ExecGrows (exec (.uXmov u f)) := fun u f =>
  uGrows (fun _ => rfl) fun x => ukeeps_ite trivial (uxmovGo_keeps x)

theorem exec_uUiss_grows : ∀ u f, ExecGrows (exec (.uUiss u f)) := fun u f => uGrows (fun _ => rfl) (by simp)

theorem exec_uVln_grows : ∀ u f, ExecGrows (exec (.uVln u f)) := fun u f => uGrows (fun _ => rfl) (by simp)

theorem exec_uVel_grows : ∀ u f, ExecGrows (exec (.uVel u f)) := fun u f => uGrows (fun _ => rfl) (by simp)

theorem exec_uTls_grows : ∀ u f, ExecGrows (exec (.uTls u f)) := fun u f => uGrows (fun _ => rfl) (by simp)

theorem exec_uMkv_grows : ∀ u f, ExecGrows (exec (.uMkv u f)) := fun u f => uGrows (fun _ => rfl) (by simp)

theorem exec_uSln_grows : ∀ u f, ExecGrows (exec (.uSln u f)) := fun u f => uGrows (fun _ => rfl) (by simp)

theorem exec_uMac_grows : ∀ u f, ExecGrows (exec (.uMac u f)) := fun u f => uGrows (fun _ => rfl) (by simp)

theorem exec_uPad_grows : ∀ u f, ExecGrows (exec (.uPad u f)) := fun u f => uGrows (fun _ => rfl) (by simp)

theorem exec_uKplMe_grows : ∀ u f, ExecGrows (exec (.uKplMe u f)) := fun u f => uGrows (fun _ => rfl) (by simp)

theorem exec_uHio_grows : ∀ u f, ExecGrows (exec (.uHio u f)) := fun u f => uGrows (fun _ => rfl) (by simp)

theorem exec_uHui_grows : ∀ u f, ExecGrows (exec (.uHui u f)) := fun u f => uGrows (fun _ => rfl) (by simp)

theorem exec_uNbm_grows : ∀ u f, ExecGrows (exec (.uNbm u f)) := fun u f => uGrows (fun _ => rfl) (by simp)

theorem exec_uSst_grows : ∀ u f, ExecGrows (exec (.uSst u f)) := fun u f => uGrows (fun _ => rfl) (by simp)

theorem exec_uKplTs_grows : ∀ u f, ExecGrows (exec (.uKplTs u f)) := fun u f => uGrows (fun _ => rfl) (by simp)

theorem exec_controlStoreEcc_grows : ∀ u correctable, ExecGrows (exec (.controlStoreEcc u correctable)) := fun u correctable => keptGrows (fun _ => rfl) fun d => by simp [service_fuse, serviceNone_fuse, kemService_fuse, bootCmd_fuse, smDo_fuse, inStage_fuse]

theorem exec_ucodeStage_grows : ∀ u crcOk, ExecGrows (exec (.ucodeStage u crcOk)) := fun u crcOk => keptGrows (fun _ => rfl) fun d => by simp [service_fuse, serviceNone_fuse, kemService_fuse, bootCmd_fuse, smDo_fuse, inStage_fuse]

theorem exec_instanceDrained_grows : ∀ c, ExecGrows (exec (.instanceDrained c)) := fun c => keptGrows (fun _ => rfl) fun d => by simp [service_fuse, serviceNone_fuse, kemService_fuse, bootCmd_fuse, smDo_fuse, inStage_fuse]

theorem exec_dlrCommit_grows : ExecGrows (exec (.dlrCommit )) := keptGrows (fun _ => rfl) fun d => by simp [service_fuse, serviceNone_fuse, kemService_fuse, bootCmd_fuse, smDo_fuse, inStage_fuse]

theorem exec_tableCheckDone_grows : ExecGrows (exec (.tableCheckDone )) := keptGrows (fun _ => rfl) fun d => by simp [service_fuse, serviceNone_fuse, kemService_fuse, bootCmd_fuse, smDo_fuse, inStage_fuse]

theorem exec_dlrDiscard_grows : ExecGrows (exec (.dlrDiscard )) := keptGrows (fun _ => rfl) fun d => by simp [service_fuse, serviceNone_fuse, kemService_fuse, bootCmd_fuse, smDo_fuse, inStage_fuse]

theorem exec_dealPlan_grows : ExecGrows (exec (.dealPlan )) := keptGrows (fun _ => rfl) fun d => by simp [service_fuse, serviceNone_fuse, kemService_fuse, bootCmd_fuse, smDo_fuse, inStage_fuse]

theorem exec_flintTrimStep_grows : ∀ n latch ones, ExecGrows (exec (.flintTrimStep n latch ones)) := fun n latch ones => keptGrows (fun _ => rfl) fun d => by simp [service_fuse, serviceNone_fuse, kemService_fuse, bootCmd_fuse, smDo_fuse, inStage_fuse]

theorem exec_rctFailure_grows : ∀ n, ExecGrows (exec (.rctFailure n)) := fun n => fun s => ⟨_, rfl, Kept.grows (by simp [service_fuse, serviceNone_fuse, bootCmd_fuse, smDo_fuse, inStage_fuse])⟩

theorem exec_aptFailure_grows : ∀ n, ExecGrows (exec (.aptFailure n)) := fun n => fun s => ⟨_, rfl, Kept.grows (by simp [service_fuse, serviceNone_fuse, bootCmd_fuse, smDo_fuse, inStage_fuse])⟩

theorem exec_conditionerBlock_grows : ∀ n samples, ExecGrows (exec (.conditionerBlock n samples)) := fun n samples => keptGrows (fun _ => rfl) fun d => by simp [service_fuse, serviceNone_fuse, kemService_fuse, bootCmd_fuse, smDo_fuse, inStage_fuse]

theorem exec_reseedDue_grows : ExecGrows (exec (.reseedDue )) := keptGrows (fun _ => rfl) fun d => by simp [service_fuse, serviceNone_fuse, kemService_fuse, bootCmd_fuse, smDo_fuse, inStage_fuse]

theorem exec_rngHoldEnd_grows : ∀ katOk, ExecGrows (exec (.rngHoldEnd katOk)) := fun katOk => keptGrows (fun _ => rfl) fun d => by simp [service_fuse, serviceNone_fuse, kemService_fuse, bootCmd_fuse, smDo_fuse, inStage_fuse]

theorem exec_reserveRefill_grows : ExecGrows (exec (.reserveRefill )) := keptGrows (fun _ => rfl) fun d => by simp [service_fuse, serviceNone_fuse, kemService_fuse, bootCmd_fuse, smDo_fuse, inStage_fuse]

theorem exec_inlineKat_grows : ExecGrows (exec (.inlineKat )) := keptGrows (fun _ => rfl) fun d => by simp [service_fuse, serviceNone_fuse, kemService_fuse, bootCmd_fuse, smDo_fuse, inStage_fuse]

theorem exec_rngKat_grows : ExecGrows (exec (.rngKat )) := fun s => ⟨_, rfl, Kept.grows (by simp [service_fuse, serviceNone_fuse, bootCmd_fuse, smDo_fuse, inStage_fuse])⟩

theorem exec_rngRecal_grows : ∀ n, ExecGrows (exec (.rngRecal n)) := fun n => keptGrows (fun _ => rfl) fun d => by simp [service_fuse, serviceNone_fuse, kemService_fuse, bootCmd_fuse, smDo_fuse, inStage_fuse]

theorem exec_recalDone_grows : ∀ n pass trims, ExecGrows (exec (.recalDone n pass trims)) := fun n pass trims => keptGrows (fun _ => rfl) fun d => by simp [service_fuse, serviceNone_fuse, kemService_fuse, bootCmd_fuse, smDo_fuse, inStage_fuse]

theorem exec_sourceRetry_grows : ∀ n, ExecGrows (exec (.sourceRetry n)) := fun n => keptGrows (fun _ => rfl) fun d => by simp [service_fuse, serviceNone_fuse, kemService_fuse, bootCmd_fuse, smDo_fuse, inStage_fuse]

theorem exec_softZeroise_grows : ∀ v, ExecGrows (exec (.softZeroise v)) := fun v => keptGrows (fun _ => rfl) fun d => by simp [service_fuse, serviceNone_fuse, kemService_fuse, bootCmd_fuse, smDo_fuse, inStage_fuse]

theorem exec_zeroiseSoft_grows : ExecGrows (exec (.zeroiseSoft )) := fun s => ⟨_, rfl, Kept.grows (by simp [service_fuse, serviceNone_fuse, bootCmd_fuse, smDo_fuse, inStage_fuse])⟩

theorem exec_hardZeroise_grows : ∀ v, ExecGrows (exec (.hardZeroise v)) := fun v => keptGrows (fun _ => rfl) fun d => by simp [service_fuse, serviceNone_fuse, kemService_fuse, bootCmd_fuse, smDo_fuse, inStage_fuse]

theorem exec_zeroiseNAssert_grows : ExecGrows (exec (.zeroiseNAssert )) := keptGrows (fun _ => rfl) fun d => by simp [service_fuse, serviceNone_fuse, kemService_fuse, bootCmd_fuse, smDo_fuse, inStage_fuse]

theorem exec_tamper_grows : ∀ n, ExecGrows (exec (.tamper n)) := fun n => keptGrows (fun _ => rfl) fun d => by simp [service_fuse, serviceNone_fuse, kemService_fuse, bootCmd_fuse, smDo_fuse, inStage_fuse]

theorem exec_zeroise_grows : ∀ env, ExecGrows (exec (.zeroise env)) := fun env => growGrows (fun _ => rfl) fun d => hardFinish_grows _ _

theorem exec_vfEnableSet_grows : ∀ n, ExecGrows (exec (.vfEnableSet n)) := fun n => keptGrows (fun _ => rfl) fun d => by simp [service_fuse, serviceNone_fuse, kemService_fuse, bootCmd_fuse, smDo_fuse, inStage_fuse]

theorem exec_vfEnableClear_grows : ExecGrows (exec (.vfEnableClear )) := keptGrows (fun _ => rfl) fun d => by simp [service_fuse, serviceNone_fuse, kemService_fuse, bootCmd_fuse, smDo_fuse, inStage_fuse]

theorem exec_vfmSelWrite_grows : ∀ o, ExecGrows (exec (.vfmSelWrite o)) := fun o => keptGrows (fun _ => rfl) fun d => by simp [service_fuse, serviceNone_fuse, kemService_fuse, bootCmd_fuse, smDo_fuse, inStage_fuse]

theorem exec_enable_grows : ExecGrows (exec (.enable )) := keptGrows (fun _ => rfl) fun d => by simp [service_fuse, serviceNone_fuse, kemService_fuse, bootCmd_fuse, smDo_fuse, inStage_fuse]

theorem exec_apply_grows : ExecGrows (exec (.apply )) := keptGrows (fun _ => rfl) fun d => by simp [service_fuse, serviceNone_fuse, kemService_fuse, bootCmd_fuse, smDo_fuse, inStage_fuse]

theorem exec_remove_grows : ∀ purge, ExecGrows (exec (.remove purge)) := fun purge => keptGrows (fun _ => rfl) fun d => by simp [service_fuse, serviceNone_fuse, kemService_fuse, bootCmd_fuse, smDo_fuse, inStage_fuse]

theorem exec_challenge_grows : ExecGrows (exec (.challenge )) := keptGrows (fun _ => rfl) fun d => by simp [service_fuse, serviceNone_fuse, kemService_fuse, bootCmd_fuse, smDo_fuse, inStage_fuse]

theorem exec_challengeExpiry_grows : ExecGrows (exec (.challengeExpiry )) := keptGrows (fun _ => rfl) fun d => by simp [service_fuse, serviceNone_fuse, kemService_fuse, bootCmd_fuse, smDo_fuse, inStage_fuse]

theorem exec_submit_grows : ∀ env, ExecGrows (exec (.submit env)) := fun env => growGrows (fun _ => rfl) fun d => submitGo_grows _ _

theorem exec_revoke_grows : ∀ env, ExecGrows (exec (.revoke env)) := fun env => growGrows (fun _ => rfl) fun d => revokeGo_grows _ _

theorem exec_ikhProgram_grows : ∀ otpOk, ExecGrows (exec (.ikhProgram otpOk)) := fun otpOk => growGrows (fun _ => rfl) fun d => ikhProgramGo_grows _ _

theorem exec_debugGrantExpiry_grows : ∀ env, ExecGrows (exec (.debugGrantExpiry env)) := fun env => growGrows (fun _ => rfl) fun d => debugGrantExpiryGo_grows _ _

theorem exec_writeSlot_grows : ∀ r, ExecGrows (exec (.writeSlot r)) := fun r => keptGrows (fun _ => rfl) fun d => by simp [service_fuse, serviceNone_fuse, kemService_fuse, bootCmd_fuse, smDo_fuse, inStage_fuse]

theorem exec_verify_grows : ExecGrows (exec (.verify )) := keptGrows (fun _ => rfl) fun d => by simp [service_fuse, serviceNone_fuse, kemService_fuse, bootCmd_fuse, smDo_fuse, inStage_fuse]

theorem exec_activate_grows : ∀ env, ExecGrows (exec (.activate env)) := fun env => growGrows (fun _ => rfl) fun d => bootCmd_grows _ _ _ _ fun a => activateRun_grows _ _

theorem exec_commit_grows : ExecGrows (exec (.commit )) := growGrows (fun _ => rfl) fun d => bootCmd_grows _ _ _ _ fun a => commitRun_grows _

theorem exec_rollback_grows : ExecGrows (exec (.rollback )) := keptGrows (fun _ => rfl) fun d => by simp [service_fuse, serviceNone_fuse, kemService_fuse, bootCmd_fuse, smDo_fuse, inStage_fuse]

theorem exec_rolloutStepDone_grows : ExecGrows (exec (.rolloutStepDone )) := keptGrows (fun _ => rfl) fun d => by simp [service_fuse, serviceNone_fuse, kemService_fuse, bootCmd_fuse, smDo_fuse, inStage_fuse]

theorem exec_supvHandoverReport_grows : ExecGrows (exec (.supvHandoverReport )) := keptGrows (fun _ => rfl) fun d => by simp [service_fuse, serviceNone_fuse, kemService_fuse, bootCmd_fuse, smDo_fuse, inStage_fuse]

theorem exec_supvHandoverFail_grows : ExecGrows (exec (.supvHandoverFail )) := keptGrows (fun _ => rfl) fun d => by simp [service_fuse, serviceNone_fuse, kemService_fuse, bootCmd_fuse, smDo_fuse, inStage_fuse]

theorem exec_nvmFail_grows : ExecGrows (exec (.nvmFail )) := keptGrows (fun _ => rfl) fun d => by simp [service_fuse, serviceNone_fuse, kemService_fuse, bootCmd_fuse, smDo_fuse, inStage_fuse]

theorem exec_isSchedule_grows : ExecGrows (exec (.isSchedule )) := keptGrows (fun _ => rfl) fun d => by simp [service_fuse, serviceNone_fuse, kemService_fuse, bootCmd_fuse, smDo_fuse, inStage_fuse]

theorem exec_isCmd_grows : ∀ v, ExecGrows (exec (.isCmd v)) := fun v => keptGrows (fun _ => rfl) fun d => by simp [service_fuse, serviceNone_fuse, kemService_fuse, bootCmd_fuse, smDo_fuse, inStage_fuse]

theorem exec_isDrainTimeout_grows : ∀ c, ExecGrows (exec (.isDrainTimeout c)) := fun c => keptGrows (fun _ => rfl) fun d => by simp [service_fuse, serviceNone_fuse, kemService_fuse, bootCmd_fuse, smDo_fuse, inStage_fuse]

theorem exec_isTestDone_grows : ∀ c r, ExecGrows (exec (.isTestDone c r)) := fun c r => keptGrows (fun _ => rfl) fun d => by simp [service_fuse, serviceNone_fuse, kemService_fuse, bootCmd_fuse, smDo_fuse, inStage_fuse]

theorem exec_uncorrectableEcc_grows : ∀ site, ExecGrows (exec (.uncorrectableEcc site)) := fun site => keptGrows (fun _ => rfl) fun d => by simp [service_fuse, serviceNone_fuse, kemService_fuse, bootCmd_fuse, smDo_fuse, inStage_fuse]

theorem exec_ckptTimer_grows : ExecGrows (exec (.ckptTimer )) := keptGrows (fun _ => rfl) fun d => by simp [service_fuse, serviceNone_fuse, kemService_fuse, bootCmd_fuse, smDo_fuse, inStage_fuse]

theorem exec_ckpt_grows : ExecGrows (exec (.ckpt )) := keptGrows (fun _ => rfl) fun d => by simp [service_fuse, serviceNone_fuse, kemService_fuse, bootCmd_fuse, smDo_fuse, inStage_fuse]

theorem exec_ckptDone_grows : ExecGrows (exec (.ckptDone )) := keptGrows (fun _ => rfl) fun d => by simp [service_fuse, serviceNone_fuse, kemService_fuse, bootCmd_fuse, smDo_fuse, inStage_fuse]

theorem exec_clearHist_grows : ExecGrows (exec (.clearHist )) := keptGrows (fun _ => rfl) fun d => by simp [service_fuse, serviceNone_fuse, kemService_fuse, bootCmd_fuse, smDo_fuse, inStage_fuse]

theorem exec_mirrorTimer_grows : ∀ n ok, ExecGrows (exec (.mirrorTimer n ok)) := fun n ok => keptGrows (fun _ => rfl) fun d => by simp [service_fuse, serviceNone_fuse, kemService_fuse, bootCmd_fuse, smDo_fuse, inStage_fuse]

theorem exec_recBankBad_grows : ∀ b, ExecGrows (exec (.recBankBad b)) := fun b => keptGrows (fun _ => rfl) fun d => by simp [service_fuse, serviceNone_fuse, kemService_fuse, bootCmd_fuse, smDo_fuse, inStage_fuse]

theorem exec_wallCommit_grows : ∀ v, ExecGrows (exec (.wallCommit v)) := fun v => keptGrows (fun _ => rfl) fun d => by simp [service_fuse, serviceNone_fuse, kemService_fuse, bootCmd_fuse, smDo_fuse, inStage_fuse]

theorem exec_wallSRead_grows : ExecGrows (exec (.wallSRead )) := keptGrows (fun _ => rfl) fun d => by simp [service_fuse, serviceNone_fuse, kemService_fuse, bootCmd_fuse, smDo_fuse, inStage_fuse]

theorem exec_ambFreeze_grows : ExecGrows (exec (.ambFreeze )) := keptGrows (fun _ => rfl) fun d => by simp [service_fuse, serviceNone_fuse, kemService_fuse, bootCmd_fuse, smDo_fuse, inStage_fuse]

theorem exec_freezeCopyDone_grows : ExecGrows (exec (.freezeCopyDone )) := keptGrows (fun _ => rfl) fun d => by simp [service_fuse, serviceNone_fuse, kemService_fuse, bootCmd_fuse, smDo_fuse, inStage_fuse]

theorem exec_ambDigest_grows : ∀ src, ExecGrows (exec (.ambDigest src)) := fun src => keptGrows (fun _ => rfl) fun d => by simp [service_fuse, serviceNone_fuse, kemService_fuse, bootCmd_fuse, smDo_fuse, inStage_fuse]

theorem exec_digestDone_grows : ExecGrows (exec (.digestDone )) := keptGrows (fun _ => rfl) fun d => by simp [service_fuse, serviceNone_fuse, kemService_fuse, bootCmd_fuse, smDo_fuse, inStage_fuse]

theorem exec_amberRefill_grows : ∀ code, ExecGrows (exec (.amberRefill code)) := fun code => keptGrows (fun _ => rfl) fun d => by simp [service_fuse, serviceNone_fuse, kemService_fuse, bootCmd_fuse, smDo_fuse, inStage_fuse]

theorem exec_supvPush_grows : ExecGrows (exec (.supvPush )) := keptGrows (fun _ => rfl) fun d => by simp [service_fuse, serviceNone_fuse, kemService_fuse, bootCmd_fuse, smDo_fuse, inStage_fuse]

theorem exec_wdogRestart_grows : ExecGrows (exec (.wdogRestart )) := keptGrows (fun _ => rfl) fun d => by simp [service_fuse, serviceNone_fuse, kemService_fuse, bootCmd_fuse, smDo_fuse, inStage_fuse]

theorem exec_wdog_grows : ∀ env, ExecGrows (exec (.wdog env)) := fun env => growGrows (fun _ => rfl) fun d => wdogGo_grows _ _

theorem exec_smbGetStatus_grows : ExecGrows (exec (.smbGetStatus )) := keptGrows (fun _ => rfl) fun d => by simp [service_fuse, serviceNone_fuse, kemService_fuse, bootCmd_fuse, smDo_fuse, inStage_fuse]

theorem exec_smbGetIdentity_grows : ExecGrows (exec (.smbGetIdentity )) := keptGrows (fun _ => rfl) fun d => by simp [service_fuse, serviceNone_fuse, kemService_fuse, bootCmd_fuse, smDo_fuse, inStage_fuse]

theorem exec_smbGetLc_grows : ExecGrows (exec (.smbGetLc )) := keptGrows (fun _ => rfl) fun d => by simp [service_fuse, serviceNone_fuse, kemService_fuse, bootCmd_fuse, smDo_fuse, inStage_fuse]

theorem exec_smbGetEnv_grows : ExecGrows (exec (.smbGetEnv )) := keptGrows (fun _ => rfl) fun d => by simp [service_fuse, serviceNone_fuse, kemService_fuse, bootCmd_fuse, smDo_fuse, inStage_fuse]

theorem exec_smbAmbRead_grows : ∀ back n, ExecGrows (exec (.smbAmbRead back n)) := fun back n => keptGrows (fun _ => rfl) fun d => by simp [service_fuse, serviceNone_fuse, kemService_fuse, bootCmd_fuse, smDo_fuse, inStage_fuse]

theorem exec_smbFrzRead_grows : ∀ bank slot n, ExecGrows (exec (.smbFrzRead bank slot n)) := fun bank slot n => keptGrows (fun _ => rfl) fun d => by simp [service_fuse, serviceNone_fuse, kemService_fuse, bootCmd_fuse, smDo_fuse, inStage_fuse]

theorem exec_smbDigest_grows : ∀ src part, ExecGrows (exec (.smbDigest src part)) := fun src part => keptGrows (fun _ => rfl) fun d => by simp [service_fuse, serviceNone_fuse, kemService_fuse, bootCmd_fuse, smDo_fuse, inStage_fuse]

theorem exec_smbFreeze_grows : ExecGrows (exec (.smbFreeze )) := keptGrows (fun _ => rfl) fun d => by simp [service_fuse, serviceNone_fuse, kemService_fuse, bootCmd_fuse, smDo_fuse, inStage_fuse]

theorem exec_smbReset_grows : ∀ key env, ExecGrows (exec (.smbReset key env)) := fun key env => growGrows (fun _ => rfl) fun d => by
  unfold smDo; split
  · exact smbResetGo_grows _ _ _
  · exact Grows.refl d

theorem exec_smbZeroise_grows : ∀ key, ExecGrows (exec (.smbZeroise key)) := fun key => keptGrows (fun _ => rfl) fun d => by simp [service_fuse, serviceNone_fuse, kemService_fuse, bootCmd_fuse, smDo_fuse, inStage_fuse]

theorem exec_smbAlertAck_grows : ExecGrows (exec (.smbAlertAck )) := keptGrows (fun _ => rfl) fun d => by simp [service_fuse, serviceNone_fuse, kemService_fuse, bootCmd_fuse, smDo_fuse, inStage_fuse]

theorem exec_frameSubmit_grows : ∀ fr, ExecGrows (exec (.frameSubmit fr)) := fun fr => keptGrows (fun _ => rfl) fun d => by simp [service_fuse, serviceNone_fuse, kemService_fuse, bootCmd_fuse, smDo_fuse, inStage_fuse]

theorem exec_frameComplete_grows : ∀ fr, ExecGrows (exec (.frameComplete fr)) := fun fr => keptGrows (fun _ => rfl) fun d => by simp [service_fuse, serviceNone_fuse, kemService_fuse, bootCmd_fuse, smDo_fuse, inStage_fuse]

theorem exec_frameRdReq_grows : ∀ fr, ExecGrows (exec (.frameRdReq fr)) := fun fr => keptGrows (fun _ => rfl) fun d => by simp [service_fuse, serviceNone_fuse, kemService_fuse, bootCmd_fuse, smDo_fuse, inStage_fuse]

theorem exec_frameRdData_grows : ∀ fr, ExecGrows (exec (.frameRdData fr)) := fun fr => keptGrows (fun _ => rfl) fun d => by simp [service_fuse, serviceNone_fuse, kemService_fuse, bootCmd_fuse, smDo_fuse, inStage_fuse]

theorem exec_frameWrData_grows : ∀ fr, ExecGrows (exec (.frameWrData fr)) := fun fr => keptGrows (fun _ => rfl) fun d => by simp [service_fuse, serviceNone_fuse, kemService_fuse, bootCmd_fuse, smDo_fuse, inStage_fuse]

theorem exec_frameAbandon_grows : ∀ fr, ExecGrows (exec (.frameAbandon fr)) := fun fr => keptGrows (fun _ => rfl) fun d => by simp [service_fuse, serviceNone_fuse, kemService_fuse, bootCmd_fuse, smDo_fuse, inStage_fuse]

theorem exec_frameAbandonDone_grows : ∀ fr, ExecGrows (exec (.frameAbandonDone fr)) := fun fr => keptGrows (fun _ => rfl) fun d => by simp [service_fuse, serviceNone_fuse, kemService_fuse, bootCmd_fuse, smDo_fuse, inStage_fuse]

theorem exec_frameCreditGrant_grows : ∀ fr, ExecGrows (exec (.frameCreditGrant fr)) := fun fr => keptGrows (fun _ => rfl) fun d => by simp [service_fuse, serviceNone_fuse, kemService_fuse, bootCmd_fuse, smDo_fuse, inStage_fuse]

theorem exec_frameAckNak_grows : ∀ fr, ExecGrows (exec (.frameAckNak fr)) := fun fr => keptGrows (fun _ => rfl) fun d => by simp [service_fuse, serviceNone_fuse, kemService_fuse, bootCmd_fuse, smDo_fuse, inStage_fuse]

theorem exec_frameHeartbeat_grows : ∀ fr, ExecGrows (exec (.frameHeartbeat fr)) := fun fr => keptGrows (fun _ => rfl) fun d => by simp [service_fuse, serviceNone_fuse, kemService_fuse, bootCmd_fuse, smDo_fuse, inStage_fuse]

theorem exec_frameTime_grows : ∀ fr, ExecGrows (exec (.frameTime fr)) := fun fr => keptGrows (fun _ => rfl) fun d => by simp [service_fuse, serviceNone_fuse, kemService_fuse, bootCmd_fuse, smDo_fuse, inStage_fuse]

theorem exec_frameHandshake_grows : ∀ fr, ExecGrows (exec (.frameHandshake fr)) := fun fr => keptGrows (fun _ => rfl) fun d => by simp [service_fuse, serviceNone_fuse, kemService_fuse, bootCmd_fuse, smDo_fuse, inStage_fuse]

theorem exec_frameConfig_grows : ∀ fr, ExecGrows (exec (.frameConfig fr)) := fun fr => keptGrows (fun _ => rfl) fun d => by simp [service_fuse, serviceNone_fuse, kemService_fuse, bootCmd_fuse, smDo_fuse, inStage_fuse]

theorem exec_frameRecord_grows : ∀ fr, ExecGrows (exec (.frameRecord fr)) := fun fr => keptGrows (fun _ => rfl) fun d => by simp [service_fuse, serviceNone_fuse, kemService_fuse, bootCmd_fuse, smDo_fuse, inStage_fuse]

theorem exec_frameAmber_grows : ∀ fr, ExecGrows (exec (.frameAmber fr)) := fun fr => keptGrows (fun _ => rfl) fun d => by simp [service_fuse, serviceNone_fuse, kemService_fuse, bootCmd_fuse, smDo_fuse, inStage_fuse]

theorem exec_frameFate_grows : ∀ fr, ExecGrows (exec (.frameFate fr)) := fun fr => keptGrows (fun _ => rfl) fun d => by simp [service_fuse, serviceNone_fuse, kemService_fuse, bootCmd_fuse, smDo_fuse, inStage_fuse]

theorem exec_frameRekey_grows : ∀ fr, ExecGrows (exec (.frameRekey fr)) := fun fr => keptGrows (fun _ => rfl) fun d => by simp [service_fuse, serviceNone_fuse, kemService_fuse, bootCmd_fuse, smDo_fuse, inStage_fuse]

theorem exec_heartbeatTick_grows : ExecGrows (exec (.heartbeatTick )) := keptGrows (fun _ => rfl) fun d => by simp [service_fuse, serviceNone_fuse, kemService_fuse, bootCmd_fuse, smDo_fuse, inStage_fuse]

theorem exec_timeTick_grows : ExecGrows (exec (.timeTick )) := keptGrows (fun _ => rfl) fun d => by simp [service_fuse, serviceNone_fuse, kemService_fuse, bootCmd_fuse, smDo_fuse, inStage_fuse]

theorem exec_replayTimeout_grows : ∀ port, ExecGrows (exec (.replayTimeout port)) := fun port => keptGrows (fun _ => rfl) fun d => by simp [service_fuse, serviceNone_fuse, kemService_fuse, bootCmd_fuse, smDo_fuse, inStage_fuse]

theorem exec_portLinkChange_grows : ∀ port ev, ExecGrows (exec (.portLinkChange port ev)) := fun port ev => keptGrows (fun _ => rfl) fun d => by simp [service_fuse, serviceNone_fuse, kemService_fuse, bootCmd_fuse, smDo_fuse, inStage_fuse]

theorem exec_gapTimeout_grows : ∀ node, ExecGrows (exec (.gapTimeout node)) := fun node => keptGrows (fun _ => rfl) fun d => by simp [service_fuse, serviceNone_fuse, kemService_fuse, bootCmd_fuse, smDo_fuse, inStage_fuse]

theorem exec_memberSilence_grows : ∀ node, ExecGrows (exec (.memberSilence node)) := fun node => keptGrows (fun _ => rfl) fun d => by simp [service_fuse, serviceNone_fuse, kemService_fuse, bootCmd_fuse, smDo_fuse, inStage_fuse]

theorem exec_leadLost_grows : ExecGrows (exec (.leadLost )) := keptGrows (fun _ => rfl) fun d => by simp [service_fuse, serviceNone_fuse, kemService_fuse, bootCmd_fuse, smDo_fuse, inStage_fuse]

theorem exec_fabJoin_grows : ∀ node hops, ExecGrows (exec (.fabJoin node hops)) := fun node hops => keptGrows (fun _ => rfl) fun d => by simp [service_fuse, serviceNone_fuse, kemService_fuse, bootCmd_fuse, smDo_fuse, inStage_fuse]

theorem exec_sessionRenew_grows : ∀ node, ExecGrows (exec (.sessionRenew node)) := fun node => keptGrows (fun _ => rfl) fun d => by simp [service_fuse, serviceNone_fuse, kemService_fuse, bootCmd_fuse, smDo_fuse, inStage_fuse]

theorem exec_fabAdmit_grows : ∀ node, ExecGrows (exec (.fabAdmit node)) := fun node => keptGrows (fun _ => rfl) fun d => by simp [service_fuse, serviceNone_fuse, kemService_fuse, bootCmd_fuse, smDo_fuse, inStage_fuse]

theorem exec_fabRemove_grows : ∀ node, ExecGrows (exec (.fabRemove node)) := fun node => keptGrows (fun _ => rfl) fun d => by simp [service_fuse, serviceNone_fuse, kemService_fuse, bootCmd_fuse, smDo_fuse, inStage_fuse]

theorem exec_fabRekey_grows : ∀ node, ExecGrows (exec (.fabRekey node)) := fun node => keptGrows (fun _ => rfl) fun d => by simp [service_fuse, serviceNone_fuse, kemService_fuse, bootCmd_fuse, smDo_fuse, inStage_fuse]

theorem exec_busMasterEnable_grows : ∀ f bme mse, ExecGrows (exec (.busMasterEnable f bme mse)) := fun f bme mse => keptGrows (fun _ => rfl) fun d => by simp [service_fuse, serviceNone_fuse, kemService_fuse, bootCmd_fuse, smDo_fuse, inStage_fuse]

theorem exec_powerStateChange_grows : ∀ f d3hot, ExecGrows (exec (.powerStateChange f d3hot)) := fun f d3hot => keptGrows (fun _ => rfl) fun d => by simp [service_fuse, serviceNone_fuse, kemService_fuse, bootCmd_fuse, smDo_fuse, inStage_fuse]

theorem exec_msixUnmask_grows : ∀ f w, ExecGrows (exec (.msixUnmask f w)) := fun f w => keptGrows (fun _ => rfl) fun d => by simp [service_fuse, serviceNone_fuse, kemService_fuse, bootCmd_fuse, smDo_fuse, inStage_fuse]

theorem exec_evmaskWrite_grows : ∀ v, ExecGrows (exec (.evmaskWrite v)) := fun v => keptGrows (fun _ => rfl) fun d => by simp [service_fuse, serviceNone_fuse, kemService_fuse, bootCmd_fuse, smDo_fuse, inStage_fuse]

theorem exec_eventHoldoffExpiry_grows : ∀ v, ExecGrows (exec (.eventHoldoffExpiry v)) := fun v => keptGrows (fun _ => rfl) fun d => by simp [service_fuse, serviceNone_fuse, kemService_fuse, bootCmd_fuse, smDo_fuse, inStage_fuse]

theorem exec_linkRetrain_grows : ∀ speed width, ExecGrows (exec (.linkRetrain speed width)) := fun speed width => keptGrows (fun _ => rfl) fun d => by simp [service_fuse, serviceNone_fuse, kemService_fuse, bootCmd_fuse, smDo_fuse, inStage_fuse]

theorem exec_poisonedBarWrite_grows : ∀ f off, ExecGrows (exec (.poisonedBarWrite f off)) := fun f off => keptGrows (fun _ => rfl) fun d => by simp [service_fuse, serviceNone_fuse, kemService_fuse, bootCmd_fuse, smDo_fuse, inStage_fuse]

theorem exec_refclkStable_grows : ∀ env, ExecGrows (exec (.refclkStable env)) := fun env =>  fun s => ⟨_, rfl, by
  dsimp only
  split
  · exact Grows.refl _
  split
  · exact Kept.grows ⟨rfl, rfl⟩
  · exact Grows.trans (Kept.grows ⟨rfl, rfl⟩) (tryStart_grows _ _)⟩

theorem exec_vddBrReturn_grows : ∀ env, ExecGrows (exec (.vddBrReturn env)) := fun env => growGrows (fun _ => rfl) fun d => vddBrReturnGo_grows _ _

theorem exec_debugHalt_grows : ∀ u op, ExecGrows (exec (.debugHalt u op)) := fun u op => keptGrows (fun _ => rfl) fun d => by simp [service_fuse, serviceNone_fuse, kemService_fuse, bootCmd_fuse, smDo_fuse, inStage_fuse]

theorem exec_debugStep_grows : ∀ u op, ExecGrows (exec (.debugStep u op)) := fun u op => keptGrows (fun _ => rfl) fun d => by simp [service_fuse, serviceNone_fuse, kemService_fuse, bootCmd_fuse, smDo_fuse, inStage_fuse]

theorem exec_importStepDone_grows : ∀ j, ExecGrows (exec (.importStepDone j)) := fun j => keptGrows (fun _ => rfl) fun d => by simp [service_fuse, serviceNone_fuse, kemService_fuse, bootCmd_fuse, smDo_fuse, inStage_fuse]

theorem exec_clockLowTimeout_grows : ExecGrows (exec (.clockLowTimeout )) := keptGrows (fun _ => rfl) fun d => by simp [service_fuse, serviceNone_fuse, kemService_fuse, bootCmd_fuse, smDo_fuse, inStage_fuse]

theorem exec_lossOfArbitration_grows : ExecGrows (exec (.lossOfArbitration )) := keptGrows (fun _ => rfl) fun d => by simp [service_fuse, serviceNone_fuse, kemService_fuse, bootCmd_fuse, smDo_fuse, inStage_fuse]

theorem exec_admitTimeout_grows : ExecGrows (exec (.admitTimeout )) := keptGrows (fun _ => rfl) fun d => by simp [service_fuse, serviceNone_fuse, kemService_fuse, bootCmd_fuse, smDo_fuse, inStage_fuse]

theorem exec_grows (i : Instr) : ExecGrows (exec i) := by
  cases i
  · exact exec_porNAssert_grows
  · exact exec_porNRelease_grows _ _ _
  · exact exec_bedrockBrownout_grows
  · exact exec_perstNAssert_grows
  · exact exec_perstNRelease_grows _
  · exact exec_selftestTempWait_grows _
  · exact exec_hotReset_grows _
  · exact exec_pfFlr_grows
  · exact exec_vfFlr_grows _
  · exact exec_vfResetDone_grows _
  · exact exec_softReset_grows _ _
  · exact exec_jtagHoldInstr_grows _
  · exact exec_jtagTestLogicReset_grows _
  · exact exec_bypass_grows
  · exact exec_idcode_grows
  · exact exec_samplePreload_grows
  · exact exec_jtagDebug_grows
  · exact exec_detectorEvent_grows _ _ _ _
  · exact exec_serdesRailLoss_grows _
  · exact exec_sensorRead_grows _ _
  · exact exec_sqDoorbell_grows _ _ _
  · exact exec_cqHeadDoorbell_grows _ _ _
  · exact exec_doorbell64_grows _ _ _ _
  · exact exec_pushWindowWrite_grows _ _ _ _
  · exact exec_entryFetch_grows _
  · exact exec_entryReadDone_grows _ _
  · exact exec_jobPlace_grows _
  · exact exec_blobUnwrapDone_grows _
  · exact exec_hybridHalfDone_grows _ _
  · exact exec_dmaReadCompletion_grows _ _ _
  · exact exec_dmaReadTimeout_grows _
  · exact exec_outputListChecked_grows _
  · exact exec_inputPageFilled_grows _ _
  · exact exec_auxFillDone_grows _
  · exact exec_outputBufferRoom_grows _
  · exact exec_mramCommitDone_grows _
  · exact exec_coalTimerExpiry_grows _
  · exact exec_yieldTimeout_grows _
  · exact exec_trickBoundary_grows
  · exact exec_decisionPoint_grows
  · exact exec_roundBoundary_grows
  · exact exec_dutyCoolTimer_grows
  · exact exec_sqEnable_grows _ _ _
  · exact exec_sqDisable_grows _ _ _
  · exact exec_cqEnable_grows _ _ _
  · exact exec_cqDisable_grows _ _ _
  · exact exec_sqHeadWrite_grows _ _ _
  · exact exec_cqPtrWrite_grows _ _ _
  · exact exec_registerWrite_grows _ _
  · exact exec_nop_grows _
  · exact exec_echo_grows _
  · exact exec_queryCaps_grows _
  · exact exec_time_grows _
  · exact exec_fateQuery_grows _
  · exact exec_fateRelease_grows _
  · exact exec_notify_grows _
  · exact exec_byJob_grows _
  · exact exec_byKey_grows _
  · exact exec_release_grows _
  · exact exec_releaseBoot_grows _
  · exact exec_kemKeygen_grows _
  · exact exec_kemEncaps_grows _
  · exact exec_kemDecaps_grows _
  · exact exec_kemEncapsKeep_grows _
  · exact exec_kemDecapsKeep_grows _
  · exact exec_ekCheck_grows _
  · exact exec_kemPubExport_grows _
  · exact exec_dsaKeygen_grows _
  · exact exec_dsaSign_grows _
  · exact exec_signPh_grows _
  · exact exec_signMu_grows _
  · exact exec_dsaVerify_grows _
  · exact exec_verifyPh_grows _
  · exact exec_verifyMu_grows _
  · exact exec_dsaPubExport_grows _
  · exact exec_hbsKeygen_grows _
  · exact exec_hbsSign_grows _
  · exact exec_hbsSignPh_grows _
  · exact exec_hbsVerify_grows _
  · exact exec_hbsVerifyPh_grows _
  · exact exec_hbsPubExport_grows _
  · exact exec_advance_grows _
  · exact exec_rebuild_grows _
  · exact exec_codeKeygen_grows _
  · exact exec_codeEncaps_grows _
  · exact exec_codeDecaps_grows _
  · exact exec_codeEncapsKeep_grows _
  · exact exec_codeDecapsKeep_grows _
  · exact exec_codePkLoad_grows _
  · exact exec_codePubExport_grows _
  · exact exec_pkKeygen_grows _
  · exact exec_pkSign_grows _
  · exact exec_signV15_grows _
  · exact exec_pkVerify_grows _
  · exact exec_verifyV15_grows _
  · exact exec_pkPubExport_grows _
  · exact exec_dh_grows _
  · exact exec_dhKeep_grows _
  · exact exec_pkLoad_grows _
  · exact exec_curveLoad_grows _
  · exact exec_encrypt_grows _
  · exact exec_decrypt_grows _
  · exact exec_privRaw_grows _
  · exact exec_pubRaw_grows _
  · exact exec_modRun_grows _
  · exact exec_mpLoad_grows _ _
  · exact exec_mpLoadx_grows _ _
  · exact exec_mpLoadk_grows _ _
  · exact exec_mpSeti_grows _ _
  · exact exec_mpCopy_grows _ _
  · exact exec_mpAdd_grows _ _
  · exact exec_mpSub_grows _ _
  · exact exec_mmul_grows _ _
  · exact exec_tom_grows _ _
  · exact exec_fromm_grows _ _
  · exact exec_inv_grows _ _
  · exact exec_exp_grows _ _
  · exact exec_store_grows _ _
  · exact exec_hashDigest_grows _
  · exact exec_hashMac_grows _
  · exact exec_macVerify_grows _
  · exact exec_hashInit_grows _
  · exact exec_hashUpdate_grows _
  · exact exec_hashFinal_grows _
  · exact exec_finalVerify_grows _
  · exact exec_gcmEnc_grows _
  · exact exec_gcmDec_grows _
  · exact exec_ctr_grows _
  · exact exec_xtsEnc_grows _
  · exact exec_xtsDec_grows _
  · exact exec_kwWrap_grows _
  · exact exec_kwUnwrap_grows _
  · exact exec_kwpWrap_grows _
  · exact exec_kwpUnwrap_grows _
  · exact exec_aeadEnc_grows _
  · exact exec_aeadDec_grows _
  · exact exec_generate_grows _
  · exact exec_condKat_grows _
  · exact exec_drbgKat_grows _
  · exact exec_rngRaw_grows _
  · exact exec_secretGen_grows _
  · exact exec_derive_grows _
  · exact exec_blobExport_grows _
  · exact exec_blobImport_grows _
  · exact exec_kwExport_grows _
  · exact exec_kwImport_grows _
  · exact exec_kemImport_grows _
  · exact exec_restrict_grows _
  · exact exec_destroy_grows _
  · exact exec_info_grows _
  · exact exec_readPlain_grows _
  · exact exec_zeroiseOwner_grows _
  · exact exec_report_grows _
  · exact exec_identity_grows _
  · exact exec_keyAttest_grows _
  · exact exec_ssQuery_grows _
  · exact exec_park_grows _
  · exact exec_limit_grows _
  · exact exec_delete_grows _
  · exact exec_customRun_grows _
  · exact exec_add_grows _ _
  · exact exec_sub_grows _ _
  · exact exec_and_grows _ _
  · exact exec_or_grows _ _
  · exact exec_xor_grows _ _
  · exact exec_sll_grows _ _
  · exact exec_srl_grows _ _
  · exact exec_sra_grows _ _
  · exact exec_addi_grows _ _
  · exact exec_andi_grows _ _
  · exact exec_ori_grows _ _
  · exact exec_xori_grows _ _
  · exact exec_slli_grows _ _
  · exact exec_srli_grows _ _
  · exact exec_srai_grows _ _
  · exact exec_slti_grows _ _
  · exact exec_lui_grows _ _
  · exact exec_mul_grows _ _
  · exact exec_mulh_grows _ _
  · exact exec_mulhu_grows _ _
  · exact exec_div_grows _ _
  · exact exec_divu_grows _ _
  · exact exec_rem_grows _ _
  · exact exec_remu_grows _ _
  · exact exec_slt_grows _ _
  · exact exec_sltu_grows _ _
  · exact exec_seq_grows _ _
  · exact exec_csel_grows _ _
  · exact exec_min_grows _ _
  · exact exec_max_grows _ _
  · exact exec_minu_grows _ _
  · exact exec_maxu_grows _ _
  · exact exec_ld8_grows _ _
  · exact exec_ld16_grows _ _
  · exact exec_ld32_grows _ _
  · exact exec_ld64_grows _ _
  · exact exec_st8_grows _ _
  · exact exec_st16_grows _ _
  · exact exec_st32_grows _ _
  · exact exec_st64_grows _ _
  · exact exec_beq_grows _ _
  · exact exec_bne_grows _ _
  · exact exec_blt_grows _ _
  · exact exec_bge_grows _ _
  · exact exec_bltu_grows _ _
  · exact exec_bgeu_grows _ _
  · exact exec_jal_grows _ _
  · exact exec_jalr_grows _ _
  · exact exec_vcfg_grows _ _
  · exact exec_ccrr_grows _ _
  · exact exec_ccrw_grows _ _
  · exact exec_yield_grows _ _
  · exact exec_halt_grows _ _
  · exact exec_bar_grows _ _
  · exact exec_idle_grows _ _
  · exact exec_vadd_grows _ _
  · exact exec_vsub_grows _ _
  · exact exec_vand_grows _ _
  · exact exec_vor_grows _ _
  · exact exec_vxor_grows _ _
  · exact exec_vsll_grows _ _
  · exact exec_vsrl_grows _ _
  · exact exec_vsra_grows _ _
  · exact exec_vimul_grows _ _
  · exact exec_vimulh_grows _ _
  · exact exec_vimulhu_grows _ _
  · exact exec_vimin_grows _ _
  · exact exec_vimax_grows _ _
  · exact exec_viminu_grows _ _
  · exact exec_vimaxu_grows _ _
  · exact exec_vsel_grows _ _
  · exact exec_vseq_grows _ _
  · exact exec_vsne_grows _ _
  · exact exec_vslt_grows _ _
  · exact exec_vsltu_grows _ _
  · exact exec_vkand_grows _ _
  · exact exec_vkor_grows _ _
  · exact exec_vkxor_grows _ _
  · exact exec_vknot_grows _ _
  · exact exec_vbcast_grows _ _
  · exact exec_vpopc_grows _ _
  · exact exec_vext_grows _ _
  · exact exec_vins_grows _ _
  · exact exec_vredsum_grows _ _
  · exact exec_vredxor_grows _ _
  · exact exec_vredor_grows _ _
  · exact exec_vld_grows _ _
  · exact exec_vldu_grows _ _
  · exact exec_vst_grows _ _
  · exact exec_vstu_grows _ _
  · exact exec_vkld_grows _ _
  · exact exec_vkst_grows _ _
  · exact exec_vmadd_grows _ _
  · exact exec_vmsub_grows _ _
  · exact exec_vmneg_grows _ _
  · exact exec_vmmul_grows _ _
  · exact exec_vmred_grows _ _
  · exact exec_vmtom_grows _ _
  · exact exec_vmfromm_grows _ _
  · exact exec_vmmac_grows _ _
  · exact exec_vmbf_grows _ _
  · exact exec_vmbfi_grows _ _
  · exact exec_vmbft_grows _ _
  · exact exec_vmbfti_grows _ _
  · exact exec_vzip_grows _ _
  · exact exec_vunzip_grows _ _
  · exact exec_vslup_grows _ _
  · exact exec_vsldn_grows _ _
  · exact exec_vperm_grows _ _
  · exact exec_vrev_grows _ _
  · exact exec_vcompr_grows _ _
  · exact exec_vbrev_grows _ _
  · exact exec_vclmul_grows _ _
  · exact exec_vclmulh_grows _ _
  · exact exec_vgmul_grows _ _
  · exact exec_vgsqr_grows _ _
  · exact exec_vginv_grows _ _
  · exact exec_vgmac_grows _ _
  · exact exec_vgxp_grows _ _
  · exact exec_fadd_grows _ _
  · exact exec_fsub_grows _ _
  · exact exec_fmul_grows _ _
  · exact exec_fdiv_grows _ _
  · exact exec_fsqrt_grows _ _
  · exact exec_fmin_grows _ _
  · exact exec_fmax_grows _ _
  · exact exec_fneg_grows _ _
  · exact exec_fma_grows _ _
  · exact exec_fms_grows _ _
  · exact exec_fnma_grows _ _
  · exact exec_fcvtf_grows _ _
  · exact exec_fcvti_grows _ _
  · exact exec_frnd_grows _ _
  · exact exec_fmvx_grows _ _
  · exact exec_fmvf_grows _ _
  · exact exec_vpack_grows _ _
  · exact exec_vunpk_grows _ _
  · exact exec_vcbd_grows _ _
  · exact exec_vrej_grows _ _
  · exact exec_vcompd_grows _ _
  · exact exec_vdecd_grows _ _
  · exact exec_vp2r_grows _ _
  · exact exec_vdcmp_grows _ _
  · exact exec_vhmake_grows _ _
  · exact exec_vhuse_grows _ _
  · exact exec_vchkn_grows _ _
  · exact exec_hinit_grows _ _
  · exact exec_habs_grows _ _
  · exact exec_hsqz_grows _ _
  · exact exec_hsha_grows _ _
  · exact exec_hdig_grows _ _
  · exact exec_sref_grows _ _
  · exact exec_sand_grows _ _
  · exact exec_sa2b_grows _ _
  · exact exec_sb2a_grows _ _
  · exact exec_scmp_grows _ _
  · exact exec_sunm_grows _ _
  · exact exec_srnd_grows _ _
  · exact exec_jwait_grows _ _
  · exact exec_jrel_grows _ _
  · exact exec_jout_grows _ _
  · exact exec_jkey_grows _ _
  · exact exec_jkput_grows _ _
  · exact exec_jkdone_grows _ _
  · exact exec_jrnd_grows _ _
  · exact exec_jset_grows _ _
  · exact exec_uWait_grows _ _
  · exact exec_uUop_grows _ _
  · exact exec_uUopi_grows _ _
  · exact exec_uUins_grows _ _
  · exact exec_uFld_grows _ _
  · exact exec_uCcr_grows _ _
  · exact exec_uFlt_grows _ _
  · exact exec_uBr_grows _ _
  · exact exec_uJmp_grows _ _
  · exact exec_uCall_grows _ _
  · exact exec_uRet_grows _ _
  · exact exec_uLpset_grows _ _
  · exact exec_uLpend_grows _ _
  · exact exec_uYld_grows _ _
  · exact exec_uEnd_grows _ _
  · exact exec_uXmov_grows _ _
  · exact exec_uUiss_grows _ _
  · exact exec_uVln_grows _ _
  · exact exec_uVel_grows _ _
  · exact exec_uTls_grows _ _
  · exact exec_uMkv_grows _ _
  · exact exec_uSln_grows _ _
  · exact exec_uMac_grows _ _
  · exact exec_uPad_grows _ _
  · exact exec_uKplMe_grows _ _
  · exact exec_uHio_grows _ _
  · exact exec_uHui_grows _ _
  · exact exec_uNbm_grows _ _
  · exact exec_uSst_grows _ _
  · exact exec_uKplTs_grows _ _
  · exact exec_controlStoreEcc_grows _ _
  · exact exec_ucodeStage_grows _ _
  · exact exec_instanceDrained_grows _
  · exact exec_dlrCommit_grows
  · exact exec_tableCheckDone_grows
  · exact exec_dlrDiscard_grows
  · exact exec_dealPlan_grows
  · exact exec_flintTrimStep_grows _ _ _
  · exact exec_rctFailure_grows _
  · exact exec_aptFailure_grows _
  · exact exec_conditionerBlock_grows _ _
  · exact exec_reseedDue_grows
  · exact exec_rngHoldEnd_grows _
  · exact exec_reserveRefill_grows
  · exact exec_inlineKat_grows
  · exact exec_rngKat_grows
  · exact exec_rngRecal_grows _
  · exact exec_recalDone_grows _ _ _
  · exact exec_sourceRetry_grows _
  · exact exec_softZeroise_grows _
  · exact exec_zeroiseSoft_grows
  · exact exec_hardZeroise_grows _
  · exact exec_zeroiseNAssert_grows
  · exact exec_tamper_grows _
  · exact exec_zeroise_grows _
  · exact exec_vfEnableSet_grows _
  · exact exec_vfEnableClear_grows
  · exact exec_vfmSelWrite_grows _
  · exact exec_enable_grows
  · exact exec_apply_grows
  · exact exec_remove_grows _
  · exact exec_challenge_grows
  · exact exec_challengeExpiry_grows
  · exact exec_submit_grows _
  · exact exec_revoke_grows _
  · exact exec_ikhProgram_grows _
  · exact exec_debugGrantExpiry_grows _
  · exact exec_writeSlot_grows _
  · exact exec_verify_grows
  · exact exec_activate_grows _
  · exact exec_commit_grows
  · exact exec_rollback_grows
  · exact exec_rolloutStepDone_grows
  · exact exec_supvHandoverReport_grows
  · exact exec_supvHandoverFail_grows
  · exact exec_nvmFail_grows
  · exact exec_isSchedule_grows
  · exact exec_isCmd_grows _
  · exact exec_isDrainTimeout_grows _
  · exact exec_isTestDone_grows _ _
  · exact exec_uncorrectableEcc_grows _
  · exact exec_ckptTimer_grows
  · exact exec_ckpt_grows
  · exact exec_ckptDone_grows
  · exact exec_clearHist_grows
  · exact exec_mirrorTimer_grows _ _
  · exact exec_recBankBad_grows _
  · exact exec_wallCommit_grows _
  · exact exec_wallSRead_grows
  · exact exec_ambFreeze_grows
  · exact exec_freezeCopyDone_grows
  · exact exec_ambDigest_grows _
  · exact exec_digestDone_grows
  · exact exec_amberRefill_grows _
  · exact exec_supvPush_grows
  · exact exec_wdogRestart_grows
  · exact exec_wdog_grows _
  · exact exec_smbGetStatus_grows
  · exact exec_smbGetIdentity_grows
  · exact exec_smbGetLc_grows
  · exact exec_smbGetEnv_grows
  · exact exec_smbAmbRead_grows _ _
  · exact exec_smbFrzRead_grows _ _ _
  · exact exec_smbDigest_grows _ _
  · exact exec_smbFreeze_grows
  · exact exec_smbReset_grows _ _
  · exact exec_smbZeroise_grows _
  · exact exec_smbAlertAck_grows
  · exact exec_frameSubmit_grows _
  · exact exec_frameComplete_grows _
  · exact exec_frameRdReq_grows _
  · exact exec_frameRdData_grows _
  · exact exec_frameWrData_grows _
  · exact exec_frameAbandon_grows _
  · exact exec_frameAbandonDone_grows _
  · exact exec_frameCreditGrant_grows _
  · exact exec_frameAckNak_grows _
  · exact exec_frameHeartbeat_grows _
  · exact exec_frameTime_grows _
  · exact exec_frameHandshake_grows _
  · exact exec_frameConfig_grows _
  · exact exec_frameRecord_grows _
  · exact exec_frameAmber_grows _
  · exact exec_frameFate_grows _
  · exact exec_frameRekey_grows _
  · exact exec_heartbeatTick_grows
  · exact exec_timeTick_grows
  · exact exec_replayTimeout_grows _
  · exact exec_portLinkChange_grows _ _
  · exact exec_gapTimeout_grows _
  · exact exec_memberSilence_grows _
  · exact exec_leadLost_grows
  · exact exec_fabJoin_grows _ _
  · exact exec_sessionRenew_grows _
  · exact exec_fabAdmit_grows _
  · exact exec_fabRemove_grows _
  · exact exec_fabRekey_grows _
  · exact exec_busMasterEnable_grows _ _ _
  · exact exec_powerStateChange_grows _ _
  · exact exec_msixUnmask_grows _ _
  · exact exec_evmaskWrite_grows _
  · exact exec_eventHoldoffExpiry_grows _
  · exact exec_linkRetrain_grows _ _
  · exact exec_poisonedBarWrite_grows _ _
  · exact exec_refclkStable_grows _
  · exact exec_vddBrReturn_grows _
  · exact exec_debugHalt_grows _ _
  · exact exec_debugStep_grows _ _
  · exact exec_importStepDone_grows _
  · exact exec_clockLowTimeout_grows
  · exact exec_lossOfArbitration_grows
  · exact exec_admitTimeout_grows

theorem onDev_of (i : Instr) : ∃ f : Dev → Dev, ∀ s, exec i s = onDev s f := by
  cases i
  case porNAssert | bedrockBrownout | perstNAssert | selftestTempWait | hotReset | pfFlr | idcode | jtagDebug | doorbell64 | byJob | byKey | release | releaseBoot | rctFailure | aptFailure | rngKat | zeroiseSoft | refclkStable =>
    exact ⟨_, fun s => by
      dsimp only [exec, execPorNAssert, execBedrockBrownout, execPerstNAssert, execSelftestTempWait, execHotReset, execPfFlr, execIdcode, execJtagDebug, execDoorbell64, execByJob, execByKey, execRelease, execReleaseBoot, execRctFailure, execAptFailure, execRngKat, execZeroiseSoft, execRefclkStable]⟩
  all_goals exact ⟨_, fun _ => rfl⟩

theorem run_cons (n : Nat) (s s' : State) (h : step s = .next s') : Host.Core.run Sys2Proof.core (n + 1) s = Host.Core.run Sys2Proof.core n s' := by
  have h2 : Sys2Proof.core.step s = .next s' := h
  simp only [Host.Core.run]
  rw [h2]

theorem runs (l1 l2 : List Instr) : ∀ d, ∃ e, ∀ l2, Host.Core.run Sys2Proof.core l1.length { dev := d, pending := l1 ++ l2 } = .next { dev := e, pending := l2 } := by
  induction l1 with
  | nil => intro d; exact ⟨d, fun _ => rfl⟩
  | cons c l1 ih =>
    intro d
    obtain ⟨f, hf⟩ := onDev_of c
    obtain ⟨e, he⟩ := ih (f d)
    refine ⟨e, fun l2 => ?_⟩
    rw [List.length_cons, run_cons _ _ { dev := f d, pending := l1 ++ l2 } (by simp only [step, List.cons_append, hf, onDev])]
    exact he l2

end Sys2Proof.Laws
end

