-- ==== Sys2Proof/Laws/Vectors.lean ====
section
/-!
SUPPORT. Vectors and masks element by element, modular lanes, permutes and binary fields.
-/
set_option linter.unusedSimpArgs false
set_option linter.unusedVariables false

namespace Sys2Proof.Laws

open Sys2Proof.Machine Sys2Proof.Safety

theorem retired_vec (q : Px) (u : Use) (h : u.vec = true) (hj : q.jump = none) : retired q u = nextV q.r := by unfold retired nextV; rw [h, hj]; rfl

theorem vecA_ok {c : PyAt → FmtA → Instr} {lat unit occ : Nat} {op' : Px → Nat → Nat → Nat → Nat} {acc : Bool} {ok : PyRegs → Bool} {q g : Bool} {e : FmtA → U32} {op}
    (hi : ∀ p f s, exec (c p f) s = onDev s (pyRun p (e f) (vecA lat unit occ op' f acc ok q g)))
    (ho : ∀ px a b d, op' px a b d = op px.r a b d) (hok : ∀ r w pc, ok { r with word := w, ipc := pc, velOn := false } = ok r) : VectorA c ok op := by
  intro s p f b io h h1 h2 h3 h4 h5
  refine pyExec_of (hi p f s) h ?_ rfl rfl rfl rfl rfl rfl rfl ?_
  · have e5 : ok (pxAt s.dev p (e f) b io).r = true := (hok _ _ _).trans h5
    have e1 : aligned f.d (grpOf (pxAt s.dev p (e f) b io).r) = true := h1
    have e2 : aligned f.a (grpOf (pxAt s.dev p (e f) b io).r) = true := h2
    have e3 : bOk (pxAt s.dev p (e f) b io).r f = true := h3
    have e4 : maskOk (pxAt s.dev p (e f) b io).r f.m = true := h4
    simp only [vecA, e1, e2, e3, e4, e5]; rfl
  · rw [retired_vec _ _ rfl rfl]
    show nextV (vWrite _ _ _ _) = nextV (vWrite _ _ _ _)
    congr 1
    refine congrArg (vWrite _ _ _) (funext fun i => ?_)
    exact ho _ _ _ _

theorem vecU_ok {c : PyAt → FmtA → Instr} {lat unit occ : Nat} {op' : Px → Nat → Nat} {ok : PyRegs → Bool} {q g : Bool} {e : FmtA → U32} {op}
    (hi : ∀ p f s, exec (c p f) s = onDev s (pyRun p (e f) (vecU lat unit occ op' f ok q g)))
    (ho : ∀ px a, op' px a = op px.r a) (hok : ∀ r w pc, ok { r with word := w, ipc := pc, velOn := false } = ok r) : VectorU c ok op := by
  intro s p f b io h h1 h2 h3 h4 h5
  refine pyExec_of (hi p f s) h ?_ rfl rfl rfl rfl rfl rfl rfl ?_
  · have e5 : ok (pxAt s.dev p (e f) b io).r = true := (hok _ _ _).trans h5
    have e1 : aligned f.d (grpOf (pxAt s.dev p (e f) b io).r) = true := h1
    have e2 : aligned f.a (grpOf (pxAt s.dev p (e f) b io).r) = true := h2
    have e4 : maskOk (pxAt s.dev p (e f) b io).r f.m = true := h4
    simp only [vecU, e1, e2, h3, e4, e5]; rfl
  · rw [retired_vec _ _ rfl rfl]
    show nextV (vWrite _ _ _ _) = nextV (vWrite _ _ _ _)
    congr 1
    refine congrArg (vWrite _ _ _) (funext fun i => ?_)
    exact ho _ _

theorem vecCmp_ok {c : PyAt → FmtA → Instr} {e : FmtA → U32} {op}
    (hi : ∀ p f s, exec (c p f) s = onDev s (pyRun p (e f) (vecCmp op f))) : VectorCmp c op := by
  intro s p f b io h h1 h2 h3 h4
  refine pyExec_of (hi p f s) h ?_ rfl rfl rfl rfl rfl rfl rfl (retired_vec _ _ rfl rfl)
  have e2 : aligned f.a (grpOf (pxAt s.dev p (e f) b io).r) = true := h2
  have e3 : bOk (pxAt s.dev p (e f) b io).r f = true := h3
  have e4 : maskOk (pxAt s.dev p (e f) b io).r f.m = true := h4
  simp only [vecCmp, h1, e2, e3, e4]; rfl

theorem maskBits_ok {c : PyAt → FmtA → Instr} {e : FmtA → U32} {op}
    (hi : ∀ p f s, exec (c p f) s = onDev s (pyRun p (e f) (maskBits op f))) : MaskBits c op := by
  intro s p f b io h h1 h2 h3 h4
  refine pyExec_of (hi p f s) h ?_ rfl rfl rfl rfl rfl rfl rfl (retired_vec _ _ rfl rfl)
  simp only [maskBits, h1, h2, h3, h4]; rfl

theorem reduce_ok {c : PyAt → FmtA → Instr} {e : FmtA → U32} {op}
    (hi : ∀ p f s, exec (c p f) s = onDev s (pyRun p (e f) (reduce op f))) : Reduction c op := by
  intro s p f b io h h1 h2 h3
  refine pyExec_of (hi p f s) h ?_ rfl rfl rfl rfl rfl rfl rfl (retired_vec _ _ rfl rfl)
  have e2 : aligned f.a (grpOf (pxAt s.dev p (e f) b io).r) = true := h1
  have e4 : maskOk (pxAt s.dev p (e f) b io).r f.m = true := h3
  simp only [reduce, h2, e2, e4]; rfl

theorem laneOf_word (r : PyRegs) (w : U32) (msk : Option Nat) : activeEls { r with word := w, velOn := false } msk = activeEls { r with word := 0, velOn := false } msk := rfl

theorem vecLoad_ok {c : PyAt → FmtM → Instr} {al extra lat : Nat} {e : FmtM → U32} {al' : PyRegs → Nat}
    (hi : ∀ p f s, exec (c p f) s = onDev s (pyRun p (e f) (vecLoad al extra lat f)))
    (ha : ∀ r, al' r = if al = 0 then sewOf r / 8 else al) : VectorLoad c al' := by
  intro s p f b io h px w h1 h2 h3 h4
  refine ⟨fun i => tileRead (pxAt s.dev p (e f) b io) (vecAddr px f + i * w) w i % 2 ^ sewOf (live s p), ?_, ?_⟩
  · intro i tc off ht hs
    have e1 : tilePlace (pxAt s.dev p (e f) b io) (vecAddr px f + i * w) w = some (tc, off) := ht
    have e2 : lineStale (pxAt s.dev p (e f) b io) tc (off / 256) = false := hs
    simp only [tileRead, e1, e2]
    show leNat (memRead (getCore s.dev tc).tile off w) % _ = _
    apply Nat.mod_eq_of_lt
    have := leNat_lt (memRead (getCore s.dev tc).tile off w)
    rw [memRead_length] at this
    rw [(sewBytes (live s p)).2, Nat.pow_mul]
    exact this
  · have e1 : (aligned f.v (grpOf (pxAt s.dev p (e f) b io).r)) = true := h1
    have e2 : maskOk (pxAt s.dev p (e f) b io).r f.m = true := h2
    have ea : vecAddr (pxAt s.dev p (e f) b io) f = vecAddr px f := rfl
    have es : sewOf (pxAt s.dev p (e f) b io).r = sewOf (live s p) := rfl
    have e3 : ¬ vecAddr px f % (if al = 0 then sewOf (live s p) / 8 else al) ≠ 0 := by rw [← ha]; simpa using h3
    have e4 : firstStop (pxAt s.dev p (e f) b io) (maskOf f.m f.k) (vecAddr px f) false = none := by
      unfold firstStop
      rw [List.findSome?_eq_none_iff]
      intro i hi
      have := h4 i hi
      have e5 : elStop (pxAt s.dev p (e f) b io) (vecAddr px f + i * w) w false = none := this
      simp only [es]
      rw [show sewOf (live s p) / 8 = w from rfl, e5]; rfl
    refine pyExec_of (hi p f s) h ?_ rfl (q := freeUse { pxAt s.dev p (e f) b io with r := vWrite (regsAt s.dev p.core (e f)) (maskOf f.m f.k) f.v fun i => tileRead (pxAt s.dev p (e f) b io) (vecAddr px f + i * w) w i % 2 ^ sewOf (live s p) } 2048) ?_ rfl rfl rfl rfl rfl (retired_vec _ _ rfl rfl)
    · simp only [vecLoad, e1, e2]; rfl
    · simp only [vecLoad, ea, es, if_neg e3, e4]; rfl

theorem vecStore_ok {c : PyAt → FmtM → Instr} {al extra : Nat} {e : FmtM → U32} {al' : PyRegs → Nat}
    (hi : ∀ p f s, exec (c p f) s = onDev s (pyRun p (e f) (vecStore al extra f)))
    (ha : ∀ r, al' r = if al = 0 then sewOf r / 8 else al) (hal : al = 0 ∨ al = 256) : VectorStore c al' := by
  intro s p f b io h px w h1 h2 h3 h4 hm
  have e1 : (aligned f.v (grpOf (pxAt s.dev p (e f) b io).r)) = true := h1
  have e2 : maskOk (pxAt s.dev p (e f) b io).r f.m = true := h2
  have ea : vecAddr (pxAt s.dev p (e f) b io) f = vecAddr px f := rfl
  have es : sewOf (pxAt s.dev p (e f) b io).r = sewOf (live s p) := rfl
  have e3 : ¬ vecAddr px f % (if al = 0 then sewOf (live s p) / 8 else al) ≠ 0 := by rw [← ha]; simpa using h3
  have hw := (sewBytes (live s p)).1
  have haw : vecAddr px f % w = 0 := by
    rw [ha] at h3
    rcases hal with hal | hal
    · rw [if_pos hal] at h3; exact h3
    · rw [if_neg (by omega), hal] at h3
      rcases hw with hw | hw | hw | hw <;> (have : w = _ := hw; rw [this]; omega)
  have e4 : firstStop (pxAt s.dev p (e f) b io) (maskOf f.m f.k) (vecAddr px f) true = none := by
    unfold firstStop
    rw [List.findSome?_eq_none_iff]
    intro i hi
    have := h4 i hi
    have e5 : elStop (pxAt s.dev p (e f) b io) (vecAddr px f + i * w) w true = none := this
    simp only [es]
    rw [show sewOf (live s p) / 8 = w from rfl, e5]; rfl
  have hpl : ∀ i ∈ activeEls px.r (maskOf f.m f.k), (tilePlace (pxAt s.dev p (e f) b io) (vecAddr px f + i * w) w).isSome := by
    intro i hi
    have := h4 i hi
    unfold elStop at this
    by_cases hn : (tilePlace px (vecAddr px f + i * w) w).isNone = true
    · rw [if_pos hn] at this; cases this
    · have e9 : tilePlace (pxAt s.dev p (e f) b io) (vecAddr px f + i * w) w = tilePlace px (vecAddr px f + i * w) w := rfl
      rw [e9]; revert hn; cases tilePlace px (vecAddr px f + i * w) w <;> simp
  have hb : (vecStore al extra f).body (pxAt s.dev p (e f) b io) = .next ((activeEls px.r (maskOf f.m f.k)).foldl (fun q i => tileWrite q (vecAddr px f + i * w) w (vEl (live s p) f.v i)) (pxAt s.dev p (e f) b io)) := by
    simp only [vecStore, ea, es, if_neg e3, e4]; rfl
  obtain ⟨k1, k2, k3, k4⟩ := storeEls w hw (vecAddr px f) haw (vEl (live s p) f.v) (activeEls px.r (maskOf f.m f.k)) (pxAt s.dev p (e f) b io) (activeEls_nodup _ _) h.1.core hpl hm
  generalize hq : List.foldl (fun q i => tileWrite q (vecAddr px f + i * w) w (vEl (live s p) f.v i)) (pxAt s.dev p (e f) b io) (activeEls px.r (maskOf f.m f.k)) = q at *
  refine ⟨_, hi p f s, rfl, e f, ?_⟩
  show PyStoredEls s.dev (pyRun p (e f) (vecStore al extra f) s.dev) p.core b _ _ w _ _
  rw [pyRun_retire h.1 h.2 (by simp only [vecStore, e1, e2]; rfl) rfl, hb]
  have hqc : q.c = p.core := by rw [k1]; rfl
  have hqr : q.r = regsAt s.dev p.core (e f) := by rw [k1]; rfl
  have hqj : q.jump = none := by rw [k1]; rfl
  have hqb : q.b = b := by rw [k1]; rfl
  rw [pyRetire_next _ _ _ (by rw [k1]; rfl)]
  obtain ⟨j1, j2, j3, j4, j5, j6⟩ := putBack_keeps q (withLat (pxAt s.dev p (e f) b io) ((vecStore al extra f).use (pxAt s.dev p (e f) b io)))
    (by rw [hqc]; exact h.1.core)
  obtain ⟨⟨cs, t1⟩, t2⟩ := k2
  refine ⟨?_, ?_, ?_, ?_, ?_, ?_, ?_⟩
  · rw [← hqc, j1, retired_withLat, retired_vec _ _ rfl hqj, hqr, hqc]
  · intro i hi tc off ho
    rw [j3]; exact k3 i hi tc off ho
  · intro k a hx
    rw [j3]; exact k4 k a hx
  · intro k hk
    rw [j2 k (by rw [hqc]; exact hk), (t2 k).1]; rfl
  · intro k
    rw [j4, (t2 k).2]; rfl
  · intro n hn
    rw [j5 n (by rw [hqb]; exact hn), t1]; rfl
  · unfold SameDevice
    generalize markUse (putBack q _) q.b.cluster q.c q.t _ = x at j6 ⊢
    rw [j6, t1]; rfl

theorem vkld_ok {p : Px} {a tc off : Nat} (ha : a % 32 = 0) (h : tilePlace p a 32 = some (tc, off)) (hs : lineStale p tc (off / 256) = false) :
   elPack 64 ((List.range 4).map fun i => tileRead p (a + 8 * i) 8 i) = leNat (memRead (getCore p.d tc).tile off 32) := by
  rw [← elPack_memRead _ 8 4 off]
  refine congrArg (elPack 64) (List.map_congr_left fun i hi => ?_)
  have hi := List.mem_range.1 hi
  have h1 := tilePlace_part (k := 8) (i := 8 * i) ha (by decide) (by omega) (by omega) h
  unfold tileRead
  rw [h1]
  have h2 : (off + 8 * i) / 256 = off / 256 := by
    have : off % 32 = 0 := by
      rcases tilePlace_off h with ⟨_, _, e⟩ | ⟨_, _, e⟩
      · omega
      · rw [e]; show (ctxSlot p.b * 131072 + a) % 32 = 0; omega
    omega
  simp only [h2, hs]
  rfl

theorem ill {i : Instr} {s : State} {p : PyAt} {b : Job} {io : JobIo} {op : PyOp} (h : PyReady s.dev p.core p.t b io) (ho : OwnQueues s.dev b)
    (hi : ∃ w, exec i s = onDev s (pyRun p w op)) (hl : ∀ w, (op.use (pxAt s.dev p w b io)).legal = false) : PyFaults i s b stIllegalInstr := by
  obtain ⟨w, hi⟩ := hi
  exact pyFaults_illegal hi h ho (hl w)

theorem pyFaults_free {i : Instr} {s : State} {p : PyAt} {b : Job} {io : JobIo} {word : U32} {op : PyOp} {q : Px} {st det : U16} {n : Nat}
    (hi : exec i s = onDev s (pyRun p word op)) (h : PyGo s p b io) (ho : OwnQueues s.dev b)
    (hl : (op.use (pxAt s.dev p word b io)).legal = true) (hc : (op.use (pxAt s.dev p word b io)).clash = false)
    (hb : op.body (pxAt s.dev p word b io) = .fault q st det) (hq : q.d = { s.dev with glob := { s.dev.glob with freeCtr := n } }) (hqb : q.b = b) : PyFaults i s b st := by
  intro hd
  refine ⟨_, hi, rfl, ?_⟩
  show ∃ eff, JobEnds s.dev (pyRun p word op s.dev) b _ eff
  rw [pyRun_retire h.1 h.2 hl hc, hb]
  obtain ⟨eff, this⟩ := pyFault_ends q st det (by rw [hq, hqb]; exact ho) (by rw [hqb]; exact h.1.placed) (by rw [hqb]; exact hd)
  rw [hq, hqb] at this
  exact ⟨eff, JobEnds.of_same this rfl rfl rfl rfl rfl rfl rfl rfl rfl rfl⟩

theorem bflyQ_ok {c : PyAt → FmtQ → Instr} {e : FmtQ → U32} {op}
    (hi : ∀ p f s, exec (c p f) s = onDev s (pyRun p (e f) (bflyQ op f))) : Butterfly c op := by
  intro s p f b io h h1 h2
  refine pyExec_of (hi p f s) h ?_ rfl rfl rfl rfl rfl rfl rfl (retired_vec _ _ rfl rfl)
  have e1 : bflyOk (pxAt s.dev p (e f) b io).r f.d = true := h1
  simp only [bflyQ, e1, h2]; rfl

theorem permT_ok {c : PyAt → FmtT → Instr} {e : FmtT → U32} {lat useB op'} {op}
    (hi : ∀ p f s, exec (c p f) s = onDev s (pyRun p (e f) (permT lat useB op' f))) (ho : ∀ p, op' p = op p.r) : Permute c useB op := by
  intro s p f b io h h1 h2 h3
  refine pyExec_of (hi p f s) h ?_ rfl rfl rfl rfl rfl rfl rfl ((retired_vec _ _ rfl rfl).trans ?_)
  · have e1 : aligned f.d (grpOf (pxAt s.dev p (e f) b io).r) = true := h1
    have e2 : aligned f.a (grpOf (pxAt s.dev p (e f) b io).r) = true := h2
    have e3 : (!useB || aligned f.b (grpOf (pxAt s.dev p (e f) b io).r)) = true := by
      cases useB
      · rfl
      · exact h3 rfl
    simp only [permT, e1, e2, e3]; rfl
  · simp only [ho]; rfl

theorem permPair_ok {c : PyAt → FmtT → Instr} {e : FmtT → U32} {op}
    (hi : ∀ p f s, exec (c p f) s = onDev s (pyRun p (e f) (permPair op f))) : PermutePair c op := by
  intro s p f b io h h1 h2 h3 h4
  refine pyExec_of (hi p f s) h ?_ rfl rfl rfl rfl rfl rfl rfl (retired_vec _ _ rfl rfl)
  have e1 : aligned f.d (grpOf (pxAt s.dev p (e f) b io).r) = true := h1
  have e2 : aligned f.a (grpOf (pxAt s.dev p (e f) b io).r) = true := h2
  have e3 : aligned f.b (grpOf (pxAt s.dev p (e f) b io).r) = true := h3
  have e4 : f.d.toNat + 2 * (grpOf (pxAt s.dev p (e f) b io).r) ≤ 32 := h4
  simp only [permPair, e1, e2, e3, e4]; rfl

theorem slide_ok {c : PyAt → FmtT → Instr} {e : FmtT → U32} {op' : FmtT → Px → Nat → Nat → Nat} {op}
    (hi : ∀ p f s, exec (c p f) s = onDev s (pyRun p (e f) (slide (op' f) f))) (ho : ∀ f p, op' f p = op p.r (vEl p.r f.d) (vEl p.r f.a)) : Slide c op := by
  intro s p f b io h h1 h2
  refine pyExec_of (hi p f s) h ?_ rfl rfl rfl rfl rfl rfl rfl ((retired_vec _ _ rfl rfl).trans ?_)
  · have e1 : aligned f.d (grpOf (pxAt s.dev p (e f) b io).r) = true := h1
    have e2 : aligned f.a (grpOf (pxAt s.dev p (e f) b io).r) = true := h2
    simp only [slide, e1, e2]; rfl
  · simp only [ho]; rfl

theorem bflyT_ok {c : PyAt → FmtT → Instr} {e : FmtT → U32} {op}
    (hi : ∀ p f s, exec (c p f) s = onDev s (pyRun p (e f) (bflyT op f))) : TileButterfly c op := by
  intro s p f b io h px w addr h1 h4
  refine ⟨fun i => tileRead (pxAt s.dev p (e f) b io) (addr + i * w) w i % 2 ^ sewOf (live s p), ?_, ?_⟩
  · intro i tc off ht hs
    have e1 : tilePlace (pxAt s.dev p (e f) b io) (addr + i * w) w = some (tc, off) := ht
    have e2 : lineStale (pxAt s.dev p (e f) b io) tc (off / 256) = false := hs
    simp only [tileRead, e1, e2]
    show leNat (memRead (getCore s.dev tc).tile off w) % _ = _
    apply Nat.mod_eq_of_lt
    have := leNat_lt (memRead (getCore s.dev tc).tile off w)
    rw [memRead_length] at this
    rw [(sewBytes (live s p)).2, Nat.pow_mul]
    exact this
  · have e1 : bflyOk (pxAt s.dev p (e f) b io).r f.d = true := h1
    have ea : twAddr (pxAt s.dev p (e f) b io) f = addr := rfl
    have es : sewOf (pxAt s.dev p (e f) b io).r = sewOf (live s p) := rfl
    have e4 : firstStop (pxAt s.dev p (e f) b io) none addr false = none := by
      unfold firstStop
      rw [List.findSome?_eq_none_iff]
      intro i hi
      have := h4 i hi
      have e5 : elStop (pxAt s.dev p (e f) b io) (addr + i * w) w false = none := this
      simp only [es]
      rw [show sewOf (live s p) / 8 = w from rfl, e5]; rfl
    have hb : ∃ q, (bflyT op f).body (pxAt s.dev p (e f) b io) = .next q ∧ q = freeUse { pxAt s.dev p (e f) b io with r := bflyWrite (regsAt s.dev p.core (e f)) f.d fun i => op (regsAt s.dev p.core (e f)) (vEl (regsAt s.dev p.core (e f)) f.a i) (vEl (regsAt s.dev p.core (e f)) f.b i) (tileRead (pxAt s.dev p (e f) b io) (addr + i * w) w i % 2 ^ sewOf (live s p)) } 2048 := by
      refine ⟨_, ?_, rfl⟩
      simp only [bflyT, ea, es, e4]; rfl
    obtain ⟨q, hb, hq⟩ := hb
    refine pyExec_of (hi p f s) h ?_ rfl hb (by rw [hq]; rfl) (by rw [hq]; rfl) (by rw [hq]; rfl) (by rw [hq]; rfl) (by rw [hq]; rfl) ((retired_vec _ _ rfl (by rw [hq]; rfl)).trans (by rw [hq]; rfl)) (by rw [hq]; rfl)
    · simp only [bflyT, e1]

theorem vmOkH (r : PyRegs) (w : U32) (pc : BitVec 16) : vmOk { r with word := w, ipc := pc, velOn := false } = vmOk r := rfl

theorem vgOkH (r : PyRegs) (w : U32) (pc : BitVec 16) : vgOk { r with word := w, ipc := pc, velOn := false } = vgOk r := rfl

theorem s64H (r : PyRegs) (w : U32) (pc : BitVec 16) : (fun r => sewOf r == 64) { r with word := w, ipc := pc, velOn := false } = (fun r => sewOf r == 64) r := rfl

theorem vmA_ok {c : PyAt → FmtA → Instr} {lat unit : Nat} {op : PyRegs → Nat → Nat → Nat → Nat} {acc : Bool} {e : FmtA → U32}
    (hi : ∀ p f s, exec (c p f) s = onDev s (pyRun p (e f) (vmA lat unit op f acc))) : VectorA c vmOk op := vecA_ok hi (fun _ _ _ _ => rfl) vmOkH

theorem vmU_ok {c : PyAt → FmtA → Instr} {lat unit : Nat} {op : PyRegs → Nat → Nat} {e : FmtA → U32}
    (hi : ∀ p f s, exec (c p f) s = onDev s (pyRun p (e f) (vmU lat unit op f))) : VectorU c vmOk op := vecU_ok hi (fun _ _ => rfl) vmOkH

theorem vgA_ok {c : PyAt → FmtA → Instr} {lat : Nat} {op : Nat → Nat → Nat → Nat → Nat} {acc : Bool} {e : FmtA → U32}
    (hi : ∀ p f s, exec (c p f) s = onDev s (pyRun p (e f) (vgA lat op f acc))) : VectorA c vgOk (fun r => op r.gfpoly.toNat) := vecA_ok hi (fun _ _ _ _ => rfl) vgOkH

end Sys2Proof.Laws
end

