-- ==== Sys2Proof/Laws/Instructions.lean ====
section
/-!
SUPPORT. Binary64, sampling, hash-channel, share and job I/O instructions.
-/
set_option linter.unusedSimpArgs false
set_option linter.unusedVariables false

namespace Sys2Proof.Laws

open Sys2Proof.Machine Sys2Proof.Safety

theorem retire_io (p q : Px) (u : Use) (hy : q.deal = false) : (pyRetire p none u (.next q)).io = mapSet {} q.d.io q.b.id q.io := by
  rw [pyRetire_next _ _ _ hy]
  obtain ⟨cs, hm⟩ := markUse_ex (putBack q u) q.b.cluster q.c q.t u
  rw [hm]
  unfold putBack
  have h1 : ∃ cs, (if q.yielded then modCore q.d q.c fun k => { k with yieldT := q.t } else q.d) = { q.d with cores := cs } := by
    split
    · exact modCore_ex _ _ _
    · exact ⟨_, rfl⟩
  obtain ⟨c1, h1⟩ := h1
  simp only [h1]
  obtain ⟨c2, h2⟩ := modCore_ex { q.d with cores := c1 } q.c fun k => { k with live := retired q u }
  rw [h2]
  rfl

theorem pyIo_of {i : Instr} {s : State} {p : PyAt} {b : Job} {io io' : JobIo} {op : PyOp} {g : PyRegs → PyRegs}
    (hi : ∃ w, exec i s = onDev s (pyRun p w op)) (h : PyGo s p b io) (hw : mapWf {} s.dev.io = true)
    (hl : ∀ w, (op.use (pxAt s.dev p w b io)).legal = true) (hc : ∀ w, (op.use (pxAt s.dev p w b io)).clash = false)
    (hb : ∀ w, ∃ q, op.body (pxAt s.dev p w b io) = .next q ∧ q.d = s.dev ∧ (q.c, q.deal) = (p.core, false) ∧ q.b.id = b.id ∧ q.io = io' ∧
      retired q (op.use (pxAt s.dev p w b io)) = g (regsAt s.dev p.core w)) : PyExecIo i s p b g io' := by
  obtain ⟨w, hi⟩ := hi
  obtain ⟨q, hb, h1, h2, h3, h4, h5⟩ := hb w
  obtain ⟨h2, hy⟩ := Prod.mk.inj h2
  refine ⟨_, hi, rfl, ⟨w, ?_⟩, ?_⟩
  · have := pyRun_done (op := op) h.1 h.2 (hl w) (hc w) hb (by unfold SameDevice; rw [h1]) (fun k => by rw [h1]; exact ⟨rfl, rfl, rfl⟩) (by rw [h1]) h2 h3 hy
    exact h5 ▸ this
  · show mapGet {} (pyRun p w op s.dev).io b.id = io'
    rw [pyRun_retire h.1 h.2 (hl w) (hc w), hb, retire_io _ _ _ hy, h1, h3, mapGet_mapSet_self hw, h4]

theorem jioRet {q : Px} {u : Use} (h : u.vec = false) (hj : q.jump = none) : retired q u = nextS q.r := by unfold retired nextS; rw [h, hj]; rfl

theorem listWait_no (q : Px) (h : outSgl q.b.e = false ∨ q.b.e.outCap = 0 ∨ q.b.outOk = true) : listWait q = false := by
  unfold listWait
  rcases h with h | h | h <;> simp [h]

theorem pyReg {i : Instr} {s : State} {p : PyAt} {b : Job} {io : JobIo} {op : PyOp} {g : PyRegs → PyRegs}
    (hi : ∃ w, exec i s = onDev s (pyRun p w op)) (h : PyGo s p b io)
    (hl : ∀ w, (op.use (pxAt s.dev p w b io)).legal = true) (hc : ∀ w, (op.use (pxAt s.dev p w b io)).clash = false)
    (hb : ∀ w, ∃ q, op.body (pxAt s.dev p w b io) = .next q ∧ SameDevice s.dev q.d ∧ q.d.cores = s.dev.cores ∧ q.d.jobs = s.dev.jobs ∧ (q.c, q.deal) = (p.core, false) ∧ q.b.id = b.id ∧
      retired q (op.use (pxAt s.dev p w b io)) = g (regsAt s.dev p.core w)) : PyExec i s p b g := by
  obtain ⟨w, hi⟩ := hi
  obtain ⟨q, hb, h1, h2, h3, h4, h5, h6⟩ := hb w
  exact pyExec_of hi h (hl w) (hc w) hb h1 h2 h3 (Prod.mk.inj h4).1 h5 h6 (Prod.mk.inj h4).2

theorem float2_ok {c : PyAt → FmtA → Instr} {e : FmtA → U32} {lat unit occ : Nat} {op}
    (hi : ∀ p f s, exec (c p f) s = onDev s (pyRun p (e f) (flt2 lat unit occ op f))) : Float2 c op := by
  intro s p f b io h hr
  have hrm : rmOk (live s p) = true := by simp [rmOk, hr]
  refine ⟨fun hx hm => ?_, fun hx h1 h2 h3 h4 h5 => ?_⟩
  · have hv : fVec f.x.toNat = false := by rw [hx]; rfl
    refine pyReg ⟨_, hi p f s⟩ h (fun w => ?_) (fun _ => rfl) fun w => ⟨freeUse { pxAt s.dev p w b io with r := fPut (regsAt s.dev p.core w) false (maskOf f.m f.k) f.d fun i => op (regsAt s.dev p.core w).frm (fEl (regsAt s.dev p.core w) false f.a i) (fEl (regsAt s.dev p.core w) false f.b i) } 2048, ?_, rfl, rfl, rfl, rfl, rfl, ?_⟩
    · have e1 : rmOk (pxAt s.dev p w b io).r = true := hrm
      simp only [flt2, fltA, hv, fFormOk, e1, hm, hx, maskOk]; rfl
    · simp only [flt2, fltA, hv]; rfl
    · unfold retired
      simp only [flt2, fltA, hv]; rfl
  · have hv : fVec f.x.toNat = true := by rw [hx]; rfl
    refine pyReg ⟨_, hi p f s⟩ h (fun w => ?_) (fun _ => rfl) fun w => ⟨freeUse { pxAt s.dev p w b io with r := fPut (regsAt s.dev p.core w) true (maskOf f.m f.k) f.d fun i => op (regsAt s.dev p.core w).frm (fEl (regsAt s.dev p.core w) true f.a i) (fEl (regsAt s.dev p.core w) true f.b i) } 2048, ?_, rfl, rfl, rfl, rfl, rfl, ?_⟩
    · have e1 : rmOk (pxAt s.dev p w b io).r = true := hrm
      have e2 : sewOf (pxAt s.dev p w b io).r = 64 := h1
      have e3 : aligned f.d (grpOf (pxAt s.dev p w b io).r) = true := h2
      have e4 : aligned f.a (grpOf (pxAt s.dev p w b io).r) = true := h3
      have e5 : aligned f.b (grpOf (pxAt s.dev p w b io).r) = true := h4
      have e6 : maskOk (pxAt s.dev p w b io).r (fVec (BitVec.toNat (1 : BitVec 3)) && f.m) = true := h5
      simp only [flt2, fltA, hv, fFormOk, e1, e2, hx, e6, List.all_cons, e3, e4, e5, if_true, List.all_nil, Bool.true_and]; rfl
    · simp only [flt2, fltA, hv]; rfl
    · unfold retired
      simp only [flt2, fltA, hv]; rfl

theorem float1_ok {c : PyAt → FmtA → Instr} {e : FmtA → U32} {lat unit occ : Nat} {op : BitVec 3 → Nat → U64 → FRes}
    (hi : ∀ p f s, exec (c p f) s = onDev s (pyRun p (e f) (fltA lat unit occ false (fun rm fr a _ => op rm fr a) f))) : Float1 c op := by
  intro s p f b io h hr
  have hrm : rmOk (live s p) = true := by simp [rmOk, hr]
  refine ⟨freeAt (pxAt s.dev p 0 b io), fun hx hm => ?_, fun hx h1 h2 h3 h5 => ?_⟩
  · have hv : fVec f.x.toNat = false := by rw [hx]; rfl
    refine pyReg ⟨_, hi p f s⟩ h (fun w => ?_) (fun _ => rfl) fun w => ⟨freeUse { pxAt s.dev p w b io with r := fPut (regsAt s.dev p.core w) false (maskOf f.m f.k) f.d fun i => op (regsAt s.dev p.core w).frm (freeAt (pxAt s.dev p w b io) i) (fEl (regsAt s.dev p.core w) false f.a i) } 2048, ?_, rfl, rfl, rfl, rfl, rfl, ?_⟩
    · have e1 : rmOk (pxAt s.dev p w b io).r = true := hrm
      simp only [fltA, hv, fFormOk, e1, hm, hx, maskOk]; rfl
    · simp only [fltA, hv]; rfl
    · unfold retired
      simp only [fltA, hv]; rfl
  · have hv : fVec f.x.toNat = true := by rw [hx]; rfl
    refine pyReg ⟨_, hi p f s⟩ h (fun w => ?_) (fun _ => rfl) fun w => ⟨freeUse { pxAt s.dev p w b io with r := fPut (regsAt s.dev p.core w) true (maskOf f.m f.k) f.d fun i => op (regsAt s.dev p.core w).frm (freeAt (pxAt s.dev p w b io) i) (fEl (regsAt s.dev p.core w) true f.a i) } 2048, ?_, rfl, rfl, rfl, rfl, rfl, ?_⟩
    · have e1 : rmOk (pxAt s.dev p w b io).r = true := hrm
      have e2 : sewOf (pxAt s.dev p w b io).r = 64 := h1
      have e3 : aligned f.d (grpOf (pxAt s.dev p w b io).r) = true := h2
      have e4 : aligned f.a (grpOf (pxAt s.dev p w b io).r) = true := h3
      have e6 : maskOk (pxAt s.dev p w b io).r (fVec (BitVec.toNat (1 : BitVec 3)) && f.m) = true := h5
      simp only [fltA, hv, fFormOk, e1, e2, hx, e6, List.all_cons, e3, e4, if_true, List.all_nil, Bool.true_and, if_false, Bool.false_eq_true]; rfl
    · simp only [fltA, hv]; rfl
    · unfold retired
      simp only [fltA, hv]; rfl

theorem float3_ok {c : PyAt → FmtQ → Instr} {e : FmtQ → U32} {op}
    (hi : ∀ p f s, exec (c p f) s = onDev s (pyRun p (e f) (fltQ op f))) : Float3 c op := by
  intro s p f b io h hr
  have hrm : rmOk (live s p) = true := by simp [rmOk, hr]
  refine ⟨fun hx => ?_, fun hx h1 h2 => ?_⟩
  · have hv : fVec f.x.toNat = false := by rw [hx]; rfl
    refine pyReg ⟨_, hi p f s⟩ h (fun w => ?_) (fun _ => rfl) fun w => ⟨{ pxAt s.dev p w b io with r := fPut (regsAt s.dev p.core w) false none f.d fun i => op (regsAt s.dev p.core w).frm (fEl (regsAt s.dev p.core w) false f.a i) (fEl (regsAt s.dev p.core w) false f.b i) (fEl (regsAt s.dev p.core w) false f.c i) }, ?_, rfl, rfl, rfl, rfl, rfl, ?_⟩
    · have e1 : rmOk (pxAt s.dev p w b io).r = true := hrm
      simp only [fltQ, hv, fFormOk, e1, hx]; rfl
    · simp only [fltQ, hv]; rfl
    · unfold retired
      simp only [fltQ, hv]; rfl
  · have hv : fVec f.x.toNat = true := by rw [hx]; rfl
    refine pyReg ⟨_, hi p f s⟩ h (fun w => ?_) (fun _ => rfl) fun w => ⟨{ pxAt s.dev p w b io with r := fPut (regsAt s.dev p.core w) true none f.d fun i => op (regsAt s.dev p.core w).frm (fEl (regsAt s.dev p.core w) true f.a i) (fEl (regsAt s.dev p.core w) true f.b i) (fEl (regsAt s.dev p.core w) true f.c i) }, ?_, rfl, rfl, rfl, rfl, rfl, ?_⟩
    · have e1 : rmOk (pxAt s.dev p w b io).r = true := hrm
      have e2 : sewOf (pxAt s.dev p w b io).r = 64 := h1
      have e3 : ([f.d, f.a, f.b, f.c].all fun n => aligned n (grpOf (pxAt s.dev p w b io).r)) = true := List.all_eq_true.2 h2
      simp only [fltQ, hv, fFormOk, e1, e2, e3, hx]; rfl
    · simp only [fltQ, hv]; rfl
    · unfold retired
      simp only [fltQ, hv]; rfl

theorem sampT_ok {c : PyAt → FmtT → Instr} {e : FmtT → U32} {lat : Nat} {useB q : Bool} {ok : Nat → Bool} {use : Nat → Nat → Bool} {op' : FmtT → Px → Nat → (Nat → Nat) → (Nat → Nat) → Nat → Nat} {op}
    (hi : ∀ p f s, exec (c p f) s = onDev s (pyRun p (e f) (sampT lat useB q ok (op' f) f)))
    (ho : ∀ f px i, use (qOf px.r) f.imm.toNat = true → op' f px f.imm.toNat (vEl px.r f.a) (vEl px.r f.b) i = op px.r f i) : SampleT c useB ok use op := by
  intro s p f b io h h1 h2 h3 h4
  have hl : ((sampT lat useB q ok (op' f) f).use (pxAt s.dev p (e f) b io)).legal = true := by
    have e1 : aligned f.d (grpOf (pxAt s.dev p (e f) b io).r) = true := h1
    have e2 : aligned f.a (grpOf (pxAt s.dev p (e f) b io).r) = true := h2
    have e3 : (!useB || aligned f.b (grpOf (pxAt s.dev p (e f) b io).r)) = true := by
      cases useB
      · rfl
      · exact h3 rfl
    simp only [sampT, e1, e2, e3, h4]; rfl
  refine ⟨fun hu => ?_, fun i => op' f (pxAt s.dev p (e f) b io) f.imm.toNat (vEl (live s p) f.a) (vEl (live s p) f.b) i, ?_⟩
  · refine pyExec_of (hi p f s) h hl rfl rfl rfl rfl rfl rfl rfl ((retired_vec _ _ rfl rfl).trans ?_)
    show nextV (vWrite _ _ _ _) = nextV (vWrite _ _ _ _)
    congr 1
    refine congrArg (vWrite _ _ _) (funext fun i => ?_)
    exact ho f (pxAt s.dev p (e f) b io) i hu
  · exact pyExec_of (hi p f s) h hl rfl rfl rfl rfl rfl rfl rfl (retired_vec _ _ rfl rfl)

theorem decomp_eq (p : Px) (imm i a : Nat) (h : gamma2 (qOf p.r) imm ≠ 0) : decomp p imm i a = decomposeQ (qOf p.r) (gamma2 (qOf p.r) imm) a := by
  unfold decomp decomposeQ
  simp only [h, if_false]

theorem modQ_eq (p : Px) (i : Nat) (v : Int) (h : qOf p.r ≠ 0) : modQ p i v = (v % (qOf p.r : Int)).toNat := by unfold modQ; rw [if_neg h]

theorem samp2_ok {i : Instr} {s : State} {p : PyAt} {b : Job} {io : JobIo} {lat : Nat} {a d : BitVec 5} {ok : Bool} {msk : Option Nat} {res : Px → Nat → Nat × Nat} {w : U32} {op : PyRegs → Nat → Nat × Nat}
    (hi : exec i s = onDev s (pyRun p w (sampPair lat a d ok msk res))) (h : PyGo s p b io) (h1 : aligned d (grpOf (live s p))) (h2 : aligned a (grpOf (live s p))) (h3 : d.toNat + 2 * grpOf (live s p) ≤ 32) (h4 : ok = true) (h5 : maskOk (live s p) msk.isSome = true)
    (hr : ∀ px : Px, px.r = regsAt s.dev p.core w → px.d = s.dev → res px = op px.r) :
    PyExec i s p b fun r => nextV (vWrite2 r msk d (op r)) := by
  refine pyExec_of hi h ?_ rfl rfl rfl rfl rfl rfl rfl ((retired_vec _ _ rfl rfl).trans ?_)
  · have e1 : aligned d (grpOf (pxAt s.dev p w b io).r) = true := h1
    have e2 : aligned a (grpOf (pxAt s.dev p w b io).r) = true := h2
    have e3 : (decide (d.toNat + 2 * grpOf (pxAt s.dev p w b io).r ≤ 32)) = true := decide_eq_true h3
    have e5 : maskOk (pxAt s.dev p w b io).r msk.isSome = true := h5
    simp only [sampPair, e1, e2, e3, h4, e5]; rfl
  · have := hr (pxAt s.dev p w b io) rfl rfl
    simp only [freeUse, this]
    rfl

theorem p2rEl_eq (p : Px) (i a : Nat) (h : qOf p.r ≠ 0) : p2rEl p i a =
    (let a : Int := (a % qOf p.r : Nat); let t0 := centred a (2 ^ 13); (((a - t0) / 2 ^ 13).toNat, (t0 % (qOf p.r : Int)).toNat)) := by
  unfold p2rEl
  simp only [modQ_eq _ _ _ h]
  have : ((((a : Int) % (qOf p.r : Int)).toNat : Nat) : Int) = ((a % qOf p.r : Nat) : Int) := by
    rw [← Int.natCast_emod, Int.toNat_natCast]
  rw [this]

theorem vpack_eq (n vl old new : Nat) (ta : Bool) (hn : 1 ≤ n) :
   (if n * vl ≤ n * 0 then old % 2 ^ (n * 0) + (old >>> (n * 0)) <<< (n * 0) else old % 2 ^ (n * 0) + (new >>> (n * 0)) <<< (n * 0) + (if ta = true then 0 else old >>> (n * vl)) <<< (n * vl))
    = if vl = 0 then old else new + (if ta = true then 0 else old >>> (n * vl)) <<< (n * vl) := by
  have e : (n * vl ≤ 0) ↔ vl = 0 := by
    rw [Nat.le_zero, Nat.mul_eq_zero]; omega
  simp only [Nat.mul_zero, e, Nat.pow_zero, Nat.mod_one, Nat.shiftRight_zero, Nat.shiftLeft_zero, Nat.zero_add]

/-- cores' records and the counter of free values -/
def FreeRecords (d d' : Dev) : Prop := ∃ d1 n, CoreRecords d d1 ∧ d' = { d1 with glob := { d1.glob with freeCtr := n } }

theorem pyRegF {i : Instr} {s : State} {p : PyAt} {b : Job} {io : JobIo} {op : PyOp} {g : PyRegs → PyRegs}
    (hi : ∃ w, exec i s = onDev s (pyRun p w op)) (h : PyGo s p b io)
    (hl : ∀ w, (op.use (pxAt s.dev p w b io)).legal = true) (hc : ∀ w, (op.use (pxAt s.dev p w b io)).clash = false)
    (hb : ∀ w, ∃ q, op.body (pxAt s.dev p w b io) = .next q ∧ FreeRecords s.dev q.d ∧ (q.c, q.deal) = (p.core, false) ∧ q.b.id = b.id ∧
      retired q (op.use (pxAt s.dev p w b io)) = g (regsAt s.dev p.core w)) : PyExec i s p b g := by
  obtain ⟨w, hi⟩ := hi
  obtain ⟨q, hb, ⟨d1, n, ⟨⟨cs, hd1⟩, hk⟩, hd⟩, h4, h5, h6⟩ := hb w
  refine pyExec_parts hi h (hl w) (hc w) hb ?_ ?_ ?_ (Prod.mk.inj h4).1 h5 h6 (Prod.mk.inj h4).2
  · rw [hd, hd1]; rfl
  · intro k
    have := hk k
    rw [hd]; exact this
  · rw [hd, hd1]

theorem pyExecF {i : Instr} {s : State} {p : PyAt} {b : Job} {io : JobIo} {word : U32} {op : PyOp} {g : PyRegs → PyRegs} {q : Px}
    (hi : exec i s = onDev s (pyRun p word op)) (h : PyGo s p b io)
    (hl : (op.use (pxAt s.dev p word b io)).legal = true) (hc : (op.use (pxAt s.dev p word b io)).clash = false)
    (hb : op.body (pxAt s.dev p word b io) = .next q) (hd : FreeRecords s.dev q.d) (hc' : q.c = p.core) (hb' : q.b.id = b.id)
    (hg : retired q (op.use (pxAt s.dev p word b io)) = g (regsAt s.dev p.core word)) (hy : q.deal = false := by rfl) : PyExec i s p b g := by
  obtain ⟨d1, n, ⟨⟨cs, hd1⟩, hk⟩, hd⟩ := hd
  refine pyExec_parts hi h hl hc hb ?_ ?_ ?_ hc' hb' hg hy
  · rw [hd, hd1]; rfl
  · intro k
    have := hk k
    rw [hd]; exact this
  · rw [hd, hd1]

theorem hashPut_rec (q : Px) (u : Nat) (f : HashTime → HashTime) : CoreRecords q.d (hashPut q u f).d := by
  unfold hashPut; dsimp only
  apply modCore_records <;> exact fun _ => rfl

theorem FreeRecords.of (d d1 : Dev) (h : CoreRecords d d1) : FreeRecords d d1 := ⟨d1, _, h, rfl⟩

theorem FreeRecords.use {d d1 : Dev} (n : Nat) (h : CoreRecords d d1) : FreeRecords d { d1 with glob := { d1.glob with freeCtr := n } } := ⟨d1, n, h, rfl⟩

theorem kuRun_rec (q : Px) (u : Nat) : CoreRecords q.d (kuRun q u).d := hashPut_rec _ _ _

theorem kuRun_r (q : Px) (u : Nat) : (kuRun q u).r = q.r := rfl

theorem retireS (q : Px) (u : Use) (r : PyRegs) (h : u.vec = false) (hj : q.jump = none) (hr : q.r = r) : retired q u = nextS r := by unfold retired nextS; rw [h, hj, hr]; rfl

theorem four_shares {w : Nat} (out : BitVec w) (fresh : List (BitVec w)) (hf : fresh.length ≤ 3) :
    (List.ofFn fun i : Fin 4 => if i.val = 0 then out ^^^ fresh.foldl (· ^^^ ·) 0 else fresh.getD (i.val - 1) 0).foldl (· ^^^ ·) 0 = out := by
  match fresh, hf with
  | [], _ =>
    show (0 ^^^ (out ^^^ 0) ^^^ 0 ^^^ 0 ^^^ 0 : BitVec w) = out
    simp
  | [a], _ =>
    show (0 ^^^ (out ^^^ (0 ^^^ a)) ^^^ a ^^^ 0 ^^^ 0 : BitVec w) = out
    apply BitVec.eq_of_getLsbD_eq
    intro i hi
    simp only [BitVec.getLsbD_xor, BitVec.ofNat_eq_ofNat, BitVec.getLsbD_zero]
    cases out.getLsbD i <;> cases a.getLsbD i <;> rfl
  | [a, b], _ =>
    show (0 ^^^ (out ^^^ (0 ^^^ a ^^^ b)) ^^^ a ^^^ b ^^^ 0 : BitVec w) = out
    apply BitVec.eq_of_getLsbD_eq
    intro i hi
    simp only [BitVec.getLsbD_xor, BitVec.ofNat_eq_ofNat, BitVec.getLsbD_zero]
    cases out.getLsbD i <;> cases a.getLsbD i <;> cases b.getLsbD i <;> rfl
  | [a, b, c], _ =>
    show (0 ^^^ (out ^^^ (0 ^^^ a ^^^ b ^^^ c)) ^^^ a ^^^ b ^^^ c : BitVec w) = out
    apply BitVec.eq_of_getLsbD_eq
    intro i hi
    simp only [BitVec.getLsbD_xor, BitVec.ofNat_eq_ofNat, BitVec.getLsbD_zero]
    cases out.getLsbD i <;> cases a.getLsbD i <;> cases b.getLsbD i <;> cases c.getLsbD i <;> rfl

theorem permute_val (p : Px) (n : Nat) (b : HashBank) (hn : n ≤ 4) : keccakOf (permute p n b) = keccakWord (keccakOf b) := by
  unfold keccakOf permute
  dsimp only
  rw [Vector.toList_ofFn]
  exact four_shares _ _ (by simp; omega)

theorem bankReady_holds (s : State) (p : PyAt) (w : U32) (b : Job) (io : JobIo) (u : Nat) : unitHolds s p u (bankReady (pxAt s.dev p w b io) u) := by
  intro h
  unfold bankReady
  have e : bankOf (pxAt s.dev p w b io).r u = bankOf (live s p) u := rfl
  rw [e]
  simp only [h, if_false]

theorem nat_xor_foldl (l : List Nat) : ∀ a b : Nat, l.foldl (· ^^^ ·) (a ^^^ b) = a ^^^ l.foldl (· ^^^ ·) b := by
  induction l with
  | nil => intro a b; rfl
  | cons x l ih => intro a b; simp only [List.foldl_cons]; rw [Nat.xor_assoc, ih]

theorem nat_xor_cancel (l : List Nat) (v : Nat) : l.foldl (· ^^^ ·) (0 ^^^ l.foldl (· ^^^ ·) v) = v := by
  have hF : ∀ a, l.foldl (· ^^^ ·) a = a ^^^ l.foldl (· ^^^ ·) 0 := fun a => by
    have := nat_xor_foldl l a 0
    rwa [Nat.xor_zero] at this
  rw [Nat.zero_xor, hF (l.foldl (· ^^^ ·) v), hF v, Nat.xor_assoc, Nat.xor_self, Nat.xor_zero]

theorem nat_sum_cancel (m : Nat) (hm : 0 < m) (l : List Nat) : ∀ v z, l.foldl (· + ·) (z + l.foldl (fun acc x => acc + (m - x % m)) v % m) % m = (z + v) % m := by
  have hsum : ∀ (l : List Nat) (a : Nat), l.foldl (· + ·) a = a + l.foldl (· + ·) 0 := by
    intro l
    induction l with
    | nil => intro a; rfl
    | cons x l ih => intro a; simp only [List.foldl_cons]; rw [ih (a + x), ih (0 + x)]; omega
  have hsub : ∀ (l : List Nat) (v : Nat), l.foldl (fun acc x => acc + (m - x % m)) v = v + l.foldl (fun acc x => acc + (m - x % m)) 0 := by
    intro l
    induction l with
    | nil => intro a; rfl
    | cons x l ih => intro a; simp only [List.foldl_cons]; rw [ih (a + _), ih (0 + _)]; omega
  have key : ∀ l : List Nat, (l.foldl (fun acc x => acc + (m - x % m)) 0 + l.foldl (· + ·) 0) % m = 0 := by
    intro l
    induction l with
    | nil => simp
    | cons x l ih =>
      simp only [List.foldl_cons]
      rw [hsub l, hsum l]
      have e : 0 + (m - x % m) + l.foldl (fun acc x => acc + (m - x % m)) 0 + (0 + x + l.foldl (· + ·) 0)
        = (l.foldl (fun acc x => acc + (m - x % m)) 0 + l.foldl (· + ·) 0) + m * (1 + x / m) := by
        have h1 := Nat.div_add_mod x m
        have h2 : x % m < m := Nat.mod_lt _ hm
        rw [Nat.mul_add, Nat.mul_one]
        omega
      rw [e, Nat.add_mul_mod_self_left]; exact ih
  intro v z
  rw [hsum l, hsub l]
  generalize hA : l.foldl (fun acc x => acc + (m - x % m)) 0 = A at *
  generalize hB : l.foldl (· + ·) 0 = B at *
  have k := key l
  rw [hA, hB] at k
  calc (z + (v + A) % m + B) % m = (z + (v + A) + B) % m := by
        rw [Nat.add_mod (z + (v + A) % m), Nat.add_mod z, Nat.mod_mod, ← Nat.add_mod z, ← Nat.add_mod]
    _ = (z + v + (A + B)) % m := by congr 1; omega
    _ = (z + v) % m := by rw [Nat.add_mod, k, Nat.add_zero, Nat.mod_mod]

/-- which shares come out -/
theorem reshare_ok (p : Px) (k : Sharing) (d : BitVec 5) (n : Nat) (hn : 0 < n) (val : Nat → Nat) :
    ∃ sh : Nat → Nat → Nat, ∃ c, reshare p k d n val = { p with r := shareWrite p.r d n sh, d := { p.d with glob := { p.d.glob with freeCtr := c } } } ∧
      ∀ e, match k with
        | .bool => shareVal .bool n (fun j => sh j e) = val e
        | .sum m => 0 < m → shareVal (.sum m) n (fun j => sh j e) = val e % m := by
  refine ⟨_, _, rfl, fun e => ?_⟩
  obtain ⟨n, rfl⟩ : ∃ k, n = k + 1 := ⟨n - 1, by omega⟩
  cases k with
  | bool =>
    simp only [shareVal, List.range_succ_eq_map, List.map_cons, List.map_map, List.foldl_cons, Nat.add_sub_cancel]
    refine Eq.trans ?_ (nat_xor_cancel ((List.range n).map fun j => freeAt p (256 * (j + 1) + e) % 2 ^ sewOf (single p.r)) (val e))
    rfl
  | sum m =>
    intro hm
    simp only [shareVal, List.range_succ_eq_map, List.map_cons, List.map_map, List.foldl_cons, Nat.add_sub_cancel]
    have := nat_sum_cancel m hm ((List.range n).map fun j => freeAt p (256 * (j + 1) + e) % m) (val e) 0
    rw [Nat.zero_add (val e)] at this
    refine Eq.trans ?_ this
    rfl

theorem share_ok {i : Instr} {s : State} {p : PyAt} {b : Job} {io : JobIo} {f : FmtK} {lat occ words : Nat → Nat} {useB accD bGroup q : Bool} {ok : PyRegs → Bool} {body : Px → Px} {k : Sharing} {val : Nat → Nat} {op : PyOp}
   (hi : ∃ w, exec i s = onDev s (pyRun p w op)) (hop : op = shareOp lat occ words useB accD bGroup true q ok body f) (h : PyGo s p b io)
   (h1 : 1 ≤ f.ord.toNat) (h2 : f.rsv = 0) (h3 : f.a.toNat + f.ord.toNat ≤ 31) (h4 : f.d.toNat + f.ord.toNat ≤ 31) (h5 : useB = true → bGroup = true → f.b.toNat + f.ord.toNat ≤ 31)
   (hok : ∀ w, ok (regsAt s.dev p.core w) = true)
   (hb : ∀ w, ∃ v, body (pxAt s.dev p w b io) = reshare (pxAt s.dev p w b io) k f.d (f.ord.toNat + 1) v ∧ (match k with | .sum 0 => True | _ => v = val)) :
   Shared i s p b f.d (f.ord.toNat + 1) k val := by
  subst hop
  obtain ⟨w, hi⟩ := hi
  obtain ⟨v, hb, hv⟩ := hb w
  obtain ⟨sh, c, e, hval⟩ := reshare_ok (pxAt s.dev p w b io) k f.d (f.ord.toNat + 1) (by omega) v
  refine ⟨sh, fun el => ?_, ?_⟩
  · have := hval el
    cases k with
    | bool => simp only at this hv ⊢; rw [this, hv]
    | sum m =>
      intro hm
      have hh := this hm
      cases m with
      | zero => cases hm
      | succ m => simp only at hv; rw [hh, hv]
  · have hbd : (shareOp lat occ words useB accD bGroup true q ok body f).body (pxAt s.dev p w b io) = .next (mxTake { pxAt s.dev p w b io with r := shareWrite (regsAt s.dev p.core w) f.d (f.ord.toNat + 1) sh, d := { s.dev with glob := { s.dev.glob with freeCtr := c } } } (words f.ord.toNat)) := by
      simp only [shareOp, hb, e]; rfl
    refine pyExecF hi h ?_ rfl hbd (FreeRecords.use c (CoreRecords.refl _)) rfl rfl (retired_vec _ _ rfl rfl)
    have hok' : ok (pxAt s.dev p w b io).r = true := hok w
    have e5 : (!useB || !bGroup || shareOk f.b f.ord.toNat) = true := by
      cases useB <;> cases bGroup <;> simp [shareOk] <;> exact h5 rfl rfl
    simp only [shareOp, shareOk, h1, h2, hok', decide_eq_true h3, decide_eq_true h4]
    simpa [shareOk] using e5

theorem mapGet_mapKeep {α : Type} (dflt : α) (p : Nat → Bool) (m : SMap α) (k : Nat) : mapGet dflt (mapKeep p m) k = if p k then mapGet dflt m k else dflt := by
  induction m with
  | nil => simp [mapKeep, mapGet]
  | cons e m ih =>
    obtain ⟨a, v⟩ := e
    unfold mapKeep at ih ⊢
    by_cases hp : p a = true
    · rw [List.filter_cons_of_pos (by simpa using hp)]
      unfold mapGet
      by_cases hk : a = k
      · subst hk; simp [hp]
      · have hk' : ¬ k = a := fun e => hk e.symm
        simp [hk', ih]
    · rw [List.filter_cons_of_neg (by simpa using hp), ih]
      have hc : mapGet dflt ((a, v) :: m) k = if k = a then v else mapGet dflt m k := rfl
      rw [hc]
      by_cases hk : k = a
      · subst hk; simp [hp]
      · simp only [hk, if_false]

theorem memByte_memClear (m : SMap Byte) (lo n a : Nat) : memByte (memClear m lo n) a = if a < lo ∨ lo + n ≤ a then memByte m a else 0 := by
  unfold memByte memClear
  rw [mapGet_mapKeep]
  simp

theorem findJob_self (d : Dev) (b b' : Job) (h : findJob d b.id = some b) (hid : b'.id = b.id) (f : Job → Job) (hf : f b = b') : findJob (modJob d b.id f) b.id = some b' := by
  unfold findJob modJob at *
  simp only
  generalize d.jobs.live = l at h
  induction l with
  | nil => cases h
  | cons x l ih =>
    simp only [List.map_cons, List.find?_cons] at h ⊢
    by_cases hx : x.id = b.id
    · simp only [hx, beq_self_eq_true] at h
      have : x = b := by simpa using h
      subst this
      simp only [if_true, hf, hid, beq_self_eq_true]
    · simp only [hx, if_false]
      have hx' : (x.id == b.id) = false := by simpa using hx
      simp only [hx'] at h ⊢
      exact ih h

end Sys2Proof.Laws
end

