-- ==== Sys2Proof/Laws/MicroOps.lean ====
section
/-!
SUPPORT. Micro-ops of the engines, and the state store as a sequencer reads it.
-/
set_option linter.unusedSimpArgs false
set_option linter.unusedVariables false

namespace Sys2Proof.Laws

open Sys2Proof.Machine Sys2Proof.Safety

theorem uop_table {e : Nat × (U64 → U64 → U64 → U64)} (h : e ∈ uopTable) (old a b : U64) : uAlu e.1 old a b = some (e.2 old a b) ∧ e.1 < 13 := by
  simp only [uopTable, List.mem_cons, List.not_mem_nil, or_false] at h
  rcases h with h | h | h | h | h | h | h | h | h | h | h | h | h <;> subst h <;> refine ⟨?_, by decide⟩ <;>
    simp [uAlu, aluSll, aluSrl, aluSra, aluMinu, aluMaxu, aluSltu, aluSeq, BitVec.ult, shAmt, bit01]
  · split <;> split <;> first | rfl | omega
  · split <;> split <;> first | rfl | omega

theorem ubr_table {e : Nat × (U64 → U64 → Bool)} (h : e ∈ ubrTable) (a b : U64) : ubrCond e.1 a b = some (e.2 a b) := by
  simp only [ubrTable, List.mem_cons, List.not_mem_nil, or_false] at h
  rcases h with h | h | h | h | h | h <;> subst h <;>
    simp [ubrCond, BitVec.ult, BitVec.slt]
  · rfl
  · simp [bne]; rfl
  · rw [← decide_not]; simp
  · rw [← decide_not]; simp

theorem fld_table {e : Nat × (PyRegs → U64)} (h : e ∈ fldTable) (r : PyRegs) : fldPy r e.1 = some (e.2 r) := by
  simp only [fldTable, List.mem_cons, List.not_mem_nil, or_false] at h
  rcases h with h | h | h | h | h | h | h | h | h | h | h | h | h | h | h <;> subst h <;>
    simp only [fldPy, Option.some.injEq]
  case inr.inr.inr.inl | inr.inr.inr.inr.inl | inr.inr.inr.inr.inr.inl =>
    congr 1; apply BitVec.eq_of_toNat_eq; simp [BitVec.extractLsb'_toNat, Nat.shiftRight_eq_div_pow]
  all_goals
    apply BitVec.eq_of_toNat_eq
    simp [BitVec.extractLsb'_toNat, Nat.shiftRight_eq_div_pow]
    try omega

theorem on_x (d : Dev) (u : Nat) (b : Job) (m : Micro) (f : UFmt) (m' : Micro) :
    ({ d := d, u := u, b := b, m := m, f := f } : Ux).on m' = .next { d := d, u := u, b := b, m := m', f := f } (m.upc.toNat + 1) := rfl

theorem go_in {x : Ux} {m : Micro} {t : Nat} (h : t < storeSize x.u) : x.go m (t : Int) = .next { x with m := m } t := by
  unfold Ux.go; rw [if_pos]; · simp
  · simp; omega

theorem fldMe_leaves {d : Dev} {b : Job} {c : Nat} {r : U64 × Dev} (h : fldMe d b c = some r) (u : Nat) (j : Job) :
    MicroLeaves d r.2 u j id id id := by
  unfold fldMe at h
  dsimp only at h
  split at h
  · cases h; exact .refl _ _ _
  · cases h; exact .refl _ _ _
  · cases h; exact .refl _ _ _
  · split at h
    · cases h
    · split at h
      · cases h; exact .refl _ _ _
      · cases h; exact leaves_ctr d u j _

theorem uins_bits (x : U64) (v : BitVec 12) (k : Nat) (i : Nat) (hi : i < 64) :
    ((x &&& ~~~ BitVec.ofNat 64 ((2 ^ (if k = 5 then 4 else 12) - 1) * 2 ^ (12 * k)))
      ||| BitVec.ofNat 64 (v.toNat % 2 ^ (if k = 5 then 4 else 12) * 2 ^ (12 * k))).getLsbD i
      = if 12 * k ≤ i ∧ i < 12 * k + 12 then v.getLsbD (i - 12 * k) else x.getLsbD i := by
  have h1 : ∀ w, (BitVec.ofNat 64 ((2 ^ w - 1) * 2 ^ (12 * k))).getLsbD i = (decide (12 * k ≤ i) && decide (i - 12 * k < w)) := by
    intro w
    rw [BitVec.getLsbD_ofNat, Nat.testBit_mul_two_pow, Nat.testBit_two_pow_sub_one]; simp [hi]
  have h2 : ∀ w, (BitVec.ofNat 64 (v.toNat % 2 ^ w * 2 ^ (12 * k))).getLsbD i
      = (decide (12 * k ≤ i) && (decide (i - 12 * k < w) && v.getLsbD (i - 12 * k))) := by
    intro w
    rw [BitVec.getLsbD_ofNat, Nat.testBit_mul_two_pow, Nat.testBit_mod_two_pow]; simp only [hi, decide_true, Bool.true_and]; rfl
  simp only [BitVec.getLsbD_or, BitVec.getLsbD_and, BitVec.getLsbD_not, h1, h2, hi, decide_true, Bool.true_and]
  by_cases a1 : 12 * k ≤ i
  · by_cases a2 : i < 12 * k + 12
    · have : i - 12 * k < (if k = 5 then 4 else 12) := by split <;> omega
      simp [a1, a2, this]
    · have : ¬ i - 12 * k < (if k = 5 then 4 else 12) := by split <;> omega
      simp [a1, a2, this]
  · simp [a1]

theorem uDatapath_next {i : Instr} {s : State} {u c : Nat} {b : Job} {f : UFmt} {use : UUse} {body : Ux → UEnd} {op : PyOp} {q : Px}
    (hi : exec i s = onDev s (uRun u c f uPy use body)) (hcode : microCode i = some (c, f)) (h : MicroReady s.dev u b) (hu : u < 16)
    (hbody : body { d := s.dev, u := u, b := b, m := getMicro s.dev u, f := f }
      = uDatapath op { d := s.dev, u := u, b := b, m := getMicro s.dev u, f := f })
    (hl : (op.use (uAt s u b)).legal = true) (hc : (op.use (uAt s u b)).clash = false) (hb : op.body (uAt s u b) = .next q)
    (hqc : q.c = u) (hqb : q.b.id = b.id) (hw : MicroWord s.dev u i) (hst : getStore q.d u = getStore s.dev u) (hqd : q.deal = false) :
    ∃ t, exec i s = .next t ∧ t.pending = s.pending
    ∧ (getCore t.dev u).live = withMicro { q.r with pc := q.jump.getD q.r.pc, velOn := false } (uNext (getMicro s.dev u))
    ∧ (∀ k, k ≠ u → (getCore t.dev k).live = (getCore q.d k).live)
    ∧ (∀ k, (getCore t.dev k).tile = (getCore q.d k).tile)
    ∧ (∀ k, (getCore t.dev k).ctx = (getCore q.d k).ctx)
    ∧ (∀ n, n ≠ b.id → findJob t.dev n = findJob q.d n)
    ∧ t.dev = { q.d with cores := t.dev.cores, jobs := t.dev.jobs, io := t.dev.io } := by
  obtain ⟨h1, h2⟩ := h.core hu
  refine ⟨_, hi, rfl, ?_⟩
  have hdp : uDatapath op { d := s.dev, u := u, b := b, m := getMicro s.dev u, f := f }
      = .ended (setMicro (pyRetire (uAt s u b) none { op.use (uAt s u b) with gap := 1, vec := false }
          (.next { q with jump := some (q.jump.getD q.r.pc), r := { q.r with velOn := false } })) u (uNext (getMicro s.dev u))) := by
    unfold uDatapath
    dsimp only
    rw [pyHere_ready h1]
    dsimp only
    have hz : hazard (uAt s u b) { op.use (uAt s u b) with gap := 1, vec := false } = false := hazard_quiet h2 hc
    rw [if_neg (by show ¬ (!(op.use (uAt s u b)).legal) = true; rw [hl]; simp)]
    rw [if_neg (by rw [Bool.not_eq_true]; exact hz)]
    have hb' : op.body { d := s.dev, c := u, t := uTime s.dev u, b := b, io := mapGet {} s.dev.io b.id, r := (getCore s.dev u).live } = .next q := hb
    simp only [hb', h1.noWait]
    rfl
  dsimp only [onDev]
  rw [uRun_body h hw hcode (by unfold uPy; simp [hu]) (hbody.trans hdp)]
  dsimp only
  rw [pyRetire_next _ _ _ (show ({ q with jump := some (q.jump.getD q.r.pc), r := { q.r with velOn := false } } : Px).deal = false from hqd)]
  obtain ⟨j1, j2, j3, j4, j5, j6⟩ := putBack_keeps { q with jump := some (q.jump.getD q.r.pc), r := { q.r with velOn := false } }
    { op.use (uAt s u b) with gap := 1, vec := false } (by rw [hqc]; exact hu)
  generalize markUse _ _ _ _ _ = x at j1 j2 j3 j4 j5 j6 ⊢
  dsimp only at j1 j2 j3 j4 j5 j6
  have hm := leaves_setMicro x b (uNext (getMicro s.dev u)) h.seq
  have hx : getStore x u = getStore q.d u := by rw [j6]; rfl
  rw [takeHalt_idle (by rw [MicroLeaves.store hm, hx, hst]; exact h.noHalt)]
  refine ⟨?_, ?_, ?_, ?_, ?_, ?_⟩
  · rw [hm.core u hu, if_pos rfl]
    rw [hqc] at j1
    rw [j1]; rfl
  · intro k hk
    by_cases hk16 : k < 16
    · rw [hm.core k hk16, if_neg hk]; exact j2 k (by rw [hqc]; exact hk)
    · rw [getCore_big hk16, getCore_big hk16]
  · intro k; rw [hm.tile k, j3]
  · intro k; rw [hm.ctx k, j4]
  · intro n hn; rw [hm.jobs n hn]; exact j5 n (by rw [hqb]; exact hn)
  · have : ∃ cs, setMicro x u (uNext (getMicro s.dev u)) = { x with cores := cs } := by
      unfold setMicro; rw [if_pos hu]; exact modCore_ex _ _ _
    obtain ⟨cs, e⟩ := this
    rw [e, j6]

/-- A datapath micro-op on registers. -/
theorem uDatapath_regs {i : Instr} {s : State} {u c : Nat} {b : Job} {f : UFmt} {use : UUse} {body : Ux → UEnd} {op : PyOp} {q : Px}
    {g : PyRegs → PyRegs}
    (hi : exec i s = onDev s (uRun u c f uPy use body)) (hcode : microCode i = some (c, f)) (h : MicroReady s.dev u b) (hu : u < 16)
    (hbody : body { d := s.dev, u := u, b := b, m := getMicro s.dev u, f := f }
      = uDatapath op { d := s.dev, u := u, b := b, m := getMicro s.dev u, f := f })
    (hl : (op.use (uAt s u b)).legal = true) (hc : (op.use (uAt s u b)).clash = false) (hb : op.body (uAt s u b) = .next q)
    (hqc : q.c = u) (hqb : q.b.id = b.id) (hd : ∃ n, q.d = { s.dev with glob.freeCtr := n }) (hqd : q.deal = false)
    (hg : { q.r with pc := q.jump.getD q.r.pc, velOn := false } = g (getCore s.dev u).live) : MicroPy i s u b g id := by
  intro hw
  obtain ⟨n, hd⟩ := hd
  obtain ⟨t, e1, e2, e3, e4, e5, e6, e7, e8⟩ := uDatapath_next hi hcode h hu hbody hl hc hb hqc hqb hw (by rw [hd]; rfl) hqd
  refine ⟨t, e1, e2, ?_, ?_, ?_, ?_, ?_, ?_, ?_⟩
  · intro k hk
    split
    · rename_i hku; subst hku; rw [e3, hg]; rfl
    · rename_i hku; rw [e4 k hku, hd]; rfl
  · intro k; rw [e5, hd]; rfl
  · intro k; rw [e6, hd]; rfl
  · intro k hk
    rw [if_neg (by omega)]
    exact getMe_of_mes (by rw [e8, hd]) k
  · intro k hk
    rw [if_neg (by omega)]
    exact getTs_of_tss (by rw [e8, hd]) k
  · intro k hk; rw [e7 k hk, hd]; rfl
  · generalize t.dev = x at *
    rw [e8, hd]

theorem MicroLeaves.job {d d' : Dev} {u : Nat} {b b' : Job} {p e t} (h : MicroLeaves d d' u b p e t) (hb : b.id = b'.id) : MicroLeaves d d' u b' p e t :=
  ⟨h.core, h.tile, h.ctx, h.meng, h.tree, fun n hn => h.jobs n (by rw [hb]; exact hn), h.rest⟩

theorem save_leaves (p : Px) (b : Job) (hc : p.c < 16) (hb : p.b.id = b.id) : MicroLeaves p.d p.save p.c b (fun _ => p.r) id id := by
  refine MicroLeaves.job (b := p.b) ?_ hb
  unfold Px.save
  dsimp only
  have h1 : MicroLeaves p.d (modCore p.d p.c fun k => { k with live := p.r }) p.c p.b (fun _ => p.r) id id := by
    refine leaves_modCore hc ?_ ?_ ?_ _ _ <;> intro _ <;> rfl
  exact (h1.trans (leaves_io _ p.c p.b _)).trans (leaves_modJob _ p.c p.b _ (fun _ _ => rfl))

theorem leaves_core {d d' : Dev} {u : Nat} {b : Job} {p e t} (h : MicroLeaves d d' u b p e t) (hu : u < 16) : d'.mes = d.mes ∧ d'.tss = d.tss := by
  constructor
  · apply Vector.ext
    intro i hi
    have := h.meng i hi
    rw [if_neg (by omega)] at this
    unfold getMe at this
    simpa [hi] using this
  · apply Vector.ext
    intro i hi
    have := h.tree i hi
    rw [if_neg (by omega)] at this
    unfold getTs at this
    simpa [hi] using this

theorem tls_load {s : State} {u c : Nat} {b : Job} {f : UFmt} {n : Nat} {tc off : Nat} (h : MicroReady s.dev u b) (hu : u < 16)
    (ha : (uReg s u f.b + f.imm.signExtend 64).toNat % n = 0)
    (ht : tilePlace (uAt s u b) (uReg s u f.b + f.imm.signExtend 64).toNat n = some (tc, off))
    (e7 : elStop (uAt s u b) (uReg s u f.b + f.imm.signExtend 64).toNat n false = none)
    (hs : lineStale (uAt s u b) tc (off / 256) = false) {i : Instr} {use : UUse}
    (hi : exec i s = onDev s (uRun u c f uPy use (tlsGo n false))) (hcode : microCode i = some (c, f)) :
    MicroState i s u b fun m => uNext (uSet m f.a (BitVec.ofNat 64 (leNat (memRead (getCore s.dev tc).tile off n)))) := by
  obtain ⟨h1, h2⟩ := h.core hu
  have e5 : leNat (memRead (getCore s.dev tc).tile off n) % 2 ^ (8 * n) = leNat (memRead (getCore s.dev tc).tile off n) := by
    apply Nat.mod_eq_of_lt; have := leNat_lt (memRead (getCore s.dev tc).tile off n); rw [memRead_length] at this; rw [Nat.pow_mul]; exact this
  have e6 : tileRead (uAt s u b) (uReg s u f.b + f.imm.signExtend 64).toNat n 0 = leNat (memRead (getCore s.dev tc).tile off n) := by
    unfold tileRead; rw [ht]; simp only [hs]; rfl
  have hb : ∃ us b1, b1.id = b.id ∧ tlsGo n false { d := s.dev, u := u, b := b, m := getMicro s.dev u, f := f }
      = .ended (setMicro (markUse ({ freeUse (uAt s u b) 1 with b := b1 } : Px).save b.cluster u (uTime s.dev u) us) u
          (uNext (uSet (getMicro s.dev u) f.a (BitVec.ofNat 64 (leNat (memRead (getCore s.dev tc).tile off n)))))) := by
    apply Exists.intro
    refine ⟨(spend (freeUse (uAt s u b) 1) 1).b, ?_, ?_⟩
    rotate_left
    · unfold tlsGo
      dsimp only
      rw [pyHere_ready h1]
      dsimp only
      rw [if_neg (by rw [Bool.not_eq_true]; exact hazard_quiet (p := uAt s u b) h2 rfl)]
      rw [if_neg (fun hh => hh ha)]
      have e7' : elStop { d := s.dev, c := u, t := uTime s.dev u, b := b, io := mapGet {} s.dev.io b.id, r := (getCore s.dev u).live }
        (uReg s u f.b + f.imm.signExtend 64).toNat n false = none := e7
      unfold uReg at e7' e6
      simp only [Ux.bv, e7', h1.noWait]
      have e6' : tileRead { d := s.dev, c := u, t := uTime s.dev u, b := b, io := mapGet {} s.dev.io b.id, r := (getCore s.dev u).live }
        (uGet (getMicro s.dev u) f.b + f.imm.signExtend 64).toNat n 0 = leNat (memRead (getCore s.dev tc).tile off n) := e6
      simp only [e6', e5]
      rfl
    · exact (spend_fields (freeUse (uAt s u b) 1) 1).2.2.2.2.2.2.2.1
  obtain ⟨us, b1, hb1, hb⟩ := hb
  intro hw
  refine ⟨_, hi, rfl, ?_⟩
  dsimp only
  rw [uRun_body h hw hcode (by unfold uPy; simp [hu]) hb]
  dsimp only
  have k1 := leaves_ctr s.dev u b (s.dev.glob.freeCtr + 1)
  have k2 := save_leaves { freeUse (uAt s u b) 1 with b := b1 } b hu hb1
  have k3 := k1.trans k2
  have k4 := k3.trans (leaves_records u b (markUse_records _ b.cluster u (uTime s.dev u) us))
  have k5 := k4.trans (leaves_setMicro _ b
    (uNext (uSet (getMicro s.dev u) f.a (BitVec.ofNat 64 (leNat (memRead (getCore s.dev tc).tile off n))))) h.seq)
  rw [takeHalt_idle (by rw [MicroLeaves.store k5]; exact h.noHalt)]
  refine k5.of_eq ?_ ?_ ?_
  · intro _; rfl
  · intro _ _; omega
  · intro _; omega

theorem tls_store {s : State} {u c : Nat} {b : Job} {f : UFmt} {n : Nat} {tc off : Nat} (h : MicroReady s.dev u b) (hu : u < 16)
    (ha : (uReg s u f.b + f.imm.signExtend 64).toNat % n = 0)
    (ht : tilePlace (uAt s u b) (uReg s u f.b + f.imm.signExtend 64).toNat n = some (tc, off))
    (hp : pageAt (uAt s u b) (uReg s u f.b + f.imm.signExtend 64).toNat = none) (hn : 0 < n)
    (hm : memWf (getCore s.dev tc).tile = true) {i : Instr} {use : UUse}
    (hi : exec i s = onDev s (uRun u c f uPy use (tlsGo n true))) (hcode : microCode i = some (c, f)) :
    MicroWord s.dev u i → Completes i s fun d' =>
          PyStored s.dev d' u b (withMicro (getCore s.dev u).live (uNext (getMicro s.dev u))) tc off (leBytes n (uReg s u f.a).toNat) := by
  obtain ⟨h1, h2⟩ := h.core hu
  have e7 : elStop (uAt s u b) (uReg s u f.b + f.imm.signExtend 64).toNat n true = none := by
    unfold elStop
    simp only [ht, Option.isNone_some, hp]
    simp
  generalize hq : tileWrite (uAt s u b) (uReg s u f.b + f.imm.signExtend 64).toNat n (uReg s u f.a).toNat = q
  have htc : tc < 16 := tilePlace_core ht (by exact hu) hn
  have e : q = { uAt s u b with d := modCore s.dev tc fun k =>
        { k with tile := memWrite k.tile off (leBytes n (uReg s u f.a).toNat)
                 stores := if tc = u then k.stores else (uTime s.dev u, off / 256) :: k.stores } } := by
    rw [← hq]; unfold tileWrite; rw [ht]; rfl
  have hb : ∃ us b1, b1.id = b.id ∧ tlsGo n true { d := s.dev, u := u, b := b, m := getMicro s.dev u, f := f }
      = .ended (setMicro (markUse ({ q with b := b1 } : Px).save b.cluster u (uTime s.dev u) us) u (uNext (getMicro s.dev u))) := by
    apply Exists.intro
    refine ⟨(spend q 1).b, ?_, ?_⟩
    rotate_left
    · unfold tlsGo
      dsimp only
      rw [pyHere_ready h1]
      dsimp only
      rw [if_neg (by rw [Bool.not_eq_true]; exact hazard_quiet (p := uAt s u b) h2 rfl)]
      rw [if_neg (fun hh => hh ha)]
      have e7' : elStop { d := s.dev, c := u, t := uTime s.dev u, b := b, io := mapGet {} s.dev.io b.id, r := (getCore s.dev u).live }
        (uReg s u f.b + f.imm.signExtend 64).toNat n true = none := e7
      unfold uReg at e7' hq
      simp only [Ux.bv, Ux.a, e7', h1.noWait]
      have e6' : tileWrite { d := s.dev, c := u, t := uTime s.dev u, b := b, io := mapGet {} s.dev.io b.id, r := (getCore s.dev u).live }
        (uGet (getMicro s.dev u) f.b + f.imm.signExtend 64).toNat n (uGet (getMicro s.dev u) f.a).toNat = q := hq
      simp only [e6']
      rfl
    · rw [(spend_fields q 1).2.2.2.2.2.2.2.1, e]; rfl
  obtain ⟨us, b1, hb1, hb⟩ := hb
  intro hw
  refine ⟨_, hi, rfl, ?_⟩
  dsimp only
  rw [uRun_body h hw hcode (by unfold uPy; simp [hu]) hb]
  dsimp only
  have hqc : q.c = u := by rw [e]; rfl
  have hqd : q.d = modCore s.dev tc fun k =>
        { k with tile := memWrite k.tile off (leBytes n (uReg s u f.a).toNat)
                 stores := if tc = u then k.stores else (uTime s.dev u, off / 256) :: k.stores } := by rw [e]
  have k2 : MicroLeaves q.d ({ q with b := b1 } : Px).save u b (fun _ => q.r) id id := by
    have k := save_leaves { q with b := b1 } b (by rw [hqc]; exact hu) hb1
    generalize ({ q with b := b1 } : Px).save = z at k ⊢
    rw [← hqc]; exact k
  have k4 := k2.trans (leaves_records _ b (markUse_records _ b.cluster u (uTime s.dev u) us))
  have k5 := k4.trans (leaves_setMicro _ b (uNext (getMicro s.dev u)) h.seq)
  have hst : getStore q.d u = getStore s.dev u := by rw [hqd, modCore_eq]; rfl
  rw [takeHalt_idle (by rw [MicroLeaves.store k5, hst]; exact h.noHalt)]
  suffices key : ∀ d', MicroLeaves q.d d' u b (fun _ => withMicro q.r (uNext (getMicro s.dev u))) id id →
      PyStored s.dev d' u b (withMicro (getCore s.dev u).live (uNext (getMicro s.dev u))) tc off (leBytes n (uReg s u f.a).toNat) from
    key _ (k5.of_eq (fun _ => rfl) (fun _ _ => by omega) (fun _ => by omega))
  clear k5
  intro d' k5
  have hlive : ∀ k, (getCore q.d k).live = (getCore s.dev k).live := fun k => by
    rw [hqd]; exact getCore_modCore_part Core.live _ _ _ _ (fun _ => rfl)
  have hctx : ∀ k, (getCore q.d k).ctx = (getCore s.dev k).ctx := fun k => by
    rw [hqd]; exact getCore_modCore_part Core.ctx _ _ _ _ (fun _ => rfl)
  have htile : (getCore q.d tc).tile = memWrite (getCore s.dev tc).tile off (leBytes n (uReg s u f.a).toNat) := by
    rw [hqd, getCore_modCore_self _ _ _ htc]
  refine ⟨?_, ?_, ?_, ?_, ?_, ?_, ?_⟩
  · rw [k5.core u hu, if_pos rfl]
    rw [e]; rfl
  · intro i hi
    rw [k5.tile, htile]
    exact memByte_memWrite_in hm off i _ hi
  · intro k x hx
    rw [k5.tile]
    by_cases hk : k = tc
    · subst hk
      rw [htile]
      exact memByte_memWrite_out _ _ _ _ (hx rfl)
    · rw [hqd, getCore_modCore_ne _ _ _ _ hk]
  · intro k hk
    by_cases hk16 : k < 16
    · rw [k5.core k hk16, if_neg hk, hlive]
    · rw [getCore_big hk16, getCore_big hk16]
  · intro k; rw [k5.ctx, hctx]
  · intro n hn
    rw [k5.jobs n hn, hqd]
    unfold findJob; rw [modCore_eq]
  · unfold SameDevice
    have k6 := k5.rest
    obtain ⟨m1, m2⟩ := leaves_core k5 hu
    generalize hx : d' = x at k6 m1 m2 ⊢
    rw [k6, m1, m2, hqd, modCore_eq]

theorem mod8_lt (c : BitVec 5) : (c.getLsbD 2 = decide (4 ≤ c.toNat % 8)) ∧ c.toNat % 8 % 4 = c.toNat % 4 := by
  revert c; decide

theorem quiet_arch {d : Dev} {u k : Nat} (h : PyQuiet d u (uTime d u)) : archReady d u k = true := by
  have := mapGet_le h.land k
  unfold archReady; simpa using this

theorem quiet_lands {d : Dev} {u k : Nat} (h : PyQuiet d u (uTime d u)) : archLands d u k = true := by
  have := mapGet_le h.land k
  unfold archLands; simp; omega

theorem mkv_bits (m : BitVec 256) (x : U64) (k i : Nat) (hi : i < 256) :
    ((m &&& ~~~ ((BitVec.allOnes 64).setWidth 256 <<< (64 * k))) ||| (x.setWidth 256 <<< (64 * k))).getLsbD i
      = if 64 * k ≤ i ∧ i < 64 * k + 64 then x.getLsbD (i - 64 * k) else m.getLsbD i := by
  simp only [BitVec.getLsbD_or, BitVec.getLsbD_and, BitVec.getLsbD_not, BitVec.getLsbD_shiftLeft, BitVec.getLsbD_setWidth, BitVec.getLsbD_allOnes, hi,
    decide_true, Bool.true_and]
  by_cases a1 : 64 * k ≤ i
  · by_cases a2 : i < 64 * k + 64
    · have e1 : i - 64 * k < 64 := by omega
      have e2 : i - 64 * k < 256 := by omega
      have e3 : ¬ i < 64 * k := by omega
      simp [a1, a2, e1, e2, e3]
    · have e1 : ¬ i - 64 * k < 64 := by omega
      have e4 : x.getLsbD (i - 64 * k) = false := BitVec.getLsbD_of_ge _ _ (by omega)
      have e3 : ¬ i < 64 * k := by omega
      simp [a1, a2, e1, e3, e4]
  · have e3 : i < 64 * k := by omega
    simp [a1, e3]

theorem lk_mem (n : Nat) (m : SMap Byte) (a : Nat) : (memRead m a n).length = n := memRead_length m a n

theorem out_leaves {s : State} {u c : Nat} {b : Job} {off : Nat} {bs : Bytes} {i : Instr} {f : UFmt} {use : UUse} {kinds : Nat → Bool} {body : Ux → UEnd}
    (hi : exec i s = onDev s (uRun u c f kinds use body)) (hcode : microCode i = some (c, f)) (h : MicroReady s.dev u b) (hu : 16 ≤ u) (hk : kinds u = true)
    (hb : body { d := s.dev, u := u, b := b, m := getMicro s.dev u, f := f } = uOut { d := s.dev, u := u, b := b, m := getMicro s.dev u, f := f } off bs)
    (ho : outReady b = true) (hm : isMember s.dev = false) (hj : findJob s.dev b.id = some b) (hfit : off + bs.length ≤ b.e.outCap.toNat) (hne : 0 < bs.length) :
    MicroOut i s u b off bs := by
  have ht : bs.take (b.e.outCap.toNat - off) = bs := List.take_of_length_le (by omega)
  have hbs : bs.isEmpty = false := by cases bs <;> simp at *
  have hb' : body { d := s.dev, u := u, b := b, m := getMicro s.dev u, f := f } = .next { d := writeOut s.dev b off bs, u := u, b := { b with outLen := max b.outLen (off + bs.length), effect := b.effect ||| effOutput }, m := getMicro s.dev u, f := f } ((getMicro s.dev u).upc.toNat + 1) := by
    rw [hb]; unfold uOut
    simp only [ho, ht, hbs]
    rfl
  have hs := writeOut_signals s.dev b off bs hm
  intro hw
  obtain ⟨k1, k2⟩ := uRun_next (use := use) h hw hcode hk hb' (MicroLeaves.refl _ _ _) rfl (by obtain ⟨_, _, _, e⟩ := hs; rw [e]; rfl)
  refine ⟨_, hi, rfl, ?_, ?_⟩
  · refine k2.of_eq (fun _ => by omega) ?_ ?_
    · intro h1 h2
      have : getMe (writeOut s.dev b off bs) (u - 16) = getMe s.dev (u - 16) := by obtain ⟨_, _, _, e⟩ := hs; rw [e]; rfl
      dsimp only [id]
      rw [this, getMicro_me h1 h2, upc_next]
    · intro h1
      have : getTs (writeOut s.dev b off bs) (u - 24) = getTs s.dev (u - 24) := by obtain ⟨_, _, _, e⟩ := hs; rw [e]; rfl
      dsimp only [id]
      rw [this, getMicro_ts h1, upc_next]
  · dsimp only
    rw [k1]
    exact (uPut_job (b := b) rfl (b0 := b) (by obtain ⟨_, _, _, e⟩ := hs; dsimp only; rw [e]; exact hj)).trans (by rw [uSpent_engine hu])

theorem setMicro_io (d : Dev) (u : Nat) (m : Micro) : (setMicro d u m).io = d.io := by
  unfold setMicro modCore modMe modTs; (repeat' split) <;> rfl
theorem setSched_io (d : Dev) (u : Nat) (m : Sched) : (setSched d u m).io = d.io := by
  unfold setSched modCore modMe modTs; (repeat' split) <;> rfl
theorem put_newKey {x : Ux} {d : Dev} {b : Job} {line : Nat} {bs : Bytes} (hx : x.d = portPut d b line bs) (hw : mapWf {} d.io = true) {u : Nat}
    (hu : 16 ≤ u) (upc t : Nat) (use : UUse) :
    (mapGet {} (uPut x upc b u t use).io b.id).newKey = memWrite (mapGet {} d.io b.id).newKey (64 * line) bs := by
  unfold uPut
  rw [if_neg (by omega), setSched_io]
  show (mapGet {} (setMicro x.d u _).io b.id).newKey = _
  rw [setMicro_io, hx]
  unfold portPut mapMod
  dsimp only
  rw [mapGet_mapSet_self hw]

theorem mac_ok {s : State} {u c : Nat} {b : Job} {f : UFmt} (h : MicroReady s.dev u b) (hu1 : 16 ≤ u) (hu2 : u < 24) (hk : uMe u = true) (v : Nat)
    (hb : umacGo { d := s.dev, u := u, b := b, m := getMicro s.dev u, f := f }
      = .next { d := { modMe s.dev (u - 16) (fun e => { e with bufs := (e.bufs.setIfInBounds 2 (BitVec.ofNat 512 v)).setIfInBounds 3 (BitVec.ofNat 512 (v / 2 ^ 512)) }) with glob.freeCtr := (modMe s.dev (u - 16) (fun e => { e with bufs := (e.bufs.setIfInBounds 2 (BitVec.ofNat 512 v)).setIfInBounds 3 (BitVec.ofNat 512 (v / 2 ^ 512)) })).glob.freeCtr + 16 }, u := u, b := b, m := getMicro s.dev u, f := f } ((getMicro s.dev u).upc.toNat + 1)) :
    MicroMe (.uMac u f) s u b fun e => { e with bufs := (e.bufs.setIfInBounds 2 (BitVec.ofNat 512 v)).setIfInBounds 3 (BitVec.ofNat 512 (v / 2 ^ 512)) } :=
  microMe_of rfl rfl h hu1 hu2 hk hb ((leaves_modMe hu1 hu2 id id).trans (leaves_ctr _ u b _)) rfl rfl rfl rfl

theorem uYield_go {x : Ux} (go : Ux → UEnd) (ha : x.b.abort = none) (hl : late x.d x.b.e = false) :
    uYield x go = go { x with d := setSched x.d x.u { getSched x.d x.u with yieldT := (getSched x.d x.u).nextT } } := by
  unfold uYield; rw [ha]; simp only [hl]; rfl

/-- SST takes the next index once the list of the job is in order. -/
theorem usst_takes {x : Ux} {n : Nat} {d1 : Dev} (ha : x.b.abort = none) (hl : late x.d x.b.e = false) (hbad : x.b.outBad = none)
    (ho : outSgl x.b.e = false ∨ x.b.e.outCap = 0 ∨ x.b.outOk = true)
    (hss : ssTake (setSched x.d x.u { getSched x.d x.u with yieldT := (getSched x.d x.u).nextT }) x.b.owner x.b.e.key0 = some (n, d1)) :
    usstGo x = .next { x with d := d1, b := { x.b with taken := some n, effect := x.b.effect ||| effStateConsumed }
                              m := uSet x.m x.f.a (BitVec.ofNat 64 n) } (x.m.upc.toNat + 1) true := by
  have hlist : ¬ (outSgl x.b.e && x.b.e.outCap != 0 && !x.b.outOk && x.b.outBad.isNone) = true := by
    rcases ho with ho | ho | ho <;> simp [ho]
  have hbad' : ¬ x.b.outBad.isSome = true := by rw [hbad]; simp
  unfold usstGo
  rw [uYield_go _ ha hl, if_neg hlist, if_neg hbad']
  dsimp only
  rw [hss]

/-- SST of an exhausted key. -/
theorem usst_spent {x : Ux} (ha : x.b.abort = none) (hl : late x.d x.b.e = false) (hbad : x.b.outBad = none)
    (ho : outSgl x.b.e = false ∨ x.b.e.outCap = 0 ∨ x.b.outOk = true)
    (hss : ssTake (setSched x.d x.u { getSched x.d x.u with yieldT := (getSched x.d x.u).nextT }) x.b.owner x.b.e.key0 = none) :
    usstGo x = .stop (ssCause (setSched x.d x.u { getSched x.d x.u with yieldT := (getSched x.d x.u).nextT }) 4
      (BitVec.ofNat 16 (hSlot x.b.e.key0))) x.b stStateExhausted 0 := by
  have hlist : ¬ (outSgl x.b.e && x.b.e.outCap != 0 && !x.b.outOk && x.b.outBad.isNone) = true := by
    rcases ho with ho | ho | ho <;> simp [ho]
  have hbad' : ¬ x.b.outBad.isSome = true := by rw [hbad]; simp
  unfold usstGo
  rw [uYield_go _ ha hl, if_neg hlist, if_neg hbad']
  dsimp only
  rw [hss]

theorem ssCause_ex (d : Dev) (bits : BitVec 3) (slot : U16) :
    ∃ h a b, ssCause d bits slot = { d with ss.event := d.ss.event ||| bits, ss.evSlot := slot, hif := h, glob := { d.glob with evHold := a, evCarry := b } } := by
  obtain ⟨h, a, b, e⟩ := raise_signals { d with ss.event := d.ss.event ||| bits, ss.evSlot := slot } 8 d.ss.event (d.ss.event ||| bits)
  exact ⟨h, a, b, e⟩

/-- What a change of the state store may touch: the store, the fate journal, and signalling. -/
def StateStore (d d' : Dev) : Prop := ∃ ss j h a b, d' = { d with ss := ss, jrn := j, hif := h, glob := { d.glob with evHold := a, evCarry := b } }

theorem StateStore.refl (d : Dev) : StateStore d d := ⟨_, _, _, _, _, rfl⟩

theorem StateStore.trans {a b c : Dev} : StateStore a b → StateStore b c → StateStore a c := by
  rintro ⟨_, _, _, _, _, rfl⟩ ⟨_, _, _, _, _, rfl⟩; exact ⟨_, _, _, _, _, rfl⟩

theorem ssReserve_ex (d : Dev) (k : SsKey) (h : U32) : StateStore d (ssReserve d k h).2 := by
  unfold ssReserve wordWrite
  dsimp only
  split
  · exact ⟨_, _, _, _, _, rfl⟩
  · exact ⟨_, _, _, _, _, rfl⟩

theorem ssLowEvents_ex (d : Dev) (o n : SsKey) (slot : Nat) : StateStore d (ssLowEvents d o n slot) := by
  have key : ∀ (d : Dev) bits sl, StateStore d (ssCause d bits sl) := fun d bits sl => by
    obtain ⟨h, a, b, e⟩ := ssCause_ex d bits sl; exact ⟨_, _, _, _, _, e⟩
  unfold ssLowEvents
  dsimp only
  split
  · split
    · exact (key _ _ _).trans (key _ _ _)
    · exact key _ _ _
  · split
    · exact key _ _ _
    · exact .refl _

theorem ssTake_ex {d : Dev} {o : Nat} {h : U32} {n : Nat} {d1 : Dev} (e : ssTake d o h = some (n, d1)) : StateStore d d1 := by
  unfold ssTake at e
  dsimp only at e
  split at e
  · cases e
  · simp only [Option.some.injEq, Prod.mk.injEq] at e
    rw [← e.2]
    refine StateStore.trans ?_ (ssLowEvents_ex _ _ _ _)
    split
    · exact ⟨_, _, _, _, _, rfl⟩
    · obtain ⟨a, b, c, x, y, hh⟩ := ssReserve_ex d (getSs d o (hSlot h)) h
      rw [hh]
      exact ⟨_, _, _, _, _, rfl⟩

theorem ssTake_keeps {d : Dev} {o : Nat} {h : U32} {n : Nat} {d1 : Dev} (e : ssTake d o h = some (n, d1)) : d1.tss = d.tss ∧ d1.jobs = d.jobs := by
  obtain ⟨a, b, c, x, y, hh⟩ := ssTake_ex e
  rw [hh]; exact ⟨rfl, rfl⟩

end Sys2Proof.Laws
end

