-- ==== Sys2Proof/Laws/Scalars.lean ====
section
/-!
SUPPORT. How a core issues a scalar or control instruction: when it may, what it then leaves, and how it ends a job.
-/
set_option linter.unusedSimpArgs false
set_option linter.unusedVariables false

namespace Sys2Proof.Laws

open Sys2Proof.Machine Sys2Proof.Safety

theorem bit01_if (p : Prop) [Decidable p] : bit01 (decide p) = (if p then (1 : U64) else 0) := by unfold bit01; split <;> simp_all

theorem scalarA_ok {c : PyAt → FmtA → Instr} {op op' : U64 → U64 → U64} {lat unit occ : Nat} {e : FmtA → U32}
  (hi : ∀ p f s, exec (c p f) s = onDev s (pyRun p (e f) (scalarA lat unit occ op f))) (ho : ∀ a b, op a b = op' a b) : ScalarA c op' := by
  intro s p f b io h h1 h2 h3
  obtain rfl : op = op' := by funext a b; exact ho a b
  exact pyExec_of (hi p f s) h (by simp [scalarA, plainA, h1, h2, h3]) rfl rfl rfl rfl rfl rfl rfl rfl

theorem scalarI_ok {c : PyAt → FmtI → Instr} {op op' : U64 → U64 → U64} {e : FmtI → U32}
  (hi : ∀ p f s, exec (c p f) s = onDev s (pyRun p (e f) (scalarI op f))) (ho : ∀ a b, op a b = op' a b) : ScalarI c op' := by
  intro s p f b io h
  obtain rfl : op = op' := by funext a b; exact ho a b
  exact pyExec_of (hi p f s) h rfl rfl rfl rfl rfl rfl rfl rfl rfl

theorem mul8 (n : Nat) : (2:Nat)^(8*n) = 256^n := by rw [Nat.pow_mul]

theorem scalarLoad_ok {c : PyAt → FmtI → Instr} {n : Nat} {e : FmtI → U32}
  (hi : ∀ p f s, exec (c p f) s = onDev s (pyRun p (e f) (scalarLoad n f))) : ScalarLoad c n := by
  intro s p f b io tc off h px a ha ht hp hst
  have hb : (scalarLoad n f).body (pxAt s.dev p (e f) b io) = .next (freeUse { pxAt s.dev p (e f) b io with r := xSet (regsAt s.dev p.core (e f)) f.d (BitVec.ofNat 64 (leNat (memRead (getCore s.dev tc).tile off n))) } 1) := by
    have e1 : scalarAddr (pxAt s.dev p (e f) b io) f.a f.imm = a := rfl
    have e2 : tilePlace (pxAt s.dev p (e f) b io) a n = some (tc, off) := ht
    have e3 : lineStale (pxAt s.dev p (e f) b io) tc (off/256) = false := hst
    have e4 : elStop (pxAt s.dev p (e f) b io) a n false = none := hp
    have e5 : leNat (memRead (getCore s.dev tc).tile off n) % 2^(8*n) = leNat (memRead (getCore s.dev tc).tile off n) := by
      apply Nat.mod_eq_of_lt; have := leNat_lt (memRead (getCore s.dev tc).tile off n); rw [memRead_length] at this; rw [mul8]; exact this
    have e6 : tileRead (pxAt s.dev p (e f) b io) a n 0 = leNat (memRead (getCore s.dev tc).tile off n) := by
      unfold tileRead; rw [e2]; simp only [e3]; rfl
    simp only [scalarLoad, e1, ha, e4, e5, e6]
    rfl
  exact pyExec_of (hi p f s) h rfl rfl hb rfl rfl rfl rfl rfl rfl

theorem scalarStore_ok {c : PyAt → FmtS → Instr} {n : Nat} {e : FmtS → U32} (hn : 0 < n)
  (hi : ∀ p f s, exec (c p f) s = onDev s (pyRun p (e f) (scalarStore n f))) : ScalarStore c n := by
  intro s p f b io tc off h px a ha ht hp hm
  have hb : (scalarStore n f).body (pxAt s.dev p (e f) b io) = .next (tileWrite (pxAt s.dev p (e f) b io) a n (xGet (live s p) f.b).toNat) := by
    have e1 : scalarAddr (pxAt s.dev p (e f) b io) f.a f.imm = a := rfl
    have e2 : tilePlace (pxAt s.dev p (e f) b io) a n = some (tc, off) := ht
    have e4 : pageAt (pxAt s.dev p (e f) b io) a = pageAt px a := rfl
    simp only [scalarStore, e1, ha, e2, e4, hp]
    rfl
  obtain ⟨t, h1, h2, h3⟩ := pyStored_of (hi p f s) h rfl rfl hb ht hn hm rfl
  exact ⟨t, h1, h2, _, h3⟩

theorem branch_ok {c : PyAt → FmtS → Instr} {cond : U64 → U64 → Bool} {P : U64 → U64 → Prop} {e : FmtS → U32}
  (hi : ∀ p f s, exec (c p f) s = onDev s (pyRun p (e f) (branch cond f))) (hc : ∀ a b, cond a b = true ↔ P a b) : Branch c P := by
  intro s p f b io h a bb target
  constructor
  · intro h1 h2
    have : cond a bb = true := (hc _ _).2 h1
    refine pyExec_of (hi p f s) h rfl rfl (q := { pxAt s.dev p (e f) b io with jump := some (BitVec.ofInt 16 target) }) ?_ rfl rfl rfl rfl rfl ?_
    · show (if cond a bb then _ else _) = _
      rw [if_pos this]; exact pyJump_in h2
    · rfl
  · intro h1
    have : ¬ cond a bb = true := fun x => h1 ((hc _ _).1 x)
    refine pyExec_of (hi p f s) h rfl rfl (q := pxAt s.dev p (e f) b io) ?_ rfl rfl rfl rfl rfl rfl
    show (if cond a bb then _ else _) = _
    rw [if_neg this]

theorem plainA_not {f : FmtA} (hm : f.m = true ∨ f.k ≠ 0 ∨ f.x ≠ 0) : plainA f = false := by
  rw [Bool.eq_false_iff]
  intro h
  simp only [plainA, Bool.and_eq_true, beq_iff_eq, Bool.not_eq_true'] at h
  rcases hm with h1 | h1 | h1
  · rw [h.1.1] at h1; cases h1
  · exact h1 h.1.2
  · exact h1 h.2

theorem load_misaligned_faults {c : PyAt → FmtI → Instr} {n : Nat} {e : FmtI → U32} {s : State} {p : PyAt} {f : FmtI} {b : Job} {io : JobIo}
  (hi : exec (c p f) s = onDev s (pyRun p (e f) (scalarLoad n f))) (h : PyGo s p b io) (ho : OwnQueues s.dev b)
  (ha : (xGet (live s p) f.a + f.imm.signExtend 64).toNat % n ≠ 0) : PyFaults (c p f) s b stAlign := by
  have hb : ∃ det, (scalarLoad n f).body (pxAt s.dev p (e f) b io) = .fault (pxAt s.dev p (e f) b io) stAlign det := by
    have e1 : scalarAddr (pxAt s.dev p (e f) b io) f.a f.imm = (xGet (live s p) f.a + f.imm.signExtend 64).toNat := by unfold scalarAddr; rw [pxAt_x]; rfl
    simp only [scalarLoad, e1]
    rw [if_pos (by simpa using ha)]
    exact ⟨_, rfl⟩
  obtain ⟨det, hb⟩ := hb
  exact pyFaults_body hi h ho rfl rfl hb rfl rfl

theorem load_outside_faults {c : PyAt → FmtI → Instr} {n : Nat} {e : FmtI → U32} {s : State} {p : PyAt} {f : FmtI} {b : Job} {io : JobIo}
  (hi : exec (c p f) s = onDev s (pyRun p (e f) (scalarLoad n f))) (h : PyGo s p b io) (ho : OwnQueues s.dev b)
  (ha : (xGet (live s p) f.a + f.imm.signExtend 64).toNat % n = 0) (ht : tilePlace (pxAt s.dev p 0 b io) (xGet (live s p) f.a + f.imm.signExtend 64).toNat n = none) : PyFaults (c p f) s b stVfault := by
  have hb : ∃ det, (scalarLoad n f).body (pxAt s.dev p (e f) b io) = .fault (pxAt s.dev p (e f) b io) stVfault det := by
    have e1 : scalarAddr (pxAt s.dev p (e f) b io) f.a f.imm = (xGet (live s p) f.a + f.imm.signExtend 64).toNat := by unfold scalarAddr; rw [pxAt_x]; rfl
    have e2 : elStop (pxAt s.dev p (e f) b io) (xGet (live s p) f.a + f.imm.signExtend 64).toNat n false = some .fault := by
      have : tilePlace (pxAt s.dev p (e f) b io) (xGet (live s p) f.a + f.imm.signExtend 64).toNat n = none := ht
      unfold elStop; rw [this]; rfl
    simp only [scalarLoad, e1, e2, ha]
    exact ⟨_, rfl⟩
  obtain ⟨det, hb⟩ := hb
  exact pyFaults_body hi h ho rfl rfl hb rfl rfl

theorem scalarA_ill {c : PyAt → FmtA → Instr} {lat unit occ : Nat} {op : U64 → U64 → U64} {e : FmtA → U32} {s : State} {p : PyAt} {f : FmtA} {b : Job} {io : JobIo}
  (hi : exec (c p f) s = onDev s (pyRun p (e f) (scalarA lat unit occ op f))) (h : PyReady s.dev p.core p.t b io) (ho : OwnQueues s.dev b)
  (hm : f.m = true ∨ f.k ≠ 0 ∨ f.x ≠ 0) : PyFaults (c p f) s b stIllegalInstr := by
  refine pyFaults_illegal hi h ho ?_
  exact plainA_not hm

theorem st_flt {n : Nat} {e : FmtS → U32} {s : State} {p : PyAt} {f : FmtS} {b : Job} {io : JobIo} {i : Instr}
  (hi : exec i s = onDev s (pyRun p (e f) (scalarStore n f))) (h : PyGo s p b io) (ho : OwnQueues s.dev b) :
  let px := pxAt s.dev p 0 b io
  let a := (xGet (live s p) f.a + f.imm.signExtend 64).toNat
  (a % n ≠ 0 → PyFaults i s b stAlign) ∧ (a % n = 0 → (tilePlace px a n = none ∨ (pageAt px a).isSome) → PyFaults i s b stVfault) := by
  intro px a
  have e1 : scalarAddr (pxAt s.dev p (e f) b io) f.a f.imm = a := by unfold scalarAddr; rw [pxAt_x]; rfl
  constructor
  · intro ha
    have hb : ∃ det, (scalarStore n f).body (pxAt s.dev p (e f) b io) = .fault (pxAt s.dev p (e f) b io) stAlign det := by
        simp only [scalarStore, e1]
        rw [if_pos (by simpa using ha)]
        exact ⟨_, rfl⟩
    obtain ⟨det, hb⟩ := hb
    exact pyFaults_body hi h ho rfl rfl hb rfl rfl
  · intro ha ht
    have hb : ∃ det, (scalarStore n f).body (pxAt s.dev p (e f) b io) = .fault (pxAt s.dev p (e f) b io) stVfault det := by
        have e2 : tilePlace (pxAt s.dev p (e f) b io) a n = tilePlace px a n := rfl
        have e3 : pageAt (pxAt s.dev p (e f) b io) a = pageAt px a := rfl
        simp only [scalarStore, e1, ha, e2, e3]
        rcases ht with ht | ht <;> simp [ht]
    obtain ⟨det, hb⟩ := hb
    exact pyFaults_body hi h ho rfl rfl hb rfl rfl

theorem br_flt {cond : U64 → U64 → Bool} {e : FmtS → U32} {s : State} {p : PyAt} {f : FmtS} {b : Job} {io : JobIo} {i : Instr}
  (hi : exec i s = onDev s (pyRun p (e f) (branch cond f))) (h : PyGo s p b io) (ho : OwnQueues s.dev b)
  (hc : cond (xGet (live s p) f.a) (xGet (live s p) f.b) = true) (hn : ¬ inProgram io ((live s p).pc.toNat + 4 * f.imm.toInt)) : PyFaults i s b stIllegalInstr := by
  have hb : ∃ det, (branch cond f).body (pxAt s.dev p (e f) b io) = .fault (pxAt s.dev p (e f) b io) stIllegalInstr det := by
        refine ⟨((getCore s.dev p.core).live.pc >>> 2), ?_⟩
        show (if cond (xGet (live s p) f.a) (xGet (live s p) f.b) then pyJump (pxAt s.dev p (e f) b io) ((live s p).pc.toNat + 4 * f.imm.toInt) else _) = _
        rw [if_pos hc]
        unfold pyJump
        rw [if_neg]
        · rfl
        · intro hx
          apply hn
          unfold inProgram
          simp only [Bool.and_eq_true, decide_eq_true_eq] at hx
          refine ⟨hx.1, ?_⟩
          have := hx.2
          rw [Int.natCast_add, Int.natCast_mul] at this
          exact this
  obtain ⟨det, hb⟩ := hb
  exact pyFaults_body hi h ho rfl rfl hb rfl rfl

end Sys2Proof.Laws
end

