-- ==== Sys2Proof/Laws/Schemes.lean ====
section
/-!
SUPPORT. Modular programs, and the services of the schemes.
-/
set_option linter.unusedSimpArgs false
set_option linter.unusedVariables false

namespace Sys2Proof.Laws

open Sys2Proof.Machine Sys2Proof.Safety

theorem near_cyc {d dc : Dev} {b bc : Job} (h : Near d dc b bc) (n : Nat) (st det : U16) :
    JobEnds d (finish dc { bc with cycles := n } st det) b st bc.effect ∧ Closes d (finish dc { bc with cycles := n } st det) :=
  (h.job' (b1 := { bc with cycles := n }) rfl rfl rfl rfl rfl rfl rfl).finish st det

theorem mpEnd_ends {d dc : Dev} {b bc : Job} (h : Near d dc b bc) (p : Prog) (r : MpRun) :
    JobEnds d (mpEnd dc bc p r) b stOk bc.effect ∧ Closes d (mpEnd dc bc p r) := by
  unfold mpEnd; exact near_cyc h _ _ _

theorem near_put {d dc : Dev} {b b1 : Job} {j : Nat} (h : Near d dc b b1) (hj : j = b1.id) : Near d (modJob dc j fun _ => b1) b b1 := by
  have hid := h.job.1
  have := h.modJob (fun _ => b1) fun _ _ => hid
  rw [hj, hid]; exact this

/-- What a modular engine holds changes. -/
theorem near_wipes {d dc d1 : Dev} {b bc : Job} (h : Near d dc b bc) (hw : Wipes dc d1) (hm : isMember d1 = isMember dc) : Near d d1 b bc := by
  obtain ⟨⟨m, o, x, c⟩, hl, hd, h1, h2, he, j⟩ := h
  obtain ⟨_, _, _, _, _, rfl⟩ := hw
  exact ⟨⟨hm.trans m, o, x, c⟩, hl, hd, h1, h2, he.trans ⟨_, _, _, _, _, _, _, _, _, _, _, _, _, _, _, rfl⟩, j⟩

theorem modMe_near {d dc : Dev} {b bc : Job} (h : Near d dc b bc) (i : Nat) (f : MeEng → MeEng) : Near d (modMe dc i f) b bc :=
  near_wipes h (modMe_wipes _ _ _) (by unfold modMe; split <;> rfl)

theorem sysPut_near {d dc : Dev} {b bc : Job} (h : Near d dc b bc) (b1 : Job) (p : Prog) : Near d (sysPut dc b1 p) b bc := by
  unfold sysPut; split
  · exact modMe_near h _ _
  · exact h

theorem mpStep_near {d dc : Dev} {b bc : Job} (h : Near d dc b bc) (p : Prog) (r : MpRun) (w : MpWord) :
    Near d (mpStep dc bc p r w).1 b (mpStep dc bc p r w).2 := by
  unfold mpStep
  dsimp only
  split
  · exact near_put ((h.signals (writeOut_signals _ _ _ _ h.own.1)).job' rfl rfl rfl rfl rfl rfl rfl) rfl
  · refine near_put (Near.job' (?_ : Near d (slotPut dc bc p w.d (mpValue dc bc p w)) b bc) rfl rfl rfl rfl rfl rfl rfl) rfl
    unfold slotPut; split
    · exact modMe_near h _ _
    · exact h

theorem mpRunAll_ends {d : Dev} {b : Job} (p : Prog) : ∀ (n : Nat) (dc : Dev) (bc : Job) (r : MpRun), Near d dc b bc →
    ∃ eff, JobEnds d (mpRunAll p n dc bc r) b stOk eff ∧ Closes d (mpRunAll p n dc bc r) := by
  intro n
  induction n with
  | zero => intro dc bc r h; exact ⟨_, mpEnd_ends h p r⟩
  | succ n ih =>
    intro dc bc r h
    unfold mpRunAll
    split
    · exact ⟨_, mpEnd_ends h p r⟩
    · split
      · exact ⟨_, mpEnd_ends h p r⟩
      · exact ih _ _ _ (mpStep_near h p r _)

theorem modRun_run {s : State} {b : Job} (h : JobReady s.dev b.id (isCode 0x6001) b) {d1 : Dev} (hr : modRunRun s.dev b = d1) (P : Dev → Prop) (hp : P d1) :
    Completes (.modRun b.id) s P := by
  refine ⟨_, rfl, rfl, ?_⟩
  show P (service b.id (isCode 0x6001) modRunRun s.dev)
  rw [service_ready h, hr]; exact hp

theorem mp_run {s : State} {e op : Nat} {w : MpWord} {b : Job} {i : Instr} (he : engJob s.dev e = some b) (h : JobReady s.dev b.id (isCode 0x6001) b)
    (hw : w.op.toNat = op) (hi : exec i s = onDev s (mpCommand e op w)) : exec i s = .next { s with dev := mpOneRun w s.dev b } := by
  rw [hi]
  unfold onDev mpCommand
  simp only [he, if_pos hw, service_ready h]

theorem mpStart_near {d dc : Dev} {b bc b1 : Job} {x : Dev × MpRun} (h : Near d dc b bc) (e : mpStart dc b1 = .ok x) : Near d x.1 b bc := by
  unfold mpStart at e
  dsimp only at e
  split at e
  · cases e
  · split at e
    · cases e
    · split at e
      · cases e
      · split at e
        · cases e
        · split at e
          · cases e
          · cases e; exact sysPut_near h _ _

/-- A refusal before any engine. -/
theorem refuseUnplaced_ends {d dc : Dev} {b bc : Job} (h : Near d dc b bc) (st det : U16) :
    JobEnds d (refuseUnplaced dc bc st det) b st bc.effect ∧ Closes d (refuseUnplaced dc bc st det) := by
  unfold refuseUnplaced refuse
  exact (h.job' (b1 := { bc with eng := none, cycles := 0, outLen := 0, result := 0 }) rfl rfl rfl rfl rfl rfl rfl).finish st det

/-- A class 0x1 operation on an ML-KEM set, or a hybrid whose core half is on its core. -/
theorem kem_exec {i : Instr} {s : State} {b : Job} {op : Nat} (run : Dev → Job → Nat → Dev) {d1 : Dev} (hi : exec i s = onDev s (kemService b.id op run))
    (h : JobReady s.dev b.id (isOp 1 op) b) (e : (if isHybrid (opSet b.e.opcode) then hybRun s.dev b else run s.dev b (opSet b.e.opcode)) = d1) :
    exec i s = .next { s with dev := d1 } := by
  have hc : b.coreSaved = false := by
    have := h.ready; unfold jobReady at this
    simp only [Bool.and_eq_true, Bool.not_eq_true'] at this
    exact this.1.1.1.2
  refine serve_to (fun d b => if isHybrid (opSet b.e.opcode) then hybRun d b else run d b (opSet b.e.opcode)) (hi.trans ?_) h e
  unfold kemService onDev
  simp only [h.job, hc, Bool.and_false]
  rfl

theorem hyb_exec {s : State} {b : Job} {ec : Bool} {d1 : Dev} (h : HybridReady s.dev b)
    (e : (if ec then (if b.ecDone.isSome then s.dev else hybEcHalf s.dev b) else if b.coreDone.isSome then s.dev else hybCoreHalf s.dev b) = d1) :
    exec (.hybridHalfDone b.id ec) s = .next { s with dev := d1 } := by
  show onDev s (hybridHalfDoneGo b.id ec) = _
  unfold onDev hybridHalfDoneGo
  have h0 : (opClass b.e.opcode != 1 || !isHybrid (opSet b.e.opcode) || b.phase != Phase.placed) = false := by rw [h.op.1, h.op.2, h.placed]; rfl
  rw [h.job]
  show Host.Outcome.next { s with dev := (if (opClass b.e.opcode != 1 || !isHybrid (opSet b.e.opcode) || b.phase != Phase.placed) = true then s.dev else _) } = _
  rw [h0, h.noAbort]
  show Host.Outcome.next { s with dev := (if (!jobReady { b with coreSaved := false }) = true then s.dev else _) } = _
  rw [h.ready, ← e]; rfl

theorem ecStore {s : State} {b : Job} {d1 : Dev} {r : Bytes} {cyc : Nat} (h : HybridReady s.dev b) (hj : d1.jobs = s.dev.jobs)
    (e : exec (.hybridHalfDone b.id true) s = .next { s with dev := modJob (match b.eng2 with | some c => engineEnd d1 { b with cycles := cyc } c | none => d1) b.id fun x => { x with ecDone := some r, eng2 := none, cycles2 := cyc } }) :
    Completes (.hybridHalfDone b.id true) s fun d' => findJob d' b.id = some { b with ecDone := some r, eng2 := none, cycles2 := cyc } := by
  refine ⟨_, e, rfl, ?_⟩
  refine findJob_modJob_self (b := b) _ ?_ rfl
  have hf := h.job
  unfold findJob at hf ⊢
  cases b.eng2 with
  | none => show List.find? _ d1.jobs.live = _; rw [hj]; exact hf
  | some c =>
    dsimp only
    have he : ∀ x, (engineEnd d1 x c).jobs = d1.jobs := fun x => by obtain ⟨_, _, _, _, _, he⟩ := engineEnd_wipes d1 x c; rw [he]
    rw [he, hj]; exact hf

theorem coreStore {s : State} {b : Job} {r : Bytes} {cyc : Nat} (h : HybridReady s.dev b)
    (e : exec (.hybridHalfDone b.id false) s = .next { s with dev := modJob (match b.eng with | some c => (if b.ecDone.isNone then saveOn s.dev false b c else s.dev) | none => s.dev) b.id fun x =>
        { x with coreDone := some r, coreSaved := b.ecDone.isNone, cycles := cyc, saveCyc := x.saveCyc + (if b.ecDone.isNone then 48 else 0) } }) :
    Completes (.hybridHalfDone b.id false) s fun d' => findJob d' b.id = some
      { b with coreDone := some r, coreSaved := b.ecDone.isNone, cycles := cyc, saveCyc := b.saveCyc + if b.ecDone.isNone then 48 else 0 } := by
  refine ⟨_, e, rfl, ?_⟩
  refine findJob_modJob_self (b := b) _ ?_ rfl
  refine (findJob_jobs ?_).trans h.job
  cases b.eng with
  | none => rfl
  | some c => dsimp only; split
              · exact saveOn_jobs _ _ _ _
              · rfl

/-- A hybrid's EC half draws and computes; it touches no job. -/
theorem ecSecret_jobs (d : Dev) (c : Curve) (k : Nat) (q : Pt) : (ecSecret d c k q).2.jobs = d.jobs := rfl
theorem hybKey_jobs (d : Dev) (set : Nat) : (hybKey d set).2.2.2.jobs = d.jobs := by unfold hybKey; split <;> rfl
theorem hybDh_jobs (d : Dev) (set : Nat) (k u : Bytes) : (hybDh d set k u).2.jobs = d.jobs := by
  unfold hybDh; split
  · rfl
  · split <;> rfl


theorem jIntent_jobs (d : Dev) (b : Job) : (jIntent d b).jobs = d.jobs := by unfold jIntent; cases b.jrn <;> rfl

theorem ssCause_keys (d : Dev) (bits : BitVec 3) (slot : U16) : (ssCause d bits slot).ss.keys = d.ss.keys := by
  obtain ⟨h, a, b, e⟩ := raise_signals { d with ss.event := d.ss.event ||| bits, ss.evSlot := slot } 8 d.ss.event (d.ss.event ||| bits)
  show (raise _ _ _ _).ss.keys = _
  rw [e]

theorem ssLowEvents_keys (d : Dev) (o n : SsKey) (slot : Nat) : (ssLowEvents d o n slot).ss.keys = d.ss.keys := by
  unfold ssLowEvents; dsimp only; split
  · rw [ssCause_keys]; split
    · rw [ssCause_keys]
    · rfl
  · split
    · rw [ssCause_keys]
    · rfl

theorem keygen_rsa {s : State} {b : Job} (h : JobReady s.dev b.id (isOp 5 1) b) (hr : isRsa (opSet b.e.opcode) = true) {d1 : Dev} (e : rsaKeygen s.dev b = d1) :
    exec (.pkKeygen b.id) s = .next { s with dev := d1 } := serve_to pkKeygenRun rfl h (by unfold pkKeygenRun; rw [if_pos hr, e])

theorem rsaSigned_of {i : Instr} {s : State} {d0 : Dev} {b : Job} {em : Option Bytes} (h : exec i s = .next { s with dev := rsaSignEm d0 b em }) :
    RsaSigned i s d0 b em := by
  refine ⟨?_, ?_⟩
  · rintro rfl; exact meRefused_of h
  · rintro x rfl
    refine ⟨fun hx => jobDone_of (next_eq h ?_), fun hx => next_eq h ?_⟩
    · unfold rsaSignEm; exact if_neg (fun hh => hh hx)
    · unfold rsaSignEm; exact if_pos hx

theorem rsaVerified_of {i : Instr} {s : State} {b : Job} {ok : Bytes → Nat → Bool} (h : exec i s = .next { s with dev := rsaVerify s.dev b ok }) :
    RsaVerified i s b ok := by
  refine ⟨fun f hf => meRefused_of (next_eq h ?_), fun hf => verdict_over (next_eq h ?_)⟩
  · unfold rsaVerify; dsimp only; simp only [hf]
  · unfold rsaVerify; dsimp only; simp only [hf]

end Sys2Proof.Laws
end

