-- ==== Sys2Proof/Laws/State.lean ====
section
/-!
SUPPORT. What each update of the device leaves alone: one lemma per field and update, so that no later proof unfolds a record update.
-/
namespace Sys2Proof.Laws.State

open Sys2Proof.Machine

@[simp] theorem setSq_glob (d : Dev) (q : Nat) (v : Sq) : (setSq d q v).glob = d.glob := rfl
@[simp] theorem setSq_hif (d : Dev) (q : Nat) (v : Sq) : (setSq d q v).hif = d.hif := rfl
@[simp] theorem setSq_cqs (d : Dev) (q : Nat) (v : Sq) : (setSq d q v).cqs = d.cqs := rfl
@[simp] theorem setSq_jobs (d : Dev) (q : Nat) (v : Sq) : (setSq d q v).jobs = d.jobs := rfl
@[simp] theorem setSq_jrn (d : Dev) (q : Nat) (v : Sq) : (setSq d q v).jrn = d.jrn := rfl
@[simp] theorem setSq_ks (d : Dev) (q : Nat) (v : Sq) : (setSq d q v).ks = d.ks := rfl
@[simp] theorem setSq_ss (d : Dev) (q : Nat) (v : Sq) : (setSq d q v).ss = d.ss := rfl
@[simp] theorem setSq_own (d : Dev) (q : Nat) (v : Sq) : (setSq d q v).own = d.own := rfl
@[simp] theorem setSq_vfm (d : Dev) (q : Nat) (v : Sq) : (setSq d q v).vfm = d.vfm := rfl
@[simp] theorem setSq_dlr (d : Dev) (q : Nat) (v : Sq) : (setSq d q v).dlr = d.dlr := rfl
@[simp] theorem setSq_engs (d : Dev) (q : Nat) (v : Sq) : (setSq d q v).engs = d.engs := rfl
@[simp] theorem setSq_rng (d : Dev) (q : Nat) (v : Sq) : (setSq d q v).rng = d.rng := rfl
@[simp] theorem setSq_recd (d : Dev) (q : Nat) (v : Sq) : (setSq d q v).recd = d.recd := rfl
@[simp] theorem setSq_amb (d : Dev) (q : Nat) (v : Sq) : (setSq d q v).amb = d.amb := rfl
@[simp] theorem setSq_bdr (d : Dev) (q : Nat) (v : Sq) : (setSq d q v).bdr = d.bdr := rfl
@[simp] theorem setSq_tmon (d : Dev) (q : Nat) (v : Sq) : (setSq d q v).tmon = d.tmon := rfl
@[simp] theorem setSq_jtag (d : Dev) (q : Nat) (v : Sq) : (setSq d q v).jtag = d.jtag := rfl
@[simp] theorem setSq_bist (d : Dev) (q : Nat) (v : Sq) : (setSq d q v).bist = d.bist := rfl
@[simp] theorem setSq_otp (d : Dev) (q : Nat) (v : Sq) : (setSq d q v).otp = d.otp := rfl
@[simp] theorem setSq_lc (d : Dev) (q : Nat) (v : Sq) : (setSq d q v).lc = d.lc := rfl
@[simp] theorem setSq_boot (d : Dev) (q : Nat) (v : Sq) : (setSq d q v).boot = d.boot := rfl
@[simp] theorem setSq_io (d : Dev) (q : Nat) (v : Sq) : (setSq d q v).io = d.io := rfl
@[simp] theorem setSq_cores (d : Dev) (q : Nat) (v : Sq) : (setSq d q v).cores = d.cores := rfl
@[simp] theorem setSq_mes (d : Dev) (q : Nat) (v : Sq) : (setSq d q v).mes = d.mes := rfl
@[simp] theorem setSq_tss (d : Dev) (q : Nat) (v : Sq) : (setSq d q v).tss = d.tss := rfl
@[simp] theorem setSq_parked (d : Dev) (q : Nat) (v : Sq) : (setSq d q v).parked = d.parked := rfl
@[simp] theorem setSq_stores (d : Dev) (q : Nat) (v : Sq) : (setSq d q v).stores = d.stores := rfl
@[simp] theorem setSq_fab (d : Dev) (q : Nat) (v : Sq) : (setSq d q v).fab = d.fab := rfl

@[simp] theorem modSq_glob (d : Dev) (q : Nat) (f : Sq → Sq) : (modSq d q f).glob = d.glob := rfl
@[simp] theorem modSq_hif (d : Dev) (q : Nat) (f : Sq → Sq) : (modSq d q f).hif = d.hif := rfl
@[simp] theorem modSq_cqs (d : Dev) (q : Nat) (f : Sq → Sq) : (modSq d q f).cqs = d.cqs := rfl
@[simp] theorem modSq_jobs (d : Dev) (q : Nat) (f : Sq → Sq) : (modSq d q f).jobs = d.jobs := rfl
@[simp] theorem modSq_jrn (d : Dev) (q : Nat) (f : Sq → Sq) : (modSq d q f).jrn = d.jrn := rfl
@[simp] theorem modSq_ks (d : Dev) (q : Nat) (f : Sq → Sq) : (modSq d q f).ks = d.ks := rfl
@[simp] theorem modSq_ss (d : Dev) (q : Nat) (f : Sq → Sq) : (modSq d q f).ss = d.ss := rfl
@[simp] theorem modSq_own (d : Dev) (q : Nat) (f : Sq → Sq) : (modSq d q f).own = d.own := rfl
@[simp] theorem modSq_vfm (d : Dev) (q : Nat) (f : Sq → Sq) : (modSq d q f).vfm = d.vfm := rfl
@[simp] theorem modSq_dlr (d : Dev) (q : Nat) (f : Sq → Sq) : (modSq d q f).dlr = d.dlr := rfl
@[simp] theorem modSq_engs (d : Dev) (q : Nat) (f : Sq → Sq) : (modSq d q f).engs = d.engs := rfl
@[simp] theorem modSq_rng (d : Dev) (q : Nat) (f : Sq → Sq) : (modSq d q f).rng = d.rng := rfl
@[simp] theorem modSq_recd (d : Dev) (q : Nat) (f : Sq → Sq) : (modSq d q f).recd = d.recd := rfl
@[simp] theorem modSq_amb (d : Dev) (q : Nat) (f : Sq → Sq) : (modSq d q f).amb = d.amb := rfl
@[simp] theorem modSq_bdr (d : Dev) (q : Nat) (f : Sq → Sq) : (modSq d q f).bdr = d.bdr := rfl
@[simp] theorem modSq_tmon (d : Dev) (q : Nat) (f : Sq → Sq) : (modSq d q f).tmon = d.tmon := rfl
@[simp] theorem modSq_jtag (d : Dev) (q : Nat) (f : Sq → Sq) : (modSq d q f).jtag = d.jtag := rfl
@[simp] theorem modSq_bist (d : Dev) (q : Nat) (f : Sq → Sq) : (modSq d q f).bist = d.bist := rfl
@[simp] theorem modSq_otp (d : Dev) (q : Nat) (f : Sq → Sq) : (modSq d q f).otp = d.otp := rfl
@[simp] theorem modSq_lc (d : Dev) (q : Nat) (f : Sq → Sq) : (modSq d q f).lc = d.lc := rfl
@[simp] theorem modSq_boot (d : Dev) (q : Nat) (f : Sq → Sq) : (modSq d q f).boot = d.boot := rfl
@[simp] theorem modSq_io (d : Dev) (q : Nat) (f : Sq → Sq) : (modSq d q f).io = d.io := rfl
@[simp] theorem modSq_cores (d : Dev) (q : Nat) (f : Sq → Sq) : (modSq d q f).cores = d.cores := rfl
@[simp] theorem modSq_mes (d : Dev) (q : Nat) (f : Sq → Sq) : (modSq d q f).mes = d.mes := rfl
@[simp] theorem modSq_tss (d : Dev) (q : Nat) (f : Sq → Sq) : (modSq d q f).tss = d.tss := rfl
@[simp] theorem modSq_parked (d : Dev) (q : Nat) (f : Sq → Sq) : (modSq d q f).parked = d.parked := rfl
@[simp] theorem modSq_stores (d : Dev) (q : Nat) (f : Sq → Sq) : (modSq d q f).stores = d.stores := rfl
@[simp] theorem modSq_fab (d : Dev) (q : Nat) (f : Sq → Sq) : (modSq d q f).fab = d.fab := rfl

@[simp] theorem setCq_glob (d : Dev) (q : Nat) (v : Cq) : (setCq d q v).glob = d.glob := rfl
@[simp] theorem setCq_hif (d : Dev) (q : Nat) (v : Cq) : (setCq d q v).hif = d.hif := rfl
@[simp] theorem setCq_sqs (d : Dev) (q : Nat) (v : Cq) : (setCq d q v).sqs = d.sqs := rfl
@[simp] theorem setCq_jobs (d : Dev) (q : Nat) (v : Cq) : (setCq d q v).jobs = d.jobs := rfl
@[simp] theorem setCq_jrn (d : Dev) (q : Nat) (v : Cq) : (setCq d q v).jrn = d.jrn := rfl
@[simp] theorem setCq_ks (d : Dev) (q : Nat) (v : Cq) : (setCq d q v).ks = d.ks := rfl
@[simp] theorem setCq_ss (d : Dev) (q : Nat) (v : Cq) : (setCq d q v).ss = d.ss := rfl
@[simp] theorem setCq_own (d : Dev) (q : Nat) (v : Cq) : (setCq d q v).own = d.own := rfl
@[simp] theorem setCq_vfm (d : Dev) (q : Nat) (v : Cq) : (setCq d q v).vfm = d.vfm := rfl
@[simp] theorem setCq_dlr (d : Dev) (q : Nat) (v : Cq) : (setCq d q v).dlr = d.dlr := rfl
@[simp] theorem setCq_engs (d : Dev) (q : Nat) (v : Cq) : (setCq d q v).engs = d.engs := rfl
@[simp] theorem setCq_rng (d : Dev) (q : Nat) (v : Cq) : (setCq d q v).rng = d.rng := rfl
@[simp] theorem setCq_recd (d : Dev) (q : Nat) (v : Cq) : (setCq d q v).recd = d.recd := rfl
@[simp] theorem setCq_amb (d : Dev) (q : Nat) (v : Cq) : (setCq d q v).amb = d.amb := rfl
@[simp] theorem setCq_bdr (d : Dev) (q : Nat) (v : Cq) : (setCq d q v).bdr = d.bdr := rfl
@[simp] theorem setCq_tmon (d : Dev) (q : Nat) (v : Cq) : (setCq d q v).tmon = d.tmon := rfl
@[simp] theorem setCq_jtag (d : Dev) (q : Nat) (v : Cq) : (setCq d q v).jtag = d.jtag := rfl
@[simp] theorem setCq_bist (d : Dev) (q : Nat) (v : Cq) : (setCq d q v).bist = d.bist := rfl
@[simp] theorem setCq_otp (d : Dev) (q : Nat) (v : Cq) : (setCq d q v).otp = d.otp := rfl
@[simp] theorem setCq_lc (d : Dev) (q : Nat) (v : Cq) : (setCq d q v).lc = d.lc := rfl
@[simp] theorem setCq_boot (d : Dev) (q : Nat) (v : Cq) : (setCq d q v).boot = d.boot := rfl
@[simp] theorem setCq_io (d : Dev) (q : Nat) (v : Cq) : (setCq d q v).io = d.io := rfl
@[simp] theorem setCq_cores (d : Dev) (q : Nat) (v : Cq) : (setCq d q v).cores = d.cores := rfl
@[simp] theorem setCq_mes (d : Dev) (q : Nat) (v : Cq) : (setCq d q v).mes = d.mes := rfl
@[simp] theorem setCq_tss (d : Dev) (q : Nat) (v : Cq) : (setCq d q v).tss = d.tss := rfl
@[simp] theorem setCq_parked (d : Dev) (q : Nat) (v : Cq) : (setCq d q v).parked = d.parked := rfl
@[simp] theorem setCq_stores (d : Dev) (q : Nat) (v : Cq) : (setCq d q v).stores = d.stores := rfl
@[simp] theorem setCq_fab (d : Dev) (q : Nat) (v : Cq) : (setCq d q v).fab = d.fab := rfl

@[simp] theorem modCq_glob (d : Dev) (q : Nat) (f : Cq → Cq) : (modCq d q f).glob = d.glob := rfl
@[simp] theorem modCq_hif (d : Dev) (q : Nat) (f : Cq → Cq) : (modCq d q f).hif = d.hif := rfl
@[simp] theorem modCq_sqs (d : Dev) (q : Nat) (f : Cq → Cq) : (modCq d q f).sqs = d.sqs := rfl
@[simp] theorem modCq_jobs (d : Dev) (q : Nat) (f : Cq → Cq) : (modCq d q f).jobs = d.jobs := rfl
@[simp] theorem modCq_jrn (d : Dev) (q : Nat) (f : Cq → Cq) : (modCq d q f).jrn = d.jrn := rfl
@[simp] theorem modCq_ks (d : Dev) (q : Nat) (f : Cq → Cq) : (modCq d q f).ks = d.ks := rfl
@[simp] theorem modCq_ss (d : Dev) (q : Nat) (f : Cq → Cq) : (modCq d q f).ss = d.ss := rfl
@[simp] theorem modCq_own (d : Dev) (q : Nat) (f : Cq → Cq) : (modCq d q f).own = d.own := rfl
@[simp] theorem modCq_vfm (d : Dev) (q : Nat) (f : Cq → Cq) : (modCq d q f).vfm = d.vfm := rfl
@[simp] theorem modCq_dlr (d : Dev) (q : Nat) (f : Cq → Cq) : (modCq d q f).dlr = d.dlr := rfl
@[simp] theorem modCq_engs (d : Dev) (q : Nat) (f : Cq → Cq) : (modCq d q f).engs = d.engs := rfl
@[simp] theorem modCq_rng (d : Dev) (q : Nat) (f : Cq → Cq) : (modCq d q f).rng = d.rng := rfl
@[simp] theorem modCq_recd (d : Dev) (q : Nat) (f : Cq → Cq) : (modCq d q f).recd = d.recd := rfl
@[simp] theorem modCq_amb (d : Dev) (q : Nat) (f : Cq → Cq) : (modCq d q f).amb = d.amb := rfl
@[simp] theorem modCq_bdr (d : Dev) (q : Nat) (f : Cq → Cq) : (modCq d q f).bdr = d.bdr := rfl
@[simp] theorem modCq_tmon (d : Dev) (q : Nat) (f : Cq → Cq) : (modCq d q f).tmon = d.tmon := rfl
@[simp] theorem modCq_jtag (d : Dev) (q : Nat) (f : Cq → Cq) : (modCq d q f).jtag = d.jtag := rfl
@[simp] theorem modCq_bist (d : Dev) (q : Nat) (f : Cq → Cq) : (modCq d q f).bist = d.bist := rfl
@[simp] theorem modCq_otp (d : Dev) (q : Nat) (f : Cq → Cq) : (modCq d q f).otp = d.otp := rfl
@[simp] theorem modCq_lc (d : Dev) (q : Nat) (f : Cq → Cq) : (modCq d q f).lc = d.lc := rfl
@[simp] theorem modCq_boot (d : Dev) (q : Nat) (f : Cq → Cq) : (modCq d q f).boot = d.boot := rfl
@[simp] theorem modCq_io (d : Dev) (q : Nat) (f : Cq → Cq) : (modCq d q f).io = d.io := rfl
@[simp] theorem modCq_cores (d : Dev) (q : Nat) (f : Cq → Cq) : (modCq d q f).cores = d.cores := rfl
@[simp] theorem modCq_mes (d : Dev) (q : Nat) (f : Cq → Cq) : (modCq d q f).mes = d.mes := rfl
@[simp] theorem modCq_tss (d : Dev) (q : Nat) (f : Cq → Cq) : (modCq d q f).tss = d.tss := rfl
@[simp] theorem modCq_parked (d : Dev) (q : Nat) (f : Cq → Cq) : (modCq d q f).parked = d.parked := rfl
@[simp] theorem modCq_stores (d : Dev) (q : Nat) (f : Cq → Cq) : (modCq d q f).stores = d.stores := rfl
@[simp] theorem modCq_fab (d : Dev) (q : Nat) (f : Cq → Cq) : (modCq d q f).fab = d.fab := rfl

@[simp] theorem setOwn_glob (d : Dev) (o : Nat) (v : Own) : (setOwn d o v).glob = d.glob := rfl
@[simp] theorem setOwn_hif (d : Dev) (o : Nat) (v : Own) : (setOwn d o v).hif = d.hif := rfl
@[simp] theorem setOwn_sqs (d : Dev) (o : Nat) (v : Own) : (setOwn d o v).sqs = d.sqs := rfl
@[simp] theorem setOwn_cqs (d : Dev) (o : Nat) (v : Own) : (setOwn d o v).cqs = d.cqs := rfl
@[simp] theorem setOwn_jobs (d : Dev) (o : Nat) (v : Own) : (setOwn d o v).jobs = d.jobs := rfl
@[simp] theorem setOwn_jrn (d : Dev) (o : Nat) (v : Own) : (setOwn d o v).jrn = d.jrn := rfl
@[simp] theorem setOwn_ks (d : Dev) (o : Nat) (v : Own) : (setOwn d o v).ks = d.ks := rfl
@[simp] theorem setOwn_ss (d : Dev) (o : Nat) (v : Own) : (setOwn d o v).ss = d.ss := rfl
@[simp] theorem setOwn_vfm (d : Dev) (o : Nat) (v : Own) : (setOwn d o v).vfm = d.vfm := rfl
@[simp] theorem setOwn_dlr (d : Dev) (o : Nat) (v : Own) : (setOwn d o v).dlr = d.dlr := rfl
@[simp] theorem setOwn_engs (d : Dev) (o : Nat) (v : Own) : (setOwn d o v).engs = d.engs := rfl
@[simp] theorem setOwn_rng (d : Dev) (o : Nat) (v : Own) : (setOwn d o v).rng = d.rng := rfl
@[simp] theorem setOwn_recd (d : Dev) (o : Nat) (v : Own) : (setOwn d o v).recd = d.recd := rfl
@[simp] theorem setOwn_amb (d : Dev) (o : Nat) (v : Own) : (setOwn d o v).amb = d.amb := rfl
@[simp] theorem setOwn_bdr (d : Dev) (o : Nat) (v : Own) : (setOwn d o v).bdr = d.bdr := rfl
@[simp] theorem setOwn_tmon (d : Dev) (o : Nat) (v : Own) : (setOwn d o v).tmon = d.tmon := rfl
@[simp] theorem setOwn_jtag (d : Dev) (o : Nat) (v : Own) : (setOwn d o v).jtag = d.jtag := rfl
@[simp] theorem setOwn_bist (d : Dev) (o : Nat) (v : Own) : (setOwn d o v).bist = d.bist := rfl
@[simp] theorem setOwn_otp (d : Dev) (o : Nat) (v : Own) : (setOwn d o v).otp = d.otp := rfl
@[simp] theorem setOwn_lc (d : Dev) (o : Nat) (v : Own) : (setOwn d o v).lc = d.lc := rfl
@[simp] theorem setOwn_boot (d : Dev) (o : Nat) (v : Own) : (setOwn d o v).boot = d.boot := rfl
@[simp] theorem setOwn_io (d : Dev) (o : Nat) (v : Own) : (setOwn d o v).io = d.io := rfl
@[simp] theorem setOwn_cores (d : Dev) (o : Nat) (v : Own) : (setOwn d o v).cores = d.cores := rfl
@[simp] theorem setOwn_mes (d : Dev) (o : Nat) (v : Own) : (setOwn d o v).mes = d.mes := rfl
@[simp] theorem setOwn_tss (d : Dev) (o : Nat) (v : Own) : (setOwn d o v).tss = d.tss := rfl
@[simp] theorem setOwn_parked (d : Dev) (o : Nat) (v : Own) : (setOwn d o v).parked = d.parked := rfl
@[simp] theorem setOwn_stores (d : Dev) (o : Nat) (v : Own) : (setOwn d o v).stores = d.stores := rfl
@[simp] theorem setOwn_fab (d : Dev) (o : Nat) (v : Own) : (setOwn d o v).fab = d.fab := rfl

@[simp] theorem modOwn_glob (d : Dev) (o : Nat) (f : Own → Own) : (modOwn d o f).glob = d.glob := rfl
@[simp] theorem modOwn_hif (d : Dev) (o : Nat) (f : Own → Own) : (modOwn d o f).hif = d.hif := rfl
@[simp] theorem modOwn_sqs (d : Dev) (o : Nat) (f : Own → Own) : (modOwn d o f).sqs = d.sqs := rfl
@[simp] theorem modOwn_cqs (d : Dev) (o : Nat) (f : Own → Own) : (modOwn d o f).cqs = d.cqs := rfl
@[simp] theorem modOwn_jobs (d : Dev) (o : Nat) (f : Own → Own) : (modOwn d o f).jobs = d.jobs := rfl
@[simp] theorem modOwn_jrn (d : Dev) (o : Nat) (f : Own → Own) : (modOwn d o f).jrn = d.jrn := rfl
@[simp] theorem modOwn_ks (d : Dev) (o : Nat) (f : Own → Own) : (modOwn d o f).ks = d.ks := rfl
@[simp] theorem modOwn_ss (d : Dev) (o : Nat) (f : Own → Own) : (modOwn d o f).ss = d.ss := rfl
@[simp] theorem modOwn_vfm (d : Dev) (o : Nat) (f : Own → Own) : (modOwn d o f).vfm = d.vfm := rfl
@[simp] theorem modOwn_dlr (d : Dev) (o : Nat) (f : Own → Own) : (modOwn d o f).dlr = d.dlr := rfl
@[simp] theorem modOwn_engs (d : Dev) (o : Nat) (f : Own → Own) : (modOwn d o f).engs = d.engs := rfl
@[simp] theorem modOwn_rng (d : Dev) (o : Nat) (f : Own → Own) : (modOwn d o f).rng = d.rng := rfl
@[simp] theorem modOwn_recd (d : Dev) (o : Nat) (f : Own → Own) : (modOwn d o f).recd = d.recd := rfl
@[simp] theorem modOwn_amb (d : Dev) (o : Nat) (f : Own → Own) : (modOwn d o f).amb = d.amb := rfl
@[simp] theorem modOwn_bdr (d : Dev) (o : Nat) (f : Own → Own) : (modOwn d o f).bdr = d.bdr := rfl
@[simp] theorem modOwn_tmon (d : Dev) (o : Nat) (f : Own → Own) : (modOwn d o f).tmon = d.tmon := rfl
@[simp] theorem modOwn_jtag (d : Dev) (o : Nat) (f : Own → Own) : (modOwn d o f).jtag = d.jtag := rfl
@[simp] theorem modOwn_bist (d : Dev) (o : Nat) (f : Own → Own) : (modOwn d o f).bist = d.bist := rfl
@[simp] theorem modOwn_otp (d : Dev) (o : Nat) (f : Own → Own) : (modOwn d o f).otp = d.otp := rfl
@[simp] theorem modOwn_lc (d : Dev) (o : Nat) (f : Own → Own) : (modOwn d o f).lc = d.lc := rfl
@[simp] theorem modOwn_boot (d : Dev) (o : Nat) (f : Own → Own) : (modOwn d o f).boot = d.boot := rfl
@[simp] theorem modOwn_io (d : Dev) (o : Nat) (f : Own → Own) : (modOwn d o f).io = d.io := rfl
@[simp] theorem modOwn_cores (d : Dev) (o : Nat) (f : Own → Own) : (modOwn d o f).cores = d.cores := rfl
@[simp] theorem modOwn_mes (d : Dev) (o : Nat) (f : Own → Own) : (modOwn d o f).mes = d.mes := rfl
@[simp] theorem modOwn_tss (d : Dev) (o : Nat) (f : Own → Own) : (modOwn d o f).tss = d.tss := rfl
@[simp] theorem modOwn_parked (d : Dev) (o : Nat) (f : Own → Own) : (modOwn d o f).parked = d.parked := rfl
@[simp] theorem modOwn_stores (d : Dev) (o : Nat) (f : Own → Own) : (modOwn d o f).stores = d.stores := rfl
@[simp] theorem modOwn_fab (d : Dev) (o : Nat) (f : Own → Own) : (modOwn d o f).fab = d.fab := rfl

@[simp] theorem setFn_glob (d : Dev) (n : Nat) (v : Fn) : (setFn d n v).glob = d.glob := rfl
@[simp] theorem setFn_sqs (d : Dev) (n : Nat) (v : Fn) : (setFn d n v).sqs = d.sqs := rfl
@[simp] theorem setFn_cqs (d : Dev) (n : Nat) (v : Fn) : (setFn d n v).cqs = d.cqs := rfl
@[simp] theorem setFn_jobs (d : Dev) (n : Nat) (v : Fn) : (setFn d n v).jobs = d.jobs := rfl
@[simp] theorem setFn_jrn (d : Dev) (n : Nat) (v : Fn) : (setFn d n v).jrn = d.jrn := rfl
@[simp] theorem setFn_ks (d : Dev) (n : Nat) (v : Fn) : (setFn d n v).ks = d.ks := rfl
@[simp] theorem setFn_ss (d : Dev) (n : Nat) (v : Fn) : (setFn d n v).ss = d.ss := rfl
@[simp] theorem setFn_own (d : Dev) (n : Nat) (v : Fn) : (setFn d n v).own = d.own := rfl
@[simp] theorem setFn_vfm (d : Dev) (n : Nat) (v : Fn) : (setFn d n v).vfm = d.vfm := rfl
@[simp] theorem setFn_dlr (d : Dev) (n : Nat) (v : Fn) : (setFn d n v).dlr = d.dlr := rfl
@[simp] theorem setFn_engs (d : Dev) (n : Nat) (v : Fn) : (setFn d n v).engs = d.engs := rfl
@[simp] theorem setFn_rng (d : Dev) (n : Nat) (v : Fn) : (setFn d n v).rng = d.rng := rfl
@[simp] theorem setFn_recd (d : Dev) (n : Nat) (v : Fn) : (setFn d n v).recd = d.recd := rfl
@[simp] theorem setFn_amb (d : Dev) (n : Nat) (v : Fn) : (setFn d n v).amb = d.amb := rfl
@[simp] theorem setFn_bdr (d : Dev) (n : Nat) (v : Fn) : (setFn d n v).bdr = d.bdr := rfl
@[simp] theorem setFn_tmon (d : Dev) (n : Nat) (v : Fn) : (setFn d n v).tmon = d.tmon := rfl
@[simp] theorem setFn_jtag (d : Dev) (n : Nat) (v : Fn) : (setFn d n v).jtag = d.jtag := rfl
@[simp] theorem setFn_bist (d : Dev) (n : Nat) (v : Fn) : (setFn d n v).bist = d.bist := rfl
@[simp] theorem setFn_otp (d : Dev) (n : Nat) (v : Fn) : (setFn d n v).otp = d.otp := rfl
@[simp] theorem setFn_lc (d : Dev) (n : Nat) (v : Fn) : (setFn d n v).lc = d.lc := rfl
@[simp] theorem setFn_boot (d : Dev) (n : Nat) (v : Fn) : (setFn d n v).boot = d.boot := rfl
@[simp] theorem setFn_io (d : Dev) (n : Nat) (v : Fn) : (setFn d n v).io = d.io := rfl
@[simp] theorem setFn_cores (d : Dev) (n : Nat) (v : Fn) : (setFn d n v).cores = d.cores := rfl
@[simp] theorem setFn_mes (d : Dev) (n : Nat) (v : Fn) : (setFn d n v).mes = d.mes := rfl
@[simp] theorem setFn_tss (d : Dev) (n : Nat) (v : Fn) : (setFn d n v).tss = d.tss := rfl
@[simp] theorem setFn_parked (d : Dev) (n : Nat) (v : Fn) : (setFn d n v).parked = d.parked := rfl
@[simp] theorem setFn_stores (d : Dev) (n : Nat) (v : Fn) : (setFn d n v).stores = d.stores := rfl
@[simp] theorem setFn_fab (d : Dev) (n : Nat) (v : Fn) : (setFn d n v).fab = d.fab := rfl

@[simp] theorem setVec_glob (d : Dev) (n v : Nat) (x : Vec) : (setVec d n v x).glob = d.glob := rfl
@[simp] theorem setVec_sqs (d : Dev) (n v : Nat) (x : Vec) : (setVec d n v x).sqs = d.sqs := rfl
@[simp] theorem setVec_cqs (d : Dev) (n v : Nat) (x : Vec) : (setVec d n v x).cqs = d.cqs := rfl
@[simp] theorem setVec_jobs (d : Dev) (n v : Nat) (x : Vec) : (setVec d n v x).jobs = d.jobs := rfl
@[simp] theorem setVec_jrn (d : Dev) (n v : Nat) (x : Vec) : (setVec d n v x).jrn = d.jrn := rfl
@[simp] theorem setVec_ks (d : Dev) (n v : Nat) (x : Vec) : (setVec d n v x).ks = d.ks := rfl
@[simp] theorem setVec_ss (d : Dev) (n v : Nat) (x : Vec) : (setVec d n v x).ss = d.ss := rfl
@[simp] theorem setVec_own (d : Dev) (n v : Nat) (x : Vec) : (setVec d n v x).own = d.own := rfl
@[simp] theorem setVec_vfm (d : Dev) (n v : Nat) (x : Vec) : (setVec d n v x).vfm = d.vfm := rfl
@[simp] theorem setVec_dlr (d : Dev) (n v : Nat) (x : Vec) : (setVec d n v x).dlr = d.dlr := rfl
@[simp] theorem setVec_engs (d : Dev) (n v : Nat) (x : Vec) : (setVec d n v x).engs = d.engs := rfl
@[simp] theorem setVec_rng (d : Dev) (n v : Nat) (x : Vec) : (setVec d n v x).rng = d.rng := rfl
@[simp] theorem setVec_recd (d : Dev) (n v : Nat) (x : Vec) : (setVec d n v x).recd = d.recd := rfl
@[simp] theorem setVec_amb (d : Dev) (n v : Nat) (x : Vec) : (setVec d n v x).amb = d.amb := rfl
@[simp] theorem setVec_bdr (d : Dev) (n v : Nat) (x : Vec) : (setVec d n v x).bdr = d.bdr := rfl
@[simp] theorem setVec_tmon (d : Dev) (n v : Nat) (x : Vec) : (setVec d n v x).tmon = d.tmon := rfl
@[simp] theorem setVec_jtag (d : Dev) (n v : Nat) (x : Vec) : (setVec d n v x).jtag = d.jtag := rfl
@[simp] theorem setVec_bist (d : Dev) (n v : Nat) (x : Vec) : (setVec d n v x).bist = d.bist := rfl
@[simp] theorem setVec_otp (d : Dev) (n v : Nat) (x : Vec) : (setVec d n v x).otp = d.otp := rfl
@[simp] theorem setVec_lc (d : Dev) (n v : Nat) (x : Vec) : (setVec d n v x).lc = d.lc := rfl
@[simp] theorem setVec_boot (d : Dev) (n v : Nat) (x : Vec) : (setVec d n v x).boot = d.boot := rfl
@[simp] theorem setVec_io (d : Dev) (n v : Nat) (x : Vec) : (setVec d n v x).io = d.io := rfl
@[simp] theorem setVec_cores (d : Dev) (n v : Nat) (x : Vec) : (setVec d n v x).cores = d.cores := rfl
@[simp] theorem setVec_mes (d : Dev) (n v : Nat) (x : Vec) : (setVec d n v x).mes = d.mes := rfl
@[simp] theorem setVec_tss (d : Dev) (n v : Nat) (x : Vec) : (setVec d n v x).tss = d.tss := rfl
@[simp] theorem setVec_parked (d : Dev) (n v : Nat) (x : Vec) : (setVec d n v x).parked = d.parked := rfl
@[simp] theorem setVec_stores (d : Dev) (n v : Nat) (x : Vec) : (setVec d n v x).stores = d.stores := rfl
@[simp] theorem setVec_fab (d : Dev) (n v : Nat) (x : Vec) : (setVec d n v x).fab = d.fab := rfl

@[simp] theorem modEng_glob (d : Dev) (c : Nat) (f : EngReg → EngReg) : (modEng d c f).glob = d.glob := by unfold modEng; split <;> rfl
@[simp] theorem modEng_hif (d : Dev) (c : Nat) (f : EngReg → EngReg) : (modEng d c f).hif = d.hif := by unfold modEng; split <;> rfl
@[simp] theorem modEng_sqs (d : Dev) (c : Nat) (f : EngReg → EngReg) : (modEng d c f).sqs = d.sqs := by unfold modEng; split <;> rfl
@[simp] theorem modEng_cqs (d : Dev) (c : Nat) (f : EngReg → EngReg) : (modEng d c f).cqs = d.cqs := by unfold modEng; split <;> rfl
@[simp] theorem modEng_jobs (d : Dev) (c : Nat) (f : EngReg → EngReg) : (modEng d c f).jobs = d.jobs := by unfold modEng; split <;> rfl
@[simp] theorem modEng_jrn (d : Dev) (c : Nat) (f : EngReg → EngReg) : (modEng d c f).jrn = d.jrn := by unfold modEng; split <;> rfl
@[simp] theorem modEng_ks (d : Dev) (c : Nat) (f : EngReg → EngReg) : (modEng d c f).ks = d.ks := by unfold modEng; split <;> rfl
@[simp] theorem modEng_ss (d : Dev) (c : Nat) (f : EngReg → EngReg) : (modEng d c f).ss = d.ss := by unfold modEng; split <;> rfl
@[simp] theorem modEng_own (d : Dev) (c : Nat) (f : EngReg → EngReg) : (modEng d c f).own = d.own := by unfold modEng; split <;> rfl
@[simp] theorem modEng_vfm (d : Dev) (c : Nat) (f : EngReg → EngReg) : (modEng d c f).vfm = d.vfm := by unfold modEng; split <;> rfl
@[simp] theorem modEng_dlr (d : Dev) (c : Nat) (f : EngReg → EngReg) : (modEng d c f).dlr = d.dlr := by unfold modEng; split <;> rfl
@[simp] theorem modEng_rng (d : Dev) (c : Nat) (f : EngReg → EngReg) : (modEng d c f).rng = d.rng := by unfold modEng; split <;> rfl
@[simp] theorem modEng_recd (d : Dev) (c : Nat) (f : EngReg → EngReg) : (modEng d c f).recd = d.recd := by unfold modEng; split <;> rfl
@[simp] theorem modEng_amb (d : Dev) (c : Nat) (f : EngReg → EngReg) : (modEng d c f).amb = d.amb := by unfold modEng; split <;> rfl
@[simp] theorem modEng_bdr (d : Dev) (c : Nat) (f : EngReg → EngReg) : (modEng d c f).bdr = d.bdr := by unfold modEng; split <;> rfl
@[simp] theorem modEng_tmon (d : Dev) (c : Nat) (f : EngReg → EngReg) : (modEng d c f).tmon = d.tmon := by unfold modEng; split <;> rfl
@[simp] theorem modEng_jtag (d : Dev) (c : Nat) (f : EngReg → EngReg) : (modEng d c f).jtag = d.jtag := by unfold modEng; split <;> rfl
@[simp] theorem modEng_bist (d : Dev) (c : Nat) (f : EngReg → EngReg) : (modEng d c f).bist = d.bist := by unfold modEng; split <;> rfl
@[simp] theorem modEng_otp (d : Dev) (c : Nat) (f : EngReg → EngReg) : (modEng d c f).otp = d.otp := by unfold modEng; split <;> rfl
@[simp] theorem modEng_lc (d : Dev) (c : Nat) (f : EngReg → EngReg) : (modEng d c f).lc = d.lc := by unfold modEng; split <;> rfl
@[simp] theorem modEng_boot (d : Dev) (c : Nat) (f : EngReg → EngReg) : (modEng d c f).boot = d.boot := by unfold modEng; split <;> rfl
@[simp] theorem modEng_io (d : Dev) (c : Nat) (f : EngReg → EngReg) : (modEng d c f).io = d.io := by unfold modEng; split <;> rfl
@[simp] theorem modEng_cores (d : Dev) (c : Nat) (f : EngReg → EngReg) : (modEng d c f).cores = d.cores := by unfold modEng; split <;> rfl
@[simp] theorem modEng_mes (d : Dev) (c : Nat) (f : EngReg → EngReg) : (modEng d c f).mes = d.mes := by unfold modEng; split <;> rfl
@[simp] theorem modEng_tss (d : Dev) (c : Nat) (f : EngReg → EngReg) : (modEng d c f).tss = d.tss := by unfold modEng; split <;> rfl
@[simp] theorem modEng_parked (d : Dev) (c : Nat) (f : EngReg → EngReg) : (modEng d c f).parked = d.parked := by unfold modEng; split <;> rfl
@[simp] theorem modEng_stores (d : Dev) (c : Nat) (f : EngReg → EngReg) : (modEng d c f).stores = d.stores := by unfold modEng; split <;> rfl
@[simp] theorem modEng_fab (d : Dev) (c : Nat) (f : EngReg → EngReg) : (modEng d c f).fab = d.fab := by unfold modEng; split <;> rfl

@[simp] theorem modJob_glob (d : Dev) (j : Nat) (f : Job → Job) : (modJob d j f).glob = d.glob := rfl
@[simp] theorem modJob_hif (d : Dev) (j : Nat) (f : Job → Job) : (modJob d j f).hif = d.hif := rfl
@[simp] theorem modJob_sqs (d : Dev) (j : Nat) (f : Job → Job) : (modJob d j f).sqs = d.sqs := rfl
@[simp] theorem modJob_cqs (d : Dev) (j : Nat) (f : Job → Job) : (modJob d j f).cqs = d.cqs := rfl
@[simp] theorem modJob_jrn (d : Dev) (j : Nat) (f : Job → Job) : (modJob d j f).jrn = d.jrn := rfl
@[simp] theorem modJob_ks (d : Dev) (j : Nat) (f : Job → Job) : (modJob d j f).ks = d.ks := rfl
@[simp] theorem modJob_ss (d : Dev) (j : Nat) (f : Job → Job) : (modJob d j f).ss = d.ss := rfl
@[simp] theorem modJob_own (d : Dev) (j : Nat) (f : Job → Job) : (modJob d j f).own = d.own := rfl
@[simp] theorem modJob_vfm (d : Dev) (j : Nat) (f : Job → Job) : (modJob d j f).vfm = d.vfm := rfl
@[simp] theorem modJob_dlr (d : Dev) (j : Nat) (f : Job → Job) : (modJob d j f).dlr = d.dlr := rfl
@[simp] theorem modJob_engs (d : Dev) (j : Nat) (f : Job → Job) : (modJob d j f).engs = d.engs := rfl
@[simp] theorem modJob_rng (d : Dev) (j : Nat) (f : Job → Job) : (modJob d j f).rng = d.rng := rfl
@[simp] theorem modJob_recd (d : Dev) (j : Nat) (f : Job → Job) : (modJob d j f).recd = d.recd := rfl
@[simp] theorem modJob_amb (d : Dev) (j : Nat) (f : Job → Job) : (modJob d j f).amb = d.amb := rfl
@[simp] theorem modJob_bdr (d : Dev) (j : Nat) (f : Job → Job) : (modJob d j f).bdr = d.bdr := rfl
@[simp] theorem modJob_tmon (d : Dev) (j : Nat) (f : Job → Job) : (modJob d j f).tmon = d.tmon := rfl
@[simp] theorem modJob_jtag (d : Dev) (j : Nat) (f : Job → Job) : (modJob d j f).jtag = d.jtag := rfl
@[simp] theorem modJob_bist (d : Dev) (j : Nat) (f : Job → Job) : (modJob d j f).bist = d.bist := rfl
@[simp] theorem modJob_otp (d : Dev) (j : Nat) (f : Job → Job) : (modJob d j f).otp = d.otp := rfl
@[simp] theorem modJob_lc (d : Dev) (j : Nat) (f : Job → Job) : (modJob d j f).lc = d.lc := rfl
@[simp] theorem modJob_boot (d : Dev) (j : Nat) (f : Job → Job) : (modJob d j f).boot = d.boot := rfl
@[simp] theorem modJob_io (d : Dev) (j : Nat) (f : Job → Job) : (modJob d j f).io = d.io := rfl
@[simp] theorem modJob_cores (d : Dev) (j : Nat) (f : Job → Job) : (modJob d j f).cores = d.cores := rfl
@[simp] theorem modJob_mes (d : Dev) (j : Nat) (f : Job → Job) : (modJob d j f).mes = d.mes := rfl
@[simp] theorem modJob_tss (d : Dev) (j : Nat) (f : Job → Job) : (modJob d j f).tss = d.tss := rfl
@[simp] theorem modJob_parked (d : Dev) (j : Nat) (f : Job → Job) : (modJob d j f).parked = d.parked := rfl
@[simp] theorem modJob_stores (d : Dev) (j : Nat) (f : Job → Job) : (modJob d j f).stores = d.stores := rfl
@[simp] theorem modJob_fab (d : Dev) (j : Nat) (f : Job → Job) : (modJob d j f).fab = d.fab := rfl

@[simp] theorem modStore_glob (d : Dev) (u : Nat) (f : UStore → UStore) : (modStore d u f).glob = d.glob := by unfold modStore; split <;> rfl
@[simp] theorem modStore_hif (d : Dev) (u : Nat) (f : UStore → UStore) : (modStore d u f).hif = d.hif := by unfold modStore; split <;> rfl
@[simp] theorem modStore_sqs (d : Dev) (u : Nat) (f : UStore → UStore) : (modStore d u f).sqs = d.sqs := by unfold modStore; split <;> rfl
@[simp] theorem modStore_cqs (d : Dev) (u : Nat) (f : UStore → UStore) : (modStore d u f).cqs = d.cqs := by unfold modStore; split <;> rfl
@[simp] theorem modStore_jobs (d : Dev) (u : Nat) (f : UStore → UStore) : (modStore d u f).jobs = d.jobs := by unfold modStore; split <;> rfl
@[simp] theorem modStore_jrn (d : Dev) (u : Nat) (f : UStore → UStore) : (modStore d u f).jrn = d.jrn := by unfold modStore; split <;> rfl
@[simp] theorem modStore_ks (d : Dev) (u : Nat) (f : UStore → UStore) : (modStore d u f).ks = d.ks := by unfold modStore; split <;> rfl
@[simp] theorem modStore_ss (d : Dev) (u : Nat) (f : UStore → UStore) : (modStore d u f).ss = d.ss := by unfold modStore; split <;> rfl
@[simp] theorem modStore_own (d : Dev) (u : Nat) (f : UStore → UStore) : (modStore d u f).own = d.own := by unfold modStore; split <;> rfl
@[simp] theorem modStore_vfm (d : Dev) (u : Nat) (f : UStore → UStore) : (modStore d u f).vfm = d.vfm := by unfold modStore; split <;> rfl
@[simp] theorem modStore_dlr (d : Dev) (u : Nat) (f : UStore → UStore) : (modStore d u f).dlr = d.dlr := by unfold modStore; split <;> rfl
@[simp] theorem modStore_engs (d : Dev) (u : Nat) (f : UStore → UStore) : (modStore d u f).engs = d.engs := by unfold modStore; split <;> rfl
@[simp] theorem modStore_rng (d : Dev) (u : Nat) (f : UStore → UStore) : (modStore d u f).rng = d.rng := by unfold modStore; split <;> rfl
@[simp] theorem modStore_recd (d : Dev) (u : Nat) (f : UStore → UStore) : (modStore d u f).recd = d.recd := by unfold modStore; split <;> rfl
@[simp] theorem modStore_amb (d : Dev) (u : Nat) (f : UStore → UStore) : (modStore d u f).amb = d.amb := by unfold modStore; split <;> rfl
@[simp] theorem modStore_bdr (d : Dev) (u : Nat) (f : UStore → UStore) : (modStore d u f).bdr = d.bdr := by unfold modStore; split <;> rfl
@[simp] theorem modStore_tmon (d : Dev) (u : Nat) (f : UStore → UStore) : (modStore d u f).tmon = d.tmon := by unfold modStore; split <;> rfl
@[simp] theorem modStore_jtag (d : Dev) (u : Nat) (f : UStore → UStore) : (modStore d u f).jtag = d.jtag := by unfold modStore; split <;> rfl
@[simp] theorem modStore_bist (d : Dev) (u : Nat) (f : UStore → UStore) : (modStore d u f).bist = d.bist := by unfold modStore; split <;> rfl
@[simp] theorem modStore_otp (d : Dev) (u : Nat) (f : UStore → UStore) : (modStore d u f).otp = d.otp := by unfold modStore; split <;> rfl
@[simp] theorem modStore_lc (d : Dev) (u : Nat) (f : UStore → UStore) : (modStore d u f).lc = d.lc := by unfold modStore; split <;> rfl
@[simp] theorem modStore_boot (d : Dev) (u : Nat) (f : UStore → UStore) : (modStore d u f).boot = d.boot := by unfold modStore; split <;> rfl
@[simp] theorem modStore_io (d : Dev) (u : Nat) (f : UStore → UStore) : (modStore d u f).io = d.io := by unfold modStore; split <;> rfl
@[simp] theorem modStore_cores (d : Dev) (u : Nat) (f : UStore → UStore) : (modStore d u f).cores = d.cores := by unfold modStore; split <;> rfl
@[simp] theorem modStore_mes (d : Dev) (u : Nat) (f : UStore → UStore) : (modStore d u f).mes = d.mes := by unfold modStore; split <;> rfl
@[simp] theorem modStore_tss (d : Dev) (u : Nat) (f : UStore → UStore) : (modStore d u f).tss = d.tss := by unfold modStore; split <;> rfl
@[simp] theorem modStore_parked (d : Dev) (u : Nat) (f : UStore → UStore) : (modStore d u f).parked = d.parked := by unfold modStore; split <;> rfl
@[simp] theorem modStore_fab (d : Dev) (u : Nat) (f : UStore → UStore) : (modStore d u f).fab = d.fab := by unfold modStore; split <;> rfl

@[simp] theorem setJ_glob (d : Dev) (k : Nat) (e : JEntry) : (setJ d k e).glob = d.glob := rfl
@[simp] theorem setJ_hif (d : Dev) (k : Nat) (e : JEntry) : (setJ d k e).hif = d.hif := rfl
@[simp] theorem setJ_sqs (d : Dev) (k : Nat) (e : JEntry) : (setJ d k e).sqs = d.sqs := rfl
@[simp] theorem setJ_cqs (d : Dev) (k : Nat) (e : JEntry) : (setJ d k e).cqs = d.cqs := rfl
@[simp] theorem setJ_jobs (d : Dev) (k : Nat) (e : JEntry) : (setJ d k e).jobs = d.jobs := rfl
@[simp] theorem setJ_ks (d : Dev) (k : Nat) (e : JEntry) : (setJ d k e).ks = d.ks := rfl
@[simp] theorem setJ_ss (d : Dev) (k : Nat) (e : JEntry) : (setJ d k e).ss = d.ss := rfl
@[simp] theorem setJ_own (d : Dev) (k : Nat) (e : JEntry) : (setJ d k e).own = d.own := rfl
@[simp] theorem setJ_vfm (d : Dev) (k : Nat) (e : JEntry) : (setJ d k e).vfm = d.vfm := rfl
@[simp] theorem setJ_dlr (d : Dev) (k : Nat) (e : JEntry) : (setJ d k e).dlr = d.dlr := rfl
@[simp] theorem setJ_engs (d : Dev) (k : Nat) (e : JEntry) : (setJ d k e).engs = d.engs := rfl
@[simp] theorem setJ_rng (d : Dev) (k : Nat) (e : JEntry) : (setJ d k e).rng = d.rng := rfl
@[simp] theorem setJ_recd (d : Dev) (k : Nat) (e : JEntry) : (setJ d k e).recd = d.recd := rfl
@[simp] theorem setJ_amb (d : Dev) (k : Nat) (e : JEntry) : (setJ d k e).amb = d.amb := rfl
@[simp] theorem setJ_bdr (d : Dev) (k : Nat) (e : JEntry) : (setJ d k e).bdr = d.bdr := rfl
@[simp] theorem setJ_tmon (d : Dev) (k : Nat) (e : JEntry) : (setJ d k e).tmon = d.tmon := rfl
@[simp] theorem setJ_jtag (d : Dev) (k : Nat) (e : JEntry) : (setJ d k e).jtag = d.jtag := rfl
@[simp] theorem setJ_bist (d : Dev) (k : Nat) (e : JEntry) : (setJ d k e).bist = d.bist := rfl
@[simp] theorem setJ_otp (d : Dev) (k : Nat) (e : JEntry) : (setJ d k e).otp = d.otp := rfl
@[simp] theorem setJ_lc (d : Dev) (k : Nat) (e : JEntry) : (setJ d k e).lc = d.lc := rfl
@[simp] theorem setJ_boot (d : Dev) (k : Nat) (e : JEntry) : (setJ d k e).boot = d.boot := rfl
@[simp] theorem setJ_io (d : Dev) (k : Nat) (e : JEntry) : (setJ d k e).io = d.io := rfl
@[simp] theorem setJ_cores (d : Dev) (k : Nat) (e : JEntry) : (setJ d k e).cores = d.cores := rfl
@[simp] theorem setJ_mes (d : Dev) (k : Nat) (e : JEntry) : (setJ d k e).mes = d.mes := rfl
@[simp] theorem setJ_tss (d : Dev) (k : Nat) (e : JEntry) : (setJ d k e).tss = d.tss := rfl
@[simp] theorem setJ_parked (d : Dev) (k : Nat) (e : JEntry) : (setJ d k e).parked = d.parked := rfl
@[simp] theorem setJ_stores (d : Dev) (k : Nat) (e : JEntry) : (setJ d k e).stores = d.stores := rfl
@[simp] theorem setJ_fab (d : Dev) (k : Nat) (e : JEntry) : (setJ d k e).fab = d.fab := rfl

@[simp] theorem modJ_glob (d : Dev) (k : Nat) (f : JEntry → JEntry) : (modJ d k f).glob = d.glob := rfl
@[simp] theorem modJ_hif (d : Dev) (k : Nat) (f : JEntry → JEntry) : (modJ d k f).hif = d.hif := rfl
@[simp] theorem modJ_sqs (d : Dev) (k : Nat) (f : JEntry → JEntry) : (modJ d k f).sqs = d.sqs := rfl
@[simp] theorem modJ_cqs (d : Dev) (k : Nat) (f : JEntry → JEntry) : (modJ d k f).cqs = d.cqs := rfl
@[simp] theorem modJ_jobs (d : Dev) (k : Nat) (f : JEntry → JEntry) : (modJ d k f).jobs = d.jobs := rfl
@[simp] theorem modJ_ks (d : Dev) (k : Nat) (f : JEntry → JEntry) : (modJ d k f).ks = d.ks := rfl
@[simp] theorem modJ_ss (d : Dev) (k : Nat) (f : JEntry → JEntry) : (modJ d k f).ss = d.ss := rfl
@[simp] theorem modJ_own (d : Dev) (k : Nat) (f : JEntry → JEntry) : (modJ d k f).own = d.own := rfl
@[simp] theorem modJ_vfm (d : Dev) (k : Nat) (f : JEntry → JEntry) : (modJ d k f).vfm = d.vfm := rfl
@[simp] theorem modJ_dlr (d : Dev) (k : Nat) (f : JEntry → JEntry) : (modJ d k f).dlr = d.dlr := rfl
@[simp] theorem modJ_engs (d : Dev) (k : Nat) (f : JEntry → JEntry) : (modJ d k f).engs = d.engs := rfl
@[simp] theorem modJ_rng (d : Dev) (k : Nat) (f : JEntry → JEntry) : (modJ d k f).rng = d.rng := rfl
@[simp] theorem modJ_recd (d : Dev) (k : Nat) (f : JEntry → JEntry) : (modJ d k f).recd = d.recd := rfl
@[simp] theorem modJ_amb (d : Dev) (k : Nat) (f : JEntry → JEntry) : (modJ d k f).amb = d.amb := rfl
@[simp] theorem modJ_bdr (d : Dev) (k : Nat) (f : JEntry → JEntry) : (modJ d k f).bdr = d.bdr := rfl
@[simp] theorem modJ_tmon (d : Dev) (k : Nat) (f : JEntry → JEntry) : (modJ d k f).tmon = d.tmon := rfl
@[simp] theorem modJ_jtag (d : Dev) (k : Nat) (f : JEntry → JEntry) : (modJ d k f).jtag = d.jtag := rfl
@[simp] theorem modJ_bist (d : Dev) (k : Nat) (f : JEntry → JEntry) : (modJ d k f).bist = d.bist := rfl
@[simp] theorem modJ_otp (d : Dev) (k : Nat) (f : JEntry → JEntry) : (modJ d k f).otp = d.otp := rfl
@[simp] theorem modJ_lc (d : Dev) (k : Nat) (f : JEntry → JEntry) : (modJ d k f).lc = d.lc := rfl
@[simp] theorem modJ_boot (d : Dev) (k : Nat) (f : JEntry → JEntry) : (modJ d k f).boot = d.boot := rfl
@[simp] theorem modJ_io (d : Dev) (k : Nat) (f : JEntry → JEntry) : (modJ d k f).io = d.io := rfl
@[simp] theorem modJ_cores (d : Dev) (k : Nat) (f : JEntry → JEntry) : (modJ d k f).cores = d.cores := rfl
@[simp] theorem modJ_mes (d : Dev) (k : Nat) (f : JEntry → JEntry) : (modJ d k f).mes = d.mes := rfl
@[simp] theorem modJ_tss (d : Dev) (k : Nat) (f : JEntry → JEntry) : (modJ d k f).tss = d.tss := rfl
@[simp] theorem modJ_parked (d : Dev) (k : Nat) (f : JEntry → JEntry) : (modJ d k f).parked = d.parked := rfl
@[simp] theorem modJ_stores (d : Dev) (k : Nat) (f : JEntry → JEntry) : (modJ d k f).stores = d.stores := rfl
@[simp] theorem modJ_fab (d : Dev) (k : Nat) (f : JEntry → JEntry) : (modJ d k f).fab = d.fab := rfl

@[simp] theorem setFq_glob (d : Dev) (n : Nat) (v : Fq) : (setFq d n v).glob = d.glob := rfl
@[simp] theorem setFq_hif (d : Dev) (n : Nat) (v : Fq) : (setFq d n v).hif = d.hif := rfl
@[simp] theorem setFq_sqs (d : Dev) (n : Nat) (v : Fq) : (setFq d n v).sqs = d.sqs := rfl
@[simp] theorem setFq_cqs (d : Dev) (n : Nat) (v : Fq) : (setFq d n v).cqs = d.cqs := rfl
@[simp] theorem setFq_jobs (d : Dev) (n : Nat) (v : Fq) : (setFq d n v).jobs = d.jobs := rfl
@[simp] theorem setFq_ks (d : Dev) (n : Nat) (v : Fq) : (setFq d n v).ks = d.ks := rfl
@[simp] theorem setFq_ss (d : Dev) (n : Nat) (v : Fq) : (setFq d n v).ss = d.ss := rfl
@[simp] theorem setFq_own (d : Dev) (n : Nat) (v : Fq) : (setFq d n v).own = d.own := rfl
@[simp] theorem setFq_vfm (d : Dev) (n : Nat) (v : Fq) : (setFq d n v).vfm = d.vfm := rfl
@[simp] theorem setFq_dlr (d : Dev) (n : Nat) (v : Fq) : (setFq d n v).dlr = d.dlr := rfl
@[simp] theorem setFq_engs (d : Dev) (n : Nat) (v : Fq) : (setFq d n v).engs = d.engs := rfl
@[simp] theorem setFq_rng (d : Dev) (n : Nat) (v : Fq) : (setFq d n v).rng = d.rng := rfl
@[simp] theorem setFq_recd (d : Dev) (n : Nat) (v : Fq) : (setFq d n v).recd = d.recd := rfl
@[simp] theorem setFq_amb (d : Dev) (n : Nat) (v : Fq) : (setFq d n v).amb = d.amb := rfl
@[simp] theorem setFq_bdr (d : Dev) (n : Nat) (v : Fq) : (setFq d n v).bdr = d.bdr := rfl
@[simp] theorem setFq_tmon (d : Dev) (n : Nat) (v : Fq) : (setFq d n v).tmon = d.tmon := rfl
@[simp] theorem setFq_jtag (d : Dev) (n : Nat) (v : Fq) : (setFq d n v).jtag = d.jtag := rfl
@[simp] theorem setFq_bist (d : Dev) (n : Nat) (v : Fq) : (setFq d n v).bist = d.bist := rfl
@[simp] theorem setFq_otp (d : Dev) (n : Nat) (v : Fq) : (setFq d n v).otp = d.otp := rfl
@[simp] theorem setFq_lc (d : Dev) (n : Nat) (v : Fq) : (setFq d n v).lc = d.lc := rfl
@[simp] theorem setFq_boot (d : Dev) (n : Nat) (v : Fq) : (setFq d n v).boot = d.boot := rfl
@[simp] theorem setFq_io (d : Dev) (n : Nat) (v : Fq) : (setFq d n v).io = d.io := rfl
@[simp] theorem setFq_cores (d : Dev) (n : Nat) (v : Fq) : (setFq d n v).cores = d.cores := rfl
@[simp] theorem setFq_mes (d : Dev) (n : Nat) (v : Fq) : (setFq d n v).mes = d.mes := rfl
@[simp] theorem setFq_tss (d : Dev) (n : Nat) (v : Fq) : (setFq d n v).tss = d.tss := rfl
@[simp] theorem setFq_parked (d : Dev) (n : Nat) (v : Fq) : (setFq d n v).parked = d.parked := rfl
@[simp] theorem setFq_stores (d : Dev) (n : Nat) (v : Fq) : (setFq d n v).stores = d.stores := rfl
@[simp] theorem setFq_fab (d : Dev) (n : Nat) (v : Fq) : (setFq d n v).fab = d.fab := rfl

@[simp] theorem setSlot_glob (d : Dev) (o slot : Nat) (v : Slot) : (setSlot d o slot v).glob = d.glob := rfl
@[simp] theorem setSlot_hif (d : Dev) (o slot : Nat) (v : Slot) : (setSlot d o slot v).hif = d.hif := rfl
@[simp] theorem setSlot_sqs (d : Dev) (o slot : Nat) (v : Slot) : (setSlot d o slot v).sqs = d.sqs := rfl
@[simp] theorem setSlot_cqs (d : Dev) (o slot : Nat) (v : Slot) : (setSlot d o slot v).cqs = d.cqs := rfl
@[simp] theorem setSlot_jobs (d : Dev) (o slot : Nat) (v : Slot) : (setSlot d o slot v).jobs = d.jobs := rfl
@[simp] theorem setSlot_jrn (d : Dev) (o slot : Nat) (v : Slot) : (setSlot d o slot v).jrn = d.jrn := rfl
@[simp] theorem setSlot_ss (d : Dev) (o slot : Nat) (v : Slot) : (setSlot d o slot v).ss = d.ss := rfl
@[simp] theorem setSlot_own (d : Dev) (o slot : Nat) (v : Slot) : (setSlot d o slot v).own = d.own := rfl
@[simp] theorem setSlot_vfm (d : Dev) (o slot : Nat) (v : Slot) : (setSlot d o slot v).vfm = d.vfm := rfl
@[simp] theorem setSlot_dlr (d : Dev) (o slot : Nat) (v : Slot) : (setSlot d o slot v).dlr = d.dlr := rfl
@[simp] theorem setSlot_engs (d : Dev) (o slot : Nat) (v : Slot) : (setSlot d o slot v).engs = d.engs := rfl
@[simp] theorem setSlot_rng (d : Dev) (o slot : Nat) (v : Slot) : (setSlot d o slot v).rng = d.rng := rfl
@[simp] theorem setSlot_recd (d : Dev) (o slot : Nat) (v : Slot) : (setSlot d o slot v).recd = d.recd := rfl
@[simp] theorem setSlot_amb (d : Dev) (o slot : Nat) (v : Slot) : (setSlot d o slot v).amb = d.amb := rfl
@[simp] theorem setSlot_bdr (d : Dev) (o slot : Nat) (v : Slot) : (setSlot d o slot v).bdr = d.bdr := rfl
@[simp] theorem setSlot_tmon (d : Dev) (o slot : Nat) (v : Slot) : (setSlot d o slot v).tmon = d.tmon := rfl
@[simp] theorem setSlot_jtag (d : Dev) (o slot : Nat) (v : Slot) : (setSlot d o slot v).jtag = d.jtag := rfl
@[simp] theorem setSlot_bist (d : Dev) (o slot : Nat) (v : Slot) : (setSlot d o slot v).bist = d.bist := rfl
@[simp] theorem setSlot_otp (d : Dev) (o slot : Nat) (v : Slot) : (setSlot d o slot v).otp = d.otp := rfl
@[simp] theorem setSlot_lc (d : Dev) (o slot : Nat) (v : Slot) : (setSlot d o slot v).lc = d.lc := rfl
@[simp] theorem setSlot_boot (d : Dev) (o slot : Nat) (v : Slot) : (setSlot d o slot v).boot = d.boot := rfl
@[simp] theorem setSlot_io (d : Dev) (o slot : Nat) (v : Slot) : (setSlot d o slot v).io = d.io := rfl
@[simp] theorem setSlot_cores (d : Dev) (o slot : Nat) (v : Slot) : (setSlot d o slot v).cores = d.cores := rfl
@[simp] theorem setSlot_mes (d : Dev) (o slot : Nat) (v : Slot) : (setSlot d o slot v).mes = d.mes := rfl
@[simp] theorem setSlot_tss (d : Dev) (o slot : Nat) (v : Slot) : (setSlot d o slot v).tss = d.tss := rfl
@[simp] theorem setSlot_parked (d : Dev) (o slot : Nat) (v : Slot) : (setSlot d o slot v).parked = d.parked := rfl
@[simp] theorem setSlot_stores (d : Dev) (o slot : Nat) (v : Slot) : (setSlot d o slot v).stores = d.stores := rfl
@[simp] theorem setSlot_fab (d : Dev) (o slot : Nat) (v : Slot) : (setSlot d o slot v).fab = d.fab := rfl

@[simp] theorem modObj_glob (d : Dev) (o : Nat) (h : U32) (f : KObj → KObj) : (modObj d o h f).glob = d.glob := rfl
@[simp] theorem modObj_hif (d : Dev) (o : Nat) (h : U32) (f : KObj → KObj) : (modObj d o h f).hif = d.hif := rfl
@[simp] theorem modObj_sqs (d : Dev) (o : Nat) (h : U32) (f : KObj → KObj) : (modObj d o h f).sqs = d.sqs := rfl
@[simp] theorem modObj_cqs (d : Dev) (o : Nat) (h : U32) (f : KObj → KObj) : (modObj d o h f).cqs = d.cqs := rfl
@[simp] theorem modObj_jobs (d : Dev) (o : Nat) (h : U32) (f : KObj → KObj) : (modObj d o h f).jobs = d.jobs := rfl
@[simp] theorem modObj_jrn (d : Dev) (o : Nat) (h : U32) (f : KObj → KObj) : (modObj d o h f).jrn = d.jrn := rfl
@[simp] theorem modObj_ss (d : Dev) (o : Nat) (h : U32) (f : KObj → KObj) : (modObj d o h f).ss = d.ss := rfl
@[simp] theorem modObj_own (d : Dev) (o : Nat) (h : U32) (f : KObj → KObj) : (modObj d o h f).own = d.own := rfl
@[simp] theorem modObj_vfm (d : Dev) (o : Nat) (h : U32) (f : KObj → KObj) : (modObj d o h f).vfm = d.vfm := rfl
@[simp] theorem modObj_dlr (d : Dev) (o : Nat) (h : U32) (f : KObj → KObj) : (modObj d o h f).dlr = d.dlr := rfl
@[simp] theorem modObj_engs (d : Dev) (o : Nat) (h : U32) (f : KObj → KObj) : (modObj d o h f).engs = d.engs := rfl
@[simp] theorem modObj_rng (d : Dev) (o : Nat) (h : U32) (f : KObj → KObj) : (modObj d o h f).rng = d.rng := rfl
@[simp] theorem modObj_recd (d : Dev) (o : Nat) (h : U32) (f : KObj → KObj) : (modObj d o h f).recd = d.recd := rfl
@[simp] theorem modObj_amb (d : Dev) (o : Nat) (h : U32) (f : KObj → KObj) : (modObj d o h f).amb = d.amb := rfl
@[simp] theorem modObj_bdr (d : Dev) (o : Nat) (h : U32) (f : KObj → KObj) : (modObj d o h f).bdr = d.bdr := rfl
@[simp] theorem modObj_tmon (d : Dev) (o : Nat) (h : U32) (f : KObj → KObj) : (modObj d o h f).tmon = d.tmon := rfl
@[simp] theorem modObj_jtag (d : Dev) (o : Nat) (h : U32) (f : KObj → KObj) : (modObj d o h f).jtag = d.jtag := rfl
@[simp] theorem modObj_bist (d : Dev) (o : Nat) (h : U32) (f : KObj → KObj) : (modObj d o h f).bist = d.bist := rfl
@[simp] theorem modObj_otp (d : Dev) (o : Nat) (h : U32) (f : KObj → KObj) : (modObj d o h f).otp = d.otp := rfl
@[simp] theorem modObj_lc (d : Dev) (o : Nat) (h : U32) (f : KObj → KObj) : (modObj d o h f).lc = d.lc := rfl
@[simp] theorem modObj_boot (d : Dev) (o : Nat) (h : U32) (f : KObj → KObj) : (modObj d o h f).boot = d.boot := rfl
@[simp] theorem modObj_io (d : Dev) (o : Nat) (h : U32) (f : KObj → KObj) : (modObj d o h f).io = d.io := rfl
@[simp] theorem modObj_cores (d : Dev) (o : Nat) (h : U32) (f : KObj → KObj) : (modObj d o h f).cores = d.cores := rfl
@[simp] theorem modObj_mes (d : Dev) (o : Nat) (h : U32) (f : KObj → KObj) : (modObj d o h f).mes = d.mes := rfl
@[simp] theorem modObj_tss (d : Dev) (o : Nat) (h : U32) (f : KObj → KObj) : (modObj d o h f).tss = d.tss := rfl
@[simp] theorem modObj_parked (d : Dev) (o : Nat) (h : U32) (f : KObj → KObj) : (modObj d o h f).parked = d.parked := rfl
@[simp] theorem modObj_stores (d : Dev) (o : Nat) (h : U32) (f : KObj → KObj) : (modObj d o h f).stores = d.stores := rfl
@[simp] theorem modObj_fab (d : Dev) (o : Nat) (h : U32) (f : KObj → KObj) : (modObj d o h f).fab = d.fab := rfl

@[simp] theorem setSs_glob (d : Dev) (o slot : Nat) (k : SsKey) : (setSs d o slot k).glob = d.glob := rfl
@[simp] theorem setSs_hif (d : Dev) (o slot : Nat) (k : SsKey) : (setSs d o slot k).hif = d.hif := rfl
@[simp] theorem setSs_sqs (d : Dev) (o slot : Nat) (k : SsKey) : (setSs d o slot k).sqs = d.sqs := rfl
@[simp] theorem setSs_cqs (d : Dev) (o slot : Nat) (k : SsKey) : (setSs d o slot k).cqs = d.cqs := rfl
@[simp] theorem setSs_jobs (d : Dev) (o slot : Nat) (k : SsKey) : (setSs d o slot k).jobs = d.jobs := rfl
@[simp] theorem setSs_jrn (d : Dev) (o slot : Nat) (k : SsKey) : (setSs d o slot k).jrn = d.jrn := rfl
@[simp] theorem setSs_ks (d : Dev) (o slot : Nat) (k : SsKey) : (setSs d o slot k).ks = d.ks := rfl
@[simp] theorem setSs_own (d : Dev) (o slot : Nat) (k : SsKey) : (setSs d o slot k).own = d.own := rfl
@[simp] theorem setSs_vfm (d : Dev) (o slot : Nat) (k : SsKey) : (setSs d o slot k).vfm = d.vfm := rfl
@[simp] theorem setSs_dlr (d : Dev) (o slot : Nat) (k : SsKey) : (setSs d o slot k).dlr = d.dlr := rfl
@[simp] theorem setSs_engs (d : Dev) (o slot : Nat) (k : SsKey) : (setSs d o slot k).engs = d.engs := rfl
@[simp] theorem setSs_rng (d : Dev) (o slot : Nat) (k : SsKey) : (setSs d o slot k).rng = d.rng := rfl
@[simp] theorem setSs_recd (d : Dev) (o slot : Nat) (k : SsKey) : (setSs d o slot k).recd = d.recd := rfl
@[simp] theorem setSs_amb (d : Dev) (o slot : Nat) (k : SsKey) : (setSs d o slot k).amb = d.amb := rfl
@[simp] theorem setSs_bdr (d : Dev) (o slot : Nat) (k : SsKey) : (setSs d o slot k).bdr = d.bdr := rfl
@[simp] theorem setSs_tmon (d : Dev) (o slot : Nat) (k : SsKey) : (setSs d o slot k).tmon = d.tmon := rfl
@[simp] theorem setSs_jtag (d : Dev) (o slot : Nat) (k : SsKey) : (setSs d o slot k).jtag = d.jtag := rfl
@[simp] theorem setSs_bist (d : Dev) (o slot : Nat) (k : SsKey) : (setSs d o slot k).bist = d.bist := rfl
@[simp] theorem setSs_otp (d : Dev) (o slot : Nat) (k : SsKey) : (setSs d o slot k).otp = d.otp := rfl
@[simp] theorem setSs_lc (d : Dev) (o slot : Nat) (k : SsKey) : (setSs d o slot k).lc = d.lc := rfl
@[simp] theorem setSs_boot (d : Dev) (o slot : Nat) (k : SsKey) : (setSs d o slot k).boot = d.boot := rfl
@[simp] theorem setSs_io (d : Dev) (o slot : Nat) (k : SsKey) : (setSs d o slot k).io = d.io := rfl
@[simp] theorem setSs_cores (d : Dev) (o slot : Nat) (k : SsKey) : (setSs d o slot k).cores = d.cores := rfl
@[simp] theorem setSs_mes (d : Dev) (o slot : Nat) (k : SsKey) : (setSs d o slot k).mes = d.mes := rfl
@[simp] theorem setSs_tss (d : Dev) (o slot : Nat) (k : SsKey) : (setSs d o slot k).tss = d.tss := rfl
@[simp] theorem setSs_parked (d : Dev) (o slot : Nat) (k : SsKey) : (setSs d o slot k).parked = d.parked := rfl
@[simp] theorem setSs_stores (d : Dev) (o slot : Nat) (k : SsKey) : (setSs d o slot k).stores = d.stores := rfl
@[simp] theorem setSs_fab (d : Dev) (o slot : Nat) (k : SsKey) : (setSs d o slot k).fab = d.fab := rfl

@[simp] theorem modPort_glob (d : Dev) (p : Nat) (f : Port → Port) : (modPort d p f).glob = d.glob := by unfold modPort; split <;> rfl
@[simp] theorem modPort_hif (d : Dev) (p : Nat) (f : Port → Port) : (modPort d p f).hif = d.hif := by unfold modPort; split <;> rfl
@[simp] theorem modPort_sqs (d : Dev) (p : Nat) (f : Port → Port) : (modPort d p f).sqs = d.sqs := by unfold modPort; split <;> rfl
@[simp] theorem modPort_cqs (d : Dev) (p : Nat) (f : Port → Port) : (modPort d p f).cqs = d.cqs := by unfold modPort; split <;> rfl
@[simp] theorem modPort_jobs (d : Dev) (p : Nat) (f : Port → Port) : (modPort d p f).jobs = d.jobs := by unfold modPort; split <;> rfl
@[simp] theorem modPort_jrn (d : Dev) (p : Nat) (f : Port → Port) : (modPort d p f).jrn = d.jrn := by unfold modPort; split <;> rfl
@[simp] theorem modPort_ks (d : Dev) (p : Nat) (f : Port → Port) : (modPort d p f).ks = d.ks := by unfold modPort; split <;> rfl
@[simp] theorem modPort_ss (d : Dev) (p : Nat) (f : Port → Port) : (modPort d p f).ss = d.ss := by unfold modPort; split <;> rfl
@[simp] theorem modPort_own (d : Dev) (p : Nat) (f : Port → Port) : (modPort d p f).own = d.own := by unfold modPort; split <;> rfl
@[simp] theorem modPort_vfm (d : Dev) (p : Nat) (f : Port → Port) : (modPort d p f).vfm = d.vfm := by unfold modPort; split <;> rfl
@[simp] theorem modPort_dlr (d : Dev) (p : Nat) (f : Port → Port) : (modPort d p f).dlr = d.dlr := by unfold modPort; split <;> rfl
@[simp] theorem modPort_engs (d : Dev) (p : Nat) (f : Port → Port) : (modPort d p f).engs = d.engs := by unfold modPort; split <;> rfl
@[simp] theorem modPort_rng (d : Dev) (p : Nat) (f : Port → Port) : (modPort d p f).rng = d.rng := by unfold modPort; split <;> rfl
@[simp] theorem modPort_recd (d : Dev) (p : Nat) (f : Port → Port) : (modPort d p f).recd = d.recd := by unfold modPort; split <;> rfl
@[simp] theorem modPort_amb (d : Dev) (p : Nat) (f : Port → Port) : (modPort d p f).amb = d.amb := by unfold modPort; split <;> rfl
@[simp] theorem modPort_bdr (d : Dev) (p : Nat) (f : Port → Port) : (modPort d p f).bdr = d.bdr := by unfold modPort; split <;> rfl
@[simp] theorem modPort_tmon (d : Dev) (p : Nat) (f : Port → Port) : (modPort d p f).tmon = d.tmon := by unfold modPort; split <;> rfl
@[simp] theorem modPort_jtag (d : Dev) (p : Nat) (f : Port → Port) : (modPort d p f).jtag = d.jtag := by unfold modPort; split <;> rfl
@[simp] theorem modPort_bist (d : Dev) (p : Nat) (f : Port → Port) : (modPort d p f).bist = d.bist := by unfold modPort; split <;> rfl
@[simp] theorem modPort_otp (d : Dev) (p : Nat) (f : Port → Port) : (modPort d p f).otp = d.otp := by unfold modPort; split <;> rfl
@[simp] theorem modPort_lc (d : Dev) (p : Nat) (f : Port → Port) : (modPort d p f).lc = d.lc := by unfold modPort; split <;> rfl
@[simp] theorem modPort_boot (d : Dev) (p : Nat) (f : Port → Port) : (modPort d p f).boot = d.boot := by unfold modPort; split <;> rfl
@[simp] theorem modPort_io (d : Dev) (p : Nat) (f : Port → Port) : (modPort d p f).io = d.io := by unfold modPort; split <;> rfl
@[simp] theorem modPort_cores (d : Dev) (p : Nat) (f : Port → Port) : (modPort d p f).cores = d.cores := by unfold modPort; split <;> rfl
@[simp] theorem modPort_mes (d : Dev) (p : Nat) (f : Port → Port) : (modPort d p f).mes = d.mes := by unfold modPort; split <;> rfl
@[simp] theorem modPort_tss (d : Dev) (p : Nat) (f : Port → Port) : (modPort d p f).tss = d.tss := by unfold modPort; split <;> rfl
@[simp] theorem modPort_parked (d : Dev) (p : Nat) (f : Port → Port) : (modPort d p f).parked = d.parked := by unfold modPort; split <;> rfl
@[simp] theorem modPort_stores (d : Dev) (p : Nat) (f : Port → Port) : (modPort d p f).stores = d.stores := by unfold modPort; split <;> rfl

@[simp] theorem setNode_glob (d : Dev) (n : Nat) (v : Node) : (setNode d n v).glob = d.glob := rfl
@[simp] theorem setNode_hif (d : Dev) (n : Nat) (v : Node) : (setNode d n v).hif = d.hif := rfl
@[simp] theorem setNode_sqs (d : Dev) (n : Nat) (v : Node) : (setNode d n v).sqs = d.sqs := rfl
@[simp] theorem setNode_cqs (d : Dev) (n : Nat) (v : Node) : (setNode d n v).cqs = d.cqs := rfl
@[simp] theorem setNode_jobs (d : Dev) (n : Nat) (v : Node) : (setNode d n v).jobs = d.jobs := rfl
@[simp] theorem setNode_jrn (d : Dev) (n : Nat) (v : Node) : (setNode d n v).jrn = d.jrn := rfl
@[simp] theorem setNode_ks (d : Dev) (n : Nat) (v : Node) : (setNode d n v).ks = d.ks := rfl
@[simp] theorem setNode_ss (d : Dev) (n : Nat) (v : Node) : (setNode d n v).ss = d.ss := rfl
@[simp] theorem setNode_own (d : Dev) (n : Nat) (v : Node) : (setNode d n v).own = d.own := rfl
@[simp] theorem setNode_vfm (d : Dev) (n : Nat) (v : Node) : (setNode d n v).vfm = d.vfm := rfl
@[simp] theorem setNode_dlr (d : Dev) (n : Nat) (v : Node) : (setNode d n v).dlr = d.dlr := rfl
@[simp] theorem setNode_engs (d : Dev) (n : Nat) (v : Node) : (setNode d n v).engs = d.engs := rfl
@[simp] theorem setNode_rng (d : Dev) (n : Nat) (v : Node) : (setNode d n v).rng = d.rng := rfl
@[simp] theorem setNode_recd (d : Dev) (n : Nat) (v : Node) : (setNode d n v).recd = d.recd := rfl
@[simp] theorem setNode_amb (d : Dev) (n : Nat) (v : Node) : (setNode d n v).amb = d.amb := rfl
@[simp] theorem setNode_bdr (d : Dev) (n : Nat) (v : Node) : (setNode d n v).bdr = d.bdr := rfl
@[simp] theorem setNode_tmon (d : Dev) (n : Nat) (v : Node) : (setNode d n v).tmon = d.tmon := rfl
@[simp] theorem setNode_jtag (d : Dev) (n : Nat) (v : Node) : (setNode d n v).jtag = d.jtag := rfl
@[simp] theorem setNode_bist (d : Dev) (n : Nat) (v : Node) : (setNode d n v).bist = d.bist := rfl
@[simp] theorem setNode_otp (d : Dev) (n : Nat) (v : Node) : (setNode d n v).otp = d.otp := rfl
@[simp] theorem setNode_lc (d : Dev) (n : Nat) (v : Node) : (setNode d n v).lc = d.lc := rfl
@[simp] theorem setNode_boot (d : Dev) (n : Nat) (v : Node) : (setNode d n v).boot = d.boot := rfl
@[simp] theorem setNode_io (d : Dev) (n : Nat) (v : Node) : (setNode d n v).io = d.io := rfl
@[simp] theorem setNode_cores (d : Dev) (n : Nat) (v : Node) : (setNode d n v).cores = d.cores := rfl
@[simp] theorem setNode_mes (d : Dev) (n : Nat) (v : Node) : (setNode d n v).mes = d.mes := rfl
@[simp] theorem setNode_tss (d : Dev) (n : Nat) (v : Node) : (setNode d n v).tss = d.tss := rfl
@[simp] theorem setNode_parked (d : Dev) (n : Nat) (v : Node) : (setNode d n v).parked = d.parked := rfl
@[simp] theorem setNode_stores (d : Dev) (n : Nat) (v : Node) : (setNode d n v).stores = d.stores := rfl

@[simp] theorem modNode_glob (d : Dev) (n : Nat) (f : Node → Node) : (modNode d n f).glob = d.glob := rfl
@[simp] theorem modNode_hif (d : Dev) (n : Nat) (f : Node → Node) : (modNode d n f).hif = d.hif := rfl
@[simp] theorem modNode_sqs (d : Dev) (n : Nat) (f : Node → Node) : (modNode d n f).sqs = d.sqs := rfl
@[simp] theorem modNode_cqs (d : Dev) (n : Nat) (f : Node → Node) : (modNode d n f).cqs = d.cqs := rfl
@[simp] theorem modNode_jobs (d : Dev) (n : Nat) (f : Node → Node) : (modNode d n f).jobs = d.jobs := rfl
@[simp] theorem modNode_jrn (d : Dev) (n : Nat) (f : Node → Node) : (modNode d n f).jrn = d.jrn := rfl
@[simp] theorem modNode_ks (d : Dev) (n : Nat) (f : Node → Node) : (modNode d n f).ks = d.ks := rfl
@[simp] theorem modNode_ss (d : Dev) (n : Nat) (f : Node → Node) : (modNode d n f).ss = d.ss := rfl
@[simp] theorem modNode_own (d : Dev) (n : Nat) (f : Node → Node) : (modNode d n f).own = d.own := rfl
@[simp] theorem modNode_vfm (d : Dev) (n : Nat) (f : Node → Node) : (modNode d n f).vfm = d.vfm := rfl
@[simp] theorem modNode_dlr (d : Dev) (n : Nat) (f : Node → Node) : (modNode d n f).dlr = d.dlr := rfl
@[simp] theorem modNode_engs (d : Dev) (n : Nat) (f : Node → Node) : (modNode d n f).engs = d.engs := rfl
@[simp] theorem modNode_rng (d : Dev) (n : Nat) (f : Node → Node) : (modNode d n f).rng = d.rng := rfl
@[simp] theorem modNode_recd (d : Dev) (n : Nat) (f : Node → Node) : (modNode d n f).recd = d.recd := rfl
@[simp] theorem modNode_amb (d : Dev) (n : Nat) (f : Node → Node) : (modNode d n f).amb = d.amb := rfl
@[simp] theorem modNode_bdr (d : Dev) (n : Nat) (f : Node → Node) : (modNode d n f).bdr = d.bdr := rfl
@[simp] theorem modNode_tmon (d : Dev) (n : Nat) (f : Node → Node) : (modNode d n f).tmon = d.tmon := rfl
@[simp] theorem modNode_jtag (d : Dev) (n : Nat) (f : Node → Node) : (modNode d n f).jtag = d.jtag := rfl
@[simp] theorem modNode_bist (d : Dev) (n : Nat) (f : Node → Node) : (modNode d n f).bist = d.bist := rfl
@[simp] theorem modNode_otp (d : Dev) (n : Nat) (f : Node → Node) : (modNode d n f).otp = d.otp := rfl
@[simp] theorem modNode_lc (d : Dev) (n : Nat) (f : Node → Node) : (modNode d n f).lc = d.lc := rfl
@[simp] theorem modNode_boot (d : Dev) (n : Nat) (f : Node → Node) : (modNode d n f).boot = d.boot := rfl
@[simp] theorem modNode_io (d : Dev) (n : Nat) (f : Node → Node) : (modNode d n f).io = d.io := rfl
@[simp] theorem modNode_cores (d : Dev) (n : Nat) (f : Node → Node) : (modNode d n f).cores = d.cores := rfl
@[simp] theorem modNode_mes (d : Dev) (n : Nat) (f : Node → Node) : (modNode d n f).mes = d.mes := rfl
@[simp] theorem modNode_tss (d : Dev) (n : Nat) (f : Node → Node) : (modNode d n f).tss = d.tss := rfl
@[simp] theorem modNode_parked (d : Dev) (n : Nat) (f : Node → Node) : (modNode d n f).parked = d.parked := rfl
@[simp] theorem modNode_stores (d : Dev) (n : Nat) (f : Node → Node) : (modNode d n f).stores = d.stores := rfl

@[simp] theorem modCore_glob (d : Dev) (c : Nat) (f : Core → Core) : (modCore d c f).glob = d.glob := by unfold modCore; split <;> rfl
@[simp] theorem modCore_hif (d : Dev) (c : Nat) (f : Core → Core) : (modCore d c f).hif = d.hif := by unfold modCore; split <;> rfl
@[simp] theorem modCore_sqs (d : Dev) (c : Nat) (f : Core → Core) : (modCore d c f).sqs = d.sqs := by unfold modCore; split <;> rfl
@[simp] theorem modCore_cqs (d : Dev) (c : Nat) (f : Core → Core) : (modCore d c f).cqs = d.cqs := by unfold modCore; split <;> rfl
@[simp] theorem modCore_jobs (d : Dev) (c : Nat) (f : Core → Core) : (modCore d c f).jobs = d.jobs := by unfold modCore; split <;> rfl
@[simp] theorem modCore_jrn (d : Dev) (c : Nat) (f : Core → Core) : (modCore d c f).jrn = d.jrn := by unfold modCore; split <;> rfl
@[simp] theorem modCore_ks (d : Dev) (c : Nat) (f : Core → Core) : (modCore d c f).ks = d.ks := by unfold modCore; split <;> rfl
@[simp] theorem modCore_ss (d : Dev) (c : Nat) (f : Core → Core) : (modCore d c f).ss = d.ss := by unfold modCore; split <;> rfl
@[simp] theorem modCore_own (d : Dev) (c : Nat) (f : Core → Core) : (modCore d c f).own = d.own := by unfold modCore; split <;> rfl
@[simp] theorem modCore_vfm (d : Dev) (c : Nat) (f : Core → Core) : (modCore d c f).vfm = d.vfm := by unfold modCore; split <;> rfl
@[simp] theorem modCore_dlr (d : Dev) (c : Nat) (f : Core → Core) : (modCore d c f).dlr = d.dlr := by unfold modCore; split <;> rfl
@[simp] theorem modCore_engs (d : Dev) (c : Nat) (f : Core → Core) : (modCore d c f).engs = d.engs := by unfold modCore; split <;> rfl
@[simp] theorem modCore_rng (d : Dev) (c : Nat) (f : Core → Core) : (modCore d c f).rng = d.rng := by unfold modCore; split <;> rfl
@[simp] theorem modCore_recd (d : Dev) (c : Nat) (f : Core → Core) : (modCore d c f).recd = d.recd := by unfold modCore; split <;> rfl
@[simp] theorem modCore_amb (d : Dev) (c : Nat) (f : Core → Core) : (modCore d c f).amb = d.amb := by unfold modCore; split <;> rfl
@[simp] theorem modCore_bdr (d : Dev) (c : Nat) (f : Core → Core) : (modCore d c f).bdr = d.bdr := by unfold modCore; split <;> rfl
@[simp] theorem modCore_tmon (d : Dev) (c : Nat) (f : Core → Core) : (modCore d c f).tmon = d.tmon := by unfold modCore; split <;> rfl
@[simp] theorem modCore_jtag (d : Dev) (c : Nat) (f : Core → Core) : (modCore d c f).jtag = d.jtag := by unfold modCore; split <;> rfl
@[simp] theorem modCore_bist (d : Dev) (c : Nat) (f : Core → Core) : (modCore d c f).bist = d.bist := by unfold modCore; split <;> rfl
@[simp] theorem modCore_otp (d : Dev) (c : Nat) (f : Core → Core) : (modCore d c f).otp = d.otp := by unfold modCore; split <;> rfl
@[simp] theorem modCore_lc (d : Dev) (c : Nat) (f : Core → Core) : (modCore d c f).lc = d.lc := by unfold modCore; split <;> rfl
@[simp] theorem modCore_boot (d : Dev) (c : Nat) (f : Core → Core) : (modCore d c f).boot = d.boot := by unfold modCore; split <;> rfl
@[simp] theorem modCore_io (d : Dev) (c : Nat) (f : Core → Core) : (modCore d c f).io = d.io := by unfold modCore; split <;> rfl
@[simp] theorem modCore_mes (d : Dev) (c : Nat) (f : Core → Core) : (modCore d c f).mes = d.mes := by unfold modCore; split <;> rfl
@[simp] theorem modCore_tss (d : Dev) (c : Nat) (f : Core → Core) : (modCore d c f).tss = d.tss := by unfold modCore; split <;> rfl
@[simp] theorem modCore_parked (d : Dev) (c : Nat) (f : Core → Core) : (modCore d c f).parked = d.parked := by unfold modCore; split <;> rfl
@[simp] theorem modCore_stores (d : Dev) (c : Nat) (f : Core → Core) : (modCore d c f).stores = d.stores := by unfold modCore; split <;> rfl
@[simp] theorem modCore_fab (d : Dev) (c : Nat) (f : Core → Core) : (modCore d c f).fab = d.fab := by unfold modCore; split <;> rfl

@[simp] theorem modMe_glob (d : Dev) (i : Nat) (f : MeEng → MeEng) : (modMe d i f).glob = d.glob := by unfold modMe; split <;> rfl
@[simp] theorem modMe_hif (d : Dev) (i : Nat) (f : MeEng → MeEng) : (modMe d i f).hif = d.hif := by unfold modMe; split <;> rfl
@[simp] theorem modMe_sqs (d : Dev) (i : Nat) (f : MeEng → MeEng) : (modMe d i f).sqs = d.sqs := by unfold modMe; split <;> rfl
@[simp] theorem modMe_cqs (d : Dev) (i : Nat) (f : MeEng → MeEng) : (modMe d i f).cqs = d.cqs := by unfold modMe; split <;> rfl
@[simp] theorem modMe_jobs (d : Dev) (i : Nat) (f : MeEng → MeEng) : (modMe d i f).jobs = d.jobs := by unfold modMe; split <;> rfl
@[simp] theorem modMe_jrn (d : Dev) (i : Nat) (f : MeEng → MeEng) : (modMe d i f).jrn = d.jrn := by unfold modMe; split <;> rfl
@[simp] theorem modMe_ks (d : Dev) (i : Nat) (f : MeEng → MeEng) : (modMe d i f).ks = d.ks := by unfold modMe; split <;> rfl
@[simp] theorem modMe_ss (d : Dev) (i : Nat) (f : MeEng → MeEng) : (modMe d i f).ss = d.ss := by unfold modMe; split <;> rfl
@[simp] theorem modMe_own (d : Dev) (i : Nat) (f : MeEng → MeEng) : (modMe d i f).own = d.own := by unfold modMe; split <;> rfl
@[simp] theorem modMe_vfm (d : Dev) (i : Nat) (f : MeEng → MeEng) : (modMe d i f).vfm = d.vfm := by unfold modMe; split <;> rfl
@[simp] theorem modMe_dlr (d : Dev) (i : Nat) (f : MeEng → MeEng) : (modMe d i f).dlr = d.dlr := by unfold modMe; split <;> rfl
@[simp] theorem modMe_engs (d : Dev) (i : Nat) (f : MeEng → MeEng) : (modMe d i f).engs = d.engs := by unfold modMe; split <;> rfl
@[simp] theorem modMe_rng (d : Dev) (i : Nat) (f : MeEng → MeEng) : (modMe d i f).rng = d.rng := by unfold modMe; split <;> rfl
@[simp] theorem modMe_recd (d : Dev) (i : Nat) (f : MeEng → MeEng) : (modMe d i f).recd = d.recd := by unfold modMe; split <;> rfl
@[simp] theorem modMe_amb (d : Dev) (i : Nat) (f : MeEng → MeEng) : (modMe d i f).amb = d.amb := by unfold modMe; split <;> rfl
@[simp] theorem modMe_bdr (d : Dev) (i : Nat) (f : MeEng → MeEng) : (modMe d i f).bdr = d.bdr := by unfold modMe; split <;> rfl
@[simp] theorem modMe_tmon (d : Dev) (i : Nat) (f : MeEng → MeEng) : (modMe d i f).tmon = d.tmon := by unfold modMe; split <;> rfl
@[simp] theorem modMe_jtag (d : Dev) (i : Nat) (f : MeEng → MeEng) : (modMe d i f).jtag = d.jtag := by unfold modMe; split <;> rfl
@[simp] theorem modMe_bist (d : Dev) (i : Nat) (f : MeEng → MeEng) : (modMe d i f).bist = d.bist := by unfold modMe; split <;> rfl
@[simp] theorem modMe_otp (d : Dev) (i : Nat) (f : MeEng → MeEng) : (modMe d i f).otp = d.otp := by unfold modMe; split <;> rfl
@[simp] theorem modMe_lc (d : Dev) (i : Nat) (f : MeEng → MeEng) : (modMe d i f).lc = d.lc := by unfold modMe; split <;> rfl
@[simp] theorem modMe_boot (d : Dev) (i : Nat) (f : MeEng → MeEng) : (modMe d i f).boot = d.boot := by unfold modMe; split <;> rfl
@[simp] theorem modMe_io (d : Dev) (i : Nat) (f : MeEng → MeEng) : (modMe d i f).io = d.io := by unfold modMe; split <;> rfl
@[simp] theorem modMe_cores (d : Dev) (i : Nat) (f : MeEng → MeEng) : (modMe d i f).cores = d.cores := by unfold modMe; split <;> rfl
@[simp] theorem modMe_tss (d : Dev) (i : Nat) (f : MeEng → MeEng) : (modMe d i f).tss = d.tss := by unfold modMe; split <;> rfl
@[simp] theorem modMe_parked (d : Dev) (i : Nat) (f : MeEng → MeEng) : (modMe d i f).parked = d.parked := by unfold modMe; split <;> rfl
@[simp] theorem modMe_stores (d : Dev) (i : Nat) (f : MeEng → MeEng) : (modMe d i f).stores = d.stores := by unfold modMe; split <;> rfl
@[simp] theorem modMe_fab (d : Dev) (i : Nat) (f : MeEng → MeEng) : (modMe d i f).fab = d.fab := by unfold modMe; split <;> rfl

@[simp] theorem modTs_glob (d : Dev) (i : Nat) (f : TsEng → TsEng) : (modTs d i f).glob = d.glob := by unfold modTs; split <;> rfl
@[simp] theorem modTs_hif (d : Dev) (i : Nat) (f : TsEng → TsEng) : (modTs d i f).hif = d.hif := by unfold modTs; split <;> rfl
@[simp] theorem modTs_sqs (d : Dev) (i : Nat) (f : TsEng → TsEng) : (modTs d i f).sqs = d.sqs := by unfold modTs; split <;> rfl
@[simp] theorem modTs_cqs (d : Dev) (i : Nat) (f : TsEng → TsEng) : (modTs d i f).cqs = d.cqs := by unfold modTs; split <;> rfl
@[simp] theorem modTs_jobs (d : Dev) (i : Nat) (f : TsEng → TsEng) : (modTs d i f).jobs = d.jobs := by unfold modTs; split <;> rfl
@[simp] theorem modTs_jrn (d : Dev) (i : Nat) (f : TsEng → TsEng) : (modTs d i f).jrn = d.jrn := by unfold modTs; split <;> rfl
@[simp] theorem modTs_ks (d : Dev) (i : Nat) (f : TsEng → TsEng) : (modTs d i f).ks = d.ks := by unfold modTs; split <;> rfl
@[simp] theorem modTs_ss (d : Dev) (i : Nat) (f : TsEng → TsEng) : (modTs d i f).ss = d.ss := by unfold modTs; split <;> rfl
@[simp] theorem modTs_own (d : Dev) (i : Nat) (f : TsEng → TsEng) : (modTs d i f).own = d.own := by unfold modTs; split <;> rfl
@[simp] theorem modTs_vfm (d : Dev) (i : Nat) (f : TsEng → TsEng) : (modTs d i f).vfm = d.vfm := by unfold modTs; split <;> rfl
@[simp] theorem modTs_dlr (d : Dev) (i : Nat) (f : TsEng → TsEng) : (modTs d i f).dlr = d.dlr := by unfold modTs; split <;> rfl
@[simp] theorem modTs_engs (d : Dev) (i : Nat) (f : TsEng → TsEng) : (modTs d i f).engs = d.engs := by unfold modTs; split <;> rfl
@[simp] theorem modTs_rng (d : Dev) (i : Nat) (f : TsEng → TsEng) : (modTs d i f).rng = d.rng := by unfold modTs; split <;> rfl
@[simp] theorem modTs_recd (d : Dev) (i : Nat) (f : TsEng → TsEng) : (modTs d i f).recd = d.recd := by unfold modTs; split <;> rfl
@[simp] theorem modTs_amb (d : Dev) (i : Nat) (f : TsEng → TsEng) : (modTs d i f).amb = d.amb := by unfold modTs; split <;> rfl
@[simp] theorem modTs_bdr (d : Dev) (i : Nat) (f : TsEng → TsEng) : (modTs d i f).bdr = d.bdr := by unfold modTs; split <;> rfl
@[simp] theorem modTs_tmon (d : Dev) (i : Nat) (f : TsEng → TsEng) : (modTs d i f).tmon = d.tmon := by unfold modTs; split <;> rfl
@[simp] theorem modTs_jtag (d : Dev) (i : Nat) (f : TsEng → TsEng) : (modTs d i f).jtag = d.jtag := by unfold modTs; split <;> rfl
@[simp] theorem modTs_bist (d : Dev) (i : Nat) (f : TsEng → TsEng) : (modTs d i f).bist = d.bist := by unfold modTs; split <;> rfl
@[simp] theorem modTs_otp (d : Dev) (i : Nat) (f : TsEng → TsEng) : (modTs d i f).otp = d.otp := by unfold modTs; split <;> rfl
@[simp] theorem modTs_lc (d : Dev) (i : Nat) (f : TsEng → TsEng) : (modTs d i f).lc = d.lc := by unfold modTs; split <;> rfl
@[simp] theorem modTs_boot (d : Dev) (i : Nat) (f : TsEng → TsEng) : (modTs d i f).boot = d.boot := by unfold modTs; split <;> rfl
@[simp] theorem modTs_io (d : Dev) (i : Nat) (f : TsEng → TsEng) : (modTs d i f).io = d.io := by unfold modTs; split <;> rfl
@[simp] theorem modTs_cores (d : Dev) (i : Nat) (f : TsEng → TsEng) : (modTs d i f).cores = d.cores := by unfold modTs; split <;> rfl
@[simp] theorem modTs_mes (d : Dev) (i : Nat) (f : TsEng → TsEng) : (modTs d i f).mes = d.mes := by unfold modTs; split <;> rfl
@[simp] theorem modTs_parked (d : Dev) (i : Nat) (f : TsEng → TsEng) : (modTs d i f).parked = d.parked := by unfold modTs; split <;> rfl
@[simp] theorem modTs_stores (d : Dev) (i : Nat) (f : TsEng → TsEng) : (modTs d i f).stores = d.stores := by unfold modTs; split <;> rfl
@[simp] theorem modTs_fab (d : Dev) (i : Nat) (f : TsEng → TsEng) : (modTs d i f).fab = d.fab := by unfold modTs; split <;> rfl

@[simp] theorem setHeld_hif (d : Dev) (k : Nat) (v : Option U32) : (setHeld d k v).hif = d.hif := rfl
@[simp] theorem setHeld_sqs (d : Dev) (k : Nat) (v : Option U32) : (setHeld d k v).sqs = d.sqs := rfl
@[simp] theorem setHeld_cqs (d : Dev) (k : Nat) (v : Option U32) : (setHeld d k v).cqs = d.cqs := rfl
@[simp] theorem setHeld_jobs (d : Dev) (k : Nat) (v : Option U32) : (setHeld d k v).jobs = d.jobs := rfl
@[simp] theorem setHeld_jrn (d : Dev) (k : Nat) (v : Option U32) : (setHeld d k v).jrn = d.jrn := rfl
@[simp] theorem setHeld_ks (d : Dev) (k : Nat) (v : Option U32) : (setHeld d k v).ks = d.ks := rfl
@[simp] theorem setHeld_ss (d : Dev) (k : Nat) (v : Option U32) : (setHeld d k v).ss = d.ss := rfl
@[simp] theorem setHeld_own (d : Dev) (k : Nat) (v : Option U32) : (setHeld d k v).own = d.own := rfl
@[simp] theorem setHeld_vfm (d : Dev) (k : Nat) (v : Option U32) : (setHeld d k v).vfm = d.vfm := rfl
@[simp] theorem setHeld_dlr (d : Dev) (k : Nat) (v : Option U32) : (setHeld d k v).dlr = d.dlr := rfl
@[simp] theorem setHeld_engs (d : Dev) (k : Nat) (v : Option U32) : (setHeld d k v).engs = d.engs := rfl
@[simp] theorem setHeld_rng (d : Dev) (k : Nat) (v : Option U32) : (setHeld d k v).rng = d.rng := rfl
@[simp] theorem setHeld_recd (d : Dev) (k : Nat) (v : Option U32) : (setHeld d k v).recd = d.recd := rfl
@[simp] theorem setHeld_amb (d : Dev) (k : Nat) (v : Option U32) : (setHeld d k v).amb = d.amb := rfl
@[simp] theorem setHeld_bdr (d : Dev) (k : Nat) (v : Option U32) : (setHeld d k v).bdr = d.bdr := rfl
@[simp] theorem setHeld_tmon (d : Dev) (k : Nat) (v : Option U32) : (setHeld d k v).tmon = d.tmon := rfl
@[simp] theorem setHeld_jtag (d : Dev) (k : Nat) (v : Option U32) : (setHeld d k v).jtag = d.jtag := rfl
@[simp] theorem setHeld_bist (d : Dev) (k : Nat) (v : Option U32) : (setHeld d k v).bist = d.bist := rfl
@[simp] theorem setHeld_otp (d : Dev) (k : Nat) (v : Option U32) : (setHeld d k v).otp = d.otp := rfl
@[simp] theorem setHeld_lc (d : Dev) (k : Nat) (v : Option U32) : (setHeld d k v).lc = d.lc := rfl
@[simp] theorem setHeld_boot (d : Dev) (k : Nat) (v : Option U32) : (setHeld d k v).boot = d.boot := rfl
@[simp] theorem setHeld_io (d : Dev) (k : Nat) (v : Option U32) : (setHeld d k v).io = d.io := rfl
@[simp] theorem setHeld_cores (d : Dev) (k : Nat) (v : Option U32) : (setHeld d k v).cores = d.cores := rfl
@[simp] theorem setHeld_mes (d : Dev) (k : Nat) (v : Option U32) : (setHeld d k v).mes = d.mes := rfl
@[simp] theorem setHeld_tss (d : Dev) (k : Nat) (v : Option U32) : (setHeld d k v).tss = d.tss := rfl
@[simp] theorem setHeld_parked (d : Dev) (k : Nat) (v : Option U32) : (setHeld d k v).parked = d.parked := rfl
@[simp] theorem setHeld_stores (d : Dev) (k : Nat) (v : Option U32) : (setHeld d k v).stores = d.stores := rfl
@[simp] theorem setHeld_fab (d : Dev) (k : Nat) (v : Option U32) : (setHeld d k v).fab = d.fab := rfl

@[simp] theorem setCap_hif (d : Dev) (k : Nat) (v : Option U32) : (setCap d k v).hif = d.hif := rfl
@[simp] theorem setCap_sqs (d : Dev) (k : Nat) (v : Option U32) : (setCap d k v).sqs = d.sqs := rfl
@[simp] theorem setCap_cqs (d : Dev) (k : Nat) (v : Option U32) : (setCap d k v).cqs = d.cqs := rfl
@[simp] theorem setCap_jobs (d : Dev) (k : Nat) (v : Option U32) : (setCap d k v).jobs = d.jobs := rfl
@[simp] theorem setCap_jrn (d : Dev) (k : Nat) (v : Option U32) : (setCap d k v).jrn = d.jrn := rfl
@[simp] theorem setCap_ks (d : Dev) (k : Nat) (v : Option U32) : (setCap d k v).ks = d.ks := rfl
@[simp] theorem setCap_ss (d : Dev) (k : Nat) (v : Option U32) : (setCap d k v).ss = d.ss := rfl
@[simp] theorem setCap_own (d : Dev) (k : Nat) (v : Option U32) : (setCap d k v).own = d.own := rfl
@[simp] theorem setCap_vfm (d : Dev) (k : Nat) (v : Option U32) : (setCap d k v).vfm = d.vfm := rfl
@[simp] theorem setCap_dlr (d : Dev) (k : Nat) (v : Option U32) : (setCap d k v).dlr = d.dlr := rfl
@[simp] theorem setCap_engs (d : Dev) (k : Nat) (v : Option U32) : (setCap d k v).engs = d.engs := rfl
@[simp] theorem setCap_rng (d : Dev) (k : Nat) (v : Option U32) : (setCap d k v).rng = d.rng := rfl
@[simp] theorem setCap_recd (d : Dev) (k : Nat) (v : Option U32) : (setCap d k v).recd = d.recd := rfl
@[simp] theorem setCap_amb (d : Dev) (k : Nat) (v : Option U32) : (setCap d k v).amb = d.amb := rfl
@[simp] theorem setCap_bdr (d : Dev) (k : Nat) (v : Option U32) : (setCap d k v).bdr = d.bdr := rfl
@[simp] theorem setCap_tmon (d : Dev) (k : Nat) (v : Option U32) : (setCap d k v).tmon = d.tmon := rfl
@[simp] theorem setCap_jtag (d : Dev) (k : Nat) (v : Option U32) : (setCap d k v).jtag = d.jtag := rfl
@[simp] theorem setCap_bist (d : Dev) (k : Nat) (v : Option U32) : (setCap d k v).bist = d.bist := rfl
@[simp] theorem setCap_otp (d : Dev) (k : Nat) (v : Option U32) : (setCap d k v).otp = d.otp := rfl
@[simp] theorem setCap_lc (d : Dev) (k : Nat) (v : Option U32) : (setCap d k v).lc = d.lc := rfl
@[simp] theorem setCap_boot (d : Dev) (k : Nat) (v : Option U32) : (setCap d k v).boot = d.boot := rfl
@[simp] theorem setCap_io (d : Dev) (k : Nat) (v : Option U32) : (setCap d k v).io = d.io := rfl
@[simp] theorem setCap_cores (d : Dev) (k : Nat) (v : Option U32) : (setCap d k v).cores = d.cores := rfl
@[simp] theorem setCap_mes (d : Dev) (k : Nat) (v : Option U32) : (setCap d k v).mes = d.mes := rfl
@[simp] theorem setCap_tss (d : Dev) (k : Nat) (v : Option U32) : (setCap d k v).tss = d.tss := rfl
@[simp] theorem setCap_parked (d : Dev) (k : Nat) (v : Option U32) : (setCap d k v).parked = d.parked := rfl
@[simp] theorem setCap_stores (d : Dev) (k : Nat) (v : Option U32) : (setCap d k v).stores = d.stores := rfl
@[simp] theorem setCap_fab (d : Dev) (k : Nat) (v : Option U32) : (setCap d k v).fab = d.fab := rfl

@[simp] theorem setMeas_glob (d : Dev) (k : Nat) (m : Meas) : (setMeas d k m).glob = d.glob := rfl
@[simp] theorem setMeas_hif (d : Dev) (k : Nat) (m : Meas) : (setMeas d k m).hif = d.hif := rfl
@[simp] theorem setMeas_sqs (d : Dev) (k : Nat) (m : Meas) : (setMeas d k m).sqs = d.sqs := rfl
@[simp] theorem setMeas_cqs (d : Dev) (k : Nat) (m : Meas) : (setMeas d k m).cqs = d.cqs := rfl
@[simp] theorem setMeas_jobs (d : Dev) (k : Nat) (m : Meas) : (setMeas d k m).jobs = d.jobs := rfl
@[simp] theorem setMeas_jrn (d : Dev) (k : Nat) (m : Meas) : (setMeas d k m).jrn = d.jrn := rfl
@[simp] theorem setMeas_ks (d : Dev) (k : Nat) (m : Meas) : (setMeas d k m).ks = d.ks := rfl
@[simp] theorem setMeas_ss (d : Dev) (k : Nat) (m : Meas) : (setMeas d k m).ss = d.ss := rfl
@[simp] theorem setMeas_own (d : Dev) (k : Nat) (m : Meas) : (setMeas d k m).own = d.own := rfl
@[simp] theorem setMeas_vfm (d : Dev) (k : Nat) (m : Meas) : (setMeas d k m).vfm = d.vfm := rfl
@[simp] theorem setMeas_dlr (d : Dev) (k : Nat) (m : Meas) : (setMeas d k m).dlr = d.dlr := rfl
@[simp] theorem setMeas_engs (d : Dev) (k : Nat) (m : Meas) : (setMeas d k m).engs = d.engs := rfl
@[simp] theorem setMeas_rng (d : Dev) (k : Nat) (m : Meas) : (setMeas d k m).rng = d.rng := rfl
@[simp] theorem setMeas_recd (d : Dev) (k : Nat) (m : Meas) : (setMeas d k m).recd = d.recd := rfl
@[simp] theorem setMeas_amb (d : Dev) (k : Nat) (m : Meas) : (setMeas d k m).amb = d.amb := rfl
@[simp] theorem setMeas_bdr (d : Dev) (k : Nat) (m : Meas) : (setMeas d k m).bdr = d.bdr := rfl
@[simp] theorem setMeas_tmon (d : Dev) (k : Nat) (m : Meas) : (setMeas d k m).tmon = d.tmon := rfl
@[simp] theorem setMeas_jtag (d : Dev) (k : Nat) (m : Meas) : (setMeas d k m).jtag = d.jtag := rfl
@[simp] theorem setMeas_bist (d : Dev) (k : Nat) (m : Meas) : (setMeas d k m).bist = d.bist := rfl
@[simp] theorem setMeas_otp (d : Dev) (k : Nat) (m : Meas) : (setMeas d k m).otp = d.otp := rfl
@[simp] theorem setMeas_lc (d : Dev) (k : Nat) (m : Meas) : (setMeas d k m).lc = d.lc := rfl
@[simp] theorem setMeas_io (d : Dev) (k : Nat) (m : Meas) : (setMeas d k m).io = d.io := rfl
@[simp] theorem setMeas_cores (d : Dev) (k : Nat) (m : Meas) : (setMeas d k m).cores = d.cores := rfl
@[simp] theorem setMeas_mes (d : Dev) (k : Nat) (m : Meas) : (setMeas d k m).mes = d.mes := rfl
@[simp] theorem setMeas_tss (d : Dev) (k : Nat) (m : Meas) : (setMeas d k m).tss = d.tss := rfl
@[simp] theorem setMeas_parked (d : Dev) (k : Nat) (m : Meas) : (setMeas d k m).parked = d.parked := rfl
@[simp] theorem setMeas_stores (d : Dev) (k : Nat) (m : Meas) : (setMeas d k m).stores = d.stores := rfl
@[simp] theorem setMeas_fab (d : Dev) (k : Nat) (m : Meas) : (setMeas d k m).fab = d.fab := rfl

@[simp] theorem modBank_glob (d : Dev) (b : Nat) (f : CkptBank → CkptBank) : (modBank d b f).glob = d.glob := by unfold modBank; split <;> rfl
@[simp] theorem modBank_hif (d : Dev) (b : Nat) (f : CkptBank → CkptBank) : (modBank d b f).hif = d.hif := by unfold modBank; split <;> rfl
@[simp] theorem modBank_sqs (d : Dev) (b : Nat) (f : CkptBank → CkptBank) : (modBank d b f).sqs = d.sqs := by unfold modBank; split <;> rfl
@[simp] theorem modBank_cqs (d : Dev) (b : Nat) (f : CkptBank → CkptBank) : (modBank d b f).cqs = d.cqs := by unfold modBank; split <;> rfl
@[simp] theorem modBank_jobs (d : Dev) (b : Nat) (f : CkptBank → CkptBank) : (modBank d b f).jobs = d.jobs := by unfold modBank; split <;> rfl
@[simp] theorem modBank_jrn (d : Dev) (b : Nat) (f : CkptBank → CkptBank) : (modBank d b f).jrn = d.jrn := by unfold modBank; split <;> rfl
@[simp] theorem modBank_ks (d : Dev) (b : Nat) (f : CkptBank → CkptBank) : (modBank d b f).ks = d.ks := by unfold modBank; split <;> rfl
@[simp] theorem modBank_ss (d : Dev) (b : Nat) (f : CkptBank → CkptBank) : (modBank d b f).ss = d.ss := by unfold modBank; split <;> rfl
@[simp] theorem modBank_own (d : Dev) (b : Nat) (f : CkptBank → CkptBank) : (modBank d b f).own = d.own := by unfold modBank; split <;> rfl
@[simp] theorem modBank_vfm (d : Dev) (b : Nat) (f : CkptBank → CkptBank) : (modBank d b f).vfm = d.vfm := by unfold modBank; split <;> rfl
@[simp] theorem modBank_dlr (d : Dev) (b : Nat) (f : CkptBank → CkptBank) : (modBank d b f).dlr = d.dlr := by unfold modBank; split <;> rfl
@[simp] theorem modBank_engs (d : Dev) (b : Nat) (f : CkptBank → CkptBank) : (modBank d b f).engs = d.engs := by unfold modBank; split <;> rfl
@[simp] theorem modBank_rng (d : Dev) (b : Nat) (f : CkptBank → CkptBank) : (modBank d b f).rng = d.rng := by unfold modBank; split <;> rfl
@[simp] theorem modBank_amb (d : Dev) (b : Nat) (f : CkptBank → CkptBank) : (modBank d b f).amb = d.amb := by unfold modBank; split <;> rfl
@[simp] theorem modBank_bdr (d : Dev) (b : Nat) (f : CkptBank → CkptBank) : (modBank d b f).bdr = d.bdr := by unfold modBank; split <;> rfl
@[simp] theorem modBank_tmon (d : Dev) (b : Nat) (f : CkptBank → CkptBank) : (modBank d b f).tmon = d.tmon := by unfold modBank; split <;> rfl
@[simp] theorem modBank_jtag (d : Dev) (b : Nat) (f : CkptBank → CkptBank) : (modBank d b f).jtag = d.jtag := by unfold modBank; split <;> rfl
@[simp] theorem modBank_bist (d : Dev) (b : Nat) (f : CkptBank → CkptBank) : (modBank d b f).bist = d.bist := by unfold modBank; split <;> rfl
@[simp] theorem modBank_otp (d : Dev) (b : Nat) (f : CkptBank → CkptBank) : (modBank d b f).otp = d.otp := by unfold modBank; split <;> rfl
@[simp] theorem modBank_lc (d : Dev) (b : Nat) (f : CkptBank → CkptBank) : (modBank d b f).lc = d.lc := by unfold modBank; split <;> rfl
@[simp] theorem modBank_boot (d : Dev) (b : Nat) (f : CkptBank → CkptBank) : (modBank d b f).boot = d.boot := by unfold modBank; split <;> rfl
@[simp] theorem modBank_io (d : Dev) (b : Nat) (f : CkptBank → CkptBank) : (modBank d b f).io = d.io := by unfold modBank; split <;> rfl
@[simp] theorem modBank_cores (d : Dev) (b : Nat) (f : CkptBank → CkptBank) : (modBank d b f).cores = d.cores := by unfold modBank; split <;> rfl
@[simp] theorem modBank_mes (d : Dev) (b : Nat) (f : CkptBank → CkptBank) : (modBank d b f).mes = d.mes := by unfold modBank; split <;> rfl
@[simp] theorem modBank_tss (d : Dev) (b : Nat) (f : CkptBank → CkptBank) : (modBank d b f).tss = d.tss := by unfold modBank; split <;> rfl
@[simp] theorem modBank_parked (d : Dev) (b : Nat) (f : CkptBank → CkptBank) : (modBank d b f).parked = d.parked := by unfold modBank; split <;> rfl
@[simp] theorem modBank_stores (d : Dev) (b : Nat) (f : CkptBank → CkptBank) : (modBank d b f).stores = d.stores := by unfold modBank; split <;> rfl
@[simp] theorem modBank_fab (d : Dev) (b : Nat) (f : CkptBank → CkptBank) : (modBank d b f).fab = d.fab := by unfold modBank; split <;> rfl

@[simp] theorem modSrc_glob (d : Dev) (i : Nat) (f : Src → Src) : (modSrc d i f).glob = d.glob := by unfold modSrc; split <;> rfl
@[simp] theorem modSrc_hif (d : Dev) (i : Nat) (f : Src → Src) : (modSrc d i f).hif = d.hif := by unfold modSrc; split <;> rfl
@[simp] theorem modSrc_sqs (d : Dev) (i : Nat) (f : Src → Src) : (modSrc d i f).sqs = d.sqs := by unfold modSrc; split <;> rfl
@[simp] theorem modSrc_cqs (d : Dev) (i : Nat) (f : Src → Src) : (modSrc d i f).cqs = d.cqs := by unfold modSrc; split <;> rfl
@[simp] theorem modSrc_jobs (d : Dev) (i : Nat) (f : Src → Src) : (modSrc d i f).jobs = d.jobs := by unfold modSrc; split <;> rfl
@[simp] theorem modSrc_jrn (d : Dev) (i : Nat) (f : Src → Src) : (modSrc d i f).jrn = d.jrn := by unfold modSrc; split <;> rfl
@[simp] theorem modSrc_ks (d : Dev) (i : Nat) (f : Src → Src) : (modSrc d i f).ks = d.ks := by unfold modSrc; split <;> rfl
@[simp] theorem modSrc_ss (d : Dev) (i : Nat) (f : Src → Src) : (modSrc d i f).ss = d.ss := by unfold modSrc; split <;> rfl
@[simp] theorem modSrc_own (d : Dev) (i : Nat) (f : Src → Src) : (modSrc d i f).own = d.own := by unfold modSrc; split <;> rfl
@[simp] theorem modSrc_vfm (d : Dev) (i : Nat) (f : Src → Src) : (modSrc d i f).vfm = d.vfm := by unfold modSrc; split <;> rfl
@[simp] theorem modSrc_dlr (d : Dev) (i : Nat) (f : Src → Src) : (modSrc d i f).dlr = d.dlr := by unfold modSrc; split <;> rfl
@[simp] theorem modSrc_engs (d : Dev) (i : Nat) (f : Src → Src) : (modSrc d i f).engs = d.engs := by unfold modSrc; split <;> rfl
@[simp] theorem modSrc_recd (d : Dev) (i : Nat) (f : Src → Src) : (modSrc d i f).recd = d.recd := by unfold modSrc; split <;> rfl
@[simp] theorem modSrc_amb (d : Dev) (i : Nat) (f : Src → Src) : (modSrc d i f).amb = d.amb := by unfold modSrc; split <;> rfl
@[simp] theorem modSrc_bdr (d : Dev) (i : Nat) (f : Src → Src) : (modSrc d i f).bdr = d.bdr := by unfold modSrc; split <;> rfl
@[simp] theorem modSrc_tmon (d : Dev) (i : Nat) (f : Src → Src) : (modSrc d i f).tmon = d.tmon := by unfold modSrc; split <;> rfl
@[simp] theorem modSrc_jtag (d : Dev) (i : Nat) (f : Src → Src) : (modSrc d i f).jtag = d.jtag := by unfold modSrc; split <;> rfl
@[simp] theorem modSrc_bist (d : Dev) (i : Nat) (f : Src → Src) : (modSrc d i f).bist = d.bist := by unfold modSrc; split <;> rfl
@[simp] theorem modSrc_otp (d : Dev) (i : Nat) (f : Src → Src) : (modSrc d i f).otp = d.otp := by unfold modSrc; split <;> rfl
@[simp] theorem modSrc_lc (d : Dev) (i : Nat) (f : Src → Src) : (modSrc d i f).lc = d.lc := by unfold modSrc; split <;> rfl
@[simp] theorem modSrc_boot (d : Dev) (i : Nat) (f : Src → Src) : (modSrc d i f).boot = d.boot := by unfold modSrc; split <;> rfl
@[simp] theorem modSrc_io (d : Dev) (i : Nat) (f : Src → Src) : (modSrc d i f).io = d.io := by unfold modSrc; split <;> rfl
@[simp] theorem modSrc_cores (d : Dev) (i : Nat) (f : Src → Src) : (modSrc d i f).cores = d.cores := by unfold modSrc; split <;> rfl
@[simp] theorem modSrc_mes (d : Dev) (i : Nat) (f : Src → Src) : (modSrc d i f).mes = d.mes := by unfold modSrc; split <;> rfl
@[simp] theorem modSrc_tss (d : Dev) (i : Nat) (f : Src → Src) : (modSrc d i f).tss = d.tss := by unfold modSrc; split <;> rfl
@[simp] theorem modSrc_parked (d : Dev) (i : Nat) (f : Src → Src) : (modSrc d i f).parked = d.parked := by unfold modSrc; split <;> rfl
@[simp] theorem modSrc_stores (d : Dev) (i : Nat) (f : Src → Src) : (modSrc d i f).stores = d.stores := by unfold modSrc; split <;> rfl
@[simp] theorem modSrc_fab (d : Dev) (i : Nat) (f : Src → Src) : (modSrc d i f).fab = d.fab := by unfold modSrc; split <;> rfl

@[simp] theorem modLcSlot_glob (d : Dev) (s : Nat) (f : LcSlot → LcSlot) : (modLcSlot d s f).glob = d.glob := rfl
@[simp] theorem modLcSlot_hif (d : Dev) (s : Nat) (f : LcSlot → LcSlot) : (modLcSlot d s f).hif = d.hif := rfl
@[simp] theorem modLcSlot_sqs (d : Dev) (s : Nat) (f : LcSlot → LcSlot) : (modLcSlot d s f).sqs = d.sqs := rfl
@[simp] theorem modLcSlot_cqs (d : Dev) (s : Nat) (f : LcSlot → LcSlot) : (modLcSlot d s f).cqs = d.cqs := rfl
@[simp] theorem modLcSlot_jobs (d : Dev) (s : Nat) (f : LcSlot → LcSlot) : (modLcSlot d s f).jobs = d.jobs := rfl
@[simp] theorem modLcSlot_jrn (d : Dev) (s : Nat) (f : LcSlot → LcSlot) : (modLcSlot d s f).jrn = d.jrn := rfl
@[simp] theorem modLcSlot_ks (d : Dev) (s : Nat) (f : LcSlot → LcSlot) : (modLcSlot d s f).ks = d.ks := rfl
@[simp] theorem modLcSlot_ss (d : Dev) (s : Nat) (f : LcSlot → LcSlot) : (modLcSlot d s f).ss = d.ss := rfl
@[simp] theorem modLcSlot_own (d : Dev) (s : Nat) (f : LcSlot → LcSlot) : (modLcSlot d s f).own = d.own := rfl
@[simp] theorem modLcSlot_vfm (d : Dev) (s : Nat) (f : LcSlot → LcSlot) : (modLcSlot d s f).vfm = d.vfm := rfl
@[simp] theorem modLcSlot_dlr (d : Dev) (s : Nat) (f : LcSlot → LcSlot) : (modLcSlot d s f).dlr = d.dlr := rfl
@[simp] theorem modLcSlot_engs (d : Dev) (s : Nat) (f : LcSlot → LcSlot) : (modLcSlot d s f).engs = d.engs := rfl
@[simp] theorem modLcSlot_rng (d : Dev) (s : Nat) (f : LcSlot → LcSlot) : (modLcSlot d s f).rng = d.rng := rfl
@[simp] theorem modLcSlot_recd (d : Dev) (s : Nat) (f : LcSlot → LcSlot) : (modLcSlot d s f).recd = d.recd := rfl
@[simp] theorem modLcSlot_amb (d : Dev) (s : Nat) (f : LcSlot → LcSlot) : (modLcSlot d s f).amb = d.amb := rfl
@[simp] theorem modLcSlot_bdr (d : Dev) (s : Nat) (f : LcSlot → LcSlot) : (modLcSlot d s f).bdr = d.bdr := rfl
@[simp] theorem modLcSlot_tmon (d : Dev) (s : Nat) (f : LcSlot → LcSlot) : (modLcSlot d s f).tmon = d.tmon := rfl
@[simp] theorem modLcSlot_jtag (d : Dev) (s : Nat) (f : LcSlot → LcSlot) : (modLcSlot d s f).jtag = d.jtag := rfl
@[simp] theorem modLcSlot_bist (d : Dev) (s : Nat) (f : LcSlot → LcSlot) : (modLcSlot d s f).bist = d.bist := rfl
@[simp] theorem modLcSlot_lc (d : Dev) (s : Nat) (f : LcSlot → LcSlot) : (modLcSlot d s f).lc = d.lc := rfl
@[simp] theorem modLcSlot_boot (d : Dev) (s : Nat) (f : LcSlot → LcSlot) : (modLcSlot d s f).boot = d.boot := rfl
@[simp] theorem modLcSlot_io (d : Dev) (s : Nat) (f : LcSlot → LcSlot) : (modLcSlot d s f).io = d.io := rfl
@[simp] theorem modLcSlot_cores (d : Dev) (s : Nat) (f : LcSlot → LcSlot) : (modLcSlot d s f).cores = d.cores := rfl
@[simp] theorem modLcSlot_mes (d : Dev) (s : Nat) (f : LcSlot → LcSlot) : (modLcSlot d s f).mes = d.mes := rfl
@[simp] theorem modLcSlot_tss (d : Dev) (s : Nat) (f : LcSlot → LcSlot) : (modLcSlot d s f).tss = d.tss := rfl
@[simp] theorem modLcSlot_parked (d : Dev) (s : Nat) (f : LcSlot → LcSlot) : (modLcSlot d s f).parked = d.parked := rfl
@[simp] theorem modLcSlot_stores (d : Dev) (s : Nat) (f : LcSlot → LcSlot) : (modLcSlot d s f).stores = d.stores := rfl
@[simp] theorem modLcSlot_fab (d : Dev) (s : Nat) (f : LcSlot → LcSlot) : (modLcSlot d s f).fab = d.fab := rfl

@[simp] theorem modEpoch_glob (d : Dev) (e : Nat) (f : Epoch → Epoch) : (modEpoch d e f).glob = d.glob := rfl
@[simp] theorem modEpoch_hif (d : Dev) (e : Nat) (f : Epoch → Epoch) : (modEpoch d e f).hif = d.hif := rfl
@[simp] theorem modEpoch_sqs (d : Dev) (e : Nat) (f : Epoch → Epoch) : (modEpoch d e f).sqs = d.sqs := rfl
@[simp] theorem modEpoch_cqs (d : Dev) (e : Nat) (f : Epoch → Epoch) : (modEpoch d e f).cqs = d.cqs := rfl
@[simp] theorem modEpoch_jobs (d : Dev) (e : Nat) (f : Epoch → Epoch) : (modEpoch d e f).jobs = d.jobs := rfl
@[simp] theorem modEpoch_jrn (d : Dev) (e : Nat) (f : Epoch → Epoch) : (modEpoch d e f).jrn = d.jrn := rfl
@[simp] theorem modEpoch_ks (d : Dev) (e : Nat) (f : Epoch → Epoch) : (modEpoch d e f).ks = d.ks := rfl
@[simp] theorem modEpoch_ss (d : Dev) (e : Nat) (f : Epoch → Epoch) : (modEpoch d e f).ss = d.ss := rfl
@[simp] theorem modEpoch_own (d : Dev) (e : Nat) (f : Epoch → Epoch) : (modEpoch d e f).own = d.own := rfl
@[simp] theorem modEpoch_vfm (d : Dev) (e : Nat) (f : Epoch → Epoch) : (modEpoch d e f).vfm = d.vfm := rfl
@[simp] theorem modEpoch_dlr (d : Dev) (e : Nat) (f : Epoch → Epoch) : (modEpoch d e f).dlr = d.dlr := rfl
@[simp] theorem modEpoch_engs (d : Dev) (e : Nat) (f : Epoch → Epoch) : (modEpoch d e f).engs = d.engs := rfl
@[simp] theorem modEpoch_rng (d : Dev) (e : Nat) (f : Epoch → Epoch) : (modEpoch d e f).rng = d.rng := rfl
@[simp] theorem modEpoch_recd (d : Dev) (e : Nat) (f : Epoch → Epoch) : (modEpoch d e f).recd = d.recd := rfl
@[simp] theorem modEpoch_amb (d : Dev) (e : Nat) (f : Epoch → Epoch) : (modEpoch d e f).amb = d.amb := rfl
@[simp] theorem modEpoch_bdr (d : Dev) (e : Nat) (f : Epoch → Epoch) : (modEpoch d e f).bdr = d.bdr := rfl
@[simp] theorem modEpoch_tmon (d : Dev) (e : Nat) (f : Epoch → Epoch) : (modEpoch d e f).tmon = d.tmon := rfl
@[simp] theorem modEpoch_jtag (d : Dev) (e : Nat) (f : Epoch → Epoch) : (modEpoch d e f).jtag = d.jtag := rfl
@[simp] theorem modEpoch_bist (d : Dev) (e : Nat) (f : Epoch → Epoch) : (modEpoch d e f).bist = d.bist := rfl
@[simp] theorem modEpoch_lc (d : Dev) (e : Nat) (f : Epoch → Epoch) : (modEpoch d e f).lc = d.lc := rfl
@[simp] theorem modEpoch_boot (d : Dev) (e : Nat) (f : Epoch → Epoch) : (modEpoch d e f).boot = d.boot := rfl
@[simp] theorem modEpoch_io (d : Dev) (e : Nat) (f : Epoch → Epoch) : (modEpoch d e f).io = d.io := rfl
@[simp] theorem modEpoch_cores (d : Dev) (e : Nat) (f : Epoch → Epoch) : (modEpoch d e f).cores = d.cores := rfl
@[simp] theorem modEpoch_mes (d : Dev) (e : Nat) (f : Epoch → Epoch) : (modEpoch d e f).mes = d.mes := rfl
@[simp] theorem modEpoch_tss (d : Dev) (e : Nat) (f : Epoch → Epoch) : (modEpoch d e f).tss = d.tss := rfl
@[simp] theorem modEpoch_parked (d : Dev) (e : Nat) (f : Epoch → Epoch) : (modEpoch d e f).parked = d.parked := rfl
@[simp] theorem modEpoch_stores (d : Dev) (e : Nat) (f : Epoch → Epoch) : (modEpoch d e f).stores = d.stores := rfl
@[simp] theorem modEpoch_fab (d : Dev) (e : Nat) (f : Epoch → Epoch) : (modEpoch d e f).fab = d.fab := rfl

end Sys2Proof.Laws.State
end

