-- ==== Sys2Proof/WellFormed.lean ====
section
/-!
DEFINITION. The ranges of a command's operands: what a sender can put into a command at all. A command outside them names nothing that the
device has; its meaning does not rely on the check.
-/
namespace Sys2Proof

/-- The PF and 255 VFs (13). -/
def fnOk (f : Nat) : Bool := decide (f < 256)
/-- A submission queue of the device (02). -/
def sqOk (q : Nat) : Bool := decide (q < 4096)
/-- A completion queue of the device (02). -/
def cqOk (q : Nat) : Bool := decide (q < 2048)
/-- A polynomial core (07). -/
def coreOk (c : Nat) : Bool := decide (c < 16)
/-- A cell of the deal table (09 R304). -/
def cellOk (c : Nat) : Bool := decide (c < 32)
/-- A modular engine, by its cell (06, 09 R304). -/
def meOk (e : Nat) : Bool := decide (16 ≤ e) && decide (e < 24)
/-- A sequencer (08 R266). -/
def seqOk (u : Nat) : Bool := decide (u < 28)
/-- A sequencer of a polynomial core. -/
def pySeqOk (u : Nat) : Bool := decide (u < 16)
/-- A sequencer of a modular engine. -/
def meSeqOk (u : Nat) : Bool := decide (16 ≤ u) && decide (u < 24)
/-- A sequencer of a tree engine. -/
def tsSeqOk (u : Nat) : Bool := decide (24 ≤ u) && decide (u < 28)
/-- A Flint source (11). -/
def srcOk (n : Nat) : Bool := decide (n < 4)
/-- A Brynique port (18 R503). -/
def portOk (p : Nat) : Bool := decide (p < 4)
/-- A fabric ID (18). -/
def nodeOk (n : Nat) : Bool := decide (n < 64)
/-- A write carries data, a read some bytes; a field of configuration space holds a value that 19 gives it. -/
def accessOk : RegAccess → Bool
  | .bar _ _ data => decide (0 < data.length)
  | .read _ _ size => decide (0 < size)
  | .cfg (.mps n) => [128, 256, 512].contains n
  | .cfg (.mrrs n) => [128, 256, 512, 1024, 2048, 4096].contains n
  | .cfg (.cto _) => true
  | .cfg (.relaxed _) => true
  | .cfgRead _ => true
/-- A vector of the MSI-X table (19 R545). -/
def msixOk : MsixWrite → Bool
  | .vector v _ => decide (v < 2048)
  | .function _ _ => true
/-- A frame passes a port and names nodes. -/
def frameOk (fr : Frame) : Bool := portOk fr.port && nodeOk fr.dst && nodeOk fr.src
/-- A line of a core's tile (16 R472). -/
def siteOk : EccSite → Bool
  | .tileLine c _ => coreOk c
  | .granule _ _ o _ => fnOk o
  | .jobMem _ _ => true
  | .fatal => true
  | .supvRam => true

/-- The check of a command's operands. -/
def Instr.wellFormed : Instr → Bool
  | .porNAssert => true
  | .porNRelease _ _ _ => true
  | .bedrockBrownout => true
  | .perstNAssert => true
  | .perstNRelease _ => true
  | .selftestTempWait _ => true
  | .hotReset _ => true
  | .pfFlr => true
  | .vfFlr f => fnOk f && decide (f ≠ 0)
  | .vfResetDone f => fnOk f && decide (f ≠ 0)
  | .softReset _ _ => true
  | .jtagHoldInstr _ => true
  | .jtagTestLogicReset _ => true
  | .bypass => true
  | .idcode => true
  | .samplePreload => true
  | .jtagDebug => true
  | .detectorEvent first second _ _ => decide (1 ≤ first) && decide (first ≤ 6) && decide (second ≤ 6) && decide (first ≠ second)
  | .serdesRailLoss _ => true
  | .sensorRead tj rails => decide (tj.length = 8) && decide (rails.length = 9)
  | .sqDoorbell f q _ => fnOk f && sqOk q
  | .cqHeadDoorbell f q _ => fnOk f && cqOk q
  | .doorbell64 f q _ _ => fnOk f && sqOk q && cqOk q
  | .pushWindowWrite f q off data => fnOk f && sqOk q && decide (off < 64) && decide (off + data.length ≤ 64)
  | .entryFetch o => fnOk o
  | .entryReadDone q _ => sqOk q
  | .jobPlace _ => true
  | .blobUnwrapDone _ => true
  | .hybridHalfDone _ _ => true
  | .dmaReadCompletion _ _ _ => true
  | .dmaReadTimeout _ => true
  | .outputListChecked _ => true
  | .inputPageFilled c _ => coreOk c
  | .auxFillDone c => coreOk c
  | .outputBufferRoom c => coreOk c
  | .mramCommitDone _ => true
  | .coalTimerExpiry c => decide (c < 2048)
  | .yieldTimeout cell => cellOk cell
  | .trickBoundary => true
  | .decisionPoint => true
  | .roundBoundary => true
  | .dutyCoolTimer => true
  | .sqEnable f q _ => fnOk f && sqOk q
  | .sqDisable f q _ => fnOk f && sqOk q
  | .cqEnable f q _ => fnOk f && cqOk q
  | .cqDisable f q _ => fnOk f && cqOk q
  | .sqHeadWrite f q _ => fnOk f && sqOk q
  | .cqPtrWrite f q _ => fnOk f && cqOk q
  | .registerWrite f a => decide (f < 257) && accessOk a
  | .nop _ => true
  | .echo _ => true
  | .queryCaps _ => true
  | .time _ => true
  | .fateQuery _ => true
  | .fateRelease _ => true
  | .notify _ => true
  | .byJob f => fnOk f
  | .byKey f => fnOk f
  | .release f => fnOk f
  | .releaseBoot f => fnOk f
  | .kemKeygen _ => true
  | .kemEncaps _ => true
  | .kemDecaps _ => true
  | .kemEncapsKeep _ => true
  | .kemDecapsKeep _ => true
  | .ekCheck _ => true
  | .kemPubExport _ => true
  | .dsaKeygen _ => true
  | .dsaSign _ => true
  | .signPh _ => true
  | .signMu _ => true
  | .dsaVerify _ => true
  | .verifyPh _ => true
  | .verifyMu _ => true
  | .dsaPubExport _ => true
  | .hbsKeygen _ => true
  | .hbsSign _ => true
  | .hbsSignPh _ => true
  | .hbsVerify _ => true
  | .hbsVerifyPh _ => true
  | .hbsPubExport _ => true
  | .advance _ => true
  | .rebuild _ => true
  | .codeKeygen _ => true
  | .codeEncaps _ => true
  | .codeDecaps _ => true
  | .codeEncapsKeep _ => true
  | .codeDecapsKeep _ => true
  | .codePkLoad _ => true
  | .codePubExport _ => true
  | .pkKeygen _ => true
  | .pkSign _ => true
  | .signV15 _ => true
  | .pkVerify _ => true
  | .verifyV15 _ => true
  | .pkPubExport _ => true
  | .dh _ => true
  | .dhKeep _ => true
  | .pkLoad _ => true
  | .curveLoad _ => true
  | .encrypt _ => true
  | .decrypt _ => true
  | .privRaw _ => true
  | .pubRaw _ => true
  | .modRun _ => true
  | .mpLoad e _ => meOk e
  | .mpLoadx e _ => meOk e
  | .mpLoadk e _ => meOk e
  | .mpSeti e _ => meOk e
  | .mpCopy e _ => meOk e
  | .mpAdd e _ => meOk e
  | .mpSub e _ => meOk e
  | .mmul e _ => meOk e
  | .tom e _ => meOk e
  | .fromm e _ => meOk e
  | .inv e _ => meOk e
  | .exp e _ => meOk e
  | .store e _ => meOk e
  | .hashDigest _ => true
  | .hashMac _ => true
  | .macVerify _ => true
  | .hashInit _ => true
  | .hashUpdate _ => true
  | .hashFinal _ => true
  | .finalVerify _ => true
  | .gcmEnc _ => true
  | .gcmDec _ => true
  | .ctr _ => true
  | .xtsEnc _ => true
  | .xtsDec _ => true
  | .kwWrap _ => true
  | .kwUnwrap _ => true
  | .kwpWrap _ => true
  | .kwpUnwrap _ => true
  | .aeadEnc _ => true
  | .aeadDec _ => true
  | .generate _ => true
  | .condKat _ => true
  | .drbgKat _ => true
  | .rngRaw _ => true
  | .secretGen _ => true
  | .derive _ => true
  | .blobExport _ => true
  | .blobImport _ => true
  | .kwExport _ => true
  | .kwImport _ => true
  | .kemImport _ => true
  | .restrict _ => true
  | .destroy _ => true
  | .info _ => true
  | .readPlain _ => true
  | .zeroiseOwner _ => true
  | .report _ => true
  | .identity _ => true
  | .keyAttest _ => true
  | .ssQuery _ => true
  | .park _ => true
  | .limit _ => true
  | .delete _ => true
  | .customRun _ => true
  | .add p _ => coreOk p.core
  | .sub p _ => coreOk p.core
  | .and p _ => coreOk p.core
  | .or p _ => coreOk p.core
  | .xor p _ => coreOk p.core
  | .sll p _ => coreOk p.core
  | .srl p _ => coreOk p.core
  | .sra p _ => coreOk p.core
  | .addi p _ => coreOk p.core
  | .andi p _ => coreOk p.core
  | .ori p _ => coreOk p.core
  | .xori p _ => coreOk p.core
  | .slli p _ => coreOk p.core
  | .srli p _ => coreOk p.core
  | .srai p _ => coreOk p.core
  | .slti p _ => coreOk p.core
  | .lui p _ => coreOk p.core
  | .mul p _ => coreOk p.core
  | .mulh p _ => coreOk p.core
  | .mulhu p _ => coreOk p.core
  | .div p _ => coreOk p.core
  | .divu p _ => coreOk p.core
  | .rem p _ => coreOk p.core
  | .remu p _ => coreOk p.core
  | .slt p _ => coreOk p.core
  | .sltu p _ => coreOk p.core
  | .seq p _ => coreOk p.core
  | .csel p _ => coreOk p.core
  | .min p _ => coreOk p.core
  | .max p _ => coreOk p.core
  | .minu p _ => coreOk p.core
  | .maxu p _ => coreOk p.core
  | .ld8 p _ => coreOk p.core
  | .ld16 p _ => coreOk p.core
  | .ld32 p _ => coreOk p.core
  | .ld64 p _ => coreOk p.core
  | .st8 p _ => coreOk p.core
  | .st16 p _ => coreOk p.core
  | .st32 p _ => coreOk p.core
  | .st64 p _ => coreOk p.core
  | .beq p _ => coreOk p.core
  | .bne p _ => coreOk p.core
  | .blt p _ => coreOk p.core
  | .bge p _ => coreOk p.core
  | .bltu p _ => coreOk p.core
  | .bgeu p _ => coreOk p.core
  | .jal p _ => coreOk p.core
  | .jalr p _ => coreOk p.core
  | .vcfg p _ => coreOk p.core
  | .ccrr p _ => coreOk p.core
  | .ccrw p _ => coreOk p.core
  | .yield p _ => coreOk p.core
  | .halt p _ => coreOk p.core
  | .bar p _ => coreOk p.core
  | .idle p _ => coreOk p.core
  | .vadd p _ => coreOk p.core
  | .vsub p _ => coreOk p.core
  | .vand p _ => coreOk p.core
  | .vor p _ => coreOk p.core
  | .vxor p _ => coreOk p.core
  | .vsll p _ => coreOk p.core
  | .vsrl p _ => coreOk p.core
  | .vsra p _ => coreOk p.core
  | .vimul p _ => coreOk p.core
  | .vimulh p _ => coreOk p.core
  | .vimulhu p _ => coreOk p.core
  | .vimin p _ => coreOk p.core
  | .vimax p _ => coreOk p.core
  | .viminu p _ => coreOk p.core
  | .vimaxu p _ => coreOk p.core
  | .vsel p _ => coreOk p.core
  | .vseq p _ => coreOk p.core
  | .vsne p _ => coreOk p.core
  | .vslt p _ => coreOk p.core
  | .vsltu p _ => coreOk p.core
  | .vkand p _ => coreOk p.core
  | .vkor p _ => coreOk p.core
  | .vkxor p _ => coreOk p.core
  | .vknot p _ => coreOk p.core
  | .vbcast p _ => coreOk p.core
  | .vpopc p _ => coreOk p.core
  | .vext p _ => coreOk p.core
  | .vins p _ => coreOk p.core
  | .vredsum p _ => coreOk p.core
  | .vredxor p _ => coreOk p.core
  | .vredor p _ => coreOk p.core
  | .vld p _ => coreOk p.core
  | .vldu p _ => coreOk p.core
  | .vst p _ => coreOk p.core
  | .vstu p _ => coreOk p.core
  | .vkld p _ => coreOk p.core
  | .vkst p _ => coreOk p.core
  | .vmadd p _ => coreOk p.core
  | .vmsub p _ => coreOk p.core
  | .vmneg p _ => coreOk p.core
  | .vmmul p _ => coreOk p.core
  | .vmred p _ => coreOk p.core
  | .vmtom p _ => coreOk p.core
  | .vmfromm p _ => coreOk p.core
  | .vmmac p _ => coreOk p.core
  | .vmbf p _ => coreOk p.core
  | .vmbfi p _ => coreOk p.core
  | .vmbft p _ => coreOk p.core
  | .vmbfti p _ => coreOk p.core
  | .vzip p _ => coreOk p.core
  | .vunzip p _ => coreOk p.core
  | .vslup p _ => coreOk p.core
  | .vsldn p _ => coreOk p.core
  | .vperm p _ => coreOk p.core
  | .vrev p _ => coreOk p.core
  | .vcompr p _ => coreOk p.core
  | .vbrev p _ => coreOk p.core
  | .vclmul p _ => coreOk p.core
  | .vclmulh p _ => coreOk p.core
  | .vgmul p _ => coreOk p.core
  | .vgsqr p _ => coreOk p.core
  | .vginv p _ => coreOk p.core
  | .vgmac p _ => coreOk p.core
  | .vgxp p _ => coreOk p.core
  | .fadd p _ => coreOk p.core
  | .fsub p _ => coreOk p.core
  | .fmul p _ => coreOk p.core
  | .fdiv p _ => coreOk p.core
  | .fsqrt p _ => coreOk p.core
  | .fmin p _ => coreOk p.core
  | .fmax p _ => coreOk p.core
  | .fneg p _ => coreOk p.core
  | .fma p _ => coreOk p.core
  | .fms p _ => coreOk p.core
  | .fnma p _ => coreOk p.core
  | .fcvtf p _ => coreOk p.core
  | .fcvti p _ => coreOk p.core
  | .frnd p _ => coreOk p.core
  | .fmvx p _ => coreOk p.core
  | .fmvf p _ => coreOk p.core
  | .vpack p _ => coreOk p.core
  | .vunpk p _ => coreOk p.core
  | .vcbd p _ => coreOk p.core
  | .vrej p _ => coreOk p.core
  | .vcompd p _ => coreOk p.core
  | .vdecd p _ => coreOk p.core
  | .vp2r p _ => coreOk p.core
  | .vdcmp p _ => coreOk p.core
  | .vhmake p _ => coreOk p.core
  | .vhuse p _ => coreOk p.core
  | .vchkn p _ => coreOk p.core
  | .hinit p _ => coreOk p.core
  | .habs p _ => coreOk p.core
  | .hsqz p _ => coreOk p.core
  | .hsha p _ => coreOk p.core
  | .hdig p _ => coreOk p.core
  | .sref p _ => coreOk p.core
  | .sand p _ => coreOk p.core
  | .sa2b p _ => coreOk p.core
  | .sb2a p _ => coreOk p.core
  | .scmp p _ => coreOk p.core
  | .sunm p _ => coreOk p.core
  | .srnd p _ => coreOk p.core
  | .jwait p _ => coreOk p.core
  | .jrel p _ => coreOk p.core
  | .jout p _ => coreOk p.core
  | .jkey p _ => coreOk p.core
  | .jkput p _ => coreOk p.core
  | .jkdone p _ => coreOk p.core
  | .jrnd p _ => coreOk p.core
  | .jset p _ => coreOk p.core
  | .uWait u _ => seqOk u
  | .uUop u _ => seqOk u
  | .uUopi u _ => seqOk u
  | .uUins u _ => seqOk u
  | .uFld u _ => seqOk u
  | .uCcr u _ => seqOk u
  | .uFlt u _ => seqOk u
  | .uBr u _ => seqOk u
  | .uJmp u _ => seqOk u
  | .uCall u _ => seqOk u
  | .uRet u _ => seqOk u
  | .uLpset u _ => seqOk u
  | .uLpend u _ => seqOk u
  | .uYld u _ => seqOk u
  | .uEnd u _ => seqOk u
  | .uXmov u _ => seqOk u
  | .uUiss u _ => pySeqOk u
  | .uVln u _ => pySeqOk u
  | .uVel u _ => pySeqOk u
  | .uTls u _ => pySeqOk u
  | .uMkv u _ => pySeqOk u
  | .uSln u _ => meSeqOk u
  | .uMac u _ => meSeqOk u
  | .uPad u _ => meSeqOk u
  | .uKplMe u _ => meSeqOk u
  | .uHio u _ => meSeqOk u
  | .uHui u _ => tsSeqOk u
  | .uNbm u _ => tsSeqOk u
  | .uSst u _ => tsSeqOk u
  | .uKplTs u _ => tsSeqOk u
  | .controlStoreEcc u _ => seqOk u
  | .ucodeStage u _ => seqOk u
  | .instanceDrained c => cellOk c
  | .dlrCommit => true
  | .tableCheckDone => true
  | .dlrDiscard => true
  | .dealPlan => true
  | .flintTrimStep n latch _ => srcOk n && decide (latch < 16)
  | .rctFailure n => srcOk n
  | .aptFailure n => srcOk n
  | .conditionerBlock n _ => srcOk n
  | .reseedDue => true
  | .rngHoldEnd _ => true
  | .reserveRefill => true
  | .inlineKat => true
  | .rngKat => true
  | .rngRecal n => srcOk n
  | .recalDone n _ _ => srcOk n
  | .sourceRetry n => srcOk n
  | .softZeroise _ => true
  | .zeroiseSoft => true
  | .hardZeroise _ => true
  | .zeroiseNAssert => true
  | .tamper n => decide (n < 4)
  | .zeroise _ => true
  | .vfEnableSet n => fnOk n
  | .vfEnableClear => true
  | .vfmSelWrite o => fnOk o
  | .enable => true
  | .apply => true
  | .remove _ => true
  | .challenge => true
  | .challengeExpiry => true
  | .submit _ => true
  | .revoke _ => true
  | .ikhProgram _ => true
  | .debugGrantExpiry _ => true
  | .writeSlot _ => true
  | .verify => true
  | .activate _ => true
  | .commit => true
  | .rollback => true
  | .rolloutStepDone => true
  | .supvHandoverReport => true
  | .supvHandoverFail => true
  | .nvmFail => true
  | .isSchedule => true
  | .isCmd _ => true
  | .isDrainTimeout c => cellOk c
  | .isTestDone c r => cellOk c && decide (r.step < 256)
  | .uncorrectableEcc site => siteOk site
  | .ckptTimer => true
  | .ckpt => true
  | .ckptDone => true
  | .clearHist => true
  | .mirrorTimer n _ => decide (n < 2048)
  | .recBankBad b => decide (b < 4)
  | .wallCommit _ => true
  | .wallSRead => true
  | .ambFreeze => true
  | .freezeCopyDone => true
  | .ambDigest _ => true
  | .digestDone => true
  | .amberRefill _ => true
  | .supvPush => true
  | .wdogRestart => true
  | .wdog _ => true
  | .smbGetStatus => true
  | .smbGetIdentity => true
  | .smbGetLc => true
  | .smbGetEnv => true
  | .smbAmbRead _ n => decide (1 ≤ n) && decide (n ≤ 16)
  | .smbFrzRead bank slot n => decide (bank < 2) && decide (1 ≤ n) && decide (n ≤ 16) && decide (slot + n ≤ 4096)
  | .smbDigest src part => decide (src < 2) && decide (part < 2)
  | .smbFreeze => true
  | .smbReset _ _ => true
  | .smbZeroise _ => true
  | .smbAlertAck => true
  | .frameSubmit fr => frameOk fr
  | .frameComplete fr => frameOk fr
  | .frameRdReq fr => frameOk fr
  | .frameRdData fr => frameOk fr
  | .frameWrData fr => frameOk fr
  | .frameAbandon fr => frameOk fr
  | .frameAbandonDone fr => frameOk fr
  | .frameCreditGrant fr => frameOk fr
  | .frameAckNak fr => frameOk fr
  | .frameHeartbeat fr => frameOk fr
  | .frameTime fr => frameOk fr
  | .frameHandshake fr => frameOk fr
  | .frameConfig fr => frameOk fr
  | .frameRecord fr => frameOk fr
  | .frameAmber fr => frameOk fr
  | .frameFate fr => frameOk fr
  | .frameRekey fr => frameOk fr
  | .heartbeatTick => true
  | .timeTick => true
  | .replayTimeout port => portOk port
  | .portLinkChange port _ => portOk port
  | .gapTimeout node => nodeOk node
  | .memberSilence node => nodeOk node
  | .leadLost => true
  | .fabJoin node hops => nodeOk node && decide (hops < 64)
  | .sessionRenew node => nodeOk node
  | .fabAdmit node => nodeOk node
  | .fabRemove node => nodeOk node
  | .fabRekey node => nodeOk node
  | .busMasterEnable f _ _ => fnOk f
  | .powerStateChange f _ => fnOk f
  | .msixUnmask f w => fnOk f && msixOk w
  | .evmaskWrite _ => true
  | .eventHoldoffExpiry v => decide (v < 64)
  | .linkRetrain speed width => [3, 4, 5].contains speed && [1, 2, 4, 8].contains width
  | .poisonedBarWrite f _ => fnOk f
  | .refclkStable _ => true
  | .vddBrReturn _ => true
  | .debugHalt u _ => seqOk u
  | .debugStep u _ => seqOk u
  | .importStepDone _ => true
  | .clockLowTimeout => true
  | .lossOfArbitration => true
  | .admitTimeout => true

end Sys2Proof
end

