-- ==== Sys2Proof/Tests/Slice0.lean ====
section
/-!
SUPPORT. Tests: ill-formed commands that WellFormed refuses, single steps with results from the rules, and for each statement a state and operands
that meet its hypotheses.
-/
namespace Sys2Proof.Tests

open Sys2Proof Sys2Proof.Machine Sys2Proof.Safety

-- One theorem at a time: the kernel evaluates states, and the stacks of many threads would not fit.
set_option Elab.async false

/-! ## States of the tests -/

/-- A device in READY: the link up, the PF's BARs open, one SQ and one CQ of the PF enabled. -/
def tDev : Dev :=
  { glob := { st := .ready, porAsserted := false, perstAsserted := false, tbRun := true }
    hif := { linkUp := true, fns := [(0, { bme := true, mse := true })] }
    own := [(0, { state := .active, sh := { sq := 4, cq := 2, vec := 64, credit := 8, gran := 64, jrn := 8 } })]
    sqs := [(0, { en := true, tail := 0 })]
    cqs := [(0, { en := true, tail := 3 })]
    rng := { state := .ok } }

/-- A state with no command waiting. -/
def tOf (d : Dev) : State := { dev := d, pending := [] }

/-- A started job of a custom image on core 0. -/
def tJob : Job := { id := 7, e := { opcode := 0xD000 }, phase := .placed, eng := some 0, part := 1 }
def tIo : JobIo :=
  { hdr := { codeLen := 64, outMax := 64, inBase := 4096, inPages := 2 }, started := true, pages := [0], auxIn := true, mxSeed := [1] }
/-- Core 0 runs it, with these registers. -/
def tPyOf (b : Job) (io : JobIo) (r : PyRegs) : State :=
  tOf { tDev with jobs := { live := [b] }, io := [(7, io)], cores := tDev.cores.set 0 { live := r } }
def tPy : State := tPyOf tJob tIo {}
/-- Core 0 at core cycle 100. -/
def tAt : PyAt := { core := 0, t := 100 }

/-- A placed job of an opcode on modular engine 0, without input. -/
def tSvcJob (op : U16) : Job := { id := 7, e := { opcode := op }, phase := .placed, eng := some 16 }
def tSvcOf (b : Job) : State := tOf { tDev with jobs := { live := [b] } }
def tSvc (op : U16) : State := tSvcOf (tSvcJob op)

/-! ## WellFormed refuses -/

theorem test_wf_function : (Instr.sqDoorbell 256 0 1).wellFormed = false := by decide
theorem test_wf_bar_function : (Instr.registerWrite 257 (.bar 0 0 [1])).wellFormed = false := by decide
theorem test_wf_sq : (Instr.entryReadDone 4096 .ur).wellFormed = false := by decide
theorem test_wf_cq : (Instr.cqHeadDoorbell 0 2048 1).wellFormed = false := by decide
theorem test_wf_cq_timer : (Instr.coalTimerExpiry 2048).wellFormed = false := by decide
theorem test_wf_core : (Instr.add { core := 16 } {}).wellFormed = false := by decide
theorem test_wf_cell : (Instr.instanceDrained 32).wellFormed = false := by decide
theorem test_wf_step : (Instr.isTestDone 0 { step := 256 }).wellFormed = false := by decide
theorem test_wf_me : (Instr.mmul 24 {}).wellFormed = false := by decide
theorem test_wf_seq : (Instr.uWait 28 {}).wellFormed = false := by decide
theorem test_wf_seq_py : (Instr.uVln 16 {}).wellFormed = false := by decide
theorem test_wf_seq_me : (Instr.uMac 24 {}).wellFormed = false := by decide
theorem test_wf_seq_ts : (Instr.uHui 23 {}).wellFormed = false := by decide
theorem test_wf_source : (Instr.rctFailure 4).wellFormed = false := by decide
theorem test_wf_latch : (Instr.flintTrimStep 0 16 0).wellFormed = false := by decide
theorem test_wf_port : (Instr.replayTimeout 4).wellFormed = false := by decide
theorem test_wf_node : (Instr.fabAdmit 64).wellFormed = false := by decide
theorem test_wf_hops : (Instr.fabJoin 1 64).wellFormed = false := by decide
theorem test_wf_no_data : (Instr.registerWrite 0 (.bar 0 16 [])).wellFormed = false := by decide
theorem test_wf_no_read : (Instr.registerWrite 0 (.read 0 16 0)).wellFormed = false := by decide
theorem test_wf_mps : (Instr.registerWrite 0 (.cfg (.mps 1024))).wellFormed = false := by decide
theorem test_wf_mrrs : (Instr.registerWrite 0 (.cfg (.mrrs 64))).wellFormed = false := by decide
theorem test_wf_vector : (Instr.msixUnmask 0 (.vector 2048 false)).wellFormed = false := by decide
theorem test_wf_push_offset : (Instr.pushWindowWrite 0 0 64 []).wellFormed = false := by decide
theorem test_wf_push_length : (Instr.pushWindowWrite 0 0 60 [1, 2, 3, 4, 5]).wellFormed = false := by decide
theorem test_wf_detector : (Instr.detectorEvent 7 0 false {}).wellFormed = false := by decide
theorem test_wf_sensors : (Instr.sensorRead [] []).wellFormed = false := by decide
theorem test_wf_tamper : (Instr.tamper 4).wellFormed = false := by decide
theorem test_wf_record : (Instr.mirrorTimer 2048 true).wellFormed = false := by decide
theorem test_wf_bank : (Instr.recBankBad 4).wellFormed = false := by decide
theorem test_wf_smb_amber : (Instr.smbAmbRead 0 17).wellFormed = false := by decide
theorem test_wf_smb_freeze : (Instr.smbFrzRead 0 4090 16).wellFormed = false := by decide
theorem test_wf_smb_digest : (Instr.smbDigest 2 0).wellFormed = false := by decide
theorem test_wf_event_vector : (Instr.eventHoldoffExpiry 64).wellFormed = false := by decide
theorem test_wf_link : (Instr.linkRetrain 5 3).wellFormed = false := by decide
theorem test_wf_vf_flr : (Instr.vfFlr 0).wellFormed = false := by decide
theorem test_wf_frame : (Instr.frameSubmit { dst := 64 }).wellFormed = false := by decide
theorem test_wf_site : (Instr.uncorrectableEcc (.tileLine 16 0)).wellFormed = false := by decide
theorem test_wf_site_owner : (Instr.uncorrectableEcc (.granule none 0 256 0)).wellFormed = false := by decide
/-- A well-formed command passes. -/
theorem test_wf_passes : (Instr.sqDoorbell 0 1 64).wellFormed = true := by decide

/-! ## Single steps, their results written from the rules -/

/-- What the device of a next state holds. -/
def tAfter {α : Type} (i : Instr) (s : State) (g : Dev → α) : Option α :=
  match step { s with pending := [i] } with | .next t => some (g t.dev) | _ => none

/-- 07 R245: a sum goes to xd; 07 R213: x0 stays 0. -/
theorem test_add : tAfter (.add tAt { d := 3, a := 1, b := 2 }) (tPyOf tJob tIo { x := (Vector.replicate 32 5 : Vector U64 32) })
    (fun d => xGet (getCore d 0).live 3) = some 10 := by decide +kernel
theorem test_add_x0 : tAfter (.addi tAt { d := 0, a := 1, imm := 1 }) tPy (fun d => xGet (getCore d 0).live 0) = some 0 := by decide +kernel
/-- 07 R245: a division by zero gives all ones. -/
theorem test_div_zero : tAfter (.div tAt { d := 3, a := 1, b := 2 }) tPy (fun d => xGet (getCore d 0).live 3) = some (0 - 1) := by decide +kernel
/-- 02 R54: a head beyond the tail is ignored and sets HEAD_ERR; a head at the tail is taken. -/
theorem test_head_beyond : tAfter (.cqHeadDoorbell 0 0 4) (tOf tDev) (fun d => ((getCq d 0).head, (getCq d 0).headErr)) = some (0, true) := by
  decide +kernel
theorem test_head_at_tail : tAfter (.cqHeadDoorbell 0 0 3) (tOf tDev) (fun d => ((getCq d 0).head, (getCq d 0).headErr)) = some (3, false) := by
  decide +kernel
/-- 02 R53: a tail beyond the ring stops the queue. -/
theorem test_tail_beyond : tAfter (.sqDoorbell 0 0 65) (tOf tDev) (fun d => (getSq d 0).stopped) = some true := by decide +kernel
theorem test_tail_full : tAfter (.sqDoorbell 0 0 64) (tOf tDev) (fun d => ((getSq d 0).tail, (getSq d 0).stopped)) = some (64, false) := by
  decide +kernel
/-- 20 R568: IDCODE. -/
theorem test_idcode : tAfter .idcode State.reset (fun d => d.hif.out) = some [.jtag [0x8B, 0x67, 0x81, 0xB4]] := by decide +kernel
/-- 01 R29: PERST_N takes the device to BEDROCK; R35: its cause bit. -/
theorem test_perst : tAfter .perstNAssert (tOf tDev) (fun d => (d.glob.st, d.glob.rstCause)) = some (.bedrock, 3) := by decide +kernel
/-- 12 R394: a hard zeroise starts at the pin. -/
theorem test_zeroise : tAfter .zeroiseNAssert (tOf tDev) (fun d => d.glob.hardZ.isSome) = some true := by decide +kernel
/-- 13 R404: REMOVE of the PF is refused with 3. -/
theorem test_remove_pf : tAfter (.remove false) (tOf tDev) (fun d => d.vfm.result) = some 3 := by decide +kernel
/-- FIPS 180-4, the digest of "abc". -/
theorem test_sha256 : (sha256 [0x61, 0x62, 0x63]).take 4 = [0xBA, 0x78, 0x16, 0xBF] := by decide +kernel
/-- FIPS 202, the SHA3-256 digest of the empty message. -/
theorem test_sha3 : (sha3 32 []).take 4 = [0xA7, 0xFF, 0xC6, 0xF8] := by decide +kernel
/-! ## Witnesses: polynomial cores -/

theorem tReady_of (b : Job) (io : JobIo) (r : PyRegs) (h : b.id = 7 ∧ b.phase = .placed ∧ b.coreSaved = false ∧ b.abort = none)
    (hc : cellJob (tPyOf b io r).dev 0 = some b) (hi : io.started = true ∧ io.bars.any (fun x => x.1 == 0) = false ∧ mapGet none io.wait 0 = none) :
    PyGo (tPyOf b io r) tAt b io := by
  refine ⟨⟨by decide, rfl, rfl, hc, h.2.1, h.2.2.1, ?_, hi.1, hi.2.1, hi.2.2, show (0 : Nat) ≤ 100 by decide, h.2.2.2, rfl,
    show (100 : Nat) < 0 + 2048 by decide, fun i x hx => ?_⟩,
    ⟨?_, ?_, ?_, show (0 : Nat) ≤ 100 by decide, show (0 : Nat) ≤ 100 by decide⟩⟩
  · rw [h.1]; rfl
  · have : dispAt (tPyOf b io r).dev 0 i = none := rfl
    exact absurd (this.symm.trans hx) (by simp)
  · intro e he; exact absurd he (by change e ∉ ([] : List (Nat × Nat)); exact List.not_mem_nil)
  · intro e he; exact absurd he (by change e ∉ ([] : List (Nat × Nat)); exact List.not_mem_nil)
  · intro k hk q hq
    have : (getCore (tPyOf b io r).dev k).ports = [] := by
      unfold getCore
      rw [dif_pos hk]
      by_cases h0 : k = 0
      · subst h0; rfl
      · show (((Vector.replicate 16 ({} : Core)).set 0 { live := r })[k]).ports = []
        rw [Vector.getElem_set_ne _ _ (by omega), Vector.getElem_replicate]
    rw [this] at hq
    exact absurd hq List.not_mem_nil

theorem tGo (r : PyRegs) : PyGo (tPyOf tJob tIo r) tAt tJob tIo := tReady_of tJob tIo r ⟨rfl, rfl, rfl, rfl⟩ rfl ⟨rfl, rfl, rfl⟩
theorem tOwn (r : PyRegs) : OwnQueues (tPyOf tJob tIo r).dev tJob := ⟨rfl, rfl, rfl, rfl⟩

theorem wit_ScalarResults : PyGo tPy tAt tJob tIo ∧ ({} : FmtA).m = false ∧ ({} : FmtA).k = 0 ∧ ({} : FmtA).x = 0 :=
  ⟨tGo {}, rfl, rfl, rfl⟩

/-- Address 0 of core 0's partition: aligned for all widths, in the job's memory, on no page. -/
theorem wit_ScalarMemoryResults : PyGo tPy tAt tJob tIo
    ∧ (let px := pxAt tPy.dev tAt 0 tJob tIo
      (xGet (live tPy tAt) 0 + (0 : BitVec 12).signExtend 64).toNat = 0 ∧ tilePlace px 0 8 = some (0, 0) ∧ tilePlace px 0 1 = some (0, 0)
      ∧ pageAt px 0 = none ∧ lineStale px 0 0 = false ∧ memWf (getCore tPy.dev 0).tile = true) :=
  ⟨tGo {}, by decide +kernel⟩

theorem wit_BranchAndJumpResults : PyGo tPy tAt tJob tIo ∧ inProgram tIo 8 ∧ inProgram tIo 0 ∧ inProgram tIo 252 ∧ ¬ inProgram tIo 256
    ∧ (live tPy tAt).pc = 0 := ⟨tGo {}, by unfold inProgram; decide +kernel⟩

/-- A cluster job for BAR; the plain one for the rest. -/
def tClJob : Job := { tJob with cluster := true }
theorem wit_ControlInstructionResults : PyGo tPy tAt tJob tIo ∧ OwnQueues tPy.dev tJob ∧ late tPy.dev tJob.e = false ∧ tIo.buf = []
    ∧ (outSgl tJob.e = false ∨ tJob.e.outCap = 0 ∨ tJob.outOk = true) ∧ PyGo (tPyOf tClJob tIo {}) tAt tClJob tIo ∧ tIo.bars.length < 3
    ∧ (6 : BitVec 12).toNat ≤ 6 ∧ 1 ≤ (1 : BitVec 12).toNat ∧ 0 < (1 : BitVec 12).toInt :=
  ⟨tGo {}, tOwn {}, rfl, rfl, .inl rfl, tReady_of tClJob tIo {} ⟨rfl, rfl, rfl, rfl⟩ rfl ⟨rfl, rfl, rfl⟩, by decide⟩
/-- The last core of four at a barrier whose tags agree. -/
theorem wit_ControlInstructionResults_bar : ∀ x ∈ [(1, 5, 0), (2, 5, 0), (3, 5, 0)], x.2.1 = (5 : BitVec 12).toNat := by decide

theorem wit_VcfgResult : PyGo tPy tAt tJob tIo ∧ sewOf { vtype := 7 } = 64 ∧ grpOf { vtype := 7 } = 2 ∧ vlmaxOf { vtype := 7 } = 64 :=
  ⟨tGo {}, by decide +kernel⟩

/-- Address 1 is misaligned; the highest aligned one is outside the job's memory; address 4,096 is in the input area. -/
theorem wit_ScalarFaults : PyGo tPy tAt tJob tIo ∧ OwnQueues tPy.dev tJob
    ∧ (let px := pxAt tPy.dev tAt 0 tJob tIo
      (((1 : BitVec 12).signExtend 64).toNat % 2 ≠ 0) ∧ (((-8 : BitVec 12).signExtend 64).toNat % 8 = 0)
      ∧ tilePlace px ((-8 : BitVec 12).signExtend 64).toNat 8 = none ∧ (pageAt px 4096).isSome = true
      ∧ ¬ inProgram tIo (0 + 4 * (100 : BitVec 12).toInt)) ∧ 6 < (7 : BitVec 12).toNat ∧ (0 : BitVec 12).toInt ≤ 0 :=
  ⟨tGo {}, tOwn {}, by unfold inProgram; decide +kernel⟩
/-- A core whose x1 lands only at core cycle 200. -/
theorem wit_ScalarFaults_contract :
    let s := tOf { tDev with jobs := { live := [tJob] }, io := [(7, tIo)], cores := tDev.cores.set 0 { land := [(1, 200)] } }
    PyReady s.dev 0 100 tJob tIo ∧ OwnQueues s.dev tJob ∧ (100 < mapGet 0 (getCore s.dev 0).land 1) :=
  ⟨⟨by decide, rfl, rfl, rfl, rfl, rfl, rfl, rfl, rfl, rfl, by decide +kernel, rfl, rfl, by decide +kernel, fun i x hx => by cases hx⟩,
    ⟨rfl, rfl, rfl, rfl⟩, by decide +kernel⟩

/-! Vectors: 32-bit elements, G = 1, 4 active elements unless named otherwise. -/

theorem wit_VectorResults : PyGo (tPyOf tJob tIo { vtype := 2, vl := 4 }) tAt tJob tIo
    ∧ (let r := live (tPyOf tJob tIo { vtype := 2, vl := 4 }) tAt
      aligned 3 (grpOf r) = true ∧ bOk r {} = true ∧ maskOk r true = true ∧ (xGet r 0).toNat < vlmaxOf r ∧ activeEls r none = [0, 1, 2, 3]) :=
  ⟨tGo _, by decide +kernel⟩

theorem wit_VectorMemoryResults : PyGo (tPyOf tJob tIo { vtype := 2, vl := 4 }) tAt tJob tIo
    ∧ (let s := tPyOf tJob tIo { vtype := 2, vl := 4 }
      let px := pxAt s.dev tAt 0 tJob tIo
      vecAddr px {} = 0 ∧ vecAddr px {} % 256 = 0 ∧ (∀ i ∈ activeEls px.r none, elStop px (i * 4) 4 false = none ∧ elStop px (i * 4) 4 true = none)
      ∧ tilePlace px 0 32 = some (0, 0) ∧ pageAt px 0 = none ∧ lineStale px 0 0 = false) :=
  ⟨tGo _, by decide +kernel⟩
theorem wit_VectorMemoryResults_wf : ∀ k, memWf (getCore tPy.dev k).tile = true := by
  intro k
  unfold getCore
  split
  · next h =>
    by_cases h0 : k = 0
    · subst h0; rfl
    · show memWf (((Vector.replicate 16 ({} : Core)).set 0 { live := {} })[k]).tile = true
      rw [Vector.getElem_set_ne _ _ (by omega), Vector.getElem_replicate]
      rfl
  · rfl

theorem wit_VectorWriteElements : aligned 2 (grpOf { vtype := 4 }) = true ∧ grpOf { vtype := 4 } = 2 ∧ laneOf { vl := 1 } none 0 = .go
    ∧ laneOf { vl := 1 } none 1 = .keep ∧ laneOf { vl := 1, vtype := 16 } none 1 = .zero := by decide +kernel

/-- A group that is not aligned, an element outside the memory, a masked form with more than 256 elements. -/
theorem wit_VectorFaults : PyGo (tPyOf tJob tIo { vtype := 6, vl := 4 }) tAt tJob tIo ∧ OwnQueues (tPyOf tJob tIo { vtype := 6, vl := 4 }).dev tJob
    ∧ aligned 1 (grpOf { vtype := 6 }) = false ∧ 256 < vlmaxOf { vtype := 12 } ∧ 8 ≤ (8 : BitVec 5).toNat
    ∧ (let s := tPyOf tJob tIo { vtype := 2, vl := 4, x := Vector.replicate 32 33 }
      let px := pxAt s.dev tAt 0 tJob tIo
      PyGo s tAt tJob tIo ∧ vecAddr px { a := 1 } % 256 ≠ 0 ∧ vecAddr px { a := 1 } % 4 ≠ 0 ∧ 64 ≤ 2048)
    ∧ (let s := tPyOf tJob tIo { vtype := 2, vl := 4 }
      let px := pxAt s.dev tAt 0 tJob tIo
      vecAddr px { off := 0xF8 } % 256 = 0 ∧ firstStop px none (vecAddr px { off := 0xF8 }) false = some (0, .fault)) :=
  ⟨tGo _, tOwn _, by decide +kernel, by decide +kernel, by decide, ⟨tGo _, by decide +kernel⟩, by decide +kernel⟩
theorem wit_VectorFaults_index : vlmaxOf { vtype := 2 } ≤ (xGet { vtype := 2, x := Vector.replicate 32 64 } 1).toNat := by decide +kernel

/-- q = 17 with 32-bit elements. -/
theorem wit_ModularLaneResults : PyGo (tPyOf tJob tIo { vtype := 2, vl := 4, qmod := 17 }) tAt tJob tIo
    ∧ (let s := tPyOf tJob tIo { vtype := 2, vl := 4, qmod := 17 }
      let px := pxAt s.dev tAt 0 tJob tIo
      vmOk (live s tAt) = true ∧ bflyOk (live s tAt) 2 = true ∧ (∀ i ∈ activeEls px.r none, elStop px (i * 4) 4 false = none)) :=
  ⟨tGo _, by decide +kernel⟩
theorem wit_MontgomeryArithmetic : 0 < 17 ∧ 17 % 2 = 1 := by decide
/-- Groups of two for the pairs; 16-bit elements with x² + x + 1, 64-bit elements with G = 2. -/
theorem wit_PermuteAndFieldResults : PyGo (tPyOf tJob tIo { vtype := 6, vl := 4 }) tAt tJob tIo
    ∧ aligned 4 (grpOf { vtype := 6 }) = true ∧ (4 : BitVec 5).toNat + 2 * grpOf { vtype := 6 } ≤ 32 ∧ maskOk { vtype := 6 } true = true
    ∧ vgOk { vtype := 1, gfpoly := 7 } = true ∧ sewOf { vtype := 7 } = 64 ∧ grpOf { vtype := 7 } = 2 ∧ sewOf { vtype := 3 } = 64 :=
  ⟨tGo _, by decide +kernel⟩
theorem wit_FloatResults : PyGo (tPyOf tJob tIo { vtype := 3, vl := 4 }) tAt tJob tIo ∧ ((live (tPyOf tJob tIo { vtype := 3, vl := 4 }) tAt).frm).toNat ≤ 4
    ∧ sewOf { vtype := 3 } = 64 ∧ aligned 3 (grpOf { vtype := 3 }) = true ∧ maskOk { vtype := 3 } true = true := ⟨tGo _, by decide +kernel⟩
/-- The modulus of ML-DSA. -/
theorem wit_SamplingResults : PyGo (tPyOf tJob tIo { vtype := 2, vl := 4, qmod := 8380417 }) tAt tJob tIo
    ∧ (let r := live (tPyOf tJob tIo { vtype := 2, vl := 4, qmod := 8380417 }) tAt
      qOf r ≠ 0 ∧ gamma2 (qOf r) 0 ≠ 0 ∧ gamma2 (qOf r) 1 ≠ 0 ∧ aligned 3 (grpOf r) = true ∧ (3 : BitVec 5).toNat + 2 * grpOf r ≤ 32
      ∧ maskOk r true = true ∧ r.vresume = 0) := ⟨tGo _, by decide +kernel⟩
/-- Units 0 and 3 set up. -/
theorem wit_HashChannelResults :
    let s := tPyOf tJob tIo { banks := #v[{ fn := 1 }, { fn := 1 }, { fn := 1 }, { fn := 1 }] }
    PyGo s tAt tJob tIo ∧ (∀ u < 4, (hashAt (pxAt s.dev tAt 0 tJob tIo) u).win ≤ 100 ∧ (hashAt (pxAt s.dev tAt 0 tJob tIo) u).busy ≤ 8 * (100 / 6) + 16)
    ∧ (∀ u < 3, 0 < bankShares (live s tAt) u) ∧ (bankOf (live s tAt) 3).fn ≠ 0 ∧ tIo.mxSeed ≠ [] := ⟨tGo _, by decide +kernel⟩
/-- Two shares of 32-bit elements modulo 17. -/
theorem wit_ShareResults : PyGo (tPyOf tJob tIo { vtype := 2, vl := 4, qmod := 17 }) tAt tJob tIo
    ∧ (let r := regsAt (tPyOf tJob tIo { vtype := 2, vl := 4, qmod := 17 }).dev 0 0
      let f : FmtK := { d := 4, a := 2, b := 6, ord := 1, x := true }
      f.rsv = 0 ∧ 1 ≤ f.ord.toNat ∧ f.a.toNat + f.ord.toNat ≤ 31 ∧ sumOf r f.x true = some (.sum 17) ∧ f.d.toNat + f.ord.toNat ≤ 31
      ∧ f.b.toNat + f.ord.toNat ≤ 31) := ⟨tGo _, by decide +kernel⟩
theorem wit_ShareResults_q : sumOf { vtype := 1 } true false = some (.sum (2 ^ 16)) := by decide +kernel

theorem wit_JobIoResults : PyGo tPy tAt tJob tIo ∧ mapWf {} tPy.dev.io = true ∧ (0 ∈ tIo.pages) ∧ (1 : Nat) ∉ tIo.pages ∧ tIo.auxIn = true
    ∧ (let io := tIo
      ¬ nextChunk { io with refills := mapMod 0 io.refills 0 (· + 1) } 0 * 2 ^ io.hdr.pageLog < tJob.e.inLen.toNat)
    ∧ (1 ≤ 1 ∧ tIo.outDone + tIo.buf.length + 1 ≤ tIo.hdr.outMax ∧ tIo.buf.length + 1 ≤ 8192 ∧ tJob.outBad = none ∧ outSgl tJob.e = false)
    ∧ isCustom tJob = true ∧ ((0x200 : U64).toNat % 65536 / 256 = 2) := ⟨tGo {}, by decide +kernel⟩
/-- A job of a device routine, with 88 bytes of IN left for page 0, a key object of 64 bytes behind KEY0, and room for a new key. -/
def tKo : KObj := { shareA := zeros 64, shareB := zeros 64 }
def tKJob : Job := { tJob with e := { opcode := 0xC7C0, key0 := blobHandle, inLen := 600 }, blob := some tKo, inData := zeros 600, granRes := 8 }
/-- Pages of 256 bytes. -/
def tKIo : JobIo := { tIo with hdr := { tIo.hdr with pageLog := 8 } }
theorem wit_JobIoResults_key : PyGo (tPyOf tKJob tKIo {}) tAt tKJob tKIo ∧ isCustom tKJob = false
    ∧ (nextChunk { tKIo with refills := mapMod 0 tKIo.refills 0 (· + 1) } 0 * 2 ^ tKIo.hdr.pageLog < tKJob.e.inLen.toNat)
    ∧ (0 < (portShare (pxAt (tPyOf tKJob tKIo {}).dev tAt 0 tKJob tKIo) false 0).length ∧ 0 ≤ tKJob.order)
    ∧ tKJob.committed = false ∧ tKJob.outBad = none ∧ outSgl tKJob.e = false ∧ tKJob.keep = none ∧ tKJob.pkeyRes = 0 := by
  refine ⟨tReady_of tKJob tKIo {} ⟨rfl, rfl, rfl, rfl⟩ rfl ⟨rfl, rfl, rfl⟩, by decide +kernel⟩
/-- JKPUT needs a job without a KEY0 blob. -/
def tNJob : Job := { tKJob with e := { opcode := 0xC7C0 }, blob := none }
theorem wit_JobIoResults_put : PyGo (tPyOf tNJob tIo {}) tAt tNJob tIo ∧ isCustom tNJob = false ∧ 0 ≤ min tNJob.order 1 ∧ 0 + 256 < 2 ^ 20
    ∧ tNJob.blob = none ∧ granPriv (max (max (newExtent tIo 0) (newExtent tIo 1)) (0 + 1)) (max (newExtent tIo 7) 0) ≤ tNJob.granRes
    ∧ granPub (max (newExtent tIo 7) (0 + 1)) ≤ tNJob.granRes := by
  refine ⟨tReady_of tNJob tIo {} ⟨rfl, rfl, rfl, rfl⟩ rfl ⟨rfl, rfl, rfl⟩, by decide +kernel⟩
/-- The areas: page 1 is absent, the buffer has a byte. -/
def tAreaIo : JobIo := { tKIo with auxIn := false, buf := [1] }
theorem wit_JobIoResults_areas :
    let s := tPyOf tKJob tAreaIo {}
    coreJobIo s.dev 0 = some (tKJob, tAreaIo) ∧ mapWf {} s.dev.io = true ∧ memWf (getCore s.dev (areaBase tKJob).1).tile = true
    ∧ (areaBase tKJob).1 < 16 ∧ 1 < tAreaIo.hdr.inPages ∧ 1 ∉ tAreaIo.pages
    ∧ min tKJob.e.inLen.toNat (nextChunk tAreaIo 1 * 2 ^ tAreaIo.hdr.pageLog + 2 ^ tAreaIo.hdr.pageLog) ≤ tKJob.inData.length
    ∧ tAreaIo.auxIn = false ∧ tKJob.auxData.length = tKJob.e.auxLen.toNat ∧ tAreaIo.buf ≠ [] ∧ tKJob.outBad = none ∧ isMember s.dev = false
    ∧ findJob s.dev 7 = some tKJob := by
  decide +kernel
theorem wit_JobIoResults_run : findJob tPy.dev 7 = some tJob ∧ isCustom tJob = true ∧ tJob.phase = .placed ∧ (ctxCells tJob).all (cellRuns tPy.dev) = true
    ∧ (∀ k ∈ ctxCells tJob, k < 16 ∧ (getStore tPy.dev k).stepOk = false) ∧ late tPy.dev tJob.e = false ∧ cellHalted tPy.dev 0 = false
    ∧ mapGet none (mapGet {} tPy.dev.io tJob.id).wait 0 = none ∧ OwnQueues tPy.dev tJob :=
  ⟨rfl, rfl, rfl, rfl, by decide +kernel, by decide +kernel, rfl, rfl, tOwn {}⟩

/-! ## Witnesses: sequencers -/

theorem tMicro0 (r : PyRegs) : MicroReady (tPyOf tJob tIo r).dev 0 tJob := by
  have h := tGo r
  refine ⟨by decide, rfl, rfl, rfl, rfl, rfl, rfl, show (0 : Nat) < 0 + 2048 by decide, fun e he => (nomatch he), fun e he => (nomatch he), fun _ => ⟨?_, ?_⟩⟩
  · exact ⟨h.1.core, h.1.run, h.1.noStep, h.1.job, h.1.placed, h.1.here, h.1.area, h.1.started, h.1.noBar, h.1.noWait, Nat.le_refl _, h.1.noAbort,
      rfl, show (0 : Nat) < 0 + 2048 by decide, h.1.serves⟩
  · refine ⟨?_, ?_, ?_, Nat.le_refl _, Nat.le_refl _⟩
    · intro e he; exact absurd he (by change e ∉ ([] : List (Nat × Nat)); exact List.not_mem_nil)
    · intro e he; exact absurd he (by change e ∉ ([] : List (Nat × Nat)); exact List.not_mem_nil)
    · intro k hk q hq
      have : (getCore (tPyOf tJob tIo r).dev k).ports = [] := by
        unfold getCore
        rw [dif_pos hk]
        by_cases h0 : k = 0
        · subst h0; rfl
        · show (((Vector.replicate 16 ({} : Core)).set 0 { live := r })[k]).ports = []
          rw [Vector.getElem_set_ne _ _ (by omega), Vector.getElem_replicate]
      rw [this] at hq
      exact absurd hq List.not_mem_nil
/-- A job with 128 bytes of input and 128 of output on modular engine 0, and one on tree sequencer 0. -/
def tMJob : Job := { tSvcJob 0x5001 with e := { opcode := 0x5001, inLen := 128, outCap := 128 }, inData := zeros 128 }
def tTJob : Job := { tMJob with eng := some 28 }
theorem tMicro16 : MicroReady (tSvcOf tMJob).dev 16 tMJob :=
  ⟨by decide, rfl, rfl, rfl, rfl, rfl, rfl, by decide +kernel, fun e he => (nomatch he), fun e he => (nomatch he), fun h => absurd h (by decide)⟩
theorem tMicro24 : MicroReady (tSvcOf tTJob).dev 24 tTJob :=
  ⟨by decide, rfl, rfl, rfl, rfl, rfl, rfl, by decide +kernel, fun e he => (nomatch he), fun e he => (nomatch he), fun h => absurd h (by decide)⟩

/-- Codes at the ends of their ranges, a stack of three entries, targets at both ends of the store. -/
theorem wit_MicroCommonResults : MicroReady tPy.dev 0 tJob ∧ MicroReady (tSvcOf tMJob).dev 16 tMJob ∧ MicroReady (tSvcOf tTJob).dev 24 tTJob
    ∧ OwnQueues tPy.dev tJob ∧ OwnQueues (tSvcOf tMJob).dev tMJob ∧ OwnQueues (tSvcOf tTJob).dev tTJob
    ∧ (∀ e ∈ uopTable, e.1 < 16) ∧ (∀ e ∈ fldTable, e.1 < 64) ∧ (∀ e ∈ ubrTable, e.1 < 8)
    ∧ (fldPy (getCore tPy.dev 0).live 18).isSome = true ∧ (fldMe (tSvcOf tMJob).dev tMJob 0).isSome = true
    ∧ (fldTs (tSvcOf tTJob).dev tTJob 0).isSome = true ∧ ufar {} < storeSize 0 ∧ (getMicro tPy.dev 0).stack = [] ∧ lcOf (getMicro tPy.dev 0) 0 = 0
    ∧ late tPy.dev tJob.e = false ∧ storeSize 16 ≤ ufar { imm := 0xFFF, c := 31 } :=
  ⟨tMicro0 {}, tMicro16, tMicro24, tOwn {}, ⟨rfl, rfl, rfl, rfl⟩, ⟨rfl, rfl, rfl, rfl⟩, by decide +kernel⟩
/-- Loop counter 0 at 1 and a stack of one and of four entries. -/
theorem wit_MicroCommonResults_stack : MicroReady (tPyOf tJob tIo { stack := [5], lc := #v[1, 0, 0, 0] }).dev 0 tJob
    ∧ (getMicro (tPyOf tJob tIo { stack := [5], lc := #v[1, 0, 0, 0] }).dev 0).stack.length < 4
    ∧ lcOf (getMicro (tPyOf tJob tIo { stack := [5], lc := #v[1, 0, 0, 0] }).dev 0) 0 ≠ 0
    ∧ MicroReady (tPyOf tJob tIo { stack := [1, 2, 3, 4] }).dev 0 tJob
    ∧ 4 ≤ (getMicro (tPyOf tJob tIo { stack := [1, 2, 3, 4] }).dev 0).stack.length :=
  ⟨tMicro0 _, by decide +kernel, by decide +kernel, tMicro0 _, by decide +kernel⟩

theorem wit_MicroEngineResults : MicroReady (tPyOf tJob tIo { vtype := 2, vl := 4 }).dev 0 tJob
    ∧ (let s := tPyOf tJob tIo { vtype := 2, vl := 4 }
      let x := uAt s 0 tJob
      tilePlace x 0 8 = some (0, 0) ∧ tilePlace x 0 1 = some (0, 0) ∧ pageAt x 0 = none ∧ lineStale x 0 0 = false
      ∧ memWf (getCore s.dev 0).tile = true
      ∧ (∀ i ∈ vlnEls x.r, elStop x (i * 4) 4 false = none ∧ elStop x (i * 4) 4 true = none))
    ∧ MicroReady (tSvcOf tMJob).dev 16 tMJob ∧ MicroReady (tSvcOf tTJob).dev 24 tTJob ∧ mapWf {} (tSvcOf tMJob).dev.io = true
    ∧ (min tMJob.e.inLen.toNat (0 + 64) ≤ tMJob.inData.length ∧ outReady tMJob = true ∧ isMember (tSvcOf tMJob).dev = false
      ∧ findJob (tSvcOf tMJob).dev 7 = some tMJob ∧ 0 + 64 ≤ tMJob.e.outCap.toNat)
    ∧ (outReady tTJob = true ∧ findJob (tSvcOf tTJob).dev 7 = some tTJob ∧ late (tSvcOf tTJob).dev tTJob.e = false
      ∧ ssTake (tSvcOf tTJob).dev 0 tTJob.e.key0 = none ∧ OwnQueues (tSvcOf tTJob).dev tTJob) :=
  ⟨tMicro0 _, by decide +kernel, tMicro16, tMicro24, rfl, by decide +kernel, rfl, rfl, rfl, rfl, ⟨rfl, rfl, rfl, rfl⟩⟩
/-- UISS issues an ADD (opcode 1 of function 0). -/
theorem wit_MicroEngineResults_uiss : ∃ i < 1024, (pyOpOf (uissWord (getCore tPy.dev 0).live.word (fmtOf (i / 8) (i % 8)) 0 0 0) (i / 8) (i % 8)).any
    (fun op => (op.use (uAt tPy 0 tJob)).legal && !(op.use (uAt tPy 0 tJob)).clash) = true := ⟨0, by decide, by decide +kernel⟩

/-! ## Witnesses: services -/

/-- What JobReady asks of a job of the test device that sits on modular engine 0. -/
def tRdy (ops : Sqe → Bool) (b : Job) : Bool :=
  ops b.e && b.id == 7 && b.phase == .placed && b.eng == some 16 && b.eng2 == none && b.abort == none && !late (tSvcOf b).dev b.e && jobReady b
    && !b.committed && b.keep == none

theorem tReady (ops : Sqe → Bool) (b : Job) (h : tRdy ops b = true) : JobReady (tSvcOf b).dev b.id ops b := by
  simp only [tRdy, Bool.and_eq_true, beq_iff_eq, Bool.not_eq_true'] at h
  obtain ⟨⟨⟨⟨⟨⟨⟨⟨⟨h1, h2⟩, h3⟩, h4⟩, h5⟩, h6⟩, h7⟩, h8⟩, h9⟩, h10⟩ := h
  refine ⟨?_, h1, h3, ?_, h6, h7, .inr ?_, h8, h9, h10⟩
  · show List.find? (fun x => x.id == b.id) [b] = some b
    simp
  · intro c hc
    have : c = 16 := by
      unfold ctxCells at hc
      rw [h4, h5] at hc
      by_cases hs : b.coreSaved = true <;> simp [hs] at hc <;> exact hc
    subst this
    exact ⟨rfl, rfl⟩
  · show RngState.ok ≠ RngState.error
    decide

/-- Opcodes with the operations they are of: a job of each is ready for its routine. -/
theorem tReadyAll (l : List (U16 × (Sqe → Bool))) (h : (l.all fun x => tRdy x.2 (tSvcJob x.1)) = true) :
    ∀ x ∈ l, JobReady (tSvc x.1).dev 7 x.2 (tSvcJob x.1) := fun x hx => tReady x.2 (tSvcJob x.1) (List.all_eq_true.mp h x hx)

/-- A waiting job of an operation without an engine. -/
def tWJob (op : U16) (key0 : U32) (aux : Bytes) : Job :=
  { id := 7, e := { opcode := op, key0 := key0, auxLen := BitVec.ofNat 32 aux.length }, auxData := aux }
theorem tWaitAll (l : List (U16 × (Sqe → Bool))) (h : (l.all fun x => x.2 (tWJob x.1 0 []).e && !late (tSvcOf (tWJob x.1 0 [])).dev (tWJob x.1 0 []).e) = true) :
    ∀ x ∈ l, JobWaiting (tSvcOf (tWJob x.1 0 [])).dev 7 x.2 (tWJob x.1 0 []) := by
  intro x hx
  have := List.all_eq_true.mp h x hx
  simp only [Bool.and_eq_true, Bool.not_eq_true'] at this
  exact ⟨rfl, this.1, rfl, rfl, rfl, .inr (.inl rfl), rfl, this.2⟩
theorem tSvcOwn (b : Job) (h : b.outBad = none) : OwnQueues (tSvcOf b).dev b := ⟨rfl, h, rfl, rfl⟩

/-- A modular program of two commands, SETI to slot 0 and STORE of it, modulo the 8-bit number 201. -/
def tMpAux (op0 : Byte) : Bytes := [2, 0, 8, 0, 0, 0, 0, 0] ++ zeros 8 ++ [op0, 0, 0, 0, 5, 0, 0, 0] ++ [0x18, 0, 0, 0, 0, 0, 0, 0]
def tMpJob (op0 : Byte) (n : Byte) : Job :=
  { tSvcJob 0x6001 with e := { opcode := 0x6001, inLen := 1, outCap := 1, auxLen := 32 }, inData := [n], auxData := tMpAux op0 }
def tMpRun (idx : Nat) : Job := { tMpJob 0x04 201 with mp := some { idx := idx } }

/-- The first command, not the last, and the second, the last. -/
theorem wit_ModularCommandResults : ∀ idx < 2,
    engJob (tSvcOf (tMpRun idx)).dev 16 = some (tMpRun idx) ∧ JobReady (tSvcOf (tMpRun idx)).dev 7 (isCode 0x6001) (tMpRun idx)
    ∧ ((mpProg (tMpRun idx).auxData).words[idx]?).isSome = true ∧ (tMpRun idx).outBad = none ∧ OwnQueues (tSvcOf (tMpRun idx)).dev (tMpRun idx)
    ∧ (mpProg (tMpRun idx).auxData).words.length = 2 := by
  intro idx h
  refine ⟨?_, tReady _ (tMpRun idx) ?_, ?_, rfl, tSvcOwn (tMpRun idx) rfl, ?_⟩ <;> (have : idx = 0 ∨ idx = 1 := by omega) <;>
    rcases this with rfl | rfl <;> decide +kernel
/-- The program runs; an unknown code is refused, and so is an even modulus, and a program of the wrong length. -/
theorem wit_ModularCommandResults_run :
    JobReady (tSvcOf (tMpJob 0x04 201)).dev 7 (isCode 0x6001) (tMpJob 0x04 201) ∧ (tMpJob 0x04 201).mp = none
    ∧ (mpStart (tSvcOf (tMpJob 0x04 201)).dev (tMpJob 0x04 201)).isOk = true
    ∧ (mpFault (fun _ => true) (mpProg (tMpJob 0x1F 201).auxData) 1 none).isSome = true ∧ (mpRange (mpProg (tMpJob 0x04 200).auxData) [200]).isSome = true
    ∧ [(0 : Byte)].length ≠ 16 + 8 * (mpProg [0]).ncmd :=
  ⟨tReady _ (tMpJob 0x04 201) (by decide +kernel), rfl, by decide +kernel⟩
/-- LOADK of a component of a key without PROG_OUT, stored. -/
theorem wit_ModularCommandResults_leak : mpLeaks [] ((mpProg (tMpAux 0x03)).words.map mpParse) = true := by decide +kernel

/-! A context whose checks pass: the tag of KMAC is 16 bytes. -/

theorem tRhoPi_length (s : List U64) : (keccakRhoPi s).length = s.length := by
  unfold keccakRhoPi
  generalize List.range 24 = ts
  suffices h : ∀ (a : Nat × List U64), a.2.length = s.length → ((ts.foldl (fun (at_ : Nat × List U64) t =>
    let dst := at_.1 / 5 + 5 * ((2 * (at_.1 % 5) + 3 * (at_.1 / 5)) % 5)
    (dst, at_.2.set dst ((s.getD at_.1 0).rotateLeft ((t + 1) * (t + 2) / 2)))) a).2).length = s.length from h _ rfl
  intro a h
  induction ts generalizing a with
  | nil => exact h
  | cons t ts ih => exact ih _ (by simpa using h)
theorem tKeccakRound_length (s : List U64) (rc : U64) : (keccakRound s rc).length = s.length := by
  simp [keccakRound, keccakChi, keccakTheta, tRhoPi_length]
theorem tKeccakF_length (s : List U64) : (keccakF s).length = s.length := by
  unfold keccakF
  generalize keccakRc = ks
  induction ks generalizing s with
  | nil => rfl
  | cons k ks ih => rw [List.foldl_cons, ih, tKeccakRound_length]
theorem tAbsorb_length (rate : Nat) (bs : List Bytes) (s : List U64) (h : s.length = 25) : (spongeAbsorb rate bs s).length = 25 := by
  unfold spongeAbsorb
  induction bs generalizing s with
  | nil => exact h
  | cons b bs ih =>
    rw [List.foldl_cons]
    apply ih
    rw [tKeccakF_length, List.length_zipWith, h, lanesOf, List.length_map, List.length_range, Nat.min_self]
theorem tTag_length (k x : Bytes) : (kmac256 k x 16 (ascii "SQ-CTX-T")).length = 16 := by
  have hz : (ascii "KMAC").isEmpty = false := by decide
  unfold kmac256 kmac cshake
  rw [hz]
  simp only [Bool.false_and, Bool.false_eq_true, if_false]
  unfold sponge spongeSqueeze
  simp only [show (16 : Nat) ≤ 136 by decide, if_true, List.length_take]
  have := tAbsorb_length 136 (chunks 136 (spongePad 136 4 (bytepad (encodeString (ascii "KMAC") ++ encodeString (ascii "SQ-CTX-T")) 136 ++
        (bytepad (encodeString k) 136 ++ x ++ rightEncode (8 * 16)))).length (spongePad 136 4 (bytepad (encodeString (ascii "KMAC") ++ encodeString (ascii "SQ-CTX-T")) 136 ++
        (bytepad (encodeString k) 136 ++ x ++ rightEncode (8 * 16))))) (List.replicate 25 0) rfl
  unfold bytesOfLanes
  generalize spongeAbsorb _ _ _ = z at this ⊢
  obtain ⟨a, z, rfl⟩ : ∃ a t, z = a :: t := by cases z with | nil => simp at this | cons a t => exact ⟨a, t, rfl⟩
  obtain ⟨b, z, rfl⟩ : ∃ a t, z = a :: t := by cases z with | nil => simp at this | cons a t => exact ⟨a, t, rfl⟩
  simp [le64, leBytes]
/-- The head and body of a context of the test device, all zero but for what the checks ask. -/
def tCtxHead : Bytes := le32 0x58435453 ++ le16 0x7045 ++ zeros 6 ++ le32 0xFFFFFFFF ++ zeros 480
def tCtx (op : U16) : Bytes := tCtxHead ++ kmac256 (ctxKey (tSvc op).dev 0) tCtxHead 16 (ascii "SQ-CTX-T")
theorem tCtx_ok (op : U16) (h : opSet op = opSet 0x7045) : ctxFault (tSvc op).dev (tSvcJob op) (tCtx op) = none := by
  have ht := tTag_length (ctxKey (tSvc op).dev 0) tCtxHead
  unfold tCtx
  generalize hg : kmac256 (ctxKey (tSvc op).dev 0) tCtxHead 16 (ascii "SQ-CTX-T") = t at ht ⊢
  have hl : tCtxHead.length = 0x1F0 := by decide +kernel
  have h0 : slice (tCtxHead ++ t) 0 0x1F0 = tCtxHead := by
    unfold slice
    simp [← hl, zeros]
  have h1 : slice (tCtxHead ++ t) 0x1F0 16 = t := by
    unfold slice
    rw [← hl, List.drop_left, List.take_of_length_le (by omega)]
    simp [zeros, ht]
  have e1 : u32At (tCtxHead ++ t) 0 = 0x58435453 := by
    have hs : slice (tCtxHead ++ t) 0 4 = [0x53, 0x54, 0x43, 0x58] := rfl
    unfold u32At
    rw [hs]
    decide
  have e2 : byteAt (tCtxHead ++ t) 7 = 0 := rfl
  have e3 : u32At (tCtxHead ++ t) 8 = 0 := rfl
  have e4 : u16At (tCtxHead ++ t) 4 = 0x7045 := by
    have hs : slice (tCtxHead ++ t) 4 2 = [0x45, 0x70] := rfl
    unfold u16At
    rw [hs]
    decide
  have e5 : u32At (tCtxHead ++ t) 0xC = 0xFFFFFFFF := by
    have hs : slice (tCtxHead ++ t) 0xC 4 = [0xFF, 0xFF, 0xFF, 0xFF] := rfl
    unfold u32At
    rw [hs]
    decide
  have e6 : byteAt (tCtxHead ++ t) 6 = 0 := rfl
  have e7 : kmac256 (ctxKey (tSvc op).dev (tSvcJob op).owner) (slice (tCtxHead ++ t) 0 0x1F0) 16 (ascii "SQ-CTX-T") = t := by
    rw [h0]
    exact hg
  have e8 : opSet (u16At (tCtxHead ++ t) 4) = opSet (tSvcJob op).e.opcode := by rw [e4]; exact h.symm
  have e9 : (byteAt (tCtxHead ++ t) 6).toNat = (tSvcJob op).owner := by rw [e6]; rfl
  unfold ctxFault
  rw [if_neg (by simp [e1, e2]), if_neg (fun y => y e3), if_neg (fun y => y e8), if_neg (fun y => y e5),
    if_neg (by simp [e9, e7, h1])]

theorem wit_ControlAndHashResults :
    (∀ x ∈ [((0x0001 : U16), isCode 0x0001), (0x0007, isCode 0x0007), (0x0002, isCode 0x0002), (0x0003, isCode 0x0003), (0x0004, isCode 0x0004),
        (0x0005, isCode 0x0005), (0x0006, isCode 0x0006), (0xB002, isCode 0xB002)], JobWaiting (tSvcOf (tWJob x.1 0 [])).dev 7 x.2 (tWJob x.1 0 []))
    ∧ OwnQueues (tSvcOf (tWJob 1 0 [])).dev (tWJob 1 0 []) ∧ fateNode (tSvcOf (tWJob 5 0 [])).dev (fqArgs (tSvcOf (tWJob 5 0 [])).dev 0 0 0) = none
    ∧ ∀ x ∈ [((0x7041 : U16), isOp 7 1), (0x7042, isOp 7 2), (0x7043, isOp 7 3), (0x7044, isOp 7 4), (0x7045, isOp 7 5), (0x7046, isOp 7 6),
        (0x7047, isOp 7 7)], JobReady (tSvc x.1).dev 7 x.2 (tSvcJob x.1) :=
  ⟨tWaitAll _ (by decide +kernel), tSvcOwn _ rfl, by decide +kernel, tReadyAll _ (by decide +kernel)⟩
/-- An empty context is refused; one with the right head and tag is not. -/
theorem wit_ControlAndHashResults_context : ctxFault (tSvc 0x7045).dev (tSvcJob 0x7045) [] = some 1
    ∧ ∀ op ∈ [(0x7045 : U16), 0x7046, 0x7047], ctxFault (tSvc op).dev (tSvcJob op) (tCtx op) = none := by
  refine ⟨rfl, fun op h => tCtx_ok op ?_⟩
  simp only [List.mem_cons, List.not_mem_nil, or_false] at h
  rcases h with rfl | rfl | rfl <;> rfl

theorem wit_SymmetricResults : ∀ x ∈ [((0x8041 : U16), isOp 8 1), (0x8042, isOp 8 2), (0x8043, isOp 8 3), (0x8044, isOp 8 4), (0x8045, isOp 8 5),
    (0x8046, isOp 8 6), (0x8047, isOp 8 7), (0x8048, isOp 8 8), (0x8049, isOp 8 9), (0x804A, isOp 8 0x0A), (0x804B, isOp 8 0x0B)],
    JobReady (tSvc x.1).dev 7 x.2 (tSvcJob x.1) := tReadyAll _ (by decide +kernel)
/-- IV bits; the last counter that does not wrap, and the first that does. -/
theorem wit_SymmetricResults_forms : pbit { param := 0 } 0 = false ∧ pbit { param := 1 } 0 = true ∧ 2 ^ 128 - 1 + cdiv 16 16 ≤ 2 ^ 128
    ∧ 2 ^ 128 < 2 ^ 128 - 1 + cdiv 17 16 := by decide +kernel

/-- HQC-1 (set 16) and mceliece348864 (set 1); a key with non-zero and zero padding. -/
theorem wit_CodeBasedResults : (codeSet 16).isSome = true ∧ (codeSet 1).isSome = true ∧ isHqc 16 = true ∧ isHqc 1 = false
    ∧ (∀ x ∈ [((0x4401 : U16), isOp 4 1), (0x4041, isOp 4 1), (0x4402, isOp 4 2), (0x4404, isOp 4 4), (0x4403, isOp 4 3), (0x4405, isOp 4 5),
      (0x4406, isOp 4 6), (0x4407, isOp 4 7)], JobReady (tSvc x.1).dev 7 x.2 (tSvcJob x.1))
    ∧ pbit { param := 2 } 1 = true ∧ codePkBad 16 [0xFF] = some 0x0402 ∧ codePkBad 16 [0] = none :=
  ⟨rfl, rfl, rfl, rfl, tReadyAll _ (by decide +kernel), by decide +kernel⟩

theorem wit_KemResults : (∀ x ∈ [((0x1041 : U16), isOp 1 1), (0x1042, isOp 1 2), (0x1044, isOp 1 4), (0x1043, isOp 1 3), (0x1045, isOp 1 5),
      (0x1046, isOp 1 6), (0x1047, isOp 1 7)], JobReady (tSvc x.1).dev 7 x.2 (tSvcJob x.1)) ∧ isHybrid (opSet 0x1041) = false
    ∧ ekOk (zeros 800) = true ∧ ekOk (List.replicate 3 0xFF ++ zeros 797) = false ∧ hasKey0 (tSvcJob 0x1042) = false :=
  ⟨tReadyAll _ (by decide +kernel), by decide +kernel⟩
/-- A hybrid job before its halves, and with both. -/
def tHyb (op : U16) (core ec : Option Bytes) : Job := { tSvcJob op with coreDone := core, ecDone := ec }
theorem wit_KemResults_hybrid : (∀ op ∈ [(0x1401 : U16), 0x1402, 0x1403, 0x1404, 0x1405], HybridReady (tSvc op).dev (tSvcJob op))
    ∧ (∀ op ∈ [(0x1402 : U16), 0x1404], JobReady (tSvcOf (tHyb op (some [1]) (some [2]))).dev 7 (isOp 1 (opOp op)) (tHyb op (some [1]) (some [2])))
    ∧ (∀ op ∈ [(0x1403 : U16), 0x1405], JobReady (tSvcOf (tHyb op (some [1]) (some [2]))).dev 7 (isOp 1 (opOp op)) (tHyb op (some [1]) (some [2])))
    ∧ JobReady (tSvcOf (tHyb 0x1401 (some [1]) (some [2]))).dev 7 (isOp 1 1) (tHyb 0x1401 (some [1]) (some [2])) ∧ isHybrid (opSet 0x1401) = true := by
  refine ⟨?_, ?_, ?_, tReady _ (tHyb 0x1401 (some [1]) (some [2])) (by decide +kernel), rfl⟩
  · intro op h
    simp only [List.mem_cons, List.not_mem_nil, or_false] at h
    rcases h with rfl | rfl | rfl | rfl | rfl <;> exact ⟨rfl, ⟨rfl, rfl⟩, rfl, rfl, rfl⟩
  all_goals
    intro op h
    simp only [List.mem_cons, List.not_mem_nil, or_false] at h
    rcases h with rfl | rfl <;> exact tReady _ (tHyb _ (some [1]) (some [2])) (by decide +kernel)
/-- A point that X25519 refuses, and one it takes. -/
theorem wit_KemResults_point : (match (hybDh tDev 16 (zeros 32) (zeros 32)).1 with | .error _ => true | .ok _ => false) = true
    ∧ (match (hybDh tDev 16 (zeros 32) (9 :: zeros 31)).1 with | .error _ => false | .ok _ => true) = true := by decide +kernel

/-- ML-DSA-44 (set 1) and FN-DSA-512 (set 8). -/
theorem wit_LatticeSignatureResults : (latSet 2 1).isSome = true ∧ (latSet 2 8).isSome = true ∧ isFnDsa 1 = false ∧ isFnDsa 8 = true
    ∧ (∀ x ∈ [((0x2041 : U16), isOp 2 1), (0x2201, isOp 2 1), (0x2042, isOp 2 2), (0x2043, isOp 2 3), (0x2044, isOp 2 4), (0x2202, isOp 2 2),
      (0x2045, isOp 2 5), (0x2046, isOp 2 6), (0x2047, isOp 2 7), (0x2205, isOp 2 5), (0x2048, isOp 2 8)], JobReady (tSvc x.1).dev 7 x.2 (tSvcJob x.1))
    ∧ (signForms (tSvcJob 0x2042)).map (·.2.1) = [2, 3, 4] ∧ (verifyForms (tSvcJob 0x2045)).map (·.2.1) = [5, 6, 7]
    ∧ hasKey0 (tSvcJob 0x2205) = false := ⟨rfl, rfl, rfl, rfl, tReadyAll _ (by decide +kernel), by decide +kernel⟩

theorem wit_StatelessHashSignatureResults : (∀ x ∈ [((0x3041 : U16), isOp 3 1), (0x3042, isOp 3 2), (0x3043, isOp 3 3), (0x3045, isOp 3 5),
    (0x3046, isOp 3 6), (0x3048, isOp 3 8)], JobReady (tSvc x.1).dev 7 x.2 (tSvcJob x.1)) ∧ isSlh 1 = true := ⟨tReadyAll _ (by decide +kernel), rfl⟩

/-- Stateful keys: XMSS (set 0x18). An index is left and a block is open; none is left. -/
def tSs (limit next : Nat) : Option SsKey :=
  some { set := 0x18, levels := 1, oid := 1, limit := limit, next := next, isOpen := true, blockEnd := next + 1 }
def tSsDev (limit next : Nat) (b : Job) : Dev := { (tSvcOf b).dev with ss := { keys := [(slotKey 0 5, tSs limit next)] } }
theorem wit_StatefulSignatureResults :
    (∀ x ∈ [((0x3601 : U16), isOp 3 1), (0x3602, isOp 3 2), (0x3605, isOp 3 5), (0x3609, fun e => isOp 3 9 e && isStateful (opSet e.opcode)),
      (0x360A, fun e => isOp 3 0x0A e && isStateful (opSet e.opcode))], JobReady (tSvc x.1).dev 7 x.2 (tSvcJob x.1)) ∧ isSlh 0x18 = false
    ∧ (parseBlock 0x18 []).isNone = true ∧ (parseBlock 0x18 ([1, 5, 0, 0, 1, 0, 0, 0] ++ zeros 32)).isSome = true
    ∧ (ssTake (tSsDev 1024 9 (tSvcJob 0x3602)) 0 5).isSome = true ∧ (ssTake (tSsDev 9 9 (tSvcJob 0x3602)) 0 5).isNone = true
    ∧ (pkParams 0x18 (be32 1)).isSome = true ∧ (pkParams 0x18 []).isNone = true
    ∧ (∀ x ∈ [((0xC001 : U16), isCode 0xC001), (0xC002, isCode 0xC002), (0xC003, isCode 0xC003), (0xC004, isCode 0xC004)],
        JobWaiting (tSvcOf (tWJob x.1 0 [])).dev 7 x.2 (tWJob x.1 0 []))
    ∧ keyBusy (tSvcOf (tWJob 0xC004 5 [])).dev (tWJob 0xC004 5 []) 5 = false
    ∧ keyBusy { tDev with jobs := { live := [tWJob 0xC004 5 [], { id := 8, e := { key0 := 5 }, phase := .placed }] } } (tWJob 0xC004 5 []) 5 = true :=
  ⟨tReadyAll _ (by decide +kernel), rfl, by decide +kernel, by decide +kernel, by decide +kernel, by decide +kernel, by decide +kernel, by decide +kernel,
    tWaitAll _ (by decide +kernel), by decide +kernel⟩
/-- With a block open and with none. -/
theorem wit_IndexUsedOnce : mapWf none (tSsDev 1024 9 (tSvcJob 0x3602)).ss.keys = true ∧ (ssTake (tSsDev 1024 9 (tSvcJob 0x3602)) 0 5).isSome = true
    ∧ (getSs (tSsDev 1024 9 (tSvcJob 0x3602)) 0 5).isOpen = true := by decide +kernel

/-- P-256 (set 1), Ed25519 (set 0x12), X25519 (set 0x10), RSA (set 0x20). -/
theorem wit_ClassicalKeyResults : (∀ x ∈ [((0x5041 : U16), isOp 5 1), (0x5801, isOp 5 1), (0x504B, isOp 5 0x0B), (0x520C, isOp 5 0x0C), (0x5048, isOp 5 8)],
    JobReady (tSvc x.1).dev 7 x.2 (tSvcJob x.1)) ∧ isRsa 1 = false ∧ isRsa 0x20 = true
    ∧ ((match pkLoaded p256 1 [] with | .error _ => true | .ok _ => false) = true)
    ∧ (8192 : Nat) ∈ [2048, 3072, 4096, 6144, 8192] ∧ (blockCurve (zeros 200)).pbits < 160 :=
  ⟨tReadyAll _ (by decide +kernel), rfl, rfl, by decide +kernel⟩
theorem wit_ClassicalSignatureResults : (∀ x ∈ [((0x5042 : U16), isOp 5 2), (0x5482, isOp 5 2), (0x5802, isOp 5 2), (0x5803, isOp 5 3), (0x5045, isOp 5 5),
    (0x5485, isOp 5 5), (0x5805, isOp 5 5), (0x5806, isOp 5 6)], JobReady (tSvc x.1).dev 7 x.2 (tSvcJob x.1))
    ∧ isWeier 1 = true ∧ isWeier 0x12 = false ∧ isEdwards 0x12 = true ∧ isWeier 0x20 = false ∧ isEdwards 0x20 = false
    ∧ (pssEncode 2 (zeros 32) (zeros 32) 2047).isSome = true ∧ (pssEncode 2 (zeros 32) (zeros 32) 511).isNone = true
    ∧ (rsaKeyFault (zeros 260)).isSome = true ∧ (rsaKeyFault (beBytes 4 65537 ++ (0x80 :: zeros 254) ++ [1])).isNone = true
    ∧ (edDecode (edCurve false) (2 :: zeros 31)).isNone = true :=
  ⟨tReadyAll _ (by decide +kernel), by decide +kernel⟩
theorem wit_AgreementAndEncryptionResults : (∀ x ∈ [((0x5049 : U16), isOp 5 9), (0x504A, isOp 5 0x0A), (0x580D, isOp 5 0x0D), (0x580E, isOp 5 0x0E),
    (0x580F, isOp 5 0x0F), (0x5810, isOp 5 0x10)], JobReady (tSvc x.1).dev 7 x.2 (tSvcJob x.1))
    ∧ ((match (dhSecret tDev p256 1 (zeros 32) [] true).1 with | .error _ => true | .ok _ => false) = true)
    ∧ (oaepEncode 2 32 [] (zeros 190) (zeros 32) 256).isSome = true ∧ (oaepEncode 2 32 [] (zeros 191) (zeros 32) 256).isNone = true :=
  ⟨tReadyAll _ (by decide +kernel), by decide +kernel⟩

/-- A job whose new object waits for its MRAM write. -/
def tKeepJob : Job := { tSvcJob 0xA001 with keep := some {} }
theorem wit_KeyManagementResults : (∀ x ∈ [((0xA001 : U16), isCode 0xA001), (0xA002, isCode 0xA002), (0xA008, isCode 0xA008), (0xA009, isCode 0xA009),
    (0xA00A, isCode 0xA00A), (0xA00B, isCode 0xA00B), (0xA00C, isCode 0xA00C)], JobReady (tSvc x.1).dev 7 x.2 (tSvcJob x.1))
    ∧ findJob (tSvcOf tKeepJob).dev 7 = some tKeepJob ∧ tKeepJob.keep = some {} ∧ tKeepJob.committed = false ∧ (tSvc 0xA00C).dev.ks.zsoft = none
    ∧ { ({} : SoftZ) with owner := 1 } ≠ {} :=
  ⟨tReadyAll _ (by decide +kernel), by decide +kernel⟩

/-- A job of a KEM decapsulation whose KEY0 blob is at hand; the blob's head is not one. -/
def tBlobJob : Job := { tSvcJob 0x1043 with e := { opcode := 0x1043, key0 := blobHandle, auxLen := 64 }, phase := .unwrapping, eng := none, auxData := zeros 64 }
theorem wit_KeyTransportResults : (∀ x ∈ [((0xA003 : U16), isCode 0xA003), (0xA004, isCode 0xA004), (0xA005, isCode 0xA005), (0xA006, isCode 0xA006),
    (0xA007, isCode 0xA007), (0xA006, fun e => isCode 0xA006 e || isCode 0xA007 e)], JobReady (tSvc x.1).dev 7 x.2 (tSvcJob x.1))
    ∧ (tSvcJob 0xA006).step = 0 ∧ opOp 0xA006 = 6 ∧ opOp 0xA007 = 7
    ∧ findJob (tSvcOf tBlobJob).dev 7 = some tBlobJob ∧ tBlobJob.auxData.length = tBlobJob.e.auxLen.toNat
    ∧ (opSpec (tSvcOf tBlobJob).dev 0 tBlobJob.e).isSome = true ∧ late (tSvcOf tBlobJob).dev tBlobJob.e = false
    ∧ blobHeadOk tBlobJob.auxData = false ∧ resolveStopped (tSvcOf tBlobJob).dev 0 = false :=
  ⟨tReadyAll _ (by decide +kernel), by decide +kernel⟩

theorem wit_RandomAndAttestResults : (∀ x ∈ [((0x9001 : U16), isCode 0x9001), (0x9002, isCode 0x9002), (0x9003, isCode 0x9003), (0x9004, isCode 0x9004),
    (0xB001, isCode 0xB001), (0xB003, isCode 0xB003)], JobReady (tSvc x.1).dev 7 x.2 (tSvcJob x.1))
    ∧ (tSvc 0x9001).dev.rng.hold = none ∧ pbit { param := 0x80000000 } 31 = true ∧ (tSvcJob 0x9001).step = 0 :=
  ⟨tReadyAll _ (by decide +kernel), by decide +kernel⟩

/-! ## Witnesses: queues and the way of a job -/

/-- The test device with its SQ 0 and its CQ 0 as given. -/
def tSq (q : Sq) : Dev := { tDev with sqs := [(0, q)] }
def tCq (q : Cq) : Dev := { tDev with cqs := [(0, q)] }

theorem wit_QueueCommandResults : (∀ q : Sq, SqOpen (tSq q) 0 0 0) ∧ (∀ q : Cq, CqOpen (tCq q) 0 0 0) ∧ isReady tDev = true
    ∧ Gives (.sqDoorbell 0 0 0) (tOf tDev) tDev ∧ enableBarred tDev = false
    ∧ (let r := getSq tDev 0
      r.en = true ∧ r.stopped = false ∧ sqSize r = 64 ∧ ¬ sqSize r < ((64 : U32) - r.head).toNat ∧ sqSize r < ((65 : U32) - r.head).toNat)
    ∧ (getCq tDev 0).en = true ∧ ((3 : U32) - (getCq tDev 0).head).toNat ≤ ((getCq tDev 0).tail - (getCq tDev 0).head).toNat
    ∧ (let r := getSq (tSq { en := true, push := true, window := [0, 0, 0, 0] }) 0
      (1 : U32) = r.tail + 1 ∧ byteAt (fit 64 r.window) 3 = genOf r.log2 r.tail)
    ∧ (let r := getCq (tCq { en := true, timer := true, unsig := 1 }) 0
      r.timer = true ∧ 0 < r.unsig)
    ∧ (getSq (tSq {}) 0).en = false ∧ (getCq (tCq {}) 0).en = false ∧ (sqEnableRefusal (tSq {}) 0 0 (sqFields {} 0x60)).isSome = false
    ∧ (sqEnableRefusal (tSq {}) 0 0 (sqFields {} 0x30)).isSome = true
    ∧ (cqFields {} 0x06).log2.toNat ≤ 16 ∧ 0 < vecCount tDev 0 ∧ cqBusy (tCq { en := true }) 0 = true ∧ cqBusy { (tCq { en := true }) with sqs := [] } 0 = false
    ∧ isReady { tDev with glob.st := .safe } = false := by
  refine ⟨fun q => ⟨rfl, rfl⟩, fun q => ⟨rfl, rfl⟩, rfl, rfl, ?_⟩
  decide +kernel

theorem wit_CqHeadOutOfRange : CqOpen tDev 0 0 0 ∧ isReady tDev = true ∧ (getCq tDev 0).en = true ∧ Gives (.sqDoorbell 0 0 0) (tOf tDev) tDev
    ∧ ((getCq tDev 0).tail - (getCq tDev 0).head).toNat < ((4 : U32) - (getCq tDev 0).head).toNat :=
  ⟨⟨rfl, rfl⟩, rfl, rfl, rfl, by decide +kernel⟩

/-- An enabled SQ is bound to the CQ; none is, and completions are reserved. -/
theorem wit_CqDisableRefused : CqOpen tDev 0 0 0 ∧ (getCq tDev 0).en = true
    ∧ (∃ q x o, (q, x) ∈ tDev.sqs ∧ (x.en = true ∨ x.draining = true) ∧ sqOwner tDev q = some o ∧ boundCq tDev o x = 0)
    ∧ (getCq (tCq { en := true, reserved := 1 }) 0).reserved ≠ 0 :=
  ⟨⟨rfl, rfl⟩, rfl, ⟨0, { en := true, tail := 0 }, 0, by decide +kernel⟩, by decide +kernel⟩

/-- An SQ with an entry to fetch, and one that holds the entry. -/
def tFull : Dev := tSq { en := true, tail := 1 }
/-- A job of the random service, waiting, with nothing to fetch. -/
def tPlJob : Job := { id := 7, e := { opcode := 0x9001, outCap := 4, param := 4 }, phase := .waiting }
def tPlDev : Dev := { tDev with jobs := { live := [tPlJob] } }
/-- A job whose output list ends after one segment. -/
def tListJob (segs : List Seg) : Job := { id := 7, e := { outCap := 16 }, outSegs := some segs }
theorem wit_JobFlowResults : isReady tFull = true ∧ fetchStopped tFull 0 = false ∧ nextSq tFull 0 = some 0
    ∧ (getSq (tSq { en := true, tail := 1, held := some [] }) 0).held = some [] ∧ nextSq (tSq { en := true, tail := 1, held := some [] }) 0 = some 0
    ∧ slotTurn tFull 0 0 = true ∧ slotTurn { tFull with cqs := [(0, { en := true, tail := 64 })] } 0 0 = false
    ∧ (ownJobs tFull 0).length < (getOwn tFull 0).sh.credit.toNat ∧ (getSq tFull 0).captured = []
    ∧ ((getSq (tSq { en := true, tail := 1, captured := [(0, [])] }) 0).captured.find? fun x => x.1 == 0) = some (0, [])
    ∧ (getSq (tSq { en := true, tail := 1, reading := some 0 }) 0).reading = some 0 ∧ sqOwner tFull 0 = some 0
    ∧ (formFault 6 0 { gen := genOf 6 0 + 1 }).isSome = true ∧ formFault 6 0 { gen := genOf 6 0, opcode := 1 } = none
    ∧ goesHome tFull 0 {} = false ∧ journalled tFull 0 {} = false
    ∧ findJob tPlDev 7 = some tPlJob ∧ tPlJob.phase = .waiting ∧ tPlJob.nextKind = 0 ∧ (opSpec tPlDev 0 tPlJob.e).isSome = true
    ∧ resolveStopped tPlDev 0 = false ∧ outranked tPlDev tPlJob = false ∧ late tPlDev tPlJob.e = false
    ∧ (pickEngine (preempt tPlDev tPlJob .rng) tPlJob .rng).isSome = true ∧ keyWaits tPlDev 0 tPlJob.e = false
    ∧ tPlDev.rng.state ≠ .error ∧ tPlDev.rng.hold = none ∧ tPlJob.remote = false := by
  decide +kernel
/-- Lists that are not whole, broken, whole, and whole but wrapping. -/
theorem wit_JobFlowResults_list : segScan [] 0 16 = .more ∧ segScan [⟨0, 0, 0⟩] 0 16 = .bad 0 ∧ segScan [⟨0, 16, 0⟩] 0 16 = .done 1
    ∧ segWraps [⟨0, 16, 0⟩] = none ∧ (segWraps [⟨0xFFFFFFFFFFFFFFFF, 16, 0⟩]).isSome = true
    ∧ findJob { tDev with jobs := { live := [tListJob [⟨0, 16, 0⟩]] } } 7 = some (tListJob [⟨0, 16, 0⟩]) := by
  decide +kernel

theorem wit_DealerResults : isReady tDev = true ∧ tDev.dlr.window = false ∧ barOk tDev 0 = true ∧ tDev.dlr.src = false ∧ tDev.dlr.pending = false
    ∧ tDev.dlr.chkBusy = false ∧ (planTable tDev).isOk = true ∧ (checkTable tDev []).isSome = true
    ∧ checkTable tDev [(0, 0x44), (1, 0x4C), (2, 0x54), (3, 0x42)] = none
    ∧ (let d : Dev := { tDev with dlr := { window := true, trick := 63, pending := true, chkBusy := true, planFor := some 1, src := true, level := 1 }
                                  tmon := { coolTb := some 0 }, glob := { tDev.glob with tb := 100000000 }
                                  vfm := { enabling := some 1, apply := some (1, {}) } }
      d.dlr.window = true ∧ d.dlr.trick = 63 ∧ d.tmon.coolTb = some 0 ∧ 100000000 ≤ (d.glob.tb - 0).toNat ∧ d.dlr.level ≠ 0 ∧ isReady d = true
      ∧ d.dlr.pending = true ∧ d.dlr.planFor = some 1 ∧ d.vfm.enabling = some 1 ∧ d.vfm.apply = some (1, {}) ∧ d.dlr.chkBusy = true) := by
  decide +kernel

/-- VF 1 in a state, named by the selector. -/
def tVf (st : OwnState) : Dev :=
  { tDev with own := [(0, (getOwn tDev 0)), (1, { state := st })], hif := { tDev.hif with vfEn := true, numVfs := 2 }, vfm := { sel := 1 } }
theorem wit_VfManagerResults : isReady tDev = true ∧ barOk tDev 0 = true ∧ tDev.vfm.busy = false ∧ vfmNode tDev = none
    ∧ (enableFault tDev 0 {}).isSome = true ∧ (applyFault tDev 255 {}).isSome = true
    ∧ (getOwn (tVf .active) 1).state = .active ∧ ownerThere (tVf .active) 1 = true ∧ vfHolds (tVf .active) 1 = false
    ∧ (getOwn (tVf .disabled) 1).state = .disabled ∧ ownerThere (tVf .disabled) 1 = true
    ∧ (getOwn (tVf .resetting) 1).state = .resetting ∧ (getOwn (tVf .removing) 1).state = .removing ∧ abandonDue (tVf .removing) 1 = false
    ∧ removing (tVf .removing) 1 = false ∧ tDev.hif.vfEn = false ∧ tDev.vfm.enabling = none
    ∧ (vfmNode { tVf .active with fab := { role := .lead, nodesel := 2 } }).isSome = true := by
  decide +kernel

/-- Source 0 in a state. -/
def tSrc (x : Src) : Dev := { tDev with rng := { tDev.rng with srcs := tDev.rng.srcs.set 0 x } }
theorem wit_RandomSourceResults : (getSrc (tSrc { state := .healthy }) 0).state ≠ .off ∧ rawJob (tSrc { state := .healthy }) 0 = none
    ∧ 2048 + 40 < 2089 ∧ 2007 + 40 < 2048 ∧ (List.replicate 128 (0 : Byte)).length = 128 ∧ tDev.rng.state = .ok ∧ tDev.rng.hold = none
    ∧ 2 ^ 20 ≤ ({ requests := 2 ^ 20 } : Rng).requests ∧ barOk tDev 0 = true
    ∧ holdSeeds { kind := .reseed, src := some 0 } = true ∧ holdSeeds { kind := .kat } = false
    ∧ 3 ≤ (getSrc (tSrc { state := .healthy, pool := [0, 0, 0] }) 0).pool.length ∧ recalRuns tDev = false
    ∧ (healthySrcs { tDev with rng := { srcs := Vector.replicate 4 { state := .healthy } } }).any (· != 0) = true
    ∧ recalRuns (tSrc { state := .recal }) = true ∧ (getSrc (tSrc { state := .recal, pfRecal := true }) 0).pfRecal = true
    ∧ (getSrc (tSrc { state := .retired, retryAt := some 0 }) 0).retryAt = some 0 := by
  decide +kernel

/-! ## Witnesses: the device's own states -/

/-- In a state of the device, and with a hard zeroise running. -/
def tSt (st : DevState) : Dev := { tDev with glob := { tDev.glob with st := st } }
def tHard : Dev := { tDev with glob := { tDev.glob with hardZ := some {} } }
theorem wit_ResetResults : tDev.glob.perstAsserted = false ∧ tDev.glob.hardZ = none ∧ tHard.glob.hardZ.isSome = true
    ∧ State.reset.dev.glob.porAsserted = true ∧ tDev.glob.st ≠ .bedrock ∧ softServed tDev = true ∧ softServed (tSt .bedrock) = false
    ∧ { tSt .safe with glob := { (tSt .safe).glob with safeCause := 8 } }.glob.safeCause = 8 := by
  decide +kernel
/-- What holds the device: POR_N alone, and nothing. -/
theorem wit_ResetResults_held : Held State.reset.dev ∧ ¬ Held tDev := by unfold Held; decide +kernel

theorem wit_DetectorAndTestResults : DetectorArmed { tDev with glob := { tDev.glob with armed := true } } 1
    ∧ DetectorArmed { tHard with glob := { tHard.glob with armed := true } } 6
    ∧ detZeroises { tDev with glob := { tDev.glob with armed := true } } 4 = false ∧ tDev.glob.porAsserted = false ∧ tDev.glob.vddBr = true
    ∧ (serdesDown tDev).hif.linkUp = true ∧ (serdesDown (tSt .bedrock)).glob.st = .bedrock ∧ tDev.glob.jtagHold = false
    ∧ ¬ Held { tDev with glob := { tDev.glob with jtagHold := false } } ∧ tDev.glob.lcCode ≠ 5 := by
  unfold DetectorArmed Held; decide +kernel

theorem wit_ZeroiseResults : tDev.glob.st ≠ .scrapped ∧ tDev.glob.hardZ = none ∧ (0xF : BitVec 6).getLsbD 3 = true
    ∧ ({ tDev.ks with zpol := 0 }).zpol.getLsbD 3 = false ∧ barOk tDev 0 = true ∧ isReady tDev = true ∧ tDev.ks.zsoft = none
    ∧ ((0x5A3C0002 : U32) >>> 16 = 0x5A3C ∧ (0x5A3C0002 : U32).getLsbD 1 = true) ∧ ((0x5A3C0001 : U32) >>> 16 = 0x5A3C ∧ (0x5A3C0001 : U32).getLsbD 0 = true)
    ∧ tHard.glob.hardZ = some {} ∧ tHard.glob.heldResets = []
    ∧ tDev.jobs.live.any (softHits { owner := 1 }) = false ∧ ({ owner := 1 } : SoftZ).byJob = none := by
  decide +kernel

/-- A grant in force with scopes, read by the debugger's instruction. -/
def tGrant (scope : BitVec 6) : Dev :=
  { tDev with glob := { tDev.glob with lcCode := 1 }, jtag := { insn := .debug }
              lc := { grant := some { scope := scope, signer := 0, until' := 1000 }, chal := some ([], 0) } }
theorem wit_LifeCycleResults : lcOpen tDev = true ∧ lcOpen (tSt .held) = true ∧ (tGrant 6).lc.chal = some ([], 0)
    ∧ 600000000000 ≤ ((600000000000 : U64) - 0).toNat ∧ (tokenFault tDev (readToken [])).isSome = true ∧ tokenOk (readToken []) = false
    ∧ (tGrant 6).lc.grant.isSome = true ∧ debugReach (tGrant 6) = true ∧ scopeOpen (tGrant 6) 1 = true ∧ scopeOpen (tGrant 6) 2 = true
    ∧ debugReach { tGrant 0 with glob := { tDev.glob with lcCode := 2 } } = true ∧ scopeOpen { tGrant 0 with glob := { tDev.glob with lcCode := 2 } } 1 = false
    ∧ scopeOpen { tGrant 0 with glob := { tDev.glob with lcCode := 2 } } 2 = false ∧ (getStore tDev 27).halted = false
    ∧ (getStore (modStore tDev 27 fun x => { x with halted := true }) 27).halted = true := by
  decide +kernel

theorem wit_IntegratorKeyProgramming : lcOpen tDev = true ∧ barOk tDev 0 = true ∧ lcOpen (tSt .held) = true ∧ barOk (tSt .held) 0 = true
    ∧ rowBlank tDev.otp.ikh[0] = true ∧ rowBlank (signerRow tDev.otp 2) = true ∧ (tGrant 0).glob.lcCode ≠ 2
    ∧ { tDev.glob with lcCode := 2 }.lcCode = 2 := by
  decide +kernel

/-! ## Witnesses: update, tests and records -/

theorem wit_LiveUpdateResults : bootOpen tDev = true ∧ tDev.glob.st ≠ .held ∧ (tSt .held).glob.st = .held ∧ bootOpen (tSt .held) = true
    ∧ nvmDown tDev = false ∧ nvmDown { tDev with boot := { tDev.boot with nvmErr := true } } = true
    ∧ slotState tDev.boot.dir (idleSlot tDev) ≠ slTrial
    ∧ slotState { stA := slGood } 0 = slGood ∧ slotState { stB := slTrial } 1 = slTrial ∧ slotState { stA := slWritten } 0 = slWritten
    ∧ 1 ≤ (4096 : Nat) ∧ 4096 ≤ slotBytes
    ∧ (let d : Dev := { tDev with boot := { tDev.boot with busy := true, rollout := [(2, 0)], stepDone := true, handover := true } }
      d.boot.busy = true ∧ d.boot.rollout = [(2, 0)] ∧ stepSeq 2 0 = some 24 ∧ d.boot.stepDone = true ∧ d.boot.handover = true
      ∧ (getStore d 24).staged = false ∧ supvQuiet d = true)
    ∧ supvQuiet { tDev with dlr := { chkBusy := true } } = false
    ∧ (let d : Dev := modEng tDev 3 fun r => { r with svc := .draining }
      (getEng d 3).svc = .draining ∧ cellIdle d 3 = true ∧ cellHalted d 3 = false ∧ testTurn d 3 = false
      ∧ testTurn { d with bist := { queue := [3] } } 3 = true)
    ∧ (getEng tDev 28).svc ≠ .draining ∧ cellSeq 28 = some 24 ∧ kindTested tDev 28 = false
    ∧ (getStore (modStore tDev 24 fun x => { x with drain := true, staged := true }) 24).drain = true ∧ tDev.boot.nvmErr = false := by
  decide +kernel

/-- An NVM whose slot 0 holds a section of one component and the integrator's section without one, both by their format. -/
def tNvm : SMap Byte :=
  nvmWrite (nvmWrite [] (slotBase 0) (le32 0x4E414D53 ++ [1, 0, 1, 0] ++ zeros 56 ++ [1] ++ zeros 79)) (slotBase 0 + 8192)
    (le32 0x47464353 ++ [1, 0, 0, 0] ++ zeros 56)
theorem wit_LiveUpdateResults_image : (slotSects { tDev with boot := { tDev.boot with nvm := tNvm, slot := 0 } }).isSome = true := by decide +kernel

theorem wit_InServiceTestResults : isReady tDev = true ∧ ({ isEn := true } : Bist).isEn = true ∧ (kindCells (testKind 0)).filter (mayTest tDev) ≠ []
    ∧ (kindCells (testKind 0)).find? (fun c => !( [(0 : Nat)].contains c)) = some 1 ∧ (kindCells (testKind 0)).find? (fun c => !(List.range 16).contains c) = none
    ∧ ctlServed tDev = true ∧ (0x11F : U32).getLsbD 8 = true ∧ (0x11F : U32).toNat % 64 < 32 ∧ 32 ≤ (0x120 : U32).toNat % 64
    ∧ (getEng tDev 31).svc = .inService ∧ reservedCells tDev 31 = false ∧ lastOfKind tDev 31 = false ∧ partCell 31 < 32
    ∧ (getEng (modEng tDev 3 fun r => { r with svc := .retired }) 3).svc = .retired
    ∧ (getEng (modEng tDev 3 fun r => { r with svc := .inTest }) 3).svc = .inTest
    ∧ lastOfKind ((List.range 15).foldl (fun d c => modEng d c fun r => { r with svc := .retired }) tDev) 15 = true
    ∧ findJob tPy.dev 7 = some tJob ∧ tJob.phase = .placed ∧ cellJob tPy.dev 0 = some tJob
    ∧ (getSlot { tDev with ks := { tDev.ks with slots := [(slotKey 0 5, { obj := some {} })] } } 0 5).obj = some {}
    ∧ cellJob tDev (seqCell 27) = none := by
  decide +kernel

/-- The recorder runs; a query's SQ is homed on node 2. -/
def tRec : Dev := { tDev with recd := { live := true, mirrorEn := true } }
theorem wit_RecorderAndFateResults : recServes tRec = true ∧ barOk tRec 0 = true ∧ tRec.recd.ckptBusy = none ∧ (ckptBank tRec).isSome = true
    ∧ ckptBank { tRec with bdr := { tRec.bdr with badBanks := 3 } } = none ∧ mapWf none tRec.recd.records = true ∧ tRec.fab.role ≠ .member
    ∧ tRec.bdr.badBanks.getLsbD 3 = false ∧ tRec.amb.copy = none ∧ fqServed tDev 0 = true ∧ (getFq tDev 0).busy = false
    ∧ fateNode tDev (fqArgs tDev 0 0 0) = none
    ∧ (fateNode { tDev with fab := { role := .lead, nodes := 4, home := [(0, 2)], node := [(2, { state := .member })] } } (fqArgs tDev 0 0 0)).isSome = true
    ∧ (jByKey tDev (fqArgs tDev 0 0 0))[0]? = none := by
  decide +kernel

theorem wit_BedrockResults : ctlServed tDev = true ∧ (0x3B9ACA00 : U32).toNat % 2 ^ 30 = 1000000000 ∧ bedrockAlive tDev = true
    ∧ ({ copy := some { bank := some 0 } } : Amb).copy = some { bank := some 0 } ∧ supvRuns tDev = true ∧ tDev.lc.supvHalt = false
    ∧ tDev.glob.st ≠ .bedrock ∧ tDev.glob.hardZ = none ∧ tDev.glob.tbRun = true ∧ (∃ c : U16, acodeTakesToken c = true)
    ∧ ({ digestBusy := true } : Amb).digestBusy = true ∧ tDev.bdr.resp = [] := by
  refine ⟨by decide, by decide, by decide, rfl, by decide, rfl, by decide, rfl, rfl, ⟨0x0101, by decide +kernel⟩, rfl, rfl⟩

/-! ## Witnesses: the fabric and PCIe -/

/-- The lead of a fabric with node 2 in a state, port 1 up; a member. -/
def tLead (st : NodeState) : Dev :=
  { tDev with fab := { role := .lead, nodes := 4, node := [(2, { state := st })], ports := tDev.fab.ports.set 1 { state := 2 } } }
def tMember : Dev := { tDev with fab := { role := .member, node := [(0, { state := .member })] } }
theorem wit_FrameResults : PortUp (tLead .member) 1 ∧ FramePartner (tLead .member) 2 ∧ FramePartner tMember 0
    ∧ (∀ t, sessionTakes (tLead .member) 2 t = true ∧ sessionTakes tMember 0 t = true) ∧ isMember tMember = true ∧ isMember (tLead .member) = false
    ∧ ({ lseq := 0 } : Frame).lseq = (getPort (tLead .member) 1).rxSeq ∧ ((getPort (tLead .member) 1).rxSeq - (1 : BitVec 12)).toNat ≥ 2048
    ∧ ({ eseq := 0 } : Frame).eseq = (getNode (tLead .member) 2).rx ∧ (getNode (tLead .member) 2).rx < ({ eseq := 1 } : Frame).eseq
    ∧ (getNode (tLead .member) 2).early = [] := by
  unfold PortUp FramePartner
  refine ⟨by decide, by decide, by decide, ?_, by decide +kernel⟩
  intro t
  cases t <;> decide

theorem wit_FabricEventResults : isMember tMember = true ∧ isReady tMember = true ∧ (getPort (tLead .member) 1).state = 2
    ∧ (getPort (tLead .member) 0).state ≠ 3 ∧ (getPort (tLead .member) 0).barred = false ∧ (tLead .member).fab.role = .lead
    ∧ (getNode (tLead .member) 2).state = .member ∧ (getNode (tLead .member) 2).stage = 0 ∧ (getNode tMember 0).state = .member
    ∧ (getNode { (tLead .joining) with fab := { (tLead .joining).fab with node := [(2, { state := .joining, stage := 3 })] } } 2).stage = 3
    ∧ ctlServed (tLead .member) = true ∧ fabNode (tLead .member) 2 = true ∧ fabNode (tLead .member) 3 = false
    ∧ (getNode (tLead .absent) 2).state ≠ .member ∧ mapGet [] (tLead .absent).fab.allow 2 = [] ∧ nodeInUse (tLead .absent) 2 = false
    ∧ (tLead .absent).fab.busy = false := by
  decide +kernel

/-- Offset 4C hex holds the 32-bit register of the event mask. -/
theorem wit_PcieResults : fnThere tDev 0 = true ∧ barThere tDev 0 0 = true ∧ (0 : Nat) < vecCount tDev 0 ∧ ctlServed tDev = true
    ∧ barPart 0 0 0x4C = .map ∧ winAt 0 0x4C = none ∧ offServed tDev 0 0x4C = true ∧ (regAt tDev 0 0x4C).isSome = true
    ∧ isMember tDev = false ∧ tDev.glob.st ≠ .bedrock
    ∧ { tDev.glob with evHold := [3], evCarry := [3] }.evHold.contains 3 = true := by
  decide +kernel

/-! ## Witnesses: the machine -/

theorem wit_StepRunsFront : ({ dev := tDev, pending := [.notify 7] } : State).pending = .notify 7 :: [] := rfl
theorem wit_IdleBeat : (tOf tDev).pending = [] ∧ tDev.glob.tbRun = true ∧ State.reset.pending = [] ∧ State.reset.dev.glob.tbRun = false
    ∧ State.reset.dev.glob.porAsserted = true := by decide
theorem wit_QueueInOrder : Host.Core.run Sys2Proof.core 0 { dev := tDev, pending := [] } = .next { dev := tDev, pending := [] } := rfl
theorem wit_FusesOnlyGain : NothingTakenBack State.reset.dev.otp State.reset.dev.boot.cfgMin State.reset.dev := by
  refine ⟨⟨rfl, rfl, rfl, Nat.le_refl _, ?_, ?_, ?_⟩, BitVec.le_refl _⟩
  · exact fun s => ⟨by simp, by simp, by simp⟩
  · exact fun i h => ⟨fun _ => rfl, fun x => x, fun x => x⟩
  · exact fun e => ⟨fun _ => rfl, fun x => x, fun x => x⟩
theorem wit_FusesOnlyGain_step : step State.reset = .next State.reset := by rfl

/-! ## Further witnesses: clauses at the ends of their conditions -/

/-- The aux area is there; page 0 is due once more, page 1 for the first time; the hash units are ready. -/
def tAuxIo : JobIo := { tIo with hdr := { tIo.hdr with auxMax := 64 } }
theorem wit_JobIoResults_aux : PyGo (tPyOf tJob tAuxIo {}) tAt tJob tAuxIo ∧ tAuxIo.hdr.auxMax ≠ 0 ∧ tAuxIo.auxIn = true :=
  ⟨tReady_of tJob tAuxIo {} ⟨rfl, rfl, rfl, rfl⟩ rfl ⟨rfl, rfl, rfl⟩, by decide⟩
theorem wit_JobIoResults_fill : (fillJobs (tPyOf tKJob tAreaIo {}).dev 0).head? = some (tKJob, tAreaIo) ∧ fillDue tKJob tAreaIo 1 = true
    ∧ fillDue tKJob tAreaIo 0 = false := by decide +kernel
theorem wit_HashChannelResults_init : (hashAt (pxAt tPy.dev tAt 0 tJob tIo) 0).init ≤ 100 ∧ (hashAt (pxAt tPy.dev tAt 0 tJob tIo) 3).queue ≤ 150 := by
  decide +kernel

/-- A sequencer whose store holds no word at its micro-PC takes any micro-op; so does one whose word spells it. -/
theorem wit_MicroCommonResults_word : MicroWord tPy.dev 0 (.uYld 0 {}) ∧ MicroWord (tSvcOf tMJob).dev 16 (.uKplMe 16 {})
    ∧ MicroWord (tSvcOf tTJob).dev 24 (.uSst 24 {}) := ⟨fun _ h => (nomatch h), fun _ h => (nomatch h), fun _ h => (nomatch h)⟩
/-- A job of X25519 on modular engine 0. -/
def tXJob : Job := { tSvcJob 0x5409 with e := { opcode := 0x5409 } }
theorem wit_MicroEngineResults_mac : MicroReady (tSvcOf tXJob).dev 16 tXJob ∧ meModulus (tSvcOf tXJob).dev tXJob = some (2 ^ 255 - 19) :=
  ⟨⟨by decide, rfl, rfl, rfl, rfl, rfl, rfl, by decide +kernel, fun e he => (nomatch he), fun e he => (nomatch he), fun h => absurd h (by decide)⟩, rfl⟩
/-- A signature on tree sequencer 0: an index is left, and none is. -/
def tSsJob : Job := { tTJob with e := { opcode := 0x3602, key0 := 5, inLen := 128, outCap := 128 } }
theorem wit_MicroEngineResults_index :
    (∀ n ∈ [9, 10], let d := { tSsDev n 9 tSsJob with ss := { keys := [(slotKey 0 5, tSs n 9)] } }
      (ssTake (setSched d 24 { getSched d 24 with yieldT := uTime d 24 }) 0 5).isSome = decide (n = 10))
    ∧ (getTs (tSvcOf tTJob).dev 0).sched.nextT ≥ mapGet 0 (getTs (tSvcOf tTJob).dev 0).sched.free 16 := by decide +kernel

/-- A RUN whose key releases no program, and one whose input is not below its modulus. -/
theorem wit_ModularCommandResults_checks : mpServed (tSvcOf (tMpJob 0x04 201)).dev (tMpJob 0x04 201) 0x04 = true
    ∧ mpOutMax (mpProg (tMpAux 0x04)) ≤ 1 ∧ (jobKey0 (tSvcOf (tMpJob 0x03 201)).dev (tMpJob 0x03 201)).policy.getLsbD polProgOut = false := by
  decide +kernel

/-- A job of an opcode on modular engine 0 with a bad output list, and one that has its index. -/
def tBad (op : U16) : Job := { tSvcJob op with outBad := some 0 }
def tTaken : Job := { tSvcJob 0x3602 with taken := some 9 }
theorem wit_StatefulSignatureResults_lists : JobReady (tSvcOf (tBad 0x3601)).dev 7 (isOp 3 1) (tBad 0x3601)
    ∧ JobReady (tSvcOf (tBad 0x3602)).dev 7 (isOp 3 2) (tBad 0x3602) ∧ JobReady (tSvcOf tTaken).dev 7 (isOp 3 2) tTaken :=
  ⟨tReady _ _ (by decide +kernel), tReady _ _ (by decide +kernel), tReady _ _ (by decide +kernel)⟩
/-- HSS keys in AUX: a type the device does not know, and a signature that ends before its second level. -/
theorem wit_StatefulSignatureResults_hss : hssTypes 1 (99, 4) [] = .unknown ∧ hssTypes 1 (5, 4) [] = .short ∧ hssTypes 0 (5, 4) [] = .types [(5, 4)] := by
  refine ⟨by decide +kernel, by decide +kernel, rfl⟩

theorem wit_ClassicalKeyResults_lists : JobReady (tSvcOf (tBad 0x520C)).dev 7 (isOp 5 0x0C) (tBad 0x520C) := tReady _ _ (by decide +kernel)

/-- Another job uses the key; no key names the parameter object; a soft zeroise goes on; the output list is bad. -/
theorem wit_KeyManagementResults_states : keyBusy (tSvcOf (tBad 0xA009)).dev (tBad 0xA009) 0 = false
    ∧ (∀ x ∈ [((0xA008 : U16), isCode 0xA008), (0xA009, isCode 0xA009), (0xA00C, isCode 0xA00C)], JobReady (tSvcOf (tBad x.1)).dev 7 x.2 (tBad x.1))
    ∧ ({ tDev with ks := { tDev.ks with zsoft := some {} } }).ks.zsoft.isSome = true ∧ ({ isParam := true } : KObj).isParam = true
    ∧ paramUsed { tDev with ks := { tDev.ks with slots := [(slotKey 0 5, { obj := some { isParam := true } }), (slotKey 0 6, { obj := some { param := 5 } })] } }
        0 5 = true := by
  refine ⟨by decide +kernel, fun x h => ?_, by decide +kernel⟩
  simp only [List.mem_cons, List.not_mem_nil, or_false] at h
  rcases h with rfl | rfl | rfl <;> exact tReady _ _ (by decide +kernel)
/-- The unwrapping job with a play of sharing. -/
def tShareJob : Job := { tBlobJob with mode := 1 }
/-- A symmetric unit is free for an unwrap; the DRBG is out, or held. -/
theorem wit_KeyTransportResults_states : (kindCells .sy).any (engineFree { (tSvcOf tBlobJob).dev with dlr := { occ := Vector.replicate 32 (some 0) } } tShareJob) = true
    ∧ ({ tDev with rng := { tDev.rng with state := .error } }).rng.state = .error
    ∧ ({ tDev with rng := { tDev.rng with hold := some { kind := .kat } } }).rng.hold.isSome = true
    ∧ ¬ (64 ≤ tBlobJob.auxData.length ∧ blobHeadOk tBlobJob.auxData = true) := by decide +kernel
theorem wit_RandomAndAttestResults_steps : (∀ x ∈ [((0x9001 : U16), isCode 0x9001), (0x9003, isCode 0x9003), (0x9004, isCode 0x9004)],
      JobReady (tSvcOf { tSvcJob x.1 with step := 1 }).dev 7 x.2 { tSvcJob x.1 with step := 1 })
    ∧ pbit { param := 0 } 31 = false ∧ cdiv 65536 65536 = 1 ∧ cdiv 65537 65536 = 2 := by
  refine ⟨fun x h => ?_, by decide +kernel⟩
  simp only [List.mem_cons, List.not_mem_nil, or_false] at h
  rcases h with rfl | rfl | rfl <;> exact tReady _ { tSvcJob _ with step := 1 } (by decide +kernel)

theorem wit_JobFlowResults_fail : (tListJob []).fail = none ∧ ({ tListJob [] with fail := some (0, stDmaError, 1) }).fail.isSome = true
    ∧ secondCell tPlDev tPlJob .none = some none ∧ keyBarred tPlDev 0 .none tPlJob.e.key0 = false
    ∧ (resolveField tPlDev 0 .none tPlJob.e.key0).isSome = true := by decide +kernel

theorem wit_VfManagerResults_states : pciOnly (tSt .held) = true ∧ ownerThere { tVf .active with glob := { tDev.glob with st := .held } } 1 = true
    ∧ ctlServed (tSt .safe) = true ∧ isReady (tSt .safe) = false ∧ (255 : Nat) ≤ 255 ∧ tHard.glob.hardZ.isSome = true := by decide +kernel
theorem wit_RandomSourceResults_holds : ({ kind := .kat, byJob := false } : Hold).byJob = false ∧ ({ state := .healthy } : Src).pfRecal = false
    ∧ (getSrc (tSrc { state := .startup }) 0).state = .startup ∧ 100000000 ≤ ((100000000 : U64) - 0).toNat
    ∧ windowCause { state := .healthy } [] = .none := by decide +kernel

theorem wit_ZeroiseResults_done : softInReset { tDev with ks := { tDev.ks with zsoft := some { owner := 1 } } } = false
    ∧ ({ tDev with ks := { tDev.ks with zsoft := some { owner := 1 } } }).ks.zsoft.isSome = true
    ∧ ({ tDev with ks := { tDev.ks with purge := some 1 } }).ks.purge = some 1 := by decide +kernel
theorem wit_LifeCycleResults_random : tDev.rng.state = .ok ∧ ({ tDev.rng with state := .error }).state ≠ .ok ∧ ({ tDev.rng with state := .error }).state ≠ .hold := by
  decide
theorem wit_RecorderAndFateResults_served : barOk tDev 0 = true ∧ mapServed tDev = true := by decide +kernel
theorem wit_FabricEventResults_ready : isReady (tLead .member) = true ∧ isReady { tLead .member with glob := { tDev.glob with st := .safe } } = false
    ∧ ctlServed { tLead .member with glob := { tDev.glob with st := .safe } } = true := by decide +kernel
theorem wit_PcieResults_config : fnThere (tSt .bedrock) 0 = false ∧ endpointUp (tSt .bedrock) = true ∧ fnThere tDev 1 = false ∧ tDev.hif.linkUp = true := by
  decide +kernel

/-! ## Words of the two instruction sets, written out from their encodings -/

/-- Major 0x04, d = 3, a = 2, b = 3, m = 0, k = 1, x = 0: format A of 07 R240. -/
theorem test_py_word (p : PyAt) : pyCommand p 0x04310C18 = some (.vadd p { d := 3, a := 2, b := 3, m := false, k := 1, x := 0 }) := by rfl
/-- UCLASS 1, a = 0, b = 17, c = 1, imm = 5: the microword of 08 R268. -/
theorem test_u_word : uCommand 3 0x08221005 = some (.uUop 3 { a := 0, b := 17, c := 1, imm := 5 }) := by rfl

end Sys2Proof.Tests
end

section
/-!
PROOF. What the PCIe functions' commands do, and what an access of BAR0 does (00 R8; 19 R531-R538, R545-R549).
-/
namespace Sys2Proof.Proofs.Pcie

open Sys2Proof.Machine Sys2Proof.Safety Sys2Proof.Laws

/-! ## Requests of a function that is there, and of one that is not (19 R532) -/

section
variable {d : Dev} {f : Nat} {g : Dev → Dev}

theorem cfgRequest_there (h : fnThere d f = true) : cfgRequest f g d = g d := if_pos h

theorem cfgRequest_retry (h : fnThere d f = false) (hb : d.glob.st = .bedrock) (hu : endpointUp d = true) :
    cfgRequest f g d = emit d (.retry f) :=
  (if_neg (by rw [h]; decide)).trans <| (if_pos hb).trans (if_pos hu)

theorem cfgRequest_ur (h : fnThere d f = false) (hb : d.glob.st ≠ .bedrock) (hu : d.hif.linkUp = true) :
    cfgRequest f g d = emit d (.ur f) :=
  (if_neg (by rw [h]; decide)).trans <| (if_neg hb).trans (if_pos hu)

theorem busMasterGo_there (bme mse : Bool) (h : fnThere d f = true) : busMasterGo f bme mse d =
    if bme then flushWaiting (setFn d f { getFn d f with bme := bme, mse := mse }) f
    else setFn d f { getFn d f with bme := bme, mse := mse } := cfgRequest_there h

theorem powerGo_there (on : Bool) (h : fnThere d f = true) :
    powerGo f on d = flushPend (setFn d f { getFn d f with d3hot := on }) f := cfgRequest_there h

theorem msixGo_vector {v : Nat} (masked : Bool) (h : fnThere d f = true) (hv : v < vecCount d f) :
    msixGo f (.vector v masked) d = flushPend (setVec d f v { getVec d f v with mask := masked }) f :=
  if_neg (by rw [h, decide_eq_false (Nat.not_le.2 hv)]; decide)

theorem msixGo_function (en masked : Bool) (h : fnThere d f = true) :
    msixGo f (.function en masked) d = flushPend (setFn d f { getFn d f with msixEn := en, fnMask := masked }) f :=
  cfgRequest_there (g := fun d => flushPend (setFn d f { getFn d f with msixEn := en, fnMask := masked }) f) h

theorem poisonedGo_there (off : Nat) (h : fnThere d f = true) : poisonedGo f off d = hifCause (hifLastErr
    { d with hif := { d.hif with errPoison := satInc d.hif.errPoison, aerPoison := true
                                 out := d.hif.out ++ [.aerPoison f] } } f 5 0 (BitVec.ofNat 32 off)) 0x8 :=
  if_neg (by rw [h]; decide)

end

/-! ## PF events and the link (19 R531, R549) -/

theorem evMaskGo_served {d : Dev} (v : U32) (h : ctlServed d = true) : evMaskGo v d = (List.range 17).foldl
    (fun acc n => if d.glob.evMask.getLsbD n && !v.getLsbD n && evSource acc n then evRequest acc n else acc)
    { d with glob.evMask := v.setWidth 17 } := if_neg (by rw [h]; decide)

theorem holdoffGo_carried {d : Dev} {v : Nat} (h : d.glob.evHold.contains v = true) (hc : d.glob.evCarry.contains v = true) :
    holdoffGo v d = msixSend { d with glob.evCarry := d.glob.evCarry.filter (· != v) } 0 v :=
  (if_neg (by rw [h]; decide)).trans (if_pos hc)

theorem holdoffGo_quiet {d : Dev} {v : Nat} (h : d.glob.evHold.contains v = true) (hc : d.glob.evCarry.contains v = false) :
    holdoffGo v d = { d with glob.evHold := d.glob.evHold.filter (· != v) } :=
  (if_neg (by rw [h]; decide)).trans (if_neg (by rw [hc]; decide))

theorem linkRetrainGo_trains {d : Dev} {g w : Nat} (hb : d.glob.st ≠ .bedrock) (hm : isMember d = false) (hg : g = 3 ∨ g = 4 ∨ g = 5)
    (hw : w = 1 ∨ w = 2 ∨ w = 4 ∨ w = 8) : linkRetrainGo g w d = hifCause
      { d with hif := { d.hif with linkUp := true, speed := BitVec.ofNat 3 g, width := BitVec.ofNat 4 w } }
      ((if d.hif.linkUp then 0x10 else 0) ||| if g < 5 || w < 8 then 0x1 else 0) := by
  have hgc : [3, 4, 5].contains g = true := by rcases hg with rfl | rfl | rfl <;> decide
  have hwc : [1, 2, 4, 8].contains w = true := by rcases hw with rfl | rfl | rfl | rfl <;> decide
  exact if_neg (by rw [decide_eq_false hb, hm, hgc, hwc]; decide)

/-! ## Registers whole and by halves (00 R8; log 139) -/

section
variable {d : Dev} {f off b : Nat} {r : RegDef} {hi : Bool} {bs : Bytes} {n : Nat}

theorem regPut_narrow (hl : bs.length = 4) (hw : r.wide = false) : regPut f off b r hi bs d = r.put (leNat bs) d :=
  if_pos (by rw [hl, hw]; decide)

theorem regPut_whole (hl : bs.length = 8) (hw : r.wide = true) :
    regPut f off b r false bs d = r.put (leNat bs) (setHeld d (halfKey f b) none) :=
  (if_neg (by rw [hl, hw]; decide)).trans <| if_pos (by rw [hl, hw]; decide)

theorem regPut_low (hl : bs.length = 4) (hw : r.wide = true) :
    regPut f off b r false bs d = setHeld d (halfKey f b) (some (w32 (leNat bs))) :=
  (if_neg (by rw [hl, hw]; decide)).trans <| (if_neg (by rw [hl, hw]; decide)).trans <| if_pos (by rw [hl, hw]; decide)

/-- The high half joins the low half that is held, or the register's own when none is. -/
theorem regPut_high (hl : bs.length = 4) (hw : r.wide = true) : regPut f off b r true bs d = r.put
    (4294967296 * leNat bs + (match mapGet none d.glob.loHeld (halfKey f b) with | some x => x.toNat | none => r.low d))
    (setHeld d (halfKey f b) none) :=
  (if_neg (by rw [hl, hw]; decide)).trans <| (if_neg (by rw [hl, hw]; decide)).trans <| (if_neg (by rw [hl, hw]; decide)).trans <|
    if_pos (by rw [hl, hw]; decide)

theorem regGet_narrow (hw : r.wide = false) : regGet f off b r hi 4 d = (leBytes 4 (r.get d), r.side d) :=
  if_pos (by rw [hw]; decide)

theorem regGet_whole (hw : r.wide = true) : regGet f off b r false 8 d = (leBytes 8 (r.get d), r.side d) :=
  (if_neg (by rw [hw]; decide)).trans <| if_pos (by rw [hw]; decide)

/-- A read of the low half captures the high half. -/
theorem regGet_low (hw : r.wide = true) : regGet f off b r false 4 d =
    (leBytes 4 (r.get d), setCap (r.side d) (halfKey f b) (some (w32 (r.get d / 4294967296)))) :=
  (if_neg (by rw [hw]; decide)).trans <| (if_neg (by rw [hw]; decide)).trans <| if_pos (by rw [hw]; decide)

theorem regGet_captured {x : U32} (hw : r.wide = true) (hx : mapGet none d.glob.hiCap (halfKey f b) = some x) :
    regGet f off b r true 4 d = (leBytes 4 x.toNat, setCap d (halfKey f b) none) :=
  (if_neg (by rw [hw]; decide)).trans <| (if_neg (by rw [hw]; decide)).trans <| (if_neg (by rw [hw]; decide)).trans <|
    (if_pos (by rw [hw]; decide)).trans (by simp only [hx])

/-! ## Accesses of BAR0 outside its windows (19 R538) -/

/-- A size and alignment that registers do not take (19 R538). -/
def BadSize (off n : Nat) : Prop := n ≠ 4 ∧ n ≠ 8 ∨ off % n ≠ 0

theorem badSize_iff (off n : Nat) : (!([4, 8].contains n) || decide (off % n ≠ 0)) = true ↔ BadSize off n := by
  simp only [BadSize, List.contains_cons, List.contains_nil, Bool.or_false, Bool.not_or, Bool.or_eq_true, Bool.and_eq_true,
    Bool.not_eq_true', beq_eq_false_iff_ne, decide_eq_true_eq]

theorem not_badSize_four {off : Nat} (h : off % 4 = 0) : ¬ BadSize off 4 := fun hs => hs.elim (fun hn => hn.1 rfl) fun ha => ha h

theorem not_badSize_eight {off : Nat} (h : off % 8 = 0) : ¬ BadSize off 8 := fun hs => hs.elim (fun hn => hn.2 rfl) fun ha => ha h

theorem mapWrite_reserved (hw : winAt f off = none) (hr : regAt d f (off / 4 * 4) = none) : mapWrite f off bs d = d := by
  simp only [mapWrite, hw, hr]

theorem mapWrite_badSize (hw : winAt f off = none) (hr : regAt d f (off / 4 * 4) = some (b, r, hi)) (hs : BadSize off bs.length) :
    mapWrite f off bs d = badAccess d f off := by
  simp only [mapWrite, hw, hr]
  exact if_pos ((badSize_iff _ _).2 hs)

theorem mapWrite_served (hw : winAt f off = none) (ho : offServed d f off = true) (hr : regAt d f (off / 4 * 4) = some (b, r, hi))
    (hs : ¬ BadSize off bs.length) : mapWrite f off bs d = regPut f off b r hi bs d := by
  simp only [mapWrite, hw, hr, ho, Bool.true_or, if_true]
  exact if_neg fun h => hs ((badSize_iff _ _).1 h)

theorem mapRead_reserved (hw : winAt f off = none) (hr : regAt d f (off / 4 * 4) = none) : mapRead f off n d = (zeros n, d) := by
  simp only [mapRead, hw, hr]

theorem mapRead_badSize (hw : winAt f off = none) (hr : regAt d f (off / 4 * 4) = some (b, r, hi)) (hs : BadSize off n) :
    mapRead f off n d = (zeros n, badAccess d f off) := by
  simp only [mapRead, hw, hr]
  exact if_pos ((badSize_iff _ _).2 hs)

theorem mapRead_served (hw : winAt f off = none) (ho : offServed d f off = true) (hr : regAt d f (off / 4 * 4) = some (b, r, hi))
    (hs : ¬ BadSize off n) : mapRead f off n d = regGet f off b r hi n d := by
  simp only [mapRead, hw, hr, ho, Bool.true_or, if_true]
  exact if_neg fun h => hs ((badSize_iff _ _).1 h)

end

/-! ## REGISTER_WRITE of a function -/

section
variable {s : State} {f off n : Nat} {bs out : Bytes} {d1 : Dev}

theorem gives_barWrite (hf : f < 256) (hb : barThere s.dev f 0 = true) (hn : bs ≠ []) (hp : barPart f 0 off = .map)
    (e : mapWrite f off bs s.dev = d1) : Gives (.registerWrite f (.bar 0 off bs)) s d1 :=
  gives_of (go := registerGo f (.bar 0 off bs)) rfl ((bar_map hf hb hn hp).trans e)

theorem gives_barRead (hf : f < 256) (hb : barThere s.dev f 0 = true) (hn : n ≠ 0) (hp : barPart f 0 off = .map)
    (e : mapRead f off n s.dev = (out, d1)) : Gives (.registerWrite f (.read 0 off n)) s (emit d1 (.cpl f out)) :=
  gives_of (go := registerGo f (.read 0 off n)) rfl (by rw [read_map hf hb hn hp, e])

theorem registerGo_cfg {d : Dev} (w : CfgField) (hf : f < 256) : registerGo f (.cfg w) d = cfgPut f w d :=
  if_neg (by unfold tapFn; omega)

theorem registerGo_cfgRead {d : Dev} (i : CfgItem) (hf : f < 256) : registerGo f (.cfgRead i) d = cfgRequest f (cfgRead f i) d :=
  if_neg (by unfold tapFn; omega)

theorem gives_cfg {w : CfgField} (hf : f < 256) (e : cfgPut f w s.dev = d1) : Gives (.registerWrite f (.cfg w)) s d1 :=
  gives_of (go := registerGo f (.cfg w)) rfl ((registerGo_cfg w hf).trans e)

theorem gives_cfgRead {i : CfgItem} (hf : f < 256) (e : cfgRequest f (cfgRead f i) s.dev = d1) :
    Gives (.registerWrite f (.cfgRead i)) s d1 :=
  gives_of (go := registerGo f (.cfgRead i)) rfl ((registerGo_cfgRead i hf).trans e)

end

section
variable {d : Dev} {f : Nat}

theorem cfgPut_cto (v : BitVec 4) (h : fnThere d f = true) : cfgPut f (.cto v) d = setFn d f { getFn d f with cto := v } := cfgRequest_there h

theorem cfgPut_mps {n : Nat} (h : fnThere d f = true) (hn : n = 128 ∨ n = 256 ∨ n = 512) :
    cfgPut f (.mps n) d = setFn d f { getFn d f with mps := n } :=
  (cfgRequest_there h).trans (if_pos (by rcases hn with rfl | rfl | rfl <;> decide))

theorem cfgPut_mrrs {n : Nat} (h : fnThere d f = true) (hn : n = 128 ∨ n = 256 ∨ n = 512 ∨ n = 1024 ∨ n = 2048 ∨ n = 4096) :
    cfgPut f (.mrrs n) d = setFn d f { getFn d f with mrrs := n } :=
  (cfgRequest_there h).trans (if_pos (by rcases hn with rfl | rfl | rfl | rfl | rfl | rfl <;> decide))

theorem cfgPut_relaxed (on : Bool) (h : fnThere d f = true) :
    cfgPut f (.relaxed on) d = setFn d f { getFn d f with relaxEn := on } := cfgRequest_there h

end

/-! ## The statement -/

/-- Settles O55: under a clause's conditions the command's meaning is one equation above. Halves of registers are read as log 139 says,
which registers are served as log 141, sizes of configuration as log 150, and Request Retry Status and Unsupported Request as log 157. -/
theorem pcieResults : Obligations.PcieResults := by
  unfold Obligations.PcieResults
  dsimp only
  refine ⟨⟨fun s f h => ⟨fun mse => ⟨?_, ?_⟩, fun on => ?_, fun v masked hv => ?_, fun en masked => ?_, fun off => ?_⟩,
      fun s v h => ?_, fun s v h => ⟨fun hc => ?_, fun hc => ?_⟩, fun s g w hb hm hg hw => ?_⟩,
    fun s f off bs hf hb hn hp hw ho => ⟨fun hr => ?_, fun b r hi hr => ?_⟩,
    fun s f off n hf hb hn hp hw ho => ⟨fun hr => ?_, fun b r hi hr => ?_⟩,
    fun s f hf h => ⟨fun v => ?_, fun n hn => ?_, fun n hn => ?_, fun on => ?_, fun item => ?_⟩,
    fun s f item hf h => ⟨fun hb hu => ?_, fun hb hu => ?_⟩, fun d f => ?_⟩
  · exact gives_of (go := busMasterGo f false mse) rfl (busMasterGo_there false mse h)
  · exact gives_of (go := busMasterGo f true mse) rfl (busMasterGo_there true mse h)
  · exact gives_of (go := powerGo f on) rfl (powerGo_there on h)
  · exact gives_of (go := msixGo f (.vector v masked)) rfl (msixGo_vector masked h hv)
  · exact gives_of (go := msixGo f (.function en masked)) rfl (msixGo_function en masked h)
  · exact gives_of (go := poisonedGo f off) rfl (poisonedGo_there off h)
  · exact gives_of (go := evMaskGo v) rfl (evMaskGo_served v h)
  · exact gives_of (go := holdoffGo v) rfl (holdoffGo_carried h hc)
  · exact gives_of (go := holdoffGo v) rfl (holdoffGo_quiet h hc)
  · exact gives_of (go := linkRetrainGo g w) rfl (linkRetrainGo_trains hb hm hg hw)
  · exact gives_barWrite hf hb hn hp (mapWrite_reserved hw hr)
  · have put {d1 : Dev} (hs : ¬ BadSize off bs.length) (e : regPut f off b r hi bs s.dev = d1) : Gives (.registerWrite f (.bar 0 off bs)) s d1 :=
      gives_barWrite hf hb hn hp ((mapWrite_served hw ho hr hs).trans e)
    refine ⟨fun hs => gives_barWrite hf hb hn hp (mapWrite_badSize hw hr hs), fun hl ha hk => ?_, fun hl ha hk hh => ?_,
      fun hl ha hk hh => ?_, fun hl ha hk hh => ?_⟩
    · exact put (hl ▸ not_badSize_four ha) (regPut_narrow hl hk)
    · subst hh; exact put (hl ▸ not_badSize_eight ha) (regPut_whole hl hk)
    · subst hh; exact put (hl ▸ not_badSize_four ha) (regPut_low hl hk)
    · subst hh; exact put (hl ▸ not_badSize_four ha) (regPut_high hl hk)
  · exact gives_barRead hf hb hn hp (mapRead_reserved hw hr)
  · have get {out : Bytes} {d1 : Dev} (hs : ¬ BadSize off n) (e : regGet f off b r hi n s.dev = (out, d1)) :
        Gives (.registerWrite f (.read 0 off n)) s (emit d1 (.cpl f out)) :=
      gives_barRead hf hb hn hp ((mapRead_served hw ho hr hs).trans e)
    refine ⟨fun hs => gives_barRead hf hb hn hp (mapRead_badSize hw hr hs), fun hl ha hk => ?_, fun hl ha hk hh => ?_,
      fun hl ha hk hh => ?_, fun x hl ha hk hh hx => ?_⟩
    · subst hl; exact get (not_badSize_four ha) (regGet_narrow hk)
    · subst hl hh; exact get (not_badSize_eight ha) (regGet_whole hk)
    · subst hl hh; exact get (not_badSize_four ha) (regGet_low hk)
    · subst hl hh; exact get (not_badSize_four ha) (regGet_captured hk hx)
  · exact gives_cfg hf (cfgPut_cto v h)
  · exact gives_cfg hf (cfgPut_mps h hn)
  · exact gives_cfg hf (cfgPut_mrrs h hn)
  · exact gives_cfg hf (cfgPut_relaxed on h)
  · exact gives_cfgRead hf (cfgRequest_there h)
  · exact gives_cfgRead hf (cfgRequest_retry h hb hu)
  · exact gives_cfgRead hf (cfgRequest_ur h hb hu)
  · exact ⟨rfl, rfl, rfl, rfl, rfl, rfl, fun hf => congrArg (Prod.mk 2) (if_neg hf), rfl⟩

end Sys2Proof.Proofs.Pcie
end

section
/-!
PROOF. The queue of commands, the idle beat and the state after reset (01 R14, R20-R34; logs 1, 2, 3 and 11).
-/
namespace Sys2Proof.Proofs.Queue

open Sys2Proof.Machine Sys2Proof.Safety Sys2Proof.Laws

/-! ## A step and the queue (logs 1 and 3) -/

theorem step_cons {s : State} {c : Instr} {rest : List Instr} (h : s.pending = c :: rest) : step s = exec c { s with pending := rest } := by
  simp only [step, h]

theorem step_nil {s : State} (h : s.pending = []) : step s = .next { s with dev := beat s.dev } := by
  simp only [step, h]

/-- Settles O56. What takes a command from the front is the model's queue (log 1). -/
theorem stepRunsFront : Obligations.StepRunsFront := fun _ _ _ h => step_cons h

/-- A run over a queue leaves the same device whatever waits behind it, since every command is a change of the device alone. -/
theorem run_queue (d : Dev) (l : List Instr) : ∃ e, Host.Core.run Sys2Proof.core l.length { dev := d, pending := l } = .next { dev := e, pending := [] }
    ∧ ∀ l2, Host.Core.run Sys2Proof.core l.length { dev := d, pending := l ++ l2 } = .next { dev := e, pending := l2 } := by
  obtain ⟨e, he⟩ := runs l [] d
  have halone := he []
  rw [List.append_nil] at halone
  exact ⟨e, halone, he⟩

/-- Settles O58. The queue, and that nothing stops it, are the model's (logs 1 and 3). -/
theorem queueInOrder : Obligations.QueueInOrder := by
  unfold Obligations.QueueInOrder
  refine ⟨fun s => ?_, fun d e l1 l2 h => ?_⟩
  · obtain ⟨e, he, -⟩ := run_queue s.dev s.pending
    exact ⟨e, he⟩
  · obtain ⟨e', halone, he⟩ := run_queue d l1
    rw [h] at halone
    obtain rfl : e = e' := by injection halone with hs; injection hs
    exact he l2

/-! ## The beat (17 R475; log 2) -/

/-- TB advances: CLK_SUP runs, or the Bedrock oscillator has its supply and no power-on reset. -/
theorem beat_counts {d : Dev} (h : d.glob.tbRun = true ∨ d.glob.porAsserted = false ∧ d.glob.vddBr = true) :
    beat d = { d with glob.tb := d.glob.tb + 10 } := if_pos <| by
  rcases h with h | ⟨hp, hv⟩
  · rw [h, Bool.true_or]
  · rw [hp, hv, Bool.not_false, Bool.and_self, Bool.or_true]

theorem beat_stands {d : Dev} (hr : d.glob.tbRun = false) (ho : d.glob.porAsserted = true ∨ d.glob.vddBr = false) : beat d = d :=
  if_neg <| by
    rcases ho with h | h
    · rw [hr, h, Bool.not_true, Bool.false_and, Bool.or_false]; exact Bool.false_ne_true
    · rw [hr, h, Bool.and_false, Bool.or_false]; exact Bool.false_ne_true

/-- Settles O57. That an idle step is a beat of 10 ns is log 2. -/
theorem idleBeat : Obligations.IdleBeat := by
  unfold Obligations.IdleBeat
  refine fun s h => ⟨fun hc => ?_, fun hr ho => ?_⟩
  · rw [step_nil h, beat_counts hc]
  · rw [step_nil h, beat_stands hr ho]

/-! ## Reset (log 11) -/

theorem nothingTakenBack_refl (d : Dev) : NothingTakenBack d.otp d.boot.cfgMin d := Grows.refl d

/-- Offsets in PF BAR0 with the reset values that their field tables give (19 R551). -/
def resetValues : List (Nat × Nat) :=
  [(0x10, 0), (0x20, 1), (0x28, 0), (0x4C, 0x1FFFF), (0x20024, 0x7F), (0x30018, 0x03E80A01), (0x40008, 0x3C00), (0x70018, 0x046469),
    (0xD0008, 0x643C00), (0x110038, 0x06DD6E), (0x120004, 0x14)]

theorem pfReads_reset : ∀ r ∈ resetValues, pfReads State.reset.dev r.1 = some r.2 := by decide

/-- Settles O60: every register stands at its default; what OTP holds then is log 11. -/
theorem resetState : Obligations.ResetState := by
  unfold Obligations.ResetState
  exact ⟨⟨rfl, rfl, rfl, nothingTakenBack_refl _⟩, rfl, rfl, rfl, rfl, rfl, rfl, fun off v h => pfReads_reset (off, v) h⟩

end Sys2Proof.Proofs.Queue
end

section
/-!
PROOF. A job on its way to its engine: the fetch of its entry, the entry's checks, its placement, its data and its lists (01 R14-R19;
02 R42, R43, R56-R60, R77; 09 R308; 19 R540-R543).
-/
namespace Sys2Proof.Proofs.JobFlow

open Sys2Proof.Machine Sys2Proof.Safety Sys2Proof.Laws

/-! ## The fetch of an entry (02 R56, R57): `d1` is the device with the Dealer's turn moved to the SQ that it serves -/

/-- An entry of another node's SQ, or of an owner with a credit left, does not wait for one. -/
theorem creditWait_eq_false {d : Dev} {o q : Nat} (h : sqHome d q ≠ 0 ∨ (ownJobs d o).length < (getOwn d o).sh.credit.toNat) :
    (sqHome d q == 0 && decide ((getOwn d o).sh.credit.toNat ≤ (ownJobs d o).length)) = false := by
  rcases h with h | h
  · rw [beq_eq_false_iff_ne.2 h, Bool.false_and]
  · rw [decide_eq_false (Nat.not_le.2 h), Bool.and_false]

section
variable {d d1 : Dev} {o q : Nat} (hr : isReady d = true) (hs : fetchStopped d o = false) (hq : nextSq d o = some q)
  (hd : modOwn d o (fun w => { w with rrSq := q }) = d1)
include hr hs hq hd

theorem entryFetchGo_held {bytes : Bytes} (h : (getSq d1 q).held = some bytes) : entryFetchGo o d = takeEntry d1 q bytes := by
  simp only [entryFetchGo, hr, hs, hq, hd, h, Bool.not_true, Bool.or_self, Bool.false_eq_true, if_false]

theorem entryFetchGo_noSlot (h : (getSq d1 q).held = none) (ht : slotTurn d1 (boundCq d1 o (getSq d1 q)) q = false) :
    entryFetchGo o d = setSq d1 q { getSq d1 q with slotWait := true } := by
  simp only [entryFetchGo, hr, hs, hq, hd, h, ht, Bool.not_true, Bool.not_false, Bool.or_self, Bool.false_eq_true, if_false, if_true]

theorem entryFetchGo_noCredit (h : (getSq d1 q).held = none) (ht : slotTurn d1 (boundCq d1 o (getSq d1 q)) q = true)
    (hc : ¬ (sqHome d1 q ≠ 0 ∨ (ownJobs d1 o).length < (getOwn d1 o).sh.credit.toNat)) :
    entryFetchGo o d = setSq d1 q { getSq d1 q with creditWait := true } := by
  have hn : (sqHome d1 q == 0 && decide ((getOwn d1 o).sh.credit.toNat ≤ (ownJobs d1 o).length)) = true := by
    obtain ⟨hh, hf⟩ := not_or.1 hc
    rw [Decidable.not_not.1 hh, decide_eq_true (Nat.not_lt.1 hf), beq_self_eq_true, Bool.and_self]
  simp only [entryFetchGo, hr, hs, hq, hd, h, ht, hn, Bool.not_true, Bool.or_self, Bool.false_eq_true, if_false, if_true]

section
variable (h : (getSq d1 q).held = none) (ht : slotTurn d1 (boundCq d1 o (getSq d1 q)) q = true)
  (hc : sqHome d1 q ≠ 0 ∨ (ownJobs d1 o).length < (getOwn d1 o).sh.credit.toNat)
include h ht hc

theorem entryFetchGo_captured {n : U32} {bytes : Bytes} (hm : ((getSq d1 q).captured.find? fun x => x.1 == (getSq d1 q).head) = some (n, bytes)) :
    entryFetchGo o d = takeEntry d1 q bytes := by
  have hn := creditWait_eq_false hc
  simp only [entryFetchGo, hr, hs, hq, hd, h, ht, hn, hm, Bool.not_true, Bool.or_self, Bool.false_eq_true, if_false]

theorem entryFetchGo_reads (hm : ((getSq d1 q).captured.find? fun x => x.1 == (getSq d1 q).head) = none) :
    entryFetchGo o d = hostRead (setSq d1 q { getSq d1 q with reading := some (getSq d1 q).head }) o
      (((getSq d1 q).base.setWidth 64 <<< 12) + BitVec.ofNat 64 (64 * ((getSq d1 q).head.toNat % sqSize (getSq d1 q)))) 64
      (.entry q (getSq d1 q).head) := by
  have hn := creditWait_eq_false hc
  simp only [entryFetchGo, hr, hs, hq, hd, h, ht, hn, hm, Bool.not_true, Bool.or_self, Bool.false_eq_true, if_false]

end

end

/-! ## The entry comes in, or its read fails (02 R77, 19 R543) -/

/-- A read of an entry that fails stops its SQ with FETCH_ERROR. -/
def fetchFails (d : Dev) (q : Nat) (n : U32) (kind : Nat) : Dev :=
  stopSq (readFailed (readOver d (ofSq q)) ((sqOwner d q).getD 0) kind 0
    (((getSq d q).base.setWidth 64 <<< 12) + BitVec.ofNat 64 (64 * (n.toNat % sqSize (getSq d q))))) q erFetchError n

section
variable {d : Dev} {q : Nat} {n : U32} (h : (getSq d q).reading = some n)
include h

theorem entryReadDoneGo_data (bytes : Bytes) : entryReadDoneGo q (.data bytes) d = takeEntry (readDone d (ofSq q) 64) q (fit 64 bytes) := by
  simp only [entryReadDoneGo, h]

theorem entryReadDoneGo_fails {r : DmaRes} (hr : r = .ur ∨ r = .ca ∨ r = .poison) :
    entryReadDoneGo q r d = fetchFails d q n (failKind r) := by
  rcases hr with rfl | rfl | rfl <;> simp only [entryReadDoneGo, h, fetchFails]

theorem dmaReadTimeoutGo_entry : dmaReadTimeoutGo (.entry q) d = fetchFails d q n 3 := by
  simp only [dmaReadTimeoutGo, h, fetchFails]

end

/-! ## The checks of an entry (02 R56-R59, R77) -/

/-- An SQ that keeps its entry in hand: no read and no captured copy of it is left, and no wait is noted yet. -/
def keeps (r : Sq) (bytes : Bytes) : Sq :=
  { r with reading := none, captured := r.captured.filter fun x => x.1 != r.head, held := some bytes, fenceWait := false, slotWait := false
           creditWait := false, jrnWait := false }

section
variable {d : Dev} {q o : Nat} {bytes : Bytes} (ho : sqOwner d q = some o)
include ho

theorem takeEntry_malformed {f : Byte} (hf : formFault (getSq d q).log2 (getSq d q).head (parseSqe bytes) = some f) :
    takeEntry d q bytes = stopSq d q f (getSq d q).head := by
  simp only [takeEntry, ho, hf]

section
variable (hf : formFault (getSq d q).log2 (getSq d q).head (parseSqe bytes) = none)
include hf

theorem takeEntry_fenced (hw : isFence (parseSqe bytes) = true ∧ (d.jobs.live.any fun b => b.sq == q) = true) :
    takeEntry d q bytes = setSq d q { keeps (getSq d q) bytes with fenceWait := true } := by
  simp only [takeEntry, ho, hf, hw, Bool.and_self, if_true, keeps]

section
variable (hw : ¬ (isFence (parseSqe bytes) = true ∧ (d.jobs.live.any fun b => b.sq == q) = true))
include hw

theorem takeEntry_noSlot (ht : slotTurn d (boundCq d o (getSq d q)) q = false) :
    takeEntry d q bytes = setSq d q { keeps (getSq d q) bytes with slotWait := true } := by
  simp only [takeEntry, ho, hf, Bool.and_eq_true, hw, ht, Bool.not_false, if_true, if_false, keeps]

section
variable (ht : slotTurn d (boundCq d o (getSq d q)) q = true) (hg : goesHome d q (parseSqe bytes) = false)
include ht hg

theorem takeEntry_noCredit (hc : (getOwn d o).sh.credit.toNat ≤ (ownJobs d o).length) :
    takeEntry d q bytes = setSq d q { keeps (getSq d q) bytes with creditWait := true } := by
  simp only [takeEntry, ho, hf, Bool.and_eq_true, hw, ht, hg, hc, Bool.not_true, Bool.false_eq_true, if_true, if_false, keeps]

variable (hc : (ownJobs d o).length < (getOwn d o).sh.credit.toNat)
include hc

theorem takeEntry_keyWaits (hk : keyWaits d o (parseSqe bytes) = true) :
    takeEntry d q bytes = setSq d q { keeps (getSq d q) bytes with jrnWait := true } := by
  simp only [takeEntry, ho, hf, Bool.and_eq_true, hw, ht, hg, Nat.not_le.2 hc, hk, Bool.not_true, Bool.false_eq_true, if_true, if_false, keeps]

/-- An entry that passes every check and needs no journal entry becomes a job; it takes a slot of its CQ. -/
theorem takeEntry_starts (hk : keyWaits d o (parseSqe bytes) = false) (hj : journalled d o (parseSqe bytes) = false) :
    takeEntry d q bytes = startJob (modCq (setSq d q { keeps (getSq d q) bytes with
        head := (getSq d q).head + 1, outstanding := (getSq d q).outstanding + 1, held := none }) (boundCq d o (getSq d q))
      fun x => { x with reserved := x.reserved + 1, lastSq := q }) o q (boundCq d o (getSq d q)) (getSq d q).head (parseSqe bytes) none := by
  simp only [takeEntry, ho, hf, Bool.and_eq_true, hw, ht, hg, Nat.not_le.2 hc, hk, hj, Bool.not_true, Bool.false_eq_true, if_false, keeps]

end
end
end
end

/-! ## Placement (09 R308) -/

theorem maskSeed_jobs (d : Dev) (b : Job) (c : Nat) : (maskSeed d b c).2.jobs = d.jobs := by
  unfold maskSeed; split <;> rfl

/-- The records of a trump job's wait leave the jobs alone. -/
theorem trumpWait_jobs (d d' : Dev) (t : Bool) (s v : Nat) (h : d'.jobs = d.jobs) : (if t = true then recHist d' s v else d).jobs = d.jobs := by
  split
  · exact (reports_jobs (recHist_reports _ _ _)).trans h
  · rfl

/-- The job as its placement on cell `c` leaves it. -/
def placedOn (d : Dev) (b : Job) (c : Nat) (c2 : Option Nat) : Job :=
  { b with phase := .placed, eng := some c, eng2 := c2, part := takeParts d b c, placeNo := d.jobs.nextPlace, placeTb := d.glob.tb
           ver := jobVer d b c }

section
variable {d0 : Dev} {b : Job} {sp : OpSpec} (hsp : opSpec d0 b.owner b.e = some sp)
include hsp

theorem placeNew_late (hl : late d0 b.e = true) : placeNew d0 b = finish d0 b stDeadline 0 := by
  simp only [placeNew, hsp, hl, if_true]

/-- A job that may go now, whose engines are free and whose keys resolve, is placed on the engine that the Dealer picks. -/
theorem findJob_placeNew {c : Nat} {c2 : Option Nat} {d d1 d2 : Dev} (hl : late d0 b.e = false) (hz : resolveStopped d0 b.owner = false)
    (hr : needsRandom d0 b.owner b.e = false ∨ d0.rng.state ≠ .error ∧ d0.rng.hold = none) (ho : outranked d0 b = false)
    (hk : keyWaits d0 b.owner b.e = false) (hd : preempt d0 b sp.kind = d) (hb : findJob d b.id = some b)
    (hc : pickEngine d b sp.kind = some c) (hc2 : secondCell d b sp.kind2 = some c2)
    (hb0 : keyBarred d b.owner sp.key0 b.e.key0 = false) (hb1 : keyBarred d b.owner sp.key1 b.e.key1 = false)
    (h0 : resolveField d b.owner sp.key0 b.e.key0 = some d1) (h1 : resolveField d1 b.owner sp.key1 b.e.key1 = some d2) :
    findJob (placeNew d0 b) b.id = some (placedOn d b c c2) := by
  have hr1 : (needsRandom d0 b.owner b.e && d0.rng.state == .error) = false := by
    rcases hr with h | ⟨h, -⟩
    · rw [h, Bool.false_and]
    · rw [beq_eq_false_iff_ne.2 h, Bool.and_false]
  have hr2 : (needsRandom d0 b.owner b.e && d0.rng.hold.isSome) = false := by
    rcases hr with h | ⟨-, h⟩
    · rw [h, Bool.false_and]
    · rw [h, Option.isSome_none, Bool.and_false]
  have hseed : (maskSeed d2 b c).2.jobs = d.jobs := (maskSeed_jobs d2 b c).trans ((resolveField_jobs h1).trans (resolveField_jobs h0))
  have hput : findJob (modJob (maskSeed d2 b c).2 b.id fun _ => placedOn d b c c2) b.id = some (placedOn d b c c2) :=
    findJob_self _ b (placedOn d b c c2) ((findJob_jobs hseed).trans hb) rfl _ rfl
  simp only [placeNew, hsp, hl, hz, hr1, hr2, ho, hk, hd, hc, hc2, hb0, hb1, h0, h1, Bool.or_self, Bool.false_eq_true, if_false]
  refine (findJob_jobs ((startReads_jobs _ _).trans ((trumpWait_jobs _ _ _ _ _ ?_).trans (startOn_jobs _ _ _)))).trans hput
  rfl

end

theorem jobPlaceGo_waiting {d : Dev} {b : Job} (h : findJob d b.id = some b) (hp : b.phase = .waiting) (hk : b.nextKind = 0) :
    jobPlaceGo b.id d = placeNew d b := by
  simp only [jobPlaceGo, h, hp, hk, if_true]

/-! ## The data of a job (19 R540, R543) -/

/-- The wait for input is measured by TB, which the end of a read leaves alone. -/
theorem inputIn_readDone (d : Dev) (p : ReadFor → Bool) (n : Nat) (b : Job) : inputIn (readDone d p n) b = inputIn d b := by
  unfold inputIn; rw [(readDone_keeps d p n).2]

section
variable {d : Dev} {b : Job} (h : findJob d b.id = some b) (hl : b.remote = false)
include h

/-- A job's record after data of it came in, if all that the data does is change the record. -/
theorem findJob_dataIn (p : ReadFor → Bool) (n : Nat) (f : Job → Job) (hid : (f b).id = b.id) :
    findJob (modJob (readDone d p n) b.id fun x => inputIn (readDone d p n) (f x)) b.id = some (inputIn d (f b)) :=
  findJob_self _ b _ ((findJob_jobs (readDone_keeps d p n).1).trans h) ((inputIn_id _ _).trans hid) _ (inputIn_readDone _ _ _ _)

include hl

theorem dmaReadCompletionGo_data (side : DmaSide) (bs : Bytes) : dmaReadCompletionGo b.id side (.data bs) d = jobData d b side bs := by
  simp only [dmaReadCompletionGo, h, hl, Bool.false_eq_true, if_false]

theorem dmaReadCompletionGo_fails (side : DmaSide) {r : DmaRes} (hr : r = .ur ∨ r = .ca ∨ r = .poison) :
    dmaReadCompletionGo b.id side r d = jobReadFailed d b side (failKind r) := by
  rcases hr with rfl | rfl | rfl <;> simp only [dmaReadCompletionGo, h, hl, Bool.false_eq_true, if_false]

theorem dmaReadTimeoutGo_job (side : DmaSide) : dmaReadTimeoutGo (.job b.id side) d = jobReadFailed d b side 3 := by
  simp only [dmaReadTimeoutGo, h, hl, Bool.false_eq_true, if_false]

end

/-! ## The check of an output list (02 R43) -/

section
variable {d : Dev} {b : Job} {segs : List Seg} (h : findJob d b.id = some b) (hs : b.outSegs = some segs)
include h hs

theorem outputListCheckedGo_more (hm : segScan segs 0 b.e.outCap.toNat = .more) : outputListCheckedGo b.id d = d := by
  simp only [outputListCheckedGo, h, hs, hm]

theorem outputListCheckedGo_bad {n : Nat} (hm : segScan segs 0 b.e.outCap.toNat = .bad n) :
    outputListCheckedGo b.id d = listVerdict d { b with outBad := some (BitVec.ofNat 16 n) } := by
  simp only [outputListCheckedGo, h, hs, hm]

theorem outputListCheckedGo_wraps {n : Nat} {seg : Seg} (hm : segScan segs 0 b.e.outCap.toNat = .done n)
    (hw : segWraps (segs.take n) = some seg) :
    outputListCheckedGo b.id d = failNow (wrapFailed d b seg.addr) { b with outSegs := none } stDmaError 2 := by
  simp only [outputListCheckedGo, h, hs, hm, hw]

theorem outputListCheckedGo_whole {n : Nat} (hm : segScan segs 0 b.e.outCap.toNat = .done n) (hw : segWraps (segs.take n) = none) :
    outputListCheckedGo b.id d = listVerdict d { b with outSegs := some (segs.take n), outOk := true } := by
  simp only [outputListCheckedGo, h, hs, hm, hw]

end

/-- A verdict on a job's list: the job goes on with it, or a job that had failed and waited for it ends. -/
theorem listVerdict_judges {i : Instr} {s : State} {b b1 : Job} {go : Dev → Dev} (hi : exec i s = onDev s go)
    (e : go s.dev = listVerdict s.dev b1) (h : findJob s.dev b.id = some b) (hid : b1.id = b.id) (hf : b1.fail = b.fail) :
    (b.fail = none → Completes i s fun d' => findJob d' b.id = some b1)
      ∧ ∀ n st det, b.fail = some (n, st, det) → Gives i s (failNow s.dev b1 st det) := by
  refine ⟨fun hn => gives_done (gives_of hi e) ?_, fun n st det hn => gives_of hi (e.trans ?_)⟩
  · simp only [listVerdict, hf, hn, hid]
    exact findJob_self _ b _ h hid _ rfl
  · simp only [listVerdict, hf, hn]

/-! ## The statement -/

/-- Settles O40: under a clause's conditions the command's meaning is one equation above. The order of an entry's form checks is that of
`formFault`; an entry that goes to another node or takes a journal entry at its fetch is outside the statement. -/
theorem jobFlowResults : Obligations.JobFlowResults := by
  unfold Obligations.JobFlowResults
  dsimp only
  refine ⟨fun s o q hr hs hq => ⟨fun bytes hh => ?_, fun hh ht => ?_, fun hh ht hc => ?_, fun hh ht hc => ⟨fun hm => ?_, fun n bytes hm => ?_⟩⟩,
    fun s q n hn => ⟨fun bytes => ?_, fun x hx => ?_, ?_⟩,
    fun d q bytes o ho => ⟨fun f hf => ?_, fun hf => ⟨fun hw => ?_, fun hw ht => ?_, fun hw ht hg => ⟨fun hc => ?_, fun hc hk => ?_, fun hc hk hj => ?_⟩⟩⟩,
    fun s b sp c c2 d1 d2 hb hp hn hsp hz hr ho hk hb' hc hc2 hb0 hb1 h0 h1 => ⟨fun hl => ?_, fun hl => ?_⟩,
    fun s b bs hb hl => ⟨?_, ?_, fun side r hr => ?_, fun side => ?_⟩,
    fun s b segs hb hs => ⟨fun hm => ?_, fun n hm => ?_, fun n seg hm hw => ?_, fun n hm hw => ?_⟩⟩
  · exact gives_of (go := entryFetchGo o) rfl (entryFetchGo_held hr hs hq rfl hh)
  · exact gives_of (go := entryFetchGo o) rfl (entryFetchGo_noSlot hr hs hq rfl hh ht)
  · exact gives_of (go := entryFetchGo o) rfl (entryFetchGo_noCredit hr hs hq rfl hh ht hc)
  · exact gives_of (go := entryFetchGo o) rfl (entryFetchGo_reads hr hs hq rfl hh ht hc hm)
  · exact gives_of (go := entryFetchGo o) rfl (entryFetchGo_captured hr hs hq rfl hh ht hc hm)
  · exact gives_of (go := entryReadDoneGo q (.data bytes)) rfl (entryReadDoneGo_data hn bytes)
  · exact gives_of (go := entryReadDoneGo q x) rfl (entryReadDoneGo_fails hn hx)
  · exact gives_of (go := dmaReadTimeoutGo (.entry q)) rfl (dmaReadTimeoutGo_entry hn)
  · exact takeEntry_malformed ho hf
  · exact takeEntry_fenced ho hf hw
  · exact takeEntry_noSlot ho hf hw ht
  · exact takeEntry_noCredit ho hf hw ht hg hc
  · exact takeEntry_keyWaits ho hf hw ht hg hc hk
  · exact takeEntry_starts ho hf hw ht hg hc hk hj
  · exact gives_of (go := jobPlaceGo b.id) rfl ((jobPlaceGo_waiting hb hp hn).trans (placeNew_late hsp hl))
  · refine gives_done (gives_of (go := jobPlaceGo b.id) rfl (jobPlaceGo_waiting hb hp hn)) ?_
    exact findJob_placeNew hsp hl hz hr ho hk rfl hb' hc hc2 hb0 hb1 h0 h1
  · refine gives_done (gives_of (go := dmaReadCompletionGo b.id .input (.data bs)) rfl (dmaReadCompletionGo_data hb hl .input bs)) ?_
    exact findJob_dataIn hb (ofJob b.id .input) bs.length (fun x => { x with inData := (x.inData ++ bs).take x.e.inLen.toNat }) rfl
  · refine gives_done (gives_of (go := dmaReadCompletionGo b.id .aux (.data bs)) rfl (dmaReadCompletionGo_data hb hl .aux bs)) ?_
    exact findJob_dataIn hb (ofJob b.id .aux) bs.length (fun x => { x with auxData := (x.auxData ++ bs).take x.e.auxLen.toNat }) rfl
  · exact gives_of (go := dmaReadCompletionGo b.id side r) rfl (dmaReadCompletionGo_fails hb hl side hr)
  · exact gives_of (go := dmaReadTimeoutGo (.job b.id side)) rfl (dmaReadTimeoutGo_job hb hl side)
  · exact gives_of (go := outputListCheckedGo b.id) rfl (outputListCheckedGo_more hb hs hm)
  · exact listVerdict_judges (go := outputListCheckedGo b.id) rfl (outputListCheckedGo_bad hb hs hm) hb rfl rfl
  · exact gives_of (go := outputListCheckedGo b.id) rfl (outputListCheckedGo_wraps hb hs hm hw)
  · exact listVerdict_judges (go := outputListCheckedGo b.id) rfl (outputListCheckedGo_whole hb hs hm hw) hb rfl rfl

end Sys2Proof.Proofs.JobFlow
end

section
/-!
PROOF. Rings: doorbells, push windows, coalescing, and the writes of queue registers that act (02 R51-R55, R62-R76; 19 R538).
-/
namespace Sys2Proof.Proofs.Rings

open Sys2Proof.Machine Sys2Proof.Safety Sys2Proof.Laws

/-! ## A new tail (02 R52, R53, R55) -/

/-- A tail that leaves its ring (02 R53). -/
def BadTail (r : Sq) (t : U32) : Prop := sqSize r < (t - r.head).toNat ∨ sqSize r < (t - r.tail).toNat

/-- A tail one further while the window of a push SQ holds that entry (02 R55). -/
def WindowHolds (r : Sq) (t : U32) : Prop := r.push = true ∧ t = r.tail + 1 ∧ byteAt (fit 64 r.window) 3 = genOf r.log2 r.tail

theorem badTail_iff (r : Sq) (t : U32) :
    (decide (sqSize r < (t - r.head).toNat) || decide (sqSize r < (t - r.tail).toNat)) = true ↔ BadTail r t := by
  simp only [BadTail, Bool.or_eq_true, decide_eq_true_eq]

theorem windowHolds_iff (r : Sq) (t : U32) :
    (r.push && t == r.tail + 1 && byteAt (fit 64 r.window) 3 == genOf r.log2 r.tail) = true ↔ WindowHolds r t := by
  simp only [WindowHolds, Bool.and_eq_true, beq_iff_eq, and_assoc]

section
variable {d : Dev} {q : Nat} {t : U32}

theorem sqTail_ignored (h : (getSq d q).en = false ∨ (getSq d q).stopped = true ∨ t = (getSq d q).tail) : sqTail d q t = d := if_pos <| by
  rcases h with h | h | h
  · rw [h, Bool.not_false, Bool.true_or, Bool.true_or]
  · rw [h, Bool.or_true, Bool.true_or]
  · rw [beq_iff_eq.2 h, Bool.or_true]

section
variable (he : (getSq d q).en = true) (hs : (getSq d q).stopped = false) (ht : t ≠ (getSq d q).tail)
include he hs ht

/-- An enabled SQ that is not stopped looks at a tail that is new to it. -/
theorem sqTail_heeded : (!(getSq d q).en || (getSq d q).stopped || t == (getSq d q).tail) = false := by
  rw [he, hs, beq_eq_false_iff_ne.2 ht]; rfl

theorem sqTail_bad (hb : BadTail (getSq d q) t) : sqTail d q t = stopSq d q erDoorbellRange t := by
  simp only [sqTail, sqTail_heeded he hs ht, (badTail_iff _ _).2 hb, Bool.false_eq_true, if_false, if_true]

variable (hb : ¬ BadTail (getSq d q) t)
include hb

theorem sqTail_captures (hw : WindowHolds (getSq d q) t) : sqTail d q t = setSq d q { getSq d q with
    tail := t, captured := (getSq d q).captured ++ [((getSq d q).tail, fit 64 (getSq d q).window)] } := by
  have hg := Bool.eq_false_iff.2 fun h => hb ((badTail_iff _ _).1 h)
  simp only [sqTail, sqTail_heeded he hs ht, hg, (windowHolds_iff _ _).2 hw, Bool.false_eq_true, if_false, if_true]

theorem sqTail_moves (hw : ¬ WindowHolds (getSq d q) t) : sqTail d q t = setSq d q { getSq d q with tail := t } := by
  have hg := Bool.eq_false_iff.2 fun h => hb ((badTail_iff _ _).1 h)
  have hc := Bool.eq_false_iff.2 fun h => hw ((windowHolds_iff _ _).1 h)
  simp only [sqTail, sqTail_heeded he hs ht, hg, hc, Bool.false_eq_true, if_false]

end
end

/-! ## A new head (02 R52, R54) -/

section
variable {d : Dev} {c : Nat} {h : U32}

theorem cqHead_disabled (he : (getCq d c).en = false) : cqHead d c h = d := if_pos (by rw [he]; rfl)

section
variable (he : (getCq d c).en = true)
include he

theorem cqHead_outOfRange (hr : ((getCq d c).tail - (getCq d c).head).toNat < (h - (getCq d c).head).toNat) :
    cqHead d c h = setCq d c { getCq d c with headErr := true } :=
  (if_neg (by rw [he]; decide)).trans (if_pos hr)

theorem cqHead_inRange (hr : (h - (getCq d c).head).toNat ≤ ((getCq d c).tail - (getCq d c).head).toNat) :
    cqHead d c h = passDone (setCq d c { getCq d c with head := h }) c (getCq d c).head h :=
  (if_neg (by rw [he]; decide)).trans (if_neg (Nat.not_lt.2 hr))

end
end

/-! ## Writes that name a queue of their function (02 R51) -/

theorem sqDoorbellGo_open {s : State} {f j q : Nat} (h : SqOpen s.dev f j q) (hr : isReady s.dev = true) (t : U32) :
    sqDoorbellGo f j t s.dev = sqTail s.dev q t := sqr_go h hr rfl

theorem cqDoorbellGo_open {d : Dev} {f j c : Nat} (h : CqOpen d f j c) (hr : isReady d = true) (n : U32) :
    cqDoorbellGo f j n d = cqHead d c n := by
  obtain ⟨hb, hc⟩ := h
  simp only [cqDoorbellGo, hr, hb, hc, Bool.not_true, Bool.or_self, Bool.false_eq_true, if_false]

section
variable {s : State} {f j q : Nat} (h : SqOpen s.dev f j q)
include h

theorem sqEnableGo_open (v : U64) : sqEnableGo f j v s.dev = sqEnable s.dev f q v := sq_go h rfl

theorem sqDisableGo_open (v : U64) : sqDisableGo f j v s.dev = sqDisable s.dev q v := sq_go h rfl

theorem sqHeadWriteGo_open (n : U32) : sqHeadWriteGo f j n s.dev =
    setSq s.dev q (if (getSq s.dev q).en then getSq s.dev q else { getSq s.dev q with head := n, tail := n }) := sq_go h rfl

end

section
variable {d : Dev} {f j c : Nat} (h : CqOpen d f j c)
include h

theorem cqEnableGo_open (v : U64) : cqEnableGo f j v d = cqEnable d f c v := by
  simp only [cqEnableGo, h.1, h.2, Bool.not_true, Bool.false_eq_true, if_false]

theorem cqDisableGo_open (v : U64) : cqDisableGo f j v d = cqDisable d c v := by
  simp only [cqDisableGo, h.1, h.2, Bool.not_true, Bool.false_eq_true, if_false]

theorem cqPtrWriteGo_open (n : U32) : cqPtrWriteGo f j n d =
    setCq d c (if (getCq d c).en then getCq d c else { getCq d c with head := n, tail := n }) := by
  simp only [cqPtrWriteGo, h.1, h.2, modCq, Bool.not_true, Bool.false_eq_true, if_false]

end

/-- A 64-bit doorbell is its tail's doorbell and then its head's (02 R52). -/
theorem gives_doorbell64 {s : State} {f j : Nat} {t n : U32} {d1 : Dev} (h : Gives (.sqDoorbell f j t) s d1) :
    Gives (.doorbell64 f j t n) s (cqDoorbellGo f j n d1) := by
  have e : sqDoorbellGo f j t s.dev = d1 := by
    have h : onDev s (sqDoorbellGo f j t) = .next { s with dev := d1 } := h
    injection h with h
    injection h
  exact gives_of (go := fun d => cqDoorbellGo f j n (sqDoorbellGo f j t d)) rfl (congrArg (cqDoorbellGo f j n) e)

/-! ## Push windows (02 R55, 19 R538) -/

/-- A write that a push window takes. -/
def WindowForm (off : Nat) (bs : Bytes) : Prop :=
  4 ≤ bs.length ∧ bs.length ≤ 64 ∧ bs.length % 4 = 0 ∧ off % 4 = 0 ∧ off + bs.length ≤ 64

theorem not_windowForm_iff (off : Nat) (bs : Bytes) :
    (decide (bs.length < 4) || decide (64 < bs.length) || decide (bs.length % 4 ≠ 0) || decide (off % 4 ≠ 0) || decide (64 < off + bs.length)) = true
      ↔ ¬ WindowForm off bs := by
  simp only [WindowForm, Bool.or_eq_true, decide_eq_true_eq]; omega

section
variable {d : Dev} {f j q off : Nat} {bs : Bytes} (h : SqOpen d f j q) (hr : isReady d = true)
include h hr

theorem pushWriteGo_badForm (hf : ¬ WindowForm off bs) :
    pushWriteGo f j off bs d = badAccess d f ((if f = 0 then 0x10000 else 0x3000) + 64 * j + off) := by
  have hg := (not_windowForm_iff off bs).2 hf
  simp only [pushWriteGo, hr, h.1, hg, Bool.not_true, Bool.or_self, Bool.false_eq_true, if_false, if_true]

theorem pushWriteGo_form (hf : WindowForm off bs) : pushWriteGo f j off bs d =
    if (!(getSq d q).en || (getSq d q).stopped || (getSq d q).draining) = true then d
    else setSq d q { getSq d q with window := splice (fit 64 (getSq d q).window) off bs } := by
  have hg := Bool.eq_false_iff.2 fun hn => (not_windowForm_iff off bs).1 hn hf
  simp only [pushWriteGo, hr, h.1, h.2, hg, Bool.not_true, Bool.or_self, Bool.false_eq_true, if_false]

theorem pushWriteGo_written (hf : WindowForm off bs) (he : (getSq d q).en = true) (hs : (getSq d q).stopped = false)
    (hd : (getSq d q).draining = false) :
    pushWriteGo f j off bs d = setSq d q { getSq d q with window := splice (fit 64 (getSq d q).window) off bs } :=
  (pushWriteGo_form h hr hf).trans (if_neg (by rw [he, hs, hd]; decide))

theorem pushWriteGo_ignored (hf : WindowForm off bs)
    (hn : (getSq d q).en = false ∨ (getSq d q).stopped = true ∨ (getSq d q).draining = true) : pushWriteGo f j off bs d = d :=
  (pushWriteGo_form h hr hf).trans <| if_pos <| by
    rcases hn with hn | hn | hn
    · rw [hn, Bool.not_false, Bool.true_or, Bool.true_or]
    · rw [hn, Bool.or_true, Bool.true_or]
    · rw [hn, Bool.or_true]

end

/-! ## Coalescing (02 R62) -/

theorem coalTimerExpiryGo_sends {d : Dev} {c : Nat} (ht : (getCq d c).timer = true) (hu : 0 < (getCq d c).unsig) :
    coalTimerExpiryGo c d = cqMessage d c := if_pos (by rw [ht, decide_eq_true hu, Bool.and_self])

/-! ## EN of an SQ (02 R69, R73, R74) -/

/-- Outside READY, or where a grant bars enables, an enable is no more than a write of fields (14 R436). -/
theorem enable_barred {d : Dev} (h : isReady d = false ∨ enableBarred d = true) : (!isReady d || enableBarred d) = true := by
  rcases h with h | h
  · rw [h, Bool.not_false, Bool.true_or]
  · rw [h, Bool.or_true]

section
variable {d : Dev} {f q : Nat} {v : U64}

section
variable (he : (getSq d q).en = false)
include he

theorem sqEnable_barred (h : isReady d = false ∨ enableBarred d = true) : sqEnable d f q v = setSq d q (sqFields (getSq d q) v) :=
  (if_neg (by rw [he]; decide)).trans (if_pos (enable_barred h))

section
variable (hr : isReady d = true) (hb : enableBarred d = false)
include hr hb

theorem sqEnable_refused {e : Byte} (h : sqEnableRefusal d f q (sqFields (getSq d q) v) = some e) :
    sqEnable d f q v = setSq d q { sqFields (getSq d q) v with err := e } := by
  simp only [sqEnable, he, hr, hb, h, Bool.not_true, Bool.or_self, Bool.false_eq_true, if_false]

theorem sqEnable_enables (h : sqEnableRefusal d f q (sqFields (getSq d q) v) = none) :
    sqEnable d f q v = setSq d q { sqFields (getSq d q) v with en := true, stopped := false, err := 0, errIndex := 0 } := by
  simp only [sqEnable, he, hr, hb, h, Bool.not_true, Bool.or_self, Bool.false_eq_true, if_false]

end

theorem sqDisable_disabled (hv : v.getLsbD 2 = false) : sqDisable d q v = setSq d q (sqFields (getSq d q) v) := by
  simp only [sqDisable, he, hv, Bool.false_eq_true, if_false]

end

/-- An SQ that leaves service: what it holds of entries is dropped, and it drains while jobs of it are outstanding (02 R74). -/
def sqOff (r : Sq) : Sq :=
  { r with en := false, window := [], captured := [], reading := none, held := none, fenceWait := false, slotWait := false
           creditWait := false, jrnWait := false, draining := r.outstanding != 0 }

section
variable (he : (getSq d q).en = true)
include he

theorem sqDisable_drains (hv : v.getLsbD 2 = false) : sqDisable d q v = setSq d q (sqOff (getSq d q)) := by
  simp only [sqDisable, he, hv, Bool.false_eq_true, if_false, if_true, sqOff]

/-- With DISCARD the jobs of the SQ are aborted. -/
theorem sqDisable_discards (hv : v.getLsbD 2 = true) : sqDisable d q v =
    (d.jobs.live.filter fun b => b.sq == q).foldl (fun acc b => abortJob acc b stDiscarded) (setSq d q (sqOff (getSq d q))) := by
  simp only [sqDisable, he, hv, if_true, sqOff, setSq]

end
end

/-! ## EN of a CQ (02 R75, R76) -/

section
variable {d : Dev} {f c : Nat} {v : U64}

section
variable (he : (getCq d c).en = false)
include he

theorem cqEnable_barred (h : isReady d = false ∨ enableBarred d = true) : cqEnable d f c v = setCq d c (cqFields (getCq d c) v) :=
  (if_neg (by rw [he]; decide)).trans (if_pos (enable_barred h))

variable (hr : isReady d = true) (hb : enableBarred d = false)
include hr hb

theorem cqEnable_badSize (h : (cqFields (getCq d c) v).log2.toNat < 6 ∨ 16 < (cqFields (getCq d c) v).log2.toNat) :
    cqEnable d f c v = setCq d c { cqFields (getCq d c) v with enErr := 1 } := by
  have hs : (decide ((cqFields (getCq d c) v).log2.toNat < 6) || decide (16 < (cqFields (getCq d c) v).log2.toNat)) = true := by
    rwa [Bool.or_eq_true, decide_eq_true_eq, decide_eq_true_eq]
  simp only [cqEnable, he, hr, hb, hs, Bool.not_true, Bool.or_self, Bool.false_eq_true, if_false, if_true]

/-- A CQ of a good size is enabled where its vector is in its function's table (log 20). -/
theorem cqEnable_goodSize (hl : 6 ≤ (cqFields (getCq d c) v).log2.toNat) (hu : (cqFields (getCq d c) v).log2.toNat ≤ 16) :
    cqEnable d f c v = if vecCount d f ≤ (cqFields (getCq d c) v).vector.toNat then setCq d c { cqFields (getCq d c) v with enErr := 2 }
      else setCq d c { cqFields (getCq d c) v with en := true, enErr := 0 } := by
  have hs : (decide ((cqFields (getCq d c) v).log2.toNat < 6) || decide (16 < (cqFields (getCq d c) v).log2.toNat)) = false := by
    rw [decide_eq_false (Nat.not_lt.2 hl), decide_eq_false (Nat.not_lt.2 hu), Bool.or_self]
  simp only [cqEnable, he, hr, hb, hs, Bool.not_true, Bool.or_self, Bool.false_eq_true, if_false]

end

section
variable (he : (getCq d c).en = true)
include he

theorem cqDisable_refused (h : cqBusy d c = true ∨ (getCq d c).reserved ≠ 0) :
    cqDisable d c v = setCq d c { getCq d c with disRefused := true } :=
  (if_neg (by rw [he]; decide)).trans <| if_pos <| by
    rcases h with h | h
    · rw [h, Bool.true_or]
    · rw [bne_iff_ne.2 h, Bool.or_true]

theorem cqDisable_disables (hb : cqBusy d c = false) (hr : (getCq d c).reserved = 0) :
    cqDisable d c v = setCq d c { getCq d c with en := false } :=
  (if_neg (by rw [he]; decide)).trans (if_neg (by rw [hb, hr]; decide))

end

/-- An SQ that is enabled or draining and bound to a CQ keeps it busy (02 R75). -/
theorem cqBusy_of_bound {q o : Nat} {x : Sq} (hm : (q, x) ∈ d.sqs) (hx : x.en = true ∨ x.draining = true) (ho : sqOwner d q = some o)
    (hc : boundCq d o x = c) : cqBusy d c = true := by
  refine List.any_eq_true.2 ⟨(q, x), hm, ?_⟩
  simp only [ho, hc, beq_self_eq_true, Bool.and_true, Bool.or_eq_true, hx]

end

/-! ## The statements -/

/-- Settles O38: a head out of range stops at the range check, whatever the tail in the lower half has done before. -/
theorem cqHeadOutOfRange : Obligations.CqHeadOutOfRange := by
  unfold Obligations.CqHeadOutOfRange
  dsimp only
  refine ⟨fun s f j c h hc hr he ho => ?_, fun s f j c t h d1 hd hc hr he ho => ?_⟩
  · exact gives_of (go := cqDoorbellGo f j h) rfl ((cqDoorbellGo_open hc hr h).trans (cqHead_outOfRange he ho))
  · rw [← cqHead_outOfRange he ho, ← cqDoorbellGo_open hc hr h]
    exact gives_doorbell64 hd

/-- Settles O39: a bound SQ in service makes the CQ busy, and a busy CQ or one with completions reserved refuses. -/
theorem cqDisableRefused : Obligations.CqDisableRefused := by
  unfold Obligations.CqDisableRefused
  dsimp only
  refine fun s f j c v hc he h => gives_of (go := cqDisableGo f j v) rfl ((cqDisableGo_open hc v).trans (cqDisable_refused he ?_))
  exact h.imp_left fun ⟨_, _, _, hm, hx, ho, hb⟩ => cqBusy_of_bound hm hx ho hb

/-- Settles O37: under a clause's conditions the command's meaning is one equation above. The order in which the refusals of an enable are
looked for is log 20. -/
theorem queueCommandResults : Obligations.QueueCommandResults := by
  unfold Obligations.QueueCommandResults
  dsimp only
  refine ⟨fun s f j q t hq hr => ?_, fun s f j c h hc hr => ?_, fun s f j t h d1 hd => gives_doorbell64 hd, fun s f j q off bs hq hr => ?_,
    fun s c ht hu => gives_of (go := coalTimerExpiryGo c) rfl (coalTimerExpiryGo_sends ht hu), fun s f j q v hq => ?_, fun s f j c v hc => ?_⟩
  · have tail {d1 : Dev} (e : sqTail s.dev q t = d1) : Gives (.sqDoorbell f j t) s d1 :=
      gives_of (go := sqDoorbellGo f j t) rfl ((sqDoorbellGo_open hq hr t).trans e)
    exact ⟨fun h => tail (sqTail_ignored h), fun he hs ht => ⟨fun hb => tail (sqTail_bad he hs ht hb),
      fun hb hw => tail (sqTail_captures he hs ht hb hw), fun hb hw => tail (sqTail_moves he hs ht hb hw)⟩⟩
  · have head {d1 : Dev} (e : cqHead s.dev c h = d1) : Gives (.cqHeadDoorbell f j h) s d1 :=
      gives_of (go := cqDoorbellGo f j h) rfl ((cqDoorbellGo_open hc hr h).trans e)
    exact ⟨fun he => head (cqHead_disabled he), fun he hi => head (cqHead_inRange he hi)⟩
  · exact ⟨fun hf => gives_of (go := pushWriteGo f j off bs) rfl (pushWriteGo_badForm hq hr hf),
      fun hf he hs hd => gives_of (go := pushWriteGo f j off bs) rfl (pushWriteGo_written hq hr hf he hs hd),
      fun hf hn => gives_of (go := pushWriteGo f j off bs) rfl (pushWriteGo_ignored hq hr hf hn)⟩
  · have enable {d1 : Dev} (e : sqEnable s.dev f q v = d1) : Gives (.sqEnable f j v) s d1 :=
      gives_of (go := sqEnableGo f j v) rfl ((sqEnableGo_open hq v).trans e)
    have disable {d1 : Dev} (e : sqDisable s.dev q v = d1) : Gives (.sqDisable f j v) s d1 :=
      gives_of (go := sqDisableGo f j v) rfl ((sqDisableGo_open hq v).trans e)
    exact ⟨fun he hn => enable (sqEnable_barred he hn), fun he hr hb => ⟨fun e h => enable (sqEnable_refused he hr hb h),
        fun h => enable (sqEnable_enables he hr hb h)⟩,
      fun he => ⟨fun hv => disable (sqDisable_drains he hv), fun hv => disable (sqDisable_discards he hv)⟩,
      fun he hv => disable (sqDisable_disabled he hv), fun n => gives_of (go := sqHeadWriteGo f j n) rfl (sqHeadWriteGo_open hq n)⟩
  · have enable {d1 : Dev} (e : cqEnable s.dev f c v = d1) : Gives (.cqEnable f j v) s d1 :=
      gives_of (go := cqEnableGo f j v) rfl ((cqEnableGo_open hc v).trans e)
    refine ⟨fun he hn => enable (cqEnable_barred he hn), fun he hr hb => ⟨fun h => enable (cqEnable_badSize he hr hb h), fun hl hu hv => ?_,
      fun hl hu hv => ?_⟩, fun he hb hn => ?_, fun n => gives_of (go := cqPtrWriteGo f j n) rfl (cqPtrWriteGo_open hc n)⟩
    · exact enable ((cqEnable_goodSize he hr hb hl hu).trans (if_pos hv))
    · exact enable ((cqEnable_goodSize he hr hb hl hu).trans (if_neg (Nat.not_le.2 hv)))
    · exact gives_of (go := cqDisableGo f j v) rfl ((cqDisableGo_open hc v).trans (cqDisable_disables he hb hn))

end Sys2Proof.Proofs.Rings
end

section
/-!
PROOF. Jobs of the control class and IDENTITY, and the hash services with their streams (02 R81-R87; 04 R127-R133; 12 R390).
-/
namespace Sys2Proof.Proofs.ControlHash

open Sys2Proof.Machine Sys2Proof.Safety Sys2Proof.Laws

/-! ## FATE_QUERY of a record that this node holds (02 R85; log 19) -/

theorem fateQueryRun_here {d : Dev} {b : Job} (h : fateNode d (fqArgs d b.owner (u64At b.auxData 0) (u64At b.auxData 8)) = none) :
    fateQueryRun d b =
      let a := fqArgs d b.owner (u64At b.auxData 0) (u64At b.auxData 8)
      let recs := if b.e.param = 2 then (jByKey d a).map (fun k => jRec (getJ d k)) ++ [({} : FateRec)] else [fateByJob d a]
      finishOut d b (((recs.take (b.e.outCap.toNat / 32)).map fateBytes).flatten) 0 0 0 0 := by
  simp only [fateQueryRun, h]

/-! ## Streams: what opens a context and what refuses it (04 R133) -/

section
variable {d : Dev} {b : Job}

theorem hashUpdateRun_opens (h : ctxFault d b (ownAux b) = none) : hashUpdateRun d b =
    let c := ctxOpen d b (ownAux b)
    let r := ctxSeal d b.owner (u16At (ownAux b) 4) (u32At (ownAux b) 0xC)
      { c with run := hAbsorb (opSet b.e.opcode) c.run b.inData, total := c.total + b.inData.length }
    finishOut r.2 b r.1 0 0 0 (hashJobCycles d b 440) := by
  simp only [hashUpdateRun, h]

theorem hashUpdateRun_refuses {det : U16} (h : ctxFault d b (ownAux b) = some det) :
    hashUpdateRun d b = refuse d b stContextInvalid det 220 := by
  simp only [hashUpdateRun, h]

section
variable (h : ctxFault d b ((ownAux b).take 512) = none)
include h

theorem hashFinalRun_opens : hashFinalRun d b =
    let c := ctxOpen d b ((ownAux b).take 512)
    finishOut d b (ctxEnd d b c) 0 0 0 (hashJobCycles d b 220 c.xof) := by
  simp only [hashFinalRun, h]

theorem finalVerifyRun_opens : finalVerifyRun d b =
    let c := ctxOpen d b ((ownAux b).take 512)
    verdict d b (ctxEnd d b c == (ownAux b).drop 512) stTagInvalid 0 (hashJobCycles d b 220 c.xof) := by
  simp only [finalVerifyRun, h]

end

section
variable {det : U16} (h : ctxFault d b ((ownAux b).take 512) = some det)
include h

theorem hashFinalRun_refuses : hashFinalRun d b = refuse d b stContextInvalid det 220 := by
  simp only [hashFinalRun, h]

theorem finalVerifyRun_refuses : finalVerifyRun d b = refuse d b stContextInvalid det 220 := by
  simp only [finalVerifyRun, h]

end
end

/-! ## The statement -/

/-- Settles O23: a job that is ready runs its operation, which ends it in one of the ways that Laws/Services says once. That PARAM 2 asks
FATE_QUERY for the records of a key, and that OUT_CAP/32 of them are written, is log 19; the layout of a context's sealed part is log 23. -/
theorem controlAndHashResults : Obligations.ControlAndHashResults := by
  unfold Obligations.ControlAndHashResults
  dsimp only
  refine ⟨⟨fun s b h => ?_, fun s b h => ?_, fun s b h => ?_, fun s b h => ?_, fun s b h => ?_, fun s b h hn => ?_, fun s b h => ?_, fun s b h => ?_⟩,
    fun s b h => ?_, fun s b h => ?_, fun s b h => ?_, fun s b h => ?_, fun s b h => ⟨fun hf => ?_, fun det hf => ?_⟩,
    fun s b h => ⟨fun hf => ?_, fun det hf => ?_⟩, fun s b h => ⟨fun hf => ?_, fun det hf => ?_⟩⟩
  · have e := serveNone_to (i := .nop b.id) nopRun rfl h rfl
    exact ⟨e, finish_over e⟩
  · have e := serveNone_to (i := .notify b.id) notifyRun rfl h rfl
    exact ⟨e, finish_over e⟩
  · exact jobDone_of (serveNone_exec (run := echoRun) rfl h)
  · exact jobDone_of (serveNone_exec (run := queryCapsRun) rfl h)
  · exact jobDone_of (serveNone_exec (run := timeRun) rfl h)
  · exact jobDone_of (serveNone_to fateQueryRun rfl h (fateQueryRun_here hn))
  · exact serveNone_exec (run := fateReleaseRun) rfl h
  · exact jobDone_of (serveNone_exec (run := identityRun) rfl h)
  · exact jobDone_of (serve_exec (run := hashDigestRun) rfl h)
  · exact jobDone_of (serve_exec (run := hashMacRun) rfl h)
  · exact verdict_over (serve_exec (run := macVerifyRun) rfl h)
  · exact jobDone_of (serve_exec (run := hashInitRun) rfl h)
  · exact jobDone_of (serve_to hashUpdateRun rfl h (hashUpdateRun_opens hf))
  · exact refuse_over (serve_to hashUpdateRun rfl h (hashUpdateRun_refuses hf))
  · exact jobDone_of (serve_to hashFinalRun rfl h (hashFinalRun_opens hf))
  · exact refuse_over (serve_to hashFinalRun rfl h (hashFinalRun_refuses hf))
  · exact verdict_over (serve_to finalVerifyRun rfl h (finalVerifyRun_opens hf))
  · exact refuse_over (serve_to finalVerifyRun rfl h (finalVerifyRun_refuses hf))

end Sys2Proof.Proofs.ControlHash
end

section
/-!
PROOF. ML-KEM and the hybrids (03 R101-R105, R115-R119, R122).
-/
namespace Sys2Proof.Proofs.Kem

open Sys2Proof.Machine Sys2Proof.Safety Sys2Proof.Laws

theorem opOp_of_isOp {cls op : Nat} {e : Sqe} (h : isOp cls op e = true) : opOp e.opcode = op := by
  unfold isOp at h
  simp only [Bool.and_eq_true, beq_iff_eq] at h
  exact h.2

/-- The branch of the routines of a hybrid that an OP of ENCAPS takes, and the one of DECAPS. -/
theorem encaps_branch {op : Nat} (h : op = 2 ∨ op = 4) : op ≠ 1 ∧ (decide (op = 2) || decide (op = 4)) = true := by
  rcases h with rfl | rfl <;> decide
theorem decaps_branch {op : Nat} (h : op = 3 ∨ op = 5) : op ≠ 1 ∧ ¬(decide (op = 2) || decide (op = 4)) = true := by
  rcases h with rfl | rfl <;> decide

/-! ## The commands that come in two forms: the secret to OUT, or kept as an object (03 R105) -/

section
variable {keep : Bool} {s : State} {b : Job}

/-- The secret of either form: kept as an object of the owner's, or written after the output. -/
theorem secret_given {i : Instr} {d0 : Dev} {ss out : Bytes} {cyc : Nat}
    (h : exec i s = .next { s with dev := if keep then keepSecret d0 b ss out cyc else finishOut d0 b (out ++ ss) 0 0 0 cyc }) :
    if keep then KeyMade i s d0 b { type := 0x8140, policy := pPolicy b.e, origin := 1, sec := ss, pub := [] } out 0 cyc
    else JobDone i s d0 b (out ++ ss) 0 0 0 cyc := by
  cases keep with
  | true => exact keyMade_of h
  | false => exact jobDone_of h

theorem exec_kemEncaps : exec (if keep then .kemEncapsKeep b.id else .kemEncaps b.id) s =
    onDev s (kemService b.id (if keep then 4 else 2) (kemEncapsRun keep)) := by
  cases keep <;> rfl

theorem exec_kemDecaps : exec (if keep then .kemDecapsKeep b.id else .kemDecaps b.id) s =
    onDev s (kemService b.id (if keep then 5 else 3) (kemDecapsRun keep)) := by
  cases keep <;> rfl

end

/-! ## ML-KEM: a ready job of a set that is no hybrid runs its operation (03 R101-R103) -/

section
variable {i : Instr} {s : State} {b : Job} {op : Nat} {run : Dev → Job → Nat → Dev} {d1 : Dev}
  (hi : exec i s = onDev s (kemService b.id op run)) (h : JobReady s.dev b.id (isOp 1 op) b)
include hi h

theorem kem_runs (hy : isHybrid (opSet b.e.opcode) = false) (e : run s.dev b (opSet b.e.opcode) = d1) :
    exec i s = .next { s with dev := d1 } :=
  kem_exec run hi h (by rw [if_neg (by rw [hy]; exact Bool.false_ne_true), e])

/-- A hybrid with both halves done joins them. -/
theorem kem_joins {core ec : Bytes} (hy : isHybrid (opSet b.e.opcode) = true) (hc : b.coreDone = some core) (he : b.ecDone = some ec)
    (e : hybFinish s.dev b core ec = d1) : exec i s = .next { s with dev := d1 } :=
  kem_exec run hi h (by rw [if_pos hy, hybRun, hc, he]; exact e)

end

section
variable {keep : Bool} {d : Dev} {b : Job} {set : Nat} {ek : Bytes} (hek : (if hasKey0 b then kemPubOf set (jobKey0 d b) else b.inData) = ek)
include hek

theorem kemEncapsRun_encapsulates (h : hasKey0 b = true ∨ ekOk ek = true) : kemEncapsRun keep d b set =
    let k := kemEnc set ek (jobRnd d b 32)
    let cyc := kemEncapsCycles set + expandExtra 1 set (ekRho ek)
    if keep then keepSecret d b k.2 k.1 cyc else finishOut d b (k.1 ++ k.2) 0 0 0 cyc := by
  unfold kemEncapsRun
  rw [hek]
  exact if_neg (by rcases h with h | h <;> simp [h])

theorem kemEncapsRun_refuses (hk : hasKey0 b = false) (h : ekOk ek = false) :
    kemEncapsRun keep d b set = refuse d b stRange 0x0201 (ekDecode set) := by
  unfold kemEncapsRun
  rw [hek]
  exact if_pos (by simp [hk, h])

end

/-! ## The EC half of a hybrid (03 R116-R118) -/

/-- The device after the EC half when its result waits in the join buffer: its engine is free. -/
def ecKept (d : Dev) (b : Job) (r : Bytes) : Dev :=
  let cyc := hybEcCycles (opSet b.e.opcode) (opOp b.e.opcode)
  modJob (match b.eng2 with | some c => engineEnd d { b with cycles := cyc } c | none => d) b.id fun x =>
    { x with ecDone := some r, eng2 := none, cycles2 := cyc }

/-- The device after an EC half that a check ends. -/
def ecStopped (d : Dev) (b : Job) (st det : U16) (n : Nat) : Dev :=
  finish d { b with cycles := if b.coreDone.isSome then b.cycles else halfStopped b, cycles2 := n, outLen := 0 } st det

/-- The device after an EC half with the answer of `hybDh`: what it keeps of the secret, or a point that is refused. -/
def ecEnds (r : Except (U16 × Bool) Bytes × Dev) (b : Job) (kept : Bytes → Bytes) : Dev :=
  match r.1 with
  | .ok ss => ecKept r.2 b (kept ss)
  | .error f => ecStopped r.2 b stPointInvalid f.1 (if f.2 then hybEcCycles (opSet b.e.opcode) (opOp b.e.opcode) else 400)

section
variable {r : Except (U16 × Bool) Bytes × Dev} {b : Job} {kept : Bytes → Bytes}

theorem ecEnds_ok {ss : Bytes} (e : r.1 = .ok ss) : ecEnds r b kept = ecKept r.2 b (kept ss) := by
  simp only [ecEnds, e]

theorem ecEnds_error {det : U16} {whole : Bool} (e : r.1 = .error (det, whole)) : ecEnds r b kept =
    ecStopped r.2 b stPointInvalid det (if whole then hybEcCycles (opSet b.e.opcode) (opOp b.e.opcode) else 400) := by
  simp only [ecEnds, e]

end

section
variable {d : Dev} {b : Job}

theorem hybEcHalf_keygen_keeps (ho : opOp b.e.opcode = 1) (hk : (hybKey d (opSet b.e.opcode)).2.2.1 = true) :
    hybEcHalf d b = let k := hybKey d (opSet b.e.opcode); ecKept k.2.2.2 b (k.1 ++ k.2.1) := by
  unfold hybEcHalf
  exact (if_pos ho).trans ((if_pos hk).trans (congrArg (fun x => ecKept _ b (x ++ _)) (if_pos ho)))

theorem hybEcHalf_badKey (ho : opOp b.e.opcode = 1 ∨ opOp b.e.opcode = 2 ∨ opOp b.e.opcode = 4)
    (hk : (hybKey d (opSet b.e.opcode)).2.2.1 = false) :
    hybEcHalf d b = ecStopped (hybKey d (opSet b.e.opcode)).2.2.2 b stResultCheck 0 (hybEcCycles (opSet b.e.opcode) (opOp b.e.opcode)) := by
  unfold hybEcHalf
  rcases ho with ho | ho
  · exact (if_pos ho).trans (if_neg (by rw [hk]; exact Bool.false_ne_true))
  · obtain ⟨hne, hop⟩ := encaps_branch ho
    exact (if_neg hne).trans ((if_pos hop).trans (if_pos (by rw [hk]; rfl)))

theorem hybEcHalf_encaps (ho : opOp b.e.opcode = 2 ∨ opOp b.e.opcode = 4) (hk : (hybKey d (opSet b.e.opcode)).2.2.1 = true) :
    hybEcHalf d b = let k := hybKey d (opSet b.e.opcode)
      ecEnds (hybDh k.2.2.2 (opSet b.e.opcode) k.1 (hybEncPk d b)) b fun ss => ss ++ k.2.1 := by
  obtain ⟨hne, hop⟩ := encaps_branch ho
  have hg : ¬(!(hybKey d (opSet b.e.opcode)).2.2.1) = true := by simp [hk]
  unfold hybEcHalf
  refine (if_neg hne).trans ((if_pos hop).trans ((if_neg hg).trans ?_))
  dsimp only
  generalize hybDh _ _ _ _ = r
  rcases r with ⟨_ | _, _⟩ <;> rfl

theorem hybEcHalf_decaps (ho : opOp b.e.opcode = 3 ∨ opOp b.e.opcode = 5) :
    hybEcHalf d b = ecEnds (hybDh d (opSet b.e.opcode) (slice (secretOf (jobKey0 d b)) 1184 32) (b.inData.drop 1088)) b id := by
  obtain ⟨hne, hop⟩ := decaps_branch ho
  unfold hybEcHalf
  refine (if_neg hne).trans ((if_neg hop).trans ?_)
  generalize hybDh _ _ _ _ = r
  rcases r with ⟨_ | _, _⟩ <;> rfl

end

section
variable {s : State} {b : Job} {d1 : Dev} (h : HybridReady s.dev b) (hn : b.ecDone = none)
include h hn

theorem ecHalf_exec (e : hybEcHalf s.dev b = d1) : exec (.hybridHalfDone b.id true) s = .next { s with dev := d1 } :=
  hyb_exec h (by rw [if_pos rfl, hn]; exact e)

theorem ecHalf_stored {r : Bytes} (hj : d1.jobs = s.dev.jobs) (e : hybEcHalf s.dev b = ecKept d1 b r) :
    Completes (.hybridHalfDone b.id true) s fun d' => findJob d' b.id
      = some { b with ecDone := some r, eng2 := none, cycles2 := hybEcCycles (opSet b.e.opcode) (opOp b.e.opcode) } :=
  ecStore h hj (ecHalf_exec h hn e)

theorem ecHalf_stopped {st det : U16} {n : Nat} (e : hybEcHalf s.dev b = ecStopped d1 b st det n) :
    JobOver (.hybridHalfDone b.id true) s d1 { b with cycles2 := n } st det b.result b.attempts
      (if b.coreDone.isSome then b.cycles else halfStopped b) :=
  jobOver_of (ecHalf_exec h hn e)

end

/-! ## The core half of a hybrid (03 R117) -/

/-- The device after the core half: its result is kept, and its context is saved when the EC half has not completed. -/
def coreKept (d : Dev) (b : Job) (r : Bytes) (cyc : Nat) : Dev :=
  let waits := b.ecDone.isNone
  modJob (match b.eng with | some c => if waits then saveOn d false b c else d | none => d) b.id fun x =>
    { x with coreDone := some r, coreSaved := waits, cycles := cyc, saveCyc := x.saveCyc + if waits then 48 else 0 }

section
variable {d : Dev} {b : Job}

theorem hybCoreHalf_keygen (ho : opOp b.e.opcode = 1) : hybCoreHalf d b =
    let k := kemNew 2 (jobRnd d b 64)
    coreKept d b (k.2.1 ++ k.1) (kemKeygenCycles 2 b.order + expandExtra 1 2 (ekRho k.1)) := by
  unfold hybCoreHalf
  exact if_pos ho

theorem hybCoreHalf_decaps (ho : opOp b.e.opcode = 3 ∨ opOp b.e.opcode = 5) : hybCoreHalf d b =
    let k := jobKey0 d b
    coreKept d b (kemDec 2 (kemDk 2 k) (b.inData.take 1088)) (kemDecapsCycles 2 b.order + expandExtra 1 2 (ekRho (k.pub.take 1184))) := by
  obtain ⟨hne, hop⟩ := decaps_branch ho
  unfold hybCoreHalf
  exact (if_neg hne).trans (if_neg hop)

section
variable (ho : opOp b.e.opcode = 2 ∨ opOp b.e.opcode = 4) {ek : Bytes}
  (hek : (if hasKey0 b then kemPubOf (opSet b.e.opcode) (jobKey0 d b) else b.inData).take 1184 = ek)
include ho hek

theorem hybCoreHalf_encaps (h : hasKey0 b = true ∨ ekOk ek = true) : hybCoreHalf d b =
    let k := kemEnc 2 ek (jobRnd d b 32)
    coreKept d b (k.1 ++ k.2) (kemEncapsCycles 2 + expandExtra 1 2 (ekRho ek)) := by
  obtain ⟨hne, hop⟩ := encaps_branch ho
  unfold hybCoreHalf
  rw [hek]
  exact (if_neg hne).trans ((if_pos hop).trans (if_neg (by rcases h with h | h <;> simp [h])))

theorem hybCoreHalf_refuses (hk : hasKey0 b = false) (h : ekOk ek = false) : hybCoreHalf d b =
    refuse d { b with cycles2 := if b.ecDone.isSome then b.cycles2 else halfStopped b } stRange 0x0201 (ekDecode 2) := by
  obtain ⟨hne, hop⟩ := encaps_branch ho
  unfold hybCoreHalf
  rw [hek]
  exact (if_neg hne).trans ((if_pos hop).trans (if_pos (by simp [hk, h])))

end
end

section
variable {s : State} {b : Job} {d1 : Dev} (h : HybridReady s.dev b) (hn : b.coreDone = none)
include h hn

theorem coreHalf_exec (e : hybCoreHalf s.dev b = d1) : exec (.hybridHalfDone b.id false) s = .next { s with dev := d1 } :=
  hyb_exec h (by rw [if_neg Bool.false_ne_true, hn]; exact e)

theorem coreHalf_stored {r : Bytes} {cyc : Nat} (e : hybCoreHalf s.dev b = coreKept s.dev b r cyc) :
    Completes (.hybridHalfDone b.id false) s fun d' => findJob d' b.id = some
      { b with coreDone := some r, coreSaved := b.ecDone.isNone, cycles := cyc, saveCyc := b.saveCyc + if b.ecDone.isNone then 48 else 0 } :=
  coreStore h (coreHalf_exec h hn e)

end

/-! ## The join of the two halves (03 R115, R117) -/

section
variable {keep : Bool} {d : Dev} {b : Job} {core ec : Bytes}

theorem hybFinish_keygen (ho : opOp b.e.opcode = 1) : hybFinish d b core ec =
    let ek := core.drop 1184
    makeKey d b { type := opType b.e.opcode, policy := pPolicy b.e, origin := 0, sec := core.take 1184 ++ ec.take 32
                  pub := ek ++ sha3 32 ek ++ ec.drop 32 } (ek ++ ec.drop 32) 0 (b.cycles + 64) := by
  unfold hybFinish
  simp [ho, hybJoin]

theorem hybFinish_encaps (ho : opOp b.e.opcode = if keep then 4 else 2) : hybFinish d b core ec =
    let ss := hybSecret (pbit b.e 0) (core.drop 1088) (ec.take 32) (ec.drop 32) (hybEncPk d b)
    let ct := core.take 1088 ++ ec.drop 32
    let cyc := b.cycles + if pbit b.e 0 then 104 else 64
    if keep then keepSecret d b ss ct cyc else finishOut d b (ct ++ ss) 0 0 0 cyc := by
  unfold hybFinish
  cases keep with
  | true =>
    have ho : opOp b.e.opcode = 4 := ho
    simp [ho, hybJoin]
  | false =>
    have ho : opOp b.e.opcode = 2 := ho
    simp [ho, hybJoin]

theorem hybFinish_decaps (ho : opOp b.e.opcode = if keep then 5 else 3) : hybFinish d b core ec =
    let ss := hybSecret (pbit b.e 0) core (ec.take 32) (b.inData.drop 1088) (hybPkEc (opSet b.e.opcode) (jobKey0 d b))
    let cyc := b.cycles + if pbit b.e 0 then 104 else 64
    if keep then keepSecret d b ss [] cyc else finishOut d b ([] ++ ss) 0 0 0 cyc := by
  unfold hybFinish
  cases keep with
  | true =>
    have ho : opOp b.e.opcode = 5 := ho
    simp [ho, hybJoin]
  | false =>
    have ho : opOp b.e.opcode = 3 := ho
    simp [ho, hybJoin]

end

/-! ## The statement -/

/-- Settles O26: a ready job runs its operation, a half of a hybrid is kept or ends the job, and the join answers as the form of its
operation does. The cycles of a core half that another half's refusal abandons are free (log 174), and the DETAIL of POINT_INVALID is that
of the classical operation (log 31). -/
theorem kemResults : Obligations.KemResults := by
  unfold Obligations.KemResults
  dsimp only
  refine ⟨⟨fun s b h hy => ?_, fun keep s b h hy => ⟨fun hk => ?_, fun hk he => ?_⟩, fun keep s b h hy => ?_,
      fun s b h => ⟨fun he => ?_, fun he => ?_⟩, fun s b h => ?_⟩,
    fun s b h hn => ⟨fun ho hk => ?_, fun ho hk => ?_, fun ho hk => ⟨fun ss e => ?_, fun det whole e => ?_⟩,
      fun ho => ⟨fun ss e => ?_, fun det whole e => ?_⟩⟩,
    fun s b h hn => ⟨fun ho => ?_, fun ho => ⟨fun hk => ?_, fun hk he => ?_⟩, fun ho => ?_⟩,
    fun s b core ec h hy hc he => ?_, fun keep s b core ec hy hc he => ⟨fun h => ?_, fun h => ?_⟩⟩
  · exact keyMade_of (kem_runs (run := kemKeygenRun) rfl h hy rfl)
  · exact secret_given (kem_runs exec_kemEncaps h hy (kemEncapsRun_encapsulates rfl hk))
  · exact refuse_over (kem_runs exec_kemEncaps h hy (kemEncapsRun_refuses rfl hk he))
  · exact secret_given (out := []) (kem_runs exec_kemDecaps h hy rfl)
  · exact jobDone_of (serve_to ekCheckRun rfl h (if_pos he))
  · exact refuse_over (serve_to ekCheckRun rfl h (if_neg (by rw [he]; exact Bool.false_ne_true)))
  · exact jobDone_of (serve_exec (run := kemPubExportRun) rfl h)
  · exact ecHalf_stored h hn (hybKey_jobs _ _) (hybEcHalf_keygen_keeps ho hk)
  · exact ecHalf_stopped h hn (hybEcHalf_badKey ho hk)
  · exact ecHalf_stored h hn ((hybDh_jobs _ _ _ _).trans (hybKey_jobs _ _)) ((hybEcHalf_encaps ho hk).trans (ecEnds_ok e))
  · exact ecHalf_stopped h hn ((hybEcHalf_encaps ho hk).trans (ecEnds_error e))
  · exact ecHalf_stored h hn (hybDh_jobs _ _ _ _) ((hybEcHalf_decaps ho).trans (ecEnds_ok e))
  · exact ecHalf_stopped h hn ((hybEcHalf_decaps ho).trans (ecEnds_error e))
  · exact coreHalf_stored h hn (hybCoreHalf_keygen ho)
  · exact coreHalf_stored h hn (hybCoreHalf_encaps ho rfl hk)
  · exact refuse_over (coreHalf_exec h hn (hybCoreHalf_refuses ho rfl hk he))
  · exact coreHalf_stored h hn (hybCoreHalf_decaps ho)
  · exact keyMade_of (kem_joins (run := kemKeygenRun) rfl h hy hc he (hybFinish_keygen (opOp_of_isOp h.op)))
  · exact secret_given (kem_joins exec_kemEncaps h hy hc he (hybFinish_encaps (opOp_of_isOp h.op)))
  · exact secret_given (kem_joins exec_kemDecaps h hy hc he (hybFinish_decaps (opOp_of_isOp h.op)))

end Sys2Proof.Proofs.Kem
end

section
/-!
PROOF. ML-DSA and FN-DSA: key generation, the forms of signing and verification, the public key (03 R101, R106-R112, R120, R121).
-/
namespace Sys2Proof.Proofs.LatticeSig

open Sys2Proof.Machine Sys2Proof.Safety Sys2Proof.Laws

/-- CYCLES of a signature with `n` attempts over `len` bytes of hash input. -/
def signCycles (d : Dev) (b : Job) (len n : Nat) : Nat :=
  let set := opSet b.e.opcode
  dsaSetup set b.order + n * dsaAttempt set b.order + absorbExtra len
    + if isFnDsa set then 0 else expandExtra 2 set ((jobKey0 d b).pub.take 32)

section
variable {d : Dev} {b : Job} {z : LatSet} (hz : latSet 2 (opSet b.e.opcode) = some z)
include hz

/-! ## KEYGEN (03 R101, R107) -/

section
variable {seed : Bytes} (hs : (if pbit b.e 1 then fit 32 (ownAux b) else jobRnd d b 32) = seed)
include hs

theorem dsaKeygenRun_mlDsa (hf : isFnDsa (opSet b.e.opcode) = false) : dsaKeygenRun d b =
    let set := opSet b.e.opcode
    let k := dsaKeygen set seed
    makeKey d b { type := opType b.e.opcode, policy := pPolicy b.e, origin := 0, sec := k.2.1, pub := k.1 } k.1 0
      (dsaKeygenCycles set b.order + expandExtra 2 set (k.1.take 32) + expandSExtra set b.order k.2.2) := by
  simp only [dsaKeygenRun, hz, hs, hf, Bool.false_eq_true, if_false]

variable (hf : isFnDsa (opSet b.e.opcode) = true)
include hf

theorem dsaKeygenRun_fnDsa {n : Nat} {sk pk : Bytes} (hk : fnKeygen (opSet b.e.opcode) z.sk seed 64 0 = some (n, sk, pk)) :
    dsaKeygenRun d b = makeKey d b { type := opType b.e.opcode, policy := pPolicy b.e, origin := 0, sec := sk, pub := pk } pk n
      (n * if opSet b.e.opcode = 8 then 3600000 else 11500000) := by
  simp only [dsaKeygenRun, hz, hs, hf, hk, if_true]

theorem dsaKeygenRun_bound (hk : fnKeygen (opSet b.e.opcode) z.sk seed 64 0 = none) : dsaKeygenRun d b =
    finish d { b with attempts := 64, cycles := 64 * if opSet b.e.opcode = 8 then 3600000 else 11500000, outLen := 0 } stIterationBound 0 := by
  simp only [dsaKeygenRun, hz, hs, hf, hk, if_true]

end

/-! ## Signing, of a framed message or of µ (03 R106-R109) -/

section
variable {form len : Nat} {msg rnd : Bytes}
  (hr : (if isFnDsa (opSet b.e.opcode) then jobRnd d b 40 else if pbit b.e 0 then zeros 32 else jobRnd d b 32) = rnd)
include hr

theorem dsaSignWith_signs {n : Nat} {sig : Bytes} (hm : dsaJobSig (opSet b.e.opcode) z.ct form (jobKey0 d b) msg rnd = some (n, sig)) :
    dsaSignWith d b form msg len = finishOut d b sig 0 0 n (signCycles d b len n) := by
  simp only [dsaSignWith, hz, hr, hm, signCycles]

theorem dsaSignWith_bound (hm : dsaJobSig (opSet b.e.opcode) z.ct form (jobKey0 d b) msg rnd = none) : dsaSignWith d b form msg len =
    finish d { b with attempts := 255, cycles := signCycles d b len 255, outLen := 0 } stIterationBound 0 := by
  simp only [dsaSignWith, hz, hr, hm, signCycles]

end

/-! ## Verification; a given FN-DSA key is checked first (03 R110, R111) -/

section
variable {form len : Nat} {msg pk sig : Bytes}
  (hp : (if hasKey0 b then dsaPubOf (jobKey0 d b) else (ownAux b).take z.pk) = pk)
include hp

theorem dsaVerifyWith_badHead (hg : (isFnDsa (opSet b.e.opcode) && !hasKey0 b) = true) (hh : fnPkHead (opSet b.e.opcode) pk = false) :
    dsaVerifyWith d b form msg len = refuse d b stEncoding 0x0202 (if opSet b.e.opcode = 8 then 700 else 1300) := by
  simp only [dsaVerifyWith, hz, hp, hg, hh, Bool.not_false, Bool.and_true, if_true]

theorem dsaVerifyWith_badRange (hg : (isFnDsa (opSet b.e.opcode) && !hasKey0 b) = true) (hh : fnPkHead (opSet b.e.opcode) pk = true)
    (hr : fnPkRange (opSet b.e.opcode) pk = false) :
    dsaVerifyWith d b form msg len = refuse d b stRange 0x0202 (if opSet b.e.opcode = 8 then 700 else 1300) := by
  simp only [dsaVerifyWith, hz, hp, hg, hh, hr, Bool.not_true, Bool.not_false, Bool.and_true, Bool.and_false, Bool.false_eq_true,
    if_false, if_true]

theorem dsaVerifyWith_verdict (hs : slice (if hasKey0 b then ownAux b else (ownAux b).drop z.pk) 0 z.ct = sig)
    (hg : (isFnDsa (opSet b.e.opcode) && !hasKey0 b) = false ∨ fnPkHead (opSet b.e.opcode) pk = true ∧ fnPkRange (opSet b.e.opcode) pk = true) :
    dsaVerifyWith d b form msg len =
      let set := opSet b.e.opcode
      verdict d b (if isFnDsa set then fnVerify set pk msg sig
          else if form = 1 then dsaVerifyMu set pk msg sig else dsaVerifyMsg set pk msg sig) stSigInvalid 0
        (dsaVerifyCycles set + absorbExtra len + if isFnDsa set then 0 else expandExtra 2 set (pk.take 32)) := by
  rcases hg with hg | ⟨hh, hr⟩
  · simp only [dsaVerifyWith, hz, hp, hs, hg, Bool.false_and, Bool.false_eq_true, if_false]
  · simp only [dsaVerifyWith, hz, hp, hs, hh, hr, Bool.not_true, Bool.and_false, Bool.false_eq_true, if_false]

end
end

/-! ## The pure, digest and µ forms (03 R99) -/

section
variable {s : State} {b : Job} {c : Nat → Instr} {op form len : Nat} {msg : Bytes} {d1 : Dev}

theorem signForms_exec (hm : (c, op, form, msg, len) ∈ signForms b) (h : JobReady s.dev b.id (isOp 2 op) b)
    (e : dsaSignWith s.dev b form msg len = d1) : exec (c b.id) s = .next { s with dev := d1 } := by
  subst e
  simp only [signForms, List.mem_cons, List.not_mem_nil, or_false, Prod.mk.injEq] at hm
  rcases hm with ⟨rfl, rfl, rfl, rfl, rfl⟩ | ⟨rfl, rfl, rfl, rfl, rfl⟩ | ⟨rfl, rfl, rfl, rfl, rfl⟩
  · exact serve_exec (run := dsaSignRun) rfl h
  · exact serve_exec (run := signPhRun) rfl h
  · exact serve_exec (run := signMuRun) rfl h

theorem verifyForms_exec (hm : (c, op, form, msg, len) ∈ verifyForms b) (h : JobReady s.dev b.id (isOp 2 op) b)
    (e : dsaVerifyWith s.dev b form msg len = d1) : exec (c b.id) s = .next { s with dev := d1 } := by
  subst e
  simp only [verifyForms, List.mem_cons, List.not_mem_nil, or_false, Prod.mk.injEq] at hm
  rcases hm with ⟨rfl, rfl, rfl, rfl, rfl⟩ | ⟨rfl, rfl, rfl, rfl, rfl⟩ | ⟨rfl, rfl, rfl, rfl, rfl⟩
  · exact serve_exec (run := dsaVerifyRun) rfl h
  · exact serve_exec (run := verifyPhRun) rfl h
  · exact serve_exec (run := verifyMuRun) rfl h

end

/-! ## The statement -/

/-- Settles O27: each form of a signature or a verification is one routine that has the form as an argument, and every branch of a routine
ends the job in a way that Laws/Services says once. FN-DSA is that of log 172, and the candidates of its keys and signatures are free values
(log 4). -/
theorem latticeSignatureResults : Obligations.LatticeSignatureResults := by
  unfold Obligations.LatticeSignatureResults
  dsimp only
  refine ⟨fun s b z hz h => ⟨fun hf => ?_, fun hf => ⟨fun n sk pk hk => ?_, fun hk => ?_⟩⟩,
    fun s b z c op form msg len hz hm h => ⟨fun n sig hs => ?_, fun hs => ?_⟩,
    fun s b z c op form msg len hz hm h => ⟨fun hg hh => ?_, fun hg hh hr => ?_, fun hg => ?_⟩, fun s b h => ?_⟩
  · exact keyMade_of (serve_to dsaKeygenRun rfl h (dsaKeygenRun_mlDsa hz rfl hf))
  · exact keyMade_of (serve_to dsaKeygenRun rfl h (dsaKeygenRun_fnDsa hz rfl hf hk))
  · exact jobOver_of (serve_to dsaKeygenRun rfl h (dsaKeygenRun_bound hz rfl hf hk))
  · exact jobDone_of (signForms_exec hm h (dsaSignWith_signs hz rfl hs))
  · exact jobOver_of (signForms_exec hm h (dsaSignWith_bound hz rfl hs))
  · exact refuse_over (verifyForms_exec hm h (dsaVerifyWith_badHead hz rfl hg hh))
  · exact refuse_over (verifyForms_exec hm h (dsaVerifyWith_badRange hz rfl hg hh hr))
  · exact verdict_over (verifyForms_exec hm h (dsaVerifyWith_verdict hz rfl rfl hg))
  · exact jobDone_of (serve_exec (run := dsaPubExportRun) rfl h)

end Sys2Proof.Proofs.LatticeSig
end

section
/-!
PROOF. The one-time use of the indices of a stateful key: what the reservation of a block and the take of an index do to the state store's
records (04 R148-R151).
-/
namespace Sys2Proof.Proofs.IndexUse

open Sys2Proof.Machine Sys2Proof.Safety Sys2Proof.Laws

/-! ## Records of the state store (04 R148) -/

theorem getSs_of_keys {d d1 : Dev} (h : d1.ss.keys = d.ss.keys) (o x : Nat) : getSs d1 o x = getSs d o x := by
  rw [getSs, h, getSs]

theorem getSs_setSs_self (d : Dev) (o x : Nat) (k : SsKey) : getSs (setSs d o x k) o x = k :=
  congrArg (fun r : Option SsKey => r.getD {}) (mapGet_mapSet_ne_default none d.ss.keys (slotKey o x) (some k) (Option.some_ne_none k))

theorem getSs_setSs_ne (d : Dev) {o x o1 x1 : Nat} (k : SsKey) (h : slotKey o1 x1 ≠ slotKey o x) : getSs (setSs d o x k) o1 x1 = getSs d o1 x1 :=
  congrArg (fun r : Option SsKey => r.getD {}) (mapGet_mapSet_ne none d.ss.keys (slotKey o x) (slotKey o1 x1) (some k) h)

/-! ## The block that a take draws on (04 R149) -/

/-- The end of the block that holds an index of a key: the next multiple of its block size, or its limit. -/
def blockStop (k : SsKey) : Nat := min ((k.next / 2 ^ k.blockLog2 + 1) * 2 ^ k.blockLog2) k.limit

theorem next_lt_blockStop {k : SsKey} (h : k.next < k.limit) : k.next < blockStop k :=
  Nat.lt_min.2 ⟨Nat.lt_mul_of_div_lt (Nat.lt_succ_self _) (Nat.two_pow_pos _), h⟩

/-- A reservation opens the block of the next index and leaves the limit as it is. -/
theorem ssReserve_record (d : Dev) (k : SsKey) (h : U32) :
    (ssReserve d k h).1.limit = k.limit ∧ (ssReserve d k h).1.isOpen = true ∧ (ssReserve d k h).1.blockEnd = blockStop k :=
  ⟨rfl, rfl, rfl⟩

theorem ssReserve_keys (d : Dev) (k : SsKey) (h : U32) : (ssReserve d k h).2.ss.keys = d.ss.keys := by
  unfold ssReserve
  cases k.jrn <;> rfl

/-- A key's record with a block that holds its next index: as it is, or after a reservation. -/
def withBlock (d : Dev) (k : SsKey) (h : U32) : SsKey × Dev :=
  if k.isOpen && decide (k.next < k.blockEnd) then (k, d) else ssReserve d k h

theorem withBlock_keys (d : Dev) (k : SsKey) (h : U32) : (withBlock d k h).2.ss.keys = d.ss.keys := by
  unfold withBlock
  split
  · rfl
  · exact ssReserve_keys d k h

theorem withBlock_record (d : Dev) (k : SsKey) (h : U32) :
    (withBlock d k h).1.limit = k.limit ∧ (withBlock d k h).1.isOpen = true
      ∧ (k.isOpen = true ∧ k.next < k.blockEnd ∧ (withBlock d k h).1.blockEnd = k.blockEnd
        ∨ ¬(k.isOpen = true ∧ k.next < k.blockEnd) ∧ (withBlock d k h).1.blockEnd = blockStop k) := by
  have hb : (k.isOpen && decide (k.next < k.blockEnd)) = true ↔ k.isOpen = true ∧ k.next < k.blockEnd := by
    rw [Bool.and_eq_true, decide_eq_true_eq]
  unfold withBlock
  split
  next hin => exact ⟨rfl, (hb.1 hin).1, .inl ⟨(hb.1 hin).1, (hb.1 hin).2, rfl⟩⟩
  next hout =>
    obtain ⟨hlimit, hopen, hstop⟩ := ssReserve_record d k h
    exact ⟨hlimit, hopen, .inr ⟨mt hb.2 hout, hstop⟩⟩

/-! ## A take (04 R151) -/

/-- What a take answers: the next index, below the limit, and records that differ in the key's own. -/
theorem ssTake_some {d d1 : Dev} {o i : Nat} {h : U32} (e : ssTake d o h = some (i, d1)) :
    i = (getSs d o (hSlot h)).next ∧ i < (getSs d o (hSlot h)).limit
      ∧ d1.ss.keys = (setSs d o (hSlot h) { (withBlock d (getSs d o (hSlot h)) h).1 with next := i + 1 }).ss.keys := by
  unfold ssTake at e
  dsimp only at e
  split at e
  next => cases e
  next hl =>
    obtain ⟨hi, hd⟩ := Prod.mk.inj (Option.some.inj e)
    subst hi hd
    refine ⟨rfl, Nat.not_le.1 hl, (ssLowEvents_keys _ _ _ _).trans ?_⟩
    exact congrArg (mapSet none · _ _) (withBlock_keys d (getSs d o (hSlot h)) h)

/-- Settles O30: a take draws on a block that holds the key's next index, the open one or one that it reserves below the limit, and writes
the key's record alone. -/
theorem indexUsedOnce : Obligations.IndexUsedOnce := by
  unfold Obligations.IndexUsedOnce
  intro d o h i d1 _ e
  dsimp only
  obtain ⟨hi, hlt, hkeys⟩ := ssTake_some e
  obtain ⟨hlimit, hopen, hblock⟩ := withBlock_record d (getSs d o (hSlot h)) h
  rw [getSs_of_keys hkeys, getSs_setSs_self]
  refine ⟨hi, hlt, rfl, hlimit, hopen, ?_, fun o1 x1 hne => (getSs_of_keys hkeys o1 x1).trans (getSs_setSs_ne d _ hne)⟩
  rcases hblock with ho | ⟨hn, hstop⟩
  · exact .inl ho
  · refine .inr ⟨hn, ?_⟩
    rw [hstop, hi]
    exact ⟨next_lt_blockStop (hi ▸ hlt), Nat.min_le_right _ _⟩

end Sys2Proof.Proofs.IndexUse
end

section
/-!
PROOF. SLH-DSA: the forms of signing and verification, key generation, and the public key of class 0x3 (04 R134-R139).
-/
namespace Sys2Proof.Proofs.HashSig

open Sys2Proof.Machine Sys2Proof.Safety Sys2Proof.Laws

section
variable {ph : Bool} {s : State} {b : Job} (hs : ph = false → isSlh (opSet b.e.opcode) = true)
include hs

/-- A signature of either form signs M′: the framed message, or the framed digest (04 R138). -/
theorem slhSign_exec (h : JobReady s.dev b.id (isOp 3 (if ph then 3 else 2)) b) :
    exec (if ph then .hbsSignPh b.id else .hbsSign b.id) s = .next { s with
      dev := slhSign s.dev b (if ph then mHash (pbits b.e 8 8) (ownAux b) b.inData else mPure (ownAux b) b.inData) } := by
  cases ph with
  | true => exact serve_exec (run := hbsSignPhRun) rfl h
  | false => exact serve_to hbsSignRun rfl h (if_pos (hs rfl))

theorem slhVerify_exec (h : JobReady s.dev b.id (isOp 3 (if ph then 6 else 5)) b) :
    exec (if ph then .hbsVerifyPh b.id else .hbsVerify b.id) s = .next { s with
      dev := slhVerify s.dev b (if ph then mHash (pbits b.e 8 8) (verifyCtx b) b.inData else mPure (verifyCtx b) b.inData) } := by
  cases ph with
  | true => exact serve_exec (run := hbsVerifyPhRun) rfl h
  | false => exact serve_to hbsVerifyRun rfl h (if_pos (hs rfl))

end

/-- Settles O28: an SLH-DSA set takes the SLH-DSA routine of each operation, and the digest form is that of M′ of a digest. The cycles of
PUB_EXPORT are not stated and are free (log 72). -/
theorem statelessHashSignatureResults : Obligations.StatelessHashSignatureResults := by
  unfold Obligations.StatelessHashSignatureResults
  dsimp only
  refine ⟨fun s b h hs => ?_, fun ph s b h hs => ?_, fun ph s b h hs => ?_, fun s b h => ?_⟩
  · exact keyMade_of (serve_to hbsKeygenRun rfl h (if_pos hs))
  · exact jobDone_of (slhSign_exec hs h)
  · exact verdict_over (slhVerify_exec hs h)
  · exact jobDone_of (serve_exec (run := hbsPubExportRun) rfl h)

end Sys2Proof.Proofs.HashSig
end

section
/-!
PROOF. LMS, HSS, XMSS and XMSS^MT, and the operations of the state store: each branch of a routine as an equation, under the conditions that
lead to it (04 R140-R154).
-/
namespace Sys2Proof.Proofs.StatefulSig

open Sys2Proof.Machine Sys2Proof.Safety Sys2Proof.Laws

section
variable {d : Dev} {b : Job}

/-! ## KEYGEN (04 R135, R140-R142) -/

theorem ssKeygen_badBlock (hp : parseBlock (opSet b.e.opcode) b.auxData = none) :
    ssKeygen d b = refuse d b stParamInvalid 0 (unstated b.e) := by
  simp only [ssKeygen, hp]

section
variable {k : SsKey} (hp : parseBlock (opSet b.e.opcode) b.auxData = some k)
include hp

theorem ssKeygen_short (hl : b.e.outCap.toNat < ssPkLen k.set (ssLevels k) + pathCacheLen (ssLevels k)) :
    ssKeygen d b = refuse d b stLength 2 (unstated b.e) := by
  simp only [ssKeygen, hp, if_pos hl]

variable (hl : ssPkLen k.set (ssLevels k) + pathCacheLen (ssLevels k) ≤ b.e.outCap.toNat)
include hl

theorem ssKeygen_badList (hb : b.outBad ≠ none) : ssKeygen d b = finishOut d b [] 0 0 0 (unstated b.e) := by
  simp only [ssKeygen, hp, if_neg (Nat.not_lt.2 hl), if_pos (Option.isSome_iff_ne_none.2 hb)]

/-- A key that is made waits in its job for the commit: its object in two shares, its record, its public key and first path cache. -/
theorem ssKeygen_keeps (hb : b.outBad = none) (hj : findJob d b.id = some b) :
    let r := draw (needSalts d b.owner) (seedLen k)
    let root := ssRoot k r.1 0 0
    let x := splitSecret r.2 r.1
    let pk := ssPub k r.1 root
    findJob (ssKeygen d b) b.id = some
      { b with
        keep := some { type := opType b.e.opcode, policy := pPolicy b.e, stateful := true, shareA := x.1, shareB := x.2.1, pub := pk }
        mramTb := d.glob.tb, ssNew := some { k with root := root }, part2 := pk ++ cacheImage k r.1 0, cycles := buildCycles k r.1 0 } := by
  dsimp only
  have hn : ¬ b.outBad.isSome = true := Option.not_isSome_iff_eq_none.2 hb
  simp only [ssKeygen, hp, if_neg (Nat.not_lt.2 hl), if_neg hn]
  refine findJob_modJob_self (b := b) _ ((findJob_jobs ?_).trans hj) rfl
  exact (jIntent_jobs _ b).trans (needSalts_jobs d b.owner)

end

/-! ## SIGN: the take (04 R143, R151) -/

/-- The randomiser that a SIGN draws for C, and the device after it: none of XMSS. -/
def signDraw (d : Dev) (k : SsKey) : Bytes × Dev := if isLms k.set then draw d (bottomLev (ssLevels k)).n else ([], d)

theorem ssSign_badList (ht : b.taken = none) (hb : b.outBad ≠ none) : ssSign d b = finishOut d b [] 0 0 0 (unstated b.e) := by
  simp only [ssSign, ht, Option.map_none, if_pos (Option.isSome_iff_ne_none.2 hb)]

section
variable {k : SsKey} (hk : getSs d b.owner (hSlot b.e.key0) = k) {c : Bytes × Dev} (hc : signDraw d k = c)
include hk hc

section
variable (ht : b.taken = none) (hb : b.outBad = none)
include ht hb

theorem ssSign_exhausted (hs : ssTake c.2 b.owner b.e.key0 = none) :
    ssSign d b = refuse (ssCause d 4 (BitVec.ofNat 16 (hSlot b.e.key0))) b stStateExhausted 0 (unstated b.e) := by
  subst hk hc
  unfold signDraw at hs
  simp only [ssSign, ht, hb, hs, Option.map_none, Option.isSome_none, Bool.false_eq_true, if_false]

theorem ssSign_takes {idx : Nat} {d1 : Dev} (hs : ssTake c.2 b.owner b.e.key0 = some (idx, d1)) :
    ssSign d b = ssSign.ssSignWith d1 { b with taken := some idx, effect := b.effect ||| effStateConsumed } k c.1 idx := by
  subst hk hc
  unfold signDraw at hs ⊢
  simp only [ssSign, ht, hb, hs, Option.map_none, Option.isSome_none, Bool.false_eq_true, if_false]

end

/-- A SIGN that goes on has its index. -/
theorem ssSign_resumes {idx : Nat} (ht : b.taken = some idx) :
    ssSign d b = ssSign.ssSignWith c.2 { b with taken := some idx, effect := b.effect ||| effStateConsumed } k c.1 idx := by
  subst hk hc
  simp only [ssSign, ht, Option.map_some, signDraw]

/-- A SIGN with an index, taken now or before, checks its path cache and signs. -/
theorem ssSign_indexed {idx : Nat} {d1 : Dev} {taken : Option Nat}
    (h : (b.taken = none ∧ b.outBad = none ∧ taken = some idx ∧ ssTake c.2 b.owner b.e.key0 = some (idx, d1))
      ∨ (b.taken = some idx ∧ taken = some idx ∧ d1 = c.2)) :
    ssSign d b = ssSign.ssSignWith d1 { b with taken := taken, effect := b.effect ||| effStateConsumed } k c.1 idx := by
  rcases h with ⟨ht, hb, rfl, hs⟩ | ⟨ht, rfl, rfl⟩
  · exact ssSign_takes hk hc ht hb hs
  · exact ssSign_resumes hk hc ht

end

/-! ## SIGN: the path cache and the signature (04 R143) -/

section
variable {k : SsKey} {idx : Nat} (drawn : Bytes)

theorem ssSignWith_wrongTree {l : Nat} (hw : wrongTree (ssLevels k) (b.inData.take (pathCacheLen (ssLevels k))) idx = some l) :
    ssSign.ssSignWith d b k drawn idx = refuse d b stTreeNotReady (BitVec.ofNat 16 l) (unstated b.e) := by
  simp only [ssSign.ssSignWith, hw]

variable (hw : wrongTree (ssLevels k) (b.inData.take (pathCacheLen (ssLevels k))) idx = none)
include hw

theorem ssSignWith_badPath
    (hp : pathOk k (secretOf (jobKey0 d b)) (bottomRegion (ssLevels k) (b.inData.take (pathCacheLen (ssLevels k))) idx) idx = false) :
    ssSign.ssSignWith d b k drawn idx = refuse d b stEncoding 0x0302 (unstated b.e) := by
  simp only [ssSign.ssSignWith, hw, hp, Bool.not_false, if_true]

theorem ssSignWith_signs
    (hp : pathOk k (secretOf (jobKey0 d b)) (bottomRegion (ssLevels k) (b.inData.take (pathCacheLen (ssLevels k))) idx) idx = true) :
    ssSign.ssSignWith d b k drawn idx =
      let bot := bottomLev (ssLevels k)
      let img := b.inData.take (pathCacheLen (ssLevels k))
      let msg := b.inData.drop (pathCacheLen (ssLevels k))
      let seed := secretOf (jobKey0 d b)
      let c := signRandom k seed drawn idx
      finishOut d b (ssSignature k seed img c msg idx) (BitVec.ofNat 32 idx) effStateConsumed 0
        (unitCycles bot (signUnits k.set bot (signedDigits bot (bottomHash k seed c msg idx)).sum (msgBlocks k.set bot msg.length)) + 2960) := by
  simp only [ssSign.ssSignWith, hw, hp, Bool.not_true, Bool.false_eq_true, if_false]

end

/-! ## VERIFY (04 R135, R138, R147) -/

/-- What VERIFY does with the parameters, a public key and a signature. -/
def ssJudge (d : Dev) (b : Job) (k : SsKey) (pk sig : Bytes) : Dev :=
  verdict d b (ssSigOk k pk b.inData sig) stSigInvalid 0 (ssVerifyCycles k pk b.inData sig)

/-- What VERIFY does with the parameters of a public key given in AUX: AUX has the length they give, or the job is refused. -/
def ssJudgeAux (d : Dev) (b : Job) (k : SsKey) : Dev :=
  let n := ssPkLen (opSet b.e.opcode) (ssLevels k)
  if (ownAux b).length ≠ n + ssSigLen (opSet b.e.opcode) (ssLevels k) then refuse d b stLength 3 (unstated b.e)
  else ssJudge d b k ((ownAux b).take n) ((ownAux b).drop n)

/-- What VERIFY does with a given HSS key, after it has read the types of the lower levels from the signature. -/
def ssJudgeHss (d : Dev) (b : Job) (k : SsKey) : HssRead → Dev
  | .types ts => ssJudgeAux d b { k with types := ts }
  | .short => refuse d b stLength 3 (unstated b.e)
  | .unknown => verdict d b false stSigInvalid 0 (unstated b.e)

theorem ssVerify_keyed (hk : hasKey0 b = true) :
    ssVerify d b = ssJudge d b (getSs d b.owner (hSlot b.e.key0)) (jobKey0 d b).pub (ownAux b) := by
  simp only [ssVerify, hk, if_true, ssJudge]

section
variable (hk : hasKey0 b = false)
include hk

theorem ssVerify_short (hl : (ownAux b).length < pkHead (opSet b.e.opcode)) : ssVerify d b = refuse d b stLength 3 (unstated b.e) := by
  simp only [ssVerify, hk, if_pos hl, Bool.false_eq_true, if_false]

variable (hl : pkHead (opSet b.e.opcode) ≤ (ownAux b).length)
include hl

theorem ssVerify_unknownKey (hp : pkParams (opSet b.e.opcode) (ownAux b) = none) : ssVerify d b = refuse d b stEncoding 0x0301 (unstated b.e) := by
  simp only [ssVerify, hk, hp, if_neg (Nat.not_lt.2 hl), Bool.false_eq_true, if_false]

section
variable {k : SsKey} (hp : pkParams (opSet b.e.opcode) (ownAux b) = some k)
include hp

theorem ssVerify_given (hs : opSet b.e.opcode ≠ 0x11) : ssVerify d b = ssJudgeAux d b k := by
  simp only [ssVerify, hk, hp, if_neg (Nat.not_lt.2 hl), if_neg hs, Bool.false_eq_true, if_false, ssJudgeAux, ssJudge]

section
variable (hs : opSet b.e.opcode = 0x11) {r : HssRead}
  (hr : hssTypes (k.levels - 1) (k.types.headD (0, 0)) ((ownAux b).drop (ssPkLen (opSet b.e.opcode) (ssLevels k) + 4)) = r)
include hs hr

/-- The lower levels of an HSS key are those that the signature names. -/
theorem ssVerify_hss : ssVerify d b = ssJudgeHss d b k r := by
  simp only [ssVerify, hk, hp, if_neg (Nat.not_lt.2 hl), if_pos hs, hr, Bool.false_eq_true, if_false]
  cases r <;> rfl

end
end
end

/-- A given public key: AUX of another length than its parameters give is refused, and else the signature is judged. -/
theorem judgedAux_of {i : Instr} {s : State} {k : SsKey} (h : exec i s = .next { s with dev := ssJudgeAux s.dev b k }) :
    let n := ssPkLen (opSet b.e.opcode) (ssLevels k)
    let judged := fun pk sig : Bytes => Verdict i s b (ssSigOk k pk b.inData sig) stSigInvalid (ssVerifyCycles k pk b.inData sig)
    ((ownAux b).length ≠ n + ssSigLen (opSet b.e.opcode) (ssLevels k) → JobOver i s s.dev b stLength 3 0 b.attempts (unstated b.e))
      ∧ ((ownAux b).length = n + ssSigLen (opSet b.e.opcode) (ssLevels k) → judged ((ownAux b).take n) ((ownAux b).drop n)) :=
  ⟨fun hl => refuse_over (next_eq h (if_pos hl)), fun hl => verdict_over (next_eq h (if_neg (not_not_intro hl)))⟩

/-! ## ADVANCE (04 R145) -/

section
variable {k : SsKey} {t : Nat} (hk : getSs d b.owner (hSlot b.e.key0) = k) (ht : treeAt (ssLevels k) b.e.param.toNat k.next + 1 = t)
include hk ht

theorem advanceRun_exhausted (hl : k.limit ≤ t * 2 ^ heightFrom (ssLevels k) b.e.param.toNat) :
    advanceRun d b = refuse d b stStateExhausted 0 (unstated b.e) := by
  subst hk ht
  exact if_pos hl

variable (hl : t * 2 ^ heightFrom (ssLevels k) b.e.param.toNat < k.limit)
include hl

theorem advanceRun_notReady (hm : t % 2 ^ ((ssLevels k).getD (b.e.param.toNat - 1) {}).h = 0) :
    advanceRun d b = refuse d b stTreeNotReady (BitVec.ofNat 16 (b.e.param.toNat - 1)) (unstated b.e) := by
  subst hk ht
  exact (if_neg (Nat.not_le.2 hl)).trans (if_pos hm)

theorem advanceRun_builds (hm : t % 2 ^ ((ssLevels k).getD (b.e.param.toNat - 1) {}).h ≠ 0) :
    advanceRun d b =
      let l := b.e.param.toNat
      let lev := (ssLevels k).getD l {}
      let seed := secretOf (jobKey0 d b)
      finishOut d b (regionImage k seed l t) (BitVec.ofNat 32 t) 0 0 (unitCycles lev (treeUnits k.set lev) + headCycles k seed l t) := by
  subst hk ht
  exact (if_neg (Nat.not_le.2 hl)).trans (if_neg hm)

end

/-! ## The state store: LIMIT and DELETE (04 R151, R153) -/

section
variable {k : SsKey} {n : Nat} (hk : getSs d b.owner (hSlot b.e.key0) = k) (hn : (u64At b.auxData 0).toNat = n)
include hk hn

theorem limitRun_outOfRange (h : k.limit < n ∨ n < k.next) : limitRun d b = finish d b stRange 0x0303 := by
  subst hk hn
  exact if_pos (by simpa using h)

theorem limitRun_lowers (h1 : k.next ≤ n) (h2 : n ≤ k.limit) :
    limitRun d b =
      let slot := hSlot b.e.key0
      let k1 := { k with limit := n, blockEnd := min k.blockEnd n }
      finishOut (jCommitted (ssLowEvents (setSs (jIntent d b) b.owner slot k1) k k1 slot) b effPersistent) b [] 0 effPersistent 0 0 := by
  subst hk hn
  exact if_neg (by simp [h1, h2])

end

theorem deleteRun_busy (h : keyBusy d b b.e.key0 = true) : deleteRun d b = d := if_pos h

theorem deleteRun_deletes (h : keyBusy d b b.e.key0 = false) : deleteRun d b =
    finishOut (jCommitted (destroyStateful (jIntent d b) b.owner (hSlot b.e.key0)) b effPersistent) b [] 0 effPersistent 0 0 :=
  if_neg (Bool.eq_false_iff.1 h)

/-! ## The stateful routine of a ready job (04 R135) -/

section
variable {s : State} {d1 : Dev} (hf : isSlh (opSet b.e.opcode) = false)
include hf

theorem ssKeygen_exec (h : JobReady s.dev b.id (isOp 3 1) b) (e : ssKeygen s.dev b = d1) :
    exec (.hbsKeygen b.id) s = .next { s with dev := d1 } := serve_to hbsKeygenRun rfl h ((if_neg (Bool.eq_false_iff.1 hf)).trans e)

theorem ssSign_exec (h : JobReady s.dev b.id (isOp 3 2) b) (e : ssSign s.dev b = d1) :
    exec (.hbsSign b.id) s = .next { s with dev := d1 } := serve_to hbsSignRun rfl h ((if_neg (Bool.eq_false_iff.1 hf)).trans e)

theorem ssVerify_exec (h : JobReady s.dev b.id (isOp 3 5) b) (e : ssVerify s.dev b = d1) :
    exec (.hbsVerify b.id) s = .next { s with dev := d1 } := serve_to hbsVerifyRun rfl h ((if_neg (Bool.eq_false_iff.1 hf)).trans e)

end
end

/-! ## The statement -/

/-- Settles O29: a ready job of a stateful set runs the stateful routine, whose branches are the equations above. What a verification costs
and the leaf of a signature's path are log 175, the headers of the other lower levels log 176, the bound and the order of ADVANCE and what
QUERY reads of a level that is not there log 177; unstated cycles are free (log 72). -/
theorem statefulSignatureResults : Obligations.StatefulSignatureResults := by
  unfold Obligations.StatefulSignatureResults
  dsimp only
  refine ⟨⟨fun s b h hf => ⟨fun hp => ?_, fun k hp => ⟨fun hl => ?_, fun hl hb => ?_, fun hl hb => ?_⟩⟩,
      fun s b h hf => ⟨fun ht hb => ?_, fun ht hb hs => ?_, fun idx d1 taken hi => ⟨fun lv hw => ?_, fun hw hp => ?_, fun hw hp => ?_⟩⟩,
      fun s b h hf => ⟨fun hk => ?_, fun hk hl => ?_, fun hk hl hp => ?_, fun k hk hl hp => ⟨fun hs => ?_, fun ts hs hr => ?_, fun hs hr => ?_,
        fun hs hr => ?_⟩⟩,
      fun s b h => ⟨fun hl => ?_, fun hl hm => ?_, fun hl hm => ?_⟩, fun s b h => ?_⟩,
    fun s b h => ?_, fun s b h => ?_, fun s b h => ⟨fun hr => ?_, fun h1 h2 => ?_⟩, fun s b h => ⟨fun hb => ?_, fun hb => ?_⟩⟩
  · exact refuse_over (ssKeygen_exec hf h (ssKeygen_badBlock hp))
  · exact refuse_over (ssKeygen_exec hf h (ssKeygen_short hp hl))
  · exact ssKeygen_exec hf h (ssKeygen_badList hp hl hb)
  · exact ⟨_, ssKeygen_exec hf h rfl, rfl, _, ssKeygen_keeps hp hl hb h.job, rfl, rfl, rfl, rfl, rfl⟩
  · exact ssSign_exec hf h (ssSign_badList ht hb)
  · exact refuse_over (ssSign_exec hf h (ssSign_exhausted rfl rfl ht hb hs))
  · exact refuse_over (ssSign_exec hf h ((ssSign_indexed rfl rfl hi).trans (ssSignWith_wrongTree _ hw)))
  · exact refuse_over (ssSign_exec hf h ((ssSign_indexed rfl rfl hi).trans (ssSignWith_badPath _ hw hp)))
  · exact jobDone_of (ssSign_exec hf h ((ssSign_indexed rfl rfl hi).trans (ssSignWith_signs _ hw hp)))
  · exact verdict_over (ssVerify_exec hf h (ssVerify_keyed hk))
  · exact refuse_over (ssVerify_exec hf h (ssVerify_short hk hl))
  · exact refuse_over (ssVerify_exec hf h (ssVerify_unknownKey hk hl hp))
  · exact judgedAux_of (ssVerify_exec hf h (ssVerify_given hk hl hp hs))
  · exact judgedAux_of (ssVerify_exec hf h (ssVerify_hss hk hl hp hs hr))
  · exact refuse_over (ssVerify_exec hf h (ssVerify_hss hk hl hp hs hr))
  · exact verdict_over (ssVerify_exec hf h (ssVerify_hss hk hl hp hs hr))
  · exact refuse_over (serve_to advanceRun rfl h (advanceRun_exhausted rfl rfl hl))
  · exact refuse_over (serve_to advanceRun rfl h (advanceRun_notReady rfl rfl hl hm))
  · exact jobDone_of (serve_to advanceRun rfl h (advanceRun_builds rfl rfl hl hm))
  · exact jobDone_of (serve_exec (run := rebuildRun) rfl h)
  · exact jobDone_of (serveNone_exec (run := ssQueryRun) rfl h)
  · exact jobDone_of (serveNone_exec (run := parkRun) rfl h)
  · exact serveNone_to limitRun rfl h (limitRun_outOfRange rfl rfl hr)
  · exact jobDone_of (serveNone_to limitRun rfl h (limitRun_lowers rfl rfl h1 h2))
  · exact serveNone_to deleteRun rfl h (deleteRun_busy hb)
  · exact jobDone_of (serveNone_to deleteRun rfl h (deleteRun_deletes hb))

end Sys2Proof.Proofs.StatefulSig
end

section
/-!
PROOF. Classic McEliece and HQC: key generation, both forms of encapsulation and decapsulation, the load and the export of a public key
(05 R157, R160, R163-R165, R169, R172-R176).
-/
namespace Sys2Proof.Proofs.CodeBased

open Sys2Proof.Machine Sys2Proof.Safety Sys2Proof.Laws

/-! ## The commands that come in two forms: the secret to OUT, or kept as an object (05 R157) -/

section
variable {keep : Bool} {s : State} {b : Job} {d1 : Dev}

theorem codeEncaps_exec (h : JobReady s.dev b.id (isOp 4 (if keep then 4 else 2)) b) (e : codeEncapsRun keep s.dev b = d1) :
    exec (if keep then .codeEncapsKeep b.id else .codeEncaps b.id) s = .next { s with dev := d1 } := by
  cases keep with
  | true => exact serve_to (codeEncapsRun true) rfl h e
  | false => exact serve_to (codeEncapsRun false) rfl h e

theorem codeDecaps_exec (h : JobReady s.dev b.id (isOp 4 (if keep then 5 else 3)) b) (e : codeDecapsRun keep s.dev b = d1) :
    exec (if keep then .codeDecapsKeep b.id else .codeDecaps b.id) s = .next { s with dev := d1 } := by
  cases keep with
  | true => exact serve_to (codeDecapsRun true) rfl h e
  | false => exact serve_to (codeDecapsRun false) rfl h e

end

section
variable {d : Dev} {b : Job} {z : CodeSet} (hz : codeSet (opSet b.e.opcode) = some z)
include hz

/-! ## KEYGEN: HQC makes its key at once, Classic McEliece repeats attempts up to a bound (05 R172) -/

theorem codeKeygenRun_hqc (hq : isHqc (opSet b.e.opcode) = true) : codeKeygenRun d b =
    let set := opSet b.e.opcode
    let r := jobRnd d b (80 + z.sigma)
    let pk := slice r (40 + z.sigma) 40 ++ hqcClear set (fit (z.pk - 40) (Config.prim .hqcKeygenEk [arg1 set, r]))
    makeKey d b { type := opType b.e.opcode, policy := pPolicy b.e, origin := 0, sec := r.take (40 + z.sigma), pub := pk } pk 0
      (codeKeygenCycles set) := by
  simp only [codeKeygenRun, hz, hq, if_true]

section
variable (hq : isHqc (opSet b.e.opcode) = false) {r : Bytes} (hr : (if pbit b.e 1 then fit 32 (ownAux b) else jobRnd d b 32) = r)
  {n : Nat} (hn : Config.count .mcElieceKeygenSk [arg1 (opSet b.e.opcode), r] + 1 = n)
include hq hr hn

theorem codeKeygenRun_mcEliece (hl : n ≤ 255) : codeKeygenRun d b =
    let set := opSet b.e.opcode
    makeKey (if b.outBad.isSome then scrubJob d b else d) b
      { type := opType b.e.opcode, policy := pPolicy b.e, origin := 0, sec := fit z.sk (Config.prim .mcElieceKeygenSk [arg1 set, r]), pub := [] }
      (fit z.pk (Config.prim .mcElieceKeygenPk [arg1 set, r])) n (n * codeKeygenCycles set) := by
  simp only [codeKeygenRun, hz, hq, hr, hn, Nat.not_lt.2 hl, Bool.false_eq_true, if_false]

theorem codeKeygenRun_bound (hl : 255 < n) : codeKeygenRun d b = finish (scrubJob d b)
    { b with attempts := 255, cycles := 255 * codeKeygenCycles (opSet b.e.opcode), outLen := 0 } stIterationBound 0 := by
  simp only [codeKeygenRun, hz, hq, hr, hn, hl, Bool.false_eq_true, if_false, if_true]

end

/-! ## ENCAPS: a key from IN is checked, one of an object is not (05 R164) -/

section
variable {keep : Bool} {pk : Bytes} (hp : (if hasKey0 b then codePubOf (jobKey0 d b) else b.inData) = pk)
include hp

theorem codeEncapsRun_encapsulates (h : hasKey0 b = true ∨ codePkBad (opSet b.e.opcode) pk = none) : codeEncapsRun keep d b =
    let set := opSet b.e.opcode
    let k := codeEnc set z pk (jobRnd d b (if isHqc set then z.sigma + 16 else 32))
    let cyc := if hasKey0 b || isHqc set then codeEncCycles set else 2400 + streamCycles z.pk
    if keep then keepSecret d b k.2 k.1 cyc else finishOut d b (k.1 ++ k.2) 0 0 0 cyc := by
  have hg : (if hasKey0 b then none else codePkBad (opSet b.e.opcode) pk) = none := by
    rcases h with h | h
    · exact if_pos h
    · rw [h, ite_self]
  simp only [codeEncapsRun, hz, hp, hg]

theorem codeEncapsRun_refuses (hk : hasKey0 b = false) {det : U16} (h : codePkBad (opSet b.e.opcode) pk = some det) :
    codeEncapsRun keep d b = refuse d b stEncoding det (codePkBadCycles (opSet b.e.opcode) z.pk) := by
  have hg : (if hasKey0 b then none else codePkBad (opSet b.e.opcode) pk) = some det := by
    rw [hk, h]; exact if_neg Bool.false_ne_true
  simp only [codeEncapsRun, hz, hp, hg]

end

/-! ## DECAPS: no ciphertext is refused (05 R165) -/

theorem codeDecapsRun_decapsulates {keep : Bool} : codeDecapsRun keep d b =
    let set := opSet b.e.opcode
    let k := jobKey0 d b
    let ss := fit z.ss (Config.prim (if isHqc set then .hqcDecaps else .mcElieceDecaps) [arg1 set, secretOf k ++ k.pub, b.inData])
    let cyc := codeDecCycles set b.order
    if keep then keepSecret d b ss [] cyc else finishOut d b ([] ++ ss) 0 0 0 cyc := by
  simp only [codeDecapsRun, hz, List.nil_append]

/-! ## PK_LOAD: the same check as that of ENCAPS, then an object (05 R164, R169) -/

theorem codePkLoadRun_loads (h : codePkBad (opSet b.e.opcode) b.inData = none) : codePkLoadRun d b =
    makeKey d b { type := opType b.e.opcode, policy := pPolicy b.e, origin := 5, sec := [], pub := b.inData } [] 0
      (if isHqc (opSet b.e.opcode) then hqcDecode (opSet b.e.opcode) + 400 else 1200 + streamCycles z.pk) := by
  simp only [codePkLoadRun, hz, h]

theorem codePkLoadRun_refuses {det : U16} (h : codePkBad (opSet b.e.opcode) b.inData = some det) :
    codePkLoadRun d b = refuse d b stEncoding det (codePkBadCycles (opSet b.e.opcode) z.pk) := by
  simp only [codePkLoadRun, hz, h]

end

/-! ## The statement -/

/-- Settles O25: a ready job runs its routine, whose branches are the equations above. The keys, ciphertexts and secrets of Classic McEliece
and HQC, and the number of a KEYGEN's attempts, are free values (log 4); a key that streams in is checked once it is whole (log 188). -/
theorem codeBasedResults : Obligations.CodeBasedResults := by
  unfold Obligations.CodeBasedResults
  dsimp only
  refine ⟨fun s b z hz h hq => ?_, fun s b z hz h hq => ⟨fun hl => ?_, fun hl => ?_⟩,
    fun keep s b z hz h => ⟨fun hp => ?_, fun hk det hp => ?_⟩, fun keep s b z hz h => ?_,
    fun s b z hz h => ⟨fun hp => ?_, fun det hp => ?_⟩, fun s b h => ?_⟩
  · exact keyMade_of (serve_to codeKeygenRun rfl h (codeKeygenRun_hqc hz hq))
  · exact keyMade_of (serve_to codeKeygenRun rfl h (codeKeygenRun_mcEliece hz hq rfl rfl hl))
  · exact serve_to codeKeygenRun rfl h (codeKeygenRun_bound hz hq rfl rfl hl)
  · exact Kem.secret_given (codeEncaps_exec h (codeEncapsRun_encapsulates hz rfl hp))
  · exact refuse_over (codeEncaps_exec h (codeEncapsRun_refuses hz rfl hk hp))
  · exact Kem.secret_given (out := []) (codeDecaps_exec h (codeDecapsRun_decapsulates hz))
  · exact keyMade_of (serve_to codePkLoadRun rfl h (codePkLoadRun_loads hz hp))
  · exact refuse_over (serve_to codePkLoadRun rfl h (codePkLoadRun_refuses hz hp))
  · exact jobDone_of (serve_exec (run := codePubExportRun) rfl h)

end Sys2Proof.Proofs.CodeBased
end

section
/-!
PROOF. Classical keys: key generation on a curve or field and of RSA, PK_LOAD, CURVE_LOAD, PUB_EXPORT
(06 R184-R188, R190, R193, R196-R198, R200).
-/
namespace Sys2Proof.Proofs.ClassicalKeys

open Sys2Proof.Machine Sys2Proof.Safety Sys2Proof.Laws

/-- A guard of two conditions. -/
theorem guard_or {p q : Prop} [Decidable p] [Decidable q] : (decide p || decide q) = true ↔ p ∨ q := by
  rw [Bool.or_eq_true, decide_eq_true_eq, decide_eq_true_eq]

section
variable {d : Dev} {b : Job}

/-! ## KEYGEN on a curve or field: the public part of a new key is checked (06 R196, R203) -/

section
variable (hr : isRsa (opSet b.e.opcode) = false) {k : Bytes × Bytes × Bool × Dev} (hk : pkNew d (jobCurve d b) (opSet b.e.opcode) = k)
include hr hk

theorem pkKeygenRun_makes (ho : k.2.2.1 = true) : pkKeygenRun d b = makeKey k.2.2.2 b
    { type := opType b.e.opcode, policy := pPolicy b.e, origin := 0, sec := k.1, pub := k.2.1, param := newParam b } k.2.1 0
    (pkKeygenCycles (jobCurve d b) (opSet b.e.opcode)) := by
  subst hk
  exact (if_neg (Bool.eq_false_iff.1 hr)).trans (if_neg (by rw [ho]; decide))

theorem pkKeygenRun_offCurve (ho : k.2.2.1 = false) : pkKeygenRun d b =
    resultCheck k.2.2.2 b (pkKeygenCycles (jobCurve d b) (opSet b.e.opcode)) := by
  subst hk
  exact (if_neg (Bool.eq_false_iff.1 hr)).trans (if_pos (by rw [ho]; rfl))

end

/-! ## KEYGEN of RSA: the block, the room, the exponent, then the search of two primes (06 R186, R190, R200; logs 67 and 168) -/

/-- The block of an RSA KEYGEN that names a modulus length of the spec and keeps its reserved field 0 (06 R186). -/
def RsaBlock (b : Job) : Prop := (u16At b.auxData 0).toNat ∈ [2048, 3072, 4096, 6144, 8192] ∧ u16At b.auxData 2 = 0

theorem rsaBlock_guard : (!((u16At b.auxData 0).toNat == 2048 || (u16At b.auxData 0).toNat == 3072 || (u16At b.auxData 0).toNat == 4096
    || (u16At b.auxData 0).toNat == 6144 || (u16At b.auxData 0).toNat == 8192) || u16At b.auxData 2 != 0) = true ↔ ¬ RsaBlock b := by
  rw [RsaBlock, Classical.not_and_iff_not_or_not, Bool.or_eq_true, bne_iff_ne]
  refine or_congr_left ?_
  simp only [List.mem_cons, List.not_mem_nil, or_false, Bool.not_eq_true', Bool.or_eq_false_iff, beq_eq_false_iff_ne, not_or, and_assoc, ne_eq]

/-- The length in bytes of the modulus that the block names. -/
def rsaBytes (b : Job) : Nat := (u16At b.auxData 0).toNat / 8
/-- The public exponent of the block, 65,537 where it names none (06 R186). -/
def rsaExp (b : Job) : Nat := if (u32At b.auxData 4).toNat = 0 then 65537 else (u32At b.auxData 4).toNat
/-- The search of the first prime, and of the second one, which goes on where the first stopped (06 R200). -/
def firstPrime (d : Dev) (b : Job) : Option Nat × Nat × Dev := rsaSearch (8 * (rsaBytes b / 2)) (rsaExp b) 0 4080 16777216 0 d
def secondPrime (d : Dev) (b : Job) : Option Nat × Nat × Dev :=
  let x := firstPrime d b
  match x.1 with
  | some p => rsaSearch (8 * (rsaBytes b / 2)) (rsaExp b) p 4080 16777216 x.2.1 x.2.2
  | none => (none, x.2.1, x.2.2)
/-- CYCLES of the searches, a free value (log 168). -/
def primeCycles (d : Dev) (b : Job) : Nat :=
  let y := secondPrime d b
  Config.count .rsaKeygenN [leBytes 2 (rsaBytes b), leBytes 4 (rsaExp b), leBytes 4 (y.2.2.glob.drbgCtr - d.glob.drbgCtr), leBytes 2 y.2.1]
/-- An RSA key of two primes (06 R185). -/
def rsaNewKey (b : Job) (p q : Nat) : NewKey :=
  let half := fun x : Nat => beBytes (rsaBytes b / 2) x
  { type := opType b.e.opcode, policy := pPolicy b.e, origin := 0, pub := beBytes 4 (rsaExp b) ++ beBytes (rsaBytes b) (p * q)
    sec := half p ++ half q ++ half (inv0 (rsaExp b) (p - 1)) ++ half (inv0 (rsaExp b) (q - 1)) ++ half (inv0 q p) }
/-- What the searches leave: a key of the two primes, or the bound of attempts. -/
def rsaFound (d : Dev) (b : Job) : Dev :=
  let y := secondPrime d b
  match (firstPrime d b).1, y.1 with
  | some p, some q => makeKey y.2.2 b (rsaNewKey b p q) (rsaNewKey b p q).pub (cdiv y.2.1 16) (primeCycles d b)
  | _, _ => finish y.2.2 { b with attempts := 255, cycles := primeCycles d b, outLen := 0 } stIterationBound 0

theorem rsaFound_none (h : (firstPrime d b).1 = none ∨ (secondPrime d b).1 = none) : rsaFound d b =
    finish (secondPrime d b).2.2 { b with attempts := 255, cycles := primeCycles d b, outLen := 0 } stIterationBound 0 := by
  unfold rsaFound
  rcases h with h | h
  · rw [h]
  · cases hx : (firstPrime d b).1 <;> simp only [h]

theorem rsaFound_some {p q : Nat} (hp : (firstPrime d b).1 = some p) (hq : (secondPrime d b).1 = some q) : rsaFound d b =
    makeKey (secondPrime d b).2.2 b (rsaNewKey b p q) (rsaNewKey b p q).pub (cdiv (secondPrime d b).2.1 16) (primeCycles d b) := by
  simp only [rsaFound, hp, hq]

theorem rsaKeygen_badBlock (hs : ¬ RsaBlock b) : rsaKeygen d b = meRefuse d b stParamInvalid 0 (unstated b.e) :=
  if_pos (rsaBlock_guard.2 hs)

/-- The room for the key's cache entry, and for its persistent copy (06 R188, R190). -/
def RsaCacheRoom (d : Dev) (b : Job) : Prop :=
  granUsed d b.owner + granPriv (5 * (rsaBytes b / 2)) (4 + rsaBytes b) ≤ (getOwn d b.owner).sh.gran.toNat
def RsaStoreRoom (d : Dev) (b : Job) : Prop :=
  b.pkeyRes = 0 ∨ blocksUsed d + persistBlocks (5 * (rsaBytes b / 2)) (4 + rsaBytes b) ≤ 1920

theorem rsaStoreRoom_guard : (b.pkeyRes ≠ 0 && decide (1920 < blocksUsed d + persistBlocks (5 * (rsaBytes b / 2)) (4 + rsaBytes b))) = true
    ↔ ¬ RsaStoreRoom d b := by
  rw [RsaStoreRoom, Bool.and_eq_true, decide_eq_true_eq, decide_eq_true_eq, not_or, Nat.not_le]

section
variable (hs : RsaBlock b)
include hs

theorem rsaKeygen_short (hl : b.e.outCap.toNat < 4 + rsaBytes b) : rsaKeygen d b = refuseUnplaced d b stLength 2 :=
  (if_neg fun h => rsaBlock_guard.1 h hs).trans (if_pos hl)

variable (hl : 4 + rsaBytes b ≤ b.e.outCap.toNat)
include hl

theorem rsaKeygen_cacheFull (hc : ¬ RsaCacheRoom d b) : rsaKeygen d b = refuseUnplaced d b stKeyCacheFull 0 :=
  (if_neg fun h => rsaBlock_guard.1 h hs).trans <| (if_neg (Nat.not_lt.2 hl)).trans <| if_pos (Nat.not_le.1 hc)

variable (hc : RsaCacheRoom d b)
include hc

theorem rsaKeygen_persistFull (hp : ¬ RsaStoreRoom d b) : rsaKeygen d b = refuseUnplaced (ksPfull d) b stPersistFull 2 :=
  (if_neg fun h => rsaBlock_guard.1 h hs).trans <| (if_neg (Nat.not_lt.2 hl)).trans <| (if_neg (Nat.not_lt.2 hc)).trans <|
    if_pos (rsaStoreRoom_guard.2 hp)

variable (hp : RsaStoreRoom d b)
include hp

theorem rsaKeygen_roomed : rsaKeygen d b =
    if rsaExp b % 2 = 0 || rsaExp b < 65537 then meRefuse d b stRange 0x0507 (pkValidCycles {} 0x20 (rsaBytes b)) else rsaFound d b :=
  (if_neg fun h => rsaBlock_guard.1 h hs).trans <| (if_neg (Nat.not_lt.2 hl)).trans <| (if_neg (Nat.not_lt.2 hc)).trans <|
    if_neg fun h => rsaStoreRoom_guard.1 h hp

theorem rsaKeygen_badExponent (he : rsaExp b % 2 = 0 ∨ rsaExp b < 65537) :
    rsaKeygen d b = meRefuse d b stRange 0x0507 (pkValidCycles {} 0x20 (rsaBytes b)) :=
  (rsaKeygen_roomed hs hl hc hp).trans (if_pos (guard_or.2 he))

theorem rsaKeygen_searches (he : ¬ (rsaExp b % 2 = 0 ∨ rsaExp b < 65537)) : rsaKeygen d b = rsaFound d b :=
  (rsaKeygen_roomed hs hl hc hp).trans (if_neg fun h => he (guard_or.1 h))

end

/-! ## PK_LOAD (06 R193)  -/

theorem pkLoadRun_loads {pk : Bytes} (hp : pkLoaded (jobCurve d b) (opSet b.e.opcode) b.inData = .ok pk) : pkLoadRun d b =
    let set := opSet b.e.opcode
    makeKey d b { type := opType b.e.opcode, policy := pPolicy b.e, origin := 5, sec := [], pub := pk, param := newParam b } [] 0
      (if isEdwards set || isRsa set then unstated b.e else dhHandleCycles (jobCurve d b) set) := by
  simp only [pkLoadRun, hp]

theorem pkLoadRun_refuses {f : U16 × U16} (hp : pkLoaded (jobCurve d b) (opSet b.e.opcode) b.inData = .error f) :
    pkLoadRun d b = meRefuse d b f.1 f.2 (pkValidCycles (jobCurve d b) (opSet b.e.opcode) (b.inData.length - 4)) := by
  simp only [pkLoadRun, hp]

/-! ## CURVE_LOAD: the length, then every check of the curve, then a parameter object (06 R197; log 169) -/

/-- A PBITS in range with a block of another length than it asks for. -/
def CurveWrongLen (b : Job) : Prop :=
  160 ≤ (blockCurve b.auxData).pbits ∧ (blockCurve b.auxData).pbits ≤ 640
    ∧ (b.auxData.length - 8) / 6 ≠ cdiv (blockCurve b.auxData).pbits 8

theorem curveWrongLen_guard : (160 ≤ (blockCurve b.auxData).pbits && (blockCurve b.auxData).pbits ≤ 640
    && (b.auxData.length - 8) / 6 ≠ cdiv (blockCurve b.auxData).pbits 8) = true ↔ CurveWrongLen b := by
  rw [CurveWrongLen, Bool.and_eq_true, Bool.and_eq_true, decide_eq_true_eq, decide_eq_true_eq, decide_eq_true_eq, and_assoc]

/-- CYCLES of CURVE_LOAD (06 R198). -/
def curveLoadCycles (b : Job) : Nat := listAt [260000, 610000, 1350000, 2300000] (sizeClass (blockCurve b.auxData))

theorem curveLoadRun_wrongLen (hw : CurveWrongLen b) : curveLoadRun d b = refuseUnplaced d b stLength 3 :=
  if_pos (curveWrongLen_guard.2 hw)

section
variable (hw : ¬ CurveWrongLen b) {p q : Bool × Dev} (hp : isPrime (blockCurve b.auxData).p 50 d = p)
  (hq : isPrime (blockCurve b.auxData).n 50 p.2 = q) {bad : U16} (hb : curveFaults b.auxData (blockCurve b.auxData) p.1 q.1 = bad)
include hw hp hq hb

theorem curveLoadRun_invalid (h : bad ≠ 0) : curveLoadRun d b = meRefuse q.2 b stCurveInvalid bad (curveLoadCycles b) := by
  subst hp hq hb
  exact (if_neg fun h => hw (curveWrongLen_guard.1 h)).trans (if_pos h)

variable (h : bad = 0)
include h

theorem curveLoadRun_badList (ho : b.outBad ≠ none) : curveLoadRun d b =
    finish q.2 { b with cycles := curveLoadCycles b } stOk 0 := by
  subst hp hq hb
  exact (if_neg fun h => hw (curveWrongLen_guard.1 h)).trans <| (if_neg (not_not_intro h)).trans (if_pos (Option.isSome_iff_ne_none.2 ho))

theorem curveLoadRun_loads (ho : b.outBad = none) : curveLoadRun d b =
    let r := createObj q.2 b.owner
      { type := opType b.e.opcode, origin := 5, isParam := true, pub := b.auxData, gran := cdiv (6 * ((b.auxData.length - 8) / 6) + 64) 512 + 8 }
    finishOut r.2 b [] r.1 effKeyCreated 0 (curveLoadCycles b) := by
  subst hp hq hb
  exact (if_neg fun h => hw (curveWrongLen_guard.1 h)).trans <| (if_neg (not_not_intro h)).trans <| if_neg (by rw [ho]; exact Bool.false_ne_true)

end
end

/-! ## The statement -/

/-- Settles O31: a ready job runs its routine, whose branches are the equations above. The lengths and room of an RSA key are checked in the
routine (log 67), a block of it that is not one of the spec is PARAM_INVALID and its cycles are free (log 168), the rounds of its primes are
log 167, and the length of a curve's block is log 169. -/
theorem classicalKeyResults : Obligations.ClassicalKeyResults := by
  unfold Obligations.ClassicalKeyResults
  dsimp only
  refine ⟨fun s b h hr => ⟨fun hk => ?_, fun hk => ?_⟩,
    fun s b h hr => ⟨fun hs => ?_, fun hs hl => ?_, fun ⟨hs, hl⟩ hc => ?_, fun ⟨hs, hl⟩ hc hp => ?_, fun ⟨hs, hl⟩ hc hp he => ?_,
      fun ⟨hs, hl⟩ hc hp he => ⟨fun hn => ?_, fun p q hx hy => ?_⟩⟩,
    fun s b h => ⟨fun f hf => ?_, fun pk hp => ?_⟩,
    fun s b h => ⟨fun hw => ?_, fun hw hb => ?_, fun hw hb ho => ?_, fun hw hb ho => ?_⟩, fun s b h => ?_⟩
  · exact keyMade_of (serve_to pkKeygenRun rfl h (pkKeygenRun_makes hr rfl hk))
  · exact serve_to pkKeygenRun rfl h (pkKeygenRun_offCurve hr rfl hk)
  · exact meRefused_of (keygen_rsa h hr (rsaKeygen_badBlock hs))
  · exact refuse_over (keygen_rsa h hr (rsaKeygen_short hs hl))
  · exact refuse_over (keygen_rsa h hr (rsaKeygen_cacheFull hs hl hc))
  · exact refuse_over (keygen_rsa h hr (rsaKeygen_persistFull hs hl hc hp))
  · exact meRefused_of (keygen_rsa h hr (rsaKeygen_badExponent hs hl hc hp he))
  · exact jobOver_of (keygen_rsa h hr ((rsaKeygen_searches hs hl hc hp he).trans (rsaFound_none hn)))
  · exact keyMade_of (keygen_rsa h hr ((rsaKeygen_searches hs hl hc hp he).trans (rsaFound_some hx hy)))
  · exact meRefused_of (serve_to pkLoadRun rfl h (pkLoadRun_refuses hf))
  · exact keyMade_of (serve_to pkLoadRun rfl h (pkLoadRun_loads hp))
  · exact refuse_over (serve_to curveLoadRun rfl h (curveLoadRun_wrongLen hw))
  · exact meRefused_of (serve_to curveLoadRun rfl h (curveLoadRun_invalid hw rfl rfl rfl hb))
  · exact serve_to curveLoadRun rfl h (curveLoadRun_badList hw rfl rfl rfl hb ho)
  · exact jobDone_of (serve_to curveLoadRun rfl h (curveLoadRun_loads hw rfl rfl rfl hb ho))
  · exact jobDone_of (serve_exec (run := pkPubExportRun) rfl h)

end Sys2Proof.Proofs.ClassicalKeys
end

section
/-!
PROOF. Classical signatures: ECDSA, EdDSA and RSA with PSS and v1.5, and their verification (06 R188-R195, R199, R203).
-/
namespace Sys2Proof.Proofs.ClassicalSigs

open Sys2Proof.Machine Sys2Proof.Safety Sys2Proof.Laws

section
variable {d : Dev} {b : Job}

/-! ## SIGN with ECDSA: the attempts, and the check of the signature's point (06 R192, R203; log 165) -/

/-- The attempts of an ECDSA signature: with DET = 1 its nonces follow from the key and the digest. -/
def ecdsaAttempts (d : Dev) (b : Job) : Option (Bool × Nat × Nat × Nat) × Dev :=
  let c := jobCurve d b
  let priv := beNat (secretOf (jobKey0 d b))
  let id := pkHash b.e
  let e := ecHashInt c (jobDigest b)
  ecdsaLoop c priv e id 255 1 (if pbit b.e 0 then some (detStart (phHash id) (phBlock id) (hashLenOf id) c priv e) else none) d
/-- CYCLES of an ECDSA signature (06 R210; log 189). -/
def ecdsaCycles (d : Dev) (b : Job) : Nat :=
  let c := jobCurve d b
  ecSignCycles c (opSet b.e.opcode) + jobHashCost b
    + if pbit b.e 0 then (if sizeClass c = 3 then unstated b.e else listAt [1300, 1900, 2600] (sizeClass c)) else 0

section
variable (hw : isWeier (opSet b.e.opcode) = true) {r : Option (Bool × Nat × Nat × Nat) × Dev} (hr : ecdsaAttempts d b = r)
include hw hr

theorem pkSignRun_bound (hn : r.1 = none) :
    pkSignRun d b = finish r.2 { b with attempts := 255, cycles := ecdsaCycles d b, outLen := 0 } stIterationBound 0 := by
  subst hr
  unfold ecdsaAttempts at hn
  simp only [pkSignRun, hw, if_true, ecdsaSign, hn, ecdsaAttempts, ecdsaCycles]

section
variable {ok : Bool} {x y n : Nat} (hn : r.1 = some (ok, x, y, n))
include hn

theorem pkSignRun_attempted : pkSignRun d b = if !ok then resultCheck r.2 b (ecdsaCycles d b)
    else finishOut r.2 b (beBytes (nLen (jobCurve d b)) x ++ beBytes (nLen (jobCurve d b)) y) 0 0 n (ecdsaCycles d b) := by
  subst hr
  unfold ecdsaAttempts at hn
  simp only [pkSignRun, hw, if_true, ecdsaSign, hn, ecdsaAttempts, ecdsaCycles]

theorem pkSignRun_ecdsaSigns (ho : ok = true) : pkSignRun d b =
    finishOut r.2 b (beBytes (nLen (jobCurve d b)) x ++ beBytes (nLen (jobCurve d b)) y) 0 0 n (ecdsaCycles d b) := by
  subst ho
  exact pkSignRun_attempted hw hr hn

theorem pkSignRun_ecdsaOffCurve (ho : ok = false) : pkSignRun d b = resultCheck r.2 b (ecdsaCycles d b) := by
  subst ho
  exact pkSignRun_attempted hw hr hn

end
end

section
variable (hw : isWeier (opSet b.e.opcode) = false)
include hw

/-! ## SIGN with EdDSA: the point of the signature must decode (06 R195, R203) -/

section
variable (he : isEdwards (opSet b.e.opcode) = true) {big : Bool} (hb : (opSet b.e.opcode == 0x13) = big)
  {l : Nat} (hl : (if big then 57 else 32) = l) {z : Nat × Dev} (hz : edBlind d big = z)
  {sig : Bytes} (hs : edSign big (pkPh b.e) ((secretOf (jobKey0 d b)).take l) (ownAux b) b.inData z.1 = sig)
include he hb hl hz hs

theorem pkSignRun_edSigns (ho : (edDecode (edCurve big) (sig.take l)).isNone = false) :
    pkSignRun d b = finishOut z.2 b sig 0 0 0
      (ecSignCycles {} (opSet b.e.opcode) + edExtra (opSet b.e.opcode) (b.inData.length + (ownAux b).length) 2) := by
  subst hb hl hz hs
  exact (if_neg (Bool.eq_false_iff.1 hw)).trans <| (if_pos he).trans <| if_neg (Bool.eq_false_iff.1 ho)

theorem pkSignRun_edOffCurve (ho : (edDecode (edCurve big) (sig.take l)).isNone = true) :
    pkSignRun d b = resultCheck z.2 b
      (ecSignCycles {} (opSet b.e.opcode) + edExtra (opSet b.e.opcode) (b.inData.length + (ownAux b).length) 2) := by
  subst hb hl hz hs
  exact (if_neg (Bool.eq_false_iff.1 hw)).trans <| (if_pos he).trans <| if_pos ho

end

/-! ## SIGN with RSA: the salt of PSS is drawn (06 R199) -/

theorem pkSignRun_pss (he : isEdwards (opSet b.e.opcode) = false) : pkSignRun d b =
    let r := draw d (pkLen8 b.e)
    rsaSignEm r.2 b (pssEncode (pkHash b.e) (jobDigest b) r.1 (Nat.log2 (rsaN (jobKey0 d b).pub))) :=
  (if_neg (Bool.eq_false_iff.1 hw)).trans (if_neg (Bool.eq_false_iff.1 he))

end

/-! ## VERIFY: a given key is checked first (06 R190, R191, R194, R195, R199) -/

section
variable (hw : isWeier (opSet b.e.opcode) = true) {pk : Bytes}
  (hp : (if hasKey0 b then (jobKey0 d b).pub else (ownAux b).take ((ownAux b).length - sigLen (jobCurve d b) (opSet b.e.opcode) 0)) = pk)
include hw hp

theorem pkVerifyRun_badPoint {f : PtErr} (hf : ecDecode (jobCurve d b) pk = .error f) : pkVerifyRun d b =
    meRefuse d b (ptFault f).1 (ptFault f).2 (pkValidCycles (jobCurve d b) (opSet b.e.opcode) 0) := by
  simp only [pkVerifyRun, hw, hp, hf, if_true]

theorem pkVerifyRun_ecdsa {q : Nat × Nat} (hq : ecDecode (jobCurve d b) pk = .ok q) : pkVerifyRun d b =
    let c := jobCurve d b
    let sig := (ownAux b).drop ((ownAux b).length - sigLen c (opSet b.e.opcode) 0)
    verdict d b (ecdsaOk c q (ecHashInt c (jobDigest b)) (beNat (sig.take (nLen c))) (beNat (sig.drop (nLen c)))) stSigInvalid 0
      (ecVerifyCycles c (opSet b.e.opcode) + jobHashCost b) := by
  simp only [pkVerifyRun, hw, hp, hq, if_true]

end

section
variable (hw : isWeier (opSet b.e.opcode) = false)
include hw

section
variable (he : isEdwards (opSet b.e.opcode) = true) {big : Bool} (hb : (opSet b.e.opcode == 0x13) = big)
  {l : Nat} (hl : (if big then 57 else 32) = l)
include he hb hl

theorem pkVerifyRun_edBadKey (hk : (edDecode (edCurve big) (jobPk d b l).1).isNone = true) :
    pkVerifyRun d b = meRefuse d b stPointInvalid 0x0504 (pkValidCycles {} (opSet b.e.opcode) 0) := by
  subst hb hl
  exact (if_neg (Bool.eq_false_iff.1 hw)).trans <| (if_pos he).trans <| if_pos hk

theorem pkVerifyRun_ed (hk : (edDecode (edCurve big) (jobPk d b l).1).isNone = false) : pkVerifyRun d b =
    let rest := (jobPk d b l).2
    verdict d b (edVerify big (pkPh b.e) (jobPk d b l).1 (rest.drop (2 * l)) b.inData (rest.take (2 * l))) stSigInvalid 0
      (ecVerifyCycles {} (opSet b.e.opcode) + edExtra (opSet b.e.opcode) (b.inData.length + pkLen8 b.e) 1) := by
  subst hb hl
  exact (if_neg (Bool.eq_false_iff.1 hw)).trans <| (if_pos he).trans <| if_neg (Bool.eq_false_iff.1 hk)

end

theorem pkVerifyRun_pss (he : isEdwards (opSet b.e.opcode) = false) : pkVerifyRun d b = rsaVerify d b fun pk m =>
    let bits := Nat.log2 (rsaN pk)
    decide (m < 2 ^ (8 * cdiv bits 8)) && pssOk (pkHash b.e) (jobDigest b) (beBytes (cdiv bits 8) m) (pkLen8 b.e) bits :=
  (if_neg (Bool.eq_false_iff.1 hw)).trans (if_neg (Bool.eq_false_iff.1 he))

end
end

/-! ## The statement -/

/-- Settles O32: the set of a ready job picks the routine of its curve or of RSA, whose branches are the equations above. The nonces of
DET = 1 are those of RFC 6979 (log 165), and what it costs in the class of 522 to 640 bits is free (log 189). -/
theorem classicalSignatureResults : Obligations.ClassicalSignatureResults := by
  unfold Obligations.ClassicalSignatureResults
  dsimp only
  refine ⟨fun s b h hw => ⟨fun hn => ?_, fun ok x y n hn => ⟨fun ho => ?_, fun ho => ?_⟩⟩,
    fun s b h hw he => ⟨fun ho => ?_, fun ho => ?_⟩, fun s b h hw he => ?_, fun s b h => ?_,
    fun s b h hw => ⟨fun f hf => ?_, fun q hq => ?_⟩, fun s b h hw he => ⟨fun hk => ?_, fun hk => ?_⟩, fun s b h hw he => ?_, fun s b h => ?_⟩
  · exact jobOver_of (serve_to pkSignRun rfl h (pkSignRun_bound hw rfl hn))
  · exact jobDone_of (serve_to pkSignRun rfl h (pkSignRun_ecdsaSigns hw rfl hn ho))
  · exact serve_to pkSignRun rfl h (pkSignRun_ecdsaOffCurve hw rfl hn ho)
  · exact jobDone_of (serve_to pkSignRun rfl h (pkSignRun_edSigns hw he rfl rfl rfl rfl ho))
  · exact serve_to pkSignRun rfl h (pkSignRun_edOffCurve hw he rfl rfl rfl rfl ho)
  · exact rsaSigned_of (serve_to pkSignRun rfl h (pkSignRun_pss hw he))
  · exact rsaSigned_of (serve_exec (run := signV15Run) rfl h)
  · exact meRefused_of (serve_to pkVerifyRun rfl h (pkVerifyRun_badPoint hw rfl hf))
  · exact serve_to pkVerifyRun rfl h (pkVerifyRun_ecdsa hw rfl hq)
  · exact meRefused_of (serve_to pkVerifyRun rfl h (pkVerifyRun_edBadKey hw he rfl rfl hk))
  · exact verdict_over (serve_to pkVerifyRun rfl h (pkVerifyRun_ed hw he rfl rfl hk))
  · exact rsaVerified_of (serve_to pkVerifyRun rfl h (pkVerifyRun_pss hw he))
  · exact rsaVerified_of (serve_exec (run := verifyV15Run) rfl h)

end Sys2Proof.Proofs.ClassicalSigs
end

section
/-!
PROOF. Diffie-Hellman with a given or a kept secret, RSA encryption and the raw RSA operations (06 R188-R195, R199, R201, R203).
-/
namespace Sys2Proof.Proofs.Agreement

open Sys2Proof.Machine Sys2Proof.Safety Sys2Proof.Laws

/-! ## DH: the peer's key is checked, then the result (06 R193, R194, R201, R203; log 171) -/

/-- The secret of a DH job, with a peer's key that the job gives or that it names by handle. -/
def dhAgreed (d : Dev) (b : Job) : Except (U16 × U16 × Bool) (Bytes × Bool) × Dev :=
  let byHandle := b.e.key1 != noHandle
  dhSecret d (jobCurve d b) (opSet b.e.opcode) (secretOf (jobKey0 d b)) (if byHandle then (jobKey1 d b).pub else b.inData) (!byHandle)
/-- CYCLES of a DH job: a key by handle has been checked (06 R210). -/
def dhJobCycles (d : Dev) (b : Job) : Nat :=
  if b.e.key1 != noHandle then dhHandleCycles (jobCurve d b) (opSet b.e.opcode) else dhCycles (jobCurve d b) (opSet b.e.opcode)

section
variable {keep : Bool} {d : Dev} {b : Job} {r : Except (U16 × U16 × Bool) (Bytes × Bool) × Dev} (hr : dhAgreed d b = r)
include hr

theorem dhRun_refuses {st det : U16} {late : Bool} (h : r.1 = .error (st, det, late)) : dhRun keep d b =
    if late then refuse r.2 b st det (dhJobCycles d b) else meRefuse r.2 b st det (pkValidCycles (jobCurve d b) (opSet b.e.opcode) 0) := by
  subst hr
  unfold dhAgreed at h
  simp only [dhRun, h, dhAgreed, dhJobCycles]

section
variable {z : Bytes} {ok : Bool} (h : r.1 = .ok (z, ok))
include h

theorem dhRun_agreed : dhRun keep d b = if !ok || !ffOutOk (opSet b.e.opcode) z then resultCheck r.2 b (dhJobCycles d b)
    else if keep then keepSecret r.2 b z [] (dhJobCycles d b) else finishOut r.2 b z 0 0 0 (dhJobCycles d b) := by
  subst hr
  unfold dhAgreed at h
  simp only [dhRun, h, dhAgreed, dhJobCycles]

theorem dhRun_badResult (hb : ok = false ∨ ffOutOk (opSet b.e.opcode) z = false) : dhRun keep d b = resultCheck r.2 b (dhJobCycles d b) :=
  (dhRun_agreed hr h).trans <| if_pos (by rw [Bool.or_eq_true, Bool.not_eq_true', Bool.not_eq_true']; exact hb)

theorem dhRun_gives (ho : ok = true) (hf : ffOutOk (opSet b.e.opcode) z = true) : dhRun keep d b =
    if keep then keepSecret r.2 b z [] (dhJobCycles d b) else finishOut r.2 b ([] ++ z) 0 0 0 (dhJobCycles d b) :=
  (dhRun_agreed hr h).trans <| if_neg (by rw [ho, hf]; decide)

end
end

theorem dh_exec {keep : Bool} {s : State} {b : Job} {d1 : Dev} (h : JobReady s.dev b.id (isOp 5 (if keep then 0x0A else 9)) b)
    (e : dhRun keep s.dev b = d1) : exec (if keep then .dhKeep b.id else .dh b.id) s = .next { s with dev := d1 } := by
  cases keep with
  | true => exact serve_to (dhRun true) rfl h e
  | false => exact serve_to (dhRun false) rfl h e

section
variable {d : Dev} {b : Job}

/-! ## ENCRYPT: the key's form, then the length of the message (06 R190, R199) -/

section
variable {n : Nat} (hn : (if hasKey0 b then rsaLenOf (jobKey0 d b) else modkLen (pbits b.e 24 3)) = n)
  {pk label : Bytes} (hk : jobPk d b (4 + n) = (pk, label))
include hn hk

theorem encryptRun_badKey {f : U16 × U16} (hf : rsaKeyFault pk = some f) :
    encryptRun d b = meRefuse d b f.1 f.2 (pkValidCycles {} 0x20 n) := by
  simp only [encryptRun, hn, hk, hf]

section
variable (hf : rsaKeyFault pk = none) {r : Bytes × Dev} (hr : draw d (hashLenOf (pkHash b.e)) = r) {em : Option Bytes}
  (he : oaepEncode (pkHash b.e) (hashLenOf (pkHash b.e)) label b.inData r.1 n = em)
include hf hr he

theorem encryptRun_tooLong (hm : em = none) : encryptRun d b = meRefuse d b stLength 1 (pkValidCycles {} 0x20 n) := by
  simp only [encryptRun, hn, hk, hf, hr, he, hm]

theorem encryptRun_encrypts {x : Bytes} (hm : em = some x) : encryptRun d b =
    finishOut r.2 b (beBytes n (powMod (beNat x) (rsaE pk) (rsaN pk))) 0 0 0
      (rsaPub n (rsaE pk) + 400 + hashCost (pkHash b.e) label.length) := by
  simp only [encryptRun, hn, hk, hf, hr, he, hm]

end
end

/-! ## DECRYPT and PRIV_RAW: the operand's range, then the result against the public exponent (06 R190, R199, R203) -/

/-- The operands 0, 1 and n − 1, which PRIV_RAW refuses (06 R190). -/
theorem trivialOperand_guard {x n : Nat} : (decide (x = 0) || decide (x = 1) || decide (x = n - 1)) = true ↔ x = 0 ∨ x = 1 ∨ x = n - 1 := by
  rw [Bool.or_eq_true, Bool.or_eq_true, decide_eq_true_eq, decide_eq_true_eq, decide_eq_true_eq, or_assoc]

section
variable {k : KObj} (hk : jobKey0 d b = k) {x : Nat} (hx : beNat b.inData = x)
include hk hx

theorem decryptRun_outOfRange (hl : rsaN k.pub ≤ x) : decryptRun d b = meRefuse d b stRange 0x0503 (pkValidCycles {} 0x20 (rsaLenOf k)) := by
  subst hk hx
  exact if_pos hl

theorem privRawRun_outOfRange (hl : rsaN k.pub ≤ x) : privRawRun d b = meRefuse d b stRange 0x0503 (pkValidCycles {} 0x20 (rsaLenOf k)) := by
  subst hk hx
  exact if_pos hl

variable (hl : x < rsaN k.pub)
include hl

theorem privRawRun_trivial (ht : x = 0 ∨ x = 1 ∨ x = rsaN k.pub - 1) :
    privRawRun d b = meRefuse d b stRange 0x0504 (pkValidCycles {} 0x20 (rsaLenOf k)) := by
  subst hk hx
  exact (if_neg (Nat.not_le.2 hl)).trans <| if_pos (trivialOperand_guard.2 ht)

variable {z : RsaBlind × Dev} (hz : rsaBlind d k.pub = z) {y : Nat} (hy : rsaPrivOp (secretOf k) k.pub (rsaLenOf k) x z.1 = y)
include hz hy

section
variable {cyc : Nat} (hc : rsaPriv (rsaLenOf k) + 400 + hashCost (pkHash b.e) (ownAux b).length = cyc)
include hc

theorem decryptRun_badResult (he : powMod y (rsaE k.pub) (rsaN k.pub) ≠ x) : decryptRun d b = resultCheck z.2 b cyc := by
  subst hk hx hz hy hc
  exact (if_neg (Nat.not_le.2 hl)).trans (if_pos he)

section
variable (he : powMod y (rsaE k.pub) (rsaN k.pub) = x) {plain : Option Bytes}
  (hp : oaepDecode (pkHash b.e) (hashLenOf (pkHash b.e)) (ownAux b) (beBytes (rsaLenOf k) y) = plain)
include he hp

theorem decryptRun_fails (hm : plain = none) : decryptRun d b = finish z.2 { b with cycles := cyc, outLen := 0 } stDecryptFailed 0 := by
  subst hm hk hx hz hy hc
  simp only [decryptRun, if_neg (Nat.not_le.2 hl), if_neg (not_not_intro he), hp]

theorem decryptRun_decrypts {p : Bytes} (hm : plain = some p) : decryptRun d b = finishOut z.2 b p 0 0 0 cyc := by
  subst hm hk hx hz hy hc
  simp only [decryptRun, if_neg (Nat.not_le.2 hl), if_neg (not_not_intro he), hp]

end
end

theorem privRawRun_raises (ht : ¬ (x = 0 ∨ x = 1 ∨ x = rsaN k.pub - 1)) : privRawRun d b =
    if powMod y (rsaE k.pub) (rsaN k.pub) ≠ x then resultCheck z.2 b (rsaPriv (rsaLenOf k))
    else finishOut z.2 b (beBytes (rsaLenOf k) y) 0 0 0 (rsaPriv (rsaLenOf k)) := by
  subst hk hx hz hy
  exact (if_neg (Nat.not_le.2 hl)).trans <| if_neg fun h => ht (trivialOperand_guard.1 h)

end

/-! ## PUB_RAW: the operand's range, then the key's form (06 R188, R190, R199) -/

section
variable {n : Nat} (hn : (if hasKey0 b then rsaLenOf (jobKey0 d b) else modkLen (pbits b.e 24 3)) = n)
  {pk : Bytes} (hk : (jobPk d b (4 + n)).1 = pk) {x : Nat} (hx : beNat b.inData = x)
include hn hk hx

theorem pubRawRun_outOfRange (hl : rsaN pk ≤ x) : pubRawRun d b = meRefuse d b stRange 0x0503 (pkValidCycles {} 0x20 n) := by
  subst hn hk hx
  exact if_pos hl

variable (hl : x < rsaN pk)
include hl

theorem pubRawRun_badKey {f : U16 × U16} (hf : rsaKeyFault pk = some f) :
    pubRawRun d b = meRefuse d b f.1 f.2 (pkValidCycles {} 0x20 n) := by
  simp only [pubRawRun, hn, hk, hx, if_neg (Nat.not_le.2 hl), hf]

theorem pubRawRun_raises (hf : rsaKeyFault pk = none) :
    pubRawRun d b = finishOut d b (beBytes n (powMod x (rsaE pk) (rsaN pk))) 0 0 0 (rsaPub n (rsaE pk)) := by
  simp only [pubRawRun, hn, hk, hx, if_neg (Nat.not_le.2 hl), hf]

end
end

/-! ## The statement -/

/-- Settles O33: a ready job runs its routine, whose branches are the equations above. A peer's key of another loaded curve is judged on KEY0's
curve (log 171). -/
theorem agreementAndEncryptionResults : Obligations.AgreementAndEncryptionResults := by
  unfold Obligations.AgreementAndEncryptionResults
  dsimp only
  refine ⟨fun keep s b h => ⟨fun st det hr => ?_, fun st det hr => ?_, fun z ok hr => ⟨fun hb => ?_, fun ho hf => ?_⟩⟩,
    fun s b h => ⟨fun f hf => ?_, fun hf hm => ?_, fun x hf hm => ?_⟩,
    fun s b h => ⟨fun hl => ?_, fun hl he => ?_, fun hl he => ⟨fun hp => ?_, fun p hp => ?_⟩⟩,
    fun s b h => ⟨fun hl => ?_, fun hl ht => ?_, fun hl ht he => ?_, fun hl ht he => ?_⟩,
    fun s b h => ⟨fun hl => ?_, fun f hl hf => ?_, fun hl hf => ?_⟩⟩
  · exact meRefused_of (dh_exec h (dhRun_refuses rfl hr))
  · exact refuse_over (dh_exec h (dhRun_refuses rfl hr))
  · exact dh_exec h (dhRun_badResult rfl hr hb)
  · exact Kem.secret_given (out := []) (dh_exec h (dhRun_gives rfl hr ho hf))
  · exact meRefused_of (serve_to encryptRun rfl h (encryptRun_badKey rfl rfl hf))
  · exact meRefused_of (serve_to encryptRun rfl h (encryptRun_tooLong rfl rfl hf rfl rfl hm))
  · exact jobDone_of (serve_to encryptRun rfl h (encryptRun_encrypts rfl rfl hf rfl rfl hm))
  · exact meRefused_of (serve_to decryptRun rfl h (decryptRun_outOfRange rfl rfl hl))
  · exact serve_to decryptRun rfl h (decryptRun_badResult rfl rfl hl rfl rfl rfl he)
  · exact jobOver_of (serve_to decryptRun rfl h (decryptRun_fails rfl rfl hl rfl rfl rfl he rfl hp))
  · exact jobDone_of (serve_to decryptRun rfl h (decryptRun_decrypts rfl rfl hl rfl rfl rfl he rfl hp))
  · exact meRefused_of (serve_to privRawRun rfl h (privRawRun_outOfRange rfl rfl hl))
  · exact meRefused_of (serve_to privRawRun rfl h (privRawRun_trivial rfl rfl hl ht))
  · exact serve_to privRawRun rfl h ((privRawRun_raises rfl rfl hl rfl rfl ht).trans (if_pos he))
  · exact jobDone_of (serve_to privRawRun rfl h ((privRawRun_raises rfl rfl hl rfl rfl ht).trans (if_neg (not_not_intro he))))
  · exact meRefused_of (serve_to pubRawRun rfl h (pubRawRun_outOfRange rfl rfl rfl hl))
  · exact meRefused_of (serve_to pubRawRun rfl h (pubRawRun_badKey rfl rfl rfl hl hf))
  · exact jobDone_of (serve_to pubRawRun rfl h (pubRawRun_raises rfl rfl rfl hl hf))

end Sys2Proof.Proofs.Agreement
end

section
/-!
PROOF. Scalar and control instructions of a polynomial core, and where they end the job (07 R213, R216-R219, R226, R227, R237-R246).
-/
namespace Sys2Proof.Proofs.PyScalar

open Sys2Proof.Machine Sys2Proof.Safety Sys2Proof.Laws

/-! ## The x registers (07 R213) -/

theorem xGet_zero (r : PyRegs) : xGet r 0 = 0 := if_pos rfl

theorem xSet_zero (r : PyRegs) (v : U64) : xSet r 0 v = r := if_pos rfl

theorem xGet_of_ne {r : PyRegs} {n : BitVec 5} (h : n ≠ 0) : xGet r n = r.x[n.toNat]'n.isLt := if_neg h

theorem xGet_xSet_self {n : BitVec 5} (h : n ≠ 0) (r : PyRegs) (v : U64) : xGet (xSet r n v) n = v := by
  rw [xGet_of_ne h, xSet, if_neg h]
  exact Vector.getElem_set_self _

theorem xGet_xSet_ne {n k : BitVec 5} (h : k ≠ n) (r : PyRegs) (v : U64) : xGet (xSet r n v) k = xGet r k := by
  by_cases hk : k = 0
  · rw [hk, xGet_zero, xGet_zero]
  by_cases hn : n = 0
  · rw [hn, xSet_zero]
  · rw [xGet_of_ne hk, xGet_of_ne hk, xSet, if_neg hn]
    exact Vector.getElem_set_ne n.isLt k.isLt fun e => h (BitVec.eq_of_toNat_eq e.symm)

/-- Settles O7: a read and a write of x0 take the branch of their own, and every other register is its place in the vector. -/
theorem zeroRegister : Obligations.ZeroRegister := by
  unfold Obligations.ZeroRegister
  exact fun r n v => ⟨xGet_zero r, xSet_zero r v, fun hn => xGet_xSet_self hn r v, fun _ hk => xGet_xSet_ne hk r v⟩

/-! ## VCFG (07 R219) -/

/-- Settles O5: VCFG is legal in every form (imm[11:6] is ignored, log 133), and VLMAX is computed from SEW and G. -/
theorem vcfgResult : Obligations.VcfgResult := by
  unfold Obligations.VcfgResult
  refine ⟨fun s p f b io h => pyExec_of (word := encI 0x10 0 f) (op := opVcfg f) rfl h rfl rfl rfl rfl rfl rfl rfl rfl rfl, ?_⟩
  intro r sew g n hn hs hg
  rw [vlmaxOf, hs, hg]
  have table : ∀ x ∈ [(8, 1, 256), (8, 2, 512), (8, 4, 1024), (8, 8, 2048), (16, 1, 128), (16, 2, 256), (16, 4, 512), (16, 8, 1024),
      (32, 1, 64), (32, 2, 128), (32, 4, 256), (32, 8, 512), (64, 1, 32), (64, 2, 64), (64, 4, 128), (64, 8, 256)],
      2048 * x.2.1 / x.1 = x.2.2 := by decide
  exact table _ hn

/-! ## Scalar results (07 R244, R245) -/

theorem aluSlt_eq (a b : U64) : aluSlt a b = if a.toInt < b.toInt then 1 else 0 := bit01_if _

theorem aluSltu_eq (a b : U64) : aluSltu a b = if a.toNat < b.toNat then 1 else 0 := bit01_if _

theorem aluSeq_eq (a b : U64) : aluSeq a b = if a = b then 1 else 0 := by
  by_cases h : a = b
  · rw [if_pos h, aluSeq, beq_iff_eq.2 h, bit01, if_pos rfl]
  · rw [if_neg h, aluSeq, beq_eq_false_iff_ne.2 h, bit01, if_neg Bool.false_ne_true]

theorem aluMin_eq (a b : U64) : aluMin a b = if b.toInt < a.toInt then b else a := by
  simp only [aluMin, BitVec.slt, decide_eq_true_eq]

theorem aluMax_eq (a b : U64) : aluMax a b = if a.toInt < b.toInt then b else a := by
  simp only [aluMax, BitVec.slt, decide_eq_true_eq]

theorem aluMinu_eq (a b : U64) : aluMinu a b = if b.toNat < a.toNat then b else a := by
  simp only [aluMinu, BitVec.ult, decide_eq_true_eq]

theorem aluMaxu_eq (a b : U64) : aluMaxu a b = if a.toNat < b.toNat then b else a := by
  simp only [aluMaxu, BitVec.ult, decide_eq_true_eq]

theorem plainA_of {f : FmtA} (hm : f.m = false) (hk : f.k = 0) (hx : f.x = 0) : plainA f = true := by
  simp only [plainA, hm, hk, hx]
  rfl

/-- Settles O1: each instruction is `scalarA` or `scalarI` with its function. How a negative quotient rounds is the model's reading
(log 48). -/
theorem scalarResults : Obligations.ScalarResults := by
  unfold Obligations.ScalarResults
  refine ⟨⟨scalarA_ok (fun _ _ _ => rfl) fun _ _ => rfl, scalarA_ok (fun _ _ _ => rfl) fun _ _ => rfl,
      scalarA_ok (fun _ _ _ => rfl) fun _ _ => rfl, scalarA_ok (fun _ _ _ => rfl) fun _ _ => rfl,
      scalarA_ok (fun _ _ _ => rfl) fun _ _ => rfl, scalarA_ok (fun _ _ _ => rfl) fun _ _ => rfl,
      scalarA_ok (fun _ _ _ => rfl) fun _ _ => rfl, scalarA_ok (fun _ _ _ => rfl) fun _ _ => rfl,
      scalarA_ok (fun _ _ _ => rfl) aluSlt_eq, scalarA_ok (fun _ _ _ => rfl) aluSltu_eq, scalarA_ok (fun _ _ _ => rfl) aluSeq_eq,
      scalarA_ok (fun _ _ _ => rfl) aluMin_eq, scalarA_ok (fun _ _ _ => rfl) aluMax_eq,
      scalarA_ok (fun _ _ _ => rfl) aluMinu_eq, scalarA_ok (fun _ _ _ => rfl) aluMaxu_eq, fun s p f b io h hm hk hx => ?_⟩,
    ⟨scalarA_ok (fun _ _ _ => rfl) fun _ _ => rfl, scalarA_ok (fun _ _ _ => rfl) fun _ _ => rfl,
      scalarA_ok (fun _ _ _ => rfl) fun _ _ => rfl, scalarA_ok (fun _ _ _ => rfl) fun _ _ => rfl,
      scalarA_ok (fun _ _ _ => rfl) fun _ _ => rfl, scalarA_ok (fun _ _ _ => rfl) fun _ _ => rfl,
      scalarA_ok (fun _ _ _ => rfl) fun _ _ => rfl⟩,
    scalarI_ok (fun _ _ _ => rfl) fun _ _ => rfl, scalarI_ok (fun _ _ _ => rfl) fun _ _ => rfl,
    scalarI_ok (fun _ _ _ => rfl) fun _ _ => rfl, scalarI_ok (fun _ _ _ => rfl) fun _ _ => rfl,
    scalarI_ok (fun _ _ _ => rfl) fun _ _ => rfl, scalarI_ok (fun _ _ _ => rfl) fun _ _ => rfl,
    scalarI_ok (fun _ _ _ => rfl) fun _ _ => rfl, scalarI_ok (fun _ _ _ => rfl) aluSlt_eq, fun s p f b io h => ?_⟩
  · exact pyExec_of (word := encA 0x03 3 f) (op := opCsel f) rfl h (plainA_of hm hk hx) rfl rfl rfl rfl rfl rfl rfl rfl
  · exact pyExec_of (word := encU 0x02 0 f) (op := opLui f) rfl h rfl rfl rfl rfl rfl rfl rfl rfl rfl

/-! ## Scalar memory (07 R226, R227, R244) -/

/-- Settles O2: each width is the scalar load or the scalar store at that width. -/
theorem scalarMemoryResults : Obligations.ScalarMemoryResults := by
  unfold Obligations.ScalarMemoryResults
  exact ⟨⟨scalarLoad_ok fun _ _ _ => rfl, scalarLoad_ok fun _ _ _ => rfl, scalarLoad_ok fun _ _ _ => rfl, scalarLoad_ok fun _ _ _ => rfl⟩,
    scalarStore_ok (by decide) fun _ _ _ => rfl, scalarStore_ok (by decide) fun _ _ _ => rfl,
    scalarStore_ok (by decide) fun _ _ _ => rfl, scalarStore_ok (by decide) fun _ _ _ => rfl⟩

/-! ## Branches and jumps (07 R244, R245) -/

theorem slt_iff (a b : U64) : BitVec.slt a b = true ↔ a.toInt < b.toInt := decide_eq_true_iff

theorem ult_iff (a b : U64) : BitVec.ult a b = true ↔ a.toNat < b.toNat := decide_eq_true_iff

theorem not_slt_iff (a b : U64) : (!BitVec.slt a b) = true ↔ b.toInt ≤ a.toInt := by
  rw [Bool.not_eq_true', Bool.eq_false_iff, ne_eq, slt_iff, Int.not_lt]

theorem not_ult_iff (a b : U64) : (!BitVec.ult a b) = true ↔ b.toNat ≤ a.toNat := by
  rw [Bool.not_eq_true', Bool.eq_false_iff, ne_eq, ult_iff, Nat.not_lt]

theorem scalarAddr_pxAt (s : State) (p : PyAt) (w : U32) (b : Job) (io : JobIo) (a : BitVec 5) (imm : BitVec 12) :
    scalarAddr (pxAt s.dev p w b io) a imm = (xGet (live s p) a + imm.signExtend 64).toNat := by
  rw [scalarAddr, pxAt_x]
  rfl

theorem linkAddr_pxAt (s : State) (p : PyAt) (w : U32) (b : Job) (io : JobIo) :
    linkAddr (pxAt s.dev p w b io) = BitVec.ofNat 64 ((regsAt s.dev p.core w).pc.toNat + 4) := rfl

section
variable {s : State} {p : PyAt} {b : Job} {io : JobIo} (h : PyGo s p b io)
include h

theorem jal_goes {f : FmtJ} {target : Int} (e : target = (live s p).pc.toNat + 4 * f.off.toInt) (ht : inProgram io target) :
    PyExec (.jal p f) s p b fun r => { xSet r f.d (BitVec.ofNat 64 (r.pc.toNat + 4)) with pc := BitVec.ofInt 16 target } := by
  have e' : target = (pxAt s.dev p (encJ 0x05 6 f) b io).r.pc.toNat + 4 * f.off.toInt := by rw [pxAt_pc]; exact e
  refine pyExec_of (word := encJ 0x05 6 f) (op := opJal f) rfl h rfl rfl (opJal_body f _ target e' ht) rfl rfl rfl rfl rfl ?_
  rw [retired_jal _ _ _ _ _ rfl, linkAddr_pxAt]
  rfl

theorem jalr_goes {f : FmtI} {target : Nat} (e : target = (xGet (live s p) f.a + f.imm.signExtend 64).toNat / 4 * 4)
    (ht : inProgram io target) :
    PyExec (.jalr p f) s p b fun r => { xSet r f.d (BitVec.ofNat 64 (r.pc.toNat + 4)) with pc := BitVec.ofNat 16 target } := by
  rw [← scalarAddr_pxAt s p (encI 0x05 7 f) b io] at e
  refine pyExec_of (word := encI 0x05 7 f) (op := opJalr f) rfl h rfl rfl (opJalr_body f _ target e ht) rfl rfl rfl rfl rfl ?_
  rw [retired_jal _ _ _ _ _ rfl, linkAddr_pxAt]
  rfl

end

/-- Settles O3: a taken branch and a jump go to their target, which lies in the program. The target of a branch that is not taken is not
checked (log 134). -/
theorem branchAndJumpResults : Obligations.BranchAndJumpResults := by
  unfold Obligations.BranchAndJumpResults
  exact ⟨branch_ok (fun _ _ _ => rfl) fun _ _ => beq_iff_eq, branch_ok (fun _ _ _ => rfl) fun _ _ => bne_iff_ne,
    branch_ok (fun _ _ _ => rfl) slt_iff, branch_ok (fun _ _ _ => rfl) not_slt_iff,
    branch_ok (fun _ _ _ => rfl) ult_iff, branch_ok (fun _ _ _ => rfl) not_ult_iff,
    fun _ _ _ _ _ h ht => jal_goes h rfl ht, fun _ _ _ _ _ h ht => jalr_goes h rfl ht⟩

/-! ## Faults (07 R237, R239, R242; 09 R301) -/

/-- A read of a register other than x0 before its result lands is a hazard, and so is a unit that is still busy. -/
theorem hazard_scalarA {px q : Px} {lat unit occ : Nat} {op : U64 → U64 → U64} {f : FmtA}
    (h : (f.a ≠ 0 ∧ px.t < mapGet 0 (getCore px.d px.c).land f.a.toNat) ∨ px.t < mapGet 0 (getCore px.d px.c).free unit) :
    hazard px (withLat q ((scalarA lat unit occ op f).use px)) = true := by
  unfold hazard
  rw [withLat_reads, withLat_units]
  rcases h with ⟨hne, hland⟩ | hfree
  · have hn : f.a.toNat ≠ 0 := fun e => hne (BitVec.eq_of_toNat_eq e)
    simp [scalarA, rx, hn, hland]
  · simp [scalarA, hfree]

/-- Settles O6: a clause names the check of the instruction that fails, its form, its body or the hazard checker. -/
theorem scalarFaults : Obligations.ScalarFaults := by
  unfold Obligations.ScalarFaults
  dsimp only
  refine ⟨⟨fun s p f b io h ho => ⟨fun ha => ?_, fun ha => ?_, fun ha => ?_, fun ha ht => ?_⟩,
    fun s p f b io h ho => ⟨fun ha => ?_, fun ha ht => ?_, fun hc hn => ?_⟩,
    fun s p f b io h ho hm => ⟨?_, ?_, ?_⟩, fun s p f b io h ho => ⟨fun hn => ?_, fun hn => ?_, fun hn => ?_⟩⟩,
    fun s p f b io h ho hm hk hx hz => ?_⟩
  · exact load_misaligned_faults rfl h ho ha
  · exact load_misaligned_faults rfl h ho ha
  · exact load_misaligned_faults rfl h ho ha
  · exact load_outside_faults rfl h ho ha ht
  · exact (st_flt rfl h ho).1 ha
  · exact (st_flt rfl h ho).2 ha ht
  · exact br_flt rfl h ho (beq_iff_eq.2 hc) hn
  · exact scalarA_ill rfl h ho hm
  · exact pyFaults_illegal (op := opCsel f) rfl h ho (plainA_not hm)
  · exact scalarA_ill rfl h ho hm
  · exact pyFaults_illegal (op := opCcrr f) rfl h ho (decide_eq_false (Nat.not_le.2 hn))
  · refine pyFaults_illegal (op := opCcrw f) rfl h ho (decide_eq_false ?_)
    rw [Bool.and_eq_true, decide_eq_true_eq, decide_eq_true_eq]
    rintro ⟨h1, h6⟩
    rcases hn with h0 | hn
    · rw [h0] at h1
      exact absurd h1 (by decide)
    · omega
  · exact pyFaults_illegal (op := opIdle f) rfl h ho (decide_eq_false (Int.not_lt.2 hn))
  · exact pyFaults_hazard (op := opMul f) rfl h ho (plainA_of hm hk hx) (hazard_scalarA hz)

end Sys2Proof.Proofs.PyScalar
end

section
/-!
PROOF. Vector loads and stores, and where vector words end the job (07 R220, R222, R226, R227, R237, R238, R248, R249).
-/
namespace Sys2Proof.Proofs.PyVector

open Sys2Proof.Machine Sys2Proof.Safety Sys2Proof.Laws

/-! ## Loads and stores (07 R226, R227, R249) -/

/-- The address of a word does not depend on its encoding. -/
theorem vecAddr_pxAt (d : Dev) (p : PyAt) (w : U32) (b : Job) (io : JobIo) (f : FmtM) :
    vecAddr (pxAt d p w b io) f = vecAddr (pxAt d p 0 b io) f := rfl

section
variable {f : FmtM} {px : Px} {a : Nat} (hx : vecAddr px f = a) (ha : a % 32 = 0)
include hx ha

theorem opVkld_body {tc off : Nat} (ht : tilePlace px a 32 = some (tc, off)) (he : elStop px a 32 false = none)
    (hs : lineStale px tc (off / 256) = false) : (opVkld f).body px
      = .next (freeUse { px with r := mPut px.r f.v.toNat (BitVec.ofNat 256 (leNat (memRead (getCore px.d tc).tile off 32))) } 4) := by
  simp only [opVkld, hx, ha, he, vkld_ok ha ht hs]
  rfl

theorem opVkst_body (he : elStop px a 32 true = none) :
    (opVkst f).body px = .next (tileWrite px a 32 (mReg px.r f.v.toNat).toNat) := by
  simp only [opVkst, hx, ha, he]
  rfl

end

theorem elStop_store {px : Px} {a n : Nat} {x : Nat × Nat} (ht : tilePlace px a n = some x) (hp : pageAt px a = none) :
    elStop px a n true = none := by
  simp only [elStop, ht, hp]
  rfl

section
variable {i : Instr} {s : State} {p : PyAt} {f : FmtM} {b : Job} {io : JobIo} {w : U32} {tc off : Nat} (h : PyGo s p b io)
  (hm : f.m = false) (hv : f.v.toNat < 8) (ha : vecAddr (pxAt s.dev p 0 b io) f % 32 = 0)
  (ht : tilePlace (pxAt s.dev p 0 b io) (vecAddr (pxAt s.dev p 0 b io) f) 32 = some (tc, off))
include h hm hv ha ht

theorem vkld_loads (hi : exec i s = onDev s (pyRun p w (opVkld f)))
    (he : elStop (pxAt s.dev p 0 b io) (vecAddr (pxAt s.dev p 0 b io) f) 32 false = none)
    (hs : lineStale (pxAt s.dev p 0 b io) tc (off / 256) = false) :
    PyExec i s p b fun r => nextV (mPut r f.v.toNat (BitVec.ofNat 256 (leNat (memRead (getCore s.dev tc).tile off 32)))) := by
  have hl : ((opVkld f).use (pxAt s.dev p w b io)).legal = true := by simp only [opVkld, hm, decide_eq_true hv]; rfl
  exact pyExec_of hi h hl rfl (opVkld_body (vecAddr_pxAt s.dev p w b io f) ha ht he hs) rfl rfl rfl rfl rfl (retired_vec _ _ rfl rfl)

theorem vkst_stores (hi : exec i s = onDev s (pyRun p w (opVkst f)))
    (hp : pageAt (pxAt s.dev p 0 b io) (vecAddr (pxAt s.dev p 0 b io) f) = none) (hw : memWf (getCore s.dev tc).tile) :
    Completes i s fun d' => ∃ w,
      PyStored s.dev d' p.core b (nextV (regsAt s.dev p.core w)) tc off (leBytes 32 (mReg (live s p) f.v.toNat).toNat) := by
  have hl : ((opVkst f).use (pxAt s.dev p w b io)).legal = true := by simp only [opVkst, hm, decide_eq_true hv]; rfl
  obtain ⟨t, hx, hq, hst⟩ := pyStored_of hi h hl rfl (opVkst_body (vecAddr_pxAt s.dev p w b io f) ha (elStop_store ht hp)) ht
    (by decide) hw (retired_vec _ _ rfl rfl)
  exact ⟨t, hx, hq, w, hst⟩

end

/-- Settles O9: the aligned and the unaligned form are the same load and store with another alignment; VKLD reads its string in four
parts. -/
theorem vectorMemoryResults : Obligations.VectorMemoryResults := by
  unfold Obligations.VectorMemoryResults
  exact ⟨vecLoad_ok (fun _ _ _ => rfl) fun _ => rfl, vecLoad_ok (fun _ _ _ => rfl) fun _ => rfl,
    vecStore_ok (fun _ _ _ => rfl) (fun _ => rfl) (.inr rfl), vecStore_ok (fun _ _ _ => rfl) (fun _ => rfl) (.inl rfl),
    fun _ _ _ _ _ _ _ h hm hv ha ht he hs => vkld_loads h hm hv ha ht rfl he hs,
    fun _ _ _ _ _ _ _ h hm hv ha ht hp hw => vkst_stores h hm hv ha ht rfl hp hw⟩

/-! ## Illegal forms (07 R220, R222, R237, R248) -/

section
variable {f : FmtA} {px : Px}

theorem vecA_illegal {lat unit occ : Nat} {op : Px → Nat → Nat → Nat → Nat} {acc : Bool} {ok : PyRegs → Bool} {q g : Bool}
    (hf : ¬ aligned f.d (grpOf px.r) ∨ ¬ aligned f.a (grpOf px.r) ∨ 2 < f.x.toNat ∨ (f.m = true ∧ 256 < vlmaxOf px.r)) :
    ((vecA lat unit occ op f acc ok q g).use px).legal = false := by
  refine Bool.eq_false_iff.2 fun hl => ?_
  simp only [vecA, bOk, maskOk, Bool.and_eq_true, Bool.or_eq_true, Bool.not_eq_true', decide_eq_true_eq] at hl
  obtain ⟨⟨⟨⟨hd, ha⟩, hx, -⟩, hm⟩, -⟩ := hl
  rcases hf with hf | hf | hf | ⟨hf, hv⟩
  · exact hf hd
  · exact hf ha
  · omega
  · rcases hm with hm | hm
    · rw [hf] at hm; cases hm
    · omega

theorem vecU_illegal {lat unit occ : Nat} {op : Px → Nat → Nat} {ok : PyRegs → Bool} {q g : Bool}
    (hf : ¬ aligned f.d (grpOf px.r) ∨ ¬ aligned f.a (grpOf px.r) ∨ 2 < f.x.toNat ∨ (f.m = true ∧ 256 < vlmaxOf px.r)) :
    ((vecU lat unit occ op f ok q g).use px).legal = false := by
  refine Bool.eq_false_iff.2 fun hl => ?_
  simp only [vecU, maskOk, Bool.and_eq_true, Bool.or_eq_true, Bool.not_eq_true', decide_eq_true_eq] at hl
  obtain ⟨⟨⟨⟨hd, ha⟩, hx⟩, hm⟩, -⟩ := hl
  rcases hf with hf | hf | hf | ⟨hf, hv⟩
  · exact hf hd
  · exact hf ha
  · omega
  · rcases hm with hm | hm
    · rw [hf] at hm; cases hm
    · omega

theorem vecCmp_illegal {op : Nat → Nat → Nat → Bool} (hd : 8 ≤ f.d.toNat) : ((vecCmp op f).use px).legal = false := by
  simp [vecCmp, Nat.not_lt.2 hd]

theorem maskBits_illegal {op : BitVec 256 → BitVec 256 → BitVec 256} (hf : 8 ≤ f.d.toNat ∨ 2 < f.x.toNat) :
    ((maskBits op f).use px).legal = false := by
  rcases hf with hd | hx
  · simp [maskBits, Nat.not_lt.2 hd]
  · simp [maskBits, Nat.not_le.2 hx]

theorem opVext_illegal (hf : vlmaxOf px.r ≤ (xGet px.r f.b).toNat ∨ 2 < f.x.toNat) : ((opVext f).use px).legal = false := by
  rcases hf with hi | hx
  · simp [opVext, Nat.not_lt.2 hi]
  · simp [opVext, Nat.not_le.2 hx]

theorem opVins_illegal (hf : vlmaxOf px.r ≤ (xGet px.r f.b).toNat ∨ 2 < f.x.toNat) : ((opVins f).use px).legal = false := by
  rcases hf with hi | hx
  · simp [opVins, Nat.not_lt.2 hi]
  · simp [opVins, Nat.not_le.2 hx]

theorem opVcompr_illegal (hx : 2 < f.x.toNat) : ((opVcompr f).use px).legal = false := by
  simp [opVcompr, Nat.not_le.2 hx]

theorem opVsel_illegal (hm : f.m = true) : ((opVsel f).use px).legal = false := by
  simp [opVsel, hm]

end

/-! ## Accesses that fail (07 R227, R237, R238, R249) -/

/-- A load whose address is aligned ends as the first active element that stops it says; the elements before it are written. -/
theorem vecLoad_stops {al extra lat k : Nat} {f : FmtM} {px : Px} {st : ElStop}
    (ha : vecAddr px f % (if al = 0 then sewOf px.r / 8 else al) = 0)
    (hk : firstStop px (maskOf f.m f.k) (vecAddr px f) false = some (k, st)) :
    ∃ r, (vecLoad al extra lat f).body px = stopEnd (freeUse { px with r := r } 2048) k st := by
  refine ⟨vPartial px.r (maskOf f.m f.k) f.v k fun i => tileRead px (vecAddr px f + i * (sewOf px.r / 8)) (sewOf px.r / 8) i % 2 ^ sewOf px.r,
    (if_neg (not_not_intro ha)).trans ?_⟩
  rw [hk]

section
variable {i : Instr} {s : State} {p : PyAt} {f : FmtM} {b : Job} {io : JobIo} {w : U32} {al extra lat n : Nat} (h : PyGo s p b io)
  (ho : OwnQueues s.dev b) (hv : aligned f.v (grpOf (live s p))) (hm : maskOk (live s p) f.m)
  (hn : (if al = 0 then sewOf (live s p) / 8 else al) = n)
include h ho hv hm hn

theorem vecLoad_misaligned (hi : exec i s = onDev s (pyRun p w (vecLoad al extra lat f)))
    (ha : vecAddr (pxAt s.dev p 0 b io) f % n ≠ 0) : PyFaults i s b stAlign := by
  have hl : ((vecLoad al extra lat f).use (pxAt s.dev p w b io)).legal = true := Bool.and_eq_true_iff.2 ⟨hv, hm⟩
  subst hn
  exact pyFaults_body (q := pxAt s.dev p w b io) hi h ho hl rfl (if_pos ha) rfl rfl

theorem vecStore_misaligned (hi : exec i s = onDev s (pyRun p w (vecStore al extra f)))
    (ha : vecAddr (pxAt s.dev p 0 b io) f % n ≠ 0) : PyFaults i s b stAlign := by
  have hl : ((vecStore al extra f).use (pxAt s.dev p w b io)).legal = true := Bool.and_eq_true_iff.2 ⟨hv, hm⟩
  subst hn
  exact pyFaults_body (q := pxAt s.dev p w b io) hi h ho hl rfl (if_pos ha) rfl rfl

theorem vecLoad_outside (hi : exec i s = onDev s (pyRun p w (vecLoad al extra lat f)))
    (ha : vecAddr (pxAt s.dev p 0 b io) f % n = 0) {k : Nat}
    (hk : firstStop (pxAt s.dev p 0 b io) (maskOf f.m f.k) (vecAddr (pxAt s.dev p 0 b io) f) false = some (k, .fault)) :
    PyFaults i s b stVfault := by
  have hl : ((vecLoad al extra lat f).use (pxAt s.dev p w b io)).legal = true := Bool.and_eq_true_iff.2 ⟨hv, hm⟩
  subst hn
  obtain ⟨r, hb⟩ := vecLoad_stops (extra := extra) (lat := lat) (px := pxAt s.dev p w b io) ha hk
  exact pyFaults_free hi h ho hl rfl hb rfl rfl

end

/-- Settles O11: a clause names the check of the word that fails. Elements from VLMAX on do not exist (log 121). -/
theorem vectorFaults : Obligations.VectorFaults := by
  unfold Obligations.VectorFaults
  refine ⟨fun s p f b io h ho => ⟨fun hf => ⟨?_, ?_, ?_⟩, fun hd => ⟨?_, ?_⟩, fun hx => ⟨?_, ?_⟩, fun hx => ⟨?_, ?_, ?_, ?_⟩, fun hm => ?_⟩,
    fun s p f b io h ho hv hm => ⟨fun ha => ⟨?_, ?_⟩, fun ha => ⟨?_, ?_⟩, fun k ha hk => ?_⟩⟩
  · exact ill h ho ⟨_, rfl⟩ fun _ => vecA_illegal hf
  · exact ill h ho ⟨_, rfl⟩ fun _ => vecA_illegal hf
  · exact ill h ho ⟨_, rfl⟩ fun _ => vecU_illegal hf
  · exact ill h ho ⟨_, rfl⟩ fun _ => vecCmp_illegal hd
  · exact ill h ho ⟨_, rfl⟩ fun _ => maskBits_illegal (.inl hd)
  · exact ill h ho ⟨_, rfl⟩ fun _ => opVext_illegal (.inl hx)
  · exact ill h ho ⟨_, rfl⟩ fun _ => opVins_illegal (.inl hx)
  · exact ill h ho ⟨_, rfl⟩ fun _ => opVext_illegal (.inr hx)
  · exact ill h ho ⟨_, rfl⟩ fun _ => opVins_illegal (.inr hx)
  · exact ill h ho ⟨_, rfl⟩ fun _ => maskBits_illegal (.inr hx)
  · exact ill h ho ⟨_, rfl⟩ fun _ => opVcompr_illegal hx
  · exact ill h ho ⟨_, rfl⟩ fun _ => opVsel_illegal hm
  · exact vecLoad_misaligned h ho hv hm rfl rfl ha
  · exact vecStore_misaligned h ho hv hm rfl rfl ha
  · exact vecLoad_misaligned h ho hv hm rfl rfl ha
  · exact vecStore_misaligned h ho hv hm rfl rfl ha
  · exact vecLoad_outside h ho hv hm rfl rfl ha hk

end Sys2Proof.Proofs.PyVector
end

section
/-!
PROOF. Modular lanes, what their arithmetic computes, permutes and binary fields (07 R217, R218, R250-R252).
-/
namespace Sys2Proof.Proofs.PyModular

open Sys2Proof.Machine Sys2Proof.Safety Sys2Proof.Laws

/-! ## Arithmetic modulo q (07 R250) -/

theorem qSub_lt {q : Nat} (hq : 0 < q) (a b : Nat) : qSub q a b < q := Nat.mod_lt _ hq

theorem qSub_add_mod {q : Nat} (hq : 0 < q) (a b : Nat) : (qSub q a b + b) % q = a % q := by
  have hb : b % q < q := Nat.mod_lt b hq
  calc (qSub q a b + b) % q = (a + (q - b % q) + b) % q := Nat.mod_add_mod _ _ _
    _ = (a + q * (1 + b / q)) % q := by
      have hdiv : q * (b / q) + b % q = b := Nat.div_add_mod b q
      rw [Nat.mul_add, Nat.mul_one]
      congr 1
      omega
    _ = a % q := Nat.add_mul_mod_self_left _ _ _

/-- One step of Montgomery's division: an odd number becomes even by the odd modulus, and is halved. -/
def montHalf (q a : Nat) : Nat := (if a % 2 = 0 then a else a + q) / 2

theorem montDiv_succ (q n a : Nat) : montDiv q (n + 1) a = montDiv q n (montHalf q a) := rfl

theorem montHalf_mul_two_mod {q : Nat} (hq : q % 2 = 1) (a : Nat) : montHalf q a * 2 % q = a % q := by
  unfold montHalf
  split
  next he => rw [Nat.div_mul_cancel (Nat.dvd_of_mod_eq_zero he)]
  next ho => rw [Nat.div_mul_cancel (Nat.dvd_of_mod_eq_zero (by omega)), Nat.add_mod_right]

theorem montDiv_lt {q : Nat} (hq : 0 < q) (n a : Nat) : montDiv q n a < q := by
  induction n generalizing a with
  | zero => exact Nat.mod_lt a hq
  | succ n ih => rw [montDiv_succ]; exact ih _

theorem montDiv_mul_two_pow_mod {q : Nat} (hq : q % 2 = 1) (n a : Nat) : montDiv q n a * 2 ^ n % q = a % q := by
  induction n generalizing a with
  | zero => rw [Nat.pow_zero, Nat.mul_one]; exact Nat.mod_mod a q
  | succ n ih =>
    calc montDiv q (n + 1) a * 2 ^ (n + 1) % q
        = montDiv q n (montHalf q a) * 2 ^ n % q * 2 % q := by rw [montDiv_succ, Nat.pow_succ, ← Nat.mul_assoc, Nat.mod_mul_mod]
      _ = montHalf q a * 2 % q := by rw [ih, Nat.mod_mul_mod]
      _ = a % q := montHalf_mul_two_mod hq a

/-- Settles O13: the division by 2^n goes by n halvings, each of which keeps the residue. -/
theorem montgomeryArithmetic : Obligations.MontgomeryArithmetic := by
  unfold Obligations.MontgomeryArithmetic
  exact ⟨fun _ a b hq => ⟨qSub_lt hq a b, qSub_add_mod hq a b⟩,
    fun _ n a hq hodd => ⟨montDiv_lt hq n a, montDiv_mul_two_pow_mod hodd n a⟩⟩

/-! ## Modular lanes and butterflies (07 R217, R218, R250) -/

/-- Settles O12: each instruction is a lane operation or a butterfly with its function. -/
theorem modularLaneResults : Obligations.ModularLaneResults := by
  unfold Obligations.ModularLaneResults
  exact ⟨vmA_ok fun _ _ _ => rfl, vmA_ok fun _ _ _ => rfl, vmU_ok fun _ _ _ => rfl, vmA_ok fun _ _ _ => rfl,
    vmU_ok fun _ _ _ => rfl, vmU_ok fun _ _ _ => rfl, vmU_ok fun _ _ _ => rfl, vmA_ok fun _ _ _ => rfl,
    bflyQ_ok (op := bflyCt) fun _ _ _ => rfl, bflyQ_ok (op := bflyGs) fun _ _ _ => rfl,
    bflyT_ok (op := bflyCt) fun _ _ _ => rfl, bflyT_ok (op := bflyGs) fun _ _ _ => rfl⟩

/-! ## Permutes and binary fields (07 R218, R251, R252) -/

section
variable {i : Instr} {s : State} {p : PyAt} {f : FmtA} {b : Job} {io : JobIo} {w : U32} (h : PyGo s p b io)
include h

theorem vcompr_packs (hi : exec i s = onDev s (pyRun p w (opVcompr f))) (hm : f.m = true) (hx : f.x.toNat ≤ 2)
    (hd : aligned f.d (grpOf (live s p))) (ha : aligned f.a (grpOf (live s p))) (hk : maskOk (live s p) f.m) :
    PyExec i s p b fun r => nextV (packFront r f.d ((activeEls r (some f.k.toNat)).map (vEl r f.a))) := by
  have hl : ((opVcompr f).use (pxAt s.dev p w b io)).legal = true := by
    simp only [opVcompr, Bool.and_eq_true, decide_eq_true_eq]
    exact ⟨⟨⟨⟨hm, hd⟩, ha⟩, hx⟩, hk⟩
  have hmask : maskOf f.m f.k = some f.k.toNat := if_pos hm
  rw [← hmask]
  exact pyExec_of hi h hl rfl rfl rfl rfl rfl rfl rfl (retired_vec _ _ rfl rfl)

theorem vginv_inverts (hi : exec i s = onDev s (pyRun p w (opVginv f))) (hd : aligned f.d (grpOf (live s p)))
    (ha : aligned f.a (grpOf (live s p))) (hx : f.x.toNat ≤ 2) (hk : maskOk (live s p) f.m) (hg : vgOk (live s p)) :
    ∃ v, PyExec i s p b fun r => nextV (vWrite r (maskOf f.m f.k) f.d fun i => gfInv r.gfpoly.toNat v (vEl r f.a i)) := by
  have hl : ((opVginv f).use (pxAt s.dev p w b io)).legal = true := by
    simp only [opVginv, vecU, Bool.and_eq_true, decide_eq_true_eq]
    exact ⟨⟨⟨⟨hd, ha⟩, hx⟩, hk⟩, hg⟩
  exact ⟨freeAt (pxAt s.dev p w b io) 0, pyExec_of hi h hl rfl rfl rfl rfl rfl rfl rfl (retired_vec _ _ rfl rfl)⟩

theorem vgxp_transposes (hi : exec i s = onDev s (pyRun p w (opVgxp f))) (hd : aligned f.d 2) (ha : aligned f.a 2) (hx : f.x.toNat ≤ 2)
    (hk : maskOk (live s p) f.m) (hs : sewOf (live s p) = 64) (hg : grpOf (live s p) = 2) :
    PyExec i s p b fun r => nextV (vWrite r (maskOf f.m f.k) f.d fun i =>
      (List.range 64).foldl (fun acc j => acc + (vEl r f.a j >>> i % 2) <<< j) 0) := by
  rw [← hg] at hd ha
  have hl : ((opVgxp f).use (pxAt s.dev p w b io)).legal = true := by
    simp only [opVgxp, vecU, Bool.and_eq_true, decide_eq_true_eq, beq_iff_eq]
    exact ⟨⟨⟨⟨hd, ha⟩, hx⟩, hk⟩, hs, hg⟩
  exact pyExec_of hi h hl rfl rfl rfl rfl rfl rfl rfl (retired_vec _ _ rfl rfl)

end

/-- Settles O14. A slide by IMM7 where B names x0, and the elements behind the packed ones, are log 49; the value of an element without an
inverse is free (log 4). -/
theorem permuteAndFieldResults : Obligations.PermuteAndFieldResults := by
  unfold Obligations.PermuteAndFieldResults
  exact ⟨⟨permPair_ok fun _ _ _ => rfl, permPair_ok fun _ _ _ => rfl,
      slide_ok (op' := fun f p k i => if i < k then vEl p.r f.d i else vEl p.r f.a (i - k)) (fun _ _ _ => rfl) fun _ _ => rfl,
      slide_ok (op' := fun f p k i => if i + k < vlmaxOf p.r then vEl p.r f.a (i + k) else 0) (fun _ _ _ => rfl) fun _ _ => rfl,
      permT_ok (fun _ _ _ => rfl) fun _ => rfl, permT_ok (fun _ _ _ => rfl) fun _ => rfl, permT_ok (fun _ _ _ => rfl) fun _ => rfl,
      fun _ _ _ _ _ h hm hx hd ha hk => vcompr_packs h rfl hm hx hd ha hk⟩,
    vecA_ok (fun _ _ _ => rfl) (fun _ _ _ _ => rfl) s64H,
    vecA_ok (fun _ _ _ => rfl) (fun _ _ _ _ => Nat.shiftRight_eq_div_pow _ _) s64H,
    vgA_ok (op := fun poly a b _ => gfMul poly a b) fun _ _ _ => rfl,
    vecU_ok (op' := fun px a => gfMul px.r.gfpoly.toNat a a) (fun _ _ _ => rfl) (fun _ _ => rfl) vgOkH,
    vgA_ok (op := fun poly a b d => polyMod poly 32 (d ^^^ clmul 16 a b)) fun _ _ _ => rfl,
    fun _ _ _ _ _ h hd ha hx hk hg => vginv_inverts h rfl hd ha hx hk hg,
    fun _ _ _ _ _ h hd ha hx hk hs hg => vgxp_transposes h rfl hd ha hx hk hs hg⟩

end Sys2Proof.Proofs.PyModular
end

section
/-!
PROOF. Binary64 instructions (07 R213, R214, R217, R218, R253).
-/
namespace Sys2Proof.Proofs.PyFloat

open Sys2Proof.Machine Sys2Proof.Safety Sys2Proof.Laws

section
variable {i : Instr} {s : State} {p : PyAt} {f : FmtA} {b : Job} {io : JobIo} {w : U32} (h : PyGo s p b io)
  (hr : (live s p).frm.toNat ≤ 4) (hx : f.x = 0) (hm : f.m = false)
include hr hx hm

/-- The moves take X = 0, no mask and a rounding mode from 0 to 4. -/
theorem move_legal : (f.x == 0 && !f.m && rmOk (live s p)) = true := by
  rw [hx, hm, rmOk, decide_eq_true hr]
  rfl

include h

theorem fmvx_moves (hi : exec i s = onDev s (pyRun p w (opFmvx f))) : PyExec i s p b fun r => nextS (xSet r f.d (fGet r f.a)) :=
  pyExec_of hi h (move_legal hr hx hm) rfl rfl rfl rfl rfl rfl rfl rfl

theorem fmvf_moves (hi : exec i s = onDev s (pyRun p w (opFmvf f))) : PyExec i s p b fun r => nextS (fSet r f.d (xGet r f.a)) :=
  pyExec_of hi h (move_legal hr hx hm) rfl rfl rfl rfl rfl rfl rfl rfl

end

/-- Settles O15: each instruction is the form of one, two or three operands with its function of binary64. What IEEE 754 leaves open is free
(log 50), FNEG of a NaN is the canonical NaN (log 132), and the scalar form takes no mask (log 51). -/
theorem floatResults : Obligations.FloatResults := by
  unfold Obligations.FloatResults
  exact ⟨float2_ok fun _ _ _ => rfl, float2_ok fun _ _ _ => rfl, float2_ok fun _ _ _ => rfl, float2_ok fun _ _ _ => rfl,
    float1_ok fun _ _ _ => rfl, float2_ok fun _ _ _ => rfl, float2_ok fun _ _ _ => rfl, float1_ok fun _ _ _ => rfl,
    float3_ok fun _ _ _ => rfl, float3_ok fun _ _ _ => rfl, float3_ok fun _ _ _ => rfl,
    float1_ok fun _ _ _ => rfl, float1_ok fun _ _ _ => rfl, float1_ok fun _ _ _ => rfl,
    fun _ _ _ _ _ h hr hx hm => ⟨fmvx_moves h hr hx hm rfl, fmvf_moves h hr hx hm rfl⟩⟩

end Sys2Proof.Proofs.PyFloat
end

section
/-!
PROOF. Packing, the samplers, compression, rounding, hints and the norm check (07 R217, R254).
-/
namespace Sys2Proof.Proofs.PySample

open Sys2Proof.Machine Sys2Proof.Safety Sys2Proof.Laws

/-! ## Values modulo q (07 R254): what the free values stand for does not matter where the modulus has a meaning -/

section
variable {px : Px} {imm i : Nat} (hu : (qOf px.r != 0 && gamma2 (qOf px.r) imm != 0) = true)
include hu

theorem makeHint_eq (z r : Nat) : makeHint px imm i z r =
    if (decomposeQ (qOf px.r) (gamma2 (qOf px.r) imm) r).1 = (decomposeQ (qOf px.r) (gamma2 (qOf px.r) imm) (r + z)).1 then 0 else 1 := by
  obtain ⟨-, hg⟩ := Bool.and_eq_true_iff.1 hu
  rw [makeHint, highBits, highBits, decomp_eq px imm i r (bne_iff_ne.1 hg), decomp_eq px imm i (r + z) (bne_iff_ne.1 hg)]

theorem useHint_eq (x r : Nat) : useHint px imm i x r = useHintQ (qOf px.r) (gamma2 (qOf px.r) imm) x r := by
  obtain ⟨-, hg⟩ := Bool.and_eq_true_iff.1 hu
  simp only [useHint, useHintQ, decomp_eq px imm i r (bne_iff_ne.1 hg), if_neg (bne_iff_ne.1 hg)]

end

theorem vcompdEl_eq {px : Px} (hq : qOf px.r ≠ 0) (n i a : Nat) :
    vcompdEl px n i a = (2 ^ (n + 1) * (a % qOf px.r) + qOf px.r) / (2 * qOf px.r) % 2 ^ n := if_neg hq

theorem decompEl_eq {px : Px} {imm : Nat} (hq : qOf px.r ≠ 0) (hg : gamma2 (qOf px.r) imm ≠ 0) (i a : Nat) : decompEl px imm i a =
    let x := decomposeQ (qOf px.r) (gamma2 (qOf px.r) imm) a
    (x.1, (x.2 % (qOf px.r : Int)).toNat) := by
  rw [decompEl, decomp_eq px imm i a hg, modQ_eq px i _ hq]

theorem opVchkn_body {f : FmtA} {px : Px} (hq : qOf px.r ≠ 0) : (opVchkn f).body px =
    .next (freeUse { px with
      r := mWrite px.r (maskOf f.m f.k) f.d.toNat fun i =>
        decide ((xGet px.r f.b).toNat ≤ min (vEl px.r f.a i % qOf px.r) (qOf px.r - vEl px.r f.a i % qOf px.r)) } 256) := by
  simp only [opVchkn, if_neg hq]

theorem rejCand_eq (v i : Nat) (x : BitVec 3) :
    rejCand v x.toNat i = if x = 0 then bitsAt v (12 * i) 12 else bitsAt v (24 * i) 23 :=
  ite_congr (propext (BitVec.toNat_inj (y := 0))) (fun _ => rfl) fun _ => rfl

theorem maskOf_isSome (m : Bool) (k : BitVec 3) : (maskOf m k).isSome = m := by
  cases m <;> rfl

/-! ## The instructions that write two groups (07 R254) -/

section
variable {i : Instr} {s : State} {p : PyAt} {b : Job} {io : JobIo} {w : U32} (h : PyGo s p b io)
include h

/-- Free values of a pair of results: they are those of the instruction at its issue. -/
theorem sampPair_free {lat : Nat} {a d : BitVec 5} {ok : Bool} {msk : Option Nat} {res : Px → Nat → Nat × Nat}
    (hi : exec i s = onDev s (pyRun p w (sampPair lat a d ok msk res))) (hd : aligned d (grpOf (live s p))) (ha : aligned a (grpOf (live s p)))
    (hf : d.toNat + 2 * grpOf (live s p) ≤ 32) (hok : ok = true) (hk : maskOk (live s p) msk.isSome = true)
    (hres : ∀ px px' : Px, px.r = px'.r → px.d = px'.d → res px = res px') :
    ∃ v, PyExec i s p b fun r => nextV (vWrite2 r msk d v) :=
  ⟨res (pxAt s.dev p w b io), samp2_ok (op := fun _ => res (pxAt s.dev p w b io)) hi h hd ha hf hok hk fun px hr hdev => hres px _ hr hdev⟩

section
variable {f : FmtT} (hi : exec i s = onDev s (pyRun p w (opVdcmp f))) (hd : aligned f.d (grpOf (live s p)))
  (ha : aligned f.a (grpOf (live s p))) (hf : f.d.toNat + 2 * grpOf (live s p) ≤ 32) (h1 : f.imm.toNat ≤ 1)
include hi hd ha hf h1

theorem vdcmp_decomposes (hq : qOf (live s p) ≠ 0) (hg : gamma2 (qOf (live s p)) f.imm.toNat ≠ 0) :
    PyExec i s p b fun r => nextV (vWrite2 r none f.d fun i =>
      let x := decomposeQ (qOf r) (gamma2 (qOf r) f.imm.toNat) (vEl r f.a i)
      (x.1, (x.2 % (qOf r : Int)).toNat)) := by
  refine samp2_ok hi h hd ha hf (decide_eq_true h1) rfl fun px hpx _ => funext fun i => ?_
  have hr : qOf px.r = qOf (live s p) := by rw [hpx]; rfl
  exact decompEl_eq (hr ▸ hq) (hr ▸ hg) i _

theorem vdcmp_free : ∃ v, PyExec i s p b fun r => nextV (vWrite2 r none f.d v) := by
  refine sampPair_free h hi hd ha hf (decide_eq_true h1) rfl ?_
  rintro ⟨⟩ ⟨⟩ rfl rfl
  rfl

end

section
variable {f : FmtA} (hi : exec i s = onDev s (pyRun p w (opVp2r f))) (hd : aligned f.d (grpOf (live s p)))
  (ha : aligned f.a (grpOf (live s p))) (hf : f.d.toNat + 2 * grpOf (live s p) ≤ 32) (hx : f.x.toNat ≤ 2) (hk : maskOk (live s p) f.m)
include hi hd ha hf hx hk

theorem vp2r_rounds (hq : qOf (live s p) ≠ 0) :
    PyExec i s p b fun r => nextV (vWrite2 r (maskOf f.m f.k) f.d fun i =>
      let a : Int := (vEl r f.a i % qOf r : Nat)
      let t0 := centred a (2 ^ 13)
      (((a - t0) / 2 ^ 13).toNat, (t0 % (qOf r : Int)).toNat)) := by
  refine samp2_ok hi h hd ha hf (decide_eq_true hx) ((maskOf_isSome _ _).symm ▸ hk) fun px hpx _ => funext fun i => ?_
  have hr : qOf px.r = qOf (live s p) := by rw [hpx]; rfl
  exact p2rEl_eq px i _ (hr ▸ hq)

theorem vp2r_free : ∃ v, PyExec i s p b fun r => nextV (vWrite2 r (maskOf f.m f.k) f.d v) := by
  refine sampPair_free h hi hd ha hf (decide_eq_true hx) ((maskOf_isSome _ _).symm ▸ hk) ?_
  rintro ⟨⟩ ⟨⟩ rfl rfl
  rfl

end

/-! ## Packing, rejection and the norm check (07 R254) -/

section
variable {f : FmtT} (hd : aligned f.d (grpOf (live s p))) (ha : aligned f.a (grpOf (live s p))) (h1 : 1 ≤ f.imm.toNat)
  (h32 : f.imm.toNat ≤ 32)
include hd ha h1 h32

omit h in
theorem opVpack_legal : ((opVpack f).use (pxAt s.dev p w b io)).legal = true := by
  simp only [opVpack, Bool.and_eq_true, decide_eq_true_eq]
  exact ⟨⟨hd, ha⟩, h1, h32⟩

theorem vunpk_unpacks (hi : exec i s = onDev s (pyRun p w (opVunpk f))) : PyExec i s p b fun r =>
    nextV (vWrite r none f.d fun i => bitsAt (vGet r f.a.toNat (grpOf r)) (f.imm.toNat * i) f.imm.toNat) :=
  pyExec_of hi h (opVpack_legal hd ha h1 h32) rfl rfl rfl rfl rfl rfl rfl (retired_vec _ _ rfl rfl)

theorem vpack_packs (hi : exec i s = onDev s (pyRun p w (opVpack f))) : PyExec i s p b fun r =>
    let n := f.imm.toNat
    let vl := min r.vl.toNat (vlmaxOf r)
    let lo := n * r.vresume.toNat
    let bits := packBits n ((List.range vl).map (vEl r f.a))
    let old := vGet r f.d.toNat (grpOf r)
    let tail := if r.vtype.getLsbD 4 then 0 else old >>> max lo (n * vl)
    nextV (vPut r f.d.toNat (grpOf r)
      (old % 2 ^ lo + (if n * vl ≤ lo then 0 else (bits >>> lo) <<< lo) + tail <<< max lo (n * vl))) :=
  pyExec_of hi h (opVpack_legal hd ha h1 h32) rfl rfl rfl rfl rfl rfl rfl (retired_vec _ _ rfl rfl)

end

section
variable {f : FmtA} (ha : aligned f.a (grpOf (live s p))) (hk : maskOk (live s p) f.m)
include ha hk

theorem vrej_rejects (hi : exec i s = onDev s (pyRun p w (opVrej f))) (hd : aligned f.d (grpOf (live s p))) (hx : f.x.toNat ≤ 1) :
    PyExec i s p b fun r =>
      let cand := fun i =>
        if f.x = 0 then bitsAt (vGet r f.a.toNat (grpOf r)) (12 * i) 12 else bitsAt (vGet r f.a.toNat (grpOf r)) (24 * i) 23
      let ok := ((activeEls r (maskOf f.m f.k)).map cand).filter (· < qOf r)
      nextV (xSet (packFront r f.d ok) f.b (BitVec.ofNat 64 ok.length)) := by
  have hl : ((opVrej f).use (pxAt s.dev p w b io)).legal = true := by
    simp only [opVrej, Bool.and_eq_true, decide_eq_true_eq]
    exact ⟨⟨⟨hx, hd⟩, ha⟩, hk⟩
  simp only [← rejCand_eq]
  exact pyExec_of hi h hl rfl rfl rfl rfl rfl rfl rfl (retired_vec _ _ rfl rfl)

variable (hi : exec i s = onDev s (pyRun p w (opVchkn f))) (hd : f.d.toNat < 8) (hx : f.x.toNat ≤ 2)
include hd hx

omit h in
theorem opVchkn_legal : ((opVchkn f).use (pxAt s.dev p w b io)).legal = true := by
  simp only [opVchkn, Bool.and_eq_true, decide_eq_true_eq]
  exact ⟨⟨⟨hd, ha⟩, hx⟩, hk⟩

include hi

theorem vchkn_checks (hq : qOf (live s p) ≠ 0) : PyExec i s p b fun r => nextV (mWrite r (maskOf f.m f.k) f.d.toNat fun i =>
    let a := vEl r f.a i % qOf r
    decide ((xGet r f.b).toNat ≤ min a (qOf r - a))) := by
  exact pyExec_of hi h (opVchkn_legal ha hk hd hx) rfl (opVchkn_body (px := pxAt s.dev p w b io) hq) rfl rfl rfl rfl rfl
    (retired_vec _ _ rfl rfl)

theorem vchkn_free : ∃ v, PyExec i s p b fun r => nextV (mWrite r (maskOf f.m f.k) f.d.toNat v) :=
  ⟨_, pyExec_of hi h (opVchkn_legal ha hk hd hx) rfl rfl rfl rfl rfl rfl rfl (retired_vec _ _ rfl rfl)⟩

end
end

/-- Settles O16: where the modulus has a meaning the values are those of FIPS 203 and FIPS 204, with their grouping of bits (log 52); elsewhere
they are free (log 4). The elements of VREJ behind the accepted ones count as inactive (log 49). -/
theorem samplingResults : Obligations.SamplingResults := by
  unfold Obligations.SamplingResults
  exact ⟨sampT_ok (fun _ _ _ => rfl) fun _ px i hu => modQ_eq px i _ (bne_iff_ne.1 hu),
    sampT_ok (fun _ _ _ => rfl) fun _ _ _ hu => vcompdEl_eq (bne_iff_ne.1 hu) _ _ _,
    sampT_ok (fun _ _ _ => rfl) fun _ _ _ _ => rfl,
    sampT_ok (fun _ _ _ => rfl) fun _ _ _ hu => makeHint_eq hu _ _,
    sampT_ok (fun _ _ _ => rfl) fun _ _ _ hu => useHint_eq hu _ _,
    fun _ _ _ _ _ h hd ha hf => ⟨fun h1 hq hg => vdcmp_decomposes h rfl hd ha hf h1 hq hg, fun h1 => vdcmp_free h rfl hd ha hf h1,
      fun h1 h32 => vunpk_unpacks h hd ha h1 h32 rfl⟩,
    fun _ _ _ _ _ h hd ha hf hx hk => ⟨fun hq => vp2r_rounds h rfl hd ha hf hx hk hq, vp2r_free h rfl hd ha hf hx hk⟩,
    fun _ _ _ _ _ h hd ha hx hk => vrej_rejects h ha hk rfl hd hx,
    fun _ _ _ _ _ h ha hd hx hk => ⟨fun hq => vchkn_checks h ha hk rfl hd hx hq, vchkn_free h ha hk rfl hd hx⟩,
    fun _ _ _ _ _ h hd ha h1 h32 => vpack_packs h hd ha h1 h32 rfl⟩

end Sys2Proof.Proofs.PySample
end

section
/-!
PROOF. Share operations (07 R256).
-/
namespace Sys2Proof.Proofs.PyShare

open Sys2Proof.Machine Sys2Proof.Safety Sys2Proof.Laws

section
variable {s : State} {p : PyAt} {f : FmtK} {b : Job} {io : JobIo} (h : PyGo s p b io) (hr : f.rsv = 0) (h1 : 1 ≤ f.ord.toNat)
  (ha : f.a.toNat + f.ord.toNat ≤ 31)

/-- A modulus that is not 0 gives the sharing its meaning. -/
theorem safeVal_sum {px : Px} {m : Nat} (hm : 0 < m) (v : Nat → Nat) : safeVal px (.sum m) v = v := by
  obtain ⟨m, rfl⟩ : ∃ k, m = k + 1 := ⟨m - 1, by omega⟩
  rfl

section
variable (hd : f.d.toNat + f.ord.toNat ≤ 31)
include h hr h1 ha hd

theorem sref_bool (hx : f.x = false) :
    Shared (.sref p f) s p b f.d (f.ord.toNat + 1) .bool (unshare (regsAt s.dev p.core 0) .bool f.a (f.ord.toNat + 1)) := by
  refine share_ok (useB := false) ⟨_, rfl⟩ (by unfold opSref; exact rfl) h h1 hr ha hd (fun e => nomatch e) (fun _ => ?_) fun _ => ⟨_, ?_, rfl⟩
  · rw [hx]; rfl
  · rw [hx]; rfl

theorem sref_sum (hx : f.x = true) {k : Sharing} (hk : sumOf (regsAt s.dev p.core 0) true false = some k) :
    Shared (.sref p f) s p b f.d (f.ord.toNat + 1) k (unshare (regsAt s.dev p.core 0) k f.a (f.ord.toNat + 1)) := by
  have hk' : ∀ w, sumOf (regsAt s.dev p.core w) true false = some k := fun _ => hk
  refine share_ok (useB := false) (val := unshare (regsAt s.dev p.core 0) k f.a (f.ord.toNat + 1)) ⟨_, rfl⟩ (by unfold opSref; exact rfl) h h1 hr ha hd
    (fun e => nomatch e) (fun w => ?_) fun w => ⟨unshare (regsAt s.dev p.core 0) k f.a (f.ord.toNat + 1), ?_, ?_⟩
  · simp only [hx, if_true, hk', Option.isSome_some]
  · simp only [hx, if_true, pxAt, hk', Option.getD_some]
    rfl
  · cases k with
    | bool => rfl
    | sum m => cases m <;> trivial

theorem sand_ands (hx : f.x = false) (hb : f.b.toNat + f.ord.toNat ≤ 31) :
    Shared (.sand p f) s p b f.d (f.ord.toNat + 1) .bool fun i =>
      unshare (regsAt s.dev p.core 0) .bool f.a (f.ord.toNat + 1) i &&& unshare (regsAt s.dev p.core 0) .bool f.b (f.ord.toNat + 1) i :=
  share_ok ⟨_, rfl⟩ (by unfold opSand; exact rfl) h h1 hr ha hd (fun _ _ => hb) (fun _ => by rw [hx]; rfl) fun _ => ⟨_, rfl, rfl⟩

section
variable {m : Nat} (hk : sumOf (regsAt s.dev p.core 0) f.x true = some (.sum m)) (hm : 0 < m)
include hk hm

theorem sa2b_converts :
    Shared (.sa2b p f) s p b f.d (f.ord.toNat + 1) .bool (unshare (regsAt s.dev p.core 0) (.sum m) f.a (f.ord.toNat + 1)) := by
  have hk' : ∀ w, sumOf (regsAt s.dev p.core w) f.x true = some (.sum m) := fun _ => hk
  refine share_ok (useB := false) (val := unshare (regsAt s.dev p.core 0) (.sum m) f.a (f.ord.toNat + 1)) ⟨_, rfl⟩ (by unfold opSa2b; exact rfl) h h1 hr ha hd
    (fun e => nomatch e) (fun w => ?_) fun w => ⟨unshare (regsAt s.dev p.core 0) (.sum m) f.a (f.ord.toNat + 1), ?_, rfl⟩
  · rw [hk']; rfl
  · simp only [pxAt, hk', Option.getD_some, safeVal_sum hm]
    rfl

theorem sb2a_converts :
    Shared (.sb2a p f) s p b f.d (f.ord.toNat + 1) (.sum m) fun i => unshare (regsAt s.dev p.core 0) .bool f.a (f.ord.toNat + 1) i % m := by
  have hk' : ∀ w, sumOf (regsAt s.dev p.core w) f.x true = some (.sum m) := fun _ => hk
  obtain ⟨m, rfl⟩ : ∃ k, m = k + 1 := ⟨m - 1, by omega⟩
  refine share_ok (useB := false) (val := fun i => unshare (regsAt s.dev p.core 0) .bool f.a (f.ord.toNat + 1) i % (m + 1)) ⟨_, rfl⟩ (by unfold opSb2a; exact rfl) h h1 hr ha hd (fun e => nomatch e) (fun w => ?_)
    fun w => ⟨fun i => unshare (regsAt s.dev p.core 0) .bool f.a (f.ord.toNat + 1) i % (m + 1), ?_, rfl⟩
  · rw [hk']; rfl
  · simp only [pxAt, hk', Option.getD_some, safeVal_sum hm]
    rfl

end

theorem scmp_compares :
    Shared (.scmp p f) s p b f.d (f.ord.toNat + 1) .bool fun i =>
      let eq := (activeEls (single (regsAt s.dev p.core 0)) none).all fun j =>
        unshare (regsAt s.dev p.core 0) .bool f.a (f.ord.toNat + 1) j
          == elAt (sewOf (single (regsAt s.dev p.core 0))) (vReg (regsAt s.dev p.core 0) f.b.toNat).toNat j
      let ones := if eq then 2 ^ sewOf (single (regsAt s.dev p.core 0)) - 1 else 0
      if f.x then ones &&& unshare (regsAt s.dev p.core 0) .bool f.d (f.ord.toNat + 1) i else ones :=
  share_ok (bGroup := false) ⟨_, rfl⟩ (by unfold opScmp; exact rfl) h h1 hr ha hd (fun _ e => nomatch e) (fun _ => rfl) fun _ => ⟨_, rfl, rfl⟩

end

/-! ## The value itself: SUNM -/

section
variable (hb : f.b = 0)
include h hr h1 ha hb

omit h in
theorem opSunm_legal {w : U32} (hk : (if f.x then sumOf (regsAt s.dev p.core w) true true else some .bool).isSome = true) :
    ((opSunm f).use (pxAt s.dev p w b io)).legal = true := by
  simp only [opSunm, shareOp, shareOk, Bool.and_eq_true, decide_eq_true_eq, beq_iff_eq]
  exact ⟨⟨⟨⟨⟨h1, hr⟩, ha⟩, rfl⟩, rfl⟩, hk, hb⟩

theorem sunm_bool (hx : f.x = false) : PyExec (.sunm p f) s p b fun r =>
    nextV { vWrite (single r) none f.d (unshare r .bool f.a (f.ord.toNat + 1)) with vtype := r.vtype } := by
  refine pyExec_of (op := opSunm f) rfl h (opSunm_legal hr h1 ha hb (by rw [hx]; rfl)) rfl rfl rfl rfl rfl rfl rfl
    ((retired_vec _ _ rfl rfl).trans ?_)
  simp only [hx]
  rfl

theorem sunm_sum (hx : f.x = true) {m : Nat} (hk : sumOf (regsAt s.dev p.core 0) f.x true = some (.sum m)) (hm : 0 < m) :
    PyExec (.sunm p f) s p b fun r =>
      nextV { vWrite (single r) none f.d (unshare r (.sum m) f.a (f.ord.toNat + 1)) with vtype := r.vtype } := by
  have hk' : ∀ w, sumOf (regsAt s.dev p.core w) true true = some (.sum m) := fun w => hx ▸ hk
  refine pyExec_of (op := opSunm f) rfl h (opSunm_legal hr h1 ha hb (by rw [hx, if_pos rfl, hk']; rfl)) rfl rfl rfl rfl rfl rfl rfl
    ((retired_vec _ _ rfl rfl).trans ?_)
  simp only [hx, if_true, pxAt, hk', Option.getD_some, safeVal_sum hm]
  rfl

end
end

/-- Settles O18: a share operation writes shares of the value that its operands hold; which ones is free (log 4). A share group is single
registers, whatever G is (log 53). -/
theorem shareResults : Obligations.ShareResults := by
  unfold Obligations.ShareResults
  intro s p f b io h hr h1 ha
  dsimp only
  exact ⟨fun hd => ⟨fun hx => sref_bool h hr h1 ha hd hx, fun _ hx hk => sref_sum h hr h1 ha hd hx hk,
      fun hx hb => sand_ands h hr h1 ha hd hx hb,
      fun _ hk hm => ⟨sa2b_converts h hr h1 ha hd hk hm, sb2a_converts h hr h1 ha hd hk hm⟩, scmp_compares h hr h1 ha hd⟩,
    fun hb => ⟨fun hx => sunm_bool h hr h1 ha hb hx, fun _ hx hk hm => sunm_sum h hr h1 ha hb hx hk hm⟩⟩

end Sys2Proof.Proofs.PyShare
end

section
/-!
PROOF. Job I/O: the instructions of a job, its areas, the start of a custom program and the yield watchdog (07 R230-R236, R257, R262, R264;
08 R284).
-/
namespace Sys2Proof.Proofs.PyJob

open Sys2Proof.Machine Sys2Proof.Safety Sys2Proof.Laws

/-! ## What the body of an instruction does where nothing stops it (07 R230-R236, R257) -/

section
variable {f : FmtT} {px : Px}

theorem opJwait_body (h : (f.imm.toNat < 16 ∧ f.imm.toNat ∈ px.io.pages) ∨ (f.imm.toNat = 16 ∧ px.io.hdr.auxMax ≠ 0 ∧ px.io.auxIn = true)) :
    (opJwait f).body px = .next px := by
  rcases h with ⟨hn, hp⟩ | ⟨hn, ha, hin⟩
  · have hc : px.io.pages.contains f.imm.toNat = true := by simpa using hp
    exact (if_neg (by omega)).trans (if_pos hc)
  · exact (if_pos hn).trans ((if_neg ha).trans (if_pos hin))

theorem opJrel_absent (h : f.imm.toNat ∉ px.io.pages) : (opJrel f).body px = .next px :=
  if_pos (by simpa using h)

theorem opJrel_refills (h : f.imm.toNat ∈ px.io.pages)
    (hc : nextChunk { px.io with refills := mapMod 0 px.io.refills f.imm.toNat (· + 1) } f.imm.toNat * 2 ^ px.io.hdr.pageLog
      < px.b.e.inLen.toNat) :
    (opJrel f).body px = .next { px with io := { px.io with
      refills := mapMod 0 px.io.refills f.imm.toNat (· + 1), pages := px.io.pages.filter (· != f.imm.toNat) } } :=
  (if_neg (by simpa using h)).trans (if_pos hc)

theorem opJout_body {k : Nat} (hk : (xGet px.r f.b).toNat = k) (hmax : px.io.outDone + px.io.buf.length + k ≤ px.io.hdr.outMax)
    (hroom : px.io.buf.length + k ≤ 8192) (hb : px.b.outBad = none) (hl : listWait px = false) :
    (opJout f).body px = .next { px with io := { px.io with buf := px.io.buf ++ leBytes k (vReg px.r f.d.toNat).toNat } } := by
  subst hk
  refine (if_neg (Nat.not_lt.2 hmax)).trans ((if_neg ?_).trans ((if_neg ?_).trans (if_neg (Nat.not_lt.2 hroom))))
  · rw [hl]; exact Bool.false_ne_true
  · rw [hb]; exact Bool.false_ne_true

/-- The part of a key that a JKEY reads. -/
def keyPart (px : Px) (imm : BitVec 7) : Bytes :=
  if imm.toNat % 8 = 7 then (portObj px (imm.getLsbD 3)).pub else portShare px (imm.getLsbD 3) (imm.toNat % 8)

theorem opJkey_legal (hn : f.imm.toNat < 16) (ha : (xGet px.r f.a).toNat % 64 = 0)
    (hs : f.imm.toNat % 8 = 7 ∨ (f.imm.toNat % 8 ≤ 3 ∧ f.imm.toNat % 8 ≤ px.b.order)) : ((opJkey f).use px).legal = true := by
  simp only [opJkey, jio, Bool.and_eq_true, Bool.or_eq_true, decide_eq_true_eq, beq_iff_eq]
  exact ⟨⟨hn, by omega⟩, ha⟩

theorem opJkey_body {off : Nat} (hoff : (xGet px.r f.a).toNat = off)
    (hs : f.imm.toNat % 8 = 7 ∨ (f.imm.toNat % 8 ≤ 3 ∧ f.imm.toNat % 8 ≤ px.b.order)) (hl : off < (keyPart px f.imm).length) :
    (opJkey f).body px = .next { px with r := vPut px.r f.d.toNat 1 (leNat (slice (keyPart px f.imm) off 256)) } := by
  subst hoff
  refine if_neg ?_
  simp only [Bool.or_eq_true, Bool.and_eq_true, bne_iff_ne, decide_eq_true_eq]
  rintro (⟨h7, ho⟩ | hlen)
  · omega
  · exact absurd hl (Nat.not_lt.2 hlen)

/-- The granules that the new object needs after a line at `off` of part `n`. -/
def putNeed (io : JobIo) (n off : Nat) : Nat :=
  let sec := max (newExtent io 0) (newExtent io 1)
  if max sec (if n < 2 then off + 1 else 0) = 0 then granPub (max (newExtent io 7) (if n = 7 then off + 1 else 0))
  else granPriv (max sec (if n < 2 then off + 1 else 0)) (max (newExtent io 7) (if n = 7 then off + 1 else 0))

/-- A line of either share extends the secret part. -/
theorem secretExtent_eq (e0 e1 n x : Nat) :
    max (max e0 (if n = 0 then x else 0)) (max e1 (if n = 1 then x else 0)) = max (max e0 e1) (if n < 2 then x else 0) := by
  split <;> split <;> split <;> omega

theorem opJkput_legal (hc : isCustom px.b = false) (hn : f.imm.toNat = 7 ∨ f.imm.toNat ≤ min px.b.order 1) :
    ((opJkput f).use px).legal = true := by
  simp only [opJkput, jio, hc, Bool.and_eq_true, Bool.or_eq_true, decide_eq_true_eq, beq_iff_eq]
  exact ⟨by omega, rfl⟩

theorem opJkput_body {off : Nat} (hoff : (xGet px.r f.a).toNat = off) (hn : f.imm.toNat = 7 ∨ f.imm.toNat ≤ min px.b.order 1)
    (hl : off + 256 < 2 ^ 20) (hb : px.b.blob = none) (hneed : putNeed px.io f.imm.toNat off ≤ px.b.granRes) :
    (opJkput f).body px = .next { px with io := { px.io with
      newKey := memWrite px.io.newKey (f.imm.toNat * 2 ^ 20 + off) (leBytes 256 (vReg px.r f.d.toNat).toNat) } } := by
  subst hoff
  refine if_neg ?_
  rw [hb]
  simp only [secretExtent_eq, Bool.or_eq_true, Bool.and_eq_true, bne_iff_ne, decide_eq_true_eq]
  rintro ((⟨h7, ho⟩ | hfar) | hmost)
  · omega
  · omega
  · exact absurd hmost (Nat.not_lt.2 hneed)

theorem opJset_legal (hn : f.imm.toNat ≤ 2) (hs : f.imm.toNat = 1 → isCustom px.b = true →
      (xGet px.r f.a).toNat % 65536 = 0 ∨ (xGet px.r f.a).toNat % 65536 / 256 = 2) : ((opJset f).use px).legal = true := by
  simp only [opJset, jio, Bool.and_eq_true, Bool.or_eq_true, decide_eq_true_eq, beq_iff_eq, bne_iff_ne, Bool.not_eq_true']
  refine ⟨hn, ?_⟩
  by_cases h1 : f.imm.toNat = 1
  · by_cases hc : isCustom px.b = true
    · rcases hs h1 hc with h0 | h2
      · exact .inr (.inl (.inr h0))
      · exact .inr (.inr h2)
    · exact .inr (.inl (.inl (by simpa using hc)))
  · exact .inl h1

end

/-! ## Job I/O instructions (07 R230-R236, R257) -/

section
variable {i : Instr} {s : State} {p : PyAt} {f : FmtT} {b : Job} {io io' : JobIo} {op : PyOp} {g : PyRegs → PyRegs} (h : PyGo s p b io)
  (hw : mapWf {} s.dev.io = true)
include h hw

/-- A job I/O instruction whose body changes the registers and the job's I/O. -/
theorem jio_done (hi : ∃ w, exec i s = onDev s (pyRun p w op)) (hl : ∀ w, (op.use (pxAt s.dev p w b io)).legal = true)
    (hu : ∀ w, (op.use (pxAt s.dev p w b io)).clash = false ∧ (op.use (pxAt s.dev p w b io)).vec = false)
    (hb : ∀ w, op.body (pxAt s.dev p w b io) = .next { pxAt s.dev p w b io with r := g (regsAt s.dev p.core w), io := io' }) :
    PyExecIo i s p b (fun r => nextS (g r)) io' :=
  pyIo_of hi h hw hl (fun w => (hu w).1) fun w => ⟨_, hb w, rfl, rfl, rfl, rfl, jioRet (hu w).2 rfl⟩

theorem jwait_goes (hn : (f.imm.toNat < 16 ∧ f.imm.toNat ∈ io.pages) ∨ (f.imm.toNat = 16 ∧ io.hdr.auxMax ≠ 0 ∧ io.auxIn = true)) :
    PyExecIo (.jwait p f) s p b nextS io :=
  jio_done (g := id) h hw ⟨_, rfl⟩ (fun _ => decide_eq_true (by omega)) (fun _ => ⟨rfl, rfl⟩) fun _ => opJwait_body hn

theorem jrel_refills (hn : f.imm.toNat < 16) (hp : f.imm.toNat ∈ io.pages)
    (hc : nextChunk { io with refills := mapMod 0 io.refills f.imm.toNat (· + 1) } f.imm.toNat * 2 ^ io.hdr.pageLog < b.e.inLen.toNat) :
    PyExecIo (.jrel p f) s p b nextS
      { io with refills := mapMod 0 io.refills f.imm.toNat (· + 1), pages := io.pages.filter (· != f.imm.toNat) } :=
  jio_done (g := id) h hw ⟨_, rfl⟩ (fun _ => decide_eq_true (by omega)) (fun _ => ⟨rfl, rfl⟩) fun _ => opJrel_refills hp hc

theorem jrel_absent (hn : f.imm.toNat < 16) (hp : f.imm.toNat ∉ io.pages) : PyExecIo (.jrel p f) s p b nextS io :=
  jio_done (g := id) h hw ⟨_, rfl⟩ (fun _ => decide_eq_true (by omega)) (fun _ => ⟨rfl, rfl⟩) fun _ => opJrel_absent hp

theorem jout_appends (h1 : 1 ≤ (xGet (live s p) f.b).toNat) (h256 : (xGet (live s p) f.b).toNat ≤ 256)
    (hmax : io.outDone + io.buf.length + (xGet (live s p) f.b).toNat ≤ io.hdr.outMax)
    (hroom : io.buf.length + (xGet (live s p) f.b).toNat ≤ 8192) (hb : b.outBad = none)
    (hl : outSgl b.e = false ∨ b.e.outCap = 0 ∨ b.outOk = true) :
    PyExecIo (.jout p f) s p b nextS
      { io with buf := io.buf ++ leBytes (xGet (live s p) f.b).toNat (vReg (live s p) f.d.toNat).toNat } := by
  refine jio_done (g := id) h hw ⟨_, rfl⟩ (fun _ => ?_) (fun _ => ⟨rfl, rfl⟩) fun _ => opJout_body rfl hmax hroom hb (listWait_no _ hl)
  simp only [opJout, jio, Bool.and_eq_true, decide_eq_true_eq]
  exact ⟨h1, h256⟩

theorem jkey_reads (hn : f.imm.toNat < 16) (ha : (xGet (live s p) f.a).toNat % 64 = 0)
    (hs : f.imm.toNat % 8 = 7 ∨ (f.imm.toNat % 8 ≤ 3 ∧ f.imm.toNat % 8 ≤ b.order))
    (hl : (xGet (live s p) f.a).toNat < (keyPart (pxAt s.dev p 0 b io) f.imm).length) :
    PyExecIo (.jkey p f) s p b
      (fun r => nextS (vPut r f.d.toNat 1 (leNat (slice (keyPart (pxAt s.dev p 0 b io) f.imm) (xGet (live s p) f.a).toNat 256)))) io := by
  have hp : ∀ w, keyPart (pxAt s.dev p w b io) f.imm = keyPart (pxAt s.dev p 0 b io) f.imm := fun _ => rfl
  refine jio_done h hw ⟨_, rfl⟩ (fun _ => opJkey_legal hn ha hs) (fun _ => ⟨rfl, rfl⟩) fun w => ?_
  rw [← hp w] at hl ⊢
  exact opJkey_body rfl hs hl

theorem jkput_writes (hc : isCustom b = false) (hn : f.imm.toNat = 7 ∨ f.imm.toNat ≤ min b.order 1)
    (hl : (xGet (live s p) f.a).toNat + 256 < 2 ^ 20) (hb : b.blob = none)
    (hneed : putNeed io f.imm.toNat (xGet (live s p) f.a).toNat ≤ b.granRes) :
    PyExecIo (.jkput p f) s p b nextS { io with
      newKey := memWrite io.newKey (f.imm.toNat * 2 ^ 20 + (xGet (live s p) f.a).toNat) (leBytes 256 (vReg (live s p) f.d.toNat).toNat) } :=
  jio_done (g := id) h hw ⟨_, rfl⟩ (fun _ => opJkput_legal hc hn) (fun _ => ⟨rfl, rfl⟩) fun _ => opJkput_body rfl hn hl hb hneed

theorem jrnd_reads : PyExecIo (.jrnd p f) s p b (fun r => nextS (vPut r f.d.toNat 1 (leNat (fit 128 io.rnd)))) io :=
  jio_done h hw ⟨_, rfl⟩ (fun _ => rfl) (fun _ => ⟨rfl, rfl⟩) fun _ => rfl

theorem jset_result (hn : f.imm.toNat = 0) :
    PyExecIo (.jset p f) s p b nextS { io with res := (xGet (live s p) f.a).setWidth 32 } :=
  jio_done (g := id) h hw ⟨_, rfl⟩ (fun _ => opJset_legal (by omega) (by omega)) (fun _ => ⟨rfl, rfl⟩) fun _ => by
    simp only [opJset, jio, hn]
    rfl

theorem jset_status (hn : f.imm.toNat = 1) (hs : isCustom b = true →
      (xGet (live s p) f.a).toNat % 65536 = 0 ∨ (xGet (live s p) f.a).toNat % 65536 / 256 = 2) :
    PyExecIo (.jset p f) s p b nextS
      { io with jset := some ((xGet (live s p) f.a).setWidth 16, (xGet (live s p) f.a >>> 16).setWidth 16) } :=
  jio_done (g := id) h hw ⟨_, rfl⟩ (fun _ => opJset_legal (by omega) fun _ => hs) (fun _ => ⟨rfl, rfl⟩) fun _ => by
    simp only [opJset, jio, hn]
    rfl

theorem jset_attempts (hn : f.imm.toNat = 2) :
    PyExecIo (.jset p f) s p b nextS { io with att := (xGet (live s p) f.a).setWidth 8 } :=
  jio_done (g := id) h hw ⟨_, rfl⟩ (fun _ => opJset_legal (by omega) (by omega)) (fun _ => ⟨rfl, rfl⟩) fun _ => by
    simp only [opJset, jio, hn]
    rfl

end

/-! ## JKDONE of a volatile key (07 R236, R257; 12 R367) -/

theorem newObj_io (px : Px) (d : Dev) : (newObj px d).2.io = d.io := by
  unfold newObj
  dsimp only
  split <;> rfl

theorem createObj_io (d : Dev) (o : Nat) (k : KObj) : (createObj d o k).2.io = d.io := by
  unfold createObj
  split <;> rfl

/-- An instruction before its retirement, with the object of JKDONE created. -/
def keyCreated (px : Px) (d : BitVec 5) : Px :=
  let o := newObj px px.d
  let r := createObj o.2 px.b.owner o.1
  { px with
    d := r.2, r := xSet px.r d (r.1.setWidth 64), io := { px.io with res := r.1, eff := effKeyCreated }
    b := { px.b with granRes := match px.b.blob with | some t => t.gran | none => 0
                     effect := effKeyCreated, result := r.1 } }

theorem opJkdone_body {f : FmtT} {px : Px} (hc : px.b.committed = false) (hb : px.b.outBad = none) (hl : listWait px = false)
    (hk : px.b.keep = none) (hp : px.b.pkeyRes = 0) : (opJkdone f).body px = .next (keyCreated px f.d) := by
  refine (if_neg ?_).trans ((if_neg ?_).trans ((if_neg ?_).trans ((if_neg ?_).trans (if_pos hp))))
  · rw [hc]; exact Bool.false_ne_true
  · rw [hl]; exact Bool.false_ne_true
  · rw [hb]; exact Bool.false_ne_true
  · rw [hk]; exact Bool.false_ne_true

/-- What a retirement leaves of an instruction's core, of its job's I/O and of the keys. -/
theorem pyRetire_leaves {px q : Px} {u : Use} (hy : q.deal = false) (hc : q.c < 16) (hw : mapWf {} q.d.io = true) :
    (getCore (pyRetire px none u (.next q)) q.c).live = retired q u ∧ mapGet {} (pyRetire px none u (.next q)).io q.b.id = q.io
      ∧ (pyRetire px none u (.next q)).ks = q.d.ks := by
  refine ⟨?_, ?_, ?_⟩
  · rw [pyRetire_next _ _ _ hy]
    exact (putBack_keeps q u hc).1
  · rw [retire_io _ _ _ hy, mapGet_mapSet_self hw]
  · rw [pyRetire_next _ _ _ hy]
    obtain ⟨-, -, -, -, -, hrest⟩ := putBack_keeps q u hc
    exact (congrArg Dev.ks hrest).trans rfl

section
variable {s : State} {p : PyAt} {f : FmtT} {b : Job} {io : JobIo} (h : PyGo s p b io) (hw : mapWf {} s.dev.io = true)
include h hw

theorem jkdone_creates (hcu : isCustom b = false) (hc : b.committed = false) (hb : b.outBad = none)
    (hl : outSgl b.e = false ∨ b.e.outCap = 0 ∨ b.outOk = true) (hk : b.keep = none) (hp : b.pkeyRes = 0) :
    let o := newObj (pxAt s.dev p 0 b io) s.dev
    let k := createObj o.2 b.owner o.1
    Completes (.jkdone p f) s fun d' => ∃ w,
      (getCore d' p.core).live = nextS (xSet (regsAt s.dev p.core w) f.d (k.1.setWidth 64))
      ∧ mapGet {} d'.io b.id = { io with res := k.1, eff := effKeyCreated } ∧ d'.ks = k.2.ks := by
  refine ⟨_, rfl, rfl, encT 0x70 5 f, ?_⟩
  show (getCore (pyRun p (encT 0x70 5 f) (opJkdone f) s.dev) p.core).live = _ ∧ mapGet {} (pyRun p _ _ s.dev).io b.id = _
    ∧ (pyRun p _ _ s.dev).ks = _
  generalize encT 0x70 5 f = w
  have hleg : ((opJkdone f).use (pxAt s.dev p w b io)).legal = true := by simp only [opJkdone, jio]; exact hcu ▸ rfl
  rw [pyRun_retire h.1 h.2 hleg rfl, opJkdone_body (px := pxAt s.dev p w b io) hc hb (listWait_no _ hl) hk hp]
  have hio : (keyCreated (pxAt s.dev p w b io) f.d).d.io = s.dev.io := (createObj_io _ _ _).trans (newObj_io _ _)
  obtain ⟨hlive, hjob, hks⟩ := pyRetire_leaves (px := pxAt s.dev p w b io) (q := keyCreated (pxAt s.dev p w b io) f.d)
    (u := withLat (pxAt s.dev p w b io) ((opJkdone f).use (pxAt s.dev p w b io))) rfl h.1.core (hio ▸ hw)
  exact ⟨hlive.trans (jioRet (withLat_vec _ _) rfl), hjob, hks⟩

end

/-! ## The areas of a job (07 R230-R233) -/

theorem find?_of_head {α : Type} {P : α → Bool} {l : List α} {x : α} (h : l.head? = some x) (hx : P x = true) : l.find? P = some x := by
  obtain ⟨t, rfl⟩ := List.head?_eq_some_iff.1 h
  exact List.find?_cons_of_pos hx

/-- The device after the tile of a core and the I/O of the jobs have changed. -/
def areaWritten (d : Dev) (m : SMap JobIo) (tc : Nat) (F : SMap Byte → SMap Byte) : Dev :=
  modCore { d with io := m } tc fun k => { k with tile := F k.tile }

section
variable {d : Dev} {m : SMap JobIo} {tc : Nat} {F : SMap Byte → SMap Byte}

theorem areaWritten_io : (areaWritten d m tc F).io = m := by
  rw [areaWritten, modCore_eq]

theorem areaWritten_rest : areaWritten d m tc F = { d with io := (areaWritten d m tc F).io, cores := (areaWritten d m tc F).cores } := by
  rw [areaWritten_io]
  exact modCore_eq _ _ _

theorem areaWritten_tile (h : tc < 16) : (getCore (areaWritten d m tc F) tc).tile = F (getCore d tc).tile := by
  rw [areaWritten, getCore_modCore_self _ _ _ h]
  rfl

/-- A byte that the change of the tile leaves alone, and every byte of another tile, is as before. -/
theorem areaWritten_other {k a : Nat} (h : tc < 16) (ha : k = tc → memByte (F (getCore d tc).tile) a = memByte (getCore d tc).tile a) :
    memByte (getCore (areaWritten d m tc F) k).tile a = memByte (getCore d k).tile a := by
  by_cases hk : k = tc
  · rw [hk, areaWritten_tile h, ha hk]
  · rw [areaWritten, getCore_modCore_ne _ _ _ _ hk]
    rfl

end

/-- A string that fits is padded with zeros. -/
theorem fit_of_le {n : Nat} {bs : Bytes} (h : bs.length ≤ n) : fit n bs = bs ++ zeros (n - bs.length) := by
  simp only [fit, slice, List.drop_zero, List.take_of_length_le h]

theorem fit_length {n : Nat} {bs : Bytes} (h : bs.length ≤ n) : (fit n bs).length = n := by
  rw [fit_of_le h, List.length_append, zeros, List.length_replicate]
  omega

section
variable {n : Nat} {bs : Bytes} (h : bs.length ≤ n) (m : SMap Byte) (a : Nat)
include h

theorem memByte_memFill_fit {j : Nat} (hj : j < bs.length) : memByte (memFill m a (fit n bs)) (a + j) = bs[j] := by
  rw [fit_of_le h, memByte_memFill_in m a j _ (by rw [List.length_append]; omega), List.getElem_append_left hj]

theorem memByte_memFill_padding {j : Nat} (hj : bs.length ≤ j) (hn : j < n) : memByte (memFill m a (fit n bs)) (a + j) = 0 := by
  rw [memByte_memFill_in m a j _ (by rw [fit_length h]; exact hn)]
  simp only [fit_of_le h, List.getElem_append_right hj, zeros, List.getElem_replicate]

end

/-- A command that only changes the device completes with the changed one. -/
theorem completes_of_onDev {i : Instr} {s : State} {P : Dev → Prop} (g : Dev → Dev) {d1 : Dev} (hi : exec i s = onDev s g)
    (e : g s.dev = d1) (h : P d1) : Completes i s P :=
  ⟨{ s with dev := d1 }, by rw [hi, onDev, e], rfl, h⟩

section
variable {s : State} {c page : Nat} {b : Job} {io : JobIo} (h : (fillJobs s.dev c).head? = some (b, io))
include h

theorem inputPageFilledGo_fills (hd : fillDue b io page = true) : inputPageFilledGo c page s.dev =
    areaWritten s.dev (mapSet {} s.dev.io b.id { io with pages := io.pages ++ [page] }) (areaBase b).1 fun t =>
      memFill t ((areaBase b).2 + io.hdr.inBase + page * 2 ^ io.hdr.pageLog)
        (fit (2 ^ io.hdr.pageLog) ((b.inData.drop (nextChunk io page * 2 ^ io.hdr.pageLog)).take (2 ^ io.hdr.pageLog))) := by
  unfold inputPageFilledGo
  rw [find?_of_head (P := fun x => fillDue x.1 x.2 page) h hd]
  rfl

theorem auxFillDoneGo_fills (ha : io.auxIn = false) (hl : b.auxData.length = b.e.auxLen.toNat) : auxFillDoneGo c s.dev =
    areaWritten s.dev (mapSet {} s.dev.io b.id { io with auxIn := true }) (areaBase b).1 fun t =>
      memWrite t ((areaBase b).2 + io.hdr.auxBase) (ownAux b) := by
  unfold auxFillDoneGo
  rw [find?_of_head (P := fun x => !x.2.auxIn && x.1.auxData.length == x.1.e.auxLen.toNat) h (by simp [ha, hl])]
  rfl

section
variable (hw : mapWf {} s.dev.io = true) (h16 : (areaBase b).1 < 16)
include hw h16

theorem inputPageFilled_fills (hd : fillDue b io page = true) :
    let size := 2 ^ io.hdr.pageLog
    let at0 := (areaBase b).2 + io.hdr.inBase + page * size
    let bytes := (b.inData.drop (nextChunk io page * size)).take size
    Completes (.inputPageFilled c page) s fun d' =>
      mapGet {} d'.io b.id = { io with pages := io.pages ++ [page] }
      ∧ (∀ i (h : i < bytes.length), memByte (getCore d' (areaBase b).1).tile (at0 + i) = bytes[i])
      ∧ (∀ i, bytes.length ≤ i → i < size → memByte (getCore d' (areaBase b).1).tile (at0 + i) = 0)
      ∧ (∀ k a, (k = (areaBase b).1 → a < at0 ∨ at0 + size ≤ a) → memByte (getCore d' k).tile a = memByte (getCore s.dev k).tile a)
      ∧ d' = { s.dev with io := d'.io, cores := d'.cores } := by
  intro size at0 bytes
  have hlen : bytes.length ≤ size := List.length_take_le _ _
  refine completes_of_onDev _ rfl (inputPageFilledGo_fills h hd) ⟨?_, fun i hi => ?_, fun i hb hi => ?_, fun k a ha => ?_,
    areaWritten_rest⟩
  · rw [areaWritten_io, mapGet_mapSet_self hw]
  · rw [areaWritten_tile h16]
    exact memByte_memFill_fit hlen _ _ hi
  · rw [areaWritten_tile h16]
    exact memByte_memFill_padding hlen _ _ hb hi
  · exact areaWritten_other h16 fun hk => memByte_memFill_out _ _ _ _ (by rw [fit_length hlen]; exact ha hk)

theorem auxFillDone_fills (hm : memWf (getCore s.dev (areaBase b).1).tile = true) (ha : io.auxIn = false)
    (hl : b.auxData.length = b.e.auxLen.toNat) :
    let aux := ownAux b
    let at1 := (areaBase b).2 + io.hdr.auxBase
    Completes (.auxFillDone c) s fun d' =>
      mapGet {} d'.io b.id = { io with auxIn := true }
      ∧ (∀ i (h : i < aux.length), memByte (getCore d' (areaBase b).1).tile (at1 + i) = aux[i])
      ∧ (∀ k a, (k = (areaBase b).1 → a < at1 ∨ at1 + aux.length ≤ a) → memByte (getCore d' k).tile a = memByte (getCore s.dev k).tile a)
      ∧ d' = { s.dev with io := d'.io, cores := d'.cores } := by
  refine completes_of_onDev _ rfl (auxFillDoneGo_fills h ha hl) ⟨?_, fun i hi => ?_, fun k a hk => ?_, areaWritten_rest⟩
  · rw [areaWritten_io, mapGet_mapSet_self hw]
  · rw [areaWritten_tile h16]
    exact memByte_memWrite_in hm _ _ _ hi
  · exact areaWritten_other h16 fun e => memByte_memWrite_out _ _ _ _ (hk e)

end

theorem outputBufferRoomGo_drains (hbuf : io.buf ≠ []) (hb : b.outBad = none) (hl : outSgl b.e = false ∨ b.outOk = true) :
    outputBufferRoomGo c s.dev =
      modJob (writeOut { s.dev with io := mapSet {} s.dev.io b.id { io with outDone := io.outDone + io.buf.length, buf := [] } } b
        io.outDone io.buf) b.id fun x => { x with outLen := io.outDone + io.buf.length } := by
  have hdue : (!io.buf.isEmpty && b.outBad.isNone && (!outSgl b.e || b.outOk)) = true := by
    rcases hl with hl | hl <;> simp [hbuf, hb, hl]
  unfold outputBufferRoomGo
  rw [find?_of_head (P := fun x => !x.2.buf.isEmpty && x.1.outBad.isNone && (!outSgl x.1.e || x.1.outOk)) h hdue]

/-- The output buffer drains whole (log 130); writing it out only signals, so the job and its I/O are as the drain sets them. -/
theorem outputBufferRoom_drains (hw : mapWf {} s.dev.io = true) (hbuf : io.buf ≠ []) (hb : b.outBad = none)
    (hl : outSgl b.e = false ∨ b.outOk = true) (hm : isMember s.dev = false) (hj : findJob s.dev b.id = some b) :
    Completes (.outputBufferRoom c) s fun d' =>
      let io' := { io with outDone := io.outDone + io.buf.length, buf := [] }
      let d1 := writeOut { s.dev with io := mapSet {} s.dev.io b.id io' } b io.outDone io.buf
      mapGet {} d'.io b.id = io'
      ∧ findJob d' b.id = some { b with outLen := io.outDone + io.buf.length }
      ∧ d'.hif = d1.hif ∧ d' = { s.dev with hif := d'.hif, glob := d'.glob, io := d'.io, jobs := d'.jobs } := by
  refine completes_of_onDev _ rfl (outputBufferRoomGo_drains h hbuf hb hl) ?_
  obtain ⟨hif, hold, carry, e⟩ := writeOut_signals
    { s.dev with io := mapSet {} s.dev.io b.id { io with outDone := io.outDone + io.buf.length, buf := [] } } b io.outDone io.buf hm
  rw [e]
  exact ⟨mapGet_mapSet_self hw _ _, findJob_modJob_self (d := { s.dev with hif := hif }) _ hj rfl, (congrArg Dev.hif e).symm, rfl⟩

end

/-! ## The start of a custom program and the yield watchdog (07 R236, R262; 08 R284) -/

theorem stepsTaken_idle {d : Dev} {cs : List Nat} (h : ∀ k ∈ cs, k < 16 ∧ (getStore d k).stepOk = false) : cs.foldl stepTaken d = d := by
  induction cs with
  | nil => rfl
  | cons k cs ih =>
    obtain ⟨hk, hs⟩ := h k (by simp)
    rw [List.foldl_cons, stepTaken_idle hk hs]
    exact ih fun j hj => h j (by simp [hj])

theorem customRun_starts {s : State} {j : Nat} {b : Job} (hj : findJob s.dev j = some b) (hc : isCustom b = true) (hp : b.phase = .placed)
    (hr : (ctxCells b).all (cellRuns s.dev) = true) (hs : ∀ k ∈ ctxCells b, k < 16 ∧ (getStore s.dev k).stepOk = false)
    (ha : b.abort = none) (hl : late s.dev b.e = false) :
    customRunGo j s.dev = { s.dev with io := mapMod {} s.dev.io b.id fun io => { io with started := true } } := by
  simp only [customRunGo, hj, hc, hp, hr, stepsTaken_idle hs, ha, hl]
  rfl

theorem yieldTimeoutGo_fails {d : Dev} {c : Nat} {b : Job} (h16 : c < 16) (hj : cellJob d c = some b) (hh : cellHalted d c = false)
    (hp : b.phase = .placed) (hw : mapGet none (mapGet {} d.io b.id).wait c = none) :
    yieldTimeoutGo c d = failOn d b c stYieldTimeout 0 := by
  have hs : cellSeq c = some c := if_pos (by omega)
  have h32 : ¬ 32 ≤ c := by omega
  simp only [yieldTimeoutGo, h32, hs, hh, hj, hp, hw]
  rfl

theorem yieldTimeout_faults {s : State} {c : Nat} {b : Job} (h16 : c < 16) (hj : cellJob s.dev c = some b) (hh : cellHalted s.dev c = false)
    (hp : b.phase = .placed) (hw : mapGet none (mapGet {} s.dev.io b.id).wait c = none) (ho : OwnQueues s.dev b) :
    PyFaults (.yieldTimeout c) s b stYieldTimeout := fun hl =>
  completes_of_onDev _ rfl (yieldTimeoutGo_fails h16 hj hh hp hw) (failOn_ends s.dev b c _ 0 ho hp hl)

/-- Settles O19. That the buffer drains whole is log 130, that JKPUT and JKDONE are for vendor images log 128. -/
theorem jobIoResults : Obligations.JobIoResults := by
  unfold Obligations.JobIoResults
  refine ⟨fun s p f b io h hw => ⟨fun hn => jwait_goes h hw hn, fun hn hp hc => jrel_refills h hw hn hp hc,
      fun hn hp => jrel_absent h hw hn hp, fun h1 h256 hmax hroom hb hl => jout_appends h hw h1 h256 hmax hroom hb hl,
      fun hn ha hs hl => jkey_reads h hw hn ha hs hl, fun hc hn hl hb hneed => jkput_writes h hw hc hn hl hb hneed, jrnd_reads h hw,
      fun hn => jset_result h hw hn, fun hn hs => jset_status h hw hn hs, fun hn => jset_attempts h hw hn,
      fun hcu hc hb hl hk hp => jkdone_creates h hw hcu hc hb hl hk hp⟩,
    fun s c page b io h hw hm h16 => ⟨fun hd => inputPageFilled_fills h hw h16 hd, fun ha hl => auxFillDone_fills h hw h16 hm ha hl,
      fun hbuf hb hl hmem hj => outputBufferRoom_drains h hw hbuf hb hl hmem hj⟩,
    fun s j b hj hc hp hr hs ha hl => ⟨_, rfl, rfl, customRun_starts hj hc hp hr hs ha hl⟩,
    fun s c b h16 hj hh hp hw ho => yieldTimeout_faults h16 hj hh hp hw ho⟩

end Sys2Proof.Proofs.PyJob
end

section
/-!
PROOF. The common micro-ops of all sequencers (08 R271, R272, R274-R276, R283).
-/
namespace Sys2Proof.Proofs.MicroCommon

-- One theorem at a time, as in the tests: the thread stacks of the one text stay within the memory limit.
set_option Elab.async false

open Sys2Proof.Machine Sys2Proof.Safety Sys2Proof.Laws
open Sys2Proof.Proofs.PyJob (completes_of_onDev)

/-- A micro-op of a sequencer at its issue. -/
def uxAt (s : State) (u : Nat) (b : Job) (f : UFmt) : Ux := { d := s.dev, u := u, b := b, m := getMicro s.dev u, f := f }

/-- The device at a yield point. -/
def yieldDev (d : Dev) (u : Nat) : Dev := setSched d u { getSched d u with yieldT := uTime d u }

/-! ## What a micro-op leaves, from what its body answers -/

section
variable {i : Instr} {s : State} {u c : Nat} {b : Job} {f : UFmt} {kinds : Nat → Bool} {use : UUse} {body : Ux → UEnd} {g : Micro → Micro}
  (hi : exec i s = onDev s (uRun u c f kinds use body)) (hc : microCode i = some (c, f)) (h : MicroReady s.dev u b) (hk : kinds u = true)
include hi hc h hk

theorem microState_on (hb : body (uxAt s u b f) = (uxAt s u b f).on (g (getMicro s.dev u)))
    (hg : (g (getMicro s.dev u)).upc = (getMicro s.dev u).upc) : MicroState i s u b fun m => uNext (g m) := by
  refine microState_of hi hc h hk hb (.refl _ _ _) rfl ?_
  show ({ g (getMicro s.dev u) with upc := BitVec.ofNat 14 ((getMicro s.dev u).upc.toNat + 1), run := true } : Micro) = _
  rw [← hg, upc_next]

theorem microState_goto {t : Nat} (hb : body (uxAt s u b f) = .next { uxAt s u b f with m := g (getMicro s.dev u) } t) :
    MicroState i s u b fun m => { uNext (g m) with upc := BitVec.ofNat 14 t } :=
  microState_of hi hc h hk hb (.refl _ _ _) rfl rfl

theorem microPy_on (hu : u < 16) {e : Core → Core} {p : PyRegs → PyRegs}
    (hb : body (uxAt s u b f) = { uxAt s u b f with d := modCore s.dev u e }.on (getMicro s.dev u)) (h1 : ∀ k, (e k).live = p k.live)
    (h2 : ∀ k, (e k).tile = k.tile) (h3 : ∀ k, (e k).ctx = k.ctx) : MicroPy i s u b p id :=
  microPy_of hi hc h hu hk hb (leaves_modCore hu h1 h2 h3 _ _) rfl (upc_next _)

theorem microMe_at (h1 : 16 ≤ u) (h2 : u < 24) {e e' : MeEng → MeEng} (hb : body (uxAt s u b f) = ((uxAt s u b f).me e').on (getMicro s.dev u))
    (he : e' (getMe s.dev (u - 16)) = e (getMe s.dev (u - 16))) : MicroMe i s u b e :=
  microMe_of hi hc h h1 h2 hk hb (leaves_modMe h1 h2 _ _) he rfl rfl rfl

/-- A micro-op of a tree sequencer may also note in the records how long it holds a unit. -/
theorem microTs_at (h1 : 24 ≤ u) {e e' : TsEng → TsEng} (hb : body (uxAt s u b f) = ((uxAt s u b f).ts e').on (getMicro s.dev u))
    (he : ∀ r, ({ e' (getTs s.dev (u - 24)) with sched := r } : TsEng) = { e (getTs s.dev (u - 24)) with sched := r }) : MicroTs i s u b e :=
  microTs_of hi hc h h1 hk hb ((leaves_modTs (f := e') h1 h.seq id id).of_sched (fun _ => rfl) (fun _ _ _ => rfl) fun _ => he) rfl rfl rfl rfl

end

/-- An engine's micro-state is its own: what a micro-op made of it, said of the engine. -/
theorem leaves_uNext {d d' : Dev} {u : Nat} {b : Job} {m : Micro} {g : Micro → Micro}
    (hl : MicroLeaves d d' u b (fun r => withMicro r m) (fun e => { e with micro := m }) fun t => { t with micro := m })
    (hm : m = uNext (g (getMicro d u))) :
    MicroLeaves d d' u b (fun r => withMicro r (uNext (g (getMicro d u)))) (fun e => { e with micro := uNext (g e.micro) })
      fun t => { t with micro := uNext (g t.micro) } := by
  subst hm
  refine hl.of_eq (fun _ => rfl) (fun h1 h2 => ?_) fun h1 => ?_
  · simp only [getMicro_me h1 h2]
  · simp only [getMicro_ts h1]

/-! ## The bodies, case by case -/

theorem uAlu_reserved {n : Nat} (h : 13 ≤ n) (old a b : U64) : uAlu n old a b = none := by
  obtain ⟨k, rfl⟩ := Nat.exists_eq_add_of_le' h
  rfl

theorem ubrCond_reserved {n : Nat} (h : 6 ≤ n) (a b : U64) : ubrCond n a b = none := by
  obtain ⟨k, rfl⟩ := Nat.exists_eq_add_of_le' h
  rfl

theorem fldPy_reserved {n : Nat} (h : 19 ≤ n) (r : PyRegs) : fldPy r n = none := by
  obtain ⟨k, rfl⟩ := Nat.exists_eq_add_of_le' h
  rfl

theorem fldTs_reserved {n : Nat} (h : 7 ≤ n) (d : Dev) (b : Job) : fldTs d b n = none := by
  obtain ⟨k, rfl⟩ := Nat.exists_eq_add_of_le' h
  rfl

/-- The micro-PC after an END: START of the next dispatch entry, or a free value (08 R276; log 124). -/
def uendPc (x : Ux) : BitVec 14 :=
  match (nextIndex x).bind (dispAt x.d x.u) with
  | some e => BitVec.ofNat 14 e.start
  | none => (freeWord x.d).1.setWidth 14

/-- A core's registers at an END: a vector instruction that completes clears VRESUME (07 R224), and the element window is off. -/
def uendRegs (u : Nat) (r : PyRegs) : PyRegs := { r with vresume := if vectorWord u r then 0 else r.vresume, velOn := false }
/-- The device at an END. -/
def uendDev (x : Ux) : Dev :=
  if 16 ≤ x.u then (freeWord x.d).2 else modCore (freeWord x.d).2 x.u fun k => { k with live := uendRegs x.u k.live }

section
variable {x : Ux}

theorem uopGo_op {e : Nat × (U64 → U64 → U64 → U64)} (he : e ∈ uopTable) (hc : x.f.imm.toNat = e.1) :
    uopGo x = x.setA (e.2 x.a x.bv x.cv) := by
  obtain ⟨hv, hlt⟩ := uop_table he x.a x.bv x.cv
  have hhigh : x.f.imm.toNat / 16 = 0 := by omega
  have hlow : x.f.imm.toNat % 16 = e.1 := by omega
  simp [uopGo, hhigh, hlow, hv]

theorem uopGo_reserved (h : 16 ≤ x.f.imm.toNat ∨ 13 ≤ x.f.imm.toNat % 16) : uopGo x = .bad := by
  unfold uopGo
  split
  · rfl
  · rw [uAlu_reserved (by omega)]

theorem uopiGo_op {e : Nat × (U64 → U64 → U64 → U64)} (he : e ∈ uopTable) (hc : x.f.c.toNat % 16 = e.1) :
    uopiGo x = x.setA (e.2 x.a x.bv (x.f.imm.setWidth 64)) := by
  simp [uopiGo, hc, (uop_table he x.a x.bv (x.f.imm.setWidth 64)).1]

theorem uopiGo_reserved (h : 13 ≤ x.f.c.toNat % 16) : uopiGo x = .bad := by
  simp [uopiGo, uAlu_reserved h]

/-- The 12 bits of uA from 12 k on become IMM; of k = 5 only 4 are there. -/
def uinsVal (old : U64) (imm : BitVec 12) (k : Nat) : U64 :=
  (old &&& ~~~ BitVec.ofNat 64 ((2 ^ (if k = 5 then 4 else 12) - 1) * 2 ^ (12 * k)))
    ||| BitVec.ofNat 64 (imm.toNat % 2 ^ (if k = 5 then 4 else 12) * 2 ^ (12 * k))

theorem uinsGo_in (h : x.f.c.toNat % 8 ≤ 5) : uinsGo x = x.setA (uinsVal x.a x.f.imm (x.f.c.toNat % 8)) :=
  if_neg (by omega)

theorem uinsGo_reserved (h : 6 ≤ x.f.c.toNat % 8) : uinsGo x = .bad := if_pos h

theorem fldGo_py {v : U64} (hu : x.u < 16) (hv : fldPy (getCore x.d x.u).live (x.f.imm.toNat % 64) = some v) : fldGo x = x.setA v := by
  simp [fldGo, hu, hv]

theorem fldGo_me {r : U64 × Dev} (h1 : 16 ≤ x.u) (h2 : x.u < 24) (hv : fldMe x.d x.b (x.f.imm.toNat % 64) = some r) :
    fldGo x = { x with d := r.2 }.setA r.1 := by
  simp [fldGo, Nat.not_lt.2 h1, h2, hv]

theorem fldGo_ts {v : U64} (hu : 24 ≤ x.u) (hv : fldTs x.d x.b (x.f.imm.toNat % 64) = some v) : fldGo x = x.setA v := by
  simp [fldGo, show ¬ x.u < 16 by omega, Nat.not_lt.2 hu, hv]

theorem fldGo_reserved (h : x.u < 16 ∧ 19 ≤ x.f.imm.toNat % 64 ∨ 24 ≤ x.u ∧ 7 ≤ x.f.imm.toNat % 64) : fldGo x = .bad := by
  rcases h with ⟨hu, hc⟩ | ⟨hu, hc⟩
  · simp [fldGo, hu, fldPy_reserved hc]
  · simp [fldGo, show ¬ x.u < 16 by omega, Nat.not_lt.2 hu, fldTs_reserved hc]

theorem uccrGo_reserved (h : 7 ≤ x.f.imm.toNat) : uccrGo x = .bad := by
  have h6 : 6 < x.f.imm.toNat := h
  have h2 : 2 < x.f.imm.toNat := by omega
  have h0 : 0 < x.f.imm.toNat := by omega
  simp only [uccrGo, h6, h2, h0, if_true, ite_self]

theorem ubrGo_cond {e : Nat × (U64 → U64 → Bool)} {v : Bool} (he : e ∈ ubrTable) (hc : x.f.c.toNat % 8 = e.1) (hv : e.2 x.a x.bv = v) :
    ubrGo x = if v then x.go x.m (x.m.upc.toNat + x.f.imm.toInt) else x.on x.m := by
  simp only [ubrGo, hc, ubr_table he, hv]
  cases v <;> rfl

theorem ubrGo_reserved (h : 6 ≤ x.f.c.toNat % 8) : ubrGo x = .bad := by
  simp [ubrGo, ubrCond_reserved h]

theorem go_out {m : Micro} {t : Nat} (h : storeSize x.u ≤ t) : x.go m (t : Int) = .bad := by
  refine if_neg fun hin => ?_
  simp only [Bool.and_eq_true, decide_eq_true_eq] at hin
  omega

theorem ucallGo_in (hs : x.m.stack.length < 4) (ht : ufar x.f < storeSize x.u) :
    ucallGo x = .next { x with m := { x.m with stack := (x.m.upc + 1) :: x.m.stack } } (ufar x.f) :=
  (if_neg (by omega)).trans (go_in ht)

theorem uretGo_pop {r : BitVec 14} {rs : List (BitVec 14)} (h : x.m.stack = r :: rs) :
    uretGo x = .next { x with m := { x.m with stack := rs } } r.toNat := by
  simp only [uretGo, h]

theorem uretGo_empty (h : x.m.stack = []) : uretGo x = .bad := by
  simp only [uretGo, h]

theorem ulpendGo_again {t : Nat} (hn : lcOf x.m x.f.a ≠ 0) (ht : t < storeSize x.u) (he : (t : Int) = x.m.upc.toNat + x.f.imm.toInt) :
    ulpendGo x = .next { x with m := lcSet x.m x.f.a (lcOf x.m x.f.a - 1) } t := by
  rw [ulpendGo, if_pos hn, ← he, go_in ht]

theorem ulpendGo_over (hn : lcOf x.m x.f.a = 0) : ulpendGo x = x.on x.m := if_neg fun h => h hn

theorem uendPc_entry {n : Nat} {e : Disp} (hn : nextIndex x = some n) (he : dispAt x.d x.u n = some e) : uendPc x = BitVec.ofNat 14 e.start := by
  simp only [uendPc, hn, Option.bind_some, he]

theorem uendGo_ends (hs : x.m.stack = []) :
    uendGo x = .ended (setMicro (uendDev x) x.u { x.m with upc := uendPc x, run := false }) := if_neg (by simp [hs])

theorem uendDev_leaves (x : Ux) (b : Job) : MicroLeaves x.d (uendDev x) x.u b (uendRegs x.u) id id := by
  have hctr : MicroLeaves x.d (freeWord x.d).2 x.u b id id id := leaves_ctr _ _ _ _
  unfold uendDev
  split
  next hu => exact hctr.of_eq (fun _ => by omega) (fun _ _ => rfl) fun _ => rfl
  next hu => refine hctr.trans (leaves_modCore (Nat.not_le.1 hu) ?_ ?_ ?_ id id) <;> exact fun _ => rfl

theorem uendGo_deep (hs : x.m.stack ≠ []) : uendGo x = .bad := if_pos (by simpa using hs)

end

/-! ## Registers, fields and loops (08 R271, R274, R275) -/

section
variable {s : State} {u : Nat} {b : Job} {f : UFmt} (h : MicroReady s.dev u b)
include h

theorem uUins_inserts (hk : f.c.toNat % 8 ≤ 5) : ∃ v : U64,
    (∀ i < 64, v.getLsbD i =
      let lo := 12 * (f.c.toNat % 8)
      if lo ≤ i ∧ i < lo + 12 then f.imm.getLsbD (i - lo) else (uReg s u f.a).getLsbD i)
    ∧ MicroState (.uUins u f) s u b fun m => uNext (uSet m f.a v) :=
  ⟨uinsVal (uReg s u f.a) f.imm (f.c.toNat % 8), fun i hi => uins_bits _ _ _ i hi, microState_on rfl rfl h rfl (uinsGo_in hk) rfl⟩

theorem uFld_me (h1 : 16 ≤ u) (h2 : u < 24) {r : U64 × Dev} (hv : fldMe s.dev b (f.imm.toNat % 64) = some r) :
    MicroState (.uFld u f) s u b fun m => uNext (uSet m f.a r.1) :=
  microState_of rfl rfl h rfl (fldGo_me (x := uxAt s u b f) h1 h2 hv) (fldMe_leaves hv u b) rfl (upc_next _)

/-- CCR of a core: a derived field that is read has settled on a quiet core. -/
theorem uCcr_py (hu : u < 16) (hn : f.imm.toNat ≤ 6) :
    if f.c.getLsbD 0 then MicroPy (.uCcr u f) s u b (fun r => ccrWrite r f.imm.toNat (uReg s u f.a)) id
    else MicroState (.uCcr u f) s u b fun m => uNext (uSet m f.a (ccrRead (getCore s.dev u).live f.imm.toNat)) := by
  obtain ⟨-, hq⟩ := h.core hu
  have hn' : ¬ 6 < f.imm.toNat := Nat.not_lt.2 hn
  split
  next hw =>
    refine microPy_on rfl rfl h rfl hu (e := fun k => { k with
        live := ccrWrite k.live f.imm.toNat (uReg s u f.a)
        qAt := if f.imm.toNat = 3 then uTime s.dev u + 4 else k.qAt, gAt := if f.imm.toNat = 4 then uTime s.dev u + 4 else k.gAt })
      ?_ (fun _ => rfl) (fun _ => rfl) (fun _ => rfl)
    simp only [uccrGo, uxAt, hu, hn', hw]
    rfl
  next hw =>
    refine microState_on rfl rfl h rfl (g := fun m => uSet m f.a _) ?_ rfl
    have hq3 : ¬ uTime s.dev u < (getCore s.dev u).qAt := Nat.not_lt.2 hq.q
    have hq4 : ¬ uTime s.dev u < (getCore s.dev u).gAt := Nat.not_lt.2 hq.g
    simp only [uccrGo, uxAt, hu, hn', eq_false_of_ne_true hw, hq3, hq4, decide_false, Bool.and_false]
    rfl

theorem uCcr_me (h1 : 16 ≤ u) (h2 : u < 24) (hn : f.imm.toNat ≤ 2) :
    if f.c.getLsbD 0 then MicroMe (.uCcr u f) s u b fun e => { e with lens := e.lens.setIfInBounds f.imm.toNat (uReg s u f.a) }
    else MicroState (.uCcr u f) s u b fun m => uNext (uSet m f.a ((getMe s.dev (u - 16)).lens.toList.getD f.imm.toNat 0)) := by
  have h16 : ¬ u < 16 := Nat.not_lt.2 h1
  have hn' : ¬ 2 < f.imm.toNat := Nat.not_lt.2 hn
  split
  next hw =>
    refine microMe_at rfl rfl h rfl h1 h2 (e' := fun e => { e with lens := e.lens.setIfInBounds f.imm.toNat (uReg s u f.a) }) ?_ rfl
    simp only [uccrGo, uxAt, h16, h2, hn', hw]
    rfl
  next hw =>
    refine microState_on rfl rfl h rfl (g := fun m => uSet m f.a _) ?_ rfl
    simp only [uccrGo, uxAt, h16, h2, hn', eq_false_of_ne_true hw]
    rfl

theorem uCcr_ts (hu : 24 ≤ u) (hn : f.imm = 0) :
    if f.c.getLsbD 0 then MicroTs (.uCcr u f) s u b fun t => { t with owned := uReg s u f.a }
    else MicroState (.uCcr u f) s u b fun m => uNext (uSet m f.a (getTs s.dev (u - 24)).owned) := by
  have h16 : ¬ u < 16 := by omega
  have h24 : ¬ u < 24 := Nat.not_lt.2 hu
  have hn' : ¬ 0 < f.imm.toNat := by simp [hn]
  split
  next hw =>
    refine microTs_at rfl rfl h rfl hu (e' := fun t => { t with owned := uReg s u f.a }) ?_ fun _ => rfl
    simp only [uccrGo, uxAt, h16, h24, hn', hw]
    rfl
  next hw =>
    refine microState_on rfl rfl h rfl (g := fun m => uSet m f.a _) ?_ rfl
    simp only [uccrGo, uxAt, h16, h24, hn', eq_false_of_ne_true hw]
    rfl

/-! ## Branches and the call stack (08 R271, R276) -/

theorem uBr_stays {e : Nat × (U64 → U64 → Bool)} (he : e ∈ ubrTable) (hc : f.c.toNat % 8 = e.1)
    (hv : e.2 (uReg s u f.a) (uReg s u f.b) = false) : MicroState (.uBr u f) s u b uNext :=
  microState_on rfl rfl h rfl (g := id) (ubrGo_cond (x := uxAt s u b f) he hc hv) rfl

theorem uBr_goes {e : Nat × (U64 → U64 → Bool)} (he : e ∈ ubrTable) (hc : f.c.toNat % 8 = e.1)
    (hv : e.2 (uReg s u f.a) (uReg s u f.b) = true) {t : Nat} (ht : t < storeSize u)
    (hto : (t : Int) = (getMicro s.dev u).upc.toNat + f.imm.toInt) :
    MicroState (.uBr u f) s u b fun m => { uNext m with upc := BitVec.ofNat 14 t } := by
  refine microState_goto rfl rfl h rfl (g := id) ((ubrGo_cond (x := uxAt s u b f) he hc hv).trans ?_)
  exact (congrArg ((uxAt s u b f).go (getMicro s.dev u)) hto.symm).trans (go_in ht)

theorem uRet_pops {r : BitVec 14} {rs : List (BitVec 14)} (hs : (getMicro s.dev u).stack = r :: rs) :
    MicroState (.uRet u f) s u b fun m => { uNext m with upc := r, stack := rs } := by
  refine microState_of rfl rfl h rfl (uretGo_pop (x := uxAt s u b f) hs) (.refl _ _ _) rfl ?_
  rw [BitVec.ofNat_toNat, BitVec.setWidth_eq]
  rfl

theorem uFlt_ends (ho : OwnQueues s.dev b) (hc : f.imm.toNat < 256) :
    MicroFaults (.uFlt u f) s u b (0x0500 ||| BitVec.ofNat 16 f.imm.toNat) := by
  refine uFaults_stop rfl rfl h rfl ho (det := (uReg s u f.a).setWidth 16) ?_
  rw [ufltGo, if_neg (by dsimp only; omega), Nat.mod_eq_of_lt hc]
  rfl

/-! ## The yield point and the end of a routine (08 R276, R283; log 124) -/

/-- At a yield point the watchdog's distance starts again (08 R284). -/
theorem yieldDev_leaves : MicroLeaves s.dev (yieldDev s.dev u) u b id id id := leaves_setSched _ b _ h.seq

theorem outstanding_ready : outstanding (getSched s.dev u) = false := by
  unfold outstanding
  rw [Bool.or_eq_false_iff, List.any_eq_false, List.any_eq_false]
  exact ⟨fun e he => by rw [decide_eq_true_eq]; exact Nat.not_lt.2 (h.land e he),
    fun e he => by rw [decide_eq_true_eq]; exact Nat.not_lt.2 (h.free e he)⟩

theorem uYld_deals (hl : late s.dev b.e = false) (hw : MicroWord s.dev u (.uYld u f)) : ∃ d1 b1,
    MicroLeaves s.dev d1 u b (fun r => withMicro r (uNext (getMicro s.dev u))) (fun e => { e with micro := uNext e.micro })
      (fun t => { t with micro := uNext t.micro })
    ∧ (findJob s.dev b.id = some b → findJob d1 b.id = some b1)
    ∧ Gives (.uYld u f) s (if b.cluster then d1 else dealYield d1 b1) := by
  have hb : uyldGo (uxAt s u b f) = .next { uxAt s u b f with d := yieldDev s.dev u } ((getMicro s.dev u).upc.toNat + 1) true :=
    (if_neg (Bool.eq_false_iff.1 (outstanding_ready h))).trans (uYield_go _ h.abort hl)
  obtain ⟨hrun, hleaves⟩ := uRun_deal (kinds := uAny) (use := { cycles := 0 }) h hw rfl rfl hb rfl (yieldDev_leaves h) rfl
  refine ⟨_, _, leaves_uNext (g := id) hleaves (upc_next _), fun hj => uPut_job rfl (b0 := b) ?_,
    congrArg (fun d => (.next { s with dev := d } : Out3)) hrun⟩
  rw [← hj]
  exact congrArg (fun js : Jobs => js.live.find? _) (setSched_jobs _ _ _)

theorem uEnd_ends (hs : (getMicro s.dev u).stack = []) (hw : MicroWord s.dev u (.uEnd u f)) :
    Completes (.uEnd u f) s fun d' => MicroLeaves s.dev d' u b
      (fun r => { withMicro r { getMicro s.dev u with upc := uendPc (uxAt s u b f), run := false } with
        vresume := if vectorWord u r then 0 else r.vresume, velOn := false })
      (fun e => { e with micro := { e.micro with upc := uendPc (uxAt s u b f), run := false } })
      fun t => { t with micro := { t.micro with upc := uendPc (uxAt s u b f), run := false } } := by
  have hb : uendGo (uxAt s u b f)
      = .ended (setMicro (uendDev (uxAt s u b f)) u { getMicro s.dev u with upc := uendPc (uxAt s u b f), run := false }) := uendGo_ends hs
  have hd : MicroLeaves s.dev (uendDev (uxAt s u b f)) u b (uendRegs u) id id := uendDev_leaves (uxAt s u b f) b
  have hl := hd.trans (leaves_setMicro _ b { getMicro s.dev u with upc := uendPc (uxAt s u b f), run := false } h.seq)
  have hhalt : (getStore (setMicro (uendDev (uxAt s u b f)) u { getMicro s.dev u with upc := uendPc (uxAt s u b f), run := false }) u).haltReq
      = false := by rw [MicroLeaves.store hl]; exact h.noHalt
  refine completes_of_onDev _ rfl ((uRun_body h hw rfl rfl hb).trans (takeHalt_idle hhalt)) (hl.of_eq (fun _ => rfl) ?_ ?_)
  · intro h1 h2
    simp only [getMicro_me h1 h2, id]
  · intro h1
    simp only [getMicro_ts h1, id]

end

/-! ## The statement -/

/-- Settles O20: a clause names the branch of the micro-op's body that its premise picks. What END's micro-PC is without a next dispatch
entry is log 124; that the bits a class does not use are ignored is log 133. -/
theorem microCommonResults : Obligations.MicroCommonResults := by
  unfold Obligations.MicroCommonResults
  refine ⟨fun s u f b h => ⟨microState_on rfl rfl h rfl (g := id) rfl rfl,
      fun e he hc => microState_on rfl rfl h rfl (g := fun m => uSet m f.a _) (uopGo_op he hc) rfl,
      fun e he hc => microState_on rfl rfl h rfl (g := fun m => uSet m f.a _) (uopiGo_op he hc) rfl,
      fun hk => uUins_inserts h hk,
      fun hu e he hc => microState_on rfl rfl h rfl (g := fun m => uSet m f.a _) (fldGo_py hu (by rw [← fld_table he, ← hc]; rfl)) rfl,
      fun hu v hv => microState_on rfl rfl h rfl (g := fun m => uSet m f.a v) (fldGo_py hu hv) rfl,
      fun h1 h2 r hv => uFld_me h h1 h2 hv,
      fun hu v hv => microState_on rfl rfl h rfl (g := fun m => uSet m f.a v) (fldGo_ts hu hv) rfl,
      fun hu hn => uCcr_py h hu hn, fun h1 h2 hn => uCcr_me h h1 h2 hn, fun hu hn => uCcr_ts h hu hn,
      fun ho hc => uFlt_ends h ho hc,
      fun e he hc hv => uBr_stays h he hc hv, fun e he hc hv t ht hto => uBr_goes h he hc hv ht hto,
      fun ht => microState_goto rfl rfl h rfl (g := id) (go_in ht),
      fun ht hs => microState_goto rfl rfl h rfl (g := fun m => { m with stack := (m.upc + 1) :: m.stack }) (ucallGo_in hs ht),
      fun r rs hs => uRet_pops h hs,
      microState_on rfl rfl h rfl (g := fun m => lcSet m f.a _) rfl rfl,
      fun hn => microState_on rfl rfl h rfl (g := id) (ulpendGo_over hn) rfl,
      fun hn t ht hto => microState_goto rfl rfl h rfl (g := fun m => lcSet m f.a (lcOf m f.a - 1)) (ulpendGo_again hn ht hto),
      fun hl hw => uYld_deals h hl hw,
      fun hs hw => ⟨_, fun n e hn he => uendPc_entry hn he, uEnd_ends h hs hw⟩⟩,
    fun s u f b h ho => ⟨fun hc => uFaults_bad rfl rfl h rfl ho (uopGo_reserved hc), fun hc => uFaults_bad rfl rfl h rfl ho (uopiGo_reserved hc),
      fun hc => ⟨uFaults_bad rfl rfl h rfl ho (uinsGo_reserved hc), uFaults_bad rfl rfl h rfl ho (ubrGo_reserved hc)⟩,
      fun hu hc => uFaults_bad rfl rfl h rfl ho (fldGo_reserved (.inl ⟨hu, hc⟩)),
      fun hu hc => uFaults_bad rfl rfl h rfl ho (fldGo_reserved (.inr ⟨hu, hc⟩)),
      fun hc => uFaults_bad rfl rfl h rfl ho (uccrGo_reserved hc), fun hs => uFaults_bad rfl rfl h rfl ho (if_pos hs),
      fun hs => uFaults_bad rfl rfl h rfl ho (uretGo_empty hs), fun hs => uFaults_bad rfl rfl h rfl ho (uendGo_deep hs),
      fun ht => uFaults_bad rfl rfl h rfl ho (go_out ht)⟩⟩

end Sys2Proof.Proofs.MicroCommon
end

section
/-!
PROOF. The micro-ops of polynomial cores, modular engines and tree sequencers (08 R273; 04 R148, R149; 06 R179).
-/
namespace Sys2Proof.Proofs.MicroEngine

-- One theorem at a time, as in the tests: the thread stacks of the one text stay within the memory limit.
set_option Elab.async false

open Sys2Proof.Machine Sys2Proof.Safety Sys2Proof.Laws
open Sys2Proof.Proofs.PyJob (completes_of_onDev)
open Sys2Proof.Proofs.MicroCommon (uxAt microState_on microPy_on microMe_at microTs_at leaves_uNext yieldDev yieldDev_leaves)

/-! ## Registers of a core: XMOV, VEL and MKV -/

section
variable {s : State} {u : Nat} {b : Job} {f : UFmt} (h : MicroReady s.dev u b) (hu : u < 16)
include h hu

theorem uXmov_moves :
    let n : BitVec 5 := (uReg s u f.b).setWidth 5
    if f.c.getLsbD 0 then MicroPy (.uXmov u f) s u b (fun r => xSet r n (uReg s u f.a)) id
    else MicroState (.uXmov u f) s u b fun m => uNext (uSet m f.a (xGet (getCore s.dev u).live n)) := by
  intro n
  have hk : uPy u = true := decide_eq_true hu
  obtain ⟨-, hq⟩ := h.core hu
  have hready : ¬ (n ≠ 0 && !(if f.c.getLsbD 0 then archLands s.dev u (rx n) else archReady s.dev u (rx n))) = true := by
    rw [quiet_lands hq, quiet_arch hq, ite_self]
    simp
  split
  next hw =>
    exact microPy_on rfl rfl h hk hu (e := fun k => { k with live := xSet k.live n (uReg s u f.a) })
      ((if_neg hready).trans (if_pos hw)) (fun _ => rfl) (fun _ => rfl) (fun _ => rfl)
  next hw =>
    exact microState_on rfl rfl h hk (g := fun m => uSet m f.a _) ((if_neg hready).trans (if_neg hw)) rfl

theorem uVel_sets : MicroPy (.uVel u f) s u b
    (fun r => { r with velLo := (uReg s u f.b).setWidth 12, velHi := (uReg s u f.c).setWidth 12, velOn := true }) id :=
  microPy_on rfl rfl h (decide_eq_true hu) hu (e := fun k => { k with live := { k.live with
    velLo := (uReg s u f.b).setWidth 12, velHi := (uReg s u f.c).setWidth 12, velOn := true } }) rfl (fun _ => rfl) (fun _ => rfl) fun _ => rfl

theorem uMkv_reads (hc : f.c.getLsbD 0 = false) : MicroState (.uMkv u f) s u b fun m =>
    uNext (uSet m f.a ((mReg (getCore s.dev u).live ((uReg s u f.b).toNat % 8)).extractLsb' (64 * (f.imm.toNat % 4)) 64)) := by
  obtain ⟨-, hq⟩ := h.core hu
  refine microState_on rfl rfl h (decide_eq_true hu) (g := fun m => uSet m f.a _) ?_ rfl
  simp only [umkvGo, uxAt, hc, quiet_arch hq]
  rfl

theorem uMkv_writes (hc : f.c.getLsbD 0 = true) :
    let q := (uReg s u f.b).toNat % 8
    let lo := 64 * (f.imm.toNat % 4)
    ∃ v : BitVec 256,
      (∀ i < 256, v.getLsbD i = if lo ≤ i ∧ i < lo + 64 then (uReg s u f.a).getLsbD (i - lo) else (mReg (getCore s.dev u).live q).getLsbD i)
      ∧ MicroPy (.uMkv u f) s u b (fun r => mPut r q v) id := by
  intro q lo
  obtain ⟨-, hq⟩ := h.core hu
  let v : BitVec 256 := (mReg (getCore s.dev u).live q &&& ~~~ ((BitVec.allOnes 64).setWidth 256 <<< lo)) ||| ((uReg s u f.a).setWidth 256 <<< lo)
  refine ⟨v, fun i hi => mkv_bits _ _ _ i hi, ?_⟩
  refine microPy_on rfl rfl h (decide_eq_true hu) hu (e := fun k => { k with live := mPut k.live q v }) ?_ (fun _ => rfl) (fun _ => rfl)
    fun _ => rfl
  simp only [umkvGo, uxAt, hc, quiet_lands hq]
  rfl

end

/-! ## The tile and the datapath: UISS, TLS and VLN (07 R226, R227, R230, R258) -/

/-- The direction of TLS is bit 2 of C. -/
theorem exec_uTls (s : State) (u : Nat) {f : UFmt} {store : Bool} (hc : f.c.getLsbD 2 = store) :
    exec (.uTls u f) s
      = onDev s (uRun u 20 f uPy { reads := if store then [ru f.a, ru f.b] else [ru f.b] } (tlsGo (2 ^ (f.c.toNat % 4)) store)) := by
  subst hc
  rfl

section
variable {s : State} {u : Nat} {b : Job} {f : UFmt} (h : MicroReady s.dev u b) (hu : u < 16)
include h hu

theorem uUiss_starts {op : PyOp} {p : Px} (hi : f.imm.toNat < 1024)
    (hop : pyOpOf (uissWord (getCore s.dev u).live.word (fmtOf (f.imm.toNat / 8) (f.imm.toNat % 8)) ((uReg s u f.a).setWidth 5)
      ((uReg s u f.b).setWidth 5) ((uReg s u f.c).setWidth 5)) (f.imm.toNat / 8) (f.imm.toNat % 8) = some op)
    (hl : (op.use (uAt s u b)).legal = true) (hc : (op.use (uAt s u b)).clash = false) (hb : op.body (uAt s u b) = .next p) (hpd : p.d = s.dev)
    (hpc : p.c = u) (hpb : p.b.id = b.id) (hj : p.jump = none) (hd : p.deal = false) :
    MicroPy (.uUiss u f) s u b (fun _ => { p.r with velOn := false }) id := by
  have hbody : uuissGo (uxAt s u b f) = uDatapath op (uxAt s u b f) := by
    have hmod : f.imm.toNat % 1024 = f.imm.toNat := Nat.mod_eq_of_lt hi
    have hdiv : f.imm.toNat / 1024 = 0 := Nat.div_eq_of_lt hi
    unfold uReg at hop
    simp only [uuissGo, uxAt, Ux.a, Ux.bv, Ux.cv, hmod, hdiv, hop]
    rfl
  refine uDatapath_regs rfl rfl h hu hbody hl hc hb hpc hpb ⟨s.dev.glob.freeCtr, hpd⟩ hd ?_
  rw [hj]
  rfl

theorem uTls_loads {tc off : Nat} (hc : f.c.toNat % 8 < 4) (ha : (uReg s u f.b + f.imm.signExtend 64).toNat % 2 ^ (f.c.toNat % 4) = 0)
    (ht : tilePlace (uAt s u b) (uReg s u f.b + f.imm.signExtend 64).toNat (2 ^ (f.c.toNat % 4)) = some (tc, off))
    (he : elStop (uAt s u b) (uReg s u f.b + f.imm.signExtend 64).toNat (2 ^ (f.c.toNat % 4)) false = none)
    (hs : lineStale (uAt s u b) tc (off / 256) = false) :
    MicroState (.uTls u f) s u b fun m =>
      uNext (uSet m f.a (BitVec.ofNat 64 (leNat (memRead (getCore s.dev tc).tile off (2 ^ (f.c.toNat % 4)))))) :=
  tls_load h hu ha ht he hs (exec_uTls s u ((mod8_lt f.c).1.trans (decide_eq_false (Nat.not_le.2 hc)))) rfl

theorem uTls_stores {tc off : Nat} (hc : 4 ≤ f.c.toNat % 8) (ha : (uReg s u f.b + f.imm.signExtend 64).toNat % 2 ^ (f.c.toNat % 4) = 0)
    (ht : tilePlace (uAt s u b) (uReg s u f.b + f.imm.signExtend 64).toNat (2 ^ (f.c.toNat % 4)) = some (tc, off))
    (hp : pageAt (uAt s u b) (uReg s u f.b + f.imm.signExtend 64).toNat = none) (hm : memWf (getCore s.dev tc).tile = true)
    (hw : MicroWord s.dev u (.uTls u f)) :
    Completes (.uTls u f) s fun d' => PyStored s.dev d' u b (withMicro (getCore s.dev u).live (uNext (getMicro s.dev u))) tc off
      (leBytes (2 ^ (f.c.toNat % 4)) (uReg s u f.a).toNat) :=
  tls_store h hu ha ht hp (Nat.two_pow_pos _) hm (exec_uTls s u ((mod8_lt f.c).1.trans (decide_eq_true hc))) rfl hw

end

/-! ### Lines between a register and the tile -/

theorem tilePlace_of_elStop {p : Px} {a n : Nat} {store : Bool} (h : elStop p a n store = none) : (tilePlace p a n).isSome := by
  unfold elStop at h
  split at h
  next => cases h
  next hp => exact Option.isSome_iff_ne_none.2 fun e => hp (by rw [e]; rfl)

theorem vlnEls_lt {r : PyRegs} {i : Nat} (hi : i ∈ vlnEls r) : i < 4096 := by
  have hi' : i < 2048 / sewOf r := List.mem_range.1 ((List.mem_filter.1 hi).1)
  have hle : 2048 / sewOf r ≤ 2048 := Nat.div_le_self _ _
  omega

/-- A line of a vector register, stored element by element. -/
def vlnStored (p : Px) (addr w n : Nat) : Px :=
  (vlnEls p.r).foldl (fun q i => tileWrite q (addr + i * w) w (elAt (8 * w) (vReg p.r n).toNat i)) p

theorem vlnStored_does {p : Px} {addr w : Nat} (hw : sewOf p.r / 8 = w) (ha : addr % 256 = 0) (hc : p.c < 16)
    (hs : ∀ i ∈ vlnEls p.r, elStop p (addr + i * w) w true = none) (hm : ∀ k, memWf (getCore p.d k).tile = true) (n : Nat) :
    vlnStored p addr w n = { p with d := (vlnStored p addr w n).d } ∧ TilesOnly p.d (vlnStored p addr w n).d
    ∧ (∀ i ∈ vlnEls p.r, ∀ tc off, tilePlace p (addr + i * w) w = some (tc, off) →
        memRead (getCore (vlnStored p addr w n).d tc).tile off w = leBytes w (elAt (8 * w) (vReg p.r n).toNat i))
    ∧ ∀ k x, (∀ i ∈ vlnEls p.r, ∀ off, tilePlace p (addr + i * w) w = some (k, off) → x < off ∨ off + w ≤ x) →
        memByte (getCore (vlnStored p addr w n).d k).tile x = memByte (getCore p.d k).tile x := by
  have hsew : w = 1 ∨ w = 2 ∨ w = 4 ∨ w = 8 := hw ▸ (sewBytes p.r).1
  have haw : addr % w = 0 := by rcases hsew with rfl | rfl | rfl | rfl <;> omega
  exact storeEls w hsew addr haw _ (vlnEls p.r) p (List.Pairwise.filter _ List.nodup_range) hc (fun i hi => tilePlace_of_elStop (hs i hi)) hm

section
variable {p : Px} {v : BitVec 5} {addr n w : Nat} (hv : v.toNat = n) (hw : sewOf p.r / 8 = w) (ha : addr % 256 = 0)
include hv hw ha

/-- A line whose elements all may be moved is moved whole. -/
theorem vlnOp_load (hs : ∀ i ∈ vlnEls p.r, elStop p (addr + i * w) w false = none) :
    (vlnOp v addr false).body p = .next (freeUse { p with
      r := vPut p.r n 1 (elPack (8 * w) ((List.range (2048 / (8 * w))).map fun i =>
        if (vlnEls p.r).contains i then tileRead p (addr + i * w) w i else elAt (8 * w) (vReg p.r n).toNat i)) } 256) := by
  have hnone : ((vlnEls p.r).findSome? fun i => (elStop p (addr + i * w) w false).map fun s => (i, s)) = none :=
    List.findSome?_eq_none_iff.2 fun i hi => by rw [hs i hi]; rfl
  have hall : ∀ i, (decide (i < 4096) && (vlnEls p.r).contains i) = (vlnEls p.r).contains i := fun i => by
    by_cases hi : i ∈ vlnEls p.r
    · simp [vlnEls_lt hi]
    · simp [hi]
  simp only [vlnOp, hv, hw, ha, hnone, hall]
  rfl

theorem vlnOp_store (hs : ∀ i ∈ vlnEls p.r, elStop p (addr + i * w) w true = none) :
    (vlnOp v addr true).body p = .next (vlnStored p addr w n) := by
  have hnone : ((vlnEls p.r).findSome? fun i => (elStop p (addr + i * w) w true).map fun s => (i, s)) = none :=
    List.findSome?_eq_none_iff.2 fun i hi => by rw [hs i hi]; rfl
  have hall : (vlnEls p.r).filter (· < 4096) = vlnEls p.r := List.filter_eq_self.2 fun i hi => decide_eq_true (vlnEls_lt hi)
  simp only [vlnOp, hv, hw, ha, hnone, hall]
  rfl

end

theorem exec_uVln (u : Nat) (f : UFmt) (s : State) : exec (.uVln u f) s = onDev s (uRun u 18 f uPy { reads := [ru f.a, ru f.b] } fun x =>
    uDatapath (vlnOp (x.a.setWidth 5) x.bv.toNat (f.c.getLsbD 0)) x) := rfl

theorem uVln_body {s : State} {u : Nat} {b : Job} {f : UFmt} {a : Nat} {store : Bool} (haddr : (uReg s u f.b).toNat = a)
    (hc : f.c.getLsbD 0 = store) :
    uDatapath (vlnOp ((uxAt s u b f).a.setWidth 5) (uxAt s u b f).bv.toNat (f.c.getLsbD 0)) (uxAt s u b f)
      = uDatapath (vlnOp ((uReg s u f.a).setWidth 5) a store) (uxAt s u b f) := by
  subst haddr hc
  rfl

section
variable {s : State} {u : Nat} {b : Job} {f : UFmt} {a n w : Nat} (h : MicroReady s.dev u b) (hu : u < 16)
  (haddr : (uReg s u f.b).toNat = a) (hn : (uReg s u f.a).toNat % 32 = n) (hw : sewOf (getCore s.dev u).live / 8 = w) (ha : a % 256 = 0)
include h hu haddr hn hw ha

theorem uVln_loads (hc : f.c.getLsbD 0 = false)
    (hs : ∀ i ∈ vlnEls (getCore s.dev u).live, elStop (uAt s u b) (a + i * w) w false = none) :
    ∃ ld : Nat → Nat,
      (∀ i tc off, tilePlace (uAt s u b) (a + i * w) w = some (tc, off) → lineStale (uAt s u b) tc (off / 256) = false →
        ld i = leNat (memRead (getCore s.dev tc).tile off w))
      ∧ MicroPy (.uVln u f) s u b (fun r =>
          { vPut r n 1 (elPack (8 * w) ((List.range (2048 / (8 * w))).map fun i =>
              if (vlnEls r).contains i then ld i else elAt (8 * w) (vReg r n).toNat i)) with velOn := false }) id := by
  refine ⟨fun i => tileRead (uAt s u b) (a + i * w) w i, fun i tc off ht hfresh => ?_, ?_⟩
  · simp only [tileRead, ht, hfresh]
    rfl
  · have hbody := vlnOp_load (p := uAt s u b) (v := (uReg s u f.a).setWidth 5) ((BitVec.toNat_setWidth _ _).trans hn) hw ha hs
    exact uDatapath_regs (exec_uVln u f s) rfl h hu (uVln_body haddr hc) rfl rfl hbody rfl rfl ⟨_, rfl⟩ rfl rfl

theorem uVln_stores (hc : f.c.getLsbD 0 = true)
    (hs : ∀ i ∈ vlnEls (getCore s.dev u).live, elStop (uAt s u b) (a + i * w) w true = none)
    (hm : ∀ k, memWf (getCore s.dev k).tile = true) (hword : MicroWord s.dev u (.uVln u f)) :
    Completes (.uVln u f) s fun d' =>
      PyStoredEls s.dev d' u b { withMicro (getCore s.dev u).live (uNext (getMicro s.dev u)) with velOn := false }
        (vlnEls (getCore s.dev u).live) w (fun i => tilePlace (uAt s u b) (a + i * w) w)
        (elAt (8 * w) (vReg (getCore s.dev u).live n).toNat) := by
  have hbody := vlnOp_store (p := uAt s u b) (v := (uReg s u f.a).setWidth 5) ((BitVec.toNat_setWidth _ _).trans hn) hw ha hs
  obtain ⟨hpx, ⟨⟨cs, hdev⟩, hkeep⟩, hbytes, hother⟩ := vlnStored_does (p := uAt s u b) hw ha hu hs hm n
  generalize vlnStored (uAt s u b) a w n = q at hpx hdev hkeep hbytes hother hbody
  have hqr : q.r = (getCore s.dev u).live := by rw [hpx]; rfl
  have hqj : q.jump = none := by rw [hpx]; rfl
  obtain ⟨t, hx, hp, hlive, hlives, htile, hctx, hjobs, hrest⟩ := uDatapath_next (exec_uVln u f s) rfl h hu (uVln_body haddr hc) rfl rfl
    hbody (by rw [hpx]; rfl) (by rw [hpx]; rfl) hword (by rw [hdev]; rfl) (by rw [hpx]; rfl)
  refine ⟨t, hx, hp, ?_, ?_, ?_, ?_, ?_, ?_, ?_⟩
  · rw [hlive, hqr, hqj]
    rfl
  · exact fun i hi tc off ho => by rw [htile]; exact hbytes i hi tc off ho
  · exact fun k x hx => by rw [htile]; exact hother k x hx
  · exact fun k hk => (hlives k hk).trans (hkeep k).1
  · exact fun k => (hctx k).trans (hkeep k).2
  · exact fun n hn => (hjobs n hn).trans (by rw [hdev]; rfl)
  · unfold SameDevice
    rw [hrest, hdev]
    rfl

end

/-! ## The engines: their own change, and the key port -/

/-- Of an engine only its own change counts. -/
theorem leaves_me {d d' : Dev} {u : Nat} {b : Job} {p p' e t t'} (h : MicroLeaves d d' u b p e t) (h1 : 16 ≤ u) (h2 : u < 24) :
    MicroLeaves d d' u b p' e t' := h.of_eq (fun _ => by omega) (fun _ _ => rfl) fun _ => by omega
theorem leaves_ts {d d' : Dev} {u : Nat} {b : Job} {p p' e e' t} (h : MicroLeaves d d' u b p e t) (h1 : 24 ≤ u) :
    MicroLeaves d d' u b p' e' t := h.of_eq (fun _ => by omega) (fun _ _ => by omega) fun _ => rfl

section
variable {i : Instr} {s : State} {u c : Nat} {b : Job} {f : UFmt} {kinds : Nat → Bool} {use : UUse} {body : Ux → UEnd}
  (hi : exec i s = onDev s (uRun u c f kinds use body)) (hc : microCode i = some (c, f)) (h : MicroReady s.dev u b) (hk : kinds u = true)
include hi hc h hk

/-- A line of the new key goes through the key port. -/
theorem portPut_leaves (hu : 16 ≤ u) {line : Nat} {bs : Bytes}
    (hb : body (uxAt s u b f) = { uxAt s u b f with d := portPut s.dev b line bs }.on (getMicro s.dev u))
    (hm : mapWf {} s.dev.io = true) (hw : MicroWord s.dev u i) :
    Completes i s fun d' => (mapGet {} d'.io b.id).newKey = memWrite (mapGet {} s.dev.io b.id).newKey (64 * line) bs
      ∧ MicroLeaves s.dev d' u b (fun r => withMicro r (uNext (getMicro s.dev u))) (fun e => { e with micro := uNext e.micro })
        fun t => { t with micro := uNext t.micro } := by
  obtain ⟨hrun, hleaves⟩ := uRun_next (use := use) h hw hc hk hb (leaves_io s.dev u b _) rfl
  exact completes_of_onDev _ hi rfl ⟨by rw [hrun]; exact put_newKey rfl hm hu _ _ _, leaves_uNext (g := id) hleaves (upc_next _)⟩

end

/-! ## Modular engines (08 R273; 06 R179, R180; log 54) -/

theorem uMe_of {u : Nat} (h1 : 16 ≤ u) (h2 : u < 24) : uMe u = true := by simp [uMe, h1, h2]

section
variable {x : Ux}

theorem uslnGo_load (hc : x.f.c.getLsbD 0 = false) : uslnGo x = (x.me fun e =>
    { e with bufs := e.bufs.setIfInBounds (x.f.imm.toNat % 4) (BitVec.ofNat 512 (leNat (memRead e.slate (lineByte x.bv) 64))) }).on x.m := by
  simp only [uslnGo, hc]
  rfl

theorem uslnGo_store (hc : x.f.c.getLsbD 0 = true) : uslnGo x = (x.me fun e =>
    { e with slate := memWrite e.slate (lineByte x.bv) (leBytes 64 (e.bufs.toList.getD (x.f.imm.toNat % 4) 0).toNat) }).on x.m := by
  simp only [uslnGo, hc]
  rfl

theorem upadGo_sha256 (hc : x.f.imm = 0) :
    upadGo x = (x.me fun e => { e with pad := unitSha e.pad 2 (memRead x.eng.slate (lineByte x.bv) 64) }).on x.m := by
  simp only [upadGo, hc]
  rfl

theorem upadGo_sha512 (hc : x.f.imm = 1) :
    upadGo x = (x.me fun e => { e with pad := unitSha e.pad 4 (memRead x.eng.slate (lineByte x.bv) 128) }).on x.m := by
  simp only [upadGo, hc]
  rfl

theorem upadGo_keccak (hc : x.f.imm = 2) :
    upadGo x = (x.me fun e => { e with pad := unitKeccak (unitAbsorb e.pad (memRead x.eng.slate (lineByte x.bv) 64)) }).on x.m := by
  simp only [upadGo, hc]
  rfl

theorem ukplMeGo_read (hc : x.f.c.getLsbD 0 = false) : ukplMeGo x = (x.me fun e =>
    { e with slate := memWrite e.slate (lineByte x.a) (slice (portBytes x.d x.b) (64 * x.bv.toNat) 64) }).on x.m :=
  if_neg (Bool.eq_false_iff.1 hc)

theorem ukplMeGo_write (hc : x.f.c.getLsbD 0 = true) : ukplMeGo x
    = { x with d := portPut x.d x.b (x.bv.toNat % 2 ^ 14) (memRead x.eng.slate (lineByte x.a) 64) }.on x.m := if_pos hc

section
variable (hn : 1 ≤ x.f.imm.toNat % 128) (hn' : x.f.imm.toNat % 128 ≤ 64)
include hn hn'

theorem uhioGo_out (hc : x.f.c.getLsbD 0 = true) :
    uhioGo x = uOut x x.bv.toNat (memRead x.eng.slate (lineByte x.a) (x.f.imm.toNat % 128)) := by
  have h0 : x.f.imm.toNat % 128 ≠ 0 := by omega
  have h64 : ¬ 64 < x.f.imm.toNat % 128 := Nat.not_lt.2 hn'
  simp only [uhioGo, h0, h64, hc]
  rfl

theorem uhioGo_in (hc : x.f.c.getLsbD 0 = false) (hl : min x.b.e.inLen.toNat (x.bv.toNat + x.f.imm.toNat % 128) ≤ x.b.inData.length) :
    uhioGo x = (x.me fun e =>
      { e with slate := memWrite e.slate (lineByte x.a) (slice x.b.inData x.bv.toNat (x.f.imm.toNat % 128)) }).on x.m := by
  have h0 : x.f.imm.toNat % 128 ≠ 0 := by omega
  have h64 : ¬ 64 < x.f.imm.toNat % 128 := Nat.not_lt.2 hn'
  simp only [uhioGo, h0, h64, hc, Nat.not_lt.2 hl]
  rfl

end

/-! ### MAC: the accumulator P2:P3 after one pass -/

/-- The accumulator takes a value; MAC has used up sixteen free values. -/
def macPut (x : Ux) (v : Nat) : Ux :=
  let d := modMe x.d (x.u - 16) fun e =>
    { e with bufs := (e.bufs.setIfInBounds 2 (BitVec.ofNat 512 v)).setIfInBounds 3 (BitVec.ofNat 512 (v / 2 ^ 512)) }
  { x with d := { d with glob.freeCtr := d.glob.freeCtr + 16 } }

/-- Operand buffer `i` of a modular engine, and what MAC multiplies and accumulates. -/
def bufOf (x : Ux) (i : Nat) : Nat := (x.eng.bufs.toList.getD i 0).toNat
def limbOf (x : Ux) : Nat := bufOf x 1 / 2 ^ (64 * (x.bv.toNat % 8)) % 2 ^ 64
def accOf (x : Ux) : Nat := bufOf x 2 + bufOf x 3 * 2 ^ 512
def montOf (x : Ux) : Nat := leNat (memRead x.eng.slate (lineByte x.cv) 8)

theorem umacGo_multiply (hc : x.f.imm.toNat % 16 = 0) : umacGo x = (macPut x (bufOf x 0 * limbOf x)).on x.m := by
  simp only [umacGo, hc]
  rfl
theorem umacGo_accumulate (hc : x.f.imm.toNat % 16 = 1) : umacGo x = (macPut x (accOf x + bufOf x 0 * limbOf x)).on x.m := by
  simp only [umacGo, hc]
  rfl
theorem umacGo_add (hc : x.f.imm.toNat % 16 = 3) : umacGo x = (macPut x (accOf x + bufOf x 0)).on x.m := by
  simp only [umacGo, hc]
  rfl
theorem umacGo_subtract (hc : x.f.imm.toNat % 16 = 4) : umacGo x = (macPut x (accOf x + 2 ^ 1024 - bufOf x 0)).on x.m := by
  simp only [umacGo, hc]
  rfl

/-- The Montgomery step adds the multiple of the modulus that clears the low limb, and drops that limb. -/
theorem umacGo_montgomery {n : Nat} (hn : (meModulus x.d x.b).filter (· < 2 ^ 512) = some n) (hc : x.f.imm.toNat % 16 = 2) :
    umacGo x = (macPut x ((accOf x + accOf x * montOf x % 2 ^ 64 * n) / 2 ^ 64)).on x.m := by
  simp only [umacGo, hc, hn]
  rfl
theorem umacGo_reduce {n : Nat} (hn : (meModulus x.d x.b).filter (· < 2 ^ 512) = some n) (hc : x.f.imm.toNat % 16 = 5) :
    umacGo x = (macPut x (if n ≤ accOf x then accOf x - n else accOf x)).on x.m := by
  simp only [umacGo, hc, hn]
  rfl

/-- Without a modulus both steps still put some value (log 54). -/
theorem umacGo_puts (hc : x.f.imm.toNat % 16 = 2 ∨ x.f.imm.toNat % 16 = 5) : ∃ v, umacGo x = (macPut x v).on x.m := by
  rcases hc with hc | hc
  · exact ⟨_, by simp only [umacGo, hc]; rfl⟩
  · exact ⟨_, by simp only [umacGo, hc]; rfl⟩

theorem modulus_filter {d : Dev} {b : Job} {n : Nat} (hn : meModulus d b = some n) (hlt : n < 2 ^ 512) :
    (meModulus d b).filter (· < 2 ^ 512) = some n := by
  rw [hn, Option.filter_some, if_pos (decide_eq_true hlt)]

end

/-! ## Tree sequencers (08 R273; 04 R148, R149; log 54) -/

/-- The unit that HUI names, the node line that it takes, and the sequencer with the unit's new content. -/
def unitAt (x : Ux) : HashBank := unitOf x.tree (x.a.toNat % 16)
def lineAt (x : Ux) : Bytes := memRead x.tree.node (lineByte x.bv) 64
def unitPut (x : Ux) (h : HashBank) (t : TsEng) : TsEng := { t with units := t.units.setIfInBounds (x.a.toNat % 16) h }
/-- A unit that permutes or compresses is held for its cycles (04 R126). -/
def unitHeld (x : Ux) (h : HashBank) (t : TsEng) : TsEng :=
  { unitPut x h t with sched := { t.sched with
      free := mapSet 0 t.sched.free (16 + x.a.toNat % 16) (t.sched.nextT + huiCycles (x.a.toNat % 16)) } }

section
variable {x : Ux}

section
variable (hfree : mapGet 0 x.tree.sched.free (16 + x.a.toNat % 16) ≤ x.tree.sched.nextT)
include hfree

theorem uhuiGo_init (hc : x.f.imm.toNat % 16 = 0) : uhuiGo x = (x.ts (unitPut x {})).on x.m := by
  simp only [uhuiGo, Nat.not_lt.2 hfree, hc]
  rfl

theorem uhuiGo_absorb (hc : x.f.imm.toNat % 16 = 1) (hu : x.a.toNat % 16 < 12) :
    uhuiGo x = (x.ts (unitPut x (unitAbsorb (unitAt x) (lineAt x)))).on x.m := by
  simp only [uhuiGo, Nat.not_lt.2 hfree, hc, Nat.not_le.2 hu]
  rfl

theorem uhuiGo_block (hc : x.f.imm.toNat % 16 = 1) (hu : 12 ≤ x.a.toNat % 16) : uhuiGo x
    = (x.ts (unitPut x { unitAt x with keccak := (unitAt x).keccak.set 0 (BitVec.ofNat 1600 (leNat (lineAt x))) })).on x.m := by
  simp only [uhuiGo, Nat.not_lt.2 hfree, hc, hu]
  rfl

theorem uhuiGo_permute (hc : x.f.imm.toNat % 16 = 2) (hu : x.a.toNat % 16 < 12) :
    uhuiGo x = (x.ts (unitHeld x (unitKeccak (unitAt x)))).on x.m := by
  simp only [uhuiGo, Nat.not_lt.2 hfree, hc, Nat.not_le.2 hu]
  rfl

theorem uhuiGo_compress (hc : x.f.imm.toNat % 16 = 2) (hu : 12 ≤ x.a.toNat % 16) :
    uhuiGo x = (x.ts (unitHeld x (unitSha (unitAt x) 2 (leBytes 64 (unitAt x).keccak[0].toNat)))).on x.m := by
  simp only [uhuiGo, Nat.not_lt.2 hfree, hc, hu]
  rfl

theorem uhuiGo_squeeze (hc : x.f.imm.toNat % 16 = 3) (hu : x.a.toNat % 16 < 12) : uhuiGo x = (x.ts fun t =>
    { unitPut x { unitAt x with pos := (unitAt x).pos + 64 } t with
      node := memWrite t.node (lineByte x.bv) (slice (leBytes 200 (unitAt x).keccak[0].toNat) (unitAt x).pos 64) }).on x.m := by
  simp only [uhuiGo, Nat.not_lt.2 hfree, hc, Nat.not_le.2 hu]
  rfl

theorem uhuiGo_digest (hc : x.f.imm.toNat % 16 = 3) (hu : 12 ≤ x.a.toNat % 16) : uhuiGo x
    = (x.ts fun t => { t with node := memWrite t.node (lineByte x.bv) (fit 64 (unitDigest (unitAt x))) }).on x.m := by
  simp only [uhuiGo, Nat.not_lt.2 hfree, hc, hu]
  rfl

end

theorem unbmGo_out (hc : x.f.c.getLsbD 0 = true) : unbmGo x = uOut x x.bv.toNat (memRead x.tree.node (lineByte x.a) 64) := if_pos hc

theorem unbmGo_in (hc : x.f.c.getLsbD 0 = false) (hl : min x.b.e.inLen.toNat (x.bv.toNat + 64) ≤ x.b.inData.length) :
    unbmGo x = (x.ts fun t => { t with node := memWrite t.node (lineByte x.a) (slice x.b.inData x.bv.toNat 64) }).on x.m :=
  (if_neg (Bool.eq_false_iff.1 hc)).trans (if_neg (Nat.not_lt.2 hl))

theorem ukplTsGo_read (hc : x.f.c.getLsbD 0 = false) : ukplTsGo x = (x.ts fun t =>
    { t with node := memWrite t.node (lineByte x.a) (slice (portBytes x.d x.b) (64 * x.bv.toNat) 64) }).on x.m :=
  if_neg (Bool.eq_false_iff.1 hc)

theorem ukplTsGo_write (hc : x.f.c.getLsbD 0 = true) : ukplTsGo x
    = { x with d := portPut x.d x.b (x.bv.toNat % 2 ^ 14) (memRead x.tree.node (lineByte x.a) 64) }.on x.m := if_pos hc

end

theorem uMac_puts {s : State} {u : Nat} {b : Job} {f : UFmt} (h : MicroReady s.dev u b) (h1 : 16 ≤ u) (h2 : u < 24) {v : Nat}
    (hb : umacGo (uxAt s u b f) = (macPut (uxAt s u b f) v).on (getMicro s.dev u)) : MicroMe (.uMac u f) s u b fun e =>
      { e with bufs := (e.bufs.setIfInBounds 2 (BitVec.ofNat 512 v)).setIfInBounds 3 (BitVec.ofNat 512 (v / 2 ^ 512)) } :=
  mac_ok (c := 17) h h1 h2 (uMe_of h1 h2) v hb

/-! ### The key port, written, on both types of engine -/

theorem uKplMe_writes {s : State} {u : Nat} {b : Job} {f : UFmt} (h : MicroReady s.dev u b) (h1 : 16 ≤ u) (h2 : u < 24)
    (hc : f.c.getLsbD 0 = true) (hm : mapWf {} s.dev.io = true) (hw : MicroWord s.dev u (.uKplMe u f)) :
    Completes (.uKplMe u f) s fun d' => (mapGet {} d'.io b.id).newKey
        = memWrite (mapGet {} s.dev.io b.id).newKey (64 * ((uReg s u f.b).toNat % 2 ^ 14))
            (memRead (getMe s.dev (u - 16)).slate ((uReg s u f.a).toNat % 1024 * 64) 64)
      ∧ MicroLeaves s.dev d' u b id (fun e => { e with micro := uNext e.micro }) id := by
  obtain ⟨t, hx, hp, hkey, hl⟩ := portPut_leaves rfl rfl h (uMe_of h1 h2) h1 (ukplMeGo_write (x := uxAt s u b f) hc) hm hw
  exact ⟨t, hx, hp, hkey, leaves_me hl h1 h2⟩

theorem uKplTs_writes {s : State} {u : Nat} {b : Job} {f : UFmt} (h : MicroReady s.dev u b) (h1 : 24 ≤ u)
    (hc : f.c.getLsbD 0 = true) (hm : mapWf {} s.dev.io = true) (hw : MicroWord s.dev u (.uKplTs u f)) :
    Completes (.uKplTs u f) s fun d' => (mapGet {} d'.io b.id).newKey
        = memWrite (mapGet {} s.dev.io b.id).newKey (64 * ((uReg s u f.b).toNat % 2 ^ 14))
            (memRead (getTs s.dev (u - 24)).node ((uReg s u f.a).toNat % 1024 * 64) 64)
      ∧ MicroLeaves s.dev d' u b id id fun t => { t with micro := uNext t.micro } := by
  obtain ⟨t, hx, hp, hkey, hl⟩ := portPut_leaves rfl rfl h (decide_eq_true h1) (by omega) (ukplTsGo_write (x := uxAt s u b f) hc) hm hw
  exact ⟨t, hx, hp, hkey, leaves_ts hl h1⟩

/-! ### SST: the next index of a stateful key (04 R149, R151; 08 R283) -/

section
variable {s : State} {u : Nat} {b : Job} {f : UFmt} (h : MicroReady s.dev u b) (hu : 24 ≤ u) (hl : late s.dev b.e = false)
  (hbad : b.outBad = none) (ho : outSgl b.e = false ∨ b.e.outCap = 0 ∨ b.outOk = true)
include h

/-- What the end of a job reads is as before when a key is noted to be spent. -/
theorem spentDev_queues (bits : BitVec 3) (slot : U16) :
    let d := ssCause (yieldDev s.dev u) bits slot
    d.jobs = s.dev.jobs ∧ d.sqs = s.dev.sqs ∧ d.cqs = s.dev.cqs ∧ d.fab = s.dev.fab := by
  intro d
  have hy : (yieldDev s.dev u).sqs = s.dev.sqs ∧ (yieldDev s.dev u).cqs = s.dev.cqs ∧ (yieldDev s.dev u).fab = s.dev.fab := by
    rw [(yieldDev_leaves h).rest]
    exact ⟨rfl, rfl, rfl⟩
  obtain ⟨_, _, _, hcause⟩ := ssCause_ex (yieldDev s.dev u) bits slot
  have hd : d = _ := hcause
  rw [hd]
  exact ⟨setSched_jobs _ _ _, hy⟩

include hu hl hbad ho

theorem uSst_takes {n : Nat} {d1 : Dev} (hj : findJob s.dev b.id = some b) (ht : ssTake (yieldDev s.dev u) b.owner b.e.key0 = some (n, d1))
    (hw : MicroWord s.dev u (.uSst u f)) :
    let b1 := { b with taken := some n, effect := b.effect ||| effStateConsumed }
    ∃ d2, MicroLeaves d1 d2 u b id id (fun t => { t with micro := uNext (uSet t.micro f.a (BitVec.ofNat 64 n)) })
      ∧ findJob d2 b.id = some b1 ∧ Gives (.uSst u f) s (if b.cluster then d2 else dealYield d2 b1) := by
  intro b1
  have hy := yieldDev_leaves h
  obtain ⟨htss, hjobs⟩ := ssTake_keeps ht
  obtain ⟨_, _, _, _, _, hd1⟩ := ssTake_ex ht
  have hstore : getStore d1 u = getStore s.dev u := by rw [← MicroLeaves.store hy u, hd1]; rfl
  have hmicro : getMicro d1 u = getMicro s.dev u := by
    have htree := hy.tree (u - 24) (by have := h.seq; omega)
    rw [if_pos (by omega)] at htree
    rw [getMicro_ts hu, getMicro_ts hu, getTs_of_tss htss, htree]
    rfl
  have hfind : findJob d1 b.id = some b := by
    rw [← hj]
    exact congrArg (fun js : Jobs => js.live.find? _) (hjobs.trans (setSched_jobs _ _ _))
  obtain ⟨hrun, hleaves⟩ := uRun_deal (kinds := uTs) (use := { writes := [(ru f.a, 1)] }) h hw rfl (decide_eq_true hu)
    (usst_takes (x := uxAt s u b f) h.abort hl hbad ho ht) rfl (.refl d1 u b) rfl hstore
  rw [uSpent_engine (by omega)] at hrun
  refine ⟨_, leaves_ts (leaves_uNext (g := fun m => uSet m f.a (BitVec.ofNat 64 n)) hleaves ?_) hu, ?_,
    congrArg (fun d => (.next { s with dev := d } : Out3)) hrun⟩
  · rw [hmicro]
    exact upc_next _
  · exact (uPut_job rfl hfind).trans (congrArg some (uSpent_engine (by omega) _ _ _))

theorem uSst_exhausted (ht : ssTake (yieldDev s.dev u) b.owner b.e.key0 = none) (hq : OwnQueues s.dev b) :
    MicroFaults (.uSst u f) s u b stStateExhausted := by
  intro hw hdue
  obtain ⟨hjobs, hsqs, hcqs, hfab⟩ := spentDev_queues h 4 (BitVec.ofNat 16 (hSlot b.e.key0))
  obtain ⟨hmember, hout, hs, hc⟩ := hq
  have hown : OwnQueues (ssCause (yieldDev s.dev u) 4 (BitVec.ofNat 16 (hSlot b.e.key0))) b :=
    ⟨by rw [isMember, hfab]; exact hmember, hout, by rw [hsqs]; exact hs, by rw [hcqs]; exact hc⟩
  obtain ⟨eff, hends⟩ := failOn_ends _ b (seqCellOf u) stStateExhausted 0 hown h.placed hdue
  exact completes_of_onDev _ rfl (uRun_body (kinds := uTs) (use := { writes := [(ru f.a, 1)] }) h hw rfl (decide_eq_true hu)
    (usst_spent (x := uxAt s u b f) h.abort hl hbad ho ht))
    ⟨eff, JobEnds.of_same hends (by rw [hjobs]) (by rw [hjobs]) hsqs hcqs rfl rfl rfl rfl rfl rfl⟩

end

/-! ## The statement -/

/-- Settles O21: a clause names the branch of the micro-op's body that its premise picks, or the datapath operation that it starts. The
modulus of MAC and what a wider one leaves are log 54. -/
theorem microEngineResults : Obligations.MicroEngineResults := by
  unfold Obligations.MicroEngineResults
  refine ⟨fun s u f b h hu => ⟨uXmov_moves h hu, uVel_sets h hu, fun hc => uMkv_reads h hu hc, fun hc => uMkv_writes h hu hc,
      fun op p hi hop hl hc hb hpd hpc hpb hj hd => uUiss_starts h hu hi hop hl hc hb hpd hpc hpb hj hd,
      fun tc off hc ha ht he hs => uTls_loads h hu hc ha ht he hs,
      fun tc off hc ha ht hp hm hw => uTls_stores h hu hc ha ht hp hm hw,
      fun ha => ⟨fun hc hs => uVln_loads h hu rfl rfl rfl ha hc hs, fun hc hs hm hw => uVln_stores h hu rfl rfl rfl ha hc hs hm hw⟩⟩,
    fun s u f b h h1 h2 => ?_, fun s u f b h h1 => ?_⟩
  · have hk := uMe_of h1 h2
    exact ⟨fun hc => microMe_at rfl rfl h hk h1 h2 (uslnGo_load (x := uxAt s u b f) hc) rfl,
      fun hc => microMe_at rfl rfl h hk h1 h2 (uslnGo_store (x := uxAt s u b f) hc) rfl,
      fun hc => uMac_puts h h1 h2 (umacGo_multiply hc), fun hc => uMac_puts h h1 h2 (umacGo_accumulate hc),
      fun hc => uMac_puts h h1 h2 (umacGo_add hc),
      fun hc => uMac_puts h h1 h2 (umacGo_subtract hc),
      fun n hn hlt => ⟨fun hc => uMac_puts h h1 h2 (umacGo_montgomery (modulus_filter hn hlt) hc),
        fun hc => uMac_puts h h1 h2 (umacGo_reduce (modulus_filter hn hlt) hc)⟩,
      fun hc => (umacGo_puts hc).imp fun v hb => uMac_puts h h1 h2 hb,
      fun hc => microMe_at rfl rfl h hk h1 h2 (upadGo_sha256 (x := uxAt s u b f) hc) rfl,
      fun hc => microMe_at rfl rfl h hk h1 h2 (upadGo_sha512 (x := uxAt s u b f) hc) rfl,
      fun hc => microMe_at rfl rfl h hk h1 h2 (upadGo_keccak (x := uxAt s u b f) hc) rfl,
      fun hc => microMe_at rfl rfl h hk h1 h2 (ukplMeGo_read (x := uxAt s u b f) hc) rfl,
      fun hc hm hw => uKplMe_writes h h1 h2 hc hm hw,
      fun hn hn' hc hl => microMe_at rfl rfl h hk h1 h2 (uhioGo_in (x := uxAt s u b f) hn hn' hc hl) rfl,
      fun hn hn' hc ho hm hj hfit => out_leaves rfl rfl h h1 hk (uhioGo_out (x := uxAt s u b f) hn hn' hc) ho hm hj
        (by rw [memRead_length]; exact hfit) (by rw [memRead_length]; exact hn)⟩
  · have hk : uTs u = true := decide_eq_true h1
    have h16 : 16 ≤ u := by omega
    exact fun hfree => ⟨fun hc => microTs_at rfl rfl h hk h1 (uhuiGo_init (x := uxAt s u b f) hfree hc) fun _ => rfl,
      fun hc hi => microTs_at rfl rfl h hk h1 (uhuiGo_absorb (x := uxAt s u b f) hfree hc hi) fun _ => rfl,
      fun hc hi => microTs_at rfl rfl h hk h1 (uhuiGo_block (x := uxAt s u b f) hfree hc hi) fun _ => rfl,
      fun hc hi => microTs_at rfl rfl h hk h1 (uhuiGo_permute (x := uxAt s u b f) hfree hc hi) fun _ => rfl,
      fun hc hi => microTs_at rfl rfl h hk h1 (uhuiGo_compress (x := uxAt s u b f) hfree hc hi) fun _ => rfl,
      fun hc hi => microTs_at rfl rfl h hk h1 (uhuiGo_squeeze (x := uxAt s u b f) hfree hc hi) fun _ => rfl,
      fun hc hi => microTs_at rfl rfl h hk h1 (uhuiGo_digest (x := uxAt s u b f) hfree hc hi) fun _ => rfl,
      fun hc hl => microTs_at rfl rfl h hk h1 (unbmGo_in (x := uxAt s u b f) hc hl) fun _ => rfl,
      fun hc ho hm hj hfit => out_leaves rfl rfl h h16 hk (unbmGo_out (x := uxAt s u b f) hc) ho hm hj
        (by rw [memRead_length]; exact hfit) (by rw [memRead_length]; decide),
      fun hc => microTs_at rfl rfl h hk h1 (ukplTsGo_read (x := uxAt s u b f) hc) fun _ => rfl,
      fun hc hm hw => uKplTs_writes h h1 hc hm hw,
      fun hl hj n d1 ht ho hbad hw => uSst_takes h h1 hl hbad ho hj ht hw,
      fun hl ht hq ho hbad => uSst_exhausted h h1 hl hbad ho ht hq⟩

end Sys2Proof.Proofs.MicroEngine
end

section
/-!
PROOF. The Dealer: decision points, the boundaries of tricks and rounds, duty cooling, and a staged table from its plan or its commit to its
check and its discard (09 R303, R309, R316-R319, R322; 13 R402, R405).
-/
namespace Sys2Proof.Proofs.DealerTable

open Sys2Proof.Machine Sys2Proof.Safety Sys2Proof.Laws

/-! ## Decision points and boundaries (09 R303, R309) -/

/-- The coming trick begins: its number counts on, its fixed occupants have their cells, the window closes, what may not run there is
turned out, and deadlines are looked at. -/
def trickBegins (d : Dev) : Dev :=
  boundaryDeadlines (turnover { d with dlr.trick := d.dlr.trick + 1, dlr.occ := d.dlr.occNext, dlr.window := false })

theorem decide32_occNext (d : Dev) (tb : SMap Byte) (t : Nat) :
    (decide32 d tb t).dlr.occNext = (Vector.range 32).map fun c => (occupant d tb t c).1 := Vector.map_map

theorem trickGo_within {d : Dev} (h : d.dlr.trick ≠ 63) : trickGo d = trickBegins d := by
  simp only [trickGo, if_neg h, trickBegins]

theorem trickGo_last {d : Dev} (h : d.dlr.trick = 63) : trickGo d = trickBegins (roundGo d) := by
  simp only [trickGo, if_pos h, trickBegins]

theorem roundBoundaryGo_within {d : Dev} (h : d.dlr.trick ≠ 63) : roundBoundaryGo d = d :=
  if_pos (by rw [bne_iff_ne.2 h, Bool.or_true])

section
variable {d : Dev} (hr : isReady d = true)
include hr

theorem decisionPointGo_opens (hw : d.dlr.window = false) :
    decisionPointGo d = { decide32 d (nextTable d) (nextTrick d) with dlr.window := true } :=
  if_neg (by rw [hr, hw]; decide)

section
variable (hw : d.dlr.window = true)
include hw

theorem trickBoundaryGo_open : trickBoundaryGo d = trickGo d := if_neg (by rw [hr, hw]; decide)

theorem roundBoundaryGo_last (h : d.dlr.trick = 63) : roundBoundaryGo d = trickGo d := if_neg (by rw [hr, hw, h]; decide)

end
end

/-! ## Duty cooling (09 R319) -/

/-- The duty level is above 0 and has had its 100 ms of cool sensors since `t0`. -/
def CoolDue (d : Dev) (t0 : U64) : Prop := isReady d = true ∧ d.dlr.level ≠ 0 ∧ 100000000 ≤ (d.glob.tb - t0).toNat

theorem coolDue_iff (d : Dev) (t0 : U64) :
    (isReady d && d.dlr.level != 0 && decide (100000000 ≤ (d.glob.tb - t0).toNat)) = true ↔ CoolDue d t0 := by
  simp only [CoolDue, Bool.and_eq_true, bne_iff_ne, decide_eq_true_eq, and_assoc]

section
variable {d : Dev} {t0 : U64} (h : d.tmon.coolTb = some t0)
include h

theorem dutyCoolTimerGo_due (hc : CoolDue d t0) :
    dutyCoolTimerGo d = { d with dlr.fallPend := true, tmon.coolTb := some d.glob.tb } := by
  simp only [dutyCoolTimerGo, h, (coolDue_iff _ _).2 hc, if_true]

theorem dutyCoolTimerGo_early (hc : ¬ CoolDue d t0) : dutyCoolTimerGo d = d := by
  simp only [dutyCoolTimerGo, h, Bool.eq_false_iff.2 (mt (coolDue_iff _ _).1 hc), Bool.false_eq_true, if_false]

end

/-! ## Commits (09 R317; log 78) -/

section
variable {d : Dev}

theorem commitTable_starts (hp : d.dlr.pending = false) (hc : d.dlr.chkBusy = false) :
    commitTable d = { d with dlr.chkBusy := true } := if_neg (by rw [hp, hc]; decide)

theorem commitTable_ignored (h : d.dlr.pending = true ∨ d.dlr.chkBusy = true) : commitTable d = d :=
  if_pos (Bool.or_eq_true_iff.2 h)

theorem dlrCommitGo_ready (hr : isReady d = true) (hb : barOk d 0 = true) : dlrCommitGo d = commitTable d :=
  if_pos (by rw [hr, hb]; rfl)

end

/-! ## Discards (09 R322; 13 R402, R405) -/

/-- No table is pending, and no ENABLE waits for one. -/
def dropPending (d : Dev) : Dev := { d with dlr.pending := false, dlr.late := false, dlr.planFor := none }

section
variable {d : Dev} (hr : isReady d = true) (hb : barOk d 0 = true) (hp : d.dlr.pending = true)
include hr hb hp

theorem dlrDiscard_guard : (!isReady d || !barOk d 0 || !d.dlr.pending) = false := by rw [hr, hb, hp]; rfl

theorem dlrDiscardGo_enable {o : Nat} (ho : d.dlr.planFor = some o) :
    dlrDiscardGo d = modOwn (dropPending d) o fun w => { w with sh := { w.sh with py := 0, me := 0, sy := 0, tree := 0 } } := by
  simp only [dlrDiscardGo, dlrDiscard_guard hr hb hp, Bool.false_eq_true, if_false, ho, dropPending]

variable (hn : d.dlr.planFor = none)
include hn

theorem dlrDiscardGo_apply {o : Nat} {n : Shares} (ha : d.vfm.apply = some (o, n)) :
    dlrDiscardGo d = vfmEnd { dropPending d with vfm.apply := none } 5 0 o := by
  simp only [dlrDiscardGo, dlrDiscard_guard hr hb hp, Bool.false_eq_true, if_false, hn, ha, dropPending]

theorem dlrDiscardGo_alone (ha : d.vfm.apply = none) : dlrDiscardGo d = dropPending d := by
  simp only [dlrDiscardGo, dlrDiscard_guard hr hb hp, Bool.false_eq_true, if_false, hn, ha, dropPending]

end

/-! ## Plans (09 R316) -/

section
variable {d : Dev} (hs : d.dlr.src = false) (hp : d.dlr.pending = false) (hc : d.dlr.chkBusy = false)
include hs hp hc

theorem plan_guard : (d.dlr.src || d.dlr.pending || d.dlr.chkBusy) = false := by rw [hs, hp, hc]; rfl

theorem plan_stages {t : SMap Byte} (ht : planTable d = .ok t) : plan d = { d with dlr.stg := t, dlr.chkBusy := true } := by
  simp only [plan, plan_guard hs hp hc, Bool.false_eq_true, if_false, ht]
  exact commitTable_starts hp hc

theorem plan_fails {n : Nat} (ht : planTable d = .error n) (he : d.vfm.enabling = none) (ha : d.vfm.apply = none) :
    plan d = { d with dlr.chkCode := 9, dlr.chkStage := BitVec.ofNat 3 n, dlr.chkTrick := 0x3F, dlr.chkCell := 0 } := by
  simp only [plan, plan_guard hs hp hc, Bool.false_eq_true, if_false, ht, he, ha]

end

/-! ## Checks (09 R317, R318; 13 R402, R405) -/

/-- The staged table is refused at a trick and a cell. -/
def refuseTable (d : Dev) (code t k : Nat) : Dev :=
  { d with dlr.chkBusy := false, dlr.chkCode := BitVec.ofNat 8 code, dlr.chkStage := 0, dlr.chkTrick := BitVec.ofNat 6 t
           dlr.chkCell := BitVec.ofNat 5 k }

/-- The decision point of trick 63 has passed, so a table accepted now waits one round boundary more (09 R318). -/
abbrev RoundDecided (d : Dev) : Prop := d.dlr.trick = 63 ∨ d.dlr.trick = 62 ∧ d.dlr.window = true

/-- The staged table is accepted and pending. -/
def acceptTable (d : Dev) : Dev :=
  { d with dlr.chkBusy := false, dlr.chkCode := 0, dlr.chkStage := 0, dlr.chkTrick := 0, dlr.chkCell := 0
           dlr.pending := true, dlr.late := decide (RoundDecided d), dlr.planFor := d.vfm.enabling }

theorem roundDecided_eq (d : Dev) : (d.dlr.trick == 63 || (d.dlr.trick == 62 && d.dlr.window)) = decide (RoundDecided d) := by
  rw [Bool.eq_iff_iff]
  simp only [Bool.or_eq_true, Bool.and_eq_true, beq_iff_eq, decide_eq_true_eq]

section
variable {d : Dev} (hb : d.dlr.chkBusy = true)
include hb

section
variable {code t k : Nat} (hf : checkTable d d.dlr.stg = some (code, t, k))
include hf

theorem tableCheckGo_refused (h : d.dlr.src = true ∨ d.vfm.enabling = none ∧ d.vfm.apply = none) :
    tableCheckGo d = refuseTable d code t k := by
  rcases h with hs | ⟨he, ha⟩
  · simp only [tableCheckGo, hb, hf, hs, Bool.not_true, Bool.false_eq_true, if_false, if_true, refuseTable]
  · simp only [tableCheckGo, hb, hf, he, ha, Bool.not_true, Bool.false_eq_true, if_false, ite_self, refuseTable]

variable (hs : d.dlr.src = false)
include hs

theorem tableCheckGo_refused_enable {o : Nat} (he : d.vfm.enabling = some o) :
    tableCheckGo d = vfmEnd { refuseTable d code t k with vfm.enabling := none } 5 0 o := by
  simp only [tableCheckGo, hb, hf, hs, he, Bool.not_true, Bool.false_eq_true, if_false, refuseTable]

theorem tableCheckGo_refused_apply {o : Nat} {n : Shares} (he : d.vfm.enabling = none) (ha : d.vfm.apply = some (o, n)) :
    tableCheckGo d = vfmEnd { refuseTable d code t k with vfm.apply := none } 5 0 o := by
  simp only [tableCheckGo, hb, hf, hs, he, ha, Bool.not_true, Bool.false_eq_true, if_false, refuseTable]

end

section
variable (hf : checkTable d d.dlr.stg = none)
include hf

theorem tableCheckGo_accepted (he : d.vfm.enabling = none) : tableCheckGo d = acceptTable d := by
  simp only [tableCheckGo, hb, hf, he, roundDecided_eq, Bool.not_true, Bool.false_eq_true, if_false, acceptTable]

theorem tableCheckGo_accepted_enable {o : Nat} (he : d.vfm.enabling = some o) :
    tableCheckGo d = vfActivate (acceptTable d) o d.vfm.stg := by
  simp only [tableCheckGo, hb, hf, he, roundDecided_eq, Bool.not_true, Bool.false_eq_true, if_false, acceptTable]

end
end

/-! ## The statement -/

/-- Settles O41: under a clause's conditions the command's meaning is one equation above. A commit while a table is pending or checked is
ignored by log 78; the fault that a check reports is chosen as log 35 says, the plan's ties and TBL_ID as log 36, and a job that reached no
yield point in the window is turned out as log 162. -/
theorem dealerResults : Obligations.DealerResults := by
  unfold Obligations.DealerResults
  dsimp only
  refine ⟨fun s hr hw => ?_, fun s hr hw => ⟨fun ht => ⟨?_, ?_⟩, fun ht => ⟨?_, ?_⟩⟩, fun s t0 ht => ⟨fun hc => ?_, fun hc => ?_⟩,
    fun s hr hb => ⟨fun hp hc => ?_, fun h => ?_, fun hp => ⟨fun o ho => ?_, fun hn => ⟨fun o n ha => ?_, fun ha => ?_⟩⟩⟩,
    fun s hr hs hp hc => ⟨fun t ht => ?_, fun n ht he ha => ?_⟩,
    fun s hb => ⟨fun code t k hf => ⟨fun h => ?_, fun o hs he => ?_, fun o n hs he ha => ?_⟩, fun hf => ⟨fun he => ?_, fun o he => ?_⟩⟩⟩
  · exact gives_done (gives_of (go := decisionPointGo) rfl (decisionPointGo_opens hr hw)) ⟨rfl, rfl, rfl, decide32_occNext _ _ _⟩
  · exact gives_of (go := trickBoundaryGo) rfl ((trickBoundaryGo_open hr hw).trans (trickGo_within ht))
  · exact gives_of (go := roundBoundaryGo) rfl (roundBoundaryGo_within ht)
  · exact gives_of (go := trickBoundaryGo) rfl ((trickBoundaryGo_open hr hw).trans (trickGo_last ht))
  · exact gives_of (go := roundBoundaryGo) rfl ((roundBoundaryGo_last hr hw ht).trans (trickGo_last ht))
  · exact gives_of (go := dutyCoolTimerGo) rfl (dutyCoolTimerGo_due ht hc)
  · exact gives_of (go := dutyCoolTimerGo) rfl (dutyCoolTimerGo_early ht hc)
  · exact gives_of (go := dlrCommitGo) rfl ((dlrCommitGo_ready hr hb).trans (commitTable_starts hp hc))
  · exact gives_of (go := dlrCommitGo) rfl ((dlrCommitGo_ready hr hb).trans (commitTable_ignored h))
  · exact gives_of (go := dlrDiscardGo) rfl (dlrDiscardGo_enable hr hb hp ho)
  · exact gives_of (go := dlrDiscardGo) rfl (dlrDiscardGo_apply hr hb hp hn ha)
  · exact gives_of (go := dlrDiscardGo) rfl (dlrDiscardGo_alone hr hb hp hn ha)
  · exact gives_of (go := dealPlanGo) rfl ((if_pos hr).trans (plan_stages hs hp hc ht))
  · exact gives_of (go := dealPlanGo) rfl ((if_pos hr).trans (plan_fails hs hp hc ht he ha))
  · exact gives_of (go := tableCheckGo) rfl (tableCheckGo_refused hb hf h)
  · exact gives_of (go := tableCheckGo) rfl (tableCheckGo_refused_enable hb hf hs he)
  · exact gives_of (go := tableCheckGo) rfl (tableCheckGo_refused_apply hb hf hs he ha)
  · exact gives_of (go := tableCheckGo) rfl (tableCheckGo_accepted hb hf he)
  · exact gives_of (go := tableCheckGo) rfl (tableCheckGo_accepted_enable hb hf he)

end Sys2Proof.Proofs.DealerTable
end

section
/-!
PROOF. The detectors, the sensors, the loss of the SerDes rails and the test access port (10 R335-R337; 20 R562, R568, R571, R572).
-/
namespace Sys2Proof.Proofs.Detectors

open Sys2Proof.Machine Sys2Proof.Safety Sys2Proof.Laws

/-! ## Detectors (10 R335-R337) -/

/-- What an event of one detector leaves before its response: nothing more is issued, the event is counted and recorded with the response
`r`, its bit of BDR_FAULT is set and Amber is frozen. Only the REFCLK monitor tells that REFCLK is gone. -/
def detectorTold (id : Nat) (lost : Bool) (r : Byte) (d : Dev) : Dev :=
  freeze (bdrCause (amber (countDet id { d with glob.issuing := false, glob.refclk := d.glob.refclk && !(lost && id == 4) })
    .glitch (.bedrock id) [BitVec.ofNat 8 id, 0, r]) 0x2) 1

/-- The response ZEROISE: a hard zeroise begins, and the Bedrock reset waits for its end. -/
def detectorZeroise (id : Nat) (d : Dev) : Dev :=
  { hardStart 3 (BitVec.ofNat 8 id) d with
    glob.heldResets := (hardStart 3 (BitVec.ofNat 8 id) d).glob.heldResets ++ [.bedrock (detCause id)] }

theorem detZeroises_zero (d : Dev) : detZeroises d 0 = false := by
  rw [detZeroises, Bool.and_assoc, Bool.and_assoc]
  exact Bool.and_false _

/-- A Bedrock reset sets its detector's cause and is counted (01 R32, R35). -/
theorem doReset_bedrock (env : StartEnv) (d : Dev) (b : Nat) : doReset env d (.bedrock b) =
    tryStart env { toBedrock (causeSet d b) with bdr.resets := satInc (causeSet d b).bdr.resets } := rfl

section
variable {d : Dev} {id : Nat} (lost : Bool) (env : StartEnv) (ha : DetectorArmed d id)
include ha

/-- One detector alone: its response is the event's, and its cause is the only one. -/
theorem detectorGo_alone : detectorGo id 0 lost env d =
    (if d.glob.hardZ.isSome then detectorTold id lost 2 d
     else if detZeroises d id && decide (d.glob.st ≠ .scrapped) then detectorZeroise id (detectorTold id lost 1 d)
     else doReset env (detectorTold id lost (if detZeroises d id then 1 else 0) d) (.bedrock (detCause id))) := by
  obtain ⟨harm, hlo, hhi⟩ := ha
  have hguard : (!d.glob.armed || decide (id = 0) || decide (6 < id) || decide (6 < 0) || decide (id = 0)) = false := by
    rw [harm, decide_eq_false (by omega : ¬ id = 0), decide_eq_false (by omega : ¬ 6 < id)]; rfl
  rw [detectorGo, hguard, detZeroises_zero]
  cases hz : d.glob.hardZ.isSome
  · cases hd : detZeroises d id <;> simp [detectorTold, detectorZeroise, countDet]
  · simp [detectorTold, countDet]

theorem detectorGo_hard (h : d.glob.hardZ.isSome = true) : detectorGo id 0 lost env d = detectorTold id lost 2 d :=
  (detectorGo_alone lost env ha).trans (if_pos h)

theorem detectorGo_reset (h : d.glob.hardZ = none) (hr : detZeroises d id = false ∨ d.glob.st = .scrapped) :
    detectorGo id 0 lost env d = doReset env (detectorTold id lost (if detZeroises d id then 1 else 0) d) (.bedrock (detCause id)) := by
  refine (detectorGo_alone lost env ha).trans ((if_neg (notHard h)).trans (if_neg ?_))
  rcases hr with hr | hr <;> simp [hr]

theorem detectorGo_zeroise (h : d.glob.hardZ = none) (hr : detZeroises d id = true) (hs : d.glob.st ≠ .scrapped) :
    detectorGo id 0 lost env d = detectorZeroise id (detectorTold id lost 1 d) :=
  (detectorGo_alone lost env ha).trans ((if_neg (notHard h)).trans (if_pos (by rw [hr, decide_eq_true hs]; rfl)))

end

/-! ## Sensors (20 R571, R572) -/

/-- The readings stand in the monitor and widen this boot's extremes of the hottest sensor; the events that they raise leave OTP, the jobs
and the keys alone. -/
theorem sensorReadGo_records (tj : List (BitVec 16)) (rails : List U16) (d : Dev) (hp : d.glob.porAsserted = false) (hv : d.glob.vddBr = true) :
    (sensorReadGo tj rails d).tmon = sensorTmon tj rails d ∧ (sensorReadGo tj rails d).otp = d.otp
      ∧ (sensorReadGo tj rails d).jobs = d.jobs ∧ (sensorReadGo tj rails d).ks = d.ks := by
  obtain ⟨_, _, _, _, _, _, _, e⟩ := sensor_sum tj rails d hp hv
  rw [e]
  exact ⟨rfl, rfl, rfl, rfl⟩

/-! ## Test access (20 R568; logs 15 and 60) -/

section
variable {k : HoldInsn} {d : Dev}

/-- The instruction of the test access port that holds the device. -/
def holdCode (k : HoldInsn) : JtagInsn := match k with | .extest => .extest | .clamp => .clamp | .highz => .highz

theorem holdInstrGo_new (h : d.glob.jtagHold = false) : holdInstrGo k d =
    if d.glob.st = .bedrock then { jtagLoad (holdCode k) 0 d with glob.jtagHold := true }
    else takeReset {} .hold { jtagLoad (holdCode k) 0 d with glob.jtagHold := true } :=
  if_neg (by rw [h]; exact Bool.false_ne_true)

end

section
variable {env : StartEnv} {d : Dev}

theorem testLogicResetGo_free (h : d.glob.jtagHold = false) : testLogicResetGo env d = jtagLoad .idcode 0xB481678B d :=
  if_pos (by rw [h]; rfl)

theorem testLogicResetGo_held (h : d.glob.jtagHold = true) : testLogicResetGo env d =
    if d.glob.hardZ.isSome then { jtagLoad .idcode 0xB481678B d with glob.jtagHold := false }
    else tryStart env { jtagLoad .idcode 0xB481678B d with glob.jtagHold := false } :=
  if_neg (by rw [h]; exact Bool.false_ne_true)

end

/-- What DEBUG selects: the debug TAP, and in SCRAPPED, whose TAP offers boundary scan only, BYPASS (14 R436). -/
def debugSelect (d : Dev) : Dev := if d.glob.lcCode = 5 || d.glob.lcCode = 0xFF then jtagLoad .bypass 0 d else jtagLoad .debug 0 d

theorem exec_jtagDebug (s : State) : exec .jtagDebug s = onDev s debugSelect := rfl

theorem debugSelect_scrapped {d : Dev} (h : d.glob.lcCode = 5 ∨ d.glob.lcCode = 0xFF) : debugSelect d = jtagLoad .bypass 0 d :=
  if_pos (by simpa only [Bool.or_eq_true, decide_eq_true_eq] using h)

theorem debugSelect_open {d : Dev} (h5 : d.glob.lcCode ≠ 5) (hff : d.glob.lcCode ≠ 0xFF) : debugSelect d = jtagLoad .debug 0 d :=
  if_neg (by rw [decide_eq_false h5, decide_eq_false hff]; exact Bool.false_ne_true)

/-! ## The statement -/

/-- Settles O45: under a clause's conditions the command's meaning is one equation above. The test access port loads IDCODE as log 15 says,
and its hold sets no bit of the reset causes (log 60). -/
theorem detectorAndTestResults : Obligations.DetectorAndTestResults := by
  unfold Obligations.DetectorAndTestResults
  refine ⟨fun s id lost env ha => ⟨fun h => ?_, fun h hr => ?_, fun h hr hs => ?_⟩, fun s tj rails hp hv => ?_,
    fun s env => ⟨fun h => ?_, fun hs hl h => ?_⟩, fun s k hk => ⟨fun hs => ?_, fun hs h => ?_, fun hs h => ?_⟩,
    fun s env => ⟨fun hk => ?_, fun hk h => ?_, fun hk h hf => ?_⟩, fun s => ⟨rfl, rfl, rfl, fun h => ?_, fun h5 hff => ?_⟩⟩
  · exact gives_of (go := detectorGo id 0 lost env) rfl (detectorGo_hard lost env ha h)
  · exact gives_of (go := detectorGo id 0 lost env) rfl ((detectorGo_reset lost env ha h hr).trans (doReset_bedrock _ _ _))
  · exact gives_of (go := detectorGo id 0 lost env) rfl (detectorGo_zeroise lost env ha h hr hs)
  · obtain ⟨ht, ho, hj, hks⟩ := sensorReadGo_records tj rails s.dev hp hv
    exact gives_done (gives_of (go := sensorReadGo tj rails) rfl rfl) (by rw [hotTj, ht]; exact ⟨rfl, rfl, rfl, rfl, ho, hj, hks⟩)
  · exact gives_of (go := serdesGo env) rfl (serdes_stays h)
  · exact gives_of (go := serdesGo env) rfl (serdes_hot hs hl h)
  · exact gives_of (go := holdInstrGo k) rfl ((holdInstrGo_new hk).trans (if_pos hs))
  · exact gives_of (go := holdInstrGo k) rfl ((holdInstrGo_new hk).trans ((if_neg hs).trans (takeReset_free h)))
  · exact gives_of (go := holdInstrGo k) rfl ((holdInstrGo_new hk).trans ((if_neg hs).trans (takeReset_held h)))
  · exact gives_of (go := testLogicResetGo env) rfl (testLogicResetGo_free hk)
  · refine gives_of (go := testLogicResetGo env) rfl ((testLogicResetGo_held hk).trans ?_)
    rcases h with h | h
    · exact if_pos h
    · exact (congrArg (ite _ _) (tryStart_held h)).trans (ite_self _)
  · exact gives_of (go := testLogicResetGo env) rfl ((testLogicResetGo_held hk).trans ((if_neg (notHard h)).trans (tryStart_free hf)))
  · exact gives_of (exec_jtagDebug s) (debugSelect_scrapped h)
  · exact gives_of (exec_jtagDebug s) (debugSelect_open h5 hff)

end Sys2Proof.Proofs.Detectors
end

section
/-!
PROOF. What no step takes back: OTP and the smallest release that may run (12 R374, 14 R419, 15 R446).
-/
namespace Sys2Proof.Proofs.Fuses

open Sys2Proof.Machine Sys2Proof.Safety Sys2Proof.Laws

/-- A beat counts time and touches no fuse. -/
theorem beat_grows (d : Dev) : Grows d (beat d) := by
  unfold beat
  split
  · exact Kept.grows ⟨rfl, rfl⟩
  · exact Grows.refl d

/-- A step is a beat or the command at the front of the queue, and each command's meaning only adds to the fuses. -/
theorem step_grows {s s' : State} (h : step s = .next s') : Grows s.dev s'.dev := by
  cases hp : s.pending with
  | nil =>
    rw [Queue.step_nil hp] at h
    cases h
    exact beat_grows _
  | cons c rest =>
    rw [Queue.step_cons hp] at h
    obtain ⟨d, he, hd⟩ := exec_grows c { s with pending := rest }
    rw [he] at h
    cases h
    exact hd

/-- Settles O59: the fuses only gain from step to step, so what stood at `o` and `m` still stands. -/
theorem fusesOnlyGain : Obligations.FusesOnlyGain := by
  unfold Obligations.FusesOnlyGain
  exact fun o m s s' ⟨hfuses, hmin⟩ h => ⟨otpGrows_trans hfuses (step_grows h).1, BitVec.le_trans hmin (step_grows h).2⟩

end Sys2Proof.Proofs.Fuses
end

section
/-!
PROOF. The symmetric services (12 R387-R389).
-/
namespace Sys2Proof.Proofs.Symmetric

open Sys2Proof.Machine Sys2Proof.Safety Sys2Proof.Laws

section
variable {d : Dev} {b : Job}

/-! ## GCM_ENC: its IV from AUX, or drawn with GEN_IV (12 R387) -/

/-- Ciphertext and tag. -/
def gcmSealed (d : Dev) (b : Job) (iv aad : Bytes) : Bytes :=
  gcmCrypt (aesKeys (symKey d b)) iv b.inData
    ++ (gcmTag (aesKeys (symKey d b)) iv aad (gcmCrypt (aesKeys (symKey d b)) iv b.inData)).take (tagLen b.e)

theorem gcmEncRun_given (h : pbit b.e 0 = false) : gcmEncRun d b =
    finishOut d b (gcmSealed d b ((ownAux b).take 12) ((ownAux b).drop 12)) 0 0 0
      (symCycles b.inData.length ((ownAux b).drop 12).length false false) := by
  simp only [gcmEncRun, gcmSealed, h, Bool.false_eq_true, if_false, List.nil_append]

theorem gcmEncRun_drawn (h : pbit b.e 0 = true) : gcmEncRun d b =
    finishOut (draw d 12).2 b ((draw d 12).1 ++ gcmSealed d b (draw d 12).1 (ownAux b)) 0 0 0
      (symCycles b.inData.length (ownAux b).length false false) := by
  simp only [gcmEncRun, gcmSealed, h, if_true, List.append_assoc]

/-! ## CTR: the whole block counts (12 R387) -/

theorem ctrRun_fits (h : beNat (fit 16 (ownAux b)) + cdiv b.inData.length 16 ≤ 2 ^ 128) : ctrRun d b =
    finishOut d b (aesCtr (symKey d b) (fit 16 (ownAux b)) b.inData) 0 0 0 (symCycles b.inData.length 0 false false) :=
  if_neg (Nat.not_lt.2 h)

theorem ctrRun_wraps (h : 2 ^ 128 < beNat (fit 16 (ownAux b)) + cdiv b.inData.length 16) :
    ctrRun d b = refuse d b stRange 0x0801 (unstated b.e) := if_pos h

end

/-! ## The statement -/

/-- Settles O24: a ready job runs its operation, which writes its output, opens or refuses its input, or asks for it once more. -/
theorem symmetricResults : Obligations.SymmetricResults := by
  unfold Obligations.SymmetricResults
  dsimp only
  refine ⟨fun s b h => ⟨fun hg => ?_, fun hg => ?_⟩, fun s b h => ?_, fun s b h => ⟨fun hc => ?_, fun hc => ⟨unstated b.e, ?_⟩⟩, fun s b h => ?_,
    fun s b h => ?_, fun s b h => ?_, fun s b h => ?_, fun s b h => ?_, fun s b h => ?_, fun s b h => ?_, fun s b h => ?_⟩
  · exact jobDone_of (serve_to gcmEncRun rfl h (gcmEncRun_given hg))
  · exact jobDone_of (serve_to gcmEncRun rfl h (gcmEncRun_drawn hg))
  · exact twoPass_of (serve_exec (run := gcmDecRun) rfl h)
  · exact jobDone_of (serve_to ctrRun rfl h (ctrRun_fits hc))
  · exact refuse_over (serve_to ctrRun rfl h (ctrRun_wraps hc))
  · exact jobDone_of (serve_exec (run := xtsRun false) rfl h)
  · exact jobDone_of (serve_exec (run := xtsRun true) rfl h)
  · exact jobDone_of (serve_exec (run := kwWrapRun) rfl h)
  · exact opened_of (serve_exec (run := kwUnwrapRun) rfl h)
  · exact jobDone_of (serve_exec (run := kwpWrapRun) rfl h)
  · exact opened_of (serve_exec (run := kwpUnwrapRun) rfl h)
  · exact jobDone_of (serve_exec (run := aeadEncRun) rfl h)
  · exact twoPass_of (serve_exec (run := aeadDecRun) rfl h)

end Sys2Proof.Proofs.Symmetric
end

section
/-!
PROOF. Random-class jobs, device reports and key statements (11 R356-R361; 12 R390-R393).
-/
namespace Sys2Proof.Proofs.RandomJobs

open Sys2Proof.Machine Sys2Proof.Safety Sys2Proof.Laws

/-- A ready job whose run only changes its own entry, on a device that keeps the jobs, goes on with the entry changed. -/
theorem goes_on {i : Instr} {s : State} {ops : Sqe → Bool} {run : Dev → Job → Dev} {b : Job} {d : Dev} {f : Job → Job} {P : Dev → Prop}
    (hi : exec i s = onDev s (service b.id ops run)) (h : JobReady s.dev b.id ops b) (e : run s.dev b = modJob d b.id f)
    (hj : d.jobs = s.dev.jobs) (hf : (f b).id = b.id) (hp : P (modJob d b.id f)) :
    Completes i s fun d' => findJob d' b.id = some (f b) ∧ P d' :=
  ⟨_, serve_to run hi h e, rfl, findJob_modJob_self f ((findJob_jobs hj).trans h.job) hf, hp⟩

section
variable {d : Dev} {b : Job}

/-! ## GENERATE (11 R357) -/

section
variable (hp : pbit b.e 31 = true) (hs : b.step = 0)
include hp hs

theorem generateRun_reseeds (hh : d.rng.hold.isSome = false) : generateRun d b =
    modJob (holdStart d { kind := .prReseed, src := nextHealthy d d.rng.seedSrc.toNat }) b.id fun x => { x with step := 1 } := by
  simp only [generateRun, hp, hs, hh, decide_true, Bool.and_self, Bool.false_eq_true, if_true, if_false]

theorem generateRun_awaits_hold (hh : d.rng.hold.isSome = true) : generateRun d b = d := by
  simp only [generateRun, hp, hs, hh, decide_true, Bool.and_self, if_true]

end

section
variable (hp : pbit b.e 31 = false ∨ b.step ≠ 0)
include hp

theorem generate_no_reseed : ¬ (pbit b.e 31 && decide (b.step = 0)) = true := by
  rw [Bool.and_eq_true, decide_eq_true_eq]
  rintro ⟨hpr, hstep⟩
  exact hp.elim (fun h => Bool.false_ne_true (h.symm.trans hpr)) fun h => h hstep

theorem generateRun_held (hh : d.rng.hold.isSome = true ∧ (pbit b.e 31 = true ∨ 1 < cdiv (pbits b.e 0 24) 65536)) : generateRun d b = d :=
  (if_neg (generate_no_reseed hp)).trans (if_pos (by simpa only [Bool.and_eq_true, Bool.or_eq_true, decide_eq_true_eq] using hh))

theorem generateRun_runs (hh : ¬ (d.rng.hold.isSome = true ∧ (pbit b.e 31 = true ∨ 1 < cdiv (pbits b.e 0 24) 65536))) :
    generateRun d b =
      let n := pbits b.e 0 24
      let reqs := cdiv n 65536
      let r := drbgRequests reqs (drbgNow d) b.auxData n
      finishOut { d with rng.drbg := r.2, rng.requests := d.rng.requests + reqs } b r.1 0 0 0
        (64 + cdiv n 8 + 40 * reqs + if pbit b.e 31 then b.cycles else 0) :=
  (if_neg (generate_no_reseed hp)).trans (if_neg (by simpa only [Bool.and_eq_true, Bool.or_eq_true, decide_eq_true_eq] using hh))

end

/-! ## DRBG_KAT: first a known-answer hold, but not in ERROR (11 R359) -/

theorem drbgKat_first : (decide (b.step = 0) && (d.rng.state != .error)) = true ↔ b.step = 0 ∧ d.rng.state ≠ .error := by
  rw [Bool.and_eq_true, decide_eq_true_eq, bne_iff_ne]

theorem drbgKatRun_held (hh : d.rng.hold.isSome = true) : drbgKatRun d b = d := by
  simp only [drbgKatRun, hh, if_true, ite_self]

theorem drbgKatRun_holds (hh : d.rng.hold = none) (hf : b.step = 0 ∧ d.rng.state ≠ .error) : drbgKatRun d b =
    modJob (holdStart d { kind := .kat, byJob := true }) b.id fun x => { x with step := 1 } :=
  (if_pos (drbgKat_first.2 hf)).trans (if_neg (by rw [hh]; exact Bool.false_ne_true))

theorem drbgKatRun_ends (hh : d.rng.hold = none) (hf : ¬ (b.step = 0 ∧ d.rng.state ≠ .error)) : drbgKatRun d b =
    finishOut d b (drbgKat b.e b.inData) 0 0 0 (min 8000 (unstated b.e)) :=
  (if_neg (mt drbgKat_first.1 hf)).trans (if_neg (by rw [hh]; exact Bool.false_ne_true))

/-! ## RAW (11 R360) -/

/-- A hold takes its seed from source `n`. -/
def suppliesHold (d : Dev) (n : Nat) : Bool := match d.rng.hold with | some h => h.src == some n && holdSeeds h | none => false

/-- A source of which raw samples are read. -/
def rawSource (x : Src) : Src := { x with former := x.state, state := .raw, pool := [], blockBad := true }

theorem pbits_two_lt (e : Sqe) (lo : Nat) : pbits e lo 2 < 4 := Nat.mod_lt _ (by decide)

section
variable (hs : b.step = 0)
include hs

theorem rngRawRun_waits (hh : suppliesHold d (pbits b.e 0 2) = true) : rngRawRun d b = d := (if_pos hs).trans (if_pos hh)

theorem rngRawRun_starts (hh : suppliesHold d (pbits b.e 0 2) = false) : rngRawRun d b =
    modJob (modSrc d (pbits b.e 0 2) rawSource) b.id fun x => { x with step := 1, result := 0, part2 := [] } :=
  (if_pos hs).trans (if_neg fun e => Bool.false_ne_true (hh.symm.trans e))

end

section
variable (hs : b.step ≠ 0)
include hs

theorem rngRawRun_collects (hn : b.part2.length < b.e.outCap.toNat) : rngRawRun d b = d := (if_neg hs).trans (if_pos hn)

theorem rngRawRun_ends (hn : b.e.outCap.toNat ≤ b.part2.length) : rngRawRun d b =
    finishOut (rawLeave d (pbits b.e 0 2)) b (b.part2.take b.e.outCap.toNat) b.result 0 0 (8 * b.e.outCap.toNat + unstated b.e) :=
  (if_neg hs).trans (if_neg (Nat.not_lt.2 hn))

end
end

/-! ## The statement -/

/-- Settles O36. How many DRBG requests came before a GENERATE is open (log 166), as are the cycles that no rule states (log 72); the boot
count of a key statement is the current one (log 33). -/
theorem randomAndAttestResults : Obligations.RandomAndAttestResults := by
  unfold Obligations.RandomAndAttestResults
  dsimp only
  refine ⟨fun s b h => ⟨fun hp hs hh => ?_, fun hp hs hh => ?_, fun hp hh => ?_, fun hp hh => ?_⟩, fun s b h => ?_,
    fun s b h => ⟨fun hh => ?_, fun hh hf => ?_, fun hh hf => ?_⟩,
    fun s b h => ⟨fun hs hh => ?_, fun hs hh => ?_, fun hs hn => ?_, fun hs hn => ?_⟩, fun s b h => ?_, fun s b h => ?_⟩
  · exact stay (serve_to generateRun rfl h (generateRun_awaits_hold hp hs hh))
  · exact goes_on rfl h (generateRun_reseeds hp hs hh) rfl rfl rfl
  · exact stay (serve_to generateRun rfl h (generateRun_held hp hh))
  · exact jobDone_of (serve_to generateRun rfl h (generateRun_runs hp hh))
  · exact jobDone_of (serve_exec (run := condKatRun) rfl h)
  · exact stay (serve_to drbgKatRun rfl h (drbgKatRun_held hh))
  · exact goes_on rfl h (drbgKatRun_holds hh hf) rfl rfl ⟨rfl, Bool.or_true _⟩
  · exact jobDone_of (serve_to drbgKatRun rfl h (drbgKatRun_ends hh hf))
  · exact stay (raw_exec h (rngRawRun_waits hs hh))
  · exact ⟨_, raw_exec h (rngRawRun_starts hs hh), rfl, findJob_modJob_self _ ((findJob_jobs (State.modSrc_jobs _ _ _)).trans h.job) rfl,
      getSrc_modSrc _ _ (pbits_two_lt _ _)⟩
  · exact stay (raw_exec h (rngRawRun_collects hs hn))
  · exact jobDone_of (raw_exec h (rngRawRun_ends hs hn))
  · exact attested_of (serve_exec (run := reportRun) rfl h)
  · exact attested_of (serve_exec (run := keyAttestRun) rfl h)

end Sys2Proof.Proofs.RandomJobs
end

section
/-!
PROOF. The random sources: their samples and trims, the holds of the DRBG, recalibration and retries (11 R339-R355, R363).
-/
namespace Sys2Proof.Proofs.RandomSources

open Sys2Proof.Machine Sys2Proof.Safety Sys2Proof.Laws

section
variable {d : Dev} {n : Nat}

/-! ## Trims (11 R340) -/

/-- The count of ones is out of its band. -/
abbrev TrimFar (ones : Nat) : Prop := 2048 + 40 < ones ∨ ones + 40 < 2048
/-- The trim codes of a source are frozen by its RAW job (11 R360). -/
def trimFrozen (d : Dev) (n : Nat) : Bool := match rawJob d n with | some b => pbit b.e 2 | none => false
/-- Which way a code moves the count. -/
def trimUp (ones : Nat) : Bool := Config.test .trimUp [] == decide (ones < 2048)
/-- The code stands at the end that it should move past. -/
abbrev TrimEnd (up : Bool) (t : BitVec 7) : Prop := up = true ∧ t = 127 ∨ up = false ∧ t = 0

theorem trimIdle_iff (st : SrcState) (frozen : Bool) (ones : Nat) :
    (st == .off || frozen || !(decide (2048 + 40 < ones) || decide (ones + 40 < 2048))) = true ↔
      st = .off ∨ frozen = true ∨ ¬ TrimFar ones := by
  simp only [TrimFar, Bool.or_eq_true, Bool.not_eq_true', Bool.or_eq_false_iff, decide_eq_false_iff_not, beq_iff_eq, or_assoc, not_or]

theorem trimEnd_iff (up : Bool) (t : BitVec 7) : ((up && t == 127) || (!up && t == 0)) = true ↔ TrimEnd up t := by
  simp only [TrimEnd, Bool.or_eq_true, Bool.and_eq_true, Bool.not_eq_true', beq_iff_eq]

theorem trim_moves {ones : Nat} (ho : (getSrc d n).state ≠ .off) (hf : trimFrozen d n = false) (hfar : TrimFar ones) :
    ¬ ((getSrc d n).state = .off ∨ trimFrozen d n = true ∨ ¬ TrimFar ones) := by
  rw [hf]
  simp only [ho, hfar, Bool.false_eq_true, not_true, or_self, not_false_eq_true]

section
variable {latch ones : Nat} (hl : latch < 16)
include hl

theorem trimStepGo_idle (h : (getSrc d n).state = .off ∨ trimFrozen d n = true ∨ ¬ TrimFar ones) : trimStepGo n latch ones d = d :=
  (dif_pos hl).trans (if_pos ((trimIdle_iff _ _ _).2 h))

variable (ho : (getSrc d n).state ≠ .off) (hf : trimFrozen d n = false) (hfar : TrimFar ones)
include ho hf hfar

theorem trimStepGo_fails (h : TrimEnd (trimUp ones) (getSrc d n).trims[latch]) : trimStepGo n latch ones d = srcFail d n .trim :=
  (dif_pos hl).trans ((if_neg (mt (trimIdle_iff _ _ _).1 (trim_moves ho hf hfar))).trans (if_pos ((trimEnd_iff _ _).2 h)))

theorem trimStepGo_steps (h : ¬ TrimEnd (trimUp ones) (getSrc d n).trims[latch]) : trimStepGo n latch ones d =
    modSrc d n fun x => { x with
      trims := x.trims.set latch (if trimUp ones then (getSrc d n).trims[latch] + 1 else (getSrc d n).trims[latch] - 1) } :=
  (dif_pos hl).trans ((if_neg (mt (trimIdle_iff _ _ _).1 (trim_moves ho hf hfar))).trans (if_neg (mt (trimEnd_iff _ _).1 h)))

end

/-! ## Blocks of the conditioner (11 R341-R343) -/

section
variable {samples : Bytes}

theorem condBlockGo_window (hs : samples.length = 128) : condBlockGo n samples d =
    if windowCause (getSrc d n) (sampleBits samples) = .none then condBlock n samples d
    else srcFail (condBlock n samples d) n (windowCause (getSrc d n) (sampleBits samples)) := by
  simp only [condBlockGo, hs, if_true]

/-- What a block makes of its source. -/
def srcBlock (samples : Bytes) (x : Src) : Src :=
  let bits := sampleBits samples
  let run := rctRun (x.lastBit, x.run, false) bits
  { x with r := condRun x.r bits, lastBit := run.1, run := run.2.1, blockBad := false
           pool := if x.state = .healthy ∧ (x.blockBad || run.2.2 || aptBad bits) = false ∧ x.pool.length < 4 then x.pool ++ [condRun x.r bits]
             else x.pool
           ones := (x.ones ++ [(bits.filter id).length]).drop (x.ones.length - 3) }

/-- The samples of a source in RAW go to its job besides; the source itself takes its block. -/
theorem getSrc_condBlock (hn : n < 4) (ho : (getSrc d n).state ≠ .off) (hs : samples.length = 128) :
    getSrc (condBlock n samples d) n = srcBlock samples (getSrc d n) := by
  have hgo : ((getSrc d n).state == .off || decide (samples.length ≠ 128) || decide (4 ≤ n)) = false := by
    rw [beq_eq_false_iff_ne.2 ho, hs, decide_eq_false (Nat.not_le.2 hn)]; rfl
  have hkeep : ∀ (st : SrcState) (bad : Bool) (k : Nat), (st == .healthy && !bad && decide (k < 4)) = decide (st = .healthy ∧ bad = false ∧ k < 4) := by
    intro st bad k
    rw [Bool.eq_iff_iff]
    simp only [Bool.and_eq_true, Bool.not_eq_true', beq_iff_eq, decide_eq_true_eq, and_assoc]
  unfold condBlock
  simp only [hgo, Bool.false_eq_true, if_false, hkeep, decide_eq_true_eq]
  split
  · exact (getSrc_rng n rfl).trans (getSrc_modSrc d _ hn)
  · exact getSrc_modSrc d _ hn

end

/-! ## Reseeds, known-answer tests and reserves (11 R344, R345, R363) -/

section
variable (ho : d.rng.state = .ok) (hh : d.rng.hold = none)
include ho hh

theorem drbg_free : ¬ (decide (d.rng.state ≠ .ok) || d.rng.hold.isSome) = true := by rw [ho, hh]; decide

theorem reseedDueGo_due (h : 2 ^ 20 ≤ d.rng.requests ∨ 100000000 ≤ (d.glob.tb - d.rng.seedTb).toNat) :
    reseedDueGo d = holdStart d { kind := .reseed, src := nextHealthy d d.rng.seedSrc.toNat } := by
  refine (if_neg (drbg_free ho hh)).trans (if_neg ?_)
  rw [Bool.and_eq_true, decide_eq_true_eq, decide_eq_true_eq]
  omega

theorem reseedDueGo_early (h : ¬ (2 ^ 20 ≤ d.rng.requests ∨ 100000000 ≤ (d.glob.tb - d.rng.seedTb).toNat)) : reseedDueGo d = d := by
  refine (if_neg (drbg_free ho hh)).trans (if_pos ?_)
  rw [Bool.and_eq_true, decide_eq_true_eq, decide_eq_true_eq]
  omega

theorem katStart_free : katStart d = holdStart { d with rng.katTb := d.glob.tb } { kind := .kat } := if_neg (drbg_free ho hh)

end

/-! ## The end of a hold (11 R346, R350-R352, R357) -/

/-- The jobs that asked for a hold learn that it has ended, and how long it took. -/
def holdTold (t0 : Hold) (now : U64) (d : Dev) : Dev :=
  (d.jobs.live.filter fun b => (isCode 0x9001 b.e || isCode 0x9003 b.e) && b.phase == .placed && b.step == 1).foldl (fun acc b =>
    modJob acc b.id fun x => { x with step := 2, cycles := nsCycles cellRng (now - t0.since).toNat }) d

/-- The hold tests the DRBG, and no job waits for the output. -/
abbrev KatHold (h : Hold) : Prop := (h.kind = .kat ∨ h.kind = .switchInKat) ∧ h.byJob = false

theorem katFails_iff {h : Hold} {ok : Bool} : ((h.kind == .kat || h.kind == .switchInKat) && !h.byJob && !ok) = true ↔ KatHold h ∧ ok = false := by
  simp only [KatHold, Bool.and_eq_true, Bool.or_eq_true, Bool.not_eq_true', beq_iff_eq]

theorem katPasses {h : Hold} {ok : Bool} (hp : ¬ KatHold h ∨ ok = true) :
    ¬ ((h.kind == .kat || h.kind == .switchInKat) && !h.byJob && !ok) = true := by
  rw [katFails_iff]
  rintro ⟨hk, hok⟩
  exact hp.elim (fun g => g hk) fun g => Bool.false_ne_true (hok.symm.trans g)

section
variable {h : Hold} {ok : Bool} (hh : d.rng.hold = some h)
include hh

theorem holdEndGo_of {d1 : Dev} (e : holdEnd ok d = d1) :
    holdEndGo ok d = if d1.rng.hold.isSome then d1 else holdTold h d.glob.tb d1 := by
  simp only [holdEndGo, hh, e, holdTold]

theorem holdEnd_katFails (hk : KatHold h) (hok : ok = false) : holdEnd ok d =
    let d1 := rngCause (holdRecord { d with rng.hold := none, rng.kat := false, rng.katDead := true } h) 0x20
    if d.rng.state = .error then d1 else rngError d1 := by
  simp only [holdEnd, hh, katFails_iff.2 ⟨hk, hok⟩, if_true]

variable (hp : ¬ KatHold h ∨ ok = true)
include hp

theorem holdEnd_tested (hs : holdSeeds h = false) : holdEnd ok d =
    holdRecord { d with rng.hold := none, rng.kat := false, rng.state := if d.rng.state = .hold then .ok else d.rng.state } h := by
  simp only [holdEnd, hh, if_neg (katPasses hp), hs, Bool.not_false, if_true, beq_iff_eq]

section
variable {k : Nat} (hs : holdSeeds h = true) (hsrc : h.src = some k)
include hs hsrc

theorem holdEnd_short (hb : (getSrc d k).pool.length < 3) : holdEnd ok d = d := by
  simp only [holdEnd, hh, if_neg (katPasses hp), hs, hsrc, Bool.not_true, Bool.false_eq_true, if_false]
  exact if_pos hb

theorem holdEnd_seeds (hb : 3 ≤ (getSrc d k).pool.length) : holdEnd ok d =
    let d2 := recalWaiting (holdRecord
      (rngSeedFrom { d with rng.hold := none, rng.kat := false, rng.state := .ok, rng.reserves := true } k h.recover) h)
    if h.recover then rngCause (amber d2 .rngRecover .rng []) 0x04 else d2 := by
  simp only [holdEnd, hh, if_neg (katPasses hp), hs, hsrc, Bool.not_true, Bool.false_eq_true, if_false]
  exact if_neg (Nat.not_lt.2 hb)

end
end

/-! ## Recalibration and retries (11 R352, R354, R355) -/

section
variable (hb : barOk d 0 = true) (hn : n < 4)
include hb hn

theorem recal_open : ¬ (!barOk d 0 || decide (4 ≤ n)) = true := by
  rw [hb, decide_eq_false (Nat.not_le.2 hn)]; decide

/-- A recalibration of source `n` is refused. -/
abbrev RecalRefused (d : Dev) (n : Nat) : Prop :=
  recalRuns d = true ∨ (getSrc d n).state = .dead ∨ (getSrc d n).state = .raw ∨ (healthySrcs d).any (· != n) = false

omit hb hn in
theorem recalRefused_iff : (recalRuns d || (getSrc d n).state == .dead || (getSrc d n).state == .raw || !(healthySrcs d).any (· != n)) = true ↔
    RecalRefused d n := by
  simp only [RecalRefused, Bool.or_eq_true, Bool.not_eq_true', beq_iff_eq, or_assoc]

theorem rngRecalGo_refused (h : RecalRefused d n) : rngRecalGo n d = rngCause d 0x10 :=
  (if_neg (recal_open hb hn)).trans (if_pos (recalRefused_iff.2 h))

/-- A source that supplies a hold waits for its end; another leaves rotation at once. -/
theorem getSrc_rngRecalGo (h : ¬ RecalRefused d n) : getSrc (rngRecalGo n d) n =
    let x := getSrc d n
    if RandomJobs.suppliesHold d n = true ∧ x.state = .healthy then { x with pfRecal := true }
    else { x with state := .recal, pool := [], pfRecal := true } := by
  have e : rngRecalGo n d = if (RandomJobs.suppliesHold d n && (getSrc d n).state == .healthy) = true
      then modSrc d n fun x => { x with pfRecal := true } else modSrc d n fun x => { x with state := .recal, pool := [], pfRecal := true } :=
    (if_neg (recal_open hb hn)).trans (if_neg (mt recalRefused_iff.1 h))
  rw [e]
  simp only [Bool.and_eq_true, beq_iff_eq]
  split
  · exact getSrc_modSrc d _ hn
  · exact getSrc_modSrc d _ hn

end

section
variable (hn : n < 4) (hs : (getSrc d n).state = .recal ∨ (getSrc d n).state = .startup) {trims : List Nat}

/-- A sweep's trims, as the source and MRAM keep them. -/
def sweptTrims (trims : List Nat) : Vector (BitVec 7) 16 := Vector.ofFn fun k => BitVec.ofNat 7 (trims.getD k.val 64)

/-- The trims of a sweep are kept; after RAW there was none (11 R355, R360). -/
def trimsKept (d : Dev) (n : Nat) (trims : List Nat) (hn : n < 4) : Dev :=
  let e := modSrc d n fun x => { x with trims := sweptTrims trims }
  if (getSrc d n).state = .recal then { e with rng.mramTrims := e.rng.mramTrims.set n (some (sweptTrims trims)) } else d

include hs

theorem recal_ends : ¬ (decide ((getSrc d n).state ≠ .recal) && decide ((getSrc d n).state ≠ .startup)) = true := by
  rcases hs with h | h <;> rw [h] <;> decide

theorem recalDoneGo_of (pass : Bool) : recalDoneGo n pass trims d =
    let d1 := trimsKept d n trims hn
    if pass then srcHealthy d1 n
    else if (getSrc d n).pfRecal then errorCheck (srcCount d1 n .startup (d.rng.seedSrc.toNat == n))
    else errorCheck (modSrc d1 n fun x => { x with state := .retired, cause := .startup, retryAt := some (d.glob.tb + BitVec.ofNat 64 secNs) }) := by
  refine (dif_pos hn).trans ((if_neg (recal_ends hs)).trans ?_)
  simp only [trimsKept, sweptTrims, beq_iff_eq]

end

/-- The retry of source `k` is due. -/
def retryDue (d : Dev) (k : Nat) : Bool :=
  (getSrc d k).state == .retired && (match (getSrc d k).retryAt with | some t => decide (t ≤ d.glob.tb) | none => false)

theorem retryDue_of {t : U64} (hs : (getSrc d n).state = .retired) (ht : (getSrc d n).retryAt = some t) (hd : t ≤ d.glob.tb) :
    retryDue d n = true := by
  simp only [retryDue, hs, ht, hd, decide_true, beq_self_eq_true, Bool.and_self]

theorem retryDue_early {k : Nat} (h : (getSrc d k).state ≠ .retired ∨ ∀ u, (getSrc d k).retryAt = some u → d.glob.tb < u) :
    retryDue d k = false := by
  unfold retryDue
  rcases h with h | h
  · rw [beq_eq_false_iff_ne.2 h, Bool.false_and]
  · cases hr : (getSrc d k).retryAt with
    | none => exact Bool.and_false _
    | some u => simp only [decide_eq_false (BitVec.not_le.2 (h u hr)), Bool.and_false]

theorem sourceRetryGo_first (hr : recalRuns d = false) (hd : retryDue d n = true) (hb : ∀ k, k < n → retryDue d k = false) :
    sourceRetryGo n d = modSrc d n fun x => { x with state := .recal, pool := [] } := by
  refine if_neg ?_
  have hany : (List.range n).any (retryDue d) = false := List.any_eq_false.2 fun k hk => Bool.eq_false_iff.1 (hb k (List.mem_range.1 hk))
  show ¬ (recalRuns d || !retryDue d n || (List.range n).any (retryDue d)) = true
  rw [hr, hd, hany]
  decide

end

/-! ## The statement -/

/-- Settles O43: under a clause's conditions the command's meaning is one equation above. Which way a trim code moves the count is a free value
(log 68), and the tests of a window act on its samples in order (log 74). -/
theorem randomSourceResults : Obligations.RandomSourceResults := by
  unfold Obligations.RandomSourceResults
  dsimp only
  refine ⟨fun s n latch ones hl hn => ⟨fun h => ?_, fun ho hf hfar => ⟨fun h => ?_, fun h => ?_⟩⟩, fun s n => ⟨rfl, rfl⟩,
    fun s n samples hn ho hs => ⟨fun hc => ?_, fun hc => ?_⟩,
    fun s ho hh => ⟨fun h => ?_, fun h => ?_, fun h => ?_, fun h => ?_, fun hb => ?_, ?_⟩,
    fun s ok h hh => ⟨fun hk hok => ?_, fun hp => ⟨fun hs => ?_, fun n hs hsrc => ⟨fun hb => ?_, fun hb => ?_⟩⟩⟩,
    fun s n hb hn => ⟨fun h => ?_, fun h => ?_⟩, fun s n trims hn hs => ⟨?_, fun hp => ?_, fun hp => ?_⟩,
    fun s n t hn hr hs ht hd hb => ?_⟩
  · exact gives_of (go := trimStepGo n latch ones) rfl (trimStepGo_idle hl h)
  · exact gives_of (go := trimStepGo n latch ones) rfl (trimStepGo_fails hl ho hf hfar h)
  · exact ⟨_, gives_of (go := trimStepGo n latch ones) rfl (trimStepGo_steps hl ho hf hfar h), rfl, getSrc_modSrc _ _ hn⟩
  · exact gives_of (go := condBlockGo n samples) rfl ((condBlockGo_window hs).trans (if_neg hc))
  · exact ⟨_, gives_of (go := condBlockGo n samples) rfl ((condBlockGo_window hs).trans (if_pos hc)), rfl, getSrc_condBlock hn ho hs⟩
  · exact gives_of (go := reseedDueGo) rfl (reseedDueGo_due ho hh h)
  · exact gives_of (go := reseedDueGo) rfl (reseedDueGo_early ho hh h)
  · exact gives_of (go := inlineKatGo) rfl ((if_neg (Nat.not_lt.2 h)).trans (katStart_free ho hh))
  · exact gives_of (go := inlineKatGo) rfl (if_pos h)
  · exact gives_of (go := fun d => if barOk d 0 then katStart d else d) rfl ((if_pos hb).trans (katStart_free ho hh))
  · exact gives_of (go := reserveRefillGo) rfl (if_neg (not_not_intro ho))
  · exact gives_of (go := holdEndGo ok) rfl (holdEndGo_of hh (holdEnd_katFails hh hk hok))
  · exact gives_of (go := holdEndGo ok) rfl (holdEndGo_of hh (holdEnd_tested hh hp hs))
  · exact gives_of (go := holdEndGo ok) rfl (holdEndGo_of hh (holdEnd_short hh hp hs hsrc hb))
  · exact gives_of (go := holdEndGo ok) rfl (holdEndGo_of hh (holdEnd_seeds hh hp hs hsrc hb))
  · exact gives_of (go := rngRecalGo n) rfl (rngRecalGo_refused hb hn h)
  · exact ⟨_, rfl, rfl, getSrc_rngRecalGo hb hn h⟩
  · exact gives_of (go := recalDoneGo n true trims) rfl (recalDoneGo_of hn hs true)
  · exact gives_of (go := recalDoneGo n false trims) rfl ((recalDoneGo_of hn hs false).trans (if_pos hp))
  · exact gives_of (go := recalDoneGo n false trims) rfl ((recalDoneGo_of hn hs false).trans (if_neg fun e => Bool.false_ne_true (hp.symm.trans e)))
  · exact ⟨_, gives_of (go := sourceRetryGo n) rfl
      (sourceRetryGo_first hr (retryDue_of hs ht hd) fun k hk => retryDue_early (hb k hk)), rfl, getSrc_modSrc _ _ hn⟩

end Sys2Proof.Proofs.RandomSources
end

section
/-!
PROOF. Key management: creation, derivation, restriction, destruction, the zeroise of an owner and the MRAM commit (12 R370-R373, R383-R386).
-/
namespace Sys2Proof.Proofs.KeyManagement

open Sys2Proof.Machine Sys2Proof.Safety Sys2Proof.Laws

/-- A job with a bad output list ends without effect (02 R43). -/
theorem bad_isSome {b : Job} (h : b.outBad ≠ none) : b.outBad.isSome = true := Option.isSome_iff_ne_none.2 h

theorem good_isSome {b : Job} (h : b.outBad = none) : ¬ b.outBad.isSome = true := by rw [h]; exact Bool.false_ne_true

section
variable {d : Dev} {b : Job}

/-! ## DERIVE (12 R384) -/

theorem deriveRun_short (h : (b.auxData.drop 2).length < (u16At b.auxData 0).toNat) : deriveRun d b = refuse d b stLength 3 (unstated b.e) :=
  if_pos h

theorem deriveRun_makes (h : (u16At b.auxData 0).toNat ≤ (b.auxData.drop 2).length) : deriveRun d b =
    let rest := b.auxData.drop 2
    let ll := (u16At b.auxData 0).toNat
    let key := secretOf (jobKey0 d b)
    let n := secretSize b.e
    makeKey d b
      { type := secretType b.e, policy := pPolicy b.e, origin := 1, pub := []
        sec := kdf (pbits b.e 14 2) key (rest.take ll) (rest.drop ll) n } [] 0
      (kdfCycles (pbits b.e 14 2) b.auxData.length key.length (rest.take ll).length (rest.drop ll).length n) :=
  if_neg (Nat.not_lt.2 h)

/-! ## RESTRICT and DESTROY (12 R383, R385; 06 R198) -/

/-- EFFECT of a change of the key: a persistent or stateful one is in MRAM. -/
def keyEffect (d : Dev) (b : Job) : Byte := if (jobKey0 d b).persist || (jobKey0 d b).stateful then effPersistent else 0

theorem restrictRun_bad (h : b.outBad ≠ none) : restrictRun d b = finishOut d b [] 0 0 0 300 := if_pos (bad_isSome h)

theorem restrictRun_good (h : b.outBad = none) : restrictRun d b =
    finishOut (jCommitted (modObj (jIntent d b) b.owner b.e.key0 fun x => { x with policy := pPolicy b.e }) b (keyEffect d b)) b [] 0
      (keyEffect d b) 0 300 := if_neg (good_isSome h)

theorem destroyRun_busy (h : keyBusy d b b.e.key0 = true) : destroyRun d b = d := if_pos h

section
variable (hk : keyBusy d b b.e.key0 = false)
include hk

theorem key_idle : ¬ keyBusy d b b.e.key0 = true := by rw [hk]; exact Bool.false_ne_true

theorem destroyRun_bad (h : b.outBad ≠ none) : destroyRun d b = finishOut d b [] 0 0 0 300 :=
  (if_neg (key_idle hk)).trans (if_pos (bad_isSome h))

variable (h : b.outBad = none)
include h

theorem destroyRun_named (hn : (jobKey0 d b).isParam = true ∧ paramUsed d b.owner b.e.key0 = true) :
    destroyRun d b = refuse d b stKeyPolicy 0 300 :=
  (if_neg (key_idle hk)).trans ((if_neg (good_isSome h)).trans (if_pos (Bool.and_eq_true_iff.2 hn)))

theorem destroyRun_destroys (hn : ¬ ((jobKey0 d b).isParam = true ∧ paramUsed d b.owner b.e.key0 = true)) : destroyRun d b =
    finishOut (jCommitted (if (jobKey0 d b).stateful then destroyStateful (jIntent d b) b.owner (hSlot b.e.key0)
      else destroySlot (jIntent d b) b.owner (hSlot b.e.key0)) b (keyEffect d b)) b [] 0 (keyEffect d b) 0 300 :=
  (if_neg (key_idle hk)).trans ((if_neg (good_isSome h)).trans (if_neg (mt Bool.and_eq_true_iff.1 hn)))

end

/-! ## ZEROISE_OWNER (12 R396) -/

theorem zeroiseOwnerRun_waits (h : d.ks.zsoft.isSome = true) : zeroiseOwnerRun d b = d := if_pos h

section
variable (hz : d.ks.zsoft = none)
include hz

theorem zsoft_idle : ¬ d.ks.zsoft.isSome = true := by rw [hz]; exact Bool.false_ne_true

theorem zeroiseOwnerRun_bad (h : b.outBad ≠ none) : zeroiseOwnerRun d b = finishOut d b [] 0 0 0 300 :=
  (if_neg (zsoft_idle hz)).trans (if_pos (bad_isSome h))

theorem zeroiseOwnerRun_starts (h : b.outBad = none) : zeroiseOwnerRun d b =
    softStart d { owner := if b.owner = 0 then pbits b.e 24 8 else b.owner, persist := pbit b.e 16, byJob := some b.id } :=
  (if_neg (zsoft_idle hz)).trans (if_neg (good_isSome h))

end
end

/-! ## The MRAM commit (02 R82, 07 R236; 12 R371) -/

/-- EFFECT of a job whose persistent key exists. -/
abbrev commitEffect : Byte := effKeyCreated ||| effPersistent

/-- The object is in its slot; a stateful one has its records and its entries. -/
def commitObject (d : Dev) (b : Job) (k : KObj) : Dev :=
  let r := createObj d b.owner k
  match b.ssNew with
  | some x => giveEntries { r.2 with ss.keys := mapSet none r.2.ss.keys (slotKey b.owner (hSlot r.1)) (some x) } b.owner
  | none => r.2

/-- The journal entry of the job is COMMITTED, with the handle `h`. -/
def commitJournal (d : Dev) (b : Job) (h : U32) : Dev :=
  match b.jrn with
  | some n => modJ d n fun e => { e with state := .committed, effect := commitEffect, object := h }
  | none => d

/-- A job whose key exists, under the handle `h`. -/
def commitJob (h : U32) (x : Job) : Job :=
  { x with committed := true, result := h, effect := commitEffect, granRes := blobGran x, pkeyRes := 0, blkRes := 0, ssRes := 0 }

theorem commitObject_keeps (d : Dev) (b : Job) (k : KObj) :
    (commitObject d b k).ks = (createObj d b.owner k).2.ks ∧ (commitObject d b k).jobs = d.jobs := by
  unfold commitObject
  cases b.ssNew with
  | none => exact ⟨rfl, createObj_jobs d b.owner k⟩
  | some x =>
    obtain ⟨hks, hjobs⟩ := giveEntries_keeps { (createObj d b.owner k).2 with
      ss.keys := mapSet none (createObj d b.owner k).2.ss.keys (slotKey b.owner (hSlot (createObj d b.owner k).1)) (some x) } b.owner
    exact ⟨hks, hjobs.trans (createObj_jobs d b.owner k)⟩

theorem commitJournal_keeps (d : Dev) (b : Job) (h : U32) : (commitJournal d b h).ks = d.ks ∧ (commitJournal d b h).jobs = d.jobs := by
  unfold commitJournal
  cases b.jrn <;> exact ⟨rfl, rfl⟩

section
variable {d : Dev} {b : Job} {k : KObj} (hj : findJob d b.id = some b) (hk : b.keep = some k) (hc : b.committed = false)
include hj hk hc

theorem mramCommitDoneGo_eq : mramCommitDoneGo b.id d =
    let h := (createObj d b.owner k).1
    modJob (recHist (commitJournal (commitObject d b k) b h) 0x501 (d.glob.tb - b.mramTb).toNat) b.id (commitJob h) := by
  unfold mramCommitDoneGo
  simp only [hj, hk, hc, Bool.false_eq_true, if_false]
  rfl

/-- What happens to a stateful key's records, to the journal and to the recorder leaves the key store and the jobs. -/
theorem mramCommitDoneGo_commits :
    (mramCommitDoneGo b.id d).ks = (createObj d b.owner k).2.ks
      ∧ findJob (mramCommitDoneGo b.id d) b.id = some (commitJob (createObj d b.owner k).1 b) := by
  obtain ⟨hks, hjobs⟩ := commitObject_keeps d b k
  obtain ⟨hks', hjobs'⟩ := commitJournal_keeps (commitObject d b k) b (createObj d b.owner k).1
  rw [mramCommitDoneGo_eq hj hk hc]
  obtain ⟨hif, x, y, recd, e⟩ := recHist_ex (commitJournal (commitObject d b k) b (createObj d b.owner k).1) 0x501 (d.glob.tb - b.mramTb).toNat
  dsimp only
  rw [e]
  exact ⟨hks'.trans hks, findJob_modJob_self _ ((findJob_jobs (hjobs'.trans hjobs)).trans hj) rfl⟩

end

/-! ## The statement -/

/-- Settles O34. The refusal of a parameter object that keys still name is KEY_POLICY (log 187); the cycles of a DERIVE whose label is too
long are open (log 72). -/
theorem keyManagementResults : Obligations.KeyManagementResults := by
  unfold Obligations.KeyManagementResults
  dsimp only
  refine ⟨fun s b h => ?_, fun s b h => ⟨fun hl => ?_, fun hl => ?_⟩, fun s b h => ⟨fun ho => ?_, fun ho => ?_⟩,
    fun s b h => ⟨fun hk => ?_, fun hk ho => ?_, fun hk ho hn => ?_, fun hk ho hn => ?_⟩, fun s b h => ?_, fun s b h => ?_,
    fun s b h => ⟨fun hz => ?_, fun hz ho => ?_, fun hz ho => ?_⟩, fun s b k hj hk hc => ?_⟩
  · exact keyMade_of (serve_exec (run := secretGenRun) rfl h)
  · exact refuse_over (serve_to deriveRun rfl h (deriveRun_short hl))
  · exact keyMade_of (serve_to deriveRun rfl h (deriveRun_makes hl))
  · exact serve_to restrictRun rfl h (restrictRun_bad ho)
  · exact jobDone_of (serve_to restrictRun rfl h (restrictRun_good ho))
  · exact stay (serve_to destroyRun rfl h (destroyRun_busy hk))
  · exact serve_to destroyRun rfl h (destroyRun_bad hk ho)
  · exact refuse_over (serve_to destroyRun rfl h (destroyRun_named hk ho hn))
  · exact jobDone_of (serve_to destroyRun rfl h (destroyRun_destroys hk ho hn))
  · exact jobDone_of (serve_exec (run := infoRun) rfl h)
  · exact jobDone_of (serve_exec (run := readPlainRun) rfl h)
  · exact stay (serve_to zeroiseOwnerRun rfl h (zeroiseOwnerRun_waits hz))
  · exact serve_to zeroiseOwnerRun rfl h (zeroiseOwnerRun_bad hz ho)
  · exact serve_to zeroiseOwnerRun rfl h (zeroiseOwnerRun_starts hz ho)
  · exact ⟨_, rfl, rfl, mramCommitDoneGo_commits hj hk hc⟩

end Sys2Proof.Proofs.KeyManagement
end

section
/-!
PROOF. Keys outside the device: blobs, wrapped imports and exports, and the unwrap of a KEY0 blob (12 R377-R382, R386).
-/
namespace Sys2Proof.Proofs.KeyTransport

open Sys2Proof.Machine Sys2Proof.Safety Sys2Proof.Laws
open Sys2Proof.Proofs.KeyManagement (bad_isSome good_isSome)

/-- A refusal for want of room is counted where it is one of blocks (12 R371). -/
def roomRefuse (d : Dev) (b : Job) (st det : U16) : Dev := ksRefuse (if st = stPersistFull then ksPfull d else d) b st det

section
variable {d : Dev} {b : Job}

/-! ## BLOB_EXPORT and KW_EXPORT (12 R377, R380, R382) -/

theorem blobExportRun_bad (h : b.outBad ≠ none) : blobExportRun d b =
    finishOut d b [] 0 0 0 (blobCycles (jobKey0 d b).shareA.length (jobKey0 d b).pub.length) := if_pos (bad_isSome h)

theorem blobExportRun_good (h : b.outBad = none) : blobExportRun d b =
    let dom := pbits b.e 8 2
    let x := blobSalts d dom b.owner
    let k := jobKey0 x b
    let sec := secretOf k
    let group := secretOf (jobKey1 x b)
    let r := draw x 12
    let head := le32 0x4B425153 ++ [1, BitVec.ofNat 8 dom, if dom = 2 then 0 else x.ks.epoch.setWidth 8,
        if dom = 0 then BitVec.ofNat 8 b.owner else 0] ++ le16 k.type ++ le16 k.policy ++ [k.origin] ++ zeros 3
      ++ leBytes 4 sec.length ++ leBytes 4 k.pub.length ++ r.1 ++ zeros 4 ++ (if dom = 2 then groupId group else zeros 16) ++ zeros 8
    let ks := aesKeys (blobKey x dom b.owner group)
    let ct := gcmCrypt ks r.1 sec
    finishOut (modObj r.2 b.owner b.e.key0 fun x => { x with exported := true }) b (head ++ ct ++ k.pub ++ gcmTag ks r.1 (head ++ k.pub) ct)
      0 0 0 (blobCycles sec.length k.pub.length) := if_neg (good_isSome h)

theorem kwExportRun_bad (h : b.outBad ≠ none) : kwExportRun d b =
    finishOut d b [] 0 0 0 (kwpCycles ((kwpWrap (secretOf (jobKey1 d b)) (kwPlain (jobKey0 d b))).length / 8)) := if_pos (bad_isSome h)

theorem kwExportRun_good (h : b.outBad = none) : kwExportRun d b =
    let w := kwpWrap (secretOf (jobKey1 d b)) (kwPlain (jobKey0 d b))
    finishOut (modObj d b.owner b.e.key0 fun x => { x with exported := true }) b w 0 0 0 (kwpCycles (w.length / 8)) := if_neg (good_isSome h)

/-! ## BLOB_IMPORT: header, KEY1, room, epoch and owner, tag (12 R378; logs 181 and 182) -/

/-- A blob has the form of one. -/
abbrev BlobForm (x : Bytes) : Prop := blobHeadOk x = true ∧ x.length = 80 + blobSec x + blobPub x
/-- KEY1 stands beside a blob of a domain that names no group key. -/
abbrev BlobGrouped (b : Job) : Prop := blobDomain b.inData ≠ 2 ∧ b.e.key1 ≠ noHandle
/-- The group key of a blob, where KEY1 names one. -/
def blobGroup (d : Dev) (b : Job) : Option Bytes := if b.e.key1 = noHandle then none else some (secretOf (jobKey1 d b))

theorem blobForm_iff (x : Bytes) : (!blobHeadOk x || decide (x.length ≠ 80 + blobSec x + blobPub x)) = true ↔ ¬ BlobForm x := by
  simp only [BlobForm, Bool.or_eq_true, Bool.not_eq_true', decide_eq_true_eq, not_and_or, Bool.not_eq_true, ne_eq]

theorem blobImportRun_misformed (h : ¬ BlobForm b.inData) : blobImportRun d b = ksRefuse d b stEncoding 0x0A01 :=
  if_pos ((blobForm_iff _).2 h)

section
variable (hf : BlobForm b.inData)
include hf

theorem blob_formed : ¬ (!blobHeadOk b.inData || decide (b.inData.length ≠ 80 + blobSec b.inData + blobPub b.inData)) = true :=
  mt (blobForm_iff _).1 (not_not_intro hf)

theorem blobImportRun_grouped (h : BlobGrouped b) : blobImportRun d b = ksRefuse d b stParamInvalid 0 :=
  (if_neg (blob_formed hf)).trans (if_pos (by simpa only [Bool.and_eq_true, decide_eq_true_eq] using h))

variable (hg : ¬ BlobGrouped b)
include hg

omit hf in
theorem blob_ungrouped : ¬ (decide (blobDomain b.inData ≠ 2) && decide (b.e.key1 ≠ noHandle)) = true := by
  simpa only [Bool.and_eq_true, decide_eq_true_eq] using hg

theorem blobImportRun_short {st det : U16} (h : newShort d b (blobSec b.inData) (blobPub b.inData) = some (st, det)) :
    blobImportRun d b = roomRefuse d b st det := by
  simp only [blobImportRun, if_neg (blob_formed hf), if_neg (blob_ungrouped hg), h, roomRefuse]

variable (hr : newShort d b (blobSec b.inData) (blobPub b.inData) = none)
include hr

theorem blobImportRun_barred {st det : U16} (h : blobFault d b.owner b.inData (blobGroup d b) = some (st, det)) :
    blobImportRun d b = ksRefuse d b st det := by
  unfold blobGroup at h
  simp only [blobImportRun, if_neg (blob_formed hf), if_neg (blob_ungrouped hg), hr, h]

variable (hb : blobFault d b.owner b.inData (blobGroup d b) = none)
include hb

/-- The blob is opened with the key of its domain. -/
theorem blobImportRun_opens : blobImportRun d b =
    let x := b.inData
    let e := blobSalts d (blobDomain x) b.owner
    let cyc := blobCycles (blobSec x) (blobPub x)
    match blobOpen (blobKey e (blobDomain x) b.owner ((blobGroup d b).getD [])) x with
    | none => refuse e b stTagInvalid 0 cyc
    | some (sec, pub) => makeKey e b { type := u16At x 8, policy := u16At x 0xA, origin := byteAt x 0xC, sec := sec, pub := pub } [] 0 cyc := by
  unfold blobGroup at hb ⊢
  simp only [blobImportRun, if_neg (blob_formed hf), if_neg (blob_ungrouped hg), hr, hb] <;> rfl

end

/-! ## KW_IMPORT and KEM_IMPORT (12 R380-R382; logs 32 and 182) -/

/-- What an import does first, once its room is sure. -/
def importFirst (d : Dev) (b : Job) : Dev :=
  if opOp b.e.opcode = 6 then importUnwrap d b (secretOf (jobKey1 d b)) b.inData else importDecaps d b

theorem importRun_first (h : b.step = 0) : importRun d b = importRoom d b importFirst := if_pos h

/-- The owner has no share of the engines that check the type. -/
abbrev ImportBarred (d : Dev) (b : Job) : Prop :=
  importCheckKind (impType b) = 1 ∧ holdsKind d b.owner .py = false ∨ importCheckKind (impType b) = 3 ∧ holdsKind d b.owner .me = false

theorem importBarred_iff : (importCheckKind (impType b) == 1 && !holdsKind d b.owner .py
    || importCheckKind (impType b) == 3 && !holdsKind d b.owner .me) = true ↔ ImportBarred d b := by
  simp only [ImportBarred, Bool.or_eq_true, Bool.and_eq_true, Bool.not_eq_true', beq_iff_eq]

/-- An import with the room that it will take. -/
def importReserved (d : Dev) (b : Job) : Job :=
  let n := impSizes d b
  { b with granRes := if n.1 = 0 then granPub n.2 else granPriv n.1 n.2
           blkRes := if b.pkeyRes = 0 then 0 else persistBlocks n.1 n.2 }

section
variable {go : Dev → Job → Dev}

theorem importRoom_misdescribed (h : descOk b = false) : importRoom d b go = ksRefuse d b stParamInvalid 0 := if_pos (by rw [h]; rfl)

variable (hd : descOk b = true)
include hd

theorem import_described : ¬ (!descOk b) = true := by rw [hd]; exact Bool.false_ne_true

theorem importRoom_barred (h : ImportBarred d b) : importRoom d b go = ksRefuse d b stNotPermitted 0 :=
  (if_neg (import_described hd)).trans (if_pos (importBarred_iff.2 h))

variable (hb : ¬ ImportBarred d b)
include hb

theorem importRoom_short {st det : U16} (h : newShort d b (impSizes d b).1 (impSizes d b).2 = some (st, det)) :
    importRoom d b go = roomRefuse d b st det := by
  simp only [importRoom, if_neg (import_described hd), if_neg (mt importBarred_iff.1 hb), h, roomRefuse]

theorem importRoom_goes (h : newShort d b (impSizes d b).1 (impSizes d b).2 = none) :
    importRoom d b go = go (modJob d b.id fun _ => importReserved d b) (importReserved d b) := by
  simp only [importRoom, if_neg (import_described hd), if_neg (mt importBarred_iff.1 hb), h, importReserved]

end

theorem importRun_second (h : b.step = 1) : importRun d b = importUnwrap d b b.part2 (b.inData.drop (kemTypeCt (jobKey1 d b).type)) :=
  (if_neg (by rw [h]; decide)).trans (if_pos h)

section
variable (hs : 2 ≤ b.step)
include hs

theorem importRun_check : importRun d b = match importFault (impType b) b.part2 with
    | some (st, det) => refuse d b st det (unstated b.e)
    | none => importMake d b b.part2 (unstated b.e) := by
  refine (if_neg (by omega)).trans ((if_neg (by omega)).trans ?_)
  rfl

theorem importRun_faulty {st det : U16} (h : importFault (impType b) b.part2 = some (st, det)) : importRun d b = refuse d b st det (unstated b.e) := by
  rw [importRun_check hs, h]

theorem importRun_makes (h : importFault (impType b) b.part2 = none) : importRun d b = importMake d b b.part2 (unstated b.e) := by
  rw [importRun_check hs, h]

end
end

/-- The command of an import's first step. -/
def importCmd (kem : Bool) (j : Nat) : Instr := if kem then .kemImport j else .kwImport j

theorem importCmd_exec {kem : Bool} {s : State} {b : Job} {d1 : Dev} (h : JobReady s.dev b.id (isCode (if kem then 0xA007 else 0xA006)) b)
    (hs : b.step = 0) (e : importRoom s.dev b importFirst = d1) : exec (importCmd kem b.id) s = .next { s with dev := d1 } := by
  have he := (importRun_first hs).trans e
  cases kem
  · exact serve_to kwImportRun rfl h ((if_pos hs).trans he)
  · exact serve_to kemImportRun rfl h ((if_pos hs).trans he)

/-! ## The unwrap of a KEY0 blob (12 R378, R379) -/

theorem needZsalt_jobs (d : Dev) : (needZsalt d).jobs = d.jobs := by
  unfold needZsalt
  cases d.ks.zsalt <;> rfl

theorem blobSalts_jobs (d : Dev) (dom o : Nat) : (blobSalts d dom o).jobs = d.jobs := by
  unfold blobSalts
  split
  · exact needSalts_jobs d o
  · split
    · exact needZsalt_jobs d
    · rfl

/-- The object that an opened blob gives, on a device that has drawn a share of its secret. -/
def blobObj (d : Dev) (h sec pub : Bytes) : KObj :=
  { type := u16At h 8, policy := u16At h 0xA, origin := byteAt h 0xC, shareA := (draw d sec.length).1
    shareB := xorBytes sec (draw d sec.length).1, pub := pub, gran := blobObjGran h }

/-- The job has its object's granules, on a device that has drawn a share of the secret. -/
def blobHeld (d : Dev) (b : Job) (sec : Bytes) : Dev := modJob (draw d sec.length).2 b.id fun t => { t with granRes := blobObjGran b.auxData }

/-- A job whose KEY0 object is open, with the room that its operation asks for. -/
def blobReady (sp : OpSpec) (obj : KObj) (gran : Nat) (t : Job) : Job :=
  { t with phase := .waiting, blob := some obj, granRes := gran + sp.gran, pkeyRes := if sp.persist then 1 else 0
           blkRes := if sp.persist then sp.blocks else 0 }

/-- The last checks of the operation, now that KEY0 is there, and the wait for placement. -/
def blobPlaces (d : Dev) (b : Job) (sp : OpSpec) (sec pub : Bytes) : Dev :=
  let h := b.auxData
  let obj := blobObj d h sec pub
  match refuseLate (blobHeld d b sec) b.owner b.e sp (some obj) (h.drop (80 + blobSec h + blobPub h)).length with
  | some (st, det) => finish (if st = stPersistFull then ksPfull (blobHeld d b sec) else blobHeld d b sec) b st det
  | none => modJob (blobHeld d b sec) b.id (blobReady sp obj (blobObjGran h))

/-- The unwrap on a symmetric unit, where one is free and the DRBG serves. -/
def blobUnwraps (d : Dev) (b : Job) (sp : OpSpec) : Dev :=
  let h := b.auxData
  let x := blobSalts d (blobDomain h) b.owner
  if resolveStopped d b.owner || !(kindCells .sy).any (engineFree d b) then d
  else if d.rng.state == .error then finish d b stRngUnavailable 0
  else if d.rng.hold.isSome then d
  else match blobOpen (blobKey x (blobDomain h) b.owner []) h with
    | none => finish x b stTagInvalid 0
    | some (sec, pub) => blobPlaces x b sp sec pub

/-- The form of a KEY0 blob at the start of AUX. -/
abbrev Key0Form (h : Bytes) : Prop := 64 ≤ h.length ∧ blobHeadOk h = true ∧ 80 + blobSec h + blobPub h ≤ h.length

theorem key0Form_iff (h : Bytes) :
    (decide (h.length < 64) || !blobHeadOk h || decide (h.length < 80 + blobSec h + blobPub h)) = true ↔ ¬ Key0Form h := by
  simp only [Key0Form, Bool.or_eq_true, Bool.not_eq_true', decide_eq_true_eq, not_and_or, Bool.not_eq_true, Nat.not_le, or_assoc]

section
variable {d : Dev} {b : Job} {sp : OpSpec} (hj : findJob d b.id = some b) (hp : b.phase = .unwrapping)
  (ha : b.auxData.length = b.e.auxLen.toNat) (hsp : opSpec d b.owner b.e = some sp)
include hj hp ha hsp

/-- The checks of 12 R379 and R378 in their order, then the unwrap. -/
theorem blobUnwrapGo_eq : blobUnwrapGo b.id d =
    let h := b.auxData
    if late d b.e then finish d b stDeadline 0
    else if ¬ Key0Form h then finish d b stEncoding 0x0A01
    else if granShort d b.owner (blobObjGran h) then finish d b stKeyCacheFull 0
    else if blobDomain h = 2 then finish d b stKeyPolicy 0
    else match blobFault d b.owner h none with
      | some (st, det) => finish d b st det
      | none => blobUnwraps d b sp := by
  have hgo : (decide (b.phase ≠ .unwrapping) || decide (b.auxData.length ≠ b.e.auxLen.toNat)) = false := by
    rw [decide_eq_false (not_not_intro hp), decide_eq_false (not_not_intro ha)]; rfl
  unfold blobUnwrapGo
  simp only [hj, hgo, Bool.false_eq_true, if_false, hsp, key0Form_iff]
  rfl

theorem blobUnwrapGo_late (hl : late d b.e = true) : blobUnwrapGo b.id d = finish d b stDeadline 0 :=
  (blobUnwrapGo_eq hj hp ha hsp).trans (if_pos hl)

section
variable (hl : late d b.e = false)
include hl

theorem blobUnwrapGo_misformed (hf : ¬ Key0Form b.auxData) : blobUnwrapGo b.id d = finish d b stEncoding 0x0A01 := by
  rw [blobUnwrapGo_eq hj hp ha hsp]
  simp only [hl, Bool.false_eq_true, if_false, if_pos hf]

variable (hf : Key0Form b.auxData)
include hf

theorem blobUnwrapGo_short (hg : granShort d b.owner (blobObjGran b.auxData) = true) : blobUnwrapGo b.id d = finish d b stKeyCacheFull 0 := by
  rw [blobUnwrapGo_eq hj hp ha hsp]
  simp only [hl, Bool.false_eq_true, if_false, if_neg (not_not_intro hf), hg, if_true]

variable (hg : granShort d b.owner (blobObjGran b.auxData) = false)
include hg

theorem blobUnwrapGo_group (hd : blobDomain b.auxData = 2) : blobUnwrapGo b.id d = finish d b stKeyPolicy 0 := by
  rw [blobUnwrapGo_eq hj hp ha hsp]
  simp only [hl, Bool.false_eq_true, if_false, if_neg (not_not_intro hf), hg, if_pos hd]

variable (hd : blobDomain b.auxData ≠ 2)
include hd

theorem blobUnwrapGo_barred {st det : U16} (hb : blobFault d b.owner b.auxData none = some (st, det)) :
    blobUnwrapGo b.id d = finish d b st det := by
  rw [blobUnwrapGo_eq hj hp ha hsp]
  simp only [hl, Bool.false_eq_true, if_false, if_neg (not_not_intro hf), hg, if_neg hd, hb]

theorem blobUnwrapGo_unwraps (hb : blobFault d b.owner b.auxData none = none) : blobUnwrapGo b.id d = blobUnwraps d b sp := by
  rw [blobUnwrapGo_eq hj hp ha hsp]
  simp only [hl, Bool.false_eq_true, if_false, if_neg (not_not_intro hf), hg, if_neg hd, hb]

end
end

section
variable {d : Dev} {b : Job} {sp : OpSpec}

/-- A symmetric unit is free for the unwrap, and no soft zeroise stops it. -/
abbrev UnwrapRuns (d : Dev) (b : Job) : Prop := resolveStopped d b.owner = false ∧ (kindCells .sy).any (engineFree d b) = true

theorem unwrapRuns_iff : (resolveStopped d b.owner || !(kindCells .sy).any (engineFree d b)) = true ↔ ¬ UnwrapRuns d b := by
  simp only [UnwrapRuns, Bool.or_eq_true, Bool.not_eq_true', not_and_or, Bool.not_eq_true, Bool.not_eq_false]

theorem blobUnwraps_waits (h : ¬ UnwrapRuns d b) : blobUnwraps d b sp = d := if_pos (unwrapRuns_iff.2 h)

section
variable (hr : UnwrapRuns d b)
include hr

theorem unwrap_runs : ¬ (resolveStopped d b.owner || !(kindCells .sy).any (engineFree d b)) = true := mt unwrapRuns_iff.1 (not_not_intro hr)

theorem blobUnwraps_unseeded (h : d.rng.state = .error) : blobUnwraps d b sp = finish d b stRngUnavailable 0 :=
  (if_neg (unwrap_runs hr)).trans (if_pos (beq_iff_eq.2 h))

variable (hs : d.rng.state ≠ .error)
include hs

theorem blobUnwraps_held (h : d.rng.hold.isSome = true) : blobUnwraps d b sp = d :=
  (if_neg (unwrap_runs hr)).trans ((if_neg (mt beq_iff_eq.1 hs)).trans (if_pos h))

variable (hh : d.rng.hold = none)
include hh

theorem blobUnwraps_opens : blobUnwraps d b sp =
    let h := b.auxData
    let x := blobSalts d (blobDomain h) b.owner
    match blobOpen (blobKey x (blobDomain h) b.owner []) h with
    | none => finish x b stTagInvalid 0
    | some (sec, pub) => blobPlaces x b sp sec pub :=
  (if_neg (unwrap_runs hr)).trans ((if_neg (mt beq_iff_eq.1 hs)).trans (if_neg (by rw [hh]; exact Bool.false_ne_true)))

end

theorem blobPlaces_refused {sec pub : Bytes} {st det : U16}
    (h : refuseLate (blobHeld d b sec) b.owner b.e sp (some (blobObj d b.auxData sec pub))
      (b.auxData.drop (80 + blobSec b.auxData + blobPub b.auxData)).length = some (st, det)) :
    blobPlaces d b sp sec pub = finish (if st = stPersistFull then ksPfull (blobHeld d b sec) else blobHeld d b sec) b st det := by
  simp only [blobPlaces, h]

/-- The job waits for placement with its transient object. -/
theorem blobPlaces_job {sec pub : Bytes} (hj : findJob d b.id = some b)
    (h : refuseLate (blobHeld d b sec) b.owner b.e sp (some (blobObj d b.auxData sec pub))
      (b.auxData.drop (80 + blobSec b.auxData + blobPub b.auxData)).length = none) :
    findJob (blobPlaces d b sp sec pub) b.id = some (blobReady sp (blobObj d b.auxData sec pub) (blobObjGran b.auxData) b) := by
  simp only [blobPlaces, h]
  have hheld : findJob (blobHeld d b sec) b.id = some { b with granRes := blobObjGran b.auxData } :=
    findJob_modJob_self (d := (draw d sec.length).2) (fun t => { t with granRes := blobObjGran b.auxData }) hj rfl
  exact (findJob_modJob_self (blobReady sp (blobObj d b.auxData sec pub) (blobObjGran b.auxData)) hheld rfl :)

end

/-! ## The statement -/

/-- Settles O35. The key store refuses an import for want of share or room before any engine, and a KEY1 beside a blob that names no group key
after the header (logs 181 and 182); the room of a stateful key counts as any other's (log 28), and the lengths of wraps are those of their
standards (log 71). -/
theorem keyTransportResults : Obligations.KeyTransportResults := by
  unfold Obligations.KeyTransportResults
  dsimp only
  refine ⟨fun s b h => ⟨fun ho => ?_, fun ho => ?_⟩,
    fun s b h => ⟨fun hf => ?_, fun hf hg => ?_, fun st det hf hg hr => ?_,
      fun hf hg hr => ⟨fun st det hb => ?_, fun hb => ⟨fun hp => ?_, fun sec pub hp => ?_⟩⟩⟩,
    fun s b h => ⟨fun ho => ?_, fun ho => ?_⟩,
    fun kem s b h hs hop => ⟨fun hd => ?_, fun hd hb => ?_, fun st det hd hb hr => ?_, fun hd hb hr => ?_⟩,
    fun s b h => ⟨fun hs => ?_, fun hs => ⟨fun st det hf => ?_, fun hf => ?_⟩⟩,
    fun s b sp hj hp ha hsp => ⟨fun hl => ?_, fun hl hf => ?_, fun hl hf hg => ?_, fun hl hf hg => ⟨fun hd => ?_, fun st det hd hb => ?_,
      fun hd hb => ⟨fun hr => ?_, fun hr hs => ?_, fun hr hs hh => ?_, fun hr hs hh => ⟨fun ho => ?_, fun sec pub ho =>
        ⟨fun st det hl2 => ?_, fun hl2 => ?_⟩⟩⟩⟩⟩⟩
  · exact serve_to blobExportRun rfl h (blobExportRun_bad ho)
  · exact jobDone_of (serve_to blobExportRun rfl h (blobExportRun_good ho))
  · exact serve_to blobImportRun rfl h (blobImportRun_misformed hf)
  · exact serve_to blobImportRun rfl h (blobImportRun_grouped hf hg)
  · exact serve_to blobImportRun rfl h (blobImportRun_short hf hg hr)
  · exact serve_to blobImportRun rfl h (blobImportRun_barred hf hg hr hb)
  · refine refuse_over (serve_to blobImportRun rfl h ((blobImportRun_opens hf hg hr hb).trans ?_))
    simp only [blobGroup, hp]
  · refine keyMade_of (serve_to blobImportRun rfl h ((blobImportRun_opens hf hg hr hb).trans ?_))
    simp only [blobGroup, hp]
  · exact serve_to kwExportRun rfl h (kwExportRun_bad ho)
  · exact jobDone_of (serve_to kwExportRun rfl h (kwExportRun_good ho))
  · exact importCmd_exec h hs (importRoom_misdescribed hd)
  · exact importCmd_exec h hs (importRoom_barred hd hb)
  · exact importCmd_exec h hs (importRoom_short hd hb hr)
  · have e := importCmd_exec h hs (importRoom_goes hd hb hr)
    cases kem
    · exact unwrapped_of (next_eq e (if_pos hop))
    · exact goesOn_of (next_eq e (if_neg (by rw [show opOp (importReserved s.dev b).e.opcode = 7 from hop]; decide)))
  · exact unwrapped_of (serve_to importRun rfl h (importRun_second hs))
  · exact refuse_over (serve_to importRun rfl h (importRun_faulty hs hf))
  · exact imported_of (serve_to importRun rfl h (importRun_makes hs hf))
  · exact gives_of (go := blobUnwrapGo b.id) rfl (blobUnwrapGo_late hj hp ha hsp hl)
  · exact gives_of (go := blobUnwrapGo b.id) rfl (blobUnwrapGo_misformed hj hp ha hsp hl hf)
  · exact gives_of (go := blobUnwrapGo b.id) rfl (blobUnwrapGo_short hj hp ha hsp hl hf hg)
  · exact gives_of (go := blobUnwrapGo b.id) rfl (blobUnwrapGo_group hj hp ha hsp hl hf hg hd)
  · exact gives_of (go := blobUnwrapGo b.id) rfl (blobUnwrapGo_barred hj hp ha hsp hl hf hg hd hb)
  · exact stay (gives_of (go := blobUnwrapGo b.id) rfl ((blobUnwrapGo_unwraps hj hp ha hsp hl hf hg hd hb).trans (blobUnwraps_waits hr)))
  · exact gives_of (go := blobUnwrapGo b.id) rfl ((blobUnwrapGo_unwraps hj hp ha hsp hl hf hg hd hb).trans (blobUnwraps_unseeded hr hs))
  · exact stay (gives_of (go := blobUnwrapGo b.id) rfl ((blobUnwrapGo_unwraps hj hp ha hsp hl hf hg hd hb).trans (blobUnwraps_held hr hs hh)))
  · refine gives_of (go := blobUnwrapGo b.id) rfl ((blobUnwrapGo_unwraps hj hp ha hsp hl hf hg hd hb).trans ((blobUnwraps_opens hr hs hh).trans ?_))
    simp only [ho]
  · refine gives_of (go := blobUnwrapGo b.id) rfl ((blobUnwrapGo_unwraps hj hp ha hsp hl hf hg hd hb).trans ((blobUnwraps_opens hr hs hh).trans ?_))
    simp only [ho]
    exact blobPlaces_refused hl2
  · refine ⟨_, gives_of (go := blobUnwrapGo b.id) rfl ((blobUnwrapGo_unwraps hj hp ha hsp hl hf hg hd hb).trans (blobUnwraps_opens hr hs hh)), rfl, ?_⟩
    simp only [ho]
    exact blobPlaces_job ((findJob_jobs (blobSalts_jobs _ _ _)).trans hj) hl2

end Sys2Proof.Proofs.KeyTransport
end

section
/-!
PROOF. The hard zeroise, from its triggers to its end, and the soft one (12 R394-R396, R398).
-/
namespace Sys2Proof.Proofs.Zeroise

open Sys2Proof.Machine Sys2Proof.Safety Sys2Proof.Laws

section
variable {d : Dev}

/-! ## The hard zeroise (12 R394, R395) -/

/-- Steps 2 to 4: the mark is set, the salts are gone and no queue is left. -/
theorem hardStart_marks (t x : Byte) (hs : d.glob.st ≠ .scrapped) (hz : d.glob.hardZ = none) :
    (hardStart t x d).glob.hardZ = some { trigger := t, detail := x } ∧ (hardStart t x d).glob.zmark = true
      ∧ (hardStart t x d).ks.salts = [] ∧ (hardStart t x d).ks.zsalt = none ∧ (hardStart t x d).ks.wiped = true
      ∧ (hardStart t x d).sqs = [] ∧ (hardStart t x d).cqs = [] := by
  unfold hardStart
  rw [if_neg hs, if_neg (notHard hz)]
  exact ⟨rfl, rfl, rfl, rfl, rfl, rfl, rfl⟩

section
variable {n : Nat} (hn : n < 4)
include hn

theorem tamperGo_acts (h : d.ks.zpol.getLsbD n = true) :
    tamperGo n d = hardStart 2 (BitVec.ofNat 8 n) (amber d .tamper (.bedrock 0) [BitVec.ofNat 8 n, 1]) := by
  simp only [tamperGo, if_neg (Nat.not_le.2 hn), h, if_true]

theorem tamperGo_tells (h : d.ks.zpol.getLsbD n = false) : tamperGo n d = amber d .tamper (.bedrock 0) [BitVec.ofNat 8 n, 0] := by
  simp only [tamperGo, if_neg (Nat.not_le.2 hn), h, Bool.false_eq_true, if_false]

end

/-- A write of `KS_ZCTL` with its key and HARD, where the PF may and no soft zeroise runs. -/
abbrev HardWrite (d : Dev) (v : U32) : Prop :=
  v >>> 16 = 0x5A3C ∧ v.getLsbD 1 = true ∧ d.ks.zpol.getLsbD 5 = true ∧ d.ks.zsoft = none

theorem hardZeroise_iff (v : U32) : (barOk d 0 && (isReady d || d.glob.st == .safe) && v >>> 16 == 0x5A3C && v.getLsbD 1 && d.ks.zpol.getLsbD 5
    && d.ks.zsoft.isNone) = true ↔ (barOk d 0 = true ∧ (isReady d = true ∨ d.glob.st = .safe)) ∧ HardWrite d v := by
  simp only [HardWrite, Bool.and_eq_true, Bool.or_eq_true, beq_iff_eq, Option.isNone_iff_eq_none, and_assoc]

theorem hardZeroiseGo_valid {v : U32} (hb : barOk d 0 = true) (hs : isReady d = true ∨ d.glob.st = .safe) (h : HardWrite d v) :
    hardZeroiseGo v d = hardStart 5 0 d := if_pos ((hardZeroise_iff v).2 ⟨⟨hb, hs⟩, h⟩)

theorem hardZeroiseGo_invalid {v : U32} (h : ¬ HardWrite d v) : hardZeroiseGo v d = d := if_neg fun e => h ((hardZeroise_iff v).1 e).2

/-- Steps 5 to 7, before the resets that waited. -/
def hardDone (z : HardZ) (d : Dev) : Dev :=
  setState { amber (wipeMemories d) .zeroise (.bedrock 0) [z.trigger, z.detail] with
    glob.hardZ := none, glob.zmark := false, glob.heldResets := [], glob.safeCause := 0, bdr.alert := true, bdr.alertHold := true } .zeroised

theorem hardFinish_running (env : StartEnv) {z : HardZ} (hz : d.glob.hardZ = some z) :
    hardFinish env d = doResets env d.glob.heldResets (hardDone z d) := by
  simp only [hardFinish, hz, hardDone]

theorem doResets_nil (env : StartEnv) : doResets env [] d = d := rfl

/-- The memories are clear and the device is ZEROISED. -/
theorem hardDone_clear (z : HardZ) :
    (hardDone z d).glob.st = .zeroised ∧ (hardDone z d).glob.hardZ = none ∧ (hardDone z d).glob.zmark = false ∧ (hardDone z d).io = []
      ∧ (hardDone z d).cores = Vector.replicate 16 {} ∧ (hardDone z d).mes = Vector.replicate 8 {}
      ∧ (hardDone z d).tss = Vector.replicate 4 {} ∧ (hardDone z d).ks.idMldsa = [] ∧ (hardDone z d).ks.idP384 = [] := by
  obtain ⟨hst, hhard, hmark, hio, hcores, hmes, htss, hks⟩ := hardEnd (wipeMemories d) .zeroise (.bedrock 0) [z.trigger, z.detail] .zeroised
  exact ⟨hst, hhard, hmark, hio, hcores, hmes, htss, congrArg Ks.idMldsa hks, congrArg Ks.idP384 hks⟩

/-! ## The soft zeroise (12 R396, R398) -/

section
variable {v : U32} (hr : isReady d = true) (hb : barOk d 0 = true) (hz : d.ks.zsoft = none)
include hr hb hz

theorem softWrite_guard : (!isReady d || !barOk d 0 || d.ks.zsoft.isSome || v >>> 16 != 0x5A3C || !v.getLsbD 0)
    = (v >>> 16 != 0x5A3C || !v.getLsbD 0) := by
  rw [hr, hb, hz]; rfl

theorem softZeroiseGo_starts (hk : v >>> 16 = 0x5A3C) (hs : v.getLsbD 0 = true) : softZeroiseGo v d =
    softStart d { all := v.getLsbD 2, owner := (v >>> 8).toNat % 256, persist := v.getLsbD 3 } :=
  if_neg (by rw [softWrite_guard hr hb hz, hk, hs]; decide)

theorem softZeroiseGo_ignored (h : v >>> 16 ≠ 0x5A3C ∨ v.getLsbD 0 = false) : softZeroiseGo v d = d :=
  if_pos (by rw [softWrite_guard hr hb hz, Bool.or_eq_true, bne_iff_ne, Bool.not_eq_true']; exact h)

end

section
variable {z : SoftZ} (hz : d.ks.zsoft = some z) (hj : d.jobs.live.any (softHits z) = false) (hb : z.byJob = none)
include hz hj hb

/-- The end of a soft zeroise that no job asked for is told, and none runs then. -/
theorem softFinish_ends : (softFinish d).ks.zsoft = none ∧ (softFinish d).ks.zdone = true
    ∧ (softFinish d).ks.zowner = if z.all then 0xFF else BitVec.ofNat 8 z.owner := by
  obtain ⟨hif, x, y, amb, bdr, fab, recd, e⟩ := softFinish_sum d z hz hj hb
  rw [e]
  exact ⟨rfl, rfl, rfl⟩

variable (hr : softInReset d = false)
include hr

theorem zeroiseSoftGo_of : zeroiseSoftGo d = match (softFinish d).ks.purge with
    | some o => removeReset { softFinish d with ks.purge := none } o true
    | none => removeNext (softFinish d) := by
  obtain ⟨hnone, -, -⟩ := softFinish_ends hz hj hb
  simp only [zeroiseSoftGo, hr, Bool.false_eq_true, if_false, hnone, Option.isSome_none] <;> rfl

theorem zeroiseSoftGo_purges {o : Nat} (hp : (softFinish d).ks.purge = some o) :
    zeroiseSoftGo d = removeReset { softFinish d with ks.purge := none } o true := by
  rw [zeroiseSoftGo_of hz hj hb hr, hp]

theorem zeroiseSoftGo_next (hp : (softFinish d).ks.purge = none) : zeroiseSoftGo d = removeNext (softFinish d) := by
  rw [zeroiseSoftGo_of hz hj hb hr, hp]

end
end

/-! ## The statement -/

/-- Settles O46: each trigger starts the one hard zeroise, whose end clears the memories; the soft one destroys its objects once no job of its
scope is left. -/
theorem zeroiseResults : Obligations.ZeroiseResults := by
  unfold Obligations.ZeroiseResults
  dsimp only
  refine ⟨fun s t x hs hz => hardStart_marks t x hs hz, fun s => rfl, fun s n hn => ⟨fun h => ?_, fun h => ?_⟩,
    fun s v hb => ⟨fun hs h => ?_, fun h => ?_⟩, fun s env z hz => ⟨?_, fun hh => ?_⟩,
    fun s v hr hb hz => ⟨fun hk hs => ?_, fun h => ?_⟩, fun d z hz hj hb => ?_,
    fun s z hz hj hb hr => ⟨fun o hp => ?_, fun hp => ?_⟩⟩
  · exact gives_of (go := tamperGo n) rfl (tamperGo_acts hn h)
  · exact gives_of (go := tamperGo n) rfl (tamperGo_tells hn h)
  · exact gives_of (go := hardZeroiseGo v) rfl (hardZeroiseGo_valid hb hs h)
  · exact gives_of (go := hardZeroiseGo v) rfl (hardZeroiseGo_invalid h)
  · exact gives_of (go := hardFinish env) rfl (hardFinish_running env hz)
  · refine ⟨_, gives_of (go := hardFinish env) rfl (hardFinish_running env hz), rfl, ?_⟩
    rw [hh, doResets_nil]
    exact hardDone_clear z
  · exact gives_of (go := softZeroiseGo v) rfl (softZeroiseGo_starts hr hb hz hk hs)
  · exact gives_of (go := softZeroiseGo v) rfl (softZeroiseGo_ignored hr hb hz h)
  · obtain ⟨hnone, hdone, howner⟩ := softFinish_ends hz hj hb
    exact ⟨hnone, hdone, howner, softFinish_sum d z hz hj hb⟩
  · exact gives_of (go := fun d => grantNext (zeroiseSoftGo d)) rfl (congrArg grantNext (zeroiseSoftGo_purges hz hj hb hr hp))
  · exact gives_of (go := fun d => grantNext (zeroiseSoftGo d)) rfl (congrArg grantNext (zeroiseSoftGo_next hz hj hb hr hp))

end Sys2Proof.Proofs.Zeroise
end

section
/-!
PROOF. The VF manager: its window, its commands on this device and on a member, and the resets of VFs (13 R401-R413, R415, R416).
-/
namespace Sys2Proof.Proofs.VfManager

open Sys2Proof.Machine Sys2Proof.Safety Sys2Proof.Laws

/-! ## The window, and commands outside READY (13 R404, R415, R416; log 158) -/

/-- OP and PURGE hold what was written. -/
abbrev vfmNamed (op : BitVec 3) (p : Bool) (d : Dev) : Dev := { d with vfm.op := op, vfm.purge := p }

section
variable {d : Dev} (hc : ctlServed d = true) (hb : d.vfm.busy = false)
include hc hb

theorem vfm_open : ¬ (!ctlServed d || d.vfm.busy) = true := by rw [hc, hb]; exact Bool.false_ne_true

theorem vfmSelGo_loads (o : Nat) : vfmSelGo o d = { d with vfm.sel := BitVec.ofNat 8 o, vfm.stg := sharesOf d (o % 256) } :=
  if_neg (vfm_open hc hb)

theorem vfmGo_unready (hr : isReady d = false) (op : Nat) (p : Bool) : vfmGo op p d = vfmNamed (BitVec.ofNat 3 op) p d :=
  (if_neg (vfm_open hc hb)).trans (if_pos (by rw [hr]; rfl))

end

/-! ## Commands in READY: on this device or on the member selected (13 R416, 18 R519) -/

section
variable {i : Instr} {s : State} {op : Nat} {p : Bool} {d1 : Dev} (h : VfmReady s.dev) (hi : exec i s = onDev s (vfmGo op p))
include h hi

theorem vfm_here (hn : vfmNode s.dev = none) (e : (if op = 1 then vfmEnable (vfmNamed (BitVec.ofNat 3 op) p s.dev) s.dev.vfm.sel.toNat
      else if op = 2 then vfmApply (vfmNamed (BitVec.ofNat 3 op) p s.dev) s.dev.vfm.sel.toNat
      else vfmRemove (vfmNamed (BitVec.ofNat 3 op) p s.dev) s.dev.vfm.sel.toNat p) = d1) : Gives i s d1 := by
  refine vfm_go h hi ?_
  rw [show vfmNode (vfmNamed (BitVec.ofNat 3 op) p s.dev) = none from hn]
  exact e

theorem vfm_member {n : Nat} (hn : vfmNode s.dev = some n) :
    Gives i s (vfmRemote (vfmNamed (BitVec.ofNat 3 op) p s.dev) n s.dev.vfm.sel.toNat op p) := by
  refine vfm_go h hi ?_
  rw [show vfmNode (vfmNamed (BitVec.ofNat 3 op) p s.dev) = some n from hn]

end

section
variable {d : Dev} {o : Nat}

/-! ### ENABLE (13 R402, R403) -/

theorem vfmEnable_refused {r : Byte} (h : enableFault d o d.vfm.stg = some r) : vfmEnable d o = vfmEnd d r 0 o := by
  simp only [vfmEnable, h]

section
variable (h : enableFault d o d.vfm.stg = none)
include h

theorem vfmEnable_own (hs : d.dlr.src = true) : vfmEnable d o = vfActivate { d with vfm.busy := true } o d.vfm.stg := by
  simp only [vfmEnable, h, hs, if_true]

theorem vfmEnable_plans (hs : d.dlr.src = false) : vfmEnable d o = plan { d with vfm.busy := true, vfm.enabling := some o } := by
  simp only [vfmEnable, h, hs, Bool.false_eq_true, if_false]

end

/-! ### APPLY (13 R405; log 75) -/

theorem vfmApply_refused {r : Byte} (h : applyFault d o d.vfm.stg = some r) : vfmApply d o = vfmEnd d r 0 o := by
  simp only [vfmApply, h]

section
variable (h : applyFault d o d.vfm.stg = none)
include h

theorem vfmApply_own (hs : d.dlr.src = true) : vfmApply d o =
    let g := d.vfm.stg
    let d2 := modOwn d o fun w => { w with sh := { w.sh with py := g.py, me := g.me, sy := g.sy, tree := g.tree } }
    vfmEnd { d2 with vfm.credLater := (d2.vfm.credLater.filter fun e => e.1 != o) ++ [(o, g.credit)] } 0 0 o := by
  simp only [vfmApply, h, hs, if_true]

theorem vfmApply_plans (hs : d.dlr.src = false) : vfmApply d o = plan { d with vfm.busy := true, vfm.apply := some (o, d.vfm.stg) } := by
  simp only [vfmApply, h, hs, Bool.false_eq_true, if_false]

end

/-! ### REMOVE (13 R412, R413) -/

theorem vfmRemove_absent (p : Bool) (h : o = 0 ∨ ownerThere d o = false) : vfmRemove d o p = vfmEnd d 3 0 o :=
  if_pos (by simpa only [Bool.or_eq_true, decide_eq_true_eq, Bool.not_eq_true'] using h)

section
variable (ho : o ≠ 0) (ht : ownerThere d o = true)
include ho ht

theorem vf_there : ¬ (decide (o = 0) || !ownerThere d o) = true := by rw [decide_eq_false ho, ht]; exact Bool.false_ne_true

theorem vfmRemove_holds (h : vfHolds d o = true) : vfmRemove d o false = vfmEnd d 6 0 o :=
  (if_neg (vf_there ho ht)).trans (if_pos (by rw [h]; rfl))

section
variable {p : Bool} (hp : p = true ∨ vfHolds d o = false)
include hp

theorem vfmRemove_goes : vfmRemove d o p =
    if (getOwn d o).state = .resetting then { d with vfm.busy := true, vfm.removeQ := d.vfm.removeQ ++ [(o, p)] }
    else removeStart { d with vfm.busy := true } o p := by
  refine (if_neg (vf_there ho ht)).trans (if_neg ?_)
  rcases hp with hp | hp <;> rw [hp] <;> simp

theorem vfmRemove_waits (hs : (getOwn d o).state = .resetting) :
    vfmRemove d o p = { d with vfm.busy := true, vfm.removeQ := d.vfm.removeQ ++ [(o, p)] } :=
  (vfmRemove_goes ho ht hp).trans (if_pos hs)

theorem vfmRemove_starts (hs : (getOwn d o).state ≠ .resetting) : vfmRemove d o p = removeStart { d with vfm.busy := true } o p :=
  (vfmRemove_goes ho ht hp).trans (if_neg hs)

end
end
end

/-! ## Resets of a VF (01 R32; 13 R409-R412) -/

section
variable {d : Dev} {f : Nat}

theorem ready_iff : isReady d = true ↔ d.glob.st = .ready ∧ d.glob.hardZ = none := by
  rw [isReady, Bool.and_eq_true, beq_iff_eq, Option.isNone_iff_eq_none]

theorem vfFlrGo_held (h : d.glob.hardZ.isSome = true) : vfFlrGo f d = { d with glob.heldResets := d.glob.heldResets ++ [.vfFlr f] } := if_pos h

section
variable (hf : f ≠ 0) (ht : ownerThere d f = true)
include hf ht

theorem vfFlr_acts (hs : d.glob.st ≠ .bedrock) : ¬ (decide (d.glob.st = .bedrock) || decide (f = 0) || !ownerThere d f) = true := by
  rw [decide_eq_false hs, decide_eq_false hf, ht]; exact Bool.false_ne_true

theorem vfFlrGo_pci (hz : d.glob.hardZ = none) (h : pciOnly d = true) : vfFlrGo f d = flrFn d f := by
  have hs : d.glob.st ≠ .bedrock := fun e => by rw [pciOnly, e] at h; exact Bool.false_ne_true h
  exact (if_neg (notHard hz)).trans ((if_neg (vfFlr_acts hf ht hs)).trans (if_pos h))

variable (hr : isReady d = true)
include hr

theorem vfFlrGo_ready : vfFlrGo f d = match (getOwn d f).state with
    | .active => modOwn (flrFn (vfResetStart d f .resetting) f) f fun w => { w with vEn := false, vShare := false, vStrand := false, vecReg := 0 }
    | .disabled => flrFn d f
    | _ => d := by
  obtain ⟨hst, hz⟩ := ready_iff.1 hr
  refine (if_neg (notHard hz)).trans ((if_neg (vfFlr_acts hf ht (by rw [hst]; decide))).trans ((if_neg ?_).trans ?_))
  · rw [pciOnly, hst]; decide
  · rfl

theorem vfFlrGo_active (hs : (getOwn d f).state = .active) : vfFlrGo f d =
    modOwn (flrFn (vfResetStart d f .resetting) f) f fun w => { w with vEn := false, vShare := false, vStrand := false, vecReg := 0 } := by
  rw [vfFlrGo_ready hf ht hr, hs]

theorem vfFlrGo_disabled (hs : (getOwn d f).state = .disabled) : vfFlrGo f d = flrFn d f := by
  rw [vfFlrGo_ready hf ht hr, hs]

end

/-- The reset's time is recorded. -/
def resetTimed (d : Dev) (f : Nat) : Dev := recHist d 0x503 (d.glob.tb - (getOwn d f).rstTb).toNat

section
variable (hf : f ≠ 0) (ha : abandonDue d f = false)
include hf ha

theorem vfReset_done : ¬ (decide (f = 0) || abandonDue d f) = true := by rw [decide_eq_false hf, ha]; exact Bool.false_ne_true

theorem vfResetDoneGo_active (hs : (getOwn d f).state = .resetting) :
    vfResetDoneGo f d = removeNext (vfmCause (modOwn (resetTimed d f) f fun w => { w with state := .active }) 4 f) := by
  simp only [vfResetDoneGo, if_neg (vfReset_done hf ha), hs, resetTimed]

theorem vfResetDoneGo_removed (hs : (getOwn d f).state = .removing) : vfResetDoneGo f d =
    let d1 := vfGone (resetTimed d f) f (removing d f && d.vfm.purge)
    removeNext (if removing d f then vfmEnd d1 0 4 f else vfmCause d1 4 f) := by
  simp only [vfResetDoneGo, if_neg (vfReset_done hf ha), hs, resetTimed]

end

/-! ## VF Enable (13 R401, R413) -/

theorem vfEnableSetGo_sets {n : Nat} (hs : d.glob.st ≠ .bedrock) (he : d.hif.vfEn = false) (hn : n ≤ 255) :
    vfEnableSetGo n d = { d with hif.numVfs := BitVec.ofNat 9 n, hif.vfEn := true } :=
  if_neg (by rw [decide_eq_false hs, he, decide_eq_false (Nat.not_lt.2 hn)]; exact Bool.false_ne_true)

/-- The PF's VF Enable is 0. -/
abbrev vfsOff (d : Dev) : Dev := { d with hif.vfEn := false }

/-- A VF that is in service goes without PURGE. -/
def vfDropped (d : Dev) (o : Nat) : Dev :=
  if o = 0 ∨ (getOwn d o).state = .disabled ∨ (getOwn d o).state = .removing then d else removeReset d o false

section
variable (he : d.hif.vfEn = true) (hn : d.vfm.enabling = none)
include he hn

theorem vfEnableClearGo_of :
    vfEnableClearGo d = if isReady d = true then (liveOwners (vfsOff d)).foldl vfDropped (vfsOff d) else vfsOff d := by
  have hdrop : (fun (acc : Dev) o => if (decide (o = 0) || decide ((getOwn acc o).state = .disabled)) = true then acc
      else if (getOwn acc o).state = .removing then acc else removeReset acc o false) = vfDropped := by
    funext acc o
    by_cases h0 : o = 0 <;> by_cases h1 : (getOwn acc o).state = .disabled <;> simp [vfDropped, h0, h1]
  simp only [vfEnableClearGo, he, hn, hdrop, Bool.not_true, Bool.false_eq_true, if_false]
  cases isReady d <;> rfl

theorem vfEnableClearGo_unready (hr : isReady (vfsOff d) = false) : vfEnableClearGo d = vfsOff d :=
  (vfEnableClearGo_of he hn).trans (if_neg fun e => Bool.false_ne_true (hr.symm.trans e))

theorem vfEnableClearGo_ready (hr : isReady (vfsOff d) = true) : vfEnableClearGo d = (liveOwners (vfsOff d)).foldl vfDropped (vfsOff d) :=
  (vfEnableClearGo_of he hn).trans (if_pos hr)

end
end

/-! ## The statement -/

/-- Settles O42: under a clause's conditions the command's meaning is one equation above. Outside READY a command keeps OP and PURGE alone
(log 158); the order of APPLY's refusals is log 75, and what an FLR leaves of a function's configuration is log 37. -/
theorem vfManagerResults : Obligations.VfManagerResults := by
  unfold Obligations.VfManagerResults
  dsimp only
  refine ⟨fun s hc hb => ⟨fun o => ?_, fun hr => ⟨?_, ?_, fun p => ?_⟩⟩,
    fun s h hn => ⟨fun r hf => ?_, fun hf hs => ?_, fun hf hs => ?_⟩, fun s h hn => ⟨fun r hf => ?_, fun hf hs => ?_, fun hf hs => ?_⟩,
    fun s p h hn => ⟨fun ha => ?_, fun ho ht => ⟨fun hp hh => ?_, fun hp => ⟨fun hs => ?_, fun hs => ?_⟩⟩⟩,
    fun s n h hn => ⟨?_, ?_, fun p => ?_⟩, fun s f hz => ?_, fun s f hf hz hp ht => ?_,
    fun s f hf hr ht => ⟨fun hs => ?_, fun hs => ?_⟩, fun s f hf ha => ⟨fun hs => ?_, fun hs => ?_⟩, fun s n hs he hn => ?_,
    fun s he hn => ⟨fun hr => ?_, fun hr => ?_⟩⟩
  · exact gives_of (go := vfmSelGo o) rfl (vfmSelGo_loads hc hb o)
  · exact gives_of (go := vfmGo 1 false) rfl (vfmGo_unready hc hb hr 1 false)
  · exact gives_of (go := vfmGo 2 false) rfl (vfmGo_unready hc hb hr 2 false)
  · exact gives_of (go := vfmGo 3 p) rfl (vfmGo_unready hc hb hr 3 p)
  · exact vfm_here (op := 1) h rfl hn (vfmEnable_refused hf)
  · exact vfm_here (op := 1) h rfl hn (vfmEnable_own hf hs)
  · exact vfm_here (op := 1) h rfl hn (vfmEnable_plans hf hs)
  · exact vfm_here (op := 2) h rfl hn (vfmApply_refused hf)
  · exact vfm_here (op := 2) h rfl hn (vfmApply_own hf hs)
  · exact vfm_here (op := 2) h rfl hn (vfmApply_plans hf hs)
  · exact vfm_here (op := 3) h rfl hn (vfmRemove_absent p ha)
  · exact vfm_here (op := 3) h rfl hn (by rw [hp]; exact vfmRemove_holds ho ht hh)
  · exact vfm_here (op := 3) h rfl hn (vfmRemove_waits ho ht hp hs)
  · exact vfm_here (op := 3) h rfl hn (vfmRemove_starts ho ht hp hs)
  · exact vfm_member (op := 1) h rfl hn
  · exact vfm_member (op := 2) h rfl hn
  · exact vfm_member (op := 3) h rfl hn
  · exact gives_of (go := vfFlrGo f) rfl (vfFlrGo_held hz)
  · exact gives_of (go := vfFlrGo f) rfl (vfFlrGo_pci hf ht hz hp)
  · exact gives_of (go := vfFlrGo f) rfl (vfFlrGo_active hf ht hr hs)
  · exact gives_of (go := vfFlrGo f) rfl (vfFlrGo_disabled hf ht hr hs)
  · exact gives_of (go := vfResetDoneGo f) rfl (vfResetDoneGo_active hf ha hs)
  · exact gives_of (go := vfResetDoneGo f) rfl (vfResetDoneGo_removed hf ha hs)
  · exact gives_of (go := vfEnableSetGo n) rfl (vfEnableSetGo_sets hs he hn)
  · exact gives_of (go := vfEnableClearGo) rfl (vfEnableClearGo_unready he hn hr)
  · exact gives_of (go := vfEnableClearGo) rfl (vfEnableClearGo_ready he hn hr)

end Sys2Proof.Proofs.VfManager
end

section
/-!
PROOF. The life cycle: challenges, tokens, grants, integrator keys and the debugger (14 R422, R423, R429-R435; 08 R289).
-/
namespace Sys2Proof.Proofs.LifeCycle

open Sys2Proof.Machine Sys2Proof.Safety Sys2Proof.Laws

/-! ## Challenges (14 R430; log 183) -/

/-- A DRBG in service draws challenges. -/
abbrev DrbgUp (d : Dev) : Prop := d.rng.state = .ok ∨ d.rng.state = .hold

section
variable {d : Dev}

theorem noChallenge_iff : (decide (d.glob.st = .held) || !(d.rng.state == .ok || d.rng.state == .hold)) = true ↔ d.glob.st = .held ∨ ¬ DrbgUp d := by
  simp only [DrbgUp, Bool.or_eq_true, Bool.not_eq_true', Bool.or_eq_false_iff, beq_eq_false_iff_ne, decide_eq_true_eq, not_or, ne_eq]

section
variable (ho : lcOpen d = true)
include ho

theorem challengeGo_refused (h : d.glob.st = .held ∨ ¬ DrbgUp d) : challengeGo d = lcEnd d 1 lrState :=
  (if_neg (notOpen ho)).trans (if_pos (noChallenge_iff.2 h))

theorem challengeGo_draws (hs : d.glob.st ≠ .held) (hr : DrbgUp d) :
    challengeGo d = lcEnd { (draw d 32).2 with lc.chal := some ((draw d 32).1, (draw d 32).2.glob.tb) } 1 lrOk :=
  (if_neg (notOpen ho)).trans (if_neg (mt noChallenge_iff.1 fun h => h.elim hs fun h => h hr))

end

section
variable {c : Bytes} {t : U64} (hc : d.lc.chal = some (c, t))
include hc

theorem challengeExpiryGo_old (h : 600000000000 ≤ (d.glob.tb - t).toNat) : challengeExpiryGo d = { d with lc.chal := none } := by
  simp only [challengeExpiryGo, hc, if_pos h]

theorem challengeExpiryGo_young (h : (d.glob.tb - t).toNat < 600000000000) : challengeExpiryGo d = d := by
  simp only [challengeExpiryGo, hc, if_neg (Nat.not_le.2 h)]

end

/-! ## SUBMIT: the checks of a token in order (14 R431) -/

section
variable {t : Token}

/-- The token answers the challenge that stands, on this boot. -/
def challengeMet (d : Dev) (t : Token) : Bool := match d.lc.chal with | some (c, _) => c == t.chal && t.boot == d.glob.bootCnt | none => false

/-- The token carries a key of its signer, whose kind may sign it. -/
abbrev TokenSigned (d : Dev) (t : Token) : Prop :=
  t.signer ≤ 3 ∧ rowMatches (signerRow d.otp t.signer) t.pk = true ∧ signerMay d.glob.lcCode.toNat t = true

theorem tokenFault_misformed (h : tokenOk t = false) : tokenFault d t = some lrFormat := if_pos (by rw [h]; rfl)

section
variable (hf : tokenOk t = true) (hr : isReady d = true) (hg : d.lc.grant = none)
include hf hr hg

theorem tokenFault_eq : tokenFault d t =
    if t.devId ≠ devIdBytes d then some lrDevice
    else if challengeMet d t = false then some lrChallenge
    else if ¬ TokenSigned d t then some lrSigner
    else if mlDsa87 t.pk "SQ-LC-TOKEN" t.body t.sig = false then some lrSignature
    else if t.kind = 1 then (if (moveSigner d.glob.lcCode.toNat t.target).isNone then some lrMove else none)
    else if t.scope >>> 6 ≠ 0 ∨ (List.range 6).any (fun i => t.scope.getLsbD i && scopeSigners d.glob.lcCode.toNat i == 0) = true then some lrScope
    else none := by
  have hsign : (!(decide (t.signer ≤ 3) && rowMatches (signerRow d.otp t.signer) t.pk && signerMay d.glob.lcCode.toNat t)) = true ↔
      ¬ TokenSigned d t := by
    simp only [TokenSigned, Bool.not_eq_true', Bool.and_eq_false_iff, decide_eq_false_iff_not, not_and_or, Bool.not_eq_true, or_assoc]
  unfold tokenFault
  simp only [hf, hr, hg, hsign, Bool.not_true, Bool.true_or, Bool.and_false, Bool.or_self, Bool.false_eq_true, if_false, bne_iff_ne,
    Bool.not_eq_true', Bool.or_eq_true]
  rfl

theorem tokenFault_device (h : t.devId ≠ devIdBytes d) : tokenFault d t = some lrDevice := (tokenFault_eq hf hr hg).trans (if_pos h)

variable (hd : t.devId = devIdBytes d)
include hd

theorem tokenFault_challenge (h : challengeMet d t = false) : tokenFault d t = some lrChallenge :=
  (tokenFault_eq hf hr hg).trans ((if_neg (not_not_intro hd)).trans (if_pos h))

variable (hc : challengeMet d t = true)
include hc

theorem tokenFault_signer (h : ¬ TokenSigned d t) : tokenFault d t = some lrSigner := by
  rw [tokenFault_eq hf hr hg, if_neg (not_not_intro hd), hc, if_neg (by decide), if_pos h]

variable (hs : TokenSigned d t)
include hs

theorem tokenFault_signature (h : mlDsa87 t.pk "SQ-LC-TOKEN" t.body t.sig = false) : tokenFault d t = some lrSignature := by
  rw [tokenFault_eq hf hr hg, if_neg (not_not_intro hd), hc, if_neg (by decide), if_neg (not_not_intro hs), if_pos h]

theorem tokenFault_move (h : mlDsa87 t.pk "SQ-LC-TOKEN" t.body t.sig = true) (hk : t.kind = 1) :
    tokenFault d t = if (moveSigner d.glob.lcCode.toNat t.target).isNone then some lrMove else none := by
  rw [tokenFault_eq hf hr hg, if_neg (not_not_intro hd), hc, if_neg (by decide), if_neg (not_not_intro hs), h, if_neg (by decide), if_pos hk]

end

theorem challengeMet_none (h : d.lc.chal = none) : challengeMet d t = false := by simp only [challengeMet, h]

section
variable {c : Bytes} {n : U64} (h : d.lc.chal = some (c, n))
include h

theorem challengeMet_other (hx : c ≠ t.chal ∨ t.boot ≠ d.glob.bootCnt) : challengeMet d t = false := by
  simp only [challengeMet, h, Bool.and_eq_false_iff, beq_eq_false_iff_ne]
  exact hx

theorem challengeMet_same (hc : c = t.chal) (hb : t.boot = d.glob.bootCnt) : challengeMet d t = true := by
  simp only [challengeMet, h, hc, hb, beq_self_eq_true, Bool.and_self]

end

/-! ## SUBMIT: what an accepted token does (14 R423, R433) -/

/-- The lowest slot without an INTENT. -/
def freeIntent (d : Dev) : Option Nat := (List.range 4).find? fun x => (lcSlot d.otp x).intent == 0

theorem lcCommit_fails {env : StartEnv} (h : freeIntent d = none ∨ env.otpFail.contains 0 = true) : lcCommit t env d = lcDenied d lrOtp t.signer := by
  unfold lcCommit
  rw [← freeIntent]
  rcases h with h | h
  · rw [h]
  · cases freeIntent d with
    | none => rfl
    | some n => exact if_pos h

theorem lcCommit_starts {env : StartEnv} {n : Nat} (h : freeIntent d = some n) (ho : env.otpFail.contains 0 = false) : lcCommit t env d =
    takeReset env .soft (amber (lcEnd (modLcSlot (endGrant d) n fun x => { x with intent := x.intent ||| intentBit t.target }) 2 lrOk)
      .lcStart .supv [BitVec.ofNat 8 n, BitVec.ofNat 8 t.target]) := by
  unfold lcCommit
  rw [← freeIntent, h]
  exact if_neg (by rw [ho]; exact Bool.false_ne_true)

section
variable (env : StartEnv) (ho : lcOpen d = true)
include ho

theorem submitGo_refused {r : Byte} (h : tokenFault d (readToken d.lc.token) = some r) :
    submitGo env d = lcDenied { d with lc.chal := none } r (readToken d.lc.token).signer := by
  simp only [submitGo, if_neg (notOpen ho), h]

section
variable (h : tokenFault d (readToken d.lc.token) = none)
include h

theorem submitGo_moves (hk : (readToken d.lc.token).kind = 1) :
    submitGo env d = lcCommit (readToken d.lc.token) env { d with lc.chal := none } := by
  simp only [submitGo, if_neg (notOpen ho), h, if_pos hk]

theorem submitGo_grants (hk : (readToken d.lc.token).kind ≠ 1) : submitGo env d =
    let t := readToken d.lc.token
    grantStart { scope := t.scope.setWidth 6, signer := BitVec.ofNat 2 t.signer, until' := BitVec.ofNat 64 (t.secs * 1000000000) } env
      (lcEnd { d with lc.chal := none } 2 lrOk) := by
  simp only [submitGo, if_neg (notOpen ho), h, if_neg hk]

end
end
end

/-! ## The end of a grant (14 R434) -/

section
variable (env : StartEnv) {g : Grant} (hg : d.lc.grant = some g)
include hg

theorem grantOver_ends : grantOver env d = if grantBars g then takeReset env .soft (endGrant d) else endGrant d := by
  simp only [grantOver, hg]

theorem debugGrantExpiryGo_over (h : g.until' ≤ d.glob.tb) :
    debugGrantExpiryGo env d = if grantBars g then takeReset env .soft (endGrant d) else endGrant d := by
  simp only [debugGrantExpiryGo, hg, if_pos h, grantOver]

theorem debugGrantExpiryGo_early (h : d.glob.tb < g.until') : debugGrantExpiryGo env d = d := by
  simp only [debugGrantExpiryGo, hg, if_neg (BitVec.not_le.2 h)]

end

/-! ## Halts and steps (14 R433; 08 R289; logs 93 and 95) -/

section
variable (hr : debugReach d = true)
include hr

theorem debug_reached : ¬ (!debugReach d) = true := by rw [hr]; exact Bool.false_ne_true

section
variable {u : Nat} (hs : scopeOpen d 1 = true)
include hs

theorem debugHaltGo_seq (hu : u < 28) (hh : (getStore d u).halted = false) :
    debugHaltGo u .seq d = takeHalt (modStore d u fun y => { y with haltReq := true }) u :=
  (if_neg (debug_reached hr)).trans (if_neg (by rw [hs, hh, decide_eq_false (Nat.not_le.2 hu)]; decide))

section
variable (hh : (getStore d u).halted = true)
include hh

theorem debugStepGo_step : debugStepGo u .step d =
    modCore (modStore d u fun y => { y with stepOk := true }) u fun k => { k with resumed := true } :=
  (if_neg (debug_reached hr)).trans (if_pos (by rw [hs, hh]; rfl))

theorem debugStepGo_resumes : debugStepGo u .go d =
    modCore (modStore { d with lc.halted := d.lc.halted.filter (· != u) } u fun y => { y with halted := false, atYld := false, stepOk := false }) u
      fun k => { k with resumed := true } :=
  (if_neg (debug_reached hr)).trans ((if_neg (by rw [hs]; exact Bool.false_ne_true)).trans (if_pos hh))

theorem debugStepGo_shows (sel : ArchSel) : debugStepGo u (.arch sel) d = { d with hif.out := d.hif.out ++ [.jtag (archRead d u sel)] } :=
  (if_neg (debug_reached hr)).trans (if_pos (by rw [hs, hh]; rfl))

end

section
variable (hh : (getStore d u).halted = false)
include hh

theorem debugStepGo_unasks : debugStepGo u .go d = modStore d u fun y => { y with haltReq := false } :=
  (if_neg (debug_reached hr)).trans ((if_neg (by rw [hs]; exact Bool.false_ne_true)).trans (if_neg (by rw [hh]; exact Bool.false_ne_true)))

theorem debugStepGo_hides (sel : ArchSel) : debugStepGo u (.arch sel) d = d :=
  (if_neg (debug_reached hr)).trans (if_neg (by rw [hs, hh]; exact Bool.false_ne_true))

end
end

/-- Without HALT a debugger's requests to a sequencer do nothing. -/
theorem debug_seq_closed (u : Nat) (hs : scopeOpen d 1 = false) : debugHaltGo u .seq d = d ∧ debugStepGo u .step d = d ∧ debugStepGo u .go d = d
    ∧ ∀ sel, debugStepGo u (.arch sel) d = d := by
  simp only [debugHaltGo, debugStepGo, if_neg (debug_reached hr), hs, Bool.not_false, Bool.true_or, Bool.false_and, Bool.false_eq_true, if_true,
    if_false, implies_true, and_self]

theorem debug_supv_open (u : Nat) (hs : scopeOpen d 2 = true) : debugHaltGo u .supv d = { d with lc.supvHalt := true }
    ∧ debugStepGo u .supv d = { d with lc.supvHalt := false, bdr.wdogAt := d.glob.tb } :=
  ⟨(if_neg (debug_reached hr)).trans (if_pos hs), (if_neg (debug_reached hr)).trans (if_pos hs)⟩

theorem debug_supv_closed (u : Nat) (hs : scopeOpen d 2 = false) : debugHaltGo u .supv d = d ∧ debugStepGo u .supv d = d :=
  ⟨(if_neg (debug_reached hr)).trans (if_neg (by rw [hs]; exact Bool.false_ne_true)),
    (if_neg (debug_reached hr)).trans (if_neg (by rw [hs]; exact Bool.false_ne_true))⟩

end

/-! ## IKH_PROGRAM (14 R432; logs 88 and 96) -/

/-- The row that IKH_PROGRAM programs. -/
def ikhRow (o : Otp) : Nat := if rowBlank o.ikh[0] then 0 else 1

section
variable (good : Bool) (ho : lcOpen d = true) (hb : barOk d 0 = true)
include ho hb

theorem ikh_open : ¬ (!lcOpen d || !barOk d 0) = true := by rw [ho, hb]; exact Bool.false_ne_true

theorem ikhProgramGo_held (hs : d.glob.st = .held) : ikhProgramGo good d = lcEnd d 4 lrState := (if_neg (ikh_open ho hb)).trans (if_pos hs)

variable (hs : d.glob.st ≠ .held)
include hs

theorem ikhProgramGo_refused (h : d.glob.lcCode ≠ 2 ∨ rowBlank (signerRow d.otp (2 + ikhRow d.otp)) = false) :
    ikhProgramGo good d = lcEnd d 4 lrOtp :=
  (if_neg (ikh_open ho hb)).trans ((if_neg hs).trans (if_pos (by rw [Bool.or_eq_true, decide_eq_true_eq, Bool.not_eq_true']; exact h)))

theorem ikhProgramGo_programs (hl : d.glob.lcCode = 2) (hr : rowBlank (signerRow d.otp (2 + ikhRow d.otp)) = true) : ikhProgramGo good d =
    lcEnd { d with otp.ikh := d.otp.ikh.setIfInBounds (ikhRow d.otp) { hash := sha384 (memRead d.lc.token 0 2592), valid := good } } 4
      (if good then lrOk else lrOtp) := by
  refine (if_neg (ikh_open ho hb)).trans ((if_neg hs).trans (if_neg ?_))
  rw [Bool.or_eq_true, decide_eq_true_eq, Bool.not_eq_true', not_or]
  exact ⟨not_not_intro hl, fun e => Bool.false_ne_true (e.symm.trans hr)⟩

end
end

/-! ## The statements -/

/-- Settles O47: under a clause's conditions the command's meaning is one equation above. CHALLENGE in HELD, or without a DRBG in service, reports
STATE (logs 88 and 183); the end of a grant with SCAN or MEMTEST is followed by its soft reset (log 92), and a halt and a step are what logs 93
and 95 say. -/
theorem lifeCycleResults : Obligations.LifeCycleResults := by
  unfold Obligations.LifeCycleResults
  dsimp only
  refine ⟨fun s ho => ⟨fun h => ?_, fun hs hr => ?_⟩, fun s c t hc => ⟨fun h => ?_, fun h => ?_⟩,
    fun s env ho => ⟨fun r h => ?_, fun h hk => ⟨fun hi => ?_, fun n hi hf => ?_⟩, fun h hk => ?_⟩,
    fun d t => ⟨tokenFault_misformed, fun hf hr hg => ⟨tokenFault_device hf hr hg, fun hd =>
      ⟨fun hc => tokenFault_challenge hf hr hg hd (challengeMet_none hc), fun c n hc =>
        ⟨fun hx => tokenFault_challenge hf hr hg hd (challengeMet_other hc hx), fun hx hb =>
          have hm := challengeMet_same hc hx hb
          ⟨tokenFault_signer hf hr hg hd hm, tokenFault_signature hf hr hg hd hm, tokenFault_move hf hr hg hd hm⟩⟩⟩⟩⟩,
    fun s env g hg => ⟨fun ho => ?_, fun h => ?_, fun h => ?_⟩,
    fun s u hr => ⟨fun hs hu hh => ?_, fun hs => ?_, fun hs hh => ⟨?_, ?_, fun sel => ?_⟩, fun hs hh => ⟨?_, fun sel => ?_⟩, fun hs => ?_,
      fun hs => ?_⟩⟩
  · exact gives_of (go := challengeGo) rfl (challengeGo_refused ho h)
  · exact gives_of (go := challengeGo) rfl (challengeGo_draws ho hs hr)
  · exact gives_of (go := challengeExpiryGo) rfl (challengeExpiryGo_old hc h)
  · exact gives_of (go := challengeExpiryGo) rfl (challengeExpiryGo_young hc h)
  · exact gives_of (go := submitGo env) rfl (submitGo_refused env ho h)
  · exact gives_of (go := submitGo env) rfl ((submitGo_moves env ho h hk).trans (lcCommit_fails hi))
  · exact gives_of (go := submitGo env) rfl ((submitGo_moves env ho h hk).trans (lcCommit_starts hi hf))
  · exact gives_of (go := submitGo env) rfl (submitGo_grants env ho h hk)
  · exact gives_of (go := revokeGo env) rfl ((if_neg (notOpen ho)).trans (grantOver_ends (d := lcEnd s.dev 3 lrOk) env hg))
  · exact gives_of (go := debugGrantExpiryGo env) rfl (debugGrantExpiryGo_over env hg h)
  · exact gives_of (go := debugGrantExpiryGo env) rfl (debugGrantExpiryGo_early env hg h)
  · exact gives_of (go := debugHaltGo u .seq) rfl (debugHaltGo_seq hr hs hu hh)
  · obtain ⟨hhalt, hstep⟩ := debug_supv_open hr u hs
    exact ⟨gives_of (go := debugHaltGo u .supv) rfl hhalt, gives_of (go := debugStepGo u .supv) rfl hstep⟩
  · exact gives_of (go := debugStepGo u .step) rfl (debugStepGo_step hr hs hh)
  · exact gives_of (go := debugStepGo u .go) rfl (debugStepGo_resumes hr hs hh)
  · exact gives_of (go := debugStepGo u (.arch sel)) rfl (debugStepGo_shows hr hs hh sel)
  · exact gives_of (go := debugStepGo u .go) rfl (debugStepGo_unasks hr hs hh)
  · exact gives_of (go := debugStepGo u (.arch sel)) rfl (debugStepGo_hides hr hs hh sel)
  · obtain ⟨hhalt, hstep, hgo, harch⟩ := debug_seq_closed hr u hs
    exact ⟨gives_of (go := debugHaltGo u .seq) rfl hhalt, gives_of (go := debugStepGo u .step) rfl hstep,
      gives_of (go := debugStepGo u .go) rfl hgo, fun sel => gives_of (go := debugStepGo u (.arch sel)) rfl (harch sel)⟩
  · obtain ⟨hhalt, hstep⟩ := debug_supv_closed hr u hs
    exact ⟨gives_of (go := debugHaltGo u .supv) rfl hhalt, gives_of (go := debugStepGo u .supv) rfl hstep⟩

/-- Settles O48. The refusal in HELD is log 88, and a row whose read-back fails stays without VALID by log 96. -/
theorem integratorKeyProgramming : Obligations.IntegratorKeyProgramming := by
  unfold Obligations.IntegratorKeyProgramming
  refine fun s good ho hb => ⟨fun hs => ?_, fun hs h => ?_, fun hs hl hr => ?_⟩
  · exact gives_of (go := ikhProgramGo good) rfl (ikhProgramGo_held good ho hb hs)
  · exact gives_of (go := ikhProgramGo good) rfl (ikhProgramGo_refused good ho hb hs h)
  · exact gives_of (go := ikhProgramGo good) rfl (ikhProgramGo_programs good ho hb hs hl hr)

end Sys2Proof.Proofs.LifeCycle
end

section
/-!
PROOF. Live update: the commands of BOOT_CMD, the rollout and its swaps, the hand-over and the NVM's failure (08 R291, R292; 15 R446-R455).
-/
namespace Sys2Proof.Proofs.LiveUpdate

open Sys2Proof.Machine Sys2Proof.Safety Sys2Proof.Laws

variable {d : Dev}

/-! ## WRITE_SLOT (15 R450; logs 13, 97 and 98) -/

theorem badLength_iff {n : Nat} : (decide (n = 0) || decide (slotBytes < n)) = true ↔ n = 0 ∨ slotBytes < n := by
  rw [Bool.or_eq_true, decide_eq_true_eq, decide_eq_true_eq]

theorem writeSlotRun_misformed (bs : Bytes) (h : d.boot.hlen.toNat = 0 ∨ slotBytes < d.boot.hlen.toNat) :
    writeSlotRun (.data bs) d = bootEnd d brFormat := if_pos (badLength_iff.2 h)

section
variable (h1 : 1 ≤ d.boot.hlen.toNat) (h2 : d.boot.hlen.toNat ≤ slotBytes)
include h1 h2

theorem goodLength : ¬ (decide (d.boot.hlen.toNat = 0) || decide (slotBytes < d.boot.hlen.toNat)) = true := by
  rw [badLength_iff]; omega

theorem writeSlotRun_programs (bs : Bytes) : writeSlotRun (.data bs) d =
    let d1 := imageRead d (d.boot.haddr &&& ~~~0xFFF) d.boot.hlen.toNat
    bootEnd (dirWrite
      { d1 with boot.nvm := nvmWrite d1.boot.nvm (slotBase (idleSlot d)) (fit d.boot.hlen.toNat bs), boot.verified := false, boot.stgRel := 0
                hif.rdBytes := d1.hif.rdBytes + BitVec.ofNat 64 d.boot.hlen.toNat }
      (setSlotState (idleSlot d) slWritten)) brOk := if_neg (goodLength h1 h2)

theorem writeSlotRun_fails {r : DmaRes} (hr : r = .ur ∨ r = .ca ∨ r = .poison) : writeSlotRun r d =
    bootEnd (readFailed (imageRead d (d.boot.haddr &&& ~~~0xFFF) d.boot.hlen.toNat) 0 (failKind r) 0 (d.boot.haddr &&& ~~~0xFFF)) brDma := by
  rcases hr with rfl | rfl | rfl <;> exact if_neg (goodLength h1 h2)

end

/-! ## VERIFY and COMMIT (15 R446, R450) -/

section
variable {v i : Sect}

theorem verifyRun_refused {r : Byte} (h : authSlot d (idleSlot d) = .error r) :
    verifyRun d = bootEnd { d with boot.verified := false, boot.stgRel := 0 } r := by simp only [verifyRun, h]

section
variable (ha : authSlot d (idleSlot d) = .ok (v, i))
include ha

theorem verifyRun_badHash (h : compsGood d.boot.nvm (idleSlot d) (v.comps ++ i.comps) (fun _ => true) = false) :
    verifyRun d = bootEnd { d with boot.verified := false, boot.stgRel := 0 } brHash := by
  simp only [verifyRun, ha, h, Bool.not_false, if_true]

variable (hg : compsGood d.boot.nvm (idleSlot d) (v.comps ++ i.comps) (fun _ => true) = true)
include hg

theorem verifyRun_badCustom {p : Nat} (h : customFault d d.boot.nvm (idleSlot d) (customComps i) = some p) :
    verifyRun d = bootEnd { d with boot.verified := false, boot.stgRel := 0, boot.inst := BitVec.ofNat 8 p } brCustom := by
  simp only [verifyRun, ha, hg, h, Bool.not_true, Bool.false_eq_true, if_false]

theorem verifyRun_good (h : customFault d d.boot.nvm (idleSlot d) (customComps i) = none) :
    verifyRun d = bootEnd { d with boot.verified := true, boot.stgRel := relWord (idleSlot d) v } brOk := by
  simp only [verifyRun, ha, hg, h, Bool.not_true, Bool.false_eq_true, if_false]

end

theorem commitRun_raises (h : slotSects d = some (v, i)) : commitRun d =
    let d1 := dirWrite d (setSlotState d.boot.slot slGood)
    bootEnd { d1 with
      otp.svn := if v.flags.getLsbD 1 then max d1.otp.svn v.svn else d1.otp.svn
      boot.cfgMin := if i.flags.getLsbD 1 && d1.boot.cfgMin < i.rel then i.rel else d1.boot.cfgMin } brOk := by
  simp only [commitRun, h]

/-! ## The rollout (08 R291; 15 R451; logs 101 and 184) -/

section
variable {k j u : Nat} {rest : List (Nat × Nat)} (hr : d.boot.rollout = (k, j) :: rest)
include hr

section
variable {c : Comp} (hb : d.boot.busy = true) (h2 : 2 ≤ k) (h4 : k ≤ 4) (hu : stepSeq k j = some u) (hd : d.boot.stepDone = false)
  (ht : (getStore d u).staged = false) (hn : nvmDown d = false) (hs : slotSects d = some (v, i))
  (hc : compFor v.comps (seqComp u).1 (seqComp u).2 = some c)
include hb h2 h4 hu hd ht hn hs hc

theorem ucodeStageGo_eq (crcOk : Bool) : ucodeStageGo u crcOk d =
    if crcOk && compGood d.boot.nvm d.boot.slot c && tableKeeps d u (compBytes d.boot.nvm d.boot.slot c) then
      modStore d u fun x => fillOther (compBytes d.boot.nvm d.boot.slot c)
        { x with staged := true, stgVer := c.version, stgCrc := c.crc, drain := true }
    else rollFail (amber (modStore d u fun x => { x with fails := satInc x.fails }) .ucodeStage .supv
      [BitVec.ofNat 8 u, if (getStore d u).bank then 0 else 1]) brHash := by
  have hopen : ¬ (!d.boot.busy || decide (k < 2) || decide (4 < k) || decide (stepSeq k j ≠ some u) || d.boot.stepDone || (getStore d u).staged)
      = true := by
    rw [hb, hd, ht, decide_eq_false (Nat.not_lt.2 h2), decide_eq_false (Nat.not_lt.2 h4), decide_eq_false (not_not_intro hu)]; decide
  simp only [ucodeStageGo, hr, if_neg hopen, hn, Bool.false_eq_true, if_false, hs, Option.bind_some, hc]

theorem ucodeStageGo_stages (hg : compGood d.boot.nvm d.boot.slot c = true) (hk : tableKeeps d u (compBytes d.boot.nvm d.boot.slot c) = true) :
    ucodeStageGo u true d = modStore d u fun x => fillOther (compBytes d.boot.nvm d.boot.slot c)
      { x with staged := true, stgVer := c.version, stgCrc := c.crc, drain := true } :=
  (ucodeStageGo_eq hr hb h2 h4 hu hd ht hn hs hc true).trans (if_pos (by rw [hg, hk]; rfl))

theorem ucodeStageGo_fails : ucodeStageGo u false d =
    rollFail (amber (modStore d u fun x => { x with fails := satInc x.fails }) .ucodeStage .supv
      [BitVec.ofNat 8 u, if (getStore d u).bank then 0 else 1]) brHash :=
  (ucodeStageGo_eq hr hb h2 h4 hu hd ht hn hs hc false).trans (if_neg Bool.false_ne_true)

end

theorem rolloutStepDoneGo_goesOn (hb : d.boot.busy = true) (hd : d.boot.stepDone = true)
    (h6 : k = 6 → d.dlr.pending = false ∧ d.dlr.chkBusy = false) : rolloutStepDoneGo d = stepBegin { d with
      boot.rollout := rest, boot.done := if 2 ≤ k ∧ k ≤ 5 then d.boot.done else d.boot.done + 1 } := by
  have hdeal : (decide (k = 6) && (d.dlr.pending || d.dlr.chkBusy)) = false := by
    rw [Bool.and_eq_false_imp, decide_eq_true_eq]
    intro hk
    obtain ⟨hp, hc⟩ := h6 hk
    rw [hp, hc]; rfl
  have hseq : (decide (k = 2) || decide (k = 3) || decide (k = 4) || decide (k = 5)) = true ↔ 2 ≤ k ∧ k ≤ 5 := by
    simp only [Bool.or_eq_true, decide_eq_true_eq]; omega
  simp only [rolloutStepDoneGo, hr, hb, hd, hdeal, hseq, Bool.not_true, Bool.and_false, Bool.false_eq_true, if_false]

end
end

/-! ## INSTANCE_DRAINED (08 R292; 15 R451; 16 R467) -/

section
variable {c : Nat} (hc : c < 32) (ha : isReady d = true ∨ d.glob.st = .safe) (hi : cellIdle d c = true) (hh : cellHalted d c = false)
include hc ha hi hh

theorem drain_answered : ¬ (decide (32 ≤ c) || !(isReady d || d.glob.st == .safe) || !cellIdle d c || cellHalted d c) = true := by
  have hs : (isReady d || d.glob.st == .safe) = true := by rw [Bool.or_eq_true, beq_iff_eq]; exact ha
  rw [hs, hi, hh, decide_eq_false (Nat.not_le.2 hc)]; decide

section
variable (hd : (getEng d c).svc = .draining)
include hd

theorem instanceDrainedGo_tests (h : testTurn d c = true) :
    instanceDrainedGo c d = modEng (reloadBank d c) c fun r => { r with svc := .inTest } :=
  (if_neg (drain_answered hc ha hi hh)).trans ((if_pos hd).trans (if_pos h))

theorem instanceDrainedGo_waits (h : testTurn d c = false) : instanceDrainedGo c d = d :=
  (if_neg (drain_answered hc ha hi hh)).trans ((if_pos hd).trans (if_neg (by rw [h]; exact Bool.false_ne_true)))

end

theorem instanceDrainedGo_swaps {k j u : Nat} {rest : List (Nat × Nat)} (hd : (getEng d c).svc ≠ .draining)
    (hr : d.boot.rollout = (k, j) :: rest) (hq : cellSeq c = some u) (hu : stepSeq k j = some u) (hw : (getStore d u).drain = true)
    (ht : kindTested d c = false) (hn : nvmDown d = false) : instanceDrainedGo c d =
    if k = 5 then customNow d c else if (getStore d u).staged then swapNow d u else d := by
  have hturn : ¬ (decide (stepSeq k j ≠ some u) || !(getStore d u).drain || kindTested d c || nvmDown d) = true := by
    rw [hw, ht, hn, decide_eq_false (not_not_intro hu)]; decide
  refine (if_neg (drain_answered hc ha hi hh)).trans ((if_neg hd).trans ?_)
  simp only [hr, hq, if_neg hturn]

end

/-! ## The hand-over and the NVM (15 R449, R453) -/

section
variable (hh : d.boot.handover = true)
include hh

theorem supvHandoverReportGo_reports {v i : Sect} (hq : supvQuiet d = true) (hs : slotSects d = some (v, i)) : supvHandoverReportGo d =
    { d with boot.handover := false, boot.stepDone := true, boot.mixed := true, bdr.limit := 0x14
             boot.meas := d.boot.meas.set 1 (measOf (v.comps.find? fun c => c.type == 1)) } := by
  simp only [supvHandoverReportGo, hh, hq, hs, Bool.not_true, Bool.or_self, Bool.false_eq_true, if_false, setMeas]

theorem supvHandoverReportGo_waits (hq : supvQuiet d = false) : supvHandoverReportGo d = d := if_pos (by rw [hh, hq]; rfl)

theorem supvHandoverFailGo_fails : supvHandoverFailGo d = rollFail (amber d .supvHandoverFail .supv []) brHandover :=
  if_neg (by rw [hh]; exact Bool.false_ne_true)

end

theorem nvmFailGo_latches (hr : isReady d = true) (he : d.boot.nvmErr = false) :
    nvmFailGo d = bootCause (amber { d with boot.nvmErr := true } .nvmFail .supv []) 4 := if_neg (by rw [hr, he]; decide)

/-! ## The statement -/

/-- Settles O49: a command of BOOT_CMD by `bootCmd_runs`, every other clause by the equation above that is its meaning. A length out of range
reports FORMAT (log 97), an image shorter than its slot leaves the bytes beyond it (logs 98 and 13), and an NVM that does not answer reports NVM
(log 100); `crcOk` is the outcome of a bank's CRC (log 101), and swaps and steps set MIXED by log 184. -/
theorem liveUpdateResults : Obligations.LiveUpdateResults := by
  unfold Obligations.LiveUpdateResults
  dsimp only
  refine ⟨fun s env r ho => ⟨?_, ?_, ?_, ?_, ?_⟩, fun d bs => ⟨writeSlotRun_misformed bs, fun h1 h2 => writeSlotRun_programs h1 h2 bs,
      fun h1 h2 r hr => writeSlotRun_fails h1 h2 hr⟩,
    fun d v i => ⟨fun r h => verifyRun_refused h, fun ha => ⟨verifyRun_badHash ha, fun hg =>
      ⟨verifyRun_good ha hg, fun p h => verifyRun_badCustom ha hg h⟩⟩⟩,
    fun d v i h => commitRun_raises h,
    fun s u k j rest c v i hb hr h2 h4 hu hd ht hn hs hc => ⟨fun hg hk => ?_, ?_⟩,
    fun s c hc ha hi hh => ⟨fun hd h => ?_, fun hd h => ?_, fun k j rest u hd hr hq hu hw ht hn => ⟨fun h5 => ?_, fun h5 hg => ?_⟩⟩,
    fun s k j rest hb hr hd h6 => ?_, fun s hh => ⟨fun v i hq hs => ?_, fun hq => ?_, ?_⟩, fun s hr he => ?_⟩
  · exact bootCmd_runs (writeSlotRun r) ho rfl bne_iff_ne
  · exact bootCmd_runs verifyRun ho rfl (by simp only [Bool.or_eq_true, beq_iff_eq])
  · exact bootCmd_runs (activateRun env) ho rfl (by simp only [Bool.and_eq_true, Bool.or_eq_true, bne_iff_ne, ne_eq])
  · exact bootCmd_runs commitRun ho rfl (by simp only [Bool.and_eq_true, beq_iff_eq, Bool.not_eq_true', and_assoc])
  · exact bootCmd_runs rollbackRun ho rfl (by simp only [Bool.and_eq_true, beq_iff_eq, Bool.not_eq_true', and_assoc])
  · exact gives_of (go := ucodeStageGo u true) rfl (ucodeStageGo_stages hr hb h2 h4 hu hd ht hn hs hc hg hk)
  · exact gives_of (go := ucodeStageGo u false) rfl (ucodeStageGo_fails hr hb h2 h4 hu hd ht hn hs hc)
  · exact gives_of (go := instanceDrainedGo c) rfl (instanceDrainedGo_tests hc ha hi hh hd h)
  · exact gives_of (go := instanceDrainedGo c) rfl (instanceDrainedGo_waits hc ha hi hh hd h)
  · exact gives_of (go := instanceDrainedGo c) rfl ((instanceDrainedGo_swaps hc ha hi hh hd hr hq hu hw ht hn).trans (if_pos h5))
  · exact gives_of (go := instanceDrainedGo c) rfl
      ((instanceDrainedGo_swaps hc ha hi hh hd hr hq hu hw ht hn).trans ((if_neg h5).trans (if_pos hg)))
  · exact gives_of (go := rolloutStepDoneGo) rfl (rolloutStepDoneGo_goesOn hr hb hd h6)
  · exact gives_of (go := supvHandoverReportGo) rfl (supvHandoverReportGo_reports hh hq hs)
  · exact gives_of (go := supvHandoverReportGo) rfl (supvHandoverReportGo_waits hh hq)
  · exact gives_of (go := supvHandoverFailGo) rfl (supvHandoverFailGo_fails hh)
  · exact gives_of (go := nvmFailGo) rfl (nvmFailGo_latches hr he)

end Sys2Proof.Proofs.LiveUpdate
end

section
/-!
PROOF. In-service tests and uncorrectable memory errors (07 R237; 08 R267; 16 R467-R472).
-/
namespace Sys2Proof.Proofs.SelfTest

open Sys2Proof.Machine Sys2Proof.Safety Sys2Proof.Laws

variable {d : Dev}

/-! ## The schedule (16 R468; log 83) -/

/-- Whether an engine of the kind in turn is out for test. -/
abbrev kindOut (d : Dev) : Bool := d.bist.queue.any fun x => cellKind x == testKind d.bist.kindTurn

/-- The engines that the schedule may select. -/
abbrev ableCells (d : Dev) : List Nat := (kindCells (testKind d.bist.kindTurn)).filter (mayTest d)

/-- The first of them that this rotation has not tested. -/
abbrev freshCell (d : Dev) : Option Nat := (ableCells d).find? fun c => !d.bist.tested.contains c

section
variable (hr : isReady d = true) (he : d.bist.isEn = true)
include hr he

theorem schedule_runs : ¬ (!isReady d || !d.bist.isEn) = true := by rw [hr, he]; decide

theorem isScheduleGo_rests (h : kindOut d = true ∨ ableCells d = []) :
    isScheduleGo d = { d with bist.kindTurn := (d.bist.kindTurn + 1) % 4 } := by
  refine (if_neg (schedule_runs hr he)).trans ?_
  cases hw : kindOut d with
  | true => exact if_pos hw
  | false =>
    have ha := h.resolve_left fun e => Bool.false_ne_true (hw.symm.trans e)
    refine (if_neg fun e => Bool.false_ne_true (hw.symm.trans e)).trans ?_
    simp only [ha, List.find?_nil, List.head?_nil]

section
variable (hw : kindOut d = false) {c : Nat}
include hw

theorem isScheduleGo_selects (h : freshCell d = some c) : isScheduleGo d =
    takeOut { d with bist.kindTurn := (d.bist.kindTurn + 1) % 4, bist.tested := d.bist.tested ++ [c] } c := by
  refine (if_neg (schedule_runs hr he)).trans ((if_neg fun e => Bool.false_ne_true (hw.symm.trans e)).trans ?_)
  simp only [h]

theorem isScheduleGo_restarts {rest : List Nat} (ha : ableCells d = c :: rest) (h : freshCell d = none) : isScheduleGo d =
    takeOut { d with bist.kindTurn := (d.bist.kindTurn + 1) % 4
                     bist.tested := (d.bist.tested.filter fun x => cellKind x != testKind d.bist.kindTurn) ++ [c] } c := by
  refine (if_neg (schedule_runs hr he)).trans ((if_neg fun e => Bool.false_ne_true (hw.symm.trans e)).trans ?_)
  simp only [h, congrArg List.head? ha, List.head?_cons]

end
end

/-! ## BIST_IS_CMD (16 R468; log 84) -/

section
variable {v : U32} (ho : ctlServed d = true) (hr : isReady d = true) (hv : v.getLsbD 8 = true)
include ho hr hv

theorem isCmdGo_eq : isCmdGo v d =
    let c := partCell (v.toNat % 64)
    let told : Dev := { d with bist.inst := BitVec.ofNat 6 (v.toNat % 64), bist.force := v.getLsbD 9 }
    if 32 ≤ v.toNat % 64 then { told with bist.result := 1 }
    else if (getEng d c).svc = .retired then { told with bist.result := 2 }
    else if reservedCells d c && !v.getLsbD 9 then { told with bist.result := 3 }
    else if (getEng d c).svc = .inService && lastOfKind d c then { told with bist.result := 4 }
    else
      let d2 := takeOut { told with bist.result := 0 } c
      if v.getLsbD 9 && !d2.bist.forced.contains c then { d2 with bist.forced := d2.bist.forced ++ [c] } else d2 :=
  (if_neg (by rw [ho]; exact Bool.false_ne_true)).trans (if_neg (by rw [hv, hr]; decide))

theorem isCmdGo_noInstance (h : 32 ≤ v.toNat % 64) : isCmdGo v d =
    { d with bist.inst := BitVec.ofNat 6 (v.toNat % 64), bist.force := v.getLsbD 9, bist.result := 1 } :=
  (isCmdGo_eq ho hr hv).trans (if_pos h)

variable (hp : v.toNat % 64 < 32)
include hp

theorem isCmdGo_retired (h : (getEng d (partCell (v.toNat % 64))).svc = .retired) : isCmdGo v d =
    { d with bist.inst := BitVec.ofNat 6 (v.toNat % 64), bist.force := v.getLsbD 9, bist.result := 2 } :=
  (isCmdGo_eq ho hr hv).trans ((if_neg (Nat.not_le.2 hp)).trans (if_pos h))

theorem isCmdGo_reserved (hs : (getEng d (partCell (v.toNat % 64))).svc ≠ .retired) (h : reservedCells d (partCell (v.toNat % 64)) = true)
    (hf : v.getLsbD 9 = false) : isCmdGo v d =
    { d with bist.inst := BitVec.ofNat 6 (v.toNat % 64), bist.force := v.getLsbD 9, bist.result := 3 } :=
  (isCmdGo_eq ho hr hv).trans ((if_neg (Nat.not_le.2 hp)).trans ((if_neg hs).trans (if_pos (by rw [h, hf]; rfl))))

section
variable (hs : (getEng d (partCell (v.toNat % 64))).svc = .inService)
  (hc : reservedCells d (partCell (v.toNat % 64)) = false ∨ v.getLsbD 9 = true)
include hs hc

theorem isCmdGo_allowed : isCmdGo v d =
    let c := partCell (v.toNat % 64)
    let told : Dev := { d with bist.inst := BitVec.ofNat 6 (v.toNat % 64), bist.force := v.getLsbD 9 }
    if lastOfKind d c then { told with bist.result := 4 }
    else
      let d2 := takeOut { told with bist.result := 0 } c
      if v.getLsbD 9 && !d2.bist.forced.contains c then { d2 with bist.forced := d2.bist.forced ++ [c] } else d2 := by
  have hfree : (reservedCells d (partCell (v.toNat % 64)) && !v.getLsbD 9) = false := by
    rcases hc with h | h <;> rw [h]
    · exact Bool.false_and _
    · exact Bool.and_false _
  refine (isCmdGo_eq ho hr hv).trans ((if_neg (Nat.not_le.2 hp)).trans ?_)
  simp only [hs, hfree, Bool.false_eq_true, if_false, decide_true, Bool.true_and, reduceCtorEq]

theorem isCmdGo_last (h : lastOfKind d (partCell (v.toNat % 64)) = true) : isCmdGo v d =
    { d with bist.inst := BitVec.ofNat 6 (v.toNat % 64), bist.force := v.getLsbD 9, bist.result := 4 } :=
  (isCmdGo_allowed ho hr hv hp hs hc).trans (if_pos h)

theorem isCmdGo_takes (h : lastOfKind d (partCell (v.toNat % 64)) = false) : isCmdGo v d =
    let c := partCell (v.toNat % 64)
    let d2 := takeOut { d with bist.inst := BitVec.ofNat 6 (v.toNat % 64), bist.force := v.getLsbD 9, bist.result := 0 } c
    if v.getLsbD 9 && !d2.bist.forced.contains c then { d2 with bist.forced := d2.bist.forced ++ [c] } else d2 :=
  (isCmdGo_allowed ho hr hv hp hs hc).trans (if_neg (by rw [h]; exact Bool.false_ne_true))

end
end

/-! ## The end of a test (16 R467 to R469; logs 85 and 86) -/

theorem isDrainTimeoutGo_returns {c : Nat} (hr : isReady d = true) (hs : (getEng d c).svc = .draining) (ht : testTurn d c = true) :
    isDrainTimeoutGo c d = bistCause (testEnd d c .inService) 4 (partId c) :=
  if_neg (by rw [hr, ht, decide_eq_false (not_not_intro hs)]; decide)

/-- What a test reports: its partition and the step that failed, 0 for none. -/
abbrev testArgs (c : Nat) (r : IsResult) : Bytes := [BitVec.ofNat 8 (partId c), BitVec.ofNat 8 r.step]

/-- The device with a test's results and its Amber entry, the memories of the tested engine wiped. -/
abbrev testNoted (d : Dev) (c : Nat) (r : IsResult) : Dev :=
  amber (noteMem { wipeCell d c with bist.lres := mapSet {} (wipeCell d c).bist.lres (partId c) (logicRes (partId c) r.logic) } r) .bistIs .supv
    (testArgs c r)

/-- The device with the tested engine retired. -/
abbrev testRetired (d : Dev) (c : Nat) (r : IsResult) : Dev :=
  bistCause (amber (testEnd (testNoted d c r) c .retired) .bistRetire .supv (testArgs c r)) 1 (partId c)

theorem fatalTest_iff {c : Nat} {r : IsResult} : (lastOfKind (testRetired d c r) c && (r.step == 5 || r.step == 6)) = true ↔
    lastOfKind (testRetired d c r) c = true ∧ (r.step = 5 ∨ r.step = 6) := by
  rw [Bool.and_eq_true, Bool.or_eq_true, beq_iff_eq, beq_iff_eq]

section
variable {c : Nat} {r : IsResult} (hr : isReady d = true) (hs : (getEng d c).svc = .inTest)
include hr hs

theorem test_ran : ¬ (!isReady d || decide ((getEng d c).svc ≠ .inTest)) = true := by
  rw [hr, decide_eq_false (not_not_intro hs)]; decide

section
variable (h0 : r.step = 0)
include h0

theorem isTestDoneGo_passes (hm : r.mem = none) : isTestDoneGo c r d = testEnd (testNoted d c r) c .inService := by
  refine (if_neg (test_ran hr hs)).trans ((if_pos h0).trans ?_)
  simp only [hm]

theorem isTestDoneGo_notes {f : MemFail} (hm : r.mem = some f) : isTestDoneGo c r d =
    if f.repaired then bistCause (testEnd (testNoted d c r) c .inService) 2 (partId c) else testEnd (testNoted d c r) c .inService := by
  refine (if_neg (test_ran hr hs)).trans ((if_pos h0).trans ?_)
  simp only [hm]

end

section
variable (h0 : r.step ≠ 0)
include h0

theorem isTestDoneGo_retires (h : ¬ (lastOfKind (testRetired d c r) c = true ∧ (r.step = 5 ∨ r.step = 6))) :
    isTestDoneGo c r d = plan (testRetired d c r) :=
  (if_neg (test_ran hr hs)).trans ((if_neg h0).trans (if_neg (mt fatalTest_iff.1 h)))

theorem isTestDoneGo_fatal (h : lastOfKind (testRetired d c r) c = true ∧ (r.step = 5 ∨ r.step = 6)) :
    isTestDoneGo c r d = fatalFault (testRetired d c r) :=
  (if_neg (test_ran hr hs)).trans ((if_neg h0).trans (if_pos (fatalTest_iff.2 h)))

end
end

/-! ## Uncorrectable errors (07 R237; 08 R267; 16 R472; log 180) -/

section
variable (hr : isReady d = true)
include hr

theorem ecc_served : ¬ (!isReady d) = true := by rw [hr]; exact Bool.false_ne_true

theorem uncorrectableEccGo_fatal : uncorrectableEccGo .fatal d = fatalFault d := if_neg (ecc_served hr)

theorem uncorrectableEccGo_supv : uncorrectableEccGo .supvRam d = if d.bist.supvErr then fatalFault d else { d with bist.supvErr := true } :=
  if_neg (ecc_served hr)

theorem uncorrectableEccGo_job {j : Nat} {b : Job} {code : U16} (hj : findJob d j = some b) (hp : b.phase = .placed) :
    uncorrectableEccGo (.jobMem j code) d = (ctxCells b).foldl takeOut (failJob d b stEcc code) := by
  refine (if_neg (ecc_served hr)).trans ?_
  simp only [hj, if_pos hp]

theorem uncorrectableEccGo_granule {j : Option Nat} {code : U16} {o slot : Nat} {k : KObj} (h : (getSlot d o slot).obj = some k) :
    uncorrectableEccGo (.granule j code o slot) d =
      let d1 := match j with | some n => eccJob d n code | none => d
      let d2 := if k.stateful then zeroStateful d1 o slot else destroySlot d1 o slot
      { d2 with ks.withdrawn := d2.ks.withdrawn + 1 } := by
  refine (if_neg (ecc_served hr)).trans ?_
  simp only [h] <;> rfl

theorem uncorrectableEccGo_line (c line : Nat) : uncorrectableEccGo (.tileLine c line) d =
    modCore d c fun r => { r with eccLines := line :: r.eccLines.filter (· != line) } := if_neg (ecc_served hr)

variable {u : Nat} (hu : u < 28)
include hu

theorem store_served : ¬ (!isReady d || decide (28 ≤ u)) = true := by rw [hr, decide_eq_false (Nat.not_le.2 hu)]; decide

theorem controlStoreEccGo_counts : controlStoreEccGo u true d = modStore d u fun x => { x with corr := satInc x.corr } :=
  (if_neg (store_served hr hu)).trans (if_pos rfl)

/-- The device with an uncorrectable error of a control store counted and reported. -/
abbrev storeFailed (d : Dev) (u : Nat) : Dev :=
  raise (modStore d u fun x => { x with uncorr := satInc x.uncorr, event := true, reload := true }) (storeSource u)
    (BitVec.ofBool (getStore d u).event) 1

theorem controlStoreEccGo_idle (h : cellJob (storeFailed d u) (seqCell u) = none) :
    controlStoreEccGo u false d = takeOut (storeFailed d u) (seqCell u) := by
  refine (if_neg (store_served hr hu)).trans ((if_neg Bool.false_ne_true).trans ?_)
  simp only [h]

theorem controlStoreEccGo_ends {b : Job} (h : cellJob (storeFailed d u) (seqCell u) = some b) :
    controlStoreEccGo u false d = takeOut (failJob (storeFailed d u) b stEcc (storeCode u)) (seqCell u) := by
  refine (if_neg (store_served hr hu)).trans ((if_neg Bool.false_ne_true).trans ?_)
  simp only [h]

end

/-! ## The statement -/

/-- Settles O50: under a clause's conditions the command's meaning is one equation above. A kind in turn with no engine that may be tested gives
none (log 83), the command acts in READY only (log 84), the fatal end of a kind's last engine is log 85, the memory failure that a test records
log 86, and an error in a line of a tile log 180. -/
theorem inServiceTestResults : Obligations.InServiceTestResults := by
  unfold Obligations.InServiceTestResults
  dsimp only
  refine ⟨fun s hr he => ⟨fun h => ?_, fun hw c h => ?_, fun hw c rest ha h => ?_⟩,
    fun s v ho hr hv => ⟨fun h => ?_, fun hp => ⟨fun h => ?_, fun hs h hf => ?_, fun hs hc h => ?_, fun hs hc h =>
      ⟨fun hf => ?_, fun hf hn => ?_⟩⟩⟩,
    fun s c hr hs ht => ?_, fun s c r hr hs => ⟨fun h0 hm => ?_, fun h0 f hm => ?_, fun h0 => ⟨fun h => ?_, fun h => ?_⟩⟩,
    fun s hr => ⟨?_, fun h => ?_, fun h => ?_, fun b code hj hp => ?_, fun j code o slot k h => ?_, fun c line => ?_⟩,
    fun s u hr hu => ⟨?_, fun h => ?_, fun b h => ?_⟩⟩
  · exact gives_of (go := isScheduleGo) rfl (isScheduleGo_rests hr he h)
  · exact gives_of (go := isScheduleGo) rfl (isScheduleGo_selects hr he hw h)
  · exact gives_of (go := isScheduleGo) rfl (isScheduleGo_restarts hr he hw ha h)
  · exact gives_of (go := isCmdGo v) rfl (isCmdGo_noInstance ho hr hv h)
  · exact gives_of (go := isCmdGo v) rfl (isCmdGo_retired ho hr hv hp h)
  · exact gives_of (go := isCmdGo v) rfl (isCmdGo_reserved ho hr hv hp hs h hf)
  · exact gives_of (go := isCmdGo v) rfl (isCmdGo_last ho hr hv hp hs hc h)
  · exact gives_of (go := isCmdGo v) rfl ((isCmdGo_takes ho hr hv hp hs hc h).trans (if_neg (by rw [hf]; exact Bool.false_ne_true)))
  · exact gives_of (go := isCmdGo v) rfl ((isCmdGo_takes ho hr hv hp hs hc h).trans (if_pos ((Bool.and_eq_true _ _).mpr ⟨hf, congrArg not hn⟩)))
  · exact gives_of (go := isDrainTimeoutGo c) rfl (isDrainTimeoutGo_returns hr hs ht)
  · exact gives_of (go := isTestDoneGo c r) rfl (isTestDoneGo_passes hr hs h0 hm)
  · exact gives_of (go := isTestDoneGo c r) rfl (isTestDoneGo_notes hr hs h0 hm)
  · exact gives_of (go := isTestDoneGo c r) rfl (isTestDoneGo_retires hr hs h0 h)
  · exact gives_of (go := isTestDoneGo c r) rfl (isTestDoneGo_fatal hr hs h0 h)
  · exact gives_of (go := uncorrectableEccGo .fatal) rfl (uncorrectableEccGo_fatal hr)
  · exact gives_of (go := uncorrectableEccGo .supvRam) rfl ((uncorrectableEccGo_supv hr).trans (if_neg (by rw [h]; exact Bool.false_ne_true)))
  · exact gives_of (go := uncorrectableEccGo .supvRam) rfl ((uncorrectableEccGo_supv hr).trans (if_pos h))
  · exact gives_of (go := uncorrectableEccGo (.jobMem b.id code)) rfl (uncorrectableEccGo_job hr hj hp)
  · exact gives_of (go := uncorrectableEccGo (.granule j code o slot)) rfl (uncorrectableEccGo_granule hr h)
  · exact gives_of (go := uncorrectableEccGo (.tileLine c line)) rfl (uncorrectableEccGo_line hr c line)
  · exact gives_of (go := controlStoreEccGo u true) rfl (controlStoreEccGo_counts hr hu)
  · exact gives_of (go := controlStoreEccGo u false) rfl (controlStoreEccGo_idle hr hu h)
  · exact gives_of (go := controlStoreEccGo u false) rfl (controlStoreEccGo_ends hr hu h)

end Sys2Proof.Proofs.SelfTest
end

section
/-!
PROOF. The recorder and the fate queries (02 R85-R89; 17 R478-R485; 18 R523).
-/
namespace Sys2Proof.Proofs.Recorder

open Sys2Proof.Machine Sys2Proof.Safety Sys2Proof.Laws

variable {d : Dev}

/-! ## Checkpoints (17 R481) -/

theorem ckptCmdGo_timer (hb : barOk d 0 = true) : ckptCmdGo d = ckptGo d := if_pos hb

section
variable (hr : recServes d = true)
include hr

theorem recServes_live : d.recd.live = true := by
  rw [recServes, Bool.and_eq_true] at hr
  exact hr.1

theorem ckptGo_rests (h : d.recd.ckptBusy.isSome = true ∨ ckptBank d = none) : ckptGo d = d := by
  refine (if_pos hr).trans ?_
  unfold ckptStart
  rcases h with h | h
  · exact if_pos (by rw [h, Bool.or_true])
  · rw [h]
    exact ite_self d

theorem ckptGo_begins {b : Nat} (hn : d.recd.ckptBusy = none) (h : ckptBank d = some b) :
    ckptGo d = modBank { d with recd.ckptBusy := some b } b fun x => { x with complete := false } := by
  refine (if_pos hr).trans ((if_neg ?_).trans ?_)
  · rw [recServes_live hr, hn]; decide
  · simp only [h]

end

theorem ckptEnd_completes {b : Nat} (h : d.recd.ckptBusy = some b) : ckptEnd d =
    modBank { d with recd.ckptBusy := none, recd.ckptSeq := d.recd.ckptSeq + 1 } b fun _ =>
      { complete := true, seq := d.recd.ckptSeq + 1, badmap := d.bdr.badBanks, boot := d.glob.bootCnt, tb := d.glob.tb
        records := d.recd.records } := by
  simp only [ckptEnd, h]

/-! ## CLEAR_HIST and the mirror (17 R479, R483, R484) -/

/-- A record with its histogram zeroed. -/
def histCleared (d : Dev) (r : Record) : Record :=
  if isHist r then { r with seq := r.seq + 2, tb := d.glob.tb, wall := wallNow d, boot := d.glob.bootCnt, data := .hist 0 0 0 0 [] } else r

section
variable (hr : recServes d = true)
include hr

theorem clearHistGo_clears (hb : barOk d 0 = true) :
    clearHistGo d = { d with recd.records := mapAll none (fun _ v => v.map (histCleared d)) d.recd.records } := by
  refine (if_neg (by rw [hr, hb]; decide)).trans ?_
  refine congrArg (fun g => { d with recd.records := mapAll none g d.recd.records }) (funext₂ fun _ v => ?_)
  cases v with
  | none => rfl
  | some r =>
    obtain ⟨_, _, _, _, _, _, _, _, data⟩ := r
    cases data <;> rfl

section
variable {i : Nat} (hi : i < 2048)
include hi

theorem mirror_served : ¬ (!recServes d || decide (2048 ≤ i)) = true := by rw [hr, decide_eq_false (Nat.not_le.2 hi)]; decide

theorem mirrorTimerGo_member (ok : Bool) (hm : d.fab.role = .member) :
    mirrorTimerGo i ok d = sendFrame d 0 .record (leBytes 2 i ++ recBytes d i) := (if_neg (mirror_served hr hi)).trans (if_pos hm)

theorem mirrorTimerGo_host (ok : Bool) (hm : d.fab.role ≠ .member) (he : d.recd.mirrorEn = true) : mirrorTimerGo i ok d =
    if ok then mirrorWrite d 0 i (recBytes d i) else recCause { d with recd.mirrorErr := true } 0x8 :=
  (if_neg (mirror_served hr hi)).trans ((if_neg hm).trans (if_neg (by rw [he]; exact Bool.false_ne_true)))

end
end

/-! ## Bad banks (17 R485) -/

/-- The device with a bank entered among the bad ones. -/
abbrev bankNoted (d : Dev) (b : Nat) : Dev :=
  bdrCause { d with bdr.badBanks := d.bdr.badBanks ||| BitVec.ofNat 4 (2 ^ b) } ((BitVec.ofNat 4 (2 ^ b)).setWidth 9 <<< 4)

/-- The device with a freeze bank bad and reported. -/
abbrev ambBankNoted (d : Dev) (b : Nat) : Dev :=
  let d3 := ambCause (amber (bankNoted d b) .ambBankBad (.bedrock 0) [BitVec.ofNat 8 (b - 2)]) 0x2
  { d3 with amb.volatil := d3.bdr.badBanks.getLsbD 2 && d3.bdr.badBanks.getLsbD 3 }

/-- What a bad freeze bank does to a copy into it: it stops, and the entries that waited enter the ring. -/
def copyStopped (d : Dev) (b : Nat) : Dev :=
  match d.amb.copy with
  | some c => if c.bank = some b then c.fifo.foldl ringPut { d with amb.copy := none } else d
  | none => d

theorem copyStopped_into {b : Nat} {c : Freeze} (hc : d.amb.copy = some c) (hb : c.bank = some b) :
    copyStopped d b = c.fifo.foldl ringPut { d with amb.copy := none } := by
  simp only [copyStopped, hc, if_pos hb]

theorem copyStopped_none (b : Nat) (hc : d.amb.copy = none) : copyStopped d b = d := by simp only [copyStopped, hc]

section
variable {b : Nat} (h4 : b < 4) (hg : d.bdr.badBanks.getLsbD b = false)
include h4 hg

theorem bank_good : ¬ (decide (4 ≤ b) || d.bdr.badBanks.getLsbD b) = true := by rw [hg, decide_eq_false (Nat.not_le.2 h4)]; decide

theorem recBankBadGo_recorder (h2 : b < 2) : recBankBadGo b d =
    let d3 := recCause (amber (bankNoted d b) .recBankBad (.bedrock 0) [BitVec.ofNat 8 b]) 0x2
    let d4 := modBank d3 (1 - b) fun x => { x with badmap := d3.bdr.badBanks }
    recVolatile { d4 with recd.ckptBusy := if d4.recd.ckptBusy = some b then none else d4.recd.ckptBusy } :=
  (if_neg (bank_good h4 hg)).trans (if_pos h2)

theorem recBankBadGo_freeze (h2 : 2 ≤ b) : recBankBadGo b d = copyStopped (ambBankNoted d b) (b - 2) :=
  (if_neg (bank_good h4 hg)).trans (if_neg (Nat.not_lt.2 h2))

end

/-! ## Fate queries (02 R87, R88; 18 R523; log 111) -/

/-- The query registers of a function with OP written. -/
abbrev fqAsked (d : Dev) (f op : Nat) : Dev := setFq d f { getFq d f with op := BitVec.ofNat 4 op }

/-- What a function's argument registers ask. -/
abbrev fqWants (d : Dev) (f : Nat) : FqArgs := fqArgs d f (getFq d f).arg0 (getFq d f).arg1

section
variable {f : Nat} (hb : barOk d f = true) (hm : mapServed d = true) (hq : (getFq d f).busy = false) (hs : fqServed d f = true)
include hb hm hq hs

theorem fqRun_runs (op : Nat) (run : Dev → Nat → Dev) : fqRun op run d f = run (fqAsked d f op) f :=
  (if_neg (by rw [hb, hm, hq]; decide)).trans (if_pos hs)

/-- A query of a member's SQ goes to that member. -/
theorem fate_asks {n : Nat} :
    (fateNode (fqAsked d f 1) (fqWants (fqAsked d f 1) f) = some n →
      fqByJobGo d f = fqAsk (fqAsked d f 1) f n 1 (fqWants (fqAsked d f 1) f))
    ∧ (fateNode (fqAsked d f 2) (fqWants (fqAsked d f 2) f) = some n →
      fqByKeyGo d f = fqAsk (fqAsked d f 2) f n 2 (fqWants (fqAsked d f 2) f))
    ∧ (fateNode (fqAsked d f 3) (fqWants (fqAsked d f 3) f) = some n →
      fqReleaseGo d f = fqAsk (fqAsked d f 3) f n 3 (fqWants (fqAsked d f 3) f)) := by
  refine ⟨fun h => (fqRun_runs hb hm hq hs 1 _).trans ?_, fun h => (fqRun_runs hb hm hq hs 2 _).trans ?_,
    fun h => (fqRun_runs hb hm hq hs 3 _).trans ?_⟩ <;> dsimp only <;> rw [h]

theorem fqByJobGo_answers (h : fateNode (fqAsked d f 1) (fqWants (fqAsked d f 1) f) = none) :
    fqByJobGo d f = fqAnswer (fqAsked d f 1) f (fateByJob (fqAsked d f 1) (fqWants (fqAsked d f 1) f)) 0 := by
  refine (fqRun_runs hb hm hq hs 1 _).trans ?_
  dsimp only
  rw [h]

section
variable (h : fateNode (fqAsked d f 2) (fqWants (fqAsked d f 2) f) = none)
include h

theorem fqByKeyGo_lists {k : Nat}
    (hk : (jByKey (fqAsked d f 2) (fqWants (fqAsked d f 2) f))[(getFq (fqAsked d f 2) f).cursor]? = some k) :
    fqByKeyGo d f = fqAnswer (fqAsked d f 2) f (jRec (getJ (fqAsked d f 2) k)) ((getFq (fqAsked d f 2) f).cursor + 1) := by
  refine (fqRun_runs hb hm hq hs 2 _).trans ?_
  dsimp only
  rw [h, hk]

theorem fqByKeyGo_ends
    (hk : (jByKey (fqAsked d f 2) (fqWants (fqAsked d f 2) f))[(getFq (fqAsked d f 2) f).cursor]? = none) :
    fqByKeyGo d f = fqAnswer (fqAsked d f 2) f {} 0 := by
  refine (fqRun_runs hb hm hq hs 2 _).trans ?_
  dsimp only
  rw [h, hk]

end

theorem fqReleaseGo_releases (h : fateNode (fqAsked d f 3) (fqWants (fqAsked d f 3) f) = none) : fqReleaseGo d f =
    fqAnswer (fateRelease (fqAsked d f 3) (fqWants (fqAsked d f 3) f)).2 f (fateRelease (fqAsked d f 3) (fqWants (fqAsked d f 3) f)).1 0 := by
  refine (fqRun_runs hb hm hq hs 3 _).trans ?_
  dsimp only
  rw [h]

theorem fqReleaseBootGo_releases :
    fqReleaseBootGo d f = fqAnswer (releaseEverywhere (fqAsked d f 4) (fqWants (fqAsked d f 4) f)) f {} 0 :=
  fqRun_runs hb hm hq hs 4 _

end

/-! ## The statement -/

/-- Settles O51: under a clause's conditions the command's meaning is one equation above. BY_KEY asks the home of the SQ that its SQ_ID names (log
111); how many records a member's answer carries is log 112, and which of a checkpoint's records a start restores is log 82. -/
theorem recorderAndFateResults : Obligations.RecorderAndFateResults := by
  unfold Obligations.RecorderAndFateResults
  dsimp only
  refine ⟨⟨fun s hr => ⟨fun h => ⟨?_, fun hb => ?_⟩, fun b hn h => ⟨?_, fun hb => ?_⟩⟩, fun s b h => ?_, fun s hr hb hw => ?_,
      fun s i hr hi => ⟨fun hm ok => ?_, fun hm he => ⟨?_, ?_⟩⟩,
      fun s b h4 hg => ⟨fun h2 => ?_, fun h2 => ⟨fun c hc hb => ?_, fun hc => ?_⟩⟩⟩,
    fun s f hb hm hq hs => ⟨fun n h => ?_, fun h => ?_, fun n h => ?_, fun h => ⟨fun k hk => ?_, fun hk => ?_⟩, fun n h => ?_, fun h => ?_, ?_⟩⟩
  · exact gives_of (go := ckptGo) rfl (ckptGo_rests hr h)
  · exact gives_of (go := ckptCmdGo) rfl ((ckptCmdGo_timer hb).trans (ckptGo_rests hr h))
  · exact gives_of (go := ckptGo) rfl (ckptGo_begins hr hn h)
  · exact gives_of (go := ckptCmdGo) rfl ((ckptCmdGo_timer hb).trans (ckptGo_begins hr hn h))
  · exact gives_of (go := ckptEnd) rfl (ckptEnd_completes h)
  · exact gives_done (gives_of (go := clearHistGo) rfl (clearHistGo_clears hr hb))
      ⟨rfl, fun k => mapGet_mapAll_from (f := fun _ v => v.map (histCleared s.dev)) (fun _ => rfl) k _ 0 hw⟩
  · exact gives_of (go := mirrorTimerGo i ok) rfl (mirrorTimerGo_member hr hi ok hm)
  · exact gives_of (go := mirrorTimerGo i true) rfl ((mirrorTimerGo_host hr hi true hm he).trans (if_pos rfl))
  · exact gives_of (go := mirrorTimerGo i false) rfl ((mirrorTimerGo_host hr hi false hm he).trans (if_neg Bool.false_ne_true))
  · exact gives_of (go := recBankBadGo b) rfl (recBankBadGo_recorder h4 hg h2)
  · exact gives_of (go := recBankBadGo b) rfl ((recBankBadGo_freeze h4 hg h2).trans (copyStopped_into hc hb))
  · exact gives_of (go := recBankBadGo b) rfl ((recBankBadGo_freeze h4 hg h2).trans (copyStopped_none (b - 2) hc))
  · exact gives_of (go := fun d => fqByJobGo d f) rfl ((fate_asks hb hm hq hs).1 h)
  · exact gives_of (go := fun d => fqByJobGo d f) rfl (fqByJobGo_answers hb hm hq hs h)
  · exact gives_of (go := fun d => fqByKeyGo d f) rfl ((fate_asks hb hm hq hs).2.1 h)
  · exact gives_of (go := fun d => fqByKeyGo d f) rfl (fqByKeyGo_lists hb hm hq hs h hk)
  · exact gives_of (go := fun d => fqByKeyGo d f) rfl (fqByKeyGo_ends hb hm hq hs h hk)
  · exact gives_of (go := fun d => fqReleaseGo d f) rfl ((fate_asks hb hm hq hs).2.2 h)
  · exact gives_of (go := fun d => fqReleaseGo d f) rfl (fqReleaseGo_releases hb hm hq hs h)
  · exact gives_of (go := fun d => fqReleaseBootGo d f) rfl (fqReleaseBootGo_releases hb hm hq hs)

end Sys2Proof.Proofs.Recorder
end

section
/-!
PROOF. Bedrock: freezes, the digest, buckets, the watchdog, wall time, and the SMBus endpoint (17 R475-R497).
-/
namespace Sys2Proof.Proofs.Bedrock

open Sys2Proof.Machine Sys2Proof.Safety Sys2Proof.Laws

variable {d : Dev}

/-! ## Registers that start something (17 R476, R489, R492) -/

theorem wallCommitGo_ignored {v : U32} (h : 1000000000 ≤ v.toNat % 2 ^ 30) : wallCommitGo v d = d := if_pos (by rw [decide_eq_true h, Bool.or_true])

section
variable (ho : ctlServed d = true)
include ho

theorem ctl_open : ¬ (!ctlServed d) = true := by rw [ho]; exact Bool.false_ne_true

theorem wallSReadGo_answers : wallSReadGo d =
    { d with glob.wallNsCap := BitVec.ofNat 30 ((wallNow d).toNat % 1000000000)
             hif.out := d.hif.out ++ [.cpl 0 (leBytes 8 ((wallNow d).toNat / 1000000000))] } := if_neg (ctl_open ho)

theorem wallCommitGo_sets {v : U32} (h : v.toNat % 2 ^ 30 < 1000000000) : wallCommitGo v d =
    let w : U64 := d.glob.wallSHeld * 1000000000 + BitVec.ofNat 64 (v.toNat % 2 ^ 30)
    amber { d with glob.wallSet := true, glob.wallBase := w, glob.wallTb := d.glob.tb } .timeStep .supv (le64 (wallNow d) ++ le64 w) :=
  if_neg (by rw [ho, decide_eq_false (Nat.not_le.2 h)]; decide)

end

/-! ## Freezes, the digest and the watchdog (17 R490, R492, R493) -/

section
variable (ha : bedrockAlive d = true)
include ha

theorem freezeCopyDoneGo_closes {c : Freeze} {b : Nat} (hc : d.amb.copy = some c) (hb : c.bank = some b) : freezeCopyDoneGo d =
    let n := min c.upTo 4095
    let es := (List.range n).map fun i => mapGet {} d.amb.ring ((c.upTo - n + i) % 4096)
    let k : FrzBank := { valid := true, boot := ((es.getLast?).map (·.boot)).getD d.glob.bootCnt, triggers := c.triggers, tb := c.tb
                         seq := d.amb.frzSeq + 1, lost := c.lost, entries := es }
    ambCause (c.fifo.foldl ringPut
      { d with amb.banks := d.amb.banks.setIfInBounds b k, amb.frzSeq := d.amb.frzSeq + 1, amb.latest := b == 1
               amb.copy := none, bdr.alert := true }) 1 := by
  simp only [freezeCopyDoneGo, hc, ha, hb, Bool.not_true, Bool.false_eq_true, if_false]

theorem digestDoneGo_composes (hb : d.amb.digestBusy = true) :
    digestDoneGo d = ambCause { digestNow d d.amb.digSrc with amb.digestBusy := false } 4 := if_neg (by rw [ha, hb]; decide)

theorem amberRefillGo_returns {c : U16} (hc : acodeTakesToken c = true) : amberRefillGo c d =
    { d with amb.buckets := mapMod {} d.amb.buckets c.toNat fun b => { b with used := b.used - 1 } } := if_pos (by rw [ha, hc]; rfl)

section
variable (env : StartEnv) (hh : d.lc.supvHalt = false) (hs : d.glob.st ≠ .bedrock) (hz : d.glob.hardZ = none) (ht : d.glob.tbRun = true)
include hh hs hz ht

theorem wdog_watches : (!bedrockAlive d || d.lc.supvHalt || decide (d.glob.st = .bedrock) || d.glob.hardZ.isSome || !d.glob.tbRun) = false := by
  rw [ha, hh, hz, ht, decide_eq_false hs]; rfl

theorem wdogGo_early (h : ¬ 1000000 * d.bdr.limit.toNat ≤ (d.glob.tb - d.bdr.wdogAt).toNat) : wdogGo env d = d :=
  if_pos (by rw [wdog_watches ha hh hs hz ht, Bool.false_or, decide_eq_true (Nat.not_le.1 h)])

theorem wdogGo_due (h : 1000000 * d.bdr.limit.toNat ≤ (d.glob.tb - d.bdr.wdogAt).toNat) : wdogGo env d =
    takeReset env (.bedrock 5) (bdrCause (freeze (amber { d with bdr.expiries := satInc d.bdr.expiries } .wdog (.bedrock 0) []) 0) 1) :=
  if_neg (by rw [wdog_watches ha hh hs hz ht, Bool.false_or, decide_eq_false (Nat.not_lt.2 h)]; exact Bool.false_ne_true)

end
end

/-! ## The supervisor's own (17 R493, R495) -/

section
variable (hs : supvRuns d = true)
include hs

theorem supvPushGo_pushes : supvPushGo d = { d with bdr.push :=
    { tjMin := d.tmon.minTj, tjMax := d.tmon.maxTj, tjLife := lifeTj d
      railMin := (List.range 9).map fun i => match extremeOf d (0x8010 + i) with | some e => BitVec.ofInt 16 e.1 | none => 0
      counters := pushCounters d } } := if_neg (by rw [hs]; exact Bool.false_ne_true)

end

/-! ## Requests on the SMBus (17 R496, R497) -/

section
variable {back n : Nat}

theorem smbAmbReadGo_refused (h : n = 0 ∨ 16 < n ∨ 65535 < back) : smbAmbReadGo back n d = smReply d 5 smArg [] :=
  if_pos (by simp only [Bool.or_eq_true, decide_eq_true_eq, or_assoc]; exact h)

theorem smbAmbReadGo_answers (h1 : 1 ≤ n) (h2 : n ≤ 16) (hb : back ≤ 65535) : smbAmbReadGo back n d =
    let upTo := (ringList d).take ((ringList d).length - back)
    smReply d 5 smOk ((upTo.drop (upTo.length - n)).map entryBytes).flatten :=
  if_neg (by simp only [Bool.or_eq_true, decide_eq_true_eq]; omega)

end

section
variable {bank slot n : Nat}

theorem smbFrzReadGo_refused (h : 1 < bank ∨ n = 0 ∨ 16 < n ∨ 4096 < slot + n) : smbFrzReadGo bank slot n d = smReply d 6 smArg [] :=
  if_pos (by simp only [Bool.or_eq_true, decide_eq_true_eq, or_assoc]; exact h)

theorem smbFrzReadGo_answers (hb : bank ≤ 1) (h1 : 1 ≤ n) (h2 : n ≤ 16) (hs : slot + n ≤ 4096) : smbFrzReadGo bank slot n d =
    smReply d 6 smOk ((List.range n).map fun i => frzSlot (frzBank d bank) (slot + i)).flatten :=
  if_neg (by simp only [Bool.or_eq_true, decide_eq_true_eq]; omega)

end

section
variable {src part : Nat}

theorem smbDigestGo_refused (h : 1 < src ∨ 1 < part) : smbDigestGo src part d = smReply d 7 smArg [] :=
  if_pos (by rw [Bool.or_eq_true, decide_eq_true_eq, decide_eq_true_eq]; exact h)

variable (hs : src ≤ 1)
include hs

theorem smbDigestGo_formed (hp : part ≤ 1) : smbDigestGo src part d =
    if part = 0 && d.amb.digestBusy then smReply d 7 smBusy []
    else
      let d1 := if part = 0 then digestNow d (src == 1) else d
      smReply d1 7 smOk (slice d1.amb.digest (1024 * part) 1024) :=
  if_neg (by rw [decide_eq_false (Nat.not_lt.2 hs), decide_eq_false (Nat.not_lt.2 hp)]; decide)

theorem smbDigestGo_busy (hb : d.amb.digestBusy = true) : smbDigestGo src 0 d = smReply d 7 smBusy [] :=
  (smbDigestGo_formed hs (Nat.zero_le 1)).trans (if_pos (by rw [hb]; rfl))

theorem smbDigestGo_composes (hb : d.amb.digestBusy = false) : smbDigestGo src 0 d =
    smReply (digestNow d (src == 1)) 7 smOk (slice (digestNow d (src == 1)).amb.digest 0 1024) :=
  (smbDigestGo_formed hs (Nat.zero_le 1)).trans (if_neg (by rw [hb]; decide))

theorem smbDigestGo_second : smbDigestGo src 1 d = smReply d 7 smOk (slice d.amb.digest 1024 1024) :=
  (smbDigestGo_formed hs (Nat.le_refl 1)).trans (if_neg Bool.false_ne_true)

end

theorem smbResetGo_refused {key : U16} (env : StartEnv) (h : key ≠ 0xA5C3) : smbResetGo key env d = smReply d 9 smArg [] := if_pos h

theorem smbResetGo_resets (env : StartEnv) :
    smbResetGo 0xA5C3 env d = takeReset env (.bedrock 8) (freeze (bdrCause (smReply d 9 smOk []) 8) 6) := if_neg (not_not_intro rfl)

theorem smbZeroiseGo_refused {key : U16} (h : key ≠ 0x5A3C) : smbZeroiseGo key d = smReply d 0xA smArg [] := if_pos h

theorem smbZeroiseGo_denied (h : d.ks.zpol.getLsbD 4 = false) : smbZeroiseGo 0x5A3C d = smReply d 0xA smDenied [] :=
  (if_neg (not_not_intro rfl)).trans (if_pos (by rw [h]; rfl))

theorem smbZeroiseGo_starts (h : d.ks.zpol.getLsbD 4 = true) : smbZeroiseGo 0x5A3C d = hardStart 4 0 (smReply d 0xA smOk []) :=
  (if_neg (not_not_intro rfl)).trans (if_neg (by rw [h]; exact Bool.false_ne_true))

theorem lossGo_silent (h : d.bdr.resp = []) : lossGo d = d := if_pos (by rw [h]; rfl)

section
variable (h : d.bdr.resp ≠ [])
include h

theorem response_stands : ¬ d.bdr.resp.isEmpty = true := by rw [List.isEmpty_iff]; exact h

theorem lossGo_resends (hr : d.bdr.retries < 4) :
    lossGo d = { d with bdr.retries := d.bdr.retries + 1, hif.out := d.hif.out ++ [.smbus d.bdr.resp] } :=
  (if_neg (response_stands h)).trans (if_pos hr)

theorem lossGo_gives_up (hr : 4 ≤ d.bdr.retries) : lossGo d = { d with bdr.resp := [], bdr.retries := 0 } :=
  (if_neg (response_stands h)).trans (if_neg (Nat.not_lt.2 hr))

end

/-! ## The statement -/

/-- Settles O52: under a clause's conditions the command's meaning is one equation above, a request on the SMBus through `sm_of`. The widths of a
response's fields and the order of the vendor ID are log 106, and BUSY for a digest while one is composed is log 107. -/
theorem bedrockResults : Obligations.BedrockResults := by
  unfold Obligations.BedrockResults
  dsimp only
  refine ⟨⟨fun s ho => ⟨?_, fun src => ?_, ?_, fun v => ⟨fun h => ?_, fun h => ?_⟩⟩, fun s c b ha hc hb => ?_, fun s ha hb => ?_,
      fun s c ha hc => ?_, fun s hs => ⟨?_, ?_⟩, fun s env ha hh hs hz ht => ⟨fun h => ?_, fun h => ?_⟩⟩,
    fun s ha => ⟨?_, ?_, ?_, ?_, fun back n => ⟨fun h => ?_, fun h1 h2 hb => ?_⟩, fun bank slot n => ⟨fun h => ?_, fun hb h1 h2 hs => ?_⟩,
      fun src part => ⟨fun h => ?_, fun hs hb => ?_, fun hs hb => ?_, fun hs => ?_⟩, ?_, fun key env h => ?_, fun env => ?_, fun key h => ?_,
      fun h => ?_, fun h => ?_, ?_, ?_, fun h => ?_, fun h hr => ?_, fun h hr => ?_⟩⟩
  · exact gives_of (go := ambFreezeGo) rfl (if_pos ho)
  · exact gives_of (go := ambDigestGo src) rfl (if_pos ho)
  · exact gives_of (go := wallSReadGo) rfl (wallSReadGo_answers ho)
  · exact gives_of (go := wallCommitGo v) rfl (wallCommitGo_ignored h)
  · exact gives_of (go := wallCommitGo v) rfl (wallCommitGo_sets ho h)
  · exact gives_of (go := freezeCopyDoneGo) rfl (freezeCopyDoneGo_closes ha hc hb)
  · exact gives_of (go := digestDoneGo) rfl (digestDoneGo_composes ha hb)
  · exact gives_of (go := amberRefillGo c) rfl (amberRefillGo_returns ha hc)
  · exact gives_of (go := wdogRestartGo) rfl (if_pos hs)
  · exact gives_of (go := supvPushGo) rfl (supvPushGo_pushes hs)
  · exact gives_of (go := wdogGo env) rfl (wdogGo_due ha env hh hs hz ht h)
  · exact gives_of (go := wdogGo env) rfl (wdogGo_early ha env hh hs hz ht h)
  · exact sm_of ha rfl rfl
  · exact sm_of ha rfl rfl
  · exact sm_of ha rfl rfl
  · exact sm_of ha rfl rfl
  · exact sm_of (f := smbAmbReadGo back n) ha rfl (smbAmbReadGo_refused h)
  · exact sm_of (f := smbAmbReadGo back n) ha rfl (smbAmbReadGo_answers h1 h2 hb)
  · exact sm_of (f := smbFrzReadGo bank slot n) ha rfl (smbFrzReadGo_refused h)
  · exact sm_of (f := smbFrzReadGo bank slot n) ha rfl (smbFrzReadGo_answers hb h1 h2 hs)
  · exact sm_of (f := smbDigestGo src part) ha rfl (smbDigestGo_refused h)
  · exact sm_of (f := smbDigestGo src 0) ha rfl (smbDigestGo_busy hs hb)
  · exact sm_of (f := smbDigestGo src 0) ha rfl (smbDigestGo_composes hs hb)
  · exact sm_of (f := smbDigestGo src 1) ha rfl (smbDigestGo_second hs)
  · exact sm_of ha rfl rfl
  · exact sm_of (f := smbResetGo key env) ha rfl (smbResetGo_refused env h)
  · exact sm_of (f := smbResetGo 0xA5C3 env) ha rfl (smbResetGo_resets env)
  · exact sm_of (f := smbZeroiseGo key) ha rfl (smbZeroiseGo_refused h)
  · exact sm_of (f := smbZeroiseGo 0x5A3C) ha rfl (smbZeroiseGo_denied h)
  · exact sm_of (f := smbZeroiseGo 0x5A3C) ha rfl (smbZeroiseGo_starts h)
  · exact sm_of ha rfl rfl
  · exact sm_of ha rfl rfl
  · exact sm_of (f := lossGo) ha rfl (lossGo_silent h)
  · exact sm_of (f := lossGo) ha rfl (lossGo_resends h hr)
  · exact sm_of (f := lossGo) ha rfl (lossGo_gives_up h hr)

end Sys2Proof.Proofs.Bedrock
end

section
/-!
PROOF. The fabric's own events: ticks, links, sessions that end, nodes that join, and FAB_CMD (18 R503-R529).
-/
namespace Sys2Proof.Proofs.FabricEvents

open Sys2Proof.Machine Sys2Proof.Safety Sys2Proof.Laws

variable {d : Dev}

/-! ## Ticks (18 R516, R521; log 118) -/

/-- The device with a HEARTBEAT sent on each of its sessions. -/
abbrev beaten (d : Dev) : Dev := (sessionNodes d).foldl (fun acc n => sendFrame acc n .heartbeat []) d

theorem memberReady_iff {d1 : Dev} : (isMember d1 && isReady d1) = true ↔ isMember d1 = true ∧ isReady d1 = true := by rw [Bool.and_eq_true]

theorem heartbeatGo_beats (h : ¬ (isMember (beaten d) = true ∧ isReady (beaten d) = true)) : heartbeatGo d = beaten d :=
  if_neg (mt memberReady_iff.1 h)

theorem heartbeatGo_goesOn (hm : isMember (beaten d) = true) (hr : isReady (beaten d) = true) : heartbeatGo d =
    let d2 := cfgRun (beaten d).fab.cfgQ.length (beaten d)
    (liveOwners d2).foldl topUp d2 := if_pos (memberReady_iff.2 ⟨hm, hr⟩)

/-! ## Ports (18 R503, R505, R508) -/

section
variable {p : Nat}

theorem noReplay_iff : ((getPort d p).state != 2 || (getPort d p).replay.isEmpty) = true ↔
    (getPort d p).state ≠ 2 ∨ (getPort d p).replay = [] := by
  rw [Bool.or_eq_true, bne_iff_ne, List.isEmpty_iff]

theorem portReplay_idle (h : (getPort d p).state ≠ 2 ∨ (getPort d p).replay = []) : portReplay p d = d := if_pos (noReplay_iff.2 h)

section
variable (hs : (getPort d p).state = 2) (hr : (getPort d p).replay ≠ [])
include hs hr

theorem replay_open : ¬ ((getPort d p).state != 2 || (getPort d p).replay.isEmpty) = true := by
  rw [noReplay_iff]
  exact fun h => h.elim (fun h => h hs) hr

theorem portReplay_retrains (ht : 8 ≤ (getPort d p).tries) :
    portReplay p d = modPort d p fun x => { x with state := 1, tries := 0, retrains := satInc x.retrains } :=
  (if_neg (replay_open hs hr)).trans (if_pos ht)

theorem portReplay_replays (ht : (getPort d p).tries < 8) : portReplay p d = (getPort d p).replay.foldl (fun acc x => portEmit acc p x.1 x.2)
    (modPort d p fun x => { x with tries := x.tries + 1, replays := satInc x.replays }) :=
  (if_neg (replay_open hs hr)).trans (if_neg (Nat.not_le.2 ht))

end

section
variable (hp : p < 4)
include hp

theorem portLinkGo_down (hs : (getPort d p).state ≠ 3) : portLinkGo p .down d =
    ((getPort d p).replay ++ (getPort d p).wait).foldl (fun acc x => routeFrame acc x.1 { x.2 with lseq := 0 })
      (modPort d p fun x => { x with state := 0, tries := 0, txSeq := 0, rxSeq := 0, replay := [], wait := []
                                     credits := #v[16, 16, 128, 128, 256, 256, 32, 32] }) :=
  if_neg (by rw [beq_eq_false_iff_ne.2 hs, decide_eq_false (Nat.not_le.2 hp)]; decide)

section
variable (hs : (getPort d p).state ≠ 3) (hb : (getPort d p).barred = false) (ha : d.fab.role ≠ .alone)
include hs hb ha

theorem portLinkGo_train : portLinkGo p .train d =
    modPort d p fun x => { x with state := 1, retrains := if x.state == 2 then satInc x.retrains else x.retrains } :=
  if_neg (port_served hp hs hb ha)

theorem portLinkGo_up : portLinkGo p .up d =
    let d2 := pump ((getPort d p).replay.foldl (fun acc x => portEmit acc p x.1 x.2) (modPort d p fun x => { x with state := 2, fails := [] })) p
    if isReady d2 then joinAll d2 else d2 := if_neg (port_served hp hs hb ha)

end

section
variable (hs : (getPort d p).state = 1)
include hs

theorem portFailed_counts : portLinkGo p .failed d =
    let fs := ((getPort d p).fails.filter fun t => decide (d.glob.tb.toNat ≤ t.toNat + 10000000)) ++ [d.glob.tb]
    if fs.length < 3 then modPort d p fun x => { x with fails := fs, retrains := satInc x.retrains }
    else fabCause (amber (modPort (portDown p d) p fun x => { x with fails := [], barred := true }) .portDown .fab [BitVec.ofNat 8 p]) 4
      d.fab.evNode.toNat :=
  if_neg (by rw [hs, decide_eq_false (Nat.not_le.2 hp)]; decide)

end
end
end

/-! ## Members lost and the lead lost (18 R509, R511, R521, R522; log 113) -/

/-- What a lead does as it loses a member: its homed jobs end with MEMBER_LOST, and what waited for it is answered. -/
def memberGone (n cause : Nat) (d : Dev) : Dev :=
  let js := homedJobs d n
  let d1 := modNode d n fun x => { sessionClear x with state := .lost, losses := satInc x.losses
                                                       lostJobs := satNat 16 (x.lostJobs.toNat + js.length) }
  let d2 := js.foldl lostJob d1
  let d4 := amber { d2 with fab.abandon := d2.fab.abandon.filter fun k => k / 512 != n } .memberLost .fab
    (leBytes 1 n ++ leBytes 1 cause ++ leBytes 2 js.length)
  let d5 := fabCause d4 2 n
  fqsFree (fabEndFor (if d5.vfm.busy && vfmNode d5 == some n then vfmEnd d5 3 0 d5.vfm.sel.toNat else d5) 3 n 1)

section
variable {n : Nat} (hl : d.fab.role = .lead)
include hl

theorem lead_notMember : ¬ isMember d = true := by rw [isMember, hl]; decide

theorem joinGo_joins (hops : Nat) (hj : (getNode d n).state = .joining) (h3 : (getNode d n).stage = 3) :
    joinGo n hops d = fabEndFor (fabCause (amber (modNode d n fun y => { y with state := .member, stage := 0, hops := BitVec.ofNat 4 hops })
      .fabJoin .fab (leBytes 1 n ++ leBytes 1 hops)) 1 n) 1 n 0 :=
  if_neg (by rw [hl, hj, decide_eq_false (not_not_intro h3)]; decide)

section
variable (hm : (getNode d n).state = .member)
include hm

theorem memberLost_loses (cause : Nat) : memberLost n cause d = memberGone n cause d := if_neg (by rw [hl, hm]; decide)

theorem gapGo_loses (h : (getNode d n).early ≠ []) : gapGo n d = memberGone n 3 d :=
  (if_neg (by rw [List.isEmpty_iff]; exact h)).trans ((if_neg (lead_notMember hl)).trans (memberLost_loses hl hm 3))

theorem renewGo_starts (h : (getNode d n).stage = 0) : renewGo n d = hsStart d n true :=
  if_neg (by rw [hl, hm, decide_eq_false (not_not_intro h)]; decide)

end
end

theorem gapGo_closed {n : Nat} (h : (getNode d n).early = []) : gapGo n d = d := if_pos (by rw [h]; rfl)

theorem renewGo_busy {n : Nat} (h : (getNode d n).stage ≠ 0) : renewGo n d = d := if_pos (by rw [decide_eq_true h, Bool.or_true])

theorem lead_served (hm : isMember d = true) (hs : (getNode d 0).state = .member) :
    ¬ (!isMember d || (getNode d 0).state != .member) = true := by rw [hm, hs]; decide

/-! ## FAB_CMD (18 R508, R520, R526, R529; log 116) -/

theorem admitRuns_iff : (d.fab.busy && d.fab.op == 1) = true ↔ d.fab.busy = true ∧ d.fab.op = 1 := by rw [Bool.and_eq_true, beq_iff_eq]

theorem admitTimeoutGo_ends (hb : d.fab.busy = true) (ho : d.fab.op = 1) :
    admitTimeoutGo d = { d with fab.busy := false, fab.result := 4 } := if_pos (admitRuns_iff.2 ⟨hb, ho⟩)

theorem admitTimeoutGo_other (h : d.fab.busy = false ∨ d.fab.op ≠ 1) : admitTimeoutGo d = d := by
  refine if_neg (mt admitRuns_iff.1 fun ⟨hb, ho⟩ => ?_)
  exact h.elim (fun h => Bool.false_ne_true (h.symm.trans hb)) fun h => h ho

theorem admit_named {n : Nat} (hn : fabNode d n = true) (hm : (getNode d n).state ≠ .member) (hj : (getNode d n).state ≠ .joining) :
    ¬ (!fabNode d n || (getNode d n).state == .member || (getNode d n).state == .joining) = true := by
  rw [hn, beq_eq_false_iff_ne.2 hm, beq_eq_false_iff_ne.2 hj]; decide

section
variable {n : Nat} (ho : ctlServed d = true) (hb : d.fab.busy = false)
include ho hb

theorem fabRun_open : ¬ (!ctlServed d || d.fab.busy) = true := by rw [ho, hb]; decide

theorem fabRun_keeps (op : Nat) (run : Dev → Dev) (hr : isReady d = false) :
    fabRun op n run d = { d with fab.op := BitVec.ofNat 3 op, fab.cmdNode := BitVec.ofNat 6 n } :=
  (if_neg (fabRun_open ho hb)).trans (if_neg (by rw [hr]; exact Bool.false_ne_true))

variable (hr : isReady d = true)
include hr

theorem fabRun_runs (op : Nat) (run : Dev → Dev) : fabRun op n run d = run (fabStart d op n) :=
  (if_neg (fabRun_open ho hb)).trans (if_pos hr)

theorem admitGo_eq : admitGo n d =
    let d1 := fabStart d 1 n
    let x := getNode d n
    let r := routeByte d n
    if !fabNode d n || x.state == .member || x.state == .joining then fabEnd d1 1
    else if (mapGet [] d.fab.allow n).isEmpty then fabEnd d1 2
    else if !r.getLsbD 3 && !r.getLsbD 7 then fabEnd d1 3
    else
      let free (acc : Dev) (v : Bool) (p : Nat) : Dev := if v then modPort acc p fun q => { q with barred := false } else acc
      let d2 := free (free d1 (r.getLsbD 3) (r.toNat % 4)) (r.getLsbD 7) (r.toNat / 16 % 4)
      let d3 := modNode d2 n fun y => { y with state := if y.state == .removed then .absent else y.state }
      if (routeOf d3 n false).isSome then joinStart d3 n else d3 := fabRun_runs ho hb hr 1 _

theorem fabRemoveGo_eq : fabRemoveGo n d =
    if !fabNode d n || (getNode d n).state == .removed then fabEnd (fabStart d 2 n) 1
    else if nodeInUse d n then fabEnd (fabStart d 2 n) 5
    else fqsFree (fabEnd (modNode (fabStart d 2 n) n fun x => { sessionClear x with state := .removed }) 0) := fabRun_runs ho hb hr 2 _

theorem rekeyGo_eq : rekeyGo n d =
    if !fabNode d n || (getNode d n).state != .member then fabEnd (fabStart d 3 n) 1
    else if (getNode d n).stage = 0 then hsStart (fabStart d 3 n) n true else fabStart d 3 n := fabRun_runs ho hb hr 3 _

/-! ### ADMIT -/

theorem admitGo_argument (h : ¬ fabNode d n = true ∨ (getNode d n).state = .member ∨ (getNode d n).state = .joining) :
    admitGo n d = fabEnd (fabStart d 1 n) 1 := by
  refine (admitGo_eq ho hb hr).trans (if_pos ?_)
  simp only [Bool.or_eq_true, Bool.not_eq_true', beq_iff_eq, or_assoc, ← Bool.not_eq_true]
  exact h

section
variable (hn : fabNode d n = true) (hm : (getNode d n).state ≠ .member) (hj : (getNode d n).state ≠ .joining)
include hn hm hj

theorem admitGo_identity (h : mapGet [] d.fab.allow n = []) : admitGo n d = fabEnd (fabStart d 1 n) 2 :=
  (admitGo_eq ho hb hr).trans ((if_neg (admit_named hn hm hj)).trans (if_pos (by rw [h]; rfl)))

variable (ha : mapGet [] d.fab.allow n ≠ [])
include ha

theorem admitGo_unrouted (h3 : (routeByte d n).getLsbD 3 = false) (h7 : (routeByte d n).getLsbD 7 = false) :
    admitGo n d = fabEnd (fabStart d 1 n) 3 :=
  (admitGo_eq ho hb hr).trans ((if_neg (admit_named hn hm hj)).trans
    ((if_neg (by rw [List.isEmpty_iff]; exact ha)).trans (if_pos (by rw [h3, h7]; rfl))))

theorem admitGo_admits (h : (routeByte d n).getLsbD 3 = true ∨ (routeByte d n).getLsbD 7 = true) : admitGo n d =
    let r := routeByte d n
    let free (acc : Dev) (v : Bool) (p : Nat) : Dev := if v then modPort acc p fun q => { q with barred := false } else acc
    let d2 := free (free (fabStart d 1 n) (r.getLsbD 3) (r.toNat % 4)) (r.getLsbD 7) (r.toNat / 16 % 4)
    let d3 := modNode d2 n fun y => { y with state := if y.state == .removed then .absent else y.state }
    if (routeOf d3 n false).isSome then joinStart d3 n else d3 :=
  (admitGo_eq ho hb hr).trans ((if_neg (admit_named hn hm hj)).trans
    ((if_neg (by rw [List.isEmpty_iff]; exact ha)).trans (if_neg (by rcases h with h | h <;> rw [h] <;> simp))))

end

/-! ### REMOVE and REKEY -/

theorem fabRemoveGo_argument (h : ¬ fabNode d n = true ∨ (getNode d n).state = .removed) : fabRemoveGo n d = fabEnd (fabStart d 2 n) 1 := by
  refine (fabRemoveGo_eq ho hb hr).trans (if_pos ?_)
  simp only [Bool.or_eq_true, Bool.not_eq_true', beq_iff_eq, ← Bool.not_eq_true]
  exact h

theorem fabRemoveGo_named (hn : fabNode d n = true) (hs : (getNode d n).state ≠ .removed) : fabRemoveGo n d =
    if nodeInUse d n then fabEnd (fabStart d 2 n) 5
    else fqsFree (fabEnd (modNode (fabStart d 2 n) n fun x => { sessionClear x with state := .removed }) 0) :=
  (fabRemoveGo_eq ho hb hr).trans (if_neg (by rw [hn, beq_eq_false_iff_ne.2 hs]; decide))

theorem rekeyGo_argument (h : ¬ fabNode d n = true ∨ (getNode d n).state ≠ .member) : rekeyGo n d = fabEnd (fabStart d 3 n) 1 := by
  refine (rekeyGo_eq ho hb hr).trans (if_pos ?_)
  simp only [Bool.or_eq_true, Bool.not_eq_true', bne_iff_ne, ← Bool.not_eq_true]
  exact h

theorem rekeyGo_named (hn : fabNode d n = true) (hs : (getNode d n).state = .member) : rekeyGo n d =
    if (getNode d n).stage = 0 then hsStart (fabStart d 3 n) n true else fabStart d 3 n :=
  (rekeyGo_eq ho hb hr).trans (if_neg (by rw [hn, hs]; decide))

end

/-! ## The statement -/

/-- Settles O54: under a clause's conditions the command's meaning is one equation above. A node without an ALLOW row reports IDENTITY and one
without a route ROUTE (log 116); a heartbeat tops grants up (log 118), and what a member's VFs and its table are after the lead is lost are logs
113 and 114. -/
theorem fabricEventResults : Obligations.FabricEventResults := by
  unfold Obligations.FabricEventResults
  dsimp only
  refine ⟨fun s => ⟨fun h => ?_, fun hm hr => ?_⟩, fun s => ?_,
    fun s p => ⟨fun hs hr ht => ?_, fun hs hr ht => ?_, fun h => ?_, fun hp hs => ?_, fun hp hs hb ha => ⟨?_, ?_⟩,
      fun hp hs => ⟨fun h => ?_, fun h => ?_⟩⟩,
    fun s n hl hm => ⟨?_, fun h => ?_, fun h => ?_, fun h => ?_, fun h => ?_⟩, fun s hm hs => ?_, fun s n hops hl hj h3 => ?_,
    fun s => ⟨fun hb ho => ?_, fun h => ?_⟩, fun s n ho hb hr i op h => ?_,
    fun s n ho hb hr => ⟨fun h => ?_, fun hn hm hj => ⟨fun h => ?_, fun ha h3 h7 => ?_, fun ha h => ?_⟩, fun h => ?_, fun hn hs h => ?_,
      fun hn hs h => ?_, fun h => ?_, fun hn hs => ?_⟩⟩
  · exact gives_of (go := heartbeatGo) rfl (heartbeatGo_beats h)
  · exact gives_of (go := heartbeatGo) rfl (heartbeatGo_goesOn hm hr)
  · exact gives_of (go := timeTickGo) rfl rfl
  · exact gives_of (go := portReplay p) rfl (portReplay_retrains hs hr ht)
  · exact gives_of (go := portReplay p) rfl (portReplay_replays hs hr ht)
  · exact gives_of (go := portReplay p) rfl (portReplay_idle h)
  · exact gives_of (go := portLinkGo p .down) rfl (portLinkGo_down hp hs)
  · exact gives_of (go := portLinkGo p .train) rfl (portLinkGo_train hp hs hb ha)
  · exact gives_of (go := portLinkGo p .up) rfl (portLinkGo_up hp hs hb ha)
  · exact gives_of (go := portLinkGo p .failed) rfl ((portFailed_counts hp hs).trans (if_pos h))
  · exact gives_of (go := portLinkGo p .failed) rfl ((portFailed_counts hp hs).trans (if_neg (Nat.not_lt.2 h)))
  · exact gives_of (go := memberLost n 1) rfl (memberLost_loses hl hm 1)
  · exact gives_of (go := gapGo n) rfl (gapGo_loses hl hm h)
  · exact gives_of (go := gapGo n) rfl (gapGo_closed h)
  · exact gives_of (go := renewGo n) rfl (renewGo_starts hl hm h)
  · exact gives_of (go := renewGo n) rfl (renewGo_busy h)
  · refine gives_of (go := leadLostGo) rfl ?_
    simp only [leadLostGo, if_neg (lead_served hm hs)]
  · exact gives_of (go := joinGo n hops) rfl (joinGo_joins hl hops hj h3)
  · exact gives_of (go := admitTimeoutGo) rfl (admitTimeoutGo_ends hb ho)
  · exact gives_of (go := admitTimeoutGo) rfl (admitTimeoutGo_other h)
  · simp only [List.mem_cons, Prod.mk.injEq, List.not_mem_nil, or_false] at h
    rcases h with ⟨rfl, rfl⟩ | ⟨rfl, rfl⟩ | ⟨rfl, rfl⟩
    · exact gives_of (go := admitGo n) rfl (fabRun_keeps ho hb 1 _ hr)
    · exact gives_of (go := fabRemoveGo n) rfl (fabRun_keeps ho hb 2 _ hr)
    · exact gives_of (go := rekeyGo n) rfl (fabRun_keeps ho hb 3 _ hr)
  · exact gives_of (go := admitGo n) rfl (admitGo_argument ho hb hr h)
  · exact gives_of (go := admitGo n) rfl (admitGo_identity ho hb hr hn hm hj h)
  · exact gives_of (go := admitGo n) rfl (admitGo_unrouted ho hb hr hn hm hj ha h3 h7)
  · exact gives_of (go := admitGo n) rfl (admitGo_admits ho hb hr hn hm hj ha h)
  · exact gives_of (go := fabRemoveGo n) rfl (fabRemoveGo_argument ho hb hr h)
  · exact gives_of (go := fabRemoveGo n) rfl ((fabRemoveGo_named ho hb hr hn hs).trans (if_pos h))
  · exact gives_of (go := fabRemoveGo n) rfl ((fabRemoveGo_named ho hb hr hn hs).trans (if_neg (by rw [h]; exact Bool.false_ne_true)))
  · exact gives_of (go := rekeyGo n) rfl (rekeyGo_argument ho hb hr h)
  · exact gives_of (go := rekeyGo n) rfl (rekeyGo_named ho hb hr hn hs)

end Sys2Proof.Proofs.FabricEvents
end
